-- ==== Sys2Proof/Word.lean ====
section
/-! DEFINITION. The word types of the PK9 and the sparse stores that hold registers and bytes. -/

namespace Sys2Proof

/-- A 32-bit register value (R18). -/
abbrev Word := BitVec 32
/-- A byte of memory. -/
abbrev Byte := BitVec 8
/-- The 96-bit instruction word (R79). -/
abbrev IWord := BitVec 96
/-- A store of `w`-bit cells by number: pairs with rising keys, no cell equal to 0 listed; an unlisted cell reads 0. -/
abbrev Sparse (w : Nat) := List (Nat × BitVec w)

end Sys2Proof
end

