-- ==== Sys2Proof/Syntax.lean ====
section
/-! DEFINITION. Instructions and steps of the PK9: one constructor of `Instr` for each row of spec/opcode_table.json. -/

namespace Sys2Proof

/-- An operand of an instruction word (R85, R86). `none` is the unused or absent position (R87). -/
inductive Operand where
  | vec (n : BitVec 8) (etrap : Bool) (m : BitVec 2)
  | idx (off : BitVec 8) (x : BitVec 2) (inc etrap : Bool) (m : BitVec 2)
  | uni (n : BitVec 5) (m : BitVec 2)
  | pred (n : BitVec 3) (neg : Bool)
  | tile (n : BitVec 3)
  | acc (n : BitVec 3)
  | xreg (j : BitVec 2) (m : BitVec 2)
  | lane (m : BitVec 2)
  | hgrp (m : BitVec 2)
  | flag (f : BitVec 4) (neg : Bool)
  | imm (v : BitVec 15)
  | lit (v : BitVec 32)
  | none
  deriving DecidableEq, Repr

/-- The fields of an instruction word beside its opcode (R79). -/
structure Insn where
  mod   : BitVec 8
  guard : BitVec 4
  opd   : Operand
  opa   : Operand
  opb   : Operand
  dist  : BitVec 4
  wait  : BitVec 12
  setf  : BitVec 4
  yld   : Bool
  deriving DecidableEq, Repr

/-- A block by its launch number and its index in the launch (R63). -/
structure BlockKey where
  launch : Nat
  index  : Nat
  deriving DecidableEq, Repr

/-- A thread by its block, home group and lane (R273). -/
structure Tid where
  block : BlockKey
  group : Nat
  lane  : Nat
  deriving DecidableEq, Repr

/-- A packet of the fabric: the header of R359 and its data. -/
structure Packet where
  kind  : Nat
  flags : BitVec 8
  dst   : Nat
  src   : Nat
  ctx   : Nat
  obj   : Nat
  off   : Nat
  tag   : BitVec 32
  op    : BitVec 8
  group : Nat
  plane : Nat
  /-- Data bytes; of a READ, the bytes asked for. -/
  length : Nat
  data  : List Byte
  /-- Bits [15:12] of the group word, which the spec leaves open: of a multicast line, the type qualifier, and bit 3 for REDST.
  [DESIGN CHOICE: log 68] -/
  form  : BitVec 4 := 0
  /-- The GCM tag of an encrypted packet matches at its destination (R360). -/
  tagOk : Bool := true
  deriving DecidableEq, Repr

/-- A flit (R358): its 8-byte header, its payload of 128 bytes and its 8-byte tag. The model adds what only the keys can tell: whether the
tag is the GMAC under the link's key, and whether the GCM tag that ends a packet matches at its destination (R360). [DESIGN CHOICE: log 89] -/
structure Flit where
  header  : BitVec 64
  payload : List Byte
  tag     : BitVec 64
  gmacOk  : Bool := true
  gcmOk   : Bool := true
  deriving DecidableEq, Repr

/-- What goes over a link: flits, and what the receiver tells the sender (R358): it has taken a flit, or asks for a replay from one on.
[DESIGN CHOICE: log 89] -/
inductive LinkItem where
  | flit (f : Flit)
  | ack (seq : BitVec 8)
  | replay (seq : BitVec 8)
  deriving DecidableEq, Repr

/-- What a debugger names of a stopped thread (R378). -/
inductive DebugPlace where
  | vector (r : Nat)
  | indexed (x : Nat) (off : Nat)
  | predicate (p : Nat)
  | index (x : Nat)
  | fpflags
  | uniform (n : Nat)
  | tileByte (t byte : Nat)
  | flag (f : Nat)
  | region (a row col : Nat)
  | localByte (addr : Nat)
  deriving DecidableEq, Repr

/-- A device register that software writes through the management mailbox or a configuration port (R3). -/
inductive DeviceReg where
  | planemap
  | devstat
  | integrityMode (channel : Nat)
  | sampling (ctx : Nat)
  | breakStops (ctx : Nat)
  | poolGrant (first size : Nat)
  | poolRefuse (first size : Nat)
  | groupEntry (group byte : Nat)
  | skew (i : Nat)
  deriving DecidableEq, Repr

/-- How one step of bring-up ended (R382): what the self-tests and repairs found. -/
structure BringUpResult where
  signatures : Bool
  calibrated : Bool
  badQuarters : BitVec 4
  badClusters : List Nat
  identity : Bool
  /-- Device ID, from the position in the fabric (R352), and whether port 2 is a host link (R368). -/
  device : Nat
  host2 : Bool
  deriving DecidableEq, Repr

/-- One constructor for each row of spec/opcode_table.json. The first group is the instructions of the 96-bit word;
the second is the steps of the device's units, with what distinguishes one such step from another. -/
inductive Instr where
  | nop (f : Insn) | mov (f : Insn) | movl (f : Insn) | sel (f : Insn)
  | iadd (f : Insn) | isub (f : Insn) | imul (f : Insn) | imulh (f : Insn) | imad (f : Insn)
  | imin (f : Insn) | imax (f : Insn) | iabs (f : Insn) | ineg (f : Insn) | isad (f : Insn)
  | and (f : Insn) | or (f : Insn) | xor (f : Insn) | andn (f : Insn) | not (f : Insn)
  | shl (f : Insn) | shr (f : Insn) | sar (f : Insn) | rotl (f : Insn)
  | bfx (f : Insn) | bfi (f : Insn) | popc (f : Insn) | clz (f : Insn) | brev (f : Insn)
  | icmp (f : Insn) | lea (f : Insn) | bpick (f : Insn) | bmix (f : Insn) | idot4 (f : Insn) | par (f : Insn)
  | fadd (f : Insn) | fsub (f : Insn) | fmul (f : Insn) | ffma (f : Insn) | fmin (f : Insn) | fmax (f : Insn)
  | fcmp (f : Insn) | frcp (f : Insn) | frsq (f : Insn) | fsqrt (f : Insn) | fexp2 (f : Insn) | flog2 (f : Insn)
  | ftanh (f : Insn) | fclass (f : Insn) | fscalb (f : Insn) | cvt (f : Insn)
  | bfma2 (f : Insn) | badd2 (f : Insn) | bmul2 (f : Insn) | frnd (f : Insn)
  | plop (f : Insn) | poll (f : Insn) | lxch (f : Insn) | lshf (f : Insn) | lbcast (f : Insn) | lred (f : Insn)
  | rdlane (f : Insn) | xset (f : Insn) | xget (f : Insn) | xadv (f : Insn)
  | bra (f : Insn) | brx (f : Insn) | call (f : Insn) | ret (f : Insn) | exit (f : Insn) | yield (f : Insn)
  | spawn (f : Insn) | trap (f : Insn) | tret (f : Insn)
  | barinit (f : Insn) | bararr (f : Insn) | barwait (f : Insn) | bartest (f : Insn) | gsync (f : Insn)
  | mbxputRsv (f : Insn) | mbxputPub (f : Insn) | mbxgetTake (f : Insn) | mbxgetRel (f : Insn)
  | quota (f : Insn) | rdsys (f : Insn) | wrsys (f : Insn) | clock (f : Insn) | waitf (f : Insn)
  | cancel (f : Insn) | enq (f : Insn) | bkpt (f : Insn) | replay (f : Insn)
  | ld (f : Insn) | st (f : Insn) | ldl (f : Insn) | stl (f : Insn) | ldgl (f : Insn) | atom (f : Insn)
  | atoml (f : Insn) | red (f : Insn) | mcst (f : Insn) | redst (f : Insn) | pref (f : Insn) | fence (f : Insn)
  | fencex (f : Insn) | oprdy (f : Insn) | vdup (f : Insn) | vnarrow (f : Insn) | vdrop (f : Insn) | vqry (f : Insn)
  | wload (f : Insn) | mma (f : Insn) | accz (f : Insn) | accrd (f : Insn) | accwr (f : Insn) | accdr (f : Insn)
  | accld (f : Insn) | rowmax (f : Insn) | rowexp (f : Insn) | rowsc (f : Insn) | place (f : Insn) | tld (f : Insn)
  | tst (f : Insn) | tdset (f : Insn) | tdget (f : Insn) | locof (f : Insn) | optaw (f : Insn) | statst (f : Insn)
  | statld (f : Insn) | lscale (f : Insn) | cpkick (f : Insn) | chainBind (f : Insn) | chainUnbind (f : Insn)
  | issueGroupSelect (core sched : Nat)
  | forcedCandidate (b : BlockKey) (g : Nat)
  | yieldTimeout (b : BlockKey) (g : Nat)
  | waitfLimit (t : Tid)
  | fixedLatencyWrite (core i : Nat)
  | fillArrival (core i : Nat)
  | deferredTrap (b : BlockKey) (g : Nat)
  | memueTrap (t : Tid)
  | mcnackTrap (t : Tid)
  | cancelTrap (b : BlockKey)
  | waitTableRetry (core : Nat)
  | gsyncComplete (b : BlockKey) (g : Nat)
  | hangDetect (b : BlockKey) (g : Nat)
  | hangTrap (b : BlockKey) (g : Nat)
  | mmaSlice (core : Nat)
  | engineOperationDone (core : Nat)
  | accdrRow (core : Nat)
  | placePassStep (i : Nat)
  | copyRequest (core i : Nat)
  | ldglBytesWritten (core i : Nat)
  | storePerformed (core i : Nat)
  | reclamationSequence (i : Nat)
  | shootdown (core i : Nat)
  | handleGrant (core n : Nat)
  | promotionRequest (core : Nat)
  | serialisationRequest (core : Nat)
  | launch (q : Nat) | wait (q : Nat) | signal (q : Nat) | prefetch (q : Nat) | graph (q : Nat)
  | blockPlace (launch : Nat)
  | drainClusterReserve (launch : Nat)
  | gangEvictDecision (launch : Nat)
  | blockEvictionDone (b : BlockKey)
  | prologue (b : BlockKey)
  | blockStart (b : BlockKey)
  | blockEnd (b : BlockKey)
  | continuationGroupTimeout (launch entry : Nat)
  | queueDrained (q : Nat)
  | registerQueue (ctx : Nat) (ptr : BitVec 64)
  | reset (q : Nat) (skip : Bool)
  | disable (q : Nat)
  | enable (q : Nat)
  | registerContext (quarter addr : Nat)
  | start (ctx : Nat)
  | preempt (ctx : Nat)
  | preemptSaveDone (ctx : Nat)
  | resume (ctx : Nat)
  | restoreDone (ctx : Nat)
  | destroy (ctx : Nat)
  | contextFault (ctx : Nat)
  | viewroot (ctx obj low high : Nat) (rights : BitVec 8)
  | viewrecycle (ctx index : Nat)
  | pagering (ctx : Nat) (ptr : BitVec 64)
  | fill
  | fillDone (i : Nat)
  | evict
  | evictionDone (i : Nat)
  | softError (quarter addr : Nat) (corrected : Bool)
  | frameLost (ctx obj off : Nat)
  | bringUp (r : BringUpResult)
  | pstate (target : Nat) (quarters : BitVec 4)
  | currentLimiterWindow (core : Nat)
  | attest (nonce : BitVec 256)
  | debugLevel (level : Nat) (token : Bool)
  | lifecycleAdvance
  | skewMeasure (i : Nat) (value : BitVec 32)
  | linkTrain (l : Nat)
  | linkTrained (l lanes : Nat)
  | linkTrainingTimeout (l : Nat)
  | linkKeyed (l : Nat) (ok : Bool)
  | laneLost (l : Nat)
  | crcErrorThreshold (l : Nat)
  | linkRetrain (l : Nat)
  | retrainingDone (l lanes : Nat)
  | linkRepair (l : Nat)
  | rekey (l : Nat)
  | noProgressTimer (l vc : Nat) (moving : Bool)
  | flitReceive (l : Nat) (item : LinkItem)
  | remap (plane : Nat) (failed : BitVec 8)
  | routingBankUpdate (plane : Nat) (rings : Nat × Nat × Nat) (places : List (Nat × Nat))
  | bankRetire (plane : Nat)
  | deviceFailureDetected (dev : Nat)
  | read (p : Packet) | write (p : Packet) | atomic (p : Packet) | redPacket (p : Packet) | mcast (p : Packet)
  | data (p : Packet) | ack (p : Packet) | linknack (p : Packet) | retriedRequest (kind : Nat) (p : Packet)
  | refused (p : Packet) | mack (p : Packet) | mgt (p : Packet)
  | dbghold (src : Nat)
  | dbgresume (src : Nat)
  | deepHalt
  | breakpointRegisterWrite (ctx i launch : Nat) (pc : Word) (on : Bool)
  | debugResume (b : Option BlockKey)
  | debugRegisterAccess (t : Tid) (place : DebugPlace) (write : Option Word)
  | dump (ctx : Nat) (spaceFirst spaceSize : Nat)
  | dumpRelease (ctx : Nat)
  | registerTraceRing (ctx : Nat) (ptr : BitVec 64)
  | sampleRecord (core : Nat) (t : Tid) (stages : List (BitVec 16)) (obj off : Nat)
  | registerWrite (reg : DeviceReg) (value : Word)
  | hostAccess (ctx obj off : Nat) (write : Option (List Byte)) (size : Nat)
  | pstateReached
  | powerLoss
  | debugHalt (freeze : Bool)
  | tdsetDone (b : BlockKey) (g tile : Nat)
  deriving DecidableEq, Repr

end Sys2Proof
end

