-- ==== Sys2Proof/Machine/Forms.lean ====
section
/-! DEFINITION. The encoding forms: for every opcode, which MOD values, operand classes and operand modifiers
its description accepts (R83 step 2, R85 to R89, R95 to R97 and each instruction's own rule). -/

namespace Sys2Proof

/-- The operand kinds an operand position may accept (R85). `dvec` is a direct vector register only (R70). -/
inductive Kind where
  | vec | dvec | uni | pred | tile | acc | xreg | special | flag | imm | lit | none
  deriving DecidableEq, Repr

/-- What an operand position accepts: kinds, modifier codes of registers, negation of predicates, ETRAP. -/
structure Pos where
  kinds : List Kind
  mods  : List (BitVec 2)
  neg   : Bool
  etrap : Bool
  deriving DecidableEq, Repr

/-- The form of an opcode. `opb` also sees the decoded OPD, because FCLASS reads OPB only for a predicate. -/
structure Form where
  modOk : BitVec 8 → Bool
  opd   : BitVec 8 → Pos
  opa   : BitVec 8 → Pos
  opb   : BitVec 8 → Operand → Pos
  coll  : BitVec 8 → Bool
  extra : Insn → Bool

namespace Forms

/-! ### MOD fields (R95, R96) -/

/-- MOD[7:4], the type code. -/
def ty (m : BitVec 8) : Nat := (m.extractLsb' 4 4).toNat
/-- MOD[3], `.sat`. -/
def sat (m : BitVec 8) : Bool := m.getLsbD 3
/-- MOD[2:0]. -/
def low3 (m : BitVec 8) : Nat := (m.extractLsb' 0 3).toNat
/-- MOD[3:0]. -/
def low4 (m : BitVec 8) : Nat := (m.extractLsb' 0 4).toNat
/-- MOD[7:5], the scope code. -/
def scope (m : BitVec 8) : Nat := (m.extractLsb' 5 3).toNat
/-- MOD[4:3], the order code. -/
def order (m : BitVec 8) : Nat := (m.extractLsb' 3 2).toNat
/-- MOD[7:6]. -/
def hi2 (m : BitVec 8) : Nat := (m.extractLsb' 6 2).toNat
/-- MOD[5:4]. -/
def mid2 (m : BitVec 8) : Nat := (m.extractLsb' 4 2).toNat
/-- MOD[3:2]. -/
def w2 (m : BitVec 8) : Nat := (m.extractLsb' 2 2).toNat
/-- MOD[1:0]. -/
def low2 (m : BitVec 8) : Nat := (m.extractLsb' 0 2).toNat
/-- MOD[7:3]. -/
def high5 (m : BitVec 8) : Nat := (m.extractLsb' 3 5).toNat

/-! ### Positions -/

/-- The unused position: 18 zero bits (R87). -/
def pNone : Pos := ⟨[.none], [], false, false⟩
/-- A source of the register families (R117). -/
def pSrc : Pos := ⟨[.vec, .uni, .xreg, .special, .imm], [0], false, true⟩
/-- A source in OPA of an instruction that reads no OPB. -/
def pSrcL : Pos := ⟨[.vec, .uni, .xreg, .special, .imm, .lit], [0], false, true⟩
/-- A source that may be complemented (AND, OR, XOR). -/
def pSrcC : Pos := ⟨[.vec, .uni, .xreg, .special, .imm], [0, 1], false, true⟩
/-- A floating source: all four modifier codes. -/
def pSrcF : Pos := ⟨[.vec, .uni, .xreg, .special, .imm], [0, 1, 2, 3], false, true⟩
/-- A floating source of an instruction that reads no OPB. -/
def pSrcFL : Pos := ⟨[.vec, .uni, .xreg, .special, .imm, .lit], [0, 1, 2, 3], false, true⟩
/-- A register destination. -/
def pDst : Pos := ⟨[.vec, .uni], [0], false, false⟩
/-- A register or predicate destination. -/
def pDstP : Pos := ⟨[.vec, .uni, .pred], [0], false, false⟩
/-- A predicate destination. -/
def pDstPred : Pos := ⟨[.pred], [], false, false⟩
/-- A predicate or flag source, which may be negated. -/
def pPredSrc : Pos := ⟨[.pred, .flag], [], true, true⟩
/-- A source of the control family (R148). -/
def pCtl : Pos := ⟨[.vec, .uni, .imm], [0], false, true⟩
/-- A control source in OPA of an instruction that reads no OPB. -/
def pCtlL : Pos := ⟨[.vec, .uni, .imm, .lit], [0], false, true⟩
/-- A vector or uniform register. -/
def pReg : Pos := ⟨[.vec, .uni], [0], false, true⟩
/-- An immediate or a uniform. -/
def pImmUni : Pos := ⟨[.imm, .uni], [0], false, true⟩
/-- A pointer or local operand with its access qualifier codes (R176). -/
def pPtr (q : List (BitVec 2)) : Pos := ⟨[.vec, .uni], q, false, true⟩
/-- The destination vector register of a load. -/
def pLoadDst : Pos := ⟨[.vec], [0], false, false⟩
/-- A direct run of registers named by its first. -/
def pRun : Pos := ⟨[.dvec], [0], false, false⟩
/-- A direct run read as a source. -/
def pRunSrc : Pos := ⟨[.dvec], [0], false, true⟩
/-- A vector register source. -/
def pVecSrc : Pos := ⟨[.vec], [0], false, true⟩
/-- A uniform register. -/
def pUni : Pos := ⟨[.uni], [0], false, false⟩
/-- An accumulator region. -/
def pAcc : Pos := ⟨[.acc], [], false, false⟩
/-- A tile register. -/
def pTile : Pos := ⟨[.tile], [], false, false⟩

/-! ### Shapes shared by several opcodes -/

def noColl : BitVec 8 → Bool := fun _ => false
def isColl : BitVec 8 → Bool := fun _ => true
def noExtra : Insn → Bool := fun _ => true
/-- Immediate value as an unsigned number, none for another operand. -/
def immNat : Operand → Option Nat
  | .imm v => some v.toNat
  | _ => .none
/-- An immediate, where one stands, lies in 0 to `n`. -/
def immLe (n : Nat) (o : Operand) : Bool := (immNat o).all (· ≤ n)

/-- Two sources and a destination. -/
def form2 (modOk : BitVec 8 → Bool) (d a b : Pos) : Form :=
  ⟨modOk, fun _ => d, fun _ => a, fun _ _ => b, noColl, noExtra⟩
/-- One source and a destination. -/
def form1 (modOk : BitVec 8 → Bool) (d a : Pos) : Form := form2 modOk d a pNone
/-- A form of one exact MOD value. -/
def modIs (v : BitVec 8) : BitVec 8 → Bool := fun m => m == v

/-- `.b32` or `.n64` with nothing else set. -/
def mLogic : BitVec 8 → Bool := fun m => (ty m == 8 || ty m == 3) && low4 m == 0
/-- An integer type, `.sat` allowed. -/
def mIntSat : BitVec 8 → Bool := fun m => ty m ≤ 7 && low3 m == 0
/-- An integer type, no `.sat`. -/
def mInt : BitVec 8 → Bool := fun m => ty m ≤ 7 && low4 m == 0
/-- `.f32` with a rounding code and `.sat`. -/
def mF32 : BitVec 8 → Bool := fun m => ty m == 9 && low3 m ≤ 4
/-- `.f32` with a rounding code. -/
def mF32NoSat : BitVec 8 → Bool := fun m => ty m == 9 && low4 m ≤ 4
/-- `.bf16` with a rounding code and `.sat`. -/
def mBf16 : BitVec 8 → Bool := fun m => ty m == 10 && low3 m ≤ 4
/-- A type CVT names (R137). -/
def cvtType (t : Nat) : Bool := t ≤ 7 || t == 9 || t == 10 || t == 11
/-- A scope in MOD[7:5] and nothing else. -/
def mScope : BitVec 8 → Bool := fun m => scope m ≤ 6 && (m.extractLsb' 0 5).toNat == 0

/-- A `.b128` register operand is four direct registers from a multiple of 4 (R180). -/
def quad : Operand → Bool
  | .vec n _ _ => n.toNat % 4 == 0
  | _ => false
/-- The direct uniform with an even number at most 20 (R217). -/
def evenUniLe20 : Operand → Bool
  | .uni n _ => n.toNat % 2 == 0 && n.toNat ≤ 20
  | _ => true
/-- The operation and type pairs of R190; the type is the access qualifier. -/
def atomPair (op q : Nat) : Bool :=
  op ≤ 2 || (op ≤ 5 && (q == 0 || q == 2)) || (op == 6 && (q == 0 || q == 2 || q == 3)) || (op == 7 && (q == 0 || q == 2))
/-- The modifier or access qualifier of a register operand. -/
def qualOf : Operand → Nat
  | .vec _ _ m => m.toNat
  | .idx _ _ _ _ m => m.toNat
  | .uni _ m => m.toNat
  | _ => 0
/-- A 64-bit type takes no class 2 or class 5 operand (R121). -/
def movWide (f : Insn) : Bool :=
  let narrow : Operand → Bool := fun o => match o with
    | .pred _ _ | .xreg _ _ | .lane _ | .hgrp _ | .flag _ _ => true
    | _ => false
  ty f.mod == 8 || !(narrow f.opd || narrow f.opa)

/-- A load: data register by size code. -/
def loadDst (m : BitVec 8) : Pos := if low3 m == 6 then pRun else pLoadDst
/-- The data operand of a store. -/
def storeData (m : BitVec 8) : Pos := if low3 m == 6 then pRun else ⟨[.vec, .uni], [0], false, false⟩
def quadExtra (f : Insn) : Bool := low3 f.mod != 6 || quad f.opd
/-- A displacement (R176). -/
def pDisp : Pos := ⟨[.imm, .vec, .uni], [0], false, true⟩

/-! ### The map (R98), one row an opcode -/

/-- Opcodes 0x00 to 0x21: integer and logic. -/
def intForm : Nat → Option Form
  | 0x00 => some (form1 (modIs 0) pNone pNone)
  | 0x01 => some { form1 mLogic ⟨[.vec, .uni, .pred, .xreg], [0], false, false⟩
                    ⟨[.vec, .uni, .xreg, .special, .imm, .pred], [0], true, true⟩ with extra := movWide }
  | 0x02 => some { form1 (fun m => (ty m == 8 || ty m == 3 || ty m == 2) && low4 m == 0)
                    ⟨[.vec, .uni, .xreg], [0], false, false⟩ ⟨[.lit], [0], false, false⟩ with extra := movWide }
  | 0x03 => some (form2 (fun m => (ty m == 8 || ty m == 3) && !sat m) pDst pSrc pSrc)
  | 0x04 => some (form2 mIntSat pDst pSrc pSrc)
  | 0x05 => some (form2 mIntSat pDst pSrc pSrc)
  | 0x06 => some (form2 mIntSat pDst pSrc pSrc)
  | 0x07 => some (form2 (fun m => ty m ≤ 3 && low4 m == 0) pDst pSrc pSrc)
  | 0x08 => some (form2 mIntSat pDst pSrc pSrc)
  | 0x09 => some (form2 mInt pDst pSrc pSrc)
  | 0x0A => some (form2 mInt pDst pSrc pSrc)
  | 0x0B => some (form1 (fun m => ty m ≤ 7 && ty m % 2 == 0 && low3 m == 0) pDst pSrcL)
  | 0x0C => some (form1 (fun m => ty m ≤ 7 && ty m % 2 == 0 && low3 m == 0) pDst pSrcL)
  | 0x0D => some (form2 mIntSat pDst pSrc pSrc)
  | 0x0E => some (form2 mLogic pDst pSrcC pSrcC)
  | 0x0F => some (form2 mLogic pDst pSrcC pSrcC)
  | 0x10 => some (form2 mLogic pDst pSrcC pSrcC)
  | 0x11 => some (form2 mLogic pDst pSrc pSrc)
  | 0x12 => some (form1 mLogic pDst pSrcL)
  | 0x13 => some (form2 mLogic pDst pSrc pSrc)
  | 0x14 => some (form2 mLogic pDst pSrc pSrc)
  | 0x15 => some (form2 mLogic pDst pSrc pSrc)
  | 0x16 => some (form2 mLogic pDst pSrc pSrc)
  | 0x17 => some (form2 (fun m => ty m ≤ 1 && low4 m == 0) pDst pSrc pSrc)
  | 0x18 => some (form2 (modIs 0x80) pDst pSrc pSrc)
  | 0x19 => some (form1 mLogic pDst pSrcL)
  | 0x1A => some (form1 mLogic pDst pSrcL)
  | 0x1B => some (form1 mLogic pDst pSrcL)
  | 0x1C => some (form2 (fun m => ty m ≤ 8 && low4 m ≤ 5) pDstP pSrc pSrc)
  | 0x1D => some (form2 (fun m => ty m ≤ 1 && !sat m) pDst pSrc pSrc)
  | 0x1E => some (form2 (modIs 0x80) pDst pSrc pCtl)
  | 0x1F => some (form2 (fun _ => true) pDst pSrc pSrc)
  | 0x20 => some (form2 (fun m => (ty m == 6 || ty m == 7) && low3 m == 0) pDst pSrc pSrc)
  | 0x21 => some (form2 mLogic pDstP pSrc pSrc)
  | _ => .none

/-- CVT: OPB holds the source type (R137). -/
def cvtExtra (f : Insn) : Bool :=
  match f.opb with
  | .imm v => v.toNat ≤ 15 && cvtType v.toNat && v.toNat != ty f.mod && (8 ≤ v.toNat || qualSrc f.opa == 0)
  | _ => false
where
  qualSrc : Operand → Nat
  | .vec _ _ m => m.toNat
  | .idx _ _ _ _ m => m.toNat
  | .uni _ m => m.toNat
  | .xreg _ m => m.toNat
  | .lane m => m.toNat
  | .hgrp m => m.toNat
  | _ => 0

/-- Opcodes 0x40 to 0x53: floating point and conversion. -/
def floatForm : Nat → Option Form
  | 0x40 => some (form2 mF32 pDst pSrcF pSrcF)
  | 0x41 => some (form2 mF32 pDst pSrcF pSrcF)
  | 0x42 => some (form2 mF32 pDst pSrcF pSrcF)
  | 0x43 => some (form2 mF32 pDst pSrcF pSrcF)
  | 0x44 => some (form2 (modIs 0x90) pDst pSrcF pSrcF)
  | 0x45 => some (form2 (modIs 0x90) pDst pSrcF pSrcF)
  | 0x46 => some (form2 (fun m => (ty m == 9 || ty m == 10) && !sat m) pDstP pSrcF pSrcF)
  | 0x47 => some (form1 mF32 pDst pSrcFL)
  | 0x48 => some (form1 mF32NoSat pDst pSrcFL)
  | 0x49 => some (form1 mF32NoSat pDst pSrcFL)
  | 0x4A => some (form1 mF32NoSat pDst pSrcFL)
  | 0x4B => some (form1 mF32NoSat pDst pSrcFL)
  | 0x4C => some (form1 mF32NoSat pDst pSrcFL)
  | 0x4D => some ⟨fun m => (ty m == 9 || ty m == 10 || ty m == 11) && low4 m == 0, fun _ => pDstP, fun _ => pSrcFL,
      fun _ d => match d with
        | .pred _ _ => pCtl
        | _ => pNone, noColl, noExtra⟩
  | 0x4E => some (form2 mF32 pDst pSrcF pSrc)
  | 0x4F => some { form2 (fun m => cvtType (ty m) && low3 m ≤ 4) pDst pSrcF ⟨[.imm], [], false, false⟩ with extra := cvtExtra }
  | 0x50 => some (form2 mBf16 pDst pSrcF pSrcF)
  | 0x51 => some (form2 mBf16 pDst pSrcF pSrcF)
  | 0x52 => some (form2 mBf16 pDst pSrcF pSrcF)
  | 0x53 => some (form1 (fun m => (ty m == 9 || ty m == 10) && low4 m ≤ 4) pDst pSrcFL)
  | _ => .none

/-- LRED's operation and type (R145). -/
def lredOk (m : BitVec 8) : Bool :=
  (low3 m ≤ 2 && (ty m == 0 || ty m == 1 || ty m == 9)) || (3 ≤ low3 m && low3 m ≤ 5 && ty m == 8)

/-- Opcodes 0x70 to 0x79: predicate, lane and index. -/
def laneForm : Nat → Option Form
  | 0x70 => some ⟨fun m => high5 m == 0 && low3 m ≤ 4, fun _ => pDstPred, fun _ => pPredSrc,
      fun m _ => if low3 m == 4 then pNone else pPredSrc, noColl, noExtra⟩
  | 0x71 => some ⟨fun m => high5 m == 0 && low3 m ≤ 4, fun m => if low3 m ≤ 2 then pDstP else pDst, fun _ => pPredSrc,
      fun m _ => if low3 m == 3 then pImmUni else pNone, noColl, fun f => immLe 3 f.opb⟩
  | 0x72 => some ⟨fun m => (ty m == 8 || ty m == 3) && low3 m ≤ 6, fun _ => pNone, fun _ => pVecSrc, fun _ _ => pVecSrc,
      sat, noExtra⟩
  | 0x73 => some ⟨fun m => (ty m == 8 || ty m == 3) && low4 m ≤ 3, fun _ => pDst, fun _ => pVecSrc, fun _ _ => pImmUni,
      noColl, fun f => immLe 127 f.opb⟩
  | 0x74 => some ⟨mLogic, fun _ => pDst, fun _ => pVecSrc, fun _ _ => pImmUni, noColl, fun f => immLe 127 f.opb⟩
  | 0x75 => some (form1 lredOk pDst pSrcL)
  | 0x76 => some (form2 mLogic pDst pVecSrc pCtl)
  | 0x77 => some (form1 (fun m => m.toNat ≤ 5) ⟨[.xreg], [0], false, false⟩ pCtlL)
  | 0x78 => some (form1 (fun m => m.toNat ≤ 5) pDst ⟨[.xreg], [0], false, true⟩)
  | 0x79 => some (form1 (modIs 0) ⟨[.xreg], [0], false, false⟩ pCtlL)
  | _ => .none

/-- The selectors of RDSYS (R169). -/
def selectorOk (m : BitVec 8) : Bool := m.toNat ≤ 0x0D || (0x40 ≤ m.toNat && m.toNat ≤ 0x42)

/-- Opcodes 0x80 to 0x98: control, synchronisation and system. -/
def ctlForm : Nat → Option Form
  | 0x80 => some (form1 (modIs 0) pNone ⟨[.imm, .lit], [0], false, false⟩)
  | 0x81 => some (form1 (modIs 0) pNone pReg)
  | 0x82 => some ⟨fun m => m.toNat ≤ 1, fun _ => pDst, fun m => if m == 0 then ⟨[.imm, .lit], [0], false, false⟩ else pReg,
      fun _ _ => pNone, noColl, noExtra⟩
  | 0x83 => some (form1 (modIs 0) pNone pReg)
  | 0x84 => some (form1 (modIs 0) pNone pNone)
  | 0x85 => some (form1 (modIs 0) pNone pNone)
  | 0x86 => some (form2 (modIs 0) pNone pRunSrc pCtl)
  | 0x87 => some (form1 (modIs 0) pNone pCtlL)
  | 0x88 => some (form1 (fun m => m.toNat ≤ 1) pNone pNone)
  | 0x89 => some (form2 (modIs 0) pNone pCtl pCtl)
  | 0x8A => some ⟨fun m => m.toNat ≤ 1, fun _ => ⟨[.vec, .pred], [0], false, false⟩, fun m => if m == 0 then pCtlL else pCtl,
      fun m _ => if m == 0 then pNone else pCtl, noColl, fun f => match f.opd with
        | .pred n _ => n == 7
        | _ => true⟩
  | 0x8B => some (form2 (modIs 0) pNone pCtl pCtl)
  | 0x8C => some (form2 (modIs 0) pDstPred pCtl pCtl)
  | 0x8D => some (form1 (modIs 0) pNone pNone)
  | 0x8E => some ⟨fun m => m.toNat ≤ 3, fun m => if m.getLsbD 0 then pNone else pDst, fun m => if m.getLsbD 0 then pCtl else pCtlL,
      fun m _ => if m.getLsbD 0 then pCtl else pNone, noColl, noExtra⟩
  | 0x8F => some ⟨fun m => m.toNat ≤ 3, fun m => if m.getLsbD 0 then pNone else pDst, fun m => if m.getLsbD 0 then pCtl else pCtlL,
      fun m _ => if m.getLsbD 0 then pCtl else pNone, noColl, noExtra⟩
  | 0x90 => some (form2 (modIs 0) pNone pImmUni pImmUni)
  | 0x91 => some ⟨selectorOk, fun _ => pDst, fun _ => pNone,
      fun m _ => if m == 0x0D then ⟨[.imm], [], false, false⟩ else pNone, noColl, fun f => immLe 3 f.opb⟩
  | 0x92 => some (form1 (modIs 8) pNone pCtlL)
  | 0x93 => some (form1 (modIs 0) pDst pNone)
  | 0x94 => some (form2 (modIs 0) ⟨[.pred, .none], [], false, false⟩ pImmUni ⟨[.imm, .uni, .none], [0], false, true⟩)
  | 0x95 => some (form1 (modIs 0) pNone pReg)
  | 0x96 => some (form2 (modIs 0) pNone pReg pCtl)
  | 0x97 => some (form1 (modIs 0) pNone ⟨[.imm, .none], [], false, false⟩)
  | 0x98 => some ⟨fun m => m.toNat ≤ 1, fun _ => pNone, fun m => if m == 0 then pReg else pCtl, fun _ _ => pImmUni,
      noColl, noExtra⟩
  | _ => .none

/-- Opcodes 0xA0 to 0xB1: memory, atomics, fences and views. -/
def memForm : Nat → Option Form
  | 0xA0 => some ⟨fun m => scope m ≤ 6 && order m == 0 && low3 m ≤ 6, loadDst, fun _ => pPtr [0, 1], fun _ _ => pDisp,
      noColl, quadExtra⟩
  | 0xA1 => some ⟨fun m => high5 m == 0 && [0, 2, 4, 5, 6].contains (low3 m), storeData, fun _ => pPtr [0],
      fun _ _ => pDisp, noColl, quadExtra⟩
  | 0xA2 => some ⟨fun m => high5 m == 0 && low3 m ≤ 6, loadDst, fun _ => pPtr [0], fun _ _ => pDisp, noColl, quadExtra⟩
  | 0xA3 => some ⟨fun m => high5 m == 0 && [0, 2, 4, 5, 6].contains (low3 m), storeData, fun _ => pPtr [0],
      fun _ _ => pDisp, noColl, quadExtra⟩
  | 0xA4 => some (form2 (fun m => 4 ≤ m.toNat && m.toNat ≤ 6) ⟨[.vec, .uni], [0], false, false⟩ (pPtr [0]) pReg)
  | 0xA5 => some { form2 (fun m => scope m ≤ 6) pLoadDst (pPtr [0, 1, 2, 3]) pCtl with
                    extra := fun f => atomPair (low3 f.mod) (qualOf f.opa) }
  | 0xA6 => some { form2 (fun m => scope m ≤ 3) pLoadDst (pPtr [0, 1, 2, 3]) pCtl with
                    extra := fun f => atomPair (low3 f.mod) (qualOf f.opa) }
  | 0xA7 => some { form2 (fun m => scope m ≤ 6 && low3 m ≤ 5 && order m % 2 == 0) pNone (pPtr [0, 1, 2, 3]) pCtl with
                    extra := fun f => atomPair (low3 f.mod) (qualOf f.opa) }
  | 0xA8 => some ⟨fun m => (scope m == 5 || scope m == 6) && order m % 2 == 0 && 4 ≤ low3 m && low3 m ≤ 6, storeData,
      fun _ => pPtr [0], fun _ _ => pUni, noColl, quadExtra⟩
  | 0xA9 => some { form2 (fun m => (scope m == 5 || scope m == 6) && order m % 2 == 0 && low3 m ≤ 5)
                    ⟨[.vec, .uni], [0], false, false⟩ (pPtr [0, 1, 2, 3]) pUni with
                    extra := fun f => atomPair (low3 f.mod) (qualOf f.opa) }
  | 0xAA => some (form2 (fun m => m.toNat ≤ 1) pNone (pPtr [0]) pDisp)
  | 0xAB => some (form1 (fun m => scope m ≤ 6 && 1 ≤ order m && low3 m ≤ 1 &&
      (low3 m == 0 || (order m % 2 == 1 && 4 ≤ scope m))) pNone pNone)
  | 0xAC => some (form1 (fun m => 2 ≤ scope m && scope m ≤ 6 && order m == 0 && low3 m == 0) pNone pNone)
  | 0xAD => some { form1 (fun m => 1 ≤ scope m && scope m ≤ 3 && order m == 0 && low3 m == 0) pNone pNone with coll := isColl }
  | 0xAE => some (form2 (modIs 0) pDst (pPtr [0]) pCtl)
  | 0xAF => some (form2 (modIs 0) pNone (pPtr [0]) pReg)
  | 0xB0 => some (form1 (modIs 0) pNone (pPtr [0]))
  | 0xB1 => some (form1 (fun m => m.toNat ≤ 2) pDst (pPtr [0]))
  | _ => .none

/-- Opcodes 0xD0 to 0xE5: matrix, tensor, engines and training. -/
def tensorForm : Nat → Option Form
  | 0xD0 => some { form1 (fun m => hi2 m == 0 && !sat m && low2 m == 0) pNone pUni with coll := isColl }
  | 0xD1 => some ⟨fun m => hi2 m ≤ 2 && mid2 m ≤ 2 && !m.getLsbD 0 && (w2 m == 0 || !m.getLsbD 1), fun _ => pAcc,
      fun m => if hi2 m == 0 then pRunSrc else if hi2 m == 1 then pUni else ⟨[.imm], [], false, false⟩,
      fun m _ => if w2 m == 0 then pNone else pUni, isColl, fun f => immLe 7 f.opa && evenUniLe20 f.opb⟩
  | 0xD2 => some { form1 (fun m => m.toNat ≤ 1) pAcc pNone with coll := isColl }
  | 0xD3 => some { form2 (fun m => m.toNat ≤ 3) pRun pAcc pImmUni with coll := isColl }
  | 0xD4 => some { form2 (fun m => m.toNat ≤ 3) pAcc pRunSrc pImmUni with coll := isColl }
  | 0xD5 => some ⟨fun m => hi2 m ≤ 2 && mid2 m ≤ 2 && low2 m ≤ 2, fun _ => ⟨[.vec], [0], false, false⟩, fun _ => pAcc,
      fun m _ => if hi2 m == 2 then ⟨[.imm], [], false, false⟩ else pUni, isColl, fun f => immLe 7 f.opb⟩
  | 0xD6 => some { form1 (fun m => hi2 m ≤ 1 && (m.extractLsb' 1 5).toNat == 0) pAcc pUni with coll := isColl }
  | 0xD7 => some ⟨fun m => high5 m == 0 && low2 m ≤ 2, fun _ => ⟨[.vec], [0], false, false⟩, fun _ => pAcc,
      fun m _ => if low2 m == 0 then pNone else pCtl, isColl, noExtra⟩
  | 0xD8 => some { form2 (fun m => m.toNat ≤ 2) ⟨[.vec], [0], false, false⟩ pAcc pRunSrc with coll := isColl }
  | 0xD9 => some ⟨fun m => m.toNat ≤ 2, fun m => if m == 2 then ⟨[.vec], [0], false, false⟩ else pNone, fun _ => pAcc,
      fun m _ => if m == 2 then pRunSrc else pVecSrc, isColl, noExtra⟩
  | 0xDA => some { form2 (fun m => m.toNat ≤ 1) pTile pTile pUni with coll := isColl }
  | 0xDB => some (form2 mScope pLoadDst pTile pReg)
  | 0xDC => some (form2 (modIs 0) ⟨[.vec], [0], false, false⟩ pTile pReg)
  | 0xDD => some (form1 (modIs 0) pTile pUni)
  | 0xDE => some (form2 (modIs 0) pNone pTile pUni)
  | 0xDF => some (form2 (modIs 0) ⟨[.vec], [0], false, false⟩ pTile pReg)
  | 0xE0 => some { form2 (fun m => m.toNat ≤ 1) pDstPred pUni pVecSrc with extra := fun f => match f.opa with
        | .uni n _ => n.toNat == 0 || n.toNat == 8
        | _ => false }
  | 0xE1 => some (form2 (modIs 0) pRun pUni pVecSrc)
  | 0xE2 => some (form2 mScope pRun pUni pVecSrc)
  | 0xE3 => some (form2 mScope pDstPred pUni ⟨[.pred], [], false, false⟩)
  | 0xE4 => some { form1 (modIs 0) pNone pUni with coll := isColl }
  | 0xE5 => some { form1 (fun m => (hi2 m == 0 && mid2 m == 0) || m == 0x40) pNone pImmUni with
                    coll := isColl, extra := fun f => immLe 7 f.opa }
  | _ => .none

/-- The form of an opcode; none for a reserved one (R98). [DEDUCED: log 77] -/
def formOf (opc : Nat) : Option Form :=
  if opc < 0x40 then intForm opc
  else if opc < 0x70 then floatForm opc
  else if opc < 0x80 then laneForm opc
  else if opc < 0xA0 then ctlForm opc
  else if opc < 0xD0 then memForm opc
  else tensorForm opc

/-! ### Operands against positions -/

/-- Does the position accept the operand, modifiers included? [DEDUCED: log 77] -/
def accepts (p : Pos) : Operand → Bool
  | .vec _ e m => (p.kinds.contains .vec || p.kinds.contains .dvec) && p.mods.contains m && (p.etrap || !e)
  | .idx _ _ _ e m => p.kinds.contains .vec && p.mods.contains m && (p.etrap || !e)
  | .uni _ m => p.kinds.contains .uni && p.mods.contains m
  | .pred _ n => p.kinds.contains .pred && (p.neg || !n)
  | .tile _ => p.kinds.contains .tile
  | .acc _ => p.kinds.contains .acc
  | .xreg _ m => p.kinds.contains .xreg && p.mods.contains m
  | .lane m => p.kinds.contains .special && p.mods.contains m
  | .hgrp m => p.kinds.contains .special && p.mods.contains m
  | .flag f n => p.kinds.contains .flag && f.toNat < 12 && (p.neg || !n)
  | .imm _ => p.kinds.contains .imm
  | .lit _ => p.kinds.contains .lit
  | .none => p.kinds.contains .none && !p.kinds.contains .vec && !p.kinds.contains .dvec

/-- A literal in OPA leaves OPB no operand of its own (R89). -/
def litAlone (f : Insn) : Bool :=
  match f.opa, f.opb with
  | .lit _, .none => true
  | .lit _, _ => false
  | _, _ => true

/-- Step 2 of R83 on a word with this opcode and these fields. [DEDUCED: log 77] -/
def encodable (opc : Nat) (f : Insn) : Bool :=
  match formOf opc with
  | .none => false
  | some F => F.modOk f.mod && accepts (F.opd f.mod) f.opd && accepts (F.opa f.mod) f.opa
      && accepts (F.opb f.mod f.opd) f.opb && litAlone f && F.extra f
      && (!F.coll f.mod || f.guard == 7 || f.guard == 15)
      && !(f.setf == 12 || f.setf == 13 || f.setf == 14)

end Forms
end Sys2Proof
end

