-- ==== Sys2Proof/WellFormed.lean ====
section
/-! DEFINITION. Which instructions a word can hold: the opcode of each and the checks of R83 step 2. -/

namespace Sys2Proof

/-- The opcode (R98) and the fields of an instruction of the 96-bit word; none for a step of a unit. -/
def Instr.word? : Instr → Option (Nat × Insn)
  | .nop f => some (0x00, f) | .mov f => some (0x01, f) | .movl f => some (0x02, f) | .sel f => some (0x03, f)
  | .iadd f => some (0x04, f) | .isub f => some (0x05, f) | .imul f => some (0x06, f) | .imulh f => some (0x07, f)
  | .imad f => some (0x08, f) | .imin f => some (0x09, f) | .imax f => some (0x0A, f) | .iabs f => some (0x0B, f)
  | .ineg f => some (0x0C, f) | .isad f => some (0x0D, f) | .and f => some (0x0E, f) | .or f => some (0x0F, f)
  | .xor f => some (0x10, f) | .andn f => some (0x11, f) | .not f => some (0x12, f) | .shl f => some (0x13, f)
  | .shr f => some (0x14, f) | .sar f => some (0x15, f) | .rotl f => some (0x16, f) | .bfx f => some (0x17, f)
  | .bfi f => some (0x18, f) | .popc f => some (0x19, f) | .clz f => some (0x1A, f) | .brev f => some (0x1B, f)
  | .icmp f => some (0x1C, f) | .lea f => some (0x1D, f) | .bpick f => some (0x1E, f) | .bmix f => some (0x1F, f)
  | .idot4 f => some (0x20, f) | .par f => some (0x21, f)
  | .fadd f => some (0x40, f) | .fsub f => some (0x41, f) | .fmul f => some (0x42, f) | .ffma f => some (0x43, f)
  | .fmin f => some (0x44, f) | .fmax f => some (0x45, f) | .fcmp f => some (0x46, f) | .frcp f => some (0x47, f)
  | .frsq f => some (0x48, f) | .fsqrt f => some (0x49, f) | .fexp2 f => some (0x4A, f) | .flog2 f => some (0x4B, f)
  | .ftanh f => some (0x4C, f) | .fclass f => some (0x4D, f) | .fscalb f => some (0x4E, f) | .cvt f => some (0x4F, f)
  | .bfma2 f => some (0x50, f) | .badd2 f => some (0x51, f) | .bmul2 f => some (0x52, f) | .frnd f => some (0x53, f)
  | .plop f => some (0x70, f) | .poll f => some (0x71, f) | .lxch f => some (0x72, f) | .lshf f => some (0x73, f)
  | .lbcast f => some (0x74, f) | .lred f => some (0x75, f) | .rdlane f => some (0x76, f) | .xset f => some (0x77, f)
  | .xget f => some (0x78, f) | .xadv f => some (0x79, f)
  | .bra f => some (0x80, f) | .brx f => some (0x81, f) | .call f => some (0x82, f) | .ret f => some (0x83, f)
  | .exit f => some (0x84, f) | .yield f => some (0x85, f) | .spawn f => some (0x86, f) | .trap f => some (0x87, f)
  | .tret f => some (0x88, f) | .barinit f => some (0x89, f) | .bararr f => some (0x8A, f) | .barwait f => some (0x8B, f)
  | .bartest f => some (0x8C, f) | .gsync f => some (0x8D, f) | .mbxputRsv f => some (0x8E, f)
  | .mbxputPub f => some (0x8E, f) | .mbxgetTake f => some (0x8F, f) | .mbxgetRel f => some (0x8F, f)
  | .quota f => some (0x90, f) | .rdsys f => some (0x91, f) | .wrsys f => some (0x92, f) | .clock f => some (0x93, f)
  | .waitf f => some (0x94, f) | .cancel f => some (0x95, f) | .enq f => some (0x96, f) | .bkpt f => some (0x97, f)
  | .replay f => some (0x98, f)
  | .ld f => some (0xA0, f) | .st f => some (0xA1, f) | .ldl f => some (0xA2, f) | .stl f => some (0xA3, f)
  | .ldgl f => some (0xA4, f) | .atom f => some (0xA5, f) | .atoml f => some (0xA6, f) | .red f => some (0xA7, f)
  | .mcst f => some (0xA8, f) | .redst f => some (0xA9, f) | .pref f => some (0xAA, f) | .fence f => some (0xAB, f)
  | .fencex f => some (0xAC, f) | .oprdy f => some (0xAD, f) | .vdup f => some (0xAE, f) | .vnarrow f => some (0xAF, f)
  | .vdrop f => some (0xB0, f) | .vqry f => some (0xB1, f)
  | .wload f => some (0xD0, f) | .mma f => some (0xD1, f) | .accz f => some (0xD2, f) | .accrd f => some (0xD3, f)
  | .accwr f => some (0xD4, f) | .accdr f => some (0xD5, f) | .accld f => some (0xD6, f) | .rowmax f => some (0xD7, f)
  | .rowexp f => some (0xD8, f) | .rowsc f => some (0xD9, f) | .place f => some (0xDA, f) | .tld f => some (0xDB, f)
  | .tst f => some (0xDC, f) | .tdset f => some (0xDD, f) | .tdget f => some (0xDE, f) | .locof f => some (0xDF, f)
  | .optaw f => some (0xE0, f) | .statst f => some (0xE1, f) | .statld f => some (0xE2, f) | .lscale f => some (0xE3, f)
  | .cpkick f => some (0xE4, f) | .chainBind f => some (0xE5, f) | .chainUnbind f => some (0xE5, f)
  | _ => .none

/-- The rows that share an opcode are told apart by MOD (R167, R239). -/
def Instr.sub : Instr → BitVec 8 → Bool
  | .mbxputRsv _, m => !m.getLsbD 0
  | .mbxputPub _, m => m.getLsbD 0
  | .mbxgetTake _, m => !m.getLsbD 0
  | .mbxgetRel _, m => m.getLsbD 0
  | .chainBind _, m => !m.getLsbD 6
  | .chainUnbind _, m => m.getLsbD 6
  | _, _ => true

/-- A well-formed instruction of the word: one that passes the encoding checks of R83 step 2. A step of a unit has no
encoding and is well formed as it stands. -/
def Instr.wf (i : Instr) : Bool :=
  match i.word? with
  | some (opc, f) => Forms.encodable opc f && i.sub f.mod
  | .none => true

end Sys2Proof
end

