-- ==== Sys2Proof/Decode.lean ====
section
/-! DEFINITION. The decoder of the 96-bit instruction word, total on any bits, and the encoder beside it
(R79 to R89, R98). -/

namespace Sys2Proof

/-- Why a word is no instruction; every one of them traps ILLOP at step 2 of R83. -/
inductive DecodeError where
  | reservedOpcode
  | bitZero
  | operandOPD
  | operandOPA
  | operandOPB
  | encoding
  deriving DecidableEq, Repr

/-! ### Operand fields -/

/-- The 18 bits of an operand (R85, R86); `none` is 18 zero bits and a literal gives its high half. -/
def encodeOperand : Operand → BitVec 18
  | .vec n e m => (0#3 : BitVec 3) ++ n ++ (0#1 : BitVec 1) ++ (0#3 : BitVec 3) ++ BitVec.ofBool e ++ m
  | .idx off x inc e m => (0#3 : BitVec 3) ++ off ++ (1#1 : BitVec 1) ++ x ++ BitVec.ofBool inc ++ BitVec.ofBool e ++ m
  | .uni n m => (1#3 : BitVec 3) ++ (0#3 : BitVec 3) ++ n ++ (0#5 : BitVec 5) ++ m
  | .pred n neg => (2#3 : BitVec 3) ++ (0#5 : BitVec 5) ++ n ++ (0#6 : BitVec 6) ++ BitVec.ofBool neg
  | .tile n => (3#3 : BitVec 3) ++ (0#5 : BitVec 5) ++ n ++ (0#7 : BitVec 7)
  | .acc n => (4#3 : BitVec 3) ++ (0#5 : BitVec 5) ++ n ++ (0#7 : BitVec 7)
  | .xreg j m => (5#3 : BitVec 3) ++ (0#6 : BitVec 6) ++ j ++ (0#5 : BitVec 5) ++ m
  | .lane m => (5#3 : BitVec 3) ++ (0x10#8 : BitVec 8) ++ (0#5 : BitVec 5) ++ m
  | .hgrp m => (5#3 : BitVec 3) ++ (0x11#8 : BitVec 8) ++ (0#5 : BitVec 5) ++ m
  | .flag f neg => (5#3 : BitVec 3) ++ (2#4 : BitVec 4) ++ f ++ (0#6 : BitVec 6) ++ BitVec.ofBool neg
  | .imm v => (6#3 : BitVec 3) ++ v
  | .lit v => (7#3 : BitVec 3) ++ v.extractLsb' 17 15
  | .none => 0

/-- The operand a field names, or nothing where a bit the class reserves is set (R85, R86, R66). Class 7 is read by
`decodeFields`, because it spans two fields. -/
def decodeOperand (b : BitVec 18) : Option Operand :=
  match (b.extractLsb' 15 3).toNat with
  | 0 =>
    if b.getLsbD 6 then
      some (.idx (b.extractLsb' 7 8) (b.extractLsb' 4 2) (b.getLsbD 3) (b.getLsbD 2) (b.extractLsb' 0 2))
    else if b.extractLsb' 3 3 = 0 then some (.vec (b.extractLsb' 7 8) (b.getLsbD 2) (b.extractLsb' 0 2))
    else .none
  | 1 => if b.extractLsb' 12 3 = 0 ∧ b.extractLsb' 2 5 = 0 then some (.uni (b.extractLsb' 7 5) (b.extractLsb' 0 2)) else .none
  | 2 => if b.extractLsb' 10 5 = 0 ∧ b.extractLsb' 1 6 = 0 then some (.pred (b.extractLsb' 7 3) (b.getLsbD 0)) else .none
  | 3 => if b.extractLsb' 10 5 = 0 ∧ b.extractLsb' 0 7 = 0 then some (.tile (b.extractLsb' 7 3)) else .none
  | 4 => if b.extractLsb' 10 5 = 0 ∧ b.extractLsb' 0 7 = 0 then some (.acc (b.extractLsb' 7 3)) else .none
  | 5 =>
    if b.extractLsb' 2 5 = 0 then
      if b.extractLsb' 9 6 = 0 then some (.xreg (b.extractLsb' 7 2) (b.extractLsb' 0 2))
      else if b.extractLsb' 7 8 = 0x10 then some (.lane (b.extractLsb' 0 2))
      else if b.extractLsb' 7 8 = 0x11 then some (.hgrp (b.extractLsb' 0 2))
      else if b.extractLsb' 11 4 = 2 ∧ b.getLsbD 1 = false then some (.flag (b.extractLsb' 7 4) (b.getLsbD 0))
      else .none
    else .none
  | 6 => some (.imm (b.extractLsb' 0 15))
  | _ => .none

/-- The operand a field gives in a position: 18 zero bits are the absent operand where the position takes no vector. -/
def fitOperand (p : Pos) (b : BitVec 18) : Option Operand :=
  if b = 0 ∧ Forms.accepts p .none then some .none
  else match decodeOperand b with
    | some o => if Forms.accepts p o then some o else .none
    | .none => .none

/-! ### Words -/

/-- The fields of R79 around an opcode. A literal in OPA puts its low 17 bits into OPB (R89). -/
def encodeFields (opc : BitVec 8) (f : Insn) : IWord :=
  let b : BitVec 18 := match f.opa with
    | .lit v => (0#1 : BitVec 1) ++ v.extractLsb' 0 17
    | _ => encodeOperand f.opb
  opc ++ f.mod ++ f.guard ++ encodeOperand f.opd ++ encodeOperand f.opa ++ b ++ f.dist ++ f.wait ++ f.setf
    ++ BitVec.ofBool f.yld ++ (0#1 : BitVec 1)

/-- The word of an instruction; a step of a unit has none. -/
def encode (i : Instr) : Option IWord :=
  match i.word? with
  | some (opc, f) => some (encodeFields (BitVec.ofNat 8 opc) f)
  | .none => .none

/-- The constructor of an opcode (R98); MBXPUT, MBXGET and CHAIN have two rows each, by MOD. -/
def build (opc : Nat) (f : Insn) : Option Instr :=
  match opc with
  | 0x00 => some (.nop f) | 0x01 => some (.mov f) | 0x02 => some (.movl f) | 0x03 => some (.sel f)
  | 0x04 => some (.iadd f) | 0x05 => some (.isub f) | 0x06 => some (.imul f) | 0x07 => some (.imulh f)
  | 0x08 => some (.imad f) | 0x09 => some (.imin f) | 0x0A => some (.imax f) | 0x0B => some (.iabs f)
  | 0x0C => some (.ineg f) | 0x0D => some (.isad f) | 0x0E => some (.and f) | 0x0F => some (.or f)
  | 0x10 => some (.xor f) | 0x11 => some (.andn f) | 0x12 => some (.not f) | 0x13 => some (.shl f)
  | 0x14 => some (.shr f) | 0x15 => some (.sar f) | 0x16 => some (.rotl f) | 0x17 => some (.bfx f)
  | 0x18 => some (.bfi f) | 0x19 => some (.popc f) | 0x1A => some (.clz f) | 0x1B => some (.brev f)
  | 0x1C => some (.icmp f) | 0x1D => some (.lea f) | 0x1E => some (.bpick f) | 0x1F => some (.bmix f)
  | 0x20 => some (.idot4 f) | 0x21 => some (.par f)
  | 0x40 => some (.fadd f) | 0x41 => some (.fsub f) | 0x42 => some (.fmul f) | 0x43 => some (.ffma f)
  | 0x44 => some (.fmin f) | 0x45 => some (.fmax f) | 0x46 => some (.fcmp f) | 0x47 => some (.frcp f)
  | 0x48 => some (.frsq f) | 0x49 => some (.fsqrt f) | 0x4A => some (.fexp2 f) | 0x4B => some (.flog2 f)
  | 0x4C => some (.ftanh f) | 0x4D => some (.fclass f) | 0x4E => some (.fscalb f) | 0x4F => some (.cvt f)
  | 0x50 => some (.bfma2 f) | 0x51 => some (.badd2 f) | 0x52 => some (.bmul2 f) | 0x53 => some (.frnd f)
  | 0x70 => some (.plop f) | 0x71 => some (.poll f) | 0x72 => some (.lxch f) | 0x73 => some (.lshf f)
  | 0x74 => some (.lbcast f) | 0x75 => some (.lred f) | 0x76 => some (.rdlane f) | 0x77 => some (.xset f)
  | 0x78 => some (.xget f) | 0x79 => some (.xadv f)
  | 0x80 => some (.bra f) | 0x81 => some (.brx f) | 0x82 => some (.call f) | 0x83 => some (.ret f)
  | 0x84 => some (.exit f) | 0x85 => some (.yield f) | 0x86 => some (.spawn f) | 0x87 => some (.trap f)
  | 0x88 => some (.tret f) | 0x89 => some (.barinit f) | 0x8A => some (.bararr f) | 0x8B => some (.barwait f)
  | 0x8C => some (.bartest f) | 0x8D => some (.gsync f)
  | 0x8E => if f.mod.getLsbD 0 then some (.mbxputPub f) else some (.mbxputRsv f)
  | 0x8F => if f.mod.getLsbD 0 then some (.mbxgetRel f) else some (.mbxgetTake f)
  | 0x90 => some (.quota f) | 0x91 => some (.rdsys f) | 0x92 => some (.wrsys f) | 0x93 => some (.clock f)
  | 0x94 => some (.waitf f) | 0x95 => some (.cancel f) | 0x96 => some (.enq f) | 0x97 => some (.bkpt f)
  | 0x98 => some (.replay f)
  | 0xA0 => some (.ld f) | 0xA1 => some (.st f) | 0xA2 => some (.ldl f) | 0xA3 => some (.stl f)
  | 0xA4 => some (.ldgl f) | 0xA5 => some (.atom f) | 0xA6 => some (.atoml f) | 0xA7 => some (.red f)
  | 0xA8 => some (.mcst f) | 0xA9 => some (.redst f) | 0xAA => some (.pref f) | 0xAB => some (.fence f)
  | 0xAC => some (.fencex f) | 0xAD => some (.oprdy f) | 0xAE => some (.vdup f) | 0xAF => some (.vnarrow f)
  | 0xB0 => some (.vdrop f) | 0xB1 => some (.vqry f)
  | 0xD0 => some (.wload f) | 0xD1 => some (.mma f) | 0xD2 => some (.accz f) | 0xD3 => some (.accrd f)
  | 0xD4 => some (.accwr f) | 0xD5 => some (.accdr f) | 0xD6 => some (.accld f) | 0xD7 => some (.rowmax f)
  | 0xD8 => some (.rowexp f) | 0xD9 => some (.rowsc f) | 0xDA => some (.place f) | 0xDB => some (.tld f)
  | 0xDC => some (.tst f) | 0xDD => some (.tdset f) | 0xDE => some (.tdget f) | 0xDF => some (.locof f)
  | 0xE0 => some (.optaw f) | 0xE1 => some (.statst f) | 0xE2 => some (.statld f) | 0xE3 => some (.lscale f)
  | 0xE4 => some (.cpkick f)
  | 0xE5 => if f.mod.getLsbD 6 then some (.chainUnbind f) else some (.chainBind f)
  | _ => .none

/-- OPA and OPB together, because a literal spans both (R89). -/
def decodeSources (F : Form) (m : BitVec 8) (d : Operand) (a b : BitVec 18) : Except DecodeError (Operand × Operand) :=
  if a.extractLsb' 15 3 = 7 then
    if (F.opa m).kinds.contains .lit ∧ Forms.accepts (F.opb m d) .none ∧ b.getLsbD 17 = false then
      .ok (.lit (a.extractLsb' 0 15 ++ b.extractLsb' 0 17), .none)
    else .error .operandOPA
  else match fitOperand (F.opa m) a with
    | .none => .error .operandOPA
    | some oa => match fitOperand (F.opb m d) b with
      | .none => .error .operandOPB
      | some ob => .ok (oa, ob)

/-- Decodes a word: the instruction, or the first thing step 2 of R83 finds wrong. -/
def decode (w : IWord) : Except DecodeError Instr :=
  let opc := (w.extractLsb' 88 8).toNat
  match Forms.formOf opc with
  | .none => .error .reservedOpcode
  | some F =>
    if w.getLsbD 0 then .error .bitZero
    else
      let m := w.extractLsb' 80 8
      match fitOperand (F.opd m) (w.extractLsb' 58 18) with
      | .none => .error .operandOPD
      | some d => match decodeSources F m d (w.extractLsb' 40 18) (w.extractLsb' 22 18) with
        | .error e => .error e
        | .ok (a, b) =>
          let f : Insn := ⟨m, w.extractLsb' 76 4, d, a, b, w.extractLsb' 18 4, w.extractLsb' 6 12, w.extractLsb' 2 4,
            w.getLsbD 1⟩
          if Forms.encodable opc f then
            match build opc f with
            | some i => .ok i
            | .none => .error .reservedOpcode
          else .error .encoding

/-- Three 32-bit words, written word 2, word 1, word 0 as a listing writes them (R5, R80). -/
def ofWords (w2 w1 w0 : BitVec 32) : IWord := w2 ++ w1 ++ w0

/-- The decoder on a word numbered as the opcode table numbers it: bit 0 is bit 0 of the first stored word (R80). -/
def decodeTableWord (nbits w : Nat) : Option Instr :=
  match decode (BitVec.ofNat 96 (w % 2 ^ nbits)) with
  | .ok i => some i
  | .error _ => .none

end Sys2Proof
end

