-- ==== Sys2Proof/Machine/Bytes.lean ====
section
/-! DEFINITION. Sparse stores, little-endian byte strings (R2) and CRC-32C. -/

namespace Sys2Proof.Machine

/-! ### Sparse stores -/

/-- The cell `k`: 0 where none is listed. -/
def sget {w : Nat} : Sparse w → Nat → BitVec w
  | [], _ => 0
  | c :: t, k => if c.1 = k then c.2 else sget t k

/-- Inserts or replaces the cell `k`, keys rising. -/
def sins {w : Nat} : Sparse w → Nat → BitVec w → Sparse w
  | [], k, v => [(k, v)]
  | c :: t, k, v => if k < c.1 then (k, v) :: c :: t else if k = c.1 then (k, v) :: t else c :: sins t k v

/-- Writes the cell `k`; a cell of 0 is not listed. -/
def sput {w : Nat} (m : Sparse w) (k : Nat) (v : BitVec w) : Sparse w :=
  if v = 0 then m.filter (fun c => decide (c.1 ≠ k)) else sins m k v

/-- The cells `k` to `k + n − 1`. -/
def sgetN {w : Nat} (m : Sparse w) (k : Nat) : Nat → List (BitVec w)
  | 0 => []
  | n + 1 => sget m k :: sgetN m (k + 1) n

/-- Writes a run of cells from `k`. -/
def sputL {w : Nat} (m : Sparse w) (k : Nat) : List (BitVec w) → Sparse w
  | [] => m
  | v :: vs => sputL (sput m k v) (k + 1) vs

/-- Sets the cells `k` to `k + n − 1` to 0. -/
def sclear {w : Nat} (m : Sparse w) (k n : Nat) : Sparse w :=
  m.filter (fun c => !(decide (k ≤ c.1) && decide (c.1 < k + n)))

/-- The listed cells of `k` to `k + n − 1`, moved so that `k` stands at `j`. -/
def smove {w : Nat} (m : Sparse w) (k n j : Nat) : Sparse w :=
  (m.filter (fun c => decide (k ≤ c.1) && decide (c.1 < k + n))).map (fun c => (c.1 - k + j, c.2))

/-- Writes every cell of a list of cells. -/
def sputAll {w : Nat} (m : Sparse w) : Sparse w → Sparse w
  | [] => m
  | c :: t => sputAll (sput m c.1 c.2) t

/-- The cells `j` to `j + n − 1` of `dst` become the cells `k` to `k + n − 1` of `src`. -/
def scopy {w : Nat} (src : Sparse w) (k n : Nat) (dst : Sparse w) (j : Nat) : Sparse w :=
  sputAll (sclear dst j n) (smove src k n j)

/-- The cells `k` to `k + n − 1` of a store that lists nothing below `k`. -/
def sdense {w : Nat} : Sparse w → Nat → Nat → List (BitVec w)
  | _, _, 0 => []
  | [], k, n + 1 => 0 :: sdense [] (k + 1) n
  | c :: t, k, n + 1 => if c.1 = k then c.2 :: sdense t (k + 1) n else 0 :: sdense (c :: t) (k + 1) n

/-- The store whose cells from `k` on are a list. -/
def sOf {w : Nat} : Nat → List (BitVec w) → Sparse w
  | _, [] => []
  | k, v :: vs => if v = 0 then sOf (k + 1) vs else (k, v) :: sOf (k + 1) vs

/-- Keys rise strictly above `b` and no cell is 0. -/
def sokAbove {w : Nat} : Option Nat → Sparse w → Bool
  | _, [] => true
  | b, c :: t => (match b with
      | some x => decide (x < c.1)
      | none => true) && decide (c.2 ≠ 0) && sokAbove (some c.1) t

/-- The canonical form of a sparse store. -/
def sok {w : Nat} (m : Sparse w) : Bool := sokAbove none m

/-! ### Byte strings -/

/-- The value of a little-endian byte string. -/
def ofLE : List Byte → Nat
  | [] => 0
  | b :: bs => b.toNat + 256 * ofLE bs

/-- The low `n` bytes of a value, lowest first. -/
def toLE : Nat → Nat → List Byte
  | 0, _ => []
  | n + 1, v => BitVec.ofNat 8 v :: toLE n (v / 256)

/-- Bytes `i` to `i + n − 1` of a string as a value; bytes beyond its end are 0. -/
def field (bs : List Byte) (i n : Nat) : Nat := ofLE ((bs.drop i).take n)

/-- Replaces bytes of a string from `i`; the string keeps its length. -/
def putBytes : List Byte → Nat → List Byte → List Byte
  | bs, _, [] => bs
  | [], _, _ => []
  | _ :: bs, 0, x :: xs => x :: putBytes bs 0 xs
  | b :: bs, i + 1, xs => b :: putBytes bs i xs

/-- Every byte is 0. -/
def allZero (bs : List Byte) : Bool := bs.all (fun b => b == 0)

/-- A string of `n` bytes of 0. -/
def zeros (n : Nat) : List Byte := List.replicate n 0

/-- Bits `hi:lo` of a value. -/
def bits (v hi lo : Nat) : Nat := (v >>> lo) % 2 ^ (hi + 1 - lo)

/-- Signed reading of the low `w` bits. -/
def sext (w v : Nat) : Int := if v % 2 ^ w < 2 ^ (w - 1) then ((v % 2 ^ w : Nat) : Int) else ((v % 2 ^ w : Nat) : Int) - 2 ^ w

/-- The low `w` bits of an integer. -/
def wrap (w : Nat) (v : Int) : Nat := (v % ((2 ^ w : Nat) : Int)).toNat

/-- Elements of `size` bytes, at most `k`. -/
def runsOfBytes (size : Nat) : Nat → List Byte → List (List Byte)
  | 0, _ => []
  | k + 1, bs => if bs.isEmpty then [] else bs.take size :: runsOfBytes size k (bs.drop size)

/-- Bits set in the low `w` bits of a value. -/
def ones (w v : Nat) : Nat := ((List.range w).filter v.testBit).length

/-! ### ZM64 chunks (R39) -/

/-- Bytes of a chunk by its mask. -/
def chunkLen (size mask : Nat) : Nat := (8 + ones 64 mask * size + 15) / 16 * 16

/-- The elements that the bits of a mask from `i` on give, from the bytes of the elements kept. -/
def expandFrom (size mask : Nat) : Nat → Nat → List Byte → List Byte
  | 0, _, _ => []
  | n + 1, i, bs =>
    if mask.testBit i then bs.take size ++ expandFrom size mask n (i + 1) (bs.drop size)
    else zeros size ++ expandFrom size mask n (i + 1) bs

/-- The 64 elements of the chunk at the start of a string. -/
def expandChunk (size : Nat) (bs : List Byte) : List Byte := expandFrom size (field bs 0 8) 64 0 (bs.drop 8)

/-- The elements of `k` chunks that follow one another. -/
def expandChunks (size : Nat) : Nat → List Byte → List Byte
  | 0, _ => []
  | k + 1, bs => expandChunk size bs ++ expandChunks size k (bs.drop (chunkLen size (field bs 0 8)))

/-- How long the bytes of a run of `k` chunks must be, as far as `bs` shows it: of a chunk whose mask is not there, its mask. -/
def chunksNeed (size : Nat) (bs : List Byte) : Nat → Nat → Nat
  | 0, pos => pos
  | k + 1, pos =>
    if bs.length < pos + 8 then pos + 8
    else
      let e := pos + chunkLen size (field bs pos 8)
      if bs.length < e then e else chunksNeed size bs k e

/-- How many of `k` chunks are whole in `bs`. -/
def chunksWhole (size : Nat) (bs : List Byte) : Nat → Nat → Nat
  | 0, _ => 0
  | k + 1, pos =>
    if bs.length < pos + 8 then 0
    else
      let e := pos + chunkLen size (field bs pos 8)
      if bs.length < e then 0 else 1 + chunksWhole size bs k e

/-- The chunk of up to 64 elements. -/
def packChunk (size : Nat) (bs : List Byte) : List Byte :=
  let es := runsOfBytes size 64 bs
  let mask := (List.range es.length).foldl (fun m i => if allZero (es.getD i []) then m else m + 2 ^ i) 0
  let body := toLE 8 mask ++ (es.filter fun e => !allZero e).flatten
  body ++ zeros ((16 - body.length % 16) % 16)

/-! ### CRC-32C -/

/-- One bit of the reflected division by the Castagnoli polynomial. -/
def crcBit (c : Nat) : Nat := if c % 2 = 1 then (c >>> 1) ^^^ 0x82F63B78 else c >>> 1

/-- One byte. -/
def crcByte (c : Nat) (b : Byte) : Nat :=
  crcBit (crcBit (crcBit (crcBit (crcBit (crcBit (crcBit (crcBit (c ^^^ b.toNat))))))))

/-- CRC-32C of a byte string. -/
def crc32c (bs : List Byte) : Nat := (bs.foldl crcByte 0xFFFFFFFF) ^^^ 0xFFFFFFFF

/-- The string holds its own CRC-32C in the 4 bytes at `at_`, over the bytes before it. -/
def crcOk (bs : List Byte) (at_ : Nat) : Bool := field bs at_ 4 == crc32c (bs.take at_)

/-- Puts the CRC-32C of the bytes before `at_` there. -/
def withCrc (bs : List Byte) (at_ : Nat) : List Byte := putBytes bs at_ (toLE 4 (crc32c (bs.take at_)))

/-! ### Lists -/

/-- Groups a list into runs of `n`, by fuel. -/
def runsOf {α : Type} (n : Nat) : Nat → List α → List (List α)
  | 0, _ => []
  | f + 1, l => if l.isEmpty then [] else l.take n :: runsOf n f (l.drop n)

/-- The first position whose element satisfies `p`. -/
def findIdx? {α : Type} (p : α → Bool) : List α → Option Nat
  | [] => none
  | a :: t => if p a then some 0 else (findIdx? p t).map (· + 1)

/-- Removes the element at a position. -/
def eraseAt {α : Type} : List α → Nat → List α
  | [], _ => []
  | _ :: t, 0 => t
  | a :: t, n + 1 => a :: eraseAt t n

/-- The smallest element by a key; ties go to the first. -/
def minBy {α : Type} (key : α → Nat) : List α → Option α
  | [] => none
  | a :: t => match minBy key t with
    | some b => if key a ≤ key b then some a else some b
    | none => some a

/-- The largest element by a key; ties go to the first. -/
def maxBy {α : Type} (key : α → Nat) : List α → Option α
  | [] => none
  | a :: t => match maxBy key t with
    | some b => if key b ≤ key a then some a else some b
    | none => some a

/-- No two elements are equal. -/
def distinct {α : Type} [DecidableEq α] : List α → Bool
  | [] => true
  | a :: t => !t.contains a && distinct t

/-- The list without repeats, first occurrences kept last. -/
def dedup {α : Type} [DecidableEq α] : List α → List α
  | [] => []
  | a :: t => if t.contains a then dedup t else a :: dedup t

/-- Insertion by a key. -/
def insertBy {α : Type} (key : α → Nat) (a : α) : List α → List α
  | [] => [a]
  | b :: t => if key a ≤ key b then a :: b :: t else b :: insertBy key a t

/-- Ascending by a key, by insertion. -/
def sortBy {α : Type} (key : α → Nat) : List α → List α
  | [] => []
  | a :: t => insertBy key a (sortBy key t)

end Sys2Proof.Machine
end

