-- ==== Sys2Proof/Config.lean ====
section
/-! DEFINITION. What the spec leaves open: free values and free choices. No constant of this file has a body, so no
proof can rest on a value of one of them. Each takes the counter `tick` of State, or the operands it depends on. -/

namespace Sys2Proof.Config

/-- A free 32-bit value for the `i`-th open value of the step at `tick` (R6). [DESIGN CHOICE: log 2] -/
opaque freeWord : Nat → Nat → Word
/-- A free number: which of several allowed choices the step at `tick` takes. [DESIGN CHOICE: log 2, 25] -/
opaque choose : Nat → Nat → Nat
/-- Early read (R91): does the cell `key`, read at `tick` before the latency of its producer, the `n`-th landing, has passed,
give the new value? [DESIGN CHOICE: log 13] -/
opaque earlyRead : Nat → Nat → Nat → Bool
/-- Which of the enabled steps of the units runs next, where the agenda names none. [DESIGN CHOICE: log 1] -/
opaque schedule : Nat → Nat
/-- Does a load at block scope or narrower use the line its core holds (R183)? A line not used counts as evicted. [DESIGN CHOICE: log 22] -/
opaque lineHit : Nat → Bool
/-- How far the 1 GHz counter of a quarter moves in the step at `tick` (R15). [DESIGN CHOICE: log 3] -/
opaque quarterTicks : Nat → Nat → Nat
/-- The signature over an attestation report (R386), byte by byte. [DESIGN CHOICE: log 25] -/
opaque signature : Nat → Nat → Byte
/-- SHA-384 measurements of the ROM and the firmware (R386), byte by byte. [DESIGN CHOICE: log 25] -/
opaque measurement : Nat → Byte
/-- The limiter's estimate in milliamperes from the issue counts of a window (R384), by the calibrated table. [DESIGN CHOICE: log 25] -/
opaque currentEstimate : Nat → Nat → Nat
/-- The idle cycles the limiter inserts for an estimate above its bound (R384). [DESIGN CHOICE: log 25] -/
opaque idleCycles : Nat → Nat
/-- Buffers of a channel of a link, in flits (R357). [DESIGN CHOICE: log 86] -/
opaque channelBuffers : Nat

end Sys2Proof.Config
end

