-- ==== Sys2Proof/Machine/State.lean ====
section
/-! DEFINITION. The state of one PK9: every register, table, engine, queue, memory and link that the spec gives the
device, as plain data; the reasons a step can stop; and the state right after power-good. -/

namespace Sys2Proof.Machine

/-- Why a step stops with a fault. [DESIGN CHOICE: log 11] -/
inductive Fault where
  /-- Raised by any access of a byte at or above the 3 GiB of a quarter's Vault (R10), which a page table entry, an
  object table entry or a control block written by software can name. The spec says that byte does not exist and gives
  the access no effect. Safe: the hardware may go on, the model does not. -/
  | vaultRange (quarter addr : Nat)
  deriving DecidableEq, Repr

/-- Why a step is refused. -/
inductive Refusal where
  /-- Raised by `exec` alone, for a row of the opcode table that has no meaning yet. Safe: nothing is claimed. -/
  | notModelled (mnemonic : String)
  deriving DecidableEq, Repr

/-! ### Threads (R43, R60, R273) -/

/-- What a thread is parked under, or an access logged under (R344): a page, by any offset in it, or a fault token. -/
inductive ParkKey where
  | page (obj off : Nat)
  | token (t : Word)
  deriving DecidableEq, Repr

/-- STATE of a thread (R273); a phantom lane has no thread. -/
inductive Life where
  | live
  | exited
  | parked (k : ParkKey)
  deriving DecidableEq, Repr

/-- What a blocked thread waits for (R149). -/
inductive Blocked where
  | barrier (addr : Nat) (phase : Word)
  /-- With the YLD bit of its instruction. -/
  | gsync (yld : Bool)
  | mailbox (addr : Nat) (take : Bool) (count ticket : Nat)
  /-- At a mailbox of a block that has ended (R297): for ever. -/
  | ended
  | waitf (mask : BitVec 12) (since limit : Nat)
  deriving DecidableEq, Repr

/-- One thread: a lane slot of a home group with its own registers. -/
structure Thread where
  tid       : Tid
  /-- Home slot: 64 · core + group slot of the core. -/
  home      : Nat
  life      : Life := .live
  /-- Byte offset from the entry point (R58). -/
  pc        : Word
  preds     : BitVec 7 := 0
  xs        : List Word := [0, 0, 0, 0]
  /-- Incomplete operations under f0 to f11 (R54). -/
  flags     : List Nat := [0, 0, 0, 0, 0, 0, 0, 0, 0, 0, 0, 0]
  fpflags   : BitVec 5 := 0
  handler   : Bool := false
  trapCause : BitVec 6 := 0
  trapPc    : Word := 0
  trapInfo  : Word := 0
  /-- Lanes of the thread's home group in the trapping issue group (R169). -/
  trapMask  : BitVec 128 := 0
  clkHi     : Word := 0
  /-- Cycle of the last issue, with the cycles of R71 added (R90). -/
  lastIssue : Option Nat := none
  /-- Cycles with no other candidate since a yield (R155). -/
  yielded   : Option Nat := none
  blocked   : Option Blocked := none
  /-- Cycle at which the thread first stood at its WAITF (R171). -/
  waitSince : Option Nat := none
  /-- The limit of that WAITF passed before its flags cleared (R171). -/
  waitOver  : Bool := false
  /-- Barrier table index and phase of each arrival not yet completed (R154). -/
  arrivals  : List (Nat × Word) := []
  /-- MEMUE due at the next boundary, with its TRAPINFO (R188). -/
  memue     : Option Word := none
  /-- MCNACK due at the next boundary, with its TRAPINFO (R196). -/
  mcnack    : Option Word := none
  /-- Deferred traps due at the next boundary (R212): cause and TRAPINFO. -/
  deferred  : List (BitVec 6 × Word) := []
  stopped   : Bool := false
  /-- The debugger resumed the thread at the breakpoint it stands at (R376). -/
  passBreak : Bool := false
  /-- Lines read at device scope or wider since the last resetting fence (R199): context's object and line number. -/
  promoted  : List (Nat × Nat) := []
  /-- Number of the thread's last FENCE among the accesses of the device (R200). -/
  lastFence : Nat := 0
  /-- Number of its last FENCE that is a release (R199). -/
  lastRelease : Nat := 0
  deriving DecidableEq, Repr

/-- A place a fixed-latency result is written to (R90). -/
inductive RegPlace where
  | vec (home reg lane : Nat)
  | uni (home n : Nat)
  | pred (t : Tid) (n : Nat)
  | xreg (t : Tid) (j : Nat)
  | fpflags (t : Tid)
  | nowhere
  deriving DecidableEq, Repr

/-- A fixed-latency write whose latency has not passed (R91): the register already holds the value of the write to it that lands last, and
`old` is what an early read may still obtain before this one. Its landing completes the operation under `flag`. [DESIGN CHOICE: log 13, 79] -/
structure Landing where
  due   : Nat
  place : RegPlace
  old   : Word
  owner : Tid
  flag  : Option Nat
  /-- The bits of FPFLAGS that it sets, where it is no write of all of them (R28). -/
  sets  : Word := 0
  deriving DecidableEq, Repr

/-- An entry of a home group's write-window table (R72). -/
structure Window where
  lo  : Nat
  hi  : Nat
  due : Nat
  deriving DecidableEq, Repr

/-! ### Home groups and blocks -/

/-- A home group (R58, R59, R273 to R285). -/
structure Group where
  block   : BlockKey
  index   : Nat
  home    : Nat
  sched   : Nat
  /-- Vector registers per thread (R47). -/
  alloc   : Nat
  role    : Nat := 0
  quotaPending : Int := 0
  quotaPartner : Nat := 0
  /-- Granules the group has received minus given in completed transfers (R286). -/
  transferred  : Int := 0
  readySince : Option Nat := none
  forced  : Bool := false
  hang    : Nat := 0
  hangPcs : List Word := []
  hangDue : Bool := false
  windows : List Window := []
  /-- PC of an instruction that found no free window, and the cycle at which the window that was the oldest is released (R72). -/
  windowHold : Option (Word × Nat) := none
  /-- Tiles a TDSET is loading (R232), with the flag and lanes it completes. -/
  loading : List (Nat × Option Nat) := []
  /-- Tiles whose matrix area has been written since their TDSET (R230). [DESIGN CHOICE: log 60] -/
  loose   : List Nat := []
  /-- Local bytes that an engine or another home group has written since the OPRDY that took such writes in: first byte, one past the
  last, and the scope code that an OPRDY needs to take them in (R201). [DESIGN CHOICE: log 20] -/
  unready : List (Nat × Nat × Nat) := []
  /-- Vector registers that an engine has written since the last OPRDY (R201). [DESIGN CHOICE: log 20] -/
  unreadyRegs : List Nat := []
  deriving DecidableEq, Repr

/-- How far a placed block has come (R266, R267). -/
inductive Phase where
  /-- The next binding to perform, and the page or token under which its copy is parked. -/
  | prologue (binding : Nat) (park : Option ParkKey)
  | running
  | abandoned (cause : BitVec 6)
  | evicting
  deriving DecidableEq, Repr

/-- A resident block (R63). -/
structure Block where
  key       : BlockKey
  ctx       : Nat
  core      : Nat
  localBase : Nat
  localBytes : Nat
  threads   : Nat
  groups    : Nat
  regions   : Nat
  tiles     : Nat
  gang      : Nat
  cancel    : Bool := false
  /-- Registered barriers by index in the barrier table (R63). -/
  barriers  : List (Nat × Nat) := []
  /-- Mailboxes in the block's local memory that an instruction has acted on (R295). -/
  boxes     : List Nat := []
  /-- Registered barriers, and mailboxes in use, that a write which R291 forbids has met, each with its 16 or 32 bytes as they stood
  before such a write: every field holds one of those values or what stands now (R291, R295). [DESIGN CHOICE: log 54] -/
  strayed   : List (Nat × List Byte) := []
  phase     : Phase := .prologue 0 none
  /-- Entry point offset and argument records of a spawned block (R269). -/
  spawned   : Option (Nat × List (List Word)) := none
  /-- A debugger's stop with freeze holds its engine work (R377). -/
  frozen    : Bool := false
  deriving DecidableEq, Repr

/-- An accumulator region of a block with its header (R64). Element (i, j) has key 256·i + j. -/
structure Region where
  block    : BlockKey
  index    : Nat
  i32      : Bool := false
  stopped  : Bool := false
  progress : Nat := 0
  slices   : Nat := 0
  owner    : BitVec 8 := 0
  insn     : IWord := 0
  aCursor  : Nat := 0
  wCursor  : Nat := 0
  latch0   : BitVec 64 := 0
  latch1   : BitVec 64 := 0
  /-- An instruction acted on the region while an MMA on it was incomplete: every read gives a free value (R213). [DESIGN CHOICE: log 19] -/
  spoiled  : Bool := false
  data     : Sparse 32 := []
  deriving DecidableEq, Repr

/-! ### Accesses, logs and engines -/

/-- One lane's access, from issue until it is performed (R298); also what a wait-table or side-log entry holds (R346).
The opcode tells what it does. -/
structure Access where
  /-- Place in the issue order of the device. -/
  id    : Nat
  /-- Number of the instruction it belongs to. -/
  inst  : Nat
  tid   : Tid
  opc   : BitVec 8
  mod   : BitVec 8
  qual  : BitVec 2 := 0
  /-- Cluster space in place of device memory. -/
  inLocal : Bool := false
  obj   : Nat := 0
  /-- Offset in the object, or cluster-space address. -/
  off   : Nat := 0
  /-- View table index the access was checked through. -/
  handle : Nat := 0
  /-- Further view table indexes it was checked through (R234). -/
  others : List Nat := []
  bytes : Nat := 0
  data  : BitVec 128 := 0
  cmp   : BitVec 64 := 0
  /-- First destination register. -/
  reg   : Nat := 0
  flag  : Option Nat := none
  pc    : Word := 0
  /-- Performed at block scope and not yet beyond (R298). -/
  atBlk : Bool := false
  /-- Request on the fabric that carries it: plane and tag (R356). -/
  tag   : Option (Nat × Word) := none
  /-- Accesses that must be performed first, by number (R199, R200). -/
  needs : List Nat := []
  /-- Cores a fence's request has not reached (R199, R200): core and highest access number it covers. -/
  asked : List (Nat × Nat) := []
  /-- For a store that an engine, a copy or a PLACE makes: OPC and MOD of its instruction, and its SETF flag (R345, R346). -/
  part  : Option (BitVec 16 × Option Nat) := none
  /-- Further operands by opcode. -/
  args  : List Nat := []
  /-- The line of a peer that its answer brings is not kept (R183); before it is sent: its own bytes alone are asked for. [DESIGN CHOICE: log 22] -/
  noLine : Bool := false
  deriving DecidableEq, Repr

/-- A sampled request (R380): its access, thread, line and instruction. [DESIGN CHOICE: log 73] -/
structure Sample where
  id  : Nat
  tid : Tid
  obj : Nat
  off : Nat
  pc  : Word
  deriving DecidableEq, Repr

/-- Bytes that a peer has sent for an engine's operation or a unit, from an offset on; none where it refused. `ue` says that it met an
uncorrectable error (R188). -/
structure PeerBytes where
  id    : Nat
  obj   : Nat
  off   : Nat
  bytes : List Byte
  ue    : Bool := false
  deriving DecidableEq, Repr

/-- A wait-table or side-log entry, or an operation record (R346). -/
structure Entry where
  kind   : Nat
  key    : ParkKey
  marked : Bool := false
  acc    : Access
  /-- 0xFF for an engine (R346). -/
  engine : Bool := false
  /-- Operation, batch or copy the entry belongs to. -/
  op     : Nat := 0
  deriving DecidableEq, Repr

/-- Where rows come from or go to (R210, R217, R224). -/
inductive Span where
  | pair (lo hi : Word)
  /-- The object and offset that the check at issue found, and the bounds of the view then. -/
  | view (obj off low high : Nat)
  | fifo (k : Nat)
  | regs (r : Nat)
  | latch (slot : Nat)
  deriving DecidableEq, Repr

/-- What a queued operation of the matrix engine does (R213). -/
inductive EngineKind where
  | wload (fmt slot : Nat) (lo hi : Word)
  | mma (region : Nat) (aFmt wFmt n : Nat) (packed : Bool) (a w : Span)
  | accz (region : Nat)
  | accrd (region reg m c : Nat)
  | accwr (region m c : Nat) (rows : List (List Word))
  | accld (region : Nat) (src : Span)
  /-- The format of the region as it stood at issue comes first; with `auto` the scales are those of the rows drained so far. -/
  | accdr (i32 : Bool) (region fmt mode : Nat) (pk auto : Bool) (scales : List Word) (regs : List (Option Nat)) (dst : Span) (row : Nat)
  | rowmax (region mask : Nat) (run : Bool) (d old : List Word) (regs : List (Option Nat))
  | rowexp (region mask : Nat) (m c d : List Word) (regs : List (Option Nat))
  | rowsc (region form : Nat) (f g c : List Word) (regs : List (Option Nat))
  deriving DecidableEq, Repr

/-- The operands of a slice, as fetched: bytes of A and of W, and how far each stream has gone (R218, R351). -/
structure SliceIn where
  a : List Byte
  w : List Byte
  aUsed : Nat
  wUsed : Nat
  deriving DecidableEq, Repr

/-- A queued operation of the matrix engine. -/
structure EngineOp where
  id    : Nat
  block : BlockKey
  group : Nat
  ctx   : Nat
  insn  : IWord
  /-- Threads whose flag it completes. -/
  lanes : List Tid
  flag  : Option Nat
  kind  : EngineKind
  /-- Parked under a page or token (R219). -/
  park  : Option ParkKey := none
  pc    : Word := 0
  handle : Nat := 0
  /-- The column scale vector of a streamed MMA, once read. -/
  scales : List Word := []
  /-- Bytes of the current slice already taken from a FIFO, for A and for W. -/
  bufA  : List Byte := []
  bufW  : List Byte := []
  /-- The slice that is being added, the one after it once it has been fetched, and whether that fetch has been tried (R351). -/
  ready : Option SliceIn := none
  next  : Option SliceIn := none
  looked : Bool := false
  /-- Vector registers of the run that it reads: the first, and one past the last (R220). [DESIGN CHOICE: log 20] -/
  run   : Nat × Nat := (0, 0)
  /-- At a restore: the weight image that the slot held (R215). [DESIGN CHOICE: log 20] -/
  seen  : Option (List Byte) := none
  /-- Uniform registers of the issuing home group that the instruction names as operands (R372). [DESIGN CHOICE: log 59] -/
  unis  : List Nat := []
  /-- One of those was written before the completion flag cleared, so that the results are unpredictable (R372). [DESIGN CHOICE: log 59] -/
  raced : Bool := false
  /-- It named a region with an incomplete MMA when it was issued: it acts without waiting (R213). [DESIGN CHOICE: log 19] -/
  hasty : Bool := false
  deriving DecidableEq, Repr

/-- A weight latch slot of a core (R215, R216). -/
structure Latch where
  owner   : Option BlockKey := none
  /-- The last WLOAD of the slot has been performed, and did not fail. -/
  loaded  : Bool := false
  fmt     : Nat := 0
  scales  : List Word := []
  /-- The 128 rows of weights. -/
  weights : List (List Nat) := []
  /-- The bytes of the image that was loaded. [DESIGN CHOICE: log 20] -/
  image   : List Byte := []
  deriving DecidableEq, Repr

/-- An engine-chaining FIFO (R239); engine codes 0 req, 1 pro, 2 fet, 3 drn. -/
structure Fifo where
  owner    : Option BlockKey := none
  producer : Nat := 0
  consumer : Nat := 0
  bytes    : List Byte := []
  deriving DecidableEq, Repr

/-- A range-scoreboard entry (R292). -/
structure Range where
  lo : Nat
  hi : Nat
  op : Nat
  deriving DecidableEq, Repr

/-- A copy batch at the request engine (R238). Its requests are performed in order. -/
structure Batch where
  id      : Nat
  block   : BlockKey
  group   : Nat
  ctx     : Nat
  lanes   : List Tid
  flag    : Option Nat
  addr    : Nat
  count   : Nat
  /-- Index of the next request, the row in progress, and bytes of that row already written at the destination. -/
  next    : Nat := 0
  row     : Nat := 0
  part    : Nat := 0
  /-- The request in progress, which has passed its checks; empty between requests. -/
  cur     : List Byte := []
  /-- Bytes of a row at the destination, once known, checked and held in the range scoreboard. -/
  len     : Option Nat := none
  /-- The request in progress is the rest of a row kept by a save: the request at `next` is still to be performed. -/
  again   : Bool := false
  /-- Bytes already taken from a FIFO. -/
  buf     : List Byte := []
  /-- The stores of the last bytes are on their way to a peer. -/
  sent    : Nat := 0
  /-- Barriers whose count failed (R290). [DEDUCED: log 47] -/
  overrun : List Nat := []
  /-- The last bytes written end at a boundary at which pre-emption may stop the batch. -/
  atEdge  : Bool := true
  park    : Option ParkKey := none
  handles : List Nat := []
  /-- The request at `next` had started when it was saved: its entry of the range scoreboard has been taken again (R293). -/
  held    : Bool := false
  /-- Objects that the checks of the request in progress found for its source and its destination. -/
  objects : Nat × Nat := (0, 0)
  pc      : Word := 0
  deriving DecidableEq, Repr

/-- One LDGL until every lane's bytes are written (R189). -/
structure LdglCopy where
  id    : Nat
  tid   : Tid
  ctx   : Nat
  obj   : Nat
  off   : Nat
  handle : Nat
  dst   : Nat
  bytes : Nat
  barrier : Nat
  flag  : Option Nat
  pc    : Word
  mod   : BitVec 8
  park  : Option ParkKey := none
  /-- The barrier's count failed (R290). -/
  overrun : Bool := false
  deriving DecidableEq, Repr

/-- A multicast store until its status record is written (R195, R196). -/
structure Multi where
  id     : Nat
  tids   : List Tid
  ctx    : Nat
  group  : Nat
  record : Nat
  flag   : Option Nat
  pc     : Word
  /-- Packets that carry its lines, until the combined answer of each has come. -/
  lines  : List Packet
  /-- Devices that refused a line, with the reason of each (R369). -/
  refusers : List (Nat × Nat) := []
  /-- Most refusals of one line, and most answers of one line. -/
  refusals : Nat := 0
  answers  : Nat := 0
  /-- The refusals that the answer of a line counts, and the devices heard of that refused it, by tag, object and offset (R369). -/
  told  : List (Word × Nat × Nat × Nat) := []
  heard : List (Word × Nat × Nat × Nat) := []
  /-- Its MCREFUSED records have been written. -/
  reported : Bool := false
  handles : List Nat := []
  /-- Object and offset of the lowest line (R369). -/
  lowest : Nat × Nat := (0, 0)
  deriving DecidableEq, Repr

/-- A view-cache entry (R318): the table entry as this core holds it. -/
structure CachedView where
  ctx    : Nat
  index  : Nat
  live   : Bool
  gen    : Nat
  obj    : Nat
  rights : BitVec 4
  held   : Bool
  low    : Nat
  high   : Nat
  deriving DecidableEq, Repr

/-- A line of the line cache (R183) or an entry of the statistics buffer (R235). -/
structure Line where
  ctx   : Nat
  obj   : Nat
  base  : Nat
  bytes : List Byte
  stale : Bool := false
  deriving DecidableEq, Repr

/-- A performed release and a line it covers (R199, R306). -/
structure Release where
  ctx  : Nat
  obj  : Nat
  line : Nat
  /-- Highest access number that the release orders. -/
  upTo : Nat
  /-- The step at which it was performed. -/
  at_  : Nat
  deriving DecidableEq, Repr

/-- A core (R10). [DESIGN CHOICE: log 5] -/
structure Core where
  /-- Cycle counter (R170). [DESIGN CHOICE: log 3] -/
  clock   : Nat := 0
  /-- First free cycle of each scheduler's datapath (R277). -/
  freeAt  : List Nat := [0, 0, 0, 0]
  /-- Schedulers that have taken their turn in this cycle. -/
  turns   : List Nat := []
  latches : List Latch := [{}, {}]
  engine  : List EngineOp := []
  /-- ACCDR drains whose rows are all given out and whose stores are not all performed. -/
  drains  : List EngineOp := []
  fifos   : List Fifo := [{}, {}, {}, {}, {}, {}, {}, {}]
  ranges  : List Range := []
  views   : List CachedView := []
  /-- Handle pool (R202): context and handle. -/
  pool    : List (Nat × Nat) := []
  /-- Lanes of a VDUP that waits at issue until each holds a handle; the handles they hold stand in `pool` too (R202). [DEDUCED: log 48] -/
  claimed : Nat := 0
  lines   : List Line := []
  stats   : List Line := []
  waits   : List Entry := []
  /-- Accesses the memory port retries until a wait-table entry frees (R186). -/
  retries : List Entry := []
  side    : List Entry := []
  accs    : List Access := []
  landings : List Landing := []
  batches : List Batch := []
  ldgl    : List LdglCopy := []
  multis  : List Multi := []
  /-- For each line that releases performed here cover, the last of them (R199). -/
  releases : List Release := []
  /-- Places written while an operation still owed them the result it writes at completion (R211). [DESIGN CHOICE: log 14] -/
  early   : List RegPlace := []
  /-- Idle cycles that the limiter has still to insert into scheduler issue, and into slice starts (R384). -/
  idle    : Nat := 0
  idleSlices : Nat := 0
  /-- Issue counts of the window that runs, and of the last one that ended. -/
  issued  : Nat := 0
  engineStarts : Nat := 0
  lastIssued : Nat := 0
  lastStarts : Nat := 0
  /-- Requests of the core's threads so far, and those of them that are sampled (R380). [DESIGN CHOICE: log 73] -/
  requested : Nat := 0
  /-- [DESIGN CHOICE: log 73] -/
  samples : List Sample := []
  /-- Pages and tokens with a fault record since their last REPLAY (R344): context, key, object, page base. -/
  recorded : List (Nat × ParkKey × Nat × Nat) := []
  deriving DecidableEq, Repr

/-! ### Tensors (R324 to R338) -/

/-- A PLACE in progress (R229). -/
structure PlaceOp where
  id     : Nat
  block  : BlockKey
  group  : Nat
  ctx    : Nat
  tD     : Nat
  tS     : Nat
  lanes  : List Tid
  flag   : Option Nat
  mod    : BitVec 8
  pc     : Word
  /-- The old and the new matrix, and the factoring of their quotient, as rows of bits (R327). -/
  mOld   : List Nat
  mNew   : List Nat
  w      : List Nat
  src    : List Nat
  v      : List Nat
  /-- Descriptors of the source and of the destination as they stood at issue. -/
  dS     : List Byte
  dD     : List Byte
  /-- Some pass needs the alternate spans (R324). -/
  alt    : Bool := false
  /-- Values of the elements, by index, that a stage which writes register after register has read (R330). [DEDUCED: log 32] -/
  held   : List Nat := []
  /-- A raw write has met the tensor's spans: its elements are free values (R230). [DESIGN CHOICE: log 15] -/
  dirty  : Bool := false
  /-- The cursor (R332). -/
  pass   : Nat := 0
  step   : Nat := 0
  park   : Option ParkKey := none
  /-- Where the members meet (R229, R334, R335): this member has told the others, and bytes that have arrived in a D pass. -/
  asked  : Bool := false
  arrived : Nat := 0
  /-- The moves of the step under way are made, and its stores to peers are on their way (R333). -/
  made   : Bool := false
  /-- Of a tensor on several devices: how many PLACEs of its device set this device has issued before (R335). [DESIGN CHOICE: log 33] -/
  turn   : Nat := 0
  /-- The bases in device memory that its descriptors name, with the object of each at issue. [DESIGN CHOICE: log 16] -/
  objs   : List (Nat × Nat) := []
  deriving DecidableEq, Repr

/-- What a member of a device set has told before a D pass, before a copy pass that reads other members, or at the end of its passes
(R229, R334, R335): device, context, the CRC of its plan, the object and offset of the span that the others write or read, which of
the three it is, and the turn of its PLACE. [DESIGN CHOICE: log 33] -/
structure PlanNote where
  dev : Nat
  ctx : Nat
  tensor : Nat
  crc : Nat
  obj : Nat
  off : Nat
  kind : Nat := 0
  /-- [DESIGN CHOICE: log 33] -/
  turn : Nat := 0
  deriving DecidableEq, Repr

/-! ### Contexts, queues, launches -/

/-- STATE of a context (R247). -/
inductive CtxState where
  | created | runnable | running | preempting | saved | faulted | destroyed
  deriving DecidableEq, Repr

/-- A context fault on its way to the fault image (R246). -/
structure FaultImage where
  reason : BitVec 8
  pc     : Word := 0
  launch : Nat := 0
  mask   : BitVec 128 := 0
  hit    : BitVec 128 := 0
  infos  : List (Nat × Word) := []
  offsets : List (Nat × Nat) := []
  names  : List (Nat × Tid) := []
  /-- Device core number of the issue group that raised it; 0xFF for a unit other than a core (R244). -/
  core   : Nat := 0xFF
  deriving DecidableEq, Repr

/-- A dump in progress (R379): the frames already copied, and what is left of the copy space. -/
structure Dump where
  first  : Nat
  size   : Nat
  used   : Nat
  /-- Pages copied: object, page base. -/
  copied : List (Nat × Nat)
  /-- The context has been saved, and its tables are write-protected. -/
  armed  : Bool := true
  deriving DecidableEq, Repr

/-- A registered context (R242). [DESIGN CHOICE: log 8] -/
structure Ctx where
  num      : Nat
  priv     : Bool
  quarter  : Nat
  viewEntries : Nat
  viewTable : Nat
  objTable : Nat
  objEntries : Nat
  queueEntries : Nat
  faultBase : Nat
  errorBase : Nat
  control  : Nat
  saveBase : Nat
  saveBytes : Nat
  state    : CtxState := .created
  fault    : Option FaultImage := none
  /-- [DESIGN CHOICE: log 7] -/
  nextToken : Word := 1
  /-- Next slots of the fault queue and of the error queue, and error records dropped (R242, R244): the control block holds them too. -/
  faultTail : Nat := 0
  errorTail : Nat := 0
  lost     : Nat := 0
  /-- Records the memory port holds while the fault queue is full (R244), oldest first. -/
  heldRecords : List (List Byte) := []
  /-- [DESIGN CHOICE: log 8] -/
  breaks   : List (Nat × Option Word) := [(0, none), (0, none), (0, none), (0, none), (0, none), (0, none), (0, none), (0, none)]
  /-- [DESIGN CHOICE: log 8] -/
  breakStops : Bool := false
  /-- What its stops ask for: that the block be halted (R376), and that its engine work be frozen (R377). [DESIGN CHOICE: log 8] -/
  stopHalts : Bool := false
  /-- [DESIGN CHOICE: log 8] -/
  stopFreezes : Bool := false
  /-- [DESIGN CHOICE: log 8, 73] -/
  sampling : Nat := 0
  traceRing : Option (BitVec 64) := none
  /-- The ring that its control block names, and its entries, as read at registration. -/
  traceAt : BitVec 64 × Nat := (0, 0)
  dump     : Option Dump := none
  confKey  : Bool := false
  /-- Places of the counters named so far, in the order of first use (R374). -/
  jobs     : List (Nat × Nat) := []
  phases   : List (Nat × Nat) := []
  graphs   : List (Nat × Nat) := []
  /-- A RESUME waits for its restore (R250). -/
  resuming : Bool := false
  deriving DecidableEq, Repr

/-- Does the context run, with no fault on its way to a save (R246)? -/
def Ctx.runs (c : Ctx) : Bool := c.state == .running && c.fault.isNone

/-- A saved block (R248, R249): what its image in the save area does not hold of it and of its unfinished work. [DESIGN CHOICE: log 38] -/
structure Kept where
  /-- The core it was on: its index in the cluster holds for the restore (R63). -/
  core    : Nat
  /-- Offset of its block save area. -/
  area    : Nat
  /-- Saved alone by a gang eviction (R265). -/
  evicted : Bool
  block   : Block
  groups  : List Group
  threads : List Thread
  regions : List Region
  engine  : List EngineOp
  drains  : List EngineOp
  batches : List Batch
  ldgl    : List LdglCopy
  accs    : List Access
  waits   : List Entry
  retries : List Entry
  side    : List Entry
  fifos   : List (Nat × Fifo)
  ranges  : List Range
  /-- Registers saved empty: group, register, lane, and the operation that fills them. -/
  fills   : List (Nat × Nat × Nat × BitVec 64)
  /-- The images that the block's latch slots held, by slot: an image that has changed at the restore leaves free results (R216). [DESIGN CHOICE: log 20] -/
  latched : List (Nat × List Byte)
  /-- Where the block's entries and records begin in the lists of the image: wait-table entries, side-log entries, operation records, and the
  images of its FIFOs and batches. -/
  waitsAt : Nat := 0
  sideAt  : Nat := 0
  opsAt   : Nat := 0
  imagesAt : Nat := 0
  deriving DecidableEq, Repr

/-- STATE of a queue (R259). -/
inductive QueueState where
  | empty | active | blocked | error | draining | disabled
  deriving DecidableEq, Repr

/-- A registered queue (R252). -/
structure Queue where
  ctx      : Nat
  control  : BitVec 64
  priority : Nat
  entries  : Nat
  ring     : BitVec 64
  /-- Object and offset of the control block and of the ring. -/
  controlAt : Nat × Nat
  ringAt   : Nat × Nat
  state    : QueueState := .empty
  /-- A WAIT has been taken from it (R257). -/
  waited   : Bool := false
  /-- In ERROR: the failing record has not been taken (R259). -/
  atHead   : Bool := false
  /-- The launch taken last from this queue. -/
  lastLaunch : Option Nat := none
  deriving DecidableEq, Repr

/-- A kernel header as read at validation (R115). -/
structure Header where
  flags   : BitVec 16
  regs    : Nat
  threads : Nat
  localBytes : Nat
  regions : Nat
  tiles   : Nat
  gang    : Nat
  roles   : List (Nat × Nat)
  trapMask : Word
  handler : Word
  codeSize : Nat
  entryTable : Nat
  bindings : Nat
  tagBase : Nat
  /-- The continuation entry table (R110) and the binding records (R111), read with the header. [DEDUCED: log 85] -/
  entries : List Nat := []
  /-- [DEDUCED: log 85] -/
  binds   : List (List Byte) := []
  deriving DecidableEq, Repr

/-- A graph, phase or job counter that has not settled (R256): its place, the place of the counter above it, and what its
members have come to so far. -/
structure Counter where
  ctx    : Nat
  at_    : Nat × Nat
  parent : Option (Nat × Nat) := none
  failed : Bool := false
  cancelled : Bool := false
  /-- A CANCEL named it or a counter above it (R258). -/
  marked : Bool := false
  /-- It had settled when a later record named it again: it settles no more, and pays its parent no more (R256). -/
  done   : Bool := false
  deriving DecidableEq, Repr

/-- STATE of a launch (R260). -/
inductive LaunchState where
  | validated | placing | running | draining | complete | rejected | cancelled
  deriving DecidableEq, Repr

/-- A launch (R260). -/
structure Launch where
  num     : Nat
  ctx     : Nat
  queue   : Nat
  priority : Nat
  header  : Header
  /-- Object and offset of the kernel header. -/
  obj     : Nat
  base    : Nat
  args    : BitVec 64
  counter : BitVec 64
  counterAt : Nat × Nat
  count   : Nat
  next    : Nat := 0
  /-- Spawned blocks released so far (R269). -/
  spawned : Nat := 0
  state   : LaunchState := .validated
  /-- Its threads start with an acquire at .sys scope: its record follows a WAIT, or it has predecessors (R257). -/
  acquire : Bool := false
  /-- Predecessors within its graph, by launch number (R257). -/
  preds   : List Nat := []
  /-- Number of its record in the queue. -/
  record  : Nat := 0
  /-- Cycle count at which its gang began to wait (R265). -/
  gangWait : Option Nat := none
  drain   : Option Nat := none
  /-- Settlement held back until the last resident block ends: status code and detail (R258, R260). -/
  verdict : Option (Nat × Nat) := none
  /-- Released spawned blocks not yet placed: block index, entry offset, records. -/
  ready   : List (Nat × Nat × List (List Word)) := []
  /-- Open continuation groups: entry index, first cycle, records (R268). -/
  open_   : List (Nat × Nat × List (List Word)) := []
  settled : Bool := false
  /-- Status code it settled with (R256). -/
  code    : Nat := 0
  /-- What outstanding is still to be decreased by, its page not being reachable when the block ended. -/
  owed    : Int := 0
  /-- Place of the graph counter above (R256). -/
  parent  : Option (Nat × Nat) := none
  /-- Places of the counters above the launch's own (R254): graph, phase, job. -/
  above   : Option (Nat × Nat) × Option (Nat × Nat) × Option (Nat × Nat) := (none, none, none)
  deriving DecidableEq, Repr

/-- A view operation at the Teller (R321). -/
structure ViewOp where
  id     : Nat
  ctx    : Nat
  index  : Nat
  gen    : Nat
  /-- OFFSET of the pointer it named (R346). -/
  off    : Nat := 0
  drop   : Bool
  low    : Nat := 0
  high   : Nat := 0
  mask   : BitVec 4 := 0
  /-- The core that issued it. -/
  core   : Nat
  tid    : Tid
  flag   : Option Nat
  /-- 0 waits for the thread's own accesses; 1 the cores answer; 2 pages are freed. -/
  stage  : Nat := 0
  /-- Own accesses to wait for, by number. -/
  own    : List Nat := []
  /-- Cores that have not answered the shootdown, and accesses each still waits for. -/
  cores  : List Nat := []
  waits  : List Nat := []
  pages  : List (Nat × Nat) := []
  pc     : Word := 0
  deriving DecidableEq, Repr

/-- The coverage tree of an object (R320), as what each live view adds: view index, first granule, granule after the last.
The count of a granule is the number of views listed over it. -/
structure Coverage where
  ctx    : Nat
  obj    : Nat
  views  : List (Nat × Nat × Nat) := []
  deriving DecidableEq, Repr

/-- A fill or an eviction that has been taken (R347 to R349). -/
structure PageOp where
  evict   : Bool
  mode    : Nat
  ctx     : Nat
  obj     : Nat
  off     : Nat
  source  : Nat
  counter : BitVec 64
  counterCtx : Nat
  frame   : Nat
  length  : Nat
  /-- Taken, and waiting for the command before it for the same page, or for its counter to be reachable (R347). [DEDUCED: log 61] -/
  waiting : Bool := false
  deriving DecidableEq, Repr

/-! ### Fabric, Bursar -/

/-- STATE of a link (R353). -/
inductive LinkState where
  | down | training | keying | up | degraded | retraining | failed
  deriving DecidableEq, Repr

/-- A Flefel link (R352, R353). -/
structure Link where
  state   : LinkState := .down
  lanes   : Nat := 4
  /-- Consecutive failures to train again. -/
  failures : Nat := 0
  /-- Cycles of the last CRC errors, newest first. -/
  crcErrors : List Nat := []
  /-- Flits received, and sent, under the current key. -/
  flits   : Nat := 0
  /-- [DESIGN CHOICE: log 9] -/
  sent    : Nat := 0
  /-- For each of the 8 channels, by twice its class and its VC: credits of the other end, in flits, and buffers to be returned to it (R357). [DESIGN CHOICE: log 9] -/
  credits : List Nat := [0, 0, 0, 0, 0, 0, 0, 0]
  freed   : List Nat := [0, 0, 0, 0, 0, 0, 0, 0]
  /-- Keys agreed so far. -/
  keyEpoch : Nat := 0
  /-- Sequence number of the next flit in order, and of the next that is sent. -/
  expect  : BitVec 8 := 0
  seq     : BitVec 8 := 0
  /-- The replay buffer: flits that the other end has not acknowledged, oldest first, the last one of a packet with the packet (R358). -/
  window  : List (Flit × Option Packet) := []
  /-- For each channel, the payloads of a packet whose last flit has not come. -/
  parts   : List (List Byte) := [[], [], [], [], [], [], [], []]
  /-- For each channel, the cycles in which it has held a flit and forwarded none (R363). -/
  stalled : List Nat := [0, 0, 0, 0, 0, 0, 0, 0]
  /-- The channels that run in integrity-only mode (R360). [DESIGN CHOICE: log 9] -/
  integrity : BitVec 8 := 0
  /-- Replays asked for. -/
  replays : Nat := 0
  deriving DecidableEq, Repr

/-- A request on the fabric that has not been answered (R356, R361). The packet's plane is the one it travels on. -/
structure Request where
  packet : Packet
  /-- Plane on which its tag was counted. -/
  plane  : Nat
  core   : Nat
  /-- The access, copy row, multicast or engine it serves. -/
  id     : Nat
  /-- Not on its way: held back until its selector may be injected again, or returned by a failed link (R355). -/
  nacked : Bool := false
  returned : Bool := false
  /-- Failed GCM checks (R360). -/
  failures : Nat := 0
  /-- Refused by its home; sent again after REPLAY. -/
  refused : Bool := false
  /-- Its response slot is one of the 512 that no core owns (R361). [DESIGN CHOICE: log 70] -/
  shared : Bool := false
  deriving DecidableEq, Repr

/-- A routing bank of a plane (R362): ring sizes and position of each device ID. [DESIGN CHOICE: log 9] -/
structure Bank where
  rings  : Nat × Nat × Nat := (8, 8, 8)
  places : List (Nat × Nat) := (List.range 512).map fun d => (d, d)
  deriving DecidableEq, Repr

/-- The routing banks of a plane. [DESIGN CHOICE: log 9] -/
structure Routes where
  bank0   : Bank := {}
  bank1   : Bank := {}
  current : Bool := false
  retiring : Bool := false
  /-- The cycle at which every router of the plane had reported no packet of the old bank. -/
  drained : Option Nat := none
  deriving DecidableEq, Repr

/-- A tree node combining the answers of a multicast (R365). -/
structure Combine where
  packet  : Packet
  /-- Devices whose answer has not come: children, and this one while its own delivery has not answered. -/
  waiting : List Nat
  refusals : Nat := 0
  successes : Nat := 0
  /-- The four lowest refusing devices. -/
  refusers : List Nat := []
  deriving DecidableEq, Repr

/-- A line the memory port of a member holds until its page is resident (R196); under token 0 it is tried again. -/
structure Pending where
  packet : Packet
  key    : ParkKey
  deriving DecidableEq, Repr

/-- Power states (R383). -/
inductive Power where
  | p0 | p1 | p2 | p3 | p4
  deriving DecidableEq, Repr

/-- Lifecycle (R388). -/
inductive Lifecycle where
  | factory | development | production | returned
  deriving DecidableEq, Repr

/-- Debug level (R388). -/
inductive DebugLevel where
  | none | observe | invasive
  deriving DecidableEq, Repr

/-- A reply of the management mailbox. -/
inductive Reply where
  | ok
  | badState
  | noSpace
  | badArg
  | pointer (p : BitVec 64)
  | report (bytes : List Byte)
  | value (v : Word)
  | busy
  | link (l : Nat) (s : LinkState)
  /-- An expression of a debugger that would fault: cause and resolved register number (R78). -/
  | fault (cause : BitVec 6) (res : Nat)
  deriving DecidableEq, Repr

/-- The issue group a scheduler has selected (R275, R276). -/
structure IssueGroup where
  core    : Nat
  sched   : Nat
  launch  : Nat
  pc      : Word
  members : List Tid
  deriving DecidableEq, Repr

/-- The state of one device. -/
structure State where
  -- the model's own
  /-- [DESIGN CHOICE: log 1] -/
  issue   : Option IssueGroup := none
  /-- [DESIGN CHOICE: log 1, 78] -/
  agenda  : List Instr := []
  /-- [DESIGN CHOICE: log 2] -/
  tick    : Nat := 0
  /-- [DESIGN CHOICE: log 11] -/
  broken  : Option Fault := none
  -- register files
  vregs   : Sparse 32 := []
  /-- Number of the operation whose value an empty register awaits; an unlisted register is full (R51, R53). -/
  fills   : Sparse 64 := []
  uregs   : Sparse 32 := []
  tiles   : Sparse 8 := []
  -- work
  threads : List Thread := []
  groups  : List Group := []
  blocks  : List Block := []
  regions : List Region := []
  /-- [DESIGN CHOICE: log 38] -/
  kept    : List Kept := []
  cores   : List Core := List.replicate 192 {}
  places  : List PlaceOp := []
  planNotes : List PlanNote := []
  /-- PLACEs issued so far of each tensor on several devices: context, tensor, count (R335). [DESIGN CHOICE: log 33] -/
  placeTurns : List (Nat × Nat × Nat) := []
  /-- Bytes of absent pages in the spans of tensors whose PLACE has failed: context, object, offset, number. They take free values when
  their page is filled (R333). [DESIGN CHOICE: log 16] -/
  openBytes : List (Nat × Nat × Nat × Nat) := []
  nextId  : Nat := 1
  -- memory
  vault   : Sparse 8 := []
  /-- [DESIGN CHOICE: log 6] -/
  pool    : Sparse 8 := []
  locals  : Sparse 8 := []
  /-- Poisoned words (R188, R350): Vault by quarter, pool, local, by address / 4. -/
  poisonVault : List Nat := []
  poisonPool  : List Nat := []
  poisonLocal : List Nat := []
  /-- Pool ranges the outside has granted, and ranges whose reads it refuses (R348, R367). -/
  poolGrants : List (Nat × Nat) := []
  poolRefusals : List (Nat × Nat) := []
  /-- Words of code written while a block that executes it was resident (R82): launch, byte offset from the entry point, and the word
  before the write. [DESIGN CHOICE: log 55] -/
  oldCode : List (Nat × Nat × Word) := []
  /-- Objects whose table entry was written while a view of them was LIVE (R340): context and object. [DESIGN CHOICE: log 56] -/
  torn    : List (Nat × Nat) := []
  /-- View table entries written by others than the Teller while their context was registered (R315): context, index, and the bytes before
  such a write. [DESIGN CHOICE: log 84] -/
  oldViews : List (Nat × Nat × List Byte) := []
  /-- Operations of the matrix engine some bytes of whose operands have been written since their issue (R220). [DESIGN CHOICE: log 20] -/
  racedOps : List Nat := []
  -- system
  ctxs    : List Ctx := []
  queues  : List Queue := []
  /-- Next queue in turn at each priority (R257). -/
  turn    : List Nat := [0, 0, 0, 0, 0, 0, 0, 0]
  counters : List Counter := []
  launches : List Launch := []
  nextLaunch : Nat := 1
  /-- The queue that is the page ring (R347). -/
  pageRing : Option Nat := none
  /-- Registrations whose control block cannot be read yet: context, pointer, and whether it is the page ring's (R252, R347). [DESIGN CHOICE: log 57] -/
  registering : List (Nat × BitVec 64 × Bool) := []
  pageOps : List PageOp := []
  /-- Pages asked for since they became ABSENT (R197): context, object, page base. -/
  prefetched : List (Nat × Nat × Nat) := []
  viewOps : List ViewOp := []
  coverage : List Coverage := []
  -- fabric
  links   : List Link := List.replicate 48 {}
  planemap : Word := 0xFAC688
  /-- [DESIGN CHOICE: log 9] -/
  nextTags : List Word := [0, 0, 0, 0, 0, 0, 0, 0]
  requests : List Request := []
  fetched : List PeerBytes := []
  /-- Held responses (R356): source, plane, tag, response. -/
  responses : List (Nat × Nat × Word × Packet) := []
  routes  : List Routes := List.replicate 8 {}
  /-- [DESIGN CHOICE: log 9] -/
  groupTable : List (Nat × List Byte) := []
  combines : List Combine := []
  /-- [DEDUCED: log 69] -/
  memberLines : List Pending := []
  dbghold : Nat := 0
  deepHalt : Bool := false
  debugHalt : Bool := false
  /-- [DESIGN CHOICE: log 78] -/
  outbox  : List Packet := []
  /-- What has left over each link. [DESIGN CHOICE: log 78, 86] -/
  wire    : List (Nat × LinkItem) := []
  /-- The cycle up to which the links have counted (R363). -/
  linkClock : Nat := 0
  /-- Planes that another Bursar has reported to hold a FAILED link (R355). [DEDUCED: log 71] -/
  lostPlanes : BitVec 8 := 0
  /-- [DESIGN CHOICE: log 78] -/
  inbox   : List Packet := []
  failedDevices : List Nat := []
  slowLog : List (Nat × Nat) := []
  -- Bursar
  powered : Bool := true
  /-- [DESIGN CHOICE: log 10] -/
  device  : Nat := 0
  /-- Where the device stands in the torus, whichever ID it holds (R352, R362). [DESIGN CHOICE: log 10] -/
  position : Nat := 0
  ready   : Bool := false
  error   : Bool := false
  host2   : Bool := false
  bootStep : Option Nat := none
  badClusters : List Nat := []
  badQuarters : List Nat := []
  power   : Power := .p0
  gated   : List Nat := []
  pwrReq  : Option (Nat × List Nat) := none
  /-- [DESIGN CHOICE: log 10] -/
  lifecycle : Lifecycle := .production
  debug   : DebugLevel := .none
  /-- [DESIGN CHOICE: log 10] -/
  identity : Bool := false
  skews   : Sparse 32 := []
  softErrors : Nat := 0
  /-- [DESIGN CHOICE: log 3] -/
  quarterClocks : List Nat := [0, 0, 0, 0]
  replies : List Reply := []
  deriving DecidableEq, Repr

/-- The device right after power-good (R382): nothing brought up, no context, every store empty. [DESIGN CHOICE: log 4] -/
def State.reset : State := {}

end Sys2Proof.Machine
end

