-- ==== Sys2Proof/Machine/Threads.lean ====
section
/-! DEFINITION. Reading and changing one thread, home group, block, core, context, launch or queue of the state. -/

namespace Sys2Proof.Machine

def State.thread? (s : State) (t : Tid) : Option Thread := s.threads.find? (fun x => decide (x.tid = t))
def State.modThread (s : State) (t : Tid) (f : Thread → Thread) : State :=
  { s with threads := s.threads.map (fun x => if x.tid = t then f x else x) }
/-- Changes every thread of a list. -/
def State.modThreads (s : State) (ts : List Tid) (f : Thread → Thread) : State :=
  { s with threads := s.threads.map (fun x => if ts.contains x.tid then f x else x) }

def State.group? (s : State) (b : BlockKey) (g : Nat) : Option Group :=
  s.groups.find? (fun x => decide (x.block = b) && decide (x.index = g))
def State.modGroup (s : State) (b : BlockKey) (g : Nat) (f : Group → Group) : State :=
  { s with groups := s.groups.map (fun x => if x.block = b ∧ x.index = g then f x else x) }

def State.block? (s : State) (b : BlockKey) : Option Block := s.blocks.find? (fun x => decide (x.key = b))
def State.modBlock (s : State) (b : BlockKey) (f : Block → Block) : State :=
  { s with blocks := s.blocks.map (fun x => if x.key = b then f x else x) }

def State.region? (s : State) (b : BlockKey) (a : Nat) : Option Region :=
  s.regions.find? (fun x => decide (x.block = b) && decide (x.index = a))
def State.modRegion (s : State) (b : BlockKey) (a : Nat) (f : Region → Region) : State :=
  { s with regions := s.regions.map (fun x => if x.block = b ∧ x.index = a then f x else x) }

def State.core (s : State) (c : Nat) : Core := s.cores.getD c {}
def State.modCore (s : State) (c : Nat) (f : Core → Core) : State := { s with cores := s.cores.modify c f }

def State.ctx? (s : State) (n : Nat) : Option Ctx := s.ctxs.find? (fun x => decide (x.num = n))
def State.modCtx (s : State) (n : Nat) (f : Ctx → Ctx) : State :=
  { s with ctxs := s.ctxs.map (fun x => if x.num = n then f x else x) }

def State.launch? (s : State) (n : Nat) : Option Launch := s.launches.find? (fun x => decide (x.num = n))
def State.modLaunch (s : State) (n : Nat) (f : Launch → Launch) : State :=
  { s with launches := s.launches.map (fun x => if x.num = n then f x else x) }

def State.queue? (s : State) (q : Nat) : Option Queue := s.queues[q]?
def State.modQueue (s : State) (q : Nat) (f : Queue → Queue) : State := { s with queues := s.queues.modify q f }

def State.link (s : State) (l : Nat) : Link := s.links.getD l {}
def State.modLink (s : State) (l : Nat) (f : Link → Link) : State := { s with links := s.links.modify l f }

/-- The threads of a home group, lanes rising (phantom lanes have none). -/
def State.groupThreads (s : State) (b : BlockKey) (g : Nat) : List Thread :=
  s.threads.filter (fun x => decide (x.tid.block = b) && decide (x.tid.group = g))
/-- The threads of a block. -/
def State.blockThreads (s : State) (b : BlockKey) : List Thread := s.threads.filter (fun x => decide (x.tid.block = b))
/-- Live or parked: not exited. -/
def Thread.alive (t : Thread) : Bool := decide (t.life ≠ .exited)
/-- Parked under a page or token. -/
def Thread.isParked (t : Thread) : Bool :=
  match t.life with
  | .parked _ => true
  | _ => false

/-- Device core number of a home slot. -/
def coreOf (home : Nat) : Nat := home / 64
/-- Quarter of a core (R8). -/
def quarterOf (core : Nat) : Nat := core / 48
/-- Device cluster number of a core (R8). -/
def clusterOf (core : Nat) : Nat := core / 4
/-- Index of a core within its cluster (R8). -/
def sliceOf (core : Nat) : Nat := core % 4
/-- The core of a thread. -/
def Thread.core (t : Thread) : Nat := coreOf t.home

/-- The launch of a block. -/
def State.launchOf (s : State) (b : BlockKey) : Option Launch := s.launch? b.launch
/-- Context number of a block; 0 when there is none. -/
def State.ctxOf (s : State) (b : BlockKey) : Nat := ((s.block? b).map (·.ctx)).getD 0
/-- The header of a block's launch. -/
def State.headerOf (s : State) (b : BlockKey) : Option Header := (s.launchOf b).map (·.header)

/-- Index of a thread in its block (R261). -/
def threadIndex (t : Tid) : Nat := 128 * t.group + t.lane
/-- One number for a thread, to take free values at. -/
def tidCode (t : Tid) : Nat := ((t.block.launch * 2 ^ 32 + t.block.index) * 8 + t.group) * 128 + t.lane

/-- Lanes as a mask. -/
def laneMask (ls : List Nat) : BitVec 128 := ls.foldl (fun m l => m ||| (1#128 <<< l)) 0

/-- Flag counts (R54): one more, or one fewer, incomplete operation under a flag. -/
def Thread.flagUp (t : Thread) (f : Nat) : Thread := { t with flags := t.flags.modify f (· + 1) }
def Thread.flagDown (t : Thread) (f : Nat) : Thread := { t with flags := t.flags.modify f (· - 1) }
/-- Is the flag pending? -/
def Thread.flag (t : Thread) (f : Nat) : Bool := decide (t.flags.getD f 0 ≠ 0)
/-- Completes an operation under a flag in each thread of a list (R54). -/
def State.complete (s : State) (ts : List Tid) (f : Option Nat) : State :=
  match f with
  | some n => s.modThreads ts (·.flagDown n)
  | none => s

/-- A stop that the state carries to the end of the step: an access named a byte the machine does not have. -/
def State.break (s : State) (f : Fault) : State :=
  match s.broken with
  | some _ => s
  | none => { s with broken := some f }

/-- The outcome of a step: the next state, or the fault an access met. [DESIGN CHOICE: log 11] -/
def conclude (s : State) : Host.Outcome State Fault Refusal :=
  match s.broken with
  | some f => .fault f
  | none => .next s

end Sys2Proof.Machine
end

