-- ==== Sys2Proof/Machine/Registers.lean ====
section
/-! DEFINITION. The register files (R43 to R56): where each register lies, reads with the early-read rule R91, writes at
a fixed latency, and fills of empty registers (R51 to R53). -/

namespace Sys2Proof.Machine

def vkey (home reg lane : Nat) : Nat := (home * 256 + reg) * 128 + lane
def ukey (home n : Nat) : Nat := home * 32 + n
def tkey (home t byte : Nat) : Nat := (home * 8 + t) * 128 + byte

/-! ### Cells -/

/-- What the cell of a place holds, new values included. -/
def State.cell (s : State) : RegPlace → Word
  | .vec h r l => sget s.vregs (vkey h r l)
  | .uni h n => sget s.uregs (ukey h n)
  | .pred t n => match s.thread? t with
    | some th => if th.preds.getLsbD n then 1 else 0
    | none => 0
  | .xreg t j => match s.thread? t with
    | some th => th.xs.getD j 0
    | none => 0
  | .fpflags t => match s.thread? t with
    | some th => th.fpflags.setWidth 32
    | none => 0
  | .nowhere => 0

/-- Predicates with bit `n` set to `b`. -/
def setPred (p : BitVec 7) (n : Nat) (b : Bool) : BitVec 7 :=
  if b then p ||| (1#7 <<< n) else p &&& ~~~(1#7 <<< n)

/-- Writes the cell of a place. -/
def State.setCell (s : State) (p : RegPlace) (v : Word) : State :=
  match p with
  | .vec h r l => { s with vregs := sput s.vregs (vkey h r l) v }
  | .uni h n => { s with uregs := sput s.uregs (ukey h n) v }
  | .pred t n => s.modThread t fun th => { th with preds := setPred th.preds n (v != 0) }
  | .xreg t j => s.modThread t fun th => { th with xs := th.xs.set j (v &&& 0x3FFFFFFF) }
  | .fpflags t => s.modThread t fun th => { th with fpflags := v.setWidth 5 }
  | .nowhere => s

/-- One number for a place. -/
def placeKey : RegPlace → Nat
  | .vec h r l => vkey h r l * 8
  | .uni h n => ukey h n * 8 + 1
  | .pred t n => (tidCode t * 8 + n) * 8 + 2
  | .xreg t j => (tidCode t * 4 + j) * 8 + 3
  | .fpflags t => tidCode t * 8 + 4
  | .nowhere => 5

/-- One number for a read of a place by a lane: lanes that read one uniform register early need not agree (R91). -/
def readKey (p : RegPlace) (lane : Nat) : Nat := placeKey p * 128 + lane

/-- A read before its producers' latencies have passed (R91): for each write not landed, oldest first, the reader obtains
the value before it or goes on to the later ones; the reads of a cell by one lane (`k`) in one step always obtain the same value.
The landing's place in the list (`n`) tells the choices apart. [DESIGN CHOICE: log 13] -/
def earlyValue (tick now : Nat) (p : RegPlace) (k : Nat) (v : Word) : Nat → List Landing → Word
  | _, [] => v
  | n, l :: ls =>
    if l.place = p ∧ now < l.due ∧ Config.earlyRead tick k n = false then l.old
    else earlyValue tick now p k v (n + 1) ls

/-- The registers, by lane, that an engine's operation writes at completion. -/
def EngineKind.results : EngineKind → List (Option Nat)
  | .accdr _ _ _ _ _ _ _ regs _ _ => regs
  | .rowmax _ _ _ _ _ regs => regs
  | .rowexp _ _ _ _ _ regs => regs
  | .rowsc _ _ _ _ _ regs => regs
  | _ => []

/-- Does an access write the place at completion: a run of registers by STATLD, a uniform by RDLANE, a predicate by OPTAW or
LSCALE? -/
def State.accessOwes (s : State) (p : RegPlace) (a : Access) : Bool :=
  match p with
  | .vec h r l => a.opc == 0xE2 && a.tid.lane == l && decide (a.reg ≤ r) && decide (r < a.reg + 4) && ((s.thread? a.tid).map (·.home)) == some h
  | .uni h n => a.opc == 0x76 && a.args == [1] && decide (a.reg ≤ n) && decide (n < a.reg + a.bytes / 4) && ((s.thread? a.tid).map (·.home)) == some h
  | .pred t n => (a.opc == 0xE0 || a.opc == 0xE3) && a.tid == t && a.reg == n
  | _ => false

/-- Does an operation of the core still owe the place a result that it writes at completion (R146, R211)? [DESIGN CHOICE: log 14] -/
def State.owesResult (s : State) (core : Nat) (p : RegPlace) : Bool :=
  let k := s.core core
  (match p with
    | .vec h r l => (k.engine ++ k.drains).any fun o => o.kind.results.getD l none == some r && ((s.group? o.block o.group).map (·.home)) == some h
    | _ => false)
  || k.accs.any (s.accessOwes p) || k.waits.any (fun e => s.accessOwes p e.acc) || k.retries.any fun e => s.accessOwes p e.acc

/-- Does a span of a tensor in registers, given by its descriptor's bytes, hold the register (R326)? -/
def State.spanHasReg (s : State) (b : BlockKey) (d : List Byte) (h r l : Nat) : Bool :=
  let base := field d 0x30 1
  field d 2 1 == 0 && decide (base ≤ r) && decide (r < base + 2 ^ field d 0x25 1) && decide (l < 2 ^ field d 0x26 1)
    && s.groups.any fun g => g.block == b && g.home == h && decide (g.index < 2 ^ field d 0x27 1)

/-- Does a PLACE move a tensor in whose span the place is a register (R230)? [DESIGN CHOICE: log 15] -/
def State.movesReg (s : State) (p : RegPlace) (o : PlaceOp) : Bool :=
  match p with
  | .vec h r l => s.spanHasReg o.block o.dS h r l || s.spanHasReg o.block o.dD h r l
  | _ => false

/-- Is the place a register in the span of a tensor that a PLACE is moving (R230)? [DESIGN CHOICE: log 15] -/
def State.placeHolds (s : State) (p : RegPlace) : Bool := s.places.any (s.movesReg p)

/-- Reads a place on a core at issue, for a lane. A read before a result that comes at completion obtains the old value or the new one,
not known yet (R211), and a raw read of the span of a PLACE a free value (R230). [DESIGN CHOICE: log 13, 14, 15] -/
def State.readCell (s : State) (core : Nat) (p : RegPlace) (lane : Nat) : Word :=
  if s.placeHolds p || (s.owesResult core p && Config.earlyRead s.tick (readKey p lane) (s.core core).landings.length) then
    Config.freeWord s.tick (readKey p lane)
  else earlyValue s.tick (s.core core).clock p (readKey p lane) (s.cell p) 0 (s.core core).landings

/-- Vector register `r` of a thread. -/
def State.vreg (s : State) (th : Thread) (r : Nat) : Word := s.readCell th.core (.vec th.home r th.tid.lane) th.tid.lane
/-- Uniform register `n` of a thread's home group. -/
def State.ureg (s : State) (th : Thread) (n : Nat) : Word := s.readCell th.core (.uni th.home n) th.tid.lane
/-- Predicate `n` of a thread; 7 is pT (R46). -/
def State.pred (s : State) (th : Thread) (n : Nat) : Bool :=
  if n = 7 then true else decide (s.readCell th.core (.pred th.tid n) th.tid.lane ≠ 0)
/-- Index register `j` of a thread. -/
def State.xreg (s : State) (th : Thread) (j : Nat) : Word := s.readCell th.core (.xreg th.tid j) th.tid.lane

/-! ### Full and empty (R51 to R53) -/

/-- Is vector register `r` of the lane empty? -/
def State.emptyReg (s : State) (home r lane : Nat) : Bool := decide (sget s.fills (vkey home r lane) ≠ 0)
/-- Marks a register empty until operation `id` fills it; an earlier pending fill is void. -/
def State.markEmpty (s : State) (home r lane id : Nat) : State :=
  { s with fills := sput s.fills (vkey home r lane) (BitVec.ofNat 64 id) }
/-- Makes a register full; its pending fill is void. -/
def State.markFull (s : State) (home r lane : Nat) : State :=
  { s with fills := sput s.fills (vkey home r lane) 0 }

/-- Marks a run of `n` registers empty. -/
def State.markEmptyRun (s : State) (home r lane id : Nat) : Nat → State
  | 0 => s
  | n + 1 => (s.markEmptyRun home r lane id n).markEmpty home (r + n) lane id

/-- The writes in flight with a value that has come to a place before they land: the first of them finds that value there. -/
def underLandings (now : Nat) (p : RegPlace) (v : Word) : List Landing → List Landing
  | [] => []
  | l :: ls => if l.place = p ∧ now < l.due then { l with old := v } :: ls else l :: underLandings now p v ls

/-- Is a fixed-latency write to the place in flight (R53)? [DESIGN CHOICE: log 21] -/
def State.writeInFlight (s : State) (core : Nat) (p : RegPlace) : Bool :=
  (s.core core).landings.any fun l => decide (l.place = p) && decide ((s.core core).clock < l.due)

/-- A value that comes to a place when its operation completes: it stands there until the fixed-latency writes in flight land (R53).
[DESIGN CHOICE: log 21] -/
def State.comeTo (s : State) (core : Nat) (p : RegPlace) (v : Word) : State :=
  if s.writeInFlight core p then s.modCore core fun c => { c with landings := underLandings c.clock p v c.landings } else s.setCell p v

/-- Notes a write of a place that an operation still owes its result (R211). [DESIGN CHOICE: log 14] -/
def State.noteEarly (s : State) (core : Nat) (p : RegPlace) : State :=
  if s.owesResult core p then s.modCore core fun c => { c with early := p :: c.early.filter (s.owesResult core) } else s

/-- Does the operation name the place as a uniform operand (R372), or read it in its run of registers (R220)? [DESIGN CHOICE: log 20, 59] -/
def State.opNames (s : State) (p : RegPlace) (o : EngineOp) : Bool :=
  match p with
  | .uni h n => o.unis.contains n && ((s.group? o.block o.group).map (·.home)) == some h
  | .vec h r _ => decide (o.run.1 ≤ r) && decide (r < o.run.2) && ((s.group? o.block o.group).map (·.home)) == some h
  | _ => false

/-- An operation one of whose register operands has been written: its results are free values. A drain to memory gives out again the rows
that it has given out already, so that all its destination bytes are free (R372). [DESIGN CHOICE: log 59] -/
def EngineOp.race (o : EngineOp) : EngineOp :=
  { o with
    raced := true
    kind := match o.kind with
      | .accdr x a fmt mode pk auto scales regs (.fifo k) i => .accdr x a fmt mode pk auto scales regs (.fifo k) i
      | .accdr x a fmt mode pk auto scales regs dst _ => .accdr x a fmt mode pk auto scales regs dst 0
      | k => k }

/-- Notes a write of a register that an MMA, WLOAD, ACCLD or ACCDR whose flag is set names or reads: a drain that has given out its rows
comes back to the engine (R220, R372). [DESIGN CHOICE: log 20, 59] -/
def State.raceOps (s : State) (core : Nat) (p : RegPlace) : State :=
  if ((s.core core).engine ++ (s.core core).drains).any (s.opNames p) then
    s.modCore core fun c =>
      { c with
        engine := (c.drains.filter (s.opNames p)).map EngineOp.race ++ c.engine.map fun o => if s.opNames p o then o.race else o
        drains := c.drains.filter fun o => !s.opNames p o }
  else s

/-- Notes a raw write of a register in the span of a tensor that a PLACE is moving (R230). [DESIGN CHOICE: log 15] -/
def State.noteRaw (s : State) (p : RegPlace) : State :=
  if s.placeHolds p then { s with places := s.places.map fun o => if s.movesReg p o then { o with dirty := true } else o } else s

/-- A place that is a vector register becomes full; a pending fill of it is void (R51, R53). -/
def State.fullAt (s : State) (p : RegPlace) : State :=
  match p with
  | .vec h r l => s.markFull h r l
  | _ => s

/-- A result that comes at completion: it leaves the register full (R51). A place that was written early keeps what it holds or takes the
result (R211). [DESIGN CHOICE: log 14] -/
def State.putResult (s : State) (core : Nat) (p : RegPlace) (v : Word) : State :=
  let s := ((s.fullAt p).noteRaw p).raceOps core p
  if (s.core core).early.contains p then
    let s := s.modCore core fun c => { c with early := c.early.filter fun q => q != p }
    if Config.earlyRead s.tick (placeKey p) 0 then s.comeTo core p v else s
  else s.comeTo core p v

/-- The value of operation `id` arrives at a register: written when the register still awaits it, discarded when the
fill is void (R53). A fixed-latency write issued before the producer and still in flight lands after it. [DESIGN CHOICE: log 21] -/
def State.fillReg (s : State) (home r lane id : Nat) (v : Word) : State :=
  if sget s.fills (vkey home r lane) = BitVec.ofNat 64 id then
    let p : RegPlace := .vec home r lane
    ((((s.markFull home r lane).noteEarly (coreOf home) p).noteRaw p).raceOps (coreOf home) p).comeTo (coreOf home) p v
  else s

/-- Values arrive at a run of registers. -/
def State.fillRun (s : State) (home r lane id : Nat) : List Word → State
  | [] => s
  | v :: vs => (s.fillReg home r lane id v).fillRun home (r + 1) lane id vs

/-! ### Fixed-latency writes (R90, R118) -/

/-- Is a write of the place in flight that lands after a cycle? -/
def landsLater (p : RegPlace) (due : Nat) (ls : List Landing) : Bool := ls.any fun l => decide (l.place = p) && decide (due < l.due)

/-- The writes in flight with one more, of value `v`. The writes of one place stand in the order in which they land (R118), and each
finds the value of the one before it. -/
def addLanding (l : Landing) (v : Word) : List Landing → List Landing
  | [] => [l]
  | m :: ms => if m.place = l.place ∧ l.due < m.due then { l with old := m.old } :: { m with old := v } :: ms else m :: addLanding l v ms

/-- What the place holds once a write of `v` that lands at `due` and those already in flight have landed: of FPFLAGS, with the bits that
operations set after it (R28). -/
def State.lastValue (s : State) (core : Nat) (p : RegPlace) (v : Word) (due : Nat) : Word :=
  match p with
  | .fpflags _ => (s.core core).landings.foldl (fun w l => if l.place = p ∧ due < l.due then w ||| l.sets else w) v
  | _ => if landsLater p due (s.core core).landings then s.cell p else v

/-- Writes a place at a fixed latency: among the writes of it in flight the one that lands last stays (R118), and a landing keeps what the
place held before until `due`. A pending fill of a vector register is void (R53). [DESIGN CHOICE: log 13] -/
def State.writeFixed (s : State) (core : Nat) (t : Tid) (p : RegPlace) (v : Word) (due : Nat) : State :=
  let u := (((s.fullAt p).noteEarly core p).noteRaw p).raceOps core p
  (u.setCell p (s.lastValue core p v due)).modCore core fun c => { c with landings := addLanding ⟨due, p, s.cell p, t, none, 0⟩ v c.landings }

/-- Sets bits of a thread's FPFLAGS at a fixed latency (R28). -/
def State.setFlags (s : State) (core : Nat) (t : Tid) (bits : Word) (due : Nat) : State :=
  let p : RegPlace := .fpflags t
  (s.setCell p (s.cell p ||| bits)).modCore core fun c => { c with landings := c.landings ++ [⟨due, p, s.cell p, t, none, bits⟩] }

/-- A completion flag that clears at `due` (R54). -/
def State.flagAt (s : State) (core : Nat) (t : Tid) (f : Option Nat) (due : Nat) : State :=
  match f with
  | some _ => s.modCore core fun c => { c with landings := c.landings ++ [⟨due, .nowhere, 0, t, f, 0⟩] }
  | none => s

/-- A landing that lands: its flag completes. -/
def State.land (s : State) (l : Landing) : State := s.complete [l.owner] l.flag

/-- Is a result of the core due that has not landed? -/
def State.owesLanding (s : State) (core : Nat) : Bool := (s.core core).landings.any fun l => decide (l.due ≤ (s.core core).clock)

/-- Lands the `i`-th result of a core once its latency has passed, and releases the write windows that are over (R72, R90). -/
def State.landOne (s : State) (core i : Nat) : State :=
  match (s.core core).landings[i]? with
  | none => s
  | some l =>
    let now := (s.core core).clock
    if now < l.due then s
    else
      let s := (s.modCore core fun c => { c with landings := eraseAt c.landings i }).land l
      let release : Group → Group := fun g =>
        if coreOf g.home = core then { g with windows := g.windows.filter fun w => decide (now < w.due) } else g
      { s with groups := s.groups.map release }

/-! ### Tiles (R48, R232, R332) -/

/-- What byte `i` of a tile holds once `b` is written to it: the reserved bits of the cursor read as 0 (R3, R332). -/
def tileByte (i : Nat) (b : Byte) : Byte :=
  if i = 0x50 then b &&& 0x03 else if i = 0x52 then b &&& 0xFE else if i = 0x53 ∨ (0x58 ≤ i ∧ i < 0x60) then 0 else b

/-- The tile's bytes. -/
def State.tile (s : State) (home t : Nat) : List Byte := sgetN s.tiles (tkey home t 0) 128
def State.putTile (s : State) (home t i : Nat) (bs : List Byte) : State :=
  { s with tiles := sputL s.tiles (tkey home t i) ((bs.zipIdx i).map fun p => tileByte p.2 p.1) }

/-- The cursor (R332). -/
def PlaceOp.cursor (o : PlaceOp) (state : Nat) : List Byte :=
  toLE 16 (o.step * 2 ^ 32 + (o.flag.getD 15) * 2 ^ 20 + o.group * 2 ^ 17 + o.pass * 2 ^ 8 + state)

/-- Writes a cursor into the tile of a PLACE's destination. -/
def State.putCursor (s : State) (o : PlaceOp) (bs : List Byte) : State :=
  match s.group? o.block o.group with
  | some g => s.putTile g.home o.tD 0x50 bs
  | none => s

/-- The PLACEs that are not parked and that `pick` picks go on, or stop: their cursors say so (R332). -/
def State.markPlaces (s : State) (pick : PlaceOp → Bool) (state : Nat) : State :=
  (s.places.filter fun o => pick o && o.park.isNone).foldl (fun t o => t.putCursor o (o.cursor state)) s

end Sys2Proof.Machine
end

