-- ==== Sys2Proof/Machine/Spans.lean ====
section
/-! DEFINITION. Local operand pairs (R210), and the bytes of memory that an operation of the matrix engine reads (R220). -/

namespace Sys2Proof.Machine

/-! ### Local operand pairs (R210) -/

/-- A local operand pair (R210). -/
structure Pair where
  base   : Nat
  rpitch : Nat
  spitch : Nat
  rot    : Nat
  pk     : Bool
  deriving DecidableEq, Repr

/-- The fields of a pair; none when a reserved bit is 1. -/
def pairOf (v : Nat) : Option Pair :=
  let hi := v / 2 ^ 32
  if 2 ^ 25 ≤ hi then none
  else some ⟨v % 2 ^ 23, bits v 31 23, bits hi 19 0, bits hi 23 20, hi.testBit 24⟩

/-- Cluster-space address of row `i` of slice `sl`. -/
def Pair.row (p : Pair) (sl i : Nat) : Nat := p.base + 16 * (sl * p.spitch + i * p.rpitch)
/-- The pair moved by a number of bytes. -/
def Pair.at_ (p : Pair) (n : Nat) : Pair := { p with base := p.base + n }
/-- Address of beat `c` of an unpacked row of `b` bytes. -/
def Pair.beat (p : Pair) (sl i b c : Nat) : Nat := p.row sl i + 16 * (c ^^^ ((i % 16) &&& p.rot &&& (b / 16 - 1)))

/-! ### Formats (R35, R39) -/

/-- Bytes of an element of an activation format and of a weight format. -/
def actSize (fmt : Nat) : Nat := if fmt = 2 then 2 else 1
def wtSize (fmt : Nat) : Nat := if fmt = 3 then 2 else 1

/-- Bytes that a chunk of 64 elements takes at most (R39). -/
def chunkMost (size : Nat) : Nat := 16 + 64 * size

/-! ### Operand bytes of an engine's operation (R220) -/

/-- Have two byte ranges, each given by its first byte and its length, a byte in common? -/
def rangesMeet (a n b m : Nat) : Bool := decide (a < b + m) && decide (b < a + n)

/-- Do `n` bytes at `a` meet the rows of slices 0 to `k` − 1 of a pair, `b` bytes in each of 128 rows? -/
def Pair.meets (p : Pair) (k b a n : Nat) : Bool :=
  (List.range k).any fun sl => (List.range 128).any fun i => rangesMeet (p.row sl i) b a n

/-- The pair of a span. -/
def Span.pair? : Span → Option Pair
  | .pair lo hi => pairOf (lo.toNat + 2 ^ 32 * hi.toNat)
  | _ => none

/-- Bytes that `k` chunks from `a` on take; `mask` reads the mask of the chunk at a place (R39). -/
def chunksSpan (mask : Nat → Nat) (size : Nat) : Nat → Nat → Nat
  | 0, _ => 0
  | k + 1, a => chunkLen size (mask a) + chunksSpan mask size k (a + chunkLen size (mask a))

/-- Do `n` bytes at `a` meet `k` chunks that begin at `b`? -/
def chunksMeet (mask : Nat → Nat) (size k b a n : Nat) : Bool :=
  rangesMeet b (k * chunkMost size) a n && rangesMeet b (chunksSpan mask size k b) a n

/-- Do `n` bytes at `a` meet the 128 packed rows of slices 0 to `k` − 1 of a pair, 2 chunks in each? -/
def Pair.meetsChunks (mask : Nat → Nat) (p : Pair) (k size a n : Nat) : Bool :=
  (List.range k).any fun sl => (List.range 128).any fun i => chunksMeet mask size 2 (p.row sl i) a n

/-- Do `n` bytes at `a` meet a weight image of `k` slices in local memory? -/
def Pair.meetsWeights (mask : Nat → Nat) (p : Pair) (k size a n : Nat) : Bool :=
  rangesMeet p.base 1024 a n || (if p.pk then chunksMeet mask size (k * 512) (p.base + 1024) a n else (p.at_ 1024).meets k (256 * size) a n)

/-- Do `n` bytes of cluster space at `a` meet what an operation reads there (R220)? `mask` reads a chunk's mask. [DESIGN CHOICE: log 20] -/
def EngineOp.readsLocal (mask : Nat → Nat) (o : EngineOp) (a n : Nat) : Bool :=
  match o.kind with
  | .wload fmt _ lo hi => ((Span.pair lo hi).pair?.map fun p => p.meetsWeights mask 1 (wtSize fmt) a n).getD false
  | .mma _ aFmt wFmt k _ x w =>
    (x.pair?.map fun p => if p.pk then p.meetsChunks mask k (actSize aFmt) a n else p.meets k (128 * actSize aFmt) a n).getD false
      || (w.pair?.map fun p => p.meetsWeights mask k (wtSize wFmt) a n).getD false
  | .accld _ src => (src.pair?.map fun p => p.meets 1 1024 a n).getD false
  | _ => false

/-- The bytes of device memory that an operation reads (R220): object, first offset, and one past the last; `mask` reads a chunk's mask.
[DESIGN CHOICE: log 20] -/
def EngineOp.readsObject (mask : Nat → Nat) (o : EngineOp) : Option (Nat × Nat × Nat) :=
  match o.kind with
  | .mma _ _ wFmt k pk _ (.view obj off _ high) =>
    some (obj, off, if pk then min high (off + 1024 + chunksSpan mask (wtSize wFmt) (k * 512) (off + 1024)) else off + 1024 + 32768 * wtSize wFmt * k)
  | .accld _ (.view obj off _ _) => some (obj, off, off + 131072)
  | _ => none

end Sys2Proof.Machine
end

