-- ==== Sys2Proof/Machine/Memory.lean ====
section
/-! DEFINITION. Physical memory (R9 to R13), the object table, page tables and translation (R339 to R344), and the
records of a context (R244). -/

namespace Sys2Proof.Machine

/-- Where a byte lies. -/
inductive PAddr where
  | vault (q a : Nat)
  | pool (a : Nat)
  | cluster (c a : Nat)
  deriving DecidableEq, Repr

/-- Bytes of one quarter's Vault (R10). -/
def vaultBytes : Nat := 0xC0000000
/-- Bytes of a cluster space (R9). -/
def clusterBytes : Nat := 0x800000

def PAddr.shift (p : PAddr) (n : Nat) : PAddr :=
  match p with
  | .vault q a => .vault q (a + n)
  | .pool a => .pool (a + n)
  | .cluster c a => .cluster c (a + n)

/-- Do `n` bytes from here exist? [DESIGN CHOICE: log 11] -/
def PAddr.exists_ (p : PAddr) (n : Nat) : Bool :=
  match p with
  | .vault q a => decide (q < 4) && decide (a + n ≤ vaultBytes)
  | .pool _ => true
  | .cluster c a => decide (c < 48) && decide (a + n ≤ clusterBytes)

/-- Key of a byte in its store. -/
def PAddr.key (p : PAddr) : Nat :=
  match p with
  | .vault q a => q * vaultBytes + a
  | .pool a => a
  | .cluster c a => c * clusterBytes + a

/-- The store of an address. -/
def State.mem (s : State) (p : PAddr) : Sparse 8 :=
  match p with
  | .vault .. => s.vault
  | .pool _ => s.pool
  | .cluster .. => s.locals

def State.setMem (s : State) (p : PAddr) (m : Sparse 8) : State :=
  match p with
  | .vault .. => { s with vault := m }
  | .pool _ => { s with pool := m }
  | .cluster .. => { s with locals := m }

/-- Poisoned words of the store of an address, by key / 4. -/
def State.poison (s : State) (p : PAddr) : List Nat :=
  match p with
  | .vault .. => s.poisonVault
  | .pool _ => s.poisonPool
  | .cluster .. => s.poisonLocal

def State.setPoison (s : State) (p : PAddr) (l : List Nat) : State :=
  match p with
  | .vault .. => { s with poisonVault := l }
  | .pool _ => { s with poisonPool := l }
  | .cluster .. => { s with poisonLocal := l }

/-- One byte. [DESIGN CHOICE: log 4, 5, 6] -/
def State.byte (s : State) (p : PAddr) : Byte := sget (s.mem p) p.key
/-- `n` bytes. -/
def State.bytes (s : State) (p : PAddr) (n : Nat) : List Byte := sgetN (s.mem p) p.key n
/-- `n` bytes as a little-endian value. -/
def State.val (s : State) (p : PAddr) (n : Nat) : Nat := ofLE (s.bytes p n)

/-- Is some word of the range poisoned? -/
def State.poisoned (s : State) (p : PAddr) (n : Nat) : Bool :=
  (s.poison p).any fun w => decide (p.key < 4 * w + 4) && decide (4 * w < p.key + n)

/-! ### Local memory (R9, R178) -/

/-- A cluster-space byte as seen from a core. [DESIGN CHOICE: log 5] -/
def localAt (core a : Nat) : PAddr := .cluster (clusterOf core) a

/-- Bytes of a block's local memory: whole 4 KiB granules (R178). -/
def Block.localSize (b : Block) : Nat := (b.localBytes + 4095) / 4096 * 4096
/-- Lies the range in the block's own local memory? -/
def Block.ownsLocal (b : Block) (a n : Nat) : Bool := decide (b.localBase ≤ a) && decide (a + n ≤ b.localBase + b.localSize)
/-- Resident blocks of a block's gang. -/
def State.gangOf (s : State) (b : Block) : List Block :=
  s.blocks.filter fun x => decide (x.key.launch = b.key.launch) && decide (x.gang = b.gang)
    && decide (clusterOf x.core = clusterOf b.core) && (decide (x.key = b.key) || (x.spawned.isNone && b.spawned.isNone))
/-- Lies every byte from `a` to below `e` in some of these ranges? With the number of ranges as fuel. -/
def coveredBy (rs : List (Nat × Nat)) : Nat → Nat → Nat → Bool
  | 0, a, e => decide (e ≤ a)
  | fuel + 1, a, e => decide (e ≤ a) || (match rs.find? fun r => decide (r.1 ≤ a) && decide (a < r.2) with
      | some r => coveredBy rs fuel r.2 e
      | none => false)
/-- Lies every byte of the range in the local memory of the block's gang? -/
def State.gangLocal (s : State) (b : Block) (a n : Nat) : Bool :=
  let rs := (s.gangOf b).map fun x => (x.localBase, x.localBase + x.localSize)
  coveredBy rs rs.length a (a + n)

/-! ### Object table (R340) -/

structure ObjEntry where
  valid : Bool
  held  : Bool
  home  : Nat
  quarter : Nat
  packed : Bool
  conf  : Bool
  hostShared : Bool
  mcast : Bool
  granule : Nat
  group : Nat
  peer  : Nat
  root  : Nat
  size  : Nat
  flags : Nat
  deriving DecidableEq, Repr

/-- The object table entry of an object of a context; none beyond the table or when not VALID. [DESIGN CHOICE: log 56] -/
def State.object? (s : State) (c : Ctx) (obj : Nat) : Option ObjEntry :=
  if obj < c.objEntries then
    let bs := s.bytes (.vault c.quarter (c.objTable + 32 * obj)) 32
    let f := field bs 0 4
    if f % 2 = 1 then
      some ⟨true, f.testBit 1, bits f 3 2, bits f 5 4, f.testBit 6, f.testBit 7, f.testBit 8, f.testBit 9, bits f 13 10,
        field bs 4 2 % 4096, field bs 6 2 % 512, field bs 8 8, field bs 16 8, f⟩
    else none
  else none

/-- Bytes of a page of a size code (R341). -/
def pageSize (z : Nat) : Nat := 4096 * 4 ^ z

/-! ### Page tables (R341, R342) -/

/-- A page table entry. -/
abbrev Pte := BitVec 128
def Pte.state (e : Pte) : Nat := (e.extractLsb' 0 3).toNat
def Pte.size (e : Pte) : Nat := (e.extractLsb' 3 4).toNat
def Pte.expanded (e : Pte) : Bool := BitVec.getLsbD e 8
def Pte.dirty (e : Pte) : Bool := BitVec.getLsbD e 9
def Pte.frame (e : Pte) : Nat := (e.extractLsb' 12 40).toNat * 4096
def Pte.backing (e : Pte) : Nat := (e.extractLsb' 64 64).toNat
/-- An entry as it reads: its reserved bits [63:52], [11:10] and [7] read as 0 (R3, R342). -/
def Pte.read (v : Nat) : Pte := BitVec.ofNat 128 v &&& ~~~(0xFFF0000000000C80#128)
/-- The entry with STATE, FRAME, DIRTY and EXPANDED set. -/
def Pte.set (e : Pte) (state frame : Nat) (dirty expanded : Bool) : Pte :=
  BitVec.ofNat 128 (e.backing * 2 ^ 64 + (frame / 4096) % 2 ^ 40 * 4096 + (if dirty then 512 else 0)
    + (if expanded then 256 else 0) + e.size * 8 + state)

/-- A leaf: its copies in the table, its page and its entry. -/
structure Leaf where
  quarter : Nat
  addr    : Nat
  copies  : Nat
  base    : Nat
  size    : Nat
  entry   : Pte
  deriving DecidableEq, Repr

/-- How a walk ends. -/
inductive Walk where
  | leaf (l : Leaf)
  | unmapped
  | bad
  deriving DecidableEq, Repr

/-- The sizes that are leaves at the level of a shift. -/
def leafSizes (shift : Nat) : Nat × Nat :=
  if shift = 12 then (0, 2) else if shift = 18 then (3, 6) else if shift = 26 then (7, 10) else (11, 11)

/-- A walk from one table down the levels given as (shift, index bits). A poisoned entry is an uncorrectable error in the context's
tables (R246). -/
def State.walkFrom (s : State) (q granule off : Nat) : Nat → List (Nat × Nat) → Walk
  | _, [] => .bad
  | table, (shift, ib) :: rest =>
    let idx := off / 2 ^ shift % 2 ^ ib
    let e : Pte := .read (s.val (.vault q (table + 16 * idx)) 16)
    if s.poisoned (.vault q (table + 16 * idx)) 16 then .bad
    else if e = 0 then .unmapped
    else if e.state = 7 then .bad
    else if e.state = 6 then s.walkFrom q granule off e.frame rest
    else
      let z := e.size
      let r := leafSizes shift
      if z < r.1 ∨ r.2 < z ∨ z < granule then .bad
      else
        let n := pageSize z / 2 ^ shift
        let first := idx / n * n
        if (List.range n).all fun i => Pte.read (s.val (.vault q (table + 16 * (first + i))) 16) == e then
          .leaf ⟨q, table + 16 * first, n, off / pageSize z * pageSize z, pageSize z, e⟩
        else .bad

/-- The walk of an object's page table (R341). [DESIGN CHOICE: log 56] -/
def State.walk (s : State) (o : ObjEntry) (off : Nat) : Walk :=
  s.walkFrom o.quarter o.granule off o.root [(34, 6), (26, 8), (18, 8), (12, 6)]

/-! ### Writing -/

/-- The pages of an object from an offset on to below `hi`, with the number of 4 KiB pages as fuel: offset, size and place of each. -/
def State.pagesFrom (s : State) (o : ObjEntry) : Nat → Nat → Nat → List (Nat × Nat × PAddr)
  | 0, _, _ => []
  | fuel + 1, off, hi =>
    if hi ≤ off then []
    else match s.walk o off with
      | .leaf l =>
        let rest := s.pagesFrom o fuel (l.base + l.size) hi
        if l.entry.state = 2 then (l.base, l.size, if o.home = 1 then .pool l.entry.frame else .vault o.quarter l.entry.frame) :: rest else rest
      | _ => s.pagesFrom o fuel (off / 4096 * 4096 + 4096) hi

/-- Same store? -/
def PAddr.sameStore (p q : PAddr) : Bool :=
  match p, q with
  | .vault .., .vault .. => true
  | .pool _, .pool _ => true
  | .cluster .., .cluster .. => true
  | _, _ => false

/-- The words of a launch's code that `n` bytes from a place overlap: offset from the entry point, and the word. [DESIGN CHOICE: log 55] -/
def State.codeHits (s : State) (l : Launch) (p : PAddr) (n : Nat) : List (Nat × Word) :=
  match (s.ctxs.find? fun c => decide (c.num = l.ctx)).bind fun c => s.object? c l.obj with
  | none => []
  | some o =>
    let lo := l.base + 64
    (s.pagesFrom o (l.header.codeSize / 4096 + 2) lo (lo + l.header.codeSize)).flatMap fun (base, size, q) =>
      if p.sameStore q then
        ((List.range ((n + 7) / 4)).map fun i => p.key / 4 * 4 + 4 * i).filterMap fun k =>
          let off := base + (k - q.key)
          if q.key ≤ k ∧ k < q.key + size ∧ k < p.key + n ∧ lo ≤ off ∧ off < lo + l.header.codeSize then
            some (off - lo, BitVec.ofNat 32 (ofLE (sgetN (s.mem p) k 4)))
          else none
      else []

/-- Is a view of an object LIVE, by the view table? -/
def State.viewLives (s : State) (c : Ctx) (obj : Nat) : Bool :=
  let base := (PAddr.vault c.quarter c.viewTable).key
  s.vault.any fun e => decide (base ≤ e.1) && decide (e.1 < base + 32 * c.viewEntries) && (e.1 - base) % 32 == 7 && e.2 == 2
    && ofLE (sgetN s.vault (e.1 - 7) 4) % 2 ^ 24 == obj

/-- The object table entries that `n` bytes from a place overlap. -/
def State.entryHits (s : State) (p : PAddr) (n : Nat) : List (Ctx × Nat) :=
  match p with
  | .vault q a => s.ctxs.flatMap fun c =>
    let lo := max a c.objTable
    let hi := min (a + n) (c.objTable + 32 * c.objEntries)
    if c.quarter = q ∧ c.state ≠ .destroyed ∧ lo < hi then
      ((List.range ((hi - 1 - c.objTable) / 32 + 1 - (lo - c.objTable) / 32)).map fun i => (c, (lo - c.objTable) / 32 + i))
    else []
  | _ => []

/-- The view table entries that `n` bytes from a place overlap, with their bytes before the write: context, index, bytes (R315).
[DESIGN CHOICE: log 84] -/
def State.viewHits (s : State) (p : PAddr) (n : Nat) : List (Nat × Nat × List Byte) :=
  match p with
  | .vault q a => s.ctxs.flatMap fun c =>
    let lo := max a c.viewTable
    let hi := min (a + n) (c.viewTable + 32 * c.viewEntries)
    if c.quarter = q ∧ c.state ≠ .destroyed ∧ lo < hi then
      ((List.range ((hi - 1 - c.viewTable) / 32 + 1 - (lo - c.viewTable) / 32)).map fun i =>
        (c.num, (lo - c.viewTable) / 32 + i, s.bytes (.vault q (c.viewTable + 32 * ((lo - c.viewTable) / 32 + i))) 32))
    else []
  | _ => []

/-- The mask of the chunk at a place of an object, as it stands there; all ones, the longest chunk, where its page is not in this device. [DESIGN CHOICE: log 20] -/
def State.maskAt (s : State) (e : ObjEntry) (off : Nat) : Nat :=
  match (s.pagesFrom e 2 off (off + 8)).find? fun g => decide (g.1 ≤ off) && decide (off + 8 ≤ g.1 + g.2.1) with
  | some (base, _, q) => s.val (q.shift (off - base)) 8
  | none => 2 ^ 64 - 1

/-- Is `n` bytes at a place what an operation of a core's engine reads (R220)? What packed chunks take is exact. [DESIGN CHOICE: log 20] -/
def State.opReads (s : State) (core : Nat) (p : PAddr) (n : Nat) (o : EngineOp) : Bool :=
  match p with
  | .cluster c a => c == clusterOf core && o.readsLocal (fun x => s.val (localAt core x) 8) a n
  | _ =>
    let hits : ObjEntry → Nat × Nat × Nat → Bool := fun e (_, lo, hi) =>
      (s.pagesFrom e ((hi - lo) / 4096 + 2) lo hi).any fun (base, size, q) =>
        let x := max lo base
        p.sameStore q && rangesMeet (q.key + (x - base)) (min hi (base + size) - x) p.key n
    match o.readsObject (fun _ => 2 ^ 64 - 1), s.ctxs.find? fun c => decide (c.num = o.ctx) with
    | some most, some c => match s.object? c most.1 with
      | some e => hits e most && ((o.readsObject (s.maskAt e)).map (hits e)).getD false
      | none => false
    | _, _ => false

/-- The engines' operations, saved ones too, that read some of `n` bytes at a place (R220). [DESIGN CHOICE: log 20] -/
def State.readHits (s : State) (p : PAddr) (n : Nat) : List Nat :=
  (s.cores.zipIdx.flatMap fun k => (k.1.engine.filter (s.opReads k.2 p n)).map (·.id))
    ++ s.kept.flatMap fun k => match p with
      | .cluster .. => []
      | _ => (k.engine.filter (s.opReads k.core p n)).map (·.id)

/-- What a write of `n` bytes leaves open: code of a launch with a resident block (R82), object table entries (R340), view table
entries (R315), and operands of the matrix engine (R220). [DESIGN CHOICE: log 20, 55, 56, 84] -/
def State.noteWrite (s : State) (p : PAddr) (n : Nat) : State :=
  let running := s.launches.filter fun l => s.blocks.any fun b => decide (b.key.launch = l.num)
  let code := running.flatMap fun l => (s.codeHits l p n).map fun w => (l.num, w.1, w.2)
  let entries := s.entryHits p n
  { s with
    oldCode := (code.filter fun w => !s.oldCode.contains w) ++ s.oldCode
    torn := (entries.filter fun e => s.viewLives e.1 e.2).map (fun e => (e.1.num, e.2))
      ++ s.torn.filter fun t => !(entries.any fun e => e.1.num == t.1 && e.2 == t.2)
    oldViews := s.viewHits p n ++ s.oldViews
    racedOps := (s.readHits p n).filter (fun i => !s.racedOps.contains i) ++ s.racedOps }

/-- Writes bytes. A word all of whose bytes are written loses its poison (R188). A byte that does not exist breaks the
step. [DESIGN CHOICE: log 11] -/
def State.write (s : State) (p : PAddr) (bs : List Byte) : State :=
  if p.exists_ bs.length then
    let s := s.noteWrite p bs.length
    let s := s.setMem p (sputL (s.mem p) p.key bs)
    s.setPoison p ((s.poison p).filter fun w => !(decide (p.key ≤ 4 * w) && decide (4 * w + 4 ≤ p.key + bs.length)))
  else match p with
    | .vault q a => s.break (.vaultRange q a)
    | _ => s

/-- Writes a value of `n` bytes. -/
def State.writeVal (s : State) (p : PAddr) (n v : Nat) : State := s.write p (toLE n v)

/-- A read that meets a byte the machine does not have breaks the step. [DESIGN CHOICE: log 11] -/
def State.touch (s : State) (p : PAddr) (n : Nat) : State :=
  if p.exists_ n then s else match p with
    | .vault q a => s.break (.vaultRange q a)
    | _ => s

/-- Marks the words of a range poisoned (R189). -/
def State.addPoison (s : State) (p : PAddr) (n : Nat) : State :=
  s.setPoison p (dedup (((List.range ((p.key + n + 3) / 4 - p.key / 4)).map (· + p.key / 4)) ++ s.poison p))

/-- Copies a run of bytes between stores, poison left out. -/
def State.copyRun (s : State) (src dst : PAddr) (n : Nat) : State :=
  if src.exists_ n && dst.exists_ n then
    s.setMem dst (scopy (s.mem src) src.key n (s.mem dst) dst.key)
  else (s.touch src n).touch dst n

/-- Zeroes a run of bytes and its poison. -/
def State.zeroRun (s : State) (p : PAddr) (n : Nat) : State :=
  if p.exists_ n then
    (s.setMem p (sclear (s.mem p) p.key n)).setPoison p
      ((s.poison p).filter fun w => !(decide (p.key ≤ 4 * w) && decide (4 * w + 4 ≤ p.key + n)))
  else s.touch p n

/-- Writes every copy of a leaf's entry. -/
def State.putPte (s : State) (l : Leaf) (e : Pte) : State :=
  (List.range l.copies).foldl (fun s i => s.writeVal (.vault l.quarter (l.addr + 16 * i)) 16 e.toNat) s

/-- The granule-sized page of an offset that has no mapping. -/
def ObjEntry.granuleBase (o : ObjEntry) (off : Nat) : Nat := off / pageSize o.granule * pageSize o.granule

/-- Base and size of the page that holds an offset (R174, R344). -/
def State.pageOf (s : State) (c : Ctx) (obj off : Nat) : Nat × Nat :=
  match s.object? c obj with
  | some o => match s.walk o off with
    | .leaf l => (l.base, l.size)
    | _ => (o.granuleBase off, pageSize o.granule)
  | none => (off / 4096 * 4096, 4096)

/-! ### Translation -/

/-- Has the pool granted the capacity of a range (R367)? -/
def State.poolGranted (s : State) (a n : Nat) : Bool :=
  decide (a + n ≤ 2 ^ 44) && s.poolGrants.any fun g => decide (g.1 ≤ a) && decide (a + n ≤ g.1 + g.2)
/-- Does the pool refuse a read of a range (R348)? -/
def State.poolRefuses (s : State) (a n : Nat) : Bool :=
  !s.poolGranted a n || s.poolRefusals.any fun g => decide (g.1 < a + n) && decide (a < g.1 + g.2)

/-- What an access of device memory meets. -/
inductive Xlat where
  /-- The byte's place, its leaf where the page lies in this device's tables. -/
  | at_ (p : PAddr) (l : Leaf)
  | peer (dev : Nat)
  /-- Not possible now: under a page (state code as WHY). -/
  | absent (base : Nat) (why : Nat)
  /-- Pool capacity not granted (WHY 9). -/
  | refused
  | poisoned (l : Leaf)
  /-- The tables are broken: reason INTERNAL (R341, R342). -/
  | bad
  deriving DecidableEq, Repr

/-- Translates an offset of an object of a context by its tables (R341, R344, R350). [DESIGN CHOICE: log 56] -/
def State.tableXlat (s : State) (c : Ctx) (obj off n : Nat) : Xlat :=
  if s.poisoned (.vault c.quarter (c.objTable + 32 * obj)) 32 && decide (obj < c.objEntries) then .bad
  else match s.object? c obj with
  | none => .absent (off / 4096 * 4096) 0
  | some o =>
    if o.home = 2 then .peer o.peer
    else match s.walk o off with
      | .bad => .bad
      | .unmapped => .absent (o.granuleBase off) 0
      | .leaf l =>
        if l.entry.state = 2 then
          let a := l.entry.frame + (off - l.base)
          if o.home = 1 then if s.poolGranted a n then .at_ (.pool a) l else .refused
          else .at_ (.vault o.quarter a) l
        else if l.entry.state = 4 then .poisoned l
        else .absent l.base l.entry.state

/-- Translates an offset of an object of a context. An object whose entry was written while a view of it was LIVE has free
translations within its context (R340). [DESIGN CHOICE: log 56] -/
def State.translate (s : State) (c : Ctx) (obj off n : Nat) : Xlat :=
  if s.torn.contains (c.num, obj) then
    s.tableXlat c (Config.choose s.tick (2 ^ 50 + off) % c.objEntries) (Config.choose s.tick (2 ^ 51 + off) % 2 ^ 40 / 16 * 16 + off % 16) n
  else s.tableXlat c obj off n

/-- Does an access to an object of a context have to wait, because its page lies, or its tables lie, in the Vault of a quarter that is gated
(R382, R383)? [DEDUCED: log 74] -/
def State.vaultOff (s : State) (c : Ctx) (obj : Nat) : Bool :=
  !s.gated.isEmpty && (s.gated.contains c.quarter || (s.object? c obj).any fun o => o.home == 0 && s.gated.contains o.quarter)

/-! ### Records (R244) -/

/-- The 32 bytes of a record. -/
def mkRecord (kind core group access : Nat) (token : Word) (obj off launch block thread detail : Nat) (pc : Word) : List Byte :=
  toLE 1 kind ++ toLE 1 core ++ toLE 1 group ++ toLE 1 access ++ toLE 4 token.toNat
    ++ toLE 8 (obj % 2 ^ 24 * 2 ^ 40 + off % 2 ^ 40) ++ toLE 4 launch ++ toLE 4 block ++ toLE 2 thread ++ toLE 2 detail
    ++ toLE 4 pc.toNat

/-- The tail of the fault queue (0) or of the error queue (1). -/
def Ctx.tail (c : Ctx) (e : Nat) : Nat := if e = 0 then c.faultTail else c.errorTail

/-- Is the fault queue or the error queue full? Its head is read from the control block (R242). -/
def State.queueFull (s : State) (c : Ctx) (e : Nat) : Bool :=
  decide ((c.tail e + 1) % c.queueEntries = s.val (.vault c.quarter (c.control + 0x38 + 2 * e)) 2)

/-- Writes a record at the tail and advances the tail. -/
def State.pushRecord (s : State) (c : Ctx) (e base : Nat) (r : List Byte) : State :=
  let tail := c.tail e
  let next := (tail + 1) % c.queueEntries
  ((s.write (.vault c.quarter (base + 32 * tail)) r).writeVal (.vault c.quarter (c.control + 0x3C + 2 * e)) 2 next).modCtx c.num fun c =>
    if e = 0 then { c with faultTail := next } else { c with errorTail := next }

/-- The records the memory port holds go to the fault queue while it has room. -/
def State.flushRecords (s : State) (ctx : Nat) : Nat → State
  | 0 => s
  | n + 1 => match s.ctx? ctx with
    | some c => match c.heldRecords with
      | r :: rs => if s.queueFull c 0 then s
        else State.flushRecords ((s.pushRecord c 0 c.faultBase r).modCtx ctx fun c => { c with heldRecords := rs }) ctx n
      | [] => s
    | none => s

/-- A record for the fault queue; none is lost. -/
def State.faultRecord (s : State) (ctx : Nat) (r : List Byte) : State :=
  match s.ctx? ctx with
  | some c => State.flushRecords (s.modCtx ctx fun c => { c with heldRecords := c.heldRecords ++ [r] }) ctx
      (c.heldRecords.length + 1)
  | none => s

/-- A record for the error queue; dropped and counted when it is full. -/
def State.errorRecord (s : State) (ctx : Nat) (r : List Byte) : State :=
  match s.ctx? ctx with
  | some c =>
    if s.queueFull c 1 then
      let n := min (c.lost + 1) 0xFFFFFFFF
      (s.writeVal (.vault c.quarter (c.control + 0x50)) 4 n).modCtx ctx fun c => { c with lost := n }
    else s.pushRecord c 1 c.errorBase r
  | none => s

/-- A record that names a thread. -/
def State.threadRecord (s : State) (kind access : Nat) (token : Word) (obj off : Nat) (t : Tid) (detail : Nat) (pc : Word) : List Byte :=
  let core := match s.block? t.block with
    | some b => b.core
    | none => 0xFF
  mkRecord kind core t.group access token obj off t.block.launch t.block.index (threadIndex t) detail pc

/-- Codes of R247. -/
def CtxState.code : CtxState → Nat
  | .created => 0
  | .runnable => 1
  | .running => 2
  | .preempting => 3
  | .saved => 4
  | .faulted => 5
  | .destroyed => 6

/-- Moves a context to a state and writes the state field of its control block (R242). -/
def State.setCtxState (s : State) (ctx : Nat) (st : CtxState) : State :=
  match s.ctx? ctx with
  | some c => (s.modCtx ctx fun c => { c with state := st }).writeVal (.vault c.quarter (c.control + 0x0B)) 1 st.code
  | none => s

end Sys2Proof.Machine
end

