-- ==== Sys2Proof/Machine/Barriers.lean ====
section
/-! DEFINITION. The barrier object (R287 to R291) and the mailbox object (R294 to R297). -/

namespace Sys2Proof.Machine

/-- The fields of a barrier (R287). -/
structure Bar where
  expected : Nat
  arrived  : Nat
  pending  : Int
  phase    : Nat
  deferred : Nat
  flags    : Nat
  deriving DecidableEq, Repr

/-- What the `n` bytes of an object at a local address held before each write that R291 forbids. [DESIGN CHOICE: log 54] -/
def State.imagesAt (s : State) (core a n : Nat) : List (List Byte) :=
  s.blocks.flatMap fun b => if clusterOf b.core = clusterOf core then
    (b.strayed.filter fun p => decide (p.1 = a) && decide (p.2.length = n)).map (·.2) else []

/-- Has a write that R291 forbids met the registered barrier at a local address? [DESIGN CHOICE: log 54] -/
def State.barStrayed (s : State) (core a : Nat) : Bool := !(s.imagesAt core a 16).isEmpty

/-- One of some images, by a free choice for the `i`-th field of the object at an address. [DESIGN CHOICE: log 54] -/
def pickImage (tick a i : Nat) (l : List (List Byte)) : List Byte := l.getD (Config.choose tick ((2 ^ 24 + a) * 128 + i) % l.length) []

/-- The barrier at a local address that a forbidden write has met: each field holds a value that it held or that was written
(R291). [DESIGN CHOICE: log 54] -/
def State.strayBar (s : State) (core a : Nat) : Bar :=
  let v : Nat → List Byte := fun i => pickImage s.tick a i (s.bytes (localAt core a) 16 :: s.imagesAt core a 16)
  ⟨field (v 0) 0 2, field (v 1) 2 2, sext 32 (field (v 2) 4 4), field (v 3) 8 4, field (v 4) 12 2, field (v 5) 14 2⟩

/-- The barrier at a local address (R287). [DESIGN CHOICE: log 54] -/
def State.bar (s : State) (core a : Nat) : Bar :=
  if s.barStrayed core a then s.strayBar core a
  else
    let bs := s.bytes (localAt core a) 16
    ⟨field bs 0 2, field bs 2 2, sext 32 (field bs 4 4), field bs 8 4, field bs 12 2, field bs 14 2⟩

def Bar.bytes (b : Bar) : List Byte :=
  toLE 2 b.expected ++ toLE 2 b.arrived ++ toLE 4 (wrap 32 b.pending) ++ toLE 4 b.phase ++ toLE 2 b.deferred ++ toLE 2 b.flags

/-- Does the phase of the barrier at a local address differ from a value? Open where a forbidden write has met the barrier (R291). [DESIGN CHOICE: log 54] -/
def State.phaseDiffers (s : State) (core a : Nat) (v : Word) : Bool :=
  if s.barStrayed core a then Config.choose s.tick (2 ^ 55 + a) % 2 == 1 else decide (BitVec.ofNat 32 (s.bar core a).phase ≠ v)

/-- Writes the barrier at a local address. -/
def State.putBar (s : State) (core a : Nat) (b : Bar) : State := s.write (localAt core a) b.bytes

/-- The registered barriers of a block that `n` bytes of local memory overlap. -/
def Block.barsMet (b : Block) (core a n : Nat) : List Nat :=
  (b.barriers.filter fun x => clusterOf b.core == clusterOf core && decide (x.2 < a + n) && decide (a < x.2 + 16)).map (·.2)

/-- Is a mailbox that an instruction has acted on in use: a slot of it is not free, or a thread is blocked on it (R295)? [DESIGN CHOICE: log 54] -/
def State.boxInUse (s : State) (core a : Nat) : Bool :=
  let bs := s.bytes (localAt core a) 32
  !allZero ((bs.drop 16).take 16) || s.threads.any fun t => match t.blocked with
    | some (.mailbox b _ _ _) => b == a && clusterOf t.core == clusterOf core
    | _ => false

/-- The mailboxes in use of a block that `n` bytes of local memory overlap. -/
def State.boxesMet (s : State) (b : Block) (core a n : Nat) : List Nat :=
  b.boxes.filter fun x => clusterOf b.core == clusterOf core && decide (x < a + n) && decide (a < x + 32) && s.boxInUse core x

/-- The objects that a write meets, with their bytes. -/
def State.strayHits (s : State) (b : Block) (core a n : Nat) : List (Nat × List Byte) :=
  (b.barsMet core a n).map (fun x => (x, s.bytes (localAt core x) 16)) ++ (s.boxesMet b core a n).map fun x => (x, s.bytes (localAt core x) 32)

/-- Notes a write of `n` bytes of local memory by an STL, ATOML, ACCDR, TDGET or copy against the registered barriers, and the
mailboxes in use, whose bytes it overlaps (R291, R295). [DESIGN CHOICE: log 54] -/
def State.noteStray (s : State) (core a n : Nat) : State :=
  if s.blocks.all fun b => (s.strayHits b core a n).isEmpty then s
  else { s with blocks := s.blocks.map fun b => { b with strayed := b.strayed ++ (s.strayHits b core a n).filter fun p => !b.strayed.contains p } }

/-- Writes bytes of local memory for an STL, ATOML, ACCDR, TDGET or copy (R291). [DESIGN CHOICE: log 54] -/
def State.storeLocal (s : State) (core a : Nat) (bs : List Byte) : State := (s.noteStray core a bs.length).write (localAt core a) bs

/-- Takes a range into a list of ranges with the scope code each needs, joined with those it touches. -/
def addRange (lo hi need : Nat) (l : List (Nat × Nat × Nat)) : List (Nat × Nat × Nat) :=
  let near : Nat × Nat × Nat → Bool := fun r => r.2.2 == need && decide (r.1 ≤ hi) && decide (lo ≤ r.2.1)
  let hit := l.filter near
  ((hit.map (·.1)).foldl min lo, (hit.map (·.2.1)).foldl max hi, need) :: l.filter fun r => !near r

/-- Notes local bytes that a home group has written, or an engine, against the home groups of the cluster that can fetch them: their operations
take the write in after an OPRDY of a scope wide enough (R201). [DESIGN CHOICE: log 20] -/
def State.noteUnready (s : State) (core : Nat) (by_ : Option Tid) (a n : Nat) : State :=
  let need : Group → Nat := fun g => match by_ with
    | none => 1
    | some t => if g.block ≠ t.block then 3 else if g.index = t.group then 0 else 2
  { s with groups := s.groups.map fun g : Group =>
      if need g ≠ 0 && clusterOf (coreOf g.home) == clusterOf core && (s.blocks.any fun b => b.key == g.block && b.regions != 0)
      then { g with unready := addRange a (a + n) (need g) g.unready } else g }

/-- Notes vector registers of a home slot that an engine, or another home group, has written (R201). [DESIGN CHOICE: log 20] -/
def State.noteRegs (s : State) (home : Nat) (rs : List Nat) : State :=
  { s with groups := s.groups.map fun g : Group =>
      if g.home = home then { g with unreadyRegs := rs.filter (fun r => !g.unreadyRegs.contains r) ++ g.unreadyRegs } else g }

/-- Writes bytes of local memory for a thread. -/
def State.groupStores (s : State) (core : Nat) (t : Tid) (a : Nat) (bs : List Byte) : State :=
  (s.noteUnready core (some t) a bs.length).storeLocal core a bs

/-- Writes bytes of local memory for an engine. -/
def State.engineStores (s : State) (core a : Nat) (bs : List Byte) : State := (s.noteUnready core none a bs.length).storeLocal core a bs

/-- Registered with its block (flag 15)? -/
def Bar.registered (b : Bar) : Bool := b.flags.testBit 15

/-- The phase completes when arrived equals expected, expected is not 0 and no bytes are owed (R288). -/
def Bar.settle (b : Bar) : Bar :=
  if b.arrived = b.expected ∧ b.expected ≠ 0 ∧ b.pending = 0 then
    { b with phase := (b.phase + 1) % 2 ^ 32, expected := b.expected - b.deferred, deferred := 0, arrived := 0, pending := 0 }
  else b

/-- Is a barrier of this address registered by the block? -/
def Block.barIndex (b : Block) (a : Nat) : Option Nat := (b.barriers.find? fun x => decide (x.2 = a)).map (·.1)

/-- Has the thread arrived in this phase of the barrier of this table index? -/
def Thread.arrivedIn (t : Thread) (idx phase : Nat) : Bool := t.arrivals.contains (idx, BitVec.ofNat 32 phase)

/-- EXIT of a thread at one barrier of its block (R154, R288). -/
def State.exitBar (s : State) (core : Nat) (t : Thread) (x : Nat × Nat) : State :=
  let b := s.bar core x.2
  let b := if t.arrivedIn x.1 b.phase then { b with deferred := b.deferred + 1 } else { b with expected := b.expected - 1 }
  s.putBar core x.2 b.settle

/-- Bytes delivered against a barrier (R163, R288, R290): false when they would take pending below −2^31, and then
nothing changes. -/
def State.countBytes (s : State) (core a n : Nat) : State × Bool :=
  let b := s.bar core a
  if b.pending - n < -(2 ^ 31) then (s, false)
  else (s.putBar core a { b with pending := b.pending - n }.settle, true)

/-! ### Mailboxes (R294 to R296) -/

structure Mbx where
  slots  : Nat
  rsv    : Nat
  take   : Nat
  filled : Nat
  free   : Nat
  states : BitVec 128
  deriving DecidableEq, Repr

/-- Has a write that R291 forbids met the mailbox in use at a local address (R295)? [DESIGN CHOICE: log 54] -/
def State.mbxStrayed (s : State) (core a : Nat) : Bool := !(s.imagesAt core a 32).isEmpty

/-- The bytes of a mailbox that a forbidden write has met: each field and each slot's state holds a value that it held or that was
written (R291, R295). [DESIGN CHOICE: log 54] -/
def State.strayBox (s : State) (core a : Nat) : List Byte :=
  let l := s.bytes (localAt core a) 32 :: s.imagesAt core a 32
  let v : Nat → List Byte := fun i => pickImage s.tick a i l
  let states := ((List.range 64).map fun i => bits (field (v (i + 16)) 16 16) (2 * i + 1) (2 * i) * 4 ^ i).sum
  [0, 1, 2, 3, 4, 5].flatMap (fun i => toLE 1 (field (v i) i 1)) ++ ((v 6).drop 6).take 10 ++ toLE 16 states

/-- The bytes of the mailbox at a local address. [DESIGN CHOICE: log 54] -/
def State.mbxBytes (s : State) (core a : Nat) : List Byte :=
  if s.mbxStrayed core a then s.strayBox core a else s.bytes (localAt core a) 32

/-- The mailbox at a local address (R294). -/
def State.mbx (s : State) (core a : Nat) : Mbx :=
  let bs := s.mbxBytes core a
  ⟨field bs 0 1, field bs 1 1, field bs 2 1, field bs 4 1, field bs 5 1, BitVec.ofNat 128 (field bs 16 16)⟩

/-- The blocks, with the mailbox at a local address listed at the block whose memory holds it. -/
def State.useBox (s : State) (core a : Nat) : State :=
  { s with blocks := s.blocks.map fun b =>
      if clusterOf b.core = clusterOf core ∧ b.ownsLocal a 32 ∧ a ∉ b.boxes then { b with boxes := a :: b.boxes } else b }

/-- Writes the mailbox at a local address. -/
def State.putMbx (s : State) (core a : Nat) (m : Mbx) : State :=
  (s.useBox core a).write (localAt core a) (toLE 1 m.slots ++ toLE 1 m.rsv ++ toLE 1 m.take ++ toLE 1 0 ++ toLE 1 m.filled ++ toLE 1 m.free
    ++ zeros 10 ++ toLE 16 m.states.toNat)

/-- The check every mailbox instruction makes first (R295). -/
def State.mbxOk (s : State) (core a : Nat) : Bool :=
  let m := s.mbx core a
  let bs := s.mbxBytes core a
  decide (1 ≤ m.slots) && decide (m.slots ≤ 64) && decide (m.rsv < m.slots) && decide (m.take < m.slots)
    && decide (m.filled + m.free ≤ m.slots) && field bs 3 1 == 0 && allZero ((bs.drop 6).take 10)

/-- State of a slot: 0 free, 1 reserved, 2 filled, 3 taken. -/
def Mbx.slot (m : Mbx) (i : Nat) : Nat := (m.states.extractLsb' (2 * i) 2).toNat
def Mbx.setSlot (m : Mbx) (i v : Nat) : Mbx :=
  { m with states := (m.states &&& ~~~(3#128 <<< (2 * i))) ||| (BitVec.ofNat 128 v <<< (2 * i)) }

/-- The slots at a cursor, `k` of them. -/
def Mbx.at_ (m : Mbx) (cur k : Nat) : List Nat := (List.range k).map fun i => (cur + i) % m.slots

/-- Are the `k` slots at the cursor ready: free for a reservation, filled for a take? -/
def Mbx.ready (m : Mbx) (take : Bool) (k : Nat) : Bool :=
  if take then (m.at_ m.take k).all fun i => m.slot i == 2 else (m.at_ m.rsv k).all fun i => m.slot i == 0

/-- Reserves or takes `k` slots at the cursor (R296). -/
def Mbx.grant (m : Mbx) (take : Bool) (k : Nat) : Mbx :=
  if take then
    let n := (m.at_ m.take k).foldl (fun m i => m.setSlot i 3) m
    { n with take := (m.take + k) % m.slots, filled := m.filled - k }
  else
    let n := (m.at_ m.rsv k).foldl (fun m i => m.setSlot i 1) m
    { n with rsv := (m.rsv + k) % m.slots, free := m.free - k }

/-- Publishes a reserved slot or releases a taken one (R296). -/
def Mbx.finish (m : Mbx) (rel : Bool) (i : Nat) : Mbx :=
  if rel then { m.setSlot i 0 with free := m.free + 1 } else { m.setSlot i 2 with filled := m.filled + 1 }

end Sys2Proof.Machine
end

