-- ==== Sys2Proof/Machine/Ops.lean ====
section
/-! DEFINITION. Shared operations of the machine: taking an exception (R157), returning from one (R159), the context
fault (R246), the end of a thread (R154), parking (R186), deferred traps (R212). -/

namespace Sys2Proof.Machine

/-! ### Trap causes (R245) -/

namespace Cause
def illop : BitVec 6 := 0x01
def illconv : BitVec 6 := 0x02
def unifdiv : BitVec 6 := 0x03
def regbound : BitVec 6 := 0x04
def xbound : BitVec 6 := 0x05
def empty : BitVec 6 := 0x06
def viewbound : BitVec 6 := 0x07
def widen : BitVec 6 := 0x08
def staleview : BitVec 6 := 0x09
def rights : BitVec 6 := 0x0A
def align : BitVec 6 := 0x0B
def memue : BitVec 6 := 0x0C
def fifoerr : BitVec 6 := 0x0D
def barerr : BitVec 6 := 0x0E
def mbxerr : BitVec 6 := 0x0F
def badfmt : BitVec 6 := 0x10
def placebad : BitVec 6 := 0x11
def quota : BitVec 6 := 0x12
def spawnfull : BitVec 6 := 0x13
def hang : BitVec 6 := 0x14
def bkpt : BitVec 6 := 0x15
def trapi : BitVec 6 := 0x16
def priv : BitVec 6 := 0x17
def mcnack : BitVec 6 := 0x18
def cancel : BitVec 6 := 0x19
end Cause

/-- Reasons of a context fault beside the trap causes (R246). -/
def reasonHandler : BitVec 8 := 0x20
def reasonRestoreBad : BitVec 8 := 0x21
def reasonPeerLost : BitVec 8 := 0x22
def reasonInternal : BitVec 8 := 0x23

/-- A trap: its cause, and what TRAPINFO, the HIT mask and the full offsets hold for the threads named; TRAPINFO is 0 in
the others. -/
structure Trap where
  cause   : BitVec 6
  infos   : List (Tid × Word) := []
  hit     : List Nat := []
  offsets : List (Nat × Nat) := []
  deriving DecidableEq, Repr

/-- TRAPINFO of a thread. -/
def Trap.info (t : Trap) (x : Tid) : Word := ((t.infos.find? fun p => decide (p.1 = x)).map (·.2)).getD 0

/-- Numbers for operations and accesses, in issue order. -/
def State.fresh (s : State) (n : Nat) : State := { s with nextId := s.nextId + n }

/-- The end of one thread (R154). -/
def State.exitThread (s : State) (t : Tid) : State :=
  match s.thread? t, s.block? t.block with
  | some th, some b =>
    let s := b.barriers.foldl (fun s x => s.exitBar b.core th x) s
    s.modThread t fun th => { th with life := .exited, blocked := none, yielded := none, handler := false }
  | _, _ => s

/-- The end of several threads. -/
def State.exitThreads (s : State) (ts : List Tid) : State := ts.foldl State.exitThread s

/-- The fault image of an issue group (R246 step 2). -/
def faultImage (reason : BitVec 8) (ig : IssueGroup) (tr : Trap) : FaultImage :=
  { reason, pc := ig.pc, launch := ig.launch, mask := laneMask (ig.members.map (·.lane)), hit := laneMask tr.hit
    infos := ig.members.map fun t => (t.lane, tr.info t), offsets := tr.offsets
    names := ig.members.map fun t => (t.lane, t), core := ig.core }

/-- A context faults (R246): issue stops on its cores, and its queues are DISABLED (R259); the save, the image and the record follow as
CONTEXT_FAULT. The first fault of a context stands. -/
def State.faultCtx (s : State) (ctx : Nat) (img : FaultImage) : State :=
  { s.modCtx ctx fun c => match c.fault with
      | some _ => c
      | none => { c with fault := some img } with
    queues := s.queues.map fun q : Queue => if q.ctx = ctx then { q with state := .disabled } else q }

/-- A context faults for a reason that no issue group raised. [DEDUCED: log 40] -/
def State.faultCtxBare (s : State) (ctx : Nat) (reason : BitVec 8) : State :=
  s.faultCtx ctx { reason }

/-- Does the kernel's handler take this cause from this issue group (R157 step 1)? -/
def State.handled (s : State) (ig : IssueGroup) (c : BitVec 6) : Bool :=
  match s.launch? ig.launch with
  | some l => l.header.trapMask.getLsbD c.toNat && !(s.threads.any fun t => ig.members.contains t.tid && t.handler)
  | none => false

/-- A result that one of the threads has issued: its own, or one of its home group's uniform registers, which all its threads issue together
(R279). -/
def State.issuedBy (s : State) (ts : List Tid) (l : Landing) : Bool :=
  ts.contains l.owner || match l.place with
    | .uni h _ => s.threads.any fun t => t.home == h && ts.contains t.tid
    | _ => false

/-- The fixed-latency results that threads of a core have issued land (R105, R376): no early read follows. -/
def State.settleResults (s : State) (core : Nat) (ts : List Tid) : State :=
  let mine := (s.core core).landings.filter (s.issuedBy ts)
  let s := s.modCore core fun c => { c with landings := c.landings.filter fun l => !s.issuedBy ts l }
  mine.foldl State.land s

/-- Entry into the handler (R157 step 1): every thread of the issue group, inactive lanes too, once its fixed-latency
results have landed (R105). -/
def State.enterHandler (s : State) (ig : IssueGroup) (tr : Trap) : State :=
  let handler := ((s.launch? ig.launch).map (·.header.handler)).getD 0
  (s.settleResults ig.core ig.members).modThreads ig.members fun t =>
    { t with
      handler := true, pc := handler, trapCause := tr.cause, trapPc := ig.pc, trapInfo := tr.info t.tid
      trapMask := laneMask ((ig.members.filter fun x => decide (x.block = t.tid.block) && decide (x.group = t.tid.group)).map (·.lane))
      blocked := none, yielded := none, waitSince := none, waitOver := false, passBreak := false }

/-- Taking an exception (R157): the handler, the exit of a cancel, or the context fault. -/
def State.takeTrap (s : State) (ig : IssueGroup) (tr : Trap) : State :=
  if s.handled ig tr.cause then s.enterHandler ig tr
  else if tr.cause = Cause.cancel then s.exitThreads ig.members
  else
    let ctx := ((s.launch? ig.launch).map (·.ctx)).getD 0
    let reason := if s.threads.any fun t => ig.members.contains t.tid && t.handler then reasonHandler else tr.cause.setWidth 8
    s.faultCtx ctx (faultImage reason ig tr)

/-- Return from a handler (R159) of one thread: to TRAPPC, or the instruction after it; a cancelled thread exits. -/
def State.leaveHandler (s : State) (skip : Bool) (t : Tid) : State :=
  match s.thread? t with
  | some th =>
    if th.trapCause = Cause.cancel then s.exitThread t
    else s.modThread t fun th => { th with handler := false, pc := if skip then th.trapPc + 12 else th.trapPc }
  | none => s

/-! ### Parking (R186, R219) -/

/-- Parks live threads under a page or token. A thread in a handler faults the context instead (R157). -/
def State.park (s : State) (k : ParkKey) (ts : List Tid) : State :=
  ts.foldl (fun s t => match s.thread? t with
    | some th =>
      if th.life = .live then
        if th.handler then
          s.faultCtx (s.ctxOf t.block) (faultImage reasonHandler ⟨th.core, 0, t.block.launch, th.pc, [t]⟩ ⟨0, [], [], []⟩)
        else s.modThread t fun th => { th with life := .parked k, blocked := none, waitSince := none, waitOver := false }
      else s
    | none => s) s

/-- The live threads of a home group. -/
def State.liveOf (s : State) (b : BlockKey) (g : Nat) : List Tid :=
  ((s.groupThreads b g).filter fun t => t.alive).map (·.tid)

/-! ### Deferred traps (R212) -/

/-- A deferred trap of a home group: every live thread takes it at its next boundary; a DEFERRED record is written. -/
def State.deferTrap (s : State) (b : BlockKey) (g : Nat) (c : BitVec 6) (info : Word) : State :=
  let core := ((s.block? b).map (·.core)).getD 0xFF
  let s := s.modThreads (s.liveOf b g) fun t => { t with deferred := t.deferred ++ [(c, info)] }
  s.errorRecord (s.ctxOf b) (mkRecord 0x24 core g 0 0 0 0 b.launch b.index 0xFFFF c.toNat 0)

/-! ### Is the context running? -/

/-- A context whose threads may issue: RUNNING with no fault pending, or PREEMPTING for threads in a handler (R248). -/
def State.mayIssue (s : State) (ctx : Nat) (handler : Bool) : Bool :=
  match s.ctx? ctx with
  | some c => c.fault.isNone && (decide (c.state = .running) || (decide (c.state = .preempting) && handler))
  | none => false

end Sys2Proof.Machine
end

