-- ==== Sys2Proof/Machine/Operands.lean ====
section
/-! DEFINITION. Operand forms: which registers an instruction reads and writes, resolution of indexed operands (R67 to
R70), values read and results written (R85 to R89, R117, R148, R176). -/

namespace Sys2Proof.Machine

/-! ### Index registers (R65, R67) -/

def xMode (x : Word) : Nat := (x.extractLsb' 28 2).toNat
def xStep (x : Word) : Int := (x.extractLsb' 24 4).toInt
def xIdx (x : Word) : Nat := (x.extractLsb' 16 8).toNat
def xBound (x : Word) : Nat := (x.extractLsb' 8 8).toNat
def xBase (x : Word) : Nat := (x.extractLsb' 0 8).toNat
def xSetIdx (x : Word) (i : Nat) : Word := (x &&& 0xFF00FFFF) ||| (BitVec.ofNat 32 (i % 256) <<< 16)

/-- BASE + i of R67, after any wrap; 0 when BOUND is 0. -/
def xRes (x : Word) (off : Nat) : Nat :=
  if xBound x = 0 then 0
  else xBase x + (if xMode x = 1 then (xIdx x + off) % xBound x else xIdx x + off)

/-- Resolution of an indexed operand of `w` registers in a lane (R67). -/
def resolveIdx (x : Word) (off w n : Nat) : Except (BitVec 6) Nat :=
  if 2 ≤ xMode x then .error Cause.illop
  else if xBound x = 0 then .error Cause.xbound
  else
    let r := xRes x off
    if xBase x + xBound x < r + w then .error Cause.xbound
    else if w = 2 ∧ r % 2 = 1 then .error Cause.xbound
    else if n < r + w then .error Cause.regbound
    else .ok r

/-- The post-increment of an index register (R68 step 5). -/
def xAdvance (x : Word) : Word :=
  let i : Int := xIdx x + xStep x
  if xMode x = 0 then xSetIdx x (i % 256).toNat
  else if xBound x = 0 then x else xSetIdx x (i % (xBound x : Int)).toNat

/-! ### Uses -/

/-- One operand of an instruction in a lane: position (0 OPA, 1 OPB, 2 OPD), registers it names, read, written. -/
structure Use where
  slot : Nat
  op   : Operand
  regs : Nat
  rd   : Bool
  wr   : Bool
  deriving DecidableEq, Repr

def useA (f : Insn) (n : Nat) : Use := ⟨0, f.opa, n, true, false⟩
def useB (f : Insn) (n : Nat) : Use := ⟨1, f.opb, n, true, false⟩
def useD (f : Insn) (n : Nat) : Use := ⟨2, f.opd, n, false, true⟩
def readD (f : Insn) (n : Nat) : Use := ⟨2, f.opd, n, true, false⟩
def bothD (f : Insn) (n : Nat) : Use := ⟨2, f.opd, n, true, true⟩

/-- Registers of an operand of a type: 2 for a 64-bit type. -/
def typeRegs (t : Nat) : Nat := if t = 2 ∨ t = 3 then 2 else 1
/-- Registers of the MOD type. -/
def modRegs (f : Insn) : Nat := typeRegs (Forms.ty f.mod)
/-- Registers of a size code (R180). -/
def sizeRegs (f : Insn) : Nat := if Forms.low3 f.mod = 5 then 2 else if Forms.low3 f.mod = 6 then 4 else 1
/-- Registers of an atomic operand (R190). -/
def atomRegs (f : Insn) : Nat := if Forms.qualOf f.opa = 2 then 2 else 1
/-- Columns of ACCRD and ACCWR (R222). -/
def accCols (f : Insn) : Nat := 8 * 2 ^ Forms.low2 f.mod
/-- Bytes of an MMA activation element (R217). -/
def mmaBytes (f : Insn) : Nat := if Forms.mid2 f.mod = 2 then 2 else 1

/-- Operands of an instruction in a lane, in the order OPA, OPB, OPD of R68. Only LXCH depends on the lane (R142). The
registers that a lane instruction reads are those of its source lanes (R141), checked with the read. -/
def usesOf (i : Instr) (lane : Nat) : List Use :=
  match i with
  | .mov f => [useA f (modRegs f), useD f (modRegs f)]
  | .movl f => [useD f (modRegs f)]
  | .sel f | .iadd f | .isub f | .imul f | .imulh f | .imin f | .imax f | .and f | .or f | .xor f | .andn f =>
    [useA f (modRegs f), useB f (modRegs f), useD f (modRegs f)]
  | .imad f | .isad f => [useA f (modRegs f), useB f (modRegs f), bothD f (modRegs f)]
  | .iabs f | .ineg f | .not f | .brev f => [useA f (modRegs f), useD f (modRegs f)]
  | .shl f | .shr f | .sar f | .rotl f => [useA f (modRegs f), useB f 1, useD f (modRegs f)]
  | .bfx f => [useA f 1, useB f 1, useD f 1]
  | .bfi f | .bmix f | .idot4 f | .ffma f | .bfma2 f => [useA f 1, useB f 1, bothD f 1]
  | .popc f | .clz f => [useA f (modRegs f), useD f 1]
  | .icmp f | .par f => [useA f (modRegs f), useB f (modRegs f), useD f 1]
  | .lea f => [useA f 2, useB f 1, useD f 2]
  | .bpick f => [useA f 2, useB f 1, useD f 1]
  | .fadd f | .fsub f | .fmul f | .fmin f | .fmax f | .fcmp f | .fscalb f | .badd2 f | .bmul2 f | .fclass f =>
    [useA f 1, useB f 1, useD f 1]
  | .frcp f | .frsq f | .fsqrt f | .fexp2 f | .flog2 f | .ftanh f | .frnd f => [useA f 1, useD f 1]
  | .cvt f => [useA f (typeRegs ((Forms.immNat f.opb).getD 0)), useD f (modRegs f)]
  | .plop f | .poll f => [useA f 1, useB f 1, useD f 1]
  | .lxch f =>
    if lane.testBit (Forms.low3 f.mod) then [⟨0, f.opa, modRegs f, false, true⟩] else [⟨1, f.opb, modRegs f, false, true⟩]
  | .lshf f | .lbcast f | .rdlane f => [⟨0, f.opa, modRegs f, false, false⟩, useB f 1, useD f (modRegs f)]
  | .lred f => [useA f 1, useD f 1]
  | .xset f | .xget f | .xadv f => [useA f 1, useD f 1]
  | .brx f | .ret f | .trap f | .wrsys f => [useA f 1]
  | .call f => [useA f 1, useD f 1]
  | .spawn f => [useA f 14, useB f 1]
  | .barinit f | .barwait f => [useA f 1, useB f 1]
  | .bararr f | .bartest f | .waitf f => [useA f 1, useB f 1, useD f 1]
  | .mbxputRsv f | .mbxgetTake f => [useA f 1, useD f 1]
  | .mbxputPub f | .mbxgetRel f | .quota f => [useA f 1, useB f 1]
  | .rdsys f => [useD f 1]
  | .clock f => [useD f 2]
  | .cancel f | .vdrop f => [useA f 2]
  | .enq f | .pref f => [useA f 2, useB f 1]
  | .replay f => [useA f (if f.mod = 0 then 2 else 1), useB f 1]
  | .ld f => [useA f 2, useB f 1, useD f (sizeRegs f)]
  | .st f => [useA f 2, useB f 1, readD f (sizeRegs f)]
  | .ldl f => [useA f 1, useB f 1, useD f (sizeRegs f)]
  | .stl f => [useA f 1, useB f 1, readD f (sizeRegs f)]
  | .ldgl f => [useA f 2, useB f 1, readD f 1]
  | .atom f => [useA f 2, useB f (atomRegs f), if Forms.low3 f.mod = 7 then bothD f (atomRegs f) else useD f (atomRegs f)]
  | .atoml f => [useA f 1, useB f (atomRegs f), if Forms.low3 f.mod = 7 then bothD f (atomRegs f) else useD f (atomRegs f)]
  | .red f => [useA f 2, useB f (atomRegs f)]
  | .mcst f => [useA f 2, useB f 1, readD f (sizeRegs f)]
  | .redst f => [useA f 2, useB f 1, readD f (atomRegs f)]
  | .vdup f => [useA f 2, useB f 1, useD f 2]
  | .vnarrow f => [useA f 2, useB f 2]
  | .vqry f => [useA f 2, useD f (if f.mod = 2 then 1 else 2)]
  | .wload f => [useA f 2]
  | .mma f =>
    [useA f (if Forms.hi2 f.mod = 0 then (if Forms.w2 f.mod = 0 then 32 * mmaBytes f else 1) else 2),
     useB f (if Forms.w2 f.mod = 0 then 1 else 3), useD f 1]
  | .accz f => [useD f 1]
  | .accrd f => [useA f 1, useB f 1, useD f (accCols f)]
  | .accwr f => [useA f (accCols f), useB f 1, useD f 1]
  | .accdr f => [useA f 1, useB f 2, if f.mod.getLsbD 2 then useD f 1 else readD f 1]
  | .accld f => [useA f 2, useD f 1]
  | .rowmax f => [useA f 1, useB f 1, if f.mod.getLsbD 2 then bothD f 1 else useD f 1]
  | .rowexp f => [useA f 1, useB f 3, useD f 1]
  | .rowsc f => [useA f 1, useB f (if Forms.low2 f.mod = 2 then 3 else 1), useD f 1]
  | .place f => [useA f 1, useB f 1, useD f 1]
  | .tld f => [useA f 1, useB f 2, useD f 1]
  | .tst f => [useA f 1, useB f 2, readD f 1]
  | .tdset f => [useA f 1, useD f 1]
  | .tdget f => [useA f 1, useB f 1]
  | .locof f => [useA f 1, useB f 2, useD f 2]
  | .optaw f => [useA f 15, useB f 1, useD f 1]
  | .statst f => [useA f 2, useB f 1, readD f 3]
  | .statld f => [useA f 2, useB f 1, useD f 4]
  | .lscale f => [useA f 2, useB f 1, useD f 1]
  | .cpkick f => [useA f 2]
  | .chainBind f | .chainUnbind f => [useA f 1]
  | _ => []

/-! ### Source lanes (R75, R141) -/

/-- The source operand of a lane instruction. -/
def laneSrc (f : Insn) : Use := ⟨0, f.opa, modRegs f, true, false⟩
/-- Another lane of a thread's home group. -/
def sibling (th : Thread) (lane : Nat) : Tid := { th.tid with lane }

/-- The register a lane names in LXCH (R142). -/
def lxchOwn (f : Insn) (lane : Nat) : Use :=
  if lane.testBit (Forms.low3 f.mod) then ⟨0, f.opa, modRegs f, true, true⟩ else ⟨1, f.opb, modRegs f, true, true⟩

/-- LSHF (R143): the source lane, or the lane itself beyond either end. -/
def lshfSource (dir n l : Nat) : Nat :=
  match dir with
  | 0 => if n ≤ l then l - n else l
  | 1 => if l + n < 128 then l + n else l
  | 2 => (l + 128 - n) % 128
  | _ => (l + n) % 128

/-- The source lane RDLANE names (R146). -/
def rdlaneSource (th : Thread) (sel : Nat) : Tid := { block := th.tid.block, group := sel / 128 % 8, lane := sel % 128 }

/-- Collective forms (R209, R142, R201). -/
def isCollective (i : Instr) : Bool :=
  match i.word? with
  | some (opc, f) => match Forms.formOf opc with
    | some F => F.coll f.mod
    | none => false
  | none => false

/-- Does the instruction name a uniform operand? -/
def usesUniform (f : Insn) : Bool :=
  let u : Operand → Bool := fun o => match o with
    | .uni _ _ => true
    | _ => false
  u f.opd || u f.opa || u f.opb

/-- Needs convergence (R279). -/
def needsConvergence (i : Instr) (f : Insn) : Bool :=
  isCollective i || usesUniform f || (match i with
    | .quota _ | .tdset _ | .tdget _ => true
    | _ => false)

/-- Needs privilege (R98, R169, R174). -/
def needsPrivilege (i : Instr) : Bool :=
  match i with
  | .replay _ => true
  | .rdsys f => decide (0x40 ≤ f.mod.toNat)
  | _ => false

/-! ### Resolution -/

/-- Is the operand indexed? -/
def isIdx : Operand → Bool
  | .idx .. => true
  | _ => false

/-- Resolves one operand of a thread: the vector register it names, or the cause of its fault (R44, R45, R67). -/
def State.resolve (s : State) (th : Thread) (u : Use) : Except (BitVec 6) Nat :=
  let g := s.group? th.tid.block th.tid.group
  let n := (g.map (·.alloc)).getD 0
  match u.op with
  | .vec r _ _ =>
    if u.regs = 2 ∧ r.toNat % 2 = 1 then .error Cause.illop
    else if n < r.toNat + u.regs then .error Cause.regbound else .ok r.toNat
  | .idx off j _ _ _ => resolveIdx (s.xreg th j.toNat) off.toNat u.regs n
  | .uni r _ =>
    if u.regs = 2 ∧ r.toNat % 2 = 1 then .error Cause.illop
    else if 24 < r.toNat + u.regs then .error Cause.regbound else .ok r.toNat
  | .tile t => if ((s.block? th.tid.block).map (·.tiles)).getD 0 ≤ t.toNat then .error Cause.regbound else .ok t.toNat
  | .acc a => if ((s.block? th.tid.block).map (·.regions)).getD 0 ≤ a.toNat then .error Cause.regbound else .ok a.toNat
  | _ => .ok 0

/-- The register an operand names in a lane, once its checks have passed. -/
def State.regNo (s : State) (th : Thread) (o : Operand) : Nat :=
  match o with
  | .vec r _ _ => r.toNat
  | .idx off j _ _ _ => xRes (s.xreg th j.toNat) off.toNat
  | .uni r _ => r.toNat
  | .tile t => t.toNat
  | .acc a => a.toNat
  | .pred n _ => n.toNat
  | .xreg j _ => j.toNat
  | _ => 0

/-- The TRAPINFO word of R69 in one lane. -/
def State.boundInfo (s : State) (th : Thread) (u : Use) (hit : Bool) : Word :=
  let h := (if hit then 1 else 0) * 2 ^ 27 + (if u.regs = 2 then 1 else 0) * 2 ^ 26
  match u.op with
  | .idx off j _ _ _ =>
    let x := s.xreg th j.toNat
    BitVec.ofNat 32 (u.slot * 2 ^ 30 + j.toNat * 2 ^ 28 + h + xIdx x * 2 ^ 18 + off.toNat * 2 ^ 10 + xRes x off.toNat % 1024)
  | .vec r _ _ => BitVec.ofNat 32 (u.slot * 2 ^ 30 + h + r.toNat)
  | o => BitVec.ofNat 32 (u.slot * 2 ^ 30 + h + s.regNo th o)

/-- Rank of a cause at step 5 of R83: ILLOP, then XBOUND, then REGBOUND (R68). -/
def boundRank (c : BitVec 6) : Nat := if c = Cause.illop then 0 else if c = Cause.xbound then 1 else 2

/-- The faults of one operand position over the active lanes: position and cause. -/
def State.boundFaults (s : State) (act : List Thread) (uses : Nat → List Use) : List (Nat × BitVec 6) :=
  act.flatMap fun th => (uses th.tid.lane).filterMap fun u => match s.resolve th u with
    | .error c => some (u.slot, c)
    | .ok _ => none

/-- Step 5 of R83: the trap of the first cause, reported on the first operand that has it (R68, R69). TRAPINFO is 0 in a lane of an
LXCH that does not name that operand. [DEDUCED: log 27] -/
def State.boundTrap (s : State) (mem act : List Thread) (uses : Nat → List Use) : Option Trap :=
  match minBy (fun p => boundRank p.2 * 4 + p.1) (s.boundFaults act uses) with
  | none => none
  | some (slot, c) =>
    let hits := act.filter fun th => (uses th.tid.lane).any fun u => decide (u.slot = slot) && (match s.resolve th u with
      | .error d => decide (d = c)
      | .ok _ => false)
    let info : Thread → Word := fun th =>
      if c = Cause.illop then 0
      else match (uses th.tid.lane).find? (fun u => decide (u.slot = slot)) with
        | some u => s.boundInfo th u (hits.any fun h => decide (h.tid = th.tid))
        | none => 0
    some { cause := c, infos := mem.map fun th => (th.tid, info th), hit := hits.map (·.tid.lane) }

/-! ### Empty sources (R52) -/

/-- ETRAP of an operand. -/
def etrap : Operand → Bool
  | .vec _ e _ => e
  | .idx _ _ _ e _ => e
  | _ => false

/-- Is a register an operand reads empty in this lane? [DESIGN CHOICE: log 26] -/
def State.useEmpty (s : State) (th : Thread) (u : Use) : Bool :=
  u.rd && (match u.op with
    | .vec .. | .idx .. => (List.range u.regs).any fun i => s.emptyReg th.home (s.regNo th u.op + i) th.tid.lane
    | _ => false)

/-! ### Values read -/

/-- The value an operand gives in a lane, as a number of 32 or 64 bits; a short immediate is sign-extended to 64 bits, a
predicate or flag reads as 0 or 1 with its negation applied, and an index register, LANE or HGRP in a 64-bit position is
zero-extended. Register modifiers are left to the instruction. [DESIGN CHOICE: log 80] -/
def State.src (s : State) (th : Thread) (o : Operand) (regs : Nat) : Nat :=
  match o with
  | .vec .. | .idx .. =>
    let r := s.regNo th o
    if regs = 2 then (s.vreg th r).toNat + 2 ^ 32 * (s.vreg th (r + 1)).toNat else (s.vreg th r).toNat
  | .uni r _ =>
    if regs = 2 then (s.ureg th r.toNat).toNat + 2 ^ 32 * (s.ureg th (r.toNat + 1)).toNat else (s.ureg th r.toNat).toNat
  | .pred n neg => if s.pred th n.toNat != neg then 1 else 0
  | .flag f neg => if th.flag f.toNat != neg then 1 else 0
  | .xreg j _ => (s.xreg th j.toNat).toNat
  | .lane _ => th.tid.lane
  | .hgrp _ => th.tid.group
  | .imm v => wrap 64 v.toInt
  | .lit v => v.toNat
  | .tile t => t.toNat
  | .acc a => a.toNat
  | .none => 0

/-- The value as a 32-bit word. -/
def State.src32 (s : State) (th : Thread) (o : Operand) : Word := BitVec.ofNat 32 (s.src th o 1)
/-- Register modifier bits of a source. -/
def modOf : Operand → BitVec 2
  | .vec _ _ m => m
  | .idx _ _ _ _ m => m
  | .uni _ m => m
  | .xreg _ m => m
  | .lane m => m
  | .hgrp m => m
  | _ => 0

/-! ### Execution context and results -/

/-- An instruction about to act: its issue group, members, active lanes (ascending), fields and time, and what its operands decide
before it acts. -/
structure Exec where
  ig   : IssueGroup
  mem  : List Thread
  act  : List Thread
  f    : Insn
  /-- Cycle of issue. -/
  now  : Nat
  /-- Cycles R71 adds to the latency. -/
  extra : Nat
  /-- Cycles the instruction occupies the datapath (R71, R277). -/
  busy  : Nat
  /-- Index registers after the increments of the instruction (R68 step 5). -/
  steps : List (Tid × Nat × Word)
  /-- Number of the instruction. -/
  inst : Nat
  flag : Option Nat
  deriving DecidableEq, Repr

/-- When and how the instruction's operation completes. -/
inductive Completes where
  | atIssue
  | at_ (due : Nat)
  | later
  deriving DecidableEq, Repr

/-- What an instruction does at issue. `moved` says that it has set the next PC of every member itself. -/
inductive Act where
  | done (s : State) (c : Completes) (moved : Bool)
  /-- Some lanes are blocked (R149): they stay at the instruction, and the others issue it. -/
  | held (s : State) (c : Completes) (blocked : List Tid)
  | trap (t : Trap)
  /-- Waits at issue (R149, R179); the state may have moved towards the condition. -/
  | wait (s : State)
  deriving DecidableEq, Repr

/-- When a result of latency `lat` lands. -/
def Exec.due (x : Exec) (lat : Nat) : Nat := x.now + lat + x.extra

/-- Writes one lane's result to a destination that is not uniform. -/
def State.putDst (s : State) (x : Exec) (th : Thread) (o : Operand) (regs v lat : Nat) : State :=
  let due := x.due lat
  match o with
  | .vec .. | .idx .. =>
    let r := s.regNo th o
    let s := s.writeFixed x.ig.core th.tid (.vec th.home r th.tid.lane) (BitVec.ofNat 32 v) due
    if regs = 2 then s.writeFixed x.ig.core th.tid (.vec th.home (r + 1) th.tid.lane) (BitVec.ofNat 32 (v / 2 ^ 32)) due else s
  | .pred n _ => if n = 7 then s else s.writeFixed x.ig.core th.tid (.pred th.tid n.toNat) (if v = 0 then 0 else 1) due
  | .xreg j _ => s.writeFixed x.ig.core th.tid (.xreg th.tid j.toNat) (BitVec.ofNat 32 v) due
  | _ => s

/-- Writes a uniform register, or pair, for the issue group. -/
def State.putUni (s : State) (x : Exec) (th : Thread) (r regs v lat : Nat) : State :=
  let s := s.writeFixed x.ig.core th.tid (.uni th.home r) (BitVec.ofNat 32 v) (x.due lat)
  if regs = 2 then s.writeFixed x.ig.core th.tid (.uni th.home (r + 1)) (BitVec.ofNat 32 (v / 2 ^ 32)) (x.due lat) else s

/-- Writes the results of all active lanes, values already computed; a uniform receives that of the lowest (R117). Chapter 8 does not say
which lane's value a uniform OPD of RDSYS receives where the lanes' values differ: the same. [DESIGN CHOICE: log 90] -/
def State.putAll (s : State) (x : Exec) (regs lat : Nat) (vals : List (Thread × Nat)) : State :=
  match x.f.opd with
  | .uni r _ => match vals with
    | (th, v) :: _ => s.putUni x th r.toNat regs v lat
    | [] => s
  | o => vals.foldl (fun s p => s.putDst x p.1 o regs p.2 lat) s

/-- A fixed-latency instruction whose result in each active lane is a function of the lane. -/
def fixedResult (s : State) (x : Exec) (regs lat : Nat) (val : Thread → Nat) : Act :=
  .done (s.putAll x regs lat (x.act.map fun th => (th, val th))) (.at_ (x.due lat)) false

/-- A trap with one TRAPINFO word in every member. -/
def trapAll (x : Exec) (c : BitVec 6) (info : Word) : Act := .trap { cause := c, infos := x.mem.map fun t => (t.tid, info) }
/-- A trap with TRAPINFO by thread. -/
def trapEach (x : Exec) (c : BitVec 6) (info : Thread → Word) (hit : List Nat) : Act :=
  .trap { cause := c, infos := x.mem.map fun t => (t.tid, info t), hit }

/-- The view or local fault word of R177 in one lane. -/
def accessInfo (hit : Bool) (slot : Nat) (addr : Int) : Word :=
  BitVec.ofNat 32 ((if hit then 2 ^ 31 else 0) + slot * 2 ^ 29 + wrap 29 addr)

end Sys2Proof.Machine
end

