-- ==== Sys2Proof/Machine/Peer.lean ====
section
/-! DEFINITION. Requests on the fabric: planes and tags (R354, R356), what holds them back (R355, R361, R366), and those that the device's
units make in place of a core. -/

namespace Sys2Proof.Machine

/-- The selector of a line (R354). -/
def selector (off : Nat) : Nat := (bits off 10 8) ^^^ (bits off 13 11)

/-- The plane of a line. -/
def State.planeOf (s : State) (off : Nat) : Nat :=
  (s.planemap.toNat >>> (3 * selector off)) % 8

/-- Is the injection of a selector's requests stopped, because one is outstanding on another plane than its own (R355)? -/
def State.selectorHeld (s : State) (off : Nat) : Bool :=
  s.requests.any fun r => decide (selector r.packet.off = selector off) && (decide (r.packet.plane ≠ s.planeOf off) || r.nacked)

/-- Do the units but for the Bursar, the links and the counters stand still: off, clock-gated or in standby (R383)? [DEDUCED: log 74] -/
def State.unitsOff (s : State) : Bool := s.power == .p1 || s.power == .p3 || s.power == .p4 || !s.powered

/-- Are the endpoints and memory ports stopped (R366, R383)? -/
def State.portsOff (s : State) : Bool := s.deepHalt || s.unitsOff

/-- BANK of a packet that is sent on a plane now (R362). -/
def State.bankFlag (s : State) (plane : Nat) : BitVec 8 := if (s.routes.getD plane {}).current then 2#8 else 0

/-- CONF of the object of a packet, and BANK of the plane (R359, R362). -/
def State.packetFlags (s : State) (p : Packet) (plane : Nat) : BitVec 8 :=
  let conf : Bool := match s.ctx? p.ctx with
    | some c => ((s.object? c p.obj).map (·.conf)).getD false
    | none => false
  (if conf then 1#8 else 0) ||| s.bankFlag plane

/-- The number by which a unit other than a core stands in requests and records (R244). -/
def unitCore : Nat := 0xFF

/-- Requests on their way on a plane that take one of the 512 response slots that no core owns: those of the device's units and of a PLACE's D
passes (R361). [DESIGN CHOICE: log 70] -/
def State.sharedSlots (s : State) (plane : Nat) : Nat := (s.requests.filter fun r => r.shared && !r.nacked && r.packet.plane == plane).length

/-- Requests on their way on a plane that take one of the 8 response slots of a core there (R361). -/
def State.coreSlots (s : State) (core plane : Nat) : Nat :=
  (s.requests.filter fun r => r.core == core && !r.shared && !r.nacked && r.packet.plane == plane).length

/-- Sends a packet that will be answered; it is held back while its selector's injection is stopped, and a unit's or a D pass's while none of
the 512 slots is free (R361). Answers plane and tag. [DESIGN CHOICE: log 70] -/
def State.inject (s : State) (core id : Nat) (p : Packet) (shared : Bool := core == unitCore) : State × Nat × Word :=
  let plane := s.planeOf p.off
  let tag := s.nextTags.getD plane 0
  let held : Bool := s.selectorHeld p.off || (shared && decide (512 ≤ s.sharedSlots plane))
  let p := { p with src := s.device, tag, plane, flags := s.packetFlags p plane }
  ({ s with nextTags := s.nextTags.set plane (tag + 1), outbox := if held then s.outbox else s.outbox ++ [p]
            requests := s.requests ++ [{ packet := p, plane, core, id, nacked := held, shared }] }, plane, tag)

/-- Sends a request for a core, once it holds fewer than 8 of its response slots on the plane. Answers the plane and tag. [DESIGN CHOICE: log 70] -/
def State.sendRequest (s : State) (core id : Nat) (p : Packet) : Option (State × Nat × Word) :=
  let plane := s.planeOf p.off
  if s.portsOff ∨ 8 ≤ (s.requests.filter fun r => r.core == core && !r.shared && r.packet.plane == plane).length then none
  else some (s.inject core id p)

/-! ### Requests of the distributor and the Bursar -/

/-- Number under which the bytes of an object of a context that a unit has asked a peer for are known: above those of instructions. -/
def unitId (ctx obj : Nat) : Nat := 2 ^ 96 + ctx * 2 ^ 24 + obj

/-- A request of a unit. -/
def State.unitSend (s : State) (id : Nat) (p : Packet) : State := (s.inject unitCore id p).1

/-- A write of a unit at a peer, line by line. What the unit holds of the line follows the write; `unitForget` ends that. -/
def State.unitPut (s : State) (ctx obj dev : Nat) : Nat → Nat → List Byte → State
  | 0, _, _ => s
  | fuel + 1, off, bs =>
    let k := min bs.length (256 - off % 256)
    let p : Packet := { kind := 2, flags := 0, dst := dev, src := 0, ctx, obj, off, tag := 0, op := 0, group := 0, plane := 0, length := k, data := bs.take k }
    let keep : PeerBytes → PeerBytes := fun x =>
      if x.id = unitId ctx obj ∧ x.off = off / 256 * 256 ∧ x.bytes ≠ [] then { x with bytes := putBytes x.bytes (off % 256) (bs.take k) } else x
    let t := { s with fetched := s.fetched.map keep }.unitSend s.nextId p
    let t := { t with nextId := t.nextId + 1 }
    if k = bs.length then t else t.unitPut ctx obj dev fuel (off + k) (bs.drop k)

/-- Has a unit a line of a peer, or is its answer on the way, or can it not ask now? -/
def State.unitAsked (s : State) (ctx obj line : Nat) : Bool :=
  (s.fetched.any fun x => x.id == unitId ctx obj && x.off == line)
    || (s.requests.any fun r => r.core == unitCore && r.id == unitId ctx obj && r.packet.off == line) || s.portsOff

/-- A unit asks a peer for a line, unless it has it or its answer is on the way. -/
def State.unitAsk (s : State) (ctx obj dev off : Nat) : State :=
  let line := off / 256 * 256
  if s.unitAsked ctx obj line then s
  else s.unitSend (unitId ctx obj)
    { kind := 1, flags := 0, dst := dev, src := 0, ctx, obj, off := line, tag := 0, op := 0, group := 0, plane := 0, length := 256, data := [] }

/-- Bytes that a unit has been sent by a peer: those of one line from an offset on, if it is there. -/
def State.unitLine (s : State) (ctx obj off n : Nat) : Option (List Byte) :=
  (s.fetched.find? fun x => x.id == unitId ctx obj && x.off == off / 256 * 256 && !x.bytes.isEmpty).map fun x => (x.bytes.drop (off % 256)).take n

/-- A unit has used what it was sent by peers of a context; the next time it reads again. -/
def State.unitForget (s : State) (ctx : Nat) : State :=
  { s with fetched := s.fetched.filter fun x => !(decide (unitId ctx 0 ≤ x.id) && decide (x.id < unitId (ctx + 1) 0)) }

end Sys2Proof.Machine
end

