-- ==== Sys2Proof/Machine/Views.lean ====
section
/-! DEFINITION. Views and pointers (R177, R313 to R318), the accesses of device memory that they lead to, and the copy a
dump makes at a first write (R379). -/

namespace Sys2Proof.Machine

/-! ### Pointers (R313) -/

def ptrIndex (p : BitVec 64) : Nat := (p.extractLsb' 44 20).toNat
def ptrGen (p : BitVec 64) : Nat := (p.extractLsb' 40 4).toNat
def ptrOffset (p : BitVec 64) : Nat := (p.extractLsb' 0 40).toNat
def mkPtr (index gen off : Nat) : BitVec 64 := BitVec.ofNat 64 (index * 2 ^ 44 + gen % 16 * 2 ^ 40 + off % 2 ^ 40)

/-! ### The view table (R315) -/

/-- States of an entry: 0 FREE, 1 POOLED, 2 LIVE, 3 RETIRED. -/
structure ViewEntry where
  obj    : Nat
  rights : BitVec 4
  held   : Bool
  gen    : Nat
  state  : Nat
  low    : Nat
  high   : Nat
  deriving DecidableEq, Repr

def Ctx.viewAddr (c : Ctx) (i : Nat) : PAddr := .vault c.quarter (c.viewTable + 32 * i)

/-- The entry that 32 bytes lay out. An empty view at 2^40 keeps bit 40 of its low bound. [DEDUCED: log 83] -/
def ViewEntry.ofBytes (bs : List Byte) : ViewEntry :=
  ⟨field bs 0 4 % 2 ^ 24, BitVec.ofNat 4 (field bs 4 1), field bs 5 1 == 1, field bs 6 1 % 16, field bs 7 1,
    field bs 8 8 % 2 ^ 41, field bs 16 8 % 2 ^ 41⟩

/-- An entry of a context's view table. One that others than the Teller have written holds a value it held or was given (R315).
[DESIGN CHOICE: log 84] -/
def State.viewEntry (s : State) (c : Ctx) (i : Nat) : ViewEntry :=
  let now := s.bytes (c.viewAddr i) 32
  if s.oldViews.isEmpty then .ofBytes now
  else
    let held := now :: (s.oldViews.filter fun v => v.1 == c.num && v.2.1 == i).map (·.2.2)
    .ofBytes (held.getD (Config.choose s.tick (2 ^ 52 + i) % held.length) now)

def ViewEntry.bytes (e : ViewEntry) : List Byte :=
  toLE 4 e.obj ++ toLE 1 e.rights.toNat ++ toLE 1 (if e.held then 1 else 0) ++ toLE 1 e.gen ++ toLE 1 e.state
    ++ toLE 8 e.low ++ toLE 8 e.high ++ zeros 8

/-- The Teller writes an entry. -/
def State.putView (s : State) (c : Ctx) (i : Nat) (e : ViewEntry) : State :=
  { s.write (c.viewAddr i) e.bytes with oldViews := s.oldViews.filter fun v => !(v.1 == c.num && v.2.1 == i) }

/-- An entry as a core caches it. -/
def ViewEntry.cached (e : ViewEntry) (ctx i : Nat) : CachedView :=
  ⟨ctx, i, e.state == 2, e.gen, e.obj, e.rights, e.held, e.low, e.high⟩

/-- The lowest-numbered FREE entry other than entry 0, from `i` on. -/
def State.freeView (s : State) (c : Ctx) : Nat → Nat → Option Nat
  | 0, _ => none
  | n + 1, i => if (s.viewEntry c i).state = 0 then some i else s.freeView c n (i + 1)
def State.anyFree (s : State) (c : Ctx) : Option Nat := s.freeView c (c.viewEntries - 1) 1

/-- A view no entry of the table holds. -/
def noView (ctx i : Nat) : CachedView := ⟨ctx, i, false, 0, 0, 0, false, 0, 0⟩

/-- The view a core holds for an index; an index beyond the table, and the null view, is never live. -/
def State.cachedView (s : State) (core ctx i : Nat) : Option CachedView :=
  match s.ctx? ctx with
  | some c =>
    if i = 0 ∨ c.viewEntries ≤ i then some (noView ctx i)
    else (s.core core).views.find? fun v => decide (v.ctx = ctx) && decide (v.index = i)
  | none => some (noView ctx i)

/-- What an operation that has been issued leaves of a core's copy of its view (R203, R205, R322). -/
def CachedView.after (v : CachedView) (o : ViewOp) : CachedView :=
  if v.ctx ≠ o.ctx ∨ v.index ≠ o.index ∨ v.gen ≠ o.gen then v
  else if o.drop then { v with live := false }
  else { v with low := max v.low o.low, high := max (max v.low o.low) (min v.high o.high), rights := v.rights &&& o.mask }

/-- An entry as a core holds it: after the operations of its own threads that have not reached the table yet, which it applied at
issue (R203, R318). -/
def State.copyFor (s : State) (core : Nat) (v : CachedView) : CachedView :=
  (s.viewOps.filter fun o => o.stage == 0 && (o.core == core || (s.block? o.tid.block).any fun b => b.core == core)).foldl CachedView.after v

/-- Fetches an entry into a core's view cache (R318); the oldest leaves when 512 are held. A poisoned entry is an uncorrectable error
in the context's tables (R246). -/
def State.fetchView (s : State) (core ctx i : Nat) : State :=
  match s.ctx? ctx with
  | some c =>
    if s.poisoned (c.viewAddr i) 32 then s.faultCtxBare ctx reasonInternal
    else
    let v := s.copyFor core ((s.viewEntry c i).cached ctx i)
    s.modCore core fun k => { k with views := v :: (k.views.filter fun x => !(decide (x.ctx = ctx) && decide (x.index = i))).take 511 }
  | none => s

/-- Changes the copy a core holds. -/
def State.setCached (s : State) (core : Nat) (v : CachedView) : State :=
  s.modCore core fun k => { k with views := k.views.map fun x => if x.ctx = v.ctx ∧ x.index = v.index then v else x }

/-! ### The check of R177 -/

/-- Rights (R315). -/
def rightR : BitVec 4 := 1
def rightW : BitVec 4 := 2
def rightA : BitVec 4 := 4
def rightD : BitVec 4 := 8

/-- Rank of the causes of R177, and of R178. -/
def accessRank (c : BitVec 6) : Nat :=
  if c = Cause.staleview then 0 else if c = Cause.align then 1 else if c = Cause.viewbound then 2 else 3

/-- The check of an access of `n` bytes through a pointer with a displacement, aligned to `al`, against a view. -/
def checkView (v : CachedView) (p : BitVec 64) (d : Int) (n al : Nat) (need : BitVec 4) : Except (BitVec 6) Nat :=
  let o : Int := (ptrOffset p : Int) + d
  if ptrIndex p = 0 ∨ v.live = false ∨ v.gen ≠ ptrGen p then .error Cause.staleview
  else if o % (al : Int) ≠ 0 then .error Cause.align
  else if o < v.low ∨ (v.high : Int) < o + n then .error Cause.viewbound
  else if v.rights &&& need ≠ need then .error Cause.rights
  else .ok o.toNat

/-- One access to check: thread, position, pointer, displacement, bytes, alignment, rights. -/
structure Want where
  th   : Thread
  slot : Nat
  p    : BitVec 64
  d    : Int := 0
  n    : Nat
  al   : Nat
  need : BitVec 4
  deriving DecidableEq, Repr

/-- An access that passed: its object and offset. -/
structure Got where
  th  : Thread
  obj : Nat
  off : Nat
  handle : Nat
  deriving DecidableEq, Repr

/-- How the checks of an instruction's accesses end. -/
inductive Checked where
  | ok (l : List Got)
  | trap (t : Trap)
  | wait (s : State)
  deriving DecidableEq, Repr

/-- The checks of all accesses of an instruction (R177, R179): a missing entry is fetched while the instruction waits;
then the first cause in the order of R177 that arises in any lane is taken. -/
def State.checkAll (s : State) (x : Exec) (ctx : Nat) (ws : List Want) : Checked :=
  match ws.find? fun w => (s.cachedView x.ig.core ctx (ptrIndex w.p)).isNone with
  | some w => .wait (s.fetchView x.ig.core ctx (ptrIndex w.p))
  | none =>
    let r := ws.map fun w =>
      let v := (s.cachedView x.ig.core ctx (ptrIndex w.p)).getD (noView ctx 0)
      (w, v, checkView v w.p w.d w.n w.al w.need)
    let bad := r.filterMap fun (w, _, e) => match e with
      | .error c => some (w, c)
      | .ok _ => none
    match minBy (fun p => accessRank p.2) bad with
    | some (w0, c) =>
      let hits := bad.filter fun p => decide (p.2 = c)
      let info : Thread → Word := fun th =>
        match hits.find? fun p => decide (p.1.th.tid = th.tid) with
        | some p => accessInfo true p.1.slot ((ptrOffset p.1.p : Int) + p.1.d)
        | none => match ws.find? fun w => decide (w.th.tid = th.tid) with
          | some w => accessInfo false w0.slot ((ptrOffset w.p : Int) + w.d)
          | none => accessInfo false w0.slot 0
      .trap { cause := c, infos := x.mem.map fun t => (t.tid, info t), hit := hits.map (·.1.th.tid.lane)
              offsets := ws.map fun w => (w.th.tid.lane, wrap 64 ((ptrOffset w.p : Int) + w.d)) }
    | none => .ok (r.filterMap fun (w, v, e) => match e with
        | .ok o => some ⟨w.th, v.obj, o, ptrIndex w.p⟩
        | .error _ => none)

/-- A local access to check (R178): thread, position, address, bytes, alignment, own block only. -/
structure WantLocal where
  th   : Thread
  slot : Nat
  a    : Int
  n    : Nat
  al   : Nat
  own  : Bool
  deriving DecidableEq, Repr

/-- The check of R178 on one address. -/
def State.checkLocal (s : State) (w : WantLocal) : Option (BitVec 6) :=
  if w.a % (w.al : Int) ≠ 0 then some Cause.align
  else match s.block? w.th.tid.block with
    | some b =>
      if w.a < 0 ∨ (clusterBytes : Int) < w.a + w.n then some Cause.viewbound
      else if (if w.own then b.ownsLocal w.a.toNat w.n else s.gangLocal b w.a.toNat w.n) then none else some Cause.viewbound
    | none => some Cause.viewbound

/-- The first trap among local accesses, in the order of causes of R177. -/
def State.localTrap (s : State) (x : Exec) (ws : List WantLocal) : Option Trap :=
  let bad := ws.filterMap fun w => (s.checkLocal w).map fun c => (w, c)
  match minBy (fun p => accessRank p.2) bad with
  | none => none
  | some (w0, c) =>
    let hits := bad.filter fun p => decide (p.2 = c)
    let info : Thread → Word := fun th =>
      match hits.find? fun p => decide (p.1.th.tid = th.tid) with
      | some p => accessInfo true p.1.slot p.1.a
      | none => match ws.find? fun w => decide (w.th.tid = th.tid) with
        | some w => accessInfo false w0.slot w.a
        | none => accessInfo false w0.slot 0
    some { cause := c, infos := x.mem.map fun t => (t.tid, info t), hit := hits.map (·.1.th.tid.lane) }

/-! ### Accesses of device memory by the device's units -/

/-- The view check that the distributor and the Bursar make straight against the table, at a displacement from a pointer (R177).
[DEDUCED: log 31] -/
def State.unitCheckAt (s : State) (c : Ctx) (p : BitVec 64) (d : Int) (n al : Nat) (need : BitVec 4) : Except (BitVec 6) (Nat × Nat) :=
  let v := if ptrIndex p = 0 ∨ c.viewEntries ≤ ptrIndex p then noView c.num 0
    else (s.viewEntry c (ptrIndex p)).cached c.num (ptrIndex p)
  match checkView v p d n al need with
  | .ok o => .ok (v.obj, o)
  | .error e => .error e

/-- The check of a pointer itself. [DEDUCED: log 31] -/
def State.unitCheck (s : State) (c : Ctx) (p : BitVec 64) (n al : Nat) (need : BitVec 4) : Except (BitVec 6) (Nat × Nat) := s.unitCheckAt c p 0 n al need

/-- A page is written for the first time after a dump (R379): its frame is copied into the copy space, and the leaf takes
the copy. Answers none when the copy space is exhausted. -/
def State.copyOnWrite (s : State) (c : Ctx) (obj : Nat) (l : Leaf) : Option State :=
  match c.dump with
  | none => some s
  | some d =>
    if d.armed = false ∨ d.copied.contains (obj, l.base) then some s
    else
      let start := (d.used + l.size - 1) / l.size * l.size
      if d.size < start + l.size then none
      else
        let o := s.object? c obj
        let frame := d.first + start
        let place : Nat → PAddr := fun a => if (o.map (·.home)).getD 0 = 1 then .pool a else .vault ((o.map (·.quarter)).getD 0) a
        let s := s.copyRun (place l.entry.frame) (place frame) l.size
        let s := s.putPte l (l.entry.set 2 frame true l.entry.expanded)
        some (s.modCtx c.num fun c => { c with dump := some { d with used := start + l.size, copied := (obj, l.base) :: d.copied } })

/-- What a write to a resident page does first: the copy of a dump, then DIRTY (R342). The place may have moved. -/
def State.beforeWrite (s : State) (c : Ctx) (obj off n : Nat) : Option (State × PAddr) :=
  match s.translate c obj off n with
  | .at_ _ l =>
    match s.copyOnWrite c obj l with
    | none => none
    | some s =>
      match s.translate c obj off n with
      | .at_ p l => some (if l.entry.dirty then s else s.putPte l (l.entry.set 2 l.entry.frame true l.entry.expanded), p)
      | _ => none
  | _ => none

/-- Reads bytes of device memory for a unit, page by page; those of a peer once they have been sent. -/
def State.unitReadFrom (s : State) (c : Ctx) (obj : Nat) : Nat → Nat → Nat → Option (List Byte)
  | 0, _, _ => none
  | fuel + 1, off, n =>
    match s.translate c obj off 1 with
    | .at_ p l =>
      let k := min n (l.base + l.size - off)
      if p.exists_ k = false then none
      else if k = n then some (s.bytes p n)
      else (s.unitReadFrom c obj fuel (off + k) (n - k)).map (s.bytes p k ++ ·)
    | .peer _ =>
      let k := min n (256 - off % 256)
      (s.unitLine c.num obj off k).bind fun bs => if k = n then some bs else (s.unitReadFrom c obj fuel (off + k) (n - k)).map (bs ++ ·)
    | _ => none

/-- Writes bytes of device memory for a unit, page by page; those of a peer are sent to it. -/
def State.unitWriteFrom (s : State) (c : Ctx) (obj : Nat) : Nat → Nat → List Byte → Option State
  | 0, _, _ => none
  | fuel + 1, off, bs =>
    match s.translate c obj off 1 with
    | .at_ _ l =>
      let k := min bs.length (l.base + l.size - off)
      match s.beforeWrite c obj off k with
      | some (t, p) =>
        let t := t.write p (bs.take k)
        if k = bs.length then some t else t.unitWriteFrom c obj fuel (off + k) (bs.drop k)
      | none => none
    | .peer d => if s.portsOff then none else some (s.unitPut c.num obj d (bs.length / 256 + 2) off bs)
    | _ => none

/-- Reads bytes of device memory for a unit; none while they cannot be reached. -/
def State.unitRead (s : State) (c : Ctx) (obj off n : Nat) : Option (List Byte) :=
  if s.vaultOff c obj then none else s.unitReadFrom c obj (n / 256 + 4) off n

/-- Writes bytes of device memory for a unit; none while they cannot be reached. -/
def State.unitWrite (s : State) (c : Ctx) (obj off : Nat) (bs : List Byte) : Option State :=
  if s.vaultOff c obj then none else s.unitWriteFrom c obj (bs.length / 4096 + 2) off bs

/-- Are the tables broken at some page of a range of an object (R246, R341, R342)? -/
def State.unitBad (s : State) (c : Ctx) (obj off n : Nat) : Bool :=
  (List.range ((off % 4096 + n + 4095) / 4096)).any fun k => s.translate c obj (off / 4096 * 4096 + 4096 * k) 1 == .bad

/-- A unit that cannot read bytes of a context waits: it asks a peer for the lines that it lacks; where the context's own tables are why,
the context faults (R246). -/
def State.unitWaits (s : State) (c : Ctx) (obj off n : Nat) : State :=
  if s.unitBad c obj off n then s.faultCtxBare c.num reasonInternal
  else (List.range ((off % 256 + n + 255) / 256)).foldl (fun (t : State) k =>
    let o := off / 256 * 256 + 256 * k
    match t.translate c obj o 1 with
    | .peer d => t.unitAsk c.num obj d o
    | _ => t) s

/-- The same for bytes that a pointer names. -/
def State.ptrWaits (s : State) (c : Ctx) (p : BitVec 64) (n : Nat) : State :=
  if s.poisoned (c.viewAddr (ptrIndex p)) 32 && decide (ptrIndex p < c.viewEntries) then s.faultCtxBare c.num reasonInternal
  else s.unitWaits c (s.viewEntry c (ptrIndex p)).obj (ptrOffset p) n

/-- Reads through a pointer. -/
def State.ptrRead (s : State) (c : Ctx) (p : BitVec 64) (n : Nat) : Option (List Byte) :=
  s.unitRead c (s.viewEntry c (ptrIndex p)).obj (ptrOffset p) n
/-- Writes through a pointer. -/
def State.ptrWrite (s : State) (c : Ctx) (p : BitVec 64) (bs : List Byte) : Option State :=
  s.unitWrite c (s.viewEntry c (ptrIndex p)).obj (ptrOffset p) bs

/-- The peer at which what a pointer names lies: device, object and offset. -/
def State.ptrPeer (s : State) (c : Ctx) (p : BitVec 64) : Option (Nat × Nat × Nat) :=
  match s.translate c (s.viewEntry c (ptrIndex p)).obj (ptrOffset p) 1 with
  | .peer d => some (d, (s.viewEntry c (ptrIndex p)).obj, ptrOffset p)
  | _ => none

/-- Moves a pointer by a number of bytes. -/
def ptrAdd (p : BitVec 64) (n : Nat) : BitVec 64 := mkPtr (ptrIndex p) (ptrGen p) (ptrOffset p + n)

/-- Has the context an object that is confidential (R387, R388)? -/
def State.confidential (s : State) (c : Ctx) : Bool :=
  (List.range c.objEntries).any fun i => match s.object? c i with
    | some o => o.conf
    | none => false

end Sys2Proof.Machine
end

