-- ==== Sys2Proof/Machine/Trace.lean ====
section
/-! DEFINITION. Logical names and trace records (R374, R375). -/

namespace Sys2Proof.Machine

/-- Ordinal of a counter in a list of first uses; 0 for none. -/
def ordinal (l : List (Nat × Nat)) (p : Option (Nat × Nat)) : Nat :=
  match p.bind fun a => findIdx? (fun x => x == a) l with
  | some i => i + 1
  | none => 0

/-- The logical name of a thread of a context, or of a whole home group (R374). -/
def State.nameIn (s : State) (ctx : Nat) (t : Tid) (whole : Bool) : List Byte :=
  let c := s.ctx? ctx
  let above := ((s.launchOf t.block).map (·.above)).getD (none, none, none)
  let o : (Ctx → List (Nat × Nat)) → Option (Nat × Nat) → Nat := fun f p => ordinal ((c.map f).getD []) p
  toLE 2 (o (·.jobs) above.2.2) ++ toLE 2 (o (·.phases) above.2.1) ++ toLE 2 (o (·.graphs) above.1)
    ++ toLE 2 (if whole then 0xFFFF else threadIndex t) ++ toLE 4 t.block.launch ++ toLE 4 t.block.index

/-- The logical name of a thread on a core. -/
def State.logicalName (s : State) (t : Tid) (whole : Bool) : List Byte := s.nameIn (s.ctxOf t.block) t whole

/-- The names that a dump gives the threads of a saved context, by block and thread (R374, R379). [DESIGN CHOICE: log 73] -/
def State.threadNames (s : State) (ctx : Nat) : List Byte :=
  (((s.kept.filter fun k => k.block.ctx == ctx).flatMap (·.threads)).filter fun t => decide (t.life = .live)).flatMap fun t => s.nameIn ctx t.tid false

/-- May the context be traced, sampled or dumped at the current debug level (R388)? [DEDUCED: log 72] -/
def State.observable (s : State) (c : Ctx) : Bool :=
  decide (s.debug ≠ .none) && !(decide (s.lifecycle = .production) && decide (s.debug = .observe) && s.confidential c)

/-- Writes the slots of a record from slot `i` of a ring. -/
def State.putSlots (s : State) (c : Ctx) (ring : BitVec 64) (entries : Nat) : Nat → List (List Byte) → State
  | _, [] => s
  | i, b :: bs => match s.ptrWrite c (ptrAdd ring (64 * (i % entries))) b with
    | some s => s.putSlots c ring entries (i + 1) bs
    | none => s.putSlots c ring entries (i + 1) bs

/-- Pads a record to whole 64-byte slots. -/
def slotsOf (r : List Byte) : List (List Byte) :=
  let n := (r.length + 63) / 64
  runsOf 64 n (r ++ zeros (64 * n - r.length))

/-- Writes a record to the context's trace ring, or counts it as dropped (R375). -/
def State.traceBytes (s : State) (ctx : Nat) (r : List Byte) : State :=
  match s.ctx? ctx with
  | none => s
  | some c => match c.traceRing with
    | none => s
    | some p =>
      if !s.observable c then s
      else match s.ptrRead c p 0x28 with
        | none => s
        | some cb =>
          let entries := c.traceAt.2
          let head := field cb 0x18 4
          let tail := field cb 0x1C 4
          let sl := slotsOf r
          if wrap 32 ((tail : Int) + sl.length - head) ≤ entries ∧ sl.length ≤ entries then
            let s := s.putSlots c c.traceAt.1 entries tail sl
            (s.ptrWrite c (ptrAdd p 0x1C) (toLE 4 (tail + sl.length))).getD s
          else
            let e := field cb 0x24 4
            (s.ptrWrite c (ptrAdd p 0x24) (toLE 4 (e / 65536 * 65536 + min (e % 65536 + 1) 65535))).getD s

/-- A record of a kind: 1 instruction, 2 stop, 3 sample, 4 call, 5 return. Its words byte counts to 255: of more extension words, which
128 lanes with two or three indexed operands would need, the first 255 stand. [DESIGN CHOICE: log 91] -/
def State.trace (s : State) (kind : Nat) (t : Tid) (whole : Bool) (pc : Word) (words : List Word) : State :=
  let ctx := s.ctxOf t.block
  let core := ((s.block? t.block).map (·.core)).getD 0xFF
  s.traceBytes ctx (toLE 1 kind ++ toLE 1 core ++ toLE 1 (min words.length 255) ++ toLE 1 0 ++ toLE 4 pc.toNat
    ++ s.logicalName t whole ++ toLE 8 (s.quarterClocks.getD (quarterOf core) 0)
    ++ (words.take 255).flatMap fun w => toLE 4 w.toNat)

/-- Does the operand's resolution fault in the lane? -/
def State.resolveFails (s : State) (th : Thread) (u : Use) : Bool :=
  match s.resolve th u with
  | .error _ => true
  | .ok _ => false

/-- The operands of an instruction, by what its lanes name: of an LXCH, each lane names one of two (R142). -/
def operandsOf (uses : Nat → List Use) : List Use := dedup (uses 0 ++ uses 127)

/-- Extension words of an instruction record (R375, R78), one for each active lane and indexed operand: HIT in the lanes that name the operand
and whose resolution of it faults. -/
def State.traceWords (s : State) (act : List Thread) (uses : Nat → List Use) : List Word :=
  [0, 1, 2].flatMap fun slot => ((operandsOf uses).filter fun u => decide (u.slot = slot) && isIdx u.op).flatMap fun u => act.map fun th =>
    s.boundInfo th u ((uses th.tid.lane).contains u && s.resolveFails th u)

end Sys2Proof.Machine
end

