-- ==== Sys2Proof/Machine/Issue.lean ====
section
/-! DEFINITION. Issuing an instruction: fetch (R81, R82), the checks in the order of R83, the guard (R84), waits and hints
(R90 to R94), and everything that issuing does beside the instruction's own effect. -/

namespace Sys2Proof.Machine

/-! ### Fetch (R81) -/

/-- What a fetch gives. -/
inductive Fetched where
  | word (w : IWord)
  | trap (c : BitVec 6) (info : Word)
  /-- The page of the code is not resident: the fragment waits. -/
  | absent
  deriving DecidableEq, Repr

/-- Values of a code word that writes have replaced while blocks of its launch were resident (R82). -/
def State.oldWords (s : State) (l : Launch) (off : Nat) : List Nat :=
  (s.oldCode.filter fun w => w.1 == l.num && w.2.1 == off).map (·.2.2.toNat)

/-- One 32-bit word of the code of a launch: what stands there, or a value from before a write that R82 forbids. [DESIGN CHOICE: log 55] -/
def State.codeWord (s : State) (l : Launch) (off : Nat) : Option Nat :=
  match s.ctx? l.ctx with
  | some c => (s.unitRead c l.obj (l.base + 64 + off) 4).map fun bs => match s.oldWords l off with
      | [] => ofLE bs
      | ws => (ofLE bs :: ws).getD (Config.choose s.tick (2 ^ 52 + off) % (ws.length + 1)) 0
  | none => none

/-- Fetches the 12 bytes at a PC (R81). [DESIGN CHOICE: log 55] -/
def State.fetch (s : State) (launch : Nat) (pc : Word) : Fetched :=
  match s.launch? launch with
  | none => .absent
  | some l =>
    if pc.toNat % 4 ≠ 0 then .trap Cause.align 0
    else if l.header.codeSize < pc.toNat + 12 then .trap Cause.illop pc
    else match s.codeWord l pc.toNat, s.codeWord l (pc.toNat + 4), s.codeWord l (pc.toNat + 8) with
      | some w0, some w1, some w2 => .word (ofWords (BitVec.ofNat 32 w2) (BitVec.ofNat 32 w1) (BitVec.ofNat 32 w0))
      | _, _, _ => .absent

/-! ### The guard (R84) -/

def State.guardHolds (s : State) (f : Insn) (th : Thread) : Bool :=
  s.pred th (f.guard.toNat % 8) != f.guard.getLsbD 3

/-- Threads of an issue group, ascending by lane. -/
def State.members (s : State) (ig : IssueGroup) : List Thread :=
  sortBy (fun t => t.tid.lane) (s.threads.filter fun t => ig.members.contains t.tid)

def State.activeOf (s : State) (f : Insn) (mem : List Thread) : List Thread := mem.filter (s.guardHolds f)

/-! ### Convergence (R279 to R281) -/

/-- How the convergence check ends. -/
inductive Conv where
  | proceed
  | hold
  | trap (t : Trap)
  deriving DecidableEq, Repr

/-- The TRAPINFO word of R281 in a lane. -/
def divergeInfo (lane : Nat) (div ex : List Nat) : Word :=
  let word : List Nat → Nat := fun ls =>
    ((List.range 16).filter fun i => ls.contains (16 * (lane % 8) + i)).foldl (fun a i => a + 2 ^ i) 0
  BitVec.ofNat 32 (word ex * 65536 + word div)

/-- The check of R280 against the home group of the issue group. -/
def State.convergence (s : State) (ig : IssueGroup) (mem : List Thread) (coll : Bool) : Conv :=
  match mem with
  | [] => .proceed
  | m :: _ =>
    let grp := s.groupThreads m.tid.block m.tid.group
    let missing := grp.filter fun t => t.alive && !(ig.members.contains t.tid)
    let exited := if coll then grp.filter fun t => !t.alive else []
    let div := missing.filter fun t => decide (t.pc ≠ ig.pc)
    if mem.any (fun t => decide (t.tid.block ≠ m.tid.block) || decide (t.tid.group ≠ m.tid.group)) then .hold
    else if !div.isEmpty || !exited.isEmpty then
      let d := div.map (·.tid.lane)
      let e := exited.map (·.tid.lane)
      .trap { cause := if coll then Cause.illconv else Cause.unifdiv
              infos := mem.map fun t => (t.tid, divergeInfo t.tid.lane d e), hit := d }
    else if !missing.isEmpty then .hold
    else .proceed

/-! ### Waits (R52, R55, R72, R90 to R92) -/

/-- DIST has elapsed for every member (R90). -/
def distOk (now : Nat) (f : Insn) (mem : List Thread) : Bool :=
  mem.all fun t => match t.lastIssue with
    | some n => decide (n + f.dist.toNat ≤ now)
    | none => true

/-- No flag of the WAIT mask is pending in these lanes (R55, R92). -/
def waitOk (f : Insn) (ths : List Thread) : Bool :=
  ths.all fun t => (List.range 12).all fun i => !(f.wait.getLsbD i && t.flag i)

/-- The flag of SETF. -/
def setfOf (f : Insn) : Option Nat := if f.setf.toNat < 12 then some f.setf.toNat else none

/-- SETF would make a 256th incomplete operation (R54). -/
def setfFull (f : Insn) (ths : List Thread) : Bool :=
  match setfOf f with
  | some n => ths.any fun t => decide (255 ≤ t.flags.getD n 0)
  | none => false

/-- Producers whose results do not land at a fixed latency (R51, R211): they take no write window (R73). -/
def variableResult : Instr → Bool
  | .ld _ | .ldl _ | .atom _ | .atoml _ | .accrd _ | .tld _ | .rowmax _ | .rowexp _ | .rowsc _ | .accdr _ | .statld _ => true
  | _ => false

/-- Range of vector registers an operand may reach in the lanes of one home group (R72). -/
def State.useRange (s : State) (lanes : List Thread) (u : Use) : Option (Nat × Nat) :=
  match u.op with
  | .vec r _ _ => some (r.toNat, r.toNat + u.regs)
  | .idx _ j _ _ _ =>
    let xs := lanes.map fun t => s.xreg t j.toNat
    match minBy id (xs.map xBase), maxBy id (xs.map fun x => xBase x + xBound x) with
    | some lo, some hi => some (lo, hi)
    | _, _ => none
  | _ => none

/-- Home groups of some threads, by block and index. -/
def groupsOf (ths : List Thread) : List (BlockKey × Nat) := dedup (ths.map fun t => (t.tid.block, t.tid.group))

/-- Does an occupied window of a group overlap a range? -/
def Group.windowHit (g : Group) (now lo hi : Nat) : Bool :=
  g.windows.any fun w => decide (now < w.due) && decide (w.lo < hi) && decide (lo < w.hi)

/-- The lane and the operand that a lane instruction reads for a lane (R141 to R146). -/
def State.laneRead (s : State) (i : Instr) (th : Thread) : Option (Tid × Use) :=
  match i with
  | .lxch f => let m := th.tid.lane ^^^ 2 ^ Forms.low3 f.mod
    some (sibling th m, lxchOwn f m)
  | .lshf f => some (sibling th (lshfSource (Forms.low3 f.mod) (s.src th f.opb 1 % 128) th.tid.lane), laneSrc f)
  | .lbcast f => some (sibling th (s.src th f.opb 1 % 128), laneSrc f)
  | .rdlane f => some (rdlaneSource th (s.src th f.opb 1), laneSrc f)
  | _ => none

/-- Is the operand read in source lanes alone? -/
def readAcross : Instr → Use → Bool
  | .lshf _, u | .lbcast _, u | .rdlane _, u => u.slot == 0
  | _, _ => false

/-- The registers of A that an MMA with a streamed W reads in a lane (R217): the run is as long as the uniform after the stream's place says. -/
def State.streamRun (s : State) (i : Instr) (th : Thread) : List Use :=
  match i with
  | .mma f => if Forms.hi2 f.mod = 0 ∧ Forms.w2 f.mod ≠ 0 then
      match f.opb with
      | .uni n _ => [⟨0, f.opa, 32 * mmaBytes f * ((s.ureg th (n.toNat + 2)).toNat % 128), true, false⟩]
      | _ => []
    else []
  | _ => []

/-- The accesses that the write windows are compared with (R72, R141): the home group whose table it is, the lane whose register is
meant, and the operand. -/
def State.windowUses (s : State) (i : Instr) (act : List Thread) : List ((BlockKey × Nat) × Thread × Use) :=
  let own := act.flatMap fun th => ((usesOf i th.tid.lane).filter fun u => !readAcross i u).map fun u =>
    ((th.tid.block, th.tid.group), th, u)
  let far := act.filterMap fun th => (s.laneRead i th).bind fun p => match s.thread? p.1 with
    | some t => some ((p.1.block, p.1.group), t, p.2)
    | none => if isIdx p.2.op then none else some ((p.1.block, p.1.group), th, p.2)
  own ++ far ++ (act.flatMap fun th => (s.streamRun i th).map fun u => ((th.tid.block, th.tid.group), th, u))

/-- Occupied windows of a group, oldest first. -/
def Group.openWindows (g : Group) (now : Nat) : List Window := g.windows.filter fun w => decide (now < w.due)

/-- Is the instruction's result in a lane a fixed-latency one: that of RDLANE, where the source lies in the lane's home group (R146)? -/
def State.fixedIn (s : State) (i : Instr) (th : Thread) : Bool :=
  match i with
  | .rdlane f => (rdlaneSource th (s.src th f.opb 1)).group == th.tid.group
  | _ => true

/-- Does the instruction take a write window in the lanes of a group (R72, R73)? -/
def State.takesWindow (s : State) (i : Instr) (lanes : List Thread) : Bool :=
  !variableResult i && lanes.any fun t => s.fixedIn i t && (usesOf i t.tid.lane).any fun u => u.wr && isIdx u.op

/-- No window is free for the instruction at a PC: all 4 are occupied, or were when it came, and the oldest of those still is (R72). -/
def Group.windowsFull (g : Group) (now : Nat) (pc : Word) : Bool :=
  decide (4 ≤ (g.openWindows now).length) || (match g.windowHold with
    | some (p, due) => p == pc && decide (now < due)
    | none => false)

/-- A write window holds the instruction (R72). -/
def State.windowWait (s : State) (i : Instr) (now : Nat) (act : List Thread) : Bool :=
  let us := s.windowUses i act
  (dedup (us.map fun v => (v.1, v.2.2))).any (fun v => match s.group? v.1.1 v.1.2 with
    | none => false
    | some g =>
      let lanes := (us.filter fun w => decide (w.1 = v.1) && decide (w.2.2.slot = v.2.slot)).map (·.2.1)
      match s.useRange lanes v.2 with
      | some (lo, hi) => g.windowHit now lo hi
      | none => false)
  || (groupsOf act).any fun (b, gi) => match s.group? b gi with
    | none => false
    | some g =>
      let lanes := act.filter fun t => decide (t.tid.block = b) && decide (t.tid.group = gi)
      s.takesWindow i lanes && g.windowsFull now ((lanes.map (·.pc)).headD 0)

/-- TRAPINFO of EMPTY in a lane without an empty register: the spec gives none, so the value is free (R52, R245). [DESIGN CHOICE: log 26] -/
def State.emptyInfo (s : State) (t : Tid) : Word := Config.freeWord s.tick (2 ^ 140 + tidCode t)

/-- Empty sources (R52): none, a wait, or the trap of an ETRAP operand, which comes first. It reports the first such operand of the
lowest lane that has one, and in each of its empty lanes the number of the operand's first register. [DESIGN CHOICE: log 26] -/
def State.emptyCheck (s : State) (i : Instr) (mem act : List Thread) : Option (Option Trap) :=
  let bad := act.flatMap fun t => ((usesOf i t.tid.lane).filter fun u => s.useEmpty t u).map fun u => (t, u)
  match bad.find? fun p => etrap p.2.op with
  | some (_, u0) =>
    let hits := bad.filter fun p => decide (p.2.slot = u0.slot)
    some (some { cause := Cause.empty
                 infos := mem.map fun t => (t.tid, match hits.find? fun p => decide (p.1.tid = t.tid) with
                   | some p => BitVec.ofNat 32 (s.regNo t p.2.op)
                   | none => s.emptyInfo t.tid)
                 hit := hits.map (·.1.tid.lane) })
  | none => if bad.isEmpty then none else some none

/-! ### Admission: steps 3 to 6 of R83 -/

/-- What the checks before the instruction itself decide. -/
inductive Admit where
  | go (act : List Thread)
  | trap (t : Trap)
  | wait
  deriving DecidableEq, Repr

/-- Steps 3 to 6 of R83 for a decoded instruction. -/
def State.checks (s : State) (ig : IssueGroup) (i : Instr) (f : Insn) : Admit :=
  let now := (s.core ig.core).clock
  let mem := s.members ig
  let act := s.activeOf f mem
  if !distOk now f mem then .wait
  else if act.isEmpty then if f.guard = 0xF ∧ waitOk f mem = false then .wait else .go []
  else if needsPrivilege i && !((s.ctx? (s.ctxOf ((act.map (·.tid.block)).headD ⟨0, 0⟩))).map (·.priv)).getD false then
    .trap { cause := Cause.priv }
  else match (if needsConvergence i f then s.convergence ig mem (isCollective i) else .proceed) with
    | .hold => .wait
    | .trap t => .trap t
    | .proceed => match s.boundTrap mem act (usesOf i) with
      | some t => .trap t
      | none =>
        if !waitOk f act || setfFull f act || s.windowWait i now act then .wait
        else match s.emptyCheck i mem act with
          | some (some t) => .trap t
          | some none => .wait
          | none => .go act

/-! ### Time (R71, R118, R277) -/

/-- Datapath cycles for each quarter-slot (R118, R150, R207, R214). [DESIGN CHOICE: log 79] -/
def slotCycles : Instr → Nat
  | .imul f | .imulh f | .imad f | .isad f => if Forms.ty f.mod = 2 ∨ Forms.ty f.mod = 3 then 2 else 1
  | .frcp _ | .frsq _ | .fexp2 _ | .flog2 _ | .fsqrt _ | .ftanh _ => 4
  | .lred _ => 2
  | _ => 1

/-- Cycles R71 adds in one quarter-slot. -/
def State.slotExtra (s : State) (i : Instr) (act : List Thread) (q : Nat) : Nat :=
  let lanes := act.filter fun t => decide (t.tid.lane / 32 = q)
  ([0, 1, 2].map fun slot =>
    (dedup (lanes.flatMap fun t => ((usesOf i t.tid.lane).filter fun u => decide (u.slot = slot) && isIdx u.op).map
      fun u => s.regNo t u.op)).length - 1).sum

/-- Largest addition over the quarter-slots. -/
def State.extraLatency (s : State) (i : Instr) (act : List Thread) : Nat :=
  ([0, 1, 2, 3].map (s.slotExtra i act)).foldl max 0

/-- Cycles the issue group occupies the datapath. [DESIGN CHOICE: log 79] -/
def State.occupancy (s : State) (i : Instr) (act : List Thread) : Nat :=
  max 1 (([0, 1, 2, 3].map fun q =>
    if act.any fun t => decide (t.tid.lane / 32 = q) then slotCycles i + s.slotExtra i act q else 0).sum)

/-! ### What issuing does -/

/-- Index registers an instruction writes as its destination (R68, R86). -/
def destXreg (f : Insn) : Option Nat :=
  match f.opd with
  | .xreg j _ => some j.toNat
  | _ => none

/-- The index registers of a lane after the post-increments of an instruction (R68 step 5), in the order OPA, OPB, OPD: each advances
the value that its operand was resolved with (R91). -/
def State.stepped (s : State) (i : Instr) (f : Insn) (th : Thread) : List (Tid × Nat × Word) :=
  (usesOf i th.tid.lane).foldl (fun l u => match u.op with
    | .idx _ j true _ _ =>
      if destXreg f = some j.toNat then l
      else (th.tid, j.toNat, xAdvance (((l.find? fun p => p.2.1 == j.toNat).map (·.2.2)).getD (s.xreg th j.toNat))) :: l
    | _ => l) []

/-- Writes the index registers that an instruction has advanced; of a register listed more than once the first entry is the last
value. [DESIGN CHOICE: log 13] -/
def postIncrement (steps : List (Tid × Nat × Word)) (th : Thread) : Thread :=
  { th with xs := (steps.filter fun p => decide (p.1 = th.tid)).foldr (fun p xs => xs.set p.2.1 p.2.2) th.xs }

/-- Instructions with a side effect, for the hang detector (R284). -/
def sideEffect : Instr → Bool
  | .st _ | .stl _ | .atom _ | .atoml _ | .red _ | .mcst _ | .redst _ | .tst _ | .statst _ | .optaw _ | .lscale _
  | .bararr _ | .gsync _ | .mbxputRsv _ | .mbxputPub _ | .mbxgetTake _ | .mbxgetRel _ | .exit _ | .yield _
  | .wload _ | .mma _ | .accdr _ | .accld _ | .place _ | .cpkick _ | .enq _ | .spawn _ | .cancel _ => true
  | _ => false

/-- Cycles without progress after which a group hangs (R284). -/
def hangLimit : Nat := 2 ^ 24

/-- The hang detector of a group that issues (R284); one that has reached its limit stands until its record is written. -/
def Group.noteIssue (g : Group) (side : Bool) (pc : Word) : Group :=
  if hangLimit ≤ g.hang then g
  else if side then { g with hang := 0, hangPcs := [] }
  else if g.hangPcs.contains pc then g
  else if 64 ≤ g.hangPcs.length then { g with hang := 0, hangPcs := [pc] }
  else { g with hang := 0, hangPcs := pc :: g.hangPcs }

/-- Takes write-window entries for a fixed-latency indexed destination (R72). -/
def State.takeWindows (s : State) (i : Instr) (act : List Thread) (due : Nat) : State :=
  if variableResult i then s
  else (groupsOf act).foldl (fun s (b, gi) =>
    let lanes := act.filter fun t => decide (t.tid.block = b) && decide (t.tid.group = gi)
    let ws := lanes.filterMap fun t => ((usesOf i t.tid.lane).find? fun u => u.wr && isIdx u.op).bind (s.useRange lanes)
    match minBy id (ws.map (·.1)), maxBy id (ws.map (·.2)) with
    | some lo, some hi => s.modGroup b gi fun g => { g with windows := g.windows ++ [⟨lo, hi, due⟩] }
    | _, _ => s) s

/-- A yield of threads (R155). -/
def State.yieldThreads (s : State) (ts : List Tid) : State := s.modThreads ts fun t => { t with yielded := some 0 }

/-- The marks that issuing leaves: distances, yields of the others, waiting times, the hang detector, the datapath and the
issue counts of the limiter. -/
def State.noteIssue (s : State) (x : Exec) (i : Instr) : State :=
  let s := s.modThreads x.ig.members fun t =>
    { t with lastIssue := some (x.now + x.extra), passBreak := false, waitSince := none, waitOver := false }
  let gs := groupsOf x.mem
  let wake : Thread → Thread := fun t =>
    if gs.contains (t.tid.block, t.tid.group) && !x.ig.members.contains t.tid then { t with yielded := none } else t
  let note : Group → Group := fun g =>
    if gs.contains (g.block, g.index) then
      { g.noteIssue (sideEffect i || x.f.yld) x.ig.pc with readySince := none, forced := false }
    else g
  let s := { s with threads := s.threads.map wake, groups := s.groups.map note }
  s.modCore x.ig.core fun c =>
    { c with freeAt := c.freeAt.set x.ig.sched (x.now + x.busy), issued := c.issued + 1 }

/-- Advances the PC of every member past the instruction. -/
def State.advance (s : State) (x : Exec) : State := s.modThreads x.ig.members fun t => { t with pc := x.ig.pc + 12 }

/-- The trace record of an instruction (R375), with its extension words. -/
def State.traceIssue (s : State) (words : List Word) (x : Exec) (i : Instr) : State :=
  match x.act with
  | [] => s
  | th :: _ =>
    let kind := match i with
      | .call _ => 4
      | .ret _ => 5
      | _ => 1
    s.trace kind th.tid true x.ig.pc words

/-- Has the instruction no register result: its predicate is pT, or it may name no destination and names none (R46, R93)? -/
def noResult (i : Instr) (f : Insn) : Bool :=
  let none_ : Bool := match f.opd with
    | .none => true
    | _ => false
  let pT : Bool := match f.opd with
    | .pred n _ => n == 7
    | _ => false
  match i with
  | .waitf _ | .bararr _ => none_ || pT
  | .fcmp _ => false
  | _ => pT

/-- When the operation completes under its flag: at issue where it has no register result (R93). -/
def completion (i : Instr) (f : Insn) : Completes → Completes
  | .at_ due => if noResult i f then .atIssue else .at_ due
  | c => c

/-- Everything after the instruction's own effect: PCs, post-increments, the flag, YLD, under which every thread of the issue group yields,
those in which the guard fails too (R94). [DEDUCED: log 92] -/
def State.finish (s : State) (x : Exec) (i : Instr) (c : Completes) (moved : Bool) : State :=
  let s := if moved then s else s.advance x
  let s := s.modThreads (x.act.map (·.tid)) (postIncrement x.steps)
  let s := match completion i x.f c with
    | .atIssue => s.complete (x.act.map (·.tid)) x.flag
    | .at_ due => x.act.foldl (fun s t => s.flagAt x.ig.core t.tid x.flag due) (s.takeWindows i x.act due)
    | .later => s
  if x.f.yld then s.yieldThreads x.ig.members else s

/-- An issue group that had to wait starts its waiting time again, so that it keeps no other candidate from issuing. -/
def State.restart (s : State) (ig : IssueGroup) : State :=
  let gs := groupsOf (s.members ig)
  let note : Group → Group := fun g => if gs.contains (g.block, g.index) then { g with readySince := none, forced := false } else g
  { s with groups := s.groups.map note }

/-- A wait leaves no flag pending for the instruction (R93). -/
def State.undoFlags (w : State) (x : Exec) : State := w.complete (x.act.map (·.tid)) x.flag

/-- The execution context of an admitted instruction. -/
def State.execAt (s : State) (ig : IssueGroup) (i : Instr) (f : Insn) (act : List Thread) : Exec :=
  ⟨ig, s.members ig, act, f, (s.core ig.core).clock, s.extraLatency i act, s.occupancy i act, act.flatMap (s.stepped i f), s.nextId, setfOf f⟩

/-- The context without the lanes that are blocked. -/
def State.without (s : State) (x : Exec) (i : Instr) (held : List Tid) : Exec :=
  let keep : Tid → Bool := fun t => !held.contains t
  let act := x.act.filter (fun t : Thread => keep t.tid)
  { x with
    ig := { x.ig with members := x.ig.members.filter keep }
    mem := x.mem.filter (fun t : Thread => keep t.tid)
    act := act
    extra := s.extraLatency i act
    busy := s.occupancy i act }

/-- What follows an instruction's own checks and effect. -/
def State.settleAct (s : State) (x : Exec) (i : Instr) : Act → State
  | .trap t => s.takeTrap x.ig t
  | .wait w => (w.undoFlags x).restart x.ig
  | .done t c moved => ((t.traceIssue (s.traceWords x.act (usesOf i)) x i).finish x i c moved).noteIssue x i
  | .held t c held =>
    let y := s.without x i held
    let t := t.complete held x.flag
    if y.mem.isEmpty then t else ((t.traceIssue (s.traceWords y.act (usesOf i)) y i).finish y i c false).noteIssue y i

/-- The state in which the instruction acts: its flag is pending in the active lanes, and its number is taken. -/
def State.begin (s : State) (x : Exec) : State :=
  State.fresh (match x.flag with
    | some n => s.modThreads (x.act.map (·.tid)) (·.flagUp n)
    | none => s) 1

/-- The trace record of an instruction one of whose indexed operands faults (R78, R375). R69 gives the fields of XBOUND and REGBOUND; a fault
ILLOP of an indexed operand (MODE 2 or 3) is recorded in the same layout. [DESIGN CHOICE: log 91] -/
def State.traceFault (s : State) (ig : IssueGroup) (i : Instr) (f : Insn) (t : Trap) : State :=
  let act := s.activeOf f (s.members ig)
  if (t.cause = Cause.xbound ∨ t.cause = Cause.regbound ∨ t.cause = Cause.illop) ∧ act.any (fun th => (usesOf i th.tid.lane).any fun u => isIdx u.op) then
    s.traceIssue (s.traceWords act (usesOf i)) (s.execAt ig i f act) i
  else s

/-- Issues an instruction of the word at the selected issue group: the checks of R83, then the instruction's own checks and
effect (`body`), then what issuing leaves behind. A trap changes nothing else; a wait leaves the threads where they are. -/
def issueWith (i : Instr) (f : Insn) (body : State → Exec → Act) (s : State) : Host.Outcome State Fault Refusal :=
  match s.issue with
  | none => conclude s
  | some ig =>
    let s := { s with issue := none }
    match s.checks ig i f with
    | .trap t => conclude ((s.traceFault ig i f t).takeTrap ig t)
    | .wait => conclude (s.restart ig)
    | .go act =>
      let x := s.execAt ig i f act
      if act.isEmpty then conclude ((s.finish x i .atIssue false).noteIssue x i)
      else conclude (s.settleAct x i (body (s.begin x) x))

end Sys2Proof.Machine
end

