-- ==== Sys2Proof/Machine/Integer.lean ====
section
/-! DEFINITION. Integer and logic instructions, opcodes 0x00 to 0x21 (R99, R117 to R129). -/

namespace Sys2Proof.Machine

/-! ### Types (R18, R96) -/

/-- Width of a type code. -/
def typeWidth (t : Nat) : Nat :=
  if t = 2 ∨ t = 3 then 64 else if t = 4 ∨ t = 5 then 16 else if t = 6 ∨ t = 7 then 8 else 32
/-- Signed type codes: .i32, .i64, .i16, .i8. -/
def typeSigned (t : Nat) : Bool := decide (t < 8) && t % 2 == 0
/-- Result latency of the 4-cycle and 6-cycle integer groups (R118). -/
def lat46 (f : Insn) : Nat := if modRegs f = 2 then 6 else 4
def lat68 (f : Insn) : Nat := if modRegs f = 2 then 8 else 6

/-- A value read as a w-bit integer of a type (R119). -/
def readInt (t v : Nat) : Int := if typeSigned t then sext (typeWidth t) v else ((v % 2 ^ typeWidth t : Nat) : Int)

/-- Ends of a type's range. -/
def typeMin (t : Nat) : Int := if typeSigned t then -(2 ^ (typeWidth t - 1)) else 0
def typeMax (t : Nat) : Int := if typeSigned t then 2 ^ (typeWidth t - 1) - 1 else 2 ^ typeWidth t - 1

/-- The nearest end of the type's range with .sat (R18). -/
def clampInt (t : Nat) (y : Int) : Int := if y < typeMin t then typeMin t else if typeMax t < y then typeMax t else y

/-- A result of a type as register bits (R23): narrow results are extended to 32 bits by their sign. -/
def writeInt (t : Nat) (y : Int) : Nat :=
  if typeWidth t = 64 then wrap 64 y else wrap 32 (readInt t (wrap (typeWidth t) y))

/-- An operand that may be a literal, as a number of the type: a literal of .i64 extends by its sign (R89). -/
def State.srcTyped (s : State) (th : Thread) (o : Operand) (t : Nat) : Nat :=
  match o with
  | .lit v => if t = 2 then wrap 64 v.toInt else v.toNat
  | o => s.src th o (typeRegs t)

/-- An arithmetic instruction (R119): exact, then clamped or wrapped. -/
def arith (f : Insn) (lat : Nat) (g : Int → Int → Int → Int) (s : State) (x : Exec) : Act :=
  let t := Forms.ty f.mod
  fixedResult s x (typeRegs t) lat fun th =>
    let y := g (readInt t (s.srcTyped th f.opa t)) (readInt t (s.src th f.opb (typeRegs t)))
      (readInt t (s.src th f.opd (typeRegs t)))
    writeInt t (if Forms.sat f.mod then clampInt t y else y)

/-! ### Moves and selection -/

/-- NOP (R99). -/
def execNop (f : Insn) (s : State) : Host.Outcome State Fault Refusal :=
  issueWith (.nop f) f (fun s _ => .done s .atIssue false) s

/-- A move of OPA to OPD (R121). -/
def moveResult (f : Insn) (s : State) (x : Exec) : Act :=
  fixedResult s x (modRegs f) (lat46 f) fun th => s.srcTyped th f.opa (Forms.ty f.mod)

/-- MOV (R121). -/
def execMov (f : Insn) (s : State) : Host.Outcome State Fault Refusal := issueWith (.mov f) f (moveResult f) s
/-- MOVL (R121). -/
def execMovl (f : Insn) (s : State) : Host.Outcome State Fault Refusal := issueWith (.movl f) f (moveResult f) s
/-- SEL (R121). -/
def execSel (f : Insn) (s : State) : Host.Outcome State Fault Refusal :=
  issueWith (.sel f) f (fun s x => fixedResult s x (modRegs f) (lat46 f) fun th =>
    if s.pred th (Forms.low3 f.mod) then s.src th f.opa (modRegs f) else s.src th f.opb (modRegs f)) s

/-! ### Arithmetic (R119, R120) -/

/-- IADD (R119). -/
def execIadd (f : Insn) (s : State) : Host.Outcome State Fault Refusal :=
  issueWith (.iadd f) f (arith f (lat46 f) fun a b _ => a + b) s
/-- ISUB (R119). -/
def execIsub (f : Insn) (s : State) : Host.Outcome State Fault Refusal :=
  issueWith (.isub f) f (arith f (lat46 f) fun a b _ => a - b) s
/-- IMUL (R119). -/
def execImul (f : Insn) (s : State) : Host.Outcome State Fault Refusal :=
  issueWith (.imul f) f (arith f (lat68 f) fun a b _ => a * b) s
/-- IMULH (R119): the high half of the product. -/
def execImulh (f : Insn) (s : State) : Host.Outcome State Fault Refusal :=
  issueWith (.imulh f) f (arith f (lat68 f) fun a b _ => (a * b) / ((2 ^ typeWidth (Forms.ty f.mod) : Nat) : Int)) s
/-- IMAD (R119). -/
def execImad (f : Insn) (s : State) : Host.Outcome State Fault Refusal :=
  issueWith (.imad f) f (arith f (lat68 f) fun a b c => a * b + c) s
/-- IMIN (R119). -/
def execImin (f : Insn) (s : State) : Host.Outcome State Fault Refusal :=
  issueWith (.imin f) f (arith f (lat46 f) fun a b _ => min a b) s
/-- IMAX (R119). -/
def execImax (f : Insn) (s : State) : Host.Outcome State Fault Refusal :=
  issueWith (.imax f) f (arith f (lat46 f) fun a b _ => max a b) s
/-- IABS (R119). -/
def execIabs (f : Insn) (s : State) : Host.Outcome State Fault Refusal :=
  issueWith (.iabs f) f (arith f (lat46 f) fun a _ _ => (a.natAbs : Int)) s
/-- INEG (R119). -/
def execIneg (f : Insn) (s : State) : Host.Outcome State Fault Refusal :=
  issueWith (.ineg f) f (arith f (lat46 f) fun a _ _ => -a) s
/-- ISAD (R119). -/
def execIsad (f : Insn) (s : State) : Host.Outcome State Fault Refusal :=
  issueWith (.isad f) f (arith f (lat68 f) fun a b c => ((a - b).natAbs : Int) + c) s

/-- The four byte products of IDOT4 (R120). -/
def dot4 (signed : Bool) (a b : Nat) : Int :=
  ([0, 1, 2, 3].map fun i =>
    let e : Nat → Int := fun v => if signed then sext 8 (v >>> (8 * i)) else (((v >>> (8 * i)) % 256 : Nat) : Int)
    e a * e b).foldl (· + ·) 0

/-- IDOT4 (R120): bytes signed with .i8, unsigned with .n8; sum in 32 bits. -/
def execIdot4 (f : Insn) (s : State) : Host.Outcome State Fault Refusal :=
  issueWith (.idot4 f) f (fun s x => fixedResult s x 1 6 fun th =>
    let sg := Forms.ty f.mod == 6
    let t := if sg then 0 else 1
    let y := readInt t (s.src th f.opd 1) + dot4 sg (s.src th f.opa 1) (s.src th f.opb 1)
    writeInt t (if Forms.sat f.mod then clampInt t y else y)) s

/-! ### Logic and bits (R122 to R129) -/

/-- A source of AND, OR and XOR: modifier 01 complements it (R117). -/
def State.srcLogic (s : State) (th : Thread) (o : Operand) (regs : Nat) : Nat :=
  let v := s.src th o regs % 2 ^ (32 * regs)
  if modOf o = 1 then 2 ^ (32 * regs) - 1 - v else v

/-- A bitwise instruction over w bits (R122). -/
def logic (f : Insn) (g : Nat → Nat → Nat) (s : State) (x : Exec) : Act :=
  fixedResult s x (modRegs f) (lat46 f) fun th => g (s.srcLogic th f.opa (modRegs f)) (s.srcLogic th f.opb (modRegs f))

/-- Complement over w bits. -/
def notBits (regs v : Nat) : Nat := 2 ^ (32 * regs) - 1 - v % 2 ^ (32 * regs)

/-- AND (R122). -/
def execAnd (f : Insn) (s : State) : Host.Outcome State Fault Refusal := issueWith (.and f) f (logic f (· &&& ·)) s
/-- OR (R122). -/
def execOr (f : Insn) (s : State) : Host.Outcome State Fault Refusal := issueWith (.or f) f (logic f (· ||| ·)) s
/-- XOR (R122). -/
def execXor (f : Insn) (s : State) : Host.Outcome State Fault Refusal := issueWith (.xor f) f (logic f (· ^^^ ·)) s
/-- ANDN (R122). -/
def execAndn (f : Insn) (s : State) : Host.Outcome State Fault Refusal :=
  issueWith (.andn f) f (logic f fun a b => a &&& notBits (modRegs f) b) s
/-- NOT (R122). -/
def execNot (f : Insn) (s : State) : Host.Outcome State Fault Refusal :=
  issueWith (.not f) f (logic f fun a _ => notBits (modRegs f) a) s

/-- A shift or rotation by the count in bits [7:0] of OPB (R123); `w` bits. -/
def shift (f : Insn) (g : Nat → Nat → Nat → Nat) (s : State) (x : Exec) : Act :=
  fixedResult s x (modRegs f) (lat46 f) fun th =>
    let w := 32 * modRegs f
    g w (s.src th f.opa (modRegs f) % 2 ^ w) (s.src th f.opb 1 % 256)

/-- SHL (R123). -/
def execShl (f : Insn) (s : State) : Host.Outcome State Fault Refusal :=
  issueWith (.shl f) f (shift f fun w a n => (a * 2 ^ n) % 2 ^ w) s
/-- SHR (R123). -/
def execShr (f : Insn) (s : State) : Host.Outcome State Fault Refusal :=
  issueWith (.shr f) f (shift f fun _ a n => a / 2 ^ n) s
/-- SAR (R123). -/
def execSar (f : Insn) (s : State) : Host.Outcome State Fault Refusal :=
  issueWith (.sar f) f (shift f fun w a n => wrap w (sext w a / ((2 ^ n : Nat) : Int))) s
/-- ROTL (R123). -/
def execRotl (f : Insn) (s : State) : Host.Outcome State Fault Refusal :=
  issueWith (.rotl f) f (shift f fun w a n => (a * 2 ^ (n % w)) % 2 ^ w + a / 2 ^ (w - n % w)) s

/-- Field position, length and upper end of BFX and BFI (R124). -/
def fieldEnds (b : Nat) : Nat × Nat × Nat := (b % 256, b / 256 % 256, min (b % 256 + b / 256 % 256) 32)

/-- BFX (R124). -/
def execBfx (f : Insn) (s : State) : Host.Outcome State Fault Refusal :=
  issueWith (.bfx f) f (fun s x => fixedResult s x 1 4 fun th =>
    let (pos, len, hi) := fieldEnds (s.src th f.opb 1)
    if len = 0 ∨ 32 ≤ pos then 0
    else
      let v := s.src th f.opa 1 % 2 ^ hi / 2 ^ pos
      if Forms.ty f.mod = 0 then wrap 32 (sext (hi - pos) v) else v) s
/-- BFI (R124). -/
def execBfi (f : Insn) (s : State) : Host.Outcome State Fault Refusal :=
  issueWith (.bfi f) f (fun s x => fixedResult s x 1 4 fun th =>
    let (pos, len, hi) := fieldEnds (s.src th f.opb 1)
    let d := s.src th f.opd 1
    if len = 0 ∨ 32 ≤ pos then d
    else d % 2 ^ pos + (s.src th f.opa 1 % 2 ^ (hi - pos)) * 2 ^ pos + d / 2 ^ hi * 2 ^ hi) s

/-- Number of 1 bits among the low `n`. -/
def countOnes (v : Nat) : Nat → Nat
  | 0 => 0
  | n + 1 => (if v.testBit n then 1 else 0) + countOnes v n
/-- Number of 0 bits above the highest 1 bit among the low `n`. -/
def leadingZeros (v : Nat) : Nat → Nat
  | 0 => 0
  | n + 1 => if v.testBit n then 0 else 1 + leadingZeros v n
/-- The low `n` bits reversed. -/
def reverseBits (v : Nat) : Nat → Nat
  | 0 => 0
  | n + 1 => (if v.testBit n then 1 else 0) + 2 * reverseBits v n

/-- POPC (R125). -/
def execPopc (f : Insn) (s : State) : Host.Outcome State Fault Refusal :=
  issueWith (.popc f) f (fun s x => fixedResult s x 1 (lat46 f) fun th =>
    countOnes (s.src th f.opa (modRegs f)) (32 * modRegs f)) s
/-- CLZ (R125). -/
def execClz (f : Insn) (s : State) : Host.Outcome State Fault Refusal :=
  issueWith (.clz f) f (fun s x => fixedResult s x 1 (lat46 f) fun th =>
    leadingZeros (s.src th f.opa (modRegs f)) (32 * modRegs f)) s
/-- BREV (R125). -/
def execBrev (f : Insn) (s : State) : Host.Outcome State Fault Refusal :=
  issueWith (.brev f) f (fun s x => fixedResult s x (modRegs f) (lat46 f) fun th =>
    reverseBits (s.src th f.opa (modRegs f)) (32 * modRegs f)) s

/-- A relation of ICMP by its code (R126). -/
def relation (c : Nat) (a b : Int) : Bool :=
  match c with
  | 0 => decide (a = b)
  | 1 => decide (a ≠ b)
  | 2 => decide (a < b)
  | 3 => decide (a ≤ b)
  | 4 => decide (b < a)
  | _ => decide (b ≤ a)

/-- Truth as a predicate (1 or 0) or as a register mask (all ones or 0), by the destination (R126). -/
def truth (f : Insn) (b : Bool) : Nat :=
  match f.opd with
  | .pred _ _ => if b then 1 else 0
  | _ => if b then 0xFFFFFFFF else 0

/-- ICMP (R126). -/
def execIcmp (f : Insn) (s : State) : Host.Outcome State Fault Refusal :=
  issueWith (.icmp f) f (fun s x =>
    let t := Forms.ty f.mod
    fixedResult s x 1 (lat46 f) fun th =>
      truth f (relation (Forms.low3 f.mod) (readInt t (s.src th f.opa (typeRegs t))) (readInt t (s.src th f.opb (typeRegs t))))) s

/-- LEA (R127). -/
def execLea (f : Insn) (s : State) : Host.Outcome State Fault Refusal :=
  issueWith (.lea f) f (fun s x => fixedResult s x 2 6 fun th =>
    wrap 64 ((s.src th f.opa 2 : Int) + readInt (Forms.ty f.mod) (s.src th f.opb 1) * 2 ^ Forms.low3 f.mod)) s

/-- One result byte of BPICK (R128). -/
def pickByte (a sel i : Nat) : Nat :=
  let c := sel >>> (4 * i)
  if c.testBit 3 then 0 else (a >>> (8 * (c % 8))) % 256

/-- BPICK (R128). -/
def execBpick (f : Insn) (s : State) : Host.Outcome State Fault Refusal :=
  issueWith (.bpick f) f (fun s x => fixedResult s x 1 4 fun th =>
    let a := s.src th f.opa 2
    let sel := s.src th f.opb 1
    pickByte a sel 0 + 2 ^ 8 * pickByte a sel 1 + 2 ^ 16 * pickByte a sel 2 + 2 ^ 24 * pickByte a sel 3) s

/-- Bits of BMIX from its function table (R122). -/
def mixBits (ft a b d : Nat) : Nat → Nat
  | 0 => 0
  | n + 1 =>
    let k := (if a.testBit n then 1 else 0) + (if b.testBit n then 2 else 0) + (if d.testBit n then 4 else 0)
    (if ft.testBit k then 2 ^ n else 0) + mixBits ft a b d n

/-- BMIX (R122). -/
def execBmix (f : Insn) (s : State) : Host.Outcome State Fault Refusal :=
  issueWith (.bmix f) f (fun s x => fixedResult s x 1 4 fun th =>
    mixBits f.mod.toNat (s.src th f.opa 1) (s.src th f.opb 1) (s.src th f.opd 1) 32) s

/-- PAR (R129): parity of a & b as 0 or 1. -/
def execPar (f : Insn) (s : State) : Host.Outcome State Fault Refusal :=
  issueWith (.par f) f (fun s x => fixedResult s x 1 (lat46 f) fun th =>
    countOnes (s.src th f.opa (modRegs f) &&& s.src th f.opb (modRegs f)) (32 * modRegs f) % 2) s

end Sys2Proof.Machine
end

