-- ==== Sys2Proof/Machine/Flags.lean ====
section
/-! DEFINITION. Floating formats, rounding and FPFLAGS (R19 to R31). -/

namespace Sys2Proof.Machine

/-! ### Formats (R19 to R21) -/

/-- A floating format: width, significand bits with the leading bit, exponent of the smallest normal, bits of the largest
finite value, of the canonical NaN, and of infinity where there is one (R24 to R26). -/
structure Fmt where
  width : Nat
  p     : Nat
  emin  : Int
  top   : Nat
  nan   : Nat
  inf   : Option Nat
  deriving DecidableEq, Repr

def fp32 : Fmt := ⟨32, 24, -126, 0x7F7FFFFF, 0x7FC00000, some 0x7F800000⟩
def bf16 : Fmt := ⟨16, 8, -126, 0x7F7F, 0x7FC0, some 0x7F80⟩
def f8 : Fmt := ⟨8, 4, -6, 0x7E, 0x7F, none⟩

/-- A decoded operand: a finite value is ±m·2^e. -/
inductive Fl where
  | nan (signalling : Bool)
  | inf (neg : Bool)
  | fin (neg : Bool) (m : Nat) (e : Int)
  deriving DecidableEq, Repr

/-- The sign of a bit pattern. -/
def Fmt.sign (F : Fmt) (b : Nat) : Bool := b.testBit (F.width - 1)
/-- Exponent of the last place of a subnormal. -/
def Fmt.ulp0 (F : Fmt) : Int := F.emin - F.p + 1

/-- Reads a bit pattern. -/
def Fmt.read (F : Fmt) (b : Nat) : Fl :=
  let a := b % 2 ^ (F.width - 1)
  if F.top < a then
    match F.inf with
    | some i => if a = i then .inf (F.sign b) else .nan (!(a.testBit (F.p - 2)))
    | none => .nan false
  else
    let e := a / 2 ^ (F.p - 1)
    let f := a % 2 ^ (F.p - 1)
    if e = 0 then .fin (F.sign b) f F.ulp0 else .fin (F.sign b) (2 ^ (F.p - 1) + f) (F.ulp0 + e - 1)

/-- A magnitude with a sign. -/
def Fmt.signed (F : Fmt) (neg : Bool) (a : Nat) : Nat := if neg then 2 ^ (F.width - 1) + a else a

/-! ### Flags (R28) -/

def flagNV : BitVec 5 := 1
def flagDZ : BitVec 5 := 2
def flagOF : BitVec 5 := 4
def flagUF : BitVec 5 := 8
def flagNX : BitVec 5 := 16

/-- A result and the flags it raises. -/
abbrev FpResult := Nat × BitVec 5

/-! ### Rounding (R25) -/

/-- Rounding codes: 0 .rn, 1 .rz, 2 .ru, 3 .rd, 4 .ro. The integer near lo + rem / den. -/
def roundAt (mode : Nat) (neg : Bool) (lo rem den : Nat) : Nat :=
  if rem = 0 then lo
  else if mode = 0 then (if den < 2 * rem ∨ (2 * rem = den ∧ lo % 2 = 1) then lo + 1 else lo)
  else if mode = 1 then lo
  else if mode = 2 then (if neg then lo else lo + 1)
  else if mode = 3 then (if neg then lo + 1 else lo)
  else (if lo % 2 = 1 then lo else lo + 1)

/-- m·2^e as a number of units of 2^q, rounded, and whether it is inexact. -/
def toUnits (mode : Nat) (neg : Bool) (m : Nat) (e q : Int) : Nat × Bool :=
  if q ≤ e then (m * 2 ^ (e - q).toNat, false)
  else
    let den := 2 ^ (q - e).toNat
    (roundAt mode neg (m / den) (m % den) den, m % den != 0)

/-- The result of an overflow (R26). -/
def Fmt.overflow (F : Fmt) (mode : Nat) (sat neg : Bool) : Nat :=
  if sat then F.signed neg F.top
  else match F.inf with
    | none => F.nan
    | some i =>
      if mode = 0 ∨ (mode = 2 ∧ neg = false) ∨ (mode = 3 ∧ neg = true) then F.signed neg i else F.signed neg F.top

/-- round_fmt of ±m·2^e, m not 0, with the flags of R26 and R27. -/
def Fmt.round (F : Fmt) (mode : Nat) (sat neg : Bool) (m : Nat) (e : Int) : FpResult :=
  let fl : Int := Nat.log2 m + e
  let ee := max fl F.emin
  let (n, nx) := toUnits mode neg m e (ee - F.p + 1)
  let a := (ee - F.emin).toNat * 2 ^ (F.p - 1) + n
  if F.top < a then (F.overflow mode sat neg, flagOF ||| flagNX)
  else
    let free := (toUnits mode neg m e (fl - F.p + 1)).1
    let tiny := fl < F.emin ∧ ¬(fl = F.emin - 1 ∧ free = 2 ^ F.p)
    (F.signed neg a, (if nx then flagNX else 0) ||| (if nx ∧ tiny then flagUF else 0))

/-- An infinite result that does not come from overflow (R26). [DEDUCED: log 87] -/
def Fmt.infinite (F : Fmt) (sat neg : Bool) : FpResult :=
  if sat then (F.signed neg F.top, flagNX)
  else match F.inf with
    | some i => (F.signed neg i, 0)
    | none => (F.nan, flagNV)

/-- A zero. -/
def Fmt.zero (F : Fmt) (neg : Bool) : FpResult := (F.signed neg 0, 0)

/-- Delivers an exact finite value ±m·2^e, zero keeping its sign. -/
def Fmt.deliver (F : Fmt) (mode : Nat) (sat neg : Bool) (m : Nat) (e : Int) : FpResult :=
  if m = 0 then F.zero neg else F.round mode sat neg m e

/-! ### Exact values -/

/-- ±m·2^e as an integer number of units of 2^q, q not above e. -/
def inUnits (neg : Bool) (m : Nat) (e q : Int) : Int :=
  let v : Int := (m * 2 ^ (e - q).toNat : Nat)
  if neg then -v else v

/-- The exact sum of two finite values, rounded; an exact zero of opposite signs is −0 in RD alone (R25). -/
def Fmt.sum (F : Fmt) (mode : Nat) (sat : Bool) (na : Bool) (ma : Nat) (ea : Int) (nb : Bool) (mb : Nat) (eb : Int) : FpResult :=
  if ma = 0 ∧ mb = 0 then F.zero (if na = nb then na else mode == 3)
  else
    let q := if ma = 0 then eb else if mb = 0 then ea else min ea eb
    let v := (if ma = 0 then 0 else inUnits na ma ea q) + (if mb = 0 then 0 else inUnits nb mb eb q)
    if v = 0 then F.zero (mode == 3) else F.round mode sat (decide (v < 0)) v.natAbs q

/-! ### Operations (R31, R130) -/

def Fl.isNan : Fl → Bool
  | .nan _ => true
  | _ => false
def Fl.isSnan : Fl → Bool
  | .nan s => s
  | _ => false
/-- The operand with its sign flipped. -/
def Fl.neg : Fl → Fl
  | .nan s => .nan s
  | .inf n => .inf (!n)
  | .fin n m e => .fin (!n) m e

/-- NV for signalling operands. -/
def snanFlag (l : List Fl) : BitVec 5 := if l.any Fl.isSnan then flagNV else 0

/-- a + b. -/
def Fmt.add (F : Fmt) (mode : Nat) (sat : Bool) (a b : Fl) : FpResult :=
  match a, b with
  | .fin na ma ea, .fin nb mb eb => F.sum mode sat na ma ea nb mb eb
  | .inf na, .inf nb => if na = nb then F.infinite sat na else (F.nan, flagNV)
  | .inf na, .fin .. => F.infinite sat na
  | .fin .., .inf nb => F.infinite sat nb
  | _, _ => (F.nan, snanFlag [a, b])

/-- a × b. -/
def Fmt.mul (F : Fmt) (mode : Nat) (sat : Bool) (a b : Fl) : FpResult :=
  match a, b with
  | .fin na ma ea, .fin nb mb eb => F.deliver mode sat (na != nb) (ma * mb) (ea + eb)
  | .inf na, .inf nb => F.infinite sat (na != nb)
  | .inf na, .fin nb mb _ => if mb = 0 then (F.nan, flagNV) else F.infinite sat (na != nb)
  | .fin na ma _, .inf nb => if ma = 0 then (F.nan, flagNV) else F.infinite sat (na != nb)
  | _, _ => (F.nan, snanFlag [a, b])

/-- The exact product of two operands that are not NaN; none for 0 × infinity. -/
def Fl.times (a b : Fl) : Option Fl :=
  match a, b with
  | .fin na ma ea, .fin nb mb eb => some (.fin (na != nb) (ma * mb) (ea + eb))
  | .inf na, .inf nb => some (.inf (na != nb))
  | .inf na, .fin nb mb _ => if mb = 0 then none else some (.inf (na != nb))
  | .fin na ma _, .inf nb => if ma = 0 then none else some (.inf (na != nb))
  | _, _ => some (.nan false)

/-- a × b + c with one rounding; 0 × infinity raises NV even with a NaN c (R130). -/
def Fmt.fma (F : Fmt) (mode : Nat) (sat : Bool) (a b c : Fl) : FpResult :=
  match a.times b with
  | none => (F.nan, flagNV)
  | some p => if p.isNan || c.isNan then (F.nan, snanFlag [a, b, c]) else F.add mode sat p c

/-- Order of two operands that are not NaN: −1, 0 or 1; −0 equals +0. -/
def Fl.compare (a b : Fl) : Int :=
  match a, b with
  | .inf na, .inf nb => if na = nb then 0 else if na then -1 else 1
  | .inf na, _ => if na then -1 else 1
  | _, .inf nb => if nb then 1 else -1
  | .fin na ma ea, .fin nb mb eb =>
    let q := min ea eb
    let d := inUnits na ma ea q - inUnits nb mb eb q
    if d < 0 then -1 else if d = 0 then 0 else 1
  | _, _ => 0

/-- Is the operand −0, or any negative number? -/
def Fl.isNeg : Fl → Bool
  | .nan _ => false
  | .inf n => n
  | .fin n _ _ => n

/-- The smaller (or larger) of two operand patterns (R131). -/
def Fmt.pick (F : Fmt) (larger : Bool) (x y : Nat) : FpResult :=
  let a := F.read x
  let b := F.read y
  let fl := snanFlag [a, b]
  if a.isNan && b.isNan then (F.nan, fl)
  else if a.isNan then (y, fl)
  else if b.isNan then (x, fl)
  else
    let less := decide (a.compare b < 0) || (decide (a.compare b = 0) && a.isNeg && !b.isNeg)
    (if less != larger then x else y, 0)

/-- Relation codes of FCMP (R132). -/
def Fl.relation (code : Nat) (a b : Fl) : Bool :=
  if a.isNan || b.isNan then code == 1 || code == 6
  else
    let c := a.compare b
    match code with
    | 0 => decide (c = 0)
    | 1 => decide (c ≠ 0)
    | 2 => decide (c < 0)
    | 3 => decide (c ≤ 0)
    | 4 => decide (0 < c)
    | 5 => decide (0 ≤ c)
    | 6 => false
    | _ => true

/-- The mask of FCLASS (R134). -/
def Fmt.class (F : Fmt) (b : Nat) : Nat :=
  match F.read b with
  | .nan s => if s then 1 else 2
  | .inf n => if n then 4 else 0x200
  | .fin n m _ =>
    if m = 0 then (if n then 0x20 else 0x40)
    else if m < 2 ^ (F.p - 1) then (if n then 0x10 else 0x80)
    else (if n then 8 else 0x100)

/-- a × 2^n (R135); beyond ±600 every n over- or underflows alike. -/
def Fmt.scalb (F : Fmt) (mode : Nat) (sat : Bool) (a : Fl) (n : Int) : FpResult :=
  match a with
  | .nan s => (F.nan, if s then flagNV else 0)
  | .inf g => F.infinite sat g
  | .fin g m e => F.deliver mode sat g m (e + max (-600) (min 600 n))

/-- A value rounded to an integer: units of 1 and inexactness (R25 with q = 1). -/
def integral (mode : Nat) (neg : Bool) (m : Nat) (e : Int) : Nat × Bool := toUnits mode neg m e 0

/-- FRND (R136). -/
def Fmt.toIntegral (F : Fmt) (mode : Nat) (b : Nat) : FpResult :=
  match F.read b with
  | .nan s => (F.nan, if s then flagNV else 0)
  | .inf _ => (b % 2 ^ F.width, 0)
  | .fin g m e =>
    if m = 0 then (b % 2 ^ F.width, 0)
    else
      let (n, nx) := integral mode g m e
      ((F.deliver 1 false g n 0).1, if nx then flagNX else 0)

/-! ### Conversions (R29, R30) -/

/-- Floating to floating. -/
def Fmt.convert (F : Fmt) (mode : Nat) (sat : Bool) (a : Fl) : FpResult :=
  match a with
  | .nan s => (F.nan, if s then flagNV else 0)
  | .inf g => F.infinite sat g
  | .fin g m e => F.deliver mode sat g m e

/-- Integer to floating. -/
def Fmt.ofInt (F : Fmt) (mode : Nat) (sat : Bool) (v : Int) : FpResult := F.deliver mode sat (decide (v < 0)) v.natAbs 0

/-- Floating to an integer of a range, clamped. -/
def Fl.toInt (mode : Nat) (lo hi : Int) (a : Fl) : Int × BitVec 5 :=
  match a with
  | .nan _ => (0, flagNV)
  | .inf g => (if g then lo else hi, flagNV)
  | .fin g m e =>
    let (n, nx) := integral mode g m e
    let v : Int := if g then -(n : Int) else n
    if v < lo then (lo, flagNV) else if hi < v then (hi, flagNV) else (v, if nx then flagNX else 0)

/-! ### Operand modifiers and register halves (R117, R23) -/

/-- The sign code of a floating operand acting on the sign bit of a pattern. -/
def Fmt.modify (F : Fmt) (m : BitVec 2) (b : Nat) : Nat :=
  let a := b % 2 ^ F.width
  let mag := a % 2 ^ (F.width - 1)
  if m = 0 then a else if m = 1 then F.signed (!F.sign a) mag else if m = 2 then mag else F.signed true mag

/-- A short immediate as a floating value (R88). -/
def Fmt.imm (F : Fmt) (v : BitVec 15) : Nat :=
  if F.width = 32 then v.toNat * 2 ^ 17 else if F.width = 16 then v.toNat * 2 else v.toNat % 256

/-- A floating operand of a lane, read in a format with its modifier applied; `e` picks the element of a packed pair. -/
def State.srcFl (s : State) (th : Thread) (o : Operand) (F : Fmt) (e : Nat := 0) : Nat :=
  match o with
  | .imm v => F.imm v
  | o => F.modify (modOf o) (s.src th o 1 >>> (F.width * e))

/-! ### Writing FPFLAGS -/

/-- FPFLAGS of a thread as its instructions have left it, at issue. -/
def State.fpflagsOf (s : State) (th : Thread) : Word := s.readCell th.core (.fpflags th.tid) th.tid.lane

/-- Raises flags in one lane at a latency (R28, R118). -/
def State.raise (s : State) (x : Exec) (th : Thread) (fl : BitVec 5) (lat : Nat) : State :=
  if fl = 0 then s
  else s.setFlags x.ig.core th.tid (fl.setWidth 32) (x.due lat)

/-- A floating instruction: result and flags of every active lane. -/
def fpResult (s : State) (x : Exec) (regs lat : Nat) (val : Thread → FpResult) : Act :=
  let vs := x.act.map fun th => (th, val th)
  let s := s.putAll x regs lat (vs.map fun p => (p.1, p.2.1))
  let s := vs.foldl (fun s p => s.raise x p.1 p.2.2 lat) s
  .done s (.at_ (x.due lat)) false

end Sys2Proof.Machine
end

