-- ==== Sys2Proof/Machine/Special.lean ====
section
/-! DEFINITION. The special functions (R32 to R34), in fixed point with 64 fractional bits. -/

namespace Sys2Proof.Machine

/-! ### Constant tables of R33, in units of 2^−64 -/

/-- T[j] = near64(2^(j/64)). -/
def tableT : List Nat :=
  [0x10000000000000000, 0x102C9A3E778060EE7, 0x1059B0D31585743AE, 0x10874518759BC808C, 0x10B5586CF9890F62A, 0x10E3EC32D3D1A2020, 0x111301D0125B50A4F, 0x11429AAEA92DDFB34] ++
  [0x1172B83C7D517ADCE, 0x11A35BEB6FCB753CB, 0x11D4873168B9AA780, 0x12063B88628CD63B9, 0x12387A6E75623866C, 0x126B4565E27CDD258, 0x129E9DF51FDEE12C2, 0x12D285A6E4030B401] ++
  [0x1306FE0A31B7152DF, 0x133C08B26416FF4CA, 0x1371A7373AA9CAA71, 0x13A7DB34E59FF6EA2, 0x13DEA64C12342235B, 0x14160A21F72E29F84, 0x144E086061892D031, 0x1486A2B5C13CD013C] ++
  [0x14BFDAD5362A271D4, 0x14F9B2769D2CA6AD3, 0x15342B569D4F81DF1, 0x156F4736B527DA66F, 0x15AB07DD48542958D, 0x15E76F15AD21486EA, 0x16247EB03A5584B1F, 0x16623882552224912] ++
  [0x16A09E667F3BCC909, 0x16DFB23C651A2EF22, 0x171F75E8EC5F73DD2, 0x175FEB564267C8BF7, 0x17A11473EB0186D7D, 0x17E2F336CF4E62106, 0x182589994CCE128AD, 0x1868D99B4492EC80E] ++
  [0x18ACE5422AA0DB5BA, 0x18F1AE991577362BA, 0x193737B0CDC5E4F45, 0x197D829FDE4E4F8BA, 0x19C49182A3F0901C8, 0x1A0C667B5DE564B2A, 0x1A5503B23E255C8B4, 0x1A9E6B5579FDBF43F] ++
  [0x1AE89F995AD3AD5E8, 0x1B33A2B84F15FAF6C, 0x1B7F76F2FB5E46EAA, 0x1BCC1E904BC1D2248, 0x1C199BDD85529C222, 0x1C67F12E57D14B4A2, 0x1CB720DCEF9069150, 0x1D072D4A07897B8D1] ++
  [0x1D5818DCFBA48725E, 0x1DA9E603DB3285709, 0x1DFC97337B9B5EB97, 0x1E502EE78B3FF6274, 0x1EA4AFA2A490D9859, 0x1EFA1BEE615A27772, 0x1F50765B6E4540675, 0x1FA7C1819E90D82E9]

/-- c[k] = near64(ln(2)^k / k!), k from 1. -/
def tableC : List Nat :=
  [0xB17217F7D1CF79AC, 0x3D7F7BFF058B1D51, 0xE35846B82505FC6, 0x276556DF749CEE5, 0x5761FF9E299CC4, 0xA184897C363C4]

/-- L[j] = near64(log2(1 + j/64)). -/
def tableL : List Nat :=
  [0x0, 0x5B9E5A170B48A63, 0xB5D69BAC77EC399, 0x10EB389FA29F9AB4, 0x1663F6FAC913167D, 0x1BC84240ADABBA64, 0x2118B119B4F3C72C, 0x2655D3C4F15C343F] ++
  [0x2B803473F7AD0F3F, 0x309857A05E0765FC, 0x359EBC5B69D927E0, 0x3A93DC9864B2DF92, 0x3F782D7204D01447, 0x444C1F6B4C2DD72C, 0x49101EAC381CE609, 0x4DC4933A9337B366] ++
  [0x5269E12F346E2BF9, 0x570068E7EF5A1E7F, 0x5B8887367433795E, 0x6002958C587150CB, 0x646EEA247C5C22D3, 0x68CDD829FD814276, 0x6D1FAFDCE20A8290, 0x7164BEB4A56D59FA] ++
  [0x759D4F80CBA83BF9, 0x79C9AA879D534831, 0x7DEA15A32C1B3B38, 0x81FED45CBCCBF99D, 0x86082806B1D532C4, 0x8A064FD50F2A1CF1, 0x8DF988F4AE806F1E, 0x91E20EA1393E4040] ++
  [0x95C01A39FBD687A0, 0x9993E355A4E53643, 0x9D5D9FD5010B3666, 0xA11D83F4C3554B38, 0xA4D3C25E68DC57F2, 0xA8808C384547C6EF, 0xAC241134C4E99E1C, 0xAFBE7FA0F04D75C6] ++
  [0xB35004723C465E69, 0xB6D8CB53B0CA4ECC, 0xBA58FEB2703A9E37, 0xBDD0C7C9A817204F, 0xC1404EADF38396DF, 0xC4A7BA58377C5A03, 0xC80730B0001667F2, 0xCB5ED69565AFAF7F] ++
  [0xCEAECFEA80859B33, 0xD1F73F9C70C0F684, 0xD53847AC00A69BE7, 0xD8720935E6435EBD, 0xDBA4A47AA996D25A, 0xDED038E633F36DA9, 0xE1F4E5170D02A99B, 0xE512C6E54998B1B0] ++
  [0xE829FB693044B399, 0xEB3A9F01975077F2, 0xEE44CD59FFAB62F3, 0xF148A170700A00FE, 0xF446359B13539551, 0xF73DA38D9D4A83EB, 0xFA2F045E7832AA72, 0xFD1A708BBE119B15] ++
  [0x10000000000000000]

/-- INV[j] = near64(1 / (1 + j/64)). -/
def tableInv : List Nat :=
  [0x10000000000000000, 0xFC0FC0FC0FC0FC10, 0xF83E0F83E0F83E10, 0xF4898D5F85BB3950, 0xF0F0F0F0F0F0F0F1, 0xED7303B5CC0ED730, 0xEA0EA0EA0EA0EA0F, 0xE6C2B4481CD85689] ++
  [0xE38E38E38E38E38E, 0xE070381C0E070382, 0xDD67C8A60DD67C8A, 0xDA740DA740DA740E, 0xD79435E50D79435E, 0xD4C77B03531DEC0D, 0xD20D20D20D20D20D, 0xCF6474A8819EC8E9] ++
  [0xCCCCCCCCCCCCCCCD, 0xCA4587E6B74F0329, 0xC7CE0C7CE0C7CE0C, 0xC565C87B5F9D4D1C, 0xC30C30C30C30C30C, 0xC0C0C0C0C0C0C0C1, 0xBE82FA0BE82FA0BF, 0xBC52640BC52640BC] ++
  [0xBA2E8BA2E8BA2E8C, 0xB81702E05C0B8170, 0xB60B60B60B60B60B, 0xB40B40B40B40B40B, 0xB21642C8590B2164, 0xB02C0B02C0B02C0B, 0xAE4C415C9882B931, 0xAC7691840AC76918] ++
  [0xAAAAAAAAAAAAAAAB, 0xA8E83F5717C0A8E8, 0xA72F05397829CBC1, 0xA57EB50295FAD40A, 0xA3D70A3D70A3D70A, 0xA237C32B16CFD772, 0xA0A0A0A0A0A0A0A1, 0x9F1165E7254813E2] ++
  [0x9D89D89D89D89D8A, 0x9C09C09C09C09C0A, 0x9A90E7D95BC609A9, 0x991F1A515885FB37, 0x97B425ED097B425F, 0x964FDA6C0964FDA7, 0x94F2094F2094F209, 0x939A85C40939A85C] ++
  [0x9249249249249249, 0x90FDBC090FDBC091, 0x8FB823EE08FB823F, 0x8E78356D1408E783, 0x8D3DCB08D3DCB08D, 0x8C08C08C08C08C09, 0x8AD8F2FBA9386823, 0x89AE4089AE4089AE] ++
  [0x8888888888888889, 0x8767AB5F34E47EF1, 0x864B8A7DE6D1D608, 0x8534085340853408, 0x8421084210842108, 0x83126E978D4FDF3B, 0x8208208208208208, 0x8102040810204081] ++
  [0x8000000000000000]

/-- d[k] = near64((-1)^(k+1) / (k ln 2)), k from 1. -/
def tableD : List Int :=
  [0x171547652B82FE177, -0xB8AA3B295C17F0BC, 0x7B1C2770E80FF5D2, -0x5C551D94AE0BF85E, 0x49DDB143BE6FF9E5, -0x3D8E13B87407FAE9, 0x34C2EC54F5BDB27F, -0x2E2A8ECA5705FC2F] ++
  [0x2909627AF80551F1]

/-- KT = near64(2 / ln 2). -/
def constKt : Nat := 0x2E2A8ECA5705FC2EF
/-! ### Square roots -/

/-- The root of `v` by bits from `n` − 1 down. -/
def isqrtFrom (v : Nat) : Nat → Nat → Nat
  | 0, r => r
  | n + 1, r => if (r + 2 ^ n) * (r + 2 ^ n) ≤ v then isqrtFrom v n (r + 2 ^ n) else isqrtFrom v n r

/-- The integer square root of a value below 2^160. -/
def isqrt (v : Nat) : Nat := isqrtFrom v 80 0

/-- A truncated value with a last bit that says whether anything was cut off: it rounds as the exact value does. -/
def sticky (n : Nat) (cut : Bool) : Nat := 2 * n + (if cut then 1 else 0)

/-- FRCP (R32). -/
def Fmt.rcp (F : Fmt) (mode : Nat) (sat : Bool) (a : Fl) : FpResult :=
  match a with
  | .nan s => (F.nan, if s then flagNV else 0)
  | .inf g => F.zero g
  | .fin g m e =>
    if m = 0 then
      let r := F.infinite sat g
      (r.1, r.2 ||| flagDZ)
    else
      let k := Nat.log2 m + 32
      F.round mode sat g (sticky (2 ^ k / m) (2 ^ k % m != 0)) (-(k : Int) - 1 - e)

/-- FSQRT (R32). -/
def Fmt.sqrt (F : Fmt) (mode : Nat) (a : Fl) : FpResult :=
  match a with
  | .nan s => (F.nan, if s then flagNV else 0)
  | .inf g => if g then (F.nan, flagNV) else F.infinite false false
  | .fin g m e =>
    if m = 0 then F.zero g
    else if g then (F.nan, flagNV)
    else
      let k : Nat := if e % 2 = 0 then 60 else 61
      let v := m * 2 ^ k
      let r := isqrt v
      F.round mode false false (sticky r (r * r != v)) ((e - k) / 2 - 1)

/-! ### The fixed algorithms (R33) -/

/-- fx of a product in units of 2^−64. -/
def fxMul (a b : Int) : Int := a * b / 2 ^ 64
/-- m·2^e in units of 2^−64, truncated towards minus infinity. -/
def fxOf (neg : Bool) (m : Nat) (e : Int) : Int :=
  let v : Int := if neg then -(m : Int) else m
  if 0 ≤ e + 64 then v * 2 ^ (e + 64).toNat else v / 2 ^ (-(e + 64)).toNat

/-- exp2_fixed: n and y. -/
def exp2Fixed (w : Int) : Int × Nat :=
  let f := (w % 2 ^ 64).toNat
  let j := f / 2 ^ 58
  let h := f % 2 ^ 58
  let step : Nat → Nat → Nat := fun pp k => pp * h / 2 ^ 64 + k
  let pp := (tableC.take 5).foldr (fun k pp => step pp k) (tableC.getD 5 0)
  (w / 2 ^ 64, tableT.getD j 0 * step pp (2 ^ 64) / 2 ^ 64)

/-- Is the rounded magnitude below the smallest normal (R27)? -/
def Fmt.tiny (F : Fmt) (m : Nat) (e : Int) : Bool :=
  let fl : Int := Nat.log2 m + e
  decide (fl < F.emin) && !(decide (fl = F.emin - 1) && (toUnits 0 false m e (fl - F.p + 1)).1 == 2 ^ F.p)

/-- A finite nonzero magnitude as a 24-bit significand and an exponent: m·2^e = M·2^(x − 23). -/
def normalise (m : Nat) (e : Int) : Nat × Int :=
  let l := Nat.log2 m
  (m * 2 ^ (23 - l), e + l)

/-- FRSQ (R33, R34). -/
def frsq (a : Fl) : FpResult :=
  match a with
  | .nan s => (fp32.nan, if s then flagNV else 0)
  | .inf g => if g then (fp32.nan, flagNV) else fp32.zero false
  | .fin g m e =>
    if m = 0 then ((fp32.infinite false g).1, flagDZ)
    else if g then (fp32.nan, flagNV)
    else
      let (sig, x) := normalise m e
      let odd := x % 2 != 0
      let sig2 := if odd then 2 * sig else sig
      let x2 := if odd then x - 1 else x
      let y := isqrt (2 ^ 151 / sig2)
      ((fp32.round 0 false false y (-64 - x2 / 2)).1, if sig = 2 ^ 23 ∧ odd = false then 0 else flagNX)

/-- FEXP2 (R33, R34). -/
def fexp2 (a : Fl) : FpResult :=
  match a with
  | .nan s => (fp32.nan, if s then flagNV else 0)
  | .inf g => if g then fp32.zero false else fp32.infinite false false
  | .fin g m e =>
    if m = 0 then (0x3F800000, 0)
    else if g = false ∧ 128 * 2 ^ 149 ≤ inUnits g m e (-149) then (0x7F800000, flagOF ||| flagNX)
    else if g = true ∧ inUnits g m e (-149) ≤ -(150 * 2 ^ 149) then (0, flagUF ||| flagNX)
    else
      let (n, y) := exp2Fixed (fxOf g m e)
      let r := fp32.round 0 false false y (n - 64)
      let whole := decide (inUnits g m e (-149) % 2 ^ 149 = 0)
      (r.1, if whole then 0 else flagNX ||| (if fp32.tiny y (n - 64) then flagUF else 0))

/-- FLOG2 (R33, R34). -/
def flog2 (a : Fl) : FpResult :=
  match a with
  | .nan s => (fp32.nan, if s then flagNV else 0)
  | .inf g => if g then (fp32.nan, flagNV) else fp32.infinite false false
  | .fin g m e =>
    if m = 0 then (0xFF800000, flagDZ)
    else if g then (fp32.nan, flagNV)
    else
      let (sig, x) := normalise m e
      let j := (sig - 2 ^ 23 + 2 ^ 16) / 2 ^ 17
      let u : Int := (sig * tableInv.getD j 0 / 2 ^ 23 : Nat) - 2 ^ 64
      let pp := (tableD.take 8).foldr (fun k pp => fxMul pp u + k) (tableD.getD 8 0)
      let v : Int := x * 2 ^ 64 + (tableL.getD j 0 : Nat) + fxMul pp u
      ((fp32.deliver 0 false (decide (v < 0)) v.natAbs (-64)).1, if sig = 2 ^ 23 then 0 else flagNX)

/-- FTANH (R33, R34). -/
def ftanh (a : Fl) : FpResult :=
  match a with
  | .nan s => (fp32.nan, if s then flagNV else 0)
  | .inf g => (fp32.signed g 0x3F800000, 0)
  | .fin g m e =>
    if m = 0 then fp32.zero g
    else
      let mag := inUnits false m e (-149)
      if mag < 2 ^ 137 then ((fp32.deliver 0 false g m e).1, flagNX)
      else if 10 * 2 ^ 149 ≤ mag then (fp32.signed g 0x3F800000, flagNX)
      else
        let (n, y) := exp2Fixed (mag * constKt / 2 ^ 149)
        let big := y * 2 ^ n.toNat
        ((fp32.round 0 false g ((big - 2 ^ 64) * 2 ^ 64 / (big + 2 ^ 64)) (-64)).1, flagNX)

end Sys2Proof.Machine
end

