-- ==== Sys2Proof/Machine/Float.lean ====
section
/-! DEFINITION. Floating-point and conversion instructions, opcodes 0x40 to 0x53 (R117, R118, R130 to R138). -/

namespace Sys2Proof.Machine

/-- Rounding code of the floating family (R96). -/
def rnd (f : Insn) : Nat := Forms.low3 f.mod

/-- A decoded operand of a lane. -/
def State.fl (s : State) (th : Thread) (o : Operand) (F : Fmt) (e : Nat := 0) : Fl := F.read (s.srcFl th o F e)

/-- The addend read from OPD, as it is. -/
def State.addend (s : State) (th : Thread) (o : Operand) (F : Fmt) (e : Nat := 0) : Fl := F.read (s.src th o 1 >>> (F.width * e))

/-- A .f32 instruction of two operands. -/
def fp2 (f : Insn) (g : Fl → Fl → FpResult) (s : State) (x : Exec) : Act :=
  fpResult s x 1 6 fun th => g (s.fl th f.opa fp32) (s.fl th f.opb fp32)

/-- A .f32 instruction of one operand. -/
def fp1 (f : Insn) (lat : Nat) (g : Fl → FpResult) (s : State) (x : Exec) : Act :=
  fpResult s x 1 lat fun th => g (s.fl th f.opa fp32)

/-- FADD (R130). -/
def execFadd (f : Insn) (s : State) : Host.Outcome State Fault Refusal :=
  issueWith (.fadd f) f (fp2 f (fp32.add (rnd f) (Forms.sat f.mod))) s
/-- FSUB (R130). -/
def execFsub (f : Insn) (s : State) : Host.Outcome State Fault Refusal :=
  issueWith (.fsub f) f (fp2 f fun a b => fp32.add (rnd f) (Forms.sat f.mod) a b.neg) s
/-- FMUL (R130). -/
def execFmul (f : Insn) (s : State) : Host.Outcome State Fault Refusal :=
  issueWith (.fmul f) f (fp2 f (fp32.mul (rnd f) (Forms.sat f.mod))) s
/-- FFMA (R130). -/
def execFfma (f : Insn) (s : State) : Host.Outcome State Fault Refusal :=
  issueWith (.ffma f) f (fun s x => fpResult s x 1 6 fun th =>
    fp32.fma (rnd f) (Forms.sat f.mod) (s.fl th f.opa fp32) (s.fl th f.opb fp32) (s.addend th f.opd fp32)) s

/-- FMIN (R131). -/
def execFmin (f : Insn) (s : State) : Host.Outcome State Fault Refusal :=
  issueWith (.fmin f) f (fun s x => fpResult s x 1 6 fun th =>
    fp32.pick false (s.srcFl th f.opa fp32) (s.srcFl th f.opb fp32)) s
/-- FMAX (R131). -/
def execFmax (f : Insn) (s : State) : Host.Outcome State Fault Refusal :=
  issueWith (.fmax f) f (fun s x => fpResult s x 1 6 fun th =>
    fp32.pick true (s.srcFl th f.opa fp32) (s.srcFl th f.opb fp32)) s

/-- The floating format of a type code. -/
def fmtOf (t : Nat) : Fmt := if t = 10 then bf16 else if t = 11 then f8 else fp32

/-- FCMP (R132). -/
def execFcmp (f : Insn) (s : State) : Host.Outcome State Fault Refusal :=
  issueWith (.fcmp f) f (fun s x => fpResult s x 1 6 fun th =>
    let F := fmtOf (Forms.ty f.mod)
    let a := s.fl th f.opa F
    let b := s.fl th f.opb F
    (truth f (a.relation (rnd f) b), snanFlag [a, b])) s

/-- FRCP (R32, R133). -/
def execFrcp (f : Insn) (s : State) : Host.Outcome State Fault Refusal :=
  issueWith (.frcp f) f (fp1 f 12 (fp32.rcp (rnd f) (Forms.sat f.mod))) s
/-- FRSQ (R33, R133). -/
def execFrsq (f : Insn) (s : State) : Host.Outcome State Fault Refusal := issueWith (.frsq f) f (fp1 f 12 frsq) s
/-- FSQRT (R32, R133). -/
def execFsqrt (f : Insn) (s : State) : Host.Outcome State Fault Refusal :=
  issueWith (.fsqrt f) f (fp1 f 16 (fp32.sqrt (rnd f))) s
/-- FEXP2 (R33, R133). -/
def execFexp2 (f : Insn) (s : State) : Host.Outcome State Fault Refusal := issueWith (.fexp2 f) f (fp1 f 14 fexp2) s
/-- FLOG2 (R33, R133). -/
def execFlog2 (f : Insn) (s : State) : Host.Outcome State Fault Refusal := issueWith (.flog2 f) f (fp1 f 14 flog2) s
/-- FTANH (R33, R133). -/
def execFtanh (f : Insn) (s : State) : Host.Outcome State Fault Refusal := issueWith (.ftanh f) f (fp1 f 18 ftanh) s

/-- FCLASS (R134): the mask, or 1 in a predicate when the mask meets OPB. -/
def execFclass (f : Insn) (s : State) : Host.Outcome State Fault Refusal :=
  issueWith (.fclass f) f (fun s x => fixedResult s x 1 6 fun th =>
    let F := fmtOf (Forms.ty f.mod)
    let m := F.class (s.srcFl th f.opa F)
    match f.opd with
    | .pred _ _ => if (m &&& s.src th f.opb 1) % 2 ^ 32 = 0 then 0 else 1
    | _ => m) s

/-- FSCALB (R135). -/
def execFscalb (f : Insn) (s : State) : Host.Outcome State Fault Refusal :=
  issueWith (.fscalb f) f (fun s x => fpResult s x 1 6 fun th =>
    fp32.scalb (rnd f) (Forms.sat f.mod) (s.fl th f.opa fp32) (sext 32 (s.src th f.opb 1))) s

/-- FRND (R136). -/
def execFrnd (f : Insn) (s : State) : Host.Outcome State Fault Refusal :=
  issueWith (.frnd f) f (fun s x => fpResult s x 1 6 fun th =>
    let F := fmtOf (Forms.ty f.mod)
    F.toIntegral (rnd f) (s.srcFl th f.opa F)) s

/-! ### Conversion (R137) -/

/-- An integer source value of a type. -/
def State.srcInt (s : State) (th : Thread) (o : Operand) (t : Nat) : Int := readInt t (s.srcTyped th o t)

/-- One conversion from type `a` to type `d`. -/
def State.convert (s : State) (th : Thread) (o : Operand) (a d mode : Nat) (sat : Bool) : FpResult :=
  if a < 8 then
    let v := s.srcInt th o a
    if d < 8 then (writeInt d (if sat then clampInt d v else v), 0) else (fmtOf d).ofInt mode sat v
  else
    let v := s.fl th o (fmtOf a)
    if d < 8 then
      let r := v.toInt mode (typeMin d) (typeMax d)
      (writeInt d r.1, r.2)
    else (fmtOf d).convert mode sat v

/-- CVT (R137). -/
def execCvt (f : Insn) (s : State) : Host.Outcome State Fault Refusal :=
  issueWith (.cvt f) f (fun s x =>
    let a := (Forms.immNat f.opb).getD 0
    let lat := if modRegs f = 2 ∨ typeRegs a = 2 then 8 else 6
    fpResult s x (modRegs f) lat fun th => s.convert th f.opa a (Forms.ty f.mod) (rnd f) (Forms.sat f.mod)) s

/-! ### Packed BF16 (R138) -/

/-- The two elements of a packed result. -/
def packed (g : Nat → FpResult) : FpResult := ((g 0).1 + 2 ^ 16 * (g 1).1, (g 0).2 ||| (g 1).2)

/-- BFMA2 (R138). -/
def execBfma2 (f : Insn) (s : State) : Host.Outcome State Fault Refusal :=
  issueWith (.bfma2 f) f (fun s x => fpResult s x 1 6 fun th => packed fun e =>
    bf16.fma (rnd f) (Forms.sat f.mod) (s.fl th f.opa bf16 e) (s.fl th f.opb bf16 e) (s.addend th f.opd bf16 e)) s
/-- BADD2 (R138). -/
def execBadd2 (f : Insn) (s : State) : Host.Outcome State Fault Refusal :=
  issueWith (.badd2 f) f (fun s x => fpResult s x 1 6 fun th => packed fun e =>
    bf16.add (rnd f) (Forms.sat f.mod) (s.fl th f.opa bf16 e) (s.fl th f.opb bf16 e)) s
/-- BMUL2 (R138). -/
def execBmul2 (f : Insn) (s : State) : Host.Outcome State Fault Refusal :=
  issueWith (.bmul2 f) f (fun s x => fpResult s x 1 6 fun th => packed fun e =>
    bf16.mul (rnd f) (Forms.sat f.mod) (s.fl th f.opa bf16 e) (s.fl th f.opb bf16 e)) s

end Sys2Proof.Machine
end

