-- ==== Sys2Proof/Machine/Access.lean ====
section
/-! DEFINITION. Accesses between issue and performing: what orders them (R181, R198 to R200, R298 to R307), the line
cache (R183), atomic operations (R190), faults of absent pages (R186, R187, R344, R345), poison (R188, R350), and requests
to a peer (R354, R356, R359, R361). -/

namespace Sys2Proof.Machine

/-! ### Kinds of access -/

def Access.is (a : Access) (l : List Nat) : Bool := l.contains a.opc.toNat
/-- FENCE or FENCEX. -/
def Access.isFence (a : Access) : Bool := a.is [0xAB, 0xAC]
/-- A multicast store. -/
def Access.isMulticast (a : Access) : Bool := a.is [0xA8, 0xA9]
/-- A thread's own access in program order; engine accesses and RDLANE are not (R308). -/
def Access.inOrder (a : Access) : Bool := a.is [0xA0, 0xA1, 0xA2, 0xA3, 0xA5, 0xA6, 0xA7, 0xA8, 0xA9, 0xDB, 0xDC, 0xE0, 0xE1, 0xE2, 0xE3]
/-- Behaves as a load at an absent page (R186, R191, R234, R236). -/
def Access.parks (a : Access) : Bool := a.is [0xA0, 0xA2, 0xA5, 0xA6, 0xDB, 0xE0, 0xE2, 0xE3]
def Access.reads (a : Access) : Bool := a.is [0xA0, 0xA2, 0xA5, 0xA6, 0xDB, 0xE0, 0xE2, 0xE3]
def Access.writes (a : Access) : Bool := a.is [0xA1, 0xA3, 0xA5, 0xA6, 0xA7, 0xA8, 0xA9, 0xDC, 0xE0, 0xE1, 0xE3]
def Access.isAtomic (a : Access) : Bool := a.is [0xA5, 0xA6, 0xA7, 0xE3]
def Access.order (a : Access) : Nat := Forms.order a.mod
/-- Scope code (R16): 0 .thr to 6 .sys. -/
def Access.scope (a : Access) : Nat :=
  if a.is [0x86, 0x96, 0xE0] then 4
  else if a.is [0xA0, 0xA5, 0xA6, 0xA7, 0xA8, 0xA9, 0xAB, 0xAC, 0xDB, 0xE2, 0xE3] then Forms.scope a.mod else 0
def Access.acquires (a : Access) : Bool := (a.is [0xA5, 0xA6, 0xAB] && a.order % 2 == 1) || a.is [0xAC]
def Access.releases (a : Access) : Bool := (a.is [0xA5, 0xA6, 0xA7, 0xA8, 0xA9, 0xAB] && decide (2 ≤ a.order)) || a.is [0x86, 0x96, 0xAC]

/-- Byte ranges an access touches: in cluster space or not, object, first offset, bytes. OPTAW touches three arrays it writes
and one it reads. -/
def Access.spans (a : Access) : List (Bool × Nat × Nat × Nat) :=
  if a.is [0xE0] then (List.range (min 4 (a.args.length / 2))).map fun i => (false, a.args.getD (2 * i) 0, a.args.getD (2 * i + 1) 0, 4)
  else [(a.inLocal, a.obj, a.off, a.bytes)]

/-- Do two accesses touch a common byte? -/
def Access.overlaps (a b : Access) : Bool :=
  a.spans.any fun p => b.spans.any fun q =>
    p.1 == q.1 && p.2.1 == q.2.1 && decide (p.2.2.1 < q.2.2.1 + q.2.2.2) && decide (q.2.2.1 < p.2.2.1 + p.2.2.2)

/-- Accesses of a core that are not performed yet. -/
def Core.outstanding (c : Core) : List Access :=
  c.accs ++ c.waits.map (·.acc) ++ c.retries.map (·.acc) ++ c.side.map (·.acc)

/-! ### What an access waits for -/

/-- Must `a` wait for the earlier access `b` of its core? Bytes in common (R181, R303), acquires and fences (R198), and
what a release or a fence orders. -/
def Access.waitsFor (a b : Access) : Bool :=
  if b.inst = a.inst then a.inOrder && b.inOrder && a.overlaps b && (a.writes || b.writes)
  else if b.tid ≠ a.tid then false
  else
    (a.inOrder && b.inOrder && a.overlaps b)
    || (b.isFence && b.scope != 0 && (b.acquires || (b.releases && (a.writes || a.releases))))
    || (b.isAtomic && b.acquires)
    || (a.releases && (b.inOrder || b.isFence))
    || (a.isFence && a.acquires && (b.reads || b.isAtomic))

/-- Is an entry that of a store, or of an atomic operation without a result? -/
def Entry.store (e : Entry) : Bool := decide (e.kind ≤ 2) && !e.acc.parks

/-- The stores of a block that are performed at block scope and not yet at their home, wherever they stand. [DESIGN CHOICE: log 34] -/
def Core.blockWrites (c : Core) (b : BlockKey) : List Access :=
  (c.accs.filter (·.atBlk) ++ ((c.side ++ c.waits ++ c.retries).filter (·.store)).map (·.acc)).filter fun a =>
    a.tid.block == b && a.writes && !a.inLocal && !a.isMulticast && a.part.isNone

/-- The numbers an access waits for at issue. A release at cluster scope or wider is performed after every store of its block that is
performed at block scope, since a barrier or a narrower release may have ordered it before (R300). [DESIGN CHOICE: log 34] -/
def Core.needsOf (c : Core) (a : Access) : List Nat :=
  (c.outstanding.filter (a.waitsFor ·)).map (·.id)
    ++ if a.releases && decide (3 ≤ a.scope) then (c.blockWrites a.tid.block).map (·.id) else []

/-- The stores that a later access meets under their page: those of the side log, and those that found it full (R187). -/
def Core.logged (c : Core) : List Entry := c.side ++ c.waits.filter (·.store)

/-- Must an access wait at the port behind a store to some of its bytes: one that the port retries or, for a store, one that stands in
the wait table? -/
def Core.portHolds (c : Core) (a : Access) : Bool :=
  ((if a.parks then [] else c.waits) ++ c.retries).any fun e => e.store && e.acc.id != a.id && a.overlaps e.acc

/-- Is an access `a` performed at its home, or does the core's store buffer suffice for it? -/
def Access.atHome (a : Access) : Bool := a.isAtomic || decide (3 ≤ a.scope)

/-- Is one needed number settled for `a`? A store in the store buffer is performed at block scope. An access meets a logged store to its
bytes itself, but a release waits until it has been performed (R187). -/
def Core.settled (c : Core) (a : Access) (n : Nat) : Bool :=
  match c.outstanding.find? fun b => b.id == n with
  | none => true
  | some b =>
    if c.logged.any fun e => e.acc.id == n then a.inOrder && !a.releases && a.overlaps b
    else b.atBlk && (if a.inOrder && a.overlaps b then !a.atHome else decide (a.scope ≤ 2))

/-- May the access be performed (at block scope, for a plain store)? -/
def Core.ready (c : Core) (a : Access) : Bool := a.needs.all (c.settled a)

/-- Stores of a core that its own threads see at block scope, in the order in which they were performed there. -/
def Core.buffered (c : Core) (obj : Nat) : List Access := c.accs.filter fun a => a.atBlk && a.obj == obj && !a.inLocal

/-- A buffered store of the core, of any thread, comes before the access at its home: it touches some of the same bytes (R298, R302). -/
def Core.bufferAhead (c : Core) (a : Access) : Bool := c.accs.any fun b => b.atBlk && !b.inLocal && b.id != a.id && a.overlaps b

/-- May a store leave the store buffer: no earlier access of its thread to its bytes, no earlier lane, and no store that the buffer
took before it, is outstanding? -/
def Core.readyHome (c : Core) (a : Access) : Bool :=
  !(c.outstanding.any fun b => decide (b.id < a.id) && b.inOrder && a.overlaps b && (b.tid == a.tid || b.inst == a.inst))
    && !((c.buffered a.obj).takeWhile fun b => b.id != a.id).any a.overlaps

/-- Takes an access up at issue, after the accesses it must wait for and those numbered in `after`. -/
def State.issueAfter (s : State) (core : Nat) (a : Access) (after : List Nat) : State :=
  let a := { a with id := s.nextId, needs := (s.core core).needsOf a ++ after }
  (s.modCore core fun c => { c with accs := c.accs ++ [a] }).fresh 1

/-- Is an access the first of its instruction to its line of device memory: a request of the core (R179, R380)? -/
def Core.newRequest (c : Core) (a : Access) : Bool :=
  !a.inLocal && a.is [0xA0, 0xA1, 0xA5, 0xA7, 0xDB, 0xDC, 0xE0, 0xE1, 0xE2, 0xE3]
    && !(c.accs.any fun b => b.inst == a.inst && !b.inLocal && b.obj == a.obj && b.off / 256 == a.off / 256)

/-- The core counts a request, and samples one in 2^k of them, by its context's k (R380). [DESIGN CHOICE: log 73] -/
def Core.count (c : Core) (k : Nat) (a : Access) : Core :=
  if c.newRequest a = false then c
  else
    let n := c.requested + 1
    { c with requested := n, samples := if k ≠ 0 ∧ n % 2 ^ k = 0 then c.samples ++ [⟨a.id, a.tid, a.obj, a.off, a.pc⟩] else c.samples }

/-- Takes an access up at issue. -/
def State.issueAccess (s : State) (core : Nat) (a : Access) : State :=
  let a := { a with id := s.nextId, needs := (s.core core).needsOf a }
  let k := ((s.ctx? (s.ctxOf a.tid.block)).map (·.sampling)).getD 0
  (s.modCore core fun c => { c.count k a with accs := c.accs ++ [a] }).fresh 1

/-- Removes an access from a core. -/
def State.dropAccess (s : State) (core id : Nat) : State :=
  s.modCore core fun c => { c with accs := c.accs.filter fun a => a.id != id }

/-- Replaces an access of a core. -/
def State.setAccess (s : State) (core : Nat) (a : Access) : State :=
  s.modCore core fun c => { c with accs := c.accs.map fun b => if b.id = a.id then a else b }

/-- An engine's instruction waits at issue for the accesses that happen before it and are still to be performed: every acquire of its
threads, wherever it waits, and their writes (R198, R308). [DESIGN CHOICE: log 34] -/
def State.engineWait (s : State) (core : Nat) (ts : List Tid) : Bool :=
  ((s.core core).outstanding.any fun a => ts.contains a.tid && a.acquires)
    || (s.core core).accs.any fun a => ts.contains a.tid && a.writes && !a.isMulticast && ((s.core core).ready a || a.inLocal)

/-- Is a write of the core, issued before an operation of an engine and to some of its bytes, still to be performed (R308)? [DESIGN CHOICE: log 34] -/
def State.owed (s : State) (core id : Nat) (local_ : Bool) (obj off n : Nat) : Bool :=
  let probe : Access := { id, inst := id, tid := ⟨⟨0, 0⟩, 0, 0⟩, opc := 0xA0, mod := 0, inLocal := local_, obj, off, bytes := n }
  ((s.core core).accs ++ ((s.core core).retries.filter (·.store)).map (·.acc)).any fun a => decide (a.id < id) && a.writes && a.overlaps probe

/-- The logged access of the core that bytes of an engine's operation overlap (R187, R308): whether it stands under a token,
and the first byte in common. [DESIGN CHOICE: log 34] -/
def State.sideBefore (s : State) (core id obj off n : Nat) : Option (Bool × Nat) :=
  let probe : Access := { id, inst := id, tid := ⟨⟨0, 0⟩, 0, 0⟩, opc := 0xA0, mod := 0, obj, off, bytes := n }
  ((s.core core).logged.find? fun e => e.op != id && e.acc.overlaps probe).map fun e => (match e.key with
    | .token _ => true
    | .page _ _ => false, max off e.acc.off)

/-! ### Caches of a core (R183, R235) -/

def Line.holds (l : Line) (ctx obj off : Nat) : Bool :=
  l.ctx == ctx && l.obj == obj && decide (l.base ≤ off) && decide (off < l.base + l.bytes.length)

/-- Bytes written by a store of the core, in a line. -/
def Line.update (ctx obj off : Nat) (bs : List Byte) (l : Line) : Line :=
  if l.ctx = ctx ∧ l.obj = obj then
    { l with bytes := (List.range l.bytes.length).map fun i =>
        if off ≤ l.base + i ∧ l.base + i < off + bs.length then bs.getD (l.base + i - off) 0 else l.bytes.getD i 0 }
  else l

/-- Does an access read a line of an object through the line cache, its answer being on the way from a peer? -/
def Access.awaits (a : Access) (obj off : Nat) : Bool := a.tag.isSome && a.is [0xA0, 0xAA, 0xDB] && a.obj == obj && a.off / 256 == off / 256

/-- Every store of the core updates the bytes that its line cache and its statistics buffer hold. A line that is on its way from a peer is
not kept. -/
def State.updateLines (s : State) (core ctx obj off : Nat) (bs : List Byte) : State :=
  s.modCore core fun c =>
    { c with lines := c.lines.map (Line.update ctx obj off bs), stats := c.stats.map (Line.update ctx obj off bs)
             accs := c.accs.map fun a => if a.awaits obj off then { a with noLine := true } else a }

/-- An acquire at .cls or wider marks every line stale; one that is on its way from a peer is not kept. -/
def State.staleLines (s : State) (core : Nat) : State :=
  s.modCore core fun c =>
    { c with lines := c.lines.map (fun l : Line => { l with stale := true }), stats := c.stats.map (fun l : Line => { l with stale := true })
             accs := c.accs.map fun a => if a.awaits a.obj a.off then { a with noLine := true } else a }

/-- Lines of 256 bytes in a line cache of 256 KiB (R10). -/
def lineCount : Nat := 1024

/-- Puts a line in the cache in place of its earlier copy. [DESIGN CHOICE: log 22] -/
def State.putLine (s : State) (core : Nat) (l : Line) : State :=
  s.modCore core fun c => { c with lines := l :: (c.lines.filter fun x => !(x.holds l.ctx l.obj l.base)).take (lineCount - 1) }

/-- A line leaves the cache: another copy has been read, and is not kept (R183). -/
def State.dropLine (s : State) (core ctx obj off : Nat) : State :=
  s.modCore core fun c => { c with lines := c.lines.filter fun x => !(x.holds ctx obj off) }

/-- Every core drops the lines of a page (R349). [DESIGN CHOICE: log 63] -/
def State.dropLines (s : State) (ctx obj base size : Nat) : State :=
  let keep : Line → Bool := fun l => !(l.ctx == ctx && l.obj == obj && decide (base < l.base + l.bytes.length) && decide (l.base < base + size))
  { s with cores := s.cores.map fun c : Core =>
      { c with lines := c.lines.filter keep, stats := c.stats.filter keep
               accs := c.accs.map fun a => if a.awaits obj a.off && decide (base ≤ a.off) && decide (a.off < base + size) then { a with noLine := true } else a } }

/-- Bytes of an offset with the buffered stores of the core laid over them. -/
def Core.overlay (c : Core) (obj off : Nat) (bs : List Byte) : List Byte :=
  (c.buffered obj).foldl (fun bs a => (List.range bs.length).map fun i =>
    if a.off ≤ off + i ∧ off + i < a.off + a.bytes then BitVec.ofNat 8 (a.data.toNat >>> (8 * (off + i - a.off)))
    else bs.getD i 0) bs

/-! ### Device memory at its home -/

/-- What a thread's or engine's access of device memory meets. -/
inductive Home where
  /-- Performed: the bytes read, and whether a word read is poisoned. -/
  | ok (s : State) (old : List Byte) (ue : Bool)
  /-- The page is POISONED (R350). -/
  | lost
  /-- Not possible now: under a token, or under its page; WHY. -/
  | absent (token : Bool) (why base : Nat)
  | peer (dev : Nat)
  /-- Broken tables (R341). -/
  | bad
  deriving DecidableEq, Repr

/-- Reads bytes at their home. -/
def State.homeRead (s : State) (c : Ctx) (obj off n : Nat) : Home :=
  match s.translate c obj off n with
  | .at_ p _ => .ok (s.touch p n) (s.bytes p n) (s.poisoned p n)
  | .peer d => .peer d
  | .absent base why => .absent false why base
  | .refused => .absent true 9 (s.pageOf c obj off).1
  | .poisoned _ => .lost
  | .bad => .bad

/-- Reads bytes at their home and writes what `g` makes of them, in one step; `g` answers none where nothing is written. -/
def State.homeWrite (s : State) (c : Ctx) (obj off n : Nat) (g : List Byte → Option (List Byte)) : Home :=
  match s.homeRead c obj off n with
  | .ok s1 old ue =>
    match g old with
    | none => .ok s1 old ue
    | some new => match s1.beforeWrite c obj off n with
      | some (s2, p) => .ok (s2.write p new) old ue
      | none => .absent true 12 (s.pageOf c obj off).1
  | h => h

/-! ### Fault records and parking (R186, R187, R344, R345) -/

/-- Does a recorded key cover a page of an object? -/
def State.keyFor (s : State) (core : Nat) (c : Ctx) (token : Bool) (obj off : Nat) : Option ParkKey :=
  let base := (s.pageOf c obj off).1
  ((s.core core).recorded.find? fun r => decide (r.1 = c.num) && decide (r.2.2.1 = obj) && decide (r.2.2.2 = base)
    && (match r.2.1 with
      | .token _ => token
      | .page _ _ => !token)).map (·.2.1)

/-- The token a key carries in records; 0 for a page. -/
def ParkKey.word : ParkKey → Word
  | .token t => t
  | .page _ _ => 0

/-- The page or token an access that is not possible now goes under. The first such fault of the core since the last
REPLAY writes the record that `mk` gives for the token. [DESIGN CHOICE: log 7, 49] -/
def State.noteFault (s : State) (core : Nat) (c : Ctx) (token : Bool) (obj off : Nat) (mk : Word → List Byte) : State × ParkKey :=
  match s.keyFor core c token obj off with
  | some k => (s, k)
  | none =>
    let k : ParkKey := if token then .token c.nextToken else .page obj off
    let s := if token then s.modCtx c.num fun c => { c with nextToken := if c.nextToken = 0xFFFFFFFF then 1 else c.nextToken + 1 } else s
    let s := s.modCore core fun x => { x with recorded := (c.num, k, obj, (s.pageOf c obj off).1) :: x.recorded }
    (s.faultRecord c.num (mk k.word), k)

/-- Kind of record and bits WR and AT of a thread's access (R345). -/
def Access.faultByte (a : Access) : Nat × Nat :=
  if a.is [0xA5, 0xA6, 0xE3] then (1, 0xC0) else if a.is [0xA7] then (2, 0xC0)
  else if a.is [0xA1, 0xA3, 0xDC, 0xE1] then (2, 0x80) else if a.is [0xE0] then (1, 0x80) else (1, 0)
/-- Kind of a wait-table or side-log entry (R346). -/
def Access.entryKind (a : Access) : Nat := if a.is [0xA5, 0xA6, 0xA7, 0xE0, 0xE3] then 2 else if a.parks then 0 else 1

/-- Entries of the wait table and of the side log (R10). -/
def waitTableSize : Nat := 256
def sideLogSize : Nat := 64

/-- Enters an access under a key: a load in the wait table, its thread parked; a store in the side log, or in the wait
table when the log is full. A full wait table makes the memory port retry. A store stays performed at block scope. -/
def State.enter (s : State) (core : Nat) (a : Access) (k : ParkKey) : State :=
  let e : Entry := { kind := a.entryKind, key := k, acc := a }
  let s := s.dropAccess core a.id
  if !a.parks && decide ((s.core core).side.length < sideLogSize) then s.modCore core fun c => { c with side := c.side ++ [e] }
  else if (s.core core).waits.length < waitTableSize then
    (s.modCore core fun c => { c with waits := c.waits ++ [e] }).park k [a.tid]
  else s.modCore core fun c => { c with retries := c.retries ++ [e] }

/-- UNIT of the access byte for a store that the instruction with an opcode makes through a unit: the Mint, the Orrery or the request
engine (R345). -/
def partUnit (op : BitVec 16) : Nat := if op.extractLsb' 8 8 = 0xD5 then 1 else if op.extractLsb' 8 8 = 0xDA then 3 else 2

/-- The fault record of an access (R244, R345): a thread's, or that of a unit for its instruction. -/
def State.accessFault (s : State) (core : Nat) (a : Access) (why : Nat) (t : Word) : List Byte :=
  match a.part with
  | none => s.threadRecord a.faultByte.1 (a.faultByte.2 + why) t a.obj a.off a.tid 0 a.pc
  | some p => mkRecord 2 core a.tid.group (0x80 + 16 * partUnit p.1 + why) t a.obj a.off a.tid.block.launch a.tid.block.index 0xFFFF 0 a.pc

/-- WHY an access of a page is not possible now (R345). -/
def State.whyAt (s : State) (c : Ctx) (obj off : Nat) : Nat :=
  match s.translate c obj off 1 with
  | .absent _ w => w
  | .refused => 9
  | .peer _ => 8
  | _ => 0

/-- An access that is not possible now. [DESIGN CHOICE: log 49] -/
def State.refuseAccess (s : State) (core : Nat) (c : Ctx) (a : Access) (token : Bool) (why off : Nat) : State :=
  let (s, k) := s.noteFault core c token a.obj off (s.accessFault core a why)
  s.enter core a k

/-- The logged access of the core whose bytes overlap (R187): a later access of the core to those bytes is performed after it
(R302, R305). [DESIGN CHOICE: log 58] -/
def State.sideHit (s : State) (core : Nat) (a : Access) : Option ParkKey :=
  ((s.core core).logged.find? fun e => e.acc.id != a.id && a.overlaps e.acc).map (·.key)

/-- The key under which the page or token of an entry has a record of the core since its last REPLAY (R344). -/
def State.keyOf (s : State) (core : Nat) (c : Ctx) (k : ParkKey) : Option ParkKey :=
  match k with
  | .page o off => s.keyFor core c false o off
  | .token _ => if (s.core core).recorded.any fun r => decide (r.1 = c.num) && decide (r.2.1 = k) then some k else none

/-- Enters an access under the page or token of the logged access that its bytes overlap. The first such entry of a core since
the last REPLAY of the page writes a record of its own (R344, R349). -/
def State.enterBehind (s : State) (core : Nat) (c : Ctx) (a : Access) (k : ParkKey) : State :=
  match s.keyOf core c k with
  | some k => s.enter core a k
  | none =>
    let why := s.whyAt c a.obj a.off
    let s := s.modCore core fun x => { x with recorded := (c.num, k, a.obj, (s.pageOf c a.obj a.off).1) :: x.recorded }
    (s.faultRecord c.num (s.accessFault core a why k.word)).enter core a k

/-! ### Uncorrectable errors (R188) -/

/-- A MEMUE error record. -/
def State.memueRecord (s : State) (obj off : Nat) (t : Tid) (pc : Word) : State :=
  s.errorRecord (s.ctxOf t.block) (s.threadRecord 0x21 0 0 obj off t 0 pc)

/-- A load that met an uncorrectable error: a record, and MEMUE at the thread's next boundary. The failing offset of a load of several words is
the access's first. [DESIGN CHOICE: log 95] -/
def State.loadError (s : State) (a : Access) : State :=
  let s := s.memueRecord a.obj a.off a.tid a.pc
  s.modThread a.tid fun t => if t.alive && t.memue.isNone then { t with memue := some (BitVec.ofNat 32 a.off) } else t

/-! ### Values (R180, R190) -/

/-- A loaded value as register words, by size code. -/
def sizeWords (code v : Nat) : List Word :=
  match code with
  | 0 => [BitVec.ofNat 32 (v % 2 ^ 8)]
  | 1 => [BitVec.ofInt 32 (sext 8 v)]
  | 2 => [BitVec.ofNat 32 (v % 2 ^ 16)]
  | 3 => [BitVec.ofInt 32 (sext 16 v)]
  | 4 => [BitVec.ofNat 32 v]
  | 5 => [BitVec.ofNat 32 v, BitVec.ofNat 32 (v / 2 ^ 32)]
  | _ => [BitVec.ofNat 32 v, BitVec.ofNat 32 (v / 2 ^ 32), BitVec.ofNat 32 (v / 2 ^ 64), BitVec.ofNat 32 (v / 2 ^ 96)]

/-- Bytes of a size code. -/
def sizeBytes (code : Nat) : Nat := if code < 2 then 1 else if code < 4 then 2 else if code = 4 then 4 else if code = 5 then 8 else 16

/-- The new value of an atomic operation by code and type qualifier (R190). -/
def atomNew (op q old b c : Nat) : Nat :=
  let w := if q = 2 then 64 else 32
  match op with
  | 0 => if q = 3 then (fp32.add 0 false (fp32.read old) (fp32.read b)).1 else (old + b) % 2 ^ w
  | 1 => if q = 3 then (fp32.pick false old b).1 else if q = 1 then wrap 32 (min (sext 32 old) (sext 32 b)) else min old b
  | 2 => if q = 3 then (fp32.pick true old b).1 else if q = 1 then wrap 32 (max (sext 32 old) (sext 32 b)) else max old b
  | 3 => old &&& b
  | 4 => old ||| b
  | 5 => old ^^^ b
  | 6 => b
  | _ => if old = b then c else old

/-- What an atomic access makes of the bytes it finds. -/
def Access.atomBytes (a : Access) (old : List Byte) : List Byte :=
  toLE a.bytes (atomNew (Forms.low3 a.mod) a.qual.toNat (ofLE old) (a.data.toNat % 2 ^ (8 * a.bytes)) a.cmp.toNat)

/-- The words an access writes into its registers. A TLD holds the size code of its element as its comparand (R231). -/
def Access.words (a : Access) (v : Nat) : List Word :=
  if a.is [0xA5, 0xA6] then sizeWords (if a.qual = 2 then 5 else 4) v
  else if a.is [0xDB] then sizeWords a.cmp.toNat v else sizeWords (Forms.low3 a.mod) v

/-- The value of a variable-latency access arrives (R51, R53): the register becomes full, the flag completes. -/
def State.deliver (s : State) (core : Nat) (a : Access) (ws : List Word) : State :=
  let s := s.dropAccess core a.id
  let s := match s.thread? a.tid with
    | some th => s.fillRun th.home a.reg a.tid.lane a.id ws
    | none => s
  s.complete [a.tid] a.flag

/-- Byte ranges of the span of a tensor, given by its descriptor's bytes, and with `alt` of its alternate span (R326, R331): in
cluster space, or in an object. The alternate span of a tensor in registers is local. [DESIGN CHOICE: log 15] -/
def State.spanRanges (s : State) (c : Ctx) (d : List Byte) (alt : Bool) : List (Bool × Nat × Nat × Nat) :=
  let size := if field d 0 1 < 3 then 1 else if field d 0 1 < 6 then 2 else 4
  let res := field d 2 1
  (field d 0x30 8 :: if alt then [field d 0x38 8] else []).zipIdx.flatMap fun p =>
    if res = 0 then (if p.2 = 1 then [(true, 0, p.1, size * 2 ^ field d 3 1)] else [])
    else if res = 1 then
      if field d 0x29 1 = 0 then [(true, 0, p.1 % 2 ^ 23, size * 2 ^ field d 0x28 1)]
      else (List.range (2 ^ field d 0x29 1)).map fun k => (true, 0, 0x200000 * k + p.1 % 2 ^ 21, size * 2 ^ field d 0x28 1)
    else
      let q := BitVec.ofNat 64 p.1
      [(false, (s.viewEntry c (ptrIndex q)).obj, ptrOffset q, size * 2 ^ field d 0x2A 1)]

/-- Do `n` bytes of cluster space (`loc`) or of an object lie in the spans of a tensor that a PLACE is moving (R230)? [DESIGN CHOICE: log 15] -/
def State.movesBytes (s : State) (core ctx : Nat) (loc : Bool) (obj off n : Nat) (o : PlaceOp) : Bool :=
  match s.ctx? o.ctx, s.block? o.block with
  | some c, some b => (s.spanRanges c o.dS o.alt ++ s.spanRanges c o.dD o.alt).any fun r =>
      r.1 == loc && (if r.1 then clusterOf b.core == clusterOf core else o.ctx == ctx && r.2.1 == obj)
        && decide (r.2.2.1 < off + n) && decide (off < r.2.2.1 + r.2.2.2)
  | _, _ => false

/-- Does an access touch the spans of a tensor that a PLACE is moving (R230)? [DESIGN CHOICE: log 15] -/
def State.placeTouches (s : State) (core : Nat) (a : Access) : Bool :=
  s.places.any (s.movesBytes core (s.ctxOf a.tid.block) a.inLocal a.obj a.off a.bytes)

/-- Bytes that a raw read obtains: free ones where a PLACE is moving the tensor that they belong to (R230). [DESIGN CHOICE: log 15] -/
def State.maskMoved (s : State) (core ctx : Nat) (loc : Bool) (obj off : Nat) (bs : List Byte) : List Byte :=
  if s.places.any (s.movesBytes core ctx loc obj off bs.length) then
    bs.zipIdx.map fun b => if s.places.any (s.movesBytes core ctx loc obj (off + b.2) 1) then (Config.freeWord s.tick (off + b.2)).setWidth 8 else b.1
  else bs

/-- The matrix area of a tile's descriptor meets local bytes of a core: the tile holds a tensor, and its 384 bytes begin at its address
(R324, R325). -/
def tileMeets (bs : List Byte) (off n : Nat) : Bool :=
  field bs 1 1 != 0 && decide (field bs 0x40 4 < off + n) && decide (off < field bs 0x40 4 + 384)

/-- Notes a write of local bytes in the matrix areas of the tensors of the cluster's blocks (R230). [DESIGN CHOICE: log 60] -/
def State.looseTiles (s : State) (core off n : Nat) : State :=
  { s with groups := s.groups.map fun g : Group =>
      if clusterOf (coreOf g.home) = clusterOf core then
        match (List.range 8).filter fun t => tileMeets (sgetN s.tiles (tkey g.home t 0) 128) off n && !g.loose.contains t with
        | [] => g
        | ts => { g with loose := g.loose ++ ts }
      else g }

/-- Notes a raw write of bytes of a tensor that a PLACE is moving, or of a tensor's matrix (R230). [DESIGN CHOICE: log 15, 60] -/
def State.rawWrite (s : State) (core ctx : Nat) (loc : Bool) (obj off n : Nat) : State :=
  let s := if loc then s.looseTiles core off n else s
  if s.places.any (s.movesBytes core ctx loc obj off n) then
    { s with places := s.places.map fun o => if s.movesBytes core ctx loc obj off n o then { o with dirty := true } else o }
  else s

/-- A free value of 128 bits for an access. -/
def State.freeValue (s : State) (a : Access) : Nat :=
  ((List.range 4).map fun i => (Config.freeWord s.tick (4 * a.id + i)).toNat * 2 ^ (32 * i)).sum

/-- What a load or atomic delivers, with an uncorrectable error or without. A raw read of a tensor that a PLACE is moving
obtains a free value, and so does a TLD of one that a raw write has met (R230). [DESIGN CHOICE: log 15] -/
def State.deliverValue (s : State) (core : Nat) (a : Access) (v : Nat) (ue : Bool) : State :=
  let v := if (if a.opc == 0xDB then s.places.any fun o => o.dirty && a.args.headD 0 == o.id else s.placeTouches core a) then s.freeValue a else v
  let s := if ue then s.loadError a else s
  s.deliver core a (a.words (if ue then 0 else v))

/-- A performed release or store leaves the mark that a promotion looks for (R199, R306). -/
def State.markRelease (s : State) (core : Nat) (a : Access) : State :=
  let covered := if a.releases then a.id else ((s.thread? a.tid).map (·.lastRelease)).getD 0
  if covered = 0 then s
  else
    let r : Release := ⟨s.ctxOf a.tid.block, a.obj, a.off / 256, covered, s.tick⟩
    s.modCore core fun c =>
      { c with releases := r :: c.releases.filter fun x => !(x.ctx == r.ctx && x.obj == r.obj && x.line == r.line) }

/-- The end of an access that writes no register. -/
def State.finishAccess (s : State) (core : Nat) (a : Access) : State := (s.dropAccess core a.id).complete [a.tid] a.flag

/-! ### Requests to a peer (R354, R356, R359, R361) -/

/-- Does the access ask a peer for its whole line: a load that puts it in the line cache, or a prefetch (R183, R197)? -/
def Access.asksLine (a : Access) : Bool := a.is [0xAA] || (a.is [0xA0, 0xDB] && a.qual != 1 && !a.noLine)

/-- The request of a thread's access to a peer. Atomic data hold operand b, then c, then the type qualifier. [DESIGN CHOICE: log 68] -/
def Access.packet (a : Access) (ctx dev : Nat) : Packet :=
  if a.asksLine then
    { kind := 1, flags := 0, dst := dev, src := 0, ctx, obj := a.obj, off := a.off / 256 * 256, tag := 0, op := 0, group := 0, plane := 0, length := 256, data := [] }
  else
  let kind := if a.is [0xA0, 0xDB, 0xE2] then 1 else if a.is [0xA1, 0xDC, 0xE1] then 2 else if a.is [0xA7] then 4 else 3
  let data := if kind = 1 then [] else if kind = 2 then toLE a.bytes a.data.toNat
    else toLE a.bytes a.data.toNat ++ toLE a.bytes a.cmp.toNat ++ [a.qual.setWidth 8]
  { kind, flags := 0, dst := dev, src := 0, ctx, obj := a.obj, off := a.off, tag := 0
    op := if kind < 3 then 0 else a.mod, group := 0, plane := 0, length := if kind = 1 then a.bytes else data.length, data }

/-- An earlier access of the thread to the same 256-byte line of an object at a peer has not been sent: the thread's accesses to one
line reach the home in program order (R310). -/
def Core.lineAhead (c : Core) (a : Access) : Bool :=
  c.accs.any fun b => decide (b.id < a.id) && b.tid == a.tid && b.inOrder && !b.isMulticast && !b.inLocal && b.obj == a.obj && b.tag.isNone
    && decide (b.off / 256 ≤ (a.off + a.bytes - 1) / 256) && decide (a.off / 256 ≤ (b.off + b.bytes - 1) / 256)

/-- Sends an access to its peer, once, after the thread's earlier accesses to the same line. A line that the core's buffer holds stores to is
not kept when it comes. -/
def State.sendAccess (s : State) (core : Nat) (c : Ctx) (a : Access) (dev : Nat) : State :=
  match a.tag with
  | some _ => s
  | none => if (s.core core).lineAhead a then s else match s.sendRequest core a.id (a.packet c.num dev) with
    | some (s, plane, tag) =>
      let dirty := ((s.core core).buffered a.obj).any fun b => b.off / 256 == a.off / 256
      s.setAccess core { a with tag := some (plane, tag), noLine := a.noLine || dirty }
    | none => s

/-! ### Performing a thread's access -/

/-- What an access of device memory comes to when its home does not perform it. On a POISONED page a load follows R188; a store or
an atomic operation is discarded with a record, and the result of the latter is a free value (R350). [DESIGN CHOICE: log 82] -/
def State.unperformed (s : State) (core : Nat) (c : Ctx) (a : Access) (h : Home) : State :=
  match h with
  | .absent token why _ => s.refuseAccess core c a token why a.off
  | .peer d => s.sendAccess core c a d
  | .lost =>
    let s := if a.acquires && decide (3 ≤ a.scope) then s.staleLines core else s
    if a.isAtomic then
      let t := s.memueRecord a.obj a.off a.tid a.pc
      if a.parks then t.deliver core a (a.words (s.freeValue a)) else t.finishAccess core a
    else if a.parks then s.deliverValue core a 0 true
    else (s.memueRecord a.obj a.off a.tid a.pc).finishAccess core a
  | _ => s.faultCtxBare c.num reasonInternal

/-- Performs a load of device memory (R182, R183). [DESIGN CHOICE: log 22, 70] -/
def State.performLoad (s : State) (core : Nat) (c : Ctx) (a : Access) : State :=
  let narrow := decide (a.scope ≤ 2)
  let base := a.off / 256 * 256
  let hit := if narrow && Config.lineHit s.tick then (s.core core).lines.find? fun l => l.holds c.num a.obj a.off && !l.stale else none
  match hit with
  | some l => s.deliverValue core a (field l.bytes (a.off - l.base) a.bytes) false
  | none =>
    if !narrow && (s.core core).bufferAhead a then s
    else match s.homeRead c a.obj a.off a.bytes with
    | .ok s1 old ue =>
      let view : Nat → List Byte → List Byte := fun off bs => if narrow then (s.core core).overlay a.obj off bs else bs
      let s2 := match s1.homeRead c a.obj base 256 with
        | .ok s2 line false =>
          if a.qual ≠ 1 then s2.putLine core ⟨c.num, a.obj, base, (s.core core).overlay a.obj base line, false⟩
          else if narrow then s2.dropLine core c.num a.obj base else s2
        | _ => if a.qual = 1 && !narrow then s1 else s1.dropLine core c.num a.obj base
      s2.deliverValue core a (ofLE (view a.off old)) ue
    | .peer d => if narrow ∧ ((s.core core).buffered a.obj).any (a.overlaps ·) then s else s.sendAccess core c a d
    | h => s.unperformed core c a h

/-- Performs a store of device memory: first in the store buffer, at block scope, then at its home (R184, R298). -/
def State.performStore (s : State) (core : Nat) (c : Ctx) (a : Access) : State :=
  if a.atBlk = false then
    let s := (s.dropAccess core a.id).modCore core fun k => { k with accs := k.accs ++ [{ a with atBlk := true }] }
    (s.updateLines core c.num a.obj a.off (toLE a.bytes a.data.toNat)).markRelease core a
  else if !(s.core core).readyHome a || (s.core core).portHolds a then s
  else match s.homeWrite c a.obj a.off a.bytes fun _ => some (toLE a.bytes a.data.toNat) with
    | .ok s1 _ _ => (if a.opc = 0xDC then s1 else s1.rawWrite core c.num false a.obj a.off a.bytes).finishAccess core a
    | h => s.unperformed core c a h

/-- Performs an atomic operation at its home (R191, R193), after the stores that the core's buffer holds to its bytes. A poisoned word
is read as 0 and not written. -/
def State.performAtomic (s : State) (core : Nat) (c : Ctx) (a : Access) : State :=
  if (s.core core).bufferAhead a then s
  else match s.homeRead c a.obj a.off a.bytes with
  | .ok s1 _ true =>
    let s1 := if a.acquires && decide (3 ≤ a.scope) then s1.staleLines core else s1
    if a.parks then s1.deliverValue core a 0 true else (s1.memueRecord a.obj a.off a.tid a.pc).finishAccess core a
  | .ok _ _ false =>
    match s.homeWrite c a.obj a.off a.bytes fun old => some (a.atomBytes old) with
    | .ok s1 old _ =>
      let s1 := (s1.rawWrite core c.num false a.obj a.off a.bytes).markRelease core a
      let s1 := s1.updateLines core c.num a.obj a.off (a.atomBytes old)
      let s1 := if a.acquires && decide (3 ≤ a.scope) then s1.staleLines core else s1
      if a.parks then s1.deliverValue core a (ofLE old) false else s1.finishAccess core a
    | h => s.unperformed core c a h
  | h => s.unperformed core c a h

/-- Performs an access of cluster space (R185, R192). [DESIGN CHOICE: log 58] -/
def State.performLocal (s : State) (core : Nat) (a : Access) : State :=
  let p := localAt core a.off
  if a.is [0xA2] then s.deliverValue core a (s.val p a.bytes) (s.poisoned p a.bytes)
  else if a.is [0xA3] then ((s.rawWrite core 0 true 0 a.off a.bytes).groupStores core a.tid a.off (toLE a.bytes a.data.toNat)).finishAccess core a
  else
    let stale : State → State := fun t => if a.acquires && decide (3 ≤ a.scope) then t.staleLines core else t
    if s.poisoned p a.bytes then (stale s).deliverValue core a 0 true
    else
      let old := s.bytes p a.bytes
      ((stale (s.groupStores core a.tid a.off (a.atomBytes old))).deliverValue core a (ofLE old) false).rawWrite core 0 true 0 a.off a.bytes

/-- The state after an access has been performed: its write races with no operation of an engine that its home group issued after it, since that
operation has waited for it (R220, R308). [DESIGN CHOICE: log 20, 34] -/
def State.unrace (t s : State) (core : Nat) (a : Access) : State :=
  if t.racedOps = s.racedOps then t
  else
    let own : Nat → Bool := fun x => (s.core core).engine.any fun o => o.id == x && o.block == a.tid.block && o.group == a.tid.group
    { t with racedOps := t.racedOps.filter fun x => s.racedOps.contains x || decide (x < a.id) || !own x }

/-- Performs a thread's access of device memory in program order, or enters it under the page of a logged access it
overlaps (R187). [DESIGN CHOICE: log 58] -/
def State.performDevice (s : State) (core : Nat) (c : Ctx) (a : Access) : State :=
  if (s.core core).portHolds a then s
  else match s.sideHit core a with
  | some k => s.enterBehind core c a k
  | none =>
    if a.is [0xA0] then s.performLoad core c a
    else if a.is [0xA1] then s.performStore core c a
    else s.performAtomic core c a

end Sys2Proof.Machine
end

