-- ==== Sys2Proof/Machine/Teller.lean ====
section
/-! DEFINITION. The Teller (R202 to R205, R316 to R322): coverage, handle pools, and the reclamation sequence of VNARROW and
VDROP with its shootdown. -/

namespace Sys2Proof.Machine

/-! ### Leaves of a page table -/

/-- The leaves of a table whose pages meet the bytes `lo` to `hi` − 1, table and offset of its first byte given; and whether some walk there is
one that faults (R341, R342). -/
def State.leavesFrom (s : State) (q granule lo hi : Nat) : Nat → Nat → List (Nat × Nat) → List Leaf × Bool
  | _, _, [] => ([], true)
  | table, base, (shift, ib) :: rest =>
    let parts := (List.range (2 ^ ib)).map fun i =>
      let off := base + i * 2 ^ shift
      if hi ≤ off ∨ off + 2 ^ shift ≤ lo then ([], false)
      else
        let e : Pte := .read (s.val (.vault q (table + 16 * i)) 16)
        if s.poisoned (.vault q (table + 16 * i)) 16 then ([], true)
        else if e = 0 then ([], false)
        else if e.state = 6 then s.leavesFrom q granule lo hi e.frame off rest
        else match s.walkFrom q granule off table [(shift, ib)] with
          | .leaf l => (if l.addr = table + 16 * i ∨ off ≤ lo then [l] else [], false)
          | _ => ([], true)
    (parts.flatMap (·.1), parts.any (·.2))

/-- The leaves of an object that meet a byte range; and whether some walk there is one that faults. -/
def State.leaves (s : State) (o : ObjEntry) (lo hi : Nat) : List Leaf × Bool :=
  if o.home = 2 then ([], false) else s.leavesFrom o.quarter o.granule lo hi o.root 0 [(34, 6), (26, 8), (18, 8), (12, 6)]

/-- Frees a page (R321 step 4). -/
def State.freePage (s : State) (l : Leaf) : State := s.putPte l (l.entry.set 5 l.entry.frame l.entry.dirty l.entry.expanded)

/-! ### Coverage (R320) -/

/-- The granules of a range; an empty one has none. -/
def granules (g lo hi : Nat) : Nat × Nat := if lo < hi then (lo / g, (hi + g - 1) / g) else (0, 0)

/-- What view `i` of an object covers becomes a range; an empty range covers nothing. -/
def State.setCoverage (s : State) (c : Ctx) (i obj lo hi : Nat) : State :=
  match s.object? c obj with
  | none => s
  | some o =>
    if o.held then s
    else
      let r := granules (pageSize o.granule) lo hi
      let rest := (s.coverage.find? fun x => x.ctx == c.num && x.obj == obj).map (·.views)
      let views := (if r.1 < r.2 then [(i, r.1, r.2)] else []) ++ (rest.getD []).filter fun v => v.1 != i
      { s with coverage := ⟨c.num, obj, views⟩ :: s.coverage.filter fun x => !(x.ctx == c.num && x.obj == obj) }

/-- Is some granule of a page covered? -/
def State.covered (s : State) (c : Ctx) (obj base size g : Nat) : Bool :=
  s.coverage.any fun x => x.ctx == c.num && x.obj == obj && x.views.any fun v =>
    decide (v.2.1 * g < base + size) && decide (base < v.2.2 * g)

/-- The pages of a range that no view covers; a walk that faults is met on the way (R246, R341). -/
def State.uncovered (s : State) (c : Ctx) (obj lo hi : Nat) : State × List (Nat × Nat) :=
  match s.object? c obj with
  | none => (s, [])
  | some o =>
    if o.held then (s, [])
    else
      let g := pageSize o.granule
      let r := granules g lo hi
      let ls := s.leaves o (r.1 * g) (r.2 * g)
      (if ls.2 then s.faultCtxBare c.num reasonInternal else s,
        (ls.1.filter fun l => !s.covered c obj l.base l.size g).map fun l => (obj, l.base))

/-! ### Entries and caches -/

/-- Removes the copies of an entry from every core. -/
def State.dropCopies (s : State) (ctx i : Nat) : State :=
  { s with cores := s.cores.map fun c : Core => { c with views := c.views.filter fun v => !(v.ctx == ctx && v.index == i) } }

/-- Writes an entry LIVE with its coverage (R317, R322). -/
def State.makeLive (s : State) (c : Ctx) (i : Nat) (obj low high : Nat) (rights : BitVec 4) (held : Bool) : State :=
  let e := s.viewEntry c i
  let s := s.putView c i { e with obj, rights, held, state := 2, low, high }
  (s.setCoverage c i obj low high).dropCopies c.num i

/-- The entry after a drop: FREE with the next generation, or RETIRED at generation 15 (R316). -/
def ViewEntry.dropped (e : ViewEntry) : ViewEntry :=
  { e with gen := (e.gen + 1) % 16, state := if e.gen + 1 = 15 then 3 else 0, obj := 0, rights := 0, held := false, low := 0, high := 0 }

/-- Accesses and operations of a core that have passed a check through a view and are not performed (R203, R321, R373). -/
def Core.through (k : Core) (ctxOf : BlockKey → Nat) (ctx i : Nat) (who : Option Tid) : List Nat :=
  let mine : Tid → Bool := fun t => match who with
    | some w => decide (t = w)
    | none => ctxOf t.block == ctx
  ((k.outstanding.filter fun a => (a.handle == i || a.others.contains i) && i != 0 && mine a.tid).map (·.id))
    ++ ((k.ldgl.filter fun x => x.handle == i && mine x.tid).map (·.id))
    ++ ((k.batches.filter fun x => x.handles.contains i && x.lanes.any mine).map (·.id))
    ++ ((k.multis.filter fun x => x.handles.contains i && (if who.isSome then x.tids.any mine else x.ctx == ctx)).map (·.id))
    ++ ((k.engine.filter fun x => x.handle == i && i != 0 && x.lanes.any mine).map (·.id))

/-- Numbers of everything on a core that is not performed. -/
def Core.pendingIds (k : Core) : List Nat :=
  k.outstanding.map (·.id) ++ k.ldgl.map (·.id) ++ k.batches.map (·.id) ++ k.multis.map (·.id) ++ k.engine.map (·.id)

/-- Numbers of everything that a saved block has not had performed. -/
def Kept.pendingIds (k : Kept) : List Nat :=
  (k.accs ++ k.waits.map (·.acc) ++ k.retries.map (·.acc) ++ k.side.map (·.acc)).map (·.id) ++ k.ldgl.map (·.id) ++ k.batches.map (·.id) ++ k.engine.map (·.id)

/-- Saved accesses and operations that passed a check through a view (R321). -/
def Kept.through (k : Kept) (ctx i : Nat) : List Nat :=
  if k.block.ctx ≠ ctx then []
  else (((k.accs ++ k.waits.map (·.acc) ++ k.retries.map (·.acc) ++ k.side.map (·.acc)).filter fun a => (a.handle == i || a.others.contains i) && i != 0).map (·.id))
    ++ ((k.ldgl.filter fun x => x.handle == i).map (·.id)) ++ ((k.batches.filter fun x => x.handles.contains i).map (·.id))
    ++ ((k.engine.filter fun x => x.handle == i && i != 0).map (·.id))

/-- Is something of these numbers not performed yet? -/
def State.anyPending (s : State) (ids : List Nat) : Bool :=
  !ids.isEmpty && ((s.cores.any fun k => k.pendingIds.any ids.contains) || s.kept.any fun k => k.pendingIds.any ids.contains)

/-- Cores of the clusters that hold the context, or that hold a copy of the entry. -/
def State.coresOf (s : State) (ctx i : Nat) : List Nat :=
  (List.range 192).filter fun c =>
    (s.blocks.any fun b => b.ctx == ctx && clusterOf b.core == clusterOf c)
      || (s.core c).views.any fun v => v.ctx == ctx && v.index == i

/-! ### Handle pools (R202) -/

/-- HANDLE_GRANT: up to `n` FREE entries become POOLED and go to a core. -/
def State.grantHandles (s : State) (core ctx : Nat) : Nat → State
  | 0 => s
  | n + 1 => match s.ctx? ctx with
    | some c => match s.anyFree c with
      | some i =>
        let s := s.putView c i { s.viewEntry c i with state := 1 }
        State.grantHandles (s.modCore core fun k => { k with pool := k.pool ++ [(ctx, i)] }) core ctx n
      | none => s
    | none => s

/-- Handles of a context in a core's pool. -/
def Core.handlesOf (k : Core) (ctx : Nat) : List Nat := (k.pool.filter fun p => p.1 == ctx).map (·.2)

/-- The context of the blocks on a core's cluster. -/
def State.clusterCtx (s : State) (core : Nat) : Option Nat :=
  (s.blocks.find? fun b => clusterOf b.core == clusterOf core).map (·.ctx)

/-- Handles that a core's pool may hold: 64 free ones, and those that lanes of a waiting VDUP have taken (R202). [DEDUCED: log 48] -/
def Core.poolRoom (k : Core) (ctx : Nat) : Nat := 64 + k.claimed - (k.handlesOf ctx).length

/-- HANDLE_GRANT (R202, R316). [DEDUCED: log 48] -/
def execHandleGrant (core n : Nat) (s : State) : Host.Outcome State Fault Refusal :=
  match s.clusterCtx core with
  | some ctx => conclude (s.grantHandles core ctx (min n ((s.core core).poolRoom ctx)))
  | none => conclude s

/-! ### The reclamation sequence (R321, R322) -/

/-- Step 1 and step 3 of R321 for an operation that has reached the Teller. -/
def State.tellerWrite (s : State) (c : Ctx) (o : ViewOp) : State × List (Nat × Nat) :=
  let e := s.viewEntry c o.index
  if e.state ≠ 2 ∨ e.gen ≠ o.gen then (s, [])
  else if o.drop then
    ((s.putView c o.index e.dropped).setCoverage c o.index e.obj 0 0).uncovered c e.obj e.low e.high
  else
    let low := max e.low o.low
    let high := max low (min e.high o.high)
    ((s.putView c o.index { e with low, high, rights := e.rights &&& o.mask }).setCoverage c o.index e.obj low high).uncovered c e.obj e.low e.high

def State.setViewOp (s : State) (o : ViewOp) : State :=
  { s with viewOps := s.viewOps.map fun x => if x.id = o.id then o else x }

/-- Step 4: frees the pages that are not FILLING or EVICTING, and keeps the others. -/
def State.freePages (s : State) (c : Ctx) : List (Nat × Nat) → State × List (Nat × Nat)
  | [] => (s, [])
  | (obj, base) :: rest =>
    let r := match s.object? c obj with
      | none => (s, false)
      | some o => match s.walk o base with
        | .leaf l =>
          if s.covered c obj l.base l.size (pageSize o.granule) then (s, false)
          else if l.entry.state = 1 ∨ l.entry.state = 3 then (s, true)
          else if l.entry.state = 5 then (s, false)
          else
            let s := (s.freePage l).dropLines c.num obj l.base l.size
            ({ s with prefetched := s.prefetched.filter fun p => p != (c.num, obj, l.base) }, false)
        | .bad => (s.faultCtxBare c.num reasonInternal, false)
        | .unmapped => (s, false)
    let (s, left) := r.1.freePages c rest
    (s, if r.2 then (obj, base) :: left else left)

/-- Is the Teller of the operation's context busy with another handle (R321)? A sequence whose context is saved, so that what it waits for cannot be
performed, holds up those of its own context alone. [DEDUCED: log 99] -/
def State.tellerBusy (s : State) (o : ViewOp) : Bool :=
  let quarter : Nat → Option Nat := fun n => (s.ctx? n).map (·.quarter)
  s.viewOps.any fun x => x.id != o.id && x.stage != 0 && quarter x.ctx == quarter o.ctx
    && (x.ctx == o.ctx || !((s.ctx? x.ctx).any fun c => c.state == .saved))

/-- May the sequence of an operation move on? -/
def State.reclaimReady (s : State) (o : ViewOp) : Bool :=
  match o.stage with
  | 0 => !s.anyPending o.own && !s.tellerBusy o
  | 1 => o.cores.isEmpty && !s.anyPending o.waits
  | _ => true

/-- A view operation ends: its flag clears, in a saved block too (R61). -/
def State.endViewOp (s : State) (o : ViewOp) : State :=
  let down : Thread → Thread := fun t => match o.flag with
    | some n => if t.tid = o.tid then t.flagDown n else t
    | none => t
  { s.complete [o.tid] o.flag with
    viewOps := s.viewOps.filter fun x => x.id != o.id
    kept := s.kept.map fun k : Kept => if k.block.key = o.tid.block then { k with threads := k.threads.map down } else k }

/-- RECLAMATION_SEQUENCE (R321): the next part of the sequence of the `i`-th operation. -/
def execReclamationSequence (i : Nat) (s : State) : Host.Outcome State Fault Refusal :=
  match s.viewOps[i]? with
  | none => conclude s
  | some o =>
    if !s.reclaimReady o then conclude s
    else match s.ctx? o.ctx with
      | none => conclude (s.endViewOp o)
      | some c =>
        if o.stage = 0 then
          let (s, pages) := s.tellerWrite c o
          conclude (s.setViewOp { o with stage := 1, cores := s.coresOf o.ctx o.index, waits := s.kept.flatMap fun k : Kept => k.through o.ctx o.index, pages })
        else
          let (s, left) := s.freePages c o.pages
          if left.isEmpty then conclude (s.endViewOp o)
          else conclude (s.setViewOp { o with stage := 2, pages := left })

/-- SHOOTDOWN (R321 step 2): a core replaces or removes its copy, keeping what its own threads have issued; the operation then waits for
the accesses that were checked through the handle before, on the core and in the blocks saved since. -/
def execShootdown (core i : Nat) (s : State) : Host.Outcome State Fault Refusal :=
  match s.viewOps[i]? with
  | none => conclude s
  | some o =>
    if o.stage ≠ 1 ∨ o.cores.contains core = false then conclude s
    else match s.ctx? o.ctx with
      | none => conclude s
      | some c =>
        let waits := (s.core core).through s.ctxOf o.ctx o.index none ++ s.kept.flatMap fun k : Kept => k.through o.ctx o.index
        let e := (s.viewEntry c o.index).cached o.ctx o.index
        let v := s.copyFor core e
        let s := s.modCore core fun k =>
          { k with views := if e.live then k.views.map fun x => if x.ctx = o.ctx ∧ x.index = o.index then v else x
                            else k.views.filter fun x => !(x.ctx == o.ctx && x.index == o.index) }
        conclude (s.setViewOp { o with cores := o.cores.filter (· != core), waits := o.waits ++ waits })

end Sys2Proof.Machine
end

