-- ==== Sys2Proof/Machine/MemoryInsn.lean ====
section
/-! DEFINITION. Memory, atomic, fence and view instructions at issue, opcodes 0xA0 to 0xB1 (R176 to R206). -/

namespace Sys2Proof.Machine

/-! ### Operands (R176, R178) -/

/-- The context of an issue group. -/
def State.ctxOfExec (s : State) (x : Exec) : Nat := s.ctxOf (((x.act.map (·.tid.block)).headD ⟨0, 0⟩))
/-- The flags of the header of an issue group's launch (R115). -/
def State.headerFlag (s : State) (x : Exec) (b : Nat) : Bool :=
  ((s.launch? x.ig.launch).map (·.header.flags.getLsbD b)).getD false

/-- A pointer operand. -/
def State.ptr (s : State) (th : Thread) (o : Operand) : BitVec 64 := BitVec.ofNat 64 (s.src th o 2)
/-- A displacement. -/
def State.disp (s : State) (th : Thread) (o : Operand) : Int := sext 32 (s.src th o 1)
/-- The cluster-space address of a local operand. -/
def State.localAddr (s : State) (th : Thread) (o : Operand) : Nat := s.src th o 1 % 2 ^ 23

/-- The value of a store's data operand, up to four registers. -/
def State.dataValue (s : State) (th : Thread) (o : Operand) (regs : Nat) : Nat :=
  match o, regs with
  | .vec r _ _, 4 => ((List.range 4).map fun i => (s.vreg th (r.toNat + i)).toNat * 2 ^ (32 * i)).sum
  | o, n => s.src th o n

/-- Lines read at .dev scope or wider, for a later promotion (R199). -/
def State.promote (s : State) (t : Tid) (scope obj off : Nat) : State :=
  if scope < 4 then s
  else s.modThread t fun th => if th.promoted.contains (obj, off / 256) then th else { th with promoted := (obj, off / 256) :: th.promoted }

/-- A store waits at issue for an earlier load of its thread to its bytes (R181). -/
def State.loadAhead (s : State) (core : Nat) (t : Tid) (a : Access) : Bool :=
  (s.core core).outstanding.any fun b => decide (b.tid = t) && b.reads && a.overlaps b

/-- A range of local memory that an operation of the core is filling (R185, R292). -/
def State.rangeBusy (s : State) (core a n : Nat) : Bool :=
  (s.core core).ranges.any fun r => decide (a < r.hi) && decide (r.lo < a + n)

/-- The earlier of two traps in the order of R177. -/
def firstTrap (a b : Option Trap) : Option Trap :=
  match a, b with
  | some x, some y => if accessRank x.cause ≤ accessRank y.cause then some x else some y
  | some x, none => some x
  | none, y => y

/-! ### Loads and stores -/

/-- An access through a pointer operand with a displacement. -/
def wantPtr (s : State) (f : Insn) (n : Nat) (need : BitVec 4) (disp : Bool) (th : Thread) : Want :=
  { th, slot := 0, p := s.ptr th f.opa, d := if disp then s.disp th f.opb else 0, n, al := n, need }

/-- The skeleton of a thread's access. -/
def Exec.access (x : Exec) (opc : BitVec 8) (qual : BitVec 2) (g : Got) (bytes : Nat) : Access :=
  { id := 0, inst := x.inst, tid := g.th.tid, opc, mod := x.f.mod, qual, obj := g.obj, off := g.off, handle := g.handle
    bytes, flag := x.flag, pc := x.ig.pc }

/-- LD (R182). -/
def execLd (f : Insn) (s : State) : Host.Outcome State Fault Refusal :=
  issueWith (.ld f) f (fun s x =>
    let n := sizeBytes (Forms.low3 f.mod)
    match s.checkAll x (s.ctxOfExec x) (x.act.map (wantPtr s f n rightR true)) with
    | .trap t => .trap t
    | .wait w => .wait w
    | .ok gs =>
      .done (gs.foldl (fun t g =>
        let r := s.regNo g.th f.opd
        let a := { x.access 0xA0 (modOf f.opa) g n with reg := r }
        ((t.markEmptyRun g.th.home r g.th.tid.lane t.nextId (sizeRegs f)).issueAccess x.ig.core a).promote g.th.tid
          (Forms.scope f.mod) g.obj g.off) s) .later false) s

/-- ST (R184). -/
def execSt (f : Insn) (s : State) : Host.Outcome State Fault Refusal :=
  issueWith (.st f) f (fun s x =>
    let n := sizeBytes (Forms.low3 f.mod)
    match s.checkAll x (s.ctxOfExec x) (x.act.map (wantPtr s f n rightW true)) with
    | .trap t => .trap t
    | .wait w => .wait w
    | .ok gs =>
      let as := gs.map fun g =>
        { x.access 0xA1 0 g n with data := BitVec.ofNat 128 (s.dataValue g.th f.opd (sizeRegs f) % 2 ^ (8 * n)) }
      if as.any fun a => s.loadAhead x.ig.core a.tid a then .wait s
      else .done (as.foldl (fun t a => t.issueAccess x.ig.core a) s) .later false) s

/-- A local access of an instruction. -/
def wantLocal (s : State) (o : Operand) (disp : Operand) (slot n al : Nat) (own : Bool) (th : Thread) : WantLocal :=
  { th, slot, a := (s.localAddr th o : Int) + (match disp with
      | .none => 0
      | d => s.disp th d), n, al, own }

/-- The skeleton of an access of cluster space. -/
def Exec.accessLocal (x : Exec) (opc : BitVec 8) (w : WantLocal) : Access :=
  { id := 0, inst := x.inst, tid := w.th.tid, opc, mod := x.f.mod, inLocal := true, off := w.a.toNat, bytes := w.n
    flag := x.flag, pc := x.ig.pc }

/-- LDL (R185). -/
def execLdl (f : Insn) (s : State) : Host.Outcome State Fault Refusal :=
  issueWith (.ldl f) f (fun s x =>
    let n := sizeBytes (Forms.low3 f.mod)
    let ws := x.act.map (wantLocal s f.opa f.opb 0 n n false)
    match s.localTrap x ws with
    | some t => .trap t
    | none =>
      if ws.any fun w => s.rangeBusy x.ig.core w.a.toNat w.n then .wait s
      else .done (ws.foldl (fun t w =>
        let r := s.regNo w.th f.opd
        (t.markEmptyRun w.th.home r w.th.tid.lane t.nextId (sizeRegs f)).issueAccess x.ig.core
          { x.accessLocal 0xA2 w with reg := r }) s) .later false) s

/-- STL (R185). -/
def execStl (f : Insn) (s : State) : Host.Outcome State Fault Refusal :=
  issueWith (.stl f) f (fun s x =>
    let n := sizeBytes (Forms.low3 f.mod)
    let ws := x.act.map (wantLocal s f.opa f.opb 0 n n false)
    match s.localTrap x ws with
    | some t => .trap t
    | none =>
      let as := ws.map fun w =>
        { x.accessLocal 0xA3 w with data := BitVec.ofNat 128 (s.dataValue w.th f.opd (sizeRegs f) % 2 ^ (8 * n)) }
      if as.any fun a => s.rangeBusy x.ig.core a.off a.bytes || s.loadAhead x.ig.core a.tid a then .wait s
      else .done (as.foldl (fun t a => t.issueAccess x.ig.core a) s) .later false) s

/-! ### LDGL (R189) -/

/-- The barrier a lane names is not within the block's local memory, or not registered (R161). -/
def State.barrierBad (s : State) (th : Thread) (a : Nat) : Bool :=
  match s.block? th.tid.block with
  | some b => !b.ownsLocal a 16 || (b.barIndex a).isNone
  | none => true

/-- LDGL (R189). TRAPINFO of the BARERR at issue is 0. [DESIGN CHOICE: log 94] -/
def execLdgl (f : Insn) (s : State) : Host.Outcome State Fault Refusal :=
  issueWith (.ldgl f) f (fun s x =>
    let n := sizeBytes (Forms.low3 f.mod)
    let ctx := s.ctxOfExec x
    let dst := x.act.map (wantLocal s f.opd .none 2 n n true)
    let bars := x.act.map fun th => (th, s.localAddr th f.opb)
    let misaligned := bars.filter fun p => p.2 % 16 != 0
    let barTrap : Option Trap := if misaligned.isEmpty then none else some
      { cause := Cause.align, hit := misaligned.map (·.1.tid.lane)
        infos := bars.map fun p => (p.1.tid, accessInfo (p.2 % 16 != 0) 1 p.2) }
    match s.checkAll x ctx (x.act.map (wantPtr s f n rightR false)) with
    | .wait w => .wait w
    | r =>
      let ptrTrap := match r with
        | .trap t => some t
        | _ => none
      match firstTrap (firstTrap ptrTrap (s.localTrap x dst)) barTrap, r with
      | some t, _ => .trap t
      | none, .ok gs =>
        if bars.any fun p => s.barrierBad p.1 p.2 then trapAll x Cause.barerr 0
        else if 32 ≤ (s.core x.ig.core).ranges.length ∨ s.engineWait x.ig.core (x.act.map (·.tid)) then .wait s
        else
          let lo := (minBy id (dst.map (·.a.toNat))).getD 0
          let hi := (maxBy id (dst.map (·.a.toNat))).getD 0 + n
          let copies : List LdglCopy := gs.map fun g =>
            { id := x.inst, tid := g.th.tid, ctx, obj := g.obj, off := g.off, handle := g.handle
              dst := s.localAddr g.th f.opd, bytes := n, barrier := s.localAddr g.th f.opb, flag := x.flag, pc := x.ig.pc, mod := f.mod }
          .done (s.modCore x.ig.core fun c =>
            { c with ldgl := c.ldgl ++ copies, ranges := c.ranges ++ [⟨lo, hi, x.inst⟩] }) .later false
      | none, _ => .wait s) s

/-! ### Atomic operations (R190 to R193) -/

/-- Operand b of an atomic operation, a short immediate read by the type (R88, R190). -/
def State.atomB (s : State) (th : Thread) (o : Operand) (q : Nat) : Nat :=
  match o with
  | .imm v => if q = 3 then fp32.imm v else wrap (if q = 2 then 64 else 32) v.toInt
  | o => s.src th o (if q = 2 then 2 else 1)

/-- ATOM (R191). -/
def execAtom (f : Insn) (s : State) : Host.Outcome State Fault Refusal :=
  issueWith (.atom f) f (fun s x =>
    let q := Forms.qualOf f.opa
    let n := 4 * atomRegs f
    match s.checkAll x (s.ctxOfExec x) (x.act.map (wantPtr s f n rightA false)) with
    | .trap t => .trap t
    | .wait w => .wait w
    | .ok gs =>
      .done (gs.foldl (fun t g =>
        let r := s.regNo g.th f.opd
        let a := { x.access 0xA5 (BitVec.ofNat 2 q) g n with
          reg := r, data := BitVec.ofNat 128 (s.atomB g.th f.opb q)
          cmp := BitVec.ofNat 64 (if Forms.low3 f.mod = 7 then s.src g.th f.opd (atomRegs f) else 0) }
        ((t.markEmptyRun g.th.home r g.th.tid.lane t.nextId (atomRegs f)).issueAccess x.ig.core a).promote g.th.tid
          (Forms.scope f.mod) g.obj g.off) s) .later false) s

/-- ATOML (R192). -/
def execAtoml (f : Insn) (s : State) : Host.Outcome State Fault Refusal :=
  issueWith (.atoml f) f (fun s x =>
    let q := Forms.qualOf f.opa
    let n := 4 * atomRegs f
    let ws := x.act.map (wantLocal s f.opa .none 0 n n false)
    match s.localTrap x ws with
    | some t => .trap t
    | none =>
      if ws.any fun w => s.rangeBusy x.ig.core w.a.toNat w.n then .wait s
      else .done (ws.foldl (fun t w =>
        let r := s.regNo w.th f.opd
        (t.markEmptyRun w.th.home r w.th.tid.lane t.nextId (atomRegs f)).issueAccess x.ig.core
          { x.accessLocal 0xA6 w with
            reg := r, qual := BitVec.ofNat 2 q, data := BitVec.ofNat 128 (s.atomB w.th f.opb q)
            cmp := BitVec.ofNat 64 (if Forms.low3 f.mod = 7 then s.src w.th f.opd (atomRegs f) else 0) }) s) .later false) s

/-- RED (R193). -/
def execRed (f : Insn) (s : State) : Host.Outcome State Fault Refusal :=
  issueWith (.red f) f (fun s x =>
    let q := Forms.qualOf f.opa
    let n := 4 * atomRegs f
    match s.checkAll x (s.ctxOfExec x) (x.act.map (wantPtr s f n rightA false)) with
    | .trap t => .trap t
    | .wait w => .wait w
    | .ok gs =>
      let as := gs.map fun g => { x.access 0xA7 (BitVec.ofNat 2 q) g n with data := BitVec.ofNat 128 (s.atomB g.th f.opb q) }
      if as.any fun a => s.loadAhead x.ig.core a.tid a then .wait s
      else .done (as.foldl (fun t a => t.issueAccess x.ig.core a) s) .later false) s

/-! ### Multicast (R194 to R196) -/

/-- The data of a line of elements of `n` bytes, no two at one place: the elements in their order, then a byte for each place of the line
that holds none. A full line is its 256 bytes. [DESIGN CHOICE: log 68] -/
def lineData (n : Nat) (es : List (Nat × Nat)) : List Byte :=
  let at_ : Nat → Option (Nat × Nat) := fun i => es.find? fun e => e.1 == n * i
  let slots := List.range (256 / n)
  (slots.filterMap at_).flatMap (fun e => toLE n e.2) ++ (slots.filter fun i => (at_ i).isNone).map (BitVec.ofNat 8)

/-- The first element at each place, and the others. -/
def firstOfEach (es : List (Nat × Nat)) : List (Nat × Nat) × List (Nat × Nat) :=
  es.foldl (fun r e => if r.1.any fun f => f.1 == e.1 then (r.1, r.2 ++ [e]) else (r.1 ++ [e], r.2)) ([], [])

/-- The elements of a line in rounds in which no place comes twice, in lane order at each place. -/
def lineRounds : Nat → List (Nat × Nat) → List (List (Nat × Nat))
  | 0, _ => []
  | fuel + 1, es => if es = [] then [] else (firstOfEach es).1 :: lineRounds fuel (firstOfEach es).2

/-- The packets of a multicast store, one for each line: of MCST, the highest lane's element stands at a place that several name. Of REDST, each
such lane's element is applied, by a packet more for each. [DESIGN CHOICE: log 68] -/
def multicastPackets (s : State) (dst ctx group : Nat) (red : Bool) (mod : BitVec 8) (q : BitVec 2) (n : Nat) (es : List (Nat × Nat × Nat)) : List Packet :=
  (dedup (es.map fun e => (e.1, e.2.1 / 256))).reverse.flatMap fun (obj, line) =>
    let here := (es.filter fun e => e.1 == obj && e.2.1 / 256 == line).map fun e => (e.2.1 % 256, e.2.2)
    let rounds := if red then lineRounds here.length here else [(firstOfEach here.reverse).1]
    rounds.map fun es =>
      let data := lineData n es
      { kind := 5, flags := 0, dst, src := s.device, ctx, obj, off := line * 256, tag := 0, op := mod, group
        plane := s.planeOf (line * 256), length := data.length, data, form := (if red then 8#4 else 0) ||| q.setWidth 4 }

/-- The group table entry of a group: its 128 bytes (R364). -/
def State.groupEntry (s : State) (g : Nat) : List Byte :=
  ((s.groupTable.find? fun x => x.1 == g).map (·.2)).getD (zeros 128)

/-- MCST or REDST after the checks that name its opcode (R194). Each active lane holds an access until the status record is written;
no line leaves before the accesses that any of them must wait for (R196). -/
def multicast (f : Insn) (opc : BitVec 8) (n : Nat) (need : BitVec 4) (val : State → Thread → Nat) (s : State) (x : Exec) : Act :=
  let ctx := s.ctxOfExec x
  if !s.headerFlag x 3 then trapAll x Cause.illop 0
  else
    let rec_ := x.act.map (wantLocal s f.opb .none 1 16 16 true)
    match s.checkAll x ctx (x.act.map (wantPtr s f n need false)) with
    | .wait w => .wait w
    | r =>
      let ptrTrap := match r with
        | .trap t => some t
        | _ => none
      match firstTrap ptrTrap (s.localTrap x rec_), r with
      | some t, _ => .trap t
      | none, .ok gs =>
        let groupOf : Got → Option Nat := fun g => match s.ctx? ctx with
          | some c => (s.object? c g.obj).bind fun o => if o.mcast then some o.group else none
          | none => none
        let first := (gs.head?.bind groupOf).getD 0
        let bad := gs.filter fun g => (groupOf g).isNone || (groupOf g != some first && (gs.all fun h => (groupOf h).isSome))
        if !bad.isEmpty then
          trapEach x Cause.rights (fun th => match gs.find? fun g => decide (g.th.tid = th.tid) with
            | some g => accessInfo (bad.any fun b => decide (b.th.tid = th.tid)) 0 g.off
            | none => accessInfo false 0 0) (bad.map (·.th.tid.lane))
        else
          let root := field (s.groupEntry first) 0x40 2 % 512
          let es := gs.map fun g => (g.obj, g.off, val s g.th)
          let lines := multicastPackets s root ctx first (opc == 0xA9) f.mod (BitVec.ofNat 2 (Forms.qualOf f.opa)) n es
          let m : Multi := { id := x.inst, tids := x.act.map (·.tid), ctx, group := first
                             record := match x.act with
                               | th :: _ => s.localAddr th f.opb
                               | [] => 0
                             flag := x.flag, pc := x.ig.pc, lines, handles := dedup (gs.map (·.handle))
                             lowest := (((minBy (fun p : Packet => p.obj * 2 ^ 40 + p.off) lines).map fun p => (p.obj, p.off))).getD (0, 0) }
          let s := s.modCore x.ig.core fun c => { c with multis := c.multis ++ [m] }
          let as := gs.map fun g => { x.access opc 0 g 0 with args := [x.inst], flag := none, handle := 0 }
          let after := as.flatMap (s.core x.ig.core).needsOf
          .done (as.foldl (fun t a => t.issueAfter x.ig.core a after) s) .later false
      | none, _ => .wait s

/-- MCST (R194 to R196). -/
def execMcst (f : Insn) (s : State) : Host.Outcome State Fault Refusal :=
  issueWith (.mcst f) f (multicast f 0xA8 (sizeBytes (Forms.low3 f.mod)) rightW fun s th => s.dataValue th f.opd (sizeRegs f)) s
/-- REDST (R194 to R196). -/
def execRedst (f : Insn) (s : State) : Host.Outcome State Fault Refusal :=
  issueWith (.redst f) f (multicast f 0xA9 (4 * atomRegs f) rightA fun s th => s.src th f.opd (atomRegs f)) s

/-! ### Prefetch (R197) -/

/-- One lane of PREF. The line of a peer is asked for by an access of its own, which nothing waits for. -/
def State.prefetchLane (s : State) (x : Exec) (c : Ctx) (th : Thread) : State :=
  let p := s.ptr th x.f.opa
  let v := (s.cachedView x.ig.core c.num (ptrIndex p)).getD (noView c.num 0)
  match checkView v p (s.disp th x.f.opb) 1 1 rightR with
  | .error _ => s
  | .ok off =>
    if x.f.mod = 0 then
      let base := off / 256 * 256
      match s.homeRead c v.obj base 256 with
      | .ok s1 line false => s1.putLine x.ig.core ⟨c.num, v.obj, base, (s.core x.ig.core).overlay v.obj base line, false⟩
      | .peer _ => s.issueAccess x.ig.core
          { id := 0, inst := x.inst, tid := th.tid, opc := 0xAA, mod := 0, obj := v.obj, off := base, handle := ptrIndex p, bytes := 256, pc := x.ig.pc }
      | _ => s
    else match s.translate c v.obj off 1 with
      | .absent base 0 =>
        if s.prefetched.contains (c.num, v.obj, base) then s
        else
          let s := s.faultRecord c.num (s.threadRecord 5 0 0 v.obj off th.tid 0 x.ig.pc)
          { s with prefetched := (c.num, v.obj, base) :: s.prefetched }
      | _ => s

/-- PREF (R197). -/
def execPref (f : Insn) (s : State) : Host.Outcome State Fault Refusal :=
  issueWith (.pref f) f (fun s x =>
    match s.ctx? (s.ctxOfExec x) with
    | none => .done s .atIssue false
    | some c =>
      match x.act.find? fun th => (s.cachedView x.ig.core c.num (ptrIndex (s.ptr th f.opa))).isNone with
      | some th => .wait (s.fetchView x.ig.core c.num (ptrIndex (s.ptr th f.opa)))
      | none => .done (x.act.foldl (fun s th => s.prefetchLane x c th) s) .atIssue false) s

/-! ### Fences (R198 to R201) -/

/-- Cores that a scope of a core takes in. -/
def scopeCores (core scope : Nat) : List Nat :=
  if scope ≤ 2 then [core] else if scope = 3 then (List.range 4).map (· + core / 4 * 4) else List.range 192

/-- For a promoted line of a context, the core that last performed a release covering it (R199). -/
def State.releaserOf (s : State) (ctx : Nat) (line : Nat × Nat) : Option Nat :=
  (maxBy (fun p : Nat × Nat => p.2) ((List.range 192).flatMap fun c =>
    ((s.core c).releases.filter fun r => r.ctx == ctx && r.obj == line.1 && r.line == line.2).map fun r => (c, r.at_))).map (·.1)

/-- What the releases that a core performed, covering the lines that a fence of a context promotes, order (R306): the highest access
number. The lines stand in the fence's `args`. -/
def Core.promotedTo (c : Core) (ctx : Nat) (args : List Nat) : Nat :=
  ((c.releases.filter fun r => r.ctx == ctx && (runsOf 2 args.length args).contains [r.obj, r.line]).map (·.upTo)).foldl max 0

/-- One lane of a fence; `args` hold the stage of a FENCEX, or the lines that a FENCE promotes. -/
def State.fenceLane (s : State) (x : Exec) (t : Tid) (opc : BitVec 8) (args : List Nat) : State :=
  let scope := Forms.scope x.f.mod
  let id := s.nextId
  let s := s.issueAccess x.ig.core { id := 0, inst := x.inst, tid := t, opc, mod := x.f.mod, flag := x.flag, pc := x.ig.pc, args }
  s.modThread t fun th => { th with
    lastFence := if x.f.mod.toNat / 8 % 4 = 0 then th.lastFence else id
    lastRelease := if 2 ≤ Forms.order x.f.mod ∨ opc = 0xAC then id else th.lastRelease
    promoted := if 4 ≤ scope then [] else th.promoted }

/-- FENCE (R198, R199): with .rmt after more than 16 lines it acts as FENCEX. -/
def execFence (f : Insn) (s : State) : Host.Outcome State Fault Refusal :=
  issueWith (.fence f) f (fun s x =>
    if Forms.scope f.mod = 0 then .done s .atIssue false
    else .done (x.act.foldl (fun s th =>
      let lines := ((s.thread? th.tid).map (·.promoted)).getD []
      if f.mod.getLsbD 0 then
        if 16 < lines.length then s.fenceLane x th.tid 0xAC [0] else s.fenceLane x th.tid 0xAB (lines.flatMap fun l => [l.1, l.2])
      else s.fenceLane x th.tid 0xAB []) s) .later false) s

/-- FENCEX (R200). -/
def execFencex (f : Insn) (s : State) : Host.Outcome State Fault Refusal :=
  issueWith (.fencex f) f (fun s x =>
    if 5 ≤ Forms.scope f.mod ∧ s.headerFlag x 3 = false then trapAll x Cause.illop 0
    else .done (x.act.foldl (fun s th => s.fenceLane x th.tid 0xAC [0]) s) .later false) s

/-- OPRDY takes in the writes of a home group's operands that its scope reaches (R201). [DESIGN CHOICE: log 20] -/
def State.operandsReady (s : State) (x : Exec) (scope : Nat) : State :=
  let here : Group → Bool := fun g => x.act.head?.any fun th => decide (g.block = th.tid.block) && decide (g.index = th.tid.group)
  { s with groups := s.groups.map fun g : Group =>
      if here g then { g with unready := g.unready.filter (fun r => decide (scope < r.2.2)), unreadyRegs := [] } else g }

/-- OPRDY (R201): an acquire; the fetches of later operations read memory as it then stands. -/
def execOprdy (f : Insn) (s : State) : Host.Outcome State Fault Refusal :=
  issueWith (.oprdy f) f (fun s x =>
    .done ((if 3 ≤ Forms.scope f.mod then s.staleLines x.ig.core else s).operandsReady x (Forms.scope f.mod)) .atIssue false) s

/-! ### Views (R202 to R206) -/

/-- The checks of an instruction that names views and no bytes: the trap, or the views the lanes name. -/
def State.handles (s : State) (x : Exec) (ctx : Nat) (ths : List Thread) (need : BitVec 4) : Checked × List (Thread × CachedView) :=
  let named := ths.map fun th => (th, s.ptr th x.f.opa)
  match named.find? fun p => (s.cachedView x.ig.core ctx (ptrIndex p.2)).isNone with
  | some p => (.wait (s.fetchView x.ig.core ctx (ptrIndex p.2)), [])
  | none =>
    let vs := named.map fun p => (p.1, p.2, (s.cachedView x.ig.core ctx (ptrIndex p.2)).getD (noView ctx 0))
    let stale := vs.filter fun (_, p, v) => ptrIndex p == 0 || !v.live || v.gen != ptrGen p
    let poor := vs.filter fun (_, _, v) => v.rights &&& need != need
    let trap : BitVec 6 → List (Thread × BitVec 64 × CachedView) → Trap := fun c bad =>
      { cause := c, hit := bad.map (·.1.tid.lane), offsets := vs.map fun (th, p, _) => (th.tid.lane, ptrOffset p)
        infos := x.mem.map fun th => (th.tid, accessInfo (bad.any fun b => decide (b.1.tid = th.tid)) 0
          (((vs.find? fun v => decide (v.1.tid = th.tid)).map fun v => ptrOffset v.2.1).getD 0 : Nat)) }
    if !stale.isEmpty then (.trap (trap Cause.staleview stale), [])
    else if !poor.isEmpty then (.trap (trap Cause.rights poor), [])
    else (.ok [], vs.map fun (th, _, v) => (th, v))

/-- VDUP of one lane with a handle from the pool (R202, R322). -/
def State.dupView (s : State) (c : Ctx) (core h : Nat) (v : CachedView) (mask : BitVec 4) : State :=
  let e := s.viewEntry c v.index
  let s := s.modCore core fun k => { k with pool := k.pool.filter (· != (c.num, h)) }
  if e.state ≠ 2 ∨ e.gen ≠ v.gen then
    let s := s.makeLive c h v.obj 0 0 0 v.held
    s.putView c h (s.viewEntry c h).dropped
  else
    let low := max v.low e.low
    s.makeLive c h v.obj low (max low (min v.high e.high)) (v.rights &&& mask &&& e.rights) v.held

/-- The lanes of VDUP in ascending order: each takes a handle, or the null pointer. [DEDUCED: log 48] -/
def State.dupLanes (s : State) (c : Ctx) (core : Nat) (f : Insn) : List (Thread × CachedView) → List (Thread × Nat) × State
  | [] => ([], s.modCore core fun k => { k with claimed := 0 })
  | (th, v) :: rest =>
    match (s.core core).handlesOf c.num with
    | [] => let (l, t) := s.dupLanes c core f rest
            ((th, 0) :: l, t)
    | h :: _ =>
      let p := mkPtr h (s.viewEntry c h).gen (ptrOffset (s.ptr th f.opa))
      let mask := BitVec.ofNat 4 (s.src th f.opb 1)
      let (l, t) := (s.dupView c core h v mask).dupLanes c core f rest
      ((th, p.toNat) :: l, t)

/-- VDUP (R202). [DEDUCED: log 48] -/
def execVdup (f : Insn) (s : State) : Host.Outcome State Fault Refusal :=
  issueWith (.vdup f) f (fun s x =>
    let ths := match f.opd with
      | .uni _ _ => x.act.take 1
      | _ => x.act
    match s.ctx? (s.ctxOfExec x) with
    | none => .wait s
    | some c =>
      match s.handles x c.num ths rightD with
      | (.trap t, _) => .trap t
      | (.wait w, _) => .wait w
      | (.ok _, vs) =>
        if ((s.core x.ig.core).handlesOf c.num).length < vs.length ∧ (s.anyFree c).isSome then
          .wait (s.modCore x.ig.core fun k => { k with claimed := vs.length })
        else
          let (vals, t) := s.dupLanes c x.ig.core f vs
          .done (t.putAll x 2 24 vals) (.at_ (x.due 24)) false) s

/-- The operation of a lane at the Teller, after the issuing core's own copy. -/
def State.viewOp (s : State) (x : Exec) (th : Thread) (off : Nat) (v : CachedView) (drop : Bool) (low high : Nat) (mask : BitVec 4) : State :=
  let own := (s.core x.ig.core).through s.ctxOf v.ctx v.index (some th.tid)
  { s with viewOps := s.viewOps ++ [{ id := s.nextId, ctx := v.ctx, index := v.index, gen := v.gen, off, drop, low, high, mask, core := x.ig.core
                                      tid := th.tid, flag := x.flag, own, pc := x.ig.pc }], nextId := s.nextId + 1 }

/-- The checks of VNARROW lane by lane, each against what the lanes before it leave (R203): the lanes that fail. -/
def narrowFails : List CachedView → List (Thread × CachedView × Nat × Nat) → List Thread
  | _, [] => []
  | seen, (th, v, lo, hi) :: rest =>
    let cur := (seen.find? fun x => x.index == v.index).getD v
    if cur.low ≤ lo ∧ lo ≤ hi ∧ hi ≤ cur.high then narrowFails ({ cur with low := lo, high := hi } :: seen) rest
    else th :: narrowFails seen rest

/-- VNARROW (R203). TRAPINFO of WIDEN is 0. [DESIGN CHOICE: log 94] -/
def execVnarrow (f : Insn) (s : State) : Host.Outcome State Fault Refusal :=
  issueWith (.vnarrow f) f (fun s x =>
    let word : Thread → Nat := fun th => s.src th f.opb 2
    if x.act.any fun th => decide (2 ^ 44 ≤ word th) then trapAll x Cause.illop 0
    else match s.handles x (s.ctxOfExec x) x.act 0 with
      | (.trap t, _) => .trap t
      | (.wait w, _) => .wait w
      | (.ok _, vs) =>
        let ns := vs.map fun (th, v) => (th, v, ptrOffset (s.ptr th f.opa), word th % 2 ^ 40)
        let bad := narrowFails [] ns
        if !bad.isEmpty then .trap { cause := Cause.widen, hit := bad.map (·.tid.lane), offsets := ns.map fun n => (n.1.tid.lane, n.2.2.1) }
        else .done (ns.foldl (fun t (th, v, lo, hi) =>
          let mask := BitVec.ofNat 4 (word th / 2 ^ 40)
          let cur := (t.cachedView x.ig.core v.ctx v.index).getD v
          let t := t.viewOp x th (ptrOffset (s.ptr th f.opa)) v false lo hi mask
          t.setCached x.ig.core { cur with low := lo, high := hi, rights := cur.rights &&& mask }) s) .later false) s

/-- VDROP (R205): lanes naming one view drop it once. -/
def execVdrop (f : Insn) (s : State) : Host.Outcome State Fault Refusal :=
  issueWith (.vdrop f) f (fun s x =>
    match s.handles x (s.ctxOfExec x) x.act 0 with
    | (.trap t, _) => .trap t
    | (.wait w, _) => .wait w
    | (.ok _, vs) =>
      .done (vs.foldl (fun t (th, v) =>
        let cur := (t.cachedView x.ig.core v.ctx v.index).getD v
        if cur.live then (t.viewOp x th (ptrOffset (s.ptr th f.opa)) v true 0 0 0).setCached x.ig.core { cur with live := false }
        else t.complete [th.tid] x.flag) s) .later false) s

/-- The word of `vqry.rt`; a stale handle gives the generation that the entry holds now. -/
def rightsWord (v : CachedView) (ok : Bool) (now : Nat) : Nat :=
  if ok then 2 ^ 31 + v.gen * 256 + (if v.held then 16 else 0) + v.rights.toNat else now * 256

/-- VQRY (R206). [DEDUCED: log 83] -/
def execVqry (f : Insn) (s : State) : Host.Outcome State Fault Refusal :=
  issueWith (.vqry f) f (fun s x =>
    let ctx := s.ctxOfExec x
    match x.act.find? fun th => (s.cachedView x.ig.core ctx (ptrIndex (s.ptr th f.opa))).isNone with
    | some th => .wait (s.fetchView x.ig.core ctx (ptrIndex (s.ptr th f.opa)))
    | none => fixedResult s x (if f.mod = 2 then 1 else 2) 20 fun th =>
      let p := s.ptr th f.opa
      let v := (s.cachedView x.ig.core ctx (ptrIndex p)).getD (noView ctx 0)
      let ok := v.live && v.gen == ptrGen p
      let now := match s.ctx? ctx with
        | some c => if ptrIndex p = 0 ∨ c.viewEntries ≤ ptrIndex p then 0 else (s.viewEntry c (ptrIndex p)).gen
        | none => 0
      if f.mod = 2 then rightsWord v ok now
      else if ok then (if f.mod = 0 then v.low else v.high) % 2 ^ 40 else 0) s

end Sys2Proof.Machine
end

