-- ==== Sys2Proof/Machine/Control.lean ====
section
/-! DEFINITION. Control and synchronisation instructions at issue, opcodes 0x80 to 0x97 without those that act on the
distributor (R148 to R171). -/

namespace Sys2Proof.Machine

/-! ### Branches and calls (R151 to R153) -/

/-- Sets the next PC of every member: the target in the active lanes, the next instruction in the others. -/
def State.jump (s : State) (x : Exec) (target : Thread → Word) : State :=
  s.modThreads x.ig.members fun t =>
    { t with pc := match x.act.find? fun a => decide (a.tid = t.tid) with
        | some a => target a
        | none => x.ig.pc + 12 }

/-- The target of a relative offset (R151). -/
def relativeTarget (s : State) (x : Exec) (th : Thread) : Word := BitVec.ofInt 32 (x.ig.pc.toNat + 12 + 12 * s.disp th x.f.opa)

/-- BRA (R151). -/
def execBra (f : Insn) (s : State) : Host.Outcome State Fault Refusal :=
  issueWith (.bra f) f (fun s x => .done (s.jump x (relativeTarget s x)) .atIssue true) s
/-- BRX (R152). -/
def execBrx (f : Insn) (s : State) : Host.Outcome State Fault Refusal :=
  issueWith (.brx f) f (fun s x => .done (s.jump x fun th => s.src32 th f.opa) .atIssue true) s
/-- RET (R152). -/
def execRet (f : Insn) (s : State) : Host.Outcome State Fault Refusal :=
  issueWith (.ret f) f (fun s x => .done (s.jump x fun th => s.src32 th f.opa) .atIssue true) s
/-- CALL (R153). -/
def execCall (f : Insn) (s : State) : Host.Outcome State Fault Refusal :=
  issueWith (.call f) f (fun s x =>
    let target : Thread → Word := fun th => if f.mod.getLsbD 0 then s.src32 th f.opa else relativeTarget s x th
    let t := s.putAll x 1 4 (x.act.map fun th => (th, (x.ig.pc + 12).toNat))
    .done (t.jump x target) (.at_ (x.due 4)) true) s

/-! ### Ending, yielding, traps (R154, R155, R158 to R160) -/

/-- An own access of a lane to the bytes of the object it names is still to be performed: the instruction follows it (R181). [DEDUCED: log 50] -/
def State.ownBusy (s : State) (x : Exec) (names : List (Thread × Nat)) (n : Nat) : Bool :=
  (s.core x.ig.core).outstanding.any fun a => a.inLocal && names.any fun p =>
    decide (a.tid = p.1.tid) && decide (a.off < p.2 + n) && decide (p.2 < a.off + a.bytes)

/-- EXIT (R154): it waits for none of the threads' outstanding accesses (R50). -/
def execExit (f : Insn) (s : State) : Host.Outcome State Fault Refusal :=
  issueWith (.exit f) f (fun s x => .done (s.exitThreads (x.act.map (·.tid))) .atIssue false) s
/-- YIELD (R155). -/
def execYield (f : Insn) (s : State) : Host.Outcome State Fault Refusal :=
  issueWith (.yield f) f (fun s x => .done (s.yieldThreads (x.act.map (·.tid))) .atIssue false) s
/-- TRAP (R158). -/
def execTrap (f : Insn) (s : State) : Host.Outcome State Fault Refusal :=
  issueWith (.trap f) f (fun s x => trapEach x Cause.trapi (fun th => s.src32 th f.opa) []) s

/-- TRET (R159). -/
def execTret (f : Insn) (s : State) : Host.Outcome State Fault Refusal :=
  issueWith (.tret f) f (fun s x =>
    if x.act.any fun th => !th.handler then trapAll x Cause.illop 0
    else .done ((x.act.map (·.tid)).foldl (State.leaveHandler · (f.mod.getLsbD 0)) (s.jump x (·.pc))) .atIssue true) s

/-- The threads that a stop of an issue group stops: its own and, where the context's stops halt the block, all of the blocks that they belong to
(R376). [DESIGN CHOICE: log 8] -/
def State.stopsWith (s : State) (ig : IssueGroup) : List Tid :=
  match (s.launch? ig.launch).bind fun l => s.ctx? l.ctx with
  | some c => if c.stopHalts then (s.threads.filter fun t => ig.members.any fun m => m.block == t.tid.block).map (·.tid) else ig.members
  | none => ig.members

/-- A stop with freeze holds the engine work of the blocks of the issue group (R377). [DESIGN CHOICE: log 8] -/
def State.freezeWith (s : State) (ig : IssueGroup) : State :=
  if ((s.launch? ig.launch).bind fun l => s.ctx? l.ctx).any (·.stopFreezes) then
    let hold : Block → Block := fun b => if ig.members.any fun m => m.block == b.key then { b with frozen := true } else b
    { s with blocks := s.blocks.map hold }.markPlaces (fun o => ig.members.any fun m => m.block == o.block) 2
  else s

/-- A debugger's stop of an issue group at a boundary (R376, R377): the results of the threads that stop have landed, and a stop record names
the thread. The issue group passes the breakpoint when it is resumed. -/
def State.stopGroup (s : State) (ig : IssueGroup) (named : Option Thread) : State :=
  let ts := s.stopsWith ig
  let s := ((s.settleResults ig.core ts).modThreads ts fun t => { t with stopped := true, passBreak := t.passBreak || ig.members.contains t.tid }).freezeWith ig
  match named with
  | some th => s.trace 2 th.tid false ig.pc []
  | none => s

/-- Do breakpoint stops apply to the issue group's context (R160, R388)? -/
def State.breakStopsOn (s : State) (ctx : Nat) : Bool :=
  decide (s.debug = .invasive) && ((s.ctx? ctx).map (·.breakStops)).getD false

/-- BKPT (R160): a group resumed at it goes on past it. -/
def execBkpt (f : Insn) (s : State) : Host.Outcome State Fault Refusal :=
  issueWith (.bkpt f) f (fun s x =>
    if s.breakStopsOn (s.ctxOfExec x) then
      if x.act.all (·.passBreak) then .done s .atIssue false else .wait (s.stopGroup x.ig x.act.head?)
    else trapAll x Cause.bkpt (((x.act.head?).map fun th => s.src32 th f.opa).getD 0)) s

/-! ### Blocking (R149) -/

/-- Blocks threads. -/
def State.blocking (s : State) (bl : List (Thread × Blocked)) : State :=
  s.modThreads (bl.map (·.1.tid)) fun t => { t with blocked := (bl.find? fun p => decide (p.1.tid = t.tid)).map (·.2) }

/-- Some lanes are blocked and the others go on, to the state `t`. Where the instruction needs convergence the others are held while
blocked threads stand at it (R280). In a handler the context faults instead (R157). -/
def blockLanes (s t : State) (x : Exec) (i : Instr) (c : Completes) (bl : List (Thread × Blocked)) : Act :=
  if bl.isEmpty then .done t c false
  else if bl.any (·.1.handler) then .wait (s.faultCtx (s.ctxOfExec x) (faultImage reasonHandler x.ig { cause := 0 }))
  else if needsConvergence i x.f then .wait (s.blocking bl)
  else .held (t.blocking bl) c (bl.map (·.1.tid))

/-- Threads go on from a blocking instruction. -/
def State.unblock (s : State) (ts : List Tid) : State :=
  s.modThreads ts fun t => { t with blocked := none, waitSince := none, waitOver := false }

/-- A release at block scope waits at issue for the threads' accesses to be performed there; a wider one for all, and for the stores of their
block. Both wait for the threads' earlier fences that order releases (R198, R300). Multicast stores are published by an observed completion
alone (R309, R311). [DESIGN CHOICE: log 34] -/
def State.releaseWait (s : State) (core : Nat) (ts : List Tid) (wide : Bool) : Bool :=
  ((s.core core).accs.any fun a => ts.contains a.tid && a.isFence && a.releases)
    || (if wide then ((s.core core).outstanding.any fun a => ts.contains a.tid && a.inOrder && !a.isMulticast)
          || ts.any fun t => !((s.core core).blockWrites t.block).isEmpty
        else (s.core core).accs.any fun a => ts.contains a.tid && a.inOrder && !a.isMulticast && !a.atBlk)

/-! ### Barriers (R161 to R164, R287 to R291) -/

/-- First occurrences of a list, in order. -/
def uniq {α : Type} [DecidableEq α] (l : List α) : List α := (dedup l.reverse).reverse

/-- The barrier each active lane names. -/
def State.barNames (s : State) (x : Exec) : List (Thread × Nat) := x.act.map fun th => (th, s.localAddr th x.f.opa)

/-- The trap of some lanes, with TRAPINFO 0. -/
def trapLanes (x : Exec) (c : BitVec 6) (bad : List Thread) : Option Trap :=
  if bad.isEmpty then none else some { cause := c, infos := x.mem.map fun t => (t.tid, 0), hit := bad.map (·.tid.lane) }

/-- A misaligned address, with TRAPINFO as R177 gives it. -/
def misaligned (names : List (Thread × Nat)) (al : Nat) : Option Trap :=
  let bad := names.filter fun p => p.2 % al != 0
  if bad.isEmpty then none
  else some { cause := Cause.align, hit := bad.map (·.1.tid.lane)
              infos := names.map fun p => (p.1.tid, accessInfo (p.2 % al != 0) 0 p.2) }

/-- Not wholly within the own block's local memory. [DEDUCED: log 50] -/
def State.foreign (s : State) (n : Nat) (p : Thread × Nat) : Bool :=
  match s.block? p.1.tid.block with
  | some b => !b.ownsLocal p.2 n
  | none => true

/-- The barrier at an address is registered with the thread's block. -/
def State.barOf (s : State) (p : Thread × Nat) : Option Nat := (s.block? p.1.tid.block).bind fun b => b.barIndex p.2

/-- Must an instruction that needs a registered barrier trap BARERR? Open where a write that R291 forbids has met the barrier. [DESIGN CHOICE: log 54] -/
def State.barRefused (s : State) (x : Exec) (p : Thread × Nat) : Bool :=
  (s.barOf p).isNone || (s.barStrayed x.ig.core p.2 && Config.choose s.tick (2 ^ 54 + p.2) % 2 == 1)

/-- The address checks of R161; with `reg`, the barrier must be registered. -/
def State.barTrap (s : State) (x : Exec) (reg : Bool) : Option Trap :=
  let names := s.barNames x
  match misaligned names 16 with
  | some t => some t
  | none => match trapLanes x Cause.barerr ((names.filter (s.foreign 16)).map (·.1)) with
    | some t => some t
    | none => if reg then trapLanes x Cause.barerr ((names.filter (s.barRefused x)).map (·.1)) else none

/-- Lowest free index of a block's barrier table. -/
def Block.freeBar (b : Block) : Nat := ((List.range 16).find? fun i => !(b.barriers.any fun x => x.1 == i)).getD 0

/-- Registers or reinitialises one barrier (R162): its fields are known again. -/
def State.initBar (s : State) (key : BlockKey) (a expected : Nat) : State :=
  match s.block? key with
  | none => s
  | some b =>
    let i := (b.barIndex a).getD b.freeBar
    let s := s.modBlock key fun b => { b with barriers := (i, a) :: b.barriers.filter (fun x => x.1 != i)
                                              strayed := b.strayed.filter fun p => !(p.1 == a && p.2.length == 16) }
    let forget : Thread → Thread := fun t => if t.tid.block = key then { t with arrivals := t.arrivals.filter fun x => x.1 != i } else t
    { s with threads := s.threads.map forget }.putBar b.core a ⟨expected, 0, 0, 0, 0, 0x8000 + i⟩

/-- BARINIT (R162). -/
def execBarinit (f : Insn) (s : State) : Host.Outcome State Fault Refusal :=
  issueWith (.barinit f) f (fun s x =>
    match s.barTrap x false with
    | some t => .trap t
    | none => if s.ownBusy x (s.barNames x) 16 then .wait s else
      let names := s.barNames x
      let count : Thread → Nat := fun th => (s.src32 th f.opb).toNat
      let barriers := uniq (names.map fun p => (p.1.tid.block, p.2))
      let fresh : BlockKey → Nat := fun k =>
        ((barriers.filter fun q => decide (q.1 = k) && (((s.block? k).bind fun b => b.barIndex q.2).isNone))).length
      let held : BlockKey → Nat := fun k => ((s.block? k).map (·.barriers.length)).getD 0
      let bad := names.filter fun p =>
        decide (count p.1 < 1) || decide (1024 < count p.1)
          || ((s.barOf p).isSome && decide ((s.bar x.ig.core p.2).arrived ≠ 0))
          || ((s.barOf p).isNone && decide (16 < held p.1.tid.block + fresh p.1.tid.block))
      match trapLanes x Cause.barerr (bad.map (·.1)) with
      | some t => .trap t
      | none => .done (barriers.foldl (fun s q =>
          let lanes := names.filter fun p => decide (p.1.tid.block = q.1) && p.2 == q.2
          s.initBar q.1 q.2 ((lanes.getLast?.map fun p => count p.1).getD 0)) s) .atIssue false) s

/-- BARARR (R163): all lanes naming one barrier arrive in one step. [DEDUCED: log 50] -/
def execBararr (f : Insn) (s : State) : Host.Outcome State Fault Refusal :=
  issueWith (.bararr f) f (fun s x =>
    match s.barTrap x true with
    | some t => .trap t
    | none => if s.releaseWait x.ig.core (x.act.map (·.tid)) false then .wait s else
      let names := s.barNames x
      let tx := f.mod.getLsbD 0
      let owed : Thread → Nat := fun th => if tx then (s.src32 th f.opb).toNat else 0
      let lanesOf : Nat → List Thread := fun a => (names.filter fun p => p.2 == a).map (·.1)
      let sum : Nat → Nat := fun a => ((lanesOf a).map owed).sum
      let bad := names.filter fun p =>
        let b := s.bar x.ig.core p.2
        decide (2 ^ 31 ≤ owed p.1) || decide (b.expected < b.arrived + (lanesOf p.2).length)
          || (tx && decide (2 ^ 31 - 1 < b.pending + sum p.2))
      match trapLanes x Cause.barerr (bad.map (·.1)) with
      | some t => .trap t
      | none =>
        let t := (uniq (names.map (·.2))).foldl (fun t a =>
          let b := t.bar x.ig.core a
          let lanes := lanesOf a
          let i := ((lanes.head?.bind fun th => s.barOf (th, a))).getD 0
          let t := t.modThreads (lanes.map (·.tid)) fun th =>
            { th with arrivals := (i, BitVec.ofNat 32 b.phase) :: th.arrivals.filter fun y => y.1 != i }
          t.putBar x.ig.core a { b with arrived := b.arrived + lanes.length, pending := b.pending + sum a }.settle) s
        .done (t.putAll x 1 8 (names.map fun p => (p.1, (s.bar x.ig.core p.2).phase))) (.at_ (x.due 8)) false) s

/-- Does the barrier's phase differ from a lane's OPB? -/
def State.phasePassed (s : State) (x : Exec) (p : Thread × Nat) : Bool :=
  s.phaseDiffers x.ig.core p.2 (s.src32 p.1 x.f.opb)

/-- The lanes of a BARWAIT whose phase has not passed. -/
def State.barBlocked (s : State) (x : Exec) : List (Thread × Blocked) :=
  ((s.barNames x).filter fun p => !s.phasePassed x p).map fun p => (p.1, .barrier p.2 (s.src32 p.1 x.f.opb))

/-- BARWAIT (R164). -/
def execBarwait (f : Insn) (s : State) : Host.Outcome State Fault Refusal :=
  issueWith (.barwait f) f (fun s x =>
    match s.barTrap x true with
    | some t => .trap t
    | none => if s.ownBusy x (s.barNames x) 16 then .wait s else
      let on := (s.barNames x).filter (s.phasePassed x)
      blockLanes s (s.unblock (on.map (·.1.tid))) x (.barwait f) .atIssue (s.barBlocked x)) s

/-- BARTEST (R164). -/
def execBartest (f : Insn) (s : State) : Host.Outcome State Fault Refusal :=
  issueWith (.bartest f) f (fun s x =>
    match s.barTrap x true with
    | some t => .trap t
    | none => if s.ownBusy x (s.barNames x) 16 then .wait s else fixedResult s x 1 8 fun th => if s.phasePassed x (th, s.localAddr th f.opa) then 1 else 0) s

/-! ### GSYNC and QUOTA (R48, R165, R166) -/

/-- GSYNC (R165): each active thread arrives and blocks. -/
def execGsync (f : Insn) (s : State) : Host.Outcome State Fault Refusal :=
  issueWith (.gsync f) f (fun s x =>
    if s.releaseWait x.ig.core (x.act.map (·.tid)) false then .wait s
    else blockLanes s s x (.gsync f) .atIssue (x.act.map fun th => (th, .gsync f.yld))) s

/-- QUOTA (R166). -/
def execQuota (f : Insn) (s : State) : Host.Outcome State Fault Refusal :=
  issueWith (.quota f) f (fun s x =>
    match x.act.head? with
    | none => .done s .atIssue false
    | some th =>
      let p := (s.src32 th f.opa).toNat
      let n := (s.src32 th f.opb).toNat
      match s.group? th.tid.block th.tid.group, s.group? th.tid.block p with
      | some g, some h =>
        if n = 0 ∨ 32 < n ∨ p = th.tid.group ∨ g.quotaPending ≠ 0 ∨ h.quotaPending ≠ 0 ∨ g.alloc < 8 * n ∨ 256 < h.alloc + 8 * n then
          trapAll x Cause.quota 0
        else
          let s := s.modGroup th.tid.block th.tid.group fun g => { g with quotaPending := -(n : Int), quotaPartner := p }
          .done (s.modGroup th.tid.block p fun g => { g with quotaPending := n, quotaPartner := th.tid.group }) .atIssue false
      | _, _ => trapAll x Cause.quota 0) s

/-- Does every live thread of a group stand blocked at a GSYNC, with no write window occupied (R76, R165)? -/
def State.atGsync (s : State) (b : BlockKey) (g : Nat) : Bool :=
  let live := (s.groupThreads b g).filter (·.alive)
  !live.isEmpty && live.all (fun t => match t.blocked with
    | some (.gsync _) => decide (t.life = .live)
    | _ => false)
  && match s.group? b g with
    | some x => x.windows.all fun w => decide (w.due ≤ (s.core (coreOf x.home)).clock)
    | none => false

/-- Granules of registers free in a scheduler's partition (R262). -/
def State.freeGranules (s : State) (core sched : Nat) : Nat :=
  64 - ((s.groups.filter fun g => coreOf g.home == core && g.sched == sched).map fun g => g.alloc / 8).sum

/-- Completes a group's GSYNC: every thread goes on. The threads at each PC issue it in one issue group, which occupies the
scheduler's datapath, from when it is free, for a cycle in each quarter-slot that holds one of them (R149, R150, R277). -/
def State.passGsync (s : State) (b : BlockKey) (g : Nat) : State :=
  let live := (s.groupThreads b g).filter (·.alive)
  let core := ((s.group? b g).map fun x => coreOf x.home).getD 0
  let sched := ((s.group? b g).map (·.sched)).getD 0
  let now := (s.core core).clock
  let pcs := uniq (live.map (·.pc))
  let slots := (pcs.map fun pc => (uniq ((live.filter fun t => t.pc == pc).map fun t => t.tid.lane / 32)).length).sum
  let s := pcs.foldl (fun s pc =>
    match live.find? fun t => t.pc == pc with
    | some t => s.trace 1 t.tid true pc []
    | none => s) s
  let s := s.modThreads (live.map (·.tid)) fun t =>
    { t with pc := t.pc + 12, blocked := none, lastIssue := some now, passBreak := false
             yielded := match t.blocked with
               | some (.gsync true) => some 0
               | _ => none }
  let s := s.modGroup b g fun x => { x with readySince := none, forced := false, hang := 0, hangPcs := [] }
  s.modCore core fun c => { c with freeAt := c.freeAt.set sched (max now (c.freeAt.getD sched 0) + slots), issued := c.issued + pcs.length }

/-- The vector registers a group gives up or receives become 0 and full. -/
def State.clearRegs (s : State) (home lo n : Nat) : State :=
  { s with vregs := sclear s.vregs (vkey home lo 0) (128 * n), fills := sclear s.fills (vkey home lo 0) (128 * n) }

/-- Forgets a pending transfer (R48). -/
def State.endQuota (s : State) (b : BlockKey) (g : Nat) : State := s.modGroup b g fun x => { x with quotaPending := 0, quotaPartner := 0 }

/-- Takes a group's granules or adds them (R48). -/
def State.moveQuota (s : State) (b : BlockKey) (g : Group) : State :=
  let n := 8 * g.quotaPending.natAbs
  let s := if g.quotaPending < 0 then s.clearRegs g.home (g.alloc - n) n else s.clearRegs g.home g.alloc n
  let s := s.modGroup b g.index fun x =>
    { x with alloc := (x.alloc + 8 * g.quotaPending).toNat, transferred := x.transferred + g.quotaPending }
  s.endQuota b g.index

/-- The trap QUOTA of a group at its GSYNC, for the threads at each PC. -/
def State.quotaTrap (s : State) (b : BlockKey) (g : Group) : State :=
  let live := (s.groupThreads b g.index).filter (·.alive)
  (uniq (live.map (·.pc))).foldl (fun s pc =>
    s.takeTrap ⟨coreOf g.home, g.sched, b.launch, pc, (live.filter fun t => t.pc == pc).map (·.tid)⟩ { cause := Cause.quota }) s

/-- The GSYNC of a group, and of its partner where a transfer is pending, completes (R165, R48). -/
def State.doGsync (s : State) (b : BlockKey) (x : Group) : State :=
  if x.quotaPending = 0 then s.passGsync b x.index
  else match s.group? b x.quotaPartner with
    | none => s
    | some y =>
      let taker := if 0 < x.quotaPending then x else y
      if x.sched = y.sched ∨ taker.quotaPending.natAbs ≤ s.freeGranules (coreOf taker.home) taker.sched then
        (((s.moveQuota b x).moveQuota b y).passGsync b x.index).passGsync b y.index
      else
        let s := (s.endQuota b x.index).endQuota b y.index
        (s.quotaTrap b x).quotaTrap b y

/-! ### Mailboxes (R167, R168, R294 to R297) -/

/-- The trap of a mailbox address or of the check of R295. -/
def State.mbxTrap (s : State) (x : Exec) (names : List (Thread × Nat)) : Option Trap :=
  match misaligned names 32 with
  | some t => some t
  | none => if s.ownBusy x names 32 then none else trapLanes x Cause.mbxerr ((names.filter fun p =>
      (match s.block? p.1.tid.block with
        | some b => !(if x.f.mod.getLsbD 1 then s.gangLocal b p.2 32 else b.ownsLocal p.2 32)
        | none => true) || !s.mbxOk x.ig.core p.2).map (·.1))

/-- The lanes that act: with a uniform or immediate index the instruction names that slot once in each mailbox (R167). -/
def mbxActors (o : Operand) (names : List (Thread × Nat)) : List (Thread × Nat) :=
  match o with
  | .vec .. | .idx .. => names
  | _ => (uniq (names.map (·.2))).filterMap fun a => names.find? fun p => p.2 == a

/-- Is another thread blocked on a cursor of a mailbox since before a ticket (R296)? -/
def State.mbxEarlier (s : State) (core a : Nat) (take : Bool) (ticket : Nat) (mine : List Tid) : Bool :=
  s.threads.any fun t => match t.blocked with
    | some (.mailbox b u _ k) => b == a && u == take && decide (k < ticket) && !mine.contains t.tid && clusterOf t.core == clusterOf core
    | _ => false

/-- Ticket of an instruction at a mailbox: its own where its threads are blocked there already. -/
def mbxTicket (x : Exec) : Nat :=
  ((minBy id (x.act.filterMap fun t => match t.blocked with
    | some (.mailbox _ _ _ k) => some k
    | _ => none))).getD x.inst

/-- The lanes that act in MBXPUT.rsv or MBXGET.take: with a uniform OPD, one for the issue group (R167). Where a vector OPA then names several
mailboxes, R167 does not say which gives the slot: that of the lowest active lane. [DESIGN CHOICE: log 90] -/
def mbxTakers (s : State) (x : Exec) : List (Thread × Nat) :=
  match x.f.opd with
  | .uni .. => (s.barNames x).take 1
  | _ => s.barNames x

/-- The slots that each mailbox must have ready: mailbox and lanes. -/
def mbxWants (s : State) (x : Exec) : List (Nat × List Thread) :=
  (uniq ((mbxTakers s x).map (·.2))).map fun a => (a, ((mbxTakers s x).filter fun p => p.2 == a).map (·.1))

/-- Are all the slots ready, and does no thread wait for one of them since before (R296)? -/
def State.mbxReady (s : State) (x : Exec) (take : Bool) : Bool :=
  (mbxWants s x).all fun w => (s.mbx x.ig.core w.1).ready take w.2.length
    && !s.mbxEarlier x.ig.core w.1 take (mbxTicket x) (x.act.map (·.tid))

/-- What the active lanes are blocked on while the slots are not ready. -/
def State.mbxBlocked (s : State) (x : Exec) (take : Bool) : List (Thread × Blocked) :=
  (s.barNames x).map fun p =>
    (p.1, .mailbox p.2 take (max 1 ((((mbxWants s x).find? fun w => w.1 == p.2).map (·.2.length)).getD 0)) (mbxTicket x))

/-- MBXPUT.rsv or MBXGET.take (R167, R296): all slots are granted, or every active lane blocks. -/
def mbxTake (take : Bool) (i : Instr) (s : State) (x : Exec) : Act :=
  let names := s.barNames x
  match s.mbxTrap x names with
  | some t => .trap t
  | none => if s.ownBusy x names 32 then .wait s else
    let wants := mbxWants s x
    let core := x.ig.core
    match trapLanes x Cause.mbxerr ((wants.filter fun w => decide ((s.mbx core w.1).slots < w.2.length)).flatMap (·.2)) with
    | some t => .trap t
    | none =>
      if s.mbxReady x take then
        let vals := wants.flatMap fun w =>
          let m := s.mbx core w.1
          w.2.zip (m.at_ (if take then m.take else m.rsv) w.2.length)
        let t := wants.foldl (fun t w => t.putMbx core w.1 ((t.mbx core w.1).grant take w.2.length)) (s.unblock (x.act.map (·.tid)))
        let t := if x.f.mod.getLsbD 1 then t.staleLines core else t
        .done (t.putAll x 1 8 (sortBy (fun p => p.1.tid.lane) vals)) (.at_ (x.due 8)) false
      else blockLanes s s x i (.at_ (x.due 8)) (s.mbxBlocked x take)

/-- MBXPUT.rsv (R167). [DEDUCED: log 50] -/
def execMbxputRsv (f : Insn) (s : State) : Host.Outcome State Fault Refusal := issueWith (.mbxputRsv f) f (mbxTake false (.mbxputRsv f)) s
/-- MBXGET.take (R167). -/
def execMbxgetTake (f : Insn) (s : State) : Host.Outcome State Fault Refusal := issueWith (.mbxgetTake f) f (mbxTake true (.mbxgetTake f)) s

/-- Publishes or releases slots one after another; none when a slot is not in the state it needs (R167). -/
def State.mbxFinish (s : State) (core : Nat) (rel : Bool) : List (Nat × Nat) → Option State
  | [] => some s
  | (a, i) :: rest =>
    let m := s.mbx core a
    if i < m.slots ∧ m.slot i = (if rel then 3 else 1) then (s.putMbx core a (m.finish rel i)).mbxFinish core rel rest
    else none

/-- MBXPUT.pub or MBXGET.rel (R167, R168). -/
def mbxGive (rel : Bool) (s : State) (x : Exec) : Act :=
  let names := s.barNames x
  match s.mbxTrap x names with
  | some t => .trap t
  | none => if s.ownBusy x names 32 then .wait s else
    let ops := (mbxActors x.f.opb names).map fun p => (p.2, (s.src32 p.1 x.f.opb).toNat)
    match s.mbxFinish x.ig.core rel ops with
    | none => trapAll x Cause.mbxerr 0
    | some t => if s.releaseWait x.ig.core (x.act.map (·.tid)) (x.f.mod.getLsbD 1) then .wait s else .done t .atIssue false

/-- MBXPUT.pub (R167). -/
def execMbxputPub (f : Insn) (s : State) : Host.Outcome State Fault Refusal := issueWith (.mbxputPub f) f (mbxGive false) s
/-- MBXGET.rel (R167). -/
def execMbxgetRel (f : Insn) (s : State) : Host.Outcome State Fault Refusal := issueWith (.mbxgetRel f) f (mbxGive true) s

/-! ### System registers and time (R169, R170) -/

/-- ISSUEMASK (R169). -/
def issueMask (x : Exec) (th : Thread) (q : Nat) : Nat :=
  let m := if th.handler then th.trapMask
    else laneMask ((x.ig.members.filter fun t => decide (t.block = th.tid.block) && decide (t.group = th.tid.group)).map (·.lane))
  (m.extractLsb' (32 * q) 32).toNat

/-- The value of a selector (R169). -/
def State.sysValue (s : State) (x : Exec) (th : Thread) : Nat :=
  let core := x.ig.core
  match x.f.mod.toNat with
  | 0x00 => th.tid.lane
  | 0x01 => th.tid.group
  | 0x02 => th.tid.block.index
  | 0x03 => th.tid.block.launch
  | 0x04 => core
  | 0x05 => s.device
  | 0x06 => s.quarterClocks.getD (quarterOf core) 0 % 2 ^ 32
  | 0x07 => th.clkHi.toNat
  | 0x08 => (s.readCell core (.fpflags th.tid) th.tid.lane).toNat
  | 0x09 => th.trapCause.toNat
  | 0x0A => th.trapPc.toNat
  | 0x0B => th.trapInfo.toNat
  | 0x0C => ((s.block? th.tid.block).map (·.threads)).getD 0
  | 0x0D => issueMask x th (s.src th x.f.opb 1 % 4)
  | 0x40 => s.ctxOf th.tid.block
  | 0x41 => (s.core core).waits.length
  | _ => (s.core core).side.length

/-- RDSYS (R169); reading DIECLKLO latches the high bits for the thread. -/
def execRdsys (f : Insn) (s : State) : Host.Outcome State Fault Refusal :=
  issueWith (.rdsys f) f (fun s x =>
    let t := if f.mod = 6 then
        s.modThreads (x.act.map (·.tid)) fun t => { t with clkHi := BitVec.ofNat 32 (s.quarterClocks.getD (quarterOf x.ig.core) 0 / 2 ^ 32) }
      else s
    .done (t.putAll x 1 4 (x.act.map fun th => (th, s.sysValue x th))) (.at_ (x.due 4)) false) s

/-- WRSYS (R169): FPFLAGS alone may be written. -/
def execWrsys (f : Insn) (s : State) : Host.Outcome State Fault Refusal :=
  issueWith (.wrsys f) f (fun s x =>
    .done (x.act.foldl (fun t th =>
      t.writeFixed x.ig.core th.tid (.fpflags th.tid) (BitVec.ofNat 32 (s.src th f.opa 1 % 32)) (x.due 2)) s) (.at_ (x.due 2)) false) s

/-- CLOCK (R170). -/
def execClock (f : Insn) (s : State) : Host.Outcome State Fault Refusal :=
  issueWith (.clock f) f (fun s x => fixedResult s x 2 4 fun _ => x.now % 2 ^ 64) s

/-! ### WAITF (R171) -/

/-- Are the flags of a mask clear in a thread? -/
def Thread.clear (t : Thread) (mask : BitVec 12) : Bool := (List.range 12).all fun i => !(mask.getLsbD i && t.flag i)

/-- The mask of flags, and the limit, that WAITF names in a lane. -/
def State.waitfMask (s : State) (x : Exec) (th : Thread) : BitVec 12 := BitVec.ofNat 12 (s.src th x.f.opa 1)
def State.waitfLimit (s : State) (x : Exec) (th : Thread) : Nat := (s.src32 th x.f.opb).toNat

/-- Has the limit of a WAITF passed since the thread first stood at it? -/
def limitPassed (since limit now : Nat) : Bool := decide (limit ≠ 0) && decide (since + limit ≤ now)

/-- The wait of a WAITF is over in a lane: the flags are clear, or the limit has passed. -/
def State.waitfOver (s : State) (x : Exec) (th : Thread) : Bool :=
  th.clear (s.waitfMask x th) || th.waitOver || limitPassed (th.waitSince.getD x.now) (s.waitfLimit x th) x.now

/-- The lanes of a WAITF that go on waiting. -/
def State.waitfBlocked (s : State) (x : Exec) : List (Thread × Blocked) :=
  (x.act.filter fun th => !s.waitfOver x th).map fun th => (th, .waitf (s.waitfMask x th) (th.waitSince.getD x.now) (s.waitfLimit x th))

/-- WAITF (R171): 1 where the flags cleared, 0 where the limit ended the wait before. -/
def execWaitf (f : Insn) (s : State) : Host.Outcome State Fault Refusal :=
  issueWith (.waitf f) f (fun s x =>
    let on := x.act.filter (s.waitfOver x)
    let t := (s.putAll x 1 2 (on.map fun th => (th, if th.clear (s.waitfMask x th) && !th.waitOver then 1 else 0))).unblock (on.map (·.tid))
    blockLanes s t x (.waitf f) (.at_ (x.due 2)) (s.waitfBlocked x)) s

/-- The limit of a thread's WAITF has passed, and its flags have not cleared. -/
def Thread.limitOver (t : Thread) (now : Nat) : Bool :=
  match t.blocked with
  | some (.waitf mask since limit) => !t.clear mask && limitPassed since limit now
  | _ => false

/-- WAITF_LIMIT (R171): the limit has passed since the thread first stood at its WAITF. -/
def execWaitfLimit (t : Tid) (s : State) : Host.Outcome State Fault Refusal :=
  match s.thread? t with
  | some th => if th.limitOver (s.core th.core).clock then conclude (s.modThread t fun th => { th with waitOver := true }) else conclude s
  | none => conclude s

/-! ### Threads that stand at a blocking instruction (R149) -/

/-- Instructions at which a thread may block. -/
def mayBlock : Instr → Bool
  | .barwait _ | .gsync _ | .mbxputRsv _ | .mbxgetTake _ | .waitf _ => true
  | _ => false

/-- The active lanes that a blocking instruction blocks where it would not trap. -/
def State.blockers (s : State) (x : Exec) (i : Instr) : List (Thread × Blocked) :=
  let box : Bool → List (Thread × Blocked) := fun take =>
    if (s.mbxTrap x (s.barNames x)).isSome || s.ownBusy x (s.barNames x) 32
      || (mbxWants s x).any (fun w => decide ((s.mbx x.ig.core w.1).slots < w.2.length)) || s.mbxReady x take then []
    else s.mbxBlocked x take
  match i with
  | .barwait _ => if (s.barTrap x true).isSome || s.ownBusy x (s.barNames x) 16 then [] else s.barBlocked x
  | .gsync f => if s.releaseWait x.ig.core (x.act.map (·.tid)) false then [] else x.act.map fun th => (th, .gsync f.yld)
  | .mbxputRsv _ => box false
  | .mbxgetTake _ => box true
  | .waitf _ => s.waitfBlocked x
  | _ => []

end Sys2Proof.Machine
end

