-- ==== Sys2Proof/Machine/Schedule.lean ====
section
/-! DEFINITION. The schedulers of a core (R273 to R277), its cycles, and the traps that threads take at instruction
boundaries (R188, R196, R212, R258, R284, R376). -/

namespace Sys2Proof.Machine

/-! ### Fragments (R274) -/

/-- Does the condition of a blocked thread hold now (R149)? -/
def State.unblocked (s : State) (t : Thread) : Bool :=
  match t.blocked with
  | none => true
  | some (.barrier a phase) => s.phaseDiffers t.core a phase
  | some (.gsync _) => false
  | some .ended => false
  | some (.mailbox a take k ticket) => (s.mbx t.core a).ready take k && !s.mbxEarlier t.core a take ticket [t.tid]
  | some (.waitf mask since limit) => t.clear mask || t.waitOver || limitPassed since limit (s.core t.core).clock

/-- Waits a restored block for the loads of its latch slots: they come before its first group issues (R216)? -/
def State.reloading (s : State) (b : Block) : Bool := (s.core b.core).engine.any fun o => o.block == b.key && o.insn == 0

/-- The threads of a home group that may be candidates: live, not parked, not blocked, not yielded, not stopped; while one is in a
handler, those in a handler alone. -/
def State.candidates (s : State) (g : Group) : List Thread :=
  match s.block? g.block with
  | none => []
  | some b =>
    if (b.phase ≠ .running ∧ b.phase ≠ .evicting) ∨ s.reloading b then []
    else
      let ths := (s.groupThreads g.block g.index).filter fun t =>
        (t.handler || decide (b.phase = .running)) && decide (t.life = .live) && t.yielded.isNone && !t.stopped && s.unblocked t && s.mayIssue b.ctx t.handler
      if (s.groupThreads g.block g.index).any fun t => t.alive && t.handler then ths.filter (·.handler) else ths

/-- The fragment of a home group. -/
def State.fragment (s : State) (g : Group) : Option IssueGroup :=
  let ths := s.candidates g
  (minBy (fun t => t.pc.toNat) ths).map fun t =>
    ⟨coreOf g.home, g.sched, g.block.launch, t.pc, (ths.filter fun x => x.pc == t.pc).map (·.tid)⟩

/-- Does a cancel trap wait for the thread (R258)? -/
def State.cancelDue (s : State) (t : Thread) : Bool :=
  ((s.block? t.tid.block).map (·.cancel)).getD false && decide (t.life = .live) && !(t.handler && t.trapCause == Cause.cancel)

/-- Has some thread of the group a trap to take before its next instruction? [DEDUCED: log 81] -/
def State.trapDue (s : State) (ig : IssueGroup) : Bool :=
  (s.members ig).any fun t => !t.deferred.isEmpty || t.memue.isSome || t.mcnack.isSome || s.cancelDue t
    || ((s.group? t.tid.block t.tid.group).map fun g => decide (hangLimit ≤ g.hang)).getD false

/-- Has a fetch that finds no code something to do: tables that are broken (R246), or a line to ask a peer for? -/
def State.codeAsks (s : State) (ig : IssueGroup) : Bool :=
  match (s.launch? ig.launch).bind fun l => (s.ctx? l.ctx).map fun c => (l, c) with
  | none => false
  | some (l, c) => [0, 4, 8].any fun i =>
      let off := l.base + 64 + ig.pc.toNat + i
      match s.translate c l.obj off 4 with
      | .bad => true
      | .peer _ => !s.unitAsked c.num l.obj (off / 256 * 256)
      | _ => false

/-- May the issue group issue, or trap, in this cycle (R274)? -/
def State.canIssue (s : State) (ig : IssueGroup) : Bool :=
  !s.trapDue ig && (match s.fetch ig.launch ig.pc with
    | .absent => s.codeAsks ig
    | .trap _ _ => true
    | .word w => match Sys2Proof.decode w with
      | .error _ => true
      | .ok i => match i.word? with
        | some (_, f) => decide (s.checks ig i f ≠ .wait)
        | none => true)

/-- The live threads of a group that stands at a GSYNC, as one issue group. -/
def State.gsyncGroup (s : State) (g : Group) : Option IssueGroup :=
  let live := (s.groupThreads g.block g.index).filter (·.alive)
  (minBy (fun t => t.pc.toNat) live).map fun t => ⟨coreOf g.home, g.sched, g.block.launch, t.pc, live.map (·.tid)⟩

/-- Stands a whole group at a GSYNC that its threads may pass: they may issue, and have no trap to take? -/
def State.gsyncStands (s : State) (g : Group) : Bool :=
  s.atGsync g.block g.index && ((s.block? g.block).any fun b => decide (b.phase = .running) && !s.reloading b && s.mayIssue b.ctx false)
    && (s.gsyncGroup g).any fun ig => !s.trapDue ig && (s.members ig).all fun t => !t.stopped

/-- May a group's GSYNC complete in this cycle: its own and, while a transfer is pending, its partner's (R165)? -/
def State.gsyncDue (s : State) (g : Group) : Bool :=
  s.gsyncStands g && (g.quotaPending == 0 || match s.group? g.block g.quotaPartner with
    | some y => s.gsyncStands y
    | none => false)

/-- The fragment is ready; a group whose GSYNC may complete offers all its threads. -/
def State.readyFragment (s : State) (g : Group) : Option IssueGroup :=
  if s.gsyncDue g then s.gsyncGroup g
  else match s.fragment g with
    | some ig => if s.canIssue ig then some ig else none
    | none => none

/-- Does the fragment hold every live thread of its home group? -/
def State.whole (s : State) (g : Group) (ig : IssueGroup) : Bool := (s.liveOf g.block g.index).all ig.members.contains

/-! ### Cycles -/

/-- Is the core stopped: its clock gated (R170, R383), or the device halted by a debugger (R366)? -/
def State.coreOff (s : State) (core : Nat) : Bool :=
  s.gated.contains (quarterOf core) || decide (s.power ≠ .p0 ∧ s.power ≠ .p2) || s.debugHalt || s.deepHalt

/-- The instruction that an issue group stands at. -/
def State.nextInsn (s : State) (ig : IssueGroup) : Option (Instr × Insn) :=
  match s.fetch ig.launch ig.pc with
  | .word w => match Sys2Proof.decode w with
    | .ok i => (i.word?).map fun p => (i, p.2)
    | .error _ => none
  | _ => none

/-- Threads of a group that stand at a PC, yielded ones too (R280), and may be blocked there without being selected: neither blocked yet nor in a
handler. -/
def State.standing (s : State) (g : Group) (pc : Word) : IssueGroup :=
  ⟨coreOf g.home, g.sched, g.block.launch, pc,
    (((s.groupThreads g.block g.index).filter fun t => t.pc == pc && decide (t.life = .live) && t.blocked.isNone
      && !t.stopped && !t.handler)).map (·.tid)⟩

/-- The threads of a group that stand at a PC: those that stand at a WAITF from now on, and those that a blocking instruction blocks
(R149, R171). -/
def State.standAt (s : State) (g : Group) (pc : Word) : State :=
  let ig := s.standing g pc
  let now := (s.core ig.core).clock
  if ig.members.isEmpty then s
  else match s.nextInsn ig with
    | none => s
    | some (i, f) =>
      if !mayBlock i then s
      else
        let s := match i with
          | .waitf _ => s.modThreads ig.members fun t => { t with waitSince := some (t.waitSince.getD now) }
          | _ => s
        match s.checks ig i f with
        | .go act =>
          let bl := s.blockers (s.execAt ig i f act) i
          if bl.isEmpty then s else (s.blocking bl).fresh 1
        | _ => s

/-- The groups of a core at the start of a cycle: their threads that stand at blocking instructions. -/
def State.standAll (s : State) (core : Nat) : State :=
  (s.groups.filter fun g => decide (coreOf g.home = core)).foldl (fun s g =>
    match s.block? g.block with
    | some b =>
      if b.phase = .running ∧ s.mayIssue b.ctx false then (uniq ((s.groupThreads g.block g.index).map (·.pc))).foldl (fun s pc => s.standAt g pc) s
      else s
    | none => s) s

/-- What a group's next instruction finds of the write windows (R72): that it waits for the oldest of four. -/
def State.tickWindows (s : State) (core : Nat) (g : Group) : Option (Word × Nat) :=
  let now := (s.core core).clock
  match s.fragment g with
  | none => none
  | some ig => match s.nextInsn ig with
    | none => none
    | some (i, _) =>
      let held := match g.windowHold with
        | some (pc, due) => pc == ig.pc && decide (now < due)
        | none => false
      if held then g.windowHold
      else if s.takesWindow i (s.members ig) && decide (4 ≤ (g.openWindows now).length) then (g.openWindows now).head?.map fun w => (ig.pc, w.due)
      else none

/-- One home group at the start of a cycle: its waiting time, its hang detector, the write windows (R72, R275, R284). The detector
counts the cycles in which the group has a fragment, waiting ones too; a thread is blocked while the condition it waits for does not hold
(R149). [DEDUCED: log 81] -/
def State.tickGroup (s : State) (core : Nat) (g : Group) : Group :=
  if coreOf g.home ≠ core then g
  else
    let now := (s.core core).clock
    let ready := (s.readyFragment g).isSome
    let g := { g with readySince := if ready then some (g.readySince.getD now) else none, forced := ready && g.forced
                      windowHold := if g.windows.isEmpty then none else s.tickWindows core g }
    if hangLimit ≤ g.hang then g
    else if !s.gsyncDue g && (s.groupThreads g.block g.index).any (fun t => t.blocked.isSome && !s.unblocked t) then { g with hang := 0, hangPcs := [] }
    else if (s.fragment g).isSome && (s.core core).idle == 0 then { g with hang := g.hang + 1 } else g

/-- The yield counts of the threads of a core (R155). -/
def State.tickYield (s : State) (core : Nat) (t : Thread) : Thread :=
  match t.yielded with
  | none => t
  | some n =>
    if t.core ≠ core then t
    else match s.group? t.tid.block t.tid.group with
      | none => t
      | some g => { t with yielded := some (if (s.readyFragment g).isSome then 0 else n + 1) }

/-- The next cycle of a core begins. [DESIGN CHOICE: log 3, 79] -/
def State.nextCycle (s : State) (core : Nat) : State := s.modCore core fun c => { c with clock := c.clock + 1, turns := [] }

/-- The limits of the WAITFs of a core's threads (R171). -/
def tickLimit (core now : Nat) (t : Thread) : Thread :=
  if t.core = core ∧ t.limitOver now then { t with waitOver := true } else t

/-- What a core does before the first selection of a cycle, once the results that are due have landed: threads that stand at
blocking instructions, yields, waiting times, detectors, idle cycles. [DESIGN CHOICE: log 3, 79] -/
def State.tickCore (s : State) (core : Nat) : State :=
  let s := s.standAll core
  let s := { s with threads := s.threads.map (tickLimit core (s.core core).clock) }
  let s := { s with threads := s.threads.map (s.tickYield core) }
  let s := { s with groups := s.groups.map (s.tickGroup core) }
  s.modCore core fun c => { c with idle := c.idle - 1, idleSlices := c.idleSlices - 1, turns := if 0 < c.idle then [0, 1, 2, 3] else [] }

/-- Has every other scheduler of the core taken its turn in this cycle, or nothing to select from? -/
def State.othersDone (s : State) (core sched : Nat) : Bool :=
  [0, 1, 2, 3].all fun k => k == sched || (s.core core).turns.contains k || !(s.groups.any fun g => coreOf g.home == core && g.sched == k)

/-! ### Selection (R275, R276) -/

/-- Is a group's candidate forced: its waiting time has reached 256 (R275)? -/
def Group.isForced (g : Group) (now : Nat) : Bool := g.forced || decide (256 ≤ now - g.readySince.getD now)

/-- The ready fragments of a scheduler in the order of R275: forced first, longest waiting time, lowest home group. -/
def State.ranked (s : State) (core sched : Nat) : List (Group × IssueGroup) :=
  let now := (s.core core).clock
  let wait : Group → Nat := fun g => now - g.readySince.getD now
  let all := (s.groups.filter fun g => coreOf g.home == core && g.sched == sched).filterMap fun g =>
    (s.readyFragment g).map fun ig => (g, ig)
  let byHome := sortBy (fun p => p.1.home) all
  let rec_ := byHome.filter fun p => p.1.isForced now
  let others := byHome.filter fun p => !p.1.isForced now
  let longest : List (Group × IssueGroup) → List (Group × IssueGroup) := fun l =>
    let top := (l.map fun p => wait p.1).foldl max 0
    sortBy (fun p => top - wait p.1) l
  longest rec_ ++ longest others

/-- May an issue group's instruction be merged (R276)? -/
def State.mergeable (s : State) (ig : IssueGroup) : Bool :=
  match s.fetch ig.launch ig.pc with
  | .word w => match Sys2Proof.decode w with
    | .ok i => match i.word? with
      | some (_, f) => !needsConvergence i f
      | none => false
    | .error _ => false
  | _ => false

/-- Adds a fragment where its lane slots are free. -/
def addFragment (ig other : IssueGroup) : IssueGroup :=
  if other.members.any fun t => ig.members.any fun u => u.lane == t.lane then ig
  else { ig with members := ig.members ++ other.members }

/-- The issue group that a scheduler selects. -/
def State.selected (s : State) (core sched : Nat) : Option IssueGroup :=
  match s.ranked core sched with
  | [] => none
  | (g, ig) :: rest =>
    if s.whole g ig || !s.mergeable ig then some ig
    else some ((rest.filter fun p => !s.whole p.1 p.2 && p.2.pc == ig.pc && p.2.launch == ig.launch).foldl
      (fun a p => addFragment a p.2) ig)

/-- Does a breakpoint register match the issue group (R376)? -/
def State.breakHit (s : State) (ig : IssueGroup) : Bool :=
  match s.launch? ig.launch with
  | none => false
  | some l => match s.ctx? l.ctx with
    | none => false
    | some c => decide (s.debug = .invasive) && (c.breaks.any fun b => match b.2 with
        | some pc => (b.1 == 0 || b.1 == ig.launch) && pc == ig.pc
        | none => false) && (s.members ig).any fun t => !t.passBreak

/-- One TRAPINFO word for all the threads of a list. -/
def sameInfo (c : BitVec 6) (w : Word) (ths : List Thread) : Trap := { cause := c, infos := ths.map fun t => (t.tid, w) }

/-- Groups of the threads of an issue group in which a hang trap is due (R284). -/
def State.hangingGroups (s : State) (ig : IssueGroup) : List Group :=
  s.groups.filter fun g => g.hangDue && ig.members.any fun t => decide (t.block = g.block) && decide (t.group = g.index)

/-- The issue groups of a selection: one, or those in which the threads of a group, and of its partner in a transfer, issue the GSYNC that
completes, one for each PC (R149, R165). -/
def State.issueGroups (s : State) (g : Group) (ig : IssueGroup) : List IssueGroup :=
  if s.gsyncDue g then
    (g :: if g.quotaPending == 0 then [] else (s.group? g.block g.quotaPartner).toList).flatMap fun x =>
      let live := (s.groupThreads x.block x.index).filter (·.alive)
      (uniq (sortBy (·.toNat) (live.map (·.pc)))).map fun pc =>
        ⟨coreOf x.home, x.sched, x.block.launch, pc, (live.filter fun t => t.pc == pc).map (·.tid)⟩
  else [ig]

/-- The selected issue group traps HANG before it issues (R284), with the number of PCs in the set of the lowest group that hangs. -/
def State.takeHang (s : State) (ig : IssueGroup) : State :=
  let hs := s.hangingGroups ig
  let info := BitVec.ofNat 32 (((minBy (·.home) hs).map (·.hangPcs.length)).getD 0)
  let s := { s with groups := s.groups.map fun g => if hs.contains g then { g with hangDue := false, hang := 0 } else g }
  s.takeTrap ig (sameInfo Cause.hang info (s.members ig))

/-- What follows the selection of a candidate of a scheduler: the stop at a breakpoint, the hang trap, the completion of its GSYNC, or
its issue. -/
def State.select (s : State) (g : Group) (ig : IssueGroup) : State :=
  match (s.issueGroups g ig).find? s.breakHit with
  | some x => s.stopGroup x (s.members x).head?
  | none => match (s.issueGroups g ig).find? fun x => !(s.hangingGroups x).isEmpty with
    | some x => s.takeHang x
    | none => if s.gsyncDue g then s.doGsync g.block g else { s with issue := some ig }

/-- A scheduler's turn in the present cycle. -/
def State.turn_ (s : State) (core sched : Nat) : State :=
  if (s.core core).turns.contains sched then s
  else
    let s := s.modCore core fun c => { c with turns := sched :: c.turns }
    if (s.core core).clock < (s.core core).freeAt.getD sched 0 then s
    else match (s.ranked core sched).head?, s.selected core sched with
      | some (g, _), some ig => s.select g ig
      | _, _ => s

/-- The state in which a scheduler that has not taken its turn in the present cycle takes it. -/
def State.atTurn (s : State) (core : Nat) : State := if (s.core core).turns.isEmpty then s.tickCore core else s

/-- ISSUE_GROUP_SELECT (R274 to R277): each scheduler takes one turn in a cycle; the first to come round again starts the
next cycle, and the first turn of a cycle follows the landing of every result that is due. -/
def execIssueGroupSelect (core sched : Nat) (s : State) : Host.Outcome State Fault Refusal :=
  if s.coreOff core ∨ s.owesLanding core ∨ 3 < sched then conclude s
  else
    let again := (s.core core).turns.contains sched
    if again ∧ s.othersDone core sched = false then conclude s
    else
      let s := if again then s.nextCycle core else s
      if s.owesLanding core then conclude s
      else conclude ((s.atTurn core).turn_ core sched)

/-- Would the scheduler select the group for the completion of its GSYNC (R165, R275)? -/
def State.gsyncTurn (s : State) (core sched : Nat) (b : BlockKey) (g : Nat) : Bool :=
  match (s.ranked core sched).head? with
  | some (x, _) => x.block == b && x.index == g && s.gsyncDue x
  | none => false

/-- GSYNC_COMPLETE (R165, R48): the group's scheduler takes its turn for it, where the group is the one it selects (R275). -/
def execGsyncComplete (b : BlockKey) (g : Nat) (s : State) : Host.Outcome State Fault Refusal :=
  match s.group? b g with
  | none => conclude s
  | some x =>
    let core := coreOf x.home
    if s.coreOff core ∨ s.owesLanding core ∨ (s.core core).turns.contains x.sched ∨ (s.atTurn core).gsyncTurn core x.sched b g = false then conclude s
    else conclude ((s.atTurn core).turn_ core x.sched)

/-- FORCED_CANDIDATE (R275). -/
def execForcedCandidate (b : BlockKey) (g : Nat) (s : State) : Host.Outcome State Fault Refusal :=
  match s.group? b g with
  | some x => match x.readySince with
    | some n => if n + 256 ≤ (s.core (coreOf x.home)).clock then conclude (s.modGroup b g fun x => { x with forced := true }) else conclude s
    | none => conclude s
  | none => conclude s

/-- YIELD_TIMEOUT (R155). -/
def execYieldTimeout (b : BlockKey) (g : Nat) (s : State) : Host.Outcome State Fault Refusal :=
  let due := (s.groupThreads b g).filter fun t => match t.yielded with
    | some n => decide (64 ≤ n)
    | none => false
  if due.isEmpty then conclude s
  else conclude ((s.modThreads (due.map (·.tid)) fun t => { t with yielded := none }).modGroup b g fun x => { x with readySince := none })

/-- FIXED_LATENCY_WRITE (R72, R90, R118). -/
def execFixedLatencyWrite (core i : Nat) (s : State) : Host.Outcome State Fault Refusal := conclude (s.landOne core i)

/-! ### Traps at boundaries -/

/-- Threads take a trap, those of each PC of a home group as one issue group. -/
def State.trapThreads (s : State) (g : Group) (ths : List Thread) (tr : Thread → Trap) : State :=
  (uniq (ths.map (·.pc))).foldl (fun s pc =>
    match ths.find? fun t => t.pc == pc with
    | some t => s.takeTrap ⟨coreOf g.home, g.sched, g.block.launch, pc, (ths.filter fun x => x.pc == pc).map (·.tid)⟩ (tr t)
    | none => s) s

/-- DEFERRED_TRAP (R212): the threads of a home group that stand at a boundary take the oldest deferred trap. -/
def execDeferredTrap (b : BlockKey) (g : Nat) (s : State) : Host.Outcome State Fault Refusal :=
  match s.group? b g with
  | none => conclude s
  | some x =>
    let due := (s.groupThreads b g).filter fun t => decide (t.life = .live) && !t.deferred.isEmpty
    match due.head?.bind (·.deferred.head?) with
    | none => conclude s
    | some (c, w) =>
      let now := due.filter fun t => decide (t.deferred.head? = some (c, w))
      let s := s.modThreads (now.map (·.tid)) fun t => { t with deferred := t.deferred.drop 1 }
      conclude (s.trapThreads x now fun _ => sameInfo c w now)

/-- MEMUE_TRAP (R188). -/
def execMemueTrap (t : Tid) (s : State) : Host.Outcome State Fault Refusal :=
  match s.thread? t, s.group? t.block t.group with
  | some th, some g => match th.memue with
    | some w =>
      if th.life ≠ .live then conclude s
      else conclude ((s.modThread t fun th => { th with memue := none }).trapThreads g [th] fun _ => sameInfo Cause.memue w [th])
    | none => conclude s
  | _, _ => conclude s

/-- MCNACK_TRAP (R196). -/
def execMcnackTrap (t : Tid) (s : State) : Host.Outcome State Fault Refusal :=
  match s.thread? t, s.group? t.block t.group with
  | some th, some g => match th.mcnack with
    | some w =>
      if th.life ≠ .live then conclude s
      else conclude ((s.modThread t fun th => { th with mcnack := none }).trapThreads g [th] fun _ => sameInfo Cause.mcnack w [th])
    | none => conclude s
  | _, _ => conclude s

/-- CANCEL_TRAP (R157, R258): every thread of the block that stands at a boundary. -/
def execCancelTrap (b : BlockKey) (s : State) : Host.Outcome State Fault Refusal :=
  match s.block? b with
  | none => conclude s
  | some k =>
    if k.phase ≠ .running then conclude s
    else conclude ((s.groups.filter fun g => g.block == b).foldl (fun s g =>
      s.trapThreads g ((s.groupThreads b g.index).filter s.cancelDue) fun _ => { cause := Cause.cancel }) s)

/-- HANG_DETECT (R284). [DEDUCED: log 81] -/
def execHangDetect (b : BlockKey) (g : Nat) (s : State) : Host.Outcome State Fault Refusal :=
  match s.group? b g with
  | none => conclude s
  | some x =>
    if x.hang < hangLimit then conclude s
    else
      let low := (minBy id (x.hangPcs.map (·.toNat))).getD 0
      let s := s.errorRecord (s.ctxOf b) (mkRecord 0x20 (coreOf x.home) g 0 0 0 0 b.launch b.index 0xFFFF 0 (BitVec.ofNat 32 low))
      let trap := ((s.headerOf b).map (·.flags.getLsbD 6)).getD false
      conclude (s.modGroup b g fun x => { x with hang := 0, hangDue := trap })

/-- HANG_TRAP (R284): the group's next selected issue group traps before it issues. -/
def execHangTrap (b : BlockKey) (g : Nat) (s : State) : Host.Outcome State Fault Refusal :=
  match s.group? b g with
  | none => conclude s
  | some x =>
    match s.selected (coreOf x.home) x.sched with
    | none => conclude s
    | some ig =>
      match (s.issueGroups x ig).find? fun y => y.members.any fun t => t.block == b && t.group == g with
      | some y => if x.hangDue ∧ (ig.members.any fun t => t.block == b && t.group == g) then conclude (s.takeHang y) else conclude s
      | none => conclude s

end Sys2Proof.Machine
end

