-- ==== Sys2Proof/Machine/Queues.lean ====
section
/-! DEFINITION. The distributor's queues, records and completion counters (R252 to R259), kernel headers (R115, R116) and
the launches it takes (R260). -/

namespace Sys2Proof.Machine

/-- The cycle count by which the distributor measures its waits: that of the core which has counted most. [DESIGN CHOICE: log 45] -/
def State.now (s : State) : Nat := (s.cores.map (·.clock)).foldl max 0

/-- Does nothing of the device answer: off, or halted in the first step of bring-up, where only the debug port does (R382, R383, R388)? [DEDUCED: log 74] -/
def State.deaf (s : State) : Bool := !s.powered || s.power == .p4 || s.bootStep == some 1

/-- A reply of the management mailbox or the debug port; none while nothing answers. -/
def State.reply (s : State) (r : Reply) : State := if s.deaf then s else { s with replies := s.replies ++ [r] }

/-- Does the mailbox take commands that reach contexts, views and queues? In standby the Bursar's registers alone answer (R388); and clock-gated
memory ports do not reach the Vault (R383). [DEDUCED: log 74] -/
def State.mailOpen (s : State) : Bool := !s.deaf && s.power != .p1 && s.power != .p3

/-- Such a command: clock-gated the Bursar answers BADSTATE. [DEDUCED: log 74] -/
def State.mail (s : State) (f : State → Host.Outcome State Fault Refusal) : Host.Outcome State Fault Refusal :=
  if s.mailOpen then f s else conclude (if s.power = .p1 then s.reply .badState else s)

/-! ### Completion counters (R256, R258) -/

/-- The place that a pointer names; none for 0. -/
def State.placeOf (s : State) (c : Ctx) (p : BitVec 64) : Option (Nat × Nat) :=
  if p = 0 then none else some ((s.viewEntry c (ptrIndex p)).obj, ptrOffset p)

/-- Adds to `outstanding`; answers what it then holds. -/
def State.counterAdd (s : State) (c : Ctx) (a : Nat × Nat) (d : Int) : Option (State × Nat) :=
  match s.unitRead c a.1 (a.2 + 4) 4 with
  | none => none
  | some bs =>
    let n := wrap 32 (ofLE bs + d)
    (s.unitWrite c a.1 (a.2 + 4) (toLE 4 n)).map fun s => (s, n)

/-- The status of a counter leaves PENDING once. -/
def State.counterStatus (s : State) (c : Ctx) (a : Nat × Nat) (code detail : Nat) : Option State :=
  match s.unitRead c a.1 a.2 4 with
  | none => none
  | some bs =>
    if field bs 3 1 ≠ 0 then some s
    else s.unitWrite c a.1 a.2 (toLE 4 (code * 2 ^ 24 + detail % 256 * 2 ^ 16))

/-- Writes the pointer to the counter one level up. -/
def State.counterParent (s : State) (c : Ctx) (a : Nat × Nat) (p : BitVec 64) : Option State := s.unitWrite c a.1 (a.2 + 8) (toLE 8 p.toNat)

def State.counter? (s : State) (ctx : Nat) (a : Nat × Nat) : Option Counter := s.counters.find? fun k => k.ctx == ctx && k.at_ == a
def State.setCounter (s : State) (k : Counter) : State :=
  { s with counters := s.counters.map fun x => if x.ctx = k.ctx ∧ x.at_ = k.at_ then k else x }

/-- Is a counter at, or below, the counter at a place? By fuel over the levels. -/
def State.below (s : State) (ctx : Nat) (top : Nat × Nat) : Nat → Option (Nat × Nat) → Bool
  | 0, _ => false
  | _, none => false
  | n + 1, some a => a == top || s.below ctx top n ((s.counter? ctx a).bind (·.parent))

/-- Is some launch below a counter unsettled? -/
def State.unsettledBelow (s : State) (k : Counter) : Bool :=
  s.launches.any fun l => l.ctx == k.ctx && !l.settled && s.below k.ctx k.at_ 4 l.parent

/-- Status code of a counter whose members have settled. One that was cancelled settles FAILED where a member had failed. [DESIGN CHOICE: log 98] -/
def Counter.result (k : Counter) : Nat := if k.failed then 6 else if k.cancelled || k.marked then 2 else 1

/-- A member of the counter at a place has settled with a code. -/
def State.settleUp (s : State) (c : Ctx) (code : Nat) : Nat → Option (Nat × Nat) → Option State
  | 0, _ => some s
  | _, none => some s
  | n + 1, some a =>
    match s.counter? c.num a with
    | none => some s
    | some k =>
      let k := { k with failed := k.failed || (code != 1 && code != 2), cancelled := k.cancelled || code == 2 }
      match s.counterAdd c a (-1) with
      | none => none
      | some (s, left) =>
        let s := s.setCounter k
        if left = 0 ∨ (k.marked ∧ s.unsettledBelow k = false) then
          if k.done then some { s with counters := s.counters.filter fun x => !(x.ctx == k.ctx && x.at_ == k.at_) }
          else match s.counterStatus c a k.result 0 with
          | none => none
          | some s => State.settleUp { s with counters := s.counters.filter fun x => !(x.ctx == k.ctx && x.at_ == k.at_) } c k.result n k.parent
        else some s

/-- Counters that a CANCEL has marked, and below which nothing is left to settle, settle, the lowest first (R258). -/
def State.settleMarked (s : State) (c : Ctx) : Nat → State
  | 0 => s
  | n + 1 =>
    let last : Counter → Bool := fun k => k.ctx == c.num && k.marked && !s.unsettledBelow k
      && !(s.counters.any fun x => x.ctx == k.ctx && x.at_ != k.at_ && s.below k.ctx k.at_ 4 (some x.at_))
    match s.counters.find? last with
    | none => s
    | some k =>
      if k.done then { s with counters := s.counters.filter fun x => !(x.ctx == k.ctx && x.at_ == k.at_) }.settleMarked c n
      else match (s.counterStatus c k.at_ k.result 0).bind fun s =>
        State.settleUp { s with counters := s.counters.filter fun x => !(x.ctx == k.ctx && x.at_ == k.at_) } c k.result 4 k.parent with
      | none => s.unitWaits c k.at_.1 k.at_.2 16
      | some t => t.settleMarked c n

/-- A launch's counter settles. -/
def State.settleLaunch (s : State) (c : Ctx) (l : Launch) (code detail : Nat) : Option State :=
  match s.counterStatus c l.counterAt code detail with
  | none => none
  | some s =>
    let s := s.modLaunch l.num fun l =>
      { l with settled := true, code, drain := none, gangWait := none
               state := if l.state = .cancelled ∨ l.state = .rejected then l.state else .complete }
    s.settleUp c code 4 l.parent

/-- Takes what is owed off `outstanding`; at 0 the launch settles. None while the counter cannot be reached. -/
def State.payNow (s : State) (l : Launch) : Option State :=
  match s.ctx? l.ctx with
  | none => none
  | some c => match s.counterAdd c l.counterAt (-l.owed) with
    | none => none
    | some (s, left) =>
      let s := s.modLaunch l.num fun l => { l with owed := 0 }
      if left = 0 then s.settleLaunch c l (l.verdict.getD (1, 0)).1 (l.verdict.getD (1, 0)).2 else some s

/-- Settles what a launch owes, as soon as its counters can be reached. -/
def State.pay (s : State) (n : Nat) : State :=
  match s.launch? n with
  | none => s
  | some l =>
    if l.owed = 0 ∨ l.settled then s
    else match s.payNow l, s.ctx? l.ctx with
      | some t, _ => t.unitForget l.ctx
      | none, some c => [some l.counterAt, l.above.1, l.above.2.1, l.above.2.2].foldl (fun (t : State) a => match a with
          | some a => t.unitWaits c a.1 a.2 16
          | none => t) s
      | none, none => s

/-- A launch owes more. -/
def State.owe (s : State) (n : Nat) (d : Int) : State := s.modLaunch n fun l => { l with owed := l.owed + d }

/-- What is left of a launch is discarded: blocks not placed or evicted, and continuations (R258, R260). -/
def State.discardRest (s : State) (l : Launch) (st : LaunchState) (verdict : Nat × Nat) : State :=
  let gone := s.kept.filter fun k => k.evicted && k.block.key.launch == l.num
  let s := { s with kept := s.kept.filter fun k => !(k.evicted && k.block.key.launch == l.num) }
  let rest := (l.count - l.next) + gone.length + l.ready.length + l.open_.length
  let s := s.modLaunch l.num fun l =>
    { l with state := st, verdict := some verdict, next := l.count, ready := [], open_ := []
             drain := none, gangWait := none, owed := l.owed + rest }
  s.pay l.num

/-- A CANCEL reaches a saved block (R247): bit 0 of its block header's flags is set. -/
def State.cancelKept (s : State) (k : Kept) : State :=
  match s.ctx? k.block.ctx with
  | none => s
  | some c =>
    let p : PAddr := .vault c.quarter (c.saveBase + k.area)
    let bs := putBytes (s.bytes p 0x40) 0x13 [BitVec.ofNat 8 (field (s.bytes p 0x40) 0x13 1) ||| 1]
    let mark : Kept → Kept := fun x => if x.block.key = k.block.key then { x with block := { x.block with cancel := true } } else x
    { s.write p (withCrc bs 0x3C) with kept := s.kept.map mark }

/-- A launch is cancelled (R258): its resident blocks take the cancel trap at their next boundary, those that were to be evicted too. -/
def State.cancelLaunch (s : State) (n : Nat) : State :=
  match s.launch? n with
  | none => s
  | some l =>
    if l.settled ∨ l.state = .cancelled ∨ l.state = .rejected then s
    else
      let mark : Block → Block := fun b =>
        if b.key.launch = n then { b with cancel := true, phase := if b.phase = .evicting then .running else b.phase } else b
      let s := { s with blocks := s.blocks.map mark }
      ((s.kept.filter fun k => !k.evicted && k.block.key.launch == n).foldl State.cancelKept s).discardRest l .cancelled (2, 0)

/-- CANCEL at a place (R258): the launch whose counter it is, or everything below the counter. -/
def State.cancelAt (s : State) (ctx : Nat) (a : Nat × Nat) : State :=
  let s := { s with counters := s.counters.map fun k : Counter => if k.ctx = ctx ∧ s.below ctx a 4 (some k.at_) then { k with marked := true } else k }
  let s := (s.launches.filter fun l : Launch => l.ctx == ctx && (l.counterAt == a || s.below ctx a 4 l.parent)).foldl (fun (s : State) (l : Launch) => s.cancelLaunch l.num) s
  match s.ctx? ctx with
  | some c => s.settleMarked c s.counters.length
  | none => s

/-! ### Kernel headers (R115, R116) -/

/-- The fields of a header. -/
def parseHeader (bs : List Byte) : Header :=
  { flags := BitVec.ofNat 16 (field bs 6 2), regs := field bs 8 2, threads := field bs 0x0A 2, localBytes := field bs 0x0C 4
    regions := field bs 0x10 1, tiles := field bs 0x11 1, gang := field bs 0x12 1
    roles := (List.range (min 4 (field bs 0x13 1))).map fun i => (field bs (0x14 + 4 * i) 1, field bs (0x15 + 4 * i) 2)
    trapMask := BitVec.ofNat 32 (field bs 0x24 4), handler := BitVec.ofNat 32 (field bs 0x28 4), codeSize := field bs 0x2C 4
    entryTable := field bs 0x30 4, bindings := field bs 0x34 2, tagBase := field bs 0x36 2 }

/-- Home groups of a block of a header. -/
def Header.groups (h : Header) : Nat := (h.threads + 127) / 128

/-- Does a role entry of a header break check 5? -/
def badRole (bs : List Byte) (n i : Nat) : Bool :=
  let e := field bs (0x14 + 4 * i) 4
  let quota := field bs (0x15 + 4 * i) 2
  if n ≤ i then e != 0 else e % 256 == 0 || decide (256 < quota) || quota % 8 != 0 || bits e 31 24 != 0

/-- Does a binding record break check 9 (R111)? -/
def badBinding (h : Header) (r : List Byte) : Bool :=
  let lo := field r 4 4
  let n := field r 8 4
  let tr := field r 0x0C 1
  let rn := field r 0x0D 1
  field r 0x0E 2 != 0 || field r 0x18 8 != 0 || field r 0 4 % 8 != 0 || lo % 16 != 0 || n % 16 != 0 || decide (n < 16) || decide (3 < tr)
    || decide (4 < rn) || (rn != 0 && tr != 3) || decide (h.localBytes < lo + n)

/-- Offset of the binding table from the entry point (R114). -/
def Header.bindTable (h : Header) : Nat := (h.codeSize + 31) / 32 * 32

/-- The checks of R116 on the header alone: the number of the first that fails. -/
def headerCheck (off : Nat) (bs : List Byte) : Nat :=
  let h := parseHeader bs
  let n := field bs 0x13 1
  let hd := h.handler.toNat
  if off % 64 ≠ 0 ∨ field bs 0 4 ≠ 0x394B505A ∨ field bs 4 2 ≠ 1 ∨ crcOk bs 0x3C = false then 1
  else if h.flags &&& 0xFF90 ≠ 0 ∨ field bs 0x38 4 ≠ 0 ∨ h.trapMask &&& 0xFC000001 ≠ 0 ∨ h.flags &&& 3 = 3
    ∨ h.flags.getLsbD 6 ≠ h.trapMask.getLsbD 0x14 then 2
  else if 256 < h.regs ∨ h.threads = 0 ∨ 1024 < h.threads ∨ 2097152 < h.localBytes then 3
  else if 8 < h.regions ∨ 8 < h.tiles ∨ h.gang = 0 ∨ 4 < h.gang ∨ 4 < h.bindings then 4
  else if 4 < n ∨ ([0, 1, 2, 3].any (badRole bs n)) ∨ (1 ≤ n ∧ (h.roles.map (·.1)).sum ≠ h.groups) then 5
  else if h.codeSize = 0 ∨ h.codeSize % 12 ≠ 0 then 6
  else if (h.trapMask ≠ 0 ∧ hd = 0xFFFFFFFF) ∨ (hd ≠ 0xFFFFFFFF ∧ (hd % 12 ≠ 0 ∨ h.codeSize ≤ hd)) then 7
  else if (h.flags.getLsbD 2 ∧ h.entryTable = 0) ∨ h.entryTable % 4 ≠ 0 then 8
  else 0

/-- The continuation entry table (R110): its offsets; none when it cannot be read. [DEDUCED: log 85] -/
def State.entryTable (s : State) (c : Ctx) (obj base : Nat) (h : Header) : Option (List Nat) :=
  if h.entryTable = 0 then some []
  else match s.unitRead c obj (base + 64 + h.entryTable) 4 with
    | none => none
    | some n =>
      if ofLE n = 0 ∨ 256 < ofLE n then some [1]
      else (s.unitRead c obj (base + 64 + h.entryTable + 4) (4 * ofLE n)).map fun t => (List.range (ofLE n)).map fun i => field t (4 * i) 4

/-- Binding record `i` of a kernel. -/
def State.binding (s : State) (c : Ctx) (obj base : Nat) (h : Header) (i : Nat) : Option (List Byte) :=
  s.unitRead c obj (base + 64 + h.bindTable + 32 * i) 32

/-- All checks of R116 on the header at a place: the header and the number of the first check that fails. The tables behind the header are read
by their offset in the object, whatever the view of the header pointer admits. [DEDUCED: log 85; DESIGN CHOICE: log 97] -/
def State.checkHeader (s : State) (c : Ctx) (obj base : Nat) : Option (Header × Nat) :=
  match s.unitRead c obj base 64 with
  | none => none
  | some bs =>
    let h := parseHeader bs
    let n := headerCheck base bs
    if n ≠ 0 then some (h, n)
    else match s.entryTable c obj base h with
      | none => none
      | some es =>
        if es.any fun e => e % 12 != 0 || decide (h.codeSize ≤ e) then some (h, 8)
        else
          let rs := (List.range h.bindings).map (s.binding c obj base h)
          if rs.any (·.isNone) then none
          else some ({ h with entries := es, binds := rs.map (·.getD []) }, if rs.any (fun r => badBinding h (r.getD [])) then 9 else 0)

/-! ### Queue control blocks (R252) -/

def Queue.byte (q : Queue) (i : Nat) : Nat × Nat := (q.controlAt.1, q.controlAt.2 + i)
def State.qField (s : State) (c : Ctx) (q : Queue) (i n : Nat) : Option Nat := (s.unitRead c q.controlAt.1 (q.controlAt.2 + i) n).map ofLE
def State.qPut (s : State) (c : Ctx) (q : Queue) (i n v : Nat) : Option State := s.unitWrite c q.controlAt.1 (q.controlAt.2 + i) (toLE n v)

/-- Codes of R259. -/
def QueueState.code : QueueState → Nat
  | .empty => 0
  | .active => 1
  | .blocked => 2
  | .error => 3
  | .draining => 4
  | .disabled => 5

/-- Moves a queue to a state and writes the state byte of its control block. -/
def State.setQueueState (s : State) (q : Nat) (st : QueueState) : State :=
  match s.queue? q with
  | none => s
  | some x =>
    let s := s.modQueue q fun x => { x with state := st }
    match s.ctx? x.ctx with
    | some c => (s.qPut c x 0x09 1 st.code).getD s
    | none => s

/-- Reads the record of a number. -/
def State.recordAt (s : State) (c : Ctx) (q : Queue) (i : Nat) : Option (List Byte) :=
  s.unitRead c q.ringAt.1 (q.ringAt.2 + 64 * (i % q.entries)) 64

/-- A queue control block as registered: none where the Bursar finds it bad. [DESIGN CHOICE: log 57] -/
def State.readQueue (s : State) (c : Ctx) (ptr : BitVec 64) : Option Queue :=
  match s.unitCheck c ptr 128 1 0 with
  | .error _ => none
  | .ok (obj, off) => match s.unitRead c obj off 128 with
    | none => none
    | some cb =>
      let n := field cb 0x0C 4
      let ring := BitVec.ofNat 64 (field cb 0x10 8)
      if off % 64 ≠ 0 ∨ field cb 0 4 ≠ 0x51555A50 ∨ field cb 4 2 ≠ 1 ∨ crcOk cb 0x7C = false ∨ field cb 6 2 ≠ c.num ∨ 7 < field cb 8 1
        ∨ n < 16 ∨ 65536 < n ∨ 2 ^ n.log2 ≠ n then none
      else match s.unitCheck c ring (64 * n) 1 rightR with
        | .error _ => none
        | .ok at_ => some { ctx := c.num, control := ptr, priority := field cb 8 1, entries := n, ring, controlAt := (obj, off), ringAt := at_ }

/-- The contexts for which commands are served. -/
def State.liveCtx (s : State) (ctx : Nat) : Option Ctx :=
  match s.ctx? ctx with
  | some c => if c.state = .faulted ∨ c.state = .destroyed then none else some c
  | none => none

/-- Registers a queue; none where the Bursar answers BADSTATE. -/
def State.addQueue (s : State) (ctx : Nat) (ptr : BitVec 64) : Option State :=
  match s.liveCtx ctx with
  | none => none
  | some c => match s.readQueue c ptr with
    | none => none
    | some q => if 1024 ≤ s.queues.length then none else some (({ s with queues := s.queues ++ [q] }).setQueueState s.queues.length .empty)

/-- The place of a control block that a registration cannot read yet: its line is at a peer, or its page is not resident. -/
def State.queueUnread (s : State) (ctx : Nat) (ptr : BitVec 64) : Option (Ctx × Nat × Nat) :=
  match s.liveCtx ctx with
  | none => none
  | some c => match s.unitCheck c ptr 128 1 0 with
    | .error _ => none
    | .ok (obj, off) => if off % 64 = 0 ∧ (s.unitRead c obj off 128).isNone then some (c, obj, off) else none

/-- Registers a queue, or the page ring, of which a device has one (R252, R347). While the control block cannot be read the command waits,
and its reply with it. [DESIGN CHOICE: log 57] -/
def State.register (s : State) (ctx : Nat) (ptr : BitVec 64) (ring : Bool) : State :=
  if ring ∧ s.pageRing.isSome then s.reply .badState
  else match s.queueUnread ctx ptr with
  | some (c, obj, off) => { s with registering := s.registering ++ [(ctx, ptr, ring)] }.unitWaits c obj off 128
  | none => match s.addQueue ctx ptr with
    | none => s.reply .badState
    | some t => { t with pageRing := if ring then some s.queues.length else t.pageRing }.reply .ok

/-- The registrations that wait are tried again. -/
def State.registerAgain (s : State) : State :=
  s.registering.foldl (fun (t : State) r => t.register r.1 r.2.1 r.2.2) { s with registering := [] }

/-- REGISTER_QUEUE (R252). -/
def execRegisterQueue (ctx : Nat) (ptr : BitVec 64) (s : State) : Host.Outcome State Fault Refusal :=
  s.mail fun s => conclude (s.register ctx ptr false)

/-- EMPTY or ACTIVE, by head and tail. -/
def State.idleState (s : State) (q : Queue) : QueueState :=
  match s.ctx? q.ctx with
  | some c => if s.qField c q 0x18 4 = s.qField c q 0x1C 4 then .empty else .active
  | none => .empty

/-- RESET (R259). A failing record that has been taken, that of a launch rejected later, is not skipped again. -/
def execReset (q : Nat) (skip : Bool) (s : State) : Host.Outcome State Fault Refusal :=
  s.mail fun s =>
  match s.queue? q with
  | none => conclude (s.reply .badState)
  | some x =>
    if x.state ≠ .error then conclude (s.reply .badState)
    else
      let s := if skip ∧ x.atHead then match s.ctx? x.ctx with
          | some c => ((s.qPut c x 0x18 4 (((s.qField c x 0x18 4).getD 0 + 1) % 2 ^ 32))).getD s
          | none => s
        else s
      conclude (((s.setQueueState q (s.idleState x)).modQueue q fun x => { x with atHead := false }).reply .ok)

/-- DISABLE (R259). -/
def execDisable (q : Nat) (s : State) : Host.Outcome State Fault Refusal :=
  s.mail fun s =>
  match s.queue? q with
  | none => conclude (s.reply .badState)
  | some x => match x.state with
    | .draining | .disabled => conclude (s.reply .badState)
    | _ => conclude ((s.setQueueState q .draining).reply .ok)

/-- ENABLE (R259). -/
def execEnable (q : Nat) (s : State) : Host.Outcome State Fault Refusal :=
  s.mail fun s =>
  match s.queue? q with
  | none => conclude (s.reply .badState)
  | some x => if x.state = .disabled then conclude ((s.setQueueState q (s.idleState x)).reply .ok) else conclude (s.reply .badState)

/-- Has every launch taken from a queue settled? -/
def State.queueSettled (s : State) (q : Nat) : Bool :=
  (s.launches.all fun l => l.queue != q || l.settled) && (s.pageRing != some q || s.pageOps.isEmpty)

/-- QUEUE_DRAINED (R259). Cancelled counters of the queue's context that could not be reached settle here too (R258). -/
def execQueueDrained (q : Nat) (s : State) : Host.Outcome State Fault Refusal :=
  let s := match (s.queue? q).bind fun x => s.ctx? x.ctx with
    | some c => s.settleMarked c s.counters.length
    | none => s
  match s.queue? q with
  | none => conclude s
  | some x => if x.state = .draining ∧ s.queueSettled q then conclude (s.setQueueState q .disabled) else conclude s

/-! ### Records (R254, R255) -/

def recPtr (r : List Byte) (i : Nat) : BitVec 64 := BitVec.ofNat 64 (field r i 8)

/-- Are the bytes of a record that its kind leaves unused 0 (R254)? For a member of a graph the predecessor mask is used. -/
def reservedZero (r : List Byte) (member : Bool) : Bool :=
  let z : Nat → Nat → Bool := fun i n => field r i n == 0
  z 2 2 && z 0x24 24 && (match field r 0 1 with
    | 1 => z 1 1 && z 0x22 2 && (member || z 0x20 2) && field r 4 4 != 0
    | 2 => decide (field r 1 1 ≤ 1) && z 4 4 && z 0x10 20
    | 3 => z 1 1 && z 4 4 && z 0x18 12
    | 4 => z 1 1 && decide (field r 4 4 ≤ 1) && z 0x18 12
    | _ => z 1 1 && decide (1 ≤ field r 4 4) && decide (field r 4 4 ≤ 16) && z 0x20 4)

/-- Does a pointer of a record fail its check? -/
def State.badPtr (s : State) (c : Ctx) (p : BitVec 64) (n al : Nat) (need : BitVec 4) : Bool :=
  match s.unitCheck c p n al need with
  | .ok _ => false
  | .error _ => true

/-- Do the pointers of a record pass the checks of R177 for their rights? -/
def State.recordPtrs (s : State) (c : Ctx) (r : List Byte) : Bool :=
  let opt : Nat → Bool := fun i => recPtr r i == 0 || !s.badPtr c (recPtr r i) 16 1 rightW
  match field r 0 1 with
  | 1 => !s.badPtr c (recPtr r 8) 64 1 rightR && !s.badPtr c (recPtr r 0x18) 16 1 rightW
  | 2 => !s.badPtr c (recPtr r 8) 16 1 rightR
  | 3 => !s.badPtr c (recPtr r 8) 8 8 rightA
  | 4 => !s.badPtr c (recPtr r 8) (field r 0x10 8) 1 rightR
  | _ => !s.badPtr c (recPtr r 8) 16 1 rightW && opt 0x10 && opt 0x18

/-- The detail of R255 for one record; 0 when it is good. -/
def State.recordCheck (s : State) (c : Ctx) (r : List Byte) (member : Bool) : Nat :=
  if field r 0 1 = 0 ∨ 5 < field r 0 1 then 1
  else if crcOk r 0x3C = false then 2
  else if member ∧ field r 0 1 ≠ 1 then 5
  else if reservedZero r member = false then 3
  else if s.recordPtrs c r = false then 4
  else 0

/-- Is the next record of a queue takeable, and does it pass its checks? -/
inductive Take where
  | no
  /-- It fails: status code and detail, and the record whose launch is rejected. -/
  | bad (code detail : Nat) (r : List Byte)
  | yes
  deriving DecidableEq, Repr

/-- The header of a launch record. [DESIGN CHOICE: log 57] -/
def State.recordHeader (s : State) (c : Ctx) (r : List Byte) : Option (Header × Nat) :=
  s.checkHeader c (s.viewEntry c (ptrIndex (recPtr r 8))).obj (ptrOffset (recPtr r 8))

/-- Checks a launch record whose own bytes are good. [DESIGN CHOICE: log 57] -/
def State.takeLaunch (s : State) (c : Ctx) (r : List Byte) : Take :=
  match s.recordHeader c r, s.ptrRead c (recPtr r 0x18) 16 with
  | some (_, 0), some _ => .yes
  | some (_, n + 1), _ => .bad 3 (n + 1) r
  | _, _ => .no

/-- Checks the members of a graph, in order. -/
def State.takeMembers (s : State) (c : Ctx) : Nat → List (List Byte) → Take
  | _, [] => .yes
  | i, r :: rs =>
    let n := s.recordCheck c r true
    if n ≠ 0 then .bad 5 n r
    else if 2 ^ i ≤ field r 0x20 2 then .bad 5 5 r
    else match s.takeLaunch c r with
      | .yes => s.takeMembers c (i + 1) rs
      | t => t

/-- The pages of a range, by state; one whose walk faults counts as resident here. -/
def State.rangeLeaves (s : State) (c : Ctx) (obj : Nat) : Nat → Nat → Nat → List (Nat × Nat)
  | 0, _, _ => []
  | fuel + 1, off, hi =>
    if hi ≤ off then []
    else
      let pg := s.pageOf c obj off
      let st := match s.translate c obj off 1 with
        | .absent _ why => why
        | .poisoned _ => 4
        | _ => 2
      (pg.1, st) :: s.rangeLeaves c obj fuel (pg.1 + pg.2) hi

/-- The pages of a PREFETCH record. -/
def State.prefetchPages (s : State) (c : Ctx) (r : List Byte) : Nat × List (Nat × Nat) :=
  let p := recPtr r 8
  let obj := (s.viewEntry c (ptrIndex p)).obj
  let n := field r 0x10 8
  (obj, s.rangeLeaves c obj (n / 4096 + 2) (ptrOffset p) (ptrOffset p + n))

/-- The members of a GRAPH record, when all are published. -/
def State.members? (s : State) (c : Ctx) (q : Queue) (head n : Nat) : Option (List (List Byte)) :=
  let rs := (List.range n).map fun i => s.recordAt c q ((head + 1 + i) % 2 ^ 32)
  if rs.any (·.isNone) then none else some (rs.map (·.getD []))

/-- The decision about a record at the head of queue `i` (R255, R257). -/
def State.decide_ (s : State) (c : Ctx) (i : Nat) (q : Queue) (head tail : Nat) (r : List Byte) : Take :=
  let n := s.recordCheck c r false
  if n ≠ 0 then .bad 5 n r
  else match field r 0 1 with
    | 1 => s.takeLaunch c r
    | 2 => match s.ptrRead c (recPtr r 8) 4 with
      | none => .no
      | some st =>
        if field st 3 1 = 0 then .no
        else if field r 1 1 = 1 ∧ field st 3 1 ≠ 1 then .bad (field st 3 1) (field st 2 1) []
        else .yes
    | 3 => if s.queueSettled i && ((s.ptrRead c (recPtr r 8) 8).isSome || (s.ptrPeer c (recPtr r 8)).isSome && !s.portsOff) then .yes else .no
    | 4 => if field r 4 4 = 1 ∧ ((s.prefetchPages c r).2.any fun p => p.2 != 2) then .no else .yes
    | _ =>
      let k := field r 4 4
      if wrap 32 ((tail : Int) - head) < 1 + k then .no
      else match s.members? c q head k, s.ptrRead c (recPtr r 8) 16 with
        | some ms, some _ =>
          if (recPtr r 0x10 != 0 && (s.ptrRead c (recPtr r 0x10) 16).isNone) || (recPtr r 0x18 != 0 && (s.ptrRead c (recPtr r 0x18) 16).isNone) then .no
          else s.takeMembers c 0 ms
        | _, _ => .no

/-- A queue from which the distributor may take, and its context. -/
def State.served (s : State) (i : Nat) : Option (Ctx × Queue) :=
  match s.queue? i with
  | none => none
  | some q => match s.ctx? q.ctx with
    | none => none
    | some c =>
      if s.pageRing = some i ∨ q.state = .error ∨ q.state = .draining ∨ q.state = .disabled ∨ c.fault.isSome ∨ (c.state ≠ .runnable ∧ c.state ≠ .running) then none
      else some (c, q)

/-- The record at the head of a queue that may be served, and what is decided about it. -/
def State.headOf (s : State) (i : Nat) : Option (Ctx × Queue × Nat × List Byte × Take) :=
  match s.served i with
  | none => none
  | some (c, q) => match s.qField c q 0x18 4, s.qField c q 0x1C 4 with
    | some head, some tail =>
      if head = tail then none
      else match s.recordAt c q head with
        | none => none
        | some r => some (c, q, head, r, s.decide_ c i q head tail r)
    | _, _ => none

/-- Priority of a queue with a record to take. -/
def State.takeablePrio (s : State) (i : Nat) : Option Nat :=
  match s.headOf i with
  | some (_, q, _, _, .yes) => some q.priority
  | some (_, q, _, _, .bad ..) => some q.priority
  | _ => none

/-- Is it the queue's turn (R257): highest priority first, equal priorities in turn by registration order? The distributor runs in P0 and P2. -/
def State.queueTurn (s : State) (i : Nat) : Bool :=
  !s.unitsOff && match s.takeablePrio i with
  | none => false
  | some p =>
    let n := s.queues.length
    let rank : Nat → Nat := fun j => (j + n - s.turn.getD p 0 % (n + 1)) % n
    (List.range n).all fun j => match s.takeablePrio j with
      | some p' => decide (p' < p) || (p' == p && decide (rank i ≤ rank j))
      | none => true

/-- One transition of a queue by what stands at its head (R259). -/
def State.refreshQueue (s : State) (i : Nat) : State :=
  match s.queue? i with
  | none => s
  | some q => match s.ctx? q.ctx with
    | none => s
    | some c => if c.state = .saved ∨ s.unitsOff then s else match q.state with
      | .empty => if s.idleState q = .active then s.setQueueState i .active else s
      | .active =>
        if s.idleState q = .empty then s.setQueueState i .empty
        else match s.headOf i with
          | some (_, _, _, _, .no) => s.setQueueState i .blocked
          | _ => s
      | .blocked => match s.headOf i with
        | some (_, _, _, _, .no) => s
        | some _ => s.setQueueState i .active
        | none => if s.idleState q = .empty ∧ (c.state = .runnable ∨ c.state = .running) then s.setQueueState i .empty else s
      | _ => s

/-- A record fails (R259): the queue goes to ERROR, and a rejected launch's counter receives the status. None while one of the two cannot be
written. -/
def State.failQueue (s : State) (c : Ctx) (i : Nat) (q : Queue) (head code detail : Nat) (r : List Byte) : Option State :=
  ((s.qPut c q 0x24 4 (code * 2 ^ 24 + detail % 256 * 2 ^ 16 + head % q.entries)).bind fun s =>
    if field r 0 1 = 1 ∧ s.badPtr c (recPtr r 0x18) 16 1 rightW = false then
      s.counterStatus c ((s.viewEntry c (ptrIndex (recPtr r 0x18))).obj, ptrOffset (recPtr r 0x18)) code detail
    else some s).map fun s => (s.setQueueState i .error).modQueue i fun q => { q with atHead := true }

/-- The bytes that the decision about a launch record reads: object, offset, length. -/
def State.launchNeeds (s : State) (c : Ctx) (r : List Byte) : List (Nat × Nat × Nat) :=
  match s.placeOf c (recPtr r 8), s.placeOf c (recPtr r 0x18) with
  | some (obj, base), some (co, cb) =>
    [(co, cb, 16), (obj, base, 64)] ++ (match s.unitRead c obj base 64 with
      | none => []
      | some bs =>
        let h := parseHeader bs
        (if h.entryTable = 0 then [] else (obj, base + 64 + h.entryTable, 4) :: (match s.unitRead c obj (base + 64 + h.entryTable) 4 with
            | some n => if 256 < ofLE n then [] else [(obj, base + 64 + h.entryTable + 4, 4 * ofLE n)]
            | none => []))
          ++ (List.range (min 4 h.bindings)).map fun i => (obj, base + 64 + h.bindTable + 32 * i, 32))
  | _, _ => []

/-- The bytes that the decision about the record at the head of a queue reads. -/
def State.recordNeeds (s : State) (c : Ctx) (q : Queue) (head : Nat) (r : List Byte) : List (Nat × Nat × Nat) :=
  let at_ : Nat → Nat → List (Nat × Nat × Nat) := fun i n => match s.placeOf c (recPtr r i) with
    | some (o, off) => [(o, off, n)]
    | none => []
  match field r 0 1 with
  | 1 => s.launchNeeds c r
  | 2 => at_ 8 4
  | 5 => at_ 8 16 ++ at_ 0x10 16 ++ at_ 0x18 16 ++ (List.range (min 16 (field r 4 4))).flatMap fun i =>
      (q.ringAt.1, q.ringAt.2 + 64 * ((head + 1 + i) % 2 ^ 32 % q.entries), 64) :: (match s.recordAt c q ((head + 1 + i) % 2 ^ 32) with
        | some m => s.launchNeeds c m
        | none => [])
  | _ => []

/-- All that serving a queue reads, as far as it is known. -/
def State.queueNeeds (s : State) (c : Ctx) (q : Queue) : List (Nat × Nat × Nat) :=
  (q.controlAt.1, q.controlAt.2, 128) :: (match s.qField c q 0x18 4 with
    | none => []
    | some head => (q.ringAt.1, q.ringAt.2 + 64 * (head % q.entries), 64) :: (match s.recordAt c q head with
      | none => []
      | some r => s.recordNeeds c q head r))

/-- A queue from which nothing can be taken: what it lacks of a peer is asked for, and once nothing lacks it is read again (R356); broken
tables fault the context (R246). -/
def State.queueWaits (s : State) (c : Ctx) (q : Queue) : State :=
  match (s.queueNeeds c q).filter fun p => (s.unitRead c p.1 p.2.1 p.2.2).isNone with
  | [] => s.unitForget c.num
  | l => l.foldl (fun (t : State) p => t.unitWaits c p.1 p.2.1 p.2.2) s

/-- Advances head past `n` records taken, and gives the next queue of the priority its turn. -/
def State.took (s : State) (c : Ctx) (i : Nat) (q : Queue) (head n : Nat) : Option State :=
  (s.qPut c q 0x18 4 ((head + n) % 2 ^ 32)).map fun s => { s with turn := s.turn.set q.priority (i + 1) }

/-- Takes the record at the head of queue `i` when its kind is one of `kinds`; `body` gives its effect. -/
def takeRecord (kinds : Nat → Bool) (i : Nat) (body : State → Ctx → Queue → Nat → List Byte → Option State) (s : State) :
    Host.Outcome State Fault Refusal :=
  let s := s.refreshQueue i
  match s.queue? i, s.headOf i with
  | some q0, some (c, q, head, r, t) =>
    let mine := decide (q0.state = .active) && s.queueTurn i
    if kinds (field r 0 1) = false then conclude s
    else match t with
      | .no => conclude (s.queueWaits c q)
      | .bad code detail rec_ =>
        if mine then match s.failQueue c i q head code detail rec_ with
          | some t => conclude (t.unitForget c.num)
          | none => conclude (s.ptrWaits c (recPtr rec_ 0x18) 16)
        else conclude s
      | .yes => match if mine then body s c q head r else none with
        | none => conclude s
        | some s => conclude ((s.refreshQueue i).unitForget c.num)
  | _, _ => match s.served i with
    | some (c, q) => conclude (s.queueWaits c q)
    | none => conclude s

/-! ### Launches (R260) -/

/-- The launch number after one. -/
def nextNumber (n : Nat) : Nat := if 2 ^ 32 ≤ n + 1 then 1 else n + 1

/-- Names a counter of a context the first time, by its place (R374). -/
def nameOnce (p : Option (Nat × Nat)) (l : List (Nat × Nat)) : List (Nat × Nat) :=
  match p with
  | some a => if l.contains a then l else l ++ [a]
  | none => l

/-- Takes a launch: a number, its blocks added to its counter, the counter above it written there. -/
def State.addLaunch (s : State) (c : Ctx) (i : Nat) (q : Queue) (head : Nat) (r : List Byte) (preds : List Nat) (above : BitVec 64 × BitVec 64 × BitVec 64)
    (parent : Option (Nat × Nat)) : Option State :=
  match s.recordHeader c r with
  | none => none
  | some (h, _) =>
    let ctr := recPtr r 0x18
    let at_ := ((s.viewEntry c (ptrIndex ctr)).obj, ptrOffset ctr)
    let n := field r 4 4
    match s.counterAdd c at_ n with
    | none => none
    | some (s, _) => (s.counterParent c at_ above.1).map fun s =>
        let l : Launch :=
          { num := s.nextLaunch, ctx := c.num, queue := i, priority := q.priority, header := h, obj := (s.viewEntry c (ptrIndex (recPtr r 8))).obj
            base := ptrOffset (recPtr r 8), acquire := q.waited || !preds.isEmpty, args := recPtr r 0x10, counter := ctr, counterAt := at_, count := n, preds, record := head
            above := (s.placeOf c above.1, s.placeOf c above.2.1, s.placeOf c above.2.2), parent }
        { s with launches := s.launches ++ [l], nextLaunch := nextNumber s.nextLaunch }

/-- LAUNCH (R254, R257, R260). A record of no kind is taken, and rejected, here too. -/
def execLaunch (q : Nat) (s : State) : Host.Outcome State Fault Refusal :=
  takeRecord (fun k => k == 1 || k == 0 || decide (5 < k)) q (fun s c x head r =>
    (s.addLaunch c q x head r [] (0, 0, 0) none).bind fun s => s.took c q x head 1) s

/-- WAIT (R257). -/
def execWait (q : Nat) (s : State) : Host.Outcome State Fault Refusal :=
  takeRecord (· == 2) q (fun s c x head _ => (s.took c q x head 1).map fun s => s.modQueue q fun x => { x with waited := true }) s

/-- The request by which a SIGNAL adds at a peer: RED .add, 64 bits, as a release at .sys scope. -/
def signalPacket (ctx obj off dev v : Nat) : Packet :=
  { kind := 4, flags := 0, dst := dev, src := 0, ctx, obj, off, tag := 0, op := 0xD0, group := 0, plane := 0, length := 17
    data := toLE 8 v ++ zeros 8 ++ [2] }

/-- SIGNAL (R257): an atomic add to the 64-bit target at its home. -/
def execSignal (q : Nat) (s : State) : Host.Outcome State Fault Refusal :=
  takeRecord (· == 3) q (fun s c x head r =>
    match s.ptrPeer c (recPtr r 8) with
    | some (d, obj, off) =>
      let t := s.unitSend s.nextId (signalPacket c.num obj off d (field r 0x10 8))
      { t with nextId := t.nextId + 1 }.took c q x head 1
    | none => match s.ptrRead c (recPtr r 8) 8 with
    | none => none
    | some old => (s.ptrWrite c (recPtr r 8) (toLE 8 (ofLE old + field r 0x10 8))).bind fun s => s.took c q x head 1) s

/-- PREFETCH (R257): each ABSENT page is requested once until it leaves ABSENT (R197). -/
def execPrefetch (q : Nat) (s : State) : Host.Outcome State Fault Refusal :=
  takeRecord (· == 4) q (fun s c x head r =>
    let (obj, pages) := s.prefetchPages c r
    if s.unitBad c obj (ptrOffset (recPtr r 8)) (field r 0x10 8) then some (s.faultCtxBare c.num reasonInternal)
    else
    let s := (pages.filter fun p => p.2 == 0).foldl (fun s p =>
      if s.prefetched.contains (c.num, obj, p.1) then s
      else
        let s := s.faultRecord c.num (mkRecord 5 0xFF 0 0 0 obj p.1 0 0 0xFFFF 0 0)
        { s with prefetched := (c.num, obj, p.1) :: s.prefetched }) s
    s.took c q x head 1) s

/-- Registers the counter at a place, unless it already counts; `done` says that it has settled before. -/
def State.addCounter (s : State) (ctx : Nat) (a : Nat × Nat) (parent : Option (Nat × Nat)) (done : Bool) : State :=
  if (s.counter? ctx a).isSome then s else { s with counters := s.counters ++ [{ ctx, at_ := a, parent, done }] }

/-- The members of a graph in order, each with the launch numbers that its mask names. -/
def State.addMembers (s : State) (c : Ctx) (i : Nat) (q : Queue) (head : Nat) (above : BitVec 64 × BitVec 64 × BitVec 64) (parent : Option (Nat × Nat)) :
    List Nat → List (List Byte) → Option State
  | _, [] => some s
  | nums, r :: rs =>
    let preds := (List.range nums.length).filterMap fun j => if (field r 0x20 2).testBit j then nums[j]? else none
    let num := s.nextLaunch
    (s.addLaunch c i q ((head + 1 + nums.length) % 2 ^ 32) r preds above parent).bind fun s => State.addMembers s c i q head above parent (nums ++ [num]) rs

/-- Registers a counter and writes the counter above it. -/
def State.openCounter (s : State) (c : Ctx) (p up : BitVec 64) : Option State :=
  match s.placeOf c p with
  | none => some s
  | some a => (s.unitRead c a.1 a.2 4).bind fun st => (s.counterParent c a up).map fun s => s.addCounter c.num a (s.placeOf c up) (field st 3 1 != 0)

/-- Has a CANCEL reached the counter that a pointer names: one that still counts, or one that settled CANCELLED (R258)? -/
def State.cancelledAt (s : State) (c : Ctx) (p : BitVec 64) : Bool :=
  match s.placeOf c p with
  | none => false
  | some a => ((s.counter? c.num a).map (·.marked)).getD false || ((s.unitRead c a.1 a.2 4).map fun st => field st 3 1 == 2).getD false

/-- GRAPH (R254, R256, R257): the record and its members are taken together; under a cancelled phase or job they are discarded (R17, R258). -/
def execGraph (q : Nat) (s : State) : Host.Outcome State Fault Refusal :=
  takeRecord (· == 5) q (fun s c x head r =>
    let n := field r 4 4
    let g := recPtr r 8
    let ph := recPtr r 0x10
    let jb := recPtr r 0x18
    match s.members? c x head n with
    | none => none
    | some ms =>
      let up := if ph = 0 then jb else ph
      let above := s.cancelledAt c ph || s.cancelledAt c jb
      (((s.openCounter c jb 0).bind fun s => s.openCounter c ph jb).bind fun s => s.openCounter c g up).bind fun s =>
        let s := s.modCtx c.num fun c => { c with
          graphs := nameOnce (s.placeOf c g) c.graphs, phases := nameOnce (s.placeOf c ph) c.phases, jobs := nameOnce (s.placeOf c jb) c.jobs }
        ((s.addMembers c q x head (g, ph, jb) (s.placeOf c g) [] ms).bind fun s => s.took c q x head (1 + n)).map fun s =>
          match s.placeOf c g with
          | some a => if above then s.cancelAt c.num a else s
          | none => s) s

end Sys2Proof.Machine
end

