-- ==== Sys2Proof/Machine/EngineData.lean ====
section
/-! DEFINITION. What the matrix engine computes and where its operands lie: local operand pairs (R210), the slice
arithmetic (R35 to R37), the Mint (R224), the row arithmetic (R225 to R228), and fetches of operand bytes (R219, R351). -/

namespace Sys2Proof.Machine

/-! ### Local operand pairs (R210) -/

/-- Bytes as they stand; a poisoned word gives free bytes. [DESIGN CHOICE: log 23] -/
def State.plainBytes (s : State) (p : PAddr) (n : Nat) : List Byte :=
  if s.poisoned p n then (List.range n).map fun i =>
    if s.poisoned (p.shift i) 1 then (Config.freeWord s.tick (p.key + i)).setWidth 8 else s.byte (p.shift i)
  else s.bytes p n

/-- Bytes of cluster space that an engine reads. [DESIGN CHOICE: log 15, 23] -/
def State.fetchLocal (s : State) (core a n : Nat) : List Byte := s.maskMoved core 0 true 0 a (s.plainBytes (localAt core a) n)

/-- The bytes of an unpacked row. -/
def State.pairRow (s : State) (core : Nat) (p : Pair) (sl i b : Nat) : List Byte :=
  if p.rot = 0 then s.fetchLocal core (p.row sl i) b
  else (List.range (b / 16)).flatMap fun c => s.fetchLocal core (p.beat sl i b c) 16

/-- Do the unpacked rows of slices 0 to `n` − 1 lie in the local memory of the block's gang, or in its own? -/
def State.pairOk (s : State) (b : Block) (own : Bool) (p : Pair) (n rows bytes : Nat) : Bool :=
  (List.range n).all fun sl => (List.range rows).all fun i =>
    if own then b.ownsLocal (p.row sl i) bytes else s.gangLocal b (p.row sl i) bytes

/-! ### Elements (R21, R22, R35) -/

/-- A value of `±m·2^e`. -/
def intFl (v : Int) (e : Int := 0) : Fl := .fin (decide (v < 0)) v.natAbs e

/-- A term of a DT8 weight in units of 2^−6. -/
def dtTerm (t : Nat) : Int :=
  let m : Int := if t % 8 = 7 then 0 else 2 ^ (6 - t % 8)
  if t.testBit 3 then -m else m

/-- An activation by format: 0 F8, 1 INT8, 2 BF16. -/
def actFl (fmt b : Nat) : Fl := if fmt = 0 then f8.read b else if fmt = 1 then intFl (sext 8 b) else bf16.read b
/-- A weight by format: 0 DT8, 1 INT8, 2 F8, 3 BF16. -/
def wtFl (fmt b : Nat) : Fl :=
  if fmt = 0 then intFl (dtTerm (b / 16) + dtTerm (b % 16)) (-6)
  else if fmt = 1 then intFl (sext 8 b) else if fmt = 2 then f8.read b else bf16.read b


/-- The pairs that MMA accepts (R35). -/
def mmaPair (a w : Nat) (i32 : Bool) : Bool :=
  if i32 then a == 1 && w == 1 else (decide (a < 2) && decide (w < 3)) || (a == 2 && w == 3)

/-- The elements of a row of bytes. -/
def elems (size : Nat) (bs : List Byte) : List Nat := (runsOf size bs.length bs).map ofLE

/-! ### Slices (R36, R37) -/

/-- ±m·2^e in units of 2^q, cut off toward zero. -/
def truncUnits (f : Fl) (q : Int) : Int :=
  match f with
  | .fin g m e =>
    let v : Int := (if q ≤ e then m * 2 ^ (e - q).toNat else m / 2 ^ (q - e).toNat : Nat)
    if g then -v else v
  | _ => 0

/-- floor(log2) of a nonzero magnitude. -/
def flLog : Fl → Option Int
  | .fin _ m e => if m = 0 then none else some (Nat.log2 m + e)
  | _ => none

/-- slice_result of R36, as FP32 bits. -/
def sliceResult (xs ws : List Fl) (scale : Word) : Nat :=
  let ps := (xs.zip ws).map fun p => if p.1.isNan || p.2.isNan then Fl.nan false else (p.1.times p.2).getD (.nan false)
  let sc := fp32.read scale.toNat
  let pinf := ps.contains (.inf false)
  let ninf := ps.contains (.inf true)
  if ps.any (·.isNan) || (pinf && ninf) || sc.isNan then fp32.nan
  else if pinf then (fp32.mul 0 false (.inf false) sc).1
  else if ninf then (fp32.mul 0 false (.inf true) sc).1
  else match ps.filterMap flLog with
    | [] => (fp32.mul 0 false (.fin false 0 0) sc).1
    | l :: ls =>
      let q : Int := ls.foldl max l + 8 - 60
      let t := (ps.map fun p => truncUnits p q).foldl (· + ·) 0
      (fp32.mul 0 false (intFl t q) sc).1

/-- The sum of a slice's products of INT8 values (R37). -/
def sliceSum (xs ws : List Nat) : Int := ((xs.zip ws).map fun p => sext 8 p.1 * sext 8 p.2).foldl (· + ·) 0

/-- Adds a slice into the rows of a region; `a` is 128 rows of 128 elements, `w` 128 rows of 256. -/
def addSlice (i32 : Bool) (aFmt wFmt : Nat) (scales : List Word) (a w : List (List Nat)) (acc : List (List Word)) : List (List Word) :=
  let cols := (List.range 256).map fun j => w.map fun r => r.getD j 0
  if i32 then (acc.zip a).map fun (row, xs) => (row.zip cols).map fun (v, ws) => v + BitVec.ofInt 32 (sliceSum xs ws)
  else
    let fcols := cols.map fun c => c.map (wtFl wFmt)
    (acc.zip a).map fun (row, xs) =>
      let fx := xs.map (actFl aFmt)
      ((row.zip fcols).zip scales).map fun ((v, ws), sc) =>
        BitVec.ofNat 32 (fp32.add 0 false (fp32.read v.toNat) (fp32.read (sliceResult fx ws sc))).1

/-! ### Regions -/

/-- The rows of a region as an instruction reads them. [DESIGN CHOICE: log 19] -/
def State.regionRows (s : State) (r : Region) : List (List Word) :=
  runsOf 256 128 (if r.spoiled then (List.range 32768).map (Config.freeWord s.tick) else sdense r.data 0 32768)

/-- Writes the rows of a region. -/
def State.setRows (s : State) (b : BlockKey) (a : Nat) (rows : List (List Word)) : State :=
  s.modRegion b a fun r => { r with data := sOf 0 (rows.flatten.take 32768) }

/-- The contents of a region become free values. [DESIGN CHOICE: log 19] -/
def State.freeRegion (s : State) (b : BlockKey) (a : Nat) : State :=
  s.modRegion b a fun r => { r with spoiled := false, data := sOf 0 ((List.range 32768).map (Config.freeWord s.tick)) }

/-! ### The Mint (R224) -/

/-- An element of a region as a value. -/
def regionFl (i32 : Bool) (v : Word) : Fl := if i32 then intFl v.toInt else fp32.read v.toNat

/-- Largest finite value of a drain format: 0 F8, 1 INT8, 2 BF16, as significand and exponent. -/
def mintMax (fmt : Nat) : Nat × Int := if fmt = 0 then (7, 6) else if fmt = 1 then (127, 0) else (255, 120)

/-- A magnitude, comparable. -/
def flMag : Fl → Fl
  | .fin _ m e => .fin false m e
  | f => f

/-- The scale `.auto` computes for a row, as FP32 bits. -/
def autoScale (fmt : Nat) (xs : List Fl) : Word :=
  let mags := xs.filterMap fun x => match x with
    | .fin _ m e => if m = 0 then none else some (Fl.fin false m e)
    | _ => none
  match mags with
  | [] => 0x3F800000
  | x :: rest =>
    match rest.foldl (fun a b => if a.compare b < 0 then b else a) x with
    | .fin _ m e =>
      let (mm, me) := mintMax fmt
      let k0 : Int := (Nat.log2 mm : Int) - Nat.log2 m + (me - e)
      let k := if m * 2 ^ Nat.log2 mm ≤ mm * 2 ^ Nat.log2 m then k0 else k0 - 1
      BitVec.ofNat 32 (fp32.deliver 0 false false 1 (min k 127)).1
    | _ => 0x3F800000

/-- Rounding code of R25 for a drain's code. -/
def mintRound (m : Nat) : Nat := if m = 2 then 4 else m

/-- One element drained. -/
def mintElem (fmt mode : Nat) (x q : Fl) : List Byte :=
  let y := if x.isNan || q.isNan then Fl.nan false else (x.times q).getD (.nan false)
  if fmt = 1 then toLE 1 (wrap 8 (y.toInt (mintRound mode) (-128) 127).1)
  else
    let F := if fmt = 0 then f8 else bf16
    toLE (if fmt = 0 then 1 else 2) (if y.isNan then F.nan else (F.convert (mintRound mode) true y).1)

/-- Bytes of an element of a drain format. -/
def mintSize (fmt : Nat) : Nat := if fmt = 2 then 2 else 1

/-- A row drained: its bytes, or its 4 chunks. -/
def mintRow (fmt mode : Nat) (pk : Bool) (xs : List Fl) (q : Word) : List Byte :=
  let bs := xs.flatMap fun x => mintElem fmt mode x (fp32.read q.toNat)
  if pk then (runsOf (64 * mintSize fmt) 4 bs).flatMap (packChunk (mintSize fmt)) else bs

/-- Bytes reserved for a row of a packed drain, or the bytes of an unpacked one. -/
def mintPitch (fmt : Nat) (pk : Bool) : Nat := if pk then (if fmt = 2 then 576 else 320) else 256 * mintSize fmt

/-! ### Row arithmetic (R225 to R228) -/

/-- Is element (i, j) masked? -/
def rowMasked (mask i j : Nat) (d : Word) : Bool :=
  if mask = 1 then decide ((i : Int) + d.toInt < j) else if mask = 2 then decide (d.toNat ≤ j) else false

/-- A row's largest unmasked element. -/
def rowLargest (mask i : Nat) (d : Word) (row : List Word) : Nat :=
  let vs := ((List.range row.length).filter fun j => !rowMasked mask i j d).map fun j => (row.getD j 0).toNat
  match vs with
  | [] => 0xFF800000
  | v :: vs =>
    let r := vs.foldl (fun a b => (fp32.pick true a b).1) v
    if (fp32.read r).isNan then fp32.nan else r

/-- One element of ROWEXP. -/
def expElem (x m c : Word) : Nat :=
  let fx := fp32.read x.toNat
  let fm := fp32.read m.toNat
  let fc := fp32.read c.toNat
  if fx = .inf true then 0
  else if fx.isNan || fm.isNan || fc.isNan then fp32.nan
  else
    let t := (fp32.add 0 false fx fm.neg).1
    let u := (fp32.mul 0 false (fp32.read t) fc).1
    (fexp2 (fp32.read u)).1

/-- The exact sum of elements that are +0 or more, rounded once. -/
def rowSum (ys : List Nat) : Word :=
  let fs := ys.map fp32.read
  if fs.any (·.isNan) then BitVec.ofNat 32 fp32.nan
  else if fs.contains (.inf false) then 0x7F800000
  else
    let t := (fs.map fun f => truncUnits f (-149)).foldl (· + ·) 0
    BitVec.ofNat 32 (fp32.deliver 0 false false t.natAbs (-149)).1

/-- Quotient of two FP32 operands (R32). -/
def Fmt.div (F : Fmt) (mode : Nat) (a b : Fl) : FpResult :=
  match a, b with
  | .nan _, _ => (F.nan, snanFlag [a, b])
  | _, .nan _ => (F.nan, snanFlag [a, b])
  | .inf _, .inf _ => (F.nan, flagNV)
  | .inf g, .fin h _ _ => F.infinite false (g != h)
  | .fin g _ _, .inf h => F.zero (g != h)
  | .fin g m e, .fin h n k =>
    if n = 0 then (if m = 0 then (F.nan, flagNV) else ((F.infinite false (g != h)).1, flagDZ))
    else if m = 0 then F.zero (g != h)
    else
      let sh := 60 + Nat.log2 n
      F.round mode false (g != h) (sticky (m * 2 ^ sh / n) (m * 2 ^ sh % n != 0)) (e - k - sh - 1)

/-- f of ROWSC.xf. -/
def xfFactor (old new c : Word) : Word :=
  if old = 0xFF800000 then 0
  else
    let t := (fp32.add 0 false (fp32.read old.toNat) (fp32.read new.toNat).neg).1
    let u := (fp32.mul 0 false (fp32.read t) (fp32.read c.toNat)).1
    BitVec.ofNat 32 (fexp2 (fp32.read u)).1

/-- One element of ROWSC: form 1 divides. -/
def scaleElem (form : Nat) (x f : Word) : Word :=
  let a := fp32.read x.toNat
  let b := fp32.read f.toNat
  if form = 1 then
    match b with
    | .fin _ 0 _ => 0
    | _ => BitVec.ofNat 32 (fp32.div 0 a b).1
  else BitVec.ofNat 32 (fp32.mul 0 false a b).1

/-! ### FIFOs (R239) -/

def fifoBytes : Nat := 65536
def Core.fifo (c : Core) (k : Nat) : Fifo := c.fifos.getD k {}
/-- Is FIFO `k` bound by a block with an engine at one end: 0 req, 1 pro, 2 fet, 3 drn? -/
def Core.bound (c : Core) (b : BlockKey) (k : Nat) (consumer : Bool) (unit : Nat) : Bool :=
  decide (k < 8) && decide ((c.fifo k).owner = some b) && (if consumer then (c.fifo k).consumer else (c.fifo k).producer) == unit
/-- Puts bytes into a FIFO. -/
def State.fifoPush (s : State) (core k : Nat) (bs : List Byte) : State :=
  s.modCore core fun c => { c with fifos := c.fifos.modify k fun f => { f with bytes := f.bytes ++ bs } }
/-- What is left of a FIFO's bytes. -/
def State.fifoSet (s : State) (core k : Nat) (bs : List Byte) : State :=
  s.modCore core fun c => { c with fifos := c.fifos.modify k fun f => { f with bytes := bs } }

/-! ### Fetching -/

/-- What a try to read operand bytes comes to. -/
inductive Draw where
  | full (bs : List Byte)
  /-- Not all there: the bytes there are, in a state that may have asked for more. -/
  | part (s : State) (bs : List Byte)
  | absent (token : Bool) (why obj off : Nat)
  /-- Outside what the block may read; the bytes before it. -/
  | outside (bs : List Byte)
  | internal
  deriving DecidableEq, Repr

/-- Asks a peer for part of a line, once; the Orrery with a slot that no core owns (R361). [DESIGN CHOICE: log 70] -/
def State.askPeer (s : State) (core : Nat) (c : Ctx) (id obj dev off n : Nat) (shared : Bool := false) : State :=
  if s.requests.any fun r => r.id == id && r.core == core && r.packet.obj == obj && r.packet.off == off then s
  else
    let p : Packet := { kind := 1, flags := 0, dst := dev, src := 0, ctx := c.num, obj, off, tag := 0, op := 0, group := 0, plane := 0, length := n, data := [] }
    if shared then (if s.portsOff then s else (s.inject core id p true).1) else ((s.sendRequest core id p).map (·.1)).getD s

/-- Reads device memory for an operation of an engine, page by page or, at a peer, line by line. What a PLACE reads is the tensor that it
moves itself. [DESIGN CHOICE: log 15, 23] -/
def State.engineRead (s : State) (core : Nat) (c : Ctx) (id obj : Nat) : Nat → Nat → Nat → Draw
  | 0, _, _ => .internal
  | fuel + 1, off, n =>
    let more : Nat → List Byte → Draw := fun k bs =>
      let bs := if s.places.any fun o => o.id == id then bs else s.maskMoved core c.num false obj off bs
      if n ≤ k then .full bs
      else match s.engineRead core c id obj fuel (off + k) (n - k) with
        | .full rest => .full (bs ++ rest)
        | d => d
    match s.sideBefore core id obj off n, s.owed core id false obj off n with
    | some (token, a), _ => .absent token (s.whyAt c obj a) obj a
    | none, true => .part s []
    | none, false => if s.vaultOff c obj then .part s [] else match s.translate c obj off 1 with
    | .at_ p l =>
      let k := min n (l.base + l.size - off)
      if p.exists_ k then more k (s.plainBytes p k) else .part (s.touch p k) []
    | .poisoned l =>
      let k := min n (l.base + l.size - off)
      more k ((List.range k).map fun i => (Config.freeWord s.tick (off + i)).setWidth 8)
    | .peer d =>
      let k := min n (256 - off % 256)
      let own : Bool := s.places.any fun o => o.id == id
      match s.fetched.find? fun x => x.id == id && x.obj == obj && x.off == off with
      | some x => if x.bytes.isEmpty then .absent true 8 obj off
        else if x.bytes.length < k then .part ({ s with fetched := s.fetched.filter fun y => y != x }.askPeer core c id obj d off k own) [] else more k (x.bytes.take k)
      | none => .part (s.askPeer core c id obj d off k own) []
    | .absent _ why => .absent false why obj off
    | .refused => .absent true 9 obj off
    | .bad => .internal

/-- Did what a peer has sent an operation of these bytes meet an uncorrectable error (R188)? -/
def State.sentBad (s : State) (id obj off n : Nat) : Bool :=
  s.fetched.any fun x => x.id == id && x.obj == obj && x.ue && decide (off < x.off + x.bytes.length) && decide (x.off < off + n)

/-- Fuel that a read of `n` bytes cannot use up. -/
def readFuel (n : Nat) : Nat := n / 256 + 4

/-- Reads `k` chunks of packed elements; `rd` reads bytes of the run from a position. -/
def drawChunks (rd : Nat → Nat → Draw) (size k : Nat) : Nat → List Byte → Draw
  | 0, _ => .internal
  | fuel + 1, buf =>
    let need := chunksNeed size buf k 0
    if need ≤ buf.length then .full buf
    else match rd buf.length (need - buf.length) with
      | .full bs => if bs.isEmpty then .internal else drawChunks rd size k fuel (buf ++ bs)
      | .part s bs => .part s (buf ++ bs)
      | .outside bs => .outside (buf ++ bs)
      | d => d

/-- Reads chunks from local memory: `ok` says which bytes may be read. -/
def State.drawLocal (s : State) (core : Nat) (ok : Nat → Nat → Bool) (size k addr : Nat) : Draw :=
  drawChunks (fun pos n => if ok (addr + pos) n then .full (s.fetchLocal core (addr + pos) n) else .outside []) size k (2 * k + 2) []

end Sys2Proof.Machine
end

