-- ==== Sys2Proof/Machine/Engine.lean ====
section
/-! DEFINITION. The matrix engine: WLOAD, MMA, ACCZ, ACCRD, ACCWR, ACCDR, ACCLD and the row instructions (R209 to R228) at
issue, and the steps in which the engine performs them. -/

namespace Sys2Proof.Machine

/-! ### At issue -/

/-- The skeleton of an operation given to the engine. [DESIGN CHOICE: log 59] -/
def Exec.engineOp (x : Exec) (s : State) (th : Thread) (i : Instr) (kind : EngineKind) : EngineOp :=
  { id := x.inst, block := th.tid.block, group := th.tid.group, ctx := s.ctxOf th.tid.block, insn := (encode i).getD 0
    lanes := x.act.map (·.tid), flag := x.flag, kind, pc := x.ig.pc }

/-- The region of an operation. -/
def EngineOp.region (o : EngineOp) : Option Nat :=
  match o.kind with
  | .wload .. => none
  | .mma r .. => some r
  | .accz r => some r
  | .accrd r .. => some r
  | .accwr r .. => some r
  | .accld r _ => some r
  | .accdr _ r .. => some r
  | .rowmax r .. => some r
  | .rowexp r .. => some r
  | .rowsc r .. => some r

/-- Is it the load of a latch slot that a restore has queued (R216)? -/
def EngineOp.reload (o : EngineOp) : Bool := o.insn == 0

def EngineOp.isMma (o : EngineOp) : Bool :=
  match o.kind with
  | .mma .. => true
  | _ => false

/-- Is an MMA on the region incomplete? -/
def Core.mmaOn (c : Core) (b : BlockKey) (r : Nat) : Bool := c.engine.any fun o => o.isMma && o.block == b && o.region == some r

/-- Will the operation act on its region without waiting for an MMA that is incomplete (R213)? [DESIGN CHOICE: log 19] -/
def Core.hurries (c : Core) (o : EngineOp) : Bool := !o.isMma && o.region.any (c.mmaOn o.block)

/-- Does an MMA, WLOAD or ACCLD fetch what an engine or another home group has written since the OPRDY that took such writes in (R201)?
[DESIGN CHOICE: log 20] -/
def State.unsynced (s : State) (core : Nat) (o : EngineOp) : Bool :=
  match s.group? o.block o.group with
  | some g => (g.unready.any fun r => o.readsLocal (fun a => s.val (localAt core a) 8) r.1 (r.2.1 - r.1))
      || g.unreadyRegs.any fun r => decide (o.run.1 ≤ r) && decide (r < o.run.2)
  | none => false

/-- Hands an operation to the engine of the issuing core. One other than MMA that names a region with an incomplete MMA leaves the region's
values free from now on (R213). [DESIGN CHOICE: log 19, 20] -/
def State.enqueue (s : State) (x : Exec) (o : EngineOp) : State :=
  let hasty := (s.core x.ig.core).hurries o
  let s := if hasty then s.modRegion o.block (o.region.getD 0) fun r => { r with spoiled := true } else s
  s.modCore x.ig.core fun c => { c with engine := c.engine ++ [{ o with hasty, raced := o.raced || s.unsynced x.ig.core o }], engineStarts := c.engineStarts + 1 }

/-- The thread of each lane of a home group; none in a phantom lane. -/
def laneThreads (x : Exec) : List (Option Thread) := (List.range 128).map fun l => x.act.find? fun t => t.tid.lane == l

/-- A vector operand read at issue in each lane, 0 in a phantom lane: register `k` after the one named. [DESIGN CHOICE: log 59] -/
def State.laneVals (s : State) (x : Exec) (o : Operand) (k : Nat) : List Word :=
  (laneThreads x).map fun t => match t with
    | none => 0
    | some th => match o with
      | .vec .. | .idx .. => s.vreg th (s.regNo th o + k)
      | _ => s.src32 th o

/-- The register a destination names in each lane. -/
def State.laneRegs (s : State) (x : Exec) (o : Operand) : List (Option Nat) :=
  (laneThreads x).map fun t => t.map fun th => s.regNo th o

/-- The `n` uniform registers that an operand names, the first and those after it (R372). [DESIGN CHOICE: log 59] -/
def uniRun (o : Operand) (n : Nat) : List Nat :=
  match o with
  | .uni r _ => (List.range n).map (r.toNat + ·)
  | _ => []

/-- The region an operand names. -/
def accNo : Operand → Nat
  | .acc a => a.toNat
  | _ => 0

/-- The region of a block, as it stands. -/
def State.regionAt (s : State) (b : BlockKey) (a : Nat) : Region := (s.region? b a).getD { block := b, index := a }

/-- TRAPINFO of a local operand pair that names bytes out of bounds. -/
def pairInfo (slot : Nat) (p : Pair) : Word := accessInfo true slot p.base

/-- A wait for memory accesses that happen before an engine's operation (R308). -/
def Exec.engineWait (x : Exec) (s : State) : Bool := s.engineWait x.ig.core (x.act.map (·.tid))

/-! ### Latches (R215, R216) -/

def Region.latch (r : Region) (slot : Nat) : BitVec 64 := if slot = 0 then r.latch0 else r.latch1
def Region.setLatch (r : Region) (slot : Nat) (v : BitVec 64) : Region := if slot = 0 then { r with latch0 := v } else { r with latch1 := v }
/-- The record marks the slot valid. -/
def latchValid (v : BitVec 64) : Bool := v.getLsbD 63
def latchFmt (v : BitVec 64) : Nat := (v.extractLsb' 61 2).toNat
/-- The latch record of a WLOAD. -/
def latchRecord (fmt lo hi : Nat) : BitVec 64 :=
  BitVec.ofNat 64 (2 ^ 63 + fmt * 2 ^ 61 + bits hi 24 24 * 2 ^ 36 + bits hi 23 20 * 2 ^ 32 + lo)

/-- Clears bit 63 of a slot's record in the header of its owner. -/
def State.disown (s : State) (core slot : Nat) : State :=
  match ((s.core core).latches.getD slot {}).owner with
  | none => s
  | some b => s.modRegion b 0 fun r => r.setLatch slot (r.latch slot &&& ~~~(1#64 <<< 63))

def State.setLatch (s : State) (core slot : Nat) (l : Latch) : State :=
  s.modCore core fun c => { c with latches := c.latches.set slot l }

/-- A block takes a slot. -/
def State.takeSlot (s : State) (core slot : Nat) (b : BlockKey) (record : BitVec 64) : State :=
  let s := s.disown core slot
  let s := s.modCore core fun c => { c with latches := c.latches.modify slot fun l => { l with owner := some b } }
  s.modRegion b 0 fun r => r.setLatch slot record

/-- Both slots become invalid for every block. -/
def State.dropSlots (s : State) (core : Nat) : State :=
  let s := (s.disown core 0).disown core 1
  s.modCore core fun c => { c with latches := c.latches.map fun l : Latch => { l with owner := none } }

/-- The packed image's bytes from the first chunk on, or the rows of an unpacked one. -/
def State.imageRows (s : State) (b : Block) (fmt : Nat) (p : Pair) (sl : Nat) : Draw :=
  let size := wtSize fmt
  if p.pk then s.drawLocal b.core (fun a n => b.ownsLocal a n) size 512 (p.base + 1024)
  else .full ((List.range 128).flatMap fun i => s.pairRow b.core (p.at_ 1024) sl i (256 * size))

/-- The column scales of a weight image (R210). -/
def State.imageScales (s : State) (core : Nat) (p : Pair) : List Byte := s.fetchLocal core p.base 1024

/-- Bytes that a draw has; none where it does not have them all. -/
def Draw.bytes? : Draw → Option (List Byte)
  | .full bs => some bs
  | _ => none

/-- WLOAD (R215, R216). [DEDUCED: log 27] -/
def execWload (f : Insn) (s : State) : Host.Outcome State Fault Refusal :=
  issueWith (.wload f) f (fun s x =>
    match x.act.head?, x.act.head?.bind fun th => s.block? th.tid.block with
    | some th, some b =>
      let v := s.src th f.opa 2
      let fmt := Forms.mid2 f.mod
      let slot := if f.mod.getLsbD 2 then 1 else 0
      if b.regions = 0 then .trap { cause := Cause.regbound, infos := x.mem.map fun t => (t.tid, 0x8000000), hit := x.act.map (·.tid.lane) }
      else match pairOf v with
        | none => trapAll x Cause.badfmt 0
        | some p =>
          if !p.pk && !(b.ownsLocal p.base 1024 && s.pairOk b true (p.at_ 1024) 1 128 (256 * wtSize fmt)) then
            trapAll x Cause.viewbound (pairInfo 0 p)
          else if x.engineWait s then .wait s
          else
            let s := s.takeSlot x.ig.core slot b.key (latchRecord fmt (v % 2 ^ 32) (v / 2 ^ 32))
            .done (s.enqueue x { x.engineOp s th (.wload f) (.wload fmt slot (BitVec.ofNat 32 v) (BitVec.ofNat 32 (v / 2 ^ 32))) with
              unis := uniRun f.opa 2 })
              .later false
    | _, _ => .done s .atIssue false) s

/-! ### MMA at issue (R217, R218) -/

/-- Where W comes from, its format, the number of slices and packing; none where R218 turns the descriptor away. The place of a view is found
by its check. -/
def State.mmaW (s : State) (th : Thread) (f : Insn) (r0 : Region) : Option (Span × Nat × Nat × Bool) :=
  let src := Forms.w2 f.mod
  if src = 0 then
    let slot := if f.mod.getLsbD 1 then 1 else 0
    if latchValid (r0.latch slot) then some (.latch slot, latchFmt (r0.latch slot), 1, false) else none
  else
    let v := s.src th f.opb 2
    let m := match f.opb with
      | .uni n _ => (s.ureg th (n.toNat + 2)).toNat
      | _ => 0
    let n := m % 128
    let fmt := bits m 9 8
    let pk := m.testBit 10
    if n = 0 ∨ 64 < n ∨ m / 2 ^ 11 ≠ 0 ∨ m.testBit 7 then none
    else if src = 1 then
      match pairOf v with
      | some p => if pk then none else some (.pair (BitVec.ofNat 32 v) (BitVec.ofNat 32 (v / 2 ^ 32)), fmt, n, p.pk)
      | none => none
    else if src = 2 then if 8 ≤ v then none else some (.fifo v, fmt, n, pk)
    else some (.view 0 0 0 0, fmt, n, pk)

/-- Where A comes from. -/
def State.mmaA (s : State) (th : Thread) (f : Insn) : Option Span :=
  let src := Forms.hi2 f.mod
  if src = 0 then some (.regs (s.regNo th f.opa))
  else if src = 1 then (pairOf (s.src th f.opa 2)).map fun _ => .pair (BitVec.ofNat 32 (s.src th f.opa 2)) (BitVec.ofNat 32 (s.src th f.opa 2 / 2 ^ 32))
  else some (.fifo (s.src th f.opa 1))

/-- A register as an engine reads it; one in the span of a tensor that a PLACE is moving gives a free value (R230). [DESIGN CHOICE: log 15] -/
def State.rawReg (s : State) (home r lane : Nat) : Word :=
  if s.placeHolds (.vec home r lane) then Config.freeWord s.tick (placeKey (.vec home r lane)) else sget s.vregs (vkey home r lane)

/-- The rows of A that lie in registers: 128·b bytes from the run of slice `sl`. -/
def State.regRows (s : State) (home r b sl : Nat) : List (List Byte) :=
  (List.range 128).map fun i => (List.range (32 * b)).flatMap fun k => toLE 4 (s.rawReg home (r + 32 * b * sl + k) i).toNat

/-- One row of A in local memory, unpacked or as 2 chunks. -/
def State.aRow (s : State) (b : Block) (p : Pair) (size sl i : Nat) : Draw :=
  if p.pk then s.drawLocal b.core (s.gangLocal b) size 2 (p.row sl i)
  else .full (s.pairRow b.core p sl i (128 * size))

/-- Joins the draws of rows. -/
def drawRows : List Draw → Draw
  | [] => .full []
  | .full bs :: rest => match drawRows rest with
    | .full r => .full (bs ++ r)
    | d => d
  | d :: _ => d

/-- A region's header receives an MMA (R64, R218). -/
def Region.header (r : Region) (o : EngineOp) (n : Nat) : Region :=
  { r with stopped := false, progress := 0, slices := n, owner := BitVec.ofNat 8 (o.flag.getD 15 + 16 * o.group), insn := o.insn, aCursor := 0, wCursor := 0 }

/-- What a view pointer that has passed its check names, with the bounds of its view then. -/
def State.viewSpan (s : State) (core ctx : Nat) (p : BitVec 64) : Span :=
  let v := (s.cachedView core ctx (ptrIndex p)).getD (noView ctx 0)
  .view v.obj (ptrOffset p) v.low v.high

/-- A source or destination that the uniforms `ns` name, read again: what names nothing that it may leaves the span as it was. With the view
index it was checked through. [DESIGN CHOICE: log 59] -/
def State.spanAgain (s : State) (core : Nat) (o : EngineOp) (home : Nat) (ns : List Nat) (need : BitVec 4) (sp : Span) : Span × Nat :=
  let lo := (ns.head?.map fun n => sget s.uregs (ukey home n)).getD 0
  let hi := (ns[1]?.map fun n => sget s.uregs (ukey home n)).getD 0
  let p : BitVec 64 := hi ++ lo
  if ns.isEmpty then (sp, o.handle)
  else match sp with
    | .pair .. => (if (pairOf p.toNat).isSome then .pair lo hi else sp, o.handle)
    | .fifo _ => (if (s.core core).bound o.block lo.toNat (need == rightR) (if need = rightR then 2 else 3) then .fifo lo.toNat else sp, o.handle)
    | .view _ off _ _ =>
      let v := (s.cachedView core o.ctx (ptrIndex p)).getD (noView o.ctx 0)
      if ptrIndex p = o.handle ∧ ptrOffset p = off then (sp, o.handle)
      else match checkView v p 0 1 1 need with
        | .ok _ => (s.viewSpan core o.ctx p, ptrIndex p)
        | .error _ => (sp, o.handle)
    | sp => (sp, o.handle)

/-- The uniform registers of an operation that goes on after a stop or a restore, read again (R372). [DESIGN CHOICE: log 59] -/
def State.opAgain (s : State) (core : Nat) (o : EngineOp) : EngineOp :=
  match s.group? o.block o.group with
  | none => o
  | some g => match o.kind with
    | .wload fmt slot lo hi => match (s.spanAgain core o g.home o.unis rightR (.pair lo hi)).1 with
      | .pair lo hi => { o with kind := .wload fmt slot lo hi }
      | _ => o
    | .accld r sp =>
      let (sp, h) := s.spanAgain core o g.home o.unis rightR sp
      { o with kind := .accld r sp, handle := h }
    | .accdr i32 r fmt mode pk auto scales regs dst row =>
      let (dst, h) := s.spanAgain core o g.home o.unis rightW dst
      { o with kind := .accdr i32 r fmt mode pk auto scales regs dst row, handle := h }
    | .mma r aFmt wFmt n pk a w =>
      let ua := if o.unis.length % 3 = 2 then o.unis.take 2 else []
      let ub := o.unis.drop ua.length
      let m := ((ub[2]?.map fun n => sget s.uregs (ukey g.home n)).getD 0).toNat
      let a := (s.spanAgain core o g.home ua rightR a).1
      let (w, h) := s.spanAgain core o g.home (ub.take 2) rightR w
      let done := (s.regionAt o.block r).progress
      if ub = [] ∨ m % 128 ≤ done ∨ 64 < m % 128 ∨ m / 2 ^ 11 ≠ 0 ∨ m.testBit 7 ∨ mmaPair aFmt (bits m 9 8) (s.regionAt o.block r).i32 = false then
        { o with kind := .mma r aFmt wFmt n pk a w, handle := h }
      else
        let pair := match w with
          | .pair .. => true
          | _ => false
        { o with kind := .mma r aFmt (bits m 9 8) (m % 128) (if pair then pk else m.testBit 10) a w, handle := h }
    | _ => o

/-- MMA (R217, R218). -/
def execMma (f : Insn) (s : State) : Host.Outcome State Fault Refusal :=
  issueWith (.mma f) f (fun s x =>
    match x.act.head?, x.act.head?.bind fun th => s.block? th.tid.block with
    | some th, some b =>
      let a := accNo f.opd
      let r := s.regionAt b.key a
      let aFmt := Forms.mid2 f.mod
      let size := actSize aFmt
      let core := x.ig.core
      match s.mmaW th f (s.regionAt b.key 0), s.mmaA th f with
      | some (w, wFmt, n, pk), some av =>
        let alloc := ((s.group? th.tid.block th.tid.group).map (·.alloc)).getD 0
        let run := match av with
          | .regs v => (v, v + 32 * size * n)
          | _ => (0, 0)
        let fifoBad : Span → Bool := fun sp => match sp with
          | .fifo k => !(s.core core).bound b.key k true 2
          | _ => false
        let localBad : Span → Bool → Option Pair := fun sp wt => sp.pair?.bind fun p =>
          if p.pk then none
          else if wt then if s.gangLocal b p.base 1024 && s.pairOk b false (p.at_ 1024) n 128 (256 * wtSize wFmt) then none else some p
          else if s.pairOk b false p n 128 (128 * size) then none else some p
        if !mmaPair aFmt wFmt r.i32 then trapAll x Cause.badfmt 0
        else if alloc < run.2 then trapAll x Cause.regbound (BitVec.ofNat 32 (2 ^ 27 + run.1))
        else if fifoBad av || fifoBad w then trapAll x Cause.fifoerr 0
        else match localBad av false, localBad w true with
          | some p, _ => trapAll x Cause.viewbound (pairInfo 0 p)
          | none, some p => trapAll x Cause.viewbound (pairInfo 1 p)
          | none, none =>
            let p := BitVec.ofNat 64 (s.src th f.opb 2)
            let wants := match w with
              | .view .. => x.act.map fun t => { th := t, slot := 1, p, n := if pk then 1032 else 1024 + 32768 * wtSize wFmt * n, al := 1, need := rightR : Want }
              | _ => []
            match s.checkAll x b.ctx wants with
            | .trap t => .trap t
            | .wait t => .wait t
            | .ok _ =>
              let empty := (List.range (run.2 - run.1)).any fun k => x.act.any fun t => s.emptyReg t.home (run.1 + k) t.tid.lane
              if empty || x.engineWait s then .wait s
              else
                let (w, h) := match w with
                  | .view .. => (s.viewSpan core b.ctx p, ptrIndex p)
                  | w => (w, 0)
                let o := { x.engineOp s th (.mma f) (.mma a aFmt wFmt n pk av w) with
                  handle := h, run := run, unis := uniRun f.opa 2 ++ uniRun f.opb 3 }
                let t := if (s.core core).mmaOn b.key a then s else s.modRegion b.key a (·.header o n)
                let t := match w with
                  | .latch _ => t
                  | _ => t.dropSlots core
                .done (t.enqueue x o) .later false
      | _, _ => trapAll x Cause.badfmt 0
    | _, _ => .done s .atIssue false) s

/-! ### The other instructions at issue -/

/-- An instruction that only goes to the engine. -/
def engineOnly (i : Instr) (kind : State → Exec → Thread → EngineKind) (s : State) (x : Exec) : Act :=
  match x.act with
  | th :: _ => .done (s.enqueue x (x.engineOp s th i (kind s x th))) .later false
  | [] => .done s .atIssue false

/-- ACCZ (R221): the format changes at issue. -/
def execAccz (f : Insn) (s : State) : Host.Outcome State Fault Refusal :=
  issueWith (.accz f) f (fun s x =>
    let b := (x.act.head?.map (·.tid.block)).getD ⟨0, 0⟩
    engineOnly (.accz f) (fun _ _ _ => .accz (accNo f.opd)) (s.modRegion b (accNo f.opd) fun r => { r with i32 := f.mod.getLsbD 0 }) x) s

/-- The first column of ACCRD and ACCWR. -/
def firstColumn (s : State) (x : Exec) (f : Insn) : Word := ((x.act.head?).map fun th => s.src32 th f.opb).getD 0

/-- ACCRD (R222). -/
def execAccrd (f : Insn) (s : State) : Host.Outcome State Fault Refusal :=
  issueWith (.accrd f) f (fun s x =>
    let c := firstColumn s x f
    let m := accCols f
    if 256 < c.toNat + m then trapAll x Cause.illop c
    else
      let v := ((x.act.head?).map fun th => s.regNo th f.opd).getD 0
      let t := x.act.foldl (fun t th => t.markEmptyRun th.home v th.tid.lane x.inst m) s
      engineOnly (.accrd f) (fun _ _ _ => .accrd (accNo f.opa) v m c.toNat) t x) s

/-- ACCWR (R222): registers read at issue. -/
def execAccwr (f : Insn) (s : State) : Host.Outcome State Fault Refusal :=
  issueWith (.accwr f) f (fun s x =>
    let c := firstColumn s x f
    let m := accCols f
    if 256 < c.toNat + m then trapAll x Cause.illop c
    else
      let rows := (laneThreads x).map fun t => match t with
        | none => List.replicate m 0
        | some th => (List.range m).map fun k => s.vreg th (s.regNo th f.opa + k)
      engineOnly (.accwr f) (fun _ _ _ => .accwr (accNo f.opd) m c.toNat rows) s x) s

/-- ACCLD (R223). [DEDUCED: log 31] -/
def execAccld (f : Insn) (s : State) : Host.Outcome State Fault Refusal :=
  issueWith (.accld f) f (fun s x =>
    match x.act.head?, x.act.head?.bind fun th => s.block? th.tid.block with
    | some th, some b =>
      let v := s.src th f.opa 2
      let a := accNo f.opd
      let go : Span → Nat → Act := fun sp h =>
        if x.engineWait s then .wait s
        else
          let t := s.modRegion b.key a fun r => { r with i32 := f.mod.getLsbD 0 }
          .done (t.enqueue x { x.engineOp s th (.accld f) (.accld a sp) with handle := h, unis := uniRun f.opa 2 }) .later false
      if Forms.hi2 f.mod = 0 then
        match pairOf v with
        | none => trapAll x Cause.badfmt 0
        | some p =>
          if 16 * p.rpitch < 1024 ∨ p.rot ≠ 0 ∨ p.pk = true then trapAll x Cause.badfmt 0
          else if !s.pairOk b false p 1 128 1024 then trapAll x Cause.viewbound (pairInfo 0 p)
          else go (.pair (BitVec.ofNat 32 v) (BitVec.ofNat 32 (v / 2 ^ 32))) 0
      else
        let p := BitVec.ofNat 64 v
        match s.checkAll x b.ctx (x.act.map fun t => { th := t, slot := 0, p, n := 131072, al := 1, need := rightR : Want }) with
        | .trap t => .trap t
        | .wait t => .wait t
        | .ok _ => go (s.viewSpan x.ig.core b.ctx p) (ptrIndex p)
    | _, _ => .done s .atIssue false) s

/-- ACCDR (R224). A row pitch of 0 on the pair that it writes is taken as any other. [DEDUCED: log 31; DESIGN CHOICE: log 96] -/
def execAccdr (f : Insn) (s : State) : Host.Outcome State Fault Refusal :=
  issueWith (.accdr f) f (fun s x =>
    match x.act.head?, x.act.head?.bind fun th => s.block? th.tid.block with
    | some th, some b =>
      let a := accNo f.opa
      let fmt := Forms.mid2 f.mod
      let pk := f.mod.getLsbD 3
      let auto := f.mod.getLsbD 2
      let S := mintPitch fmt pk
      let core := x.ig.core
      let scales := if auto then [] else s.laneVals x f.opd 0
      let op : Span → EngineOp := fun sp =>
        { x.engineOp s th (.accdr f) (.accdr (s.regionAt b.key a).i32 a fmt (Forms.low2 f.mod) pk auto scales (s.laneRegs x f.opd) sp 0) with unis := uniRun f.opb 2 }
      match Forms.hi2 f.mod with
      | 0 =>
        let v := s.src th f.opb 2
        match pairOf v with
        | none => trapAll x Cause.badfmt 0
        | some p =>
          if p.rot ≠ 0 ∨ p.pk = true ∨ (pk = true ∧ 16 * p.rpitch < S) then trapAll x Cause.badfmt 0
          else if !s.pairOk b false p 1 128 S then trapAll x Cause.viewbound (pairInfo 1 p)
          else if 32 ≤ (s.core core).ranges.length then .wait s
          else
            let t := s.modCore core fun c => { c with ranges := c.ranges ++ [⟨p.base, p.base + 16 * 127 * p.rpitch + S, x.inst⟩] }
            .done (t.enqueue x (op (.pair (BitVec.ofNat 32 v) (BitVec.ofNat 32 (v / 2 ^ 32))))) .later false
      | 1 =>
        let p := s.ptr th f.opb
        match s.checkAll x b.ctx (x.act.map fun t => { th := t, slot := 1, p, n := 128 * S, al := 1, need := rightW : Want }) with
        | .trap t => .trap t
        | .wait t => .wait t
        | .ok _ => .done (s.enqueue x { op (s.viewSpan core b.ctx p) with handle := ptrIndex p }) .later false
      | _ =>
        let k := s.src th f.opb 1 % 2 ^ 32
        if !(s.core core).bound b.key k false 3 then trapAll x Cause.fifoerr 0
        else .done (s.enqueue x (op (.fifo k))) .later false
    | _, _ => .done s .atIssue false) s

/-- A row instruction: its region must be FP32 (R225). -/
def rowInsn (i : Instr) (a : Nat) (kind : State → Exec → Thread → EngineKind) (s : State) (x : Exec) : Act :=
  let b := (x.act.head?.map (·.tid.block)).getD ⟨0, 0⟩
  if (s.regionAt b a).i32 then trapAll x Cause.badfmt 0 else engineOnly i kind s x

/-- ROWMAX (R226). -/
def execRowmax (f : Insn) (s : State) : Host.Outcome State Fault Refusal :=
  issueWith (.rowmax f) f (rowInsn (.rowmax f) (accNo f.opa) fun s x _ =>
    .rowmax (accNo f.opa) (Forms.low2 f.mod) (f.mod.getLsbD 2) (s.laneVals x f.opb 0) (s.laneVals x f.opd 0) (s.laneRegs x f.opd)) s
/-- ROWEXP (R227). -/
def execRowexp (f : Insn) (s : State) : Host.Outcome State Fault Refusal :=
  issueWith (.rowexp f) f (rowInsn (.rowexp f) (accNo f.opa) fun s x _ =>
    .rowexp (accNo f.opa) (Forms.low2 f.mod) (s.laneVals x f.opb 0) (s.laneVals x f.opb 1) (s.laneVals x f.opb 2) (s.laneRegs x f.opd)) s
/-- ROWSC (R228). -/
def execRowsc (f : Insn) (s : State) : Host.Outcome State Fault Refusal :=
  issueWith (.rowsc f) f (rowInsn (.rowsc f) (accNo f.opa) fun s x _ =>
    let xf := Forms.low2 f.mod == 2
    .rowsc (accNo f.opa) (Forms.low2 f.mod) (s.laneVals x f.opb 0) (if xf then s.laneVals x f.opb 1 else []) (if xf then s.laneVals x f.opb 2 else [])
      (if xf then s.laneRegs x f.opd else [])) s

/-! ### The engine's order (R213) -/

/-- The first operation that may run and is one of `p`: the head of the queue, or one that names a region on which an MMA before it is
incomplete. A parked MMA still adds the slice that it has fetched (R351). -/
def nextOp (p : EngineOp → Bool) : List EngineOp → List EngineOp → Option EngineOp
  | _, [] => none
  | before, o :: rest =>
    if p o && (o.park.isNone || o.ready.isSome) && (before.isEmpty || (!o.isMma && o.region.isSome
        && before.any fun m => m.isMma && m.block == o.block && m.region == o.region)) then some o
    else nextOp p (before ++ [o]) rest

def Core.nextOp (c : Core) (p : EngineOp → Bool) : Option EngineOp := Machine.nextOp p [] c.engine

/-- Removes an operation and what a peer has sent for it. -/
def State.dropOp (s : State) (core id : Nat) : State :=
  { s.modCore core (fun c => { c with engine := c.engine.filter (fun o => o.id != id), ranges := c.ranges.filter (fun r => r.op != id) }) with
    fetched := s.fetched.filter (fun x => x.id != id), racedOps := s.racedOps.filter fun x => x != id }

def State.setOp (s : State) (core : Nat) (o : EngineOp) : State :=
  s.modCore core fun c => { c with engine := c.engine.map fun x => if x.id = o.id then o else x }

/-- Has a lane of a home group a thread that has not exited (R49)? -/
def State.laneLives (s : State) (b : BlockKey) (g lane : Nat) : Bool := ((s.thread? ⟨b, g, lane⟩).map (·.alive)).getD false

/-- Writes a word of results into the vector registers that the lanes of a home group name (R211). One of a lane that has exited is
discarded (R49). -/
def State.putLanes (s : State) (o : EngineOp) (regs : List (Option Nat)) (vals : List Word) : State :=
  let home := ((s.group? o.block o.group).map (·.home)).getD 0
  let written := dedup (regs.filterMap id)
  (List.range 128).foldl (fun s i => match regs.getD i none with
    | some r => if s.laneLives o.block o.group i then s.putResult (coreOf home) (.vec home r i) (vals.getD i 0) else s
    | none => s) (s.noteRegs home written)

/-- What an operation writes when it completes: ACCDR.auto the scales of its rows (R211, R224). -/
def State.putScales (s : State) (o : EngineOp) : State :=
  match o.kind with
  | .accdr _ _ _ _ _ true scales regs _ _ => s.putLanes o regs scales
  | _ => s

/-- An operation is done: its flag clears. -/
def State.endOp (s : State) (core : Nat) (o : EngineOp) : State := ((s.dropOp core o.id).putScales o).complete o.lanes o.flag

/-- An operation ends with a deferred trap (R212). -/
def State.failOp (s : State) (core : Nat) (o : EngineOp) (c : BitVec 6) (info : Nat) : State :=
  (s.endOp core o).deferTrap o.block o.group c (BitVec.ofNat 32 info)

/-- Has the block ended by cancellation, so that the engine discards its work (R213)? -/
def State.blockCancelled (s : State) (b : BlockKey) : Bool :=
  match s.block? b with
  | some k => k.cancel && (s.blockThreads b).all fun t => !t.alive
  | none => true

/-- The first operation of a cancelled block, which the engine discards. -/
def State.discardOp (s : State) (core : Nat) : Option EngineOp := (s.core core).engine.find? fun o => s.blockCancelled o.block

/-- The access that the wait-table entry of an engine's operation holds. -/
def EngineOp.entryAcc (o : EngineOp) (obj off : Nat) : Access :=
  { id := o.id, inst := o.id, tid := ⟨o.block, o.group, 0⟩, opc := o.insn.extractLsb' 88 8, mod := o.insn.extractLsb' 80 8
    obj, off, handle := o.handle, reg := o.region.getD 0, flag := o.flag, pc := o.pc }

/-- An operation meets bytes that cannot be reached now (R219): a record with its access byte, one wait-table entry, and its home group
parks. A full wait table makes it try again. -/
def State.parkOp (s : State) (core : Nat) (o : EngineOp) (access detail : Nat) (token : Bool) (why obj off : Nat) : State :=
  match s.ctx? o.ctx with
  | none => s
  | some c =>
    if waitTableSize ≤ (s.core core).waits.length then s.setOp core o
    else
      let (s, k) := s.noteFault core c token obj off fun t =>
        mkRecord 4 core o.group (access + why) t obj off o.block.launch o.block.index 0xFFFF detail o.pc
      let e : Entry := { kind := 3, key := k, acc := o.entryAcc obj off, engine := true, op := o.id }
      ((s.modCore core fun x => { x with waits := x.waits ++ [e] }).setOp core { o with park := some k }).park k (s.liveOf o.block o.group)

/-- An operation has acted on a region while an earlier MMA on it is incomplete, or was at its issue (R213). [DESIGN CHOICE: log 19] -/
def State.spoil (s : State) (core : Nat) (o : EngineOp) (a : Nat) : State :=
  if (((s.core core).engine.takeWhile fun q => q.id != o.id).any fun q => q.isMma && q.block == o.block && q.region == some a) then
    s.modRegion o.block a fun r => { r with spoiled := true }
  else if o.hasty then s.freeRegion o.block a
  else s

/-! ### MMA slices (R218, R219) -/

/-- Draws from a FIFO into a buffer; `need` says how long the bytes must be, as far as they show it. -/
def State.drawFifo (s : State) (core k : Nat) (buf : List Byte) (need : List Byte → Nat) : Draw × State :=
  let all := buf ++ ((s.core core).fifo k).bytes
  if need all ≤ all.length then (.full (all.take (need all)), s.fifoSet core k (all.drop (need all)))
  else (.part s all, s.fifoSet core k [])

/-- The scale vector of a streamed MMA. -/
def State.drawScales (s : State) (core : Nat) (b : Block) (c : Ctx) (o : EngineOp) (w : Span) : Draw × State :=
  match w with
  | .pair .. => match w.pair? with
    | some p => (if s.gangLocal b p.base 1024 then .full (s.fetchLocal core p.base 1024) else .outside [], s)
    | none => (.internal, s)
  | .view obj off _ _ => (s.engineRead core c o.id obj (readFuel 1024) off 1024, s)
  | .fifo k => s.drawFifo core k o.bufW fun _ => 1024
  | _ => (.internal, s)

/-- The bytes of slice `sl` of A. -/
def State.drawA (s : State) (core : Nat) (b : Block) (home : Nat) (o : EngineOp) (size sl : Nat) (a : Span) : Draw × State :=
  match a with
  | .regs r => (.full (s.regRows home r size sl).flatten, s)
  | .pair .. => match a.pair? with
    | some p => (drawRows ((List.range 128).map (s.aRow b p size sl)), s)
    | none => (.internal, s)
  | .fifo k => s.drawFifo core k o.bufA fun _ => 16384 * size
  | _ => (.internal, s)

/-- The bytes of a slice of A in its stream (R219). -/
def State.aLength (s : State) (b : Block) (size sl : Nat) (a : Span) : Nat :=
  match a.pair? with
  | some p => if p.pk then ((List.range 128).map fun i =>
      let m := fun x => chunkLen size (s.val (localAt b.core x) 8)
      m (p.row sl i) + m (p.row sl i + m (p.row sl i))).sum else 16384 * size
  | none => 16384 * size

/-- The bytes of slice `sl` of a streamed W: packed, as they lie in the stream. -/
def State.drawW (s : State) (core : Nat) (b : Block) (c : Ctx) (o : EngineOp) (size sl pos : Nat) (pk : Bool) (w : Span) : Draw × State :=
  match w with
  | .pair .. => match w.pair? with
    | some p =>
      (if pk then s.drawLocal core (s.gangLocal b) size 512 (p.base + pos)
       else .full ((List.range 128).flatMap fun i => s.pairRow core (p.at_ 1024) sl i (256 * size)), s)
    | none => (.internal, s)
  | .view obj base low high =>
    let rd : Nat → Nat → Draw := fun i n =>
      let off := base + pos + i
      if pk && !(decide (low ≤ off) && decide (off + n ≤ high)) then .outside []
      else s.engineRead core c o.id obj (readFuel n) off n
    (if pk then drawChunks rd size 512 1026 [] else rd 0 (32768 * size), s)
  | .fifo k => s.drawFifo core k o.bufW fun all => if pk then chunksNeed size all 512 0 else 32768 * size
  | _ => (.internal, s)

/-- Has an operand of the operation been written since its issue (R220, R372)? [DESIGN CHOICE: log 20, 59] -/
def State.opRaced (s : State) (o : EngineOp) : Bool := o.raced || s.racedOps.contains o.id

/-- The header of a region on which an MMA has ended: that of the next MMA on it, or none (R64, R218). -/
def State.nextHeader (s : State) (core : Nat) (o : EngineOp) : State :=
  let next := (s.core core).engine.find? fun q => q.isMma && q.block == o.block && q.region == o.region
  s.modRegion o.block (o.region.getD 0) fun r => match next with
    | some q => r.header q (match q.kind with
      | .mma _ _ _ n .. => n
      | _ => 0)
    | none => { r with stopped := false, progress := 0, slices := 0, owner := 0, insn := 0, aCursor := 0, wCursor := 0 }

/-- The bytes of an operand that came from a FIFO. -/
def EngineOp.kept (o : EngineOp) (a : Bool) (bs : List Byte) : List Byte :=
  match o.kind with
  | .mma _ _ _ _ _ x w => match if a then x else w with
    | .fifo _ => bs
    | _ => []
  | _ => []

/-- Do the rows of A hold chunks (R210, R217)? -/
def EngineOp.packedA (o : EngineOp) : Bool :=
  match o.kind with
  | .mma _ _ _ _ _ a _ => (a.pair?.map (·.pk)).getD false
  | _ => false

/-- Where the W of the operation begins in device memory, if it lies there. -/
def EngineOp.streamAt (o : EngineOp) : Option (Nat × Nat) :=
  match o.kind with
  | .mma _ _ _ _ _ _ (.view obj off _ _) => some (obj, off)
  | _ => none

/-- Adds a slice whose operands are there, and ends the MMA after the last (R218). The slice after it follows if it has been fetched; what
has been taken from FIFOs for it stays with the operation when the context is to be saved. -/
def State.addMma (s : State) (core : Nat) (o : EngineOp) (region aFmt wFmt n : Nat) (pk : Bool) (ok : Bool) (i : SliceIn) (w : List (List Nat)) (scales : List Word)
    (go : Bool) : State :=
  let r := s.regionAt o.block region
  let sl := r.progress
  let aRows := runsOf 128 128 (elems (actSize aFmt) (if o.packedA then expandChunks (actSize aFmt) 256 i.a else i.a))
  let wRows := if w.isEmpty then runsOf 256 128 (elems (wtSize wFmt) (if pk then expandChunks (wtSize wFmt) 512 i.w else i.w)) else w
  let s := if r.spoiled then s else s.setRows o.block region (addSlice r.i32 aFmt wFmt scales aRows wRows (s.regionRows r))
  let s := s.modRegion o.block region fun r =>
    { r with progress := sl + 1, aCursor := r.aCursor + i.aUsed, spoiled := r.spoiled || !ok || s.opRaced o
             wCursor := if w.isEmpty then (if sl = 0 then 1024 else r.wCursor) + i.wUsed else 0 }
  let o := { o with scales := if w.isEmpty then scales else [] }
  let s := s.setOp core (match o.next, go with
    | some j, false => { o with ready := none, next := none, looked := false, bufA := o.kept true j.a, bufW := o.kept false j.w }
    | j, _ => { o with ready := j, next := none, looked := false })
  let pos := (s.regionAt o.block region).wCursor
  let s := { s with fetched := s.fetched.filter fun x => x.id != o.id || o.streamAt.any fun p => x.obj == p.1 && decide (p.2 + pos ≤ x.off) }
  if sl + 1 < n then s
  else
    let s := if (s.regionAt o.block region).spoiled then s.freeRegion o.block region else s
    (s.endOp core o).nextHeader core o

/-- How a try to fetch a slice ends: its operands, or how far it came; with the operation and the state after it. -/
inductive SliceDraw where
  | full (i : SliceIn) (o : EngineOp) (s : State)
  /-- What stopped it; none while bytes are on their way. -/
  | short (d : Option Draw) (o : EngineOp) (s : State)
  deriving DecidableEq, Repr

/-- Fetches slice `sl` of an MMA, its W from byte `pos` of the stream on. What comes from FIFOs stays with the operation. -/
def State.drawSlice (s : State) (core : Nat) (b : Block) (c : Ctx) (o : EngineOp) (aFmt wFmt sl pos : Nat) (pk : Bool) (a w : Span) : SliceDraw :=
  let home := ((s.group? o.block o.group).map (·.home)).getD 0
  let size := actSize aFmt
  let fromFifo : Span → Bool := fun sp => match sp with
    | .fifo _ => true
    | _ => false
  match s.drawA core b home o size sl a with
  | (.full as, t) =>
    let o := if fromFifo a then { o with bufA := as } else o
    match w with
    | .latch _ => .full ⟨as, [], t.aLength b size sl a, 0⟩ { o with bufA := [] } t
    | _ => match t.drawW core b c o (wtSize wFmt) sl pos pk w with
      | (.full ws, u) => .full ⟨as, ws, u.aLength b size sl a, ws.length⟩ { o with bufA := [], bufW := [] } u
      | (.part t' ws, u) => if fromFifo w then .short none { o with bufW := ws } u else .short none o t'
      | (d, u) => .short (some d) o u
  | (.part t' as, t) => if fromFifo a then .short none { o with bufA := as } t else .short none o t'
  | (d, t) => .short (some d) o t

/-- Where slice `sl` of W begins in its stream; `next` says where the slice before it ended, if it is packed. -/
def wPlace (wFmt sl next : Nat) (pk : Bool) : Nat := if pk then (if sl = 0 then 1024 else next) else 1024 + 32768 * wtSize wFmt * sl

/-- What a failed or unfinished fetch of the slice that an MMA has come to comes to (R219). When the fetch of the slice after it finds a fault
too, that fault has its record alone (R351); whether it is found is open. [DESIGN CHOICE: log 34] -/
def State.mmaStops (s : State) (core : Nat) (c : Ctx) (o : EngineOp) (sl : Nat) (d : Option Draw) (after : State → SliceDraw) : State :=
  match d with
  | some (.absent token why obj off) =>
    let s := if Config.choose s.tick (2 ^ 53 + o.id) % 2 = 0 then s
      else match after s with
        | .short (some (.absent token why obj off)) _ _ => (s.noteFault core c token obj off fun t =>
            mkRecord 4 core o.group (0x10 + why) t obj off o.block.launch o.block.index 0xFFFF (sl + 1) o.pc).1
        | _ => s
    s.parkOp core o 0x10 sl token why obj off
  | some (.outside _) => (s.failOp core o Cause.viewbound sl).nextHeader core o
  | some .internal => s.faultCtxBare o.ctx reasonInternal
  | _ => s.setOp core o

/-- One part of the work of an MMA (R218, R351): the scale vector, the fetch of the slice it has come to, the fetch of the slice after it,
or the addition of a slice. [DESIGN CHOICE: log 20, 34] -/
def State.mmaSlice (s : State) (core : Nat) (b : Block) (c : Ctx) (o : EngineOp) (region aFmt wFmt n : Nat) (pk : Bool) (a w : Span) (go : Bool) : State :=
  let r := s.regionAt o.block region
  let sl := r.progress
  match o.ready with
  | some i => match w with
    | .latch slot =>
      let l := (s.core core).latches.getD slot {}
      s.addMma core o region aFmt wFmt n pk l.loaded i l.weights l.scales go
    | _ =>
      if o.looked ∨ n ≤ sl + 1 ∨ o.park.isSome ∨ go = false then s.addMma core o region aFmt wFmt n pk true i [] o.scales go
      else
        let pos := wPlace wFmt (sl + 1) ((if sl = 0 then 1024 else r.wCursor) + i.wUsed) pk
        match s.drawSlice core b c o aFmt wFmt (sl + 1) pos pk a w with
        | .full j p t => t.setOp core { p with looked := true, next := some j }
        | .short (some (.absent token why obj off)) p t => t.parkOp core { p with looked := true } 0x10 (sl + 1) token why obj off
        | .short (some .internal) _ _ => s.faultCtxBare o.ctx reasonInternal
        | .short none p t => t.setOp core { p with looked := Config.choose s.tick (2 ^ 53 + o.id) % 2 == 0 }
        | .short _ p t => t.setOp core { p with looked := true }
  | none =>
    let streamed : Bool := match w with
      | .latch _ => false
      | _ => true
    if streamed && o.scales.isEmpty then
      match s.drawScales core b c o w with
      | (.full bs, t) =>
        let t := t.modCore core fun k => { k with latches := k.latches.map fun l : Latch => { l with loaded := false } }
        t.setOp core { o with scales := (elems 4 bs).map (BitVec.ofNat 32), bufW := [] }
      | (.part t bs, u) => match w with
        | .fifo _ => u.setOp core { o with bufW := bs }
        | _ => t
      | (d, t) => t.mmaStops core c o sl (some d) fun t => .short none o t
    else
      match s.drawSlice core b c o aFmt wFmt sl (wPlace wFmt sl r.wCursor pk) pk a w with
      | .full i p t => t.setOp core { p with ready := some i }
      | .short d p t => t.mmaStops core c p sl d fun t =>
          if streamed && !pk && decide (sl + 1 < n) then t.drawSlice core b c p aFmt wFmt (sl + 1) (wPlace wFmt (sl + 1) 0 pk) pk a w else .short none p t

/-- Does an operation wait for bytes or for room of a FIFO: a wait that can last for ever (R239)? -/
def Core.starved (c : Core) (o : EngineOp) : Bool :=
  match o.kind with
  | .mma _ _ _ _ _ a w => o.ready.isNone && [a, w].any fun sp => match sp with
    | .fifo k => (c.fifo k).bytes.isEmpty
    | _ => false
  | .accdr _ _ fmt _ pk _ _ _ (.fifo k) _ => decide (fifoBytes < (c.fifo k).bytes.length + mintPitch fmt pk)
  | _ => false

/-- Must the engine go on for a block that is to be saved: an ACCLD or an ACCRD of it waits behind operations that can run (R61, R248)? [DESIGN CHOICE: log 38] -/
def Core.mustRun (c : Core) (b : BlockKey) : Bool :=
  let whole : EngineOp → Bool := fun o => match o.kind with
    | .accld .. | .accrd .. => true
    | _ => false
  (c.engine.takeWhile fun o => o.park.isNone && !c.starved o).any fun o => o.block == b && whole o

/-- MMA_SLICE (R218, R219): the engine fetches or adds a slice of the MMA at the head of its queue. A slice that is being added when its
context is to be saved is still added (R248). -/
def execMmaSlice (core : Nat) (s : State) : Host.Outcome State Fault Refusal :=
  match s.discardOp core with
  | some o => conclude (s.dropOp core o.id)
  | none => match (s.core core).nextOp (·.isMma) with
    | none => conclude s
    | some o => match o.kind, s.block? o.block, s.ctx? o.ctx with
      | .mma region aFmt wFmt n pk a w, some b, some c =>
        let go : Bool := c.runs || ((s.core core).engine.any fun q => (s.core core).mustRun q.block)
        if b.frozen || (!go && o.ready.isNone) || decide (0 < (s.core core).idleSlices) then conclude s else conclude (s.mmaSlice core b c o region aFmt wFmt n pk a w go)
      | _, _, _ => conclude s

/-! ### The other operations -/

/-- Performs WLOAD (R215). A failing one leaves alone the ownership that a newer WLOAD of the slot has taken at its issue (R216). -/
def State.doWload (s : State) (core : Nat) (b : Block) (o : EngineOp) (fmt slot : Nat) (lo hi : Word) : State :=
  match pairOf (lo.toNat + 2 ^ 32 * hi.toNat) with
  | none => s.endOp core o
  | some p =>
    let clear : Region → Region := fun r => r.setLatch slot (r.latch slot &&& ~~~(1#64 <<< 63))
    match if b.ownsLocal p.base 1024 then s.imageRows b fmt p 0 else .outside [] with
    | .full bs =>
      let raw := if p.pk then expandChunks (wtSize fmt) 512 bs else bs
      let mine := ((s.core core).latches.getD slot {}).owner
      let scales := s.imageScales core p
      let l : Latch := { owner := mine, fmt, loaded := !(s.opRaced o || o.seen.any (· != scales ++ bs)), image := scales ++ bs
                         scales := (elems 4 scales).map (BitVec.ofNat 32), weights := runsOf 256 128 (elems (wtSize fmt) raw) }
      (s.setLatch core slot l).endOp core o
    | .outside bs =>
      let newer := (s.core core).engine.any fun q => decide (o.id < q.id) && (match q.kind with
        | .wload _ k .. => k == slot
        | _ => false)
      let s := if newer then s else s.modRegion o.block 0 clear
      let s := s.modCore core fun c => { c with latches := c.latches.modify slot fun l => { l with loaded := false, owner := if l.owner = some o.block ∧ !newer then none else l.owner } }
      s.failOp core o Cause.viewbound (chunksWhole (wtSize fmt) bs 512 0)
    | _ => s

/-- Performs ACCLD (R223). -/
def State.doAccld (s : State) (core : Nat) (c : Ctx) (o : EngineOp) (a : Nat) (src : Span) : State :=
  let load : List Byte → State := fun bs =>
    let t := s.setRows o.block a (runsOf 256 128 ((elems 4 bs).map (BitVec.ofNat 32)))
    let t := if s.opRaced o then t.freeRegion o.block a else t.modRegion o.block a fun r => { r with spoiled := false }
    (t.spoil core o a).endOp core o
  match src with
  | .view obj off _ _ => match s.engineRead core c o.id obj (readFuel 131072) off 131072 with
    | .full bs => load bs
    | .part t _ => t
    | .absent token why obj off => s.parkOp core o 0x10 0 token why obj off
    | .outside _ => s
    | .internal => s.faultCtxBare o.ctx reasonInternal
  | sp => match sp.pair? with
    | some p => load ((List.range 128).flatMap fun i => s.pairRow core p 0 i 1024)
    | none => s.endOp core o

/-- Performs an operation on the rows of a region. -/
def State.doRows (s : State) (core : Nat) (o : EngineOp) (a : Nat) (regs : List (Option Nat)) (vals : List Word) (rows : Option (List (List Word))) : State :=
  let s := match rows with
    | some r => s.setRows o.block a r
    | none => s
  ((s.putLanes o regs vals).spoil core o a).endOp core o

/-- The rows of a region with their numbers. -/
def State.numbered (s : State) (b : BlockKey) (a : Nat) : List (Nat × List Word) := (List.range 128).zip (s.regionRows (s.regionAt b a))

/-- ROWEXP of one row. -/
def expRow (mask i : Nat) (m c d : Word) (row : List Word) : List Nat :=
  (List.range row.length).map fun j => if rowMasked mask i j d then 0 else expElem (row.getD j 0) m c

/-- ENGINE_OPERATION_DONE (R213, R215, R221 to R228): the engine performs the next operation that is not an MMA, a read of
the region into registers, or a drain. -/
def execEngineOperationDone (core : Nat) (s : State) : Host.Outcome State Fault Refusal :=
  match s.discardOp core with
  | some o => conclude (s.dropOp core o.id)
  | none =>
    let mine : EngineOp → Bool := fun o => match o.kind with
      | .mma .. | .accrd .. | .accdr .. => false
      | _ => true
    match (s.core core).nextOp mine with
    | none => conclude s
    | some o => match s.block? o.block, s.ctx? o.ctx with
      | some b, some c =>
        let at_ : Nat → List Word → Word := fun i l => l.getD i 0
        match o.kind with
        | .wload fmt slot lo hi => conclude (s.doWload core b o fmt slot lo hi)
        | .accz a =>
          let s := s.modRegion o.block a fun r => { r with data := [], spoiled := false }
          conclude ((s.spoil core o a).endOp core o)
        | .accwr a m k rows =>
          let new := ((s.regionRows (s.regionAt o.block a)).zip rows).map fun (row, v) => row.take k ++ v ++ row.drop (k + m)
          conclude (s.doRows core o a [] [] (some new))
        | .accld a src => conclude (s.doAccld core c o a src)
        | .rowmax a mask run d old regs =>
          let vals := (s.numbered o.block a).map fun (i, row) =>
            let m := rowLargest mask i (at_ i d) row
            BitVec.ofNat 32 (if run then (fp32.pick true (at_ i old).toNat m).1 else m)
          conclude (s.doRows core o a regs vals none)
        | .rowexp a mask m k d regs =>
          let new := (s.numbered o.block a).map fun (i, row) => expRow mask i (at_ i m) (at_ i k) (at_ i d) row
          conclude (s.doRows core o a regs (new.map rowSum) (some (new.map fun r => r.map (BitVec.ofNat 32))))
        | .rowsc a form f g k regs =>
          let fs := (List.range 128).map fun i => if form = 2 then xfFactor (at_ i f) (at_ i g) (at_ i k) else at_ i f
          let new := (s.numbered o.block a).map fun (i, row) => row.map fun x => scaleElem form x (at_ i fs)
          conclude (s.doRows core o a regs fs (some new))
        | _ => conclude s
      | _, _ => conclude s

/-- ACCRD delivers its values (R222): the part of FILL_ARRIVAL that the engine plays. -/
def State.deliverAccrd (s : State) (core : Nat) : State :=
  let mine : EngineOp → Bool := fun o => match o.kind with
    | .accrd .. => true
    | _ => false
  match (s.core core).nextOp mine with
  | none => s
  | some o => match o.kind with
    | .accrd a v m k =>
      let rows := s.regionRows (s.regionAt o.block a)
      let home := ((s.group? o.block o.group).map (·.home)).getD 0
      let t := o.lanes.foldl (fun t l => t.fillRun home v l.lane o.id (((rows.getD l.lane []).drop k).take m)) (s.noteRegs home ((List.range m).map (v + ·)))
      (t.spoil core o a).endOp core o
    | _ => s

/-! ### ACCDR (R224) -/

/-- Stores of a drain that are not performed. -/
def Core.drainBusy (c : Core) (id : Nat) : Bool := c.outstanding.any fun a => a.opc == 0xA1 && a.args == [id]

/-- The drains whose last store has been performed complete. -/
def State.settleDrains (s : State) (core : Nat) : State :=
  let done := (s.core core).drains.filter fun d => !(s.core core).drainBusy d.id
  let s := s.modCore core fun c => { c with drains := c.drains.filter fun d => c.drainBusy d.id }
  done.foldl (fun s d => (s.putScales d).complete d.lanes d.flag) s

/-- A 16-byte store of a drain. -/
def EngineOp.piece (o : EngineOp) (id obj off : Nat) (bs : List Byte) : Access :=
  { id, inst := o.id, tid := ⟨o.block, o.group, 0⟩, opc := 0xA1, mod := 6, obj, off, handle := o.handle, bytes := bs.length
    data := BitVec.ofNat 128 (ofLE bs), pc := o.pc, atBlk := true, part := some (o.insn.extractLsb' 80 16, o.flag), args := [o.id] }

/-- How the row of a `.dmem` drain goes. -/
inductive DrainRow where
  | ok (s : State)
  | park (token : Bool) (why off : Nat)
  | internal
  deriving DecidableEq, Repr

/-- What a piece of a row meets: an earlier side-logged access of its bytes (R187), or its home. -/
def State.pieceHome (s : State) (core : Nat) (c : Ctx) (o : EngineOp) (obj off : Nat) (p : List Byte) : Home :=
  match s.sideBefore core o.id obj off p.length with
  | some (token, a) => .absent token (s.whyAt c obj a) a
  | none => s.homeWrite c obj off p.length fun _ => some p

/-- Writes the 16-byte pieces of a row: performed, side-logged under an absent page, or sent to a peer. -/
def State.drainPieces (s : State) (core : Nat) (c : Ctx) (o : EngineOp) (obj : Nat) : Nat → List (List Byte) → State
  | _, [] => s
  | off, p :: ps =>
    let t := match s.pieceHome core c o obj off p with
      | .ok t _ _ => (t.rawWrite core c.num false obj off p.length).updateLines core c.num obj off p
      | .absent token why _ =>
        let (t, k) := s.noteFault core c token obj off fun w =>
          mkRecord 2 core o.group (0x90 + why) w obj off o.block.launch o.block.index 0xFFFF 0 o.pc
        let e : Entry := { kind := 1, key := k, acc := o.piece t.nextId obj off p, op := o.id }
        (t.modCore core fun x => { x with side := x.side ++ [e] }).fresh 1
      | .peer _ => (s.modCore core fun x => { x with accs := x.accs ++ [o.piece s.nextId obj off p] }).fresh 1
      | .lost => s.memueRecord obj off ⟨o.block, o.group, 0⟩ o.pc
      | .bad => s.faultCtxBare o.ctx reasonInternal
    t.drainPieces core c o obj (off + p.length) ps

/-- Is there room in the side log for the pieces of a row that cannot be performed now? -/
def State.drainRoom (s : State) (core : Nat) (c : Ctx) (o : EngineOp) (obj off n : Nat) : Option (Bool × Nat × Nat) :=
  let bad := (List.range ((n + 15) / 16)).filterMap fun i => match s.pieceHome core c o obj (off + 16 * i) [0] with
    | .absent token why _ => some (token, why, off + 16 * i)
    | _ => none
  if (s.core core).side.length + bad.length ≤ sideLogSize then none else bad.head?

/-- Gives out one row, or parks; a FIFO that is full makes the drain wait. -/
def State.drainRow (s : State) (core : Nat) (c : Ctx) (o : EngineOp) (fmt : Nat) (pk : Bool) (dst : Span) (i : Nat) (bs : List Byte) : Option (Except State State) :=
  match dst with
  | .fifo k => if fifoBytes < ((s.core core).fifo k).bytes.length + bs.length then none else some (.ok (s.fifoPush core k bs))
  | .view obj base _ _ =>
    let off := base + mintPitch fmt pk * i
    if s.owed core o.id false obj off bs.length || s.vaultOff c obj then none
    else match s.drainRoom core c o obj off bs.length with
    | some (token, why, at_) => some (.error (s.parkOp core o 0x90 i token why obj at_))
    | none => some (.ok (s.drainPieces core c o obj off (runsOf 16 bs.length bs)))
  | sp => match sp.pair? with
    | some p => some (.ok ((s.rawWrite core 0 true 0 (p.row 0 i) bs.length).engineStores core (p.row 0 i) bs))
    | none => none

/-- The bytes of a row of a drain as given out: free ones when a uniform that it names was written (R372). [DESIGN CHOICE: log 59] -/
def EngineOp.rowOut (o : EngineOp) (tick : Nat) (bs : List Byte) : List Byte :=
  if o.raced then (List.range bs.length).map fun i => (Config.freeWord tick i).setWidth 8 else bs

/-- ACCDR_ROW (R224): the Mint drains the next row. -/
def execAccdrRow (core : Nat) (s : State) : Host.Outcome State Fault Refusal :=
  match s.discardOp core with
  | some o => conclude (s.dropOp core o.id)
  | none =>
    let mine : EngineOp → Bool := fun o => match o.kind with
      | .accdr .. => true
      | _ => false
    match (s.core core).nextOp mine with
    | none => conclude s
    | some o => match o.kind, s.ctx? o.ctx with
      | .accdr i32 a fmt mode pk auto scales regs dst i, some c =>
        let go : Bool := c.runs || ((s.core core).engine.any fun q => (s.core core).mustRun q.block)
        if go = false ∨ ((s.block? o.block).map (·.frozen)).getD false then conclude s
        else
          let xs := ((s.regionRows (s.regionAt o.block a)).getD i []).map (regionFl i32)
          let q := if !auto then scales.getD i 0 else if o.raced then Config.freeWord s.tick i else autoScale fmt xs
          match s.drainRow core c o fmt pk dst i (o.rowOut s.tick (mintRow fmt mode pk xs q)) with
          | none => conclude s
          | some (.error t) => conclude t
          | some (.ok t) =>
            let t := t.spoil core o a
            let o := { o with kind := .accdr i32 a fmt mode pk auto (if auto then scales.take i ++ [q] else scales) regs dst (i + 1) }
            if i < 127 then conclude (t.setOp core o)
            else if (t.core core).drainBusy o.id then
              conclude ((t.dropOp core o.id).modCore core fun k => { k with drains := k.drains ++ [o] })
            else conclude (t.endOp core o)
      | _, _ => conclude s

end Sys2Proof.Machine
end

