-- ==== Sys2Proof/Machine/Placement.lean ====
section
/-! DEFINITION. The tensor descriptor (R324, R325), location levels (R326), the factoring of a change into passes (R327 to
R329), and where the elements of a tensor lie while its passes run (R330 to R332, R334). -/

namespace Sys2Proof.Machine

/-! ### Bit matrices: row i gives the bits whose XOR forms bit i -/

/-- Parity of the low 64 bits. -/
def parity (v : Nat) : Nat := ones 64 v % 2
/-- Matrix times vector. -/
def gfApply (m : List Nat) (v : Nat) : Nat :=
  (List.range m.length).foldl (fun a i => a + parity (m.getD i 0 &&& v) * 2 ^ i) 0
/-- XOR of the rows that the bits of `r` name. -/
def gfRow (b : List Nat) (r : Nat) : Nat := (List.range b.length).foldl (fun a i => if r.testBit i then a ^^^ b.getD i 0 else a) 0
/-- The product a·b. -/
def gfMul (a b : List Nat) : List Nat := a.map (gfRow b)
def gfId (n : Nat) : List Nat := (List.range n).map (2 ^ ·)

/-- One column of the elimination of `m` beside the unit matrix. -/
def gfPivot (n : Nat) (rows : Option (List Nat)) (c : Nat) : Option (List Nat) :=
  rows.bind fun rows =>
    match (List.range n).find? fun r => decide (c ≤ r) && (rows.getD r 0).testBit c with
    | none => none
    | some p =>
      let a := rows.getD p 0
      let swapped := (rows.set p (rows.getD c 0)).set c a
      some ((List.range n).map fun r => let x := swapped.getD r 0
                                        if r ≠ c ∧ x.testBit c then x ^^^ a else x)

/-- The inverse over GF(2); none for a singular matrix. -/
def gfInv (n : Nat) (m : List Nat) : Option (List Nat) :=
  ((List.range n).foldl (gfPivot n) (some ((List.range n).map fun i => m.getD i 0 % 2 ^ n + 2 ^ (n + i)))).map fun rows => rows.map (· / 2 ^ n)

/-- Lowest set bit. -/
def lowBit (n v : Nat) : Nat := ((List.range n).find? v.testBit).getD 0
/-- A row with bit `j` XORed with its bit `c`. -/
def xorBit (j c r : Nat) : Nat := if r.testBit c then r ^^^ 2 ^ j else r

/-- One row of the procedure of R327. -/
def factorRow (n : Nat) (st : List Nat × List Nat × List Nat) (i : Nat) : List Nat × List Nat × List Nat :=
  let c := lowBit n (st.1.getD i 0)
  let st := ((List.range n).filter fun j => decide (c < j)).foldl (fun (st : List Nat × List Nat × List Nat) j =>
    let (a, v, w) := st
    if (a.getD i 0).testBit j then (a.map (xorBit j c), v, w.set c (w.getD c 0 ^^^ w.getD j 0)) else st) st
  (List.range i).foldl (fun (st : List Nat × List Nat × List Nat) r =>
    let (a, v, w) := st
    if (a.getD r 0).testBit c then (a.set r (a.getD r 0 ^^^ a.getD i 0), v.map (xorBit i r), w) else st) st

/-- The canonical factoring T = V · Π · W (R327): V, src and W. -/
def gfFactor (n : Nat) (t : List Nat) : List Nat × List Nat × List Nat :=
  let (a, v, w) := (List.range n).reverse.foldl (factorRow n) (t.take n, gfId n, gfId n)
  (v, a.map (lowBit n), w)

/-! ### The descriptor (R324) -/

structure Desc where
  fmt    : Nat
  rank   : Nat
  res    : Nat
  n      : Nat
  k      : List Nat
  ext    : List Nat
  widths : List Nat
  fill   : Nat
  base   : Nat
  alt    : Nat
  mat    : Nat
  plan   : Nat
  grp    : Nat
  cursor : Nat
  deriving DecidableEq, Repr

def descOf (bs : List Byte) : Desc :=
  ⟨field bs 0 1, field bs 1 1, field bs 2 1, field bs 3 1, (List.range 6).map fun i => field bs (4 + i) 1,
   (List.range 6).map fun i => field bs (0x0C + 4 * i) 4, (List.range 8).map fun i => field bs (0x24 + i) 1, field bs 0x2C 4,
   field bs 0x30 8, field bs 0x38 8, field bs 0x40 4, field bs 0x44 4, field bs 0x48 2, field bs 0x50 16⟩

/-- Bytes of an element. -/
def Desc.size (d : Desc) : Nat := if d.fmt < 3 then 1 else if d.fmt < 6 then 2 else 4
def Desc.width (d : Desc) (l : Nat) : Nat := d.widths.getD l 0
/-- No tensor, or one whose PLACE failed (R232, R333). -/
def Desc.bad (d : Desc) (strict : Bool) : Bool := d.rank == 0 || (strict && d.cursor % 4 == 3)

/-- ceil(log2 v). -/
def log2Up (v : Nat) : Nat := if v ≤ 1 then 0 else Nat.log2 (v - 1) + 1

/-- Members of a multicast group, ascending. -/
def State.membersOf (s : State) (g : Nat) : List Nat :=
  let bs := (s.groupEntry g).take 64
  (List.range 512).filter fun d => (field bs (d / 8) 1).testBit (d % 8)

/-- Widths allowed at each level for a residence and log2 of the element size (R326). -/
def levelLimit (res lg l : Nat) : Nat :=
  if res = 0 then [2 - lg, 6, 7, 3, 0, 0, 0, 0].getD l 0
  else if res = 1 then [0, 0, 0, 0, 21 - lg, 2, 0, 0].getD l 0
  else [0, 0, 0, 0, 0, 0, 40 - lg, 9].getD l 0

/-- The checks of TDSET on an image (R325). [DEDUCED: log 30] -/
def State.descOk (s : State) (b : Block) (bs : List Byte) : Bool :=
  let d := descOf bs
  let sz := d.size
  let lg := Nat.log2 sz
  let members := s.membersOf d.grp
  decide (d.fmt ≤ 7) && decide (1 ≤ d.rank) && decide (d.rank ≤ 6) && decide (d.res ≤ 2) && decide (d.n ≤ 48)
    && field bs 0x0A 2 == 0 && field bs 0x4A 6 == 0 && allZero (bs.drop 0x60) && decide (d.fill < 2 ^ (8 * sz))
    && ((List.range 6).all fun j =>
      let e := d.ext.getD j 0
      if j < d.rank then decide (1 ≤ e) && d.k.getD j 0 == log2Up e else e == 0 && d.k.getD j 0 == 0)
    && d.n == d.k.sum && d.n == d.widths.sum && ((List.range 8).all fun l => decide (d.width l ≤ levelLimit d.res lg l))
    && d.cursor % 4 == 0 && d.mat % 8 == 0 && d.plan % 16 == 0
    && (if d.res = 0 then decide (d.base + 2 ^ d.width 1 - 1 ≤ 255) && decide (2 ^ d.width 3 ≤ b.groups) && decide (d.alt < 2 ^ 23)
        else if d.res = 1 then decide (d.base < 2 ^ 23) && decide (d.alt < 2 ^ 23) && decide (d.base % 2 ^ 21 + sz * 2 ^ d.width 4 ≤ 2 ^ 21)
        else true)
    && (if d.res = 2 ∧ 0 < d.width 7 then decide (d.grp < 4096) && members.length == 2 ^ d.width 7 && members.contains s.device else d.grp == 0)
    && b.ownsLocal d.mat 384 && b.ownsLocal d.plan 0x390

/-- The rows of a matrix in local memory. [DESIGN CHOICE: log 60] -/
def State.matrix (s : State) (core a n : Nat) : List Nat := (List.range n).map fun i => s.val (localAt core (a + 8 * i)) 8
/-- Are the rows from `n` on, and the bits from `n` on, 0? -/
def State.matrixTidy (s : State) (core a n : Nat) : Bool :=
  (List.range 48).all fun i =>
    let r := s.val (localAt core (a + 8 * i)) 8
    if i < n then decide (r < 2 ^ n) else r == 0

/-- Is the element of an index a ghost (R231)? -/
def ghostFrom (i : Nat) : List Nat → List Nat → Bool
  | k :: ks, e :: es => decide (e ≤ i % 2 ^ k) || ghostFrom (i / 2 ^ k) ks es
  | _, _ => false
def Desc.ghost (d : Desc) (i : Nat) : Bool := ghostFrom i (d.k.take d.rank) d.ext

/-! ### Places of elements (R326) -/

/-- Where an element lies. -/
inductive ElemAt where
  | reg (home reg lane shift : Nat)
  | loc (addr : Nat)
  | mem (obj off handle : Nat)
  /-- Its register has been written again, and its own is still to be written: a value that the stage under way has read (R330). -/
  | held (v : Nat)
  /-- On another member of the device set that has told where its span lies: member, device, object and offset. -/
  | far (member dev obj off : Nat)
  /-- On another member of the device set. -/
  | other (member off : Nat)
  | bad (c : BitVec 6) (info : Int)
  deriving DecidableEq, Repr

/-- The values of the levels' bits. -/
def splitLoc : List Nat → Nat → List Nat
  | [], _ => []
  | w :: ws, v => v % 2 ^ w :: splitLoc ws (v / 2 ^ w)

/-- The place of a location vector in the span at `base`; with `own` it must lie in the block's own local memory, as an alternate span must
(R325). [DEDUCED: log 28; DESIGN CHOICE: log 60] -/
def State.elemAt (s : State) (b : Block) (c : Ctx) (d : Desc) (base : Nat) (own : Bool) (need : BitVec 4) (loc : Nat) : ElemAt :=
  let p := splitLoc d.widths loc
  let at_ : Nat → Nat := fun l => p.getD l 0
  let sz := d.size
  if d.res = 0 then
    let r := base % 256 + at_ 1
    match s.group? b.key (at_ 3) with
    | some g => if g.alloc ≤ r then .bad Cause.regbound (r : Nat) else .reg g.home r (at_ 2) (8 * sz * at_ 0)
    | none => .bad Cause.regbound (r : Nat)
  else if d.res = 1 then
    let core := if d.width 5 = 0 then bits base 22 21 else at_ 5
    let a := 0x200000 * core + base % 2 ^ 21 + sz * at_ 4
    if (if own then b.ownsLocal a sz else s.gangLocal b a sz) then .loc a else .bad Cause.viewbound (a : Nat)
  else
    let p := BitVec.ofNat 64 base
    let off := ptrOffset p + sz * at_ 6
    let me := (findIdx? (· == s.device) (s.membersOf d.grp)).getD 0
    if d.width 7 ≠ 0 ∧ at_ 7 ≠ me then .other (at_ 7) (sz * at_ 6)
    else
      let v := (s.cachedView b.core c.num (ptrIndex p)).getD (s.copyFor b.core ((s.viewEntry c (ptrIndex p)).cached c.num (ptrIndex p)))
      match checkView v p (sz * at_ 6 : Nat) sz sz need with
      | .ok o => .mem v.obj o (ptrIndex p)
      | .error e => .bad e (off : Nat)

/-! ### The pass list (R328) -/

/-- One pass: its byte in the pass list, its level, and its map of location bits. -/
structure Pass where
  code  : Nat
  level : Nat
  map   : List Nat
  deriving DecidableEq, Repr

/-- The copy pass moves nothing within a vector (R334). -/
def Pass.copy (p : Pass) : Bool := p.code.testBit 4
/-- A pass that reads one span and writes the other (R331). -/
def Pass.out (p : Pass) : Bool := !p.copy && decide (4 ≤ p.level)

/-- Level of each location bit. -/
def Desc.levels (d : Desc) : List Nat := (List.range 8).flatMap fun l => List.replicate (d.width l) l

/-- Adds a pass to a list whose last element stands first; passes next to one another at one level run as one. -/
def pushPass (out : List Pass) (p : Pass) : List Pass :=
  match out with
  | q :: rest => if q.level = p.level then { code := q.code ||| p.code, level := q.level, map := gfMul p.map q.map } :: rest else p :: out
  | [] => [p]

/-- The passes of W or of V. -/
def linearPasses (code n : Nat) (rows lvl : List Nat) (out : List Pass) : List Pass :=
  (List.range 8).foldl (fun out l =>
    if (List.range n).any fun i => lvl.getD i 8 == l && rows.getD i 0 != 2 ^ i then
      pushPass out ⟨code + l, l, (List.range n).map fun i => if lvl.getD i 8 = l then rows.getD i 0 else 2 ^ i⟩
    else out) out

/-- One level of Π: the new arrangement of final positions. -/
def permLevel (n l : Nat) (lvl occ : List Nat) : List Nat :=
  let q := (List.range n).filter fun p => decide (lvl.getD p 8 ≤ l)
  let stay := q.filter fun p => q.contains (occ.getD p 0)
  let free := q.filter fun p => !(stay.any fun r => occ.getD r 0 == p)
  let above := sortBy id ((q.filter fun p => !q.contains (occ.getD p 0)).map fun p => occ.getD p 0)
  (List.range n).map fun p =>
    if !q.contains p then occ.getD p 0
    else if stay.any fun r => occ.getD r 0 == p then p
    else match findIdx? (· == p) free with
      | some i => above.getD i 0
      | none => p

/-- The passes of Π. -/
def permPasses (n : Nat) (src lvl : List Nat) (out : List Pass) : List Pass :=
  let occ0 := (List.range n).map fun q => (findIdx? (· == q) src).getD 0
  ((List.range 8).foldl (fun (st : List Pass × List Nat) l =>
    let (out, occ) := st
    let new := permLevel n l lvl occ
    if !lvl.contains l ∨ new = occ then st
    else (pushPass out ⟨0x40 + l, l, new.map fun f => 2 ^ (findIdx? (· == f) occ).getD 0⟩, new)) (out, occ0)).1

/-- The pass list without its copy pass. -/
def formPasses (n : Nat) (v src w lvl : List Nat) : List Pass :=
  (linearPasses 0x80 n v lvl (permPasses n src lvl (linearPasses 0x20 n w lvl []))).reverse

/-- Which descriptor the passes run on, and whether the copy pass comes first (some false), last (some true) or not at all
(R334). -/
def copyPlace (same : Bool) (dS dD : Desc) : Option Bool := if same then none else some (decide (dS.res < dD.res))

/-- Puts the copy pass where it belongs. -/
def withCopy (n : Nat) (copy : Option Bool) (ps : List Pass) : List Pass :=
  match copy with
  | none => ps
  | some true => ps ++ [⟨0x10, 0, gfId n⟩]
  | some false => ⟨0x10, 0, gfId n⟩ :: ps

/-- Bytes 0x010 to 0x38F of a plan (R329). -/
def planBody (n : Nat) (v src w : List Nat) (ps : List Pass) : List Byte :=
  let rows : List Nat → List Byte := fun m => (List.range 48).flatMap fun i => toLE 8 (if i < n then m.getD i 0 else 0)
  rows w ++ ((List.range 64).flatMap fun i => toLE 1 (if i < n then src.getD i 0 else 0)) ++ rows v
    ++ ((List.range 64).flatMap fun i => toLE 1 ((ps.map (·.code)).getD i 0))

/-- The plan image (R329). [DEDUCED: log 29] -/
def planImage (n : Nat) (v src w : List Nat) (ps : List Pass) : List Byte :=
  let body := planBody n v src w ps
  toLE 4 0x4E4C505A ++ toLE 1 n ++ toLE 1 ps.length ++ toLE 2 0 ++ toLE 4 (crc32c body) ++ toLE 4 0 ++ body

/-- Is a matrix n × n and unit upper triangular? -/
def upperUnit (n : Nat) (m : List Nat) : Bool :=
  (List.range n).all fun i => (m.getD i 0).testBit i && m.getD i 0 % 2 ^ i == 0 && decide (m.getD i 0 < 2 ^ n)
/-- The permutation matrix of src. -/
def permMatrix (src : List Nat) : List Nat := src.map (2 ^ ·)

/-! ### A PLACE in progress -/

def PlaceOp.n (o : PlaceOp) : Nat := (descOf o.dS).n
def PlaceOp.same (o : PlaceOp) : Bool := o.tD == o.tS
def PlaceOp.copyAt (o : PlaceOp) : Option Bool := copyPlace o.same (descOf o.dS) (descOf o.dD)
/-- The descriptor the passes run on. -/
def PlaceOp.run (o : PlaceOp) : Desc := if o.copyAt = some true then descOf o.dS else descOf o.dD
def PlaceOp.passes (o : PlaceOp) : List Pass := withCopy o.n o.copyAt (formPasses o.n o.v o.src o.w o.run.levels)

/-- The stages of a lane-level pass of Π whose transpositions each pair a lane bit with a lower bit (R337), ascending by lane
bit: the two location bits; none where the pass is of another kind. [DEDUCED: log 32] -/
def laneStages (d : Desc) (p : Pass) (n : Nat) : Option (List (Nat × Nat)) :=
  let lo := d.width 0 + d.width 1
  let hi := lo + d.width 2
  let moved := (List.range n).filter fun i => p.map.getD i 0 != 2 ^ i
  let partner : Nat → Nat := fun i => lowBit n (p.map.getD i 0)
  if p.code = 0x42 ∧ moved.all (fun i => p.map.getD (partner i) 0 == 2 ^ i && p.map.getD i 0 == 2 ^ partner i) then
    let pairs := (moved.filter fun i => decide (lo ≤ i) && decide (i < hi) && decide (partner i < lo)).map fun i => (i, partner i)
    if 2 * pairs.length = moved.length ∧ pairs ≠ [] then some pairs else none
  else none

/-- The exchange of two location bits. -/
def swapMap (n p q : Nat) : List Nat := (List.range n).map fun i => 2 ^ (if i = p then q else if i = q then p else i)

/-! A lane-level pass of another kind is routed in at most 2·L − 1 stages (R330): one goes up the lane bits and one comes down, since a
matrix over GF(2) is the product of an upper, a lower and an upper unit triangular one. -/

/-- One column of the elimination that finds, for each row, a later row that must be added to it so that its pivot is there. -/
def pivotRow (n : Nat) (st : List Nat × List (Option Nat)) (k : Nat) : List Nat × List (Option Nat) :=
  let j := if (st.1.getD k 0).testBit k then none else (List.range n).find? fun j => decide (k < j) && (st.1.getD j 0).testBit k
  let a := match j with
    | some j => st.1.set k (st.1.getD k 0 ^^^ st.1.getD j 0)
    | none => st.1
  ((List.range n).map fun r => if k < r ∧ (a.getD r 0).testBit k then a.getD r 0 ^^^ a.getD k 0 else a.getD r 0, st.2 ++ [j])

/-- One column of the elimination below the diagonal. -/
def lowerRow (n : Nat) (a : List Nat) (k : Nat) : List Nat :=
  (List.range n).map fun r => if k < r ∧ (a.getD r 0).testBit k then a.getD r 0 ^^^ a.getD k 0 else a.getD r 0

/-- The rows that are replaced one after another to make a change: their numbers, and the bits of the rows, as they stand then, whose XOR
each becomes. -/
def rowOps (n : Nat) (m : List Nat) : List (Nat × Nat) :=
  let more := ((List.range n).foldl (pivotRow n) (m, [])).2
  let partner : Nat → Option Nat := fun k => more.getD k none
  let fixed := (List.range n).map fun k => m.getD k 0 ^^^ ((partner k).map fun j => m.getD j 0).getD 0
  let low := (List.range n).foldl (lowerRow n) ((List.range n).map fun k => fixed.getD k 0 % 2 ^ n + 2 ^ (n + k))
  let up := (List.range n).map fun k => (k, low.getD k 0 % 2 ^ n ^^^ low.getD k 0 / 2 ^ n ^^^ 2 ^ k)
  let down := (List.range n).reverse.filterMap fun k => (partner k).map fun j => (k, 2 ^ k ^^^ 2 ^ j)
  (up ++ down).filter fun o => o.2 != 2 ^ o.1

/-- Joins row replacements into stages that each change one lane bit; bits below the lane bits are in-lane moves. -/
def laneSweep (n lo : Nat) (m : List Nat) : List (List Nat) :=
  let go : List (List Nat) × List Nat × Option Nat → Nat × Nat → List (List Nat) × List Nat × Option Nat := fun (out, cur, bit) (k, row) =>
    if lo ≤ k ∧ bit.isSome ∧ bit ≠ some k then (out ++ [cur], (gfId n).set k row, some k)
    else (out, gfMul ((gfId n).set k row) cur, if lo ≤ k then some k else bit)
  let (out, cur, _) := (rowOps n m).foldl go ([], gfId n, none)
  out ++ [cur]

/-- A part of a pass that runs in place: its change of the location bits, and the steps that each write one part of the registers. All the
elements are read before any is written. -/
structure Stage where
  map   : List Nat
  steps : Nat
  deriving DecidableEq, Repr

/-- The stages of a pass at W, S, L or G: one destination register in each step, of one home group at G; a stage of R337 is one step.
[DEDUCED: log 32] -/
def passStages (d : Desc) (p : Pass) (n : Nat) : List Stage :=
  let regs := 2 ^ d.width 1
  if p.level = 2 then match laneStages d p n with
    | some l => l.map fun e => ⟨swapMap n e.1 e.2, 1⟩
    | none => (laneSweep n (d.width 0 + d.width 1) p.map).map fun m => ⟨m, regs⟩
  else if p.level = 3 then [⟨p.map, regs * 2 ^ d.width 3⟩]
  else [⟨p.map, regs⟩]

/-- The part of the registers of a span that a location lies in: its register, and at G its home group. -/
def Desc.part (d : Desc) (steps loc : Nat) : Nat :=
  (loc / 2 ^ d.width 0 % 2 ^ d.width 1 + 2 ^ d.width 1 * (loc / 2 ^ (d.width 0 + d.width 1 + d.width 2))) % steps

/-- Does a pass run in place, in registers (R331)? -/
def Pass.inPlace (p : Pass) : Bool := !p.copy && decide (p.level < 4)

/-- Where step `j` of stages stands: the stages that are done, the one under way, and its step. -/
def stageAt : List Stage → Nat → List Stage × Option Stage × Nat
  | [], j => ([], none, j)
  | e :: es, j => if j < e.steps then ([], some e, j) else
    let (done, cur, k) := stageAt es (j - e.steps)
    (e :: done, cur, k)

/-- The stages of the pass `k`; none of one that is not in place. -/
def PlaceOp.stages (o : PlaceOp) (k : Nat) : List Stage :=
  match o.passes[k]? with
  | some p => if p.inPlace then passStages o.run p o.n else []
  | none => []

/-- The matrix by which elements lie where the pass `k` found them, after the stages that `j` of its steps complete. -/
def PlaceOp.matrixAt (o : PlaceOp) (k j : Nat) : List Nat :=
  let m := (o.passes.take k).foldl (fun m p => gfMul p.map m) o.mOld
  (stageAt (o.stages k) j).1.foldl (fun m e => gfMul e.map m) m

/-- Have the passes before pass `k` left the elements in the alternate span, as the descriptor gave it at issue (R331)? -/
def PlaceOp.swapped (o : PlaceOp) (k : Nat) : Bool := ((o.passes.take k).filter (·.out)).length % 2 == 1

/-- The span that holds the elements before pass `k`: tensor, base, and whether it is an alternate span. -/
def PlaceOp.readSpan (o : PlaceOp) (k : Nat) : Desc × Nat × Bool :=
  let dS := descOf o.dS
  let dD := descOf o.dD
  let sw := o.swapped k
  match o.copyAt with
  | none => (dD, if sw then dD.alt else dD.base, false)
  | some false => if k = 0 then (dS, dS.base, false) else (dD, if sw then dD.alt else dD.base, false)
  | some true => if k < o.passes.length then (dS, if sw then dS.alt else dS.base, sw) else (dD, dD.base, false)

/-- The span that pass `k` writes. One that exchanges the spans of tD writes what is tD's alternate span at that moment (R331). -/
def PlaceOp.writeSpan (o : PlaceOp) (k : Nat) : Desc × Nat × Bool :=
  match o.passes[k]? with
  | none => o.readSpan k
  | some p =>
    if p.copy then (descOf o.dD, (descOf o.dD).base, false)
    else if p.inPlace then o.readSpan k
    else
      let d := o.run
      (d, if o.swapped k then d.base else d.alt, o.copyAt != some true || !o.swapped k)

/-- The elements of a 256-byte line of device memory that come before a base: an M or a D step is one line of the destination (R330). -/
def Desc.lead (d : Desc) (base : Nat) : Nat := if d.res = 2 then ptrOffset (BitVec.ofNat 64 base) % 256 / d.size else 0

/-- What comes before the destination of the pass under way in its first step. -/
def PlaceOp.lead (o : PlaceOp) (p : Pass) : Nat := if p.copy then 0 else o.run.lead (o.writeSpan o.pass).2.1

/-- Pass steps of the pass under way (R330). [DEDUCED: log 32] -/
def PlaceOp.steps (o : PlaceOp) (p : Pass) : Nat :=
  let d := if p.copy then descOf o.dD else o.run
  if p.inPlace then ((passStages d p o.n).map (·.steps)).sum else max 1 ((d.size * (o.lead p + 2 ^ (o.n - d.width 7)) + 255) / 256)

/-- Does the pass under way end with the step after those that are done? A D pass ends when every byte has arrived, after its steps (R335). -/
def PlaceOp.lastStep (o : PlaceOp) (p : Pass) : Bool := decide ((if p.level = 7 then o.step else o.step + 1) = o.steps p)

/-- Where an element lies now (R230, R332). -/
def State.elemNow (s : State) (b : Block) (c : Ctx) (o : PlaceOp) (need : BitVec 4) (i : Nat) : ElemAt :=
  let (d, base, own) := o.readSpan o.pass
  let old := gfApply (o.matrixAt o.pass o.step) i
  match stageAt (o.stages o.pass) o.step with
  | (_, some e, j) =>
    let new := gfApply e.map old
    if d.part e.steps new < j then s.elemAt b c d base own need new
    else if j = 0 ∨ j ≤ d.part e.steps old then s.elemAt b c d base own need old
    else .held (o.held.getD i 0)
  | _ => s.elemAt b c d base own need old

/-- The PLACE of a block that a tile names, by itself or by the span it describes. -/
def State.placeOn (s : State) (b : BlockKey) (g t : Nat) (d : Desc) : Option PlaceOp :=
  s.places.find? fun o => o.block == b && ((o.group == g && (o.tD == t || o.tS == t)) ||
    [descOf o.dS, descOf o.dD].any fun e => e.res == d.res && e.base == d.base && d.rank != 0)

/-- Is a tile held by an unfinished PLACE? -/
def State.placing (s : State) (b : BlockKey) (g t : Nat) : Bool := s.places.any fun o => o.block == b && o.group == g && (o.tD == t || o.tS == t)
/-- Is a TDSET to a tile in progress? -/
def State.tileLoading (s : State) (b : BlockKey) (g t : Nat) : Bool :=
  ((s.group? b g).map fun x => x.loading.any fun l => l.1 == t).getD false

/-- An element's value as a read delivers it. -/
def State.regElem (s : State) (home r lane shift size : Nat) : Nat := (sget s.vregs (vkey home r lane)).toNat / 2 ^ shift % 2 ^ (8 * size)
/-- Has a lane of a home group a thread that has not exited? -/
def State.laneHeld (s : State) (home lane : Nat) : Bool := s.threads.any fun t => t.home == home && t.tid.lane == lane && t.alive
/-- A register element as another thread or a pass reads it; 0 from an exited or phantom lane (R49, R141). -/
def State.liveElem (s : State) (home r lane shift size : Nat) : Nat := if s.laneHeld home lane then s.regElem home r lane shift size else 0
/-- Writes an element's bits into a register; a lane that is not live discards it. -/
def State.putRegElem (s : State) (home r lane shift size v : Nat) : State :=
  if s.laneHeld home lane then
    let old := (sget s.vregs (vkey home r lane)).toNat
    let keep := old - (old / 2 ^ shift % 2 ^ (8 * size)) * 2 ^ shift
    s.setCell (.vec home r lane) (BitVec.ofNat 32 (keep + v % 2 ^ (8 * size) * 2 ^ shift))
  else s

end Sys2Proof.Machine
end

