-- ==== Sys2Proof/Machine/Tensor.lean ====
section
/-! DEFINITION. PLACE, TLD, TST, TDSET, TDGET and LOCOF (R229 to R233), and the steps of the Orrery (R330 to R338). -/

namespace Sys2Proof.Machine

/-! ### TDSET, TDGET, LOCOF -/

/-- The tile an operand names. -/
def tileNo : Operand → Nat
  | .tile t => t.toNat
  | _ => 0

/-- The local address of a uniform operand of the issue group, or the trap that turns it away. [DEDUCED: log 30] -/
def localArea (s : State) (x : Exec) (o : Operand) (slot n al : Nat) : Except Trap Nat :=
  match s.localTrap x ((x.act.take 1).map (wantLocal s o .none slot n al true)) with
  | some t => .error t
  | none => .ok (((x.act.head?).map fun th => s.localAddr th o).getD 0)

/-- Accesses of a home group to local bytes that are not performed. -/
def State.localBusy (s : State) (core : Nat) (b : BlockKey) (g a n : Nat) (writes : Bool) : Bool :=
  (s.core core).outstanding.any fun y => decide (y.tid.block = b) && y.tid.group == g && y.inLocal && (y.writes || writes)
    && decide (a < y.off + y.bytes) && decide (y.off < a + n)

/-- TDSET (R232, R325): the tile is loading until TDSET_DONE. -/
def execTdset (f : Insn) (s : State) : Host.Outcome State Fault Refusal :=
  issueWith (.tdset f) f (fun s x =>
    match x.act.head?, x.act.head?.bind fun th => s.block? th.tid.block with
    | some th, some b =>
      let t := tileNo f.opd
      match localArea s x f.opa 0 128 16 with
      | .error e => .trap e
      | .ok a =>
        if s.placing b.key th.tid.group t || s.tileLoading b.key th.tid.group t || s.localBusy x.ig.core b.key th.tid.group a 128 false then .wait s
        else
          let bs := s.bytes (localAt x.ig.core a) 128
          let d := descOf bs
          if !s.descOk b bs then trapAll x Cause.badfmt 0
          else if s.localBusy x.ig.core b.key th.tid.group d.mat (8 * d.n) false then .wait s
          else if (gfInv d.n (s.matrix x.ig.core d.mat d.n)).isNone then trapAll x Cause.placebad 0
          else
            let u := s.modGroup b.key th.tid.group fun g => { g with loading := g.loading ++ [(t, x.flag)], loose := g.loose.filter (· != t) }
            .done (u.putTile th.home t 0 bs) .later false
    | _, _ => .done s .atIssue false) s

/-- TDSET_DONE (R214, R232). -/
def execTdsetDone (b : BlockKey) (g tile : Nat) (s : State) : Host.Outcome State Fault Refusal :=
  match s.group? b g with
  | none => conclude s
  | some x => match x.loading.find? fun l => l.1 == tile with
    | none => conclude s
    | some l =>
      let s := s.modGroup b g fun x => { x with loading := x.loading.filter fun k => k.1 != tile }
      conclude (s.complete ((s.groupThreads b g).filter (fun t => t.alive) |>.map (·.tid)) l.2)

/-- TDGET (R232, R338): a relaxed write of the image. -/
def execTdget (f : Insn) (s : State) : Host.Outcome State Fault Refusal :=
  issueWith (.tdget f) f (fun s x =>
    match x.act.head? with
    | none => .done s .atIssue false
    | some th =>
      let b := th.tid.block
      let t := tileNo f.opa
      match localArea s x f.opb 1 128 16 with
      | .error e => .trap e
      | .ok a =>
        if s.placing b th.tid.group t || s.tileLoading b th.tid.group t || s.rangeBusy x.ig.core a 128
            || s.localBusy x.ig.core b th.tid.group a 128 true then .wait s
        else .done ((s.rawWrite x.ig.core 0 true 0 a 128).storeLocal x.ig.core a (s.tile th.home t)) (.at_ (x.due 24)) false) s

/-- The index an element operand gives, and its check (R231): the trap of the lanes whose index has a bit at or above n. -/
def indexTrap (x : Exec) (names : List (Thread × Desc × Nat)) : Option Trap :=
  let bad := names.filter fun p => decide (2 ^ p.2.1.n ≤ p.2.2)
  if bad.isEmpty then none
  else some { cause := Cause.viewbound, hit := bad.map (·.1.tid.lane)
              infos := x.mem.map fun t => (t.tid, match names.find? fun p => decide (p.1.tid = t.tid) with
                | some p => accessInfo (decide (2 ^ p.2.1.n ≤ p.2.2)) 1 (p.2.2 : Nat)
                | none => accessInfo false 1 0) }

/-- The lanes of an element instruction: thread, descriptor and index. -/
def State.elemNames (s : State) (x : Exec) : List (Thread × Desc × Nat) :=
  x.act.map fun th => (th, descOf (s.tile th.home (tileNo x.f.opa)), s.src th x.f.opb 2)

/-- Has the matrix area of a tile's tensor been written since its TDSET (R230)? [DESIGN CHOICE: log 60] -/
def State.tileLoose (s : State) (b : BlockKey) (g t : Nat) : Bool := ((s.group? b g).map (·.loose.contains t)).getD false

/-- LOCOF (R233): all 48 rows of the matrix area count. [DESIGN CHOICE: log 60] -/
def execLocof (f : Insn) (s : State) : Host.Outcome State Fault Refusal :=
  issueWith (.locof f) f (fun s x =>
    let names := s.elemNames x
    if names.any fun p => s.tileLoading p.1.tid.block p.1.tid.group (tileNo f.opa) then .wait s
    else if names.any fun p => p.2.1.bad false then trapAll x Cause.badfmt 0
    else match indexTrap x names with
      | some t => .trap t
      | none => fixedResult s x 2 8 fun th =>
        let d := descOf (s.tile th.home (tileNo f.opa))
        if s.tileLoose th.tid.block th.tid.group (tileNo f.opa) then
          (Config.freeWord s.tick (2 * th.tid.lane)).toNat + (Config.freeWord s.tick (2 * th.tid.lane + 1)).toNat % 2 ^ 16 * 2 ^ 32
        else gfApply (s.matrix x.ig.core d.mat 48) (s.src th f.opb 2) % 2 ^ 48) s

/-! ### TLD and TST -/

/-- A free place: one that cannot be reached is nowhere, unless the whole span is out of reach. [DESIGN CHOICE: log 60] -/
def ElemAt.loose (e : ElemAt) : ElemAt :=
  match e with
  | .bad c i => if c = Cause.staleview ∨ c = Cause.rights ∨ c = Cause.align then .bad c i else .held 0
  | .other .. => .held 0
  | e => e

/-- Where an element of a lane lies, with the PLACE that moves it; somewhere in the span where the matrix has been written (R230).
[DESIGN CHOICE: log 60] -/
def State.elemOf (s : State) (x : Exec) (c : Ctx) (b : Block) (need : BitVec 4) (p : Thread × Desc × Nat) : Option PlaceOp × ElemAt :=
  let d := p.2.1
  match s.placeOn b.key p.1.tid.group (tileNo x.f.opa) d with
  | some o => (some o, s.elemNow b c o need p.2.2)
  | none =>
    if s.tileLoose b.key p.1.tid.group (tileNo x.f.opa) then
      (none, (s.elemAt b c d d.base false need ((Config.freeWord s.tick p.1.tid.lane).toNat % 2 ^ d.n)).loose)
    else (none, s.elemAt b c d d.base false need (gfApply (s.matrix b.core d.mat d.n) p.2.2))

/-- The access of an element: `args` hold the PLACE it follows (0 for none), the index, its kind (0 for memory, 1 for a register
element, 2 for the fill value in `data`, 3 for a value known already), and a register's home slot, number, lane and shift, or the value. -/
def ElemAt.access (e : ElemAt) (a : Access) (pid i : Nat) : Access :=
  match e with
  | .reg h r l sh => { a with inLocal := true, off := 0, obj := 0, args := [pid, i, 1, h, r, l, sh] }
  | .loc addr => { a with inLocal := true, off := addr, obj := 0, args := [pid, i, 0] }
  | .mem obj off h => { a with inLocal := false, obj, off, handle := h, args := [pid, i, 0] }
  | .held v => { a with inLocal := true, off := 0, obj := 0, args := [pid, i, 3, v] }
  | _ => { a with args := [0, i, 2] }

/-- The size code by which an element is read into a register (R23). -/
def elemCode (fmt : Nat) : Nat := [1, 0, 0, 2, 3, 2, 4, 4].getD fmt 4

/-- The first trap among the places of elements. -/
def elemTrap (x : Exec) (es : List (Thread × ElemAt)) : Option Trap :=
  let bad := es.filterMap fun p => match p.2 with
    | .bad c i => some (p.1, c, i)
    | .other _ off => some (p.1, Cause.viewbound, (off : Int))
    | _ => none
  match minBy (fun p => if p.2.1 = Cause.regbound then 4 else accessRank p.2.1) bad with
  | none => none
  | some (_, c, _) =>
    let hits := bad.filter fun p => decide (p.2.1 = c)
    let info : Thread → Word := fun t => match hits.find? fun p => decide (p.1.tid = t.tid) with
      | some p => if c = Cause.regbound then BitVec.ofInt 32 (2 ^ 27 + p.2.2) else accessInfo true 0 p.2.2
      | none => if c = Cause.regbound then 0 else accessInfo false 0 0
    some { cause := c, hit := hits.map (·.1.tid.lane), infos := x.mem.map fun t => (t.tid, info t)
           offsets := hits.map fun p => (p.1.tid.lane, wrap 64 p.2.2) }

/-- Views whose entries the elements of MEM residence need and the core lacks. -/
def State.elemView (s : State) (x : Exec) (ctx : Nat) (names : List (Thread × Desc × Nat)) : Option Nat :=
  (names.find? fun p => p.2.1.res == 2 && (s.cachedView x.ig.core ctx (ptrIndex (BitVec.ofNat 64 p.2.1.base))).isNone).map
    fun p => ptrIndex (BitVec.ofNat 64 p.2.1.base)

/-- TLD (R230, R231). -/
def execTld (f : Insn) (s : State) : Host.Outcome State Fault Refusal :=
  issueWith (.tld f) f (fun s x =>
    let names := s.elemNames x
    let ctx := s.ctxOfExec x
    if names.any fun p => s.tileLoading p.1.tid.block p.1.tid.group (tileNo f.opa) then .wait s
    else if names.any fun p => p.2.1.bad true then trapAll x Cause.badfmt 0
    else match indexTrap x names, s.elemView x ctx names, s.ctx? ctx with
      | some t, _, _ => .trap t
      | none, some i, _ => .wait (s.fetchView x.ig.core ctx i)
      | none, none, none => .wait s
      | none, none, some c =>
        let es := names.filterMap fun p => (s.block? p.1.tid.block).map fun b =>
          (p, if p.2.1.ghost p.2.2 then (none, none) else ((s.elemOf x c b rightR p).1, some (s.elemOf x c b rightR p).2))
        match elemTrap x (es.filterMap fun q => q.2.2.map fun e => (q.1.1, e)) with
        | some t => .trap t
        | none =>
          let empty := es.any fun q => match q.2.2 with
            | some (.reg h r l _) => s.laneHeld h l && s.emptyReg h r l
            | _ => false
          let busy := es.any fun q => match q.2.2 with
            | some (.loc a) => s.rangeBusy x.ig.core a q.1.2.1.size
            | _ => false
          if empty || busy then .wait s
          else .done (es.foldl (fun t q =>
            let (th, d, i) := q.1
            let r := s.regNo th f.opd
            let a : Access := { id := 0, inst := x.inst, tid := th.tid, opc := 0xDB, mod := f.mod, cmp := BitVec.ofNat 64 (elemCode d.fmt)
                                bytes := d.size, reg := r, flag := x.flag, pc := x.ig.pc
                                data := BitVec.ofNat 128 (tileNo f.opa + 2 ^ 8 * d.res + 2 ^ 16 * d.base) }
            let a := match q.2.2 with
              | some e =>
                if s.tileLoose th.tid.block th.tid.group (tileNo f.opa) && q.2.1.isNone then
                  (ElemAt.held (Config.freeWord s.tick (2 ^ 16 + th.tid.lane)).toNat).access a 0 i
                else e.access a ((q.2.1.map (·.id)).getD 0) i
              | none => { a with inLocal := true, args := [0, i, 2], data := BitVec.ofNat 128 d.fill }
            (t.markEmptyRun th.home r th.tid.lane t.nextId 1).issueAccess x.ig.core a) s) .later false) s

/-- TST (R230, R231): waits while a PLACE moves the tensor. -/
def execTst (f : Insn) (s : State) : Host.Outcome State Fault Refusal :=
  issueWith (.tst f) f (fun s x =>
    let names := s.elemNames x
    let ctx := s.ctxOfExec x
    if names.any fun p => s.tileLoading p.1.tid.block p.1.tid.group (tileNo f.opa)
        || (s.placeOn p.1.tid.block p.1.tid.group (tileNo f.opa) p.2.1).isSome then .wait s
    else if names.any fun p => p.2.1.bad true then trapAll x Cause.badfmt 0
    else match indexTrap x names, s.elemView x ctx names, s.ctx? ctx with
      | some t, _, _ => .trap t
      | none, some i, _ => .wait (s.fetchView x.ig.core ctx i)
      | none, none, none => .wait s
      | none, none, some c =>
        let es := (names.filter fun p => !p.2.1.ghost p.2.2).filterMap fun p => (s.block? p.1.tid.block).map fun b => (p, (s.elemOf x c b rightW p).2)
        match elemTrap x (es.map fun q => (q.1.1, q.2)) with
        | some t => .trap t
        | none =>
          let as := es.map fun q =>
            let (th, d, i) := q.1
            q.2.access { id := 0, inst := x.inst, tid := th.tid, opc := 0xDC, mod := 0, bytes := d.size, flag := x.flag, pc := x.ig.pc
                         data := BitVec.ofNat 128 ((s.src32 th f.opd).toNat % 2 ^ (8 * d.size)) } 0 i
          let busy := as.any fun a => (a.inLocal && a.args.getD 2 0 == 0 && s.rangeBusy x.ig.core a.off a.bytes) || s.loadAhead x.ig.core a.tid a
          if busy then .wait s
          else
            let ghosts := names.filter fun p => p.2.1.ghost p.2.2
            .done ((as.foldl (fun t a => t.issueAccess x.ig.core a) s).complete (ghosts.map (·.1.tid)) x.flag) .later false) s

/-- Performs an element's access that is not in device memory. -/
def State.performElem (s : State) (core : Nat) (a : Access) : State :=
  let kind := a.args.getD 2 0
  let arg : Nat → Nat := fun i => a.args.getD i 0
  if a.is [0xDB] then
    if kind = 2 then s.deliverValue core a a.data.toNat false
    else if kind = 1 then s.deliverValue core a (s.liveElem (arg 3) (arg 4) (arg 5) (arg 6) a.bytes) false
    else if kind = 3 then s.deliverValue core a (arg 3) false
    else s.deliverValue core a (s.val (localAt core a.off) a.bytes) (s.poisoned (localAt core a.off) a.bytes)
  else if kind = 1 then
    let own : Bool := (s.group? a.tid.block a.tid.group).any fun g => g.home == arg 3
    let t := s.putRegElem (arg 3) (arg 4) (arg 5) (arg 6) a.bytes a.data.toNat
    (if own then t else t.noteRegs (arg 3) [arg 4]).finishAccess core a
  else if kind = 3 then s.finishAccess core a
  else (s.groupStores core a.tid a.off (toLE a.bytes a.data.toNat)).finishAccess core a

/-! ### PLACE at issue (R229) -/

/-- The new matrix and the factoring that PLACE uses, or the cause that turns it away. With `.plan` the plan alone gives T, as V · Π · W. An
old matrix that has been written since its TDSET and has no inverse gives no T: the tensor's contents are free values, and no pass runs (R230).
[DEDUCED: log 29; DESIGN CHOICE: log 60] -/
def State.placePlan (s : State) (core a : Nat) (plan : Bool) (n : Nat) (old : List Nat) (run : Desc) (copy : Option Bool) :
    Except (BitVec 6) (List Nat × List Nat × List Nat × List Nat) :=
  if plan then
    let bs := s.bytes (localAt core a) 0x390
    let rows : Nat → List Nat := fun i => (List.range n).map fun k => field bs (i + 8 * k) 8
    let w := rows 0x10
    let v := rows 0x1D0
    let src := (List.range n).map fun i => field bs (0x190 + i) 1
    let ok := decide (field bs 4 1 = n) && upperUnit n w && upperUnit n v && (List.range n).all (src.contains ·)
    if !ok || planImage n v src w (withCopy n copy (formPasses n v src w run.levels)) != bs then .error Cause.placebad
    else .ok (gfMul (gfMul v (gfMul (permMatrix src) w)) old, v, src, w)
  else
    let new := s.matrix core a n
    match gfInv n old, gfInv n new with
    | some inv, some _ =>
      let (v, src, w) := gfFactor n (gfMul new inv)
      .ok (new, v, src, w)
    | none, some _ => .ok (new, gfId n, List.range n, gfId n)
    | _, none => .error Cause.placebad

/-- Reads of a tensor's elements that are outstanding when a PLACE of it issues follow the elements from then on (R230). A
read's `data` hold its tile, residence and base. -/
def State.adoptReads (s : State) (core : Nat) (o : PlaceOp) : State :=
  let mine : Access → Bool := fun a =>
    let v := a.data.toNat
    a.is [0xDB] && a.tid.block == o.block && a.args.headD 0 == 0 && a.args.getD 2 0 != 2
      && ((a.tid.group == o.group && (o.tD == v % 2 ^ 8 || o.tS == v % 2 ^ 8))
        || [descOf o.dS, descOf o.dD].any fun e => e.res == v / 2 ^ 8 % 2 ^ 8 && e.base == v / 2 ^ 16)
  let fix : Access → Access := fun a => if mine a then { a with args := o.id :: a.args.drop 1 } else a
  let fixE : Entry → Entry := fun e => { e with acc := fix e.acc }
  s.modCore core fun k => { k with accs := k.accs.map fix, waits := k.waits.map fixE, retries := k.retries.map fixE }

/-- The bases in device memory of descriptors, with the object that each names now. -/
def State.placeObjects (s : State) (ctx : Nat) (ds : List Desc) : List (Nat × Nat) :=
  match s.ctx? ctx with
  | some c => (ds.filter fun d => d.res == 2).flatMap fun d => [d.base, d.alt].map fun p => (p, (s.viewEntry c (ptrIndex (BitVec.ofNat 64 p))).obj)
  | none => []

/-- One number that names a tensor on every member of its device set. -/
def tensorName (d : Desc) : Nat := d.grp * 2 ^ 32 + d.mat

/-- The descriptor whose device set has more than one member, that of tD first (R335). -/
def PlaceOp.setDesc (o : PlaceOp) : Option Desc :=
  if (descOf o.dD).width 7 ≠ 0 then some (descOf o.dD) else if (descOf o.dS).width 7 ≠ 0 then some (descOf o.dS) else none

/-- The name under which the members tell each other about a PLACE. -/
def PlaceOp.name (o : PlaceOp) : Nat := (o.setDesc.map tensorName).getD 0

/-- The turn of a PLACE among those of its tensor on this device. [DESIGN CHOICE: log 33] -/
def State.placeTurn (s : State) (o : PlaceOp) : Nat :=
  ((s.placeTurns.find? fun x => x.1 == o.ctx && x.2.1 == o.name).map (·.2.2)).getD 0

/-- The counts of turns after a PLACE has been issued. -/
def State.turnsAfter (s : State) (o : PlaceOp) : List (Nat × Nat × Nat) :=
  if o.setDesc.isNone then s.placeTurns
  else (o.ctx, o.name, o.turn + 1) :: s.placeTurns.filter fun x => !(x.1 == o.ctx && x.2.1 == o.name)

/-- PLACE (R229, R329). -/
def execPlace (f : Insn) (s : State) : Host.Outcome State Fault Refusal :=
  issueWith (.place f) f (fun s x =>
    match x.act.head?, x.act.head?.bind fun th => s.block? th.tid.block with
    | some th, some b =>
      let tD := tileNo f.opd
      let tS := tileNo f.opa
      let g := th.tid.group
      let core := x.ig.core
      let plan := f.mod.getLsbD 0
      match localArea s x f.opb 1 (if plan then 0x390 else 384) 8 with
      | .error e => .trap e
      | .ok a =>
        if [tD, tS].any fun t => s.placing b.key g t || s.tileLoading b.key g t then .wait s
        else
          let bS := s.tile th.home tS
          let bD := s.tile th.home tD
          let dS := descOf bS
          let dD := descOf bD
          let n := dS.n
          let old := s.matrix core dS.mat n
          let copy := copyPlace (tD == tS) dS dD
          let run := if copy = some true then dS else dD
          if dS.bad true || dD.bad true || dS.fmt != dD.fmt || dS.rank != dD.rank || dS.ext != dD.ext
              || !s.matrixTidy core dS.mat n || !s.matrixTidy core dD.mat n || (!plan && !s.matrixTidy core a n) then trapAll x Cause.badfmt 0
          else match s.placePlan core a plan n old run copy with
            | .error c => trapAll x c 0
            | .ok (new, v, src, w) =>
              if (dS.width 7 ≠ 0 ∨ dD.width 7 ≠ 0) ∧ s.headerFlag x 3 = false then trapAll x Cause.illop 0
              else if x.engineWait s then .wait s
              else
                let o : PlaceOp := { id := x.inst, block := b.key, group := g, ctx := b.ctx, tD, tS, lanes := x.act.map (·.tid), flag := x.flag
                                     mod := f.mod, pc := x.ig.pc, mOld := old, mNew := new, w, src, v, dS := bS, dD := bD
                                     dirty := [tD, tS].any (s.tileLoose b.key g) || (gfInv n old).isNone }
                let o := { o with objs := s.placeObjects b.ctx [dS, dD], turn := s.placeTurn o }
                let o := { o with alt := o.passes.any fun p => p.copy || decide (3 ≤ p.level) }
                let rows := (List.range 48).flatMap fun i => toLE 8 (if i < n then new.getD i 0 else 0)
                let t := s.write (localAt core dD.mat) rows
                let t := if plan then t else t.write (localAt core dD.plan) (planImage n v src w o.passes)
                .done (({ t with places := t.places ++ [o], placeTurns := t.turnsAfter o }.adoptReads core o).putCursor o (o.cursor 1)) .later false
    | _, _ => .done s .atIssue false) s

/-! ### Pass steps -/

def State.setPlace (s : State) (o : PlaceOp) : State := { s with places := s.places.map fun p => if p.id = o.id then o else p }

/-- The outstanding reads of elements that a PLACE moves follow the elements (R230). -/
def State.retarget (s : State) (o : PlaceOp) (last : Bool) : State :=
  match s.block? o.block, s.ctx? o.ctx with
  | some b, some c =>
    let fix : Access → Access := fun a =>
      if a.is [0xDB] && a.args.headD 0 == o.id then (s.elemNow b c o rightR (a.args.getD 1 0)).access a (if last then 0 else o.id) (a.args.getD 1 0) else a
    let fixE : Entry → Entry := fun e => { e with acc := fix e.acc }
    s.modCore b.core fun k => { k with accs := k.accs.map fix, waits := k.waits.map fixE, retries := k.retries.map fixE, side := k.side.map fixE }
  | _, _ => s

/-- A PLACE is over: it leaves the Orrery, and its flag clears. -/
def State.retirePlace (s : State) (o : PlaceOp) (cursor : List Byte) : State :=
  let s := s.putCursor o cursor
  let s := s.complete o.lanes o.flag
  { s with places := s.places.filter fun p => p.id != o.id, fetched := s.fetched.filter fun x => x.id % 2 ^ 120 != o.id }

/-- Does an element of `size` bytes lie in the spans of a tensor? -/
def State.spansHold (s : State) (b : Block) (c : Ctx) (bs : List Byte) (alt : Bool) (size : Nat) (e : ElemAt) : Bool :=
  match e with
  | .reg h r l _ => s.spanHasReg b.key bs h r l
  | .loc a => (s.spanRanges c bs alt).any fun r => r.1 && decide (r.2.2.1 < a + size) && decide (a < r.2.2.1 + r.2.2.2)
  | .mem obj off _ => (s.spanRanges c bs alt).any fun r => !r.1 && r.2.1 == obj && decide (r.2.2.1 < off + size) && decide (off < r.2.2.1 + r.2.2.2)
  | _ => false

/-- Writes one element. -/
def State.writeElem (s : State) (core : Nat) (c : Ctx) (o : PlaceOp) (size : Nat) (e : ElemAt) (bs : List Byte) : State :=
  match e with
  | .reg h r l sh => (s.putRegElem h r l sh size (ofLE bs)).noteRegs h [r]
  | .loc a => s.engineStores core a bs
  | .mem obj off h => match s.homeWrite c obj off size fun _ => some bs with
    | .ok t _ _ => t.updateLines core c.num obj off bs
    | .peer _ =>
      let a : Access := { id := s.nextId, inst := o.id, tid := ⟨o.block, o.group, 0⟩, opc := 0xDC, mod := 0, obj, off, handle := h, bytes := size
                          data := BitVec.ofNat 128 (ofLE bs), pc := o.pc, atBlk := true, part := some (0xDA00#16 ||| o.mod.setWidth 16, o.flag), args := [o.id] }
      (s.modCore core fun k => { k with accs := k.accs ++ [a] }).fresh 1
    | .lost => s.memueRecord obj off ⟨o.block, o.group, 0⟩ o.pc
    | _ => s
  | _ => s

/-- A free value in the place of an element. One on an absent page takes it when the page is filled. [DESIGN CHOICE: log 16] -/
def State.freeElem (s : State) (core : Nat) (c : Ctx) (o : PlaceOp) (size i : Nat) (e : ElemAt) : State :=
  let bs := toLE size (Config.freeWord s.tick i).toNat
  match e with
  | .mem obj off _ => match s.homeRead c obj off size with
    | .absent .. => { s with openBytes := (c.num, obj, off, size) :: s.openBytes }
    | .lost | .bad => s
    | _ => s.writeElem core c o size e bs
  | e => s.writeElem core c o size e bs

/-- The place of a location in a span of a PLACE that fails: bytes of device memory count whatever its view admits now (R333). [DESIGN CHOICE: log 16] -/
def State.spanPlace (s : State) (b : Block) (c : Ctx) (o : PlaceOp) (d : Desc) (base : Nat) (own : Bool) (loc : Nat) : ElemAt :=
  match s.elemAt b c d base own rightR loc with
  | .bad e off => match d.res, o.objs.find? fun p => p.1 == base with
    | 2, some p => .mem p.2 off.toNat (ptrIndex (BitVec.ofNat 64 base))
    | _, _ => .bad e off
  | e => e

/-- The places of the elements of a tensor's span, and of its alternate span where a pass needs it. [DESIGN CHOICE: log 16] -/
def State.spanPlaces (s : State) (b : Block) (c : Ctx) (o : PlaceOp) (d : Desc) : List ElemAt :=
  let locs := List.range (2 ^ d.n)
  (locs.map (s.spanPlace b c o d d.base false)) ++
    (if o.alt = false then [] else if d.res = 0 then (if b.ownsLocal d.alt (d.size * 2 ^ d.n) then locs.map fun l => .loc (d.alt + d.size * l) else [])
     else locs.map (s.spanPlace b c o d d.alt true))

/-- The spans of a tensor take free values, but for what lies in the spans of the tensor with descriptor `keep` (R229, R333);
`first` numbers the first free value. [DESIGN CHOICE: log 16] -/
def State.freeSpans (s : State) (o : PlaceOp) (d : Desc) (keep : Option (List Byte)) (first : Nat) : State :=
  match s.block? o.block, s.ctx? o.ctx with
  | some b, some c => (((s.spanPlaces b c o d).zipIdx).filter fun e => !(keep.any fun k => s.spansHold b c k o.alt d.size e.1)).foldl (fun t e => t.freeElem b.core c o d.size (first + e.2) e.1) s
  | _, _ => s

/-- The spans after the last pass: the source of a copy takes free values (R229), and the tensor too where a raw write has met it
(R230). [DESIGN CHOICE: log 15] -/
def State.endSpans (s : State) (o : PlaceOp) : State :=
  let s := if o.same then s else s.freeSpans o (descOf o.dS) (some o.dD) 0
  if o.dirty then s.freeSpans o (descOf o.dD) none (2 ^ 50) else s

/-- The members other than this device. -/
def State.otherMembers (s : State) (d : Desc) : List Nat := (s.membersOf d.grp).filter (· != s.device)

/-- Is it a note about the same PLACE? -/
def PlaceOp.noted (o : PlaceOp) (x : PlanNote) : Bool := x.ctx == o.ctx && x.tensor == o.name && x.turn == o.turn

/-- What another member has told about a PLACE and this member has not used yet: its oldest note. -/
def State.noteFrom (s : State) (o : PlaceOp) (m : Nat) : Option PlanNote := s.planNotes.find? fun x => o.noted x && x.dev == m

/-- Uses up the oldest note about a PLACE of each other member of a device set. -/
def State.dropNotes (s : State) (o : PlaceOp) (d : Desc) : State :=
  (s.otherMembers d).foldl (fun s m =>
    match findIdx? (fun x : PlanNote => o.noted x && x.dev == m) s.planNotes with
    | some i => { s with planNotes := eraseAt s.planNotes i }
    | none => s) s

/-- What the members have told about a PLACE that ends here, and about those before it, is forgotten; what comes later of it is told under its
turn, and no other PLACE uses it. [DESIGN CHOICE: log 33] -/
def State.forgetNotes (s : State) (o : PlaceOp) : State :=
  { s with planNotes := s.planNotes.filter fun x => !(x.ctx == o.ctx && x.tensor == o.name && decide (x.turn ≤ o.turn)) }

/-- A step fails a check (R333): of the cursor, only STATE changes. [DESIGN CHOICE: log 16] -/
def State.failPlace (s : State) (o : PlaceOp) (c : BitVec 6) : State :=
  (((((s.forgetNotes o).freeSpans o (descOf o.dS) none 0).freeSpans o (descOf o.dD) none (2 ^ 50)).retirePlace o (o.cursor 3)).deferTrap o.block o.group c
    (BitVec.ofNat 32 o.pass))

/-- The page a step meets is not resident: the pass stops, and the home group parks (R230, R219). [DESIGN CHOICE: log 49] -/
def State.parkPlace (s : State) (core : Nat) (c : Ctx) (o : PlaceOp) (write token : Bool) (why obj off : Nat) : State :=
  if waitTableSize ≤ (s.core core).waits.length then s
  else
    let (s, k) := s.noteFault core c token obj off fun t =>
      mkRecord 4 core o.group ((if write then 0x80 else 0) + 0x30 + why) t obj off o.block.launch o.block.index 0xFFFF o.step o.pc
    let acc : Access := { id := o.id, inst := o.id, tid := ⟨o.block, o.group, 0⟩, opc := 0xDA, mod := o.mod, obj, off, reg := o.tD, flag := o.flag, pc := o.pc
                          others := (o.objs.filter fun p => p.2 == obj).map fun p => ptrIndex (BitVec.ofNat 64 p.1) }
    let e : Entry := { kind := 3, key := k, acc, engine := true, op := o.id }
    let o := { o with park := some k }
    (((s.modCore core fun x => { x with waits := x.waits ++ [e] }).setPlace o).putCursor o (o.cursor 2)).park k (s.liveOf o.block o.group)

/-- What reading or writing the elements of one step comes to. -/
inductive StepResult where
  | ok (s : State)
  | wait (s : State)
  | park (write token : Bool) (why obj off : Nat)
  | fail (c : BitVec 6)
  | internal
  deriving DecidableEq, Repr

/-- The bytes of an element. -/
def State.readElem (s : State) (core : Nat) (c : Ctx) (o : PlaceOp) (size : Nat) : ElemAt → Draw
  | .reg h r l sh => .full (toLE size (s.liveElem h r l sh size))
  | .loc a => .full (s.plainBytes (localAt core a) size)
  | .held v => .full (toLE size v)
  | .far m dev obj off =>
    let id := o.id + 2 ^ 120 * (m + 1)
    match s.fetched.find? fun x => x.id == id && x.obj == obj && x.off == off with
    | some x => if x.bytes.isEmpty then .absent true 8 obj off else .full (x.bytes.take size)
    | none => .part (s.askPeer core c id obj dev off size true) []
  | .mem obj off _ => s.engineRead core c o.id obj (readFuel size) off size
  | .other .. => .internal
  | .bad .. => .internal

/-- Moves of a step: places of destination and source. -/
abbrev Moves := List (ElemAt × ElemAt)

/-- The first cause among the places of a step. -/
def movesBad (ms : Moves) : Option (BitVec 6) :=
  (ms.flatMap fun m => [m.1, m.2]).findSome? fun e => match e with
    | .bad c _ => some c
    | .other .. => some Cause.viewbound
    | _ => none

/-- Reads the sources of moves in turn. -/
def State.readMoves (s : State) (core : Nat) (c : Ctx) (o : PlaceOp) (size : Nat) : Moves → Except StepResult (List (List Byte))
  | [] => .ok []
  | m :: ms => match s.readElem core c o size m.2 with
    | .full bs => match s.readMoves core c o size ms with
      | .ok r => .ok (bs :: r)
      | .error e => .error e
    | .part t _ => .error (.wait t)
    | .absent token why obj off => .error (.park false token why obj off)
    | .outside _ => .error (.fail Cause.viewbound)
    | .internal => .error .internal

/-- A destination in device memory that cannot be written now. -/
def State.blockedDest (s : State) (core : Nat) (c : Ctx) (o : PlaceOp) (size : Nat) (ms : Moves) : Option StepResult :=
  ms.findSome? fun m => match m.1 with
    | .mem obj off _ => match s.sideBefore core o.id obj off size, s.owed core o.id false obj off size with
      | some (token, a), _ => some (.park true token (s.whyAt c obj a) obj a)
      | none, true => some (.wait s)
      | none, false => match s.homeRead c obj off size with
        | .absent token why _ => some (.park true token why obj off)
        | .bad => some .internal
        | _ => none
    | _ => none

/-- Performs moves: all sources are read before any destination is written (R333, R337). -/
def State.doMoves (s : State) (core : Nat) (c : Ctx) (o : PlaceOp) (size : Nat) (ms : Moves) (fills : List (ElemAt × List Byte)) : StepResult :=
  match movesBad (ms ++ fills.map fun p => (p.1, p.1)), s.readMoves core c o size ms with
  | some e, _ => .fail e
  | none, .error r => r
  | none, .ok vals => match s.blockedDest core c o size ms with
    | some r => r
    | none =>
      let t := (ms.zip vals).foldl (fun t p => t.writeElem core c o size p.1.1 p.2) s
      .ok (fills.foldl (fun t p => t.writeElem core c o size p.1 p.2) t)

/-- A span: tensor, base, and whether it is an alternate span. -/
abbrev Span3 := Desc × Nat × Bool

/-- The place of a location in a span. -/
def State.elemIn (s : State) (b : Block) (c : Ctx) (sp : Span3) (need : BitVec 4) (loc : Nat) : ElemAt := s.elemAt b c sp.1 sp.2.1 sp.2.2 need loc

/-- The moves of the destination locations of a step, from elements at `cold` in one span to `cnew` in another, and the fills
of ghost slots in registers (R336). -/
def State.stepMoves (s : State) (b : Block) (c : Ctx) (n : Nat) (cold cnew : List Nat) (src dst : Span3) (locs : List Nat) : Moves × List (ElemAt × List Byte) :=
  let inv := (gfInv n cnew).getD (gfId n)
  let es := locs.map fun l => (l, gfApply inv l)
  let at_ : Nat → ElemAt := s.elemIn b c dst rightW
  ((es.filter fun e => !dst.1.ghost e.2).map fun e => (at_ e.1, s.elemIn b c src rightR (gfApply cold e.2)),
   if dst.1.res = 0 then (es.filter fun e => dst.1.ghost e.2).map fun e => (at_ e.1, toLE dst.1.size dst.1.fill) else [])

/-- This device's place among the members of a device set. -/
def State.memberNo (s : State) (d : Desc) : Nat := (findIdx? (· == s.device) (s.membersOf d.grp)).getD 0

/-- Locations 256 bytes of which make step `j` of a part of `2 ^ low` locations, `lead` elements before it filling up the first. -/
def stepLocs (d : Desc) (low lead j : Nat) : List Nat :=
  let k := 256 / d.size
  ((List.range k).map fun i => j * k + i).filterMap fun l => if lead ≤ l ∧ l - lead < 2 ^ low then some (l - lead) else none

/-- The destination locations of step `j` of a span of `n` location bits: 256 bytes of it, at this member's place in the device
set. -/
def chunkLocs (s : State) (d : Desc) (n lead j : Nat) : List Nat :=
  let low := n - d.width 7
  (stepLocs d low lead j).map fun l => l + (if d.width 7 = 0 then 0 else s.memberNo d * 2 ^ low)

/-- The elements that lie here and go to line `j` of the alternate span of another member: the member's device, the offset in its object, and where
they lie (R330, R335); `note` tells where that span lies. -/
def State.outgoing (s : State) (b : Block) (c : Ctx) (n : Nat) (cold cnew : List Nat) (sp : Span3) (note : PlanNote) (j : Nat) : List (Nat × Nat × ElemAt) :=
  let d := sp.1
  let low := n - d.width 7
  let m := (findIdx? (· == note.dev) (s.membersOf d.grp)).getD 0
  let inv := (gfInv n cnew).getD (gfId n)
  (stepLocs d low (note.off % 256 / d.size) j).filterMap fun l =>
    let i := gfApply inv (m * 2 ^ low + l)
    let at_ := gfApply cold i
    if d.ghost i ∨ at_ / 2 ^ low ≠ s.memberNo d then none else some (note.obj, note.off + d.size * l, s.elemIn b c sp rightR at_)

/-- Bytes that the other members send here in a D pass. -/
def State.expectedBytes (s : State) (n : Nat) (cold cnew : List Nat) (d : Desc) : Nat :=
  let low := n - d.width 7
  let me := s.memberNo d
  let inv := (gfInv n cnew).getD (gfId n)
  d.size * ((List.range (2 ^ low)).filter fun l =>
    let i := gfApply inv (me * 2 ^ low + l)
    !d.ghost i && gfApply cold i / 2 ^ low != me).length

/-! ### Where the members of a device set meet (R229, R334, R335) -/

/-- The message by which a member tells the CRC of its plan and the span that the others write or read. [DESIGN CHOICE: log 33] -/
def State.planMessage (s : State) (c : Ctx) (o : PlaceOp) (d : Desc) (base crc kind dev : Nat) : Packet :=
  let p := BitVec.ofNat 64 base
  let data := toLE 4 crc ++ toLE 8 o.name ++ toLE 4 (s.viewEntry c (ptrIndex p)).obj ++ toLE 8 (ptrOffset p) ++ toLE 1 kind ++ toLE 4 o.turn
  { kind := 0x10, flags := s.bankFlag 0, dst := dev, src := s.device, ctx := c.num, obj := 0, off := 0, tag := 0, op := 0xDA, group := d.grp, plane := 0
    length := data.length, data }

/-- The members meet: each tells the others the CRC of its plan and a span, and goes on when all of them have told theirs. A CRC that
differs ends the PLACE (R335). The notes answer in the members' order. [DESIGN CHOICE: log 33] -/
def State.meet (s : State) (c : Ctx) (o : PlaceOp) (d : Desc) (base kind : Nat) : Except StepResult (List PlanNote) :=
  let crc := crc32c (planBody o.n o.v o.src o.w o.passes)
  if o.asked = false then
    let t := (s.otherMembers d).foldl (fun t m => { t with outbox := t.outbox ++ [s.planMessage c o d base crc kind m] }) s
    .error (.wait (t.setPlace { o with asked := true }))
  else
    let notes := (s.otherMembers d).filterMap (s.noteFrom o)
    if notes.length < (s.otherMembers d).length then .error (.wait s)
    else if notes.any fun x => x.crc != crc || x.kind != kind then .error (.fail Cause.placebad)
    else .ok notes

/-- Does a copy pass read elements that lie on other members (R334)? -/
def State.copyMeets (s : State) (o : PlaceOp) (p : Pass) : Bool :=
  let dS := descOf o.dS
  let dD := descOf o.dD
  p.copy && dS.width 7 != 0 && (dD.width 7 == 0 || s.membersOf dS.grp != s.membersOf dD.grp)

/-- An element on another member, where its note says that the span lies. -/
def State.farElem (s : State) (d : Desc) (notes : List PlanNote) (e : ElemAt) : ElemAt :=
  match e with
  | .other m off =>
    let dev := (s.membersOf d.grp).getD m 0
    match notes.find? fun x => x.dev == dev with
    | some x => .far m dev x.obj (x.off + off)
    | none => e
  | e => e

/-! ### Steps -/

/-- Stores of a PLACE to peers that are not performed. -/
def Core.placeBusy (c : Core) (id : Nat) : Bool := c.outstanding.any fun a => a.opc == 0xDC && a.args == [id]

/-- One step of a D pass: the members meet; then each step moves what stays here and sends what leaves for that line, the last one what leaves
for any line after it; then the pass waits until every byte expected has arrived. [DESIGN CHOICE: log 33] -/
def State.deviceStep (s : State) (b : Block) (c : Ctx) (o : PlaceOp) (p : Pass) : StepResult :=
  let src := o.readSpan o.pass
  let dst := o.writeSpan o.pass
  let d := src.1
  let cold := o.matrixAt o.pass 0
  let cnew := gfMul p.map cold
  match s.meet c o d dst.2.1 0 with
  | .error r => r
  | .ok notes =>
    if o.step = o.steps p then
      if o.arrived < s.expectedBytes o.n cold cnew d ∨ s.requests.any fun r => r.id == o.id && r.packet.kind == 2 then .wait s else .ok s
    else if s.portsOff then .wait s
    else
      let locs := (chunkLocs s d o.n (o.lead p) o.step).filter fun l =>
        gfApply cold (gfApply ((gfInv o.n cnew).getD []) l) / 2 ^ (o.n - d.width 7) == l / 2 ^ (o.n - d.width 7)
      let (ms, fl) := s.stepMoves b c o.n cold cnew src dst locs
      let lines := if o.step + 1 = o.steps p then [o.step, o.step + 1] else [o.step]
      let out := notes.flatMap fun x => (lines.flatMap (s.outgoing b c o.n cold cnew src x)).map fun e => (x.dev, e)
      match s.readMoves b.core c o d.size (out.map fun e => (e.2.2.2, e.2.2.2)) with
      | .error e => e
      | .ok vals => match s.doMoves b.core c o d.size ms fl with
        | .ok t => .ok ((out.zip vals).foldl (fun t e =>
            let pk : Packet := { kind := 2, flags := 0, dst := e.1.1, src := s.device, ctx := c.num, obj := e.1.2.1, off := e.1.2.2.1, tag := 0, op := 0
                                 group := 0, plane := 0, length := e.2.length, data := e.2 }
            (t.inject b.core o.id pk true).1) t)
        | r => r

/-- One step of a copy pass (R334): elements on other members of tS's device set are read from there. -/
def State.copyStep (s : State) (b : Block) (c : Ctx) (o : PlaceOp) (p : Pass) : StepResult :=
  let src := o.readSpan o.pass
  let dD := descOf o.dD
  let cold := o.matrixAt o.pass o.step
  match if s.copyMeets o p then s.meet c o src.1 src.2.1 1 else .ok [] with
  | .error r => r
  | .ok notes =>
    let (ms, fl) := s.stepMoves b c o.n cold cold src (o.writeSpan o.pass) (chunkLocs s dD o.n (o.lead p) o.step)
    s.doMoves b.core c o src.1.size (ms.map fun m => (m.1, s.farElem src.1 notes m.2)) fl

/-- Elements of a register that are written at G go out to the alternate span and come back (R330, R331). [DEDUCED: log 32] -/
def State.stageOut (s : State) (core : Nat) (d : Desc) (es : List (Nat × List Byte)) : State :=
  es.foldl (fun t e => t.engineStores core (d.alt + d.size * e.1) e.2) s

/-- One step of a pass that runs in place: the first of a stage reads all its elements, and each writes one part of the registers, with the
fill in its ghost slots (R330, R336, R337). [DEDUCED: log 32] -/
def State.inPlaceStep (s : State) (b : Block) (c : Ctx) (o : PlaceOp) (p : Pass) : StepResult :=
  let sp := o.readSpan o.pass
  let d := sp.1
  match stageAt (o.stages o.pass) o.step with
  | (_, some e, j) =>
    let cold := o.matrixAt o.pass o.step
    let inv := (gfInv o.n (gfMul e.map cold)).getD (gfId o.n)
    let real := (List.range (2 ^ o.n)).filter fun i => !d.ghost i
    let reads : Except StepResult (List Nat) :=
      if j ≠ 0 then .ok o.held
      else
        let ms := real.map fun i => (s.elemIn b c sp rightW (gfApply (gfMul e.map cold) i), s.elemIn b c sp rightR (gfApply cold i))
        match movesBad ms, s.readMoves b.core c o d.size ms with
        | some e, _ => .error (.fail e)
        | none, .error r => .error r
        | none, .ok vals => .ok ((List.range (2 ^ o.n)).map fun i => ((real.zip vals).find? fun v => v.1 == i).elim 0 fun v => ofLE v.2)
    match reads with
    | .error r => r
    | .ok held =>
      if p.level = 3 ∧ b.ownsLocal d.alt (d.size * 2 ^ o.n) = false then .fail Cause.viewbound
      else
        let out := ((List.range (2 ^ o.n)).filter fun l => d.part e.steps l == j).map fun l =>
          let i := gfApply inv l
          (l, toLE d.size (if d.ghost i then d.fill else held.getD i 0))
        let t := if p.level = 3 then s.stageOut b.core d out else s
        match movesBad (out.map fun e => (s.elemIn b c sp rightW e.1, s.elemIn b c sp rightW e.1)) with
        | some e => .fail e
        | none => .ok ((out.foldl (fun t v => t.writeElem b.core c o d.size (s.elemIn b c sp rightW v.1) v.2) t).setPlace { o with held })
  | _ => .ok s

/-- One step of a pass (R330). [DEDUCED: log 32] -/
def State.placeStep (s : State) (b : Block) (c : Ctx) (o : PlaceOp) (p : Pass) : StepResult :=
  if p.copy then s.copyStep b c o p
  else if p.inPlace then s.inPlaceStep b c o p
  else if p.level = 7 then s.deviceStep b c o p
  else
    let cold := o.matrixAt o.pass o.step
    let src := o.readSpan o.pass
    let (ms, fl) := s.stepMoves b c o.n cold (gfMul p.map cold) src (o.writeSpan o.pass) (chunkLocs s src.1 o.n (o.lead p) o.step)
    s.doMoves b.core c o src.1.size ms fl

/-- The exchange of base and alternate base in the descriptor of tD (R331). -/
def State.exchange (s : State) (o : PlaceOp) : State :=
  match s.group? o.block o.group with
  | none => s
  | some g =>
    let bs := s.tile g.home o.tD
    (s.putTile g.home o.tD 0x30 ((bs.drop 0x38).take 8)).putTile g.home o.tD 0x38 ((bs.drop 0x30).take 8)

/-- Sends what a member has refused once more (R344). [DESIGN CHOICE: log 33] -/
def State.sendAgain (s : State) (id : Nat) : State :=
  let mine : Request → Bool := fun r => r.id == id && r.refused
  { s with
    outbox := s.outbox ++ (s.requests.filter mine).map fun r => { r.packet with flags := r.packet.flags ||| 4#8 }
    requests := s.requests.map fun r : Request => if mine r then { r with refused := false } else r }

/-- A PLACE after a pass step: its cursor, what the members have told, and the exchange of its spans (R331, R332). -/
def State.afterStep (s : State) (o : PlaceOp) (p : Pass) : State :=
  let s := { s with fetched := s.fetched.filter fun x => x.id % 2 ^ 120 != o.id }
  let o : PlaceOp := (s.places.find? fun q => q.id == o.id).getD o
  let last := o.lastStep p
  let o' : PlaceOp := if last then { o with pass := o.pass + 1, step := 0, asked := false, arrived := 0, held := [], made := false }
    else { o with step := o.step + 1, made := false }
  let s := if last && (p.level == 7 || s.copyMeets o p) then s.dropNotes o (o.readSpan o.pass).1 else s
  let s := if last && p.out && o.copyAt != some true then s.exchange o else s
  ((s.setPlace o').putCursor o' (o'.cursor 1)).retarget o' false

/-- The moves of a step are made; it is counted when its stores to peers are performed (R333). -/
def State.stepMade (s : State) (id : Nat) : State :=
  { s with places := s.places.map fun o : PlaceOp => if o.id = id then { o with made := true } else o }

/-- The passes are done; with more than one device in the set, the members meet once more, so that the flag clears when the last pass is done
on every device (R229). [DESIGN CHOICE: log 33] -/
def State.finishPlace (s : State) (c : Ctx) (o : PlaceOp) : State :=
  let ended : State → State := fun t => ((t.endSpans o).retarget o true).retirePlace o (zeros 16)
  match o.setDesc with
  | none => ended s
  | some d => match s.meet c o d 0 2 with
    | .error (.wait t) => t
    | .error (.fail e) => s.failPlace o e
    | .error _ => s
    | .ok _ => ended (s.forgetNotes o)

/-- PLACE_PASS_STEP (R330 to R338): the next pass step of the `i`-th PLACE, or its end. A PLACE of a block that is saved waits for its
restore (R230, R333). [DESIGN CHOICE: log 16] -/
def execPlacePassStep (i : Nat) (s : State) : Host.Outcome State Fault Refusal :=
  match s.places[i]? with
  | none => conclude s
  | some o => match s.block? o.block, s.ctx? o.ctx with
    | some b, some c =>
      if s.blockCancelled o.block then conclude { s.forgetNotes o with places := eraseAt s.places i }
      else if o.park.isSome ∨ c.runs = false ∨ b.frozen ∨ s.unitsOff ∨ o.objs.any (fun x => s.vaultOff c x.2) then conclude s
      else if s.requests.any fun r => r.id == o.id && r.refused then conclude (s.sendAgain o.id)
      else match o.passes[o.pass]? with
        | none => if (s.core b.core).placeBusy o.id then conclude s else conclude (s.finishPlace c o)
        | some p => if o.made then (if (s.core b.core).placeBusy o.id then conclude s else conclude (s.afterStep o p)) else match s.placeStep b c o p with
          | .ok t => if (t.core b.core).placeBusy o.id then conclude (t.stepMade o.id) else conclude (t.afterStep o p)
          | .wait t => conclude t
          | .park w token why obj off => conclude (s.parkPlace b.core c o w token why obj off)
          | .fail e => conclude (s.failPlace o e)
          | .internal => conclude (s.faultCtxBare o.ctx reasonInternal)
    | _, _ =>
      if s.kept.any fun k => k.block.key == o.block then conclude s
      else conclude { s with places := eraseAt s.places i }

end Sys2Proof.Machine
end

