-- ==== Sys2Proof/Machine/Train.lean ====
section
/-! DEFINITION. The training instructions OPTAW, STATST, STATLD and LSCALE (R234 to R236), at issue and performed. -/

namespace Sys2Proof.Machine

/-! ### OPTAW (R234) -/

/-- The FP32 pattern of a number that `rn` has rounded. -/
def rnAdd (a b : Nat) : Nat := (fp32.add 0 false (fp32.read a) (fp32.read b)).1
def rnSub (a b : Nat) : Nat := (fp32.add 0 false (fp32.read a) (fp32.read b).neg).1
def rnMul (a b : Nat) : Nat := (fp32.mul 0 false (fp32.read a) (fp32.read b)).1
def rnFma (a b c : Nat) : Nat := (fp32.fma 0 false (fp32.read a) (fp32.read b) (fp32.read c)).1
def rnSqrt (a : Nat) : Nat := (fp32.sqrt 0 (fp32.read a)).1
def rnDiv (a b : Nat) : Nat := (fp32.div 0 (fp32.read a) (fp32.read b)).1

/-- One AdamW step: w1, m1 and v1; `k` holds β1, β2, lr, ε, λ, c1 and c2. -/
def adamw (w m v g : Nat) (k : Nat → Nat) : Nat × Nat × Nat :=
  let one := 0x3F800000
  let a1 := rnSub one (k 0)
  let a2 := rnSub one (k 1)
  let m1 := rnFma (k 0) m (rnMul a1 g)
  let v1 := rnFma (k 1) v (rnMul a2 (rnMul g g))
  let den := rnAdd (rnSqrt (rnMul v1 (k 6))) (k 3)
  let upd := rnDiv (rnMul m1 (k 5)) den
  (rnSub w (rnMul (k 2) (rnFma (k 4) w upd)), m1, v1)

/-- First uniform of OPTAW. -/
def uniNo : Operand → Nat
  | .uni n _ => n.toNat
  | _ => 0

/-- The pointer in a uniform pair. -/
def State.uniPtr (s : State) (th : Thread) (n : Nat) : BitVec 64 := BitVec.ofNat 64 ((s.ureg th n).toNat + 2 ^ 32 * (s.ureg th (n + 1)).toNat)

/-- Are some bytes of device memory resident and poisoned? [DEDUCED: log 53] -/
def State.memPoisoned (s : State) (c : Ctx) (obj off n : Nat) : Bool :=
  match s.homeRead c obj off n with
  | .ok _ _ ue => ue
  | .lost => true
  | _ => false

/-- Number under which the words that an OPTAW with TRAP_UE asks peers for before it issues are known: between those of instructions and of
units. -/
def optawId : Nat := 2 ^ 95

/-- The words of an OPTAW that lie at peers and have not been asked for, or not come; the state after asking for them (R234). [DEDUCED: log 53] -/
def State.optawAsks (s : State) (core : Nat) (c : Ctx) (l : List (Got × Nat)) : Option State :=
  let far := l.filterMap fun p => match s.translate c p.1.obj p.1.off 1 with
    | .peer d => if s.fetched.any fun x => x.id == optawId && x.obj == p.1.obj && x.off == p.1.off && (x.bytes.isEmpty || decide (p.2 ≤ x.bytes.length)) then none else some (p, d)
    | _ => none
  if far.isEmpty then none else some (far.foldl (fun t p => t.askPeer core c optawId p.1.1.obj p.2 p.1.1.off p.1.2) s)

/-- Is the launch of a block one whose header sets TRAP_UE (R115, R234)? -/
def State.trapsUe (s : State) (b : BlockKey) : Bool := ((s.launch? b.launch).map (·.header.flags.getLsbD 5)).getD false

/-- A predicate destination. -/
def predNo : Operand → Nat
  | .pred n _ => n.toNat
  | _ => 7

/-- OPTAW at issue: `args` hold the object and offset of w, m, v and g, the element index, the bytes of g, the seven
parameters, and whether another lane of the instruction names the element. [DESIGN CHOICE: log 18; DEDUCED: log 53] -/
def execOptaw (f : Insn) (s : State) : Host.Outcome State Fault Refusal :=
  issueWith (.optaw f) f (fun s x =>
    let n := uniNo f.opa
    let gb := if f.mod.getLsbD 0 then 2 else 4
    let idx : Thread → Nat := fun th => (s.src32 th f.opb).toNat
    let want : Thread → List Want := fun th => [0, 1, 2, 3].map fun i =>
      let b := if i = 3 then gb else 4
      { th, slot := 0, p := s.uniPtr th (n + 2 * i), d := (b * idx th : Nat), n := b, al := b, need := if i = 3 then rightR else rightR ||| rightW }
    match s.checkAll x (s.ctxOfExec x) (x.act.flatMap want), s.ctx? (s.ctxOfExec x) with
    | .trap t, _ => .trap t
    | .wait w, _ => .wait w
    | .ok _, none => .wait s
    | .ok gs, some c =>
      let lanes := x.act.map fun th => (th, gs.filter fun g => decide (g.th.tid = th.tid))
      let asks := if s.headerFlag x 5 then s.optawAsks x.ig.core c (lanes.flatMap fun p => p.2.zip [4, 4, 4, gb]) else none
      let bad := lanes.filter fun p => (p.2.zip [4, 4, 4, gb]).any fun q => s.memPoisoned c q.1.obj q.1.off q.2 || s.sentBad optawId q.1.obj q.1.off q.2
      if asks.isSome then .wait (asks.getD s)
      else if s.headerFlag x 5 && !bad.isEmpty then
        trapEach x Cause.memue (fun th => if bad.any fun b => decide (b.1.tid = th.tid) then BitVec.ofNat 32 (idx th) else 0) (bad.map (·.1.tid.lane))
      else .done (lanes.foldl (fun t p =>
        let th := p.1
        let at_ : List (Nat × Nat) := (p.2.take 3).map fun g => (g.obj, g.off)
        let twin := lanes.any fun q => decide (q.1.tid ≠ th.tid) && ((q.2.take 3).map fun g => (g.obj, g.off)) == at_
        let args := (p.2.flatMap fun g => [g.obj, g.off]) ++ [idx th, gb] ++ ((List.range 7).map fun i => (s.ureg th (n + 8 + i)).toNat) ++ [if twin then 1 else 0]
        let h := ((p.2.head?).map (·.handle)).getD 0
        let t : State := { t with fetched := t.fetched.filter fun y => y.id != optawId }
        t.issueAccess x.ig.core { id := 0, inst := x.inst, tid := th.tid, opc := 0xE0, mod := f.mod, reg := predNo f.opd, handle := h, others := p.2.tail.map (·.handle)
                                  obj := args.getD 0 0, off := args.getD 1 0, bytes := 4, flag := x.flag, pc := x.ig.pc, args }) s) .later false) s

/-- A predicate result under R211. -/
def State.putPredResult (s : State) (core : Nat) (a : Access) (v : Bool) : State :=
  if a.reg = 7 then s else s.putResult core (.pred a.tid a.reg) (if v then 1 else 0)

/-- A store that OPTAW makes for an object at a peer; `bs` is written at its home otherwise. -/
def State.optawStore (s : State) (core : Nat) (c : Ctx) (a : Access) (obj off v : Nat) : State :=
  match s.homeWrite c obj off 4 fun _ => some (toLE 4 v) with
  | .ok t _ _ => (t.rawWrite core c.num false obj off 4).updateLines core c.num obj off (toLE 4 v)
  | .peer _ =>
    let b : Access := { id := s.nextId, inst := a.inst, tid := a.tid, opc := 0xDC, mod := 0, obj, off, bytes := 4, data := BitVec.ofNat 128 v, pc := a.pc
                        atBlk := true, args := [a.id] }
    (s.modCore core fun k => { k with accs := k.accs ++ [b] }).fresh 1
  | _ => s

/-- The first of some pages that cannot be written now. -/
def State.writeBlocked (s : State) (c : Ctx) (l : List (Nat × Nat)) : Option (Bool × Nat × Nat) :=
  l.findSome? fun p => match s.homeWrite c p.1 p.2 4 fun bs => some bs with
    | .absent token why _ => some (token, why, p.2)
    | _ => none

/-- What a lane stores in w, m or v when another lane names the same element. [DESIGN CHOICE: log 18] -/
def optawFree (s : State) (a : Access) (i : Nat) : Nat := (Config.freeWord s.tick (4 * a.id + i)).toNat

/-- Performs one lane of OPTAW: it writes nothing before everything can be read and written. With TRAP_UE an error that is found only now is MEMUE
at the thread's next boundary. [DESIGN CHOICE: log 18; DEDUCED: log 53] -/
def State.performOptaw (s : State) (core : Nat) (c : Ctx) (a : Access) : State :=
  if a.args.isEmpty then (if (s.core core).placeBusy a.id then s else s.finishAccess core a)
  else if (s.core core).bufferAhead a then s
  else
    let arg : Nat → Nat := fun i => a.args.getD i 0
    let gb := arg 9
    let places := (List.range 4).map fun i => (arg (2 * i), arg (2 * i + 1), if i = 3 then gb else 4)
    let ue := places.any fun p => s.memPoisoned c p.1 p.2.1 p.2.2 || s.sentBad a.id p.1 p.2.1 p.2.2
    let reads := places.map fun p => s.engineRead core c a.id p.1 (readFuel 4) p.2.1 p.2.2
    match drawRows reads with
    | .part t _ => t
    | .absent token why obj off => s.refuseAccess core c { a with obj, off } token why off
    | .outside _ => s
    | .internal => s.faultCtxBare c.num reasonInternal
    | .full _ =>
      let clear : State → State := fun t => { t with fetched := t.fetched.filter fun x => x.id != a.id }
      if ue && s.trapsUe a.tid.block then
        (clear (s.modThread a.tid fun t => if t.alive && t.memue.isNone then { t with memue := some (BitVec.ofNat 32 (arg 8)) } else t)).finishAccess core a
      else if ue then
        let rec_ := mkRecord 0x22 core a.tid.group 0 0 0 (arg 8) a.tid.block.launch a.tid.block.index (threadIndex a.tid) a.tid.lane a.pc
        (clear (((s.errorRecord c.num rec_).putPredResult core a false))).finishAccess core a
      else match s.writeBlocked c ((places.take 3).map fun p => (p.1, p.2.1)) with
        | some (token, why, off) => s.refuseAccess core c { a with off } token why off
        | none =>
          let val : Nat → Nat := fun i => ofLE (((reads.getD i .internal).bytes?).getD [])
          let g := if gb = 2 then (fp32.convert 0 false (bf16.read (val 3))).1 else val 3
          let (w1, m1, v1) := if arg 17 = 1 then (optawFree s a 0, optawFree s a 1, optawFree s a 2)
            else adamw (val 0) (val 1) (val 2) g fun i => arg (10 + i)
          let s := ((s.optawStore core c a (arg 0) (arg 1) w1).optawStore core c a (arg 2) (arg 3) m1).optawStore core c a (arg 4) (arg 5) v1
          let s := clear (s.putPredResult core a true)
          if (s.core core).placeBusy a.id then s.setAccess core { a with args := [] } else s.finishAccess core a

/-! ### STATST and STATLD (R235) -/

/-- Displacement of a statistics entry. -/
def statOffset (v : Word) : Nat := 16 * (2 ^ 20 * (v.toNat / 2 ^ 20) + v.toNat % 2 ^ 20)
/-- The tag of an entry. -/
def State.statTag (s : State) (x : Exec) (v : Word) : Nat :=
  ((((s.launch? x.ig.launch).map (·.header.tagBase)).getD 0) + v.toNat / 2 ^ 20) % 2 ^ 16

/-- The access that a lane makes of its entry. -/
def State.wantStat (s : State) (x : Exec) (need : BitVec 4) (th : Thread) : Want :=
  { th, slot := 0, p := s.ptr th x.f.opa, d := (statOffset (s.src32 th x.f.opb) : Nat), n := 16, al := 16, need }

/-- STATST (R235). -/
def execStatst (f : Insn) (s : State) : Host.Outcome State Fault Refusal :=
  issueWith (.statst f) f (fun s x =>
    match s.checkAll x (s.ctxOfExec x) (x.act.map (s.wantStat x rightW)) with
    | .trap t => .trap t
    | .wait w => .wait w
    | .ok gs =>
      let as := gs.map fun g =>
        let r := s.regNo g.th f.opd
        let v := ((List.range 3).map fun i => (s.vreg g.th (r + i)).toNat * 2 ^ (32 * i)).sum + (2 ^ 31 + s.statTag x (s.src32 g.th f.opb)) * 2 ^ 96
        { x.access 0xE1 0 g 16 with data := BitVec.ofNat 128 v }
      if as.any fun a => s.loadAhead x.ig.core a.tid a then .wait s
      else .done (as.foldl (fun t a => t.issueAccess x.ig.core a) s) .later false) s

/-- STATLD (R235): the expected tag is kept with the access. -/
def execStatld (f : Insn) (s : State) : Host.Outcome State Fault Refusal :=
  issueWith (.statld f) f (fun s x =>
    match s.checkAll x (s.ctxOfExec x) (x.act.map (s.wantStat x rightR)) with
    | .trap t => .trap t
    | .wait w => .wait w
    | .ok gs =>
      .done (gs.foldl (fun t g =>
        (t.issueAccess x.ig.core { x.access 0xE2 0 g 16 with reg := s.regNo g.th f.opd, args := [s.statTag x (s.src32 g.th f.opb)] }).promote g.th.tid
          (Forms.scope f.mod) g.obj g.off) s) .later false) s

/-- The entry read reaches its run of registers (R211, R235). -/
def State.deliverStat (s : State) (core : Nat) (a : Access) (v : Nat) (ue : Bool) : State :=
  let s := if ue then s.loadError a else s
  let tag := v / 2 ^ 96
  let ok := tag.testBit 31 && tag % 2 ^ 16 == a.args.headD 0
  let ws : List Word := if ue then [0, 0, 0, 0]
    else if ok then sizeWords 6 v else [0x7FC00000, 0x7FC00000, 0x7FC00000, BitVec.ofNat 32 tag]
  let s := match s.thread? a.tid with
    | some th => (List.range 4).foldl (fun (s : State) i => s.putResult core (.vec th.home (a.reg + i) a.tid.lane) (ws.getD i 0)) s
    | none => s
  s.finishAccess core a

/-- Entries of the statistics buffer: 64 KiB of 16 bytes. -/
def statEntries : Nat := 4096

/-- Performs STATLD: from the statistics buffer at block scope or narrower, else from the entry's home. [DESIGN CHOICE: log 22] -/
def State.performStatld (s : State) (core : Nat) (c : Ctx) (a : Access) : State :=
  let narrow := decide (a.scope ≤ 2)
  let hit := if narrow && Config.lineHit s.tick then (s.core core).stats.find? fun l => l.holds c.num a.obj a.off && !l.stale else none
  match hit with
  | some l => s.deliverStat core a (ofLE l.bytes) false
  | none => if !narrow && (s.core core).bufferAhead a then s else match s.homeRead c a.obj a.off 16 with
    | .ok s1 old ue =>
      let bs := if narrow then (s.core core).overlay a.obj a.off old else old
      let s2 := if ue then s1 else s1.modCore core fun k =>
        { k with stats := ⟨c.num, a.obj, a.off, bs, false⟩ :: (k.stats.filter fun x => !(x.holds c.num a.obj a.off)).take (statEntries - 1) }
      s2.deliverStat core a (ofLE (s.maskMoved core c.num false a.obj a.off bs)) ue
    | .lost => s.deliverStat core a 0 true
    | .peer d => if narrow ∧ ((s.core core).buffered a.obj).any (a.overlaps ·) then s else s.sendAccess core c a d
    | h => s.unperformed core c a h

/-! ### LSCALE (R236) -/

/-- LSCALE at issue: `data` holds the predicate. -/
def execLscale (f : Insn) (s : State) : Host.Outcome State Fault Refusal :=
  issueWith (.lscale f) f (fun s x =>
    match s.checkAll x (s.ctxOfExec x) (x.act.map fun th =>
        ({ th, slot := 0, p := s.ptr th f.opa, n := 16, al := 16, need := rightR ||| rightW ||| rightA } : Want)) with
    | .trap t => .trap t
    | .wait w => .wait w
    | .ok gs =>
      .done (gs.foldl (fun t g => t.issueAccess x.ig.core
        { x.access 0xE3 0 g 16 with reg := predNo f.opd, data := BitVec.ofNat 128 (s.src g.th f.opb 1) }) s) .later false) s

/-- What LSCALE makes of a state word. -/
structure LscaleResult where
  /-- The new bytes; none for an invalid state. -/
  new  : Option (List Byte)
  skip : Bool
  /-- A LOSSFLOOR record is due. -/
  floor : Bool
  deriving DecidableEq, Repr

/-- The FP32 pattern of 2^e, e from −126 to 127. -/
def pow2Bits (e : Int) : Nat := (e + 127).toNat * 2 ^ 23

/-- LSCALE on the 16 bytes of a state word. -/
def lscaleStep (bs : List Byte) (ov : Bool) : LscaleResult :=
  let scale := field bs 0 4
  let run := field bs 4 2
  let interval := field bs 6 2
  let fl := sext 8 (field bs 8 1)
  let ce := sext 8 (field bs 9 1)
  let total := field bs 10 2
  let cons := field bs 12 1
  let lo := pow2Bits fl
  let hi := pow2Bits ce
  let make : Nat → Nat → Nat → Nat → List Byte := fun sc r t k =>
    toLE 4 sc ++ toLE 2 r ++ (bs.drop 6).take 4 ++ toLE 2 t ++ toLE 1 k ++ zeros 3
  if interval = 0 ∨ fl < -126 ∨ 127 < fl ∨ ce < fl ∨ 127 < ce ∨ 7 < cons ∨ field bs 13 3 ≠ 0 ∨ scale < lo ∨ hi < scale ∨ 2 ^ 31 ≤ scale then ⟨none, true, false⟩
  else if ov then
    if scale ≤ lo then
      let k := cons + 1
      ⟨some (make scale 0 (min (total + 1) 65535) (if k = 8 then 0 else k)), true, k == 8⟩
    else ⟨some (make (max (rnMul scale 0x3F000000) lo) 0 total 0), true, false⟩
  else if interval ≤ run + 1 then ⟨some (make (min (rnMul scale 0x40000000) hi) 0 total 0), false, false⟩
  else ⟨some (make scale (run + 1) total 0), false, false⟩

/-- The effects of a result on the lane (R236). -/
def State.finishLscale (s : State) (core : Nat) (c : Ctx) (a : Access) (bad floor skip : Bool) : State :=
  let s := if floor then s.errorRecord c.num (s.threadRecord 0x23 0 0 a.obj a.off a.tid 0 a.pc) else s
  let s := (s.putPredResult core a skip).finishAccess core a
  if bad then s.deferTrap a.tid.block a.tid.group Cause.badfmt 0 else s

/-- LSCALE reads a word with an uncorrectable error: nothing is written there, and the predicate receives 0 (R188). -/
def State.lscaleError (s : State) (core : Nat) (a : Access) : State := ((s.loadError a).putPredResult core a false).finishAccess core a

/-- Performs LSCALE at its home in one step, after the stores that the core's buffer holds to its bytes. On a POISONED page it is discarded
with a record, and its predicate is a free value (R350). [DESIGN CHOICE: log 82] -/
def State.performLscale (s : State) (core : Nat) (c : Ctx) (a : Access) : State :=
  let ov := a.data.getLsbD 0
  if (s.core core).bufferAhead a then s
  else match s.homeRead c a.obj a.off 16 with
  | .ok s1 _ true => s1.lscaleError core a
  | .ok _ old false =>
    let r := lscaleStep old ov
    match s.homeWrite c a.obj a.off 16 fun _ => r.new with
    | .ok s1 _ _ => (((s1.rawWrite core c.num false a.obj a.off 16).updateLines core c.num a.obj a.off (r.new.getD old))).finishLscale core c a r.new.isNone r.floor r.skip
    | h => s.unperformed core c a h
  | .lost => ((s.memueRecord a.obj a.off a.tid a.pc).putPredResult core a (decide (s.freeValue a % 2 = 1))).finishAccess core a
  | h => s.unperformed core c a h

end Sys2Proof.Machine
end

