-- ==== Sys2Proof/Machine/Copy.lean ====
section
/-! DEFINITION. The request engine and chains (R237 to R239), LDGL's copies (R189), and the prologue (R266, R267). -/

namespace Sys2Proof.Machine

/-! ### Copy requests (R237) -/

/-- The fields of a copy request. -/
structure CopyReq where
  src    : Nat
  dst    : Nat
  bytes  : Nat
  skind  : Nat
  dkind  : Nat
  trans  : Nat
  rows   : Nat
  round  : Nat
  sat    : Bool
  bar    : Option Nat
  spitch : Nat
  dpitch : Nat
  deriving DecidableEq, Repr

def copyReq (bs : List Byte) : CopyReq :=
  let c := field bs 0x13 1
  let r := field bs 0x16 1
  let b := field bs 0x17 1
  { src := field bs 0 8, dst := field bs 8 8, bytes := field bs 0x10 3, skind := c % 4, dkind := c / 4 % 4, trans := c / 16 % 4
    rows := field bs 0x14 2, round := r % 8, sat := r.testBit 3, bar := if b.testBit 4 then some (b % 16) else none
    spitch := 16 * field bs 0x18 3, dpitch := 16 * field bs 0x1B 3 }

/-- Do the bytes break the layout of R237? -/
def badCopy (bs : List Byte) : Bool :=
  let q := copyReq bs
  q.skind == 3 || q.dkind == 3 || field bs 0x13 1 / 64 != 0 || q.bytes == 0 || q.rows == 0 || decide (4 < q.round)
    || field bs 0x16 1 / 16 != 0 || field bs 0x17 1 / 32 != 0 || field bs 0x1E 2 != 0 || (q.trans == 1 && q.rows != 1)
    || (q.trans == 3 && q.bytes % 2 != 0)

/-- Bytes written for a row of the request, where the request alone says it. -/
def CopyReq.outBytes (q : CopyReq) : Option Nat :=
  match q.trans with
  | 0 => some q.bytes
  | 1 => none
  | 2 => some (2 * q.bytes)
  | _ => some (q.bytes / 2)

/-- Is a packed image malformed (R40, R41), when its reader was given `n` bytes? [DEDUCED: log 88] -/
def badImage (n : Nat) (bs : List Byte) : Bool :=
  let size := field bs 4 1
  let count := field bs 8 4
  let chunks := field bs 0x10 4
  let table := field bs 0x14 4
  let start := 0x40 + (4 * table + 15) / 16 * 16
  field bs 0 4 != 0x34364D5A || (size != 1 && size != 2) || field bs 5 1 != 1 || field bs 6 2 != 0 || count == 0 || field bs 0xC 4 != n
    || bs.length != n || chunks != (count + 63) / 64 || table != (chunks + 63) / 64 || field bs 0x18 4 != crc32c (bs.drop 0x40)
    || !allZero ((bs.drop 0x1C).take 32) || !crcOk bs 0x3C || !allZero (((bs.take start).drop (0x40 + 4 * table)))
    || (let ends := chunkStarts size bs chunks start
        ends.getLast? != some n
          || ((List.range table).any fun t => field bs (0x40 + 4 * t) 4 != ends.getD (64 * t) 0)
          || (count % 64 != 0 && decide (2 ^ (count % 64) ≤ field bs (ends.getD (chunks - 1) 0) 8)))
where
  /-- Where each of `k` chunks from a position begins, and where the last ends. -/
  chunkStarts (size : Nat) (bs : List Byte) : Nat → Nat → List Nat
    | 0, pos => [pos]
    | k + 1, pos => pos :: chunkStarts size bs k (pos + chunkLen size (field bs pos 8))

/-- The elements of an image that is not malformed. -/
def expandImage (bs : List Byte) : List Byte :=
  let size := field bs 4 1
  let start := 0x40 + (4 * field bs 0x14 4 + 15) / 16 * 16
  (expandChunks size (field bs 0x10 4) (bs.drop start)).take (field bs 8 4 * size)

/-- A transform of R237 other than ZM64 expand, on whole elements. -/
def transformBytes (trans round : Nat) (sat : Bool) (bs : List Byte) : List Byte :=
  match trans with
  | 2 => bs.flatMap fun b => toLE 2 (bf16.convert 0 false (f8.read b.toNat)).1
  | 3 => (elems 2 bs).flatMap fun v => toLE 1 (f8.convert round sat (bf16.read v)).1
  | _ => bs

/-! ### Ends of a request -/

/-- A resolved end: an object and offset, a cluster-space address, or a FIFO. -/
inductive CopyEnd where
  | dev (obj off : Nat)
  | loc (a : Nat)
  | fifo (k : Nat)
  deriving DecidableEq, Repr

/-- An end of a request; `obj` is the object that the check of the end found. [DEDUCED: log 36] -/
def copyEnd (obj kind v : Nat) : CopyEnd :=
  match kind with
  | 0 => .dev obj (ptrOffset (BitVec.ofNat 64 v))
  | 1 => .loc (v % 2 ^ 23)
  | _ => .fifo (v % 8)

/-- The source and the destination of the request in progress, before the first row. -/
def Batch.src (b : Batch) : CopyEnd := copyEnd b.objects.1 (copyReq b.cur).skind (copyReq b.cur).src
def Batch.dst (b : Batch) : CopyEnd := copyEnd b.objects.2 (copyReq b.cur).dkind (copyReq b.cur).dst

def CopyEnd.shift (e : CopyEnd) (n : Nat) : CopyEnd :=
  match e with
  | .dev o off => .dev o (off + n)
  | .loc a => .loc (a + n)
  | .fifo k => .fifo k

/-- Address of an end, by which 4 KiB boundaries are found. -/
def CopyEnd.addr : CopyEnd → Nat
  | .dev _ off => off
  | .loc a => a
  | .fifo _ => 0

/-- Where the bytes of an end lie, where they can be reached. -/
def State.endPlace (s : State) (core : Nat) (c : Ctx) (e : CopyEnd) : Option PAddr :=
  match e with
  | .dev o off => match s.translate c o off 1 with
    | .at_ p _ => some p
    | _ => none
  | .loc a => some (localAt core a)
  | .fifo _ => none

/-- The view of a pointer in a request. -/
def State.endView (s : State) (core : Nat) (c : Ctx) (p : BitVec 64) : CachedView :=
  if ptrIndex p = 0 ∨ c.viewEntries ≤ ptrIndex p then noView c.num 0
  else (s.cachedView core c.num (ptrIndex p)).getD (s.copyFor core ((s.viewEntry c (ptrIndex p)).cached c.num (ptrIndex p)))

/-- The check of one end of a request whose rows are `n` bytes (R177, R178, R237). [DEDUCED: log 31] -/
def State.checkEnd (s : State) (core : Nat) (b : Block) (c : Ctx) (q : CopyReq) (src : Bool) (n : Nat) : Option (BitVec 6) :=
  let kind := if src then q.skind else q.dkind
  let v := if src then q.src else q.dst
  let pitch := if src then q.spitch else q.dpitch
  match kind with
  | 0 =>
    let p := BitVec.ofNat 64 v
    match checkView (s.endView core c p) p 0 ((q.rows - 1) * pitch + n) 1 (if src then rightR else rightW) with
    | .error e => some e
    | .ok _ => none
  | 1 => if (List.range q.rows).all fun k => s.gangLocal b (v % 2 ^ 23 + k * pitch) n then none else some Cause.viewbound
  | _ => if (s.core core).bound b.key (v % 8) src 0 then none else some Cause.fifoerr

/-! ### Reading and writing -/

/-- Reads `n` bytes from `off` on in the row that starts at `e`. -/
def State.readEnd (s : State) (core : Nat) (c : Ctx) (id : Nat) (e : CopyEnd) (buf : List Byte) (off n : Nat) : Draw × State :=
  match e with
  | .dev o base => (s.engineRead core c id o (readFuel n) (base + off) n, s)
  | .loc a => (if s.owed core id true 0 (a + off) n then .part s [] else .full (s.fetchLocal core (a + off) n), s)
  | .fifo k => s.drawFifo core k buf fun _ => n

/-- Does a byte that the operation `id` has read from an end carry an uncorrectable error (R188, R350)? -/
def State.sourceBad (s : State) (core : Nat) (c : Ctx) (id : Nat) (e : CopyEnd) : Bool :=
  match e with
  | .dev o off => match s.translate c o off 1 with
    | .at_ p _ => s.poisoned p 1
    | .poisoned _ => true
    | .peer _ => s.sentBad id o off 1
    | _ => false
  | .loc a => s.poisoned (localAt core a) 1
  | .fifo _ => false

/-- Passes poison on from the source bytes of a plain copy (R189, R350). [DESIGN CHOICE: log 23] -/
def State.copyPoison (s : State) (core : Nat) (c : Ctx) (id : Nat) (src dst : CopyEnd) (n : Nat) : State :=
  (List.range n).foldl (fun (t : State) i => match t.endPlace core c (dst.shift i) with
    | some d => if s.sourceBad core c id (src.shift i) then t.addPoison d 1 else t
    | none => t) s

/-- Bytes written by an engine as 16-byte stores to a peer. -/
def State.peerStores (s : State) (core : Nat) (b : Batch) (obj : Nat) : Nat → List (List Byte) → State
  | _, [] => s
  | off, p :: ps =>
    let a : Access := { id := s.nextId, inst := b.id, tid := ⟨b.block, b.group, 0⟩, opc := 0xA1, mod := 6, obj, off, bytes := p.length
                        data := BitVec.ofNat 128 (ofLE p), pc := b.pc, atBlk := true, part := some (0xE400#16, b.flag), args := [b.id] }
    ((s.modCore core fun x => { x with accs := x.accs ++ [a] }).fresh 1).peerStores core b obj (off + p.length) ps

/-! ### Batches (R238) -/

def State.setBatch (s : State) (core : Nat) (b : Batch) : State :=
  s.modCore core fun c => { c with batches := c.batches.map fun x => if x.id = b.id then b else x }

/-- Removes a batch, its range and what a peer has sent for it. -/
def State.dropBatch (s : State) (core id : Nat) : State :=
  { s.modCore core (fun c => { c with batches := c.batches.filter (fun x => x.id != id), ranges := c.ranges.filter fun r => r.op != id }) with
    fetched := s.fetched.filter fun x => x.id != id }

/-- The end of a batch: its flag clears, and the counts that failed trap (R290). [DEDUCED: log 47] -/
def State.endBatch (s : State) (core : Nat) (b : Batch) : State :=
  b.overrun.foldl (fun (t : State) a => t.deferTrap b.block b.group Cause.barerr (BitVec.ofNat 32 a))
    ((s.dropBatch core b.id).complete b.lanes b.flag)

/-- A request fails a check: it and every later one are not performed. -/
def State.failBatch (s : State) (core : Nat) (b : Batch) (c : BitVec 6) : State :=
  (s.endBatch core b).deferTrap b.block b.group c (BitVec.ofNat 32 b.next)

/-- A request is complete; its range is released. -/
def State.endRequest (s : State) (core : Nat) (b : Batch) : State :=
  let s := if b.again then s else s.modCore core fun c => { c with ranges := c.ranges.filter fun r => r.op != b.id }
  s.setBatch core { b with next := if b.again then b.next else b.next + 1, again := false, row := 0, part := 0, cur := [], len := none
                           buf := [], sent := 0, atEdge := true, handles := [], held := b.again && b.held }

/-- The request meets bytes that cannot be reached now: one record, and a wait-table entry of kind 4. -/
def State.parkBatch (s : State) (core : Nat) (b : Batch) (wr token : Bool) (why obj off : Nat) : State :=
  match s.ctx? b.ctx with
  | none => s
  | some c =>
    if waitTableSize ≤ (s.core core).waits.length then s
    else
      let (s, k) := s.noteFault core c token obj off fun t =>
        mkRecord 3 core b.group ((if wr then 0xA0 else 0x20) + why) t obj off b.block.launch b.block.index 0xFFFF b.next b.pc
      let a : Access := { id := b.id, inst := b.id, tid := ⟨b.block, b.group, 0⟩, opc := 0xE4, mod := 0, obj, off, reg := b.next
                          flag := b.flag, pc := b.pc }
      let e : Entry := { kind := 4, key := k, acc := a, engine := true, op := b.id }
      (s.modCore core fun x => { x with waits := x.waits ++ [e] }).setBatch core { b with park := some k }

/-- Does an earlier batch still have a request naming the FIFO at the same end (R239)? -/
def State.fifoBefore (s : State) (core : Nat) (b : Batch) (k : Nat) (src : Bool) : Bool :=
  ((s.core core).batches.takeWhile fun x => x.id != b.id).any fun x =>
    (List.range x.count).any fun i => decide (x.next ≤ i) &&
      (let q := copyReq (s.bytes (localAt core (x.addr + 32 * i)) 32)
       if src then q.skind == 2 && q.src % 8 == k else q.dkind == 2 && q.dst % 8 == k)

/-- Takes the range of a local destination, unless a restore has taken it; false while the scoreboard is full. -/
def State.takeRange (s : State) (core : Nat) (b : Batch) (q : CopyReq) (n : Nat) : State × Bool :=
  if q.dkind ≠ 1 ∨ b.held then (s, true)
  else if 32 ≤ (s.core core).ranges.length then (s, false)
  else
    let lo := q.dst % 2 ^ 23
    (s.modCore core fun c => { c with ranges := c.ranges ++ [⟨lo, lo + (q.rows - 1) * q.dpitch + n, b.id⟩] }, true)

/-- The first check that the request at `next` fails. -/
def State.copyFails (s : State) (core : Nat) (k : Block) (c : Ctx) (bs : List Byte) : Option (BitVec 6) :=
  let q := copyReq bs
  if badCopy bs then some Cause.badfmt
  else match s.checkEnd core k c q true q.bytes with
    | some e => some e
    | none => match q.outBytes.bind (s.checkEnd core k c q false) with
      | some e => some e
      | none => match q.bar with
        | some i => if k.barriers.any fun x => x.1 == i then none else some Cause.barerr
        | none => none

/-- Starts the request at `next`. [DESIGN CHOICE: log 35] -/
def State.beginRequest (s : State) (core : Nat) (k : Block) (c : Ctx) (b : Batch) : State :=
  let bs := s.bytes (localAt core (b.addr + 32 * b.next)) 32
  match s.copyFails core k c bs with
  | some e => s.failBatch core b e
  | none =>
    let q := copyReq bs
    let obj : Nat → Nat := fun v => (s.endView core c (BitVec.ofNat 64 v)).obj
    let b := { b with objects := (obj q.src, obj q.dst) }
    let hs := (if q.skind = 0 then [ptrIndex (BitVec.ofNat 64 q.src)] else []) ++ (if q.dkind = 0 then [ptrIndex (BitVec.ofNat 64 q.dst)] else [])
    match q.outBytes with
    | none => s.setBatch core { b with cur := bs, handles := hs }
    | some n =>
      let (t, ok) := s.takeRange core b q n
      if ok then t.setBatch core { b with cur := bs, len := some n, handles := hs } else s

/-- After `n` more bytes of the row have been written: the bytes are counted, and the request moves on. -/
def State.copied (s : State) (core : Nat) (k : Block) (b : Batch) (q : CopyReq) (dst : CopyEnd) (len n : Nat) : State :=
  let bar := q.bar.bind fun i => (k.barriers.find? fun x => x.1 == i).map (·.2)
  let (s, b) := match bar with
    | some a => match s.countBytes core a n with
      | (t, true) => (t, b)
      | (t, false) => (t, { b with overrun := if b.overrun.contains a then b.overrun else b.overrun ++ [a] })
    | none => (s, b)
  let part := b.part + n
  if part < len then s.setBatch core { b with part, sent := 0, atEdge := (dst.addr + part) % 4096 == 0 }
  else if b.row + 1 < q.rows then
    s.setBatch core { b with row := b.row + 1, part := 0, sent := 0, buf := []
                             atEdge := (dst.addr + len + 4095) / 4096 * 4096 ≤ dst.addr + q.dpitch || (dst.addr + len) % 4096 == 0 }
  else s.endRequest core b

/-- Source bytes that `n` bytes from `q` on in an output row are made of: the first, and one past the last. -/
def CopyReq.window (r : CopyReq) (q n : Nat) : Nat × Nat :=
  match r.trans with
  | 1 => (0, r.bytes)
  | 2 => (q / 2, (q + n + 1) / 2)
  | 3 => (2 * q, 2 * (q + n))
  | _ => (q, q + n)

/-- What those source bytes become: the `n` output bytes from `q` on. -/
def CopyReq.output (r : CopyReq) (q n : Nat) (bs : List Byte) : List Byte :=
  match r.trans with
  | 1 => ((expandImage bs).drop q).take n
  | 2 => ((transformBytes 2 0 false bs).drop (q % 2)).take n
  | _ => transformBytes r.trans r.round r.sat bs

/-- Writes the next bytes of the row at its destination. -/
def State.writePiece (s : State) (core : Nat) (k : Block) (c : Ctx) (b : Batch) (q : CopyReq) (src dst : CopyEnd) (len : Nat) (bs : List Byte) : State :=
  let n := bs.length
  match dst with
  | .fifo f => (s.fifoPush core f bs).copied core k b q dst len n
  | .loc a =>
    if s.owed core b.id true 0 (a + b.part) n then s
    else
      let t := (s.rawWrite core 0 true 0 (a + b.part) n).engineStores core (a + b.part) bs
      let t := if q.trans = 0 then t.copyPoison core c b.id (src.shift b.part) (dst.shift b.part) n else t
      t.copied core k b q dst len n
  | .dev o off => match s.sideBefore core b.id o (off + b.part) n, s.owed core b.id false o (off + b.part) n with
    | some (token, a), _ => s.parkBatch core b true token (s.whyAt c o a) o a
    | none, true => s
    | none, false => if s.vaultOff c o then s else match s.homeWrite c o (off + b.part) n fun _ => some bs with
    | .ok t _ _ =>
      let t := if q.trans = 0 then t.copyPoison core c b.id (src.shift b.part) (dst.shift b.part) n else t
      ((t.rawWrite core c.num false o (off + b.part) n).updateLines core c.num o (off + b.part) bs).copied core k b q dst len n
    | .lost => (s.memueRecord o (off + b.part) ⟨b.block, b.group, 0⟩ b.pc).copied core k b q dst len n
    | .absent token why _ => s.parkBatch core b true token why o (off + b.part)
    | .peer _ => (s.peerStores core b o (off + b.part) (runsOf 16 n bs)).setBatch core { b with sent := n }
    | .bad => s.faultCtxBare c.num reasonInternal

/-- Do the source and the destination of a request have a byte in common, rows of `len` bytes being written? [DESIGN CHOICE: log 17] -/
def Batch.overlaps (b : Batch) (len : Nat) : Bool :=
  let q := copyReq b.cur
  let meet : Nat → Nat → Bool := fun x y =>
    decide (x < y + (q.rows - 1) * q.dpitch + len) && decide (y < x + (q.rows - 1) * q.spitch + q.bytes) &&
      ((List.range q.rows).any fun i => (List.range q.rows).any fun j =>
        decide (x + i * q.spitch < y + j * q.dpitch + len) && decide (y + j * q.dpitch < x + i * q.spitch + q.bytes))
  match b.src, b.dst with
  | .loc x, .loc y => meet x y
  | .dev o x, .dev p y => o == p && meet x y
  | _, _ => false

/-- Does a copy read bytes of a tensor that a PLACE is moving, `n` of them from an end on (R230)? [DESIGN CHOICE: log 15] -/
def State.copyMoving (s : State) (core ctx : Nat) (src : CopyEnd) (n : Nat) : Bool :=
  match src with
  | .dev o off => s.places.any (s.movesBytes core ctx false o off n)
  | .loc a => s.places.any (s.movesBytes core ctx true 0 a n)
  | .fifo _ => false

/-- Free bytes of a batch. [DESIGN CHOICE: log 17] -/
def freeBytes (tick : Nat) (b : Batch) (n : Nat) : List Byte := (List.range n).map fun i => (Config.freeWord tick (b.part + i)).setWidth 8

/-- Has the batch its turn at the FIFOs that its request names (R239)? -/
def State.fifoTurn (s : State) (core : Nat) (b : Batch) : Bool :=
  !((match b.src with
    | .fifo f => s.fifoBefore core b f true
    | _ => false) || (match b.dst with
    | .fifo f => s.fifoBefore core b f false
    | _ => false))

/-- Does the request in progress wait for bytes or for room of a FIFO, or for its turn there? Such a wait can last for ever (R239), so
pre-emption stops the batch there. [DESIGN CHOICE: log 38] -/
def State.fifoWaits (s : State) (core : Nat) (b : Batch) : Bool :=
  let q := copyReq b.cur
  let full : Bool := match b.dst with
    | .fifo f => decide (fifoBytes ≤ ((s.core core).fifo f).bytes.length)
    | _ => false
  let short : Bool := match b.src with
    | .fifo f =>
      let room := match b.dst with
        | .fifo g => fifoBytes - ((s.core core).fifo g).bytes.length
        | e => 4096 - (e.addr + b.part) % 4096
      let w := match b.len with
        | none => q.window 0 0
        | some len => q.window b.part (min (len - b.part) room)
      decide (b.buf.length + ((s.core core).fifo f).bytes.length < w.2 - w.1)
    | _ => false
  !b.cur.isEmpty && (full || short || !s.fifoTurn core b)

/-- Copies up to the next 4 KiB boundary of the destination within the row. Where source and destination overlap, the
destination takes free bytes (R237), and so where the source is moving (R230). [DESIGN CHOICE: log 17, 35] -/
def State.copyPiece (s : State) (core : Nat) (k : Block) (c : Ctx) (b : Batch) : State :=
  let q := copyReq b.cur
  let src := b.src.shift (b.row * q.spitch)
  let dst := b.dst.shift (b.row * q.dpitch)
  if s.fifoTurn core b = false then s
  else
    let read : Nat × Nat → Draw × State := fun w => s.readEnd core c b.id src b.buf w.1 (w.2 - w.1)
    let refuse : State → Draw → State := fun t d => match d with
      | .absent token why obj off => t.parkBatch core b false token why obj off
      | .part u bs => match src with
        | .fifo _ => t.setBatch core { b with buf := bs }
        | _ => u
      | .internal => t.faultCtxBare c.num reasonInternal
      | _ => t
    match b.len with
    | none => match read (q.window 0 0) with
      | (.full bs, t) =>
        if badImage q.bytes bs then t.failBatch core b Cause.badfmt
        else
          let n := field bs 8 4 * field bs 4 1
          match t.checkEnd core k c q false n with
          | some e => t.failBatch core b e
          | none => match t.takeRange core b q n with
            | (u, true) => u.setBatch core { b with len := some n, buf := bs }
            | (u, false) => u.setBatch core { b with buf := bs }
      | (d, t) => refuse t d
    | some len =>
      let room := match dst with
        | .fifo f => fifoBytes - ((s.core core).fifo f).bytes.length
        | e => 4096 - (e.addr + b.part) % 4096
      let n := min (len - b.part) room
      if n = 0 then s
      else
        let w := q.window b.part n
        match read w with
        | (.full bs, t) =>
          let keep := if q.trans = 1 then bs else bs.drop ((q.window (b.part + n) 0).1 - w.1)
          if q.trans = 1 ∧ badImage q.bytes bs then t.failBatch core b Cause.badfmt
          else
            let b := match src with
              | .fifo _ => { b with buf := keep }
              | _ => b
            let out := q.output b.part n bs
            t.writePiece core k c b q src dst len (if b.overlaps len || s.copyMoving core c.num (src.shift w.1) (w.2 - w.1) then freeBytes s.tick b out.length else out)
        | (d, t) => refuse t d

/-- Stores of a batch at a peer that are not performed. -/
def Core.batchBusy (c : Core) (id : Nat) : Bool := c.outstanding.any fun a => a.opc == 0xA1 && a.args == [id]

/-- May a batch go on: its context runs, or the request in progress goes on to the boundary at which a save stops it (R238, R246, R248)? -/
def Batch.goesOn (b : Batch) (c : Ctx) (k : Block) : Bool :=
  if c.runs && !k.frozen then true else (c.state == .running || c.state == .preempting) && !b.atEdge

/-- COPY_REQUEST (R237, R238): the `i`-th batch of a core starts its next request, or copies up to the next boundary. [DESIGN CHOICE: log 35] -/
def execCopyRequest (core i : Nat) (s : State) : Host.Outcome State Fault Refusal :=
  match (s.core core).batches[i]? with
  | none => conclude s
  | some b => match s.block? b.block, s.ctx? b.ctx with
    | some k, some c =>
      if s.blockCancelled b.block then conclude (s.dropBatch core b.id)
      else if b.park.isSome || !b.goesOn c k || (s.core core).batchBusy b.id then conclude s
      else if 0 < b.sent then
        conclude (s.copied core k b (copyReq b.cur) (b.dst.shift (b.row * (copyReq b.cur).dpitch)) (b.len.getD 0) b.sent)
      else if b.cur ≠ [] then conclude (s.copyPiece core k c b)
      else if b.count ≤ b.next then conclude (s.endBatch core b)
      else conclude (s.beginRequest core k c b)
    | _, _ => conclude (s.dropBatch core b.id)

/-- CPKICK (R238). [DEDUCED: log 36] -/
def execCpkick (f : Insn) (s : State) : Host.Outcome State Fault Refusal :=
  issueWith (.cpkick f) f (fun s x => match x.act with
    | [] => .done s .atIssue false
    | th :: _ =>
      let w := s.src th f.opa 2
      let a : Nat := w % 2 ^ 23
      let n : Nat := w / 2 ^ 32
      if a % 32 = 0 ∧ (n = 0 ∨ 256 < n) then trapAll x Cause.illop 0
      else match s.localTrap x [({ th, slot := 0, a := (a : Int), n := 32 * n, al := 32, own := false } : WantLocal)] with
        | some t => .trap t
        | none =>
          if s.engineWait x.ig.core (x.act.map (·.tid)) then .wait s
          else
            let b : Batch := { id := x.inst, block := th.tid.block, group := th.tid.group, ctx := s.ctxOfExec x, lanes := x.act.map (·.tid)
                               flag := x.flag, addr := a, count := n, pc := x.ig.pc }
            .done (s.modCore x.ig.core fun c => { c with batches := c.batches ++ [b] }) .later false) s

/-! ### Chains (R239) -/

/-- Has a queued operation or an unfinished batch of the core a command that names the FIFO? -/
def State.fifoPending (s : State) (core k : Nat) : Bool :=
  let names : Span → Bool := fun sp => sp == .fifo k
  ((s.core core).engine.any fun o => match o.kind with
    | .mma _ _ _ _ _ a w => names a || names w
    | .accdr _ _ _ _ _ _ _ _ d _ => names d
    | _ => false)
  || (s.core core).batches.any fun b => (List.range b.count).any fun i => decide (b.next ≤ i) &&
      (let q := copyReq (s.bytes (localAt core (b.addr + 32 * i)) 32)
       (q.skind == 2 && q.src % 8 == k) || (q.dkind == 2 && q.dst % 8 == k))

/-- The FIFO number of CHAIN. -/
def chainNo (s : State) (f : Insn) (x : Exec) : Nat := ((x.act.head?).map fun th => s.src th f.opa 1).getD 0

/-- CHAIN, `.bind` (R239). -/
def execChainBind (f : Insn) (s : State) : Host.Outcome State Fault Refusal :=
  issueWith (.chainBind f) f (fun s x =>
    let k := chainNo s f x
    let prod := f.mod.toNat / 4 % 4
    let cons := f.mod.toNat % 4
    let b := (x.act.head?.map (·.tid.block)).getD ⟨0, 0⟩
    if (prod ≠ 0 ∧ prod ≠ 3) ∨ (cons ≠ 0 ∧ cons ≠ 2) ∨ 7 < k ∨ ((s.core x.ig.core).fifo k).owner.isSome then trapAll x Cause.fifoerr 0
    else
      let q : Fifo := { owner := some b, producer := prod, consumer := cons, bytes := [] }
      .done (s.modCore x.ig.core fun c => { c with fifos := c.fifos.set k q }) .atIssue false) s

/-- CHAIN, `.unbind` (R239). [DEDUCED: log 37] -/
def execChainUnbind (f : Insn) (s : State) : Host.Outcome State Fault Refusal :=
  issueWith (.chainUnbind f) f (fun s x =>
    let k := chainNo s f x
    let b := (x.act.head?.map (·.tid.block)).getD ⟨0, 0⟩
    let q := (s.core x.ig.core).fifo k
    if 7 < k ∨ (q.owner.isSome ∧ (q.owner ≠ some b ∨ q.bytes ≠ [] ∨ s.fifoPending x.ig.core k)) then trapAll x Cause.fifoerr 0
    else .done (s.modCore x.ig.core fun c => { c with fifos := c.fifos.set k {} }) .atIssue false) s

/-! ### LDGL (R189) -/

def State.setLdgl (s : State) (core : Nat) (l : LdglCopy) : State :=
  s.modCore core fun c => { c with ldgl := c.ldgl.map fun x => if x.id = l.id ∧ x.tid = l.tid then l else x }

/-- The copies of one LDGL are all written: its range is released and its flag completes. [DEDUCED: log 47] -/
def State.settleLdgl (s : State) (core id : Nat) : State :=
  let mine := (s.core core).ldgl.filter fun x => x.id == id
  if mine.any fun x => x.bytes != 0 then s
  else
    let s := s.modCore core fun c => { c with ldgl := c.ldgl.filter fun x => x.id != id, ranges := c.ranges.filter fun r => r.op != id }
    let s := { s with fetched := s.fetched.filter fun x => x.id != id }
    mine.foldl (fun (s : State) x =>
      let s := s.complete [x.tid] x.flag
      if x.overrun then s.deferTrap x.tid.block x.tid.group Cause.barerr (BitVec.ofNat 32 x.barrier) else s) s

/-- A lane's copy meets bytes that cannot be reached now. -/
def State.parkLdgl (s : State) (core : Nat) (c : Ctx) (l : LdglCopy) (token : Bool) (why off : Nat) : State :=
  if waitTableSize ≤ (s.core core).waits.length then s
  else
    let (s, k) := s.noteFault core c token l.obj off fun t => s.threadRecord 3 why t l.obj off l.tid 0 l.pc
    let a : Access := { id := l.id, inst := l.id, tid := l.tid, opc := 0xA4, mod := l.mod, obj := l.obj, off := l.off, handle := l.handle
                        bytes := l.bytes, flag := l.flag, pc := l.pc }
    let e : Entry := { kind := 4, key := k, acc := a, op := l.id }
    (s.modCore core fun x => { x with waits := x.waits ++ [e] }).setLdgl core { l with park := some k }

/-- LDGL_BYTES_WRITTEN (R189): the `i`-th copy of a core writes its bytes. -/
def execLdglBytesWritten (core i : Nat) (s : State) : Host.Outcome State Fault Refusal :=
  match (s.core core).ldgl[i]? with
  | none => conclude s
  | some l => match s.ctx? l.ctx with
    | none => conclude s
    | some c =>
      if l.park.isSome ∨ l.bytes = 0 ∨ s.owed core l.id true 0 l.dst l.bytes then conclude s
      else match s.engineRead core c l.id l.obj (readFuel l.bytes) l.off l.bytes with
        | .full bs =>
          let t := (s.rawWrite core 0 true 0 l.dst bs.length).engineStores core l.dst bs
          let t := t.copyPoison core c l.id (.dev l.obj l.off) (.loc l.dst) l.bytes
          let (t, ok) := t.countBytes core l.barrier l.bytes
          conclude ((t.setLdgl core { l with bytes := 0, overrun := !ok }).settleLdgl core l.id)
        | .absent token why _ off => conclude (s.parkLdgl core c l token why off)
        | .part t _ => conclude t
        | _ => conclude (s.faultCtxBare c.num reasonInternal)

/-! ### The prologue (R266, R267) -/

/-- The block is abandoned: a DEFERRED record, and none of its threads starts. -/
def State.abandon (s : State) (b : Block) (c : BitVec 6) : State :=
  let s := s.errorRecord b.ctx (mkRecord 0x24 b.core 0 0 0 0 0 b.key.launch b.key.index 0xFFFF c.toNat 0)
  (s.modBlock b.key fun b => { b with phase := .abandoned c }).exitThreads ((s.blockThreads b.key).map (·.tid))

/-- Numbers by which the prologue of a block takes what a peer sends: above those of instructions. -/
def prologueId (b : BlockKey) : Nat := 2 ^ 80 + b.launch * 2 ^ 32 + b.index

/-- Bytes read for a binding, `d` bytes from a pointer on: a check that fails, or what the read comes to. A word with an uncorrectable
error gives MEMUE. -/
def State.bindRead (s : State) (b : Block) (c : Ctx) (p : BitVec 64) (d n : Nat) : Except (BitVec 6) Draw :=
  match s.unitCheckAt c p d n 1 rightR with
  | .error e => .error e
  | .ok (obj, off) =>
    if (List.range n).any fun i => s.sourceBad b.core c (prologueId b.key) (.dev obj (off + i)) then .error Cause.memue
    else match s.engineRead b.core c (prologueId b.key) obj (readFuel n) off n with
      | .full bs => if s.sentBad (prologueId b.key) obj off n then .error Cause.memue else .ok (.full bs)
      | r => .ok r

/-- The bytes that binding `r` writes, read and transformed. -/
def State.bindBytes (s : State) (b : Block) (c : Ctx) (args : BitVec 64) (r : List Byte) : Except (BitVec 6) Draw :=
  let count := field r 8 4
  let tr := field r 0xC 1
  match s.bindRead b c args (field r 0 4) 8 with
  | .ok (.full ps) =>
    let read : Nat → Except (BitVec 6) Draw := s.bindRead b c (BitVec.ofNat 64 (ofLE ps)) (b.key.index * field r 0x10 8)
    let get : Nat → Except (BitVec 6) Draw := fun n => match read n with
      | .ok (.full bs) =>
        if tr = 1 then
          if badImage n bs ∨ field bs 8 4 * field bs 4 1 ≠ count then .error Cause.badfmt else .ok (.full (expandImage bs))
        else .ok (.full (transformBytes tr (field r 0xD 1) false bs))
      | d => d
    if tr = 1 then
      match read 64 with
      | .ok (.full h) => if field h 0xC 4 < 64 then .error Cause.badfmt else get (field h 0xC 4)
      | d => d
    else get (if tr = 2 then count / 2 else if tr = 3 then 2 * count else count)
  | d => d

/-- A binding's source cannot be reached: a parked copy (R189, R267). -/
def State.parkPrologue (s : State) (b : Block) (c : Ctx) (i : Nat) (token : Bool) (why obj off : Nat) : State :=
  if waitTableSize ≤ (s.core b.core).waits.length then s
  else
    let (s, k) := s.noteFault b.core c token obj off fun t =>
      mkRecord 3 b.core 0 (0x20 + why) t obj off b.key.launch b.key.index 0xFFFF i 0
    let a : Access := { id := prologueId b.key, inst := prologueId b.key, tid := ⟨b.key, 0, 0⟩, opc := 0, mod := 0, obj, off, reg := i }
    let e : Entry := { kind := 4, key := k, acc := a, engine := true, op := prologueId b.key }
    (s.modCore b.core fun x => { x with waits := x.waits ++ [e] }).modBlock b.key fun b => { b with phase := .prologue i (some k) }

/-- PROLOGUE (R266, R267): the next transform binding of a block. -/
def execPrologue (key : BlockKey) (s : State) : Host.Outcome State Fault Refusal :=
  match s.block? key with
  | none => conclude s
  | some b => match b.phase, s.launchOf key, s.ctx? b.ctx with
    | .prologue i none, some l, some c =>
      if l.header.bindings ≤ i ∨ b.spawned.isSome ∨ c.runs = false then conclude s
      else match l.header.binds[i]? with
        | none => conclude s
        | some r => match s.bindBytes b c l.args r with
          | .error e => conclude (s.abandon b e)
          | .ok (.full bs) =>
            let t := s.storeLocal b.core (b.localBase + field r 4 4) bs
            conclude ({ t with fetched := t.fetched.filter fun x => x.id != prologueId key }.modBlock key fun b => { b with phase := .prologue (i + 1) none })
          | .ok (.absent token why obj off) => conclude (s.parkPrologue b c i token why obj off)
          | .ok (.part t _) => conclude t
          | .ok _ => conclude (s.faultCtxBare c.num reasonInternal)
    | _, _, _ => conclude s

/-- BLOCK_START (R266): the bindings are done; the block's home groups start. -/
def execBlockStart (key : BlockKey) (s : State) : Host.Outcome State Fault Refusal :=
  match s.block? key with
  | none => conclude s
  | some b => match b.phase with
    | .prologue i none =>
      if i < ((s.headerOf key).map (·.bindings)).getD 0 ∧ b.spawned.isNone then conclude s
      else conclude (s.modBlock key fun b => { b with phase := .running })
    | _ => conclude s

end Sys2Proof.Machine
end

