-- ==== Sys2Proof/Machine/Perform.lean ====
section
/-! DEFINITION. Performing what has been issued: loads and atomic operations (FILL_ARRIVAL), stores, fences, releases to
the distributor (STORE_PERFORMED), retries of the wait table (R186), promotion and serialisation requests (R199, R200). -/

namespace Sys2Proof.Machine

/-- Performs a memory access that has become ready, by its kind; one that overlaps a logged access goes under its page (R187).
[DESIGN CHOICE: log 58] -/
def State.performKind (s : State) (core : Nat) (c : Ctx) (a : Access) : State :=
  if a.inLocal then (if a.is [0xDB, 0xDC] then s.performElem core a else s.performLocal core a)
  else if (s.core core).portHolds a then s
  else match s.sideHit core a with
    | some k => s.enterBehind core c a k
    | none =>
      if a.is [0xA0, 0xDB] then s.performLoad core c a
      else if a.is [0xA1, 0xDC, 0xE1] then s.performStore core c a
      else if a.is [0xE0] then s.performOptaw core c a
      else if a.is [0xE2] then s.performStatld core c a
      else if a.is [0xE3] then s.performLscale core c a
      else s.performAtomic core c a

/-- Performs a memory access that has become ready. -/
def State.performAt (s : State) (core : Nat) (c : Ctx) (a : Access) : State :=
  if !a.inLocal && s.vaultOff c a.obj then s else (s.performKind core c a).unrace s core a

/-- RDLANE's value from another home group (R146). -/
def State.performRdlane (s : State) (core : Nat) (a : Access) : State :=
  let ws := sizeWords (if a.bytes = 8 then 5 else 4) a.data.toNat
  match a.args with
  | [0] => s.deliver core a ws
  | [1] => match s.thread? a.tid with
    | some th => (((List.range ws.length).zip ws).foldl (fun (t : State) p => t.putResult core (.uni th.home (a.reg + p.1)) p.2) s).finishAccess core a
    | none => s.finishAccess core a
  | _ => s.finishAccess core a

/-- FILL_ARRIVAL (R51, R53): the `i`-th access of a core, a load or an operation with a result, is performed; a number past
the last stands for the ACCRD of the matrix engine. -/
def execFillArrival (core i : Nat) (s : State) : Host.Outcome State Fault Refusal :=
  match (s.core core).accs[i]? with
  | none => conclude (s.deliverAccrd core)
  | some a =>
    if a.is [0x76] then conclude (s.performRdlane core a)
    else if !a.is [0xA0, 0xA2, 0xA5, 0xA6, 0xDB, 0xE2] ∨ (s.core core).ready a = false then conclude s
    else match s.ctx? (s.ctxOf a.tid.block) with
      | none => conclude (s.dropAccess core a.id)
      | some c => conclude ((s.performAt core c a).settleDrains core)

/-! ### Fences (R198 to R200) -/

/-- Accesses of a saved block that are not performed yet. -/
def Kept.outstanding (k : Kept) : List Access := k.accs ++ k.waits.map (·.acc) ++ k.retries.map (·.acc) ++ k.side.map (·.acc)

/-- Every number that a fence needs is settled, on other cores and in saved blocks too (R307). -/
def State.readyFence (s : State) (core : Nat) (a : Access) : Bool :=
  (s.core core).ready a && ((List.range s.cores.length).all fun k => k == core || (s.core k).outstanding.all fun b => !a.needs.contains b.id)
    && s.kept.all fun k => k.outstanding.all fun b => !a.needs.contains b.id

/-- A fence completes. -/
def State.endFence (s : State) (core : Nat) (a : Access) : State :=
  (if a.acquires && decide (3 ≤ a.scope) then s.staleLines core else s).finishAccess core a

/-- FENCE, and FENCEX in its two stages: the issuer's own accesses, then the cores of its scope. A FENCE with .rmt has two stages too: once its
own accesses are performed, it asks the core that last performed a release covering each promoted line (R199, R306); `cmp` holds the stage. -/
def State.performFence (s : State) (core : Nat) (a : Access) : State :=
  if s.readyFence core a = false ∨ a.asked ≠ [] then s
  else if a.is [0xAB] ∧ a.args ≠ [] ∧ a.cmp = 0 then
    let lines := (runsOf 2 a.args.length a.args).map fun l => (l.headD 0, l.getD 1 0)
    s.setAccess core { a with cmp := 1, asked := (dedup (lines.filterMap (s.releaserOf (s.ctxOf a.tid.block)))).map fun c => (c, 0) }
  else if a.is [0xAC] ∧ a.args = [0] then s.setAccess core { a with args := [1], asked := (scopeCores core a.scope).map fun c => (c, 0) }
  else s.endFence core a

/-- Every fence of the device that has not reached a core, with what reaching it does. -/
def State.reach (s : State) (core opc : Nat) (extra : Access → List Nat) : State :=
  let one : Access → Access := fun a =>
    if a.opc.toNat = opc ∧ (a.asked.any fun p => p.1 == core) then
      { a with asked := a.asked.filter (fun p => p.1 != core), needs := a.needs ++ (extra a).filter (· != a.id) }
    else a
  { s with cores := s.cores.map fun k : Core => { k with accs := k.accs.map one } }

/-- PROMOTION_REQUEST (R199, R306): the requests that have not reached the core do; the releases it performed before now
count at the fence's scope. -/
def execPromotionRequest (core : Nat) (s : State) : Host.Outcome State Fault Refusal :=
  let here := (s.core core).outstanding.filter fun b : Access => b.inOrder
  conclude (s.reach core 0xAB fun a =>
    (here.filter fun b : Access => decide (b.id ≤ (s.core core).promotedTo (s.ctxOf a.tid.block) a.args)).map (·.id))

/-- Did the access come before its thread's last FENCE? -/
def beforeFence (ths : List Thread) (b : Access) : Bool :=
  b.inOrder && ths.any fun t => decide (t.tid = b.tid) && decide (b.id < t.lastFence)

/-- SERIALISATION_REQUEST (R200, R307): a FENCEX reaches the core; what its threads did before their last FENCE counts, and so does
what a block that a gang eviction has taken from the core did. -/
def execSerialisationRequest (core : Nat) (s : State) : Host.Outcome State Fault Refusal :=
  let mine := (s.core core).outstanding.filter (beforeFence s.threads)
  let kept := (s.kept.filter fun k => k.evicted && k.core == core).flatMap fun k => k.outstanding.filter (beforeFence k.threads)
  conclude (s.reach core 0xAC fun _ => (mine ++ kept).map (·.id))

/-! ### Continuations (R156, R268, R269) -/

/-- A group of records is released as a spawned block. [DEDUCED: log 85] -/
def State.releaseGroup (s : State) (n entry : Nat) : State :=
  match s.launch? n with
  | none => s
  | some l => match l.open_.find? fun g => g.1 == entry with
    | some g => s.modLaunch n fun l =>
        { l with open_ := l.open_.filter (fun x => x.1 != entry), spawned := l.spawned + 1
                 ready := l.ready ++ [(l.count + l.spawned, l.header.entries.getD entry 0, g.2.2)] }
    | none => s

/-- Releases the open group of an entry whose first record came 4096 cycles ago (R268). -/
def State.releaseOld (s : State) (n entry : Nat) : State :=
  match (s.launch? n).bind fun l => l.open_.find? fun g => g.1 == entry with
  | some g => if g.2.1 + 4096 ≤ s.now then s.releaseGroup n entry else s
  | none => s

/-- The distributor holds one more record, in a group that is still open. -/
def State.addRecord (s : State) (n entry : Nat) (rec_ : List Word) : State :=
  let s := s.releaseOld n entry
  match s.launch? n with
  | none => s
  | some l =>
    if l.settled ∨ l.state = .cancelled ∨ l.state = .rejected then s
    else
      let s := if l.open_.any fun g => g.1 == entry then
          s.modLaunch n fun l => { l with open_ := l.open_.map fun g => if g.1 = entry then (g.1, g.2.1, g.2.2 ++ [rec_]) else g }
        else ((s.modLaunch n fun l => { l with open_ := l.open_ ++ [(entry, s.now, [rec_])] }).owe n (-1)).pay n
      match (s.launch? n).bind fun l => l.open_.find? fun g => g.1 == entry with
      | some g => if 128 ≤ g.2.2.length then s.releaseGroup n entry else s
      | none => s

/-- CONTINUATION_GROUP_TIMEOUT (R268): 4096 cycles after its first record. [DESIGN CHOICE: log 45] -/
def execContinuationGroupTimeout (launch entry : Nat) (s : State) : Host.Outcome State Fault Refusal :=
  conclude (s.releaseOld launch entry)

/-- A record reaches the distributor: `args` hold the entry index, then the record's words after it. It is marked as held there, and
when every record of its instruction is, their flags clear (R156). -/
def State.performSpawn (s : State) (core : Nat) (a : Access) : State :=
  if a.atBlk then s
  else
    let s := (s.addRecord a.tid.block.launch (a.args.headD 0) (a.args.tail.map (BitVec.ofNat 32))).setAccess core { a with atBlk := true }
    let all := (s.core core).accs.filter fun b => b.is [0x86] && b.inst == a.inst
    if all.all (·.atBlk) then all.foldl (fun (t : State) b => t.finishAccess core b) s else s

/-! ### Appending to a queue (R173, R253) -/

/-- Forgets what a peer has sent for an access. -/
def State.forget (s : State) (id : Nat) : State := { s with fetched := s.fetched.filter fun x => x.id != id }

/-- A write of an append: at its home at once, or as a request of the core to the peer. None while it cannot be made. -/
def State.enqWrite (s : State) (core : Nat) (c : Ctx) (a : Access) (obj off : Nat) (bs : List Byte) : Option State :=
  match s.translate c obj off 1 with
  | .peer d => (s.sendRequest core a.id { kind := 2, flags := 0, dst := d, src := 0, ctx := c.num, obj, off, tag := 0, op := 0, group := 0, plane := 0
                                          length := bs.length, data := bs }).map (·.1)
  | _ => s.unitWrite c obj off bs

/-- Step 1 of an append (R253): one slot is reserved by an atomic addition, at .sys scope where the queue lies at a peer. -/
def State.enqReserve (s : State) (core : Nat) (c : Ctx) (a : Access) : State :=
  let off := a.off + 0x20
  match s.translate c a.obj off 1 with
  | .peer d => match s.fetched.find? fun x => x.id == a.id with
    | some x =>
      let s := s.forget a.id
      if x.bytes.isEmpty then s.refuseAccess core c a true 8 a.off
      else if x.ue then (s.memueRecord a.obj off a.tid a.pc).finishAccess core a
      else s.setAccess core { a with cmp := 1, data := BitVec.ofNat 128 (ofLE x.bytes) }
    | none =>
      let p : Packet := { kind := 3, flags := 0, dst := d, src := 0, ctx := c.num, obj := a.obj, off, tag := 0, op := 0xC0, group := 0, plane := 0, length := 9
                          data := toLE 4 1 ++ toLE 4 0 ++ [0] }
      ((s.sendRequest core a.id p).map (·.1)).getD s
  | _ => match s.homeRead c a.obj off 4 with
    | .ok _ old _ => match s.unitWrite c a.obj off (toLE 4 (ofLE old + 1)) with
      | some t => t.setAccess core { a with cmp := 1, data := BitVec.ofNat 128 (ofLE old) }
      | none => s
    | .lost => (s.memueRecord a.obj a.off a.tid a.pc).finishAccess core a
    | .absent token why _ => s.refuseAccess core c a token why a.off
    | .peer _ => s
    | .bad => s.faultCtxBare c.num reasonInternal

/-- An append whose write cannot be made now: it goes under the page or token of the bytes; on a POISONED page the write is discarded with a
record (R350), and the next step follows. [DESIGN CHOICE: log 51] -/
def State.enqParks (s : State) (core : Nat) (c : Ctx) (a : Access) (obj off next : Nat) : State :=
  let under : Bool → Nat → State := fun token why =>
    let (t, k) := s.noteFault core c token obj off (s.accessFault core { a with obj, off } why)
    t.enter core a k
  match s.translate c obj off 1 with
  | .absent _ why => under false why
  | .refused => under true 9
  | .poisoned _ => (s.memueRecord obj off a.tid a.pc).setAccess core { a with cmp := BitVec.ofNat 64 next }
  | .at_ .. => under true 12
  | .peer _ => s
  | .bad => s.faultCtxBare c.num reasonInternal

/-- Steps 2 to 4 of an append (R253): with the control block read, the record is written when there is room, and then the tail when it has
come to the slot reserved. -/
def State.enqStep (s : State) (core : Nat) (c : Ctx) (a : Access) (cb : List Byte) : State :=
  let r := a.data.toNat
  let entries := field cb 0x0C 4
  let t := s.forget a.id
  let next : Nat → Nat → List Byte → Nat → State := fun obj off bs k => match t.enqWrite core c a obj off bs with
    | some u => u.setAccess core { a with cmp := BitVec.ofNat 64 k }
    | none => t.enqParks core c a obj off k
  if a.cmp = 1 then
    if entries < wrap 32 ((r : Int) + 1 - field cb 0x18 4) then t
    else
      let p := ptrAdd (BitVec.ofNat 64 (field cb 0x10 8)) (64 * (r % entries))
      next (s.viewEntry c (ptrIndex p)).obj (ptrOffset p) (a.args.map (BitVec.ofNat 8)) 2
  else if field cb 0x1C 4 ≠ r then t
  else next a.obj (a.off + 0x1C) (toLE 4 (r + 1)) 3

/-- One step of an append (R173, R253): `cmp` holds the steps that are done, `data` the record number that has been reserved, and `args` the
record's bytes. A step waits until the requests of the one before it have been answered. [DESIGN CHOICE: log 51] -/
def State.performEnq (s : State) (core : Nat) (c : Ctx) (a : Access) : State :=
  if s.requests.any fun r => r.id == a.id then s
  else if a.cmp = 0 then s.enqReserve core c a
  else if a.cmp = 3 then s.finishAccess core a
  else match s.engineRead core c a.id a.obj (readFuel 128) a.off 128 with
    | .full cb => if s.sentBad a.id a.obj a.off 128 then ((s.forget a.id).memueRecord a.obj a.off a.tid a.pc).finishAccess core a else s.enqStep core c a cb
    | .part t _ => t
    | .absent token why _ _ => (s.forget a.id).refuseAccess core c a token why a.off
    | .outside _ => s
    | .internal => s.faultCtxBare c.num reasonInternal

/-! ### Multicast (R195) -/

/-- The status word of a multicast store (R195). -/
def Multi.status (m : Multi) : Nat :=
  let ref := max m.refusals m.refusers.length
  let suc := m.answers - ref
  2 ^ 31 + (if ref ≠ 0 ∧ suc ≠ 0 then 2 ^ 30 else 0) + ref % 1024 * 1024 + suc % 1024

/-- The first four refusers as entries (R195). -/
def refuserEntries (l : List Nat) : List Byte :=
  let l := (sortBy (fun d : Nat => d) l).take 4
  (l.flatMap fun d => toLE 2 (0x8000 + d)) ++ zeros (2 * (4 - l.length))

/-- The MCREFUSED records of a multicast store, one for each refusing device (R369). -/
def Multi.records (m : Multi) (core : Nat) (a : Access) : List (List Byte) :=
  let at_ := if a.opc = 0xA9 then 0x40 else 0
  (sortBy (fun p : Nat × Nat => p.1) m.refusers).map fun p =>
    mkRecord 0x06 core a.tid.group (0x80 + at_ + p.2) 0 m.lowest.1 m.lowest.2 a.tid.block.launch a.tid.block.index 0xFFFF p.1 m.pc

/-- Have all lines been answered, and every refusing device that the answers count been heard of? -/
def Multi.allHeard (m : Multi) : Bool :=
  m.lines.isEmpty && m.told.all fun x =>
    decide (x.2.2.2 ≤ (m.heard.filter fun h => h.1 == x.1 && h.2.1 == x.2.1 && h.2.2.1 == x.2.2.1).length)

/-- The end of a multicast store once its MCREFUSED records are written (R195, R196): the status record, then the flag, then MCNACK. -/
def State.settleMulti (s : State) (core : Nat) (m : Multi) (b : BlockKey) : State :=
  let s := s.write (localAt core m.record) (toLE 4 m.status ++ refuserEntries (m.refusers.map (·.1)) ++ toLE 4 m.group)
  let s := (s.complete m.tids m.flag).modCore core fun k => { k with multis := k.multis.filter fun x => x.id != m.id }
  let traps := ((s.headerOf b).map (·.trapMask.getLsbD 0x18)).getD false
  if m.status / 1024 % 1024 ≠ 0 ∧ traps then s.modThreads m.tids fun t => if t.alive then { t with mcnack := some (BitVec.ofNat 32 m.status) } else t
  else s

/-- All lines of a multicast store have been answered: its MCREFUSED records are written, and none is still held back by a full fault queue
when the store ends (R244, R369). -/
def State.endMulti (s : State) (core : Nat) (m : Multi) (a : Access) : State :=
  let recs := m.records core a
  let s := if m.reported then s
    else (recs.foldl (fun (t : State) r => t.faultRecord m.ctx r) s).modCore core fun k =>
      { k with multis := k.multis.map fun x => if x.id = m.id then { x with reported := true } else x }
  let held := ((s.ctx? m.ctx).map (·.heldRecords)).getD []
  if recs.any held.contains then s
  else (s.settleMulti core m a.tid.block).modCore core fun k => { k with accs := k.accs.filter fun b => b.inst != a.inst }

/-- Sends the next line of a multicast store, for its lowest lane; when all have been answered, it ends for all its lanes. -/
def State.performMulticast (s : State) (core : Nat) (a : Access) : State :=
  match (s.core core).multis.find? fun m => m.id == a.inst with
  | none => s.dropAccess core a.id
  | some m =>
    if m.tids.head? ≠ some a.tid then s
    else match m.lines.find? fun p => !(s.requests.any fun r => r.core == core && r.id == m.id && r.packet.obj == p.obj && r.packet.off == p.off) with
    | some p => ((s.sendRequest core m.id p).map (·.1)).getD s
    | none => if m.allHeard then s.endMulti core m a else s

/-! ### STORE_PERFORMED -/

/-- A prefetch of a line whose home is a peer (R197). -/
def State.performPrefetch (s : State) (core : Nat) (c : Ctx) (a : Access) : State :=
  match s.translate c a.obj a.off 256 with
  | .peer d => s.sendAccess core c a d
  | _ => s.dropAccess core a.id

/-- Operations with no result of their own. -/
def Access.isStore (a : Access) : Bool := a.is [0xA1, 0xA3, 0xA7, 0xDC, 0xE0, 0xE1, 0xE3]

/-- STORE_PERFORMED (R184, R185, R187, R193, R298): the `i`-th access of a core moves on: a store, an operation without a
result, a fence, or what SPAWN, ENQ, a multicast store or REPLAY left to do. -/
def execStorePerformed (core i : Nat) (s : State) : Host.Outcome State Fault Refusal :=
  match (s.core core).accs[i]? with
  | none => conclude s
  | some a =>
    if a.isFence then conclude (s.performFence core a)
    else if a.is [0x98] then
      if s.cores.any fun k => k.accs.any fun b => a.needs.contains b.id then conclude s else conclude (s.finishAccess core a)
    else if (s.core core).ready a = false then conclude s
    else match s.ctx? (s.ctxOf a.tid.block) with
      | none => conclude (s.dropAccess core a.id)
      | some c =>
        if a.isStore then conclude ((s.performAt core c a).settleDrains core)
        else if a.is [0xAA] then conclude (s.performPrefetch core c a)
        else if a.is [0x86] then conclude (s.performSpawn core a)
        else if a.is [0x96] then conclude (s.performEnq core c a)
        else if a.is [0xA8, 0xA9] then conclude (s.performMulticast core a)
        else conclude s

/-- WAIT_TABLE_RETRY (R186): an access that found the wait table full is tried again once an entry has freed. Records the port
holds because a fault queue was full go there once it has room (R244). -/
def execWaitTableRetry (core : Nat) (s : State) : Host.Outcome State Fault Refusal :=
  let s := s.ctxs.foldl (fun (t : State) (c : Ctx) => t.flushRecords c.num (c.heldRecords.length + 1)) s
  match (s.core core).retries with
  | [] => conclude s
  | e :: es =>
    if (s.core core).waits.length < waitTableSize ∨ (!e.acc.parks ∧ (s.core core).side.length < sideLogSize) then
      conclude (s.modCore core fun k => { k with retries := es, accs := if e.acc.atBlk then e.acc :: k.accs else k.accs ++ [e.acc] })
    else conclude s

end Sys2Proof.Machine
end

