-- ==== Sys2Proof/Machine/System.lean ====
section
/-! DEFINITION. SPAWN, CANCEL, ENQ and REPLAY (R156, R172 to R174), and what REPLAY does to parked and side-logged accesses,
saved ones too (R247). -/

namespace Sys2Proof.Machine

/-! ### SPAWN (R156, R270) -/

/-- Records of a launch not yet released: held by the distributor, or on their way to it. -/
def State.heldRecords (s : State) (l : Launch) : Nat :=
  let coming : List Access → Nat := fun as => (as.filter fun a => a.is [0x86] && !a.atBlk && a.tid.block.launch == l.num).length
  (l.open_.map (·.2.2.length)).sum + (s.cores.map fun c : Core => coming c.accs).sum + (s.kept.map fun k : Kept => coming k.accs).sum

/-- SPAWN (R156). [DEDUCED: log 85] -/
def execSpawn (f : Insn) (s : State) : Host.Outcome State Fault Refusal :=
  issueWith (.spawn f) f (fun s x =>
    if !s.headerFlag x 2 then trapAll x Cause.illop 0
    else match s.launch? x.ig.launch with
      | some l =>
        let n := l.header.entries.length
        let e : Thread → Nat := fun th => s.src th f.opb 1
        let bad := x.act.filter fun th => decide (n ≤ e th)
        if !bad.isEmpty then trapEach x Cause.illop (fun th => if bad.any fun b => decide (b.tid = th.tid) then BitVec.ofNat 32 (e th) else 0) (bad.map (·.tid.lane))
        else
          let k := x.act.length
          if 65536 < s.heldRecords l + k ∨ 2 ^ 20 < (s.launches.map s.heldRecords).sum + k then trapAll x Cause.spawnfull 0
          else .done (x.act.foldl (fun (t : State) th =>
            let r := s.regNo th f.opa
            let words := (List.range 14).map fun i => (s.vreg th (r + i)).toNat
            t.issueAccess x.ig.core { id := 0, inst := x.inst, tid := th.tid, opc := 0x86, mod := 0, flag := x.flag, pc := x.ig.pc
                                      args := e th :: th.tid.block.index :: words }) s) .later false
      | none => .wait s) s

/-! ### CANCEL (R172) -/

/-- CANCEL (R172). -/
def execCancel (f : Insn) (s : State) : Host.Outcome State Fault Refusal :=
  issueWith (.cancel f) f (fun s x =>
    let ctx := s.ctxOfExec x
    match s.checkAll x ctx (x.act.map fun th => ({ th, slot := 0, p := s.ptr th f.opa, n := 1, al := 1, need := rightW } : Want)) with
    | .trap t => .trap t
    | .wait w => .wait w
    | .ok gs => .done (gs.foldl (fun (t : State) g => t.cancelAt ctx (g.obj, g.off)) s) .atIssue false) s

/-! ### ENQ (R173) -/

/-- The appends of an instruction, lanes rising, each after the one before it. [DESIGN CHOICE: log 51] -/
def State.issueEnqs (s : State) (x : Exec) (recs : List (Got × List Byte)) (before : Option Nat) : State :=
  match recs with
  | [] => s
  | (g, bs) :: rest =>
    let id := s.nextId
    let a : Access := { x.access 0x96 0 g 128 with args := bs.map (·.toNat) }
    let t := s.issueAccess x.ig.core a
    let t := match before with
      | some b => t.modCore x.ig.core fun c => { c with accs := c.accs.map fun y : Access => if y.id = id then { y with needs := b :: y.needs } else y }
      | none => t
    t.issueEnqs x rest (some id)

/-- ENQ (R173). [DEDUCED: log 50; DESIGN CHOICE: log 51] -/
def execEnq (f : Insn) (s : State) : Host.Outcome State Fault Refusal :=
  issueWith (.enq f) f (fun s x =>
    let recs := x.act.map (wantLocal s f.opb .none 1 64 16 true)
    match s.checkAll x (s.ctxOfExec x) (x.act.map fun th => ({ th, slot := 0, p := s.ptr th f.opa, n := 128, al := 64, need := rightW ||| rightA } : Want)) with
    | .wait w => .wait w
    | r =>
      let ptrTrap := match r with
        | .trap t => some t
        | _ => none
      match firstTrap ptrTrap (s.localTrap x recs), r with
      | some t, _ => .trap t
      | none, .ok gs =>
        if s.ownBusy x (x.act.map fun th => (th, s.localAddr th f.opb)) 64 then .wait s else
        .done (s.issueEnqs x (gs.map fun g => (g, s.bytes (localAt x.ig.core (s.localAddr g.th f.opb)) 64)) none) .later false
      | none, _ => .wait s) s

/-! ### REPLAY (R174) -/

/-- Do two keys name one page, or one token, of a context? -/
def State.sameKey (s : State) (c : Ctx) (k l : ParkKey) : Bool :=
  match k, l with
  | .page o a, .page p b => o == p && (s.pageOf c o a).1 == (s.pageOf c p b).1
  | .token t, .token u => t == u
  | _, _ => false

/-- Is a side-logged access possible now? -/
def State.sidePossible (s : State) (c : Ctx) (a : Access) : Bool :=
  match s.homeRead c a.obj a.off (max 1 a.bytes) with
  | .ok _ _ _ => (s.beforeWrite c a.obj a.off (max 1 a.bytes)).isSome
  | .lost => true
  | .peer _ => true
  | _ => false

/-- Performs a side-logged access at its home, or sends it to its peer. -/
def State.performSide (s : State) (core : Nat) (c : Ctx) (e : Entry) : State :=
  let a := { e.acc with atBlk := e.acc.is [0xA1, 0xDC, 0xE1], tag := none }
  let s := s.modCore core fun k => { k with side := k.side.filter (fun x => x.acc.id != a.id), accs := k.accs ++ [a] }
  if a.is [0xA1, 0xDC, 0xE1] then (s.updateLines core c.num a.obj a.off (toLE a.bytes a.data.toNat)).performStore core c a
  else if a.is [0xA7] then s.performAtomic core c a
  else s

/-- Step 1 on one core: the entries picked, in their order; answers those that are on their way to a peer. [DESIGN CHOICE: log 52] -/
def State.replaySide (s : State) (core : Nat) (c : Ctx) (pick : Entry → Bool) : State × List Nat :=
  ((s.core core).side.filter pick).foldl (fun (p : State × List Nat) e =>
    if p.1.sidePossible c e.acc then
      let t := (p.1.performSide core c e).unrace p.1 core e.acc
      (t, if (t.core core).accs.any fun a => a.id == e.acc.id then p.2 ++ [e.acc.id] else p.2)
    else p) (s, [])

/-- Takes an engine's operation, a copy or a prologue out of its park; a peer's refusal is forgotten. -/
def State.wakeOp (s : State) (core id : Nat) : State :=
  let s := s.modCore core fun k =>
    { k with
      engine := k.engine.map (fun o => if o.id = id then { s.opAgain core o with park := none } else o)
      batches := k.batches.map (fun b => if b.id = id then { b with park := none } else b) }
  let wake : Block → Block := fun b => match b.phase with
    | .prologue i (some _) => if prologueId b.key = id then { b with phase := .prologue i none } else b
    | _ => b
  { s with
    places := s.places.map (fun o : PlaceOp => if o.id = id then { o with park := none } else o)
    blocks := s.blocks.map wake
    fetched := s.fetched.filter fun f => !(f.id % 2 ^ 120 == id && f.bytes.isEmpty) }.markPlaces (fun o => o.id == id) 1

/-- One wait-table entry is released: the access is performed again, or the operation goes on. -/
def State.releaseEntry (s : State) (core : Nat) (after : List Nat) (e : Entry) : State :=
  let s := s.modCore core fun k => { k with waits := k.waits.filter fun x => !(x.acc.id == e.acc.id && x.acc.tid == e.acc.tid && x.kind == e.kind) }
  let s := { s with fetched := s.fetched.filter fun f => !(f.id == e.acc.id && f.bytes.isEmpty) }
  if e.kind = 4 ∧ e.engine = false then
    s.modCore core fun k => { k with ldgl := k.ldgl.map fun l => if l.id = e.op ∧ l.tid = e.acc.tid then { l with park := none } else l }
  else if e.kind = 3 ∨ e.kind = 4 then s.wakeOp core e.op
  else
    let a := { e.acc with needs := e.acc.needs ++ after, tag := none }
    s.modCore core fun k => { k with accs := if a.atBlk then a :: k.accs else k.accs ++ [a] }

/-- The wait-table entries under which a thread is parked. -/
def Core.entriesOf (k : Core) (t : Tid) : List Entry :=
  k.waits.filter fun e => if e.kind = 3 then e.acc.tid.block == t.block && e.acc.tid.group == t.group else e.kind != 4 && e.acc.tid == t

/-- A parked thread none of whose entries is left becomes live; else it stays under one that is left. -/
def State.unparkThreads (s : State) (core ctx : Nat) : State :=
  let fix : Thread → Thread := fun t =>
    if t.isParked && t.core == core && s.ctxOf t.tid.block == ctx then
      match (s.core core).entriesOf t.tid with
      | [] => { t with life := .live }
      | e :: _ => { t with life := .parked e.key }
    else t
  { s with threads := s.threads.map fix }

/-- Step 2 on one core. -/
def State.replayWaits (s : State) (core : Nat) (c : Ctx) (after : List Nat) (pick : Entry → Bool) : State :=
  (((s.core core).waits.filter pick).foldl (fun (t : State) e => t.releaseEntry core after e) s).unparkThreads core c.num

/-- Marks saved entries in the state and in the save area (R174, R346). -/
def State.markList (s : State) (c : Ctx) (base : Nat) (pick : Entry → Bool) (es : List Entry) : State :=
  ((List.range es.length).zip es).foldl (fun (t : State) p =>
    if pick p.2 then
      let a : PAddr := .vault c.quarter (c.saveBase + base + 64 * p.1 + 1)
      t.write a [t.byte a ||| 2]
    else t) s

/-- Marks the saved entries of a context that a REPLAY names. -/
def State.markSaved (s : State) (c : Ctx) (pick : Entry → Bool) : State :=
  let mine := s.kept.filter fun k => k.block.ctx == c.num
  let s := mine.foldl (fun (t : State) k => (t.markList c k.waitsAt pick k.waits).markList c k.sideAt pick k.side) s
  let one : Entry → Entry := fun e => if pick e then { e with marked := true } else e
  { s with kept := s.kept.map fun k : Kept => if k.block.ctx = c.num then { k with waits := k.waits.map one, side := k.side.map one } else k }

/-- REPLAY of one page or token: side-logged accesses first on every core, then the wait tables. Answers the accesses that
are on their way to a peer. [DESIGN CHOICE: log 52] -/
def State.replay (s : State) (c : Ctx) (key : ParkKey) : State × List Nat :=
  let pick : Entry → Bool := fun e => s.sameKey c e.key key && s.ctxOf e.acc.tid.block == c.num
  let cores := List.range s.cores.length
  let (s1, sent) := cores.foldl (fun (p : State × List Nat) core =>
    let (t, l) := p.1.replaySide core c pick
    (t, p.2 ++ l)) (s, [])
  let s2 := cores.foldl (fun (t : State) core => (t.replayWaits core c sent pick).settleDrains core) s1
  let forget : Core → Core := fun k => { k with recorded := k.recorded.filter fun r => !(r.1 == c.num && s.sameKey c r.2.1 key) }
  let pend : Pending → Pending := fun p => if p.packet.ctx = c.num ∧ s.sameKey c p.key key then { p with key := .token 0 } else p
  let s3 := { s2 with cores := s2.cores.map forget, memberLines := s2.memberLines.map pend }
  (s3.markSaved c fun e => s.sameKey c e.key key, sent)

/-- What one lane of REPLAY names. -/
def replayKey (v : Nat) (tok : Bool) : ParkKey := if tok then .token (BitVec.ofNat 32 v) else .page (v / 2 ^ 40) (v % 2 ^ 40)

/-- REPLAY (R174). [DESIGN CHOICE: log 52] -/
def execReplay (f : Insn) (s : State) : Host.Outcome State Fault Refusal :=
  issueWith (.replay f) f (fun s x =>
    let tok := f.mod.getLsbD 0
    let (t, sent) := x.act.foldl (fun (p : State × List Nat) th =>
      match s.ctx? (s.src th f.opb 1) with
      | none => p
      | some c =>
        let v := s.src th f.opa (if tok then 1 else 2)
        if !tok && (s.object? c (v / 2 ^ 40)).isNone then p
        else
          let (t, l) := p.1.replay c (replayKey v tok)
          (t, p.2 ++ l)) (s, [])
    if sent.isEmpty then .done t .atIssue false
    else .done (x.act.foldl (fun (t : State) th =>
      let a : Access := { id := t.nextId, inst := x.inst, tid := th.tid, opc := 0x98, mod := f.mod, flag := x.flag, pc := x.ig.pc, needs := sent }
      (t.modCore x.ig.core fun k => { k with accs := k.accs ++ [a] }).fresh 1) t) .later false) s

end Sys2Proof.Machine
end

