-- ==== Sys2Proof/Machine/Capacity.lean ====
section
/-! DEFINITION. The units of a core and which cores are eligible for a block (R47, R262, R263). -/

namespace Sys2Proof.Machine

/-- What a block needs of a core. -/
structure Shape where
  ctx     : Nat
  launch  : Nat
  /-- The gang of the launch that it belongs to; none for a spawned block. -/
  gang    : Option Nat := none
  /-- Vector registers per thread of each home group. -/
  allocs  : List Nat
  /-- Granules of 4 KiB of local memory. -/
  local_  : Nat
  regions : Nat
  /-- The local base it must have, for a block that was saved. -/
  base    : Option Nat := none
  deriving DecidableEq, Repr

/-- Where a block fits on a core: its local base, and home slot and scheduler of each home group. -/
structure Spot where
  core  : Nat
  base  : Nat
  homes : List (Nat × Nat)
  deriving DecidableEq, Repr

/-- A register count rounded under R47. -/
def roundRegs (c : Nat) : Nat := (c + 7) / 8 * 8

/-- Vector registers per thread of home group `h` of a launch's blocks (R109, R261), and its role. -/
def Header.allocOf (hd : Header) (h : Nat) : Nat × Nat :=
  go hd.regs h 0 hd.roles
where
  /-- The role that holds group `h`, counting the groups of the roles before it off. -/
  go (regs : Nat) : Nat → Nat → List (Nat × Nat) → Nat × Nat
    | _, _, [] => (roundRegs regs, 0)
    | h, r, (n, q) :: rest => if h < n then (roundRegs (if q = 0 then regs else q), r) else go regs (h - n) (r + 1) rest

/-- Shape of a regular block of a header, in a gang of its launch. -/
def Header.shape (hd : Header) (ctx launch gang : Nat) : Shape :=
  { ctx, launch, gang := some gang, allocs := (List.range hd.groups).map fun h => (hd.allocOf h).1, local_ := (hd.localBytes + 4095) / 4096, regions := hd.regions }

/-- Shape of a spawned block (R269). -/
def Header.spawnShape (hd : Header) (ctx launch : Nat) : Shape :=
  { ctx, launch, allocs := [roundRegs (max 16 hd.regs)], local_ := (hd.localBytes + 4095) / 4096, regions := hd.regions }

/-! ### Free units -/

/-- Free home slots of a scheduler, rising. -/
def State.freeHomes (s : State) (core k : Nat) : List Nat :=
  ((List.range 16).map fun i => 64 * core + 16 * k + i).filter fun h => !(s.groups.any fun g => g.home == h)

def State.coreBlocks (s : State) (core : Nat) : List Block := s.blocks.filter fun b => b.core == core

def State.freeRegions (s : State) (core : Nat) : Nat := 8 - ((s.coreBlocks core).map (·.regions)).sum

/-- Granule `i` of a core's slice is free. -/
def State.localFree (s : State) (core i : Nat) : Bool :=
  let a := 0x200000 * sliceOf core + 4096 * i
  !((s.coreBlocks core).any fun b => decide (b.localBase ≤ a) && decide (a < b.localBase + b.localSize))

/-- The lowest local base at which `n` granules in a row are free. -/
def State.lowestBase (s : State) (core n : Nat) : Option Nat :=
  if n = 0 then some (0x200000 * sliceOf core)
  else ((List.range (513 - n)).find? fun i => (List.range n).all fun j => s.localFree core (i + j)).map fun i => 0x200000 * sliceOf core + 4096 * i

/-- Are the granules from a base on free? -/
def State.baseFree (s : State) (core base n : Nat) : Bool :=
  (List.range n).all fun j => s.localFree core ((base - 0x200000 * sliceOf core) / 4096 + j)

/-- The resources of R262 in the order of its table. -/
def Shape.units (sh : Shape) (r : Nat) : Nat :=
  match r with
  | 0 => sh.allocs.length
  | 1 => (sh.allocs.map (· / 8)).sum
  | 2 => sh.local_
  | _ => sh.regions

def capacity (r : Nat) : Nat := [64, 256, 512, 8].getD r 0

/-- The limiting resource (R262). -/
def Shape.limiting (sh : Shape) : Nat :=
  (minBy (fun r => capacity r / sh.units r) ([0, 1, 2, 3].filter fun r => sh.units r != 0)).getD 0

/-- Free units of a resource on a core. -/
def State.freeUnits (s : State) (core r : Nat) : Nat :=
  match r with
  | 0 => ([0, 1, 2, 3].map fun k => (s.freeHomes core k).length).sum
  | 1 => ([0, 1, 2, 3].map fun k => s.freeGranules core k).sum
  | 2 => ((List.range 512).filter (s.localFree core)).length
  | _ => s.freeRegions core

/-! ### Eligibility (R263) -/

/-- Assigns home groups to schedulers in ascending order: the one with a free slot and the most free granules. -/
def assignHomes (allocs : List Nat) (free : List (Nat × List Nat × Nat)) : Option (List (Nat × Nat)) :=
  match allocs with
  | [] => some []
  | n :: rest =>
    match maxBy (fun p : Nat × List Nat × Nat => p.2.2) (free.filter fun p => !p.2.1.isEmpty) with
    | none => none
    | some (k, homes, g) =>
      if g < n / 8 then none
      else (assignHomes rest (free.map fun p => if p.1 = k then (k, homes.drop 1, g - n / 8) else p)).map fun l => (homes.headD 0, k) :: l

/-- Number of the gang that a launch places next. -/
def Launch.gangNumber (l : Launch) : Nat := l.next / max 1 l.header.gang

/-- The gang for which a cluster is reserved (R265): its launch, and its number there. -/
def State.reservedFor (s : State) (cluster : Nat) : Option (Nat × Nat) :=
  (s.launches.find? fun l => l.drain == some cluster).map fun l => (l.num, l.gangNumber)

/-- A core that bring-up has taken out of use (R382). -/
def State.coreBroken (s : State) (core : Nat) : Bool := s.badClusters.contains (clusterOf core) || s.badQuarters.contains (quarterOf core)

/-- Nothing is placed on a quarter that is gated, or that a power request waits for (R383). -/
def State.quarterClosed (s : State) (q : Nat) : Bool :=
  s.gated.contains q || decide (s.power ≠ .p0 ∧ s.power ≠ .p2) || (match s.pwrReq with
    | some (2, l) => l.contains q
    | some (3, _) => true
    | _ => false)

/-- Where a block fits on a core; none when the core is not eligible. -/
def State.spot (s : State) (sh : Shape) (core : Nat) : Option Spot :=
  let cl := clusterOf core
  let foreign := s.blocks.any fun b => clusterOf b.core == cl && b.ctx != sh.ctx
  let reserved : Bool := match s.reservedFor cl with
    | some g => !(g.1 == sh.launch && sh.gang == some g.2)
    | none => false
  if foreign ∨ reserved ∨ s.quarterClosed (quarterOf core) ∨ s.coreBroken core ∨ s.freeRegions core < sh.regions then none
  else
    let base := match sh.base with
      | some b => if s.baseFree core b sh.local_ then some b else none
      | none => s.lowestBase core sh.local_
    match base, assignHomes sh.allocs ([0, 1, 2, 3].map fun k => (k, s.freeHomes core k, s.freeGranules core k)) with
    | some base, some homes => some ⟨core, base, homes⟩
    | _, _ => none

/-- Among cores, the eligible one with the most free units of the limiting resource; ties to the lowest number. -/
def State.bestSpot (s : State) (sh : Shape) (cores : List Nat) : Option Spot :=
  let all := cores.filterMap (s.spot sh)
  match all with
  | [] => none
  | x :: xs => some (xs.foldl (fun (b y : Spot) => if s.freeUnits (Spot.core b) sh.limiting < s.freeUnits (Spot.core y) sh.limiting then y else b) x)

/-- The cores of a cluster. -/
def clusterCores (cl : Nat) : List Nat := (List.range 4).map (· + 4 * cl)

/-- A block and home groups that take a spot's units, for the trial of a gang. -/
def State.occupy (s : State) (sh : Shape) (sp : Spot) (key : BlockKey) : State :=
  let b : Block := { key, ctx := sh.ctx, core := sp.core, localBase := sp.base, localBytes := 4096 * sh.local_, threads := 0, groups := sh.allocs.length
                     regions := sh.regions, tiles := 0, gang := 0 }
  let gs := ((List.range sh.allocs.length).zip (sh.allocs.zip sp.homes)).map fun p =>
    ({ block := key, index := p.1, home := p.2.2.1, sched := p.2.2.2, alloc := p.2.1 } : Group)
  { s with blocks := s.blocks ++ [b], groups := s.groups ++ gs }

/-- Spots for the blocks of a gang on one cluster, taken in ascending index; `pick` gives the cores each may use. -/
def State.gangSpots (s : State) (cl : Nat) : List (BlockKey × Shape × Option Nat) → Option (List (BlockKey × Spot))
  | [] => some []
  | (key, sh, k) :: rest =>
    let cores := match k with
      | some i => [4 * cl + i]
      | none => clusterCores cl
    match s.bestSpot sh cores with
    | none => none
    | some sp => ((s.occupy sh sp key).gangSpots cl rest).map fun l => (key, sp) :: l

/-- Free units of a resource summed over a cluster. -/
def State.clusterUnits (s : State) (cl r : Nat) : Nat := ((clusterCores cl).map fun c => s.freeUnits c r).sum

end Sys2Proof.Machine
end

