-- ==== Sys2Proof/Machine/Save.lean ====
section
/-! DEFINITION. The save area of a context (R58 to R64, R246, R248, R249, R346): what is written when a block or a whole
context is saved, and how a block is restored from it (R61, R250). -/

namespace Sys2Proof.Machine

/-! ### Group save area (R58 to R60) -/

def Life.code : Life → Nat
  | .live => 0
  | .exited => 1
  | .parked _ => 2

/-- PKIND. -/
def ParkKey.kind : ParkKey → Nat
  | .page _ _ => 0
  | .token _ => 1

/-- FPEND. -/
def pendMask (fl : List Nat) : Nat := ((List.range 12).map fun i => if fl.getD i 0 ≠ 0 then 2 ^ i else 0).sum

/-- A thread state word; `es` are the block's wait-table entries in the saved list. -/
def Thread.stateWord (t : Thread) (es : List Entry) : Nat :=
  let park := match t.life with
    | .parked k =>
      let i := (findIdx? (fun e : Entry => if e.kind = 3 then e.acc.tid.group == t.tid.group else e.kind != 4 && e.acc.tid == t.tid) es).getD 0
      k.kind * 4096 + i % 4096
    | _ => 0
  t.life.code * 2 ^ 30 + pendMask t.flags * 2 ^ 18 + t.fpflags.toNat * 2 ^ 13 + park

/-- The words of lanes 0 to 127 of a group, `no` for a lane without a thread. -/
def laneWords (ths : List Thread) (no : Nat) (f : Thread → Nat) : List Byte :=
  (List.range 128).flatMap fun l => toLE 4 (match ths.find? fun t => t.tid.lane == l with
    | some t => f t
    | none => no)

/-- Group header (R59). -/
def State.groupHeader (s : State) (g : Group) (tiles : Nat) : List Byte :=
  let ths := s.groupThreads g.block g.index
  let mask : (Thread → Bool) → Nat := fun p => (laneMask ((ths.filter p).map (·.tid.lane))).toNat
  withCrc (toLE 4 0x47535A50 ++ toLE 2 1 ++ toLE 2 g.index ++ toLE 2 g.alloc ++ toLE 1 tiles ++ toLE 1 g.role ++ zeros 4
    ++ toLE 16 (mask (·.alive)) ++ toLE 16 (mask fun t => !t.alive) ++ toLE 2 (wrap 16 g.quotaPending) ++ toLE 1 g.quotaPartner ++ zeros 9
    ++ zeros 4) 0x3C

/-- A group save area (R58). [DESIGN CHOICE: log 38] -/
def State.groupArea (s : State) (g : Group) (tiles : Nat) (es : List Entry) : List Byte :=
  let ths := s.groupThreads g.block g.index
  let lane : Nat → Option Thread := fun l => ths.find? fun t => t.tid.lane == l
  s.groupHeader g tiles ++ laneWords ths 0 (·.pc.toNat) ++ laneWords ths (3 * 2 ^ 30) (·.stateWord es)
    ++ ((List.range 128).map fun l => BitVec.ofNat 8 (((lane l).map (·.preds.toNat)).getD 0))
    ++ ((List.range 128).flatMap fun l => ((lane l).map fun t => t.xs.flatMap fun x => toLE 4 x.toNat).getD (zeros 16))
    ++ ((List.range 24).flatMap fun n => toLE 4 (sget s.uregs (ukey g.home n)).toNat) ++ zeros 32
    ++ ((List.range 8).flatMap fun t => if t < tiles then sgetN s.tiles (tkey g.home t 0) 128 else zeros 128)
    ++ ((List.range g.alloc).flatMap fun r => toLE 16 (laneMask ((List.range 128).filter fun l => !s.emptyReg g.home r l)).toNat)
    ++ ((List.range g.alloc).flatMap fun r => (sgetN s.vregs (vkey g.home r 0) 128).flatMap fun w => toLE 4 w.toNat)

def groupAreaSize (n : Nat) : Nat := 0x1140 + 528 * n

/-! ### Block save area (R62 to R64) -/

/-- Block header and barrier table (R63). -/
def Block.saveHeader (b : Block) (waitFirst waitCount : Nat) : List Byte :=
  withCrc (toLE 4 0x424B5A50 ++ toLE 2 1 ++ toLE 2 b.groups ++ toLE 4 b.key.index ++ toLE 4 b.key.launch ++ toLE 2 b.threads
    ++ toLE 1 b.regions ++ toLE 1 (if b.cancel then 1 else 0) ++ toLE 4 b.localSize ++ toLE 4 b.localBase
    ++ toLE 4 (if waitCount = 0 then 0 else waitFirst) ++ toLE 2 waitCount ++ zeros 26 ++ zeros 4) 0x3C
  ++ (List.range 16).flatMap fun i => toLE 4 (match b.barriers.find? fun x => x.1 == i with
    | some x => 2 ^ 31 + x.2
    | none => 0)

/-- Region header (R64); `busy` when an MMA on it is stopped. -/
def Region.saveHeader (r : Region) (busy : Bool) : List Byte :=
  let mma := if busy then
      toLE 1 1 ++ toLE 1 r.progress ++ toLE 1 r.slices ++ toLE 1 r.owner.toNat ++ zeros 3 ++ toLE 12 r.insn.toNat ++ zeros 4
        ++ toLE 8 r.aCursor ++ toLE 8 r.wCursor
    else zeros 39
  withCrc (toLE 1 (if r.i32 then 1 else 0) ++ mma ++ toLE 8 r.latch0.toNat ++ toLE 8 r.latch1.toNat ++ zeros 8) 0x3C

/-- A block save area (R62); `es` are the block's wait-table entries. [DESIGN CHOICE: log 38] -/
def State.blockArea (s : State) (b : Block) (waitFirst : Nat) (es : List Entry) : List Byte :=
  let gs := s.groups.filter fun g => g.block == b.key
  b.saveHeader waitFirst es.length
    ++ ((sortBy (fun g : Group => g.index) gs).flatMap fun g => s.groupArea g b.tiles es)
    ++ ((List.range b.regions).flatMap fun i =>
        let r := s.regionAt b.key i
        r.saveHeader ((s.core b.core).mmaOn b.key i) ++ (sdense r.data 0 32768).flatMap fun w => toLE 4 w.toNat)
    ++ s.bytes (localAt b.core b.localBase) b.localSize

/-- Bytes of the save area of a saved block. -/
def Kept.areaSize (k : Kept) : Nat :=
  128 + (k.groups.map fun g => groupAreaSize g.alloc).sum + k.block.regions * (64 + 131072) + k.block.localSize

/-! ### Entries and operation records (R346) -/

/-- OPC and MOD of the instruction that an access belongs to, and its SETF flag. -/
def Access.opFlag (a : Access) : Nat × Option Nat :=
  match a.part with
  | some (op, f) => (op.toNat, f)
  | none => (a.opc.toNat * 256 + a.mod.toNat, a.flag)

/-- An entry of 64 bytes. -/
def Entry.bytes (e : Entry) : List Byte :=
  let a := e.acc
  let data := if e.kind = 1 then a.data.toNat else if e.kind = 2 then a.data.toNat % 2 ^ 64 + a.cmp.toNat * 2 ^ 64 else 0
  toLE 1 e.kind ++ toLE 1 (e.key.kind + (if e.marked then 2 else 0) + Nat.log2 (max 1 a.bytes) % 8 * 16) ++ toLE 1 (if e.engine || a.part.isSome then 0xFF else a.tid.lane)
    ++ toLE 1 a.tid.group ++ toLE 4 e.key.word.toNat ++ toLE 8 (a.obj * 2 ^ 40 + a.off) ++ toLE 4 a.tid.block.launch ++ toLE 4 a.tid.block.index
    ++ toLE 2 a.reg ++ toLE 2 a.opFlag.1 ++ toLE 4 a.pc.toNat ++ toLE 16 data ++ toLE 1 (a.opFlag.2.getD 15) ++ zeros 15

/-- What an entry in the image says of it: its key, mark, place, target, flag, PC and data (R346). -/
def Entry.load (e : Entry) (bs : List Byte) : Entry :=
  let m := field bs 1 1
  let p := field bs 8 8
  let f := field bs 0x30 1 % 16
  let flag : Option Nat := if f < 12 then some f else none
  let a := { e.acc with obj := p / 2 ^ 40, off := p % 2 ^ 40, reg := field bs 0x18 2, pc := BitVec.ofNat 32 (field bs 0x1C 4) }
  let a := match a.part with
    | some (op, _) => { a with part := some (op, flag) }
    | none => { a with flag }
  let a := if e.kind = 1 then { a with data := BitVec.ofNat 128 (field bs 0x20 16) }
    else if e.kind = 2 then { a with data := BitVec.ofNat 128 (field bs 0x20 8), cmp := BitVec.ofNat 64 (field bs 0x28 8) } else a
  { e with
    acc := a, marked := m.testBit 1
    key := if m.testBit 0 then .token (BitVec.ofNat 32 (field bs 4 4)) else match e.key with
      | .page _ _ => .page a.obj a.off
      | k => k }

/-- An operation record of kind 5, 6 or 7. [DESIGN CHOICE: log 38] -/
def opRecord (kind lane group place target op data : Nat) (b : BlockKey) (pc : Word) (flag : Option Nat) : List Byte :=
  toLE 1 kind ++ toLE 1 0 ++ toLE 1 lane ++ toLE 1 group ++ toLE 4 0 ++ toLE 8 place ++ toLE 4 b.launch ++ toLE 4 b.index ++ toLE 2 target
    ++ toLE 2 op ++ toLE 4 pc.toNat ++ toLE 16 data ++ toLE 1 (flag.getD 15) ++ zeros 15

/-- The operation records of a saved block. -/
def Kept.records (k : Kept) : List Byte :=
  (k.batches.flatMap fun b => opRecord 5 0xFF b.group (b.addr + 32 * b.next) (b.count - b.next) 0xE400 0 b.block b.pc b.flag)
  ++ (k.engine.flatMap fun o => match o.kind with
    | .accdr _ a _ _ _ _ _ _ _ row => opRecord 6 0xFF o.group 0 a (o.insn.toNat / 2 ^ 80 % 2 ^ 16) row o.block o.pc o.flag
    | _ => [])

/-- The image of a FIFO. [DESIGN CHOICE: log 38] -/
def fifoImage (b : BlockKey) (k : Nat) (f : Fifo) : List Byte :=
  toLE 1 k ++ toLE 1 f.producer ++ toLE 1 f.consumer ++ zeros 1 ++ toLE 4 f.bytes.length ++ toLE 4 b.launch ++ toLE 4 b.index ++ f.bytes
    ++ zeros ((64 - (16 + f.bytes.length) % 64) % 64)

/-- The image of a batch: the rest of a row, and bytes of it already written (R238). [DESIGN CHOICE: log 38] -/
def Batch.image (b : Batch) : List Byte := (if b.cur = [] then zeros 32 else b.cur) ++ toLE 4 b.part ++ zeros 28

/-- The FIFO and batch images that follow the records. -/
def Kept.images (k : Kept) : List Byte := (k.fifos.flatMap fun p => fifoImage k.block.key p.1 p.2) ++ k.batches.flatMap Batch.image

/-- Records of kind 7 of a context's view operations. -/
def State.viewRecords (s : State) (c : Ctx) : List Byte :=
  (s.viewOps.filter fun o => o.ctx == c.num).flatMap fun o =>
    opRecord 7 o.tid.lane o.tid.group (o.index * 2 ^ 44 + o.gen * 2 ^ 40 + o.off) 0 (if o.drop then 0xB000 else 0xAF00) 0 o.tid.block o.pc o.flag

/-! ### What a saved block takes along -/

/-- The request in progress of a batch is rewritten to describe its remaining whole rows; the rest of its partly copied row
stays with the batch (R238). Its entry of the range scoreboard is to be taken again (R293). Answers the batch and the rewritten request. -/
def Batch.stop (b : Batch) : Batch × Option (List Byte) :=
  let b := { b with buf := [], held := b.held || b.len.isSome }
  if b.cur = [] ∨ b.again then (b, none)
  else if b.row = 0 ∧ b.part = 0 then ({ b with cur := [], len := if (copyReq b.cur).trans = 1 then b.len else none }, none)
  else
    let q := copyReq b.cur
    let moved : Nat → List Byte := fun k =>
      let put : List Byte → Nat → Nat → Nat → List Byte := fun bs i v d => putBytes bs i (toLE 8 (v + d))
      let bs := put b.cur 0 q.src (if q.skind = 2 then 0 else k * q.spitch)
      put bs 8 q.dst (if q.dkind = 2 then 0 else k * q.dpitch)
    let rows : List Byte → Nat → List Byte := fun bs n => putBytes bs 0x14 (toLE 2 n)
    let next := if b.part = 0 then b.row else b.row + 1
    let left := q.rows - next
    let rewritten := if left = 0 then none else some (rows (moved next) left)
    if b.part = 0 then ({ b with cur := [], len := none, row := 0 }, rewritten)
    else ({ b with cur := rows (moved b.row) 1, row := 0, again := decide (left ≠ 0) }, rewritten)

/-- Does an access of a saved block belong to it? -/
def Access.ofBlock (b : BlockKey) (a : Access) : Bool := a.tid.block == b
def Entry.ofBlock (b : BlockKey) (e : Entry) : Bool := e.acc.tid.block == b

/-- Bytes of A, or of W, that an operation has taken from a FIFO for slices that it has not added. -/
def EngineOp.inHand (o : EngineOp) (a : Bool) : List Byte :=
  let of : Option SliceIn → List Byte := fun i => (i.map fun j => o.kept a (if a then j.a else j.w)).getD []
  let scales : List Byte := if a then [] else o.kept false (o.scales.flatMap fun w => toLE 4 w.toNat)
  scales ++ of o.ready ++ of o.next ++ if a then o.bufA else o.bufW

/-- Bytes go back to the head of a FIFO. -/
def State.putBack (s : State) (core : Nat) (sp : Span) (bs : List Byte) : State :=
  match sp with
  | .fifo k => if bs.isEmpty then s else s.fifoSet core k (bs ++ ((s.core core).fifo k).bytes)
  | _ => s

/-- What the engine has fetched ahead for a block is fetched again after the restore; bytes of FIFOs are unconsumed (R219). -/
def State.stopEngine (s : State) (b : Block) : State :=
  ((s.core b.core).engine.filter fun o => o.block == b.key && o.isMma).foldl (fun (t : State) o =>
    let o := if (s.regionAt o.block (o.region.getD 0)).progress = 0 then o else { o with scales := [] }
    let u := match o.kind with
      | .mma _ _ _ _ _ a w => (t.putBack b.core w (o.inHand false)).putBack b.core a (o.inHand true)
      | _ => t
    u.modCore b.core fun c => { c with engine := c.engine.map fun x : EngineOp => if x.id = o.id then
      { x with ready := none, next := none, looked := false, bufA := [], bufW := [], scales := if o.scales.isEmpty then x.scales else [] } else x }) s

/-- Copy batches of a block stop, their requests rewritten in local memory; bytes that they have taken from a FIFO and not used go back. -/
def State.stopBatches (s : State) (b : Block) : State :=
  let s := ((s.core b.core).batches.filter fun x => x.block == b.key && !x.buf.isEmpty).foldl (fun (t : State) x => match x.src with
    | .fifo k => t.putBack b.core (.fifo k) x.buf
    | _ => t) s
  ((s.core b.core).batches.filter fun x => x.block == b.key).foldl (fun (t : State) x =>
    let (y, r) := x.stop
    let t := match r with
      | some bs => t.write (localAt b.core (x.addr + 32 * x.next)) bs
      | none => t
    t.setBatch b.core y) s

/-- What is kept of a block beside its image. -/
def State.keep (s : State) (b : Block) (evicted : Bool) : Kept :=
  let c := s.core b.core
  let gs := s.groups.filter fun g => g.block == b.key
  let engine := c.engine.filter fun o => o.block == b.key && !o.reload
  let ldgl := c.ldgl.filter fun l => l.tid.block == b.key
  { core := b.core, area := 0, evicted, block := b, groups := gs, threads := s.blockThreads b.key
    regions := (s.regions.filter fun r => r.block == b.key).map fun r : Region => { r with data := [] }
    engine, drains := c.drains.filter fun d => d.block == b.key
    batches := c.batches.filter fun x => x.block == b.key, ldgl
    accs := c.accs.filter (·.ofBlock b.key), waits := c.waits.filter (·.ofBlock b.key), retries := c.retries.filter (·.ofBlock b.key)
    side := c.side.filter (·.ofBlock b.key)
    fifos := ((List.range 8).zip c.fifos).filter fun p => p.2.owner == some b.key
    ranges := c.ranges.filter fun r => (engine.any fun o => o.id == r.op) || ldgl.any fun l => l.id == r.op
    fills := gs.flatMap fun g => (List.range g.alloc).flatMap fun r => (List.range 128).filterMap fun l =>
      let v := sget s.fills (vkey g.home r l)
      if v = 0 then none else some (g.index, r, l, v)
    latched := (c.latches.zipIdx.filter fun p => p.1.owner == some b.key && p.1.loaded).map fun p => (p.2, p.1.image) }

/-- A block leaves its core. -/
def State.removeBlock (s : State) (b : Block) : State :=
  let key := b.key
  let homes := (s.groups.filter fun g => g.block == key).map (·.home)
  let inHome : Nat → Nat → Bool := fun per k => homes.contains (k / per)
  let s := s.modCore b.core fun c =>
    { c with
      engine := c.engine.filter (fun o => o.block != key), drains := c.drains.filter (fun d => d.block != key)
      batches := c.batches.filter (fun x => x.block != key), ldgl := c.ldgl.filter (fun l => l.tid.block != key)
      accs := c.accs.filter (fun a => !a.ofBlock key), waits := c.waits.filter (fun e => !e.ofBlock key)
      retries := c.retries.filter (fun e => !e.ofBlock key), side := c.side.filter (fun e => !e.ofBlock key)
      landings := c.landings.filter (fun l => l.owner.block != key)
      ranges := c.ranges.filter (fun r => !((c.engine.any fun o => o.block == key && o.id == r.op) || (c.batches.any fun x => x.block == key && x.id == r.op)
        || c.ldgl.any fun l => l.tid.block == key && l.id == r.op))
      fifos := c.fifos.map (fun f => if f.owner = some key then {} else f)
      latches := c.latches.map fun l => if l.owner = some key then { l with owner := none } else l }
  { s with
    blocks := s.blocks.filter (fun x => x.key != key), groups := s.groups.filter (fun g => g.block != key)
    threads := s.threads.filter (fun t => t.tid.block != key), regions := s.regions.filter (fun r => r.block != key)
    vregs := s.vregs.filter (fun p => !inHome (256 * 128) p.1), fills := s.fills.filter (fun p => !inHome (256 * 128) p.1)
    uregs := s.uregs.filter (fun p => !inHome 32 p.1), tiles := s.tiles.filter (fun p => !inHome 1024 p.1) }

/-! ### When a block may be saved (R248) -/

/-- Will an access move on by itself? -/
def State.moving (s : State) (core : Nat) (a : Access) : Bool :=
  if a.is [0x96, 0x98] then false
  else if a.isFence then a.asked.isEmpty && s.readyFence core a
  else a.is [0x76] || ((a.atBlk || (s.core core).ready a) && !(s.core core).portHolds a)

/-- Has the engine come to where a save stops it: no slice is being added, and no ACCLD or ACCRD of the block can run (R219, R223)? A
debugger's freeze holds it where it stands. [DESIGN CHOICE: log 38] -/
def State.engineQuiet (s : State) (b : Block) : Bool :=
  b.frozen || (!((s.core b.core).engine.any fun o => o.block == b.key && o.ready.isSome) && !(s.core b.core).mustRun b.key)

/-- Has a block come to its stopping boundaries; `handlers` says whether threads in a handler are waited for? -/
def State.quiet (s : State) (b : Block) (handlers : Bool) : Bool :=
  let c := s.core b.core
  !(handlers && (s.blockThreads b.key).any fun t => t.handler && decide (t.life = .live))
    && !(c.landings.any fun l => l.owner.block == b.key)
    && !(c.accs.any fun a => a.ofBlock b.key && s.moving b.core a)
    && !(c.batches.any fun x => x.block == b.key && ((!x.atEdge && x.park.isNone && !s.fifoWaits b.core x) || decide (0 < x.sent)))
    && s.engineQuiet b
    && !(c.ldgl.any fun l => l.tid.block == b.key && l.park.isNone && decide (l.bytes ≠ 0))
    && !(s.groups.any fun g => g.block == b.key && !g.loading.isEmpty)
    && !((s.issue.map fun ig => ig.members.any fun t => t.block == b.key).getD false)

/-! ### The image (R249) -/

/-- Offset at which the lists begin: after the save header and the fault image. -/
def listBase : Nat := 0x1A40

/-- Orders saved blocks by launch and block index. -/
def sortKept (ks : List Kept) : List Kept := sortBy (fun k : Kept => k.block.key.launch * 2 ^ 32 + k.block.key.index) ks

def align64 (n : Nat) : Nat := (n + 63) / 64 * 64

/-- Where everything of an image goes: wait list, side list, engine list, directory, first block area, end. -/
structure ImagePlan where
  waits  : Nat
  side   : Nat
  engine : Nat
  engineBytes : List Byte
  dir    : Nat
  areas  : List Nat
  end_   : Nat
  deriving DecidableEq, Repr

def imagePlan (ks : List Kept) (views : List Byte) : ImagePlan :=
  let side := listBase + 64 * (ks.flatMap (·.waits)).length
  let engine := side + 64 * (ks.flatMap (·.side)).length
  let bytes := ks.flatMap (·.records) ++ views ++ ks.flatMap (·.images)
  let dir := align64 (engine + bytes.length)
  let first := align64 (dir + 8 * ks.length)
  let r := ks.foldl (fun (p : List Nat × Nat) k => (p.1 ++ [p.2], p.2 + k.areaSize)) (([] : List Nat), first)
  ⟨listBase, side, engine, bytes, dir, r.1, r.2⟩

/-- The save header; its CRC covers its first bytes and the directory. -/
def saveHeader (ks : List Kept) (p : ImagePlan) : List Byte :=
  let h := toLE 4 0x53565A50 ++ toLE 2 1 ++ toLE 2 ks.length ++ toLE 4 (ks.flatMap (·.waits)).length ++ toLE 4 p.waits
    ++ toLE 4 (ks.flatMap (·.side)).length ++ toLE 4 p.side ++ toLE 4 p.engine ++ toLE 4 p.engineBytes.length ++ toLE 8 p.dir
  h ++ toLE 4 (crc32c (h ++ p.areas.flatMap (toLE 8))) ++ zeros 4

/-- Index of a block's first entry in the wait list. -/
def waitFirst (ks : List Kept) (k : Kept) : Nat := ((ks.takeWhile fun x => x.block.key != k.block.key).flatMap (·.waits)).length

/-- Do the saved blocks of a context fit its save area? [DEDUCED: log 39] -/
def State.imageFits (s : State) (c : Ctx) (ks : List Kept) : Bool :=
  decide (ks.length ≤ 65535) && decide ((imagePlan ks (s.viewRecords c)).end_ ≤ c.saveBytes)

/-- Writes the whole image of a context: `area` gives the bytes of each block's save area. -/
def State.writeImage (s : State) (c : Ctx) (ks : List Kept) (area : Kept → List Byte) : State :=
  let p := imagePlan ks (s.viewRecords c)
  let at_ : Nat → PAddr := fun o => .vault c.quarter (c.saveBase + o)
  let areas := ks.map area
  let s := (s.write (at_ 0) (saveHeader ks p ++ zeros (0x1000 - 0x30))).write (at_ p.waits) ((ks.flatMap (·.waits)).flatMap (·.bytes))
  let s := ((s.write (at_ p.side) ((ks.flatMap (·.side)).flatMap (·.bytes))).write (at_ p.engine) p.engineBytes).write (at_ p.dir) (p.areas.flatMap (toLE 8))
  let s := (p.areas.zip areas).foldl (fun (t : State) x => t.write (at_ x.1) x.2) s
  let before : (Kept → Nat) → Kept → Nat := fun n k => ((ks.takeWhile fun x => x.block.key != k.block.key).map n).sum
  let ops := (ks.flatMap (·.records)).length + (s.viewRecords c).length
  let moved := (ks.zip p.areas).map fun x =>
    ({ x.1 with area := x.2, waitsAt := p.waits + 64 * before (·.waits.length) x.1, sideAt := p.side + 64 * before (·.side.length) x.1
                opsAt := p.engine + before (·.records.length) x.1, imagesAt := p.engine + ops + before (·.images.length) x.1 } : Kept)
  { s with kept := (s.kept.filter fun k => k.block.ctx != c.num) ++ moved }

/-- The bytes of a saved block's area: of one saved before, as they stand; of one saved now, made from the state. -/
def State.areaOf (s : State) (c : Ctx) (ks : List Kept) (k : Kept) : List Byte :=
  if s.blocks.any fun b => b.key == k.block.key then s.blockArea k.block (waitFirst ks k) k.waits
  else
    let bs := s.bytes (.vault c.quarter (c.saveBase + k.area)) k.areaSize
    let h := putBytes (putBytes (bs.take 0x40) 0x1C (toLE 4 (if k.waits.isEmpty then 0 else waitFirst ks k))) 0x20 (toLE 2 k.waits.length)
    withCrc h 0x3C ++ bs.drop 0x40

/-- Saves blocks of a context with those saved before; none when the save area cannot hold them. -/
def State.saveBlocks (s : State) (c : Ctx) (bs : List Block) (evicted : Bool) : Option State :=
  let s := (bs.foldl State.stopBatches s)
  let s := bs.foldl State.stopEngine s
  let s := (s.places.filter fun o => bs.any fun b => b.key == o.block).foldl (fun (u : State) o => u.putCursor o (o.cursor 2)) s
  let ks := sortKept ((s.kept.filter fun k => k.block.ctx == c.num) ++ bs.map fun b => s.keep b evicted)
  if s.imageFits c ks then
    let t := s.writeImage c ks (s.areaOf c ks)
    some (bs.foldl State.removeBlock t)
  else none

/-- Discards what the cores cache of a context, and frees its pooled handles (R248 step 6, R316). -/
def State.dropCaches (s : State) (c : Ctx) : State :=
  let pooled := s.cores.flatMap fun k : Core => (k.pool.filter fun p => p.1 == c.num).map (·.2)
  let s := pooled.foldl (fun (t : State) i => t.putView c i { t.viewEntry c i with state := 0 }) s
  { s with cores := s.cores.map fun k : Core =>
      { k with views := k.views.filter (fun v => v.ctx != c.num), lines := k.lines.filter (fun l => l.ctx != c.num)
               stats := k.stats.filter (fun l => l.ctx != c.num), pool := k.pool.filter fun p => p.1 != c.num } }

/-- The fault image (R246). -/
def FaultImage.bytes (f : FaultImage) : List Byte :=
  let per : (Nat → List Byte) → List Byte := fun g => (List.range 128).flatMap g
  toLE 4 f.reason.toNat ++ toLE 4 f.pc.toNat ++ toLE 4 f.launch ++ zeros 4 ++ toLE 16 f.mask.toNat ++ toLE 16 f.hit.toNat ++ zeros 16
    ++ per (fun l => toLE 4 (((f.infos.find? fun x => x.1 == l).map (·.2.toNat)).getD 0))
    ++ per (fun l => toLE 8 (((f.offsets.find? fun x => x.1 == l).map (·.2)).getD 0))
    ++ per (fun l => toLE 8 (match f.names.find? fun x => x.1 == l with
      | some (_, t) => 2 ^ 63 + t.group % 8 * 2 ^ 32 + t.block.index % 2 ^ 32
      | none => 0))

/-! ### Restoring a block (R61, R63, R250) -/

/-- The area of a saved block passes the checks of R61. -/
def State.areaOk (s : State) (c : Ctx) (k : Kept) : Bool :=
  let rd : Nat → Nat → List Byte := fun o n => s.bytes (.vault c.quarter (c.saveBase + k.area + o)) n
  let h := rd 0 64
  let gs := sortBy (fun g : Group => g.index) k.groups
  let starts := gs.foldl (fun (p : List Nat × Nat) g => (p.1 ++ [p.2], p.2 + groupAreaSize g.alloc)) (([] : List Nat), 128)
  let gs := gs.zip starts.1
  field h 0 4 == 0x424B5A50 && field h 4 2 == 1 && crcOk h 0x3C && field h 6 2 == k.block.groups && field h 8 4 == k.block.key.index
    && field h 0xC 4 == k.block.key.launch && field h 0x10 2 == k.block.threads && field h 0x12 1 == k.block.regions
    && field h 0x14 4 == k.block.localSize && field h 0x18 4 == k.block.localBase
    && ((List.range k.block.regions).all fun i => crcOk (rd (starts.2 + i * (64 + 131072)) 64) 0x3C)
    && gs.all fun p =>
        let g := rd p.2 64
        field g 0 4 == 0x47535A50 && field g 4 2 == 1 && field g 6 2 == p.1.index && field g 8 2 == p.1.alloc && field g 0xA 1 == k.block.tiles && crcOk g 0x3C

/-- A thread from its lane of a group save area; `k` gives what the image does not hold. -/
def restoreThread (rd : Nat → Nat → List Byte) (k : Kept) (home : Nat) (t : Thread) : Thread :=
  let l := t.tid.lane
  let w := field (rd (0x240 + 4 * l) 4) 0 4
  let pend := bits w 29 18
  let life : Life := match w / 2 ^ 30 with
    | 0 => .live
    | 2 => match k.waits[w % 4096]? with
      | some e => .parked e.key
      | none => t.life
    | _ => .exited
  { t with
    home, life, pc := BitVec.ofNat 32 (field (rd (0x40 + 4 * l) 4) 0 4), preds := BitVec.ofNat 7 (field (rd (0x440 + l) 1) 0 1)
    xs := (List.range 4).map fun j => BitVec.ofNat 32 (field (rd (0x4C0 + 16 * l + 4 * j) 4) 0 4 % 2 ^ 30)
    flags := (List.range 12).map fun i => if pend.testBit i then t.flags.getD i 0 else 0
    trapCause := 0, trapPc := 0, trapInfo := 0, clkHi := 0
    fpflags := BitVec.ofNat 5 (bits w 17 13), lastIssue := none, yielded := none, waitSince := none
    blocked := if t.blocked = some .ended then some .ended else none }

/-- Restores one home group into its slot. -/
def State.restoreGroup (s : State) (rd : Nat → Nat → List Byte) (k : Kept) (g : Group) (home sched : Nat) : State :=
  let n := g.alloc
  let words : Nat → Nat → List Word := fun o m => (runsOf 4 m (rd o (4 * m))).map fun b => BitVec.ofNat 32 (ofLE b)
  let h := rd 0 64
  let g' : Group := { g with home, sched, role := field h 0xB 1, quotaPending := sext 16 (field h 0x30 2), quotaPartner := field h 0x32 1
                             readySince := none, forced := false, windows := [], hang := 0, hangPcs := [] }
  let ths := (k.threads.filter fun t => t.tid.group == g.index).map (restoreThread rd k home)
  let s := { s with
    groups := s.groups ++ [g'], threads := s.threads ++ ths
    uregs := sputL s.uregs (ukey home 0) (words 0xCC0 24), tiles := sputL s.tiles (tkey home 0 0) (rd 0xD40 1024) }
  (List.range n).foldl (fun (t : State) r =>
    let full := field (rd (0x1140 + 16 * r) 16) 0 16
    let t := { t with vregs := sputL t.vregs (vkey home r 0) (words (0x1140 + 16 * n + 512 * r) 128) }
    (List.range 128).foldl (fun (u : State) l =>
      if full.testBit l then u
      else u.markEmpty home r l (((k.fills.find? fun f => f.1 == g.index && f.2.1 == r && f.2.2.1 == l).map (·.2.2.2.toNat)).getD (2 ^ 63))) t) s

/-- A region from its entry (R64). -/
def restoreRegion (rd : Nat → Nat → List Byte) (k : Kept) (i : Nat) : Region :=
  let h := rd 0 64
  let r := (k.regions.find? fun r => r.index == i).getD { block := k.block.key, index := i }
  let r := { r with i32 := field h 0 1 == 1, latch0 := BitVec.ofNat 64 (field h 0x28 8), latch1 := BitVec.ofNat 64 (field h 0x30 8)
                    data := sOf 0 ((runsOf 4 32768 (rd 64 131072)).map fun b => BitVec.ofNat 32 (ofLE b)) }
  if field h 1 1 = 1 then
    { r with progress := field h 2 1, slices := field h 3 1, owner := BitVec.ofNat 8 (field h 4 1), insn := BitVec.ofNat 96 (field h 8 12)
             aCursor := field h 0x18 8, wCursor := field h 0x20 8 }
  else r

/-- The WLOAD that loads a valid latch slot again (R215, R216, R250). [DESIGN CHOICE: log 20] -/
def reloadSlot (c : Ctx) (k : Kept) (b : BlockKey) (id slot : Nat) (v : BitVec 64) : EngineOp :=
  let hi := (if v.getLsbD 36 then 2 ^ 24 else 0) + (v.extractLsb' 32 4).toNat * 2 ^ 20
  { id, block := b, group := 0, ctx := c.num, insn := 0, lanes := [], flag := none
    kind := .wload (latchFmt v) slot (v.extractLsb' 0 32) (BitVec.ofNat 32 hi), seen := (k.latched.find? fun i => i.1 == slot).map (·.2) }

/-- A FIFO from its image. -/
def Fifo.load (f : Fifo) (bs : List Byte) : Fifo :=
  { f with producer := field bs 1 1, consumer := field bs 2 1, bytes := (bs.drop 16).take f.bytes.length }

/-- A batch from its operation record and its image. -/
def Batch.load (b : Batch) (rec img : List Byte) : Batch :=
  let f := field rec 0x30 1 % 16
  { b with
    addr := field rec 8 8 % 2 ^ 23 - 32 * b.next, count := b.next + field rec 0x18 2, flag := if f < 12 then some f else none
    pc := BitVec.ofNat 32 (field rec 0x1C 4), cur := if allZero (img.take 32) then [] else img.take 32, part := field img 32 4 }

/-- A drain from its operation record. -/
def EngineOp.load (o : EngineOp) (rec : List Byte) : EngineOp :=
  match o.kind with
  | .accdr i32 _ fmt mode pk auto scales regs dst _ =>
    let f := field rec 0x30 1 % 16
    { o with kind := .accdr i32 (field rec 0x18 2 % 8) fmt mode pk auto scales regs dst (field rec 0x20 2), flag := if f < 12 then some f else none }
  | _ => o

/-- The unfinished work of a saved block, loaded from the lists of the image (R61, R250); what those do not hold is as it was kept. -/
def Kept.load (k : Kept) (rd : Nat → Nat → List Byte) : Kept :=
  let entries : Nat → List Entry → List Entry := fun at_ es => es.zipIdx.map fun p => p.1.load (rd (at_ + 64 * p.2) 64)
  let fifos := k.fifos.foldl (fun (p : List (Nat × Fifo) × Nat) f =>
    let n := (fifoImage k.block.key f.1 f.2).length
    (p.1 ++ [(f.1, f.2.load (rd p.2 n))], p.2 + n)) (([] : List (Nat × Fifo)), k.imagesAt)
  let batches := k.batches.zipIdx.map fun p => p.1.load (rd (k.opsAt + 64 * p.2) 64) (rd (fifos.2 + 64 * p.2) 64)
  let engine := k.engine.foldl (fun (p : List EngineOp × Nat) o => match o.kind with
    | .accdr .. => (p.1 ++ [o.load (rd p.2 64)], p.2 + 64)
    | _ => (p.1 ++ [o], p.2)) (([] : List EngineOp), k.opsAt + 64 * k.batches.length)
  { k with waits := entries k.waitsAt k.waits, side := entries k.sideAt k.side, fifos := fifos.1, batches, engine := engine.1 }

/-- Is there room in the range scoreboards for the entries that saved blocks take again at their spots before their first thread issues
(R292, R293)? -/
def State.rangesFit (s : State) (ks : List Kept) (sps : List (BlockKey × Spot)) : Bool :=
  let needs : BlockKey → Nat := fun b => match ks.find? fun k => k.block.key == b with
    | some k => k.ranges.length + (k.batches.filter (·.held)).length
    | none => 0
  sps.all fun p => decide (((sps.filter fun q => q.2.core == p.2.core).map fun q => needs q.1).sum + (s.core p.2.core).ranges.length ≤ 32)

/-- The range that a started request of a restored batch takes again, from the rest of its partly copied row on (R293). -/
def State.rangeAgain (s : State) (core : Nat) (x : Batch) : Option Range :=
  let q := copyReq (s.bytes (localAt core (x.addr + 32 * x.next)) 32)
  let r := if x.cur ≠ [] then copyReq x.cur else q
  let last := if x.cur ≠ [] ∧ x.again = false then r else q
  if x.held = false ∨ x.count ≤ x.next ∨ r.dkind ≠ 1 then none
  else (x.len.or r.outBytes).map fun n => { lo := r.dst % 2 ^ 23 + (if x.cur ≠ [] then x.part else 0), hi := last.dst % 2 ^ 23 + (last.rows - 1) * last.dpitch + n, op := x.id }

/-- Restores a block at a spot: registers, regions, local memory from the image, and its unfinished work. [DESIGN CHOICE: log 38] -/
def State.restoreBlock (s : State) (c : Ctx) (k : Kept) (sp : Spot) : State :=
  let rd : Nat → Nat → List Byte := fun o n => s.bytes (.vault c.quarter (c.saveBase + k.area + o)) n
  let k := k.load fun o n => s.bytes (.vault c.quarter (c.saveBase + o)) n
  let key := k.block.key
  let gs := (sortBy (fun g : Group => g.index) k.groups)
  let starts := (gs.foldl (fun (p : List Nat × Nat) g => (p.1 ++ [p.2], p.2 + groupAreaSize g.alloc)) (([] : List Nat), 128))
  let b := { k.block with
    core := sp.core, cancel := (field (rd 0x13 1) 0 1).testBit 0 || k.block.cancel
    phase := if k.block.phase = .evicting then .running else k.block.phase
    barriers := (List.range 16).filterMap fun i =>
      let w := field (rd (0x40 + 4 * i) 4) 0 4
      if w.testBit 31 then some (i, w % 2 ^ 23) else none }
  let s := { s with blocks := s.blocks ++ [b], kept := s.kept.filter fun x => x.block.key != key }
  let s := ((gs.zip starts.1).zip sp.homes).foldl (fun (t : State) p =>
    t.restoreGroup (fun o n => rd (p.1.2 + o) n) k p.1.1 p.2.1 p.2.2) s
  let s := { s with regions := s.regions ++ (List.range b.regions).map fun i => restoreRegion (fun o n => rd (starts.2 + i * (64 + 131072) + o) n) k i }
  let s := s.copyRun (.vault c.quarter (c.saveBase + k.area + starts.2 + b.regions * (64 + 131072))) (localAt sp.core b.localBase) b.localSize
  let a0 := s.regionAt key 0
  let slots := if b.regions = 0 then [] else [0, 1].filter fun i => latchValid (a0.latch i)
  let reload := slots.map fun i => reloadSlot c k key (s.nextId + i) i (a0.latch i)
  let s := slots.foldl (fun (t : State) i => t.takeSlot sp.core i key (a0.latch i)) s
  let s := s.markPlaces (fun o => o.block == key) 1
  (s.fresh 2).modCore sp.core fun x =>
    { x with
      engine := x.engine ++ reload ++ k.engine.map (s.opAgain sp.core), drains := x.drains ++ k.drains, batches := x.batches ++ k.batches, ldgl := x.ldgl ++ k.ldgl
      accs := x.accs ++ k.accs, waits := x.waits ++ k.waits, retries := x.retries ++ k.retries, side := x.side ++ k.side
      ranges := x.ranges ++ k.ranges ++ k.batches.filterMap (s.rangeAgain sp.core)
      fifos := k.fifos.foldl (fun (l : List Fifo) p => l.set p.1 p.2) x.fifos }

/-- What a REPLAY named while the block was saved is performed now, on the core it has come back to (R247, R250). -/
def State.replayMarked (s : State) (core : Nat) (c : Ctx) (key : BlockKey) : State :=
  let pick : Entry → Bool := fun e => e.marked && e.ofBlock key
  let (t, sent) := s.replaySide core c pick
  t.replayWaits core c sent pick

end Sys2Proof.Machine
end

