-- ==== Sys2Proof/Machine/Context.lean ====
section
/-! DEFINITION. The context: registration, its states, pre-emption and restore, faults, destruction, and the view commands
of the mailbox (R242, R246 to R250, R317, R320, R387). -/

namespace Sys2Proof.Machine

/-! ### Registration (R242, R320) -/

/-- A context control block as registered; none where the Bursar finds it bad. [DEDUCED: log 41] -/
def readContext (quarter addr : Nat) (bs : List Byte) : Option Ctx :=
  let ve := field bs 0x0C 4
  let vt := field bs 0x10 8
  let ot := field bs 0x18 8
  let oe := field bs 0x20 4
  let qe := field bs 0x24 4
  let sa := field bs 0x40 8
  let n := field bs 6 2
  if field bs 0 4 ≠ 0x43545A50 ∨ field bs 4 2 ≠ 1 ∨ crcOk bs 0x7C = false ∨ 1023 < n ∨ 1 < field bs 8 2 ∨ field bs 0x0A 1 ≠ quarter
    ∨ ve = 0 ∨ 2 ^ 20 < ve ∨ vt % 64 ≠ 0 ∨ ot % 64 ≠ 0 ∨ oe = 0 ∨ 2 ^ 24 < oe ∨ qe < 64 ∨ 65536 < qe ∨ 2 ^ qe.log2 ≠ qe ∨ sa % 4096 ≠ 0
    ∨ allZero ((bs.drop 0x54).take 40) = false then none
  else some { num := n, priv := field bs 8 2 == 1, quarter, viewEntries := ve, viewTable := vt, objTable := ot, objEntries := oe, queueEntries := qe
              faultBase := field bs 0x28 8, errorBase := field bs 0x30 8, control := addr, saveBase := sa, saveBytes := field bs 0x48 8
              faultTail := field bs 0x3C 2, errorTail := field bs 0x3E 2, lost := field bs 0x50 4 }

/-- Boundaries a quarter's coverage store holds. -/
def coverageStore : Nat := 2 ^ 23

/-- REGISTER_CONTEXT (R242, R320). -/
def execRegisterContext (quarter addr : Nat) (s : State) : Host.Outcome State Fault Refusal :=
  let p : PAddr := .vault quarter addr
  s.mail fun s =>
  if p.exists_ 128 = false ∨ s.gated.contains quarter then conclude (s.reply .badState)
  else match readContext quarter addr (s.bytes p 128) with
    | none => conclude (s.reply .badState)
    | some c =>
      let others := s.ctxs.filter fun x => x.num != c.num
      let taken := s.ctxs.any fun x => x.num == c.num && x.state != .destroyed
      if taken then conclude (s.reply .badState)
      else if coverageStore < 2 * (((others.filter fun x => x.state != .destroyed).map (·.viewEntries)).sum + c.viewEntries) then conclude (s.reply .noSpace)
      else conclude ((({ s with ctxs := others ++ [c], torn := s.torn.filter (fun t => t.1 != c.num), oldViews := s.oldViews.filter fun v => v.1 != c.num }).setCtxState c.num .created).reply .ok)

/-- START (R247, R387). -/
def execStart (ctx : Nat) (s : State) : Host.Outcome State Fault Refusal :=
  s.mail fun s =>
  match s.ctx? ctx with
  | some c =>
    if c.state ≠ .created then conclude (s.reply .badState)
    else conclude (((s.modCtx ctx fun c => { c with confKey := s.confidential c }).setCtxState ctx .runnable).reply .ok)
  | none => conclude (s.reply .badState)

/-! ### Pre-emption (R247, R248) -/

/-- A running context with no block resident is RUNNABLE (R247). [DEDUCED: log 41] -/
def State.settleRunning (s : State) (ctx : Nat) : State :=
  match s.ctx? ctx with
  | some c => if c.state = .running ∧ (s.blocks.any fun b => b.ctx == ctx) = false then s.setCtxState ctx .runnable else s
  | none => s

/-- PREEMPT (R247): a RUNNABLE context is saved at once. -/
def execPreempt (ctx : Nat) (s : State) : Host.Outcome State Fault Refusal :=
  s.mail fun s =>
  match s.ctx? ctx with
  | some c => match c.state with
    | .runnable => match s.saveBlocks c [] false with
      | some t => conclude (((t.dropCaches c).setCtxState ctx .saved).reply .ok)
      | none => conclude ((s.faultCtxBare ctx reasonInternal).reply .ok)
    | .running => conclude ((s.setCtxState ctx .preempting).reply .ok)
    | _ => conclude (s.reply .badState)
  | none => conclude (s.reply .badState)

/-- Resident blocks of a context. -/
def State.blocksOf (s : State) (ctx : Nat) : List Block := s.blocks.filter fun b => b.ctx == ctx

/-- PREEMPT_SAVE_DONE (R248, R249): every core of the context has come to its stopping boundaries; the image is written. [DEDUCED: log 39] -/
def execPreemptSaveDone (ctx : Nat) (s : State) : Host.Outcome State Fault Refusal :=
  match s.ctx? ctx with
  | some c =>
    let bs := s.blocksOf ctx
    if c.state ≠ .preempting ∨ c.fault.isSome ∨ (bs.all fun b => s.quiet b true) = false then conclude s
    else match s.saveBlocks c bs false with
      | some t =>
        let u := ((t.dropCaches c).modCtx ctx fun c => { c with dump := c.dump.map fun d => { d with armed := true } }).setCtxState ctx .saved
        conclude (if c.dump.isSome then u.reply (.report (u.threadNames ctx)) else u)
      | none => conclude (s.faultCtxBare ctx reasonInternal)
  | none => conclude s

/-! ### Context faults (R246) -/

/-- Every queue of a context becomes DISABLED (R259). -/
def State.disableQueues (s : State) (ctx : Nat) : State :=
  (List.range s.queues.length).foldl (fun (t : State) i => match t.queue? i with
    | some q => if q.ctx = ctx then t.setQueueState i .disabled else t
    | none => t) s

/-- Block index and home group index that a CTXFAULT record gives: those of the lowest lane's thread (R244). [DEDUCED: log 40] -/
def FaultImage.place (f : FaultImage) : Nat × Nat :=
  match minBy (·.1) f.names with
  | some (_, t) => (t.block.index, t.group)
  | none => (0, 0)

/-- The thread that a CTXFAULT record names (R244): the lowest lane's, or 0xFFFF where several threads raised it that are a whole home group, or
where none did. [DEDUCED: log 40] -/
def State.faultThread (s : State) (f : FaultImage) : Nat :=
  match minBy (·.1) f.names with
  | some (_, t) =>
    if 1 < f.names.length ∧ (f.names.all fun x => x.2.block == t.block && x.2.group == t.group)
        ∧ f.names.length = ((s.groupThreads t.block t.group).filter (·.alive)).length then 0xFFFF else threadIndex t
  | none => 0xFFFF

/-- Steps 2 and 3 of R246; `thread` is what the record names. [DEDUCED: log 40] -/
def State.raiseFault (s : State) (c : Ctx) (img : FaultImage) (thread : Nat) : State :=
  let s := if listBase ≤ c.saveBytes then s.write (.vault c.quarter (c.saveBase + 0x1000)) img.bytes else s
  let s := s.faultRecord c.num (mkRecord 0x10 img.core img.place.2 0 0 0 0 img.launch img.place.1 thread img.reason.toNat img.pc)
  ((s.modCtx c.num fun c => { c with resuming := false }).setCtxState c.num .faulted).disableQueues c.num

/-- CONTEXT_FAULT (R246): the context is saved as under pre-emption, then the image and the record follow. [DEDUCED: log 39, 40] -/
def execContextFault (ctx : Nat) (s : State) : Host.Outcome State Fault Refusal :=
  match s.ctx? ctx with
  | some c => match c.fault with
    | some img =>
      let bs := s.blocksOf ctx
      if c.state = .faulted ∨ c.state = .destroyed ∨ (bs.all fun b => s.quiet b false) = false then conclude s
      else match s.saveBlocks c bs false with
        | some t => conclude ((t.dropCaches c).raiseFault c img (s.faultThread img))
        | none => conclude (((bs.foldl State.removeBlock s).dropCaches c).raiseFault c
            (if img.reason = reasonInternal then img else { img with reason := reasonInternal }) (s.faultThread img))
    | none => conclude s
  | none => conclude s

/-! ### Restore (R250) -/

/-- RESUME (R247): the restore follows when enough clusters are free. [DEDUCED: log 41] -/
def execResume (ctx : Nat) (s : State) : Host.Outcome State Fault Refusal :=
  s.mail fun s =>
  match s.ctx? ctx with
  | some c => if c.state = .saved then conclude ((s.modCtx ctx fun c => { c with resuming := true }).reply .ok) else conclude (s.reply .badState)
  | none => conclude (s.reply .badState)

/-- Shape of a saved block. -/
def Kept.shape (k : Kept) : Shape :=
  { ctx := k.block.ctx, launch := k.block.key.launch, gang := if k.block.spawned.isSome then none else some k.block.gang, allocs := (sortBy (fun g : Group => g.index) k.groups).map (·.alloc)
    local_ := k.block.localSize / 4096, regions := k.block.regions, base := some (k.block.localBase) }

/-- Do two saved blocks belong to one gang? -/
def Kept.sameGang (a b : Kept) : Bool :=
  a.block.key == b.block.key || (a.block.key.launch == b.block.key.launch && a.block.gang == b.block.gang
    && clusterOf a.core == clusterOf b.core && a.block.spawned.isNone && b.block.spawned.isNone)

/-- Are the FIFOs of saved blocks free on a cluster? -/
def State.fifosFree (s : State) (cl : Nat) (ks : List Kept) : Bool :=
  ks.all fun k => k.fifos.all fun p => ((s.core (4 * cl + sliceOf k.core)).fifo p.1).owner.isNone

/-- Spots for saved blocks: gang by gang, each on the lowest cluster it fits; `used` says which cluster's blocks a cluster has
taken in this restore. [DESIGN CHOICE: log 43] -/
def State.restoreSpots (s : State) (used : List (Nat × Nat)) : Nat → List Kept → Option (List (BlockKey × Spot))
  | _, [] => some []
  | 0, _ => none
  | fuel + 1, k :: rest =>
    let gang := k :: rest.filter k.sameGang
    let others := rest.filter fun x => !k.sameGang x
    let want := gang.map fun x => (x.block.key, x.shape, some (sliceOf x.core))
    let home := clusterOf k.core
    let fits : Nat → Bool := fun cl => s.fifosFree cl gang && (used.all fun u => u.1 != cl || u.2 == home) && (s.gangSpots cl want).isSome
    match (List.range 48).find? fits with
    | none => none
    | some cl =>
      let sps := (s.gangSpots cl want).getD []
      let t := sps.foldl (fun (t : State) p => match gang.find? fun x => x.block.key == p.1 with
        | some x => t.occupy x.shape p.2 p.1
        | none => t) s
      (t.restoreSpots ((cl, home) :: used) fuel others).map (sps ++ ·)

/-- The save header of a context passes its checks (R61, R249). -/
def State.saveHeaderOk (s : State) (c : Ctx) : Bool :=
  let h := s.bytes (.vault c.quarter c.saveBase) 0x30
  let n := field h 6 2
  let dir := s.bytes (.vault c.quarter (c.saveBase + field h 0x20 8)) (8 * n)
  field h 0 4 == 0x53565A50 && field h 4 2 == 1 && n == (s.kept.filter fun k => k.block.ctx == c.num).length
    && field h 0x28 4 == crc32c (h.take 0x28 ++ dir)

/-- Multicast stores of a block that has come back follow it to its core. -/
def State.moveMultis (s : State) (old new : Nat) (key : BlockKey) : State :=
  if old = new then s
  else
    let mine : Multi → Bool := fun m => m.tids.any fun t => t.block == key
    let ms := (s.core old).multis.filter mine
    let s := s.modCore old fun c => { c with multis := c.multis.filter fun m => !mine m }
    let s := s.modCore new fun c => { c with multis := c.multis ++ ms }
    { s with requests := s.requests.map fun r : Request => if r.core = old ∧ (ms.any fun m => m.id == r.id) then { r with core := new } else r }

/-- Restores saved blocks at their spots. [DESIGN CHOICE: log 43] -/
def State.restoreAll (s : State) (c : Ctx) (ks : List Kept) (sps : List (BlockKey × Spot)) : State :=
  let t := sps.foldl (fun (t : State) p => match ks.find? fun k => k.block.key == p.1 with
    | some k => (t.restoreBlock c k p.2).moveMultis k.core p.2.core p.1
    | none => t) s
  sps.foldl (fun (t : State) p => t.replayMarked p.2.core c p.1) t

/-- Has a block ended whose units have not returned (R271)? [DEDUCED: log 46] -/
def State.endDue (s : State) (b : Block) : Bool :=
  let c := s.core b.core
  let key := b.key
  (s.blockThreads key).all (fun t => !t.alive)
    && !(c.outstanding.any fun a => a.ofBlock key) && !(c.engine.any fun o => o.block == key) && !(c.drains.any fun d => d.block == key)
    && !(c.batches.any fun x => x.block == key) && !(c.ldgl.any fun x => x.tid.block == key) && !(c.multis.any fun m => m.tids.any fun t => t.block == key)
    && !(c.landings.any fun x => x.owner.block == key) && !(s.places.any fun o => o.block == key) && !(s.viewOps.any fun o => o.tid.block == key)
    && (match b.phase with
      | .prologue _ _ => false
      | _ => true)

/-- RESTORE_DONE (R250): units of blocks that have ended return before it (R271). [DEDUCED: log 41] -/
def execRestoreDone (ctx : Nat) (s : State) : Host.Outcome State Fault Refusal :=
  match s.ctx? ctx with
  | some c =>
    if c.state ≠ .saved ∨ c.resuming = false ∨ c.fault.isSome ∨ s.blocks.any s.endDue then conclude s
    else
      let ks := sortKept (s.kept.filter fun k => k.block.ctx == ctx && !k.evicted)
      if s.saveHeaderOk c = false ∨ (ks.all fun k => s.areaOk c k) = false then
        conclude (s.raiseFault c { reason := reasonRestoreBad } 0xFFFF)
      else match s.restoreSpots [] ks.length ks with
        | none => conclude s
        | some sps =>
          if s.rangesFit ks sps = false then conclude s
          else
          let t := s.restoreAll c ks sps
          conclude (((t.modCtx ctx fun c => { c with resuming := false }).setCtxState ctx .running).settleRunning ctx)
  | none => conclude s

/-! ### DESTROY (R247, R316) -/

/-- Ends every view of a context. -/
def State.endViews (s : State) (c : Ctx) : State :=
  (List.range c.viewEntries).foldl (fun (t : State) i =>
    let e := t.viewEntry c i
    if i = 0 then t else if e.state = 2 then t.putView c i e.dropped else if e.state = 1 then t.putView c i { e with state := 0 } else t) s

/-- Frees every covered page of a context's objects that is not FILLING or EVICTING. -/
def State.freeObjects (s : State) (c : Ctx) : State :=
  (List.range c.objEntries).foldl (fun (t : State) i => match t.object? c i with
    | some o =>
      if o.held then t
      else (t.leaves o 0 (2 ^ 40)).1.foldl (fun (u : State) l =>
        if l.entry.state = 1 ∨ l.entry.state = 3 ∨ l.entry.state = 5 then u else u.freePage l) t
    | none => t) s

/-- A context number no context has: queues of a destroyed context keep their place in the table under it. [DESIGN CHOICE: log 76] -/
def noCtx : Nat := 2 ^ 16

/-- Everything of a context goes (R247). -/
def State.destroyCtx (s : State) (c : Ctx) : State :=
  let n := c.num
  let bs := s.blocksOf n
  let keys := bs.map (·.key)
  let gone : BlockKey → Bool := fun b => keys.contains b || s.kept.any fun k => k.block.ctx == n && k.block.key == b
  let s := (s.disableQueues n).dropCaches c
  let s := { s with
    kept := s.kept.filter (fun k => k.block.ctx != n), places := s.places.filter (fun o => !gone o.block), viewOps := s.viewOps.filter (fun o => o.ctx != n)
    launches := s.launches.filter (fun l => l.ctx != n), counters := s.counters.filter (fun k => k.ctx != n)
    torn := s.torn.filter (fun t => t.1 != n), oldViews := s.oldViews.filter (fun v => v.1 != n)
    prefetched := s.prefetched.filter (fun p => p.1 != n), memberLines := s.memberLines.filter (fun p => p.packet.ctx != n)
    issue := match s.issue with
      | some ig => if ig.members.any fun t => gone t.block then none else some ig
      | none => none
    pageRing := match s.pageRing with
      | some i => if (s.queue? i).any fun q : Queue => q.ctx == n then none else some i
      | none => none
    cores := s.cores.map fun k : Core => { k with multis := k.multis.filter (fun m => m.ctx != n), recorded := k.recorded.filter fun r => r.1 != n } }
  let s := (((bs.foldl State.removeBlock s).endViews c).freeObjects c).unitForget n
  let s := { s with coverage := s.coverage.filter (fun x => x.ctx != n), queues := s.queues.map fun q : Queue => if q.ctx = n then { q with ctx := noCtx } else q }
  (s.modCtx n fun c => { c with fault := none, resuming := false, traceRing := none, dump := none, confKey := false, heldRecords := [] }).setCtxState n .destroyed

/-- DESTROY (R247). -/
def execDestroy (ctx : Nat) (s : State) : Host.Outcome State Fault Refusal :=
  s.mail fun s =>
  match s.ctx? ctx with
  | some c => if c.state = .destroyed then conclude (s.reply .badState) else conclude ((s.destroyCtx c).reply .ok)
  | none => conclude (s.reply .badState)

/-! ### View commands (R317) -/

/-- VIEWROOT (R317). [DEDUCED: log 83] -/
def execViewroot (ctx obj low high : Nat) (rights : BitVec 8) (s : State) : Host.Outcome State Fault Refusal :=
  s.mail fun s =>
  match s.liveCtx ctx with
  | none => conclude (s.reply .badState)
  | some c => match s.object? c obj with
    | none => conclude (s.reply .badArg)
    | some o =>
      if high < low ∨ 2 ^ 40 < high ∨ 15 < rights.toNat then conclude (s.reply .badArg)
      else match s.anyFree c with
        | none => conclude (s.reply .noSpace)
        | some i =>
          let p := mkPtr i (s.viewEntry c i).gen low
          conclude ((s.makeLive c i obj low high (rights.setWidth 4) o.held).reply (.pointer p))

/-- VIEWRECYCLE (R317). -/
def execViewrecycle (ctx index : Nat) (s : State) : Host.Outcome State Fault Refusal :=
  s.mail fun s =>
  match s.liveCtx ctx with
  | none => conclude (s.reply .badState)
  | some c =>
    let e := s.viewEntry c index
    if index = 0 ∨ c.viewEntries ≤ index ∨ e.state ≠ 3 then conclude (s.reply .badState)
    else conclude (((s.putView c index { e with state := 0, gen := 0 }).dropCopies ctx index).reply .ok)

end Sys2Proof.Machine
end

