-- ==== Sys2Proof/Machine/Gang.lean ====
section
/-! DEFINITION. Placing blocks and gangs, their waits and evictions, and the end of a block (R43, R257, R260, R261, R263 to
R265, R269, R271). -/

namespace Sys2Proof.Machine

/-! ### What a launch places next -/

/-- A placement that is possible now. -/
inductive Placing where
  /-- Evicted blocks that return. -/
  | back (ks : List Kept) (sps : List (BlockKey × Spot))
  /-- The next gang of regular blocks, or the next block. -/
  | blocks (sps : List (BlockKey × Spot))
  | spawned (index entry : Nat) (recs : List (List Word)) (sp : Spot)
  deriving DecidableEq, Repr

/-- Keys of the next gang (R261). -/
def Launch.nextGang (l : Launch) : List BlockKey :=
  (List.range (min l.header.gang (l.count - l.next))).map fun i => ⟨l.num, l.next + i⟩

/-- Spots of a gang: on the fitting cluster with the most free units of the limiting resource (R265). -/
def State.gangPlace (s : State) (l : Launch) : Option (List (BlockKey × Spot)) :=
  let sh := l.header.shape l.ctx l.num l.gangNumber
  let want := l.nextGang.map fun k => (k, sh, (none : Option Nat))
  let fit := (List.range 48).filter fun cl => (s.gangSpots cl want).isSome
  (maxBy (fun cl => s.clusterUnits cl sh.limiting) fit).bind fun cl => s.gangSpots cl want

/-- Spots for evicted blocks that return together (R63, R263, R265): where they fit, each on a core of the same index, with the most free
units of the limiting resource: on that core for one block, over the cluster for several. -/
def State.returnSpots (s : State) (ks : List Kept) : Option (List (BlockKey × Spot)) :=
  match ks with
  | [] => none
  | k :: rest =>
    let want := ks.map fun x => (x.block.key, x.shape, some (sliceOf x.core))
    let r := k.shape.limiting
    let room : Nat → Nat := fun cl => if rest.isEmpty then s.freeUnits (4 * cl + sliceOf k.core) r else s.clusterUnits cl r
    (maxBy room ((List.range 48).filter fun cl => s.fifosFree cl ks && (s.gangSpots cl want).isSome)).bind fun cl => s.gangSpots cl want

/-- Evicted blocks of a launch that return together: the first, and those of its gang. [DEDUCED: log 42] -/
def State.returning (s : State) (l : Launch) : List Kept :=
  match sortKept (s.kept.filter fun k => k.evicted && k.block.key.launch == l.num) with
  | [] => []
  | k :: rest => k :: rest.filter k.sameGang

/-- What the launch places next, where it fits now. -/
def State.placing? (s : State) (l : Launch) : Option Placing :=
  match s.returning l with
  | k :: ks =>
    let leaving := s.blocks.any fun b => b.phase == .evicting && b.key.launch == l.num && b.gang == k.block.gang
    if leaving then none else (s.returnSpots (k :: ks)).map fun sps => .back (k :: ks) sps
  | [] =>
    if l.next < l.count then
      if 1 < l.header.gang then (s.gangPlace l).map .blocks
      else (s.bestSpot (l.header.shape l.ctx l.num l.gangNumber) (List.range 192)).map fun sp => .blocks [(⟨l.num, l.next⟩, sp)]
    else match l.ready with
      | (i, e, rs) :: _ => (s.bestSpot (l.header.spawnShape l.ctx l.num) (List.range 192)).map fun sp => .spawned i e rs sp
      | [] => none

/-- May the launch place at all (R257)? -/
def State.placeable (s : State) (l : Launch) : Bool :=
  !l.settled && l.state != .cancelled && l.state != .rejected
    && (match s.ctx? l.ctx with
      | some c => c.fault.isNone && (c.state == .runnable || c.state == .running)
      | none => false)
    && l.preds.all (fun p => (s.launches.any fun x => x.num == p && x.settled && x.code == 1))
    && (s.launches.takeWhile fun x => x.num != l.num).all fun x => x.queue != l.queue || decide (x.count ≤ x.next) || x.settled

/-- Launches in the order in which they place: priority, then take order. -/
def State.placeOrder (s : State) : List Launch := sortBy (fun l : Launch => 7 - l.priority) s.launches

/-- The first launch in order that can place now, and what. -/
def State.nextPlacing (s : State) : Option (Launch × Placing) :=
  s.placeOrder.findSome? fun l => if s.placeable l then (s.placing? l).map fun p => (l, p) else none

/-! ### Placing -/

/-- A home group and its threads as a block starts (R43, R261). -/
def State.startGroup (s : State) (key : BlockKey) (h home sched alloc role n : Nat) (pc : Word) (args : BitVec 64) : State :=
  let ths := (List.range n).map fun l => ({ tid := ⟨key, h, l⟩, home, pc } : Thread)
  let g : Group := { block := key, index := h, home, sched, alloc, role }
  { s with
    groups := s.groups ++ [g], threads := s.threads ++ ths
    uregs := sput (sput s.uregs (ukey home 0) (args.setWidth 32)) (ukey home 1) ((args >>> 32).setWidth 32) }

/-- Places one block. Its threads observe what was released to them, by the record or by their SPAWN, so the core's lines are stale (R156, R257,
R299). -/
def State.placeBlock (s : State) (l : Launch) (key : BlockKey) (sp : Spot) (gang threads : Nat) (pc : Word) (spawned : Option (Nat × List (List Word))) : State :=
  let hd := l.header
  let sh := if spawned.isSome then hd.spawnShape l.ctx l.num else hd.shape l.ctx l.num gang
  let b : Block := { key, ctx := l.ctx, core := sp.core, localBase := sp.base, localBytes := hd.localBytes, threads, groups := sh.allocs.length
                     regions := hd.regions, tiles := hd.tiles, gang, spawned }
  let s := s.staleLines sp.core
  let s := { s with blocks := s.blocks ++ [b], regions := s.regions ++ (List.range hd.regions).map fun i => { block := key, index := i } }
  ((List.range sh.allocs.length).zip (sh.allocs.zip sp.homes)).foldl (fun (t : State) p =>
    t.startGroup key p.1 p.2.2.1 p.2.2.2 p.2.1 (if spawned.isSome then 0 else (hd.allocOf p.1).2) (min 128 (threads - 128 * p.1)) pc l.args) s

/-- The continuation arguments of a spawned block's lanes (R269). -/
def State.giveArgs (s : State) (home : Nat) (recs : List (List Word)) : State :=
  ((List.range recs.length).zip recs).foldl (fun (t : State) p =>
    ((List.range 14).zip (p.2.drop 1)).foldl (fun (u : State) q => u.setCell (.vec home q.1 p.1) q.2) t) s

/-- The context of a launch runs from its first placed block on (R247). -/
def State.ctxRuns (s : State) (ctx : Nat) : State :=
  match s.ctx? ctx with
  | some c => if c.state = .runnable then s.setCtxState ctx .running else s
  | none => s

/-- Carries out a placement. -/
def State.place (s : State) (l : Launch) (p : Placing) : State :=
  let s := s.ctxRuns l.ctx
  match p with
  | .back ks sps => match s.ctx? l.ctx with
    | some c => if s.rangesFit ks sps = false then s else s.restoreAll c (ks.map fun k : Kept => { k with evicted := false }) sps
    | none => s
  | .blocks sps =>
    let s := sps.foldl (fun (t : State) x => t.placeBlock l x.1 x.2 l.gangNumber l.header.threads 0 none) s
    s.modLaunch l.num fun l =>
      let n := l.next + sps.length
      { l with next := n, gangWait := none, drain := none, state := if n < l.count then .placing else .running }
  | .spawned i e recs sp =>
    let s := s.placeBlock l ⟨l.num, i⟩ sp 0 recs.length (BitVec.ofNat 32 e) (some (e, recs))
    let s := s.giveArgs ((sp.homes.headD (0, 0)).1) recs
    s.modLaunch l.num fun l => { l with ready := l.ready.drop 1 }

/-- The next gang of a launch waits, and no cluster fits it (R265). -/
def State.gangStuck (s : State) (l : Launch) : Bool :=
  s.placeable l && (s.returning l).isEmpty && decide (l.next < l.count) && decide (1 < l.header.gang) && (s.gangPlace l).isNone

/-- BLOCK_PLACE (R257, R263, R264): the launch places its next block or gang, when it is first in order; a gang that fits
nowhere begins to wait; a launch whose predecessor did not complete is cancelled. -/
def execBlockPlace (launch : Nat) (s : State) : Host.Outcome State Fault Refusal :=
  let s := s.pay launch
  match s.launch? launch with
  | none => conclude s
  | some l =>
    if l.preds.any fun p => s.launches.any fun x => x.num == p && x.settled && x.code != 1 then conclude (s.cancelLaunch launch)
    else if s.blocks.any s.endDue then conclude s
    else if s.gangStuck l ∧ l.gangWait.isNone then conclude (s.modLaunch launch fun l => { l with gangWait := some s.now })
    else match s.nextPlacing with
      | some (x, p) => if x.num = launch then conclude (s.place x p) else conclude s
      | none => conclude s

/-! ### The wait of a gang (R265) -/

/-- DRAIN_CLUSTER_RESERVE (R265 step 2): 2^20 cycles after the wait began. [DESIGN CHOICE: log 45] -/
def execDrainClusterReserve (launch : Nat) (s : State) : Host.Outcome State Fault Refusal :=
  match s.launch? launch with
  | none => conclude s
  | some l => match l.gangWait with
    | none => conclude s
    | some t0 =>
      if l.drain.isSome ∨ s.now < t0 + 2 ^ 20 ∨ s.blocks.any s.endDue ∨ s.gangStuck l = false then conclude s
      else
        let sh := l.header.shape l.ctx l.num l.gangNumber
        let free := (List.range 48).filter fun cl => (s.reservedFor cl).isNone && !s.quarterClosed (cl / 12) && !s.coreBroken (4 * cl)
        match maxBy (fun cl => s.clusterUnits cl sh.limiting) free with
        | some cl => conclude (s.modLaunch launch fun l => { l with drain := some cl })
        | none => conclude s

/-- PREEMPTIBLE and PERSISTENT of a block's header (R115). -/
def State.headerBit (s : State) (b : Block) (i : Nat) : Bool := ((s.headerOf b.key).map (·.flags.getLsbD i)).getD false

/-- Can the save area of its context hold a block, with its gang (R265)? -/
def State.saveFits (s : State) (b : Block) : Bool :=
  match s.ctx? b.ctx with
  | some c => s.imageFits c (sortKept ((s.kept.filter fun k => k.block.ctx == c.num) ++ (s.gangOf b).map fun x => s.keep x true))
  | none => false

/-- May a block be evicted: PREEMPTIBLE, not ended, not cancelled, its gang past the prologue, and its context's save area can hold it?
[DEDUCED: log 42] -/
def State.evictable (s : State) (b : Block) : Bool :=
  s.headerBit b 0 && !s.endDue b && !b.cancel && ((s.gangOf b).all fun x => x.phase == .running || x.phase == .evicting) && s.saveFits b

/-- Does a block keep a gang out for good: PERSISTENT, and its context's save area could hold it (R265)? -/
def State.persistent (s : State) (b : Block) : Bool := s.headerBit b 1 && s.saveFits b

/-- Does a gang fit a cluster once some blocks are gone? [DEDUCED: log 42] -/
def State.fitsWithout (s : State) (l : Launch) (cl : Nat) (gone : List BlockKey) : Bool :=
  let t := { s with blocks := s.blocks.filter (fun b => !gone.contains b.key), groups := s.groups.filter (fun g => !gone.contains g.block) }
  (t.gangSpots cl (l.nextGang.map fun k => (k, l.header.shape l.ctx l.num l.gangNumber, none))).isSome

/-- Blocks whose removal is needed: from those that may go, each is left where the gang fits without its going too. -/
def State.needed (s : State) (l : Launch) (cl : Nat) : List BlockKey → List BlockKey → List BlockKey
  | gone, [] => gone
  | gone, k :: ks => if s.fitsWithout l cl (gone.filter (· != k)) then s.needed l cl (gone.filter (· != k)) ks else s.needed l cl gone ks

/-- A queue whose launch is rejected goes to ERROR, and its error field is written on entering it (R259). [DEDUCED: log 44] -/
def State.rejectQueue (s : State) (l : Launch) (code detail : Nat) : State :=
  match s.queue? l.queue, s.ctx? l.ctx with
  | some q, some c => match q.state with
    | .draining | .disabled | .error => s
    | _ =>
      let s := (s.qPut c q 0x24 4 (code * 2 ^ 24 + detail % 256 * 2 ^ 16 + l.record % q.entries)).getD s
      (s.setQueueState l.queue .error).modQueue l.queue fun q => { q with atHead := false }
  | _, _ => s

/-- Blocks begin to be evicted, each with its gang. [DEDUCED: log 42] -/
def State.evictBlocks (s : State) (bs : List Block) : State :=
  let go := (bs.filter s.evictable).flatMap fun b => (s.gangOf b).map (·.key)
  let mark : Block → Block := fun b => if go.contains b.key && b.phase == .running then { b with phase := .evicting } else b
  { s with blocks := s.blocks.map mark }

/-- GANG_EVICT_DECISION (R265 step 3). [DEDUCED: log 44] -/
def execGangEvictDecision (launch : Nat) (s : State) : Host.Outcome State Fault Refusal :=
  match s.launch? launch with
  | none => conclude s
  | some l => match l.gangWait, l.drain with
    | some t0, some cl =>
      if s.now < t0 + 2 ^ 20 + 2 ^ 24 ∨ s.blocks.any s.endDue ∨ s.gangStuck l = false then conclude s
      else
        let here := s.blocks.filter fun b => clusterOf b.core == cl
        let loose := (here.filter fun b => !s.persistent b).map (·.key)
        if s.fitsWithout l cl (here.map (·.key)) = false then conclude s
        else if s.fitsWithout l cl loose = false then conclude ((s.discardRest l .rejected (4, l.header.gang)).rejectQueue l 4 l.header.gang)
        else
          let keys := s.needed l cl loose ((here.filter s.evictable).map (·.key))
          conclude (s.evictBlocks (here.filter fun b => keys.contains b.key))
    | _, _ => conclude s

/-- Evicted blocks of a launch that places nothing more are discarded (R258, R260). [DEDUCED: log 42] -/
def State.discardEvicted (s : State) (n : Nat) (keys : List BlockKey) : State :=
  match s.launch? n with
  | some l =>
    if l.state = .rejected ∨ l.state = .cancelled then
      (({ s with kept := s.kept.filter fun k => !(k.evicted && keys.contains k.block.key) }).owe n keys.length).pay n
    else s
  | none => s

/-- BLOCK_EVICTION_DONE (R265): the block and its gang have come to their stopping boundaries; they are saved together and leave their cores, or
all run on where the save area cannot hold them. [DEDUCED: log 42] -/
def execBlockEvictionDone (key : BlockKey) (s : State) : Host.Outcome State Fault Refusal :=
  match s.block? key with
  | none => conclude s
  | some b => match s.ctx? b.ctx with
    | none => conclude s
    | some c =>
      let bs := (s.gangOf b).filter fun x => !s.endDue x
      if b.phase ≠ .evicting ∨ s.endDue b ∨ c.state ≠ .running ∨ c.fault.isSome ∨ (bs.all fun x => x.phase == .evicting && s.quiet x true) = false then conclude s
      else match s.saveBlocks c bs true with
        | some t => conclude ((t.discardEvicted key.launch (bs.map (·.key))).settleRunning b.ctx)
        | none => conclude { s with blocks := s.blocks.map fun x => if bs.any fun y => y.key == x.key then { x with phase := .running } else x }

/-! ### The end of a block (R154, R256, R260) -/

/-- Users of other blocks that wait at a mailbox in the local memory of a block that ends wait for ever (R297). -/
def State.endBoxes (s : State) (b : Block) : State :=
  let stuck : Thread → Thread := fun t => match t.blocked with
    | some (.mailbox a _ _ _) => if clusterOf t.core = clusterOf b.core ∧ b.localBase ≤ a ∧ a < b.localBase + b.localSize then { t with blocked := some .ended } else t
    | _ => t
  { s with threads := s.threads.map stuck }

/-- What stood in code before it was written is forgotten once no block that executes it is resident (R82). -/
def State.forgetCode (s : State) : State :=
  { s with oldCode := s.oldCode.filter fun w => s.blocks.any fun b => b.key.launch == w.1 }

/-- BLOCK_END (R154, R260, R271): the block's units return, and its launch's counter decreases. [DEDUCED: log 46] -/
def execBlockEnd (key : BlockKey) (s : State) : Host.Outcome State Fault Refusal :=
  match s.block? key with
  | none => conclude s
  | some b =>
    if s.endDue b = false then conclude s
    else
      let s := ((s.removeBlock b).endBoxes b).forgetCode
      let s := s.modLaunch key.launch fun l =>
        let l := match b.phase with
          | .abandoned c => { l with verdict := some (l.verdict.getD (6, c.toNat)) }
          | _ => l
        if l.state = .running ∧ (s.blocks.any fun x => x.key.launch == l.num) = false ∧ (s.kept.any fun k => k.block.key.launch == l.num) = false ∧ !(l.open_.isEmpty && l.ready.isEmpty) then { l with state := .draining } else l
      conclude (((s.owe key.launch 1).pay key.launch).settleRunning b.ctx)

end Sys2Proof.Machine
end

