-- ==== Sys2Proof/Machine/Pages.lean ====
section
/-! DEFINITION. The pager's ring, fills and evictions (R339, R341, R347 to R349), soft errors and lost frames (R350). -/

namespace Sys2Proof.Machine

/-- PAGERING (R347): one per device. [DEDUCED: log 61] -/
def execPagering (ctx : Nat) (ptr : BitVec 64) (s : State) : Host.Outcome State Fault Refusal :=
  s.mail fun s => conclude (s.register ctx ptr true)

/-! ### Page commands -/

/-- The fields of a page command (R347). [DEDUCED: log 61] -/
def parsePage (pager : Nat) (r : List Byte) : PageOp :=
  { evict := field r 0 1 == 0x11, mode := field r 1 1, ctx := field r 4 4, obj := field r 0x0D 3, off := field r 8 5
    source := field r 0x10 8, counter := recPtr r 0x18, counterCtx := pager, frame := field r 0x20 8, length := field r 0x28 4 }

/-- The detail with which a page command is rejected, in the order of R255; 0 when it is good. [DEDUCED: log 61] -/
def State.pageCheck (s : State) (c : Ctx) (r : List Byte) : Nat :=
  let p := parsePage c.num r
  let zero : Nat → Nat → Bool := fun i n => field r i n == 0
  if field r 0 1 ≠ 0x10 ∧ p.evict = false then 1
  else if crcOk r 0x3C = false then 2
  else if (zero 2 2 && zero 0x2C 16 && decide (p.mode ≤ if p.evict then 1 else 2) && (p.length == 0 || (!p.evict && p.mode == 2))) = false then 3
  else if s.badPtr c p.counter 16 1 rightW then 4
  else 0

/-- The leaf that a page operation names; none where no mapping of this device holds it. -/
def State.pageLeaf (s : State) (p : PageOp) : Option (Ctx × ObjEntry × Leaf) :=
  match s.ctx? p.ctx with
  | none => none
  | some c => match s.object? c p.obj with
    | none => none
    | some o => if o.home = 2 then none else match s.walk o p.off with
      | .leaf l => some (c, o, l)
      | _ => none

/-- Is the walk of a page operation one that faults its context (R341)? [DEDUCED: log 62] -/
def State.pageBroken (s : State) (p : PageOp) : Bool :=
  match s.ctx? p.ctx with
  | none => false
  | some c => match s.object? c p.obj with
    | none => false
    | some o => o.home != 2 && s.walk o p.off == .bad

/-- A page operation settles its counter; none while the counter cannot be reached. [DEDUCED: log 62] -/
def State.settlePage (s : State) (p : PageOp) (code detail : Nat) : Option State :=
  match s.ctx? p.counterCtx with
  | none => some s
  | some c => match s.placeOf c p.counter with
    | none => some s
    | some a => s.counterStatus c a code detail

/-- Is an operation on the page of `p` in progress, or one of those before it in `earlier`? -/
def State.pageBusy (s : State) (earlier : List PageOp) (p : PageOp) : Bool :=
  match s.pageLeaf p with
  | none => false
  | some (_, _, l) => ((s.pageOps.filter fun q => !q.waiting) ++ earlier).any fun q =>
      q.ctx == p.ctx && q.obj == p.obj && decide (l.base ≤ q.off) && decide (q.off < l.base + l.size)

/-- The detail with which a good command fails at once, nothing changing (R341, R348, R349); 0 when it is accepted. -/
def Leaf.refuses (l : Leaf) (p : PageOp) : Nat :=
  if p.evict then
    if l.entry.state ≠ 2 then 1 else if l.entry.expanded ∧ l.entry.dirty ∧ p.mode = 0 then 5 else 0
  else if l.entry.state = 0 ∨ l.entry.state = 4 ∨ l.entry.state = 5 then 0 else 1

/-- An accepted command: FILLING with its frame, or EVICTING with the leaf dropped everywhere. [DEDUCED: log 62] -/
def State.beginPage (s : State) (p : PageOp) (l : Leaf) : State :=
  let s := if p.evict then (s.putPte l (l.entry.set 3 l.entry.frame l.entry.dirty l.entry.expanded)).dropLines p.ctx p.obj l.base l.size
    else s.putPte l (l.entry.set 1 p.frame l.entry.dirty l.entry.expanded)
  { s with pageOps := s.pageOps ++ [p], prefetched := s.prefetched.filter fun x => x != (p.ctx, p.obj, l.base) }

/-- Takes a good command; none while its counter cannot be reached. -/
def State.startPage (s : State) (p : PageOp) : Option State :=
  match s.pageLeaf p with
  | none =>
    let t := if s.pageBroken p then s.faultCtxBare p.ctx reasonInternal else s
    t.settlePage p 6 6
  | some (_, _, l) => if l.refuses p ≠ 0 then s.settlePage p 6 (l.refuses p) else some (s.beginPage p l)

/-- Starts the `i`-th operation, one that waits, when nothing before it holds it back any longer; none where it goes on waiting. -/
def State.startWaiting (s : State) (evict : Bool) (i : Nat) : Option State :=
  match s.pageOps[i]? with
  | none => none
  | some p =>
    if p.waiting = false ∨ p.evict ≠ evict ∨ s.pageBusy (s.pageOps.take i) p then none
    else { s with pageOps := eraseAt s.pageOps i }.startPage { p with waiting := false }

/-- Takes the command at the head of the page ring, if it is an EVICT, or if it is anything else; it waits behind an earlier command for its
page, and those behind it go on. [DEDUCED: log 61] -/
def State.takePage (s : State) (evict : Bool) : State :=
  match s.pageRing with
  | none => s
  | some i =>
    let s := s.refreshQueue i
    match s.queue? i with
    | none => s
    | some q => match s.liveCtx q.ctx with
      | none => s
      | some c =>
        if q.state ≠ .active then s
        else match s.qField c q 0x18 4 with
          | none => s
          | some head => match s.recordAt c q head with
            | none => s
            | some r =>
              let p := parsePage c.num r
              let n := s.pageCheck c r
              if p.evict ≠ evict then s
              else if n ≠ 0 then (s.failQueue c i q head 5 n []).getD s
              else match s.qPut c q 0x18 4 ((head + 1) % 2 ^ 32) with
                | none => s
                | some t =>
                  let t := { t with pageOps := t.pageOps ++ [{ p with waiting := true }] }.refreshQueue i
                  (t.startWaiting evict (t.pageOps.length - 1)).getD t

/-- The next part of the work of the fill engine: a waiting operation that may start, or the next command of the ring. -/
def State.pageTurn (s : State) (evict : Bool) : State :=
  match (List.range s.pageOps.length).findSome? (s.startWaiting evict) with
  | some t => t
  | none => s.takePage evict

/-- FILL (R347, R348): the fill engine starts the next FILL. -/
def execFill (s : State) : Host.Outcome State Fault Refusal := conclude (s.pageTurn false)

/-- EVICT (R347, R349). [DESIGN CHOICE: log 63] -/
def execEvict (s : State) : Host.Outcome State Fault Refusal := conclude (s.pageTurn true)

/-! ### Ends of fills and evictions -/

/-- Place of a frame of an object. -/
def ObjEntry.frameAt (o : ObjEntry) (frame : Nat) : PAddr := if o.home = 1 then .pool frame else .vault o.quarter frame

/-- Copies a page. -/
def State.copyPage (s : State) (src dst : PAddr) (n : Nat) : State :=
  let t := s.copyRun src dst n
  t.setPoison dst ((t.poison dst).filter fun w => !(decide (dst.key ≤ 4 * w) && decide (4 * w + 4 ≤ dst.key + n)))

/-- Step 3 of a fill: the frame written whole, or the detail of the failure. -/
def State.fillFrame (s : State) (p : PageOp) (o : ObjEntry) (l : Leaf) : State × Nat :=
  let dst := o.frameAt l.entry.frame
  let src : PAddr := .pool p.source
  let asked := if p.mode = 0 then 0 else if p.mode = 1 then l.size else p.length
  if (p.mode ≠ 0 ∧ s.poolRefuses p.source asked) ∨ (o.home = 1 ∧ s.poolGranted l.entry.frame l.size = false) then (s, 7)
  else if p.mode ≠ 0 ∧ s.poisoned src asked then (s, 4)
  else match p.mode with
    | 0 => (s.zeroRun dst l.size, 0)
    | 1 => (s.copyPage src dst l.size, 0)
    | _ =>
      let image := s.bytes src p.length
      if badImage p.length image then (s, 2)
      else if l.size < field image 8 4 * field image 4 1 then (s, 3)
      else ((s.zeroRun dst l.size).write dst (expandImage image), 0)

/-- The page of an operation that has ended is freed when its context is gone (R247). -/
def State.freeAfter (s : State) (p : PageOp) (c : Ctx) : State :=
  if c.state = .destroyed then match s.pageLeaf p with
    | some (_, _, l) => s.freePage l
    | none => s
  else s

/-- Ends the `i`-th page operation: the leaf in its new state, the counter settled. -/
def State.endPage (s : State) (i : Nat) (p : PageOp) (c : Ctx) (l : Leaf) (e : Pte) (code detail : Nat) : State :=
  match (s.putPte l e).settlePage p code detail with
  | none => s
  | some t => { t.freeAfter p c with pageOps := eraseAt s.pageOps i }

/-- Bytes of a page that a failed PLACE has left open take free values once the page is filled (R333). [DESIGN CHOICE: log 16] -/
def State.freeOpen (s : State) (c : Ctx) (o : ObjEntry) (obj : Nat) (l : Leaf) : State :=
  let mine : Nat × Nat × Nat × Nat → Bool := fun x => x.1 == c.num && x.2.1 == obj && decide (l.base ≤ x.2.2.1) && decide (x.2.2.1 < l.base + l.size)
  ((s.openBytes.filter mine).zipIdx).foldl (fun (t : State) x =>
    t.write ((o.frameAt l.entry.frame).shift (x.1.2.2.1 - l.base)) (toLE x.1.2.2.2 (Config.freeWord s.tick x.2).toNat))
    { s with openBytes := s.openBytes.filter fun x => !mine x }

/-- FILL_DONE (R348): steps 3 to 5 of the `i`-th page operation, a fill. [DEDUCED: log 62] -/
def execFillDone (i : Nat) (s : State) : Host.Outcome State Fault Refusal :=
  match s.pageOps[i]? with
  | none => conclude s
  | some p =>
    if p.evict ∨ p.waiting then conclude s
    else match s.pageLeaf p with
      | none => conclude { s with pageOps := eraseAt s.pageOps i }
      | some (c, o, l) =>
        let (t, detail) := s.fillFrame p o l
        if detail ≠ 0 then conclude (s.endPage i p c l (l.entry.set 0 l.entry.frame false false) 6 detail)
        else conclude ((t.freeOpen c o p.obj l).endPage i p c l (l.entry.set 2 l.entry.frame false (p.mode == 2)) 1 0).registerAgain

/-- EVICTION_DONE (R349): steps 3 and 4 of the `i`-th page operation, an eviction. [DEDUCED: log 62] -/
def execEvictionDone (i : Nat) (s : State) : Host.Outcome State Fault Refusal :=
  match s.pageOps[i]? with
  | none => conclude s
  | some p =>
    if p.evict = false ∨ p.waiting then conclude s
    else match s.pageLeaf p with
      | none => conclude { s with pageOps := eraseAt s.pageOps i }
      | some (c, o, l) =>
        let src := o.frameAt l.entry.frame
        let back := l.entry.set 2 l.entry.frame l.entry.dirty l.entry.expanded
        if p.mode % 2 = 0 then conclude (s.endPage i p c l (l.entry.set 0 l.entry.frame false false) 1 0)
        else if s.poolGranted p.source l.size = false then conclude (s.endPage i p c l back 6 7)
        else if s.poisoned src l.size then conclude (s.endPage i p c l back 6 4)
        else conclude ((s.copyPage src (.pool p.source) l.size).endPage i p c l (l.entry.set 0 l.entry.frame false false) 1 0)

/-! ### Errors of the Vault (R350) -/

/-- SOFT_ERROR (R350): a single-bit error is corrected, written back and counted; a word beyond correction is poisoned. [DEDUCED: log 64] -/
def execSoftError (quarter addr : Nat) (corrected : Bool) (s : State) : Host.Outcome State Fault Refusal :=
  if (PAddr.vault quarter addr).exists_ 1 = false then conclude s
  else if corrected then conclude { s with softErrors := s.softErrors + 1 }
  else conclude (s.addPoison (.vault quarter (addr / 4 * 4)) 4)

/-- FRAME_LOST (R339, R350): a RESIDENT page becomes POISONED, with a MEMUE record of its place. [DESIGN CHOICE: log 63; DEDUCED: log 64] -/
def execFrameLost (ctx obj off : Nat) (s : State) : Host.Outcome State Fault Refusal :=
  match s.ctx? ctx with
  | none => conclude s
  | some c => match s.object? c obj with
    | none => conclude s
    | some o => if o.home = 2 then conclude s else match s.walk o off with
      | .leaf l =>
        if l.entry.state ≠ 2 then conclude s
        else
          let s := (s.putPte l (l.entry.set 4 l.entry.frame l.entry.dirty l.entry.expanded)).dropLines ctx obj l.base l.size
          conclude (s.errorRecord ctx (mkRecord 0x21 0xFF 0 0 0 obj l.base 0 0 0xFFFF 0 0))
      | _ => conclude s

end Sys2Proof.Machine
end

