-- ==== Sys2Proof/Machine/Router.lean ====
section
/-! DEFINITION. The routers of the device (R352, R354, R355, R357, R359, R362): coordinates, the link and the virtual channel on which a
packet leaves, the buffers and credits of each channel, packets passed on for other devices, remaps, and what a failed link returns. -/

namespace Sys2Proof.Machine

/-! ### Coordinates (R352, R362) -/

def Routes.bank (r : Routes) : Bank := if r.current then r.bank1 else r.bank0

/-- Size of a ring: 0 for x, 1 for y, 2 for z. -/
def Bank.ring (b : Bank) (dim : Nat) : Nat := if dim = 0 then b.rings.1 else if dim = 1 then b.rings.2.1 else b.rings.2.2

/-- Position of a device ID; none when the bank marks it absent. -/
def Bank.position (b : Bank) (dev : Nat) : Option Nat := (b.places.find? fun p => p.1 == dev).map (·.2)

/-- A coordinate of a position. -/
def coordinate (pos dim : Nat) : Nat := pos / 8 ^ dim % 8

/-- The device one link away from a position. -/
def Bank.neighbour (b : Bank) (pos dir : Nat) : Option Nat :=
  let dim := dir / 2
  let n := b.ring dim
  let at_ := coordinate pos dim
  let next := if dir % 2 = 0 then (at_ + 1) % n else (at_ + n - 1) % n
  (b.places.find? fun p => p.2 == pos - at_ * 8 ^ dim + next * 8 ^ dim).map (·.1)

def State.bank (s : State) (plane : Nat) : Bank := (s.routes.getD plane {}).bank

/-- Does the device have this link? A ring of size 1 has none, and one of size 2 its + links only. -/
def State.hasLink (s : State) (l : Nat) : Bool :=
  let n := (s.bank (l / 6)).ring (l % 6 / 2)
  decide (l < 48) && (decide (3 ≤ n) || (n == 2 && l % 2 == 0))

/-! ### Routes (R357) -/

/-- Way on a ring of size `n`: 0 for +, 1 for −, the shorter one, and + at a distance of exactly n/2; none at the place itself. -/
def ringWay (n at_ goal : Nat) : Option Nat :=
  let d := (goal + n - at_) % n
  if d = 0 then none else if 2 * d ≤ n then some 0 else some 1

/-- The direction in which a packet leaves a position: x first, then y, then z; none where it has arrived. -/
def Bank.way (b : Bank) (here there : Nat) : Option Nat :=
  [0, 1, 2].findSome? fun dim => (ringWay (b.ring dim) (coordinate here dim) (coordinate there dim)).map (2 * dim + ·)

/-- The virtual channel of a hop from a position: 1 when that hop, or one before it on the ring, crosses the wrap link. The packet came to the
ring at the coordinate of the position where it was injected. -/
def Bank.channel (b : Bank) (from_ here dir : Nat) : Nat :=
  let n := b.ring (dir / 2)
  let a := coordinate from_ (dir / 2)
  let h := coordinate here (dir / 2)
  if dir % 2 = 0 then (if n ≤ a + (h + n - a) % n + 1 then 1 else 0) else (if a < (a + n - h) % n + 1 then 1 else 0)

/-- The class of a packet: 0 REQ, 1 RSP, 2 ATM, 3 MGT (R357, R358). -/
def packetClass (p : Packet) : Nat :=
  if p.kind = 1 ∨ p.kind = 2 then 0 else if p.kind = 3 ∨ p.kind = 4 ∨ p.kind = 5 then 2 else if p.kind = 0x10 then 3 else 1

/-! ### Packets and flits (R358, R359) -/

/-- Is a byte the kind of a packet? -/
def knownKind (k : Nat) : Bool := [1, 2, 3, 4, 5, 6, 7, 8, 9, 0x0A, 0x10].contains k

/-- The packet header and the data. [DESIGN CHOICE: log 89] -/
def packetBytes (p : Packet) : List Byte :=
  toLE 1 p.kind ++ toLE 1 (p.flags.toNat % 8) ++ toLE 2 (p.dst % 512) ++ toLE 2 (p.src % 512) ++ toLE 2 p.ctx ++ toLE 8 (p.off % 2 ^ 40 + p.obj % 2 ^ 24 * 2 ^ 40)
    ++ toLE 4 p.tag.toNat ++ toLE 2 p.length ++ toLE 1 p.op.toNat ++ [0] ++ toLE 2 (p.form.toNat * 4096 + p.group % 4096) ++ zeros 6 ++ p.data

/-- The packet that bytes from a link of a plane hold; `ok` says whether an encrypted one passes its GCM check. [DESIGN CHOICE: log 89] -/
def parsePacket (plane : Nat) (ok : Bool) (bs : List Byte) : Packet :=
  let kind := field bs 0 1
  let length := field bs 0x14 2
  let flags := BitVec.ofNat 8 (field bs 1 1)
  { kind, flags, dst := field bs 2 2 % 512, src := field bs 4 2 % 512, ctx := field bs 6 2, off := field bs 8 8 % 2 ^ 40, obj := field bs 8 8 / 2 ^ 40
    tag := BitVec.ofNat 32 (field bs 0x10 4), op := BitVec.ofNat 8 (field bs 0x16 1), group := field bs 0x18 2 % 4096, plane, length
    form := BitVec.ofNat 4 (field bs 0x18 2 / 4096)
    data := if kind = 1 then [] else (bs.drop 32).take length, tagOk := ok || !flags.getLsbD 0 }

/-- Flits of a packet (R359); an encrypted one carries a tag of 16 bytes (R360). -/
def packetFlits (p : Packet) : Nat := (32 + p.data.length + (if p.flags.getLsbD 0 then 16 else 0) + 127) / 128

/-- The payloads of a packet's flits; `gcm` gives the bytes of its tag. [DESIGN CHOICE: log 89] -/
def packetPayloads (p : Packet) (gcm : Nat → Byte) : List (List Byte) :=
  let n := packetFlits p
  let bs := packetBytes p ++ (if p.flags.getLsbD 0 then (List.range 16).map gcm else [])
  runsOf 128 n (bs ++ zeros (128 * n - bs.length))

/-- Bits [31:0] of a flit header (R358). -/
def flitLow (ch : Nat) (first last integ : Bool) (credits seq : BitVec 8) : BitVec 32 :=
  BitVec.ofNat 3 ch ++ (if first then 1#1 else 0#1) ++ (if last then 1#1 else 0#1) ++ (if integ then 1#1 else 0#1) ++ 0#10 ++ credits ++ seq

/-- The CRC of a flit: over bits [31:0] of its header, its payload and its tag. -/
def flitCrc (low : BitVec 32) (payload : List Byte) (tag : BitVec 64) : BitVec 32 :=
  BitVec.ofNat 32 (crc32c (toLE 4 low.toNat ++ payload ++ toLE 8 tag.toNat))

/-- A flit with its CRC. [DESIGN CHOICE: log 89] -/
def makeFlit (low : BitVec 32) (payload : List Byte) (tag : BitVec 64) : Flit := { header := flitCrc low payload tag ++ low, payload, tag }

/-- Bits [31:0] of the header, and its fields. -/
def flitBits (f : Flit) : BitVec 32 := f.header.setWidth 32
def flitCrcOk (f : Flit) : Bool := f.header.extractLsb' 32 32 == flitCrc (flitBits f) f.payload f.tag
/-- Its channel: twice its class, and its VC. -/
def flitChannel (f : Flit) : Nat := (f.header.extractLsb' 29 3).toNat
def flitFirst (f : Flit) : Bool := f.header.getLsbD 28
def flitLast (f : Flit) : Bool := f.header.getLsbD 27
def flitInteg (f : Flit) : Bool := f.header.getLsbD 26
def flitCredits (f : Flit) : Nat := (f.header.extractLsb' 8 8).toNat
def flitSeq (f : Flit) : BitVec 8 := f.header.setWidth 8
/-- Does a flit pass the receiver's checks: its CRC, and the GMAC where its tag is one? -/
def flitGood (f : Flit) : Bool := flitCrcOk f && (f.gmacOk || !flitInteg f)

/-- The bank by which a packet is routed (R362). -/
def State.bankOf (s : State) (p : Packet) : Bank :=
  let r := s.routes.getD p.plane {}
  if p.flags.getLsbD 1 then r.bank1 else r.bank0

/-- What the group table says of a plane: its 16 bits. -/
def State.treeNode (s : State) (group plane : Nat) : Nat := field (s.groupEntry group) (0x42 + 2 * plane) 2

/-- The root of a group. -/
def State.groupRoot (s : State) (group : Nat) : Nat := field (s.groupEntry group) 0x40 2 % 512

/-- Is a packet a line that goes down a multicast tree, from node to node? Each node injects it anew. [DESIGN CHOICE: log 86] -/
def State.onTree (s : State) (p : Packet) : Bool := p.kind == 5 && p.dst != s.groupRoot p.group

/-- Is a packet for the device that stands here: by its ID, or by the place that its bank gives the destination (R362)? -/
def State.isHere (s : State) (p : Packet) : Bool := p.dst == s.device || (s.bankOf p).position p.dst == some s.position

/-- Is a packet a request for the line that another from the same source is for? Such requests reach the home in their order (R310). -/
def sameRoad (p q : Packet) : Bool :=
  [1, 2, 3, 4, 5].contains p.kind && [1, 2, 3, 4, 5].contains q.kind && p.src == q.src && p.ctx == q.ctx && p.obj == q.obj && p.off / 256 == q.off / 256

/-- The plane on which a packet leaves in a direction: its own; link NACKs and messages of the Bursars take the next whose link has not
failed. [DESIGN CHOICE: log 86] -/
def State.carrier (s : State) (p : Packet) (dir : Nat) : Nat :=
  if p.kind = 8 ∨ p.kind = 0x10 then
    (((List.range 8).map fun i => (p.plane + i) % 8).find? fun q => (s.link (6 * q + dir)).state != .failed).getD p.plane
  else p.plane

/-- The link on which a packet leaves this device, and its channel there: twice the class, and the virtual channel. None where it is at its
destination, or its bank has no place for that. -/
def State.wayOut (s : State) (p : Packet) : Option (Nat × Nat) :=
  let b := s.bankOf p
  if p.dst = s.device then none
  else (b.position p.dst).bind fun there => (b.way s.position there).map fun dir =>
    let from_ := if s.onTree p then s.position else (b.position p.src).getD s.position
    (6 * s.carrier p dir + dir, 2 * packetClass p + b.channel from_ s.position dir)

/-! ### Remapping (R355, R356) -/

/-- The plane that takes over from plane `p`: the next that holds no FAILED link. -/
def nextPlane (failed : Nat → Bool) (p : Nat) : Nat :=
  (((List.range 7).map fun i => (p + 1 + i) % 8).find? fun q => !failed q).getD p

/-- PLANEMAP with every entry `p` replaced. -/
def remapEntries (map p q : Nat) : Nat :=
  ((List.range 8).map fun i => (if map / 8 ^ i % 8 = p then q else map / 8 ^ i % 8) * 8 ^ i).sum

/-- Requests of a selector that a link has returned, or that were held back, go out in their order on the plane that now carries
them, once nothing of the selector is on its way on another plane and nothing waits for a remap, each once a response slot there is free (R361).
[DEDUCED: log 66] -/
def State.releaseSelector (s : State) (sel : Nat) : State :=
  let mine : Request → Bool := fun r => selector r.packet.off == sel
  let here : Request → Bool := fun r => r.packet.plane == s.planeOf r.packet.off
  if s.requests.any fun r => mine r && ((!r.nacked && !here r) || (r.returned && here r)) then s
  else
    let plane := ((s.requests.find? mine).map fun r => s.planeOf r.packet.off).getD 0
    let waiting := s.requests.filter fun r => mine r && r.nacked
    let owner : Request → Option Nat := fun r => if r.shared then none else some r.core
    let room : Request → Nat := fun r => if r.shared then 512 - s.sharedSlots plane else 8 - s.coreSlots r.core plane
    let go : Request → Bool := fun r => waiting.contains r && decide (((waiting.takeWhile fun q => q != r).filter fun q => owner q == owner r).length < room r)
    let again : Request → Packet := fun r =>
      let plane := s.planeOf r.packet.off
      { r.packet with plane, flags := s.packetFlags r.packet plane ||| (if r.returned then 4#8 else 0) }
    { s with
      outbox := s.outbox ++ (s.requests.filter go).map again
      requests := s.requests.map fun r : Request => if go r then { r with nacked := false, returned := false, packet := again r } else r }

/-- Requests that are not on their way go out when they may. -/
def State.releaseHeld (s : State) : State :=
  if s.portsOff then s else (List.range 8).foldl State.releaseSelector s

/-- The change of PLANEMAP when a link of a plane has failed; `failed` tells which other planes hold a FAILED link, beside those that this
device knows of. -/
def State.remapPlane (s : State) (plane : Nat) (failed : BitVec 8) : State :=
  let bad : Nat → Bool := fun q => failed.getLsbD q || s.lostPlanes.getLsbD q || (List.range 6).any fun d => (s.link (6 * q + d)).state == .failed
  { s with planemap := BitVec.ofNat 32 (remapEntries s.planemap.toNat plane (nextPlane bad plane)) }.releaseHeld

/-- REMAP (R355): `failed` tells which planes hold a FAILED link. -/
def execRemap (plane : Nat) (failed : BitVec 8) (s : State) : Host.Outcome State Fault Refusal :=
  if 7 < plane then conclude s else conclude (s.remapPlane plane failed)

/-! ### Packets that leave (R357, R358, R361) -/

/-- A response to a packet from this device. [DESIGN CHOICE: log 67] -/
def State.answer (s : State) (p : Packet) (kind : Nat) (op : BitVec 8) (data : List Byte) : Packet :=
  { p with kind, dst := p.src, src := s.device, op, group := 0, form := 0, length := data.length, data, flags := s.packetFlags p p.plane, tagOk := true }

/-- A request of this device comes back from a failed link: it waits for its selector's next plane. -/
def State.takeBack (s : State) (p : Packet) : State :=
  { s with requests := s.requests.map fun r : Request =>
      if r.packet.plane = p.plane ∧ r.packet.tag = p.tag ∧ r.packet.off = p.off ∧ r.nacked = false then { r with nacked := true, returned := true } else r }

/-- The issuer of the multicast line that a MACK answers. [DESIGN CHOICE: log 68] -/
def mackIssuer (p : Packet) : Nat := field p.data 12 2 % 512

/-- A packet that a failed link held returns to its source as a link NACK (R355, R363). In place of a response the requester receives one, and
reissues what the home has performed; a LINKNACK or a message of the Bursars waits for another plane. [DESIGN CHOICE: log 86] -/
def State.returnPacket (s : State) (p : Packet) : State :=
  let nack : Nat → Packet := fun d => { p with kind := 8, dst := d, src := s.device, op := 1, data := [], length := 0, form := 0 }
  if packetClass p = 0 ∨ packetClass p = 2 then (if p.src = s.device then s.takeBack p else { s with outbox := s.outbox ++ [nack p.src] })
  else { s with outbox := s.outbox ++ [if p.kind = 8 ∨ p.kind = 0x10 then p else nack (if p.kind = 0x0A then mackIssuer p else p.dst)] }

/-- The flits of a packet on a channel of a link: each brings along up to 255 of the buffers that are to be returned. On a channel in integrity-only mode their tags are GMACs (R360). [DESIGN CHOICE: log 89] -/
def Link.flitsOf (x : Link) (ch : Nat) (p : Packet) (free : Nat → Word) : List Flit :=
  let parts := packetPayloads p fun i => (free i).setWidth 8
  ((List.range parts.length).zip parts).map fun e =>
    let credits := BitVec.ofNat 8 (min 255 (x.freed.getD ch 0 - 255 * e.1))
    let integ := x.integrity.getLsbD ch
    let tag := if integ then free (16 + 2 * e.1) ++ free (17 + 2 * e.1) else 0#64
    makeFlit (flitLow ch (e.1 == 0) (e.1 + 1 == parts.length) integ credits (x.seq + BitVec.ofNat 8 e.1)) e.2 tag

/-- A channel with a packet sent: its flits take credits of the other end, and stay in the replay buffer. -/
def Link.sendOn (x : Link) (ch : Nat) (p : Packet) (free : Nat → Word) : Link :=
  let fs := x.flitsOf ch p free
  let n := fs.length
  { x with
    credits := x.credits.modify ch (· - n), freed := x.freed.modify ch (· - 255 * n), sent := x.sent + n, seq := x.seq + BitVec.ofNat 8 n
    window := x.window ++ fs.map fun f => (f, if flitLast f then some p else none) }

/-- Free values for a packet that leaves on a link at this step. -/
def State.linkFree (s : State) (l : Nat) (x : Link) (i : Nat) : Word := Config.freeWord s.tick (65536 * (l + 1) + 256 * x.seq.toNat + i)

/-- Do the links stand still (R383)? [DEDUCED: log 74] -/
def State.linksOff (s : State) : Bool := !s.powered || s.power == .p3 || s.power == .p4

/-- Does a link stand still, with all links or with the endpoint of its gated quarter, which holds two planes (R383)? [DEDUCED: log 74] -/
def State.linkOff (s : State) (l : Nat) : Bool := s.linksOff || s.gated.contains (l / 12)

/-- Where the packets of the outbox stand after the routers have looked at them in their order. -/
structure Routed where
  links : List Link
  /-- Still here, and channels on which one of those waits, or on which one has left. -/
  kept  : List Packet := []
  busy  : List (Nat × Nat) := []
  moved : List (Nat × Nat) := []
  wire  : List (Nat × LinkItem) := []
  back  : List Packet := []
  /-- To a device ID that its bank marks absent. -/
  lost  : List Packet := []

/-- The packet as it travels on a link's plane: a LINKNACK or a message of the Bursars on another plane than its own carries that plane's bank. -/
def State.onPlane (s : State) (p : Packet) (plane : Nat) : Packet :=
  if plane = p.plane then p else { p with plane, flags := p.flags &&& 0xFD#8 ||| s.bankFlag plane }

/-- One packet: it leaves when its channel has credits for all its flits, the replay buffer has room for them, and no earlier packet of the
channel waits, nor an earlier request of its source for its line (R310); a failed link returns it. -/
def State.routeOne (s : State) (r : Routed) (p : Packet) : Routed :=
  match s.wayOut p with
  | none => if s.isHere p = false ∧ ((s.bankOf p).position p.dst).isNone then { r with lost := r.lost ++ [p] } else { r with kept := r.kept ++ [p] }
  | some (l, ch) =>
    let x := r.links.getD l {}
    let n := packetFlits p
    if x.state = .failed then { r with back := r.back ++ [p] }
    else if (x.state = .up ∨ x.state = .degraded) ∧ s.linkOff l = false ∧ r.busy.contains (l, ch) = false ∧ n ≤ x.credits.getD ch 0 ∧ x.window.length + n ≤ 256 ∧ (r.kept.any (sameRoad p)) = false then
      let q := s.onPlane p (l / 6)
      { r with links := r.links.set l (x.sendOn ch q (s.linkFree l x)), wire := r.wire ++ (x.flitsOf ch q (s.linkFree l x)).map fun f => (l, .flit f), moved := (l, ch) :: r.moved }
    else { r with kept := r.kept ++ [p], busy := (l, ch) :: r.busy }

/-- A request to a device ID that its bank marks absent is answered with REFUSED (R362): `s` with that answer on its way. Nothing else to such an
ID arrives. [DESIGN CHOICE: log 86] -/
def State.refuseAbsent (s : State) (p : Packet) : State :=
  let r : Packet := { s.answer p 9 0 [] with src := p.dst }
  if packetClass p = 1 ∨ packetClass p = 3 then s
  else if p.src = s.device then { s with inbox := s.inbox ++ [r] } else { s with outbox := s.outbox ++ [r] }

/-- Do the no-progress timers stand: while a DBGHOLD is unmatched, and in the device that is deep-halted itself (R366)? [DEDUCED: log 71] -/
def State.timersStand (s : State) : Bool := s.dbghold != 0 || s.deepHalt

/-- The counts of a link's channels: each goes on while the channel holds a packet that does not leave (R363). [DESIGN CHOICE: log 86] -/
def State.countStalls (s : State) (l : Nat) (r : Routed) (x : Link) : Link :=
  let step := if s.timersStand then 0 else s.now - s.linkClock
  { x with stalled := (List.range 8).map fun ch =>
      if r.busy.contains (l, ch) = false ∨ r.moved.contains (l, ch) then 0 else x.stalled.getD ch 0 + step }

/-- The routers send what can leave on the links, return what a failed link holds, and answer requests that name no device. [DESIGN CHOICE: log 86] -/
def State.forward (s : State) : State :=
  if s.powered = false ∨ s.outbox.isEmpty then s
  else
    let r := s.outbox.foldl s.routeOne { links := s.links }
    let links := ((List.range r.links.length).zip r.links).map fun e => s.countStalls e.1 r e.2
    let t := r.lost.foldl State.refuseAbsent { s with links, outbox := r.kept, wire := s.wire ++ r.wire, linkClock := s.now }
    if r.back.isEmpty then t else (r.back.foldl State.returnPacket t).releaseHeld

/-- A packet for another device is passed on, unless its bank marks that absent (R362). -/
def State.passOn (s : State) (p : Packet) : State :=
  if s.powered = false then s
  else
    let s := { s with inbox := s.inbox.erase p }
    if ((s.bankOf p).position p.dst).isSome then { s with outbox := s.outbox ++ [p] } else s.refuseAbsent p

/-! ### Messages between Bursars -/

/-- A message to every other Bursar of the domain. [DEDUCED: log 71] -/
def State.tellDomain (s : State) (op : BitVec 8) (data : List Byte) : State :=
  let others := ((s.bank 0).places.map (·.1)).filter (· != s.device)
  { s with outbox := s.outbox ++ others.map fun d =>
      ({ kind := 0x10, flags := s.bankFlag 0, dst := d, src := s.device, ctx := 0, obj := 0, off := 0, tag := 0, op, group := 0, plane := 0
         length := data.length, data } : Packet) }

end Sys2Proof.Machine
end

