-- ==== Sys2Proof/Machine/Fabric.lean ====
section
/-! DEFINITION. Links (R353, R358, R360, R363), updates of routing banks (R362), packets served at their home and answers taken at their source (R356, R359 to R361), multicast trees (R196, R364, R365, R370), failed devices (R251) and
deep halts (R366). -/

namespace Sys2Proof.Machine

/-! ### Links (R353) -/

/-- Moves a link to a state and reports it in the mailbox. When it becomes FAILED, every Bursar of the domain is told and this device
remaps its own PLANEMAP, and the packets that the link holds, in its channels or its replay buffer, return to their sources (R355, R363). -/
def State.setLink (s : State) (l : Nat) (st : LinkState) (f : Link → Link) : State :=
  let t := (s.modLink l fun x => { f x with state := st }).reply (.link l st)
  if st = .failed then
    let held := (s.link l).window.filterMap (·.2)
    let u := (t.modLink l fun x => { x with window := [] }).tellDomain 3 [BitVec.ofNat 8 (l / 6)]
    ((held.foldl State.returnPacket u).remapPlane (l / 6) 0).forward
  else t

/-- A change of a link that is in one of some states. -/
def State.linkEvent (s : State) (l : Nat) (from_ : List LinkState) (f : State → State) : State :=
  if s.hasLink l && from_.contains (s.link l).state && !s.linkOff l then f s else s

/-- A management command on a link that is not in the state for it. -/
def State.linkCommand (s : State) (l : Nat) (from_ : LinkState) (f : State → State) : State :=
  if s.deaf then s else if s.hasLink l && (s.link l).state == from_ && !s.linkOff l then (f s).reply .ok else s.reply .badState

/-- UP, or DEGRADED with fewer than 4 lanes. -/
def upState (lanes : Nat) : LinkState := if 4 ≤ lanes then .up else .degraded

/-- LINK_TRAIN. -/
def execLinkTrain (l : Nat) (s : State) : Host.Outcome State Fault Refusal :=
  conclude (s.linkCommand l .down fun s => s.setLink l .training id)

/-- LINK_TRAINED. -/
def execLinkTrained (l lanes : Nat) (s : State) : Host.Outcome State Fault Refusal :=
  conclude (s.linkEvent l [.training] fun s =>
    if lanes < 2 then s.setLink l .failed id else s.setLink l .keying fun x => { x with lanes := min lanes 4 })

/-- LINK_TRAINING_TIMEOUT. -/
def execLinkTrainingTimeout (l : Nat) (s : State) : Host.Outcome State Fault Refusal :=
  conclude (s.linkEvent l [.training] fun s => s.setLink l .failed id)

/-- New keys: their flits are counted anew. -/
def Link.rekeyed (x : Link) : Link := { x with keyEpoch := x.keyEpoch + 1, flits := 0, sent := 0 }

/-- A link as it comes up: every buffer of each channel at the other end is free (R357). -/
def Link.opened (x : Link) : Link :=
  { x.rekeyed with
    failures := 0, crcErrors := [], expect := 0, seq := 0, window := [], parts := List.replicate 8 [], stalled := List.replicate 8 0
    credits := List.replicate 8 Config.channelBuffers, freed := List.replicate 8 0 }

/-- LINK_KEYED. [DESIGN CHOICE: log 78] -/
def execLinkKeyed (l : Nat) (ok : Bool) (s : State) : Host.Outcome State Fault Refusal :=
  conclude (s.linkEvent l [.keying] fun s =>
    if ok then s.setLink l (upState (s.link l).lanes) Link.opened else s.setLink l .failed id)

/-- LANE_LOST. -/
def execLaneLost (l : Nat) (s : State) : Host.Outcome State Fault Refusal :=
  conclude (s.linkEvent l [.up, .degraded] fun s =>
    let n := (s.link l).lanes - 1
    if n < 2 then s.setLink l .failed id else s.setLink l .degraded fun x => { x with lanes := n })

/-- CRC_ERROR_THRESHOLD: 16 CRC errors within 2^20 cycles. [DEDUCED: log 65] -/
def execCrcErrorThreshold (l : Nat) (s : State) : Host.Outcome State Fault Refusal :=
  conclude (s.linkEvent l [.up] fun s => match (s.link l).crcErrors[15]? with
    | some t => if s.now ≤ t + 2 ^ 20 then s.setLink l .retraining fun x => { x with crcErrors := [], failures := 0 } else s
    | none => s)

/-- LINK_RETRAIN. -/
def execLinkRetrain (l : Nat) (s : State) : Host.Outcome State Fault Refusal :=
  conclude (s.linkCommand l .degraded fun s => s.setLink l .retraining fun x => { x with failures := 0 })

/-- RETRAINING_DONE: trained and keyed on `lanes` lanes, or, with fewer than 2, one more failure. -/
def execRetrainingDone (l lanes : Nat) (s : State) : Host.Outcome State Fault Refusal :=
  conclude (s.linkEvent l [.retraining] fun s =>
    if 2 ≤ lanes then s.setLink l (upState lanes) fun x => { x.rekeyed with failures := 0, lanes := min lanes 4 }
    else if 3 ≤ (s.link l).failures + 1 then s.setLink l .failed id
    else s.modLink l fun x => { x with failures := x.failures + 1 })

/-- LINK_REPAIR. -/
def execLinkRepair (l : Nat) (s : State) : Host.Outcome State Fault Refusal :=
  conclude (s.linkCommand l .failed fun s => s.setLink l .down fun x => { x with failures := 0 })

/-- REKEY: after 2^32 flits in one direction, received or sent. -/
def execRekey (l : Nat) (s : State) : Host.Outcome State Fault Refusal :=
  conclude (s.linkEvent l [.up, .degraded] fun s => if 2 ^ 32 ≤ (s.link l).flits ∨ 2 ^ 32 ≤ (s.link l).sent then s.modLink l Link.rekeyed else s)

/-- NO_PROGRESS_TIMER (R363): a channel has held a flit and forwarded none for 2^20 cycles; `moving` is what the probe of the other end finds.
Suspended under R366. [DEDUCED: log 65] -/
def execNoProgressTimer (l vc : Nat) (moving : Bool) (s : State) : Host.Outcome State Fault Refusal :=
  if s.timersStand ∨ 7 < vc then conclude s
  else conclude (s.linkEvent l [.up, .degraded] fun s =>
    if (s.link l).stalled.getD vc 0 < 2 ^ 20 then s
    else if moving then { s with slowLog := s.slowLog ++ [(l, vc)] }.modLink l fun x => { x with stalled := x.stalled.set vc 0 }
    else s.setLink l .retraining fun x => { x with failures := 0, stalled := List.replicate 8 0 })

/-- The place of a flit in the replay buffer. -/
def Link.placeOf (x : Link) (seq : BitVec 8) : Option Nat := findIdx? (fun e : Flit × Option Packet => flitSeq e.1 == seq) x.window

/-- The other end has taken the flits up to one: they leave the replay buffer. [DESIGN CHOICE: log 89] -/
def Link.acked (x : Link) (seq : BitVec 8) : Link :=
  match x.placeOf seq with
  | some i => { x with window := x.window.drop (i + 1) }
  | none => x

/-- The flits of the replay buffer from one on. -/
def Link.replayed (x : Link) (seq : BitVec 8) : List Flit :=
  match x.placeOf seq with
  | some i => (x.window.drop i).map (·.1)
  | none => []

/-- A link at which a flit has arrived that is damaged, or in order: its CREDITS are buffers of the other end that are free again, and its own
buffer is free once it is delivered. -/
def Link.took (x : Link) (now : Nat) (f : Flit) : Link :=
  let ch := flitChannel f
  if flitGood f = false then { x with crcErrors := if flitCrcOk f then x.crcErrors else (now :: x.crcErrors).take 16, replays := x.replays + 1 }
  else if flitSeq f ≠ x.expect then x
  else
    { x with
      expect := x.expect + 1, flits := x.flits + 1, credits := x.credits.modify ch (· + flitCredits f), freed := x.freed.modify ch (· + 1)
      parts := x.parts.set ch (if flitLast f then [] else (if flitFirst f then [] else x.parts.getD ch []) ++ f.payload) }

/-- What the receiver tells the sender of a flit. [DESIGN CHOICE: log 89] -/
def Link.tells (x : Link) (f : Flit) : List LinkItem :=
  if flitGood f = false then [.replay x.expect] else if flitSeq f = x.expect then [.ack (flitSeq f)] else []

/-- The packet that a flit completes. -/
def Link.packetAt (x : Link) (plane : Nat) (f : Flit) : Option Packet :=
  if flitGood f ∧ flitSeq f = x.expect ∧ flitLast f then
    let p := parsePacket plane f.gcmOk ((if flitFirst f then [] else x.parts.getD (flitChannel f) []) ++ f.payload)
    if knownKind p.kind then some p else none
  else none

/-- A packet has come over a link: it waits here for the step that takes it, or is passed on. -/
def State.packetIn (s : State) (p : Packet) : State := if s.isHere p then { s with inbox := s.inbox ++ [p] } else s.passOn p

/-- FLIT_RECEIVE (R358): a flit is delivered once, in order; a mismatch asks for a replay from it on. The last flit of a packet brings the packet.
[DESIGN CHOICE: log 86, 89] -/
def execFlitReceive (l : Nat) (item : LinkItem) (s : State) : Host.Outcome State Fault Refusal :=
  conclude (s.linkEvent l [.up, .degraded] fun s =>
    let x := s.link l
    match item with
    | .ack seq => s.modLink l fun x => x.acked seq
    | .replay seq => { s with wire := s.wire ++ (x.replayed seq).map fun f => (l, LinkItem.flit f) }.modLink l fun x => { x with sent := x.sent + (x.replayed seq).length }
    | .flit f =>
      let t := { s with wire := s.wire ++ (x.tells f).map fun i => (l, i) }.modLink l fun x => x.took s.now f
      match x.packetAt (l / 6) f with
      | some p => t.packetIn p
      | none => t)

/-! ### Routing banks (R362) -/

/-- ROUTING_BANK_UPDATE: the idle bank is written and injection flips to it; one update at a time. The device takes the ID that the bank gives
its place: so a spare takes a failed device's. -/
def execRoutingBankUpdate (plane : Nat) (rings : Nat × Nat × Nat) (places : List (Nat × Nat)) (s : State) : Host.Outcome State Fault Refusal :=
  let r := s.routes.getD plane {}
  if 7 < plane ∨ r.retiring ∨ s.linksOff then conclude s
  else
    let b : Bank := { rings, places }
    let r := if r.current then { r with bank0 := b } else { r with bank1 := b }
    conclude { s with
      routes := s.routes.set plane { r with current := !r.current, retiring := true, drained := none }
      device := ((places.find? fun x => x.2 == s.position).map (·.1)).getD s.device }

/-- BANK_RETIRE (R362): once every router of the plane has reported no packet of the old bank, and 2^16 cycles after that, when it retires. What
this device knows of the others is that none of its own requests by that bank is unanswered. [DESIGN CHOICE: log 86] -/
def execBankRetire (plane : Nat) (s : State) : Host.Outcome State Fault Refusal :=
  let r := s.routes.getD plane {}
  let old : Packet → Bool := fun p => p.plane == plane && p.flags.getLsbD 1 != r.current
  let left := s.outbox.any old || s.requests.any fun q => old q.packet
  if 7 < plane ∨ r.retiring = false ∨ left then conclude s
  else match r.drained with
    | none => conclude { s with routes := s.routes.set plane { r with drained := some s.now } }
    | some t => if s.now < t + 2 ^ 16 then conclude s else conclude { s with routes := s.routes.set plane { r with retiring := false, drained := none } }

/-! ### Packets served here (R310, R359) -/

/-- Must a packet wait: for an earlier one here, a request of its source for its line (R310), or, for a multicast line, another (R311); or for the
Vault of a gated quarter (R383)? -/
def State.mustWait (s : State) (p : Packet) : Bool :=
  let here := (s.outbox.filter fun q => q.dst == s.device && q.src == s.device) ++ s.inbox
  (here.takeWhile fun q => q != p).any (fun q => sameRoad p q || (p.kind == 5 && q.kind == 5))
    || ([1, 2, 3, 4, 5].contains p.kind && (s.ctx? p.ctx).any fun c => s.vaultOff c p.obj)

/-- An arriving packet: one for another device is passed on; one for this device waits while its endpoints are stopped (R366), or for an
earlier one. One that this device sent to itself leaves the outbox. [DESIGN CHOICE: log 78] -/
def State.arrive (s : State) (p : Packet) (f : State → State) : Host.Outcome State Fault Refusal :=
  if s.isHere p = false then conclude (s.passOn p)
  else if s.portsOff ∨ s.mustWait p then conclude (if s.powered = false ∨ s.inbox.contains p then s else { s with inbox := s.inbox ++ [p] })
  else conclude (f { s with outbox := if p.src = s.device then s.outbox.erase p else s.outbox, inbox := s.inbox.erase p })

def State.send (s : State) (p : Packet) : State := { s with outbox := s.outbox ++ [p] }

/-- Holds the answer to a packet that has been performed once: the last 4096 of writes, atomics and REDs, and as many of multicast
lines, which take none of their places (R356). [DEDUCED: log 66] -/
def State.holdAnswer (s : State) (p r : Packet) : State :=
  let like : Nat × Nat × Word × Packet → Bool := fun x => x.1 == p.src && x.2.1 == p.plane && (x.2.2.2.kind == 0x0A) == (r.kind == 0x0A)
  let keep := if 4096 ≤ (s.responses.filter like).length then match findIdx? like s.responses with
      | some i => eraseAt s.responses i
      | none => s.responses
    else s.responses
  { s with responses := keep ++ [(p.src, p.plane, p.tag, r)] }

/-- Answers a packet, and holds the answer. [DEDUCED: log 66] -/
def State.sendHeld (s : State) (p r : Packet) : State := (s.holdAnswer p r).send r

/-- The held answer to a packet, on whichever plane it was performed. [DESIGN CHOICE: log 67] -/
def State.heldAnswer (s : State) (p : Packet) : Option Packet :=
  (s.responses.find? fun x => x.1 == p.src && x.2.2.1 == p.tag && (x.2.2.2.kind == 0x0A) == (p.kind == 5) && x.2.2.2.ctx == p.ctx && x.2.2.2.obj == p.obj && x.2.2.2.off == p.off).map (·.2.2.2)

/-- A record of an access from a peer that a POISONED page or word discards (R350). -/
def State.peerMemue (s : State) (p : Packet) : State := s.errorRecord p.ctx (mkRecord 0x21 0xFF 0 0 0 p.obj p.off 0 0 0xFFFF 0 0)

/-- A packet whose GCM tag does not match is discarded and returned (R360). -/
def State.opened (s : State) (p : Packet) (f : State → Ctx → State) : State :=
  if p.tagOk = false then s.send (s.answer p 8 0 [])
  else match s.ctx? p.ctx with
    | some c => if c.state = .destroyed then s.send (s.answer p 9 0 []) else f s c
    | none => s.send (s.answer p 9 0 [])

/-- What a home does when an access cannot be performed: REFUSED, or the context fault of broken tables. -/
def State.unserved (s : State) (p : Packet) (h : Home) : State :=
  match h with
  | .bad => (s.faultCtxBare p.ctx reasonInternal).send (s.answer p 9 0 [])
  | _ => s.send (s.answer p 9 0 [])

/-! Performing a request. -/

/-- Do other members read what a PLACE of a context moves here (R334)? What they obtain is no raw read. [DESIGN CHOICE: log 33] -/
def State.memberReads (s : State) (c : Ctx) : Bool := s.places.any fun o => o.ctx == c.num && o.passes.any (s.copyMeets o)

/-- A READ at its home; of a tensor that is moving it obtains free bytes (R230). In a DATA packet the model's op 1 marks an uncorrectable error. [DESIGN CHOICE: log 23] -/
def State.serveRead (s : State) (p : Packet) : State :=
  s.opened p fun s c => match s.homeRead c p.obj p.off p.length with
    | .ok t bs ue => t.send (s.answer p 6 (if ue then 1 else 0) (if s.memberReads c then bs else s.maskMoved 0 c.num false p.obj p.off bs))
    | .lost => s.send (s.answer p 6 1 (zeros p.length))
    | h => s.unserved p h

/-- Bytes that another member of a device set has written into the span a D pass writes (R335). -/
def State.countArrival (s : State) (p : Packet) : State :=
  let note : PlaceOp → PlaceOp := fun o =>
    match o.passes[o.pass]? with
    | some q =>
      let (d, base, _) := o.writeSpan o.pass
      let v := BitVec.ofNat 64 base
      let c := s.ctx? o.ctx
      let hit := o.ctx == p.ctx && q.level == 7 && !q.copy && o.asked && (match c with
        | some c => (s.viewEntry c (ptrIndex v)).obj == p.obj && decide (ptrOffset v ≤ p.off) && decide (p.off < ptrOffset v + d.size * 2 ^ o.n)
        | none => false)
      if hit then { o with arrived := o.arrived + p.data.length } else o
    | none => o
  if p.src = s.device then s else { s with places := s.places.map note }

/-- Bytes of a peer stand at their home: those of a D pass are counted, any others are a raw write (R230, R335). A member that is still before
the pass counts none. -/
def State.arrived (s : State) (p : Packet) : State :=
  let t := s.countArrival p
  if t.places = s.places then s.rawWrite 0 p.ctx false p.obj p.off p.data.length else t

/-- A WRITE at its home. -/
def State.serveWrite (s : State) (p : Packet) : State :=
  s.opened p fun s c => match s.homeWrite c p.obj p.off p.data.length fun _ => some p.data with
    | .ok t _ _ => ((t.arrived p)).sendHeld p (s.answer p 7 0 [])
    | .lost => (s.peerMemue p).sendHeld p (s.answer p 7 0 [])
    | h => s.unserved p h

/-- Operands of an ATOMIC or RED packet: bytes, type qualifier, operand b and operand c. [DESIGN CHOICE: log 68] -/
def packetOperands (p : Packet) : Nat × Nat × Nat × Nat :=
  let n := (p.data.length - 1) / 2
  (n, (p.data.getD (2 * n) 0).toNat, field p.data 0 n, field p.data n n)

/-- What an ATOMIC or RED makes of the bytes at its home; 16-byte operands are LSCALE's (R236). -/
def packetApply (p : Packet) (old : List Byte) : Option (List Byte) :=
  let (n, q, b, c) := (packetOperands p)
  if n = 16 then (lscaleStep old (b.testBit 0)).new else some (toLE n (atomNew (Forms.low3 p.op) q (ofLE old) b c))

/-- An ATOMIC or a RED at its home, in one step. On a POISONED page it is discarded with a record, and its result is a free value (R350).
[DESIGN CHOICE: log 82] -/
def State.serveAtomic (s : State) (p : Packet) (result : Bool) : State :=
  let n := (packetOperands p).1
  let done : State → BitVec 8 → List Byte → State := fun t op bs => t.sendHeld p (if result then s.answer p 6 op bs else s.answer p 7 0 [])
  s.opened p fun s c => match s.homeRead c p.obj p.off n with
    | .ok t _ true => done (if result then t else t.peerMemue p) 1 (zeros n)
    | .lost => done (s.peerMemue p) 0 ((List.range n).map fun i => (Config.freeWord s.tick i).setWidth 8)
    | .ok .. => match s.homeWrite c p.obj p.off n (packetApply p) with
      | .ok t old _ => done (t.rawWrite 0 c.num false p.obj p.off n) 0 (s.maskMoved 0 c.num false p.obj p.off old)
      | h => s.unserved p h
    | h => s.unserved p h

/-- A request that carries RETRY: its held answer is sent again, or it is performed (R356). -/
def State.serveRetry (s : State) (p : Packet) (f : State → State) : State :=
  if p.flags.getLsbD 2 then match s.heldAnswer p with
    | some r => s.send { r with plane := p.plane, flags := s.packetFlags r p.plane }
    | none => f s
  else f s

/-- READ: performed anew even when it is retried. -/
def execRead (p : Packet) (s : State) : Host.Outcome State Fault Refusal := s.arrive p fun s => s.serveRead p

/-- WRITE. -/
def execWrite (p : Packet) (s : State) : Host.Outcome State Fault Refusal := s.arrive p fun s => s.serveRetry p (·.serveWrite p)

/-- ATOMIC. -/
def execAtomic (p : Packet) (s : State) : Host.Outcome State Fault Refusal := s.arrive p fun s => s.serveRetry p (·.serveAtomic p true)

/-- RED. -/
def execRedPacket (p : Packet) (s : State) : Host.Outcome State Fault Refusal := s.arrive p fun s => s.serveRetry p (·.serveAtomic p false)

/-! ### Multicast trees (R196, R364, R365, R370) -/

/-- Devices at the child links of this node. -/
def State.treeChildren (s : State) (p : Packet) : List Nat :=
  let n := s.treeNode p.group p.plane
  if n.testBit 7 then ((List.range 6).filter n.testBit).filterMap ((s.bankOf p).neighbour s.position) else []

/-- Children of this node that have been isolated as failed and are members: this node, their neighbour, answers for each as a refusal (R365).
[DEDUCED: log 69] -/
def State.goneMembers (s : State) (p : Packet) : List Nat :=
  (s.treeChildren p).filter fun d => s.failedDevices.contains d && (field (s.groupEntry p.group) 0 64).testBit d

/-- Children that the line is copied to. -/
def State.treeKids (s : State) (p : Packet) : List Nat := (s.treeChildren p).filter fun d => !s.failedDevices.contains d

/-- The device at the parent link, by the bank of a packet that is injected now. -/
def State.treeParent (s : State) (p : Packet) : Option Nat := (s.bank p.plane).neighbour s.position (bits (s.treeNode p.group p.plane) 10 8)

/-- Is a packet one of the transaction of another? A transaction is named by its source, its plane and its tag. [DESIGN CHOICE: log 68] -/
def sameTransaction (a b : Packet) : Bool := a.src == b.src && a.plane == b.plane && a.tag == b.tag

/-- Is a packet the same line of the same issuer as another, on whichever plane? [DESIGN CHOICE: log 68] -/
def sameLine (a b : Packet) : Bool := a.src == b.src && a.tag == b.tag && a.ctx == b.ctx && a.obj == b.obj && a.off == b.off

/-- The payload of a MACK: counts, the four lowest refusers, and, in the bytes that the spec leaves open, the issuer. [DESIGN CHOICE: log 68] -/
def mackData (successes refusals : Nat) (refusers : List Nat) (issuer : Nat) : List Byte :=
  toLE 4 (refusals % 1024 * 1024 + successes % 1024) ++ refuserEntries refusers ++ toLE 2 issuer ++ zeros 2

/-- The refusers a MACK names. [DESIGN CHOICE: log 68] -/
def mackRefusers (data : List Byte) : List Nat :=
  ((List.range 4).filter fun i => (field data (4 + 2 * i) 2).testBit 15).map fun i => field data (4 + 2 * i) 2 % 512

/-- Is a MACK an answer to a line? -/
def mackOf (x p : Packet) : Bool := x.src == mackIssuer p && x.plane == p.plane && x.tag == p.tag

/-- A device has refused a line of a multicast store (R369). -/
def Multi.refusedBy (m : Multi) (p : Packet) (dev why : Nat) : Multi :=
  { m with
    heard := if m.heard.contains (p.tag, p.obj, p.off, dev) then m.heard else m.heard ++ [(p.tag, p.obj, p.off, dev)]
    refusers := if m.refusers.any fun y => y.1 == dev then m.refusers else m.refusers ++ [(dev, why)] }

/-- The issuer hears that a device has refused a line, and why. -/
def State.lineRefused (s : State) (p : Packet) (dev why : Nat) : State :=
  let mine : Multi → Bool := fun m =>
    m.ctx == p.ctx && ((m.told.any fun x => x.1 == p.tag && x.2.1 == p.obj && x.2.2.1 == p.off)
      || s.requests.any fun r => r.id == m.id && r.packet.kind == 5 && r.packet.tag == p.tag && r.packet.obj == p.obj && r.packet.off == p.off)
  { s with cores := s.cores.map fun k : Core =>
      if k.multis.any mine then { k with multis := k.multis.map fun m => if mine m then m.refusedBy p dev why else m } else k }

/-- A member that refuses a line, or its neighbour for it, tells the issuer so, beside the answer that goes up the tree: a MACK has no room for
the reason, nor for more than four devices (R365, R369). [DESIGN CHOICE: log 68] -/
def State.tellRefused (s : State) (p : Packet) (dev why : Nat) : State :=
  if p.src = s.device then s.lineRefused p dev why
  else s.send { p with kind := 0x10, flags := s.bankFlag p.plane, dst := p.src, src := s.device, op := 0xDC, form := 0, length := 3, data := toLE 2 dev ++ toLE 1 why }

/-- The combined answer for one line reaches the issuer. -/
def State.lineAnswered (s : State) (p : Packet) (successes refusals : Nat) : State :=
  match s.requests.find? fun r => r.packet.kind == 5 && r.packet.plane == p.plane && r.packet.tag == p.tag with
  | none => s
  | some r =>
    let merge : Multi → Multi := fun m =>
      if m.id ≠ r.id then m
      else
        { m with
          lines := m.lines.eraseP fun l => l.obj == r.packet.obj && l.off == r.packet.off
          told := m.told ++ [(r.packet.tag, r.packet.obj, r.packet.off, refusals)]
          refusals := max m.refusals refusals, answers := max m.answers (successes + refusals) }
    ({ s with requests := s.requests.erase r }.modCore r.core fun k => { k with multis := k.multis.map merge }).releaseHeld

/-- A node whose own delivery and children have all answered answers its parent; the root answers the issuer. -/
def State.combineDone (s : State) (x : Combine) : State :=
  if x.waiting ≠ [] then s
  else
    let p := x.packet
    let s := { s with combines := s.combines.filter fun y => !sameTransaction y.packet p }
    let mack := { s.answer p 0x0A 0 (mackData x.successes x.refusals x.refusers p.src) with group := p.group }
    if s.groupRoot p.group = s.device then
      if p.src = s.device then s.lineAnswered p x.successes x.refusals else s.send mack
    else match s.treeParent p with
      | some up => s.send { mack with dst := up }
      | none => s

/-- One answer comes to a node, of a device that has not answered: its own delivery's or a child's. -/
def State.combineAdd (s : State) (p : Packet) (dev successes refusals : Nat) (refusers : List Nat) : State :=
  match s.combines.find? fun x => sameTransaction x.packet p with
  | none => s
  | some x =>
    if x.waiting.contains dev = false then s
    else
      let y := { x with
        waiting := x.waiting.erase dev, successes := x.successes + successes, refusals := x.refusals + refusals
        refusers := (sortBy (fun d : Nat => d) (x.refusers ++ refusers)).take 4 }
      { s with combines := s.combines.map fun z : Combine => if sameTransaction z.packet p then y else z }.combineDone y

/-- Bytes of an element of a line. -/
def elementBytes (p : Packet) : Nat := if p.form.getLsbD 3 then (if p.form.toNat % 4 = 2 then 8 else 4) else sizeBytes (Forms.low3 p.op)

/-- The elements of a line: place in the line, and the value's bytes. The places that hold none end the data. [DESIGN CHOICE: log 68] -/
def lineElements (p : Packet) : List (Nat × List Byte) :=
  let n := elementBytes p
  let holes := (256 - p.data.length) / (n - 1)
  let k := 256 / n - holes
  let none_ := (p.data.drop (n * k)).map (·.toNat)
  ((List.range (256 / n)).filter fun i => !none_.contains i).map (n * ·) |>.zip (runsOf n k p.data)

/-- Writes one element of a line at its place: MCST's bytes, or what REDST's operation makes of the old ones. -/
def State.putElement (s : State) (p : Packet) (line : PAddr) (e : Nat × List Byte) : State :=
  let a := line.shift e.1
  let n := e.2.length
  let s := s.rawWrite 0 p.ctx false p.obj (p.off + e.1) n
  if p.form.getLsbD 3 = false then s.write a e.2
  else if s.poisoned a n then s.peerMemue { p with off := p.off + e.1 }
  else s.write a (toLE n (atomNew (Forms.low3 p.op) (p.form.toNat % 4) (s.val a n) (ofLE e.2) 0))

/-- A line that this member holds keeps its place; one that it held none of comes last. -/
def State.keepLine (s : State) (p : Packet) (k : ParkKey) : State :=
  if s.memberLines.any fun x => x.packet == p then { s with memberLines := s.memberLines.map fun x => if x.packet = p then ⟨p, k⟩ else x }
  else { s with memberLines := s.memberLines ++ [⟨p, k⟩] }

/-- Holds a line until its page is resident, with a record for the first line so held (R196, R344). [DEDUCED: log 69] -/
def State.holdLine (s : State) (c : Ctx) (p : Packet) (token : Bool) (why : Nat) : State :=
  let base := (s.pageOf c p.obj p.off).1
  let same : Pending → Bool := fun x => x.packet.ctx == p.ctx && x.packet.obj == p.obj && (s.pageOf c p.obj x.packet.off).1 == base && (match x.key with
    | .token t => token && t != 0
    | .page _ _ => !token)
  match (s.memberLines.filter fun x => x.packet != p).find? same with
  | some x => s.keepLine p x.key
  | none =>
    let k : ParkKey := if token then .token c.nextToken else .page p.obj p.off
    let s := if token then s.modCtx c.num fun c => { c with nextToken := if c.nextToken = 0xFFFFFFFF then 1 else c.nextToken + 1 } else s
    let red := if p.form.getLsbD 3 then 0x40 else 0
    let s := s.faultRecord c.num (mkRecord 2 0xFF 0 (0x80 + red + why) k.word p.obj p.off 0 0 0xFFFF 0 0)
    s.keepLine p k

/-- The first line of a context that this member holds, which every later line of it waits behind (R311). [DEDUCED: log 69] -/
def State.heldFirst (s : State) (ctx : Nat) : Option Pending := s.memberLines.find? fun x => x.packet.ctx == ctx

/-- Writes a line here in one step, or holds it; `wrote` and `refuse` say what follows. -/
def State.memberTry (s : State) (c : Ctx) (p : Packet) (wrote : State → State) (refuse : State → Nat → State) : State :=
  match s.homeRead c p.obj p.off 256 with
  | .ok .. => match s.beforeWrite c p.obj p.off 256 with
    | some (t, line) => wrote ((lineElements p).foldl (fun (u : State) e => u.putElement p line e) t)
    | none => s.holdLine c p true 12
  | .lost => wrote (s.peerMemue p)
  | .absent token why _ => s.holdLine c p token why
  | .peer _ => refuse s 11
  | .bad => refuse (s.faultCtxBare c.num reasonInternal) 10

/-- This member has answered for a line: it holds that answer, for a retry on any plane (R356), and gives it to its node. -/
def State.memberAnswer (s : State) (p : Packet) (successes refusals : Nat) : State :=
  let refusers := if refusals = 0 then [] else [s.device]
  let s := { s with memberLines := s.memberLines.filter fun x => x.packet != p }
  (s.holdAnswer p (s.answer p 0x0A 0 (mackData successes refusals refusers p.src))).combineAdd p s.device successes refusals refusers

/-- This member refuses a line. -/
def State.memberRefuse (s : State) (p : Packet) (why : Nat) : State := (s.tellRefused p s.device why).memberAnswer p 0 1

/-- Tries a line that has passed this member's checks; it is checked once only (R370). -/
def State.memberGo (s : State) (p : Packet) : State :=
  match s.ctx? p.ctx with
  | none => s.memberRefuse p 10
  | some c => if c.state = .destroyed then s.memberRefuse p 10 else s.memberTry c p (·.memberAnswer p 1 0) (·.memberRefuse p ·)

/-- Delivers a line here, in the order of arrival: it is written in one step, refused, or held. [DEDUCED: log 69] -/
def State.memberWrite (s : State) (p : Packet) : State :=
  match (s.ctx? p.ctx).bind fun c => if c.state = .destroyed then none else s.object? c p.obj with
  | none => s.memberRefuse p 10
  | some o =>
    if o.mcast = false ∨ o.group ≠ p.group ∨ o.home = 2 then s.memberRefuse p 11
    else match s.heldFirst p.ctx with
    | some x => s.keepLine p x.key
    | none => s.memberGo p

/-- Delivers a line here that may have come before (R356): one that has been answered keeps its answer, and one that is held its place. -/
def State.memberOnce (s : State) (p : Packet) : State :=
  if p.flags.getLsbD 2 = false then s.memberWrite p
  else match s.heldAnswer p with
    | some r =>
      let w := field r.data 0 4
      s.combineAdd p s.device (w % 1024) (w / 1024 % 1024) (mackRefusers r.data)
    | none =>
      if s.memberLines.any fun x => sameLine x.packet p then
        { s with memberLines := s.memberLines.map fun x => if sameLine x.packet p then { x with packet := p } else x }
      else s.memberWrite p

/-- A line comes to a node of its tree: it is copied to every child link and delivered here. A retried line starts anew at its nodes. -/
def State.nodeTake (s : State) (p : Packet) : State :=
  let s := if p.flags.getLsbD 2 then { s with combines := s.combines.filter fun x => !sameLine x.packet p } else s
  if s.combines.any fun x => sameTransaction x.packet p then s
  else
    let kids := s.treeKids p
    let gone := s.goneMembers p
    let here := (s.treeNode p.group p.plane).testBit 6 && (s.treeNode p.group p.plane).testBit 7
    let x : Combine := { packet := p, waiting := kids ++ (if here then [s.device] else []), refusals := gone.length, refusers := (sortBy (fun d : Nat => d) gone).take 4 }
    let s := gone.foldl (fun (t : State) d => t.tellRefused p d 10) { s with combines := s.combines ++ [x], outbox := s.outbox ++ kids.map fun d => { p with dst := d } }
    if here then s.memberOnce p else s.combineDone x

/-- MCAST (R196, R360, R364, R370): at a node of the tree the line is copied and delivered; a line that this member holds is tried again. -/
def execMcast (p : Packet) (s : State) : Host.Outcome State Fault Refusal :=
  if (s.heldFirst p.ctx).any fun x => x.packet == p && x.key == .token 0 then (if s.portsOff then conclude s else conclude (s.memberGo p))
  else s.arrive p fun s => if p.tagOk then s.nodeTake p else s.send (s.answer p 8 0 [])

/-- MACK (R365): combined at a node, or, from the root, the answer for one line at the issuer. -/
def execMack (p : Packet) (s : State) : Host.Outcome State Fault Refusal :=
  s.arrive p fun s =>
    let w := field p.data 0 4
    match s.combines.find? fun x => mackOf x.packet p with
    | some x => s.combineAdd x.packet p.src (w % 1024) (w / 1024 % 1024) (mackRefusers p.data)
    | none => if p.src = s.groupRoot p.group then s.lineAnswered p (w % 1024) (w / 1024 % 1024) else s

/-- A member that has been isolated as failed: this node, its neighbour, answers for it as a refusal in every line that waits for it
(R365). -/
def State.answerFor (s : State) (dev : Nat) : State :=
  s.combines.foldl (fun (t : State) x =>
    if x.waiting.contains dev = false then t
    else if (field (t.groupEntry x.packet.group) 0 64).testBit dev then (t.tellRefused x.packet dev 10).combineAdd x.packet dev 0 1 [dev]
    else t.combineAdd x.packet dev 0 0 []) s

/-- DEVICE_FAILURE_DETECTED (R246, R251, R365): every context with an object homed there faults. -/
def execDeviceFailureDetected (dev : Nat) (s : State) : Host.Outcome State Fault Refusal :=
  let names : Ctx → Bool := fun c => (List.range c.objEntries).any fun i => match s.object? c i with
    | some o => o.home == 2 && o.peer == dev
    | none => false
  if s.linksOff then conclude s else
  let s1 := { s with failedDevices := dev :: s.failedDevices.filter (· != dev) }.answerFor dev
  conclude ((s.ctxs.filter fun c => c.state != .destroyed && names c).foldl (fun (t : State) c => t.faultCtxBare c.num reasonPeerLost) s1)

/-! ### Answers (R356, R361) -/

/-- The request that an answer belongs to. -/
def State.requestOf (s : State) (p : Packet) : Option Request :=
  s.requests.find? fun r => r.packet.plane == p.plane && r.packet.tag == p.tag && !r.nacked && r.packet.dst == p.src && r.packet.off == p.off

/-- The access that a request carries, where it is one of a thread or of a drain, copy or PLACE, and not a fetch for one. -/
def State.requestAccess (s : State) (r : Request) : Option Access :=
  (s.core r.core).accs.find? fun a => a.id == r.id && a.tag == some (r.plane, r.packet.tag)

/-- The end of an access that its peer has performed: `v` is its value, `ue` an uncorrectable error. -/
def State.peerDone (s : State) (core : Nat) (c : Ctx) (a : Access) (v : Nat) (ue : Bool) : State :=
  let s := if a.isAtomic then s.markRelease core a else s
  let s := if a.isAtomic && a.acquires && decide (3 ≤ a.scope) then s.staleLines core else s
  if a.is [0xE2] then s.deliverStat core a v ue
  else if a.is [0xE3] then
    if ue then s.lscaleError core a
    else
      let r := lscaleStep (toLE 16 v) (a.data.getLsbD 0)
      (s.updateLines core c.num a.obj a.off (r.new.getD (toLE 16 v))).finishLscale core c a r.new.isNone r.floor r.skip
  else if a.isAtomic then
    if a.parks then ((if ue then s else s.updateLines core c.num a.obj a.off (a.atomBytes (toLE a.bytes v)))).deliverValue core a v ue
    else ((if ue then s.memueRecord a.obj a.off a.tid a.pc else s).dropLines c.num a.obj (a.off / 256 * 256) 256).finishAccess core a
  else if a.parks then s.deliverValue core a v ue
  else (if ue then s.memueRecord a.obj a.off a.tid a.pc else s).finishAccess core a

/-- A line that an access has asked a peer for comes (R183, R197): it replaces the line cache's copy, unless a store or an acquire came in between,
and a load takes its bytes from it. Of a line with an uncorrectable error the load asks for its own bytes again. [DESIGN CHOICE: log 22] -/
def State.lineDone (s : State) (core : Nat) (c : Ctx) (a : Access) (bs : List Byte) (ue : Bool) : State :=
  let base := a.off / 256 * 256
  let s := if ue || a.noLine then s.dropLine core c.num a.obj base
    else s.putLine core ⟨c.num, a.obj, base, (s.core core).overlay a.obj base bs, false⟩
  if a.is [0xAA] then s.dropAccess core a.id
  else if ue then s.setAccess core { a with tag := none, noLine := true }
  else s.deliverValue core a (field bs (a.off - base) a.bytes) false

/-- The own bytes of a load come from a peer; the line cache's copy stays only where the load was not to touch it (R183, R302). -/
def State.loadDone (s : State) (core : Nat) (c : Ctx) (a : Access) (v : Nat) (ue : Bool) : State :=
  (if a.qual = 1 && decide (3 ≤ a.scope) then s else s.dropLine core c.num a.obj (a.off / 256 * 256)).deliverValue core a v ue

/-- An answer is taken: its slot is free, and what it carries goes to the access or to the engine. Registrations that waited for it are tried
again. -/
def State.takeAnswer (s : State) (r : Request) (bs : List Byte) (ue : Bool) : State :=
  let s := { s with requests := s.requests.erase r }
  let s := match s.requestAccess r, s.ctx? r.packet.ctx with
    | some a, some c =>
      if a.is [0xA0, 0xAA, 0xDB] then
        if r.packet.length = 256 then s.lineDone r.core c a bs ue else s.loadDone r.core c a (ofLE bs) ue
      else (s.peerDone r.core c a (ofLE bs) ue).settleDrains r.core
    | _, _ =>
      if r.packet.kind ≠ 1 ∧ r.packet.kind ≠ 3 then (if ue then s.peerMemue r.packet else s)
      else
        let bs := if ue then (List.range (if r.packet.kind = 1 then r.packet.length else 4)).map fun i => (Config.freeWord s.tick i).setWidth 8 else bs
        { s with fetched := s.fetched ++ [({ id := r.id, obj := r.packet.obj, off := r.packet.off, bytes := bs, ue } : PeerBytes)] }
  (if r.core = unitCore then s.registerAgain else s).releaseHeld

/-- A request whose packet, or whose answer, failed its GCM check: reissued, and after the third failure an uncorrectable error
(R360). [DEDUCED: log 66] -/
def State.gcmFailed (s : State) (r : Request) : State :=
  if 3 ≤ r.failures + 1 then
    if r.packet.kind = 5 then (s.peerMemue r.packet).lineAnswered r.packet 0 0 else s.takeAnswer r [] true
  else
    let q := { r with failures := r.failures + 1, packet := { r.packet with flags := r.packet.flags ||| 4#8 } }
    { s with requests := s.requests.map (fun x => if x = r then q else x), outbox := s.outbox ++ [q.packet] }

/-- DATA. -/
def execData (p : Packet) (s : State) : Host.Outcome State Fault Refusal :=
  s.arrive p fun s => match s.requestOf p with
    | some r => if p.tagOk then s.takeAnswer r p.data (p.op == 1) else s.gcmFailed r
    | none => s

/-- ACK. -/
def execAck (p : Packet) (s : State) : Host.Outcome State Fault Refusal :=
  s.arrive p fun s => match s.requestOf p with
    | some r => if p.tagOk then s.takeAnswer r [] false else s.gcmFailed r
    | none => s

/-- The request that a link NACK names: it may travel on another plane than the request. -/
def State.nackedRequest (s : State) (p : Packet) : Option Request :=
  s.requests.find? fun r => r.packet.tag == p.tag && r.packet.ctx == p.ctx && r.packet.obj == p.obj && r.packet.off == p.off && !r.nacked

/-- LINKNACK (R355, R356, R360): from the destination of an encrypted packet, a failed check; else a failed link has returned
the request, which waits for its selector's next plane. [DEDUCED: log 66] -/
def execLinknack (p : Packet) (s : State) : Host.Outcome State Fault Refusal :=
  s.arrive p fun s => match s.nackedRequest p with
    | some r =>
      if (p.src = r.packet.dst ∨ r.packet.kind = 5) ∧ r.packet.flags.getLsbD 0 ∧ p.op = 0 then s.gcmFailed r
      else { s with requests := s.requests.map fun x => if x = r then { r with nacked := true, returned := true } else x }.releaseHeld
    | none => s

/-- RETRIED_REQUEST (R356): a request of a kind that carries RETRY. -/
def execRetriedRequest (kind : Nat) (p : Packet) (s : State) : Host.Outcome State Fault Refusal :=
  let q := { p with kind, flags := p.flags ||| 4#8 }
  s.arrive p fun s => match kind with
    | 1 => s.serveRead q
    | 2 => s.serveRetry q (·.serveWrite q)
    | 3 => s.serveRetry q (·.serveAtomic q true)
    | 4 => s.serveRetry q (·.serveAtomic q false)
    | _ => s

/-- A member refuses a D pass's bytes: the PLACE parks under a token, and sends them again after REPLAY. [DESIGN CHOICE: log 33] -/
def State.placeRefused (s : State) (r : Request) : State :=
  let s := { s with requests := s.requests.map fun x => if x = r then { r with refused := true } else x }
  match s.places.find? fun o => o.id == r.id with
  | some o => match s.ctx? o.ctx with
    | some c => if o.park.isSome then s else s.parkPlace r.core c o true true 8 r.packet.obj r.packet.off
    | none => s
  | none => s

/-- A member refuses a write of an append: the append goes under a token and makes the write again after REPLAY (R253). [DESIGN CHOICE: log 51] -/
def State.enqRefused (s : State) (r : Request) (a : Access) : State :=
  match s.ctx? r.packet.ctx with
  | none => s
  | some c =>
    let s := { s with requests := s.requests.erase r }
    let (t, k) := s.noteFault r.core c true r.packet.obj r.packet.off (s.accessFault r.core { a with obj := r.packet.obj, off := r.packet.off } 8)
    (t.enter r.core { a with cmp := a.cmp - 1 } k).releaseHeld

/-- A home refuses a unit: what the unit reads it asks for again when it needs it, and what it writes it sends again. -/
def State.unitRefused (s : State) (r : Request) : State :=
  if r.packet.kind = 1 then { s with requests := s.requests.erase r }.releaseHeld
  else { s with outbox := s.outbox ++ [{ r.packet with flags := r.packet.flags ||| 4#8 }] }

/-- REFUSED (R344, R362): the access goes under a fault token; a fetch for an engine finds no bytes. A multicast line whose root
cannot be reached counts as one refusal. -/
def execRefused (p : Packet) (s : State) : Host.Outcome State Fault Refusal :=
  s.arrive p fun s => match s.requestOf p with
    | none => s
    | some r =>
      if r.packet.kind = 5 then (s.lineRefused p r.packet.dst 10).lineAnswered p 0 1
      else match s.requestAccess r, s.ctx? r.packet.ctx with
        | some a, some c =>
          if a.is [0xAA] then ({ s with requests := s.requests.erase r }.dropAccess r.core a.id).releaseHeld
          else (({ s with requests := s.requests.erase r }.refuseAccess r.core c { a with tag := none } true 8 a.off).settleDrains r.core).releaseHeld
        | _, _ =>
          if r.core = unitCore then s.unitRefused r
          else match (s.core r.core).accs.find? fun a => a.id == r.id && a.is [0x96] && r.packet.kind == 2 with
          | some a => s.enqRefused r a
          | none => if r.packet.kind = 2 then s.placeRefused r else s.takeAnswer r [] false

/-- DBGHOLD and DBGRESUME from another device (R366): each unmatched DBGHOLD suspends the no-progress timers. [DEDUCED: log 71] -/
def State.hold (s : State) (src : Nat) : State := if src = s.device then s else { s with dbghold := s.dbghold + 1 }
/-- [DEDUCED: log 71] -/
def State.unhold (s : State) (src : Nat) : State := if src = s.device then s else { s with dbghold := s.dbghold - 1 }

/-- MGT: what a member tells before it meets the others (R229, R334, R335); DBGHOLD and DBGRESUME (R366); and REMAP, which names the plane of a
link that has failed (R355). [DESIGN CHOICE: log 33; DEDUCED: log 71] -/
def execMgt (p : Packet) (s : State) : Host.Outcome State Fault Refusal :=
  s.arrive p fun s =>
    if p.op = 0xDA then
      let note : PlanNote := { dev := p.src, ctx := p.ctx, tensor := field p.data 4 8, crc := field p.data 0 4, obj := field p.data 12 4, off := field p.data 16 8, kind := field p.data 24 1, turn := field p.data 25 4 }
      { s with planNotes := s.planNotes ++ [note] }
    else if p.op = 0xDC then s.lineRefused p (field p.data 0 2) (field p.data 2 1)
    else if p.op = 1 then s.hold p.src
    else if p.op = 2 then s.unhold p.src
    else if p.op = 3 then
      let plane := field p.data 0 1 % 8
      { s with lostPlanes := s.lostPlanes ||| BitVec.ofNat 8 (2 ^ plane) }.remapPlane plane 0
    else s

/-! ### The debug port, and debugger halts (R366, R382, R388) -/

/-- A command at the debug port: in standby or without power nothing answers (R388); in a device halted in the first step of bring-up the port
answers with that step (R382). [DEDUCED: log 72] -/
def State.debugPort (s : State) (f : State → Host.Outcome State Fault Refusal) : Host.Outcome State Fault Refusal :=
  if s.linksOff then conclude s
  else match s.bootStep with
    | some 1 => conclude { s with replies := s.replies ++ [.value 1] }
    | _ => f s

/-- DBGHOLD. [DEDUCED: log 71] -/
def execDbghold (src : Nat) (s : State) : Host.Outcome State Fault Refusal :=
  conclude (s.hold src)

/-- DBGRESUME. [DEDUCED: log 71] -/
def execDbgresume (src : Nat) (s : State) : Host.Outcome State Fault Refusal :=
  conclude (s.unhold src)

/-- DEEP_HALT (R366, R388): DBGHOLD is sent to every Bursar, then cores and endpoints stop. [DEDUCED: log 72] -/
def execDeepHalt (s : State) : Host.Outcome State Fault Refusal :=
  s.debugPort fun s =>
  if s.debug ≠ .invasive then conclude (s.reply .badState)
  else if s.deepHalt then conclude (s.reply .busy)
  else conclude ({ s.tellDomain 1 [] with deepHalt := true }.reply .ok)

end Sys2Proof.Machine
end

