-- ==== Sys2Proof/Machine/Debug.lean ====
section
/-! DEFINITION. The debug port (R78, R376 to R380, R388): breakpoints, resumption, halts, register access, dumps, trace rings and
samples. -/

namespace Sys2Proof.Machine

/-! ### Breakpoints and halts -/

/-- BREAKPOINT_REGISTER_WRITE (R376): at the invasive level. -/
def execBreakpointRegisterWrite (ctx i launch : Nat) (pc : Word) (on : Bool) (s : State) : Host.Outcome State Fault Refusal :=
  s.debugPort fun s =>
  match s.liveCtx ctx with
  | none => conclude (s.reply .badState)
  | some c =>
    if s.debug ≠ .invasive then conclude (s.reply .badState)
    else if 7 < i then conclude (s.reply .badArg)
    else conclude ((s.modCtx c.num fun c => { c with breaks := c.breaks.set i (launch, if on then some pc else none) }).reply .ok)

/-- Lets the stopped threads and the frozen work of the blocks that `p` picks go on; their hang detectors restart (R284). -/
def State.resumeBlocks (s : State) (p : BlockKey → Bool) : State :=
  let wake : Thread → Thread := fun t => if p t.tid.block then { t with stopped := false } else t
  let calm : Group → Group := fun g => if p g.block then { g with hang := 0, hangPcs := [] } else g
  let thaw : Block → Block := fun b => if p b.key then { b with frozen := false } else b
  { s with threads := s.threads.map wake, groups := s.groups.map calm, blocks := s.blocks.map thaw }.markPlaces (fun o => p o.block) 1

/-- DEBUG_RESUME (R366, R377): of one block, or of the whole device after a halt; a deep halt ends with DBGRESUME. [DEDUCED: log 72] -/
def execDebugResume (b : Option BlockKey) (s : State) : Host.Outcome State Fault Refusal :=
  s.debugPort fun s =>
  if s.debug = .none then conclude (s.reply .badState)
  else match b with
    | some k => conclude ((s.resumeBlocks (· == k)).reply .ok)
    | none =>
      let s := if s.deepHalt then s.tellDomain 2 [] else s
      conclude (({ s with deepHalt := false, debugHalt := false }.resumeBlocks fun _ => true).reply .ok)

/-- Every fixed-latency result of a core lands. -/
def State.landAll (s : State) (core : Nat) : State := s.settleResults core ((s.threads.filter fun t => t.core == core).map (·.tid))

/-- DEBUG_HALT (R366, R377): the cores stop at instruction boundaries; with freeze, engine work stops too. [DEDUCED: log 72] -/
def execDebugHalt (freeze : Bool) (s : State) : Host.Outcome State Fault Refusal :=
  s.debugPort fun s =>
  if s.debug ≠ .invasive then conclude (s.reply .badState)
  else
    let s := (dedup (s.threads.map (·.core))).foldl State.landAll s
    let s := if freeze then { s with blocks := s.blocks.map fun b : Block => { b with frozen := true } }.markPlaces (fun _ => true) 2 else s
    conclude ({ s with debugHalt := true }.reply .ok)

/-! ### Register access (R78, R378) -/

/-- Reads, or writes `w` into, a cell. -/
def State.debugCell (s : State) (p : RegPlace) (w : Option Word) : State :=
  match w with
  | none => s.reply (.value (s.cell p))
  | some v => (s.setCell p v).reply .ok

/-- A vector register: a write makes it full and voids a pending fill (R53). -/
def State.debugVector (s : State) (th : Thread) (r : Nat) (w : Option Word) : State :=
  let s := if w.isSome then s.markFull th.home r th.tid.lane else s
  s.debugCell (.vec th.home r th.tid.lane) w

/-- Reads, or writes the low byte of `w` into, a byte. -/
def State.debugByte (s : State) (b : Byte) (put : Byte → State) (w : Option Word) : State :=
  match w with
  | none => s.reply (.value (b.setWidth 32))
  | some v => (put (v.setWidth 8)).reply .ok

/-- The access to one place of a stopped thread, by the table of R378. -/
def State.debugPlace (s : State) (b : Block) (th : Thread) (place : DebugPlace) (w : Option Word) : State :=
  let alloc := ((s.group? th.tid.block th.tid.group).map (·.alloc)).getD 0
  let held := (s.groupThreads th.tid.block th.tid.group).all fun t => decide (t.life ≠ .live) || t.stopped || s.debugHalt || s.deepHalt
  let use : Operand → Use := fun o => ⟨0, o, 1, true, false⟩
  match place with
  | .vector r => if alloc ≤ r then s.reply (.fault Cause.regbound r) else s.debugVector th r w
  | .indexed x off =>
    let o : Operand := .idx (BitVec.ofNat 8 off) (BitVec.ofNat 2 x) false false 0
    if 3 < x ∨ 255 < off then s.reply .badArg
    else match s.resolve th (use o) with
      | .error c => s.reply (.fault c (xRes (s.xreg th x) off))
      | .ok r => s.debugVector th r w
  | .predicate p => if 6 < p then s.reply .badArg else s.debugCell (.pred th.tid p) w
  | .index x => if 3 < x then s.reply .badArg else s.debugCell (.xreg th.tid x) w
  | .fpflags => s.debugCell (.fpflags th.tid) w
  | .uniform n =>
    if 23 < n then s.reply .badArg else if w.isSome ∧ held = false then s.reply .busy else s.debugCell (.uni th.home n) w
  | .tileByte t i =>
    let placed := s.places.any fun o => o.block == th.tid.block && o.group == th.tid.group && (o.tD == t || o.tS == t)
    if b.tiles ≤ t ∨ 127 < i then s.reply .badArg
    else if w.isSome ∧ (held = false ∨ placed) then s.reply .busy
    else s.debugByte ((s.tile th.home t).getD i 0) (fun v => s.putTile th.home t i [v]) w
  | .flag f => if w.isSome then s.reply .busy else s.reply (.value (if th.flag f then 1 else 0))
  | .region a row col =>
    let r := s.regionAt b.key a
    let k := 256 * row + col
    if b.regions ≤ a ∨ 127 < row ∨ 255 < col then s.reply .badArg
    else if (s.core b.core).mmaOn b.key a then s.reply .busy
    else match w with
      | none => s.reply (.value (sget r.data k))
      | some v => if b.frozen then (s.modRegion b.key a fun r => { r with data := sput r.data k v }).reply .ok else s.reply .busy
  | .localByte a =>
    if b.ownsLocal a 1 = false then s.reply .badArg
    else s.debugByte (s.byte (localAt b.core a)) (fun v => (s.rawWrite b.core 0 true 0 a 1).storeLocal b.core a [v]) w

/-- A read of a register or flag of a phantom lane obtains 0 (R49). -/
def State.debugPhantom (s : State) (place : DebugPlace) (w : Option Word) : State :=
  match place, w with
  | .vector _, none | .indexed _ _, none | .predicate _, none | .index _, none | .fpflags, none | .flag _, none => s.reply (.value 0)
  | _, _ => s.reply .badArg

/-- May registers be read (R388)? The level alone says so: contexts with CONF objects are kept from tracing, sampling and dumps. [DEDUCED: log 72] -/
def State.readable (s : State) : Bool := decide (s.debug ≠ .none)

/-- DEBUG_REGISTER_ACCESS (R378, R388): reads from the observe level on, writes at the invasive level. [DEDUCED: log 72] -/
def execDebugRegisterAccess (t : Tid) (place : DebugPlace) (write : Option Word) (s : State) : Host.Outcome State Fault Refusal :=
  s.debugPort fun s =>
  match s.thread? t, s.block? t.block, s.ctx? (s.ctxOf t.block) with
  | some th, some b, some _ =>
    if s.readable = false ∨ (write.isSome ∧ s.debug ≠ .invasive) then conclude (s.reply .badState)
    else if (th.stopped || s.debugHalt || s.deepHalt) = false then conclude (s.reply .busy)
    else conclude (s.debugPlace b th place write)
  | none, some _, some _ =>
    if s.readable = false then conclude (s.reply .badState)
    else if (s.group? t.block t.group).isSome ∧ t.lane < 128 then conclude (s.debugPhantom place write)
    else conclude (s.reply .badArg)
  | _, _, _ => conclude (s.reply .badArg)

/-! ### Dumps, trace rings and samples (R375, R379, R380) -/

/-- DUMP (R379): the context is saved, and from then on its first write to a page copies the frame. The names of its threads come with the
reply. [DEDUCED: log 72] -/
def execDump (ctx spaceFirst spaceSize : Nat) (s : State) : Host.Outcome State Fault Refusal :=
  s.debugPort fun s =>
  match s.liveCtx ctx with
  | none => conclude (s.reply .badState)
  | some c =>
    let d : Dump := { first := spaceFirst, size := spaceSize, used := 0, copied := [] }
    if s.observable c = false ∨ c.dump.isSome then conclude (s.reply .badState)
    else match c.state with
      | .saved => conclude (((s.modCtx ctx fun c => { c with dump := some d }).reply .ok).reply (.report (s.threadNames ctx)))
      | .runnable => match s.saveBlocks c [] false with
        | some t => conclude (((((t.dropCaches c).modCtx ctx fun c => { c with dump := some d }).setCtxState ctx .saved).reply .ok).reply (.report (t.threadNames ctx)))
        | none => conclude ((s.faultCtxBare ctx reasonInternal).reply .ok)
      | .running => conclude (((s.modCtx ctx fun c => { c with dump := some { d with armed := false } }).setCtxState ctx .preempting).reply .ok)
      | _ => conclude (s.reply .badState)

/-- DUMP_RELEASE (R379); at level none there is no debug access (R388). [DEDUCED: log 72] -/
def execDumpRelease (ctx : Nat) (s : State) : Host.Outcome State Fault Refusal :=
  s.debugPort fun s =>
  match s.ctx? ctx with
  | some c => if c.dump.isSome ∧ s.debug ≠ .none then conclude ((s.modCtx ctx fun c => { c with dump := none }).reply .ok) else conclude (s.reply .badState)
  | none => conclude (s.reply .badState)

/-- REGISTER_TRACE_RING (R375): one for a context. -/
def execRegisterTraceRing (ctx : Nat) (ptr : BitVec 64) (s : State) : Host.Outcome State Fault Refusal :=
  s.mail fun s =>
  match s.liveCtx ctx with
  | none => conclude (s.reply .badState)
  | some c =>
    if s.observable c = false ∨ c.traceRing.isSome then conclude (s.reply .badState)
    else match s.readQueue c ptr with
      | none => conclude (s.reply .badState)
      | some q =>
        if s.badPtr c q.ring (64 * q.entries) 1 rightW then conclude (s.reply .badState)
        else conclude ((s.modCtx ctx fun c => { c with traceRing := some ptr, traceAt := (q.ring, q.entries) }).reply .ok)

/-- The sampled request of a thread whose reply has come back: nothing of it is outstanding on the core. -/
def Core.sampleOf (c : Core) (t : Tid) (obj off : Nat) : Option Sample :=
  c.samples.find? fun x => x.tid == t && x.obj == obj && x.off == off && !(c.outstanding.any fun a => a.id == x.id)

/-- SAMPLE_RECORD (R380): the reply of a sampled request of a thread has come back; its first 12 stages are kept. [DESIGN CHOICE: log 73] -/
def execSampleRecord (core : Nat) (t : Tid) (stages : List (BitVec 16)) (obj off : Nat) (s : State) : Host.Outcome State Fault Refusal :=
  match (s.core core).sampleOf t obj off with
  | none => conclude s
  | some x =>
    if stages.any (fun e => decide (6 < (e.extractLsb' 12 4).toNat)) then conclude s
    else
      let s := s.modCore core fun k => { k with samples := k.samples.filter fun y => y.id != x.id }
      let e : Nat → Nat := fun i => (stages.getD i 0).toNat
      let place := off % 2 ^ 40 + obj % 2 ^ 24 * 2 ^ 40
      let words := ((List.range 6).map fun i => BitVec.ofNat 32 (e (2 * i) + 65536 * e (2 * i + 1)))
        ++ [BitVec.ofNat 32 place, BitVec.ofNat 32 (place / 2 ^ 32)]
      conclude (s.trace 3 t false x.pc words)

end Sys2Proof.Machine
end

