-- ==== Sys2Proof/Machine/Bursar.lean ====
section
/-! DEFINITION. The Bursar (R3, R14, R15, R368, R381 to R388): bring-up, power states, the current limiter, attestation,
lifecycle and debug level, the device registers, and accesses of the host (R312). -/

namespace Sys2Proof.Machine

/-! ### Bring-up and loss of power (R382) -/

/-- What stays when the supply is lost: fuses, memory outside the device, and the model's own schedule. [DEDUCED: log 75] -/
def State.unpowered (s : State) (p : Power) : State :=
  { State.reset with
    powered := false, power := p, lifecycle := s.lifecycle, pool := s.pool, poisonPool := s.poisonPool, poolGrants := s.poolGrants
    poolRefusals := s.poolRefusals, tick := s.tick, agenda := s.agenda, broken := s.broken }

/-- The pairs of quarters in the order of their skew registers: the near one, then the far one. [DESIGN CHOICE: log 76] -/
def skewPairs : List (Nat × Nat) := [(0, 1), (0, 2), (0, 3), (1, 2), (1, 3), (2, 3)]

/-- Measures one skew (R381): the first six are those of pairs of quarters, far counter less near counter in units of 0.5 ns; then one of each link
that is UP or DEGRADED, whose far counter another device holds. [DESIGN CHOICE: log 76] -/
def State.measureSkew (s : State) (i : Nat) (far : Word) : State :=
  let clock : Nat → Int := fun q => s.quarterClocks.getD q 0
  match skewPairs[i]? with
  | some (near, q) => { s with skews := sput s.skews i (BitVec.ofInt 32 (2 * (clock q - clock near))) }
  | none => if i < 54 ∧ ((s.link (i - 6)).state = .up ∨ (s.link (i - 6)).state = .degraded) then { s with skews := sput s.skews i far } else s

/-- Measures every skew, at READY (R381). -/
def State.measureSkews (s : State) : State :=
  (List.range 54).foldl (fun (t : State) i => t.measureSkew i (Config.freeWord t.tick (2 ^ 40 + i))) s

/-- Steps 3 to 5 of bring-up. -/
def State.bringUpRest (s : State) (r : BringUpResult) : State :=
  let quarters := (List.range 4).filter r.badQuarters.getLsbD
  let s := { s with
    vault := [], poisonVault := [], badQuarters := quarters, gated := quarters, badClusters := r.badClusters, identity := r.identity
    error := s.error || !quarters.isEmpty || !r.badClusters.isEmpty || !r.identity, device := r.device % 512, position := r.device % 512, host2 := r.host2 }
  if r.identity then { s with ready := true }.measureSkews else { s with bootStep := some 5 }

/-- At power-good every link that the device has begins to train (R353). -/
def State.trainLinks (s : State) : State :=
  (List.range 48).foldl (fun (t : State) l => t.linkEvent l [.down] fun t => t.setLink l .training id) s

/-- BRING_UP (R382): the steps in order, up to READY or to the step that fails. [DESIGN CHOICE: log 4, 10] -/
def execBringUp (r : BringUpResult) (s : State) : Host.Outcome State Fault Refusal :=
  if s.ready ∨ s.bootStep.isSome then conclude s
  else
    let s := { s with powered := true, power := .p0 }
    if r.signatures = false then conclude { s with bootStep := some 1 }
    else
    let s := s.trainLinks
    if r.calibrated = false then conclude { s with bootStep := some 2, error := true }
    else conclude (s.bringUpRest r)

/-- POWER_LOSS (R382, R388). [DEDUCED: log 75] -/
def execPowerLoss (s : State) : Host.Outcome State Fault Refusal := conclude (s.unpowered .p0)

/-! ### Power states (R383) -/

def Power.code : Power → Nat
  | .p0 => 0
  | .p1 => 1
  | .p2 => 2
  | .p3 => 3
  | .p4 => 4

/-- May the state be requested from the present one? -/
def Power.allows (now : Power) (target : Nat) : Bool :=
  match target with
  | 0 => now != .p0
  | 1 => now == .p0
  | 2 => now == .p0
  | 3 => now == .p0 || now == .p1
  | 4 => now != .p4
  | _ => false

/-- PSTATE (R383): accepted, the request waits for its entry condition; PREEMPTIBLE blocks in its way are evicted. [DEDUCED: log 74] -/
def execPstate (target : Nat) (quarters : BitVec 4) (s : State) : Host.Outcome State Fault Refusal :=
  if s.deaf then conclude s
  else
    let qs := (List.range 4).filter quarters.getLsbD
    if s.power.allows target = false ∨ s.pwrReq.isSome ∨ (target = 2 ∧ qs.isEmpty) then conclude (s.reply .badState)
    else
      let s := { s with pwrReq := some (target, qs) }
      let away := s.blocks.filter fun b => target == 3 || (target == 2 && qs.contains (quarterOf b.core))
      conclude ((s.evictBlocks away).reply .ok)

/-- Does the entry condition of a requested state hold? [DEDUCED: log 74] -/
def State.powerReady (s : State) (target : Nat) (qs : List Nat) : Bool :=
  match target with
  | 1 => s.blocks.isEmpty && s.places.isEmpty && s.cores.all fun k => k.engine.isEmpty && k.drains.isEmpty && k.batches.isEmpty
  | 2 => !(s.blocks.any fun b => qs.contains (quarterOf b.core))
  | 3 => s.ctxs.all fun c => c.state == .saved || c.state == .destroyed || !(s.blocks.any fun b => b.ctx == c.num)
  | _ => true

/-- PSTATE_REACHED (R383): PSTATE in DEVSTAT changes. [DEDUCED: log 74] -/
def execPstateReached (s : State) : Host.Outcome State Fault Refusal :=
  match s.pwrReq with
  | none => conclude s
  | some (target, qs) =>
    if s.powerReady target qs = false then conclude s
    else
      let s := { s with pwrReq := none }
      match target with
      | 0 => conclude { s with power := .p0, gated := s.badQuarters }.registerAgain
      | 1 => conclude { s with power := .p1 }
      | 2 => conclude { s with power := .p2, gated := dedup (s.badQuarters ++ qs) }
      | 3 => conclude { s with power := .p3 }
      | _ => conclude (s.unpowered .p4)

/-! ### The current limiter (R384) -/

/-- 9000 A, in milliamperes. -/
def currentBound : Nat := 9000000

/-- CURRENT_LIMITER_WINDOW (R14, R384): at the end of a window of 256 cycles of a core, idle cycles where the estimate for the
device is too high, from the counts of each core's last window: first in slice starts, then, where those do not suffice, in scheduler issue.
[DESIGN CHOICE: log 25] -/
def execCurrentLimiterWindow (core : Nat) (s : State) : Host.Outcome State Fault Refusal :=
  if (s.core core).clock % 256 ≠ 0 then conclude s
  else
    let s := s.modCore core fun k => { k with lastIssued := k.issued, lastStarts := k.engineStarts, issued := 0, engineStarts := 0 }
    let est : (Core → Nat) → Nat := fun starts => (s.cores.map fun k => Config.currentEstimate k.lastIssued (starts k)).sum
    let idle : Nat → Nat := fun e => if currentBound < e then Config.idleCycles e else 0
    conclude (s.modCore core fun k => { k with idleSlices := k.idleSlices + idle (est (·.lastStarts)), idle := k.idle + idle (est fun _ => 0) })

/-! ### Attestation, lifecycle and debug level (R385 to R388) -/

def Lifecycle.code : Lifecycle → Nat
  | .factory => 0
  | .development => 1
  | .production => 2
  | .returned => 3

def DebugLevel.code : DebugLevel → Nat
  | .none => 0
  | .observe => 1
  | .invasive => 2

/-- Bytes of the signed part of an attestation report: nonce, the measurements of the ROM and of the firmware, lifecycle, debug
level, device ID, PSTATE. [DESIGN CHOICE: log 25] -/
def State.reportBody (s : State) (nonce : BitVec 256) : List Byte :=
  toLE 32 nonce.toNat ++ (List.range 96).map Config.measurement ++ toLE 1 s.lifecycle.code ++ toLE 1 (DebugLevel.code s.debug) ++ toLE 2 s.device
    ++ toLE 1 s.power.code

/-- Bytes of an Ed25519 signature and of an ML-DSA-65 signature together. -/
def signatureBytes : Nat := 64 + 3309

/-- ATTEST (R385, R386): refused in RETURNED, and without the identity key that would sign. -/
def execAttest (nonce : BitVec 256) (s : State) : Host.Outcome State Fault Refusal :=
  if s.deaf then conclude s
  else if s.lifecycle = .returned ∨ s.identity = false then conclude (s.reply .badState)
  else conclude (s.reply (.report (s.reportBody nonce ++ (List.range signatureBytes).map (Config.signature s.tick))))

/-- Is a debug level permitted (R388)? `token` is a signed token that names this device. [DEDUCED: log 72] -/
def State.levelAllowed (s : State) (level : Nat) (token : Bool) : Bool :=
  decide (level ≤ 2) && (decide (s.lifecycle ≠ .production) || decide (level < 2) || token)

/-- DEBUG_LEVEL (R388): entering invasive in PRODUCTION destroys every context with a CONF object first, and erases the keys. -/
def execDebugLevel (level : Nat) (token : Bool) (s : State) : Host.Outcome State Fault Refusal :=
  if s.deaf then conclude s
  else if s.levelAllowed level token = false then conclude (s.reply .badState)
  else
    let s := if s.lifecycle = .production ∧ level = 2 then
        let t := (s.ctxs.filter fun c => c.state != .destroyed && s.confidential c).foldl (fun (t : State) c => t.destroyCtx c) s
        { t with ctxs := t.ctxs.map fun c : Ctx => { c with confKey := false } }
      else s
    conclude ({ s with debug := if level = 0 then .none else if level = 1 then .observe else .invasive }.reply .ok)

/-- LIFECYCLE_ADVANCE: forward by one; entering RETURNED erases the identity key. -/
def execLifecycleAdvance (s : State) : Host.Outcome State Fault Refusal :=
  if s.deaf then conclude s
  else match s.lifecycle with
  | .factory => conclude { s with lifecycle := .development }
  | .development => conclude { s with lifecycle := .production }
  | .production => conclude { s with lifecycle := .returned, identity := false }
  | .returned => conclude s

/-- SKEW_MEASURE (R381), every second. [DESIGN CHOICE: log 76] -/
def execSkewMeasure (i : Nat) (value : BitVec 32) (s : State) : Host.Outcome State Fault Refusal :=
  if s.ready ∧ s.linksOff = false then conclude (s.measureSkew i value) else conclude s

/-! ### Registers (R3, R354, R360, R368, R380) -/

/-- DEVSTAT (R368). -/
def State.devstat (s : State) : Word :=
  let deg := (List.range 48).any fun l => s.hasLink l && ((s.link l).state == .degraded || (s.link l).state == .failed)
  let bit : Bool → Nat → Nat := fun b i => if b then 2 ^ i else 0
  BitVec.ofNat 32 (s.power.code * 16 + bit s.host2 3 + bit deg 2 + bit s.error 1 + bit s.ready 0)

/-- REGISTER_WRITE (R3): a write to a device register, to what the pool grants or refuses (R348, R367), or to the group table
that the Bursar loads (R364); a read-only register keeps its value. -/
def execRegisterWrite (reg : DeviceReg) (value : Word) (s : State) : Host.Outcome State Fault Refusal :=
  if s.deaf then conclude s
  else match reg with
    | .planemap => conclude { s with planemap := value &&& 0xFFFFFF }.releaseHeld
    | .devstat => conclude s
    | .integrityMode l => conclude (s.modLink l fun x => { x with integrity := value.setWidth 8 })
    | .sampling ctx =>
      let k := value.toNat
      match s.liveCtx ctx with
      | some c =>
        if (k ≠ 0 ∧ (k < 6 ∨ 20 < k)) then conclude (s.reply .badArg)
        else if k ≠ 0 ∧ s.observable c = false then conclude (s.reply .badState)
        else conclude ((s.modCtx ctx fun c => { c with sampling := k }).reply .ok)
      | none => conclude (s.reply .badState)
    | .breakStops ctx => match s.liveCtx ctx with
      | some _ => if s.debug ≠ .invasive then conclude (s.reply .badState) else conclude ((s.modCtx ctx fun c =>
          { c with breakStops := value.getLsbD 0, stopHalts := value.getLsbD 1, stopFreezes := value.getLsbD 2 }).reply .ok)
      | none => conclude (s.reply .badState)
    | .poolGrant first size =>
      let rest := s.poolGrants.filter fun g => g != (first, size)
      conclude { s with poolGrants := if value = 0 then rest else (first, size) :: rest }
    | .poolRefuse first size =>
      let rest := s.poolRefusals.filter fun g => g != (first, size)
      conclude { s with poolRefusals := if value = 0 then rest else (first, size) :: rest }
    | .groupEntry g byte =>
      if 4095 < g ∨ 127 < byte then conclude s
      else conclude { s with groupTable := (g, (s.groupEntry g).set byte (value.setWidth 8)) :: s.groupTable.filter fun x => x.1 != g }
    | .skew _ => conclude s

/-! ### Accesses of the host (R253, R256, R312) -/

/-- Is a byte one that the host and the device share by design: of a host-shared object, of a queue's control block or ring, or
of a counter? [DESIGN CHOICE: log 24] -/
def State.sharedByte (s : State) (c : Ctx) (obj off : Nat) : Bool :=
  let in_ : Nat × Nat → Nat → Bool := fun a n => a.1 == obj && decide (a.2 ≤ off) && decide (off < a.2 + n)
  ((s.object? c obj).map (·.hostShared)).getD false
    || (s.queues.any fun q => q.ctx == c.num && (in_ q.controlAt 128 || in_ q.ringAt (64 * q.entries)))
    || (s.counters.any fun k => k.ctx == c.num && in_ k.at_ 16)
    || (s.launches.any fun l => l.ctx == c.num && in_ l.counterAt 16)
    || (s.pageOps.any fun p => p.counterCtx == c.num && ((s.placeOf c p.counter).map fun a => in_ a 16).getD false)

/-- May the context itself access its objects now? [DESIGN CHOICE: log 24] -/
def Ctx.mayAccess (c : Ctx) : Bool := c.state == .runnable || c.state == .running || c.state == .preempting

/-- A device register as the management mailbox or the configuration port reads it, by a number of the model's: 0 DEVSTAT, 1 PLANEMAP, from 2 on
the skew registers (R3, R354, R368, R381). [DESIGN CHOICE: log 76] -/
def State.registerRead (s : State) (n : Nat) : Word :=
  match n with
  | 0 => s.devstat
  | 1 => s.planemap
  | k + 2 => sget s.skews k

/-- System software's own access of a quarter's Vault, before any context: no context is `noCtx`, and the object is the quarter. [DESIGN CHOICE: log 76] -/
def State.vaultAccess (s : State) (quarter addr : Nat) (write : Option (List Byte)) (size : Nat) : State :=
  let p : PAddr := .vault quarter addr
  match write with
  | none => if p.exists_ size ∧ s.gated.contains quarter = false then s.reply (.report (s.bytes p size)) else s.reply .badState
  | some bs => if p.exists_ bs.length ∧ s.gated.contains quarter = false then (s.write p bs).reply .ok else s.reply .badState

/-- HOST_ACCESS (R312): a host read or write of device memory. Bytes that the host must not touch while the context may access
them are unpredictable; an address that cannot be reached is answered BADSTATE, as is device memory while its memory ports stand still (R383); in standby nothing is (R388). Without a context, and with an object that is no quarter, a read is one of
a device register. [DESIGN CHOICE: log 24, 76; DEDUCED: log 74] -/
def execHostAccess (ctx obj off : Nat) (write : Option (List Byte)) (size : Nat) (s : State) : Host.Outcome State Fault Refusal :=
  if s.deaf then conclude s
  else if s.power = .p3 ∧ (ctx ≠ noCtx ∨ obj < 4) then conclude s
  else if s.power = .p1 ∧ (ctx ≠ noCtx ∨ obj < 4) then conclude (s.reply .badState)
  else if ctx = noCtx then
    if obj < 4 then conclude (s.vaultAccess obj off write size)
    else if write.isNone then conclude (s.reply (.value (s.registerRead off))) else conclude (s.reply .badState)
  else match s.ctx? ctx with
  | none => conclude (s.reply .badState)
  | some c =>
    let open_ : Nat → Bool := fun i => !c.mayAccess || s.sharedByte c obj (off + i)
    let blur : List Byte → List Byte := fun bs => ((List.range bs.length).zip bs).map fun p => if open_ p.1 then p.2 else (Config.freeWord s.tick p.1).setWidth 8
    match write with
    | none => match s.unitRead c obj off size with
      | some bs => conclude (s.reply (.report (s.maskMoved 0 c.num false obj off (blur bs))))
      | none => conclude (s.reply .badState)
    | some bs => match s.unitWrite c obj off (blur bs) with
      | some t => conclude ((t.rawWrite 0 c.num false obj off bs.length).reply .ok)
      | none => conclude (s.reply .badState)

end Sys2Proof.Machine
end

