-- ==== Sys2Proof/Machine/Lane.lean ====
section
/-! DEFINITION. Predicate, lane and index instructions, opcodes 0x70 to 0x79 (R75, R139 to R147). -/

namespace Sys2Proof.Machine

/-! ### Predicates -/

/-- PLOP (R139). -/
def execPlop (f : Insn) (s : State) : Host.Outcome State Fault Refusal :=
  issueWith (.plop f) f (fun s x => fixedResult s x 1 2 fun th =>
    let a := s.src th f.opa 1
    let b := s.src th f.opb 1
    match Forms.low3 f.mod with
    | 0 => a &&& b
    | 1 => a ||| b
    | 2 => a ^^^ b
    | 3 => a &&& (1 - b)
    | _ => a) s

/-- The polling lanes of a lane (R140). -/
def polling (x : Exec) (th : Thread) : List Thread :=
  x.act.filter fun t => decide (t.tid.block = th.tid.block) && decide (t.tid.group = th.tid.group)

/-- POLL in one lane (R140). -/
def State.poll (s : State) (x : Exec) (th : Thread) : Nat :=
  let f := x.f
  let ls := polling x th
  let yes := ls.filter fun t => s.src t f.opa 1 == 1
  match Forms.low3 f.mod with
  | 0 => if yes.length = ls.length then 1 else 0
  | 1 => if yes.isEmpty then 0 else 1
  | 2 => if yes.isEmpty || yes.length == ls.length then 1 else 0
  | 3 =>
    let q := s.src th f.opb 1 % 4
    ((yes.filter fun t => t.tid.lane / 32 == q).map fun t => 2 ^ (t.tid.lane % 32)).sum
  | _ => yes.length

/-- POLL (R140). -/
def execPoll (f : Insn) (s : State) : Host.Outcome State Fault Refusal :=
  issueWith (.poll f) f (fun s x => fixedResult s x 1 6 (s.poll x)) s

/-! ### Reading other lanes (R75, R141) -/

/-- What a source lane supplies for an operand; none while a register of it is empty. Of a lane that is not active in the issue group R141
allows any moment between the reader's issue and the write of its result: the model reads at the issue. [DESIGN CHOICE: log 93] -/
def State.supply (s : State) (src : Tid) (u : Use) : Option Nat :=
  match s.thread? src with
  | none => some 0
  | some th =>
    if th.life = .exited then some 0
    else match s.resolve th u with
      | .error _ => some 0
      | .ok r =>
        if (List.range u.regs).any fun i => s.emptyReg th.home (r + i) src.lane then none
        else some (s.src th u.op u.regs)

/-- The reads of an instruction across lanes: for every active lane its source lane and the operand read there. An empty
register makes the instruction wait, or trap EMPTY where ETRAP is set (R141); the trap reports the reading lanes, and the register
number that the source lane resolves. [DESIGN CHOICE: log 26] -/
def acrossLanes (s : State) (x : Exec) (src : Thread → Tid × Use) (k : List (Thread × Nat) → Act) : Act :=
  let rs := x.act.map fun th => (th, src th, s.supply (src th).1 (src th).2)
  let bad := rs.filter fun r => r.2.2.isNone
  if bad.isEmpty then k (rs.map fun r => (r.1, r.2.2.getD 0))
  else
    let hits := bad.filter fun r => etrap r.2.1.2.op
    if hits.isEmpty then .wait s
    else trapEach x Cause.empty (fun th => match hits.find? fun r => decide (r.1.tid = th.tid) with
        | some r => BitVec.ofNat 32 ((match s.thread? r.2.1.1 with
            | some t => s.regNo t r.2.1.2.op
            | none => 0))
        | none => s.emptyInfo th.tid) (hits.map (·.1.tid.lane))

/-- LXCH (R142): all reads before any write. -/
def execLxch (f : Insn) (s : State) : Host.Outcome State Fault Refusal :=
  issueWith (.lxch f) f (fun s x =>
    let k := Forms.low3 f.mod
    let lat := if 5 ≤ k then 10 else 8
    let partner : Nat → Nat := fun l => l ^^^ 2 ^ k
    acrossLanes s x (fun th => (sibling th (partner th.tid.lane), lxchOwn f (partner th.tid.lane))) fun vs =>
      .done (vs.foldl (fun s p => s.putDst x p.1 (lxchOwn f p.1.tid.lane).op (modRegs f) p.2 lat) s) (.at_ (x.due lat)) false) s

/-- LSHF (R143). -/
def execLshf (f : Insn) (s : State) : Host.Outcome State Fault Refusal :=
  issueWith (.lshf f) f (fun s x =>
    acrossLanes s x (fun th => (sibling th (lshfSource (Forms.low3 f.mod) (s.src th f.opb 1 % 128) th.tid.lane), laneSrc f))
      fun vs => .done (s.putAll x (modRegs f) 8 vs) (.at_ (x.due 8)) false) s

/-- LBCAST (R144). -/
def execLbcast (f : Insn) (s : State) : Host.Outcome State Fault Refusal :=
  issueWith (.lbcast f) f (fun s x =>
    acrossLanes s x (fun th => (sibling th (s.src th f.opb 1 % 128), laneSrc f))
      fun vs => .done (s.putAll x (modRegs f) 8 vs) (.at_ (x.due 8)) false) s

/-! ### Reduction (R145) -/

/-- One combination of LRED on 32-bit patterns. -/
def lredOp (op t a b : Nat) : Nat :=
  if t = 9 then
    match op with
    | 0 => (fp32.add 0 false (fp32.read a) (fp32.read b)).1
    | 1 => (fp32.pick false a b).1
    | _ => (fp32.pick true a b).1
  else
    match op with
    | 0 => (a + b) % 2 ^ 32
    | 1 => wrap 32 (min (readInt t a) (readInt t b))
    | 2 => wrap 32 (max (readInt t a) (readInt t b))
    | 3 => a &&& b
    | 4 => a ||| b
    | _ => a ^^^ b

/-- The identity element of an operation. -/
def lredIdentity (op t : Nat) : Nat :=
  if t = 9 then (match op with
    | 0 => 0x80000000
    | 1 => 0x7F800000
    | _ => 0xFF800000)
  else match op with
    | 1 => wrap 32 (typeMax t)
    | 2 => wrap 32 (typeMin t)
    | 3 => 0xFFFFFFFF
    | _ => 0

/-- One step of the combination, at distance `t`. -/
def lredStep (g : Nat → Nat → Nat) (y : List Nat) (t : Nat) : List Nat := y.take t ++ List.zipWith g y (y.drop t)

/-- The 128 prefixes of a list of 128 lane values. -/
def lredScan (g : Nat → Nat → Nat) (y : List Nat) : List Nat := [1, 2, 4, 8, 16, 32, 64].foldl (lredStep g) y

/-- LRED (R145). -/
def execLred (f : Insn) (s : State) : Host.Outcome State Fault Refusal :=
  issueWith (.lred f) f (fun s x =>
    let t := Forms.ty f.mod
    let op := Forms.low3 f.mod
    let lat := if t = 9 then 20 else 16
    let value : Thread → Nat := fun th => if t = 9 then s.srcFl th f.opa fp32 else s.src th f.opa 1 % 2 ^ 32
    let scans := (groupsOf x.act).map fun bg =>
      let ls := x.act.filter fun th => decide ((th.tid.block, th.tid.group) = bg)
      let y := (List.range 128).map fun l => match ls.find? fun th => th.tid.lane == l with
        | some th => value th
        | none => lredIdentity op t
      (bg, lredScan (lredOp op t) y)
    fixedResult s x 1 lat fun th => match scans.find? fun p => decide (p.1 = (th.tid.block, th.tid.group)) with
      | some p => p.2.getD (if Forms.sat f.mod then th.tid.lane else 127) 0
      | none => 0) s

/-! ### RDLANE (R146) -/

/-- RDLANE (R146): fixed latency from the own home group, a variable-latency producer from any other. -/
def execRdlane (f : Insn) (s : State) : Host.Outcome State Fault Refusal :=
  issueWith (.rdlane f) f (fun s x =>
    let regs := modRegs f
    acrossLanes s x (fun th => (rdlaneSource th (s.src th f.opb 1), laneSrc f)) fun vs =>
      let own : Thread → Bool := fun th => (rdlaneSource th (s.src th f.opb 1)).group == th.tid.group
      let near := vs.filter fun p => own p.1
      let far := vs.filter fun p => !own p.1
      let pending : Nat → Thread → Nat → List Nat → Access := fun id th v args =>
        { id, inst := x.inst, tid := th.tid, opc := 0x76, mod := f.mod, data := BitVec.ofNat 128 v, bytes := 4 * regs
          reg := s.regNo th f.opd, flag := x.flag, pc := x.ig.pc, args }
      let s0 := s
      let s := s.takeWindows (.rdlane f) (near.map (·.1)) (x.due 10)
      let s := near.foldl (fun s p => s.flagAt x.ig.core p.1.tid x.flag (x.due 10)) s
      match f.opd, vs with
      | .uni r _, (th, v) :: _ =>
        let s := if own th then s.putUni x th r.toNat regs v 10 else s
        let s := far.foldl (fun s p =>
          (s.modCore x.ig.core fun c => { c with accs := c.accs ++ [pending s.nextId p.1 v
            (if p.1.tid = th.tid then [1] else [2])] }).fresh 1) s
        .done s .later false
      | _, _ =>
        let s := near.foldl (fun s p => s.putDst x p.1 f.opd regs p.2 10) s
        let s := far.foldl (fun s p =>
          let id := s.nextId
          ((s.markEmptyRun p.1.home (s0.regNo p.1 f.opd) p.1.tid.lane id regs).modCore x.ig.core fun c =>
            { c with accs := c.accs ++ [pending id p.1 p.2 [0]] }).fresh 1) s
        .done s .later false) s

/-! ### Index registers (R147) -/

/-- The register with one field replaced. -/
def xPut (x : Word) (field : Nat) (v : Word) : Word :=
  let put : Nat → Nat → Word := fun lo w =>
    (x &&& ~~~(BitVec.ofNat 32 ((2 ^ w - 1) * 2 ^ lo))) ||| BitVec.ofNat 32 (v.toNat % 2 ^ w * 2 ^ lo)
  match field with
  | 0 => v &&& 0x3FFFFFFF
  | 1 => put 0 8
  | 2 => put 8 8
  | 3 => put 16 8
  | 4 => put 24 4
  | _ => put 28 2

/-- One field read. -/
def xPick (x : Word) (field : Nat) : Nat :=
  match field with
  | 0 => x.toNat
  | 1 => xBase x
  | 2 => xBound x
  | 3 => xIdx x
  | 4 => wrap 32 (xStep x)
  | _ => xMode x

/-- The index register OPD or OPA names. -/
def xOf : Operand → Nat
  | .xreg j _ => j.toNat
  | _ => 0

/-- What an index register holds, results that have not landed included: a write of one field leaves the rest of it unchanged. -/
def State.xcell (s : State) (th : Thread) (j : Nat) : Word := s.cell (.xreg th.tid j)

/-- XSET (R147). -/
def execXset (f : Insn) (s : State) : Host.Outcome State Fault Refusal :=
  issueWith (.xset f) f (fun s x => fixedResult s x 1 2 fun th =>
    (xPut (s.xcell th (xOf f.opd)) f.mod.toNat (s.src32 th f.opa)).toNat) s
/-- XGET (R147). -/
def execXget (f : Insn) (s : State) : Host.Outcome State Fault Refusal :=
  issueWith (.xget f) f (fun s x => fixedResult s x 1 4 fun th => xPick (s.xreg th (xOf f.opa)) f.mod.toNat) s

/-- IDX advanced by a signed amount. -/
def xAdd (x : Word) (n : Int) : Word :=
  let i : Int := xIdx x + n
  if xMode x = 0 then xSetIdx x (i % 256).toNat else xSetIdx x (i % (xBound x : Int)).toNat

/-- XADV (R147): every active lane is checked before any changes. -/
def execXadv (f : Insn) (s : State) : Host.Outcome State Fault Refusal :=
  issueWith (.xadv f) f (fun s x =>
    let j := xOf f.opd
    let v : Thread → Word := fun th => s.xreg th j
    let fails : Thread → Bool := fun th => xMode (v th) == 1 && xBound (v th) == 0
    if x.act.any fun th => decide (2 ≤ xMode (v th)) then
      .trap { cause := Cause.illop, hit := (x.act.filter fun th => decide (2 ≤ xMode (v th))).map (·.tid.lane) }
    else
      let bad := x.act.filter fails
      if bad.isEmpty then fixedResult s x 1 2 fun th => (xSetIdx (s.xcell th j) (xIdx (xAdd (v th) (sext 32 (s.src th f.opa 1))))).toNat
      else
        let info : Thread → Word := fun th => BitVec.ofNat 32 (2 * 2 ^ 30 + j * 2 ^ 28
          + (if bad.any fun b => decide (b.tid = th.tid) then 2 ^ 27 else 0) + xIdx (v th) * 2 ^ 18)
        trapEach x Cause.xbound info (bad.map (·.tid.lane))) s

end Sys2Proof.Machine
end

