-- ==== Sys2Proof/Machine/Dispatch.lean ====
section
/-! DEFINITION. The one dispatch: each instruction and each step of a unit to its meaning. -/

namespace Sys2Proof.Machine

def exec (i : Instr) (s : State) : Host.Outcome State Fault Refusal :=
  match i with
  | .nop f => Sys2Proof.Machine.execNop f s
  | .mov f => Sys2Proof.Machine.execMov f s
  | .movl f => Sys2Proof.Machine.execMovl f s
  | .sel f => Sys2Proof.Machine.execSel f s
  | .iadd f => Sys2Proof.Machine.execIadd f s
  | .isub f => Sys2Proof.Machine.execIsub f s
  | .imul f => Sys2Proof.Machine.execImul f s
  | .imulh f => Sys2Proof.Machine.execImulh f s
  | .imad f => Sys2Proof.Machine.execImad f s
  | .imin f => Sys2Proof.Machine.execImin f s
  | .imax f => Sys2Proof.Machine.execImax f s
  | .iabs f => Sys2Proof.Machine.execIabs f s
  | .ineg f => Sys2Proof.Machine.execIneg f s
  | .isad f => Sys2Proof.Machine.execIsad f s
  | .and f => Sys2Proof.Machine.execAnd f s
  | .or f => Sys2Proof.Machine.execOr f s
  | .xor f => Sys2Proof.Machine.execXor f s
  | .andn f => Sys2Proof.Machine.execAndn f s
  | .not f => Sys2Proof.Machine.execNot f s
  | .shl f => Sys2Proof.Machine.execShl f s
  | .shr f => Sys2Proof.Machine.execShr f s
  | .sar f => Sys2Proof.Machine.execSar f s
  | .rotl f => Sys2Proof.Machine.execRotl f s
  | .bfx f => Sys2Proof.Machine.execBfx f s
  | .bfi f => Sys2Proof.Machine.execBfi f s
  | .popc f => Sys2Proof.Machine.execPopc f s
  | .clz f => Sys2Proof.Machine.execClz f s
  | .brev f => Sys2Proof.Machine.execBrev f s
  | .icmp f => Sys2Proof.Machine.execIcmp f s
  | .lea f => Sys2Proof.Machine.execLea f s
  | .bpick f => Sys2Proof.Machine.execBpick f s
  | .bmix f => Sys2Proof.Machine.execBmix f s
  | .idot4 f => Sys2Proof.Machine.execIdot4 f s
  | .par f => Sys2Proof.Machine.execPar f s
  | .fadd f => Sys2Proof.Machine.execFadd f s
  | .fsub f => Sys2Proof.Machine.execFsub f s
  | .fmul f => Sys2Proof.Machine.execFmul f s
  | .ffma f => Sys2Proof.Machine.execFfma f s
  | .fmin f => Sys2Proof.Machine.execFmin f s
  | .fmax f => Sys2Proof.Machine.execFmax f s
  | .fcmp f => Sys2Proof.Machine.execFcmp f s
  | .frcp f => Sys2Proof.Machine.execFrcp f s
  | .frsq f => Sys2Proof.Machine.execFrsq f s
  | .fsqrt f => Sys2Proof.Machine.execFsqrt f s
  | .fexp2 f => Sys2Proof.Machine.execFexp2 f s
  | .flog2 f => Sys2Proof.Machine.execFlog2 f s
  | .ftanh f => Sys2Proof.Machine.execFtanh f s
  | .fclass f => Sys2Proof.Machine.execFclass f s
  | .fscalb f => Sys2Proof.Machine.execFscalb f s
  | .cvt f => Sys2Proof.Machine.execCvt f s
  | .bfma2 f => Sys2Proof.Machine.execBfma2 f s
  | .badd2 f => Sys2Proof.Machine.execBadd2 f s
  | .bmul2 f => Sys2Proof.Machine.execBmul2 f s
  | .frnd f => Sys2Proof.Machine.execFrnd f s
  | .plop f => Sys2Proof.Machine.execPlop f s
  | .poll f => Sys2Proof.Machine.execPoll f s
  | .lxch f => Sys2Proof.Machine.execLxch f s
  | .lshf f => Sys2Proof.Machine.execLshf f s
  | .lbcast f => Sys2Proof.Machine.execLbcast f s
  | .lred f => Sys2Proof.Machine.execLred f s
  | .rdlane f => Sys2Proof.Machine.execRdlane f s
  | .xset f => Sys2Proof.Machine.execXset f s
  | .xget f => Sys2Proof.Machine.execXget f s
  | .xadv f => Sys2Proof.Machine.execXadv f s
  | .bra f => Sys2Proof.Machine.execBra f s
  | .brx f => Sys2Proof.Machine.execBrx f s
  | .call f => Sys2Proof.Machine.execCall f s
  | .ret f => Sys2Proof.Machine.execRet f s
  | .exit f => Sys2Proof.Machine.execExit f s
  | .yield f => Sys2Proof.Machine.execYield f s
  | .spawn f => Sys2Proof.Machine.execSpawn f s
  | .trap f => Sys2Proof.Machine.execTrap f s
  | .tret f => Sys2Proof.Machine.execTret f s
  | .barinit f => Sys2Proof.Machine.execBarinit f s
  | .bararr f => Sys2Proof.Machine.execBararr f s
  | .barwait f => Sys2Proof.Machine.execBarwait f s
  | .bartest f => Sys2Proof.Machine.execBartest f s
  | .gsync f => Sys2Proof.Machine.execGsync f s
  | .mbxputRsv f => Sys2Proof.Machine.execMbxputRsv f s
  | .mbxputPub f => Sys2Proof.Machine.execMbxputPub f s
  | .mbxgetTake f => Sys2Proof.Machine.execMbxgetTake f s
  | .mbxgetRel f => Sys2Proof.Machine.execMbxgetRel f s
  | .quota f => Sys2Proof.Machine.execQuota f s
  | .rdsys f => Sys2Proof.Machine.execRdsys f s
  | .wrsys f => Sys2Proof.Machine.execWrsys f s
  | .clock f => Sys2Proof.Machine.execClock f s
  | .waitf f => Sys2Proof.Machine.execWaitf f s
  | .cancel f => Sys2Proof.Machine.execCancel f s
  | .enq f => Sys2Proof.Machine.execEnq f s
  | .bkpt f => Sys2Proof.Machine.execBkpt f s
  | .replay f => Sys2Proof.Machine.execReplay f s
  | .ld f => Sys2Proof.Machine.execLd f s
  | .st f => Sys2Proof.Machine.execSt f s
  | .ldl f => Sys2Proof.Machine.execLdl f s
  | .stl f => Sys2Proof.Machine.execStl f s
  | .ldgl f => Sys2Proof.Machine.execLdgl f s
  | .atom f => Sys2Proof.Machine.execAtom f s
  | .atoml f => Sys2Proof.Machine.execAtoml f s
  | .red f => Sys2Proof.Machine.execRed f s
  | .mcst f => Sys2Proof.Machine.execMcst f s
  | .redst f => Sys2Proof.Machine.execRedst f s
  | .pref f => Sys2Proof.Machine.execPref f s
  | .fence f => Sys2Proof.Machine.execFence f s
  | .fencex f => Sys2Proof.Machine.execFencex f s
  | .oprdy f => Sys2Proof.Machine.execOprdy f s
  | .vdup f => Sys2Proof.Machine.execVdup f s
  | .vnarrow f => Sys2Proof.Machine.execVnarrow f s
  | .vdrop f => Sys2Proof.Machine.execVdrop f s
  | .vqry f => Sys2Proof.Machine.execVqry f s
  | .wload f => Sys2Proof.Machine.execWload f s
  | .mma f => Sys2Proof.Machine.execMma f s
  | .accz f => Sys2Proof.Machine.execAccz f s
  | .accrd f => Sys2Proof.Machine.execAccrd f s
  | .accwr f => Sys2Proof.Machine.execAccwr f s
  | .accdr f => Sys2Proof.Machine.execAccdr f s
  | .accld f => Sys2Proof.Machine.execAccld f s
  | .rowmax f => Sys2Proof.Machine.execRowmax f s
  | .rowexp f => Sys2Proof.Machine.execRowexp f s
  | .rowsc f => Sys2Proof.Machine.execRowsc f s
  | .place f => Sys2Proof.Machine.execPlace f s
  | .tld f => Sys2Proof.Machine.execTld f s
  | .tst f => Sys2Proof.Machine.execTst f s
  | .tdset f => Sys2Proof.Machine.execTdset f s
  | .tdget f => Sys2Proof.Machine.execTdget f s
  | .locof f => Sys2Proof.Machine.execLocof f s
  | .optaw f => Sys2Proof.Machine.execOptaw f s
  | .statst f => Sys2Proof.Machine.execStatst f s
  | .statld f => Sys2Proof.Machine.execStatld f s
  | .lscale f => Sys2Proof.Machine.execLscale f s
  | .cpkick f => Sys2Proof.Machine.execCpkick f s
  | .chainBind f => Sys2Proof.Machine.execChainBind f s
  | .chainUnbind f => Sys2Proof.Machine.execChainUnbind f s
  | .issueGroupSelect core sched => Sys2Proof.Machine.execIssueGroupSelect core sched s
  | .forcedCandidate b g => Sys2Proof.Machine.execForcedCandidate b g s
  | .yieldTimeout b g => Sys2Proof.Machine.execYieldTimeout b g s
  | .waitfLimit t => Sys2Proof.Machine.execWaitfLimit t s
  | .fixedLatencyWrite core k => Sys2Proof.Machine.execFixedLatencyWrite core k s
  | .fillArrival core k => Sys2Proof.Machine.execFillArrival core k s
  | .deferredTrap b g => Sys2Proof.Machine.execDeferredTrap b g s
  | .memueTrap t => Sys2Proof.Machine.execMemueTrap t s
  | .mcnackTrap t => Sys2Proof.Machine.execMcnackTrap t s
  | .cancelTrap b => Sys2Proof.Machine.execCancelTrap b s
  | .waitTableRetry core => Sys2Proof.Machine.execWaitTableRetry core s
  | .gsyncComplete b g => Sys2Proof.Machine.execGsyncComplete b g s
  | .hangDetect b g => Sys2Proof.Machine.execHangDetect b g s
  | .hangTrap b g => Sys2Proof.Machine.execHangTrap b g s
  | .mmaSlice core => Sys2Proof.Machine.execMmaSlice core s
  | .engineOperationDone core => Sys2Proof.Machine.execEngineOperationDone core s
  | .accdrRow core => Sys2Proof.Machine.execAccdrRow core s
  | .placePassStep k => Sys2Proof.Machine.execPlacePassStep k s
  | .copyRequest core k => Sys2Proof.Machine.execCopyRequest core k s
  | .ldglBytesWritten core k => Sys2Proof.Machine.execLdglBytesWritten core k s
  | .storePerformed core k => Sys2Proof.Machine.execStorePerformed core k s
  | .reclamationSequence k => Sys2Proof.Machine.execReclamationSequence k s
  | .shootdown core k => Sys2Proof.Machine.execShootdown core k s
  | .handleGrant core n => Sys2Proof.Machine.execHandleGrant core n s
  | .promotionRequest core => Sys2Proof.Machine.execPromotionRequest core s
  | .serialisationRequest core => Sys2Proof.Machine.execSerialisationRequest core s
  | .launch q => Sys2Proof.Machine.execLaunch q s
  | .wait q => Sys2Proof.Machine.execWait q s
  | .signal q => Sys2Proof.Machine.execSignal q s
  | .prefetch q => Sys2Proof.Machine.execPrefetch q s
  | .graph q => Sys2Proof.Machine.execGraph q s
  | .blockPlace launch => Sys2Proof.Machine.execBlockPlace launch s
  | .drainClusterReserve launch => Sys2Proof.Machine.execDrainClusterReserve launch s
  | .gangEvictDecision launch => Sys2Proof.Machine.execGangEvictDecision launch s
  | .blockEvictionDone b => Sys2Proof.Machine.execBlockEvictionDone b s
  | .prologue b => Sys2Proof.Machine.execPrologue b s
  | .blockStart b => Sys2Proof.Machine.execBlockStart b s
  | .blockEnd b => Sys2Proof.Machine.execBlockEnd b s
  | .continuationGroupTimeout launch entry => Sys2Proof.Machine.execContinuationGroupTimeout launch entry s
  | .queueDrained q => Sys2Proof.Machine.execQueueDrained q s
  | .registerQueue ctx ptr => Sys2Proof.Machine.execRegisterQueue ctx ptr s
  | .reset q skip => Sys2Proof.Machine.execReset q skip s
  | .disable q => Sys2Proof.Machine.execDisable q s
  | .enable q => Sys2Proof.Machine.execEnable q s
  | .registerContext quarter addr => Sys2Proof.Machine.execRegisterContext quarter addr s
  | .start ctx => Sys2Proof.Machine.execStart ctx s
  | .preempt ctx => Sys2Proof.Machine.execPreempt ctx s
  | .preemptSaveDone ctx => Sys2Proof.Machine.execPreemptSaveDone ctx s
  | .resume ctx => Sys2Proof.Machine.execResume ctx s
  | .restoreDone ctx => Sys2Proof.Machine.execRestoreDone ctx s
  | .destroy ctx => Sys2Proof.Machine.execDestroy ctx s
  | .contextFault ctx => Sys2Proof.Machine.execContextFault ctx s
  | .viewroot ctx obj low high rights => Sys2Proof.Machine.execViewroot ctx obj low high rights s
  | .viewrecycle ctx index => Sys2Proof.Machine.execViewrecycle ctx index s
  | .pagering ctx ptr => Sys2Proof.Machine.execPagering ctx ptr s
  | .fill => Sys2Proof.Machine.execFill s
  | .fillDone k => Sys2Proof.Machine.execFillDone k s
  | .evict => Sys2Proof.Machine.execEvict s
  | .evictionDone k => Sys2Proof.Machine.execEvictionDone k s
  | .softError quarter addr corrected => Sys2Proof.Machine.execSoftError quarter addr corrected s
  | .frameLost ctx obj off => Sys2Proof.Machine.execFrameLost ctx obj off s
  | .bringUp r => Sys2Proof.Machine.execBringUp r s
  | .pstate target quarters => Sys2Proof.Machine.execPstate target quarters s
  | .currentLimiterWindow core => Sys2Proof.Machine.execCurrentLimiterWindow core s
  | .attest nonce => Sys2Proof.Machine.execAttest nonce s
  | .debugLevel level token => Sys2Proof.Machine.execDebugLevel level token s
  | .lifecycleAdvance => Sys2Proof.Machine.execLifecycleAdvance s
  | .skewMeasure k value => Sys2Proof.Machine.execSkewMeasure k value s
  | .linkTrain l => Sys2Proof.Machine.execLinkTrain l s
  | .linkTrained l lanes => Sys2Proof.Machine.execLinkTrained l lanes s
  | .linkTrainingTimeout l => Sys2Proof.Machine.execLinkTrainingTimeout l s
  | .linkKeyed l ok => Sys2Proof.Machine.execLinkKeyed l ok s
  | .laneLost l => Sys2Proof.Machine.execLaneLost l s
  | .crcErrorThreshold l => Sys2Proof.Machine.execCrcErrorThreshold l s
  | .linkRetrain l => Sys2Proof.Machine.execLinkRetrain l s
  | .retrainingDone l lanes => Sys2Proof.Machine.execRetrainingDone l lanes s
  | .linkRepair l => Sys2Proof.Machine.execLinkRepair l s
  | .rekey l => Sys2Proof.Machine.execRekey l s
  | .noProgressTimer l vc moving => Sys2Proof.Machine.execNoProgressTimer l vc moving s
  | .flitReceive l item => Sys2Proof.Machine.execFlitReceive l item s
  | .remap plane failed => Sys2Proof.Machine.execRemap plane failed s
  | .routingBankUpdate plane rings places => Sys2Proof.Machine.execRoutingBankUpdate plane rings places s
  | .bankRetire plane => Sys2Proof.Machine.execBankRetire plane s
  | .deviceFailureDetected dev => Sys2Proof.Machine.execDeviceFailureDetected dev s
  | .read p => Sys2Proof.Machine.execRead p s
  | .write p => Sys2Proof.Machine.execWrite p s
  | .atomic p => Sys2Proof.Machine.execAtomic p s
  | .redPacket p => Sys2Proof.Machine.execRedPacket p s
  | .mcast p => Sys2Proof.Machine.execMcast p s
  | .data p => Sys2Proof.Machine.execData p s
  | .ack p => Sys2Proof.Machine.execAck p s
  | .linknack p => Sys2Proof.Machine.execLinknack p s
  | .retriedRequest kind p => Sys2Proof.Machine.execRetriedRequest kind p s
  | .refused p => Sys2Proof.Machine.execRefused p s
  | .mack p => Sys2Proof.Machine.execMack p s
  | .mgt p => Sys2Proof.Machine.execMgt p s
  | .dbghold src => Sys2Proof.Machine.execDbghold src s
  | .dbgresume src => Sys2Proof.Machine.execDbgresume src s
  | .deepHalt => Sys2Proof.Machine.execDeepHalt s
  | .breakpointRegisterWrite ctx k launch pc on => Sys2Proof.Machine.execBreakpointRegisterWrite ctx k launch pc on s
  | .debugResume b => Sys2Proof.Machine.execDebugResume b s
  | .debugRegisterAccess t place write => Sys2Proof.Machine.execDebugRegisterAccess t place write s
  | .dump ctx spaceFirst spaceSize => Sys2Proof.Machine.execDump ctx spaceFirst spaceSize s
  | .dumpRelease ctx => Sys2Proof.Machine.execDumpRelease ctx s
  | .registerTraceRing ctx ptr => Sys2Proof.Machine.execRegisterTraceRing ctx ptr s
  | .sampleRecord core t stages obj off => Sys2Proof.Machine.execSampleRecord core t stages obj off s
  | .registerWrite reg value => Sys2Proof.Machine.execRegisterWrite reg value s
  | .hostAccess ctx obj off write size => Sys2Proof.Machine.execHostAccess ctx obj off write size s
  | .pstateReached => Sys2Proof.Machine.execPstateReached s
  | .powerLoss => Sys2Proof.Machine.execPowerLoss s
  | .debugHalt freeze => Sys2Proof.Machine.execDebugHalt freeze s
  | .tdsetDone b g tile => Sys2Proof.Machine.execTdsetDone b g tile s

end Sys2Proof.Machine
end

