-- ==== Sys2Proof/Machine/Events.lean ====
section
/-! DEFINITION. Which steps of the units may come next, the passing of time, and how a program is put in place. -/

namespace Sys2Proof.Machine

/-! ### Time (R15) -/

/-- One step passes: the model's counter advances, each quarter's 1 GHz counter by some amount, and the routers send what can leave.
[DESIGN CHOICE: log 2, 3, 86] -/
def State.elapse (s : State) : State :=
  let f := s.forward
  { s with
    tick := s.tick + 1, links := f.links, outbox := f.outbox, inbox := f.inbox, wire := f.wire, requests := f.requests, linkClock := s.now
    quarterClocks := ((List.range 4).zip s.quarterClocks).map fun p => p.2 + Config.quarterTicks s.tick p.1 }

/-! ### Steps that may come next -/

/-- Results of bring-up that nothing has decided. [DESIGN CHOICE: log 25] -/
def State.anyBringUp (s : State) : BringUpResult :=
  let n : Nat → Nat := Config.choose s.tick
  { signatures := n 0 % 2 == 0, calibrated := n 1 % 2 == 0, badQuarters := BitVec.ofNat 4 (n 2), badClusters := (List.range 48).filter fun i => (n 3).testBit i
    identity := n 4 % 2 == 0, device := n 5 % 512, host2 := n 6 % 2 == 0 }

/-- Steps of a core. -/
def State.coreEvents (s : State) (core : Nat) : List Instr :=
  let c := s.core core
  let each : List Nat → (Nat → Instr) → List Instr := fun l f => l.map f
  let live : Bool := s.blocks.any fun b => b.core == core
  let any : Bool → Instr → List Instr := fun b i => if b then [i] else []
  each [0, 1, 2, 3] (.issueGroupSelect core) ++ (if live then [.handleGrant core 1, .currentLimiterWindow core] else [])
    ++ each (List.range c.landings.length) (.fixedLatencyWrite core)
    ++ each (List.range c.accs.length) (.fillArrival core) ++ each (List.range c.accs.length) (.storePerformed core)
    ++ any (!c.engine.isEmpty) (.fillArrival core c.accs.length)
    ++ any (!c.engine.isEmpty) (.mmaSlice core) ++ any (!c.engine.isEmpty) (.engineOperationDone core) ++ any (!c.engine.isEmpty) (.accdrRow core)
    ++ each (List.range c.batches.length) (.copyRequest core) ++ each (List.range c.ldgl.length) (.ldglBytesWritten core)
    ++ ((List.range c.samples.length).zip c.samples).map (fun x =>
      .sampleRecord core x.2.tid ((List.range (Config.choose s.tick (2 ^ 56 + x.1) % 13)).map fun i => BitVec.ofNat 16 (Config.choose s.tick (2 ^ 57 + 16 * x.1 + i) % 0x7000)) x.2.obj x.2.off)
    ++ any (!c.retries.isEmpty || s.ctxs.any fun x => !x.heldRecords.isEmpty) (.waitTableRetry core)
    ++ each ((List.range s.viewOps.length).filter fun i => (s.viewOps[i]?.map fun o => o.cores.contains core).getD false) (.shootdown core)
    ++ any (s.cores.any fun k => k.accs.any fun a => a.asked.any fun p => p.1 == core) (.promotionRequest core)
    ++ any (s.cores.any fun k => k.accs.any fun a => a.asked.any fun p => p.1 == core) (.serialisationRequest core)

/-- Steps of a home group. -/
def groupEvents (g : Group) : List Instr :=
  [.forcedCandidate g.block g.index, .yieldTimeout g.block g.index, .gsyncComplete g.block g.index, .hangDetect g.block g.index
   , .hangTrap g.block g.index, .deferredTrap g.block g.index] ++ g.loading.map fun l => .tdsetDone g.block g.index l.1

/-- Steps of a thread. -/
def threadEvents (t : Thread) : List Instr :=
  (if t.memue.isSome then [.memueTrap t.tid] else []) ++ (if t.mcnack.isSome then [.mcnackTrap t.tid] else [])
    ++ (if t.waitSince.isSome || t.blocked.isSome then [.waitfLimit t.tid] else [])

/-- Steps of a block. -/
def blockEvents (b : Block) : List Instr :=
  (if b.cancel then [.cancelTrap b.key] else []) ++ [.prologue b.key, .blockStart b.key, .blockEnd b.key, .blockEvictionDone b.key]

/-- Steps of a launch. -/
def launchEvents (l : Launch) : List Instr :=
  if l.settled then [] else [.blockPlace l.num, .drainClusterReserve l.num, .gangEvictDecision l.num] ++ l.open_.map fun g => .continuationGroupTimeout l.num g.1

/-- The step by which a packet is taken. [DEDUCED: log 71] -/
def packetStep (p : Packet) : Option Instr :=
  let again : Bool := p.flags.getLsbD 2
  match p.kind with
  | 1 => some (if again then .retriedRequest 1 p else .read p)
  | 2 => some (if again then .retriedRequest 2 p else .write p)
  | 3 => some (if again then .retriedRequest 3 p else .atomic p)
  | 4 => some (if again then .retriedRequest 4 p else .redPacket p)
  | 5 => some (.mcast p)
  | 6 => some (.data p)
  | 7 => some (.ack p)
  | 8 => some (.linknack p)
  | 9 => some (.refused p)
  | 0x0A => some (.mack p)
  | 0x10 => some (.mgt p)
  | _ => none

/-- Packets at this device: its own to itself, those that have come over the links or waited for its endpoints, and the lines it tries again. -/
def State.packetEvents (s : State) : List Instr :=
  if s.portsOff then []
  else
    let here := (s.outbox.filter fun p => p.dst == s.device && p.src == s.device) ++ s.inbox
    here.filterMap packetStep
      ++ (s.memberLines.filter fun x => x.key == .token 0 && ((s.heldFirst x.packet.ctx).map (·.packet)) == some x.packet).map fun x => .mcast x.packet

/-- Steps of the Bursar and the links. -/
def State.bursarEvents (s : State) : List Instr :=
  List.flatten [
    s.ctxs.flatMap fun c => List.flatten [if c.state = .preempting then [.preemptSaveDone c.num] else [],
      if c.resuming then [.restoreDone c.num] else [], if c.fault.isSome then [.contextFault c.num] else []],
    if s.pwrReq.isSome then [.pstateReached] else [],
    (List.range 48).flatMap fun l => List.flatten [if 16 ≤ (s.link l).crcErrors.length then [.crcErrorThreshold l] else [],
      if 2 ^ 32 ≤ (s.link l).flits ∨ 2 ^ 32 ≤ (s.link l).sent then [.rekey l] else [],
      ((List.range 8).filter fun ch => decide (2 ^ 20 ≤ (s.link l).stalled.getD ch 0)).map fun ch => .noProgressTimer l ch (Config.choose s.tick 7 % 2 == 0)],
    ((List.range 8).filter fun p => (s.routes.getD p {}).retiring).map .bankRetire]

/-- Steps of the distributor, the pages and the views. -/
def State.systemEvents (s : State) : List Instr :=
  List.flatten [
    (List.range s.queues.length).flatMap fun q => [.launch q, .wait q, .signal q, .prefetch q, .graph q, .queueDrained q],
    if s.pageRing.isSome then [.fill, .evict] else [],
    (List.range s.pageOps.length).flatMap fun i => [.fillDone i, .evictionDone i],
    (List.range s.places.length).map .placePassStep,
    (List.range s.viewOps.length).map .reclamationSequence]

/-- The steps of the device's own units that may come next. [DESIGN CHOICE: log 1] -/
def State.events (s : State) : List Instr :=
  if s.powered = false ∨ s.power = .p4 then []
  else if s.ready = false then (if s.bootStep.isNone then [.bringUp s.anyBringUp] else [])
  else if s.unitsOff then s.bursarEvents
  else
    ((List.range s.cores.length).flatMap s.coreEvents) ++ s.groups.flatMap groupEvents ++ s.threads.flatMap threadEvents ++ s.blocks.flatMap blockEvents
      ++ s.launches.flatMap launchEvents ++ s.packetEvents ++ s.bursarEvents ++ s.systemEvents

/-- The step of a unit that comes next: what the agenda names first, else one of those that may. [DESIGN CHOICE: log 1] -/
def State.nextEvent (s : State) : Option (Instr × State) :=
  match s.agenda with
  | i :: rest => some (i, { s with agenda := rest })
  | [] =>
    let l := s.events
    (l[Config.schedule s.tick % max 1 l.length]?).map fun i => (i, s)

/-! ### Fetching -/

/-- The trap of step 1 of R83; TRAPINFO of an ALIGN trap is 0. [DEDUCED: log 77] -/
def State.fetchTrap (s : State) (ig : IssueGroup) (c : BitVec 6) (info : Word) : State :=
  { s with issue := none }.takeTrap ig { cause := c, infos := ig.members.map fun t => (t, info) }

/-- An issue group whose code cannot be read now waits; broken tables fault its context (R341, R342). -/
def State.fetchAbsent (s : State) (ig : IssueGroup) : State :=
  match (s.launch? ig.launch).bind fun l => (s.ctx? l.ctx).map fun c => (l, c) with
  | some (l, c) => { s with issue := none }.unitWaits c l.obj (l.base + 64 + ig.pc.toNat) 12
  | none => { s with issue := none }

/-- A word that is no instruction (step 2 of R83), with TRAPINFO 0. [DEDUCED: log 77] -/
def State.decodeTrap (s : State) (ig : IssueGroup) : State := s.fetchTrap ig Cause.illop 0

/-! ### A program in place -/

/-- The bytes of a word as they are stored (R5, R80). -/
def wordBytes (w : Nat) : List Byte := toLE 12 w

/-- Where the selected issue group fetches from. [DESIGN CHOICE: log 12] -/
def State.codePlace (s : State) : Option PAddr :=
  match s.issue with
  | none => none
  | some ig => match s.launch? ig.launch with
    | none => none
    | some l => match s.ctx? l.ctx with
      | none => none
      | some c =>
        if ig.pc.toNat % 4 ≠ 0 ∨ l.header.codeSize < ig.pc.toNat + 12 then none
        else match s.translate c l.obj (l.base + 64 + ig.pc.toNat) 12 with
          | .at_ p lf => if l.base + 64 + ig.pc.toNat + 12 ≤ lf.base + lf.size then some p else none
          | _ => none

/-- A context of the program put in place: its object 1 is quarter 0's Vault itself, by one leaf of 16 GiB. [DESIGN CHOICE: log 12] -/
def programCtx : Ctx :=
  { num := 0, priv := false, quarter := 0, viewEntries := 16, viewTable := 0x1000, objTable := 0x2000, objEntries := 2, queueEntries := 64
    faultBase := 0x4000, errorBase := 0x5000, control := 0x6000, saveBase := 0x100000, saveBytes := 0x1000000, state := .running }

/-- Its kernel: one instruction long. [DESIGN CHOICE: log 12] -/
def programHeader : Header :=
  { flags := 0, regs := 256, threads := 1, localBytes := 4096, regions := 1, tiles := 1, gang := 1, roles := [], trapMask := 0, handler := 0xFFFFFFFF
    codeSize := 12, entryTable := 0, bindings := 0, tagBase := 0 }

/-- Its one block, home group, thread and launch. -/
def programKey : BlockKey := ⟨1, 0⟩
def programTid : Tid := ⟨programKey, 0, 0⟩
def programBlock : Block := { key := programKey, ctx := 0, core := 0, localBase := 0, localBytes := 4096, threads := 1, groups := 1, regions := 1, tiles := 1, gang := 0, phase := .running }
def programGroup : Group := { block := programKey, index := 0, home := 0, sched := 0, alloc := 256 }
def programThread : Thread := { tid := programTid, home := 0, pc := 0 }
def programLaunch : Launch :=
  { num := 1, ctx := 0, queue := 0, priority := 0, header := programHeader, obj := 1, base := 0x10000, args := 0, counter := 0, counterAt := (1, 0x20000), count := 1
    next := 1, state := .running }
/-- The issue group that stands at it. -/
def programIssue : IssueGroup := ⟨0, 0, 1, 0, [programTid]⟩

/-- Object table entry of object 1 and its root leaf. [DESIGN CHOICE: log 12] -/
def programTables : List (Nat × List Byte) :=
  [(0x2020, toLE 4 3 ++ zeros 4 ++ toLE 8 0x3000 ++ toLE 8 (2 ^ 34) ++ zeros 8), (0x3000, toLE 16 (11 * 8 + 2))]

/-- The state in which a program of one instruction runs on core 0, its thread at that instruction. [DESIGN CHOICE: log 12] -/
def State.withProgram (s : State) (code : List Byte) : State :=
  let s := (programTables ++ [(0x10040, code)]).foldl (fun (t : State) (p : Nat × List Byte) => t.write (.vault 0 p.1) p.2) s
  { s with
    issue := some programIssue, ctxs := [programCtx], launches := [programLaunch], blocks := [programBlock], groups := [programGroup], threads := [programThread]
    regions := [{ block := programKey, index := 0 }], nextLaunch := 2, oldCode := [], torn := [] }

/-- The state with the word that comes next. [DESIGN CHOICE: log 12] -/
def State.withWord (s : State) (w : Nat) : State :=
  match s.codePlace with
  | some p => { s.write p (wordBytes w) with oldCode := [] }
  | none => s.withProgram (wordBytes w)

end Sys2Proof.Machine
end

