-- ==== Sys2Proof/Machine/Step.lean ====
section
/-! DEFINITION. One step of the device. A scheduler's selection is followed by the fetch, decoding and issue of what it selected
(R81, R83); otherwise one step of a unit, a command, a packet or an access of the host comes. -/

namespace Sys2Proof.Machine

/-- What the selected issue group does. -/
def issueStep (ig : IssueGroup) (s : State) : Host.Outcome State Fault Refusal :=
  match s.fetch ig.launch ig.pc with
  | .absent => conclude (s.fetchAbsent ig)
  | .trap c info => conclude (s.fetchTrap ig c info)
  | .word w => match Sys2Proof.decode w with
    | .error _ => conclude (s.decodeTrap ig)
    | .ok i => exec i s

/-- One step. [DESIGN CHOICE: log 1] -/
def step (s : State) : Host.Outcome State Fault Refusal :=
  let s := s.elapse
  match s.issue with
  | some ig => issueStep ig s
  | none => match s.nextEvent with
    | some (i, s) => exec i s
    | none => conclude s

/-- The state in which `step` fetches and runs the instruction of a word next. [DESIGN CHOICE: log 12] -/
def State.withFetchWord (s : State) (nbits w : Nat) : State := s.withWord (w % 2 ^ nbits)

end Sys2Proof.Machine
end

