-- ==== Sys2Proof/Safety.lean ====
section
/-! DEFINITION. What statements mean by a well-formed state, by a safe step, and by an instruction that passes the checks
made before its own (R83). -/

namespace Sys2Proof.Machine

/-- The canonical form of a memory: addresses strictly rising, and no byte listed that reads as an unlisted one does. -/
def Memory.wf (m : List Host.Cell) : Bool := sok m

/-- The three memories of the device are in canonical form. -/
def State.memoryWf (s : State) : Bool := Memory.wf s.vault && Memory.wf s.pool && Memory.wf s.locals

/-- So are the register files and the other sparse stores. -/
def State.storesWf (s : State) : Bool := s.memoryWf && sok s.vregs && sok s.fills && sok s.uregs && sok s.tiles && sok s.skews

/-- No access of this step has named a byte that the Vault does not have (R10). -/
def State.sound (s : State) : Bool := s.broken.isNone

/-- Two addresses of one memory. -/
def PAddr.same : PAddr → PAddr → Bool
  | .vault .., .vault .. => true
  | .pool _, .pool _ => true
  | .cluster .., .cluster .. => true
  | _, _ => false

/-- A step that goes on. -/
def Goes (s : State) : Prop := ∃ t, step s = .next t

/-! ### An instruction that is about to act -/

/-- The state with its selection taken. -/
def State.taken (s : State) : State := { s with issue := none }

/-- The issue group `ig` is selected, and its instruction `i`, with the fields `f`, passes steps 3 to 6 of R83 in the lanes
`act`, of which there are some; no byte the machine lacks has been named, and nothing is traced (R375). -/
structure Admits (s : State) (i : Instr) (f : Insn) (ig : IssueGroup) (act : List Thread) : Prop where
  selected : s.issue = some ig
  checked  : s.taken.checks ig i f = .go act
  active   : act ≠ []
  sound    : s.broken = none
  untraced : s.debug = .none

/-- The execution context of the instruction. -/
def State.about (s : State) (i : Instr) (f : Insn) (ig : IssueGroup) (act : List Thread) : Exec := s.taken.execAt ig i f act

/-- The state in which its effect is computed: its flag pending in the active lanes (R93), its number taken. -/
def State.acting (s : State) (x : Exec) : State := s.taken.begin x

/-- What issuing leaves behind after the effect: PCs, post-increments, the flag, hints (R68, R79, R93, R94). -/
def State.closed (u : State) (x : Exec) (i : Instr) (c : Completes) (moved : Bool) : State := (u.finish x i c moved).noteIssue x i

/-- The instruction answers, for whatever issue group and lanes it is admitted in, the state that `effect` gives, closed. -/
def Effects (i : Instr) (f : Insn) (c : Exec → Completes) (moved : Bool) (effect : State → Exec → State) : Prop :=
  ∀ (s : State) (ig : IssueGroup) (act : List Thread), Admits s i f ig act →
    exec i s = .next ((effect (s.acting (s.about i f ig act)) (s.about i f ig act)).closed (s.about i f ig act) i (c (s.about i f ig act)) moved)

/-- The instruction writes `regs` destination registers `lat` cycles after issue: `val` gives the value of each active lane. -/
def Results (i : Instr) (f : Insn) (regs lat : Nat) (val : State → Exec → Thread → Nat) : Prop :=
  Effects i f (fun x => .at_ (x.due lat)) false fun u x => u.putAll x regs lat (x.act.map fun th => (th, val u x th))

end Sys2Proof.Machine
end

