-- ==== Sys2Proof/Certificates/Slice0/Obligations.lean ====
section
/-! DEFINITION. The obligations: what the rules of the spec say of the machine, stated for the provers. -/

section

open Sys2Proof Sys2Proof.Machine


/-! ### Words (R79 to R89, R98) -/

/-- Five of the words that chapter 7 lists, word 2 first, and the instructions they stand for: MOV, MOVL, IADD.i16.sat, IMAD.i64 and LSHF.dn. -/
def Rule.listings : List (BitVec 32 × BitVec 32 × BitVec 32 × Instr) :=
  [(0x01807002, 0x00010000, 0x0000003C, .mov { mod := 0x80, guard := 7, opd := .vec 1 false 0, opa := .vec 2 false 0, opb := .none, dist := 0, wait := 0, setf := 15, yld := false }),
   (0x02807018, 0x03891A15, 0x9E00003C, .movl { mod := 0x80, guard := 7, opd := .vec 12 false 0, opa := .lit 0x12345678, opb := .none, dist := 0, wait := 0, setf := 15, yld := false }),
   (0x04487008, 0x00028000, 0xC000003C, .iadd { mod := 0x48, guard := 7, opd := .vec 4 false 0, opa := .vec 5 false 0, opb := .vec 6 false 0, dist := 0, wait := 0, setf := 15, yld := false }),
   (0x08207008, 0x00030001, 0x0000003C, .imad { mod := 0x20, guard := 7, opd := .vec 4 false 0, opa := .vec 6 false 0, opb := .vec 8 false 0, dist := 0, wait := 0, setf := 15, yld := false }),
   (0x73817008, 0x000280C0, 0x0040003C, .lshf { mod := 0x81, guard := 7, opd := .vec 4 false 0, opa := .vec 5 false 0, opb := .imm 1, dist := 0, wait := 0, setf := 15, yld := false })]

/-- Each of the five words decodes to its instruction, and the instruction encodes to the word. -/
def Obligations.ListingsDecode : Prop :=
  ∀ p ∈ Rule.listings, decode (ofWords p.1 p.2.1 p.2.2.1) = .ok p.2.2.2 ∧ encode p.2.2.2 = some (ofWords p.1 p.2.1 p.2.2.1)

/-- Decoding the word of any well-formed instruction gives the instruction back, every operand and field at every value the
encoding admits. -/
def Obligations.DecodeAfterEncode : Prop :=
  ∀ (i : Instr) (w : IWord), i.wf = true → encode i = some w → decode w = .ok i

/-- What the decoder accepts is well formed, and is the only reading of its word: encoding it gives the word back. -/
def Obligations.EncodeAfterDecode : Prop :=
  ∀ (w : IWord) (i : Instr), decode w = .ok i → i.wf = true ∧ encode i = some w

/-- The opcodes that the map of R98 reserves. -/
def Rule.reserved (opc : Nat) : Prop :=
  (0x22 ≤ opc ∧ opc ≤ 0x3F) ∨ (0x54 ≤ opc ∧ opc ≤ 0x6F) ∨ (0x7A ≤ opc ∧ opc ≤ 0x7F) ∨ (0x99 ≤ opc ∧ opc ≤ 0x9F) ∨
    (0xB2 ≤ opc ∧ opc ≤ 0xCF) ∨ (0xE6 ≤ opc ∧ opc ≤ 0xFF)

/-- A word whose opcode the map of R98 reserves is no instruction, whatever its other bits, and is refused for its opcode; no other word is. A word of
any other opcode with bit 0 set is refused for that bit (R80, R98). -/
def Obligations.ReservedWordsRefused : Prop :=
  ∀ w : IWord, (Rule.reserved (w.extractLsb' 88 8).toNat → decode w = .error .reservedOpcode) ∧
    (¬Rule.reserved (w.extractLsb' 88 8).toNat → decode w ≠ .error .reservedOpcode ∧ (w.getLsbD 0 = true → decode w = .error .bitZero))

/-! ### One step (R81, R83) -/

/-- A word fetched at the PC of the selected issue group that decodes to `i` makes the step `i` at that state, its time moved on;
one that decodes to nothing traps ILLOP, and so do the checks of step 1 of R83. The model's own choices in this: log 1. -/
def Obligations.StepRunsDecoded : Prop :=
  ∀ (s : State) (ig : IssueGroup), s.issue = some ig →
    (∀ (w : IWord) (i : Instr), s.elapse.fetch ig.launch ig.pc = .word w → decode w = .ok i → step s = exec i s.elapse) ∧
    (∀ (w : IWord) (e : DecodeError), s.elapse.fetch ig.launch ig.pc = .word w → decode w = .error e →
      step s = conclude (s.elapse.decodeTrap ig)) ∧
    (∀ (c : BitVec 6) (info : Word), s.elapse.fetch ig.launch ig.pc = .trap c info → step s = conclude (s.elapse.fetchTrap ig c info))

/-- With nothing selected, the step is that of the unit which the agenda names first. The model's own choices in this: log 1. -/
def Obligations.StepRunsAgenda : Prop :=
  ∀ (s : State) (i : Instr) (rest : List Instr), s.issue = none → s.agenda = i :: rest →
    step s = exec i { s.elapse with agenda := rest }

/-- The fetch faults ALIGN where bits [1:0] of the PC are not 0, and ILLOP, with the PC in TRAPINFO, where the 12 bytes do not
lie within the code; elsewhere it gives the three stored words, the first lowest (R80, R81). The model's own choices in this: log 55, 77. -/
def Obligations.FetchChecks : Prop :=
  ∀ (s : State) (l : Launch) (pc : Word), s.launch? l.num = some l →
    (pc.toNat % 4 ≠ 0 → s.fetch l.num pc = .trap Cause.align 0) ∧
    (pc.toNat % 4 = 0 → l.header.codeSize < pc.toNat + 12 → s.fetch l.num pc = .trap Cause.illop pc) ∧
    (∀ a b c : Nat, pc.toNat % 4 = 0 → pc.toNat + 12 ≤ l.header.codeSize → s.codeWord l pc.toNat = some a →
      s.codeWord l (pc.toNat + 4) = some b → s.codeWord l (pc.toNat + 8) = some c →
      s.fetch l.num pc = .word (BitVec.ofNat 32 c ++ BitVec.ofNat 32 b ++ BitVec.ofNat 32 a))

/-! ### Reset and invariants -/

/-- What the spec gives at power-good (R273, R353, R355, R382): no context, view, queue or launch survives, READY and ERROR are 0, the links are
DOWN, PLANEMAP gives plane p to selector p. -/
def Rule.ResetValues : Prop :=
  State.reset.ctxs = [] ∧ State.reset.queues = [] ∧ State.reset.launches = [] ∧ State.reset.blocks = [] ∧ State.reset.threads = [] ∧
  State.reset.ready = false ∧ State.reset.error = false ∧ State.reset.cores.length = 192 ∧ State.reset.links.length = 48 ∧
  (∀ l ∈ State.reset.links, l.state = .down) ∧ (∀ off : Nat, State.reset.planeOf off = selector off)

/-- Right after power-good no byte the Vault lacks has been named, and every store is in canonical form. -/
def Rule.ResetIsSound : Prop := State.reset.sound = true ∧ State.reset.storesWf = true

/-- A step that goes on has named no byte that the Vault lacks: from every sound state, whatever is selected or comes next. The model's own choices in this: log 11. -/
def Obligations.StepsStaySound : Prop :=
  ∀ s t : State, s.sound = true → step s = .next t → t.sound = true

/-! ### Memory (R2, R10, R188) -/

/-- A write of bytes that exist: each byte written reads back, every other byte reads as before, whichever memory it is in, and
the memories keep their canonical form. -/
def Rule.WritesReadBack : Prop :=
  ∀ (s : State) (p : PAddr) (bs : List Byte), p.exists_ bs.length = true →
    (∀ i (h : i < bs.length), (s.write p bs).byte (p.shift i) = bs[i]) ∧
    (∀ q : PAddr, (p.same q = true → q.key < p.key ∨ p.key + bs.length ≤ q.key) → (s.write p bs).byte q = s.byte q) ∧
    (s.memoryWf = true → (s.write p bs).memoryWf = true) ∧ (s.write p bs).broken = s.broken

/-- An access of a byte that the Vault does not have stops the step, and changes no byte. -/
def Rule.AbsentBytesStop : Prop :=
  ∀ (s : State) (q a : Nat) (bs : List Byte), s.broken = none → (PAddr.vault q a).exists_ bs.length = false →
    conclude (s.write (.vault q a) bs) = .fault (.vaultRange q a) ∧
    conclude (s.touch (.vault q a) bs.length) = .fault (.vaultRange q a) ∧ ∀ p : PAddr, (s.write (.vault q a) bs).byte p = s.byte p

/-- A write of bytes that exist reads back and leaves every other byte as it was; an access of a byte that the Vault does not have stops the step and changes nothing. The model's own choices in this: log 4, 5, 6, 11. -/
def Obligations.MemoryBytes : Prop := Rule.WritesReadBack ∧ Rule.AbsentBytesStop

/-- Right after power-good the machine is as the spec says, and sound. The model's own choices in this: log 4, 5, 6, 11. -/
def Obligations.StateAtReset : Prop := Rule.ResetValues ∧ Rule.ResetIsSound

/-! ### Integer and logic instructions (R117 to R129) -/

/-- A value read as an integer of a type: its low bits, signed for the .i types (R18, R119). -/
def Rule.int (t v : Nat) : Int :=
  if typeSigned t then (BitVec.ofNat (typeWidth t) v).toInt else (BitVec.ofNat (typeWidth t) v).toNat

/-- An integer as register bits of a type: wrapped to the type, then extended by its sign (R18, R23). -/
def Rule.bits (t : Nat) (y : Int) : Nat :=
  if typeWidth t = 64 then (BitVec.ofInt 64 y).toNat
  else if typeSigned t then ((BitVec.ofInt (typeWidth t) y).signExtend 32).toNat
  else (BitVec.ofInt (typeWidth t) y).toNat

/-- The nearest end of the type's range (R18). -/
def Rule.clamp (t : Nat) (y : Int) : Int :=
  if typeSigned t then max (-(2 ^ (typeWidth t - 1))) (min (2 ^ (typeWidth t - 1) - 1) y) else max 0 (min (2 ^ typeWidth t - 1) y)

/-- The rows of R119: fields, 32-bit latency (R118) and f(a, b, c). -/
def Rule.row : Instr → Option (Insn × Nat × (Int → Int → Int → Int))
  | .iadd f => some (f, 4, fun a b _ => a + b)
  | .isub f => some (f, 4, fun a b _ => a - b)
  | .imul f => some (f, 6, fun a b _ => a * b)
  | .imulh f => some (f, 6, fun a b _ => Int.fdiv (a * b) (2 ^ typeWidth (Forms.ty f.mod)))
  | .imad f => some (f, 6, fun a b c => a * b + c)
  | .imin f => some (f, 4, fun a b _ => if a ≤ b then a else b)
  | .imax f => some (f, 4, fun a b _ => if a ≤ b then b else a)
  | .iabs f => some (f, 4, fun a _ _ => (a.natAbs : Int))
  | .ineg f => some (f, 4, fun a _ _ => -a)
  | .isad f => some (f, 6, fun a b c => ((a - b).natAbs : Int) + c)
  | _ => none

/-- Whether the type of an instruction has 64 bits, and so two registers for a value (R45). -/
def Rule.wide (f : Insn) : Bool := Forms.ty f.mod == 2 || Forms.ty f.mod == 3
def Rule.regs (f : Insn) : Nat := if Rule.wide f then 2 else 1
/-- Latency of the 4-cycle and the 6-cycle integer instructions (R118). -/
def Rule.late (f : Insn) (lat : Nat) : Nat := if Rule.wide f then lat + 2 else lat

/-- Integer arithmetic computes f(a, b, c) exactly, clamps it with .sat, wraps it otherwise, and writes the type's register bits
in every active lane and nothing else. -/
def Rule.IntegerArithmetic : Prop :=
  ∀ (i : Instr) (f : Insn) (lat : Nat) (g : Int → Int → Int → Int), Rule.row i = some (f, lat, g) →
    Results i f (Rule.regs f) (Rule.late f lat) fun u _ th =>
      let t := Forms.ty f.mod
      let y := g (Rule.int t (u.srcTyped th f.opa t)) (Rule.int t (u.src th f.opb (Rule.regs f))) (Rule.int t (u.src th f.opd (Rule.regs f)))
      Rule.bits t (if Forms.sat f.mod then Rule.clamp t y else y)

/-- Byte `i` of a value. -/
def Rule.byte (v i : Nat) : BitVec 8 := BitVec.ofNat 8 (v / 256 ^ i)

/-- IDOT4 adds the four byte products to OPD, signed with .i8 and unsigned with .n8 (R120). -/
def Rule.DotProduct : Prop :=
  ∀ f : Insn, Results (.idot4 f) f 1 6 fun u _ th =>
    let signed := Forms.ty f.mod == 6
    let e : Nat → Nat → Int := fun v i => if signed then (Rule.byte v i).toInt else (Rule.byte v i).toNat
    let a := u.src th f.opa 1
    let b := u.src th f.opb 1
    let t := if signed then 0 else 1
    let y := Rule.int t (u.src th f.opd 1) + (e a 0 * e b 0 + e a 1 * e b 1 + e a 2 * e b 2 + e a 3 * e b 3)
    Rule.bits t (if Forms.sat f.mod then Rule.clamp t y else y)

/-- NOP writes nothing; MOV and MOVL write OPA, a literal of .i64 extended by its sign, and SEL the source its predicate picks
(R89, R99, R121). -/
def Rule.Moves : Prop :=
  (∀ f : Insn, Effects (.nop f) f (fun _ => .atIssue) false fun u _ => u) ∧
  (∀ f : Insn, (∀ v, f.opa ≠ .lit v) →
    Results (.mov f) f (Rule.regs f) (Rule.late f 4) fun u _ th => u.src th f.opa (Rule.regs f)) ∧
  (∀ (f : Insn) (v : BitVec 32), f.opa = .lit v → Results (.movl f) f (Rule.regs f) (Rule.late f 4) fun _ _ _ =>
    if Forms.ty f.mod = 2 then (v.signExtend 64).toNat else v.toNat) ∧
  ∀ f : Insn, Results (.sel f) f (Rule.regs f) (Rule.late f 4) fun u _ th =>
    if u.pred th (Forms.low3 f.mod) then u.src th f.opa (Rule.regs f) else u.src th f.opb (Rule.regs f)

/-- A source of the logic instructions: its bits, complemented with modifier 01 (R117). -/
def Rule.source (f : Insn) (u : State) (th : Thread) (o : Operand) : BitVec (32 * Rule.regs f) :=
  let v := BitVec.ofNat (32 * Rule.regs f) (u.src th o (Rule.regs f))
  if modOf o = 1 then ~~~v else v

/-- The five functions of R122. -/
def Rule.logic : Instr → Option (Insn × ((w : Nat) → BitVec w → BitVec w → BitVec w))
  | .and f => some (f, fun _ a b => a &&& b)
  | .or f => some (f, fun _ a b => a ||| b)
  | .xor f => some (f, fun _ a b => a ^^^ b)
  | .andn f => some (f, fun _ a b => a &&& ~~~b)
  | .not f => some (f, fun _ a _ => ~~~a)
  | _ => none

/-- The shifts and the rotation of R123, by a count below 256. -/
def Rule.shift : Instr → Option (Insn × ((w : Nat) → BitVec w → Nat → BitVec w))
  | .shl f => some (f, fun _ a n => a <<< n)
  | .shr f => some (f, fun _ a n => a >>> n)
  | .sar f => some (f, fun _ a n => a.sshiftRight n)
  | .rotl f => some (f, fun _ a n => a.rotateLeft n)
  | _ => none

/-- Logic acts bit by bit over w bits (R122); shifts and rotations act by bits [7:0] of OPB, whatever the width (R123). -/
def Rule.LogicAndShifts : Prop :=
  (∀ (i : Instr) (f : Insn) (g : (w : Nat) → BitVec w → BitVec w → BitVec w), Rule.logic i = some (f, g) →
    Results i f (Rule.regs f) (Rule.late f 4) fun u _ th => (g _ (Rule.source f u th f.opa) (Rule.source f u th f.opb)).toNat) ∧
  ∀ (i : Instr) (f : Insn) (g : (w : Nat) → BitVec w → Nat → BitVec w), Rule.shift i = some (f, g) →
    Results i f (Rule.regs f) (Rule.late f 4) fun u _ th =>
      (g (32 * Rule.regs f) (BitVec.ofNat _ (u.src th f.opa (Rule.regs f))) (u.src th f.opb 1 % 256)).toNat

/-- BFX and BFI, bit by bit: pos = b[7:0], len = b[15:8], hi = min(pos + len, 32) (R124). -/
def Rule.BitFields : Prop :=
  (∀ f : Insn, ∃ val : State → Exec → Thread → Nat, Results (.bfx f) f 1 4 val ∧ ∀ u x th j,
    let b := BitVec.ofNat 32 (u.src th f.opb 1)
    let pos := (b.extractLsb' 0 8).toNat
    let len := (b.extractLsb' 8 8).toNat
    let hi := min (pos + len) 32
    (val u x th).testBit j =
      (decide (j < 32) && decide (len ≠ 0) && decide (pos < 32) &&
        (if j < hi - pos then (u.src th f.opa 1).testBit (pos + j) else decide (Forms.ty f.mod = 0) && (u.src th f.opa 1).testBit (hi - 1)))) ∧
  ∀ f : Insn, ∃ val : State → Exec → Thread → Nat, Results (.bfi f) f 1 4 val ∧ ∀ u x th j,
    let b := BitVec.ofNat 32 (u.src th f.opb 1)
    let pos := (b.extractLsb' 0 8).toNat
    let len := (b.extractLsb' 8 8).toNat
    let hi := min (pos + len) 32
    (val u x th).testBit j =
      if len ≠ 0 ∧ pos ≤ j ∧ j < hi then (u.src th f.opa 1).testBit (j - pos) else (u.src th f.opd 1).testBit j

/-- POPC writes the number of 1 bits of a, and CLZ the number of 0 bits above its highest 1 bit, w for 0: both one register, even with .n64; BREV sends bit i to bit
w − 1 − i, a pair with .n64. All three accept .b32 and .n64 only (R125). -/
def Obligations.BitCounts : Prop :=
  (∀ f : Insn, (Instr.popc f).wf = true ∨ (Instr.clz f).wf = true ∨ (Instr.brev f).wf = true → f.mod = 0x80 ∨ f.mod = 0x30) ∧
  (∀ f : Insn, Results (.popc f) f 1 (Rule.late f 4) fun u _ th =>
    (List.range (32 * Rule.regs f)).countP fun j => (u.src th f.opa (Rule.regs f)).testBit j) ∧
  (∀ f : Insn, ∃ val : State → Exec → Thread → Nat, Results (.clz f) f 1 (Rule.late f 4) val ∧ ∀ u x th,
    val u x th ≤ 32 * Rule.regs f ∧
    (∀ j, 32 * Rule.regs f - val u x th ≤ j → j < 32 * Rule.regs f → (u.src th f.opa (Rule.regs f)).testBit j = false) ∧
    (val u x th < 32 * Rule.regs f → (u.src th f.opa (Rule.regs f)).testBit (32 * Rule.regs f - 1 - val u x th) = true)) ∧
  ∀ f : Insn, ∃ val : State → Exec → Thread → Nat, Results (.brev f) f (Rule.regs f) (Rule.late f 4) val ∧ ∀ u x th j,
    (val u x th).testBit j =
      (decide (j < 32 * Rule.regs f) && (u.src th f.opa (Rule.regs f)).testBit (32 * Rule.regs f - 1 - j))

/-- PAR writes the parity of a & b, 0 or 1, into a vector or uniform destination or a predicate; it accepts .b32 and .n64 only (R129). -/
def Obligations.Parity : Prop :=
  (∀ f : Insn, (Instr.par f).wf = true → (f.mod = 0x80 ∨ f.mod = 0x30) ∧
    ((∃ n e m, f.opd = .vec n e m) ∨ (∃ o x i e m, f.opd = .idx o x i e m) ∨ (∃ n m, f.opd = .uni n m) ∨ ∃ n neg, f.opd = .pred n neg)) ∧
  ∀ f : Insn, Results (.par f) f 1 (Rule.late f 4) fun u _ th =>
    ((List.range (32 * Rule.regs f)).countP fun j =>
      (u.src th f.opa (Rule.regs f)).testBit j && (u.src th f.opb (Rule.regs f)).testBit j) % 2

/-- The relations of ICMP (R126). -/
def Rule.holds : Nat → Int → Int → Prop
  | 0, a, b => a = b
  | 1, a, b => a ≠ b
  | 2, a, b => a < b
  | 3, a, b => a ≤ b
  | 4, a, b => a > b
  | _, a, b => a ≥ b

/-- Truth in a destination: 1 or 0 in a predicate, all ones or 0 in a register (R126). -/
def Rule.truth (f : Insn) (p : Prop) (y : Nat) : Prop :=
  (¬p → y = 0) ∧ (p → ((∃ n neg, f.opd = .pred n neg) → y = 1) ∧ ((∀ n neg, f.opd ≠ .pred n neg) → y = 0xFFFFFFFF))

/-- ICMP compares under the type's signedness; LEA adds the extended, shifted index to a pointer pair, modulo 2^64 (R126, R127). -/
def Rule.CompareAndLea : Prop :=
  (∀ f : Insn, ∃ val : State → Exec → Thread → Nat, Results (.icmp f) f 1 (Rule.late f 4) val ∧ ∀ u x th,
    Rule.truth f (Rule.holds (Forms.low3 f.mod) (Rule.int (Forms.ty f.mod) (u.src th f.opa (Rule.regs f)))
      (Rule.int (Forms.ty f.mod) (u.src th f.opb (Rule.regs f)))) (val u x th)) ∧
  ∀ f : Insn, Results (.lea f) f 2 6 fun u _ th =>
    let b := BitVec.ofNat 32 (u.src th f.opb 1)
    let e : BitVec 64 := if Forms.ty f.mod = 0 then b.signExtend 64 else b.setWidth 64
    (BitVec.ofNat 64 (u.src th f.opa 2) + e <<< Forms.low3 f.mod).toNat

/-- BPICK writes four picked bytes of the pair (R128); bit i of BMIX is FT[a_i + 2·b_i + 4·d_i] (R122). -/
def Rule.PicksAndMixes : Prop :=
  (∀ f : Insn, ∃ val : State → Exec → Thread → Nat, Results (.bpick f) f 1 4 val ∧ ∀ u x th,
    val u x th < 2 ^ 32 ∧ ∀ i < 4,
      let sel := u.src th f.opb 1 / 16 ^ i % 16
      Rule.byte (val u x th) i = if 8 ≤ sel then 0 else Rule.byte (u.src th f.opa 2) sel) ∧
  ∀ f : Insn, ∃ val : State → Exec → Thread → Nat, Results (.bmix f) f 1 4 val ∧ ∀ u x th j,
    (val u x th).testBit j = (decide (j < 32) && f.mod.getLsbD
      (((u.src th f.opa 1).testBit j).toNat + 2 * ((u.src th f.opb 1).testBit j).toNat + 4 * ((u.src th f.opd 1).testBit j).toNat))

/-- Integer arithmetic, and the byte dot product. -/
def Obligations.IntegerResults : Prop := Rule.IntegerArithmetic ∧ Rule.DotProduct

/-- Logic, shifts and rotations, and bit fields. -/
def Obligations.BitResults : Prop := Rule.LogicAndShifts ∧ Rule.BitFields

/-- NOP, moves and SEL; ICMP and LEA; BPICK and BMIX. -/
def Obligations.MovedAndComparedResults : Prop := Rule.Moves ∧ Rule.CompareAndLea ∧ Rule.PicksAndMixes

/-! ### Floating point (R117, R130 to R138) -/

/-- Results and flags: `val` gives both for every active lane; the result is written and FPFLAGS takes the flags by OR, `lat` cycles
after issue (R28, R118). -/
def Rule.Floats (i : Instr) (f : Insn) (regs lat : Nat) (val : State → Thread → FpResult) : Prop :=
  Effects i f (fun x => .at_ (x.due lat)) false fun u x =>
    (x.act.map fun th => (th, val u th)).foldl (fun s p => s.raise x p.1 p.2.2 lat)
      (u.putAll x regs lat (x.act.map fun th => (th, (val u th).1)))

/-- FADD, FSUB, FMUL and FFMA on FP32, BADD2, BMUL2 and BFMA2 on the two BF16 elements of a pair: operands read with their
modifiers, one rounding in the coded mode, .sat as coded, OPD as it is for the addend; flags of both elements together
(R117, R130, R138). -/
def Obligations.FloatArithmetic : Prop :=
  (∀ f : Insn, Rule.Floats (.fadd f) f 1 6 fun u th => fp32.add (rnd f) (Forms.sat f.mod) (u.fl th f.opa fp32) (u.fl th f.opb fp32)) ∧
  (∀ f : Insn, Rule.Floats (.fsub f) f 1 6 fun u th => fp32.add (rnd f) (Forms.sat f.mod) (u.fl th f.opa fp32) (u.fl th f.opb fp32).neg) ∧
  (∀ f : Insn, Rule.Floats (.fmul f) f 1 6 fun u th => fp32.mul (rnd f) (Forms.sat f.mod) (u.fl th f.opa fp32) (u.fl th f.opb fp32)) ∧
  (∀ f : Insn, Rule.Floats (.ffma f) f 1 6 fun u th =>
    fp32.fma (rnd f) (Forms.sat f.mod) (u.fl th f.opa fp32) (u.fl th f.opb fp32) (fp32.read (u.src th f.opd 1))) ∧
  (∀ f : Insn, Rule.Floats (.badd2 f) f 1 6 fun u th =>
    let g : Nat → FpResult := fun e => bf16.add (rnd f) (Forms.sat f.mod) (u.fl th f.opa bf16 e) (u.fl th f.opb bf16 e)
    ((g 0).1 + 2 ^ 16 * (g 1).1, (g 0).2 ||| (g 1).2)) ∧
  (∀ f : Insn, Rule.Floats (.bmul2 f) f 1 6 fun u th =>
    let g : Nat → FpResult := fun e => bf16.mul (rnd f) (Forms.sat f.mod) (u.fl th f.opa bf16 e) (u.fl th f.opb bf16 e)
    ((g 0).1 + 2 ^ 16 * (g 1).1, (g 0).2 ||| (g 1).2)) ∧
  ∀ f : Insn, Rule.Floats (.bfma2 f) f 1 6 fun u th =>
    let g : Nat → FpResult := fun e => bf16.fma (rnd f) (Forms.sat f.mod) (u.fl th f.opa bf16 e) (u.fl th f.opb bf16 e)
      (bf16.read (u.src th f.opd 1 >>> (16 * e)))
    ((g 0).1 + 2 ^ 16 * (g 1).1, (g 0).2 ||| (g 1).2)

/-- FMIN, FMAX, FCMP, FSCALB and FRND, and the six functions of R133, with the latencies of R118; FCLASS writes its mask, or in
a predicate whether the mask meets OPB; CVT writes what the conversion from the type in OPB gives (R131 to R137). The model's own choices in this: log 87. -/
def Obligations.FloatOperations : Prop :=
  (∀ f : Insn, Rule.Floats (.fmin f) f 1 6 fun u th => fp32.pick false (u.srcFl th f.opa fp32) (u.srcFl th f.opb fp32)) ∧
  (∀ f : Insn, Rule.Floats (.fmax f) f 1 6 fun u th => fp32.pick true (u.srcFl th f.opa fp32) (u.srcFl th f.opb fp32)) ∧
  (∀ f : Insn, Rule.Floats (.fcmp f) f 1 6 fun u th =>
    let F := fmtOf (Forms.ty f.mod)
    (truth f ((u.fl th f.opa F).relation (rnd f) (u.fl th f.opb F)), snanFlag [u.fl th f.opa F, u.fl th f.opb F])) ∧
  (∀ f : Insn, Rule.Floats (.fscalb f) f 1 6 fun u th =>
    fp32.scalb (rnd f) (Forms.sat f.mod) (u.fl th f.opa fp32) (BitVec.ofNat 32 (u.src th f.opb 1)).toInt) ∧
  (∀ f : Insn, Rule.Floats (.frnd f) f 1 6 fun u th =>
    (fmtOf (Forms.ty f.mod)).toIntegral (rnd f) (u.srcFl th f.opa (fmtOf (Forms.ty f.mod)))) ∧
  (∀ f : Insn, Rule.Floats (.frcp f) f 1 12 fun u th => fp32.rcp (rnd f) (Forms.sat f.mod) (u.fl th f.opa fp32)) ∧
  (∀ f : Insn, Rule.Floats (.frsq f) f 1 12 fun u th => frsq (u.fl th f.opa fp32)) ∧
  (∀ f : Insn, Rule.Floats (.fsqrt f) f 1 16 fun u th => fp32.sqrt (rnd f) (u.fl th f.opa fp32)) ∧
  (∀ f : Insn, Rule.Floats (.fexp2 f) f 1 14 fun u th => fexp2 (u.fl th f.opa fp32)) ∧
  (∀ f : Insn, Rule.Floats (.flog2 f) f 1 14 fun u th => flog2 (u.fl th f.opa fp32)) ∧
  (∀ f : Insn, Rule.Floats (.ftanh f) f 1 18 fun u th => ftanh (u.fl th f.opa fp32)) ∧
  (∀ f : Insn, ∃ val : State → Exec → Thread → Nat, Results (.fclass f) f 1 6 val ∧ ∀ u x th,
    let m := (fmtOf (Forms.ty f.mod)).class (u.srcFl th f.opa (fmtOf (Forms.ty f.mod)))
    ((∀ n neg, f.opd ≠ .pred n neg) → val u x th = m) ∧
    (∀ n neg, f.opd = .pred n neg → val u x th = (if (List.range 32).any fun j => m.testBit j && (u.src th f.opb 1).testBit j then 1 else 0))) ∧
  ∀ (f : Insn) (v : BitVec 15), f.opb = .imm v →
    Rule.Floats (.cvt f) f (Rule.regs f) (if Rule.wide f ∨ v.toNat = 2 ∨ v.toNat = 3 then 8 else 6) fun u th =>
      u.convert th f.opa v.toNat (Forms.ty f.mod) (rnd f) (Forms.sat f.mod)

/-- R25: m·2^e as a whole number of units of 2^q, by rounding code, and whether it is inexact. -/
def Rule.RoundingCodes : Prop :=
  ∀ (neg : Bool) (m : Nat) (e q : Int), e < q →
    let d := 2 ^ (q - e).toNat
    (∀ mode : Nat, (toUnits mode neg m e q).2 = true ↔ m % d ≠ 0) ∧
    (∀ mode : Nat, m % d = 0 → (toUnits mode neg m e q).1 * d = m) ∧
    (m % d ≠ 0 →
      ((toUnits 0 neg m e q).1 * d < m → 2 * m ≤ 2 * ((toUnits 0 neg m e q).1 * d) + d) ∧
      (m < (toUnits 0 neg m e q).1 * d → 2 * ((toUnits 0 neg m e q).1 * d) ≤ 2 * m + d) ∧
      (2 * (m % d) = d → (toUnits 0 neg m e q).1 % 2 = 0) ∧
      (toUnits 1 neg m e q).1 = m / d ∧
      (toUnits 2 neg m e q).1 = (if neg then m / d else m / d + 1) ∧
      (toUnits 3 neg m e q).1 = (if neg then m / d + 1 else m / d) ∧
      (toUnits 4 neg m e q).1 % 2 = 1 ∧ m < ((toUnits 4 neg m e q).1 + 1) * d ∧ (toUnits 4 neg m e q).1 * d < m + d)

/-- A place of a 32-bit pattern on the line, −0 just below +0 (R131). -/
def Rule.place (b : Nat) : Int := if b < 2 ^ 31 then b else 2 ^ 31 - 1 - (b : Int)

/-- FMIN and FMAX: −0 counts below +0; one NaN gives the other operand, two the canonical NaN; NV for a signalling NaN and no other flag;
the operand chosen is returned unchanged (R131). -/
def Rule.MinimumAndMaximum : Prop :=
  ∀ x y : Nat, x < 2 ^ 32 → y < 2 ^ 32 →
    let nan : Nat → Bool := fun b => decide (0x7F800000 < b % 2 ^ 31)
    let signals : Nat → Bool := fun b => nan b && !b.testBit 22
    (nan x = false → nan y = false →
      fp32.pick false x y = (if Rule.place x ≤ Rule.place y then x else y, 0) ∧
      fp32.pick true x y = (if Rule.place x ≤ Rule.place y then y else x, 0)) ∧
    (∀ larger : Bool, (nan x = true → nan y = true → (fp32.pick larger x y).1 = 0x7FC00000) ∧
      (nan x = true → nan y = false → (fp32.pick larger x y).1 = y) ∧ (nan x = false → nan y = true → (fp32.pick larger x y).1 = x) ∧
      (fp32.pick larger x y).2 = if signals x || signals y then flagNV else 0)

/-- NaN, infinity and zero in FP32 arithmetic: a NaN gives the canonical NaN, NV only for a signalling one; infinity minus infinity and
0 × infinity are invalid; an exact zero sum of opposite signs is −0 in .rd alone (R24, R25, R130). -/
def Rule.FloatSpecials : Prop :=
  (∀ (mode : Nat) (sat : Bool) (a b : Fl), a.isNan = true ∨ b.isNan = true →
    fp32.add mode sat a b = (0x7FC00000, if a.isSnan || b.isSnan then flagNV else 0) ∧
    fp32.mul mode sat a b = (0x7FC00000, if a.isSnan || b.isSnan then flagNV else 0)) ∧
  (∀ (mode : Nat) (sat g : Bool), fp32.add mode sat (.inf g) (.inf !g) = (0x7FC00000, flagNV)) ∧
  (∀ (mode : Nat) (sat g n : Bool) (e : Int) (c : Fl), fp32.mul mode sat (.inf g) (.fin n 0 e) = (0x7FC00000, flagNV) ∧
    fp32.mul mode sat (.fin n 0 e) (.inf g) = (0x7FC00000, flagNV) ∧ fp32.fma mode sat (.inf g) (.fin n 0 e) c = (0x7FC00000, flagNV)) ∧
  (∀ (mode : Nat) (sat n : Bool) (m : Nat) (e : Int), m ≠ 0 →
    fp32.add mode sat (.fin n m e) (.fin (!n) m e) = (if mode = 3 then 0x80000000 else 0, 0)) ∧
  ∀ (sat g n : Bool) (mode m : Nat) (e : Int), fp32.add mode sat (.inf g) (.fin n m e) =
    (if sat then (if g then 0xFF7FFFFF else 0x7F7FFFFF, flagNX) else (if g then 0xFF800000 else 0x7F800000, 0))

/-- The value of a finite number. -/
def Rule.value : Fl → Option Rat
  | .fin n m e => some ((if n then -1 else 1) * m * (2 : Rat) ^ e)
  | _ => none

/-- round_fmt of R25 for FP32's 24 bits, over the rationals, with the least exponent given. -/
def Rule.round (mode : Nat) (emin : Int) (x : Rat) : Rat :=
  let q : Rat := 2 ^ (max (Int.log 2 |x|) emin - 24 + 1)
  let n := |x| / q
  let lo := ⌊n⌋
  let m : Int :=
    if n = lo then lo
    else if mode = 0 then (if 1 / 2 < n - lo ∨ (n - lo = 1 / 2 ∧ lo % 2 = 1) then lo + 1 else lo)
    else if mode = 1 then lo
    else if mode = 2 then (if 0 < x then lo + 1 else lo)
    else if mode = 3 then (if x < 0 then lo + 1 else lo)
    else if lo % 2 = 1 then lo else lo + 1
  (if x < 0 then -1 else 1) * m * q

/-- What an FP32 operation delivers for an exact result that is not 0 (R25 to R27): the rounded value v with the sign of the result, NX where it is not
the exact one, and UF where it is tiny too; where |v| exceeds the largest finite value, the table of R26, with OF and NX. -/
def Rule.delivers (mode : Nat) (sat : Bool) (x : Rat) (r : FpResult) : Prop :=
  let v := Rule.round mode (-126) x
  let top : Rat := (2 ^ 24 - 1) * 2 ^ 104
  let sign : Nat := if x < 0 then 2 ^ 31 else 0
  let ends : Nat := if sat ∨ mode = 1 ∨ mode = 4 ∨ (mode = 2 ∧ x < 0) ∨ (mode = 3 ∧ 0 < x) then 0x7F7FFFFF else 0x7F800000
  (|v| ≤ top → r.1 < 2 ^ 32 ∧ r.1.testBit 31 = decide (x < 0) ∧ Rule.value (fp32.read r.1) = some v ∧
    r.2 = if v = x then 0 else if |Rule.round mode (Int.log 2 |x|) x| < 2 ^ (-126 : Int) then flagNX ||| flagUF else flagNX) ∧
  (top < |v| → r = (sign + ends, flagOF ||| flagNX))

/-- On finite operands FADD, FMUL and FFMA deliver the exact sum, product, or product and sum, rounded once, in every rounding code of R130; an exact zero is +0,
or −0 in .rd, where it is a sum of opposite signs, and else has the sign of the operands' zeros (R25, R130). FSUB adds the negated operand. -/
def Rule.RoundedOnce : Prop :=
  ∀ (mode : Nat) (sat na nb nc : Bool) (ma mb mc : Nat) (ea eb ec : Int) (a b c : Rat), mode ≤ 4 →
    Rule.value (.fin na ma ea) = some a → Rule.value (.fin nb mb eb) = some b → Rule.value (.fin nc mc ec) = some c →
    let zero : Bool → FpResult := fun n => (if n then 2 ^ 31 else 0, 0)
    let sum := fp32.add mode sat (.fin na ma ea) (.fin nb mb eb)
    let product := fp32.mul mode sat (.fin na ma ea) (.fin nb mb eb)
    let both := fp32.fma mode sat (.fin na ma ea) (.fin nb mb eb) (.fin nc mc ec)
    (a + b ≠ 0 → Rule.delivers mode sat (a + b) sum) ∧
    (a + b = 0 → sum = zero (if na = nb then na else mode == 3)) ∧
    (a * b ≠ 0 → Rule.delivers mode sat (a * b) product) ∧
    (a * b = 0 → product = zero (na != nb)) ∧
    (a * b + c ≠ 0 → Rule.delivers mode sat (a * b + c) both) ∧
    (a * b + c = 0 → both = zero (if (na != nb) = nc then nc else mode == 3)) ∧
    (Fl.fin nb mb eb).neg = .fin (!nb) mb eb

/-- R30: a conversion to an integer type rounds, then clamps to the type's range with NV; a NaN gives 0 with NV. -/
def Rule.FloatToInteger : Prop :=
  ∀ (mode : Nat) (lo hi : Int), lo ≤ hi →
    (∀ s : Bool, (Fl.nan s).toInt mode lo hi = (0, flagNV)) ∧
    (∀ g : Bool, (Fl.inf g).toInt mode lo hi = (if g then lo else hi, flagNV)) ∧
    ∀ (g : Bool) (m : Nat) (e : Int),
      let v : Int := if g then -((toUnits mode g m e 0).1 : Int) else (toUnits mode g m e 0).1
      (lo ≤ v → v ≤ hi → (Fl.fin g m e).toInt mode lo hi = (v, if (toUnits mode g m e 0).2 then flagNX else 0)) ∧
      (v < lo → (Fl.fin g m e).toInt mode lo hi = (lo, flagNV)) ∧ (hi < v → (Fl.fin g m e).toInt mode lo hi = (hi, flagNV))

/-! ### Predicates, lanes and index registers (R139 to R147) -/

/-- PLOP (R139), and POLL over the polling lanes, the active lanes of the lane's own home group (R140). -/
def Rule.PredicatesAndPolls : Prop :=
  (∀ f : Insn, ∃ val : State → Exec → Thread → Nat, Results (.plop f) f 1 2 val ∧ ∀ u x th,
    (∀ p : Bool, u.src th f.opa 1 = p.toNat → ∀ q : Bool, u.src th f.opb 1 = q.toNat →
      (Forms.low3 f.mod = 0 → val u x th = (p && q).toNat) ∧ (Forms.low3 f.mod = 1 → val u x th = (p || q).toNat) ∧
      (Forms.low3 f.mod = 2 → val u x th = (p ^^ q).toNat) ∧ (Forms.low3 f.mod = 3 → val u x th = (p && !q).toNat)) ∧
    (Forms.low3 f.mod = 4 → val u x th = u.src th f.opa 1)) ∧
  ∀ f : Insn, ∃ val : State → Exec → Thread → Nat, Results (.poll f) f 1 6 val ∧ ∀ u x th,
    let f := x.f
    let polls := x.act.filter fun t => decide (t.tid.block = th.tid.block) && decide (t.tid.group = th.tid.group)
    let p : Thread → Prop := fun t => u.src t f.opa 1 = 1
    (Forms.low3 f.mod = 0 → (val u x th = 1 ↔ ∀ t ∈ polls, p t) ∧ (val u x th = 0 ↔ ¬∀ t ∈ polls, p t)) ∧
    (Forms.low3 f.mod = 1 → (val u x th = 1 ↔ ∃ t ∈ polls, p t) ∧ (val u x th = 0 ↔ ¬∃ t ∈ polls, p t)) ∧
    (Forms.low3 f.mod = 2 → (val u x th = 1 ↔ (∀ t ∈ polls, p t) ∨ ∀ t ∈ polls, ¬p t) ∧
      (val u x th = 0 ↔ ¬((∀ t ∈ polls, p t) ∨ ∀ t ∈ polls, ¬p t))) ∧
    (Forms.low3 f.mod = 3 → (polls.map fun t => t.tid.lane).Nodup → ∀ j < 32,
      ((val u x th).testBit j = true ↔ ∃ t ∈ polls, t.tid.lane = 32 * (u.src th f.opb 1 % 4) + j ∧ p t)) ∧
    (Forms.low3 f.mod = 4 → val u x th = polls.countP fun t => u.src t f.opa 1 == 1)

/-- XSET, XGET and XADV: the whole register or one of its fields (R65, R147); XADV advances IDX by a signed amount, modulo 256
in mode 0 and modulo BOUND in mode 1, and traps XBOUND or ILLOP, before any lane changes, where it cannot. -/
def Rule.IndexRegisters : Prop :=
  (∀ f : Insn, ∃ val : State → Exec → Thread → Nat, Results (.xset f) f 1 2 val ∧ ∀ u x th j neg, f.opd = .xreg j neg →
    let old := u.cell (.xreg th.tid j.toNat)
    let v := BitVec.ofNat 32 (u.src th f.opa 1)
    let y := BitVec.ofNat 32 (val u x th)
    let part : Nat → Nat → Prop := fun lo w => y.extractLsb' lo w = v.extractLsb' 0 w ∧ ∀ b < 32, b < lo ∨ lo + w ≤ b → y.getLsbD b = old.getLsbD b
    (f.mod = 0 → y = v &&& 0x3FFFFFFF) ∧ (f.mod = 1 → part 0 8) ∧ (f.mod = 2 → part 8 8) ∧ (f.mod = 3 → part 16 8) ∧
    (f.mod = 4 → part 24 4) ∧ (f.mod = 5 → part 28 2)) ∧
  (∀ f : Insn, ∃ val : State → Exec → Thread → Nat, Results (.xget f) f 1 4 val ∧ ∀ u x th j m, f.opa = .xreg j m →
    let w := u.xreg th j.toNat
    let y := BitVec.ofNat 32 (val u x th)
    (f.mod = 0 → y = w) ∧ (f.mod = 1 → y = (w.extractLsb' 0 8).setWidth 32) ∧ (f.mod = 2 → y = (w.extractLsb' 8 8).setWidth 32) ∧
    (f.mod = 3 → y = (w.extractLsb' 16 8).setWidth 32) ∧ (f.mod = 4 → y = (w.extractLsb' 24 4).signExtend 32) ∧
    (f.mod = 5 → y = (w.extractLsb' 28 2).setWidth 32)) ∧
  ∀ (f : Insn) (j : BitVec 2) (m : BitVec 2) (s : State) (ig : IssueGroup) (act : List Thread), f.opd = .xreg j m →
    Admits s (.xadv f) f ig act →
    let x := s.about (.xadv f) f ig act
    let u := s.acting x
    let reg : Thread → Word := fun th => u.xreg th j.toNat
    let moved : Thread → Int := fun th => ((reg th).extractLsb' 16 8).toNat + (BitVec.ofNat 32 (u.src th f.opa 1)).toInt
    let mode : Thread → Nat := fun th => ((reg th).extractLsb' 28 2).toNat
    let bound : Thread → Nat := fun th => ((reg th).extractLsb' 8 8).toNat
    ((∀ th ∈ act, mode th < 2 ∧ (mode th = 1 → bound th ≠ 0)) →
      exec (.xadv f) s = .next ((u.putAll x 1 2 (act.map fun th => (th,
        (xSetIdx (u.cell (.xreg th.tid j.toNat)) (moved th % (if mode th = 0 then 256 else bound th)).toNat).toNat))).closed
          x (.xadv f) (.at_ (x.due 2)) false)) ∧
    ((∃ th ∈ act, 2 ≤ mode th) → ∃ t : Trap, t.cause = Cause.illop ∧ exec (.xadv f) s = conclude (s.taken.takeTrap ig t)) ∧
    ((∀ th ∈ act, mode th < 2) → (∃ th ∈ act, mode th = 1 ∧ bound th = 0) →
      ∃ t : Trap, t.cause = Cause.xbound ∧ exec (.xadv f) s = conclude (s.taken.takeTrap ig t))

/-- What a source lane supplies: the operand's value there when no register of it is empty, 0 for an exited or absent lane (R141). -/
def Rule.supplied (u : State) (src : Thread → Tid) (use : Thread → Use) (act : List Thread) : Prop :=
  ∀ th ∈ act, u.supply (src th) (use th) ≠ none

/-- LXCH, LSHF, LBCAST and RDLANE within a home group write, in every active lane, what the source lane named by R142, R143, R144 or R146
supplies, all reads before any write, as soon as no register read is empty. -/
def Rule.LaneMoves : Prop :=
  (∀ (f : Insn) (s : State) (ig : IssueGroup) (act : List Thread), Admits s (.lxch f) f ig act →
    let k := Forms.low3 f.mod
    let x := s.about (.lxch f) f ig act
    let u := s.acting x
    let src : Thread → Tid := fun th => { th.tid with lane := th.tid.lane ^^^ 2 ^ k }
    let own : Nat → Operand := fun l => if l.testBit k then f.opa else f.opb
    let use : Thread → Use := fun th => lxchOwn f (src th).lane
    let lat := if k < 5 then 8 else 10
    Rule.supplied u src use act →
    exec (.lxch f) s = .next (((act.map fun th => (th, (u.supply (src th) (use th)).getD 0)).foldl
      (fun s p => s.putDst x p.1 (own p.1.tid.lane) (Rule.regs f) p.2 lat) u).closed x (.lxch f) (.at_ (x.due lat)) false)) ∧
  (∀ (i : Instr) (f : Insn) (s : State) (ig : IssueGroup) (act : List Thread), i = .lshf f ∨ i = .lbcast f → Admits s i f ig act →
    let x := s.about i f ig act
    let u := s.acting x
    let n : Thread → Nat := fun th => u.src th f.opb 1 % 128
    let lane : Thread → Nat := fun th =>
      if i = .lbcast f then n th
      else if Forms.low3 f.mod = 0 then (if th.tid.lane < n th then th.tid.lane else th.tid.lane - n th)
      else if Forms.low3 f.mod = 1 then (if 127 < th.tid.lane + n th then th.tid.lane else th.tid.lane + n th)
      else if Forms.low3 f.mod = 2 then (th.tid.lane + (128 - n th)) % 128
      else (th.tid.lane + n th) % 128
    let src : Thread → Tid := fun th => { th.tid with lane := lane th }
    let use : Thread → Use := fun _ => ⟨0, f.opa, Rule.regs f, true, false⟩
    Rule.supplied u src use act →
    exec i s = .next ((u.putAll x (Rule.regs f) 8 (act.map fun th => (th, (u.supply (src th) (use th)).getD 0))).closed x i
      (.at_ (x.due 8)) false)) ∧
  ∀ (f : Insn) (s : State) (ig : IssueGroup) (act : List Thread), Admits s (.rdlane f) f ig act →
    let x := s.about (.rdlane f) f ig act
    let u := s.acting x
    let sel : Thread → Nat := fun th => u.src th f.opb 1
    let src : Thread → Tid := fun th => { block := th.tid.block, group := sel th / 128 % 8, lane := sel th % 128 }
    let use : Thread → Use := fun _ => ⟨0, f.opa, Rule.regs f, true, false⟩
    Rule.supplied u src use act →
    (∃ t, exec (.rdlane f) s = .next t ∧ t.vault = s.vault ∧ t.pool = s.pool ∧ t.locals = s.locals) ∧
    ((∀ th ∈ act, (src th).group = th.tid.group) → exec (.rdlane f) s = .next
      ((((act.foldl (fun s th => s.flagAt ig.core th.tid x.flag (x.due 10)) (u.takeWindows (.rdlane f) act (x.due 10))).putAll x (Rule.regs f) 10
        (act.map fun th => (th, (u.supply (src th) (use th)).getD 0)))).closed x (.rdlane f) .later false))

/-- The operation that LRED combines with, and its identity element, by operation code and type (R145). -/
def Rule.combination (op t : Nat) : (Nat → Nat → Nat) × Nat :=
  match op with
  | 0 => if t = 9 then (fun a b => (fp32.add 0 false (fp32.read a) (fp32.read b)).1, 0x80000000) else (fun a b => (a + b) % 2 ^ 32, 0)
  | 1 => if t = 9 then (fun a b => (fp32.pick false a b).1, 0x7F800000)
    else (fun a b => Rule.bits t (min (Rule.int t a) (Rule.int t b)), if t = 0 then 0x7FFFFFFF else 0xFFFFFFFF)
  | 2 => if t = 9 then (fun a b => (fp32.pick true a b).1, 0xFF800000)
    else (fun a b => Rule.bits t (max (Rule.int t a) (Rule.int t b)), if t = 0 then 0x80000000 else 0)
  | 3 => (fun a b => a &&& b, 0xFFFFFFFF)
  | 4 => (fun a b => a ||| b, 0)
  | _ => (fun a b => a ^^^ b, 0)

/-- The seven steps of R145 over the lanes' values. -/
def Rule.scanned (g : Nat → Nat → Nat) (y : Nat → Nat) : Nat → Nat :=
  [1, 2, 4, 8, 16, 32, 64].foldl (fun y t l => if t ≤ l then g (y (l - t)) (y l) else y l) y

/-- LRED's combination is that of R145: with an associative operation, lane l of the scan holds the lanes 0 to l combined in lane order,
so that lane 127 holds the reduction. Every operation, of every type it accepts, integer and .f32, writes lane l of the seven steps with .scan and lane
127 without, the lanes that do not contribute supplying the identity. -/
def Rule.ReductionScans : Prop :=
  (∀ (g : Nat → Nat → Nat) (y : List Nat), (∀ a b c, g (g a b) c = g a (g b c)) → y.length = 128 →
    (lredScan g y).length = 128 ∧ ∀ l < 128, (lredScan g y).getD l 0 = (y.tail.take l).foldl g (y.headD 0)) ∧
  (∀ f : Insn, ∃ val : State → Exec → Thread → Nat, Results (.lred f) f 1 (if Forms.ty f.mod = 9 then 20 else 16) val ∧
    (∀ u x th, (Instr.lred f).wf = true → th ∈ x.act →
      let t := Forms.ty f.mod
      let g := Rule.combination (Forms.low3 f.mod) t
      let ls := x.act.filter fun t => decide (t.tid.block = th.tid.block) && decide (t.tid.group = th.tid.group)
      let y : Nat → Nat := fun l => match ls.find? fun t => t.tid.lane == l with
        | some a => if t = 9 then u.srcFl a f.opa fp32 else u.src a f.opa 1 % 2 ^ 32
        | none => g.2
      (Forms.sat f.mod = true → th.tid.lane < 128 → val u x th = Rule.scanned g.1 y th.tid.lane) ∧
      (Forms.sat f.mod = false → val u x th = Rule.scanned g.1 y 127)) ∧
    ∀ u x th, Forms.ty f.mod ≠ 9 → th ∈ x.act → (x.act.map (·.tid)).Nodup → (∀ t ∈ x.act, t.tid.lane < 128) →
      let ls := x.act.filter fun t => decide (t.tid.block = th.tid.block) && decide (t.tid.group = th.tid.group)
      let mine := if Forms.sat f.mod then ls.filter fun t => decide (t.tid.lane ≤ th.tid.lane) else ls
      Forms.low3 f.mod = 0 → val u x th = (mine.map fun t => u.src t f.opa 1 % 2 ^ 32).sum % 2 ^ 32)

/-- The rounding codes, and the choice between two floating-point numbers. -/
def Obligations.RoundingAndSelection : Prop := Rule.RoundingCodes ∧ Rule.MinimumAndMaximum

/-- NaN, infinity and zero in FP32 arithmetic, its finite results as the exact ones rounded once, and conversion to an integer type. -/
def Obligations.SpecialNumbers : Prop := Rule.FloatSpecials ∧ Rule.RoundedOnce ∧ Rule.FloatToInteger

/-- PLOP and POLL; XSET, XGET and XADV. -/
def Obligations.PredicatesAndIndexRegisters : Prop := Rule.PredicatesAndPolls ∧ Rule.IndexRegisters

/-- Moves between lanes, and the scans of LRED. The model's own choices in this: log 26, 93. -/
def Obligations.LaneResults : Prop := Rule.LaneMoves ∧ Rule.ReductionScans

/-! ### Where results go, and what issuing leaves (R47, R68, R79, R86, R93, R117) -/

/-- The memories hold what they held: every byte of every store reads as before. -/
def Rule.sameMemory (s t : State) : Prop := t.vault = s.vault ∧ t.pool = s.pool ∧ t.locals = s.locals
/-- So do the vector, uniform and tile registers, which of them are empty, and the accumulator regions. -/
def Rule.sameRegisters (s t : State) : Prop :=
  t.vregs = s.vregs ∧ t.fills = s.fills ∧ t.uregs = s.uregs ∧ t.tiles = s.tiles ∧ t.regions = s.regions
/-- A thread keeps its predicates, index registers, FPFLAGS, trap registers and latched clock. -/
def Rule.sameThread (a b : Thread) : Prop :=
  b.preds = a.preds ∧ b.xs = a.xs ∧ b.fpflags = a.fpflags ∧ b.handler = a.handler ∧ b.trapCause = a.trapCause ∧ b.trapPc = a.trapPc ∧
  b.trapInfo = a.trapInfo ∧ b.trapMask = a.trapMask ∧ b.clkHi = a.clkHi

/-- No fixed-latency write of a place that is in flight on the core lands later than one of this latency (R118). -/
def Rule.landsLast (s : State) (x : Exec) (lat : Nat) (p : RegPlace) : Prop := ∀ d ∈ (s.core x.ig.core).landings, d.place = p → d.due ≤ x.due lat

/-- A vector destination: in the lanes given, the register each names holds the low 32 bits of its value and, for a pair, the next one the
high 32 bits, where no write of it in flight lands later; one that a write in flight takes later keeps what it holds (R118). Every other register of
every lane, and everything else of the machine's registers and memory, is unchanged. -/
def Rule.VectorDestinations : Prop :=
  ∀ (s : State) (x : Exec) (regs lat : Nat) (vals : List (Thread × Nat)),
    ((∃ r e m, x.f.opd = .vec r e m) ∨ ∃ off j inc e m, x.f.opd = .idx off j inc e m) → regs = 1 ∨ regs = 2 →
    (∀ p ∈ vals, p.1.tid.lane < 128 ∧ s.regNo p.1 x.f.opd + regs ≤ 256) → (vals.map fun p => (p.1.home, p.1.tid.lane)).Nodup →
    let t := s.putAll x regs lat vals
    (∀ p ∈ vals, ∀ j < regs,
      let place : RegPlace := .vec p.1.home (s.regNo p.1 x.f.opd + j) p.1.tid.lane
      (Rule.landsLast s x lat place → t.cell place = BitVec.ofNat 32 (p.2 / 2 ^ (32 * j))) ∧
      (¬Rule.landsLast s x lat place → t.cell place = s.cell place)) ∧
    (∀ h r l : Nat, r < 256 → l < 128 →
      (∀ p ∈ vals, h = p.1.home → l = p.1.tid.lane → r < s.regNo p.1 x.f.opd ∨ s.regNo p.1 x.f.opd + regs ≤ r) →
      t.cell (.vec h r l) = s.cell (.vec h r l)) ∧
    t.uregs = s.uregs ∧ t.tiles = s.tiles ∧ t.regions = s.regions ∧ t.threads = s.threads ∧ Rule.sameMemory s t

/-- Where no write of it in flight lands later: a uniform destination takes the value of the lowest active lane, the first given (R117); a predicate takes 1
for a nonzero value, and pT discards it (R46); an index register takes the low 30 bits (R86). Nothing else changes. -/
def Rule.OtherDestinations : Prop :=
  ∀ (s : State) (x : Exec) (lat v : Nat) (th th0 : Thread), s.thread? th.tid = some th0 →
    (∀ (regs : Nat) (r : BitVec 5) (m : BitVec 2) (rest : List (Thread × Nat)), x.f.opd = .uni r m → regs = 1 ∨ (regs = 2 ∧ r.toNat < 31) →
      let t := s.putAll x regs lat ((th, v) :: rest)
      (∀ j < regs, Rule.landsLast s x lat (.uni th.home (r.toNat + j)) → t.cell (.uni th.home (r.toNat + j)) = BitVec.ofNat 32 (v / 2 ^ (32 * j))) ∧
      (∀ h n, n < 32 → ¬(h = th.home ∧ r.toNat ≤ n ∧ n < r.toNat + regs) → t.cell (.uni h n) = s.cell (.uni h n)) ∧
      t.vregs = s.vregs ∧ t.threads = s.threads ∧ Rule.sameMemory s t) ∧
    (∀ (n : BitVec 3) (neg : Bool), x.f.opd = .pred n neg →
      let t := s.putAll x 1 lat [(th, v)]
      (n = 7 → t = s) ∧ (n ≠ 7 → Rule.landsLast s x lat (.pred th.tid n.toNat) → ∃ th1, t.thread? th.tid = some th1 ∧ th1.preds.getLsbD n.toNat = decide (v ≠ 0) ∧
        (∀ k, k ≠ n.toNat → th1.preds.getLsbD k = th0.preds.getLsbD k) ∧ th1.xs = th0.xs ∧ th1.fpflags = th0.fpflags ∧ th1.pc = th0.pc) ∧
      (∀ tid, tid ≠ th.tid → t.thread? tid = s.thread? tid) ∧ Rule.sameRegisters s t ∧ Rule.sameMemory s t) ∧
    ∀ (j m : BitVec 2), x.f.opd = .xreg j m → th0.xs.length = 4 → Rule.landsLast s x lat (.xreg th.tid j.toNat) →
      let t := s.putAll x 1 lat [(th, v)]
      (∃ th1, t.thread? th.tid = some th1 ∧ th1.xs.getD j.toNat 0 = BitVec.ofNat 32 v &&& 0x3FFFFFFF ∧
        (∀ k, k ≠ j.toNat → th1.xs.getD k 0 = th0.xs.getD k 0) ∧ th1.preds = th0.preds ∧ th1.fpflags = th0.fpflags ∧ th1.pc = th0.pc) ∧
      (∀ tid, tid ≠ th.tid → t.thread? tid = s.thread? tid) ∧ Rule.sameRegisters s t ∧ Rule.sameMemory s t

/-- One advance of an index register (R68): IDX + STEP modulo 256 in mode 0 and modulo BOUND otherwise, its other fields unchanged. -/
def Rule.advance (w : Word) : Word :=
  let idx : Int := (w.extractLsb' 16 8).toNat + (w.extractLsb' 24 4).toInt
  let to_ : Int := idx % (if (w.extractLsb' 28 2).toNat = 0 then 256 else ((w.extractLsb' 8 8).toNat : Int))
  (w &&& 0xFF00FFFF) ||| (BitVec.ofNat 32 to_.toNat <<< 16)

/-- `n` advances. -/
def Rule.advances : Nat → Word → Word
  | 0, w => w
  | n + 1, w => Rule.advances n (Rule.advance w)

/-- The operands of a lane that name an index register with INC (R66). -/
def Rule.steps (i : Instr) (lane j : Nat) : Nat :=
  (usesOf i lane).countP fun w => match w.op with
    | .idx _ k true _ _ => k.toNat == j
    | _ => false

/-- Issuing leaves nothing beside the effect but this: the next PC of every member is 12 further on, unless the effect has set it; in every active lane an index
register advances once for each operand, of OPA, OPB and OPD, that names it with INC, from the value the operands were resolved with, unless it is
the destination of class 5 (R68); predicates, FPFLAGS and the trap registers of every thread, the registers and the memory stay as the effect left
them. The model's own choices in this: log 13, 14, 26, 79, 91, 92. -/
def Obligations.IssueFrame : Prop :=
  ∀ (s u : State) (x : Exec) (i : Instr) (c : Completes) (moved : Bool), x.steps = x.act.flatMap (s.stepped i x.f) →
    let t := u.closed x i c moved
    Rule.sameRegisters u t ∧ Rule.sameMemory u t ∧ t.ctxs = u.ctxs ∧ t.launches = u.launches ∧ t.blocks = u.blocks ∧ t.queues = u.queues ∧
    ∀ (tid : Tid) (a : Thread), u.thread? tid = some a → ∃ b, t.thread? tid = some b ∧
      b.pc = (if moved = false ∧ tid ∈ x.ig.members then x.ig.pc + 12 else a.pc) ∧ b.preds = a.preds ∧ b.fpflags = a.fpflags ∧ b.life = a.life ∧
      b.handler = a.handler ∧ b.trapCause = a.trapCause ∧ b.trapPc = a.trapPc ∧ b.trapInfo = a.trapInfo ∧ b.clkHi = a.clkHi ∧
      ((∀ th ∈ x.act, th.tid ≠ tid) → b.xs = a.xs) ∧
      (∀ j : Nat, Rule.steps i tid.lane j = 0 ∨ (∃ k m, x.f.opd = .xreg k m ∧ k.toNat = j) → b.xs.getD j 0 = a.xs.getD j 0) ∧
      ∀ th ∈ x.act, th.tid = tid → (x.act.map (·.tid)).Nodup → a.xs.length = 4 → ∀ j < 4, Rule.steps i tid.lane j ≠ 0 → (∀ k m, x.f.opd = .xreg k m → k.toNat ≠ j) →
        ((s.xreg th j).extractLsb' 28 2).toNat = 0 ∨ (s.xreg th j).extractLsb' 8 8 ≠ 0 → b.xs.getD j 0 = Rule.advances (Rule.steps i tid.lane j) (s.xreg th j)

/-! ### Taking a trap and returning (R157 to R159) -/

/-- Entry into the handler: where the header's trap mask has the cause and no thread of the issue group is in a handler, every member enters at
the handler offset with TRAPCAUSE, TRAPPC and TRAPINFO; no other state changes but the pending results of the members, which land (R105, R157). -/
def Rule.HandlerEntry : Prop :=
  ∀ (s : State) (ig : IssueGroup) (tr : Trap) (l : Launch), s.launch? ig.launch = some l →
    l.header.trapMask.getLsbD tr.cause.toNat = true → (∀ th ∈ s.threads, th.tid ∈ ig.members → th.handler = false) →
    let t := s.takeTrap ig tr
    Rule.sameRegisters s t ∧ Rule.sameMemory s t ∧ t.ctxs = s.ctxs ∧ t.blocks = s.blocks ∧ t.broken = s.broken ∧
    (∀ d ∈ (t.core ig.core).landings, d.owner ∉ ig.members) ∧
    ∀ (tid : Tid) (a : Thread), s.thread? tid = some a → ∃ b, t.thread? tid = some b ∧
      (tid ∉ ig.members → b = a) ∧
      (tid ∈ ig.members → b.handler = true ∧ b.pc = l.header.handler ∧ b.trapCause = tr.cause ∧ b.trapPc = ig.pc ∧ b.trapInfo = tr.info tid ∧
        b.preds = a.preds ∧ b.xs = a.xs ∧ b.fpflags = a.fpflags ∧ b.life = a.life)

/-- Where no handler takes a trap, CANCEL ends every member (R154) and any other cause faults the context (R246), with the reason of the cause, or 0x20
for a trap in a handler; the fault of a context that has one already stands. -/
def Rule.TrapsWithoutHandler : Prop :=
  ∀ (s : State) (ig : IssueGroup) (tr : Trap) (l : Launch), s.launch? ig.launch = some l →
    l.header.trapMask.getLsbD tr.cause.toNat = false ∨ (∃ th ∈ s.threads, th.tid ∈ ig.members ∧ th.handler = true) →
    (tr.cause = Cause.cancel → s.takeTrap ig tr = s.exitThreads ig.members) ∧
    (tr.cause ≠ Cause.cancel → ∀ c : Ctx, s.ctx? l.ctx = some c →
      let t := s.takeTrap ig tr
      t.threads = s.threads ∧ Rule.sameRegisters s t ∧ Rule.sameMemory s t ∧
      ∃ d, t.ctx? l.ctx = some d ∧ (∀ old, c.fault = some old → d = c) ∧
        (c.fault = none → ∃ img, d.fault = some img ∧ img.pc = ig.pc ∧ img.launch = ig.launch ∧
          img.reason = (if ∃ th ∈ s.threads, th.tid ∈ ig.members ∧ th.handler = true then reasonHandler else tr.cause.setWidth 8) ∧
          img.infos = ig.members.map fun m => (m.lane, tr.info m)))

/-- TRAP traps TRAPI, with OPA, an immediate, a literal, a vector or a uniform, as TRAPINFO of each lane; OPD and OPB are unused and MOD is 0 (R158). -/
def Obligations.TrapInstruction : Prop :=
  (∀ f : Insn, (Instr.trap f).wf = true → f.mod = 0 ∧ f.opd = .none ∧ f.opb = .none ∧
    ((∃ v, f.opa = .imm v) ∨ (∃ v, f.opa = .lit v) ∨ (∃ n e m, f.opa = .vec n e m) ∨ (∃ o x i e m, f.opa = .idx o x i e m) ∨ ∃ n m, f.opa = .uni n m)) ∧
  ∀ (f : Insn) (s : State) (ig : IssueGroup) (act : List Thread), Admits s (.trap f) f ig act →
    let x := s.about (.trap f) f ig act
    ∃ tr : Trap, tr.cause = Cause.trapi ∧ (∀ th ∈ x.mem, (x.mem.map (·.tid)).Nodup → tr.info th.tid = (s.acting x).src32 th f.opa) ∧
      exec (.trap f) s = .next (s.taken.takeTrap ig tr)

/-- TRET has no operands; in a handler it resumes at TRAPPC, or with .skip at TRAPPC + 12, and a thread whose TRAPCAUSE is CANCEL exits; a thread in no handler traps ILLOP (R159). -/
def Obligations.ReturnFromTrap : Prop :=
  (∀ f : Insn, (Instr.tret f).wf = true → (f.mod = 0 ∨ f.mod = 1) ∧ f.opd = .none ∧ f.opa = .none ∧ f.opb = .none) ∧
  ∀ (f : Insn) (s : State) (ig : IssueGroup) (act : List Thread), Admits s (.tret f) f ig act →
    ((∃ th ∈ act, th.handler = false) → ∃ tr : Trap, tr.cause = Cause.illop ∧ exec (.tret f) s = .next (s.taken.takeTrap ig tr)) ∧
    ((∀ th ∈ act, th.handler = true) → (s.threads.map (·.tid)).Nodup →
      ∃ t, exec (.tret f) s = .next t ∧ Rule.sameRegisters s t ∧ t.vault = s.vault ∧ t.pool = s.pool ∧ ∀ th ∈ act, ∃ b, t.thread? th.tid = some b ∧
        (th.trapCause ≠ Cause.cancel → b.handler = false ∧ b.pc = (if f.mod.getLsbD 0 then th.trapPc + 12 else th.trapPc) ∧ b.life = th.life) ∧
        (th.trapCause = Cause.cancel → s.block? th.tid.block ≠ none → b.life = .exited))

/-! ### Control flow (R151 to R155, R160) -/

/-- The signed offset of a relative branch (R151). -/
def Rule.offset : Operand → Word
  | .imm v => v.signExtend 32
  | .lit v => v
  | _ => 0

/-- BRA takes a signed offset from a short immediate or a literal: PC + 12 + 12·o in every active lane, PC + 12 in every other lane of the issue group, and nothing else; a target outside the
code traps ILLOP at its fetch (R151). -/
def Obligations.RelativeBranch : Prop :=
  (∀ f : Insn, (Instr.bra f).wf = true → f.mod = 0 ∧ f.opd = .none ∧ f.opb = .none ∧ ((∃ v, f.opa = .imm v) ∨ ∃ v, f.opa = .lit v)) ∧
  (∀ (f : Insn) (s : State) (ig : IssueGroup) (act : List Thread), (∃ v, f.opa = .imm v) ∨ (∃ v, f.opa = .lit v) → Admits s (.bra f) f ig act →
    ∃ t, exec (.bra f) s = .next t ∧ Rule.sameRegisters s t ∧ Rule.sameMemory s t ∧
      ∀ (tid : Tid) (a : Thread), s.thread? tid = some a → ∃ b, t.thread? tid = some b ∧ Rule.sameThread a b ∧
        ((∃ th ∈ act, th.tid = tid) → b.pc = ig.pc + 12 + 12 * Rule.offset f.opa) ∧
        (tid ∈ ig.members → (∀ th ∈ act, th.tid ≠ tid) → b.pc = ig.pc + 12) ∧ (tid ∉ ig.members → b.pc = a.pc)) ∧
  ∀ (s : State) (l : Launch) (pc : Word), s.launch? l.num = some l → pc.toNat % 4 = 0 → l.header.codeSize < pc.toNat + 12 →
    s.fetch l.num pc = .trap Cause.illop pc

/-- BRX and RET go to the byte offset each active lane holds; CALL writes the offset of the next instruction at latency 4 and branches as BRA or, with
MOD[0] = 1, as BRX; members whose guard fails go on (R152, R153). Only next PCs, and CALL's link register, change. -/
def Obligations.Branches : Prop :=
  (∀ (i : Instr) (f : Insn), i = .brx f ∨ i = .ret f →
    Effects i f (fun _ => .atIssue) true fun u x => u.jump x fun th => u.src32 th f.opa) ∧
  (∀ f : Insn, (f.mod.getLsbD 0 = true ∨ (∃ v, f.opa = .imm v) ∨ ∃ v, f.opa = .lit v) →
    Effects (.call f) f (fun x => .at_ (x.due 4)) true fun u x =>
      (u.putAll x 1 4 (x.act.map fun th => (th, (x.ig.pc + 12).toNat))).jump x fun th =>
        if f.mod.getLsbD 0 then u.src32 th f.opa else x.ig.pc + 12 + 12 * Rule.offset f.opa) ∧
  ∀ (u : State) (x : Exec) (target : Thread → Word) (tid : Tid) (a : Thread), u.thread? tid = some a →
    ∃ b, (u.jump x target).thread? tid = some b ∧ b = { a with pc := b.pc } ∧
      (tid ∉ x.ig.members → b.pc = a.pc) ∧ (tid ∈ x.ig.members → (∀ th ∈ x.act, th.tid ≠ tid) → b.pc = x.ig.pc + 12) ∧
      (∀ th, tid ∈ x.ig.members → x.act.find? (fun th => decide (th.tid = tid)) = some th → b.pc = target th)

/-- EXIT ends the active threads, whatever of theirs is outstanding: each exits, and is deducted from every barrier its block has registered, from the current
phase where it has not arrived in it and else from the next, and a phase that this completes passes; YIELD makes them yield; BKPT traps BKPT with OPA as TRAPINFO where breakpoint stops are off, and stops the group, at the
instruction, where they are on (R154, R155, R160). The model's own choices in this: log 92. -/
def Obligations.EndingYieldingAndBreaking : Prop :=
  (∀ (f : Insn) (s : State) (ig : IssueGroup) (act : List Thread), Admits s (.exit f) f ig act →
    let x := s.about (.exit f) f ig act
    let u := s.acting x
    exec (.exit f) s = .next ((u.exitThreads (act.map (·.tid))).closed x (.exit f) .atIssue false)) ∧
  (∀ (s : State) (th : Thread) (b : Block), s.thread? th.tid = some th → s.block? th.tid.block = some b →
    ∃ th', (s.exitThread th.tid).thread? th.tid = some th' ∧ th'.life = .exited ∧ th'.blocked = none ∧
      (s.exitThread th.tid).locals = (b.barriers.foldl (fun s x =>
        let bar := s.bar b.core x.2
        s.putBar b.core x.2 (if (x.1, BitVec.ofNat 32 bar.phase) ∈ th.arrivals then { bar with deferred := bar.deferred + 1 }
          else { bar with expected := bar.expected - 1 }).settle) s).locals) ∧
  (∀ f : Insn, Effects (.yield f) f (fun _ => .atIssue) false fun u x =>
    u.modThreads (x.act.map (·.tid)) fun th => { th with yielded := some 0 }) ∧
  (∀ (f : Insn) (s : State) (ig : IssueGroup) (act : List Thread), Admits s (.bkpt f) f ig act →
    ∃ tr : Trap, tr.cause = Cause.bkpt ∧ exec (.bkpt f) s = .next (s.taken.takeTrap ig tr) ∧
      ∀ (th : Thread) (v : BitVec 15), f.opa = .imm v → th.tid ∈ (s.about (.bkpt f) f ig act).mem.map (·.tid) → tr.info th.tid = v.signExtend 32) ∧
  ∀ (f : Insn) (s t : State) (ig : IssueGroup) (act : List Thread), s.issue = some ig → s.taken.checks ig (.bkpt f) f = .go act →
    (∃ th ∈ act, th.passBreak = false) → s.taken.breakStopsOn (s.taken.ctxOfExec (s.about (.bkpt f) f ig act)) = true →
    exec (.bkpt f) s = .next t → ∀ (tid : Tid) (a : Thread), tid ∈ ig.members → s.thread? tid = some a →
      ∃ b, t.thread? tid = some b ∧ b.stopped = true ∧ b.pc = a.pc

/-! ### Barriers, GSYNC, QUOTA and mailboxes (R149, R161 to R168, R288, R296) -/

/-- A lane may name a barrier: a multiple of 16 within its own block's local memory (R161). -/
def Rule.barPlace (u : State) (th : Thread) (a : Nat) : Prop := a % 16 = 0 ∧ ∃ b, u.block? th.tid.block = some b ∧ b.ownsLocal a 16 = true

/-- R288: the barrier of an object as arrivals, bytes and deductions change it; the phase completes exactly where arrived equals expected, which
is not 0, and nothing is pending; then the number goes up by 1 modulo 2^32, arrived is 0, and expected keeps the deductions. An EXIT takes its thread from
expected where it has not arrived in the current phase, and else adds it to deferred, and the completion is tested again. -/
def Rule.BarrierPhases : Prop :=
  ∀ b : Bar,
    (b.arrived = b.expected ∧ b.expected ≠ 0 ∧ b.pending = 0 → b.settle.phase = (b.phase + 1) % 2 ^ 32 ∧ b.settle.arrived = 0 ∧
      b.settle.pending = 0 ∧ b.settle.expected = b.expected - b.deferred ∧ b.settle.deferred = 0 ∧ b.settle.flags = b.flags) ∧
    (¬(b.arrived = b.expected ∧ b.expected ≠ 0 ∧ b.pending = 0) → b.settle = b) ∧
    (∀ (s : State) (core a i : Nat) (th : Thread), core < 192 → a + 16 ≤ clusterBytes → s.barStrayed core a = false → (s.bar core a).deferred + 1 < 2 ^ 16 →
      let old := s.bar core a
      (s.exitBar core th (i, a)).bar core a =
        (if (i, BitVec.ofNat 32 old.phase) ∈ th.arrivals then { old with deferred := old.deferred + 1 } else { old with expected := old.expected - 1 }).settle) ∧
    (∀ (s : State) (core a : Nat), core < 192 → a + 16 ≤ clusterBytes → b.expected < 2 ^ 16 → b.arrived < 2 ^ 16 → -(2 ^ 31) ≤ b.pending → b.pending < 2 ^ 31 →
      b.phase < 2 ^ 32 → b.deferred < 2 ^ 16 → b.flags < 2 ^ 16 → s.barStrayed core a = false →
      (s.putBar core a b).bar core a = b)

/-- The barrier instructions where the active lanes name one barrier of their block: BARINIT registers it with the count of the highest lane, arrived,
pending and phase 0; BARARR adds the arrivals, and with .tx the bytes, settles the phase, and writes the number of the phase arrived in;
BARWAIT goes on once the phase differs from OPB; BARTEST writes whether it differs (R162 to R164). Of a barrier that a forbidden write has met (R291) the
last three say nothing. -/
def Rule.BarrierInstructions : Prop :=
  (∀ (f : Insn) (s : State) (ig : IssueGroup) (act : List Thread) (k : BlockKey) (a : Nat) (last : Thread), Admits s (.barinit f) f ig act →
    let x := s.about (.barinit f) f ig act
    let u := s.acting x
    act.getLast? = some last → (∀ th ∈ act, th.tid.block = k ∧ u.localAddr th f.opa = a ∧ Rule.barPlace u th a ∧
      1 ≤ (u.src32 th f.opb).toNat ∧ (u.src32 th f.opb).toNat ≤ 1024) → u.ownBusy x (act.map fun th => (th, a)) 16 = false →
    (∀ b, u.block? k = some b → (∀ i, b.barIndex a = some i → (u.bar ig.core a).arrived = 0) ∧ (b.barIndex a = none → b.barriers.length < 16)) →
    exec (.barinit f) s = .next ((u.initBar k a (u.src32 last f.opb).toNat).closed x (.barinit f) .atIssue false)) ∧
  (∀ (f : Insn) (s : State) (ig : IssueGroup) (act : List Thread) (k : BlockKey) (b : Block) (a i : Nat), Admits s (.bararr f) f ig act →
    let x := s.about (.bararr f) f ig act
    let u := s.acting x
    let owed : Thread → Nat := fun th => if f.mod.getLsbD 0 then (u.src32 th f.opb).toNat else 0
    let bar := u.bar ig.core a
    let sum := (act.map owed).sum
    u.block? k = some b → b.barIndex a = some i → u.barStrayed ig.core a = false → (∀ th ∈ act, th.tid.block = k ∧ u.localAddr th f.opa = a ∧ Rule.barPlace u th a ∧ owed th < 2 ^ 31) →
    u.releaseWait ig.core (act.map (·.tid)) false = false → bar.arrived + act.length ≤ bar.expected → bar.pending + sum < 2 ^ 31 →
    exec (.bararr f) s = .next ((((u.modThreads (act.map (·.tid)) fun th =>
        { th with arrivals := (i, BitVec.ofNat 32 bar.phase) :: th.arrivals.filter fun y => y.1 != i }).putBar ig.core a
        { bar with arrived := bar.arrived + act.length, pending := bar.pending + sum }.settle).putAll x 1 8
        (act.map fun th => (th, bar.phase))).closed x (.bararr f) (.at_ (x.due 8)) false)) ∧
  (∀ (f : Insn) (s : State) (ig : IssueGroup) (act : List Thread), Admits s (.barwait f) f ig act →
    let x := s.about (.barwait f) f ig act
    let u := s.acting x
    (∀ th ∈ act, Rule.barPlace u th (u.localAddr th f.opa) ∧ u.barOf (th, u.localAddr th f.opa) ≠ none ∧ u.barStrayed ig.core (u.localAddr th f.opa) = false) →
    u.ownBusy x (act.map fun th => (th, u.localAddr th f.opa)) 16 = false →
    (∀ th ∈ act, BitVec.ofNat 32 (u.bar ig.core (u.localAddr th f.opa)).phase ≠ u.src32 th f.opb) →
    exec (.barwait f) s = .next ((u.unblock (act.map (·.tid))).closed x (.barwait f) .atIssue false)) ∧
  ∀ (f : Insn) (s : State) (ig : IssueGroup) (act : List Thread), Admits s (.bartest f) f ig act →
    let x := s.about (.bartest f) f ig act
    let u := s.acting x
    (∀ th ∈ act, Rule.barPlace u th (u.localAddr th f.opa) ∧ u.barOf (th, u.localAddr th f.opa) ≠ none ∧ u.barStrayed ig.core (u.localAddr th f.opa) = false) →
    u.ownBusy x (act.map fun th => (th, u.localAddr th f.opa)) 16 = false →
    exec (.bartest f) s = .next ((u.putAll x 1 8 (act.map fun th =>
      (th, if BitVec.ofNat 32 (u.bar ig.core (u.localAddr th f.opa)).phase = u.src32 th f.opb then 0 else 1))).closed x (.bartest f) (.at_ (x.due 8)) false)

/-- GSYNC: each active lane arrives and blocks, its PC unchanged, the other members going on (R165); QUOTA records the transfer in both groups, from 1 to 32
granules that the giver has and the receiver has room for, or traps QUOTA and records nothing (R166). -/
def Obligations.GroupSynchronisation : Prop :=
  (∀ (f : Insn) (s : State) (ig : IssueGroup) (act : List Thread), Admits s (.gsync f) f ig act →
    let x := s.about (.gsync f) f ig act
    (s.acting x).releaseWait ig.core (act.map (·.tid)) false = false → (∀ th ∈ act, th.handler = false) →
    ∃ t, exec (.gsync f) s = .next t ∧ Rule.sameRegisters s t ∧ Rule.sameMemory s t ∧
      ∀ (tid : Tid) (a : Thread), s.thread? tid = some a → ∃ b, t.thread? tid = some b ∧
        ((∃ th ∈ act, th.tid = tid) → b.blocked = some (.gsync f.yld) ∧ b.pc = a.pc) ∧
        (tid ∈ ig.members → (∀ th ∈ act, th.tid ≠ tid) → b.pc = ig.pc + 12)) ∧
  ∀ (f : Insn) (s : State) (ig : IssueGroup) (th : Thread) (rest : List Thread) (g h : Group), Admits s (.quota f) f ig (th :: rest) →
    let x := s.about (.quota f) f ig (th :: rest)
    let u := s.acting x
    let n := (u.src32 th f.opb).toNat
    u.group? th.tid.block th.tid.group = some g → u.group? th.tid.block (u.src32 th f.opa).toNat = some h →
    let fits := 1 ≤ n ∧ n ≤ 32 ∧ (u.src32 th f.opa).toNat ≠ th.tid.group ∧ g.quotaPending = 0 ∧ h.quotaPending = 0 ∧ 8 * n ≤ g.alloc ∧ h.alloc + 8 * n ≤ 256
    (fits → exec (.quota f) s = .next (((u.modGroup th.tid.block th.tid.group fun g =>
        { g with quotaPending := -(n : Int), quotaPartner := (u.src32 th f.opa).toNat }).modGroup th.tid.block (u.src32 th f.opa).toNat fun h =>
          { h with quotaPending := n, quotaPartner := th.tid.group }).closed x (.quota f) .atIssue false)) ∧
    (¬fits → ∃ tr : Trap, tr.cause = Cause.quota ∧ exec (.quota f) s = .next (s.taken.takeTrap ig tr))

/-- The mailbox an instruction names passes its checks: a multiple of 32 in the local memory its scope allows, and sound by R295. -/
def Rule.boxPlace (u : State) (f : Insn) (core : Nat) (th : Thread) (a : Nat) : Prop :=
  a % 32 = 0 ∧ u.mbxOk core a = true ∧
  ∃ b, u.block? th.tid.block = some b ∧ (if f.mod.getLsbD 1 then u.gangLocal b a 32 else b.ownsLocal a 32) = true

/-- MBXPUT and MBXGET at one mailbox: with a vector OPD, the k slots at the cursor, free to reserve or filled to take, are marked and their indices written
in lane order once no earlier instruction waits there; .pub marks a reserved slot filled and .rel a taken one free (R167, R296). The model's own choices in this: log 50, 54, 90. -/
def Obligations.Mailboxes : Prop :=
  (∀ (take : Bool) (i : Instr) (f : Insn) (s : State) (ig : IssueGroup) (act : List Thread) (a : Nat),
    (take = false ∧ i = .mbxputRsv f) ∨ (take = true ∧ i = .mbxgetTake f) → (∃ r e m, f.opd = .vec r e m) → Admits s i f ig act →
    let x := s.about i f ig act
    let u := s.acting x
    let m := u.mbx ig.core a
    (∀ th ∈ act, u.localAddr th f.opa = a ∧ Rule.boxPlace u f ig.core th a) → u.ownBusy x (act.map fun th => (th, a)) 32 = false →
    (act.map (·.tid.lane)).Pairwise (· < ·) →
    act.length ≤ m.slots → m.ready take act.length = true → u.mbxEarlier ig.core a take (mbxTicket x) (act.map (·.tid)) = false →
    ∃ t : State, exec i s = .next ((t.putAll x 1 8 (act.zip ((List.range act.length).map fun j =>
        ((if take then m.take else m.rsv) + j) % m.slots))).closed x i (.at_ (x.due 8)) false) ∧
      t.locals = ((u.unblock (act.map (·.tid))).putMbx ig.core a (m.grant take act.length)).locals ∧ t.vregs = u.vregs ∧ t.vault = u.vault ∧ t.pool = u.pool) ∧
  (∀ (rel : Bool) (i : Instr) (f : Insn) (s : State) (ig : IssueGroup) (th : Thread), (rel = false ∧ i = .mbxputPub f) ∨ (rel = true ∧ i = .mbxgetRel f) →
    Admits s i f ig [th] →
    let x := s.about i f ig [th]
    let u := s.acting x
    let a := u.localAddr th f.opa
    let m := u.mbx ig.core a
    let n := (u.src32 th f.opb).toNat
    Rule.boxPlace u f ig.core th a → u.ownBusy x [(th, a)] 32 = false →
    (n < m.slots → m.slot n = (if rel then 3 else 1) → u.releaseWait ig.core [th.tid] (f.mod.getLsbD 1) = false →
      exec i s = .next ((u.putMbx ig.core a (m.finish rel n)).closed x i .atIssue false)) ∧
    (m.slots ≤ n ∨ m.slot n ≠ (if rel then 3 else 1) → ∃ tr : Trap, tr.cause = Cause.mbxerr ∧ exec i s = .next (s.taken.takeTrap ig tr))) ∧
  ∀ (m : Mbx) (take : Bool) (k i : Nat), m.slots ≤ 64 → k ≤ m.slots → i < m.slots →
    (m.grant take k).slot i = (if ∃ j < k, i = ((if take then m.take else m.rsv) + j) % m.slots then (if take then 3 else 1) else m.slot i) ∧
    (m.finish take i).slot i = (if take then 0 else 2) ∧ ∀ j < m.slots, j ≠ i → (m.finish take i).slot j = m.slot j

/-- What an operand named as a destination changes, and that it changes nothing else. The model's own choices in this: log 13, 14. -/
def Obligations.Destinations : Prop := Rule.VectorDestinations ∧ Rule.OtherDestinations

/-- A trap enters the handler, or, where none takes it, faults the context or cancels. The model's own choices in this: log 40. -/
def Obligations.TrapTaking : Prop := Rule.HandlerEntry ∧ Rule.TrapsWithoutHandler

/-- The arithmetic of a barrier's phases, and the four barrier instructions. The model's own choices in this: log 50, 54. -/
def Obligations.BarrierMeaning : Prop := Rule.BarrierPhases ∧ Rule.BarrierInstructions

/-! ### Memory instructions (R176 to R206) -/

/-- R177: the checks of an access through a pointer, in their order; it passes where all hold, at the pointer's offset plus the displacement.
A pointer holds its view index, generation and offset in bits [63:44], [43:40] and [39:0] (R313). -/
def Obligations.PointerChecks : Prop :=
  (∀ (v : CachedView) (p : BitVec 64) (d : Int) (n al : Nat) (need : BitVec 4), 0 < al →
    let o : Int := (p.toNat % 2 ^ 40 : Nat) + d
    let live := p.toNat / 2 ^ 44 ≠ 0 ∧ v.live = true ∧ v.gen = p.toNat / 2 ^ 40 % 16
    let aligned := (al : Int) ∣ o
    let within := (v.low : Int) ≤ o ∧ o + n ≤ v.high
    let allowed := ∀ b < 4, need.getLsbD b = true → v.rights.getLsbD b = true
    (live → aligned → within → allowed → checkView v p d n al need = .ok o.toNat) ∧
    (¬live → checkView v p d n al need = .error Cause.staleview) ∧
    (live → ¬aligned → checkView v p d n al need = .error Cause.align) ∧
    (live → aligned → ¬within → checkView v p d n al need = .error Cause.viewbound) ∧
    (live → aligned → within → ¬allowed → checkView v p d n al need = .error Cause.rights)) ∧
  ∀ i g o : Nat, i < 2 ^ 20 → g < 16 → o < 2 ^ 40 → ptrIndex (mkPtr i g o) = i ∧ ptrGen (mkPtr i g o) = g ∧ ptrOffset (mkPtr i g o) = o

/-- A pointer access of a lane passes: the core holds its view's entry, and the check of R177 gives the object, offset and handle of `g`. -/
def Rule.passes (u : State) (x : Exec) (p : BitVec 64) (d : Int) (n al : Nat) (need : BitVec 4) (th : Thread) (g : Got) : Prop :=
  ∃ v, u.cachedView x.ig.core (u.ctxOfExec x) (ptrIndex p) = some v ∧ checkView v p d n al need = .ok g.off ∧ g.obj = v.obj ∧ g.th = th ∧
    g.handle = ptrIndex p

/-- The access instructions through pointers: fields, opcode, bytes, destination registers, rights, whether there is a displacement (R182, R184, R191, R193). -/
def Rule.pointerOp : Instr → Option (Insn × BitVec 8 × Nat × Nat × BitVec 4 × Bool)
  | .ld f => some (f, 0xA0, sizeBytes (Forms.low3 f.mod), sizeRegs f, rightR, true)
  | .st f => some (f, 0xA1, sizeBytes (Forms.low3 f.mod), 0, rightW, true)
  | .atom f => some (f, 0xA5, 4 * atomRegs f, atomRegs f, rightA, false)
  | .red f => some (f, 0xA7, 4 * atomRegs f, 0, rightA, false)
  | _ => none

/-- Those of cluster space (R185, R192). -/
def Rule.localOp : Instr → Option (Insn × BitVec 8 × Nat × Nat)
  | .ldl f => some (f, 0xA2, sizeBytes (Forms.low3 f.mod), sizeRegs f)
  | .stl f => some (f, 0xA3, sizeBytes (Forms.low3 f.mod), 0)
  | .atoml f => some (f, 0xA6, 4 * atomRegs f, atomRegs f)
  | _ => none

/-- No load or atomic of the lane to the bytes is outstanding (R181); asked of stores alone. -/
def Rule.noLoadAhead (u : State) (core : Nat) (t : Tid) (inLocal : Bool) (obj off n : Nat) : Prop :=
  ∀ b ∈ (u.core core).outstanding, b.tid = t → b.reads = true → ∀ q ∈ b.spans, ¬(q.1 = inLocal ∧ q.2.1 = obj ∧ q.2.2.1 < off + n ∧ off < q.2.2.1 + q.2.2.2)

/-- Operand b of an atomic operation, by its type (R88, R190): a short immediate is extended by its sign, or is the FP32 number it stands for. -/
def Rule.atomB (u : State) (th : Thread) (f : Insn) : Nat :=
  match f.opb with
  | .imm v => if Forms.qualOf f.opa = 3 then fp32.imm v else if Forms.qualOf f.opa = 2 then (v.signExtend 64).toNat else (v.signExtend 32).toNat
  | o => u.src th o (atomRegs f)

/-- The data that an access carries for its lane: of a store the low bytes of OPD, one or two registers or a run of four (R184, R185); of an atomic operation
operand b, and for CAS, operation 7, the compare value in OPD (R190 to R193). -/
def Rule.carries (u : State) (f : Insn) (opc : BitVec 8) (n : Nat) (th : Thread) (a : Access) : Prop :=
  (opc = 0xA1 ∨ opc = 0xA3 →
    (sizeRegs f ≠ 4 → a.data = BitVec.ofNat 128 (u.src th f.opd (sizeRegs f) % 2 ^ (8 * n))) ∧
    ∀ r e m, sizeRegs f = 4 → f.opd = .vec r e m → ∀ j < 4, a.data.extractLsb' (32 * j) 32 = u.vreg th (r.toNat + j)) ∧
  (opc = 0xA5 ∨ opc = 0xA6 ∨ opc = 0xA7 → a.data = BitVec.ofNat 128 (Rule.atomB u th f) ∧ a.qual = BitVec.ofNat 2 (Forms.qualOf f.opa) ∧
    (opc ≠ 0xA7 → Forms.low3 f.mod = 7 → a.cmp = BitVec.ofNat 64 (u.src th f.opd (atomRegs f))))

/-- What issuing an access instruction does: every active lane has one access on its core, with its bytes, operation, data and destination register; the
destination registers are empty in the active lanes and keep their contents; the memory is as it was. -/
def Rule.issued (s t : State) (i : Instr) (f : Insn) (ig : IssueGroup) (act : List Thread) (opc : BitVec 8) (inLocal : Bool) (n regs : Nat)
    (obj off : Thread → Nat) : Prop :=
  Rule.sameMemory s t ∧ t.vregs = s.vregs ∧ t.uregs = s.uregs ∧ t.tiles = s.tiles ∧ t.regions = s.regions ∧
  (∃ new : List Access, (t.core ig.core).accs = (s.core ig.core).accs ++ new ∧
    new.map (fun a => (a.tid, a.opc, a.mod, a.inLocal, a.obj, a.off, a.bytes)) = act.map (fun th => (th.tid, opc, f.mod, inLocal, obj th, off th, n)) ∧
    (∀ p ∈ act.zip new, Rule.carries (s.acting (s.about i f ig act)) f opc n p.1 p.2) ∧
    (regs ≠ 0 → new.map (·.reg) = act.map fun th => (s.acting (s.about i f ig act)).regNo th f.opd)) ∧
  ∀ th ∈ act, ∀ j < regs, t.emptyReg th.home ((s.acting (s.about i f ig act)).regNo th f.opd + j) th.tid.lane = true

/-- LD, ST, ATOM and RED with a pointer, LDL, STL and ATOML with an address of cluster space: where every lane's access passes its checks, no
operation is filling the local bytes, and no load of the lane to a store's bytes is outstanding, the accesses are issued, a store's with its operand's value. -/
def Rule.AccessesIssue : Prop :=
  (∀ (i : Instr) (f : Insn) (opc : BitVec 8) (n regs : Nat) (need : BitVec 4) (disp : Bool) (s : State) (ig : IssueGroup) (act : List Thread) (g : Thread → Got),
    Rule.pointerOp i = some (f, opc, n, regs, need, disp) → Admits s i f ig act → ig.core < s.cores.length → s.nextId + act.length + 1 < 2 ^ 64 →
    let x := s.about i f ig act
    let u := s.acting x
    (∀ th ∈ act, Rule.passes u x (u.ptr th f.opa) (if disp then u.disp th f.opb else 0) n n need th (g th)) →
    (regs = 0 → ∀ th ∈ act, Rule.noLoadAhead u ig.core th.tid false (g th).obj (g th).off n) →
    ∃ t, exec i s = .next t ∧ Rule.issued s t i f ig act opc false n regs (fun th => (g th).obj) (fun th => (g th).off)) ∧
  ∀ (i : Instr) (f : Insn) (opc : BitVec 8) (n regs : Nat) (s : State) (ig : IssueGroup) (act : List Thread) (off : Thread → Nat),
    Rule.localOp i = some (f, opc, n, regs) → Admits s i f ig act → ig.core < s.cores.length → s.nextId + act.length + 1 < 2 ^ 64 →
    let x := s.about i f ig act
    let u := s.acting x
    (∀ th ∈ act, (off th : Int) = u.localAddr th f.opa + (if opc = 0xA6 ∨ f.opb = .none then 0 else u.disp th f.opb) ∧ off th % n = 0 ∧ off th + n ≤ clusterBytes ∧
      (∃ b, u.block? th.tid.block = some b ∧ u.gangLocal b (off th) n = true) ∧ ∀ r ∈ (u.core ig.core).ranges, r.hi ≤ off th ∨ off th + n ≤ r.lo) →
    (regs = 0 → ∀ th ∈ act, Rule.noLoadAhead u ig.core th.tid true 0 (off th) n) →
    ∃ t, exec i s = .next t ∧ Rule.issued s t i f ig act opc true n regs (fun _ => 0) off

/-- FENCE, FENCEX and OPRDY (R198 to R201): FENCE of .thr completes at issue; a wider one, and FENCEX, put one fence of each active lane on the core, and change
no register and no byte; OPRDY completes at issue, takes in the writes of the home group's operands that its scope reaches, and at .cls or wider leaves every line
of the core stale. FENCEX at .dom or wider needs FABRIC in the header. -/
def Rule.FencesIssue : Prop :=
  (∀ (i : Instr) (f : Insn) (s : State) (ig : IssueGroup) (act : List Thread), Admits s i f ig act → ig.core < s.cores.length →
    (i = .fence f ∧ 1 ≤ Forms.scope f.mod) ∨ (i = .fencex f ∧ (Forms.scope f.mod < 5 ∨ (s.acting (s.about i f ig act)).headerFlag (s.about i f ig act) 3 = true)) →
    ∃ t, exec i s = .next t ∧ Rule.sameMemory s t ∧ Rule.sameRegisters s t ∧
      ∃ new : List Access, (t.core ig.core).accs = (s.core ig.core).accs ++ new ∧ (∀ a ∈ new, a.isFence = true ∧ a.mod = f.mod ∧ a.flag = setfOf f) ∧
        new.map (·.tid) = act.map (·.tid) ∧ (f.mod.getLsbD 0 = false → i = .fence f → ∀ a ∈ new, a.opc = 0xAB)) ∧
  (∀ f : Insn, Forms.scope f.mod = 0 → Effects (.fence f) f (fun _ => .atIssue) false fun u _ => u) ∧
  (∀ (f : Insn) (s : State) (ig : IssueGroup) (act : List Thread), Admits s (.fencex f) f ig act → 5 ≤ Forms.scope f.mod →
    (s.acting (s.about (.fencex f) f ig act)).headerFlag (s.about (.fencex f) f ig act) 3 = false →
    ∃ tr : Trap, tr.cause = Cause.illop ∧ exec (.fencex f) s = .next (s.taken.takeTrap ig tr)) ∧
  ∀ f : Insn, Effects (.oprdy f) f (fun _ => .atIssue) false fun u x =>
    let t := if 3 ≤ Forms.scope f.mod then u.staleLines x.ig.core else u
    { t with groups := t.groups.map fun g : Group =>
        if ∃ th, x.act.head? = some th ∧ g.block = th.tid.block ∧ g.index = th.tid.group then
          { g with unready := g.unready.filter (fun r => decide (Forms.scope f.mod < r.2.2)), unreadyRegs := [] }
        else g }

/-- LDGL: where the source, the destination and the registered barrier of every active lane pass their checks, the core has room for a range and nothing that happens
before is still to be performed, each lane has one copy on its core, with its bytes, destination and barrier, under one range (R189, R292). MCST and REDST: where the header
sets FABRIC, every lane names one group's multicast object and the status record is the block's own, one multicast store of that group is on the core
(R194). PREF: where the core holds the views, it fills lines or asks for pages, and writes no register (R197). The model's own choices in this: log 31, 94. -/
def Obligations.AsynchronousIssue : Prop :=
  (∀ (f : Insn) (s : State) (ig : IssueGroup) (act : List Thread) (g : Thread → Got), Admits s (.ldgl f) f ig act → ig.core < s.cores.length →
    let x := s.about (.ldgl f) f ig act
    let u := s.acting x
    let n := sizeBytes (Forms.low3 f.mod)
    (∀ th ∈ act, Rule.passes u x (u.ptr th f.opa) 0 n n rightR th (g th) ∧ u.localAddr th f.opd % n = 0 ∧
      ∃ b, u.block? th.tid.block = some b ∧ b.ownsLocal (u.localAddr th f.opd) n = true ∧ u.localAddr th f.opd + n ≤ clusterBytes ∧
        u.localAddr th f.opb % 16 = 0 ∧ b.ownsLocal (u.localAddr th f.opb) 16 = true ∧ b.barIndex (u.localAddr th f.opb) ≠ none) →
    (u.core ig.core).ranges.length < 32 → u.engineWait ig.core (act.map (·.tid)) = false →
    ∃ t, exec (.ldgl f) s = .next t ∧ Rule.sameMemory s t ∧ Rule.sameRegisters s t ∧ (t.core ig.core).ranges.length = (s.core ig.core).ranges.length + 1 ∧
      ∃ new : List LdglCopy, (t.core ig.core).ldgl = (s.core ig.core).ldgl ++ new ∧
        new.map (fun c => (c.tid, c.obj, c.off, c.dst, c.bytes, c.barrier)) =
          act.map fun th => (th.tid, (g th).obj, (g th).off, u.localAddr th f.opd, n, u.localAddr th f.opb)) ∧
  (∀ (red : Bool) (i : Instr) (f : Insn) (s : State) (ig : IssueGroup) (act : List Thread) (g : Thread → Got) (c : Ctx) (group : Nat),
    (red = false ∧ i = .mcst f) ∨ (red = true ∧ i = .redst f) → Admits s i f ig act → ig.core < s.cores.length →
    let x := s.about i f ig act
    let u := s.acting x
    let n := if red then 4 * atomRegs f else sizeBytes (Forms.low3 f.mod)
    u.headerFlag x 3 = true → u.ctx? (u.ctxOfExec x) = some c →
    (∀ th ∈ act, Rule.passes u x (u.ptr th f.opa) 0 n n (if red then rightA else rightW) th (g th) ∧ u.localAddr th f.opb % 16 = 0 ∧ u.localAddr th f.opb + 16 ≤ clusterBytes ∧
      (∃ b, u.block? th.tid.block = some b ∧ b.ownsLocal (u.localAddr th f.opb) 16 = true) ∧
      ∃ o, u.object? c (g th).obj = some o ∧ o.mcast = true ∧ o.group = group) →
    ∃ t, exec i s = .next t ∧ Rule.sameMemory s t ∧ Rule.sameRegisters s t ∧ ∃ m : Multi, (t.core ig.core).multis = (s.core ig.core).multis ++ [m] ∧
      m.group = group ∧ m.tids = act.map (·.tid) ∧ m.flag = setfOf f ∧ ∀ p ∈ m.lines, p.kind = 5 ∧ p.off % 256 = 0) ∧
  ∀ (f : Insn) (s : State) (ig : IssueGroup) (act : List Thread) (c : Ctx), Admits s (.pref f) f ig act →
    let x := s.about (.pref f) f ig act
    let u := s.acting x
    u.ctx? (u.ctxOfExec x) = some c → (∀ th ∈ act, u.cachedView ig.core c.num (ptrIndex (u.ptr th f.opa)) ≠ none) →
    (act.foldl (fun t th => t.prefetchLane x c th) u).broken = none →
    exec (.pref f) s = .next ((act.foldl (fun t th => t.prefetchLane x c th) u).closed x (.pref f) .atIssue false)

/-- A lane names a view that its core holds, live, of the pointer's generation, with the rights needed (R202). -/
def Rule.namesView (u : State) (core ctx : Nat) (p : BitVec 64) (need : BitVec 4) (v : CachedView) : Prop :=
  u.cachedView core ctx (ptrIndex p) = some v ∧ ptrIndex p ≠ 0 ∧ v.live = true ∧ v.gen = ptrGen p ∧ v.rights &&& need = need

/-- VDUP takes one handle for each lane, in their order, or the null pointer where none is left, and writes the new pointers at latency 24: the handle with the
generation of its entry and the source's offset, and the entry LIVE with the source's object and bounds and the rights of the source and the mask
(R202), within those that the source's entry has by then (R322); VNARROW puts an operation at the Teller and
narrows the core's own copy at once, or traps WIDEN where a bound would widen; VDROP ends the core's copy at once (R202, R203, R205). VQRY writes the low bound, the
high bound or the rights word at latency 20; a stale handle gives 0, or in the rights word the generation that its entry holds (R206). The model's own choices in this: log 48, 83, 94. -/
def Obligations.ViewInstructions : Prop :=
  (∀ (f : Insn) (s : State) (ig : IssueGroup) (act : List Thread) (c : Ctx) (v : Thread → CachedView), Admits s (.vdup f) f ig act →
    let x := s.about (.vdup f) f ig act
    let u := s.acting x
    let ths := if ∃ n m, f.opd = .uni n m then act.take 1 else act
    u.ctx? (u.ctxOfExec x) = some c → (∀ th ∈ ths, Rule.namesView u ig.core c.num (u.ptr th f.opa) rightD (v th)) →
    (ths.length ≤ ((u.core ig.core).handlesOf c.num).length ∨ u.anyFree c = none) →
    let r := u.dupLanes c ig.core f (ths.map fun th => (th, v th))
    r.2.broken = none → exec (.vdup f) s = .next ((r.2.putAll x 2 24 r.1).closed x (.vdup f) (.at_ (x.due 24)) false)) ∧
  (∀ (u : State) (c : Ctx) (core : Nat) (f : Insn) (th : Thread) (v : CachedView) (rest : List (Thread × CachedView)),
    ((u.core core).handlesOf c.num = [] → (u.dupLanes c core f ((th, v) :: rest)).1 = (th, 0) :: (u.dupLanes c core f rest).1) ∧
    ∀ (h : Nat) (more : List Nat), (u.core core).handlesOf c.num = h :: more → h < 2 ^ 20 →
      let mask := BitVec.ofNat 4 (u.src th f.opb 1)
      let t := u.dupView c core h v mask
      let old := u.viewEntry c v.index
      let entry := t.viewEntry c h
      (∃ p : BitVec 64, (u.dupLanes c core f ((th, v) :: rest)).1 = (th, p.toNat) :: (t.dupLanes c core f rest).1 ∧ ptrIndex p = h ∧
        ptrGen p = (u.viewEntry c h).gen ∧ ptrOffset p = ptrOffset (u.ptr th f.opa)) ∧
      (old.state = 2 → old.gen = v.gen → v.obj < 2 ^ 24 → v.low < 2 ^ 41 → (c.viewAddr h).exists_ 32 = true →
        entry.state = 2 ∧ entry.obj = v.obj ∧ entry.rights = v.rights &&& mask &&& old.rights ∧ entry.low = max v.low old.low ∧
        entry.high = max entry.low (min v.high old.high))) ∧
  (∀ (f : Insn) (s : State) (ig : IssueGroup) (th : Thread) (v : CachedView), Admits s (.vnarrow f) f ig [th] →
    let x := s.about (.vnarrow f) f ig [th]
    let u := s.acting x
    let lo := (u.ptr th f.opa).toNat % 2 ^ 40
    let w := u.src th f.opb 2
    Rule.namesView u ig.core (u.ctxOfExec x) (u.ptr th f.opa) 0 v → w < 2 ^ 44 →
    (v.low ≤ lo ∧ lo ≤ w % 2 ^ 40 ∧ w % 2 ^ 40 ≤ v.high →
      exec (.vnarrow f) s = .next (((u.viewOp x th lo v false lo (w % 2 ^ 40) (BitVec.ofNat 4 (w / 2 ^ 40))).setCached ig.core
        { v with low := lo, high := w % 2 ^ 40, rights := v.rights &&& BitVec.ofNat 4 (w / 2 ^ 40) }).closed x (.vnarrow f) .later false)) ∧
    (¬(v.low ≤ lo ∧ lo ≤ w % 2 ^ 40 ∧ w % 2 ^ 40 ≤ v.high) → ∃ tr : Trap, tr.cause = Cause.widen ∧ exec (.vnarrow f) s = .next (s.taken.takeTrap ig tr))) ∧
  (∀ (f : Insn) (s : State) (ig : IssueGroup) (th : Thread) (v : CachedView), Admits s (.vdrop f) f ig [th] →
    let x := s.about (.vdrop f) f ig [th]
    let u := s.acting x
    Rule.namesView u ig.core (u.ctxOfExec x) (u.ptr th f.opa) 0 v →
    exec (.vdrop f) s = .next (((u.viewOp x th ((u.ptr th f.opa).toNat % 2 ^ 40) v true 0 0 0).setCached ig.core { v with live := false }).closed x (.vdrop f) .later false)) ∧
  ∀ (f : Insn) (s : State) (ig : IssueGroup) (act : List Thread) (c : Ctx) (v : Thread → CachedView), Admits s (.vqry f) f ig act →
    let x := s.about (.vqry f) f ig act
    let u := s.acting x
    u.ctx? (u.ctxOfExec x) = some c →
    (∀ th ∈ act, u.cachedView ig.core (u.ctxOfExec x) (ptrIndex (u.ptr th f.opa)) = some (v th)) →
    exec (.vqry f) s = .next ((u.putAll x (if f.mod = 2 then 1 else 2) 20 (act.map fun th => (th,
      let i := ptrIndex (u.ptr th f.opa)
      let ok := (v th).live && (v th).gen == ptrGen (u.ptr th f.opa)
      if f.mod = 2 then (if ok then 2 ^ 31 + (v th).gen * 256 + (if (v th).held then 16 else 0) + (v th).rights.toNat
        else if i = 0 ∨ c.viewEntries ≤ i then 0 else (u.viewEntry c i).gen * 256)
      else if ok then (if f.mod = 0 then (v th).low else (v th).high) % 2 ^ 40 else 0))).closed x (.vqry f) (.at_ (x.due 20)) false)

/-! ### System instructions (R156, R169 to R174) -/

/-- RDSYS (R169) by selector. -/
def Rule.selector (u : State) (x : Exec) (th : Thread) (f : Insn) : Option Nat :=
  match f.mod.toNat with
  | 0 => some th.tid.lane
  | 1 => some th.tid.group
  | 2 => some th.tid.block.index
  | 3 => some th.tid.block.launch
  | 4 => some x.ig.core
  | 5 => some u.device
  | 6 => some (u.quarterClocks.getD (x.ig.core / 48) 0 % 2 ^ 32)
  | 7 => some th.clkHi.toNat
  | 8 => some (u.readCell x.ig.core (.fpflags th.tid) th.tid.lane).toNat
  | 9 => some th.trapCause.toNat
  | 10 => some th.trapPc.toNat
  | 11 => some th.trapInfo.toNat
  | 12 => (u.block? th.tid.block).map (·.threads)
  | 0x40 => some (u.ctxOf th.tid.block)
  | 0x41 => some (u.core x.ig.core).waits.length
  | 0x42 => some (u.core x.ig.core).side.length
  | _ => none

/-- RDSYS writes the selected value at latency 4, in every active lane, and nothing else but the latched high half of the die clock (R169); WRSYS replaces FPFLAGS by bits
[4:0] of OPA; CLOCK writes the core's cycle; WAITF goes on in lanes whose flags are clear and writes 1, and in lanes whose limit has passed since they first stood at
it, flags still pending, and writes 0, which it also writes where the limit has ended the wait before (R170, R171). ISSUEMASK gives 32 lanes of the
home group: in a handler, those recorded when the thread entered it, and else those of the issue group. The model's own choices in this: log 90. -/
def Obligations.SystemRegisters : Prop :=
  (∀ f : Insn, ∃ val : State → Exec → Thread → Nat,
    (Effects (.rdsys f) f (fun x => .at_ (x.due 4)) false fun u x =>
      (if f.mod = 6 then u.modThreads (x.act.map (·.tid)) fun t =>
        { t with clkHi := BitVec.ofNat 32 (u.quarterClocks.getD (x.ig.core / 48) 0 / 2 ^ 32) } else u).putAll x 1 4 (x.act.map fun th => (th, val u x th))) ∧
    (∀ u x th v, x.f = f → Rule.selector u x th f = some v → val u x th = v) ∧
    ∀ u x th, x.f = f → f.mod = 13 → val u x th < 2 ^ 32 ∧ ∀ j < 32,
      let lane := 32 * (u.src th f.opb 1 % 4) + j
      (val u x th).testBit j = if th.handler then th.trapMask.getLsbD lane
        else decide ({ th.tid with lane := lane } ∈ x.ig.members)) ∧
  (∀ f : Insn, Effects (.wrsys f) f (fun x => .at_ (x.due 2)) false fun u x => x.act.foldl (fun t th =>
    t.writeFixed x.ig.core th.tid (.fpflags th.tid) (BitVec.ofNat 32 (u.src th f.opa 1 % 32)) (x.due 2)) u) ∧
  (∀ f : Insn, Results (.clock f) f 2 4 fun u x _ => (u.core x.ig.core).clock % 2 ^ 64) ∧
  ∀ (f : Insn) (s : State) (ig : IssueGroup) (act : List Thread), Admits s (.waitf f) f ig act →
    let x := s.about (.waitf f) f ig act
    let u := s.acting x
    let clear : Thread → Bool := fun th => (List.range 12).all fun i => !((u.src th f.opa 1).testBit i && th.flag i)
    let limit : Thread → Nat := fun th => (u.src th f.opb 1) % 2 ^ 32
    let since : Thread → Nat := fun th => th.waitSince.getD (u.core ig.core).clock
    (∀ th ∈ act, clear th = true ∨ th.waitOver = true ∨ (limit th ≠ 0 ∧ since th + limit th ≤ (u.core ig.core).clock)) →
    exec (.waitf f) s = .next (((u.putAll x 1 2 (act.map fun th => (th, if clear th && !th.waitOver then 1 else 0))).unblock (act.map (·.tid))).closed x (.waitf f) (.at_ (x.due 2)) false)

/-- SPAWN sends one record of each active lane to the distributor, where the header allows it, the entry exists and there is room, and else traps ILLOP or SPAWNFULL (R156);
CANCEL cancels the scope each lane's pointer names (R172); ENQ appends each lane's record, in lane order (R173); REPLAY, in a privileged context, lets what stands under the page or
token go on (R174). The model's own choices in this: log 50, 51, 52, 85. -/
def Obligations.DistributorInstructions : Prop :=
  (∀ (f : Insn) (s : State) (ig : IssueGroup) (act : List Thread) (l : Launch), Admits s (.spawn f) f ig act → ig.core < s.cores.length →
    let x := s.about (.spawn f) f ig act
    let u := s.acting x
    u.launch? ig.launch = some l →
    let offs := l.header.entries
    (l.header.flags.getLsbD 2 = true → (∀ th ∈ act, u.src th f.opb 1 < offs.length) → u.heldRecords l + act.length ≤ 65536 →
      (u.launches.map u.heldRecords).sum + act.length ≤ 2 ^ 20 →
      ∃ t, exec (.spawn f) s = .next t ∧ Rule.sameMemory s t ∧ Rule.sameRegisters s t ∧ ∃ new : List Access, (t.core ig.core).accs = (s.core ig.core).accs ++ new ∧
        new.map (fun a => (a.tid, a.opc, a.args)) = act.map fun th => (th.tid, 0x86#8, u.src th f.opb 1 :: th.tid.block.index ::
          (List.range 14).map fun i => (u.vreg th (u.regNo th f.opa + i)).toNat)) ∧
    (l.header.flags.getLsbD 2 = false ∨ (∃ th ∈ act, offs.length ≤ u.src th f.opb 1) →
      ∃ tr : Trap, tr.cause = Cause.illop ∧ exec (.spawn f) s = .next (s.taken.takeTrap ig tr)) ∧
    (l.header.flags.getLsbD 2 = true → (∀ th ∈ act, u.src th f.opb 1 < offs.length) → 65536 < u.heldRecords l + act.length →
      ∃ tr : Trap, tr.cause = Cause.spawnfull ∧ exec (.spawn f) s = .next (s.taken.takeTrap ig tr))) ∧
  (∀ (f : Insn) (s : State) (ig : IssueGroup) (act : List Thread) (g : Thread → Got), Admits s (.cancel f) f ig act →
    let x := s.about (.cancel f) f ig act
    let u := s.acting x
    (∀ th ∈ act, Rule.passes u x (u.ptr th f.opa) 0 1 1 rightW th (g th)) →
    let t := act.foldl (fun t th => t.cancelAt (u.ctxOfExec x) ((g th).obj, (g th).off)) u
    t.broken = none → t.debug = .none → exec (.cancel f) s = .next (t.closed x (.cancel f) .atIssue false)) ∧
  (∀ (f : Insn) (s : State) (ig : IssueGroup) (act : List Thread) (g : Thread → Got), Admits s (.enq f) f ig act → ig.core < s.cores.length →
    let x := s.about (.enq f) f ig act
    let u := s.acting x
    (∀ th ∈ act, Rule.passes u x (u.ptr th f.opa) 0 128 64 (rightW ||| rightA) th (g th) ∧ u.localAddr th f.opb % 16 = 0 ∧ u.localAddr th f.opb + 64 ≤ clusterBytes ∧
      ∃ b, u.block? th.tid.block = some b ∧ b.ownsLocal (u.localAddr th f.opb) 64 = true) →
    u.ownBusy x (act.map fun th => (th, u.localAddr th f.opb)) 64 = false →
    let shape : Access → Tid × BitVec 8 × Nat × Nat × List Nat := fun a => (a.tid, a.opc, a.obj, a.off, a.args)
    ∃ t, exec (.enq f) s = .next t ∧ Rule.sameMemory s t ∧ Rule.sameRegisters s t ∧
      (t.core ig.core).accs.map shape = (s.core ig.core).accs.map shape ++ act.map fun th => (th.tid, 0x96#8, (g th).obj, (g th).off,
        (u.bytes (localAt ig.core (u.localAddr th f.opb)) 64).map (·.toNat))) ∧
  ∀ (f : Insn) (s : State) (ig : IssueGroup) (th : Thread) (c : Ctx), Admits s (.replay f) f ig [th] →
    let x := s.about (.replay f) f ig [th]
    let u := s.acting x
    let v := u.src th f.opa (if f.mod.getLsbD 0 then 1 else 2)
    u.ctx? (u.src th f.opb 1) = some c → (f.mod.getLsbD 0 = true ∨ u.object? c (v / 2 ^ 40) ≠ none) →
    let r := u.replay c (replayKey v (f.mod.getLsbD 0))
    r.1.broken = none → r.1.debug = .none → r.2 = [] → exec (.replay f) s = .next (r.1.closed x (.replay f) .atIssue false)

/-- Loads, stores, atomics and reductions, and fences, at issue. The model's own choices in this: log 34, 50, 94. -/
def Obligations.AccessesAndFencesIssue : Prop := Rule.AccessesIssue ∧ Rule.FencesIssue

/-! ### The matrix engine, the copy engine, the Orrery and the training instructions (R209 to R239) -/

/-- An engine's instruction has issued: the engine of its core has one operation more, with the kind, block, home group, lanes and flag; no byte and no
vector, uniform or tile register has changed. -/
def Rule.queued (s t : State) (f : Insn) (ig : IssueGroup) (act : List Thread) (th : Thread) (kind : EngineKind) : Prop :=
  Rule.sameMemory s t ∧ t.vregs = s.vregs ∧ t.uregs = s.uregs ∧ t.tiles = s.tiles ∧
  ∃ o : EngineOp, (t.core ig.core).engine = (s.core ig.core).engine ++ [o] ∧ o.kind = kind ∧ o.block = th.tid.block ∧ o.group = th.tid.group ∧
    o.lanes = act.map (·.tid) ∧ o.flag = setfOf f ∧ o.pc = ig.pc

/-- ACCZ, ACCRD, ACCWR, ROWMAX, ROWEXP and ROWSC hand their operation to the engine: ACCZ sets the region's format at issue; ACCRD leaves its m registers empty
in the active lanes; ACCWR carries its registers' values, a phantom lane zeros; columns beyond 256 trap ILLOP, a row instruction on an INT32 region
BADFMT (R210, R211, R221, R222, R225 to R228). The regions keep their values, but for one on which an MMA is incomplete, whose values are open from then on (R213). -/
def Obligations.RegionOperations : Prop :=
  (∀ (f : Insn) (s : State) (ig : IssueGroup) (act : List Thread) (th : Thread), Admits s (.accz f) f ig act → ig.core < s.cores.length → act.head? = some th →
    ∃ t, exec (.accz f) s = .next t ∧ Rule.queued s t f ig act th (.accz (accNo f.opd)) ∧
      (∀ r ∈ t.regions, r.block = th.tid.block → r.index = accNo f.opd → r.i32 = f.mod.getLsbD 0) ∧
      ∀ b a, (b, a) ≠ (th.tid.block, accNo f.opd) → t.region? b a = s.region? b a) ∧
  (∀ (f : Insn) (s : State) (ig : IssueGroup) (act : List Thread) (th : Thread), Admits s (.accrd f) f ig act → ig.core < s.cores.length → act.head? = some th →
    0 < s.nextId → s.nextId < 2 ^ 64 →
    let u := s.acting (s.about (.accrd f) f ig act)
    let c := u.src32 th f.opb
    let v := u.regNo th f.opd
    (c.toNat + accCols f ≤ 256 → ∃ t, exec (.accrd f) s = .next t ∧ Rule.queued s t f ig act th (.accrd (accNo f.opa) v (accCols f) c.toNat) ∧
      ((s.core ig.core).mmaOn th.tid.block (accNo f.opa) = false → t.regions = s.regions) ∧
      ∀ q ∈ act, ∀ j < accCols f, t.emptyReg q.home (v + j) q.tid.lane = true) ∧
    (256 < c.toNat + accCols f → ∃ tr : Trap, tr.cause = Cause.illop ∧ exec (.accrd f) s = .next (s.taken.takeTrap ig tr))) ∧
  (∀ (f : Insn) (s : State) (ig : IssueGroup) (act : List Thread) (th : Thread), Admits s (.accwr f) f ig act → ig.core < s.cores.length → act.head? = some th →
    let u := s.acting (s.about (.accwr f) f ig act)
    let c := u.src32 th f.opb
    c.toNat + accCols f ≤ 256 → ∃ t rows, exec (.accwr f) s = .next t ∧ Rule.queued s t f ig act th (.accwr (accNo f.opd) (accCols f) c.toNat rows) ∧
      t.fills = s.fills ∧ ((s.core ig.core).mmaOn th.tid.block (accNo f.opd) = false → t.regions = s.regions) ∧ rows.length = 128 ∧ ∀ l < 128,
        ((∀ q ∈ act, q.tid.lane ≠ l) → rows[l]? = some (List.replicate (accCols f) 0)) ∧
        ∀ q ∈ act, q.tid.lane = l → (∀ q' ∈ act, q'.tid.lane = l → q' = q) → rows[l]? = some ((List.range (accCols f)).map fun k => u.vreg q (u.regNo q f.opa + k))) ∧
  ∀ (i : Instr) (f : Insn) (s : State) (ig : IssueGroup) (act : List Thread) (th : Thread), i = .rowmax f ∨ i = .rowexp f ∨ i = .rowsc f → Admits s i f ig act →
    ig.core < s.cores.length → act.head? = some th →
    let x := s.about i f ig act
    let u := s.acting x
    let a := accNo f.opa
    let xf := Forms.low2 f.mod == 2
    ((u.regionAt th.tid.block a).i32 = false → ∃ t kind, exec i s = .next t ∧ Rule.queued s t f ig act th kind ∧ t.fills = s.fills ∧
      ((s.core ig.core).mmaOn th.tid.block a = false → t.regions = s.regions) ∧
      (i = .rowmax f → kind = .rowmax a (Forms.low2 f.mod) (f.mod.getLsbD 2) (u.laneVals x f.opb 0) (u.laneVals x f.opd 0) (u.laneRegs x f.opd)) ∧
      (i = .rowexp f → kind = .rowexp a (Forms.low2 f.mod) (u.laneVals x f.opb 0) (u.laneVals x f.opb 1) (u.laneVals x f.opb 2) (u.laneRegs x f.opd)) ∧
      (i = .rowsc f → kind = .rowsc a (Forms.low2 f.mod) (u.laneVals x f.opb 0) (if xf then u.laneVals x f.opb 1 else [])
        (if xf then u.laneVals x f.opb 2 else []) (if xf then u.laneRegs x f.opd else []))) ∧
    ((u.regionAt th.tid.block a).i32 = true → ∃ tr : Trap, tr.cause = Cause.badfmt ∧ exec i s = .next (s.taken.takeTrap ig tr))

/-- WLOAD, MMA, ACCLD and ACCDR with an operand in each of its places: where the operand's pair, view or FIFO passes the checks of R210, R217, R223 and R224 and no
access that happens before is outstanding, the operation is handed to the engine, with the object and the offset that a view pointer names; WLOAD marks its slot valid in the block's header, ACCLD sets the region's
format, ACCDR to local memory takes a range (R215, R218, R223, R224). The model's own choices in this: log 27, 31, 34, 96. -/
def Obligations.EngineOperands : Prop :=
  (∀ (f : Insn) (s : State) (ig : IssueGroup) (act : List Thread) (th : Thread) (b : Block) (p : Pair), Admits s (.wload f) f ig act → ig.core < s.cores.length →
    act.head? = some th →
    let u := s.acting (s.about (.wload f) f ig act)
    let v := u.src th f.opa 2
    let fmt := Forms.mid2 f.mod
    let slot := if f.mod.getLsbD 2 then 1 else 0
    u.block? th.tid.block = some b → 0 < b.regions → pairOf v = some p →
    (p.pk = true ∨ b.ownsLocal p.base 1024 = true ∧ u.pairOk b true (p.at_ 1024) 1 128 (256 * wtSize fmt) = true) → u.engineWait ig.core (act.map (·.tid)) = false →
    ∃ t, exec (.wload f) s = .next t ∧ Rule.queued s t f ig act th (.wload fmt slot (BitVec.ofNat 32 v) (BitVec.ofNat 32 (v / 2 ^ 32))) ∧
      ∀ r ∈ t.regions, r.block = b.key → r.index = 0 → latchValid (r.latch slot) = true ∧ latchFmt (r.latch slot) = fmt) ∧
  (∀ (f : Insn) (s : State) (ig : IssueGroup) (act : List Thread) (th : Thread) (b : Block) (w a : Span) (wFmt n : Nat) (pk : Bool) (g : Thread → Got),
    Admits s (.mma f) f ig act → ig.core < s.cores.length → act.head? = some th →
    let x := s.about (.mma f) f ig act
    let u := s.acting x
    let r := accNo f.opd
    let aFmt := Forms.mid2 f.mod
    u.block? th.tid.block = some b → u.mmaW th f (u.regionAt b.key 0) = some (w, wFmt, n, pk) → u.mmaA th f = some a →
    mmaPair aFmt wFmt (u.regionAt b.key r).i32 = true →
    (∀ v, a = .regs v → (∃ q, u.group? th.tid.block th.tid.group = some q ∧ v + 32 * actSize aFmt * n ≤ q.alloc) ∧
      ∀ q ∈ act, ∀ k < 32 * actSize aFmt * n, u.emptyReg q.home (v + k) q.tid.lane = false) →
    (∀ k, a = .fifo k ∨ w = .fifo k → (u.core ig.core).bound b.key k true 2 = true) →
    (∀ p, a.pair? = some p → p.pk = true ∨ u.pairOk b false p n 128 (128 * actSize aFmt) = true) →
    (∀ p, w.pair? = some p → p.pk = true ∨ u.gangLocal b p.base 1024 = true ∧ u.pairOk b false (p.at_ 1024) n 128 (256 * wtSize wFmt) = true) →
    (w = .view 0 0 0 0 → ∀ q ∈ act, Rule.passes u x (u.ptr th f.opb) 0 (if pk then 1032 else 1024 + 32768 * wtSize wFmt * n) 1 rightR q (g q)) →
    u.engineWait ig.core (act.map (·.tid)) = false →
    ∃ t low high, exec (.mma f) s = .next t ∧
      Rule.queued s t f ig act th (.mma r aFmt wFmt n pk a (if w = .view 0 0 0 0 then .view (g th).obj (g th).off low high else w))) ∧
  (∀ (f : Insn) (s : State) (ig : IssueGroup) (act : List Thread) (th : Thread) (b : Block) (g : Thread → Got), Admits s (.accld f) f ig act → ig.core < s.cores.length →
    act.head? = some th →
    let x := s.about (.accld f) f ig act
    let u := s.acting x
    let v := u.src th f.opa 2
    u.block? th.tid.block = some b → u.engineWait ig.core (act.map (·.tid)) = false →
    (Forms.hi2 f.mod = 0 → ∀ p, pairOf v = some p → 1024 ≤ 16 * p.rpitch → p.rot = 0 → p.pk = false → u.pairOk b false p 1 128 1024 = true →
      ∃ t, exec (.accld f) s = .next t ∧ Rule.queued s t f ig act th (.accld (accNo f.opd) (.pair (BitVec.ofNat 32 v) (BitVec.ofNat 32 (v / 2 ^ 32)))) ∧
        ∀ r ∈ t.regions, r.block = b.key → r.index = accNo f.opd → r.i32 = f.mod.getLsbD 0) ∧
    (Forms.hi2 f.mod ≠ 0 → (∀ q ∈ act, Rule.passes u x (BitVec.ofNat 64 v) 0 131072 1 rightR q (g q)) →
      ∃ t low high, exec (.accld f) s = .next t ∧ Rule.queued s t f ig act th (.accld (accNo f.opd) (.view (g th).obj (g th).off low high)) ∧
        ∀ r ∈ t.regions, r.block = b.key → r.index = accNo f.opd → r.i32 = f.mod.getLsbD 0)) ∧
  ∀ (f : Insn) (s : State) (ig : IssueGroup) (act : List Thread) (th : Thread) (b : Block) (g : Thread → Got), Admits s (.accdr f) f ig act → ig.core < s.cores.length →
    act.head? = some th →
    let x := s.about (.accdr f) f ig act
    let u := s.acting x
    let fmt := Forms.mid2 f.mod
    let pk := f.mod.getLsbD 3
    let auto := f.mod.getLsbD 2
    let kind : Span → EngineKind := fun d =>
      .accdr (u.regionAt b.key (accNo f.opa)).i32 (accNo f.opa) fmt (Forms.low2 f.mod) pk auto (if auto then [] else u.laneVals x f.opd 0) (u.laneRegs x f.opd) d 0
    u.block? th.tid.block = some b →
    (Forms.hi2 f.mod = 0 → ∀ p, pairOf (u.src th f.opb 2) = some p → p.rot = 0 → p.pk = false → (pk = true → mintPitch fmt pk ≤ 16 * p.rpitch) →
      u.pairOk b false p 1 128 (mintPitch fmt pk) = true → (u.core ig.core).ranges.length < 32 →
      ∃ t, exec (.accdr f) s = .next t ∧ Rule.queued s t f ig act th (kind (.pair (BitVec.ofNat 32 (u.src th f.opb 2)) (BitVec.ofNat 32 (u.src th f.opb 2 / 2 ^ 32)))) ∧
        (t.core ig.core).ranges.length = (s.core ig.core).ranges.length + 1) ∧
    (Forms.hi2 f.mod = 1 → (∀ q ∈ act, Rule.passes u x (u.ptr th f.opb) 0 (128 * mintPitch fmt pk) 1 rightW q (g q)) →
      ∃ t low high, exec (.accdr f) s = .next t ∧ Rule.queued s t f ig act th (kind (.view (g th).obj (g th).off low high))) ∧
    (2 ≤ Forms.hi2 f.mod → (u.core ig.core).bound b.key (u.src th f.opb 1 % 2 ^ 32) false 3 = true →
      ∃ t, exec (.accdr f) s = .next t ∧ Rule.queued s t f ig act th (kind (.fifo (u.src th f.opb 1 % 2 ^ 32))))

/-- CPKICK puts a batch of n commands from a 32-byte aligned local address on the copy engine, or traps ILLOP for a count of 0 or above 256; CHAIN binds an unbound FIFO
to the block, and unbinds the block's own empty one that nothing pending names; of an unbound one nothing changes (R238, R239). The model's own choices in this: log 36, 37. -/
def Obligations.CopyInstructions : Prop :=
  (∀ (f : Insn) (s : State) (ig : IssueGroup) (act : List Thread) (th : Thread) (b : Block), Admits s (.cpkick f) f ig act → ig.core < s.cores.length → act.head? = some th →
    let u := s.acting (s.about (.cpkick f) f ig act)
    let w := u.src th f.opa 2
    u.block? th.tid.block = some b → w % 2 ^ 23 % 32 = 0 →
    (1 ≤ w / 2 ^ 32 → w / 2 ^ 32 ≤ 256 → w % 2 ^ 23 + 32 * (w / 2 ^ 32) ≤ clusterBytes → u.gangLocal b (w % 2 ^ 23) (32 * (w / 2 ^ 32)) = true →
      u.engineWait ig.core (act.map (·.tid)) = false →
      ∃ t, exec (.cpkick f) s = .next t ∧ Rule.sameMemory s t ∧ Rule.sameRegisters s t ∧ ∃ q : Batch, (t.core ig.core).batches = (s.core ig.core).batches ++ [q] ∧
        q.block = th.tid.block ∧ q.lanes = act.map (·.tid) ∧ q.flag = setfOf f ∧ q.addr = w % 2 ^ 23 ∧ q.count = w / 2 ^ 32 ∧ q.next = 0) ∧
    (w / 2 ^ 32 = 0 ∨ 256 < w / 2 ^ 32 → ∃ tr : Trap, tr.cause = Cause.illop ∧ exec (.cpkick f) s = .next (s.taken.takeTrap ig tr))) ∧
  (∀ (f : Insn) (s : State) (ig : IssueGroup) (act : List Thread) (th : Thread), Admits s (.chainBind f) f ig act → act.head? = some th →
    let x := s.about (.chainBind f) f ig act
    let u := s.acting x
    let k := u.src th f.opa 1
    let prod := f.mod.toNat / 4 % 4
    let cons := f.mod.toNat % 4
    (prod = 0 ∨ prod = 3) → (cons = 0 ∨ cons = 2) →
    (k < 8 → ((u.core ig.core).fifo k).owner = none → exec (.chainBind f) s = .next
      ((u.modCore ig.core fun c => { c with fifos := c.fifos.set k { owner := some th.tid.block, producer := prod, consumer := cons, bytes := [] } }).closed x (.chainBind f)
        .atIssue false)) ∧
    (7 < k ∨ ((u.core ig.core).fifo k).owner ≠ none → ∃ tr : Trap, tr.cause = Cause.fifoerr ∧ exec (.chainBind f) s = .next (s.taken.takeTrap ig tr))) ∧
  ∀ (f : Insn) (s : State) (ig : IssueGroup) (act : List Thread) (th : Thread), Admits s (.chainUnbind f) f ig act → act.head? = some th →
    let x := s.about (.chainUnbind f) f ig act
    let u := s.acting x
    let k := u.src th f.opa 1
    let q := (u.core ig.core).fifo k
    k < 8 →
    (q.owner = none ∨ (q.owner = some th.tid.block ∧ q.bytes = [] ∧ u.fifoPending ig.core k = false) → exec (.chainUnbind f) s = .next
      ((u.modCore ig.core fun c => { c with fifos := c.fifos.set k {} }).closed x (.chainUnbind f) .atIssue false)) ∧
    (q.owner ≠ none → q.owner ≠ some th.tid.block ∨ q.bytes ≠ [] ∨ u.fifoPending ig.core k = true → ∃ tr : Trap, tr.cause = Cause.fifoerr ∧ exec (.chainUnbind f) s = .next (s.taken.takeTrap ig tr))

/-- A local area of a tensor instruction: aligned, in cluster space, and the block's own (R232). -/
def Rule.area (u : State) (th : Thread) (o : Operand) (n al : Nat) : Prop :=
  u.localAddr th o % al = 0 ∧ u.localAddr th o + n ≤ clusterBytes ∧ ∃ b, u.block? th.tid.block = some b ∧ b.ownsLocal (u.localAddr th o) n = true

/-- No PLACE holds the tile of a thread's home group, and no TDSET is loading it (R229, R232). -/
def Rule.tileFree (u : State) (th : Thread) (t : Nat) : Prop :=
  u.placing th.tid.block th.tid.group t = false ∧ u.tileLoading th.tid.block th.tid.group t = false

/-- TDSET takes a valid image of 128 bytes into its tile, which is loading until TDSET_DONE; TDGET writes the tile's 128 bytes to local memory; LOCOF
writes, in each of bits [47:0], the parity of the index and a row of the matrix area, unless the area has been written since the TDSET (R232, R233). The model's own choices in this: log 15, 30, 54, 60. -/
def Obligations.TileInstructions : Prop :=
  (∀ (f : Insn) (s : State) (ig : IssueGroup) (act : List Thread) (th : Thread) (b : Block), Admits s (.tdset f) f ig act → act.head? = some th →
    let x := s.about (.tdset f) f ig act
    let u := s.acting x
    let bs := u.bytes (localAt ig.core (u.localAddr th f.opa)) 128
    let d := descOf bs
    u.block? th.tid.block = some b → Rule.area u th f.opa 128 16 → Rule.tileFree u th (tileNo f.opd) →
    u.localBusy ig.core b.key th.tid.group (u.localAddr th f.opa) 128 false = false →
    (u.descOk b bs = true → u.localBusy ig.core b.key th.tid.group d.mat (8 * d.n) false = false → gfInv d.n (u.matrix ig.core d.mat d.n) ≠ none →
      exec (.tdset f) s = .next (((u.modGroup b.key th.tid.group fun g => { g with loading := g.loading ++ [(tileNo f.opd, setfOf f)], loose := g.loose.filter (· != tileNo f.opd) }).putTile th.home (tileNo f.opd) 0 bs).closed
        x (.tdset f) .later false)) ∧
    (u.descOk b bs = false → ∃ tr : Trap, tr.cause = Cause.badfmt ∧ exec (.tdset f) s = .next (s.taken.takeTrap ig tr)) ∧
    (u.descOk b bs = true → u.localBusy ig.core b.key th.tid.group d.mat (8 * d.n) false = false → gfInv d.n (u.matrix ig.core d.mat d.n) = none →
      ∃ tr : Trap, tr.cause = Cause.placebad ∧ exec (.tdset f) s = .next (s.taken.takeTrap ig tr))) ∧
  (∀ (f : Insn) (s : State) (ig : IssueGroup) (act : List Thread) (th : Thread), Admits s (.tdget f) f ig act → act.head? = some th →
    let x := s.about (.tdget f) f ig act
    let u := s.acting x
    let a := u.localAddr th f.opb
    Rule.area u th f.opb 128 16 → Rule.tileFree u th (tileNo f.opa) → u.rangeBusy ig.core a 128 = false →
    u.localBusy ig.core th.tid.block th.tid.group a 128 true = false →
    exec (.tdget f) s = .next (((u.rawWrite ig.core 0 true 0 a 128).storeLocal ig.core a (u.tile th.home (tileNo f.opa))).closed x (.tdget f) (.at_ (x.due 24)) false)) ∧
  ∀ (f : Insn) (s : State) (ig : IssueGroup) (act : List Thread), Admits s (.locof f) f ig act →
    let x := s.about (.locof f) f ig act
    let u := s.acting x
    let d : Thread → Desc := fun th => descOf (u.tile th.home (tileNo f.opa))
    (∀ th ∈ act, u.tileLoading th.tid.block th.tid.group (tileNo f.opa) = false ∧ (d th).rank ≠ 0) →
    ((∀ th ∈ act, u.src th f.opb 2 < 2 ^ (d th).n) → ∃ val : Thread → Nat,
      exec (.locof f) s = .next ((u.putAll x 2 8 (act.map fun th => (th, val th))).closed x (.locof f) (.at_ (x.due 8)) false) ∧
      ∀ th ∈ act, u.tileLoose th.tid.block th.tid.group (tileNo f.opa) = false → ∀ j < 64, (val th).testBit j = (decide (j < 48) &&
        decide (((List.range 64).countP fun k => (u.src th f.opb 2).testBit k &&
          (field (u.bytes (localAt ig.core ((d th).mat + 8 * j)) 8) 0 8).testBit k) % 2 = 1))) ∧
    ((∃ th ∈ act, 2 ^ (d th).n ≤ u.src th f.opb 2) → ∃ tr : Trap, tr.cause = Cause.viewbound ∧ exec (.locof f) s = .next (s.taken.takeTrap ig tr))

/-- The element a lane of TLD or TST names is there: the tile holds a tensor, no TDSET is loading it, the index is one of the tensor's, and the place of
the element, none for a ghost, passes its checks (R230, R231). -/
def Rule.element (u : State) (x : Exec) (c : Ctx) (f : Insn) (need : BitVec 4) (th : Thread) (e : Option ElemAt) : Prop :=
  let d := descOf (u.tile th.home (tileNo f.opa))
  let i := u.src th f.opb 2
  u.tileLoading th.tid.block th.tid.group (tileNo f.opa) = false ∧ d.rank ≠ 0 ∧ d.cursor % 4 ≠ 3 ∧ i < 2 ^ d.n ∧
  (d.res = 2 → u.cachedView x.ig.core (u.ctxOfExec x) (ptrIndex (BitVec.ofNat 64 d.base)) ≠ none) ∧
  ∃ b, u.block? th.tid.block = some b ∧
    if d.ghost i = true then e = none
    else ∃ p, e = some p ∧ p = (u.elemOf x c b need (th, d, i)).2 ∧ (∀ k m, p ≠ .bad k m) ∧ (∀ m o, p ≠ .other m o) ∧
      ∀ a, p = .loc a → u.rangeBusy x.ig.core a d.size = false

/-- TLD and TST: each active lane has one access of its element on the core; a ghost reads through an access of its own and a store to it
completes at issue; TST waits for no PLACE to move the tensor (R230, R231). The model's own choices in this: log 28, 60. -/
def Obligations.ElementAccesses : Prop :=
  (∀ (f : Insn) (s : State) (ig : IssueGroup) (act : List Thread) (c : Ctx) (e : Thread → Option ElemAt), Admits s (.tld f) f ig act → ig.core < s.cores.length →
    s.nextId + act.length + 1 < 2 ^ 64 →
    let x := s.about (.tld f) f ig act
    let u := s.acting x
    u.ctx? (u.ctxOfExec x) = some c →
    (∀ th ∈ act, Rule.element u x c f rightR th (e th) ∧ ∀ h r l sh, e th = some (.reg h r l sh) → u.emptyReg h r l = false) →
    ∃ t, exec (.tld f) s = .next t ∧ Rule.sameMemory s t ∧ t.vregs = s.vregs ∧ t.uregs = s.uregs ∧ t.tiles = s.tiles ∧ t.regions = s.regions ∧
      (∀ th ∈ act, t.emptyReg th.home (u.regNo th f.opd) th.tid.lane = true) ∧
      ∃ new : List Access, (t.core ig.core).accs = (s.core ig.core).accs ++ new ∧
        new.map (fun a => (a.tid, a.opc, a.bytes, a.reg)) =
          act.map (fun th => (th.tid, 0xDB#8, (descOf (u.tile th.home (tileNo f.opa))).size, u.regNo th f.opd)) ∧
        ∀ a ∈ new, ∃ th ∈ act, a.tid = th.tid ∧ (u.tileLoose th.tid.block th.tid.group (tileNo f.opa) = false → (∀ n, e th = some (.loc n) → a.inLocal = true ∧ a.off = n) ∧
          (∀ o n h, e th = some (.mem o n h) → a.inLocal = false ∧ a.obj = o ∧ a.off = n))) ∧
  ∀ (f : Insn) (s : State) (ig : IssueGroup) (act : List Thread) (c : Ctx) (e : Thread → Option ElemAt), Admits s (.tst f) f ig act → ig.core < s.cores.length →
    let x := s.about (.tst f) f ig act
    let u := s.acting x
    u.ctx? (u.ctxOfExec x) = some c →
    (∀ th ∈ act, Rule.element u x c f rightW th (e th) ∧
      u.placeOn th.tid.block th.tid.group (tileNo f.opa) (descOf (u.tile th.home (tileNo f.opa))) = none ∧
      ∀ q ∈ (u.core ig.core).outstanding, q.tid = th.tid → q.reads = false) →
    ∃ t, exec (.tst f) s = .next t ∧ Rule.sameMemory s t ∧ Rule.sameRegisters s t ∧ ∃ new : List Access, (t.core ig.core).accs = (s.core ig.core).accs ++ new ∧
      new.map (fun a => (a.tid, a.opc, a.bytes, a.data)) = (act.filter fun th => (e th).isSome).map fun th =>
        let n := (descOf (u.tile th.home (tileNo f.opa))).size
        (th.tid, 0xDC#8, n, BitVec.ofNat 128 ((u.src32 th f.opd).toNat % 2 ^ (8 * n)))

/-- PLACE: where tiles, descriptors and matrices pass R229 and the factoring of R327, or the plan, is valid, the Orrery has one PLACE more, which moves the
tensor of tS to tD under the new matrix, that of OPB or the one that the plan gives; the new matrix's 48 rows stand at the destination's matrix address, and no
byte outside that and the plan's area changes; tD's cursor is RUNNING at step 0 of pass 0, with the group and flag, its other bits 0, and no other byte of a tile
changes (R229, R332). A new matrix without an inverse, or one too large for its tensor, traps (R229). The model's own choices in this: log 29, 30. -/
def Obligations.PlaceIssues : Prop :=
  (∀ (f : Insn) (s : State) (ig : IssueGroup) (act : List Thread) (th : Thread) (b : Block) (new v src w : List Nat), Admits s (.place f) f ig act → act.head? = some th →
    let x := s.about (.place f) f ig act
    let u := s.acting x
    let tD := tileNo f.opd
    let tS := tileNo f.opa
    let plan := f.mod.getLsbD 0
    let a := u.localAddr th f.opb
    let dS := descOf (u.tile th.home tS)
    let dD := descOf (u.tile th.home tD)
    let old := u.matrix ig.core dS.mat dS.n
    let copy := copyPlace (tD == tS) dS dD
    u.block? th.tid.block = some b → Rule.area u th f.opb (if plan then 0x390 else 384) 8 → Rule.tileFree u th tD → Rule.tileFree u th tS →
    dS.rank ≠ 0 → dS.cursor % 4 ≠ 3 → dD.rank ≠ 0 → dD.cursor % 4 ≠ 3 → dS.fmt = dD.fmt → dS.rank = dD.rank → dS.ext = dD.ext →
    u.matrixTidy ig.core dS.mat dS.n = true → u.matrixTidy ig.core dD.mat dS.n = true → (plan = false → u.matrixTidy ig.core a dS.n = true) →
    u.placePlan ig.core a plan dS.n old (if copy = some true then dS else dD) copy = .ok (new, v, src, w) →
    (dS.width 7 ≠ 0 ∨ dD.width 7 ≠ 0 → u.headerFlag x 3 = true) → u.engineWait ig.core (act.map (·.tid)) = false →
    dD.mat + 384 ≤ clusterBytes → dD.plan + 0x390 ≤ clusterBytes → (plan = true ∨ dD.plan + 0x390 ≤ dD.mat ∨ dD.mat + 384 ≤ dD.plan) → dS.n ≤ 48 →
    (∃ q, u.group? b.key th.tid.group = some q ∧ q.home = th.home) → tD < 8 → th.tid.group < 8 →
    ∃ t, exec (.place f) s = .next t ∧ t.vault = s.vault ∧ t.pool = s.pool ∧ t.vregs = s.vregs ∧ t.uregs = s.uregs ∧ t.regions = s.regions ∧
      (∃ o : PlaceOp, t.places = s.places ++ [o] ∧ o.block = b.key ∧ o.group = th.tid.group ∧ o.tD = tD ∧ o.tS = tS ∧ o.lanes = act.map (·.tid) ∧ o.flag = setfOf f ∧
        o.mOld = old ∧ o.mNew = new ∧ o.pass = 0 ∧ o.step = 0) ∧
      (∀ i < 48, field (t.bytes (localAt ig.core (dD.mat + 8 * i)) 8) 0 8 = if i < dS.n then new.getD i 0 % 2 ^ 64 else 0) ∧
      (plan = false → ∀ i < 384, t.byte (localAt ig.core (dD.mat + i)) = u.byte (localAt ig.core (a + i))) ∧
      field (t.tile th.home tD) 0x50 16 = (setfOf f).getD 15 * 2 ^ 20 + th.tid.group * 2 ^ 17 + 1 ∧
      (∀ i < 128, i < 0x50 ∨ 0x60 ≤ i → (t.tile th.home tD)[i]? = (s.tile th.home tD)[i]?) ∧
      (∀ h k : Nat, k < 8 → (h, k) ≠ (th.home, tD) → t.tile h k = s.tile h k) ∧
      ∀ k m, k < 192 → m < clusterBytes → (clusterOf k ≠ clusterOf ig.core ∨ (m < dD.mat ∨ dD.mat + 384 ≤ m) ∧ (plan = true ∨ m < dD.plan ∨ dD.plan + 0x390 ≤ m)) →
        t.byte (localAt k m) = s.byte (localAt k m)) ∧
  ∀ (f : Insn) (s : State) (ig : IssueGroup) (act : List Thread) (th : Thread) (b : Block), Admits s (.place f) f ig act → act.head? = some th →
    let x := s.about (.place f) f ig act
    let u := s.acting x
    let tD := tileNo f.opd
    let tS := tileNo f.opa
    let a := u.localAddr th f.opb
    let dS := descOf (u.tile th.home tS)
    let dD := descOf (u.tile th.home tD)
    u.block? th.tid.block = some b → f.mod.getLsbD 0 = false → Rule.area u th f.opb 384 8 → Rule.tileFree u th tD → Rule.tileFree u th tS →
    dS.rank ≠ 0 → dS.cursor % 4 ≠ 3 → dD.rank ≠ 0 → dD.cursor % 4 ≠ 3 →
    (¬(dS.fmt = dD.fmt ∧ dS.rank = dD.rank ∧ dS.ext = dD.ext ∧ u.matrixTidy ig.core dS.mat dS.n = true ∧ u.matrixTidy ig.core dD.mat dS.n = true ∧
        u.matrixTidy ig.core a dS.n = true) →
      ∃ tr : Trap, tr.cause = Cause.badfmt ∧ exec (.place f) s = .next (s.taken.takeTrap ig tr)) ∧
    (dS.fmt = dD.fmt → dS.rank = dD.rank → dS.ext = dD.ext → u.matrixTidy ig.core dS.mat dS.n = true → u.matrixTidy ig.core dD.mat dS.n = true →
      u.matrixTidy ig.core a dS.n = true → gfInv dS.n (u.matrix ig.core a dS.n) = none →
      ∃ tr : Trap, tr.cause = Cause.placebad ∧ exec (.place f) s = .next (s.taken.takeTrap ig tr))

/-- OPTAW, STATST, STATLD and LSCALE: where the accesses of every active lane pass their checks, each lane has one access on the core: OPTAW's names w, m, v and g of its
element with the parameters, STATST's carries three registers and the valid word, STATLD's the tag expected, LSCALE's the predicate; under TRAP_UE, a poisoned
operand of OPTAW at home traps MEMUE first, with the element's index in TRAPINFO of each lane that has one and 0 in the others (R234 to R236). The model's own choices in this: log 18, 53. -/
def Obligations.TrainingInstructions : Prop :=
  (∀ (f : Insn) (s : State) (ig : IssueGroup) (act : List Thread) (c : Ctx) (g : Nat → Thread → Got), Admits s (.optaw f) f ig act → ig.core < s.cores.length →
    let x := s.about (.optaw f) f ig act
    let u := s.acting x
    let n := uniNo f.opa
    let size : Nat → Nat := fun i => if i = 3 then (if f.mod.getLsbD 0 then 2 else 4) else 4
    let idx : Thread → Nat := fun th => (u.src32 th f.opb).toNat
    u.ctx? (u.ctxOfExec x) = some c → (act.map (·.tid)).Nodup →
    (∀ i < 4, ∀ th ∈ act, Rule.passes u x (u.uniPtr th (n + 2 * i)) (size i * idx th : Nat) (size i) (size i) (if i = 3 then rightR else rightR ||| rightW) th (g i th)) →
    let here : Prop := ∀ i < 4, ∀ th ∈ act, ∀ d, u.translate c (g i th).obj (g i th).off 1 ≠ .peer d
    let bad : Thread → Prop := fun th => ∃ i < 4, u.memPoisoned c (g i th).obj (g i th).off (size i) = true ∨
      u.sentBad optawId (g i th).obj (g i th).off (size i) = true
    (u.headerFlag x 5 = true → here → (∃ th ∈ act, bad th) → (x.mem.map (·.tid)).Nodup → ∃ tr : Trap, tr.cause = Cause.memue ∧
      exec (.optaw f) s = .next (s.taken.takeTrap ig tr) ∧ ∀ th ∈ x.mem, (th ∈ act → bad th → tr.info th.tid = u.src32 th f.opb) ∧ (th ∉ act ∨ ¬bad th → tr.info th.tid = 0)) ∧
    (u.headerFlag x 5 = false ∨ (here ∧ ∀ th ∈ act, ¬bad th) →
    ∃ t, exec (.optaw f) s = .next t ∧ Rule.sameMemory s t ∧ Rule.sameRegisters s t ∧ ∃ new : List Access, (t.core ig.core).accs = (s.core ig.core).accs ++ new ∧
      new.map (fun a => (a.tid, a.opc, a.reg, a.args)) = act.map fun th => (th.tid, 0xE0#8, predNo f.opd,
        ((List.range 4).flatMap fun i => [(g i th).obj, (g i th).off]) ++ [idx th, size 3] ++ ((List.range 7).map fun i => (u.ureg th (n + 8 + i)).toNat) ++
        [if act.any fun q => decide (q.tid ≠ th.tid) && (List.range 3).all fun i => (g i q).obj == (g i th).obj && (g i q).off == (g i th).off then 1 else 0]))) ∧
  ∀ (i : Instr) (f : Insn) (s : State) (ig : IssueGroup) (act : List Thread) (g : Thread → Got), i = .statst f ∨ i = .statld f ∨ i = .lscale f → Admits s i f ig act →
    ig.core < s.cores.length →
    let x := s.about i f ig act
    let u := s.acting x
    let need := if i = .statst f then rightW else if i = .statld f then rightR else rightR ||| rightW ||| rightA
    (∀ th ∈ act, Rule.passes u x (u.ptr th f.opa) (if i = .lscale f then 0 else (statOffset (u.src32 th f.opb) : Nat)) 16 16 need th (g th)) →
    (i = .statst f → ∀ th ∈ act, Rule.noLoadAhead u ig.core th.tid false (g th).obj (g th).off 16) →
    ∃ t, exec i s = .next t ∧ Rule.sameMemory s t ∧ Rule.sameRegisters s t ∧ ∃ new : List Access, (t.core ig.core).accs = (s.core ig.core).accs ++ new ∧
      new.map (fun a => (a.tid, a.obj, a.off, a.bytes)) = (act.map fun th => (th.tid, (g th).obj, (g th).off, 16)) ∧
      (i = .statst f → new.map (fun a => (a.opc, a.data)) = act.map fun th => (0xE1#8, BitVec.ofNat 128
        (((List.range 3).map fun k => (u.vreg th (u.regNo th f.opd + k)).toNat * 2 ^ (32 * k)).sum + (2 ^ 31 + u.statTag x (u.src32 th f.opb)) * 2 ^ 96))) ∧
      (i = .statld f → new.map (fun a => (a.opc, a.reg, a.args)) = act.map fun th => (0xE2#8, u.regNo th f.opd, [u.statTag x (u.src32 th f.opb)])) ∧
      (i = .lscale f → new.map (fun a => (a.opc, a.reg, a.data.getLsbD 0)) = act.map fun th => (0xE3#8, predNo f.opd, decide (u.src th f.opb 1 % 2 = 1)))

/-! ### Schedulers and boundary traps (R155, R171, R188, R196, R212, R258, R273 to R277, R284) -/

/-- The waiting time of a home group in a cycle (R275). -/
def Rule.waited (now : Nat) (g : Group) : Nat := now - g.readySince.getD now
/-- A candidate whose waiting time has reached 256 is forced (R275). -/
def Rule.forced (now : Nat) (g : Group) : Prop := g.forced = true ∨ 256 ≤ Rule.waited now g

/-- R275: a scheduler prefers forced candidates, then the longest waiting time, then the lowest home group, and none only where no group has a ready fragment. -/
def Rule.preference : Prop :=
  ∀ (s : State) (core sched : Nat),
    let now := (s.core core).clock
    let stands : Group → IssueGroup → Prop := fun g ig => g ∈ s.groups ∧ coreOf g.home = core ∧ g.sched = sched ∧ s.readyFragment g = some ig
    (s.ranked core sched = [] → ∀ g ig, ¬stands g ig) ∧
    ∀ g ig, (s.ranked core sched).head? = some (g, ig) → stands g ig ∧ ∀ h j, stands h j →
      (Rule.forced now h → Rule.forced now g) ∧ ((Rule.forced now h ↔ Rule.forced now g) →
        Rule.waited now h ≤ Rule.waited now g ∧ (Rule.waited now h = Rule.waited now g → g.home ≤ h.home))

/-- R276: a selected fragment that is whole, or whose instruction needs convergence or uses a uniform operand, issues alone; another takes in, in the order
of R275, every ready fragment that is not whole, of the same launch and at the same PC, none of whose lane slots is taken. -/
def Rule.merge : Prop :=
  ∀ (s : State) (core sched : Nat) (g : Group) (ig sel : IssueGroup) (rest : List (Group × IssueGroup)),
    s.ranked core sched = (g, ig) :: rest → s.selected core sched = some sel →
    let alone := s.whole g ig = true ∨ ¬∃ w i k f, s.fetch ig.launch ig.pc = .word w ∧ decode w = .ok i ∧ i.word? = some (k, f) ∧ needsConvergence i f = false
    let fits : Group × IssueGroup → Prop := fun p => s.whole p.1 p.2 = false ∧ p.2.pc = ig.pc ∧ p.2.launch = ig.launch
    (alone → sel = ig) ∧ sel = { ig with members := sel.members } ∧ (∀ t ∈ ig.members, t ∈ sel.members) ∧
    (∀ t ∈ sel.members, t ∈ ig.members ∨ ∃ p ∈ rest, fits p ∧ t ∈ p.2.members) ∧
    (¬alone → ∀ l p r, rest = l ++ p :: r → fits p → (∀ t ∈ p.2.members, t ∈ sel.members) ∨
      ∃ t ∈ p.2.members, ∃ q ∈ (g, ig) :: l, ∃ v ∈ q.2.members, v ∈ sel.members ∧ v.lane = t.lane) ∧
    ((∀ p ∈ (g, ig) :: rest, (p.2.members.map (·.lane)).Nodup) → (sel.members.map (·.lane)).Nodup)

/-- A scheduler's turn selects, on a core that is on, with no result overdue and its own datapath free, the fragment R275 prefers, merged as R276 says: the lowest PC
of a home group's candidates, all of them that stand there (R274). A breakpoint at an instruction that it would issue stops it, a group that hangs traps first, and a
group whose GSYNC is due passes it or moves its quota. A turn that comes round again starts the next cycle. A home group waits no longer than 256 cycles before it is
forced (R275), a yield no longer than 64 (R155), a WAITF no longer than its limit (R171); a fixed-latency result lands when it is due. The model's own choices in this: log 1, 79, 81. -/
def Obligations.SchedulerSteps : Prop :=
  Rule.preference ∧ Rule.merge ∧ (∀ (s : State) (g : Group) (ig : IssueGroup), s.gsyncDue g = false → s.issueGroups g ig = [ig]) ∧
  (∀ (s : State) (g : Group) (ig : IssueGroup), s.fragment g = some ig → ig.launch = g.block.launch ∧ ig.sched = g.sched ∧
    (∀ th ∈ s.candidates g, ig.pc.toNat ≤ th.pc.toNat) ∧ ∀ tid, tid ∈ ig.members ↔ ∃ th ∈ s.candidates g, th.tid = tid ∧ th.pc = ig.pc) ∧
  (∀ (s : State) (core sched : Nat), sched < 4 → s.broken = none → s.coreOff core = false → s.owesLanding core = false →
    ((s.core core).turns.contains sched = true → s.othersDone core sched = true) →
    let b := if (s.core core).turns.contains sched then s.nextCycle core else s
    let v := if (b.core core).turns = [] then b.tickCore core else b
    let u := v.modCore core fun c => { c with turns := sched :: c.turns }
    b.owesLanding core = false → (v.core core).turns.contains sched = false →
    ((u.core core).freeAt.getD sched 0 ≤ (u.core core).clock → ∀ g ig, ((u.ranked core sched).head?).map (·.1) = some g → u.selected core sched = some ig →
      let parts := u.issueGroups g ig
      let hangs : IssueGroup → Bool := fun y => !(u.hangingGroups y).isEmpty
      (∀ y, parts.find? u.breakHit = some y → (u.stopGroup y (u.members y).head?).broken = none →
        exec (.issueGroupSelect core sched) s = .next (u.stopGroup y (u.members y).head?)) ∧
      (∀ y, parts.find? u.breakHit = none → parts.find? hangs = some y → exec (.issueGroupSelect core sched) s = .next (u.takeHang y)) ∧
      (parts.find? u.breakHit = none → parts.find? hangs = none → u.gsyncDue g = true → (u.doGsync g.block g).broken = none →
        exec (.issueGroupSelect core sched) s = .next (u.doGsync g.block g)) ∧
      (parts.find? u.breakHit = none → parts.find? hangs = none → u.gsyncDue g = false → exec (.issueGroupSelect core sched) s = .next { u with issue := some ig })) ∧
    ((u.core core).clock < (u.core core).freeAt.getD sched 0 ∨ u.selected core sched = none → exec (.issueGroupSelect core sched) s = .next u)) ∧
  (∀ (s : State) (core : Nat), core < s.cores.length → ((s.nextCycle core).core core).clock = (s.core core).clock + 1 ∧
    ∀ k ≠ core, (s.nextCycle core).core k = s.core k) ∧
  (∀ (s : State) (b : BlockKey) (g n : Nat) (x : Group), s.broken = none → s.group? b g = some x → x.readySince = some n →
    (n + 256 ≤ (s.core (coreOf x.home)).clock → exec (.forcedCandidate b g) s = .next (s.modGroup b g fun x => { x with forced := true })) ∧
    ((s.core (coreOf x.home)).clock < n + 256 → exec (.forcedCandidate b g) s = .next s)) ∧
  (∀ (s : State) (b : BlockKey) (g : Nat), s.broken = none → (∃ th ∈ s.groupThreads b g, ∃ n, th.yielded = some n ∧ 64 ≤ n) →
    ∃ t, exec (.yieldTimeout b g) s = .next t ∧ Rule.sameRegisters s t ∧ Rule.sameMemory s t ∧
      ∀ th ∈ t.threads, th.tid.block = b → th.tid.group = g → ∀ n, th.yielded = some n → n < 64) ∧
  (∀ (s : State) (tid : Tid) (th : Thread) (mask : BitVec 12) (since limit : Nat), s.broken = none → s.thread? tid = some th → th.blocked = some (.waitf mask since limit) →
    limit ≠ 0 → (since + limit ≤ (s.core th.core).clock → (∃ k < 12, mask.getLsbD k = true ∧ th.flag k = true) →
        exec (.waitfLimit tid) s = .next (s.modThread tid fun th => { th with waitOver := true })) ∧
      ((s.core th.core).clock < since + limit → exec (.waitfLimit tid) s = .next s)) ∧
  (∀ (s : State) (core i : Nat) (l : Landing), s.broken = none → core < s.cores.length → (s.core core).landings[i]? = some l →
    (l.due ≤ (s.core core).clock → ∃ t, exec (.fixedLatencyWrite core i) s = .next t ∧ Rule.sameRegisters s t ∧ Rule.sameMemory s t ∧
      (t.core core).landings = (s.core core).landings.eraseIdx i ∧ ∀ a, s.thread? l.owner = some a → ∀ f, l.flag = some f → f < a.flags.length →
        ∃ b, t.thread? l.owner = some b ∧ b.flags[f]? = (a.flags[f]?).map (· - 1)) ∧
    ((s.core core).clock < l.due → exec (.fixedLatencyWrite core i) s = .next s)) ∧
  (∀ (s : State) (b : BlockKey) (x : Group), (x.quotaPending = 0 → s.doGsync b x = s.passGsync b x.index) ∧
    ∀ y, x.quotaPending ≠ 0 → s.group? b x.quotaPartner = some y →
      let taker := if 0 < x.quotaPending then x else y
      (x.sched = y.sched ∨ taker.quotaPending.natAbs ≤ s.freeGranules (coreOf taker.home) taker.sched →
        s.doGsync b x = (((s.moveQuota b x).moveQuota b y).passGsync b x.index).passGsync b y.index) ∧
      (x.sched ≠ y.sched → s.freeGranules (coreOf taker.home) taker.sched < taker.quotaPending.natAbs →
        s.doGsync b x = (((s.endQuota b x.index).endQuota b y.index).quotaTrap b x).quotaTrap b y)) ∧
  ∀ (s : State) (b : BlockKey) (g : Nat) (x y : Group) (ig sel : IssueGroup), s.broken = none → s.group? b g = some x → x.sched < 4 →
    let core := coreOf x.home
    s.coreOff core = false → s.owesLanding core = false → (s.core core).turns.contains x.sched = false →
    let v := if (s.core core).turns = [] then s.tickCore core else s
    let u := v.modCore core fun c => { c with turns := x.sched :: c.turns }
    (v.core core).turns.contains x.sched = false →
    ((v.ranked core x.sched).head? = some (y, ig) → y.block = b → y.index = g → v.gsyncDue y = true → (u.ranked core x.sched).head? = some (y, ig) →
      u.selected core x.sched = some sel → u.gsyncDue y = true → (u.core core).freeAt.getD x.sched 0 ≤ (u.core core).clock →
      (∀ z ∈ u.issueGroups y sel, u.breakHit z = false ∧ u.hangingGroups z = []) → (u.doGsync b y).broken = none →
      exec (.gsyncComplete b g) s = .next (u.doGsync b y)) ∧
    ((v.ranked core x.sched).head? = some (y, ig) → ¬(y.block = b ∧ y.index = g ∧ v.gsyncDue y = true) → exec (.gsyncComplete b g) s = .next s)

/-- Traps taken at instruction boundaries: the oldest deferred trap of a home group, an uncorrectable error of a load, a refused multicast store, a cancellation in every thread
of the block that stands at a boundary, and the hang trap, which the detector requests after 2^24 cycles without progress, with a HANG record
(R188, R196, R212, R258, R284). The model's own choices in this: log 47, 81. -/
def Obligations.BoundaryTraps : Prop :=
  (∀ (s : State) (b : BlockKey) (g : Nat) (x : Group) (c : BitVec 6) (w : Word) (th : Thread) (rest : List Thread), s.group? b g = some x →
    ((s.groupThreads b g).filter fun t => decide (t.life = .live) && !t.deferred.isEmpty) = th :: rest → th.deferred.head? = some (c, w) →
    let now := (th :: rest).filter fun t => decide (t.deferred.head? = some (c, w))
    let t := (s.modThreads (now.map (·.tid)) fun t => { t with deferred := t.deferred.drop 1 }).trapThreads x now fun _ => sameInfo c w now
    t.broken = none → exec (.deferredTrap b g) s = .next t) ∧
  (∀ (s : State) (tid : Tid) (th : Thread) (g : Group) (w : Word), s.broken = none → s.thread? tid = some th → s.group? tid.block tid.group = some g → th.life = .live →
    let ig : IssueGroup := ⟨coreOf g.home, g.sched, g.block.launch, th.pc, [th.tid]⟩
    (th.memue = some w → ∃ tr : Trap, tr.cause = Cause.memue ∧ tr.info th.tid = w ∧
      exec (.memueTrap tid) s = .next ((s.modThread tid fun th => { th with memue := none }).takeTrap ig tr)) ∧
    (th.mcnack = some w → ∃ tr : Trap, tr.cause = Cause.mcnack ∧ tr.info th.tid = w ∧
      exec (.mcnackTrap tid) s = .next ((s.modThread tid fun th => { th with mcnack := none }).takeTrap ig tr))) ∧
  (∀ (s : State) (b : BlockKey) (k : Block), s.block? b = some k → k.phase = .running →
    let t := (s.groups.filter fun g => g.block == b).foldl (fun s g =>
      s.trapThreads g ((s.groupThreads b g.index).filter s.cancelDue) fun _ => { cause := Cause.cancel }) s
    t.broken = none → exec (.cancelTrap b) s = .next t) ∧
  (∀ (s : State) (b : BlockKey) (g : Nat) (x : Group), s.group? b g = some x →
    let rec_ := mkRecord 0x20 (coreOf x.home) g 0 0 0 0 b.launch b.index 0xFFFF 0 (BitVec.ofNat 32 ((minBy id (x.hangPcs.map (·.toNat))).getD 0))
    let t := s.errorRecord (s.ctxOf b) rec_
    (2 ^ 24 ≤ x.hang → t.broken = none → exec (.hangDetect b g) s = .next (t.modGroup b g fun x =>
      { x with hang := 0, hangDue := ((t.headerOf b).map (·.flags.getLsbD 6)).getD false })) ∧
    (x.hang < 2 ^ 24 → s.broken = none → exec (.hangDetect b g) s = .next s)) ∧
  ∀ (s : State) (b : BlockKey) (g : Nat) (x : Group) (ig : IssueGroup), s.broken = none → s.group? b g = some x → x.hangDue = true → s.gsyncDue x = false →
    s.selected (coreOf x.home) x.sched = some ig → (∃ tid ∈ ig.members, tid.block = b ∧ tid.group = g) →
    exec (.hangTrap b g) s = .next (s.takeHang ig) ∧
    ((∀ q ∈ s.groups, q.hangDue = true → (∃ tid ∈ ig.members, tid.block = q.block ∧ tid.group = q.index) → q = x) →
      ∃ tr : Trap, tr.cause = Cause.hang ∧ (∀ th ∈ s.members ig, tr.info th.tid = BitVec.ofNat 32 x.hangPcs.length) ∧
        s.takeHang ig = ({ s with groups := s.groups.map fun q => if q = x then { q with hangDue := false, hang := 0 } else q } : State).takeTrap ig tr)

/-! ### Accesses performed (R51, R53, R180 to R200, R298, R321) -/

/-- The `n` bytes from `a` of core `core`'s cluster space hold `bs`, and every other byte of the device is as it was. -/
def Rule.localStored (s t : State) (core a : Nat) (bs : List Byte) : Prop :=
  t.vault = s.vault ∧ t.pool = s.pool ∧ ∀ k m, k < 192 → m < clusterBytes →
    t.byte (localAt k m) = if clusterOf k = clusterOf core ∧ a ≤ m ∧ m < a + bs.length then bs.getD (m - a) 0 else s.byte (localAt k m)

/-- The words are in the run of registers of the lane, which are full again; no other vector register has changed. -/
def Rule.filled (s t : State) (home reg lane : Nat) (ws : List Word) : Prop :=
  ∀ r < 256, ∀ l < 128, t.cell (.vec home r l) = (if l = lane ∧ reg ≤ r ∧ r < reg + ws.length then ws.getD (r - reg) 0 else s.cell (.vec home r l)) ∧
    (l = lane → reg ≤ r → r < reg + ws.length → t.emptyReg home r l = false)

/-- The access is the lane's, ready, and its registers await it. -/
def Rule.ready (s : State) (core i : Nat) (a : Access) (th : Thread) (c : Ctx) : Prop :=
  s.broken = none ∧ core < s.cores.length ∧ (s.core core).accs[i]? = some a ∧ (s.core core).ready a = true ∧ s.thread? a.tid = some th ∧ s.ctx? (s.ctxOf a.tid.block) = some c

/-- The registers of the run are empty and await the access, with no fixed-latency write before it under way. -/
def Rule.awaited (s : State) (a : Access) (th : Thread) (n : Nat) : Prop :=
  a.tid.lane < 128 ∧ a.reg + n ≤ 256 ∧ ∀ j < n, sget s.fills (vkey th.home (a.reg + j) a.tid.lane) = BitVec.ofNat 64 a.id ∧
    s.writeInFlight (coreOf th.home) (.vec th.home (a.reg + j) a.tid.lane) = false

/-- No drain of the core completes with the access: each one has a store of its own that is still to be performed (R224). -/
def Rule.drainsStand (s : State) (core : Nat) (a : Access) : Prop :=
  ∀ d ∈ (s.core core).drains, ∃ b ∈ (s.core core).outstanding, b.id ≠ a.id ∧ b.opc = 0xA1 ∧ b.args = [d.id]

/-- FILL_ARRIVAL of LDL and ATOML and STORE_PERFORMED of STL: the load writes the value read, extended by its size, the atomic the old value and the new bytes of R190, the
store its bytes; no other byte and no other register changes (R51, R180, R185, R192). The model's own choices in this: log 15, 54, 58. -/
def Obligations.LocalAccessesPerformed : Prop :=
  (∀ (s : State) (core i : Nat) (a : Access) (th : Thread) (c : Ctx), Rule.ready s core i a th c → a.inLocal = true → a.opc = 0xA2 → Rule.drainsStand s core a →
    s.poisoned (localAt core a.off) a.bytes = false → s.placeTouches core a = false →
    let ws := sizeWords (Forms.low3 a.mod) (s.val (localAt core a.off) a.bytes)
    Rule.awaited s a th ws.length → ∃ t, exec (.fillArrival core i) s = .next t ∧ Rule.sameMemory s t ∧ Rule.filled s t th.home a.reg a.tid.lane ws ∧
      ∀ b ∈ (t.core core).accs, b.id ≠ a.id) ∧
  (∀ (s : State) (core i : Nat) (a : Access) (th : Thread) (c : Ctx), Rule.ready s core i a th c → a.inLocal = true → a.opc = 0xA3 → Rule.drainsStand s core a → core < 192 → a.off + a.bytes ≤ clusterBytes →
    ∃ t, exec (.storePerformed core i) s = .next t ∧ Rule.localStored s t core a.off (toLE a.bytes a.data.toNat) ∧ Rule.sameRegisters s t ∧
      ∀ b ∈ (t.core core).accs, b.id ≠ a.id) ∧
  (∀ (s : State) (core i : Nat) (a : Access) (th : Thread) (c : Ctx), Rule.ready s core i a th c → a.inLocal = true → a.opc = 0xA6 → Rule.drainsStand s core a → core < 192 → a.off + a.bytes ≤ clusterBytes →
    s.poisoned (localAt core a.off) a.bytes = false → s.placeTouches core a = false →
    let old := s.val (localAt core a.off) a.bytes
    let ws := sizeWords (if a.qual = 2 then 5 else 4) old
    Rule.awaited s a th ws.length → ∃ t, exec (.fillArrival core i) s = .next t ∧
      Rule.localStored s t core a.off (toLE a.bytes (atomNew (Forms.low3 a.mod) a.qual.toNat old (a.data.toNat % 2 ^ (8 * a.bytes)) a.cmp.toNat)) ∧
      Rule.filled s t th.home a.reg a.tid.lane ws) ∧
  (∀ v : Nat, sizeWords 0 v = [(BitVec.ofNat 8 v).setWidth 32] ∧ sizeWords 1 v = [(BitVec.ofNat 8 v).signExtend 32] ∧
    sizeWords 2 v = [(BitVec.ofNat 16 v).setWidth 32] ∧ sizeWords 3 v = [(BitVec.ofNat 16 v).signExtend 32] ∧ sizeWords 4 v = [BitVec.ofNat 32 v] ∧
    sizeWords 5 v = (List.range 2).map (fun i => BitVec.ofNat 32 (v / 2 ^ (32 * i))) ∧ sizeWords 6 v = (List.range 4).map fun i => BitVec.ofNat 32 (v / 2 ^ (32 * i))) ∧
  ∀ x y z : BitVec 32, let f := fun op q => BitVec.ofNat 32 (atomNew op q x.toNat y.toNat z.toNat)
    f 0 0 = x + y ∧ f 1 0 = (if x.ult y then x else y) ∧ f 1 1 = (if x.slt y then x else y) ∧ f 2 0 = (if x.ult y then y else x) ∧ f 2 1 = (if x.slt y then y else x) ∧
    f 3 0 = x &&& y ∧ f 4 0 = x ||| y ∧ f 5 0 = x ^^^ y ∧ f 6 0 = y ∧ f 7 0 = if x = y then z else x

/-- FILL_ARRIVAL and STORE_PERFORMED in device memory at home: a load at .cls or wider delivers the bytes at its home and a store first enters the store buffer,
then writes its bytes there and nowhere else; FENCE and FENCEX end when all that they need is settled, and one with .rmt or of several cores first asks the cores it
names; the requests of a fence reach a core. What other instructions left on the
core, or with the engine's ACCRD, moves on by the operation of its kind (R182 to R187, R193, R198 to R200, R298). The model's own choices in this: log 15, 22, 58, 82, 95. -/
def Obligations.AccessesPerformed : Prop :=
  (∀ (s : State) (core i : Nat) (a : Access) (th : Thread) (c : Ctx), Rule.ready s core i a th c → a.inLocal = false → s.vaultOff c a.obj = false → (s.core core).portHolds a = false →
    s.sideHit core a = none → Rule.drainsStand s core a →
    (∀ s1 old, a.opc = 0xA0 → 3 ≤ a.scope → a.qual = 1 → s.placeTouches core a = false → (s.core core).bufferAhead a = false → s.homeRead c a.obj a.off a.bytes = .ok s1 old false →
      let ws := sizeWords (Forms.low3 a.mod) (ofLE old)
      let t := (s.performAt core c a).settleDrains core
      Rule.awaited s a th ws.length → t.broken = none → exec (.fillArrival core i) s = .next t ∧ Rule.sameMemory s t ∧ Rule.filled s t th.home a.reg a.tid.lane ws) ∧
    (a.opc = 0xA1 → a.atBlk = false → ∃ t, exec (.storePerformed core i) s = .next t ∧ Rule.sameMemory s t ∧ Rule.sameRegisters s t ∧
      ∀ b ∈ (t.core core).accs, b.id = a.id → b.atBlk = true) ∧
    (∀ s1 old ue s2 p, a.opc = 0xA1 → a.atBlk = true → (s.core core).readyHome a = true → s.homeRead c a.obj a.off a.bytes = .ok s1 old ue →
      s1.beforeWrite c a.obj a.off a.bytes = some (s2, p) → p.exists_ a.bytes = true → s2.broken = none →
      ∃ t, exec (.storePerformed core i) s = .next t ∧ Rule.sameRegisters s2 t ∧ (∀ b ∈ (t.core core).accs, b.id ≠ a.id) ∧
        ∀ q : PAddr, t.byte q = if PAddr.same q p = true ∧ p.key ≤ q.key ∧ q.key < p.key + a.bytes then (toLE a.bytes a.data.toNat).getD (q.key - p.key) 0 else s2.byte q)) ∧
  (∀ (s : State) (core i : Nat) (a : Access), s.broken = none → (s.core core).accs[i]? = some a → a.isFence = true → s.readyFence core a = true → a.asked = [] →
    (¬(a.opc = 0xAC ∧ a.args = [0]) → ¬(a.opc = 0xAB ∧ a.args ≠ [] ∧ a.cmp = 0) → exec (.storePerformed core i) s = .next (s.endFence core a)) ∧
    (a.opc = 0xAB → a.args ≠ [] → a.cmp = 0 →
      let lines := (runsOf 2 a.args.length a.args).map fun l => (l.headD 0, l.getD 1 0)
      let asked := (dedup (lines.filterMap (s.releaserOf (s.ctxOf a.tid.block)))).map fun k => (k, 0)
      exec (.storePerformed core i) s = .next (s.setAccess core { a with cmp := 1, asked })) ∧
    (a.opc = 0xAC → a.args = [0] → exec (.storePerformed core i) s = .next
      (s.setAccess core { a with args := [1], asked := (scopeCores core a.scope).map fun k => (k, 0) }))) ∧
  (∀ (s : State) (core : Nat), s.broken = none → (∃ t, exec (.promotionRequest core) s = .next t ∧ Rule.sameMemory s t ∧ Rule.sameRegisters s t ∧
      ∀ k ∈ t.cores, ∀ a ∈ k.accs, a.opc = 0xAB → ∀ p ∈ a.asked, p.1 ≠ core) ∧
    ∃ t, exec (.serialisationRequest core) s = .next t ∧ Rule.sameMemory s t ∧ Rule.sameRegisters s t ∧
      ∀ k ∈ t.cores, ∀ a ∈ k.accs, a.opc = 0xAC → ∀ p ∈ a.asked, p.1 ≠ core) ∧
  (∀ (s : State) (core : Nat) (e : Entry) (es : List Entry), s.broken = none → (∀ c ∈ s.ctxs, c.heldRecords = []) → (s.core core).retries = e :: es →
    (s.core core).waits.length < 256 → exec (.waitTableRetry core) s = .next (s.modCore core fun k => { k with retries := es, accs := if e.acc.atBlk then e.acc :: k.accs else k.accs ++ [e.acc] })) ∧
  (∀ (s : State) (core i : Nat), (s.core core).accs[i]? = none → (s.deliverAccrd core).broken = none → exec (.fillArrival core i) s = .next (s.deliverAccrd core)) ∧
  (∀ (s : State) (core i : Nat) (a : Access) (th : Thread) (c : Ctx), Rule.ready s core i a th c →
    let t := (s.performAt core c a).settleDrains core
    (a.opc ∈ [0xA0#8, 0xA2, 0xA5, 0xA6, 0xDB, 0xE2] → t.broken = none → exec (.fillArrival core i) s = .next t) ∧
    (a.opc ∈ [0xA1#8, 0xA3, 0xA7, 0xDC, 0xE0, 0xE1, 0xE3] → t.broken = none → exec (.storePerformed core i) s = .next t) ∧
    (a.opc = 0xAA → (s.performPrefetch core c a).broken = none → exec (.storePerformed core i) s = .next (s.performPrefetch core c a)) ∧
    (a.opc = 0x76 → exec (.fillArrival core i) s = .next (s.performRdlane core a)) ∧
    (a.opc = 0x86 → (s.performSpawn core a).broken = none → exec (.storePerformed core i) s = .next (s.performSpawn core a)) ∧
    (a.opc = 0x96 → (s.performEnq core c a).broken = none → exec (.storePerformed core i) s = .next (s.performEnq core c a)) ∧
    (a.opc = 0xA8 ∨ a.opc = 0xA9 → (s.performMulticast core a).broken = none → exec (.storePerformed core i) s = .next (s.performMulticast core a))) ∧
  ∀ (s : State) (core i : Nat) (l : LdglCopy) (c : Ctx) (bs : List Byte), (s.core core).ldgl[i]? = some l → s.ctx? l.ctx = some c → l.park = none → l.bytes ≠ 0 →
    s.owed core l.id true 0 l.dst l.bytes = false → s.engineRead core c l.id l.obj (readFuel l.bytes) l.off l.bytes = .full bs →
    let w := ((s.rawWrite core 0 true 0 l.dst bs.length).engineStores core l.dst bs).copyPoison core c l.id (.dev l.obj l.off) (.loc l.dst) l.bytes
    let t := w.countBytes core l.barrier l.bytes
    let u := (t.1.setLdgl core { l with bytes := 0, overrun := !t.2 }).settleLdgl core l.id
    u.broken = none → exec (.ldglBytesWritten core i) s = .next u

/-- The Teller: HANDLE_GRANT makes FREE entries POOLED, up to 64 for a core beyond those that lanes of a waiting VDUP hold; RECLAMATION_SEQUENCE writes a dropped entry FREE with the next generation, or RETIRED
after 15, then frees the pages that no view covers; SHOOTDOWN replaces a core's copy by the entry, after what its own threads have issued, or removes it (R202, R203, R205, R316, R320, R321). The model's own choices in this: log 48, 84, 99. -/
def Obligations.TellerSteps : Prop :=
  (∀ (s : State) (core n ctx : Nat), s.clusterCtx core = some ctx →
    let t := s.grantHandles core ctx (min n (64 + (s.core core).claimed - ((s.core core).handlesOf ctx).length))
    t.broken = none → exec (.handleGrant core n) s = .next t) ∧
  (∀ (s : State) (core ctx i : Nat) (c : Ctx), s.ctx? ctx = some c → s.anyFree c = some i → core < s.cores.length → (c.viewAddr i).exists_ 32 = true →
    let t := s.grantHandles core ctx 1
    (s.viewEntry c i).state = 0 ∧ i ≠ 0 ∧ (t.viewEntry c i).state = 1 ∧ (t.core core).pool = (s.core core).pool ++ [(ctx, i)]) ∧
  (∀ (s : State) (i : Nat) (o : ViewOp) (c : Ctx), s.viewOps[i]? = some o → s.reclaimReady o = true → s.ctx? o.ctx = some c →
    (o.stage = 0 → let r := s.tellerWrite c o
      r.1.broken = none → exec (.reclamationSequence i) s = .next (r.1.setViewOp
        { o with stage := 1, cores := r.1.coresOf o.ctx o.index, waits := r.1.kept.flatMap fun k : Kept => k.through o.ctx o.index, pages := r.2 })) ∧
    (o.stage ≠ 0 → let r := s.freePages c o.pages
      r.1.broken = none → exec (.reclamationSequence i) s = .next
        (if r.2 = [] then r.1.endViewOp o
         else r.1.setViewOp { o with stage := 2, pages := r.2 }))) ∧
  (∀ (s : State) (c : Ctx) (o : ViewOp), (c.viewAddr o.index).exists_ 32 = true →
    let e := s.viewEntry c o.index
    let t := (s.tellerWrite c o).1
    e.state = 2 → e.gen = o.gen →
    (o.drop = true → (t.viewEntry c o.index).gen = (e.gen + 1) % 16 ∧ (t.viewEntry c o.index).state = if e.gen = 14 then 3 else 0) ∧
    (o.drop = false → e.low ≤ o.low → o.low ≤ o.high → o.high ≤ e.high → o.low < 2 ^ 40 → (t.viewEntry c o.index).low = o.low ∧ (t.viewEntry c o.index).high = o.high ∧
      (t.viewEntry c o.index).rights = e.rights &&& o.mask ∧ (t.viewEntry c o.index).state = 2)) ∧
  ∀ (s : State) (core i : Nat) (o : ViewOp) (c : Ctx), s.broken = none → core < s.cores.length → s.viewOps[i]? = some o → o.stage = 1 → core ∈ o.cores → s.ctx? o.ctx = some c →
    ∃ t, exec (.shootdown core i) s = .next t ∧ Rule.sameMemory s t ∧ Rule.sameRegisters s t ∧
      (∀ v ∈ (t.core core).views, v.ctx = o.ctx → v.index = o.index → (s.viewEntry c o.index).state = 2 ∧
        v = s.copyFor core ((s.viewEntry c o.index).cached o.ctx o.index) ∧
        ((∀ q ∈ s.viewOps, q.ctx = o.ctx → q.index = o.index → q.stage ≠ 0) → v = (s.viewEntry c o.index).cached o.ctx o.index)) ∧
      ∀ x ∈ t.viewOps, x.id = o.id → core ∉ x.cores

/-! ### Steps of the engines (R213 to R239, R266, R267, R328 to R338) -/

/-- The operation at the head of a core's engine, whose block and context stand (R213). -/
def Rule.atHead (s : State) (core : Nat) (o : EngineOp) (b : Block) (c : Ctx) : Prop :=
  s.broken = none ∧ s.discardOp core = none ∧ (∃ rest, (s.core core).engine = o :: rest) ∧ o.park = none ∧ s.block? o.block = some b ∧ s.ctx? o.ctx = some c

/-- The slice arithmetic of MMA on an INT32 region (R37), and the engine's steps: the operation at the head of the queue is performed; ACCZ zeroes its region; the row
instructions and ACCWR write the rows and registers of R222 and R226 to R228; an MMA adds its next slice while its context runs; the Mint drains row after row,
and the drain ends with row 127, or when its last store has been performed, and writes the scales it has chosen (R211, R213, R215, R218, R221 to R228). The model's own choices in this: log 19, 20, 34, 35, 59. -/
def Obligations.EngineSteps : Prop :=
  (∀ (af wf : Nat) (sc : List Word) (a w : List (List Nat)) (acc : List (List Word)) (i j : Nat), a.length = 128 → acc.length = 128 → w.length = 128 → i < 128 → j < 256 →
    (∀ r ∈ a, r.length = 128) → (∀ r ∈ acc, r.length = 256) →
    ((addSlice true af wf sc a w acc).getD i []).getD j 0 = (acc.getD i []).getD j 0 +
      BitVec.ofInt 32 ((List.range 128).map fun k => (BitVec.ofNat 8 ((a.getD i []).getD k 0)).toInt * (BitVec.ofNat 8 ((w.getD k []).getD j 0)).toInt).sum) ∧
  (∀ (s : State) (core : Nat) (o : EngineOp) (b : Block) (c : Ctx), Rule.atHead s core o b c → core < s.cores.length →
    (∀ a, o.kind = .accz a → o.hasty = false → ∃ t, exec (.engineOperationDone core) s = .next t ∧ Rule.sameMemory s t ∧ t.vregs = s.vregs ∧ t.uregs = s.uregs ∧ t.tiles = s.tiles ∧
      (∀ r ∈ t.regions, r.block = o.block → r.index = a → r.data = []) ∧ (∀ p ∈ (t.core core).engine, p.id ≠ o.id) ∧
      ∀ k r, (k, r) ≠ (o.block, a) → t.region? k r = s.region? k r) ∧
    (∀ fmt slot lo hi, o.kind = .wload fmt slot lo hi → (s.doWload core b o fmt slot lo hi).broken = none →
      exec (.engineOperationDone core) s = .next (s.doWload core b o fmt slot lo hi)) ∧
    (∀ a src, o.kind = .accld a src → (s.doAccld core c o a src).broken = none → exec (.engineOperationDone core) s = .next (s.doAccld core c o a src)) ∧
    (∀ a m k rows, o.kind = .accwr a m k rows →
      let new := ((s.regionRows (s.regionAt o.block a)).zip rows).map fun p => p.1.take k ++ p.2 ++ p.1.drop (k + m)
      exec (.engineOperationDone core) s = .next (s.doRows core o a [] [] (some new))) ∧
    (∀ a mask run d old regs, o.kind = .rowmax a mask run d old regs →
      let vals := (s.numbered o.block a).map fun p =>
        let m := rowLargest mask p.1 (d.getD p.1 0) p.2
        BitVec.ofNat 32 (if run = true then (fp32.pick true (old.getD p.1 0).toNat m).1 else m)
      exec (.engineOperationDone core) s = .next (s.doRows core o a regs vals none)) ∧
    (∀ a mask m k d regs, o.kind = .rowexp a mask m k d regs →
      let new := (s.numbered o.block a).map fun p => expRow mask p.1 (m.getD p.1 0) (k.getD p.1 0) (d.getD p.1 0) p.2
      exec (.engineOperationDone core) s = .next (s.doRows core o a regs (new.map rowSum) (some (new.map fun r => r.map (BitVec.ofNat 32))))) ∧
    (∀ a form f g k regs, o.kind = .rowsc a form f g k regs →
      let fs := (List.range 128).map fun i => if form = 2 then xfFactor (f.getD i 0) (g.getD i 0) (k.getD i 0) else f.getD i 0
      let new := (s.numbered o.block a).map fun p => p.2.map fun x => scaleElem form x (fs.getD p.1 0)
      exec (.engineOperationDone core) s = .next (s.doRows core o a regs fs (some new))) ∧
    (∀ region aFmt wFmt n pk a w, o.kind = .mma region aFmt wFmt n pk a w → c.runs = true → b.frozen = false → (s.core core).idleSlices = 0 →
      let t := s.mmaSlice core b c o region aFmt wFmt n pk a w true
      t.broken = none → exec (.mmaSlice core) s = .next t) ∧
    ∀ i32 a fmt mode pk auto scales regs dst i t, o.kind = .accdr i32 a fmt mode pk auto scales regs dst i → c.runs = true → b.frozen = false →
      let xs := ((s.regionRows (s.regionAt o.block a)).getD i []).map (regionFl i32)
      let q := if auto = false then scales.getD i 0 else if o.raced = true then Config.freeWord s.tick i else autoScale fmt xs
      s.drainRow core c o fmt pk dst i (o.rowOut s.tick (mintRow fmt mode pk xs q)) = some (.ok t) →
      let u := t.spoil core o a
      let got := if auto = true then scales.take i ++ [q] else scales
      let p := { o with kind := .accdr i32 a fmt mode pk auto got regs dst (i + 1) }
      u.broken = none →
      (i < 127 → exec (.accdrRow core) s = .next (u.setOp core p)) ∧
      (127 ≤ i → (u.core core).drainBusy o.id = true →
        exec (.accdrRow core) s = .next ((u.dropOp core o.id).modCore core fun k => { k with drains := k.drains ++ [p] })) ∧
      (127 ≤ i → (u.core core).drainBusy o.id = false →
        exec (.accdrRow core) s = .next (((if auto = true then (u.dropOp core o.id).putLanes o regs got else u.dropOp core o.id).complete o.lanes o.flag)))) ∧
  ∀ (s : State) (core i : Nat) (b : Batch) (k : Block) (c : Ctx), (s.core core).batches[i]? = some b → s.block? b.block = some k → s.ctx? b.ctx = some c →
    s.blockCancelled b.block = false → b.park = none →
    (c.runs = true ∧ k.frozen = false ∨ (c.state = .running ∨ c.state = .preempting) ∧ b.atEdge = false) → (s.core core).batchBusy b.id = false →
    let go : State → Prop := fun t => t.broken = none → exec (.copyRequest core i) s = .next t
    (0 < b.sent → go (s.copied core k b (copyReq b.cur) (b.dst.shift (b.row * (copyReq b.cur).dpitch)) (b.len.getD 0) b.sent)) ∧
    (b.sent = 0 → b.cur ≠ [] → go (s.copyPiece core k c b)) ∧
    (b.sent = 0 → b.cur = [] → b.count ≤ b.next → go (s.endBatch core b)) ∧
    (b.sent = 0 → b.cur = [] → b.next < b.count → go (s.beginRequest core k c b))

/-- Steps of the Orrery and of a block's start: TDSET_DONE ends the loading of a tile and clears the flag; a pass step of a PLACE moves its elements and is counted once its stores to peers
are performed, or, after the last pass, the PLACE
leaves the cursor 0 in tD and clears the flag; the prologue writes one binding's bytes at its place in the block's local memory, and after the last the home groups
start (R214, R232, R266, R267, R330 to R333). The model's own choices in this: log 15, 16, 32, 33, 34. -/
def Obligations.PlacementSteps : Prop :=
  (∀ (s : State) (b : BlockKey) (g tile : Nat) (x : Group) (l : Nat × Option Nat), s.broken = none → s.group? b g = some x →
    x.loading.find? (fun l => l.1 == tile) = some l → ∃ t, exec (.tdsetDone b g tile) s = .next t ∧ t.tileLoading b g tile = false ∧
      Rule.sameMemory s t ∧ Rule.sameRegisters s t ∧
      t.threads = (s.complete (((s.groupThreads b g).filter fun th => th.alive).map (·.tid)) l.2).threads) ∧
  (∀ (s : State) (i : Nat) (o : PlaceOp) (b : Block) (c : Ctx), s.broken = none → s.places[i]? = some o → s.block? o.block = some b → s.ctx? o.ctx = some c →
    s.blockCancelled o.block = false → o.park = none → c.runs = true → b.frozen = false → s.unitsOff = false → (∀ x ∈ o.objs, s.vaultOff c x.2 = false) → (∀ r ∈ s.requests, r.id = o.id → r.refused = false) →
    (o.passes[o.pass]? = none → (s.core b.core).placeBusy o.id = false → (s.finishPlace c o).broken = none → exec (.placePassStep i) s = .next (s.finishPlace c o)) ∧
    (o.passes[o.pass]? = none → (s.core b.core).placeBusy o.id = false → o.setDesc = none → (s.endSpans o).broken = none → ∃ t, exec (.placePassStep i) s = .next t ∧
      (∀ p ∈ t.places, p.id ≠ o.id) ∧ (o.tD = o.tS → o.dirty = false → Rule.sameMemory s t ∧ t.vregs = s.vregs) ∧ ∀ g, s.group? o.block o.group = some g → sgetN t.tiles (tkey g.home o.tD 0x50) 16 = zeros 16) ∧
    (∀ p, o.passes[o.pass]? = some p → o.made = true → (s.core b.core).placeBusy o.id = false → exec (.placePassStep i) s = .next (s.afterStep o p)) ∧
    (∀ p t, o.passes[o.pass]? = some p → o.made = false → s.placeStep b c o p = .ok t → t.broken = none → (t.core b.core).placeBusy o.id = true →
      exec (.placePassStep i) s = .next (t.stepMade o.id)) ∧
    (∀ p t q, o.passes[o.pass]? = some p → o.made = false → s.placeStep b c o p = .ok t → t.broken = none → (t.core b.core).placeBusy o.id = false →
      t.places.find? (fun q => q.id == o.id) = some q → exec (.placePassStep i) s = .next (t.afterStep o p) ∧
      (q.lastStep p = false →
        let q' := { q with step := q.step + 1, made := false }
        t.afterStep o p = (((({ t with fetched := t.fetched.filter fun x => x.id % 2 ^ 120 != q.id }).setPlace q').putCursor q' (q'.cursor 1)).retarget q' false)))) ∧
  (∀ (s : State) (key : BlockKey) (b : Block) (i : Nat) (l : Launch) (c : Ctx) (r bs : List Byte), s.block? key = some b → b.phase = .prologue i none → s.launchOf key = some l →
    s.ctx? b.ctx = some c → i < l.header.bindings → b.spawned = none → c.runs = true → l.header.binds[i]? = some r →
    s.bindBytes b c l.args r = .ok (.full bs) →
    let t := s.storeLocal b.core (b.localBase + field r 4 4) bs
    t.broken = none → exec (.prologue key) s =
      .next ({ t with fetched := t.fetched.filter fun x => x.id != prologueId key }.modBlock key fun b => { b with phase := .prologue (i + 1) none })) ∧
  ∀ (s : State) (key : BlockKey) (b : Block) (i : Nat), s.broken = none → s.block? key = some b → b.phase = .prologue i none →
    (((s.headerOf key).map (·.bindings)).getD 0 ≤ i ∨ b.spawned ≠ none → exec (.blockStart key) s = .next (s.modBlock key fun b => { b with phase := .running })) ∧
    (i < ((s.headerOf key).map (·.bindings)).getD 0 → b.spawned = none → exec (.blockStart key) s = .next s)

/-! ### Queues, launches and blocks (R252 to R272) -/

/-- Queue `i` has its turn: it is ACTIVE, the record `r` stands at its head, `t` is what R255 and R257 decide about it, and no queue comes before it. -/
def Rule.atTurn (s : State) (i : Nat) (c : Ctx) (q : Queue) (head : Nat) (r : List Byte) (t : Take) : Prop :=
  s.headOf i = some (c, q, head, r, t) ∧ q.state = .active ∧ s.queueTurn i = true

/-- The step that takes a record, by the record's kind. -/
def Rule.taker (i : Nat) (r : List Byte) : Instr :=
  match field r 0 1 with
  | 2 => .wait i
  | 3 => .signal i
  | 4 => .prefetch i
  | 5 => .graph i
  | _ => .launch i

/-- The effect of a record before its head moves on: a launch is taken, WAIT has none, SIGNAL adds to its target at its home, by a request where that is a peer
(R257). -/
def Rule.effect (s : State) (i : Nat) (c : Ctx) (q : Queue) (head : Nat) (r : List Byte) : Option State :=
  match field r 0 1 with
  | 1 => s.addLaunch c i q head r [] (0, 0, 0) none
  | 2 => some s
  | _ => match s.ptrPeer c (recPtr r 8) with
    | some (d, obj, off) =>
      let t := s.unitSend s.nextId (signalPacket c.num obj off d (field r 0x10 8))
      some { t with nextId := t.nextId + 1 }
    | none => (s.ptrRead c (recPtr r 8) 8).bind fun old => s.ptrWrite c (recPtr r 8) (toLE 8 (ofLE old + field r 0x10 8))

/-- After a record is taken: a queue that took a WAIT starts its next launch with an acquire (R257), and what was read of a peer is read again for the next record. -/
def Rule.afterTake (i : Nat) (c : Ctx) (r : List Byte) (w : State) : State :=
  let w := if field r 0 1 = 2 then w.modQueue i fun x => { x with waited := true } else w
  (w.refreshQueue i).unitForget c.num

/-- Queues: a record that passes its checks is taken with its effect, the queue's head moves on, and a bad one leaves the queue in ERROR with the code and detail of
R255; a queue registers, resets, drains, is disabled and enabled again only from the states that R259 allows (R252 to R259). The model's own choices in this: log 44, 57, 85, 97, 98. -/
def Obligations.QueueSteps : Prop :=
  (∀ (s : State) (i : Nat) (c : Ctx) (q : Queue) (head : Nat) (r : List Byte),
    let u := s.refreshQueue i
    (Rule.atTurn u i c q head r .yes → field r 0 1 = 1 ∨ field r 0 1 = 2 ∨ field r 0 1 = 3 → ∀ v w, Rule.effect u i c q head r = some v →
      v.took c i q head 1 = some w → (Rule.afterTake i c r w).broken = none → exec (Rule.taker i r) s = .next (Rule.afterTake i c r w)) ∧
    (Rule.atTurn u i c q head r .yes → field r 0 1 = 4 → ∀ w,
      u.unitBad c (u.prefetchPages c r).1 (ptrOffset (recPtr r 8)) (field r 0x10 8) = false →
      let p := u.prefetchPages c r
      let v := (p.2.filter fun x => x.2 == 0).foldl (fun (t : State) x =>
        if t.prefetched.contains (c.num, p.1, x.1) then t
        else
          let t := t.faultRecord c.num (mkRecord 5 0xFF 0 0 0 p.1 x.1 0 0 0xFFFF 0 0)
          { t with prefetched := (c.num, p.1, x.1) :: t.prefetched }) u
      v.took c i q head 1 = some w → (Rule.afterTake i c r w).broken = none → exec (.prefetch i) s = .next (Rule.afterTake i c r w)) ∧
    (Rule.atTurn u i c q head r .yes → field r 0 1 = 5 → ∀ ms v1 v2 v3 v4 w, u.members? c q head (field r 4 4) = some ms →
      let g := recPtr r 8
      let ph := recPtr r 0x10
      let jb := recPtr r 0x18
      u.openCounter c jb 0 = some v1 → v1.openCounter c ph jb = some v2 → v2.openCounter c g (if ph = 0 then jb else ph) = some v3 →
      let v := v3.modCtx c.num fun c =>
        { c with
          graphs := nameOnce (v3.placeOf c g) c.graphs
          phases := nameOnce (v3.placeOf c ph) c.phases
          jobs := nameOnce (v3.placeOf c jb) c.jobs }
      v.addMembers c i q head (g, ph, jb) (v.placeOf c g) [] ms = some v4 → v4.took c i q head (1 + field r 4 4) = some w →
      let x := if u.cancelledAt c ph = true ∨ u.cancelledAt c jb = true then ((w.placeOf c g).map fun a => w.cancelAt c.num a).getD w else w
      (Rule.afterTake i c r x).broken = none → exec (.graph i) s = .next (Rule.afterTake i c r x)) ∧
    (u.headOf i = some (c, q, head, r, .no) → (u.queueWaits c q).broken = none → exec (Rule.taker i r) s = .next (u.queueWaits c q)) ∧
    ∀ code detail bad, Rule.atTurn u i c q head r (.bad code detail bad) →
      (∀ v, u.failQueue c i q head code detail bad = some v → (v.unitForget c.num).broken = none → exec (Rule.taker i r) s = .next (v.unitForget c.num)) ∧
      (u.failQueue c i q head code detail bad = none → let v := u.ptrWaits c (recPtr bad 0x18) 16
        v.broken = none → exec (Rule.taker i r) s = .next v)) ∧
  (∀ (s : State) (i : Nat) (c : Ctx) (q : Queue) (head code detail : Nat) (bad : List Byte) (t : State), s.queue? i = some q →
    s.failQueue c i q head code detail bad = some t → ∃ x, t.queue? i = some x ∧ x.state = .error ∧ x.atHead = true) ∧
  (∀ (s : State) (ctx : Nat) (ptr : BitVec 64), s.mailOpen = true → s.broken = none →
    (∀ c obj off, s.queueUnread ctx ptr = some (c, obj, off) →
      let t := ({ s with registering := s.registering ++ [(ctx, ptr, false)] } : State).unitWaits c obj off 128
      t.broken = none → exec (.registerQueue ctx ptr) s = .next t) ∧
    (s.queueUnread ctx ptr = none → (∀ t, s.addQueue ctx ptr = some t → t.broken = none → exec (.registerQueue ctx ptr) s = .next (t.reply .ok)) ∧
      (s.addQueue ctx ptr = none → exec (.registerQueue ctx ptr) s = .next (s.reply .badState)))) ∧
  (∀ (s : State) (i : Nat) (q : Queue) (st : QueueState), s.queue? i = some q → ∃ q', (s.setQueueState i st).queue? i = some q' ∧ q'.state = st ∧ q'.ring = q.ring) ∧
  (∀ (s : State) (i : Nat) (q : Queue), s.broken = none → s.mailOpen = true → s.queue? i = some q →
    let heads := fun (t : State) => t.modQueue i fun x => { x with atHead := false }
    (∀ skip, q.state = .error → skip = false ∨ q.atHead = false → (s.setQueueState i (s.idleState q)).broken = none → exec (.reset i skip) s = .next ((heads (s.setQueueState i (s.idleState q))).reply .ok)) ∧
    (q.state ≠ .error → ∀ skip, exec (.reset i skip) s = .next (s.reply .badState)) ∧
    (∀ c t, q.state = .error → q.atHead = true → s.ctx? q.ctx = some c → s.qPut c q 0x18 4 (((s.qField c q 0x18 4).getD 0 + 1) % 2 ^ 32) = some t →
      (t.setQueueState i (t.idleState q)).broken = none → exec (.reset i true) s = .next ((heads (t.setQueueState i (t.idleState q))).reply .ok)) ∧
    (q.state ≠ .draining → q.state ≠ .disabled → (s.setQueueState i .draining).broken = none → exec (.disable i) s = .next ((s.setQueueState i .draining).reply .ok)) ∧
    (q.state = .draining ∨ q.state = .disabled → exec (.disable i) s = .next (s.reply .badState)) ∧
    (q.state = .disabled → (s.setQueueState i (s.idleState q)).broken = none → exec (.enable i) s = .next ((s.setQueueState i (s.idleState q)).reply .ok)) ∧
    (q.state ≠ .disabled → exec (.enable i) s = .next (s.reply .badState)) ∧
    ∀ c x, s.ctx? q.ctx = some c →
      let u := s.settleMarked c s.counters.length
      u.queue? i = some x →
        (x.state = .draining → u.queueSettled i = true → (u.setQueueState i .disabled).broken = none → exec (.queueDrained i) s = .next (u.setQueueState i .disabled)) ∧
        (x.state ≠ .draining ∨ u.queueSettled i = false → u.broken = none → exec (.queueDrained i) s = .next u))

/-- Blocks: the launch first in order places its next blocks where they fit; one whose predecessor did not complete is cancelled; a gang that fits nowhere begins to wait, reserves a
cluster after 2^20 cycles, and 2^24 cycles later the blocks whose removal is needed are evicted, or the launch is rejected; an evicted block is saved with its gang at their
boundaries; an ended block's units return and its counter decreases; continuation records of one entry are released after 4096 cycles (R154, R257, R260, R263 to R265, R268, R271). The model's own choices in this: log 42, 45, 46, 85. -/
def Obligations.BlockSteps : Prop :=
  (∀ (s : State) (n : Nat) (l : Launch),
    let u := s.pay n
    u.launch? n = some l → u.broken = none →
    let lost := l.preds.any fun p => u.launches.any fun x => x.num == p && x.settled && x.code != 1
    (lost = true → (u.cancelLaunch n).broken = none → exec (.blockPlace n) s = .next (u.cancelLaunch n)) ∧
    (lost = false → (∀ b ∈ u.blocks, u.endDue b = false) →
      (u.gangStuck l = true → l.gangWait = none → exec (.blockPlace n) s = .next (u.modLaunch n fun l => { l with gangWait := some u.now })) ∧
      ∀ x p, (u.gangStuck l = false ∨ l.gangWait ≠ none) → u.nextPlacing = some (x, p) → x.num = n → (u.place x p).broken = none →
        exec (.blockPlace n) s = .next (u.place x p))) ∧
  (∀ (s : State) (n t0 : Nat) (l : Launch), s.broken = none → s.launch? n = some l → l.gangWait = some t0 → s.gangStuck l = true →
    (∀ b ∈ s.blocks, s.endDue b = false) →
    (l.drain = none → t0 + 2 ^ 20 ≤ s.now → ∀ cl,
      maxBy (fun cl => s.clusterUnits cl (l.header.shape l.ctx l.num l.gangNumber).limiting)
        ((List.range 48).filter fun cl => (s.reservedFor cl).isNone && !s.quarterClosed (cl / 12) && !s.coreBroken (4 * cl)) = some cl →
      exec (.drainClusterReserve n) s = .next (s.modLaunch n fun l => { l with drain := some cl })) ∧
    (l.drain = none → s.now < t0 + 2 ^ 20 → exec (.drainClusterReserve n) s = .next s) ∧
    ∀ cl, l.drain = some cl → t0 + 2 ^ 20 + 2 ^ 24 ≤ s.now →
      let here := s.blocks.filter fun b => clusterOf b.core == cl
      let loose := (here.filter fun b => !s.persistent b).map (·.key)
      (s.fitsWithout l cl (here.map (·.key)) = false → exec (.gangEvictDecision n) s = .next s) ∧
      (s.fitsWithout l cl (here.map (·.key)) = true → s.fitsWithout l cl loose = true →
        let t := s.evictBlocks (here.filter fun b => (s.needed l cl loose ((here.filter s.evictable).map (·.key))).contains b.key)
        t.broken = none → exec (.gangEvictDecision n) s = .next t) ∧
      (s.fitsWithout l cl (here.map (·.key)) = true → s.fitsWithout l cl loose = false →
        let t := (s.discardRest l .rejected (4, l.header.gang)).rejectQueue l 4 l.header.gang
        t.broken = none → exec (.gangEvictDecision n) s = .next t)) ∧
  (∀ (s : State) (key : BlockKey) (b : Block) (c : Ctx), s.broken = none → s.block? key = some b → s.ctx? b.ctx = some c → b.phase = .evicting → s.endDue b = false →
    c.state = .running → c.fault = none →
    let bs := (s.gangOf b).filter fun x => !s.endDue x
    (∀ x ∈ bs, x.phase = .evicting ∧ s.quiet x true = true) →
    (∀ t, s.saveBlocks c bs true = some t → let u := (t.discardEvicted key.launch (bs.map (·.key))).settleRunning b.ctx
      u.broken = none → exec (.blockEvictionDone key) s = .next u) ∧
    (s.saveBlocks c bs true = none → exec (.blockEvictionDone key) s = .next
      { s with blocks := s.blocks.map fun x => if (bs.any fun y => y.key == x.key) = true then { x with phase := .running } else x })) ∧
  (∀ (s : State) (key : BlockKey) (b : Block), s.block? key = some b → s.endDue b = true →
    let u := ((s.removeBlock b).endBoxes b).forgetCode
    let v := u.modLaunch key.launch fun l =>
      let l := match b.phase with
        | .abandoned c => { l with verdict := some (l.verdict.getD (6, c.toNat)) }
        | _ => l
      if l.state = .running ∧ (u.blocks.any fun x => x.key.launch == l.num) = false ∧ (u.kept.any fun k => k.block.key.launch == l.num) = false ∧
          !(l.open_.isEmpty && l.ready.isEmpty) then { l with state := .draining } else l
    let t := ((v.owe key.launch 1).pay key.launch).settleRunning b.ctx
    (∀ k ∈ u.blocks, k.key ≠ key) ∧ (∀ th ∈ u.threads, th.tid.block ≠ key) ∧ (t.broken = none → exec (.blockEnd key) s = .next t)) ∧
  ∀ (s : State) (n entry : Nat) (l : Launch) (g : Nat × Nat × List (List Word)), s.broken = none → s.launch? n = some l → l.open_.find? (fun g => g.1 == entry) = some g →
    (g.2.1 + 4096 ≤ s.now → (s.releaseGroup n entry).broken = none → exec (.continuationGroupTimeout n entry) s = .next (s.releaseGroup n entry)) ∧
    (s.now < g.2.1 + 4096 → exec (.continuationGroupTimeout n entry) s = .next s)

/-! ### Contexts, views and pages (R242 to R251, R317, R339, R347 to R350) -/

/-- Commands on contexts: each is accepted in the states that R247 allows it in and in no other, where the answer is BADSTATE; a save is written when every core has come to
its boundaries, a context fault follows the save, and a restore needs a sound image and room (R242, R246 to R250). The model's own choices in this: log 38, 39, 40, 41, 43. -/
def Obligations.ContextSteps : Prop :=
  (∀ (s : State) (q a : Nat) (c : Ctx), s.broken = none → s.mailOpen = true → q ∉ s.gated → (PAddr.vault q a).exists_ 128 = true → readContext q a (s.bytes (.vault q a) 128) = some c →
    let others := s.ctxs.filter fun x => x.num != c.num
    let fits := 2 * (((others.filter fun x => x.state != .destroyed).map (·.viewEntries)).sum + c.viewEntries) ≤ 2 ^ 23
    let t := ({ s with ctxs := others ++ [c], torn := s.torn.filter (fun t => t.1 != c.num), oldViews := s.oldViews.filter fun v => v.1 != c.num }).setCtxState c.num .created
    ((∃ x ∈ s.ctxs, x.num = c.num ∧ x.state ≠ .destroyed) → exec (.registerContext q a) s = .next (s.reply .badState)) ∧
    ((∀ x ∈ s.ctxs, x.num = c.num → x.state = .destroyed) → ¬fits → exec (.registerContext q a) s = .next (s.reply .noSpace)) ∧
    ((∀ x ∈ s.ctxs, x.num = c.num → x.state = .destroyed) → fits → t.broken = none → exec (.registerContext q a) s = .next (t.reply .ok))) ∧
  (∀ (s : State) (q a : Nat), s.broken = none → s.mailOpen = true → (q ∈ s.gated ∨ (PAddr.vault q a).exists_ 128 = false ∨ readContext q a (s.bytes (.vault q a) 128) = none) →
    exec (.registerContext q a) s = .next (s.reply .badState)) ∧
  (∀ (s : State) (ctx : Nat) (c : Ctx), s.broken = none → s.mailOpen = true → s.ctx? ctx = some c →
    let b := s.blocksOf ctx
    (c.state ≠ .created → exec (.start ctx) s = .next (s.reply .badState)) ∧
    (c.state = .created → let t := (s.modCtx ctx fun c => { c with confKey := s.confidential c }).setCtxState ctx .runnable
      t.broken = none → exec (.start ctx) s = .next (t.reply .ok)) ∧
    (c.state = .running → (s.setCtxState ctx .preempting).broken = none → exec (.preempt ctx) s = .next ((s.setCtxState ctx .preempting).reply .ok)) ∧
    (c.state = .runnable → ∀ t, s.saveBlocks c [] false = some t → ((t.dropCaches c).setCtxState ctx .saved).broken = none →
      exec (.preempt ctx) s = .next (((t.dropCaches c).setCtxState ctx .saved).reply .ok)) ∧
    (c.state ≠ .running → c.state ≠ .runnable → exec (.preempt ctx) s = .next (s.reply .badState)) ∧
    (c.state = .preempting → c.fault = none → (∀ x ∈ b, s.quiet x true = true) → ∀ t, s.saveBlocks c b false = some t →
      let v := ((t.dropCaches c).modCtx ctx fun c => { c with dump := c.dump.map fun d => { d with armed := true } }).setCtxState ctx .saved
      let w := if c.dump = none then v else v.reply (.report (v.threadNames ctx))
      v.broken = none → exec (.preemptSaveDone ctx) s = .next w) ∧
    (∀ img t, c.fault = some img → c.state ≠ .faulted → c.state ≠ .destroyed → (∀ x ∈ b, s.quiet x false = true) → s.saveBlocks c b false = some t →
      let w := (t.dropCaches c).raiseFault c img (s.faultThread img)
      w.broken = none → exec (.contextFault ctx) s = .next w) ∧
    (∀ (img : FaultImage) (lane : Nat) (th : Tid), img.names = [(lane, th)] → s.faultThread img = threadIndex th) ∧
    (∀ img : FaultImage, img.names = [] → s.faultThread img = 0xFFFF) ∧
    (c.state = .saved → exec (.resume ctx) s = .next ((s.modCtx ctx fun c => { c with resuming := true }).reply .ok)) ∧
    (c.state ≠ .saved → exec (.resume ctx) s = .next (s.reply .badState)) ∧
    (c.state = .saved → c.resuming = true → c.fault = none → (∀ x ∈ s.blocks, s.endDue x = false) →
      let ks := sortKept (s.kept.filter fun k => k.block.ctx == ctx && !k.evicted)
      (∀ sps, s.saveHeaderOk c = true → (∀ k ∈ ks, s.areaOk c k = true) → s.restoreSpots [] ks.length ks = some sps → s.rangesFit ks sps = true →
        let t := (((s.restoreAll c ks sps).modCtx ctx fun c => { c with resuming := false }).setCtxState ctx .running).settleRunning ctx
        t.broken = none → exec (.restoreDone ctx) s = .next t) ∧
      (s.saveHeaderOk c = false ∨ (ks.all fun k => s.areaOk c k) = false → let t := s.raiseFault c { reason := reasonRestoreBad } 0xFFFF
        t.broken = none → exec (.restoreDone ctx) s = .next t)) ∧
    (c.state ≠ .destroyed → (s.destroyCtx c).broken = none → exec (.destroy ctx) s = .next ((s.destroyCtx c).reply .ok)) ∧
    (c.state = .destroyed → exec (.destroy ctx) s = .next (s.reply .badState))) ∧
  ∀ (s : State) (ctx : Nat) (c : Ctx) (st : CtxState), s.ctx? ctx = some c → ∃ d, (s.setCtxState ctx st).ctx? ctx = some d ∧ d.state = st ∧ d.num = c.num ∧ d.fault = c.fault

/-- VIEWROOT makes a FREE entry LIVE and answers its pointer, VIEWRECYCLE a RETIRED one FREE with generation 0, each refused as R317 says. Pages: the fill engine takes the commands of its ring, and holds one only behind an earlier one for its page; an accepted FILL makes its leaf FILLING, an
accepted EVICT EVICTING; at its end a fill is RESIDENT, or ABSENT again with the detail of its failure, and an eviction ABSENT, or RESIDENT again; a soft
error is corrected or leaves a poisoned word; a lost frame is POISONED (R317, R339, R347 to R350). The model's own choices in this: log 61, 62, 63, 64. -/
def Obligations.ViewAndPageSteps : Prop :=
  (∀ (s : State) (ctx obj low high : Nat) (rights : BitVec 8) (c : Ctx) (o : ObjEntry), s.broken = none → s.mailOpen = true → s.liveCtx ctx = some c → s.object? c obj = some o →
    (high < low ∨ 2 ^ 40 < high ∨ 15 < rights.toNat → exec (.viewroot ctx obj low high rights) s = .next (s.reply .badArg)) ∧
    (low ≤ high → high ≤ 2 ^ 40 → rights.toNat ≤ 15 → (s.anyFree c = none → exec (.viewroot ctx obj low high rights) s = .next (s.reply .noSpace)) ∧
      ∀ i, s.anyFree c = some i → (c.viewAddr i).exists_ 32 = true → obj < 2 ^ 24 → ∃ t, exec (.viewroot ctx obj low high rights) s = .next t ∧
        t.replies = s.replies ++ [.pointer (mkPtr i (s.viewEntry c i).gen low)] ∧
        t.viewEntry c i = { obj, rights := rights.setWidth 4, held := o.held, gen := (s.viewEntry c i).gen, state := 2, low, high })) ∧
  (∀ (s : State) (ctx i : Nat) (c : Ctx), s.broken = none → s.mailOpen = true → s.liveCtx ctx = some c →
    (i = 0 ∨ c.viewEntries ≤ i ∨ (s.viewEntry c i).state ≠ 3 → exec (.viewrecycle ctx i) s = .next (s.reply .badState)) ∧
    (i ≠ 0 → i < c.viewEntries → (s.viewEntry c i).state = 3 → (c.viewAddr i).exists_ 32 = true → ∃ t, exec (.viewrecycle ctx i) s = .next t ∧ t.replies = s.replies ++ [.ok] ∧
      (t.viewEntry c i).state = 0 ∧ (t.viewEntry c i).gen = 0)) ∧
  (∀ (s : State) (ctx : Nat) (ptr : BitVec 64), s.mailOpen = true → (s.pageRing ≠ none → s.broken = none → exec (.pagering ctx ptr) s = .next (s.reply .badState)) ∧
    ∀ t, s.pageRing = none → s.queueUnread ctx ptr = none → s.addQueue ctx ptr = some t → t.broken = none → exec (.pagering ctx ptr) s = .next ({ t with pageRing := some s.queues.length }.reply .ok)) ∧
  (∀ (s : State) (i head : Nat) (q : Queue) (c : Ctx) (r : List Byte), s.pageRing = some i → (∀ p ∈ s.pageOps, p.waiting = false) →
    let u := s.refreshQueue i
    u.queue? i = some q → u.liveCtx q.ctx = some c → q.state = .active → u.qField c q 0x18 4 = some head → u.recordAt c q head = some r →
    let p := parsePage c.num r
    let step := if p.evict then Instr.evict else Instr.fill
    (u.pageCheck c r ≠ 0 → ∀ v, u.failQueue c i q head 5 (u.pageCheck c r) [] = some v → v.broken = none → exec step s = .next v) ∧
    (u.pageCheck c r = 0 → ∀ v, u.qPut c q 0x18 4 ((head + 1) % 2 ^ 32) = some v →
      let t := ({ v with pageOps := v.pageOps ++ [{ p with waiting := true }] }).refreshQueue i
      let n := t.pageOps.length - 1
      let w := (t.startWaiting p.evict n).getD t
      w.broken = none → exec step s = .next w)) ∧
  (∀ (s : State) (i : Nat) (p : PageOp), s.pageOps[i]? = some p → p.waiting = true →
    let go := ({ s with pageOps := eraseAt s.pageOps i }).startPage { p with waiting := false }
    s.startWaiting p.evict i = (if s.pageBusy (s.pageOps.take i) p = true then none else go) ∧
    ((∀ j < i, s.startWaiting p.evict j = none) → s.pageBusy (s.pageOps.take i) p = false → ∀ t, go = some t → t.broken = none →
      exec (if p.evict then .evict else .fill) s = .next t)) ∧
  (∀ (s : State) (p : PageOp) (c : Ctx) (o : ObjEntry) (l : Leaf), s.pageLeaf p = some (c, o, l) → l.refuses p = 0 → s.startPage p = some (s.beginPage p l) ∧
    (s.beginPage p l).pageOps = s.pageOps ++ [p]) ∧
  (∀ (s : State) (i : Nat) (p : PageOp) (c : Ctx) (o : ObjEntry) (l : Leaf), s.broken = none → s.pageOps[i]? = some p → p.waiting = false → s.pageLeaf p = some (c, o, l) →
    let absent := l.entry.set 0 l.entry.frame false false
    let f := s.fillFrame p o l
    (p.evict = false → f.2 = 0 → let t := ((f.1.freeOpen c o p.obj l).endPage i p c l (l.entry.set 2 l.entry.frame false (p.mode == 2)) 1 0).registerAgain
      t.broken = none → exec (.fillDone i) s = .next t) ∧
    (p.evict = false → f.2 ≠ 0 → (s.endPage i p c l absent 6 f.2).broken = none → exec (.fillDone i) s = .next (s.endPage i p c l absent 6 f.2)) ∧
    (p.evict = true → p.mode % 2 = 0 → (s.endPage i p c l absent 1 0).broken = none → exec (.evictionDone i) s = .next (s.endPage i p c l absent 1 0)) ∧
    (p.evict = true → p.mode % 2 = 1 → s.poolGranted p.source l.size = false →
      let t := s.endPage i p c l (l.entry.set 2 l.entry.frame l.entry.dirty l.entry.expanded) 6 7
      t.broken = none → exec (.evictionDone i) s = .next t) ∧
    (p.evict = true → p.mode % 2 = 1 → s.poolGranted p.source l.size = true → s.poisoned (o.frameAt l.entry.frame) l.size = false →
      let t := (s.copyPage (o.frameAt l.entry.frame) (.pool p.source) l.size).endPage i p c l absent 1 0
      t.broken = none → exec (.evictionDone i) s = .next t)) ∧
  (∀ (s : State) (q a : Nat), s.broken = none → (PAddr.vault q a).exists_ 1 = true → exec (.softError q a true) s = .next { s with softErrors := s.softErrors + 1 } ∧
    ∃ t, exec (.softError q a false) s = .next t ∧ Rule.sameMemory s t ∧ t.poisoned (.vault q a) 1 = true) ∧
  ∀ (s : State) (ctx obj off : Nat) (c : Ctx) (o : ObjEntry) (l : Leaf), s.broken = none → s.ctx? ctx = some c → s.object? c obj = some o → o.home ≠ 2 → s.walk o off = .leaf l →
    let lost := (s.putPte l (l.entry.set 4 l.entry.frame l.entry.dirty l.entry.expanded)).dropLines ctx obj l.base l.size
    let t := lost.errorRecord ctx (mkRecord 0x21 0xFF 0 0 0 obj l.base 0 0 0xFFFF 0 0)
    (l.entry.state = 2 → t.broken = none → exec (.frameLost ctx obj off) s = .next t) ∧
    (l.entry.state ≠ 2 → exec (.frameLost ctx obj off) s = .next s)

/-! ### The device: power, security, registers, debugging (R3, R312, R366, R368, R375 to R388) -/

/-- The device is powered, not in P4, and not halted in the first step of bring-up, so that the Bursar answers. -/
def Rule.awake (s : State) : Prop := s.broken = none ∧ s.powered = true ∧ s.power ≠ .p4 ∧ s.bootStep ≠ some 1

/-- Bring-up reaches READY or stops at the step that fails, and its links begin to train; a P-state is requested and reached as R383 says; loss of power leaves fuses and the memory outside; the current limiter's
window starts the counts again; lifecycle moves forward only, and RETURNED erases the identity; a debug level is entered where R388 allows it;
ATTEST needs the identity; the measured skews and the device registers are written; the host reads and writes memory, but not in P3, and reads the registers; without power, in P4 and in a halted bring-up nothing answers (R3, R312, R381 to R388). The model's own choices in this: log 24, 25, 74, 75, 76. -/
def Obligations.DeviceSteps : Prop :=
  (∀ (s : State) (r : BringUpResult), s.broken = none → s.ready = false → s.bootStep = none → ∃ t, exec (.bringUp r) s = .next t ∧ t.powered = true ∧ t.power = .p0 ∧
    (r.signatures = false → t.bootStep = some 1 ∧ t.ready = false) ∧
    (r.signatures = true → ∀ l < 48, l < s.links.length → l / 12 ∉ s.gated → s.hasLink l = true → (s.link l).state = .down → (t.link l).state = .training) ∧
    (r.signatures = true → r.calibrated = false → t.bootStep = some 2 ∧ t.ready = false ∧ t.error = true) ∧
    (r.signatures = true → r.calibrated = true → t.vault = [] ∧ t.badClusters = r.badClusters ∧ t.device = r.device % 512 ∧ (∀ q, q ∈ t.badQuarters ↔ q < 4 ∧ r.badQuarters.getLsbD q = true) ∧
      (r.identity = true → t.ready = true ∧ t.bootStep = none) ∧ (r.identity = false → t.bootStep = some 5 ∧ t.ready = false ∧ t.error = true))) ∧
  (∀ s : State, s.broken = none → ∃ t, exec .powerLoss s = .next t ∧ t.powered = false ∧ t.ready = false ∧ t.lifecycle = s.lifecycle ∧ t.pool = s.pool ∧ t.vault = [] ∧
    t.locals = [] ∧ t.threads = [] ∧ t.ctxs = [] ∧ t.debug = .none) ∧
  (∀ (s : State) (target : Nat) (q : BitVec 4), Rule.awake s →
    let qs := (List.range 4).filter q.getLsbD
    let away := s.blocks.filter fun b => target == 3 || (target == 2 && qs.contains (quarterOf b.core))
    let u := { s with pwrReq := some (target, qs) }.evictBlocks away
    (s.power.allows target = true → s.pwrReq = none → ¬(target = 2 ∧ qs = []) → u.broken = none → exec (.pstate target q) s = .next (u.reply .ok)) ∧
    (s.power.allows target = false ∨ s.pwrReq ≠ none → exec (.pstate target q) s = .next (s.reply .badState))) ∧
  (∀ (s : State) (target : Nat) (qs : List Nat), s.broken = none → s.pwrReq = some (target, qs) →
    (s.powerReady target qs = true → target = 0 → let t := ({ s with pwrReq := none, power := .p0, gated := s.badQuarters } : State).registerAgain
      t.broken = none → exec .pstateReached s = .next t) ∧
    (s.powerReady target qs = true → target ≠ 0 ∨ s.registering = [] → ∃ t, exec .pstateReached s = .next t ∧ t.pwrReq = none ∧ (target ≤ 4 → t.power.code = target) ∧
      (target = 2 → ∀ k, k ∈ t.gated ↔ k ∈ s.badQuarters ∨ k ∈ qs) ∧ (4 ≤ target → t.powered = false)) ∧
    (s.powerReady target qs = false → exec .pstateReached s = .next s)) ∧
  (∀ (s : State) (core : Nat), s.broken = none → core < s.cores.length → (s.core core).clock % 256 = 0 → ∃ t, exec (.currentLimiterWindow core) s = .next t ∧
    (t.core core).issued = 0 ∧ (t.core core).engineStarts = 0 ∧ (t.core core).lastIssued = (s.core core).issued ∧ (t.core core).lastStarts = (s.core core).engineStarts ∧
    (let est := fun starts : Core → Nat => (t.cores.map fun k => Config.currentEstimate k.lastIssued (starts k)).sum
     let idle := fun e => if 9000000 < e then Config.idleCycles e else 0
     (t.core core).idleSlices = (s.core core).idleSlices + idle (est fun k => k.lastStarts) ∧ (t.core core).idle = (s.core core).idle + idle (est fun _ => 0)) ∧
    ∀ k ≠ core, t.core k = s.core k) ∧
  (∀ s : State, Rule.awake s → ∃ t, exec .lifecycleAdvance s = .next t ∧
    (s.lifecycle = .factory → t.lifecycle = .development) ∧ (s.lifecycle = .development → t.lifecycle = .production) ∧
    (s.lifecycle = .production → t.lifecycle = .returned ∧ t.identity = false) ∧ (s.lifecycle = .returned → t = s)) ∧
  (∀ (s : State) (level : Nat) (token : Bool), Rule.awake s →
    (level ≤ 2 → s.lifecycle ≠ .production ∨ level < 2 → exec (.debugLevel level token) s =
      .next ({ s with debug := if level = 0 then .none else if level = 1 then .observe else .invasive }.reply .ok)) ∧
    (2 < level ∨ (s.lifecycle = .production ∧ level = 2 ∧ token = false) → exec (.debugLevel level token) s = .next (s.reply .badState)) ∧
    (s.lifecycle = .production → level = 2 → token = true →
      let t := (s.ctxs.filter fun c => c.state != .destroyed && s.confidential c).foldl (fun (t : State) c => t.destroyCtx c) s
      t.broken = none → exec (.debugLevel level token) s =
        .next ({ t with ctxs := t.ctxs.map fun c : Ctx => { c with confKey := false }, debug := .invasive }.reply .ok))) ∧
  (∀ (s : State) (nonce : BitVec 256), Rule.awake s →
    (s.lifecycle ≠ .returned → s.identity = true → ∃ sig, sig.length = signatureBytes ∧ exec (.attest nonce) s = .next (s.reply (.report (s.reportBody nonce ++ sig)))) ∧
    (s.lifecycle = .returned ∨ s.identity = false → exec (.attest nonce) s = .next (s.reply .badState))) ∧
  (∀ (s : State) (i : Nat) (v : BitVec 32), s.broken = none → s.ready = true → s.linksOff = false → ∃ t, exec (.skewMeasure i v) s = .next t ∧
    (∀ j ≠ i, sget t.skews j = sget s.skews j) ∧
    (∀ near far, skewPairs[i]? = some (near, far) →
      sget t.skews i = BitVec.ofInt 32 (2 * ((s.quarterClocks.getD far 0 : Int) - (s.quarterClocks.getD near 0 : Int)))) ∧
    (6 ≤ i → sget t.skews i = if i < 54 ∧ ((s.link (i - 6)).state = .up ∨ (s.link (i - 6)).state = .degraded) then v else sget s.skews i)) ∧
  (∀ (s : State) (v : Word), Rule.awake s →
    ({ s with planemap := v &&& 0xFFFFFF }.releaseHeld.broken = none → exec (.registerWrite .planemap v) s = .next { s with planemap := v &&& 0xFFFFFF }.releaseHeld) ∧
    exec (.registerWrite .devstat v) s = .next s ∧ (∀ i, exec (.registerWrite (.skew i) v) s = .next s) ∧
    (∀ l, exec (.registerWrite (.integrityMode l) v) s = .next (s.modLink l fun x => { x with integrity := v.setWidth 8 })) ∧
    (∀ ctx c, s.liveCtx ctx = some c → s.observable c = true → v.toNat = 0 ∨ (6 ≤ v.toNat ∧ v.toNat ≤ 20) →
      exec (.registerWrite (.sampling ctx) v) s = .next ((s.modCtx ctx fun c => { c with sampling := v.toNat }).reply .ok)) ∧
    (∀ g byte, g < 4096 → byte < 128 → ∃ t, exec (.registerWrite (.groupEntry g byte) v) s = .next t ∧ t.groupEntry g = (s.groupEntry g).set byte (v.setWidth 8) ∧
      ∀ k ≠ g, t.groupEntry k = s.groupEntry k)) ∧
  (∀ s : State, s.broken = none → s.powered = false ∨ s.power = .p4 ∨ s.bootStep = some 1 → (∀ r, s.reply r = s) ∧ exec .lifecycleAdvance s = .next s ∧
    ∀ (n k m : Nat) (q : BitVec 4) (token : Bool) (nonce : BitVec 256) (reg : DeviceReg) (v : Word) (w : Option (List Byte)), exec (.pstate n q) s = .next s ∧ exec (.debugLevel n token) s = .next s ∧
      exec (.attest nonce) s = .next s ∧ exec (.registerWrite reg v) s = .next s ∧ exec (.hostAccess n k m w n) s = .next s ∧ exec (.registerContext n k) s = .next s) ∧
  ∀ (s : State) (ctx obj off n : Nat) (c : Ctx), Rule.awake s → ctx ≠ noCtx → s.ctx? ctx = some c → c.mayAccess = false →
    (s.power = .p3 → ∀ w, exec (.hostAccess ctx obj off w n) s = .next s) ∧
    (s.power = .p1 → ∀ w, exec (.hostAccess ctx obj off w n) s = .next (s.reply .badState)) ∧
    (∀ bs, s.power ≠ .p3 → s.power ≠ .p1 → s.unitRead c obj off n = some bs → exec (.hostAccess ctx obj off none n) s = .next (s.reply (.report (s.maskMoved 0 c.num false obj off bs)))) ∧
    (∀ bs t, s.power ≠ .p3 → s.power ≠ .p1 → s.unitWrite c obj off bs = some t → (t.rawWrite 0 c.num false obj off bs.length).broken = none →
      exec (.hostAccess ctx obj off (some bs) n) s = .next ((t.rawWrite 0 c.num false obj off bs.length).reply .ok)) ∧
    ∀ o k m, 4 ≤ o → exec (.hostAccess noCtx o k none m) s = .next (s.reply (.value (s.registerRead k))) ∧
      s.registerRead 0 = s.devstat ∧ s.registerRead 1 = s.planemap ∧ s.registerRead (k + 2) = sget s.skews k

/-- The debug port answers (R382, R388). -/
def Rule.portOpen (s : State) : Prop := s.broken = none ∧ s.linksOff = false ∧ s.bootStep ≠ some 1

/-- Debugging: registers of a stopped thread are read from the observe level on and written at the invasive level, and those of a phantom lane read as 0; halts, breakpoints and resumes act at the levels of R388; a
dump is taken of a saved context, one at a time; a trace ring is one for a context; a sample is written for a thread of a sampled context; without power and in standby the port does
not answer, and in a halted bring-up it answers with the failing step (R366, R375 to R380, R382, R388). The model's own choices in this: log 72, 73. -/
def Obligations.DebugSteps : Prop :=
  (∀ (s : State) (ctx i launch : Nat) (pc : Word) (on : Bool) (c : Ctx), Rule.portOpen s → s.liveCtx ctx = some c →
    (s.debug = .invasive → i < 8 → exec (.breakpointRegisterWrite ctx i launch pc on) s =
      .next ((s.modCtx c.num fun c => { c with breaks := c.breaks.set i (launch, if on then some pc else none) }).reply .ok)) ∧
    (s.debug ≠ .invasive → exec (.breakpointRegisterWrite ctx i launch pc on) s = .next (s.reply .badState))) ∧
  (∀ s : State, Rule.portOpen s → s.debug ≠ .none →
    (∀ k, ∃ t, exec (.debugResume (some k)) s = .next t ∧ (∀ th ∈ t.threads, th.tid.block = k → th.stopped = false) ∧ t.debugHalt = s.debugHalt) ∧
    ∃ t, exec (.debugResume none) s = .next t ∧ t.debugHalt = false ∧ t.deepHalt = false ∧ ∀ th ∈ t.threads, th.stopped = false) ∧
  (∀ (s : State) (freeze : Bool), Rule.portOpen s →
    (s.debug = .invasive → ∃ t, exec (.debugHalt freeze) s = .next t ∧ t.debugHalt = true ∧ Rule.sameMemory s t ∧ t.vregs = s.vregs ∧ t.uregs = s.uregs ∧ t.regions = s.regions ∧
      (freeze = false → Rule.sameRegisters s t) ∧ (freeze = true → ∀ b ∈ t.blocks, b.frozen = true)) ∧
    (s.debug ≠ .invasive → exec (.debugHalt freeze) s = .next (s.reply .badState))) ∧
  (∀ s : State, s.broken = none → (s.linksOff = false → s.bootStep ≠ some 1 → s.debug = .invasive → s.deepHalt = false → ∃ t, exec .deepHalt s = .next t ∧ t.deepHalt = true ∧ t.portsOff = true) ∧
    ∀ src, (src ≠ s.device → exec (.dbghold src) s = .next { s with dbghold := s.dbghold + 1 } ∧ exec (.dbgresume src) s = .next { s with dbghold := s.dbghold - 1 }) ∧
      (src = s.device → exec (.dbghold src) s = .next s ∧ exec (.dbgresume src) s = .next s)) ∧
  (∀ (s : State) (t : Tid) (th : Thread) (b : Block) (c : Ctx) (place : DebugPlace) (w : Option Word), Rule.portOpen s → s.thread? t = some th → s.block? t.block = some b →
    s.ctx? (s.ctxOf t.block) = some c →
    (s.debug ≠ .none → (w = none ∨ s.debug = .invasive) → (th.stopped = true ∨ s.debugHalt = true ∨ s.deepHalt = true) → (s.debugPlace b th place w).broken = none →
      exec (.debugRegisterAccess t place w) s = .next (s.debugPlace b th place w)) ∧
    (∀ lane, s.debug ≠ .none → s.thread? ⟨t.block, t.group, lane⟩ = none → (s.group? t.block t.group).isSome = true → lane < 128 → ∀ r,
      exec (.debugRegisterAccess ⟨t.block, t.group, lane⟩ (.vector r) none) s = .next (s.reply (.value 0))) ∧
    (s.debug = .none ∨ (w ≠ none ∧ s.debug ≠ .invasive) → exec (.debugRegisterAccess t place w) s = .next (s.reply .badState)) ∧
    (s.debug ≠ .none → (w = none ∨ s.debug = .invasive) → th.stopped = false → s.debugHalt = false → s.deepHalt = false →
      exec (.debugRegisterAccess t place w) s = .next (s.reply .busy))) ∧
  (∀ (s : State) (ctx a n : Nat) (c : Ctx), Rule.portOpen s → s.liveCtx ctx = some c →
    (s.observable c = false ∨ c.dump ≠ none → exec (.dump ctx a n) s = .next (s.reply .badState)) ∧
    (s.observable c = true → c.dump = none → c.state = .saved → exec (.dump ctx a n) s =
      .next (((s.modCtx ctx fun c => { c with dump := some { first := a, size := n, used := 0, copied := [] } }).reply .ok).reply (.report (s.threadNames ctx)))) ∧
    (s.observable c = true → c.dump = none → c.state = .running →
      let t := (s.modCtx ctx fun c => { c with dump := some { first := a, size := n, used := 0, copied := [], armed := false } }).setCtxState ctx .preempting
      t.broken = none → exec (.dump ctx a n) s = .next (t.reply .ok)) ∧
    (c.dump ≠ none → s.debug ≠ .none → exec (.dumpRelease ctx) s = .next ((s.modCtx ctx fun c => { c with dump := none }).reply .ok)) ∧
    (c.dump = none ∨ s.debug = .none → exec (.dumpRelease ctx) s = .next (s.reply .badState)) ∧
    ∀ ptr, s.mailOpen = true → (s.observable c = false ∨ c.traceRing ≠ none → exec (.registerTraceRing ctx ptr) s = .next (s.reply .badState)) ∧
      ∀ q, s.observable c = true → c.traceRing = none → s.readQueue c ptr = some q → s.badPtr c q.ring (64 * q.entries) 1 rightW = false →
        exec (.registerTraceRing ctx ptr) s = .next ((s.modCtx ctx fun c => { c with traceRing := some ptr, traceAt := (q.ring, q.entries) }).reply .ok)) ∧
  (∀ (s : State) (ctx i launch : Nat) (pc : Word) (on freeze : Bool) (k : Option BlockKey) (t : Tid) (place : DebugPlace) (w : Option Word), s.broken = none →
    ∀ x ∈ [Instr.breakpointRegisterWrite ctx i launch pc on, .debugResume k, .debugHalt freeze, .deepHalt, .debugRegisterAccess t place w, .dump ctx i launch, .dumpRelease ctx],
      (s.linksOff = true → exec x s = .next s) ∧ (s.linksOff = false → s.bootStep = some 1 → exec x s = .next { s with replies := s.replies ++ [.value 1] })) ∧
  ∀ (s : State) (core obj off : Nat) (t : Tid) (stages : List (BitVec 16)), s.broken = none →
    ((s.core core).sampleOf t obj off = none → exec (.sampleRecord core t stages obj off) s = .next s) ∧
    ∀ x, (s.core core).sampleOf t obj off = some x → (∀ e ∈ stages, e.toNat / 2 ^ 12 ≤ 6) → ∃ words : List Word, words.length = 8 ∧
      (∀ i < 6, words.getD i 0 = BitVec.ofNat 32 ((stages.getD (2 * i) 0).toNat + 2 ^ 16 * (stages.getD (2 * i + 1) 0).toNat)) ∧
      words.getD 6 0 = BitVec.ofNat 32 off ∧ words.getD 7 0 = BitVec.ofNat 32 (off % 2 ^ 40 / 2 ^ 32 + obj % 2 ^ 24 * 2 ^ 8) ∧
      let u := (s.modCore core fun k => { k with samples := k.samples.filter fun y => y.id != x.id }).trace 3 t false x.pc words
      u.broken = none → exec (.sampleRecord core t stages obj off) s = .next u

/-! ### The fabric (R196, R352 to R366) -/

/-- One link is left in a state and with lanes; the other links, memory and registers are as before. -/
def Rule.linkLeft (s t : State) (l : Nat) (st : LinkState) (lanes : Nat) : Prop :=
  (t.link l).state = st ∧ (t.link l).lanes = lanes ∧ (∀ k, k ≠ l → t.link k = s.link k) ∧ Rule.sameMemory s t ∧ Rule.sameRegisters s t

/-- A link has changed to a state, and the change is reported. -/
def Rule.linkMoved (s t : State) (l : Nat) (st : LinkState) (lanes : Nat) : Prop := Rule.linkLeft s t l st lanes ∧ t.replies = s.replies ++ [.link l st]

/-- A command has changed a link: the change is reported, and the command answered. -/
def Rule.linkTold (s t : State) (l : Nat) (st : LinkState) (lanes : Nat) : Prop := Rule.linkLeft s t l st lanes ∧ t.replies = s.replies ++ [.link l st, .ok]

/-- One link is left FAILED, which is reported: PLANEMAP's entries of its plane are replaced by the next plane without a failed link; of the other links only buffers and flits are counted, for
the packets that leave on them; memory and registers are as before. -/
def Rule.linkFailed (s t : State) (l : Nat) : Prop :=
  (t.link l).state = .failed ∧ (t.link l).lanes = (s.link l).lanes ∧ t.replies = s.replies ++ [.link l .failed] ∧
  t.planemap = BitVec.ofNat 32 (remapEntries s.planemap.toNat (l / 6) (nextPlane (fun q => s.lostPlanes.getLsbD q || (List.range 6).any fun d => (s.link (6 * q + d)).state == .failed) (l / 6))) ∧
  (∀ k, k ≠ l → let x := s.link k
    { t.link k with credits := x.credits, freed := x.freed, sent := x.sent, seq := x.seq, window := x.window, stalled := x.stalled } = x) ∧
  Rule.sameMemory s t ∧ Rule.sameRegisters s t

/-- A flit at link `l` has been checked: in order and undamaged it is taken, and acknowledged; damaged, a replay is asked for. -/
def Rule.flitTaken (s t : State) (l : Nat) (f : Flit) : Prop :=
  let x := s.link l
  (t.link l).expect = (if flitGood f = true ∧ flitSeq f = x.expect then x.expect + 1 else x.expect) ∧ (t.link l).replays = (x.replays + if flitGood f then 0 else 1) ∧
  t.wire = s.wire ++ (if flitGood f = false then [(l, .replay x.expect)] else if flitSeq f = x.expect then [(l, .ack (flitSeq f))] else []) ∧
  (flitGood f = true → flitSeq f = x.expect → (t.link l).credits = x.credits.modify (flitChannel f) (· + flitCredits f))

/-- A link goes from state to state as the table of R353 says, reports each change, and stays as it is on an event its state has no row for; a flit is
laid out and checked as R358 says, taken once, in order, and replayed; a packet has the bytes of R359; it takes the shorter way, x first, then y, then z, on the virtual channel 1 from the wrap link of its ring on, and leaves when its channel has credits for all its
flits, counts the cycles while it does not, or is refused when no device has its destination; a remap moves PLANEMAP's entries to the next plane without a failed link; a routing bank is written while idle, injection flips to it, and the old one
retires 2^16 cycles after no packet of it is left; a failed device faults the contexts that name it (R251, R353, R355, R357 to R359, R362, R363). The model's own choices in this: log 65, 66, 71, 78, 86, 89. -/
def Obligations.LinkSteps : Prop :=
  (∀ (s : State) (l : Nat), s.broken = none → s.hasLink l = true → s.links.length = 48 →
    let x := s.link l
    s.linkOff l = false → s.deaf = false →
    (x.state = .down → ∃ t, exec (.linkTrain l) s = .next t ∧ Rule.linkTold s t l .training x.lanes) ∧
    (x.state ≠ .down → exec (.linkTrain l) s = .next (s.reply .badState)) ∧
    (∀ lanes, (x.state = .training → lanes < 2 → ∃ t, exec (.linkTrained l lanes) s = .next t ∧ Rule.linkFailed s t l) ∧
      (x.state = .training → 2 ≤ lanes → lanes ≤ 4 → ∃ t, exec (.linkTrained l lanes) s = .next t ∧ Rule.linkMoved s t l .keying lanes) ∧
      (x.state ≠ .training → exec (.linkTrained l lanes) s = .next s)) ∧
    (x.state = .training → ∃ t, exec (.linkTrainingTimeout l) s = .next t ∧ Rule.linkFailed s t l) ∧
    (x.state ≠ .training → exec (.linkTrainingTimeout l) s = .next s) ∧
    (x.state = .keying → (∃ t, exec (.linkKeyed l false) s = .next t ∧ Rule.linkFailed s t l) ∧
      ∃ t, exec (.linkKeyed l true) s = .next t ∧ Rule.linkMoved s t l (if 4 ≤ x.lanes then .up else .degraded) x.lanes ∧ (t.link l).keyEpoch = x.keyEpoch + 1) ∧
    (x.state ≠ .keying → ∀ ok, exec (.linkKeyed l ok) s = .next s) ∧
    (x.state = .up ∨ x.state = .degraded → (2 < x.lanes → ∃ t, exec (.laneLost l) s = .next t ∧ Rule.linkMoved s t l .degraded (x.lanes - 1)) ∧
      (x.lanes ≤ 2 → ∃ t, exec (.laneLost l) s = .next t ∧ Rule.linkFailed s t l)) ∧
    (x.state ≠ .up → x.state ≠ .degraded → exec (.laneLost l) s = .next s) ∧
    (x.state = .up → (∀ c, x.crcErrors[15]? = some c → (s.now ≤ c + 2 ^ 20 → ∃ t, exec (.crcErrorThreshold l) s = .next t ∧ Rule.linkMoved s t l .retraining x.lanes) ∧
        (c + 2 ^ 20 < s.now → exec (.crcErrorThreshold l) s = .next s)) ∧
      (x.crcErrors[15]? = none → exec (.crcErrorThreshold l) s = .next s)) ∧
    (x.state ≠ .up → exec (.crcErrorThreshold l) s = .next s) ∧
    (x.state = .degraded → ∃ t, exec (.linkRetrain l) s = .next t ∧ Rule.linkTold s t l .retraining x.lanes) ∧
    (x.state ≠ .degraded → exec (.linkRetrain l) s = .next (s.reply .badState)) ∧
    (∀ lanes, (x.state = .retraining →
        (2 ≤ lanes → lanes ≤ 4 → ∃ t, exec (.retrainingDone l lanes) s = .next t ∧ Rule.linkMoved s t l (if 4 ≤ lanes then .up else .degraded) lanes ∧ (t.link l).failures = 0) ∧
        (lanes < 2 → x.failures < 2 → ∃ t, exec (.retrainingDone l lanes) s = .next t ∧ Rule.linkLeft s t l .retraining x.lanes ∧ (t.link l).failures = x.failures + 1 ∧
          t.replies = s.replies) ∧
        (lanes < 2 → 2 ≤ x.failures → ∃ t, exec (.retrainingDone l lanes) s = .next t ∧ Rule.linkFailed s t l)) ∧
      (x.state ≠ .retraining → exec (.retrainingDone l lanes) s = .next s)) ∧
    (x.state = .failed → ∃ t, exec (.linkRepair l) s = .next t ∧ Rule.linkTold s t l .down x.lanes) ∧
    (x.state ≠ .failed → exec (.linkRepair l) s = .next (s.reply .badState)) ∧
    (x.state ≠ .up → x.state ≠ .degraded → exec (.rekey l) s = .next s ∧ (∀ vc moving, exec (.noProgressTimer l vc moving) s = .next s) ∧
      ∀ item, exec (.flitReceive l item) s = .next s) ∧
    (x.state = .up ∨ x.state = .degraded →
      (2 ^ 32 ≤ x.flits ∨ 2 ^ 32 ≤ x.sent → ∃ t, exec (.rekey l) s = .next t ∧ Rule.linkLeft s t l x.state x.lanes ∧ (t.link l).keyEpoch = x.keyEpoch + 1 ∧ (t.link l).flits = 0 ∧
        (t.link l).sent = 0 ∧ t.replies = s.replies) ∧
      (x.flits < 2 ^ 32 → x.sent < 2 ^ 32 → exec (.rekey l) s = .next s) ∧
      (∀ vc moving, vc < 8 → s.timersStand = false → x.stalled.getD vc 0 < 2 ^ 20 → exec (.noProgressTimer l vc moving) s = .next s) ∧
      (∀ vc, vc < 8 → s.timersStand = false → 2 ^ 20 ≤ x.stalled.getD vc 0 →
        exec (.noProgressTimer l vc true) s = .next ({ s with slowLog := s.slowLog ++ [(l, vc)] }.modLink l fun x => { x with stalled := x.stalled.set vc 0 }) ∧
        ∃ t, exec (.noProgressTimer l vc false) s = .next t ∧ Rule.linkMoved s t l .retraining x.lanes) ∧
      (∀ vc moving, s.dbghold ≠ 0 ∨ s.deepHalt = true → exec (.noProgressTimer l vc moving) s = .next s) ∧
      (∀ f : Flit, (x.packetAt (l / 6) f = none → ∃ t, exec (.flitReceive l (.flit f)) s = .next t ∧ Rule.linkLeft s t l x.state x.lanes ∧ t.inbox = s.inbox ∧ Rule.flitTaken s t l f) ∧
        ∀ p, x.packetAt (l / 6) f = some p → s.isHere p = true → ∃ t, exec (.flitReceive l (.flit f)) s = .next t ∧ Rule.linkLeft s t l x.state x.lanes ∧
          t.inbox = s.inbox ++ [p] ∧ Rule.flitTaken s t l f ∧ flitGood f = true ∧ flitSeq f = x.expect ∧ flitLast f = true) ∧
      ∀ seq i e, x.window[i]? = some e → flitSeq e.1 = seq → (∀ j e', j < i → x.window[j]? = some e' → flitSeq e'.1 ≠ seq) →
        (∃ t, exec (.flitReceive l (.ack seq)) s = .next t ∧ Rule.linkLeft s t l x.state x.lanes ∧ (t.link l).window = x.window.drop (i + 1)) ∧
        ∃ t, exec (.flitReceive l (.replay seq)) s = .next t ∧ Rule.linkLeft s t l x.state x.lanes ∧ (t.link l).window = x.window ∧
          t.wire = s.wire ++ (x.window.drop i).map fun e => (l, .flit e.1))) ∧
  (∀ (s : State) (l : Nat), s.broken = none → s.linkOff l = true → ∀ (lanes vc : Nat) (ok : Bool) (item : LinkItem),
    ∀ i ∈ [Instr.linkTrained l lanes, .linkTrainingTimeout l, .linkKeyed l ok, .laneLost l, .crcErrorThreshold l, .retrainingDone l lanes, .rekey l, .noProgressTimer l vc ok,
      .flitReceive l item], exec i s = .next s) ∧
  (∀ (low : BitVec 32) (payload : List Byte) (tag : BitVec 64), let f := makeFlit low payload tag
    flitCrcOk f = true ∧ flitGood f = true ∧ flitBits f = low ∧
    f.header.extractLsb' 32 32 = BitVec.ofNat 32 (crc32c (toLE 4 low.toNat ++ payload ++ toLE 8 tag.toNat)) ∧
    (∀ ch first last integ credits seq, ch < 8 → low = flitLow ch first last integ credits seq →
      flitChannel f = ch ∧ flitFirst f = first ∧ flitLast f = last ∧ flitInteg f = integ ∧ flitCredits f = credits.toNat ∧ flitSeq f = seq ∧ low.extractLsb' 16 10 = 0)) ∧
  (∀ p : Packet, p.kind < 256 → p.flags.toNat < 8 → p.dst < 512 → p.src < 512 → p.ctx < 65536 → p.off < 2 ^ 40 → p.obj < 2 ^ 24 → p.length < 65536 → p.group < 4096 → p.tagOk = true →
    p.data.length = (if p.kind = 1 then 0 else p.length) → (packetBytes p).length = 32 + p.data.length ∧ ∀ rest, parsePacket p.plane true (packetBytes p ++ rest) = p) ∧
  (∀ (b : Bank) (here there dir : Nat), b.way here there = some dir →
    let apart : Nat → Nat := fun k => (coordinate there k + b.ring k - coordinate here k) % b.ring k
    dir < 6 ∧ (∀ k < dir / 2, apart k = 0) ∧ 0 < apart (dir / 2) ∧ (dir % 2 = 0 ↔ 2 * apart (dir / 2) ≤ b.ring (dir / 2))) ∧
  (∀ (b : Bank) (from_ here dir : Nat),
    let n := b.ring (dir / 2)
    let a := coordinate from_ (dir / 2)
    let h := coordinate here (dir / 2)
    a < n → h < n → (dir % 2 = 0 → b.channel from_ here dir = if h + 1 = n ∨ h < a then 1 else 0) ∧ (dir % 2 = 1 → b.channel from_ here dir = if h = 0 ∨ a < h then 1 else 0)) ∧
  (∀ (s : State) (p : Packet) (l ch : Nat), s.powered = true → s.links.length = 48 → s.outbox = [p] → s.wayOut p = some (l, ch) → l < 48 → ch < 8 → p.plane = l / 6 →
    let x := s.link l
    let fs := x.flitsOf ch p (s.linkFree l x)
    x.state = .up ∨ x.state = .degraded → s.linkOff l = false →
    (packetFlits p ≤ x.credits.getD ch 0 → x.window.length + packetFlits p ≤ 256 → s.forward.outbox = [] ∧ s.forward.wire = s.wire ++ fs.map (fun f => (l, .flit f)) ∧
      (s.forward.link l).window.map (·.1) = x.window.map (·.1) ++ fs ∧ (s.forward.link l).credits = x.credits.modify ch (· - fs.length) ∧ (s.forward.link l).sent = x.sent + fs.length ∧
      (s.forward.link l).stalled.getD ch 0 = 0) ∧
    (x.credits.getD ch 0 < packetFlits p → s.forward.outbox = [p] ∧ s.forward.wire = s.wire ∧ (s.forward.link l).window = x.window ∧ (s.forward.link l).credits = x.credits ∧
      (s.forward.link l).stalled.getD ch 0 = x.stalled.getD ch 0 + if s.dbghold = 0 ∧ s.deepHalt = false then s.now - s.linkClock else 0)) ∧
  (∀ (s : State) (p : Packet), s.powered = true → s.outbox = [p] → p.dst ≠ s.device → p.src = s.device → (s.bankOf p).position p.dst = none → packetClass p = 0 →
    s.forward.outbox = [] ∧ s.forward.inbox = s.inbox ++ [{ s.answer p 9 0 [] with src := p.dst }]) ∧
  (∀ (s : State) (plane : Nat) (failed : BitVec 8), s.broken = none → plane < 8 →
    let bad : Nat → Bool := fun q => failed.getLsbD q || s.lostPlanes.getLsbD q || (List.range 6).any fun d => (s.link (6 * q + d)).state == .failed
    (∀ q, q < 8 → bad q = true → q = plane) → ∃ t, exec (.remap plane failed) s = .next t ∧ Rule.sameMemory s t ∧
      ∀ i, i < 8 → t.planemap.toNat / 8 ^ i % 8 = if s.planemap.toNat / 8 ^ i % 8 = plane then (plane + 1) % 8 else s.planemap.toNat / 8 ^ i % 8) ∧
  (∀ (s : State) (plane : Nat) (rings : Nat × Nat × Nat) (places : List (Nat × Nat)), s.broken = none → s.linksOff = false → plane < 8 → s.routes.length = 8 →
    let r := s.routes.getD plane {}
    (r.retiring = false → ∃ t, exec (.routingBankUpdate plane rings places) s = .next t ∧ t.bank plane = { rings, places } ∧
      t.device = ((places.find? fun x => x.2 == s.position).map (·.1)).getD s.device ∧
      (t.routes.getD plane {}).retiring = true ∧ (t.routes.getD plane {}).current = !r.current ∧ ∀ q, q ≠ plane → t.bank q = s.bank q) ∧
    (r.retiring = true → exec (.routingBankUpdate plane rings places) s = .next s ∧
      ((∀ q ∈ s.outbox, q.plane = plane → q.flags.getLsbD 1 = r.current) → (∀ q ∈ s.requests, q.packet.plane = plane → q.packet.flags.getLsbD 1 = r.current) → ∃ t, exec (.bankRetire plane) s = .next t ∧
        t.bank plane = s.bank plane ∧ (r.drained = none → (t.routes.getD plane {}).retiring = true ∧ (t.routes.getD plane {}).drained = some s.now) ∧
        ∀ k, r.drained = some k → (s.now < k + 2 ^ 16 → t = s) ∧ (k + 2 ^ 16 ≤ s.now → (t.routes.getD plane {}).retiring = false)))) ∧
  ∀ (s : State) (dev : Nat), s.broken = none → s.linksOff = false →
    let names : Ctx → Bool := fun c => (List.range c.objEntries).any fun i => match s.object? c i with
      | some o => o.home == 2 && o.peer == dev
      | none => false
    let v := ({ s with failedDevices := dev :: s.failedDevices.filter (· != dev) } : State).answerFor dev
    let t := (s.ctxs.filter fun c => c.state != .destroyed && names c).foldl (fun (t : State) c => t.faultCtxBare c.num reasonPeerLost) v
    t.broken = none → exec (.deviceFailureDetected dev) s = .next t

/-- A packet is at the device it is for, whose endpoints and memory ports run, and waits for no other. -/
def Rule.atPort (s : State) (p : Packet) : Prop := s.broken = none ∧ s.portsOff = false ∧ s.isHere p = true ∧ s.mustWait p = false

/-- The state with a packet taken from where it lay. -/
def Rule.arrived (s : State) (p : Packet) : State :=
  { s with outbox := if p.src = s.device then s.outbox.erase p else s.outbox, inbox := s.inbox.erase p }

/-- A request whose answer or packet failed its check goes out again, with one more failure and RETRY (R356, R360). -/
def Rule.reissued (u t : State) (r : Request) : Prop :=
  ∃ q ∈ t.requests, q.failures = r.failures + 1 ∧ q.packet = { r.packet with flags := r.packet.flags ||| 4#8 } ∧ t.outbox = u.outbox ++ [q.packet]

/-- The home performs a READ, a WRITE, an ATOMIC and a RED in one step and answers it; what it cannot perform it refuses, and a packet whose tag fails it returns; a
request that carries RETRY is answered from the held answer where there is one, and a read anew. The source takes an answer, reissues what failed its check, keeps what a link returned
for the next plane, and parks what was refused. A packet for another device is passed on. A tree node copies a multicast line to its children and delivers it in the order of arrival, counts the answers, and answers once
(R196, R311, R344, R355 to R357, R359 to R365). The model's own choices in this: log 33, 66, 67, 68, 69, 71, 82, 86. -/
def Obligations.PacketSteps : Prop :=
  (∀ (s : State) (p : Packet) (c : Ctx), Rule.atPort s p →
    let u := Rule.arrived s p
    let fresh := p.flags.getLsbD 2 = false ∨ u.heldAnswer p = none
    let refusal := u.send (u.answer p 9 0 [])
    let n := (packetOperands p).1
    (p.tagOk = false → exec (.read p) s = .next (u.send (u.answer p 8 0 [])) ∧
      (fresh → ∀ i ∈ [Instr.write p, .atomic p, .redPacket p], exec i s = .next (u.send (u.answer p 8 0 [])))) ∧
    (p.tagOk = true → u.ctx? p.ctx = none → exec (.read p) s = .next refusal ∧ (fresh → ∀ i ∈ [Instr.write p, .atomic p, .redPacket p], exec i s = .next refusal)) ∧
    (p.tagOk = true → u.ctx? p.ctx = some c → c.state ≠ .destroyed →
      (∀ a rest, u.translate c p.obj p.off p.length = .at_ a rest → (u.touch a p.length).broken = none →
        exec (.read p) s = .next ((u.touch a p.length).send (u.answer p 6 (if u.poisoned a p.length then 1 else 0)
          (if u.memberReads c then u.bytes a p.length else u.maskMoved 0 c.num false p.obj p.off (u.bytes a p.length))))) ∧
      (∀ token why base, u.homeRead c p.obj p.off p.length = .absent token why base → exec (.read p) s = .next refusal) ∧
      (fresh → ∀ s1 old ue s2 a, u.homeRead c p.obj p.off p.data.length = .ok s1 old ue → s1.beforeWrite c p.obj p.off p.data.length = some (s2, a) →
        ((s2.write a p.data).arrived p).broken = none →
        exec (.write p) s = .next (((s2.write a p.data).arrived p).sendHeld p (u.answer p 7 0 []))) ∧
      (fresh → ∀ token why base, u.homeRead c p.obj p.off p.data.length = .absent token why base → exec (.write p) s = .next refusal) ∧
      (fresh → ∀ s1 old new s2 a, u.homeRead c p.obj p.off n = .ok s1 old false → packetApply p old = some new → s1.beforeWrite c p.obj p.off n = some (s2, a) →
        let w := (s2.write a new).rawWrite 0 c.num false p.obj p.off n
        w.broken = none →
        exec (.atomic p) s = .next (w.sendHeld p (u.answer p 6 0 (u.maskMoved 0 c.num false p.obj p.off old))) ∧
        exec (.redPacket p) s = .next (w.sendHeld p (u.answer p 7 0 []))))) ∧
  (∀ (s : State) (p : Packet), s.broken = none → s.powered = true → s.isHere p = false → ((s.bankOf p).position p.dst).isSome = true →
    ∀ i ∈ [Instr.read p, .write p, .atomic p, .redPacket p, .data p, .ack p, .refused p, .linknack p, .mack p, .mgt p], exec i s = .next { s with inbox := s.inbox.erase p, outbox := s.outbox ++ [p] }) ∧
  (∀ (s : State) (p : Packet), Rule.atPort s p →
    let u := Rule.arrived s p
    let q : Nat → Packet := fun kind => { p with kind, flags := p.flags ||| 4#8 }
    ((u.serveRead (q 1)).broken = none → exec (.retriedRequest 1 p) s = .next (u.serveRead (q 1))) ∧
    (∀ kind r, 2 ≤ kind → kind ≤ 4 → u.heldAnswer (q kind) = some r →
      exec (.retriedRequest kind p) s = .next (u.send { r with plane := p.plane, flags := u.packetFlags r p.plane })) ∧
    (u.heldAnswer (q 2) = none → (u.serveWrite (q 2)).broken = none → exec (.retriedRequest 2 p) s = .next (u.serveWrite (q 2)))) ∧
  (∀ (s : State) (p : Packet) (r : Request), Rule.atPort s p →
    let u := Rule.arrived s p
    (u.requestOf p = none → exec (.data p) s = .next u ∧ exec (.ack p) s = .next u ∧ exec (.refused p) s = .next u) ∧
    (u.requestOf p = some r →
      (p.tagOk = true → (u.takeAnswer r p.data (p.op == 1)).broken = none → exec (.data p) s = .next (u.takeAnswer r p.data (p.op == 1))) ∧
      (p.tagOk = false → r.failures < 2 → ∃ t, exec (.data p) s = .next t ∧ exec (.ack p) s = .next t ∧ Rule.reissued u t r) ∧
      (p.tagOk = false → r.failures = 2 → r.packet.kind ≠ 5 → (u.takeAnswer r [] true).broken = none →
        exec (.data p) s = .next (u.takeAnswer r [] true) ∧ exec (.ack p) s = .next (u.takeAnswer r [] true)) ∧
      (p.tagOk = true → (u.takeAnswer r [] false).broken = none → exec (.ack p) s = .next (u.takeAnswer r [] false)) ∧
      (r.packet.kind = 5 → let v := (u.lineRefused p r.packet.dst 10).lineAnswered p 0 1
        v.broken = none → exec (.refused p) s = .next v) ∧
      (∀ a c, r.packet.kind ≠ 5 → u.requestAccess r = some a → u.ctx? r.packet.ctx = some c →
        (a.opc ≠ 0xAA → let v := (({ u with requests := u.requests.erase r }.refuseAccess r.core c { a with tag := none } true 8 a.off).settleDrains r.core).releaseHeld
          v.broken = none → exec (.refused p) s = .next v) ∧
        (a.opc = 0xAA → let v := ({ u with requests := u.requests.erase r }.dropAccess r.core a.id).releaseHeld
          v.broken = none → exec (.refused p) s = .next v))) ∧
    (u.nackedRequest p = some r →
      let failed := (p.src = r.packet.dst ∨ r.packet.kind = 5) ∧ r.packet.flags.getLsbD 0 = true ∧ p.op = 0
      (failed → r.failures < 2 → ∃ t, exec (.linknack p) s = .next t ∧ Rule.reissued u t r) ∧
      (¬failed → let v := { u with requests := u.requests.map fun x => if x = r then { r with nacked := true, returned := true } else x }.releaseHeld
        v.broken = none → exec (.linknack p) s = .next v))) ∧
  (∀ (s : State) (p : Packet), Rule.atPort s p → p.flags.getLsbD 2 = false → (∀ x ∈ s.memberLines, x.packet ≠ p) →
    let u := Rule.arrived s p
    let here := (u.treeNode p.group p.plane).testBit 6 && (u.treeNode p.group p.plane).testBit 7
    let gone := u.goneMembers p
    let x : Combine :=
      { packet := p, waiting := u.treeKids p ++ (if here then [u.device] else []), refusals := gone.length, refusers := (sortBy (fun d : Nat => d) gone).take 4 }
    let v := gone.foldl (fun (t : State) d => t.tellRefused p d 10)
      { u with combines := u.combines ++ [x], outbox := u.outbox ++ (u.treeKids p).map fun d => { p with dst := d } }
    (p.tagOk = false → exec (.mcast p) s = .next (u.send (u.answer p 8 0 []))) ∧
    (p.tagOk = true → (∀ y ∈ u.combines, sameTransaction y.packet p = false) →
      (here = false → (v.combineDone x).broken = none → exec (.mcast p) s = .next (v.combineDone x)) ∧
      (here = true → ∀ c, v.ctx? p.ctx = some c → c.state ≠ .destroyed →
        (v.object? c p.obj = none → (v.memberRefuse p 10).broken = none → exec (.mcast p) s = .next (v.memberRefuse p 10)) ∧
        (∀ o, v.object? c p.obj = some o → o.mcast = false ∨ o.group ≠ p.group ∨ o.home = 2 → (v.memberRefuse p 11).broken = none →
          exec (.mcast p) s = .next (v.memberRefuse p 11)) ∧
        (∀ o x, v.object? c p.obj = some o → o.mcast = true → o.group = p.group → o.home ≠ 2 → v.heldFirst p.ctx = some x → (v.keepLine p x.key).broken = none →
          exec (.mcast p) s = .next (v.keepLine p x.key)) ∧
        ∀ o s1 old ue s2 line, v.object? c p.obj = some o → o.mcast = true → o.group = p.group → o.home ≠ 2 → v.heldFirst p.ctx = none → v.homeRead c p.obj p.off 256 = .ok s1 old ue →
          v.beforeWrite c p.obj p.off 256 = some (s2, line) →
          let z := ((lineElements p).foldl (fun (t : State) e => t.putElement p line e) s2).memberAnswer p 1 0
          z.broken = none → exec (.mcast p) s = .next z))) ∧
  (∀ (suc ref dev : Nat) (l : List Nat), (mackData suc ref l dev).length = 16 ∧ field (mackData suc ref l dev) 0 4 = suc % 1024 + 1024 * (ref % 1024)) ∧
  ∀ (s : State) (p : Packet), Rule.atPort s p →
    let u := Rule.arrived s p
    let w := field p.data 0 4
    (∀ x, u.combines.find? (fun x => mackOf x.packet p) = some x →
      let v := u.combineAdd x.packet p.src (w % 1024) (w / 1024 % 1024) (mackRefusers p.data)
      v.broken = none → exec (.mack p) s = .next v) ∧
    (u.combines.find? (fun x => mackOf x.packet p) = none →
      (p.src = u.groupRoot p.group → (u.lineAnswered p (w % 1024) (w / 1024 % 1024)).broken = none →
        exec (.mack p) s = .next (u.lineAnswered p (w % 1024) (w / 1024 % 1024))) ∧
      (p.src ≠ u.groupRoot p.group → exec (.mack p) s = .next u)) ∧
    (p.op = 0xDA → ∃ note : PlanNote, exec (.mgt p) s = .next { u with planNotes := u.planNotes ++ [note] } ∧
      note.dev = p.src ∧ note.ctx = p.ctx ∧ note.crc = field p.data 0 4 ∧ note.tensor = field p.data 4 8 ∧
      note.obj = field p.data 12 4 ∧ note.off = field p.data 16 8 ∧ note.kind = field p.data 24 1 ∧ note.turn = field p.data 25 4) ∧
    (p.op = 0xDC → (u.lineRefused p (field p.data 0 2) (field p.data 2 1)).broken = none →
      exec (.mgt p) s = .next (u.lineRefused p (field p.data 0 2) (field p.data 2 1))) ∧
    (p.op = 1 → p.src ≠ s.device → exec (.mgt p) s = .next { u with dbghold := u.dbghold + 1 }) ∧ (p.op = 2 → p.src ≠ s.device → exec (.mgt p) s = .next { u with dbghold := u.dbghold - 1 }) ∧
    (p.op = 3 → let k := field p.data 0 1 % 8
      let v := { u with lostPlanes := u.lostPlanes ||| BitVec.ofNat 8 (2 ^ k) }.remapPlane k 0
      v.broken = none → exec (.mgt p) s = .next v) ∧
    (p.op ∉ [(0xDA : BitVec 8), 0xDC, 1, 2, 3] → exec (.mgt p) s = .next u)

end
end

