-- ==== Sys2Proof/Laws/State.lean ====
section
/-! SUPPORT. What each plain update of State leaves as it was: one lemma for each field and each update. -/

namespace Sys2Proof.Machine

/-! ### modThread changes `threads` alone -/

@[simp] theorem State.modThread_issue (s : State) (t : Tid) (f : Thread → Thread) : (s.modThread t f).issue = s.issue := rfl
@[simp] theorem State.modThread_agenda (s : State) (t : Tid) (f : Thread → Thread) : (s.modThread t f).agenda = s.agenda := rfl
@[simp] theorem State.modThread_tick (s : State) (t : Tid) (f : Thread → Thread) : (s.modThread t f).tick = s.tick := rfl
@[simp] theorem State.modThread_broken (s : State) (t : Tid) (f : Thread → Thread) : (s.modThread t f).broken = s.broken := rfl
@[simp] theorem State.modThread_vregs (s : State) (t : Tid) (f : Thread → Thread) : (s.modThread t f).vregs = s.vregs := rfl
@[simp] theorem State.modThread_fills (s : State) (t : Tid) (f : Thread → Thread) : (s.modThread t f).fills = s.fills := rfl
@[simp] theorem State.modThread_uregs (s : State) (t : Tid) (f : Thread → Thread) : (s.modThread t f).uregs = s.uregs := rfl
@[simp] theorem State.modThread_tiles (s : State) (t : Tid) (f : Thread → Thread) : (s.modThread t f).tiles = s.tiles := rfl
@[simp] theorem State.modThread_groups (s : State) (t : Tid) (f : Thread → Thread) : (s.modThread t f).groups = s.groups := rfl
@[simp] theorem State.modThread_blocks (s : State) (t : Tid) (f : Thread → Thread) : (s.modThread t f).blocks = s.blocks := rfl
@[simp] theorem State.modThread_regions (s : State) (t : Tid) (f : Thread → Thread) : (s.modThread t f).regions = s.regions := rfl
@[simp] theorem State.modThread_kept (s : State) (t : Tid) (f : Thread → Thread) : (s.modThread t f).kept = s.kept := rfl
@[simp] theorem State.modThread_cores (s : State) (t : Tid) (f : Thread → Thread) : (s.modThread t f).cores = s.cores := rfl
@[simp] theorem State.modThread_places (s : State) (t : Tid) (f : Thread → Thread) : (s.modThread t f).places = s.places := rfl
@[simp] theorem State.modThread_planNotes (s : State) (t : Tid) (f : Thread → Thread) : (s.modThread t f).planNotes = s.planNotes := rfl
@[simp] theorem State.modThread_placeTurns (s : State) (t : Tid) (f : Thread → Thread) : (s.modThread t f).placeTurns = s.placeTurns := rfl
@[simp] theorem State.modThread_openBytes (s : State) (t : Tid) (f : Thread → Thread) : (s.modThread t f).openBytes = s.openBytes := rfl
@[simp] theorem State.modThread_nextId (s : State) (t : Tid) (f : Thread → Thread) : (s.modThread t f).nextId = s.nextId := rfl
@[simp] theorem State.modThread_vault (s : State) (t : Tid) (f : Thread → Thread) : (s.modThread t f).vault = s.vault := rfl
@[simp] theorem State.modThread_pool (s : State) (t : Tid) (f : Thread → Thread) : (s.modThread t f).pool = s.pool := rfl
@[simp] theorem State.modThread_locals (s : State) (t : Tid) (f : Thread → Thread) : (s.modThread t f).locals = s.locals := rfl
@[simp] theorem State.modThread_poisonVault (s : State) (t : Tid) (f : Thread → Thread) : (s.modThread t f).poisonVault = s.poisonVault := rfl
@[simp] theorem State.modThread_poisonPool (s : State) (t : Tid) (f : Thread → Thread) : (s.modThread t f).poisonPool = s.poisonPool := rfl
@[simp] theorem State.modThread_poisonLocal (s : State) (t : Tid) (f : Thread → Thread) : (s.modThread t f).poisonLocal = s.poisonLocal := rfl
@[simp] theorem State.modThread_poolGrants (s : State) (t : Tid) (f : Thread → Thread) : (s.modThread t f).poolGrants = s.poolGrants := rfl
@[simp] theorem State.modThread_poolRefusals (s : State) (t : Tid) (f : Thread → Thread) : (s.modThread t f).poolRefusals = s.poolRefusals := rfl
@[simp] theorem State.modThread_oldCode (s : State) (t : Tid) (f : Thread → Thread) : (s.modThread t f).oldCode = s.oldCode := rfl
@[simp] theorem State.modThread_torn (s : State) (t : Tid) (f : Thread → Thread) : (s.modThread t f).torn = s.torn := rfl
@[simp] theorem State.modThread_oldViews (s : State) (t : Tid) (f : Thread → Thread) : (s.modThread t f).oldViews = s.oldViews := rfl
@[simp] theorem State.modThread_racedOps (s : State) (t : Tid) (f : Thread → Thread) : (s.modThread t f).racedOps = s.racedOps := rfl
@[simp] theorem State.modThread_ctxs (s : State) (t : Tid) (f : Thread → Thread) : (s.modThread t f).ctxs = s.ctxs := rfl
@[simp] theorem State.modThread_queues (s : State) (t : Tid) (f : Thread → Thread) : (s.modThread t f).queues = s.queues := rfl
@[simp] theorem State.modThread_turn (s : State) (t : Tid) (f : Thread → Thread) : (s.modThread t f).turn = s.turn := rfl
@[simp] theorem State.modThread_counters (s : State) (t : Tid) (f : Thread → Thread) : (s.modThread t f).counters = s.counters := rfl
@[simp] theorem State.modThread_launches (s : State) (t : Tid) (f : Thread → Thread) : (s.modThread t f).launches = s.launches := rfl
@[simp] theorem State.modThread_nextLaunch (s : State) (t : Tid) (f : Thread → Thread) : (s.modThread t f).nextLaunch = s.nextLaunch := rfl
@[simp] theorem State.modThread_pageRing (s : State) (t : Tid) (f : Thread → Thread) : (s.modThread t f).pageRing = s.pageRing := rfl
@[simp] theorem State.modThread_registering (s : State) (t : Tid) (f : Thread → Thread) : (s.modThread t f).registering = s.registering := rfl
@[simp] theorem State.modThread_pageOps (s : State) (t : Tid) (f : Thread → Thread) : (s.modThread t f).pageOps = s.pageOps := rfl
@[simp] theorem State.modThread_prefetched (s : State) (t : Tid) (f : Thread → Thread) : (s.modThread t f).prefetched = s.prefetched := rfl
@[simp] theorem State.modThread_viewOps (s : State) (t : Tid) (f : Thread → Thread) : (s.modThread t f).viewOps = s.viewOps := rfl
@[simp] theorem State.modThread_coverage (s : State) (t : Tid) (f : Thread → Thread) : (s.modThread t f).coverage = s.coverage := rfl
@[simp] theorem State.modThread_links (s : State) (t : Tid) (f : Thread → Thread) : (s.modThread t f).links = s.links := rfl
@[simp] theorem State.modThread_planemap (s : State) (t : Tid) (f : Thread → Thread) : (s.modThread t f).planemap = s.planemap := rfl
@[simp] theorem State.modThread_nextTags (s : State) (t : Tid) (f : Thread → Thread) : (s.modThread t f).nextTags = s.nextTags := rfl
@[simp] theorem State.modThread_requests (s : State) (t : Tid) (f : Thread → Thread) : (s.modThread t f).requests = s.requests := rfl
@[simp] theorem State.modThread_fetched (s : State) (t : Tid) (f : Thread → Thread) : (s.modThread t f).fetched = s.fetched := rfl
@[simp] theorem State.modThread_responses (s : State) (t : Tid) (f : Thread → Thread) : (s.modThread t f).responses = s.responses := rfl
@[simp] theorem State.modThread_routes (s : State) (t : Tid) (f : Thread → Thread) : (s.modThread t f).routes = s.routes := rfl
@[simp] theorem State.modThread_groupTable (s : State) (t : Tid) (f : Thread → Thread) : (s.modThread t f).groupTable = s.groupTable := rfl
@[simp] theorem State.modThread_combines (s : State) (t : Tid) (f : Thread → Thread) : (s.modThread t f).combines = s.combines := rfl
@[simp] theorem State.modThread_memberLines (s : State) (t : Tid) (f : Thread → Thread) : (s.modThread t f).memberLines = s.memberLines := rfl
@[simp] theorem State.modThread_dbghold (s : State) (t : Tid) (f : Thread → Thread) : (s.modThread t f).dbghold = s.dbghold := rfl
@[simp] theorem State.modThread_deepHalt (s : State) (t : Tid) (f : Thread → Thread) : (s.modThread t f).deepHalt = s.deepHalt := rfl
@[simp] theorem State.modThread_debugHalt (s : State) (t : Tid) (f : Thread → Thread) : (s.modThread t f).debugHalt = s.debugHalt := rfl
@[simp] theorem State.modThread_outbox (s : State) (t : Tid) (f : Thread → Thread) : (s.modThread t f).outbox = s.outbox := rfl
@[simp] theorem State.modThread_wire (s : State) (t : Tid) (f : Thread → Thread) : (s.modThread t f).wire = s.wire := rfl
@[simp] theorem State.modThread_linkClock (s : State) (t : Tid) (f : Thread → Thread) : (s.modThread t f).linkClock = s.linkClock := rfl
@[simp] theorem State.modThread_lostPlanes (s : State) (t : Tid) (f : Thread → Thread) : (s.modThread t f).lostPlanes = s.lostPlanes := rfl
@[simp] theorem State.modThread_inbox (s : State) (t : Tid) (f : Thread → Thread) : (s.modThread t f).inbox = s.inbox := rfl
@[simp] theorem State.modThread_failedDevices (s : State) (t : Tid) (f : Thread → Thread) : (s.modThread t f).failedDevices = s.failedDevices := rfl
@[simp] theorem State.modThread_slowLog (s : State) (t : Tid) (f : Thread → Thread) : (s.modThread t f).slowLog = s.slowLog := rfl
@[simp] theorem State.modThread_powered (s : State) (t : Tid) (f : Thread → Thread) : (s.modThread t f).powered = s.powered := rfl
@[simp] theorem State.modThread_device (s : State) (t : Tid) (f : Thread → Thread) : (s.modThread t f).device = s.device := rfl
@[simp] theorem State.modThread_position (s : State) (t : Tid) (f : Thread → Thread) : (s.modThread t f).position = s.position := rfl
@[simp] theorem State.modThread_ready (s : State) (t : Tid) (f : Thread → Thread) : (s.modThread t f).ready = s.ready := rfl
@[simp] theorem State.modThread_error (s : State) (t : Tid) (f : Thread → Thread) : (s.modThread t f).error = s.error := rfl
@[simp] theorem State.modThread_host2 (s : State) (t : Tid) (f : Thread → Thread) : (s.modThread t f).host2 = s.host2 := rfl
@[simp] theorem State.modThread_bootStep (s : State) (t : Tid) (f : Thread → Thread) : (s.modThread t f).bootStep = s.bootStep := rfl
@[simp] theorem State.modThread_badClusters (s : State) (t : Tid) (f : Thread → Thread) : (s.modThread t f).badClusters = s.badClusters := rfl
@[simp] theorem State.modThread_badQuarters (s : State) (t : Tid) (f : Thread → Thread) : (s.modThread t f).badQuarters = s.badQuarters := rfl
@[simp] theorem State.modThread_power (s : State) (t : Tid) (f : Thread → Thread) : (s.modThread t f).power = s.power := rfl
@[simp] theorem State.modThread_gated (s : State) (t : Tid) (f : Thread → Thread) : (s.modThread t f).gated = s.gated := rfl
@[simp] theorem State.modThread_pwrReq (s : State) (t : Tid) (f : Thread → Thread) : (s.modThread t f).pwrReq = s.pwrReq := rfl
@[simp] theorem State.modThread_lifecycle (s : State) (t : Tid) (f : Thread → Thread) : (s.modThread t f).lifecycle = s.lifecycle := rfl
@[simp] theorem State.modThread_debug (s : State) (t : Tid) (f : Thread → Thread) : (s.modThread t f).debug = s.debug := rfl
@[simp] theorem State.modThread_identity (s : State) (t : Tid) (f : Thread → Thread) : (s.modThread t f).identity = s.identity := rfl
@[simp] theorem State.modThread_skews (s : State) (t : Tid) (f : Thread → Thread) : (s.modThread t f).skews = s.skews := rfl
@[simp] theorem State.modThread_softErrors (s : State) (t : Tid) (f : Thread → Thread) : (s.modThread t f).softErrors = s.softErrors := rfl
@[simp] theorem State.modThread_quarterClocks (s : State) (t : Tid) (f : Thread → Thread) : (s.modThread t f).quarterClocks = s.quarterClocks := rfl
@[simp] theorem State.modThread_replies (s : State) (t : Tid) (f : Thread → Thread) : (s.modThread t f).replies = s.replies := rfl

/-! ### modThreads changes `threads` alone -/

@[simp] theorem State.modThreads_issue (s : State) (ts : List Tid) (f : Thread → Thread) : (s.modThreads ts f).issue = s.issue := rfl
@[simp] theorem State.modThreads_agenda (s : State) (ts : List Tid) (f : Thread → Thread) : (s.modThreads ts f).agenda = s.agenda := rfl
@[simp] theorem State.modThreads_tick (s : State) (ts : List Tid) (f : Thread → Thread) : (s.modThreads ts f).tick = s.tick := rfl
@[simp] theorem State.modThreads_broken (s : State) (ts : List Tid) (f : Thread → Thread) : (s.modThreads ts f).broken = s.broken := rfl
@[simp] theorem State.modThreads_vregs (s : State) (ts : List Tid) (f : Thread → Thread) : (s.modThreads ts f).vregs = s.vregs := rfl
@[simp] theorem State.modThreads_fills (s : State) (ts : List Tid) (f : Thread → Thread) : (s.modThreads ts f).fills = s.fills := rfl
@[simp] theorem State.modThreads_uregs (s : State) (ts : List Tid) (f : Thread → Thread) : (s.modThreads ts f).uregs = s.uregs := rfl
@[simp] theorem State.modThreads_tiles (s : State) (ts : List Tid) (f : Thread → Thread) : (s.modThreads ts f).tiles = s.tiles := rfl
@[simp] theorem State.modThreads_groups (s : State) (ts : List Tid) (f : Thread → Thread) : (s.modThreads ts f).groups = s.groups := rfl
@[simp] theorem State.modThreads_blocks (s : State) (ts : List Tid) (f : Thread → Thread) : (s.modThreads ts f).blocks = s.blocks := rfl
@[simp] theorem State.modThreads_regions (s : State) (ts : List Tid) (f : Thread → Thread) : (s.modThreads ts f).regions = s.regions := rfl
@[simp] theorem State.modThreads_kept (s : State) (ts : List Tid) (f : Thread → Thread) : (s.modThreads ts f).kept = s.kept := rfl
@[simp] theorem State.modThreads_cores (s : State) (ts : List Tid) (f : Thread → Thread) : (s.modThreads ts f).cores = s.cores := rfl
@[simp] theorem State.modThreads_places (s : State) (ts : List Tid) (f : Thread → Thread) : (s.modThreads ts f).places = s.places := rfl
@[simp] theorem State.modThreads_planNotes (s : State) (ts : List Tid) (f : Thread → Thread) : (s.modThreads ts f).planNotes = s.planNotes := rfl
@[simp] theorem State.modThreads_placeTurns (s : State) (ts : List Tid) (f : Thread → Thread) : (s.modThreads ts f).placeTurns = s.placeTurns := rfl
@[simp] theorem State.modThreads_openBytes (s : State) (ts : List Tid) (f : Thread → Thread) : (s.modThreads ts f).openBytes = s.openBytes := rfl
@[simp] theorem State.modThreads_nextId (s : State) (ts : List Tid) (f : Thread → Thread) : (s.modThreads ts f).nextId = s.nextId := rfl
@[simp] theorem State.modThreads_vault (s : State) (ts : List Tid) (f : Thread → Thread) : (s.modThreads ts f).vault = s.vault := rfl
@[simp] theorem State.modThreads_pool (s : State) (ts : List Tid) (f : Thread → Thread) : (s.modThreads ts f).pool = s.pool := rfl
@[simp] theorem State.modThreads_locals (s : State) (ts : List Tid) (f : Thread → Thread) : (s.modThreads ts f).locals = s.locals := rfl
@[simp] theorem State.modThreads_poisonVault (s : State) (ts : List Tid) (f : Thread → Thread) : (s.modThreads ts f).poisonVault = s.poisonVault := rfl
@[simp] theorem State.modThreads_poisonPool (s : State) (ts : List Tid) (f : Thread → Thread) : (s.modThreads ts f).poisonPool = s.poisonPool := rfl
@[simp] theorem State.modThreads_poisonLocal (s : State) (ts : List Tid) (f : Thread → Thread) : (s.modThreads ts f).poisonLocal = s.poisonLocal := rfl
@[simp] theorem State.modThreads_poolGrants (s : State) (ts : List Tid) (f : Thread → Thread) : (s.modThreads ts f).poolGrants = s.poolGrants := rfl
@[simp] theorem State.modThreads_poolRefusals (s : State) (ts : List Tid) (f : Thread → Thread) : (s.modThreads ts f).poolRefusals = s.poolRefusals := rfl
@[simp] theorem State.modThreads_oldCode (s : State) (ts : List Tid) (f : Thread → Thread) : (s.modThreads ts f).oldCode = s.oldCode := rfl
@[simp] theorem State.modThreads_torn (s : State) (ts : List Tid) (f : Thread → Thread) : (s.modThreads ts f).torn = s.torn := rfl
@[simp] theorem State.modThreads_oldViews (s : State) (ts : List Tid) (f : Thread → Thread) : (s.modThreads ts f).oldViews = s.oldViews := rfl
@[simp] theorem State.modThreads_racedOps (s : State) (ts : List Tid) (f : Thread → Thread) : (s.modThreads ts f).racedOps = s.racedOps := rfl
@[simp] theorem State.modThreads_ctxs (s : State) (ts : List Tid) (f : Thread → Thread) : (s.modThreads ts f).ctxs = s.ctxs := rfl
@[simp] theorem State.modThreads_queues (s : State) (ts : List Tid) (f : Thread → Thread) : (s.modThreads ts f).queues = s.queues := rfl
@[simp] theorem State.modThreads_turn (s : State) (ts : List Tid) (f : Thread → Thread) : (s.modThreads ts f).turn = s.turn := rfl
@[simp] theorem State.modThreads_counters (s : State) (ts : List Tid) (f : Thread → Thread) : (s.modThreads ts f).counters = s.counters := rfl
@[simp] theorem State.modThreads_launches (s : State) (ts : List Tid) (f : Thread → Thread) : (s.modThreads ts f).launches = s.launches := rfl
@[simp] theorem State.modThreads_nextLaunch (s : State) (ts : List Tid) (f : Thread → Thread) : (s.modThreads ts f).nextLaunch = s.nextLaunch := rfl
@[simp] theorem State.modThreads_pageRing (s : State) (ts : List Tid) (f : Thread → Thread) : (s.modThreads ts f).pageRing = s.pageRing := rfl
@[simp] theorem State.modThreads_registering (s : State) (ts : List Tid) (f : Thread → Thread) : (s.modThreads ts f).registering = s.registering := rfl
@[simp] theorem State.modThreads_pageOps (s : State) (ts : List Tid) (f : Thread → Thread) : (s.modThreads ts f).pageOps = s.pageOps := rfl
@[simp] theorem State.modThreads_prefetched (s : State) (ts : List Tid) (f : Thread → Thread) : (s.modThreads ts f).prefetched = s.prefetched := rfl
@[simp] theorem State.modThreads_viewOps (s : State) (ts : List Tid) (f : Thread → Thread) : (s.modThreads ts f).viewOps = s.viewOps := rfl
@[simp] theorem State.modThreads_coverage (s : State) (ts : List Tid) (f : Thread → Thread) : (s.modThreads ts f).coverage = s.coverage := rfl
@[simp] theorem State.modThreads_links (s : State) (ts : List Tid) (f : Thread → Thread) : (s.modThreads ts f).links = s.links := rfl
@[simp] theorem State.modThreads_planemap (s : State) (ts : List Tid) (f : Thread → Thread) : (s.modThreads ts f).planemap = s.planemap := rfl
@[simp] theorem State.modThreads_nextTags (s : State) (ts : List Tid) (f : Thread → Thread) : (s.modThreads ts f).nextTags = s.nextTags := rfl
@[simp] theorem State.modThreads_requests (s : State) (ts : List Tid) (f : Thread → Thread) : (s.modThreads ts f).requests = s.requests := rfl
@[simp] theorem State.modThreads_fetched (s : State) (ts : List Tid) (f : Thread → Thread) : (s.modThreads ts f).fetched = s.fetched := rfl
@[simp] theorem State.modThreads_responses (s : State) (ts : List Tid) (f : Thread → Thread) : (s.modThreads ts f).responses = s.responses := rfl
@[simp] theorem State.modThreads_routes (s : State) (ts : List Tid) (f : Thread → Thread) : (s.modThreads ts f).routes = s.routes := rfl
@[simp] theorem State.modThreads_groupTable (s : State) (ts : List Tid) (f : Thread → Thread) : (s.modThreads ts f).groupTable = s.groupTable := rfl
@[simp] theorem State.modThreads_combines (s : State) (ts : List Tid) (f : Thread → Thread) : (s.modThreads ts f).combines = s.combines := rfl
@[simp] theorem State.modThreads_memberLines (s : State) (ts : List Tid) (f : Thread → Thread) : (s.modThreads ts f).memberLines = s.memberLines := rfl
@[simp] theorem State.modThreads_dbghold (s : State) (ts : List Tid) (f : Thread → Thread) : (s.modThreads ts f).dbghold = s.dbghold := rfl
@[simp] theorem State.modThreads_deepHalt (s : State) (ts : List Tid) (f : Thread → Thread) : (s.modThreads ts f).deepHalt = s.deepHalt := rfl
@[simp] theorem State.modThreads_debugHalt (s : State) (ts : List Tid) (f : Thread → Thread) : (s.modThreads ts f).debugHalt = s.debugHalt := rfl
@[simp] theorem State.modThreads_outbox (s : State) (ts : List Tid) (f : Thread → Thread) : (s.modThreads ts f).outbox = s.outbox := rfl
@[simp] theorem State.modThreads_wire (s : State) (ts : List Tid) (f : Thread → Thread) : (s.modThreads ts f).wire = s.wire := rfl
@[simp] theorem State.modThreads_linkClock (s : State) (ts : List Tid) (f : Thread → Thread) : (s.modThreads ts f).linkClock = s.linkClock := rfl
@[simp] theorem State.modThreads_lostPlanes (s : State) (ts : List Tid) (f : Thread → Thread) : (s.modThreads ts f).lostPlanes = s.lostPlanes := rfl
@[simp] theorem State.modThreads_inbox (s : State) (ts : List Tid) (f : Thread → Thread) : (s.modThreads ts f).inbox = s.inbox := rfl
@[simp] theorem State.modThreads_failedDevices (s : State) (ts : List Tid) (f : Thread → Thread) : (s.modThreads ts f).failedDevices = s.failedDevices := rfl
@[simp] theorem State.modThreads_slowLog (s : State) (ts : List Tid) (f : Thread → Thread) : (s.modThreads ts f).slowLog = s.slowLog := rfl
@[simp] theorem State.modThreads_powered (s : State) (ts : List Tid) (f : Thread → Thread) : (s.modThreads ts f).powered = s.powered := rfl
@[simp] theorem State.modThreads_device (s : State) (ts : List Tid) (f : Thread → Thread) : (s.modThreads ts f).device = s.device := rfl
@[simp] theorem State.modThreads_position (s : State) (ts : List Tid) (f : Thread → Thread) : (s.modThreads ts f).position = s.position := rfl
@[simp] theorem State.modThreads_ready (s : State) (ts : List Tid) (f : Thread → Thread) : (s.modThreads ts f).ready = s.ready := rfl
@[simp] theorem State.modThreads_error (s : State) (ts : List Tid) (f : Thread → Thread) : (s.modThreads ts f).error = s.error := rfl
@[simp] theorem State.modThreads_host2 (s : State) (ts : List Tid) (f : Thread → Thread) : (s.modThreads ts f).host2 = s.host2 := rfl
@[simp] theorem State.modThreads_bootStep (s : State) (ts : List Tid) (f : Thread → Thread) : (s.modThreads ts f).bootStep = s.bootStep := rfl
@[simp] theorem State.modThreads_badClusters (s : State) (ts : List Tid) (f : Thread → Thread) : (s.modThreads ts f).badClusters = s.badClusters := rfl
@[simp] theorem State.modThreads_badQuarters (s : State) (ts : List Tid) (f : Thread → Thread) : (s.modThreads ts f).badQuarters = s.badQuarters := rfl
@[simp] theorem State.modThreads_power (s : State) (ts : List Tid) (f : Thread → Thread) : (s.modThreads ts f).power = s.power := rfl
@[simp] theorem State.modThreads_gated (s : State) (ts : List Tid) (f : Thread → Thread) : (s.modThreads ts f).gated = s.gated := rfl
@[simp] theorem State.modThreads_pwrReq (s : State) (ts : List Tid) (f : Thread → Thread) : (s.modThreads ts f).pwrReq = s.pwrReq := rfl
@[simp] theorem State.modThreads_lifecycle (s : State) (ts : List Tid) (f : Thread → Thread) : (s.modThreads ts f).lifecycle = s.lifecycle := rfl
@[simp] theorem State.modThreads_debug (s : State) (ts : List Tid) (f : Thread → Thread) : (s.modThreads ts f).debug = s.debug := rfl
@[simp] theorem State.modThreads_identity (s : State) (ts : List Tid) (f : Thread → Thread) : (s.modThreads ts f).identity = s.identity := rfl
@[simp] theorem State.modThreads_skews (s : State) (ts : List Tid) (f : Thread → Thread) : (s.modThreads ts f).skews = s.skews := rfl
@[simp] theorem State.modThreads_softErrors (s : State) (ts : List Tid) (f : Thread → Thread) : (s.modThreads ts f).softErrors = s.softErrors := rfl
@[simp] theorem State.modThreads_quarterClocks (s : State) (ts : List Tid) (f : Thread → Thread) : (s.modThreads ts f).quarterClocks = s.quarterClocks := rfl
@[simp] theorem State.modThreads_replies (s : State) (ts : List Tid) (f : Thread → Thread) : (s.modThreads ts f).replies = s.replies := rfl

/-! ### modGroup changes `groups` alone -/

@[simp] theorem State.modGroup_issue (s : State) (b : BlockKey) (g : Nat) (f : Group → Group) : (s.modGroup b g f).issue = s.issue := rfl
@[simp] theorem State.modGroup_agenda (s : State) (b : BlockKey) (g : Nat) (f : Group → Group) : (s.modGroup b g f).agenda = s.agenda := rfl
@[simp] theorem State.modGroup_tick (s : State) (b : BlockKey) (g : Nat) (f : Group → Group) : (s.modGroup b g f).tick = s.tick := rfl
@[simp] theorem State.modGroup_broken (s : State) (b : BlockKey) (g : Nat) (f : Group → Group) : (s.modGroup b g f).broken = s.broken := rfl
@[simp] theorem State.modGroup_vregs (s : State) (b : BlockKey) (g : Nat) (f : Group → Group) : (s.modGroup b g f).vregs = s.vregs := rfl
@[simp] theorem State.modGroup_fills (s : State) (b : BlockKey) (g : Nat) (f : Group → Group) : (s.modGroup b g f).fills = s.fills := rfl
@[simp] theorem State.modGroup_uregs (s : State) (b : BlockKey) (g : Nat) (f : Group → Group) : (s.modGroup b g f).uregs = s.uregs := rfl
@[simp] theorem State.modGroup_tiles (s : State) (b : BlockKey) (g : Nat) (f : Group → Group) : (s.modGroup b g f).tiles = s.tiles := rfl
@[simp] theorem State.modGroup_threads (s : State) (b : BlockKey) (g : Nat) (f : Group → Group) : (s.modGroup b g f).threads = s.threads := rfl
@[simp] theorem State.modGroup_blocks (s : State) (b : BlockKey) (g : Nat) (f : Group → Group) : (s.modGroup b g f).blocks = s.blocks := rfl
@[simp] theorem State.modGroup_regions (s : State) (b : BlockKey) (g : Nat) (f : Group → Group) : (s.modGroup b g f).regions = s.regions := rfl
@[simp] theorem State.modGroup_kept (s : State) (b : BlockKey) (g : Nat) (f : Group → Group) : (s.modGroup b g f).kept = s.kept := rfl
@[simp] theorem State.modGroup_cores (s : State) (b : BlockKey) (g : Nat) (f : Group → Group) : (s.modGroup b g f).cores = s.cores := rfl
@[simp] theorem State.modGroup_places (s : State) (b : BlockKey) (g : Nat) (f : Group → Group) : (s.modGroup b g f).places = s.places := rfl
@[simp] theorem State.modGroup_planNotes (s : State) (b : BlockKey) (g : Nat) (f : Group → Group) : (s.modGroup b g f).planNotes = s.planNotes := rfl
@[simp] theorem State.modGroup_placeTurns (s : State) (b : BlockKey) (g : Nat) (f : Group → Group) : (s.modGroup b g f).placeTurns = s.placeTurns := rfl
@[simp] theorem State.modGroup_openBytes (s : State) (b : BlockKey) (g : Nat) (f : Group → Group) : (s.modGroup b g f).openBytes = s.openBytes := rfl
@[simp] theorem State.modGroup_nextId (s : State) (b : BlockKey) (g : Nat) (f : Group → Group) : (s.modGroup b g f).nextId = s.nextId := rfl
@[simp] theorem State.modGroup_vault (s : State) (b : BlockKey) (g : Nat) (f : Group → Group) : (s.modGroup b g f).vault = s.vault := rfl
@[simp] theorem State.modGroup_pool (s : State) (b : BlockKey) (g : Nat) (f : Group → Group) : (s.modGroup b g f).pool = s.pool := rfl
@[simp] theorem State.modGroup_locals (s : State) (b : BlockKey) (g : Nat) (f : Group → Group) : (s.modGroup b g f).locals = s.locals := rfl
@[simp] theorem State.modGroup_poisonVault (s : State) (b : BlockKey) (g : Nat) (f : Group → Group) : (s.modGroup b g f).poisonVault = s.poisonVault := rfl
@[simp] theorem State.modGroup_poisonPool (s : State) (b : BlockKey) (g : Nat) (f : Group → Group) : (s.modGroup b g f).poisonPool = s.poisonPool := rfl
@[simp] theorem State.modGroup_poisonLocal (s : State) (b : BlockKey) (g : Nat) (f : Group → Group) : (s.modGroup b g f).poisonLocal = s.poisonLocal := rfl
@[simp] theorem State.modGroup_poolGrants (s : State) (b : BlockKey) (g : Nat) (f : Group → Group) : (s.modGroup b g f).poolGrants = s.poolGrants := rfl
@[simp] theorem State.modGroup_poolRefusals (s : State) (b : BlockKey) (g : Nat) (f : Group → Group) : (s.modGroup b g f).poolRefusals = s.poolRefusals := rfl
@[simp] theorem State.modGroup_oldCode (s : State) (b : BlockKey) (g : Nat) (f : Group → Group) : (s.modGroup b g f).oldCode = s.oldCode := rfl
@[simp] theorem State.modGroup_torn (s : State) (b : BlockKey) (g : Nat) (f : Group → Group) : (s.modGroup b g f).torn = s.torn := rfl
@[simp] theorem State.modGroup_oldViews (s : State) (b : BlockKey) (g : Nat) (f : Group → Group) : (s.modGroup b g f).oldViews = s.oldViews := rfl
@[simp] theorem State.modGroup_racedOps (s : State) (b : BlockKey) (g : Nat) (f : Group → Group) : (s.modGroup b g f).racedOps = s.racedOps := rfl
@[simp] theorem State.modGroup_ctxs (s : State) (b : BlockKey) (g : Nat) (f : Group → Group) : (s.modGroup b g f).ctxs = s.ctxs := rfl
@[simp] theorem State.modGroup_queues (s : State) (b : BlockKey) (g : Nat) (f : Group → Group) : (s.modGroup b g f).queues = s.queues := rfl
@[simp] theorem State.modGroup_turn (s : State) (b : BlockKey) (g : Nat) (f : Group → Group) : (s.modGroup b g f).turn = s.turn := rfl
@[simp] theorem State.modGroup_counters (s : State) (b : BlockKey) (g : Nat) (f : Group → Group) : (s.modGroup b g f).counters = s.counters := rfl
@[simp] theorem State.modGroup_launches (s : State) (b : BlockKey) (g : Nat) (f : Group → Group) : (s.modGroup b g f).launches = s.launches := rfl
@[simp] theorem State.modGroup_nextLaunch (s : State) (b : BlockKey) (g : Nat) (f : Group → Group) : (s.modGroup b g f).nextLaunch = s.nextLaunch := rfl
@[simp] theorem State.modGroup_pageRing (s : State) (b : BlockKey) (g : Nat) (f : Group → Group) : (s.modGroup b g f).pageRing = s.pageRing := rfl
@[simp] theorem State.modGroup_registering (s : State) (b : BlockKey) (g : Nat) (f : Group → Group) : (s.modGroup b g f).registering = s.registering := rfl
@[simp] theorem State.modGroup_pageOps (s : State) (b : BlockKey) (g : Nat) (f : Group → Group) : (s.modGroup b g f).pageOps = s.pageOps := rfl
@[simp] theorem State.modGroup_prefetched (s : State) (b : BlockKey) (g : Nat) (f : Group → Group) : (s.modGroup b g f).prefetched = s.prefetched := rfl
@[simp] theorem State.modGroup_viewOps (s : State) (b : BlockKey) (g : Nat) (f : Group → Group) : (s.modGroup b g f).viewOps = s.viewOps := rfl
@[simp] theorem State.modGroup_coverage (s : State) (b : BlockKey) (g : Nat) (f : Group → Group) : (s.modGroup b g f).coverage = s.coverage := rfl
@[simp] theorem State.modGroup_links (s : State) (b : BlockKey) (g : Nat) (f : Group → Group) : (s.modGroup b g f).links = s.links := rfl
@[simp] theorem State.modGroup_planemap (s : State) (b : BlockKey) (g : Nat) (f : Group → Group) : (s.modGroup b g f).planemap = s.planemap := rfl
@[simp] theorem State.modGroup_nextTags (s : State) (b : BlockKey) (g : Nat) (f : Group → Group) : (s.modGroup b g f).nextTags = s.nextTags := rfl
@[simp] theorem State.modGroup_requests (s : State) (b : BlockKey) (g : Nat) (f : Group → Group) : (s.modGroup b g f).requests = s.requests := rfl
@[simp] theorem State.modGroup_fetched (s : State) (b : BlockKey) (g : Nat) (f : Group → Group) : (s.modGroup b g f).fetched = s.fetched := rfl
@[simp] theorem State.modGroup_responses (s : State) (b : BlockKey) (g : Nat) (f : Group → Group) : (s.modGroup b g f).responses = s.responses := rfl
@[simp] theorem State.modGroup_routes (s : State) (b : BlockKey) (g : Nat) (f : Group → Group) : (s.modGroup b g f).routes = s.routes := rfl
@[simp] theorem State.modGroup_groupTable (s : State) (b : BlockKey) (g : Nat) (f : Group → Group) : (s.modGroup b g f).groupTable = s.groupTable := rfl
@[simp] theorem State.modGroup_combines (s : State) (b : BlockKey) (g : Nat) (f : Group → Group) : (s.modGroup b g f).combines = s.combines := rfl
@[simp] theorem State.modGroup_memberLines (s : State) (b : BlockKey) (g : Nat) (f : Group → Group) : (s.modGroup b g f).memberLines = s.memberLines := rfl
@[simp] theorem State.modGroup_dbghold (s : State) (b : BlockKey) (g : Nat) (f : Group → Group) : (s.modGroup b g f).dbghold = s.dbghold := rfl
@[simp] theorem State.modGroup_deepHalt (s : State) (b : BlockKey) (g : Nat) (f : Group → Group) : (s.modGroup b g f).deepHalt = s.deepHalt := rfl
@[simp] theorem State.modGroup_debugHalt (s : State) (b : BlockKey) (g : Nat) (f : Group → Group) : (s.modGroup b g f).debugHalt = s.debugHalt := rfl
@[simp] theorem State.modGroup_outbox (s : State) (b : BlockKey) (g : Nat) (f : Group → Group) : (s.modGroup b g f).outbox = s.outbox := rfl
@[simp] theorem State.modGroup_wire (s : State) (b : BlockKey) (g : Nat) (f : Group → Group) : (s.modGroup b g f).wire = s.wire := rfl
@[simp] theorem State.modGroup_linkClock (s : State) (b : BlockKey) (g : Nat) (f : Group → Group) : (s.modGroup b g f).linkClock = s.linkClock := rfl
@[simp] theorem State.modGroup_lostPlanes (s : State) (b : BlockKey) (g : Nat) (f : Group → Group) : (s.modGroup b g f).lostPlanes = s.lostPlanes := rfl
@[simp] theorem State.modGroup_inbox (s : State) (b : BlockKey) (g : Nat) (f : Group → Group) : (s.modGroup b g f).inbox = s.inbox := rfl
@[simp] theorem State.modGroup_failedDevices (s : State) (b : BlockKey) (g : Nat) (f : Group → Group) : (s.modGroup b g f).failedDevices = s.failedDevices := rfl
@[simp] theorem State.modGroup_slowLog (s : State) (b : BlockKey) (g : Nat) (f : Group → Group) : (s.modGroup b g f).slowLog = s.slowLog := rfl
@[simp] theorem State.modGroup_powered (s : State) (b : BlockKey) (g : Nat) (f : Group → Group) : (s.modGroup b g f).powered = s.powered := rfl
@[simp] theorem State.modGroup_device (s : State) (b : BlockKey) (g : Nat) (f : Group → Group) : (s.modGroup b g f).device = s.device := rfl
@[simp] theorem State.modGroup_position (s : State) (b : BlockKey) (g : Nat) (f : Group → Group) : (s.modGroup b g f).position = s.position := rfl
@[simp] theorem State.modGroup_ready (s : State) (b : BlockKey) (g : Nat) (f : Group → Group) : (s.modGroup b g f).ready = s.ready := rfl
@[simp] theorem State.modGroup_error (s : State) (b : BlockKey) (g : Nat) (f : Group → Group) : (s.modGroup b g f).error = s.error := rfl
@[simp] theorem State.modGroup_host2 (s : State) (b : BlockKey) (g : Nat) (f : Group → Group) : (s.modGroup b g f).host2 = s.host2 := rfl
@[simp] theorem State.modGroup_bootStep (s : State) (b : BlockKey) (g : Nat) (f : Group → Group) : (s.modGroup b g f).bootStep = s.bootStep := rfl
@[simp] theorem State.modGroup_badClusters (s : State) (b : BlockKey) (g : Nat) (f : Group → Group) : (s.modGroup b g f).badClusters = s.badClusters := rfl
@[simp] theorem State.modGroup_badQuarters (s : State) (b : BlockKey) (g : Nat) (f : Group → Group) : (s.modGroup b g f).badQuarters = s.badQuarters := rfl
@[simp] theorem State.modGroup_power (s : State) (b : BlockKey) (g : Nat) (f : Group → Group) : (s.modGroup b g f).power = s.power := rfl
@[simp] theorem State.modGroup_gated (s : State) (b : BlockKey) (g : Nat) (f : Group → Group) : (s.modGroup b g f).gated = s.gated := rfl
@[simp] theorem State.modGroup_pwrReq (s : State) (b : BlockKey) (g : Nat) (f : Group → Group) : (s.modGroup b g f).pwrReq = s.pwrReq := rfl
@[simp] theorem State.modGroup_lifecycle (s : State) (b : BlockKey) (g : Nat) (f : Group → Group) : (s.modGroup b g f).lifecycle = s.lifecycle := rfl
@[simp] theorem State.modGroup_debug (s : State) (b : BlockKey) (g : Nat) (f : Group → Group) : (s.modGroup b g f).debug = s.debug := rfl
@[simp] theorem State.modGroup_identity (s : State) (b : BlockKey) (g : Nat) (f : Group → Group) : (s.modGroup b g f).identity = s.identity := rfl
@[simp] theorem State.modGroup_skews (s : State) (b : BlockKey) (g : Nat) (f : Group → Group) : (s.modGroup b g f).skews = s.skews := rfl
@[simp] theorem State.modGroup_softErrors (s : State) (b : BlockKey) (g : Nat) (f : Group → Group) : (s.modGroup b g f).softErrors = s.softErrors := rfl
@[simp] theorem State.modGroup_quarterClocks (s : State) (b : BlockKey) (g : Nat) (f : Group → Group) : (s.modGroup b g f).quarterClocks = s.quarterClocks := rfl
@[simp] theorem State.modGroup_replies (s : State) (b : BlockKey) (g : Nat) (f : Group → Group) : (s.modGroup b g f).replies = s.replies := rfl

/-! ### modBlock changes `blocks` alone -/

@[simp] theorem State.modBlock_issue (s : State) (b : BlockKey) (f : Block → Block) : (s.modBlock b f).issue = s.issue := rfl
@[simp] theorem State.modBlock_agenda (s : State) (b : BlockKey) (f : Block → Block) : (s.modBlock b f).agenda = s.agenda := rfl
@[simp] theorem State.modBlock_tick (s : State) (b : BlockKey) (f : Block → Block) : (s.modBlock b f).tick = s.tick := rfl
@[simp] theorem State.modBlock_broken (s : State) (b : BlockKey) (f : Block → Block) : (s.modBlock b f).broken = s.broken := rfl
@[simp] theorem State.modBlock_vregs (s : State) (b : BlockKey) (f : Block → Block) : (s.modBlock b f).vregs = s.vregs := rfl
@[simp] theorem State.modBlock_fills (s : State) (b : BlockKey) (f : Block → Block) : (s.modBlock b f).fills = s.fills := rfl
@[simp] theorem State.modBlock_uregs (s : State) (b : BlockKey) (f : Block → Block) : (s.modBlock b f).uregs = s.uregs := rfl
@[simp] theorem State.modBlock_tiles (s : State) (b : BlockKey) (f : Block → Block) : (s.modBlock b f).tiles = s.tiles := rfl
@[simp] theorem State.modBlock_threads (s : State) (b : BlockKey) (f : Block → Block) : (s.modBlock b f).threads = s.threads := rfl
@[simp] theorem State.modBlock_groups (s : State) (b : BlockKey) (f : Block → Block) : (s.modBlock b f).groups = s.groups := rfl
@[simp] theorem State.modBlock_regions (s : State) (b : BlockKey) (f : Block → Block) : (s.modBlock b f).regions = s.regions := rfl
@[simp] theorem State.modBlock_kept (s : State) (b : BlockKey) (f : Block → Block) : (s.modBlock b f).kept = s.kept := rfl
@[simp] theorem State.modBlock_cores (s : State) (b : BlockKey) (f : Block → Block) : (s.modBlock b f).cores = s.cores := rfl
@[simp] theorem State.modBlock_places (s : State) (b : BlockKey) (f : Block → Block) : (s.modBlock b f).places = s.places := rfl
@[simp] theorem State.modBlock_planNotes (s : State) (b : BlockKey) (f : Block → Block) : (s.modBlock b f).planNotes = s.planNotes := rfl
@[simp] theorem State.modBlock_placeTurns (s : State) (b : BlockKey) (f : Block → Block) : (s.modBlock b f).placeTurns = s.placeTurns := rfl
@[simp] theorem State.modBlock_openBytes (s : State) (b : BlockKey) (f : Block → Block) : (s.modBlock b f).openBytes = s.openBytes := rfl
@[simp] theorem State.modBlock_nextId (s : State) (b : BlockKey) (f : Block → Block) : (s.modBlock b f).nextId = s.nextId := rfl
@[simp] theorem State.modBlock_vault (s : State) (b : BlockKey) (f : Block → Block) : (s.modBlock b f).vault = s.vault := rfl
@[simp] theorem State.modBlock_pool (s : State) (b : BlockKey) (f : Block → Block) : (s.modBlock b f).pool = s.pool := rfl
@[simp] theorem State.modBlock_locals (s : State) (b : BlockKey) (f : Block → Block) : (s.modBlock b f).locals = s.locals := rfl
@[simp] theorem State.modBlock_poisonVault (s : State) (b : BlockKey) (f : Block → Block) : (s.modBlock b f).poisonVault = s.poisonVault := rfl
@[simp] theorem State.modBlock_poisonPool (s : State) (b : BlockKey) (f : Block → Block) : (s.modBlock b f).poisonPool = s.poisonPool := rfl
@[simp] theorem State.modBlock_poisonLocal (s : State) (b : BlockKey) (f : Block → Block) : (s.modBlock b f).poisonLocal = s.poisonLocal := rfl
@[simp] theorem State.modBlock_poolGrants (s : State) (b : BlockKey) (f : Block → Block) : (s.modBlock b f).poolGrants = s.poolGrants := rfl
@[simp] theorem State.modBlock_poolRefusals (s : State) (b : BlockKey) (f : Block → Block) : (s.modBlock b f).poolRefusals = s.poolRefusals := rfl
@[simp] theorem State.modBlock_oldCode (s : State) (b : BlockKey) (f : Block → Block) : (s.modBlock b f).oldCode = s.oldCode := rfl
@[simp] theorem State.modBlock_torn (s : State) (b : BlockKey) (f : Block → Block) : (s.modBlock b f).torn = s.torn := rfl
@[simp] theorem State.modBlock_oldViews (s : State) (b : BlockKey) (f : Block → Block) : (s.modBlock b f).oldViews = s.oldViews := rfl
@[simp] theorem State.modBlock_racedOps (s : State) (b : BlockKey) (f : Block → Block) : (s.modBlock b f).racedOps = s.racedOps := rfl
@[simp] theorem State.modBlock_ctxs (s : State) (b : BlockKey) (f : Block → Block) : (s.modBlock b f).ctxs = s.ctxs := rfl
@[simp] theorem State.modBlock_queues (s : State) (b : BlockKey) (f : Block → Block) : (s.modBlock b f).queues = s.queues := rfl
@[simp] theorem State.modBlock_turn (s : State) (b : BlockKey) (f : Block → Block) : (s.modBlock b f).turn = s.turn := rfl
@[simp] theorem State.modBlock_counters (s : State) (b : BlockKey) (f : Block → Block) : (s.modBlock b f).counters = s.counters := rfl
@[simp] theorem State.modBlock_launches (s : State) (b : BlockKey) (f : Block → Block) : (s.modBlock b f).launches = s.launches := rfl
@[simp] theorem State.modBlock_nextLaunch (s : State) (b : BlockKey) (f : Block → Block) : (s.modBlock b f).nextLaunch = s.nextLaunch := rfl
@[simp] theorem State.modBlock_pageRing (s : State) (b : BlockKey) (f : Block → Block) : (s.modBlock b f).pageRing = s.pageRing := rfl
@[simp] theorem State.modBlock_registering (s : State) (b : BlockKey) (f : Block → Block) : (s.modBlock b f).registering = s.registering := rfl
@[simp] theorem State.modBlock_pageOps (s : State) (b : BlockKey) (f : Block → Block) : (s.modBlock b f).pageOps = s.pageOps := rfl
@[simp] theorem State.modBlock_prefetched (s : State) (b : BlockKey) (f : Block → Block) : (s.modBlock b f).prefetched = s.prefetched := rfl
@[simp] theorem State.modBlock_viewOps (s : State) (b : BlockKey) (f : Block → Block) : (s.modBlock b f).viewOps = s.viewOps := rfl
@[simp] theorem State.modBlock_coverage (s : State) (b : BlockKey) (f : Block → Block) : (s.modBlock b f).coverage = s.coverage := rfl
@[simp] theorem State.modBlock_links (s : State) (b : BlockKey) (f : Block → Block) : (s.modBlock b f).links = s.links := rfl
@[simp] theorem State.modBlock_planemap (s : State) (b : BlockKey) (f : Block → Block) : (s.modBlock b f).planemap = s.planemap := rfl
@[simp] theorem State.modBlock_nextTags (s : State) (b : BlockKey) (f : Block → Block) : (s.modBlock b f).nextTags = s.nextTags := rfl
@[simp] theorem State.modBlock_requests (s : State) (b : BlockKey) (f : Block → Block) : (s.modBlock b f).requests = s.requests := rfl
@[simp] theorem State.modBlock_fetched (s : State) (b : BlockKey) (f : Block → Block) : (s.modBlock b f).fetched = s.fetched := rfl
@[simp] theorem State.modBlock_responses (s : State) (b : BlockKey) (f : Block → Block) : (s.modBlock b f).responses = s.responses := rfl
@[simp] theorem State.modBlock_routes (s : State) (b : BlockKey) (f : Block → Block) : (s.modBlock b f).routes = s.routes := rfl
@[simp] theorem State.modBlock_groupTable (s : State) (b : BlockKey) (f : Block → Block) : (s.modBlock b f).groupTable = s.groupTable := rfl
@[simp] theorem State.modBlock_combines (s : State) (b : BlockKey) (f : Block → Block) : (s.modBlock b f).combines = s.combines := rfl
@[simp] theorem State.modBlock_memberLines (s : State) (b : BlockKey) (f : Block → Block) : (s.modBlock b f).memberLines = s.memberLines := rfl
@[simp] theorem State.modBlock_dbghold (s : State) (b : BlockKey) (f : Block → Block) : (s.modBlock b f).dbghold = s.dbghold := rfl
@[simp] theorem State.modBlock_deepHalt (s : State) (b : BlockKey) (f : Block → Block) : (s.modBlock b f).deepHalt = s.deepHalt := rfl
@[simp] theorem State.modBlock_debugHalt (s : State) (b : BlockKey) (f : Block → Block) : (s.modBlock b f).debugHalt = s.debugHalt := rfl
@[simp] theorem State.modBlock_outbox (s : State) (b : BlockKey) (f : Block → Block) : (s.modBlock b f).outbox = s.outbox := rfl
@[simp] theorem State.modBlock_wire (s : State) (b : BlockKey) (f : Block → Block) : (s.modBlock b f).wire = s.wire := rfl
@[simp] theorem State.modBlock_linkClock (s : State) (b : BlockKey) (f : Block → Block) : (s.modBlock b f).linkClock = s.linkClock := rfl
@[simp] theorem State.modBlock_lostPlanes (s : State) (b : BlockKey) (f : Block → Block) : (s.modBlock b f).lostPlanes = s.lostPlanes := rfl
@[simp] theorem State.modBlock_inbox (s : State) (b : BlockKey) (f : Block → Block) : (s.modBlock b f).inbox = s.inbox := rfl
@[simp] theorem State.modBlock_failedDevices (s : State) (b : BlockKey) (f : Block → Block) : (s.modBlock b f).failedDevices = s.failedDevices := rfl
@[simp] theorem State.modBlock_slowLog (s : State) (b : BlockKey) (f : Block → Block) : (s.modBlock b f).slowLog = s.slowLog := rfl
@[simp] theorem State.modBlock_powered (s : State) (b : BlockKey) (f : Block → Block) : (s.modBlock b f).powered = s.powered := rfl
@[simp] theorem State.modBlock_device (s : State) (b : BlockKey) (f : Block → Block) : (s.modBlock b f).device = s.device := rfl
@[simp] theorem State.modBlock_position (s : State) (b : BlockKey) (f : Block → Block) : (s.modBlock b f).position = s.position := rfl
@[simp] theorem State.modBlock_ready (s : State) (b : BlockKey) (f : Block → Block) : (s.modBlock b f).ready = s.ready := rfl
@[simp] theorem State.modBlock_error (s : State) (b : BlockKey) (f : Block → Block) : (s.modBlock b f).error = s.error := rfl
@[simp] theorem State.modBlock_host2 (s : State) (b : BlockKey) (f : Block → Block) : (s.modBlock b f).host2 = s.host2 := rfl
@[simp] theorem State.modBlock_bootStep (s : State) (b : BlockKey) (f : Block → Block) : (s.modBlock b f).bootStep = s.bootStep := rfl
@[simp] theorem State.modBlock_badClusters (s : State) (b : BlockKey) (f : Block → Block) : (s.modBlock b f).badClusters = s.badClusters := rfl
@[simp] theorem State.modBlock_badQuarters (s : State) (b : BlockKey) (f : Block → Block) : (s.modBlock b f).badQuarters = s.badQuarters := rfl
@[simp] theorem State.modBlock_power (s : State) (b : BlockKey) (f : Block → Block) : (s.modBlock b f).power = s.power := rfl
@[simp] theorem State.modBlock_gated (s : State) (b : BlockKey) (f : Block → Block) : (s.modBlock b f).gated = s.gated := rfl
@[simp] theorem State.modBlock_pwrReq (s : State) (b : BlockKey) (f : Block → Block) : (s.modBlock b f).pwrReq = s.pwrReq := rfl
@[simp] theorem State.modBlock_lifecycle (s : State) (b : BlockKey) (f : Block → Block) : (s.modBlock b f).lifecycle = s.lifecycle := rfl
@[simp] theorem State.modBlock_debug (s : State) (b : BlockKey) (f : Block → Block) : (s.modBlock b f).debug = s.debug := rfl
@[simp] theorem State.modBlock_identity (s : State) (b : BlockKey) (f : Block → Block) : (s.modBlock b f).identity = s.identity := rfl
@[simp] theorem State.modBlock_skews (s : State) (b : BlockKey) (f : Block → Block) : (s.modBlock b f).skews = s.skews := rfl
@[simp] theorem State.modBlock_softErrors (s : State) (b : BlockKey) (f : Block → Block) : (s.modBlock b f).softErrors = s.softErrors := rfl
@[simp] theorem State.modBlock_quarterClocks (s : State) (b : BlockKey) (f : Block → Block) : (s.modBlock b f).quarterClocks = s.quarterClocks := rfl
@[simp] theorem State.modBlock_replies (s : State) (b : BlockKey) (f : Block → Block) : (s.modBlock b f).replies = s.replies := rfl

/-! ### modRegion changes `regions` alone -/

@[simp] theorem State.modRegion_issue (s : State) (b : BlockKey) (a : Nat) (f : Region → Region) : (s.modRegion b a f).issue = s.issue := rfl
@[simp] theorem State.modRegion_agenda (s : State) (b : BlockKey) (a : Nat) (f : Region → Region) : (s.modRegion b a f).agenda = s.agenda := rfl
@[simp] theorem State.modRegion_tick (s : State) (b : BlockKey) (a : Nat) (f : Region → Region) : (s.modRegion b a f).tick = s.tick := rfl
@[simp] theorem State.modRegion_broken (s : State) (b : BlockKey) (a : Nat) (f : Region → Region) : (s.modRegion b a f).broken = s.broken := rfl
@[simp] theorem State.modRegion_vregs (s : State) (b : BlockKey) (a : Nat) (f : Region → Region) : (s.modRegion b a f).vregs = s.vregs := rfl
@[simp] theorem State.modRegion_fills (s : State) (b : BlockKey) (a : Nat) (f : Region → Region) : (s.modRegion b a f).fills = s.fills := rfl
@[simp] theorem State.modRegion_uregs (s : State) (b : BlockKey) (a : Nat) (f : Region → Region) : (s.modRegion b a f).uregs = s.uregs := rfl
@[simp] theorem State.modRegion_tiles (s : State) (b : BlockKey) (a : Nat) (f : Region → Region) : (s.modRegion b a f).tiles = s.tiles := rfl
@[simp] theorem State.modRegion_threads (s : State) (b : BlockKey) (a : Nat) (f : Region → Region) : (s.modRegion b a f).threads = s.threads := rfl
@[simp] theorem State.modRegion_groups (s : State) (b : BlockKey) (a : Nat) (f : Region → Region) : (s.modRegion b a f).groups = s.groups := rfl
@[simp] theorem State.modRegion_blocks (s : State) (b : BlockKey) (a : Nat) (f : Region → Region) : (s.modRegion b a f).blocks = s.blocks := rfl
@[simp] theorem State.modRegion_kept (s : State) (b : BlockKey) (a : Nat) (f : Region → Region) : (s.modRegion b a f).kept = s.kept := rfl
@[simp] theorem State.modRegion_cores (s : State) (b : BlockKey) (a : Nat) (f : Region → Region) : (s.modRegion b a f).cores = s.cores := rfl
@[simp] theorem State.modRegion_places (s : State) (b : BlockKey) (a : Nat) (f : Region → Region) : (s.modRegion b a f).places = s.places := rfl
@[simp] theorem State.modRegion_planNotes (s : State) (b : BlockKey) (a : Nat) (f : Region → Region) : (s.modRegion b a f).planNotes = s.planNotes := rfl
@[simp] theorem State.modRegion_placeTurns (s : State) (b : BlockKey) (a : Nat) (f : Region → Region) : (s.modRegion b a f).placeTurns = s.placeTurns := rfl
@[simp] theorem State.modRegion_openBytes (s : State) (b : BlockKey) (a : Nat) (f : Region → Region) : (s.modRegion b a f).openBytes = s.openBytes := rfl
@[simp] theorem State.modRegion_nextId (s : State) (b : BlockKey) (a : Nat) (f : Region → Region) : (s.modRegion b a f).nextId = s.nextId := rfl
@[simp] theorem State.modRegion_vault (s : State) (b : BlockKey) (a : Nat) (f : Region → Region) : (s.modRegion b a f).vault = s.vault := rfl
@[simp] theorem State.modRegion_pool (s : State) (b : BlockKey) (a : Nat) (f : Region → Region) : (s.modRegion b a f).pool = s.pool := rfl
@[simp] theorem State.modRegion_locals (s : State) (b : BlockKey) (a : Nat) (f : Region → Region) : (s.modRegion b a f).locals = s.locals := rfl
@[simp] theorem State.modRegion_poisonVault (s : State) (b : BlockKey) (a : Nat) (f : Region → Region) : (s.modRegion b a f).poisonVault = s.poisonVault := rfl
@[simp] theorem State.modRegion_poisonPool (s : State) (b : BlockKey) (a : Nat) (f : Region → Region) : (s.modRegion b a f).poisonPool = s.poisonPool := rfl
@[simp] theorem State.modRegion_poisonLocal (s : State) (b : BlockKey) (a : Nat) (f : Region → Region) : (s.modRegion b a f).poisonLocal = s.poisonLocal := rfl
@[simp] theorem State.modRegion_poolGrants (s : State) (b : BlockKey) (a : Nat) (f : Region → Region) : (s.modRegion b a f).poolGrants = s.poolGrants := rfl
@[simp] theorem State.modRegion_poolRefusals (s : State) (b : BlockKey) (a : Nat) (f : Region → Region) : (s.modRegion b a f).poolRefusals = s.poolRefusals := rfl
@[simp] theorem State.modRegion_oldCode (s : State) (b : BlockKey) (a : Nat) (f : Region → Region) : (s.modRegion b a f).oldCode = s.oldCode := rfl
@[simp] theorem State.modRegion_torn (s : State) (b : BlockKey) (a : Nat) (f : Region → Region) : (s.modRegion b a f).torn = s.torn := rfl
@[simp] theorem State.modRegion_oldViews (s : State) (b : BlockKey) (a : Nat) (f : Region → Region) : (s.modRegion b a f).oldViews = s.oldViews := rfl
@[simp] theorem State.modRegion_racedOps (s : State) (b : BlockKey) (a : Nat) (f : Region → Region) : (s.modRegion b a f).racedOps = s.racedOps := rfl
@[simp] theorem State.modRegion_ctxs (s : State) (b : BlockKey) (a : Nat) (f : Region → Region) : (s.modRegion b a f).ctxs = s.ctxs := rfl
@[simp] theorem State.modRegion_queues (s : State) (b : BlockKey) (a : Nat) (f : Region → Region) : (s.modRegion b a f).queues = s.queues := rfl
@[simp] theorem State.modRegion_turn (s : State) (b : BlockKey) (a : Nat) (f : Region → Region) : (s.modRegion b a f).turn = s.turn := rfl
@[simp] theorem State.modRegion_counters (s : State) (b : BlockKey) (a : Nat) (f : Region → Region) : (s.modRegion b a f).counters = s.counters := rfl
@[simp] theorem State.modRegion_launches (s : State) (b : BlockKey) (a : Nat) (f : Region → Region) : (s.modRegion b a f).launches = s.launches := rfl
@[simp] theorem State.modRegion_nextLaunch (s : State) (b : BlockKey) (a : Nat) (f : Region → Region) : (s.modRegion b a f).nextLaunch = s.nextLaunch := rfl
@[simp] theorem State.modRegion_pageRing (s : State) (b : BlockKey) (a : Nat) (f : Region → Region) : (s.modRegion b a f).pageRing = s.pageRing := rfl
@[simp] theorem State.modRegion_registering (s : State) (b : BlockKey) (a : Nat) (f : Region → Region) : (s.modRegion b a f).registering = s.registering := rfl
@[simp] theorem State.modRegion_pageOps (s : State) (b : BlockKey) (a : Nat) (f : Region → Region) : (s.modRegion b a f).pageOps = s.pageOps := rfl
@[simp] theorem State.modRegion_prefetched (s : State) (b : BlockKey) (a : Nat) (f : Region → Region) : (s.modRegion b a f).prefetched = s.prefetched := rfl
@[simp] theorem State.modRegion_viewOps (s : State) (b : BlockKey) (a : Nat) (f : Region → Region) : (s.modRegion b a f).viewOps = s.viewOps := rfl
@[simp] theorem State.modRegion_coverage (s : State) (b : BlockKey) (a : Nat) (f : Region → Region) : (s.modRegion b a f).coverage = s.coverage := rfl
@[simp] theorem State.modRegion_links (s : State) (b : BlockKey) (a : Nat) (f : Region → Region) : (s.modRegion b a f).links = s.links := rfl
@[simp] theorem State.modRegion_planemap (s : State) (b : BlockKey) (a : Nat) (f : Region → Region) : (s.modRegion b a f).planemap = s.planemap := rfl
@[simp] theorem State.modRegion_nextTags (s : State) (b : BlockKey) (a : Nat) (f : Region → Region) : (s.modRegion b a f).nextTags = s.nextTags := rfl
@[simp] theorem State.modRegion_requests (s : State) (b : BlockKey) (a : Nat) (f : Region → Region) : (s.modRegion b a f).requests = s.requests := rfl
@[simp] theorem State.modRegion_fetched (s : State) (b : BlockKey) (a : Nat) (f : Region → Region) : (s.modRegion b a f).fetched = s.fetched := rfl
@[simp] theorem State.modRegion_responses (s : State) (b : BlockKey) (a : Nat) (f : Region → Region) : (s.modRegion b a f).responses = s.responses := rfl
@[simp] theorem State.modRegion_routes (s : State) (b : BlockKey) (a : Nat) (f : Region → Region) : (s.modRegion b a f).routes = s.routes := rfl
@[simp] theorem State.modRegion_groupTable (s : State) (b : BlockKey) (a : Nat) (f : Region → Region) : (s.modRegion b a f).groupTable = s.groupTable := rfl
@[simp] theorem State.modRegion_combines (s : State) (b : BlockKey) (a : Nat) (f : Region → Region) : (s.modRegion b a f).combines = s.combines := rfl
@[simp] theorem State.modRegion_memberLines (s : State) (b : BlockKey) (a : Nat) (f : Region → Region) : (s.modRegion b a f).memberLines = s.memberLines := rfl
@[simp] theorem State.modRegion_dbghold (s : State) (b : BlockKey) (a : Nat) (f : Region → Region) : (s.modRegion b a f).dbghold = s.dbghold := rfl
@[simp] theorem State.modRegion_deepHalt (s : State) (b : BlockKey) (a : Nat) (f : Region → Region) : (s.modRegion b a f).deepHalt = s.deepHalt := rfl
@[simp] theorem State.modRegion_debugHalt (s : State) (b : BlockKey) (a : Nat) (f : Region → Region) : (s.modRegion b a f).debugHalt = s.debugHalt := rfl
@[simp] theorem State.modRegion_outbox (s : State) (b : BlockKey) (a : Nat) (f : Region → Region) : (s.modRegion b a f).outbox = s.outbox := rfl
@[simp] theorem State.modRegion_wire (s : State) (b : BlockKey) (a : Nat) (f : Region → Region) : (s.modRegion b a f).wire = s.wire := rfl
@[simp] theorem State.modRegion_linkClock (s : State) (b : BlockKey) (a : Nat) (f : Region → Region) : (s.modRegion b a f).linkClock = s.linkClock := rfl
@[simp] theorem State.modRegion_lostPlanes (s : State) (b : BlockKey) (a : Nat) (f : Region → Region) : (s.modRegion b a f).lostPlanes = s.lostPlanes := rfl
@[simp] theorem State.modRegion_inbox (s : State) (b : BlockKey) (a : Nat) (f : Region → Region) : (s.modRegion b a f).inbox = s.inbox := rfl
@[simp] theorem State.modRegion_failedDevices (s : State) (b : BlockKey) (a : Nat) (f : Region → Region) : (s.modRegion b a f).failedDevices = s.failedDevices := rfl
@[simp] theorem State.modRegion_slowLog (s : State) (b : BlockKey) (a : Nat) (f : Region → Region) : (s.modRegion b a f).slowLog = s.slowLog := rfl
@[simp] theorem State.modRegion_powered (s : State) (b : BlockKey) (a : Nat) (f : Region → Region) : (s.modRegion b a f).powered = s.powered := rfl
@[simp] theorem State.modRegion_device (s : State) (b : BlockKey) (a : Nat) (f : Region → Region) : (s.modRegion b a f).device = s.device := rfl
@[simp] theorem State.modRegion_position (s : State) (b : BlockKey) (a : Nat) (f : Region → Region) : (s.modRegion b a f).position = s.position := rfl
@[simp] theorem State.modRegion_ready (s : State) (b : BlockKey) (a : Nat) (f : Region → Region) : (s.modRegion b a f).ready = s.ready := rfl
@[simp] theorem State.modRegion_error (s : State) (b : BlockKey) (a : Nat) (f : Region → Region) : (s.modRegion b a f).error = s.error := rfl
@[simp] theorem State.modRegion_host2 (s : State) (b : BlockKey) (a : Nat) (f : Region → Region) : (s.modRegion b a f).host2 = s.host2 := rfl
@[simp] theorem State.modRegion_bootStep (s : State) (b : BlockKey) (a : Nat) (f : Region → Region) : (s.modRegion b a f).bootStep = s.bootStep := rfl
@[simp] theorem State.modRegion_badClusters (s : State) (b : BlockKey) (a : Nat) (f : Region → Region) : (s.modRegion b a f).badClusters = s.badClusters := rfl
@[simp] theorem State.modRegion_badQuarters (s : State) (b : BlockKey) (a : Nat) (f : Region → Region) : (s.modRegion b a f).badQuarters = s.badQuarters := rfl
@[simp] theorem State.modRegion_power (s : State) (b : BlockKey) (a : Nat) (f : Region → Region) : (s.modRegion b a f).power = s.power := rfl
@[simp] theorem State.modRegion_gated (s : State) (b : BlockKey) (a : Nat) (f : Region → Region) : (s.modRegion b a f).gated = s.gated := rfl
@[simp] theorem State.modRegion_pwrReq (s : State) (b : BlockKey) (a : Nat) (f : Region → Region) : (s.modRegion b a f).pwrReq = s.pwrReq := rfl
@[simp] theorem State.modRegion_lifecycle (s : State) (b : BlockKey) (a : Nat) (f : Region → Region) : (s.modRegion b a f).lifecycle = s.lifecycle := rfl
@[simp] theorem State.modRegion_debug (s : State) (b : BlockKey) (a : Nat) (f : Region → Region) : (s.modRegion b a f).debug = s.debug := rfl
@[simp] theorem State.modRegion_identity (s : State) (b : BlockKey) (a : Nat) (f : Region → Region) : (s.modRegion b a f).identity = s.identity := rfl
@[simp] theorem State.modRegion_skews (s : State) (b : BlockKey) (a : Nat) (f : Region → Region) : (s.modRegion b a f).skews = s.skews := rfl
@[simp] theorem State.modRegion_softErrors (s : State) (b : BlockKey) (a : Nat) (f : Region → Region) : (s.modRegion b a f).softErrors = s.softErrors := rfl
@[simp] theorem State.modRegion_quarterClocks (s : State) (b : BlockKey) (a : Nat) (f : Region → Region) : (s.modRegion b a f).quarterClocks = s.quarterClocks := rfl
@[simp] theorem State.modRegion_replies (s : State) (b : BlockKey) (a : Nat) (f : Region → Region) : (s.modRegion b a f).replies = s.replies := rfl

/-! ### modCore changes `cores` alone -/

@[simp] theorem State.modCore_issue (s : State) (c : Nat) (f : Core → Core) : (s.modCore c f).issue = s.issue := rfl
@[simp] theorem State.modCore_agenda (s : State) (c : Nat) (f : Core → Core) : (s.modCore c f).agenda = s.agenda := rfl
@[simp] theorem State.modCore_tick (s : State) (c : Nat) (f : Core → Core) : (s.modCore c f).tick = s.tick := rfl
@[simp] theorem State.modCore_broken (s : State) (c : Nat) (f : Core → Core) : (s.modCore c f).broken = s.broken := rfl
@[simp] theorem State.modCore_vregs (s : State) (c : Nat) (f : Core → Core) : (s.modCore c f).vregs = s.vregs := rfl
@[simp] theorem State.modCore_fills (s : State) (c : Nat) (f : Core → Core) : (s.modCore c f).fills = s.fills := rfl
@[simp] theorem State.modCore_uregs (s : State) (c : Nat) (f : Core → Core) : (s.modCore c f).uregs = s.uregs := rfl
@[simp] theorem State.modCore_tiles (s : State) (c : Nat) (f : Core → Core) : (s.modCore c f).tiles = s.tiles := rfl
@[simp] theorem State.modCore_threads (s : State) (c : Nat) (f : Core → Core) : (s.modCore c f).threads = s.threads := rfl
@[simp] theorem State.modCore_groups (s : State) (c : Nat) (f : Core → Core) : (s.modCore c f).groups = s.groups := rfl
@[simp] theorem State.modCore_blocks (s : State) (c : Nat) (f : Core → Core) : (s.modCore c f).blocks = s.blocks := rfl
@[simp] theorem State.modCore_regions (s : State) (c : Nat) (f : Core → Core) : (s.modCore c f).regions = s.regions := rfl
@[simp] theorem State.modCore_kept (s : State) (c : Nat) (f : Core → Core) : (s.modCore c f).kept = s.kept := rfl
@[simp] theorem State.modCore_places (s : State) (c : Nat) (f : Core → Core) : (s.modCore c f).places = s.places := rfl
@[simp] theorem State.modCore_planNotes (s : State) (c : Nat) (f : Core → Core) : (s.modCore c f).planNotes = s.planNotes := rfl
@[simp] theorem State.modCore_placeTurns (s : State) (c : Nat) (f : Core → Core) : (s.modCore c f).placeTurns = s.placeTurns := rfl
@[simp] theorem State.modCore_openBytes (s : State) (c : Nat) (f : Core → Core) : (s.modCore c f).openBytes = s.openBytes := rfl
@[simp] theorem State.modCore_nextId (s : State) (c : Nat) (f : Core → Core) : (s.modCore c f).nextId = s.nextId := rfl
@[simp] theorem State.modCore_vault (s : State) (c : Nat) (f : Core → Core) : (s.modCore c f).vault = s.vault := rfl
@[simp] theorem State.modCore_pool (s : State) (c : Nat) (f : Core → Core) : (s.modCore c f).pool = s.pool := rfl
@[simp] theorem State.modCore_locals (s : State) (c : Nat) (f : Core → Core) : (s.modCore c f).locals = s.locals := rfl
@[simp] theorem State.modCore_poisonVault (s : State) (c : Nat) (f : Core → Core) : (s.modCore c f).poisonVault = s.poisonVault := rfl
@[simp] theorem State.modCore_poisonPool (s : State) (c : Nat) (f : Core → Core) : (s.modCore c f).poisonPool = s.poisonPool := rfl
@[simp] theorem State.modCore_poisonLocal (s : State) (c : Nat) (f : Core → Core) : (s.modCore c f).poisonLocal = s.poisonLocal := rfl
@[simp] theorem State.modCore_poolGrants (s : State) (c : Nat) (f : Core → Core) : (s.modCore c f).poolGrants = s.poolGrants := rfl
@[simp] theorem State.modCore_poolRefusals (s : State) (c : Nat) (f : Core → Core) : (s.modCore c f).poolRefusals = s.poolRefusals := rfl
@[simp] theorem State.modCore_oldCode (s : State) (c : Nat) (f : Core → Core) : (s.modCore c f).oldCode = s.oldCode := rfl
@[simp] theorem State.modCore_torn (s : State) (c : Nat) (f : Core → Core) : (s.modCore c f).torn = s.torn := rfl
@[simp] theorem State.modCore_oldViews (s : State) (c : Nat) (f : Core → Core) : (s.modCore c f).oldViews = s.oldViews := rfl
@[simp] theorem State.modCore_racedOps (s : State) (c : Nat) (f : Core → Core) : (s.modCore c f).racedOps = s.racedOps := rfl
@[simp] theorem State.modCore_ctxs (s : State) (c : Nat) (f : Core → Core) : (s.modCore c f).ctxs = s.ctxs := rfl
@[simp] theorem State.modCore_queues (s : State) (c : Nat) (f : Core → Core) : (s.modCore c f).queues = s.queues := rfl
@[simp] theorem State.modCore_turn (s : State) (c : Nat) (f : Core → Core) : (s.modCore c f).turn = s.turn := rfl
@[simp] theorem State.modCore_counters (s : State) (c : Nat) (f : Core → Core) : (s.modCore c f).counters = s.counters := rfl
@[simp] theorem State.modCore_launches (s : State) (c : Nat) (f : Core → Core) : (s.modCore c f).launches = s.launches := rfl
@[simp] theorem State.modCore_nextLaunch (s : State) (c : Nat) (f : Core → Core) : (s.modCore c f).nextLaunch = s.nextLaunch := rfl
@[simp] theorem State.modCore_pageRing (s : State) (c : Nat) (f : Core → Core) : (s.modCore c f).pageRing = s.pageRing := rfl
@[simp] theorem State.modCore_registering (s : State) (c : Nat) (f : Core → Core) : (s.modCore c f).registering = s.registering := rfl
@[simp] theorem State.modCore_pageOps (s : State) (c : Nat) (f : Core → Core) : (s.modCore c f).pageOps = s.pageOps := rfl
@[simp] theorem State.modCore_prefetched (s : State) (c : Nat) (f : Core → Core) : (s.modCore c f).prefetched = s.prefetched := rfl
@[simp] theorem State.modCore_viewOps (s : State) (c : Nat) (f : Core → Core) : (s.modCore c f).viewOps = s.viewOps := rfl
@[simp] theorem State.modCore_coverage (s : State) (c : Nat) (f : Core → Core) : (s.modCore c f).coverage = s.coverage := rfl
@[simp] theorem State.modCore_links (s : State) (c : Nat) (f : Core → Core) : (s.modCore c f).links = s.links := rfl
@[simp] theorem State.modCore_planemap (s : State) (c : Nat) (f : Core → Core) : (s.modCore c f).planemap = s.planemap := rfl
@[simp] theorem State.modCore_nextTags (s : State) (c : Nat) (f : Core → Core) : (s.modCore c f).nextTags = s.nextTags := rfl
@[simp] theorem State.modCore_requests (s : State) (c : Nat) (f : Core → Core) : (s.modCore c f).requests = s.requests := rfl
@[simp] theorem State.modCore_fetched (s : State) (c : Nat) (f : Core → Core) : (s.modCore c f).fetched = s.fetched := rfl
@[simp] theorem State.modCore_responses (s : State) (c : Nat) (f : Core → Core) : (s.modCore c f).responses = s.responses := rfl
@[simp] theorem State.modCore_routes (s : State) (c : Nat) (f : Core → Core) : (s.modCore c f).routes = s.routes := rfl
@[simp] theorem State.modCore_groupTable (s : State) (c : Nat) (f : Core → Core) : (s.modCore c f).groupTable = s.groupTable := rfl
@[simp] theorem State.modCore_combines (s : State) (c : Nat) (f : Core → Core) : (s.modCore c f).combines = s.combines := rfl
@[simp] theorem State.modCore_memberLines (s : State) (c : Nat) (f : Core → Core) : (s.modCore c f).memberLines = s.memberLines := rfl
@[simp] theorem State.modCore_dbghold (s : State) (c : Nat) (f : Core → Core) : (s.modCore c f).dbghold = s.dbghold := rfl
@[simp] theorem State.modCore_deepHalt (s : State) (c : Nat) (f : Core → Core) : (s.modCore c f).deepHalt = s.deepHalt := rfl
@[simp] theorem State.modCore_debugHalt (s : State) (c : Nat) (f : Core → Core) : (s.modCore c f).debugHalt = s.debugHalt := rfl
@[simp] theorem State.modCore_outbox (s : State) (c : Nat) (f : Core → Core) : (s.modCore c f).outbox = s.outbox := rfl
@[simp] theorem State.modCore_wire (s : State) (c : Nat) (f : Core → Core) : (s.modCore c f).wire = s.wire := rfl
@[simp] theorem State.modCore_linkClock (s : State) (c : Nat) (f : Core → Core) : (s.modCore c f).linkClock = s.linkClock := rfl
@[simp] theorem State.modCore_lostPlanes (s : State) (c : Nat) (f : Core → Core) : (s.modCore c f).lostPlanes = s.lostPlanes := rfl
@[simp] theorem State.modCore_inbox (s : State) (c : Nat) (f : Core → Core) : (s.modCore c f).inbox = s.inbox := rfl
@[simp] theorem State.modCore_failedDevices (s : State) (c : Nat) (f : Core → Core) : (s.modCore c f).failedDevices = s.failedDevices := rfl
@[simp] theorem State.modCore_slowLog (s : State) (c : Nat) (f : Core → Core) : (s.modCore c f).slowLog = s.slowLog := rfl
@[simp] theorem State.modCore_powered (s : State) (c : Nat) (f : Core → Core) : (s.modCore c f).powered = s.powered := rfl
@[simp] theorem State.modCore_device (s : State) (c : Nat) (f : Core → Core) : (s.modCore c f).device = s.device := rfl
@[simp] theorem State.modCore_position (s : State) (c : Nat) (f : Core → Core) : (s.modCore c f).position = s.position := rfl
@[simp] theorem State.modCore_ready (s : State) (c : Nat) (f : Core → Core) : (s.modCore c f).ready = s.ready := rfl
@[simp] theorem State.modCore_error (s : State) (c : Nat) (f : Core → Core) : (s.modCore c f).error = s.error := rfl
@[simp] theorem State.modCore_host2 (s : State) (c : Nat) (f : Core → Core) : (s.modCore c f).host2 = s.host2 := rfl
@[simp] theorem State.modCore_bootStep (s : State) (c : Nat) (f : Core → Core) : (s.modCore c f).bootStep = s.bootStep := rfl
@[simp] theorem State.modCore_badClusters (s : State) (c : Nat) (f : Core → Core) : (s.modCore c f).badClusters = s.badClusters := rfl
@[simp] theorem State.modCore_badQuarters (s : State) (c : Nat) (f : Core → Core) : (s.modCore c f).badQuarters = s.badQuarters := rfl
@[simp] theorem State.modCore_power (s : State) (c : Nat) (f : Core → Core) : (s.modCore c f).power = s.power := rfl
@[simp] theorem State.modCore_gated (s : State) (c : Nat) (f : Core → Core) : (s.modCore c f).gated = s.gated := rfl
@[simp] theorem State.modCore_pwrReq (s : State) (c : Nat) (f : Core → Core) : (s.modCore c f).pwrReq = s.pwrReq := rfl
@[simp] theorem State.modCore_lifecycle (s : State) (c : Nat) (f : Core → Core) : (s.modCore c f).lifecycle = s.lifecycle := rfl
@[simp] theorem State.modCore_debug (s : State) (c : Nat) (f : Core → Core) : (s.modCore c f).debug = s.debug := rfl
@[simp] theorem State.modCore_identity (s : State) (c : Nat) (f : Core → Core) : (s.modCore c f).identity = s.identity := rfl
@[simp] theorem State.modCore_skews (s : State) (c : Nat) (f : Core → Core) : (s.modCore c f).skews = s.skews := rfl
@[simp] theorem State.modCore_softErrors (s : State) (c : Nat) (f : Core → Core) : (s.modCore c f).softErrors = s.softErrors := rfl
@[simp] theorem State.modCore_quarterClocks (s : State) (c : Nat) (f : Core → Core) : (s.modCore c f).quarterClocks = s.quarterClocks := rfl
@[simp] theorem State.modCore_replies (s : State) (c : Nat) (f : Core → Core) : (s.modCore c f).replies = s.replies := rfl

/-! ### modCtx changes `ctxs` alone -/

@[simp] theorem State.modCtx_issue (s : State) (n : Nat) (f : Ctx → Ctx) : (s.modCtx n f).issue = s.issue := rfl
@[simp] theorem State.modCtx_agenda (s : State) (n : Nat) (f : Ctx → Ctx) : (s.modCtx n f).agenda = s.agenda := rfl
@[simp] theorem State.modCtx_tick (s : State) (n : Nat) (f : Ctx → Ctx) : (s.modCtx n f).tick = s.tick := rfl
@[simp] theorem State.modCtx_broken (s : State) (n : Nat) (f : Ctx → Ctx) : (s.modCtx n f).broken = s.broken := rfl
@[simp] theorem State.modCtx_vregs (s : State) (n : Nat) (f : Ctx → Ctx) : (s.modCtx n f).vregs = s.vregs := rfl
@[simp] theorem State.modCtx_fills (s : State) (n : Nat) (f : Ctx → Ctx) : (s.modCtx n f).fills = s.fills := rfl
@[simp] theorem State.modCtx_uregs (s : State) (n : Nat) (f : Ctx → Ctx) : (s.modCtx n f).uregs = s.uregs := rfl
@[simp] theorem State.modCtx_tiles (s : State) (n : Nat) (f : Ctx → Ctx) : (s.modCtx n f).tiles = s.tiles := rfl
@[simp] theorem State.modCtx_threads (s : State) (n : Nat) (f : Ctx → Ctx) : (s.modCtx n f).threads = s.threads := rfl
@[simp] theorem State.modCtx_groups (s : State) (n : Nat) (f : Ctx → Ctx) : (s.modCtx n f).groups = s.groups := rfl
@[simp] theorem State.modCtx_blocks (s : State) (n : Nat) (f : Ctx → Ctx) : (s.modCtx n f).blocks = s.blocks := rfl
@[simp] theorem State.modCtx_regions (s : State) (n : Nat) (f : Ctx → Ctx) : (s.modCtx n f).regions = s.regions := rfl
@[simp] theorem State.modCtx_kept (s : State) (n : Nat) (f : Ctx → Ctx) : (s.modCtx n f).kept = s.kept := rfl
@[simp] theorem State.modCtx_cores (s : State) (n : Nat) (f : Ctx → Ctx) : (s.modCtx n f).cores = s.cores := rfl
@[simp] theorem State.modCtx_places (s : State) (n : Nat) (f : Ctx → Ctx) : (s.modCtx n f).places = s.places := rfl
@[simp] theorem State.modCtx_planNotes (s : State) (n : Nat) (f : Ctx → Ctx) : (s.modCtx n f).planNotes = s.planNotes := rfl
@[simp] theorem State.modCtx_placeTurns (s : State) (n : Nat) (f : Ctx → Ctx) : (s.modCtx n f).placeTurns = s.placeTurns := rfl
@[simp] theorem State.modCtx_openBytes (s : State) (n : Nat) (f : Ctx → Ctx) : (s.modCtx n f).openBytes = s.openBytes := rfl
@[simp] theorem State.modCtx_nextId (s : State) (n : Nat) (f : Ctx → Ctx) : (s.modCtx n f).nextId = s.nextId := rfl
@[simp] theorem State.modCtx_vault (s : State) (n : Nat) (f : Ctx → Ctx) : (s.modCtx n f).vault = s.vault := rfl
@[simp] theorem State.modCtx_pool (s : State) (n : Nat) (f : Ctx → Ctx) : (s.modCtx n f).pool = s.pool := rfl
@[simp] theorem State.modCtx_locals (s : State) (n : Nat) (f : Ctx → Ctx) : (s.modCtx n f).locals = s.locals := rfl
@[simp] theorem State.modCtx_poisonVault (s : State) (n : Nat) (f : Ctx → Ctx) : (s.modCtx n f).poisonVault = s.poisonVault := rfl
@[simp] theorem State.modCtx_poisonPool (s : State) (n : Nat) (f : Ctx → Ctx) : (s.modCtx n f).poisonPool = s.poisonPool := rfl
@[simp] theorem State.modCtx_poisonLocal (s : State) (n : Nat) (f : Ctx → Ctx) : (s.modCtx n f).poisonLocal = s.poisonLocal := rfl
@[simp] theorem State.modCtx_poolGrants (s : State) (n : Nat) (f : Ctx → Ctx) : (s.modCtx n f).poolGrants = s.poolGrants := rfl
@[simp] theorem State.modCtx_poolRefusals (s : State) (n : Nat) (f : Ctx → Ctx) : (s.modCtx n f).poolRefusals = s.poolRefusals := rfl
@[simp] theorem State.modCtx_oldCode (s : State) (n : Nat) (f : Ctx → Ctx) : (s.modCtx n f).oldCode = s.oldCode := rfl
@[simp] theorem State.modCtx_torn (s : State) (n : Nat) (f : Ctx → Ctx) : (s.modCtx n f).torn = s.torn := rfl
@[simp] theorem State.modCtx_oldViews (s : State) (n : Nat) (f : Ctx → Ctx) : (s.modCtx n f).oldViews = s.oldViews := rfl
@[simp] theorem State.modCtx_racedOps (s : State) (n : Nat) (f : Ctx → Ctx) : (s.modCtx n f).racedOps = s.racedOps := rfl
@[simp] theorem State.modCtx_queues (s : State) (n : Nat) (f : Ctx → Ctx) : (s.modCtx n f).queues = s.queues := rfl
@[simp] theorem State.modCtx_turn (s : State) (n : Nat) (f : Ctx → Ctx) : (s.modCtx n f).turn = s.turn := rfl
@[simp] theorem State.modCtx_counters (s : State) (n : Nat) (f : Ctx → Ctx) : (s.modCtx n f).counters = s.counters := rfl
@[simp] theorem State.modCtx_launches (s : State) (n : Nat) (f : Ctx → Ctx) : (s.modCtx n f).launches = s.launches := rfl
@[simp] theorem State.modCtx_nextLaunch (s : State) (n : Nat) (f : Ctx → Ctx) : (s.modCtx n f).nextLaunch = s.nextLaunch := rfl
@[simp] theorem State.modCtx_pageRing (s : State) (n : Nat) (f : Ctx → Ctx) : (s.modCtx n f).pageRing = s.pageRing := rfl
@[simp] theorem State.modCtx_registering (s : State) (n : Nat) (f : Ctx → Ctx) : (s.modCtx n f).registering = s.registering := rfl
@[simp] theorem State.modCtx_pageOps (s : State) (n : Nat) (f : Ctx → Ctx) : (s.modCtx n f).pageOps = s.pageOps := rfl
@[simp] theorem State.modCtx_prefetched (s : State) (n : Nat) (f : Ctx → Ctx) : (s.modCtx n f).prefetched = s.prefetched := rfl
@[simp] theorem State.modCtx_viewOps (s : State) (n : Nat) (f : Ctx → Ctx) : (s.modCtx n f).viewOps = s.viewOps := rfl
@[simp] theorem State.modCtx_coverage (s : State) (n : Nat) (f : Ctx → Ctx) : (s.modCtx n f).coverage = s.coverage := rfl
@[simp] theorem State.modCtx_links (s : State) (n : Nat) (f : Ctx → Ctx) : (s.modCtx n f).links = s.links := rfl
@[simp] theorem State.modCtx_planemap (s : State) (n : Nat) (f : Ctx → Ctx) : (s.modCtx n f).planemap = s.planemap := rfl
@[simp] theorem State.modCtx_nextTags (s : State) (n : Nat) (f : Ctx → Ctx) : (s.modCtx n f).nextTags = s.nextTags := rfl
@[simp] theorem State.modCtx_requests (s : State) (n : Nat) (f : Ctx → Ctx) : (s.modCtx n f).requests = s.requests := rfl
@[simp] theorem State.modCtx_fetched (s : State) (n : Nat) (f : Ctx → Ctx) : (s.modCtx n f).fetched = s.fetched := rfl
@[simp] theorem State.modCtx_responses (s : State) (n : Nat) (f : Ctx → Ctx) : (s.modCtx n f).responses = s.responses := rfl
@[simp] theorem State.modCtx_routes (s : State) (n : Nat) (f : Ctx → Ctx) : (s.modCtx n f).routes = s.routes := rfl
@[simp] theorem State.modCtx_groupTable (s : State) (n : Nat) (f : Ctx → Ctx) : (s.modCtx n f).groupTable = s.groupTable := rfl
@[simp] theorem State.modCtx_combines (s : State) (n : Nat) (f : Ctx → Ctx) : (s.modCtx n f).combines = s.combines := rfl
@[simp] theorem State.modCtx_memberLines (s : State) (n : Nat) (f : Ctx → Ctx) : (s.modCtx n f).memberLines = s.memberLines := rfl
@[simp] theorem State.modCtx_dbghold (s : State) (n : Nat) (f : Ctx → Ctx) : (s.modCtx n f).dbghold = s.dbghold := rfl
@[simp] theorem State.modCtx_deepHalt (s : State) (n : Nat) (f : Ctx → Ctx) : (s.modCtx n f).deepHalt = s.deepHalt := rfl
@[simp] theorem State.modCtx_debugHalt (s : State) (n : Nat) (f : Ctx → Ctx) : (s.modCtx n f).debugHalt = s.debugHalt := rfl
@[simp] theorem State.modCtx_outbox (s : State) (n : Nat) (f : Ctx → Ctx) : (s.modCtx n f).outbox = s.outbox := rfl
@[simp] theorem State.modCtx_wire (s : State) (n : Nat) (f : Ctx → Ctx) : (s.modCtx n f).wire = s.wire := rfl
@[simp] theorem State.modCtx_linkClock (s : State) (n : Nat) (f : Ctx → Ctx) : (s.modCtx n f).linkClock = s.linkClock := rfl
@[simp] theorem State.modCtx_lostPlanes (s : State) (n : Nat) (f : Ctx → Ctx) : (s.modCtx n f).lostPlanes = s.lostPlanes := rfl
@[simp] theorem State.modCtx_inbox (s : State) (n : Nat) (f : Ctx → Ctx) : (s.modCtx n f).inbox = s.inbox := rfl
@[simp] theorem State.modCtx_failedDevices (s : State) (n : Nat) (f : Ctx → Ctx) : (s.modCtx n f).failedDevices = s.failedDevices := rfl
@[simp] theorem State.modCtx_slowLog (s : State) (n : Nat) (f : Ctx → Ctx) : (s.modCtx n f).slowLog = s.slowLog := rfl
@[simp] theorem State.modCtx_powered (s : State) (n : Nat) (f : Ctx → Ctx) : (s.modCtx n f).powered = s.powered := rfl
@[simp] theorem State.modCtx_device (s : State) (n : Nat) (f : Ctx → Ctx) : (s.modCtx n f).device = s.device := rfl
@[simp] theorem State.modCtx_position (s : State) (n : Nat) (f : Ctx → Ctx) : (s.modCtx n f).position = s.position := rfl
@[simp] theorem State.modCtx_ready (s : State) (n : Nat) (f : Ctx → Ctx) : (s.modCtx n f).ready = s.ready := rfl
@[simp] theorem State.modCtx_error (s : State) (n : Nat) (f : Ctx → Ctx) : (s.modCtx n f).error = s.error := rfl
@[simp] theorem State.modCtx_host2 (s : State) (n : Nat) (f : Ctx → Ctx) : (s.modCtx n f).host2 = s.host2 := rfl
@[simp] theorem State.modCtx_bootStep (s : State) (n : Nat) (f : Ctx → Ctx) : (s.modCtx n f).bootStep = s.bootStep := rfl
@[simp] theorem State.modCtx_badClusters (s : State) (n : Nat) (f : Ctx → Ctx) : (s.modCtx n f).badClusters = s.badClusters := rfl
@[simp] theorem State.modCtx_badQuarters (s : State) (n : Nat) (f : Ctx → Ctx) : (s.modCtx n f).badQuarters = s.badQuarters := rfl
@[simp] theorem State.modCtx_power (s : State) (n : Nat) (f : Ctx → Ctx) : (s.modCtx n f).power = s.power := rfl
@[simp] theorem State.modCtx_gated (s : State) (n : Nat) (f : Ctx → Ctx) : (s.modCtx n f).gated = s.gated := rfl
@[simp] theorem State.modCtx_pwrReq (s : State) (n : Nat) (f : Ctx → Ctx) : (s.modCtx n f).pwrReq = s.pwrReq := rfl
@[simp] theorem State.modCtx_lifecycle (s : State) (n : Nat) (f : Ctx → Ctx) : (s.modCtx n f).lifecycle = s.lifecycle := rfl
@[simp] theorem State.modCtx_debug (s : State) (n : Nat) (f : Ctx → Ctx) : (s.modCtx n f).debug = s.debug := rfl
@[simp] theorem State.modCtx_identity (s : State) (n : Nat) (f : Ctx → Ctx) : (s.modCtx n f).identity = s.identity := rfl
@[simp] theorem State.modCtx_skews (s : State) (n : Nat) (f : Ctx → Ctx) : (s.modCtx n f).skews = s.skews := rfl
@[simp] theorem State.modCtx_softErrors (s : State) (n : Nat) (f : Ctx → Ctx) : (s.modCtx n f).softErrors = s.softErrors := rfl
@[simp] theorem State.modCtx_quarterClocks (s : State) (n : Nat) (f : Ctx → Ctx) : (s.modCtx n f).quarterClocks = s.quarterClocks := rfl
@[simp] theorem State.modCtx_replies (s : State) (n : Nat) (f : Ctx → Ctx) : (s.modCtx n f).replies = s.replies := rfl

/-! ### modLaunch changes `launches` alone -/

@[simp] theorem State.modLaunch_issue (s : State) (n : Nat) (f : Launch → Launch) : (s.modLaunch n f).issue = s.issue := rfl
@[simp] theorem State.modLaunch_agenda (s : State) (n : Nat) (f : Launch → Launch) : (s.modLaunch n f).agenda = s.agenda := rfl
@[simp] theorem State.modLaunch_tick (s : State) (n : Nat) (f : Launch → Launch) : (s.modLaunch n f).tick = s.tick := rfl
@[simp] theorem State.modLaunch_broken (s : State) (n : Nat) (f : Launch → Launch) : (s.modLaunch n f).broken = s.broken := rfl
@[simp] theorem State.modLaunch_vregs (s : State) (n : Nat) (f : Launch → Launch) : (s.modLaunch n f).vregs = s.vregs := rfl
@[simp] theorem State.modLaunch_fills (s : State) (n : Nat) (f : Launch → Launch) : (s.modLaunch n f).fills = s.fills := rfl
@[simp] theorem State.modLaunch_uregs (s : State) (n : Nat) (f : Launch → Launch) : (s.modLaunch n f).uregs = s.uregs := rfl
@[simp] theorem State.modLaunch_tiles (s : State) (n : Nat) (f : Launch → Launch) : (s.modLaunch n f).tiles = s.tiles := rfl
@[simp] theorem State.modLaunch_threads (s : State) (n : Nat) (f : Launch → Launch) : (s.modLaunch n f).threads = s.threads := rfl
@[simp] theorem State.modLaunch_groups (s : State) (n : Nat) (f : Launch → Launch) : (s.modLaunch n f).groups = s.groups := rfl
@[simp] theorem State.modLaunch_blocks (s : State) (n : Nat) (f : Launch → Launch) : (s.modLaunch n f).blocks = s.blocks := rfl
@[simp] theorem State.modLaunch_regions (s : State) (n : Nat) (f : Launch → Launch) : (s.modLaunch n f).regions = s.regions := rfl
@[simp] theorem State.modLaunch_kept (s : State) (n : Nat) (f : Launch → Launch) : (s.modLaunch n f).kept = s.kept := rfl
@[simp] theorem State.modLaunch_cores (s : State) (n : Nat) (f : Launch → Launch) : (s.modLaunch n f).cores = s.cores := rfl
@[simp] theorem State.modLaunch_places (s : State) (n : Nat) (f : Launch → Launch) : (s.modLaunch n f).places = s.places := rfl
@[simp] theorem State.modLaunch_planNotes (s : State) (n : Nat) (f : Launch → Launch) : (s.modLaunch n f).planNotes = s.planNotes := rfl
@[simp] theorem State.modLaunch_placeTurns (s : State) (n : Nat) (f : Launch → Launch) : (s.modLaunch n f).placeTurns = s.placeTurns := rfl
@[simp] theorem State.modLaunch_openBytes (s : State) (n : Nat) (f : Launch → Launch) : (s.modLaunch n f).openBytes = s.openBytes := rfl
@[simp] theorem State.modLaunch_nextId (s : State) (n : Nat) (f : Launch → Launch) : (s.modLaunch n f).nextId = s.nextId := rfl
@[simp] theorem State.modLaunch_vault (s : State) (n : Nat) (f : Launch → Launch) : (s.modLaunch n f).vault = s.vault := rfl
@[simp] theorem State.modLaunch_pool (s : State) (n : Nat) (f : Launch → Launch) : (s.modLaunch n f).pool = s.pool := rfl
@[simp] theorem State.modLaunch_locals (s : State) (n : Nat) (f : Launch → Launch) : (s.modLaunch n f).locals = s.locals := rfl
@[simp] theorem State.modLaunch_poisonVault (s : State) (n : Nat) (f : Launch → Launch) : (s.modLaunch n f).poisonVault = s.poisonVault := rfl
@[simp] theorem State.modLaunch_poisonPool (s : State) (n : Nat) (f : Launch → Launch) : (s.modLaunch n f).poisonPool = s.poisonPool := rfl
@[simp] theorem State.modLaunch_poisonLocal (s : State) (n : Nat) (f : Launch → Launch) : (s.modLaunch n f).poisonLocal = s.poisonLocal := rfl
@[simp] theorem State.modLaunch_poolGrants (s : State) (n : Nat) (f : Launch → Launch) : (s.modLaunch n f).poolGrants = s.poolGrants := rfl
@[simp] theorem State.modLaunch_poolRefusals (s : State) (n : Nat) (f : Launch → Launch) : (s.modLaunch n f).poolRefusals = s.poolRefusals := rfl
@[simp] theorem State.modLaunch_oldCode (s : State) (n : Nat) (f : Launch → Launch) : (s.modLaunch n f).oldCode = s.oldCode := rfl
@[simp] theorem State.modLaunch_torn (s : State) (n : Nat) (f : Launch → Launch) : (s.modLaunch n f).torn = s.torn := rfl
@[simp] theorem State.modLaunch_oldViews (s : State) (n : Nat) (f : Launch → Launch) : (s.modLaunch n f).oldViews = s.oldViews := rfl
@[simp] theorem State.modLaunch_racedOps (s : State) (n : Nat) (f : Launch → Launch) : (s.modLaunch n f).racedOps = s.racedOps := rfl
@[simp] theorem State.modLaunch_ctxs (s : State) (n : Nat) (f : Launch → Launch) : (s.modLaunch n f).ctxs = s.ctxs := rfl
@[simp] theorem State.modLaunch_queues (s : State) (n : Nat) (f : Launch → Launch) : (s.modLaunch n f).queues = s.queues := rfl
@[simp] theorem State.modLaunch_turn (s : State) (n : Nat) (f : Launch → Launch) : (s.modLaunch n f).turn = s.turn := rfl
@[simp] theorem State.modLaunch_counters (s : State) (n : Nat) (f : Launch → Launch) : (s.modLaunch n f).counters = s.counters := rfl
@[simp] theorem State.modLaunch_nextLaunch (s : State) (n : Nat) (f : Launch → Launch) : (s.modLaunch n f).nextLaunch = s.nextLaunch := rfl
@[simp] theorem State.modLaunch_pageRing (s : State) (n : Nat) (f : Launch → Launch) : (s.modLaunch n f).pageRing = s.pageRing := rfl
@[simp] theorem State.modLaunch_registering (s : State) (n : Nat) (f : Launch → Launch) : (s.modLaunch n f).registering = s.registering := rfl
@[simp] theorem State.modLaunch_pageOps (s : State) (n : Nat) (f : Launch → Launch) : (s.modLaunch n f).pageOps = s.pageOps := rfl
@[simp] theorem State.modLaunch_prefetched (s : State) (n : Nat) (f : Launch → Launch) : (s.modLaunch n f).prefetched = s.prefetched := rfl
@[simp] theorem State.modLaunch_viewOps (s : State) (n : Nat) (f : Launch → Launch) : (s.modLaunch n f).viewOps = s.viewOps := rfl
@[simp] theorem State.modLaunch_coverage (s : State) (n : Nat) (f : Launch → Launch) : (s.modLaunch n f).coverage = s.coverage := rfl
@[simp] theorem State.modLaunch_links (s : State) (n : Nat) (f : Launch → Launch) : (s.modLaunch n f).links = s.links := rfl
@[simp] theorem State.modLaunch_planemap (s : State) (n : Nat) (f : Launch → Launch) : (s.modLaunch n f).planemap = s.planemap := rfl
@[simp] theorem State.modLaunch_nextTags (s : State) (n : Nat) (f : Launch → Launch) : (s.modLaunch n f).nextTags = s.nextTags := rfl
@[simp] theorem State.modLaunch_requests (s : State) (n : Nat) (f : Launch → Launch) : (s.modLaunch n f).requests = s.requests := rfl
@[simp] theorem State.modLaunch_fetched (s : State) (n : Nat) (f : Launch → Launch) : (s.modLaunch n f).fetched = s.fetched := rfl
@[simp] theorem State.modLaunch_responses (s : State) (n : Nat) (f : Launch → Launch) : (s.modLaunch n f).responses = s.responses := rfl
@[simp] theorem State.modLaunch_routes (s : State) (n : Nat) (f : Launch → Launch) : (s.modLaunch n f).routes = s.routes := rfl
@[simp] theorem State.modLaunch_groupTable (s : State) (n : Nat) (f : Launch → Launch) : (s.modLaunch n f).groupTable = s.groupTable := rfl
@[simp] theorem State.modLaunch_combines (s : State) (n : Nat) (f : Launch → Launch) : (s.modLaunch n f).combines = s.combines := rfl
@[simp] theorem State.modLaunch_memberLines (s : State) (n : Nat) (f : Launch → Launch) : (s.modLaunch n f).memberLines = s.memberLines := rfl
@[simp] theorem State.modLaunch_dbghold (s : State) (n : Nat) (f : Launch → Launch) : (s.modLaunch n f).dbghold = s.dbghold := rfl
@[simp] theorem State.modLaunch_deepHalt (s : State) (n : Nat) (f : Launch → Launch) : (s.modLaunch n f).deepHalt = s.deepHalt := rfl
@[simp] theorem State.modLaunch_debugHalt (s : State) (n : Nat) (f : Launch → Launch) : (s.modLaunch n f).debugHalt = s.debugHalt := rfl
@[simp] theorem State.modLaunch_outbox (s : State) (n : Nat) (f : Launch → Launch) : (s.modLaunch n f).outbox = s.outbox := rfl
@[simp] theorem State.modLaunch_wire (s : State) (n : Nat) (f : Launch → Launch) : (s.modLaunch n f).wire = s.wire := rfl
@[simp] theorem State.modLaunch_linkClock (s : State) (n : Nat) (f : Launch → Launch) : (s.modLaunch n f).linkClock = s.linkClock := rfl
@[simp] theorem State.modLaunch_lostPlanes (s : State) (n : Nat) (f : Launch → Launch) : (s.modLaunch n f).lostPlanes = s.lostPlanes := rfl
@[simp] theorem State.modLaunch_inbox (s : State) (n : Nat) (f : Launch → Launch) : (s.modLaunch n f).inbox = s.inbox := rfl
@[simp] theorem State.modLaunch_failedDevices (s : State) (n : Nat) (f : Launch → Launch) : (s.modLaunch n f).failedDevices = s.failedDevices := rfl
@[simp] theorem State.modLaunch_slowLog (s : State) (n : Nat) (f : Launch → Launch) : (s.modLaunch n f).slowLog = s.slowLog := rfl
@[simp] theorem State.modLaunch_powered (s : State) (n : Nat) (f : Launch → Launch) : (s.modLaunch n f).powered = s.powered := rfl
@[simp] theorem State.modLaunch_device (s : State) (n : Nat) (f : Launch → Launch) : (s.modLaunch n f).device = s.device := rfl
@[simp] theorem State.modLaunch_position (s : State) (n : Nat) (f : Launch → Launch) : (s.modLaunch n f).position = s.position := rfl
@[simp] theorem State.modLaunch_ready (s : State) (n : Nat) (f : Launch → Launch) : (s.modLaunch n f).ready = s.ready := rfl
@[simp] theorem State.modLaunch_error (s : State) (n : Nat) (f : Launch → Launch) : (s.modLaunch n f).error = s.error := rfl
@[simp] theorem State.modLaunch_host2 (s : State) (n : Nat) (f : Launch → Launch) : (s.modLaunch n f).host2 = s.host2 := rfl
@[simp] theorem State.modLaunch_bootStep (s : State) (n : Nat) (f : Launch → Launch) : (s.modLaunch n f).bootStep = s.bootStep := rfl
@[simp] theorem State.modLaunch_badClusters (s : State) (n : Nat) (f : Launch → Launch) : (s.modLaunch n f).badClusters = s.badClusters := rfl
@[simp] theorem State.modLaunch_badQuarters (s : State) (n : Nat) (f : Launch → Launch) : (s.modLaunch n f).badQuarters = s.badQuarters := rfl
@[simp] theorem State.modLaunch_power (s : State) (n : Nat) (f : Launch → Launch) : (s.modLaunch n f).power = s.power := rfl
@[simp] theorem State.modLaunch_gated (s : State) (n : Nat) (f : Launch → Launch) : (s.modLaunch n f).gated = s.gated := rfl
@[simp] theorem State.modLaunch_pwrReq (s : State) (n : Nat) (f : Launch → Launch) : (s.modLaunch n f).pwrReq = s.pwrReq := rfl
@[simp] theorem State.modLaunch_lifecycle (s : State) (n : Nat) (f : Launch → Launch) : (s.modLaunch n f).lifecycle = s.lifecycle := rfl
@[simp] theorem State.modLaunch_debug (s : State) (n : Nat) (f : Launch → Launch) : (s.modLaunch n f).debug = s.debug := rfl
@[simp] theorem State.modLaunch_identity (s : State) (n : Nat) (f : Launch → Launch) : (s.modLaunch n f).identity = s.identity := rfl
@[simp] theorem State.modLaunch_skews (s : State) (n : Nat) (f : Launch → Launch) : (s.modLaunch n f).skews = s.skews := rfl
@[simp] theorem State.modLaunch_softErrors (s : State) (n : Nat) (f : Launch → Launch) : (s.modLaunch n f).softErrors = s.softErrors := rfl
@[simp] theorem State.modLaunch_quarterClocks (s : State) (n : Nat) (f : Launch → Launch) : (s.modLaunch n f).quarterClocks = s.quarterClocks := rfl
@[simp] theorem State.modLaunch_replies (s : State) (n : Nat) (f : Launch → Launch) : (s.modLaunch n f).replies = s.replies := rfl

/-! ### modQueue changes `queues` alone -/

@[simp] theorem State.modQueue_issue (s : State) (q : Nat) (f : Queue → Queue) : (s.modQueue q f).issue = s.issue := rfl
@[simp] theorem State.modQueue_agenda (s : State) (q : Nat) (f : Queue → Queue) : (s.modQueue q f).agenda = s.agenda := rfl
@[simp] theorem State.modQueue_tick (s : State) (q : Nat) (f : Queue → Queue) : (s.modQueue q f).tick = s.tick := rfl
@[simp] theorem State.modQueue_broken (s : State) (q : Nat) (f : Queue → Queue) : (s.modQueue q f).broken = s.broken := rfl
@[simp] theorem State.modQueue_vregs (s : State) (q : Nat) (f : Queue → Queue) : (s.modQueue q f).vregs = s.vregs := rfl
@[simp] theorem State.modQueue_fills (s : State) (q : Nat) (f : Queue → Queue) : (s.modQueue q f).fills = s.fills := rfl
@[simp] theorem State.modQueue_uregs (s : State) (q : Nat) (f : Queue → Queue) : (s.modQueue q f).uregs = s.uregs := rfl
@[simp] theorem State.modQueue_tiles (s : State) (q : Nat) (f : Queue → Queue) : (s.modQueue q f).tiles = s.tiles := rfl
@[simp] theorem State.modQueue_threads (s : State) (q : Nat) (f : Queue → Queue) : (s.modQueue q f).threads = s.threads := rfl
@[simp] theorem State.modQueue_groups (s : State) (q : Nat) (f : Queue → Queue) : (s.modQueue q f).groups = s.groups := rfl
@[simp] theorem State.modQueue_blocks (s : State) (q : Nat) (f : Queue → Queue) : (s.modQueue q f).blocks = s.blocks := rfl
@[simp] theorem State.modQueue_regions (s : State) (q : Nat) (f : Queue → Queue) : (s.modQueue q f).regions = s.regions := rfl
@[simp] theorem State.modQueue_kept (s : State) (q : Nat) (f : Queue → Queue) : (s.modQueue q f).kept = s.kept := rfl
@[simp] theorem State.modQueue_cores (s : State) (q : Nat) (f : Queue → Queue) : (s.modQueue q f).cores = s.cores := rfl
@[simp] theorem State.modQueue_places (s : State) (q : Nat) (f : Queue → Queue) : (s.modQueue q f).places = s.places := rfl
@[simp] theorem State.modQueue_planNotes (s : State) (q : Nat) (f : Queue → Queue) : (s.modQueue q f).planNotes = s.planNotes := rfl
@[simp] theorem State.modQueue_placeTurns (s : State) (q : Nat) (f : Queue → Queue) : (s.modQueue q f).placeTurns = s.placeTurns := rfl
@[simp] theorem State.modQueue_openBytes (s : State) (q : Nat) (f : Queue → Queue) : (s.modQueue q f).openBytes = s.openBytes := rfl
@[simp] theorem State.modQueue_nextId (s : State) (q : Nat) (f : Queue → Queue) : (s.modQueue q f).nextId = s.nextId := rfl
@[simp] theorem State.modQueue_vault (s : State) (q : Nat) (f : Queue → Queue) : (s.modQueue q f).vault = s.vault := rfl
@[simp] theorem State.modQueue_pool (s : State) (q : Nat) (f : Queue → Queue) : (s.modQueue q f).pool = s.pool := rfl
@[simp] theorem State.modQueue_locals (s : State) (q : Nat) (f : Queue → Queue) : (s.modQueue q f).locals = s.locals := rfl
@[simp] theorem State.modQueue_poisonVault (s : State) (q : Nat) (f : Queue → Queue) : (s.modQueue q f).poisonVault = s.poisonVault := rfl
@[simp] theorem State.modQueue_poisonPool (s : State) (q : Nat) (f : Queue → Queue) : (s.modQueue q f).poisonPool = s.poisonPool := rfl
@[simp] theorem State.modQueue_poisonLocal (s : State) (q : Nat) (f : Queue → Queue) : (s.modQueue q f).poisonLocal = s.poisonLocal := rfl
@[simp] theorem State.modQueue_poolGrants (s : State) (q : Nat) (f : Queue → Queue) : (s.modQueue q f).poolGrants = s.poolGrants := rfl
@[simp] theorem State.modQueue_poolRefusals (s : State) (q : Nat) (f : Queue → Queue) : (s.modQueue q f).poolRefusals = s.poolRefusals := rfl
@[simp] theorem State.modQueue_oldCode (s : State) (q : Nat) (f : Queue → Queue) : (s.modQueue q f).oldCode = s.oldCode := rfl
@[simp] theorem State.modQueue_torn (s : State) (q : Nat) (f : Queue → Queue) : (s.modQueue q f).torn = s.torn := rfl
@[simp] theorem State.modQueue_oldViews (s : State) (q : Nat) (f : Queue → Queue) : (s.modQueue q f).oldViews = s.oldViews := rfl
@[simp] theorem State.modQueue_racedOps (s : State) (q : Nat) (f : Queue → Queue) : (s.modQueue q f).racedOps = s.racedOps := rfl
@[simp] theorem State.modQueue_ctxs (s : State) (q : Nat) (f : Queue → Queue) : (s.modQueue q f).ctxs = s.ctxs := rfl
@[simp] theorem State.modQueue_turn (s : State) (q : Nat) (f : Queue → Queue) : (s.modQueue q f).turn = s.turn := rfl
@[simp] theorem State.modQueue_counters (s : State) (q : Nat) (f : Queue → Queue) : (s.modQueue q f).counters = s.counters := rfl
@[simp] theorem State.modQueue_launches (s : State) (q : Nat) (f : Queue → Queue) : (s.modQueue q f).launches = s.launches := rfl
@[simp] theorem State.modQueue_nextLaunch (s : State) (q : Nat) (f : Queue → Queue) : (s.modQueue q f).nextLaunch = s.nextLaunch := rfl
@[simp] theorem State.modQueue_pageRing (s : State) (q : Nat) (f : Queue → Queue) : (s.modQueue q f).pageRing = s.pageRing := rfl
@[simp] theorem State.modQueue_registering (s : State) (q : Nat) (f : Queue → Queue) : (s.modQueue q f).registering = s.registering := rfl
@[simp] theorem State.modQueue_pageOps (s : State) (q : Nat) (f : Queue → Queue) : (s.modQueue q f).pageOps = s.pageOps := rfl
@[simp] theorem State.modQueue_prefetched (s : State) (q : Nat) (f : Queue → Queue) : (s.modQueue q f).prefetched = s.prefetched := rfl
@[simp] theorem State.modQueue_viewOps (s : State) (q : Nat) (f : Queue → Queue) : (s.modQueue q f).viewOps = s.viewOps := rfl
@[simp] theorem State.modQueue_coverage (s : State) (q : Nat) (f : Queue → Queue) : (s.modQueue q f).coverage = s.coverage := rfl
@[simp] theorem State.modQueue_links (s : State) (q : Nat) (f : Queue → Queue) : (s.modQueue q f).links = s.links := rfl
@[simp] theorem State.modQueue_planemap (s : State) (q : Nat) (f : Queue → Queue) : (s.modQueue q f).planemap = s.planemap := rfl
@[simp] theorem State.modQueue_nextTags (s : State) (q : Nat) (f : Queue → Queue) : (s.modQueue q f).nextTags = s.nextTags := rfl
@[simp] theorem State.modQueue_requests (s : State) (q : Nat) (f : Queue → Queue) : (s.modQueue q f).requests = s.requests := rfl
@[simp] theorem State.modQueue_fetched (s : State) (q : Nat) (f : Queue → Queue) : (s.modQueue q f).fetched = s.fetched := rfl
@[simp] theorem State.modQueue_responses (s : State) (q : Nat) (f : Queue → Queue) : (s.modQueue q f).responses = s.responses := rfl
@[simp] theorem State.modQueue_routes (s : State) (q : Nat) (f : Queue → Queue) : (s.modQueue q f).routes = s.routes := rfl
@[simp] theorem State.modQueue_groupTable (s : State) (q : Nat) (f : Queue → Queue) : (s.modQueue q f).groupTable = s.groupTable := rfl
@[simp] theorem State.modQueue_combines (s : State) (q : Nat) (f : Queue → Queue) : (s.modQueue q f).combines = s.combines := rfl
@[simp] theorem State.modQueue_memberLines (s : State) (q : Nat) (f : Queue → Queue) : (s.modQueue q f).memberLines = s.memberLines := rfl
@[simp] theorem State.modQueue_dbghold (s : State) (q : Nat) (f : Queue → Queue) : (s.modQueue q f).dbghold = s.dbghold := rfl
@[simp] theorem State.modQueue_deepHalt (s : State) (q : Nat) (f : Queue → Queue) : (s.modQueue q f).deepHalt = s.deepHalt := rfl
@[simp] theorem State.modQueue_debugHalt (s : State) (q : Nat) (f : Queue → Queue) : (s.modQueue q f).debugHalt = s.debugHalt := rfl
@[simp] theorem State.modQueue_outbox (s : State) (q : Nat) (f : Queue → Queue) : (s.modQueue q f).outbox = s.outbox := rfl
@[simp] theorem State.modQueue_wire (s : State) (q : Nat) (f : Queue → Queue) : (s.modQueue q f).wire = s.wire := rfl
@[simp] theorem State.modQueue_linkClock (s : State) (q : Nat) (f : Queue → Queue) : (s.modQueue q f).linkClock = s.linkClock := rfl
@[simp] theorem State.modQueue_lostPlanes (s : State) (q : Nat) (f : Queue → Queue) : (s.modQueue q f).lostPlanes = s.lostPlanes := rfl
@[simp] theorem State.modQueue_inbox (s : State) (q : Nat) (f : Queue → Queue) : (s.modQueue q f).inbox = s.inbox := rfl
@[simp] theorem State.modQueue_failedDevices (s : State) (q : Nat) (f : Queue → Queue) : (s.modQueue q f).failedDevices = s.failedDevices := rfl
@[simp] theorem State.modQueue_slowLog (s : State) (q : Nat) (f : Queue → Queue) : (s.modQueue q f).slowLog = s.slowLog := rfl
@[simp] theorem State.modQueue_powered (s : State) (q : Nat) (f : Queue → Queue) : (s.modQueue q f).powered = s.powered := rfl
@[simp] theorem State.modQueue_device (s : State) (q : Nat) (f : Queue → Queue) : (s.modQueue q f).device = s.device := rfl
@[simp] theorem State.modQueue_position (s : State) (q : Nat) (f : Queue → Queue) : (s.modQueue q f).position = s.position := rfl
@[simp] theorem State.modQueue_ready (s : State) (q : Nat) (f : Queue → Queue) : (s.modQueue q f).ready = s.ready := rfl
@[simp] theorem State.modQueue_error (s : State) (q : Nat) (f : Queue → Queue) : (s.modQueue q f).error = s.error := rfl
@[simp] theorem State.modQueue_host2 (s : State) (q : Nat) (f : Queue → Queue) : (s.modQueue q f).host2 = s.host2 := rfl
@[simp] theorem State.modQueue_bootStep (s : State) (q : Nat) (f : Queue → Queue) : (s.modQueue q f).bootStep = s.bootStep := rfl
@[simp] theorem State.modQueue_badClusters (s : State) (q : Nat) (f : Queue → Queue) : (s.modQueue q f).badClusters = s.badClusters := rfl
@[simp] theorem State.modQueue_badQuarters (s : State) (q : Nat) (f : Queue → Queue) : (s.modQueue q f).badQuarters = s.badQuarters := rfl
@[simp] theorem State.modQueue_power (s : State) (q : Nat) (f : Queue → Queue) : (s.modQueue q f).power = s.power := rfl
@[simp] theorem State.modQueue_gated (s : State) (q : Nat) (f : Queue → Queue) : (s.modQueue q f).gated = s.gated := rfl
@[simp] theorem State.modQueue_pwrReq (s : State) (q : Nat) (f : Queue → Queue) : (s.modQueue q f).pwrReq = s.pwrReq := rfl
@[simp] theorem State.modQueue_lifecycle (s : State) (q : Nat) (f : Queue → Queue) : (s.modQueue q f).lifecycle = s.lifecycle := rfl
@[simp] theorem State.modQueue_debug (s : State) (q : Nat) (f : Queue → Queue) : (s.modQueue q f).debug = s.debug := rfl
@[simp] theorem State.modQueue_identity (s : State) (q : Nat) (f : Queue → Queue) : (s.modQueue q f).identity = s.identity := rfl
@[simp] theorem State.modQueue_skews (s : State) (q : Nat) (f : Queue → Queue) : (s.modQueue q f).skews = s.skews := rfl
@[simp] theorem State.modQueue_softErrors (s : State) (q : Nat) (f : Queue → Queue) : (s.modQueue q f).softErrors = s.softErrors := rfl
@[simp] theorem State.modQueue_quarterClocks (s : State) (q : Nat) (f : Queue → Queue) : (s.modQueue q f).quarterClocks = s.quarterClocks := rfl
@[simp] theorem State.modQueue_replies (s : State) (q : Nat) (f : Queue → Queue) : (s.modQueue q f).replies = s.replies := rfl

/-! ### modLink changes `links` alone -/

@[simp] theorem State.modLink_issue (s : State) (l : Nat) (f : Link → Link) : (s.modLink l f).issue = s.issue := rfl
@[simp] theorem State.modLink_agenda (s : State) (l : Nat) (f : Link → Link) : (s.modLink l f).agenda = s.agenda := rfl
@[simp] theorem State.modLink_tick (s : State) (l : Nat) (f : Link → Link) : (s.modLink l f).tick = s.tick := rfl
@[simp] theorem State.modLink_broken (s : State) (l : Nat) (f : Link → Link) : (s.modLink l f).broken = s.broken := rfl
@[simp] theorem State.modLink_vregs (s : State) (l : Nat) (f : Link → Link) : (s.modLink l f).vregs = s.vregs := rfl
@[simp] theorem State.modLink_fills (s : State) (l : Nat) (f : Link → Link) : (s.modLink l f).fills = s.fills := rfl
@[simp] theorem State.modLink_uregs (s : State) (l : Nat) (f : Link → Link) : (s.modLink l f).uregs = s.uregs := rfl
@[simp] theorem State.modLink_tiles (s : State) (l : Nat) (f : Link → Link) : (s.modLink l f).tiles = s.tiles := rfl
@[simp] theorem State.modLink_threads (s : State) (l : Nat) (f : Link → Link) : (s.modLink l f).threads = s.threads := rfl
@[simp] theorem State.modLink_groups (s : State) (l : Nat) (f : Link → Link) : (s.modLink l f).groups = s.groups := rfl
@[simp] theorem State.modLink_blocks (s : State) (l : Nat) (f : Link → Link) : (s.modLink l f).blocks = s.blocks := rfl
@[simp] theorem State.modLink_regions (s : State) (l : Nat) (f : Link → Link) : (s.modLink l f).regions = s.regions := rfl
@[simp] theorem State.modLink_kept (s : State) (l : Nat) (f : Link → Link) : (s.modLink l f).kept = s.kept := rfl
@[simp] theorem State.modLink_cores (s : State) (l : Nat) (f : Link → Link) : (s.modLink l f).cores = s.cores := rfl
@[simp] theorem State.modLink_places (s : State) (l : Nat) (f : Link → Link) : (s.modLink l f).places = s.places := rfl
@[simp] theorem State.modLink_planNotes (s : State) (l : Nat) (f : Link → Link) : (s.modLink l f).planNotes = s.planNotes := rfl
@[simp] theorem State.modLink_placeTurns (s : State) (l : Nat) (f : Link → Link) : (s.modLink l f).placeTurns = s.placeTurns := rfl
@[simp] theorem State.modLink_openBytes (s : State) (l : Nat) (f : Link → Link) : (s.modLink l f).openBytes = s.openBytes := rfl
@[simp] theorem State.modLink_nextId (s : State) (l : Nat) (f : Link → Link) : (s.modLink l f).nextId = s.nextId := rfl
@[simp] theorem State.modLink_vault (s : State) (l : Nat) (f : Link → Link) : (s.modLink l f).vault = s.vault := rfl
@[simp] theorem State.modLink_pool (s : State) (l : Nat) (f : Link → Link) : (s.modLink l f).pool = s.pool := rfl
@[simp] theorem State.modLink_locals (s : State) (l : Nat) (f : Link → Link) : (s.modLink l f).locals = s.locals := rfl
@[simp] theorem State.modLink_poisonVault (s : State) (l : Nat) (f : Link → Link) : (s.modLink l f).poisonVault = s.poisonVault := rfl
@[simp] theorem State.modLink_poisonPool (s : State) (l : Nat) (f : Link → Link) : (s.modLink l f).poisonPool = s.poisonPool := rfl
@[simp] theorem State.modLink_poisonLocal (s : State) (l : Nat) (f : Link → Link) : (s.modLink l f).poisonLocal = s.poisonLocal := rfl
@[simp] theorem State.modLink_poolGrants (s : State) (l : Nat) (f : Link → Link) : (s.modLink l f).poolGrants = s.poolGrants := rfl
@[simp] theorem State.modLink_poolRefusals (s : State) (l : Nat) (f : Link → Link) : (s.modLink l f).poolRefusals = s.poolRefusals := rfl
@[simp] theorem State.modLink_oldCode (s : State) (l : Nat) (f : Link → Link) : (s.modLink l f).oldCode = s.oldCode := rfl
@[simp] theorem State.modLink_torn (s : State) (l : Nat) (f : Link → Link) : (s.modLink l f).torn = s.torn := rfl
@[simp] theorem State.modLink_oldViews (s : State) (l : Nat) (f : Link → Link) : (s.modLink l f).oldViews = s.oldViews := rfl
@[simp] theorem State.modLink_racedOps (s : State) (l : Nat) (f : Link → Link) : (s.modLink l f).racedOps = s.racedOps := rfl
@[simp] theorem State.modLink_ctxs (s : State) (l : Nat) (f : Link → Link) : (s.modLink l f).ctxs = s.ctxs := rfl
@[simp] theorem State.modLink_queues (s : State) (l : Nat) (f : Link → Link) : (s.modLink l f).queues = s.queues := rfl
@[simp] theorem State.modLink_turn (s : State) (l : Nat) (f : Link → Link) : (s.modLink l f).turn = s.turn := rfl
@[simp] theorem State.modLink_counters (s : State) (l : Nat) (f : Link → Link) : (s.modLink l f).counters = s.counters := rfl
@[simp] theorem State.modLink_launches (s : State) (l : Nat) (f : Link → Link) : (s.modLink l f).launches = s.launches := rfl
@[simp] theorem State.modLink_nextLaunch (s : State) (l : Nat) (f : Link → Link) : (s.modLink l f).nextLaunch = s.nextLaunch := rfl
@[simp] theorem State.modLink_pageRing (s : State) (l : Nat) (f : Link → Link) : (s.modLink l f).pageRing = s.pageRing := rfl
@[simp] theorem State.modLink_registering (s : State) (l : Nat) (f : Link → Link) : (s.modLink l f).registering = s.registering := rfl
@[simp] theorem State.modLink_pageOps (s : State) (l : Nat) (f : Link → Link) : (s.modLink l f).pageOps = s.pageOps := rfl
@[simp] theorem State.modLink_prefetched (s : State) (l : Nat) (f : Link → Link) : (s.modLink l f).prefetched = s.prefetched := rfl
@[simp] theorem State.modLink_viewOps (s : State) (l : Nat) (f : Link → Link) : (s.modLink l f).viewOps = s.viewOps := rfl
@[simp] theorem State.modLink_coverage (s : State) (l : Nat) (f : Link → Link) : (s.modLink l f).coverage = s.coverage := rfl
@[simp] theorem State.modLink_planemap (s : State) (l : Nat) (f : Link → Link) : (s.modLink l f).planemap = s.planemap := rfl
@[simp] theorem State.modLink_nextTags (s : State) (l : Nat) (f : Link → Link) : (s.modLink l f).nextTags = s.nextTags := rfl
@[simp] theorem State.modLink_requests (s : State) (l : Nat) (f : Link → Link) : (s.modLink l f).requests = s.requests := rfl
@[simp] theorem State.modLink_fetched (s : State) (l : Nat) (f : Link → Link) : (s.modLink l f).fetched = s.fetched := rfl
@[simp] theorem State.modLink_responses (s : State) (l : Nat) (f : Link → Link) : (s.modLink l f).responses = s.responses := rfl
@[simp] theorem State.modLink_routes (s : State) (l : Nat) (f : Link → Link) : (s.modLink l f).routes = s.routes := rfl
@[simp] theorem State.modLink_groupTable (s : State) (l : Nat) (f : Link → Link) : (s.modLink l f).groupTable = s.groupTable := rfl
@[simp] theorem State.modLink_combines (s : State) (l : Nat) (f : Link → Link) : (s.modLink l f).combines = s.combines := rfl
@[simp] theorem State.modLink_memberLines (s : State) (l : Nat) (f : Link → Link) : (s.modLink l f).memberLines = s.memberLines := rfl
@[simp] theorem State.modLink_dbghold (s : State) (l : Nat) (f : Link → Link) : (s.modLink l f).dbghold = s.dbghold := rfl
@[simp] theorem State.modLink_deepHalt (s : State) (l : Nat) (f : Link → Link) : (s.modLink l f).deepHalt = s.deepHalt := rfl
@[simp] theorem State.modLink_debugHalt (s : State) (l : Nat) (f : Link → Link) : (s.modLink l f).debugHalt = s.debugHalt := rfl
@[simp] theorem State.modLink_outbox (s : State) (l : Nat) (f : Link → Link) : (s.modLink l f).outbox = s.outbox := rfl
@[simp] theorem State.modLink_wire (s : State) (l : Nat) (f : Link → Link) : (s.modLink l f).wire = s.wire := rfl
@[simp] theorem State.modLink_linkClock (s : State) (l : Nat) (f : Link → Link) : (s.modLink l f).linkClock = s.linkClock := rfl
@[simp] theorem State.modLink_lostPlanes (s : State) (l : Nat) (f : Link → Link) : (s.modLink l f).lostPlanes = s.lostPlanes := rfl
@[simp] theorem State.modLink_inbox (s : State) (l : Nat) (f : Link → Link) : (s.modLink l f).inbox = s.inbox := rfl
@[simp] theorem State.modLink_failedDevices (s : State) (l : Nat) (f : Link → Link) : (s.modLink l f).failedDevices = s.failedDevices := rfl
@[simp] theorem State.modLink_slowLog (s : State) (l : Nat) (f : Link → Link) : (s.modLink l f).slowLog = s.slowLog := rfl
@[simp] theorem State.modLink_powered (s : State) (l : Nat) (f : Link → Link) : (s.modLink l f).powered = s.powered := rfl
@[simp] theorem State.modLink_device (s : State) (l : Nat) (f : Link → Link) : (s.modLink l f).device = s.device := rfl
@[simp] theorem State.modLink_position (s : State) (l : Nat) (f : Link → Link) : (s.modLink l f).position = s.position := rfl
@[simp] theorem State.modLink_ready (s : State) (l : Nat) (f : Link → Link) : (s.modLink l f).ready = s.ready := rfl
@[simp] theorem State.modLink_error (s : State) (l : Nat) (f : Link → Link) : (s.modLink l f).error = s.error := rfl
@[simp] theorem State.modLink_host2 (s : State) (l : Nat) (f : Link → Link) : (s.modLink l f).host2 = s.host2 := rfl
@[simp] theorem State.modLink_bootStep (s : State) (l : Nat) (f : Link → Link) : (s.modLink l f).bootStep = s.bootStep := rfl
@[simp] theorem State.modLink_badClusters (s : State) (l : Nat) (f : Link → Link) : (s.modLink l f).badClusters = s.badClusters := rfl
@[simp] theorem State.modLink_badQuarters (s : State) (l : Nat) (f : Link → Link) : (s.modLink l f).badQuarters = s.badQuarters := rfl
@[simp] theorem State.modLink_power (s : State) (l : Nat) (f : Link → Link) : (s.modLink l f).power = s.power := rfl
@[simp] theorem State.modLink_gated (s : State) (l : Nat) (f : Link → Link) : (s.modLink l f).gated = s.gated := rfl
@[simp] theorem State.modLink_pwrReq (s : State) (l : Nat) (f : Link → Link) : (s.modLink l f).pwrReq = s.pwrReq := rfl
@[simp] theorem State.modLink_lifecycle (s : State) (l : Nat) (f : Link → Link) : (s.modLink l f).lifecycle = s.lifecycle := rfl
@[simp] theorem State.modLink_debug (s : State) (l : Nat) (f : Link → Link) : (s.modLink l f).debug = s.debug := rfl
@[simp] theorem State.modLink_identity (s : State) (l : Nat) (f : Link → Link) : (s.modLink l f).identity = s.identity := rfl
@[simp] theorem State.modLink_skews (s : State) (l : Nat) (f : Link → Link) : (s.modLink l f).skews = s.skews := rfl
@[simp] theorem State.modLink_softErrors (s : State) (l : Nat) (f : Link → Link) : (s.modLink l f).softErrors = s.softErrors := rfl
@[simp] theorem State.modLink_quarterClocks (s : State) (l : Nat) (f : Link → Link) : (s.modLink l f).quarterClocks = s.quarterClocks := rfl
@[simp] theorem State.modLink_replies (s : State) (l : Nat) (f : Link → Link) : (s.modLink l f).replies = s.replies := rfl

/-! ### fresh changes `nextId` alone -/

@[simp] theorem State.fresh_issue (s : State) (n : Nat) : (s.fresh n).issue = s.issue := rfl
@[simp] theorem State.fresh_agenda (s : State) (n : Nat) : (s.fresh n).agenda = s.agenda := rfl
@[simp] theorem State.fresh_tick (s : State) (n : Nat) : (s.fresh n).tick = s.tick := rfl
@[simp] theorem State.fresh_broken (s : State) (n : Nat) : (s.fresh n).broken = s.broken := rfl
@[simp] theorem State.fresh_vregs (s : State) (n : Nat) : (s.fresh n).vregs = s.vregs := rfl
@[simp] theorem State.fresh_fills (s : State) (n : Nat) : (s.fresh n).fills = s.fills := rfl
@[simp] theorem State.fresh_uregs (s : State) (n : Nat) : (s.fresh n).uregs = s.uregs := rfl
@[simp] theorem State.fresh_tiles (s : State) (n : Nat) : (s.fresh n).tiles = s.tiles := rfl
@[simp] theorem State.fresh_threads (s : State) (n : Nat) : (s.fresh n).threads = s.threads := rfl
@[simp] theorem State.fresh_groups (s : State) (n : Nat) : (s.fresh n).groups = s.groups := rfl
@[simp] theorem State.fresh_blocks (s : State) (n : Nat) : (s.fresh n).blocks = s.blocks := rfl
@[simp] theorem State.fresh_regions (s : State) (n : Nat) : (s.fresh n).regions = s.regions := rfl
@[simp] theorem State.fresh_kept (s : State) (n : Nat) : (s.fresh n).kept = s.kept := rfl
@[simp] theorem State.fresh_cores (s : State) (n : Nat) : (s.fresh n).cores = s.cores := rfl
@[simp] theorem State.fresh_places (s : State) (n : Nat) : (s.fresh n).places = s.places := rfl
@[simp] theorem State.fresh_planNotes (s : State) (n : Nat) : (s.fresh n).planNotes = s.planNotes := rfl
@[simp] theorem State.fresh_placeTurns (s : State) (n : Nat) : (s.fresh n).placeTurns = s.placeTurns := rfl
@[simp] theorem State.fresh_openBytes (s : State) (n : Nat) : (s.fresh n).openBytes = s.openBytes := rfl
@[simp] theorem State.fresh_vault (s : State) (n : Nat) : (s.fresh n).vault = s.vault := rfl
@[simp] theorem State.fresh_pool (s : State) (n : Nat) : (s.fresh n).pool = s.pool := rfl
@[simp] theorem State.fresh_locals (s : State) (n : Nat) : (s.fresh n).locals = s.locals := rfl
@[simp] theorem State.fresh_poisonVault (s : State) (n : Nat) : (s.fresh n).poisonVault = s.poisonVault := rfl
@[simp] theorem State.fresh_poisonPool (s : State) (n : Nat) : (s.fresh n).poisonPool = s.poisonPool := rfl
@[simp] theorem State.fresh_poisonLocal (s : State) (n : Nat) : (s.fresh n).poisonLocal = s.poisonLocal := rfl
@[simp] theorem State.fresh_poolGrants (s : State) (n : Nat) : (s.fresh n).poolGrants = s.poolGrants := rfl
@[simp] theorem State.fresh_poolRefusals (s : State) (n : Nat) : (s.fresh n).poolRefusals = s.poolRefusals := rfl
@[simp] theorem State.fresh_oldCode (s : State) (n : Nat) : (s.fresh n).oldCode = s.oldCode := rfl
@[simp] theorem State.fresh_torn (s : State) (n : Nat) : (s.fresh n).torn = s.torn := rfl
@[simp] theorem State.fresh_oldViews (s : State) (n : Nat) : (s.fresh n).oldViews = s.oldViews := rfl
@[simp] theorem State.fresh_racedOps (s : State) (n : Nat) : (s.fresh n).racedOps = s.racedOps := rfl
@[simp] theorem State.fresh_ctxs (s : State) (n : Nat) : (s.fresh n).ctxs = s.ctxs := rfl
@[simp] theorem State.fresh_queues (s : State) (n : Nat) : (s.fresh n).queues = s.queues := rfl
@[simp] theorem State.fresh_turn (s : State) (n : Nat) : (s.fresh n).turn = s.turn := rfl
@[simp] theorem State.fresh_counters (s : State) (n : Nat) : (s.fresh n).counters = s.counters := rfl
@[simp] theorem State.fresh_launches (s : State) (n : Nat) : (s.fresh n).launches = s.launches := rfl
@[simp] theorem State.fresh_nextLaunch (s : State) (n : Nat) : (s.fresh n).nextLaunch = s.nextLaunch := rfl
@[simp] theorem State.fresh_pageRing (s : State) (n : Nat) : (s.fresh n).pageRing = s.pageRing := rfl
@[simp] theorem State.fresh_registering (s : State) (n : Nat) : (s.fresh n).registering = s.registering := rfl
@[simp] theorem State.fresh_pageOps (s : State) (n : Nat) : (s.fresh n).pageOps = s.pageOps := rfl
@[simp] theorem State.fresh_prefetched (s : State) (n : Nat) : (s.fresh n).prefetched = s.prefetched := rfl
@[simp] theorem State.fresh_viewOps (s : State) (n : Nat) : (s.fresh n).viewOps = s.viewOps := rfl
@[simp] theorem State.fresh_coverage (s : State) (n : Nat) : (s.fresh n).coverage = s.coverage := rfl
@[simp] theorem State.fresh_links (s : State) (n : Nat) : (s.fresh n).links = s.links := rfl
@[simp] theorem State.fresh_planemap (s : State) (n : Nat) : (s.fresh n).planemap = s.planemap := rfl
@[simp] theorem State.fresh_nextTags (s : State) (n : Nat) : (s.fresh n).nextTags = s.nextTags := rfl
@[simp] theorem State.fresh_requests (s : State) (n : Nat) : (s.fresh n).requests = s.requests := rfl
@[simp] theorem State.fresh_fetched (s : State) (n : Nat) : (s.fresh n).fetched = s.fetched := rfl
@[simp] theorem State.fresh_responses (s : State) (n : Nat) : (s.fresh n).responses = s.responses := rfl
@[simp] theorem State.fresh_routes (s : State) (n : Nat) : (s.fresh n).routes = s.routes := rfl
@[simp] theorem State.fresh_groupTable (s : State) (n : Nat) : (s.fresh n).groupTable = s.groupTable := rfl
@[simp] theorem State.fresh_combines (s : State) (n : Nat) : (s.fresh n).combines = s.combines := rfl
@[simp] theorem State.fresh_memberLines (s : State) (n : Nat) : (s.fresh n).memberLines = s.memberLines := rfl
@[simp] theorem State.fresh_dbghold (s : State) (n : Nat) : (s.fresh n).dbghold = s.dbghold := rfl
@[simp] theorem State.fresh_deepHalt (s : State) (n : Nat) : (s.fresh n).deepHalt = s.deepHalt := rfl
@[simp] theorem State.fresh_debugHalt (s : State) (n : Nat) : (s.fresh n).debugHalt = s.debugHalt := rfl
@[simp] theorem State.fresh_outbox (s : State) (n : Nat) : (s.fresh n).outbox = s.outbox := rfl
@[simp] theorem State.fresh_wire (s : State) (n : Nat) : (s.fresh n).wire = s.wire := rfl
@[simp] theorem State.fresh_linkClock (s : State) (n : Nat) : (s.fresh n).linkClock = s.linkClock := rfl
@[simp] theorem State.fresh_lostPlanes (s : State) (n : Nat) : (s.fresh n).lostPlanes = s.lostPlanes := rfl
@[simp] theorem State.fresh_inbox (s : State) (n : Nat) : (s.fresh n).inbox = s.inbox := rfl
@[simp] theorem State.fresh_failedDevices (s : State) (n : Nat) : (s.fresh n).failedDevices = s.failedDevices := rfl
@[simp] theorem State.fresh_slowLog (s : State) (n : Nat) : (s.fresh n).slowLog = s.slowLog := rfl
@[simp] theorem State.fresh_powered (s : State) (n : Nat) : (s.fresh n).powered = s.powered := rfl
@[simp] theorem State.fresh_device (s : State) (n : Nat) : (s.fresh n).device = s.device := rfl
@[simp] theorem State.fresh_position (s : State) (n : Nat) : (s.fresh n).position = s.position := rfl
@[simp] theorem State.fresh_ready (s : State) (n : Nat) : (s.fresh n).ready = s.ready := rfl
@[simp] theorem State.fresh_error (s : State) (n : Nat) : (s.fresh n).error = s.error := rfl
@[simp] theorem State.fresh_host2 (s : State) (n : Nat) : (s.fresh n).host2 = s.host2 := rfl
@[simp] theorem State.fresh_bootStep (s : State) (n : Nat) : (s.fresh n).bootStep = s.bootStep := rfl
@[simp] theorem State.fresh_badClusters (s : State) (n : Nat) : (s.fresh n).badClusters = s.badClusters := rfl
@[simp] theorem State.fresh_badQuarters (s : State) (n : Nat) : (s.fresh n).badQuarters = s.badQuarters := rfl
@[simp] theorem State.fresh_power (s : State) (n : Nat) : (s.fresh n).power = s.power := rfl
@[simp] theorem State.fresh_gated (s : State) (n : Nat) : (s.fresh n).gated = s.gated := rfl
@[simp] theorem State.fresh_pwrReq (s : State) (n : Nat) : (s.fresh n).pwrReq = s.pwrReq := rfl
@[simp] theorem State.fresh_lifecycle (s : State) (n : Nat) : (s.fresh n).lifecycle = s.lifecycle := rfl
@[simp] theorem State.fresh_debug (s : State) (n : Nat) : (s.fresh n).debug = s.debug := rfl
@[simp] theorem State.fresh_identity (s : State) (n : Nat) : (s.fresh n).identity = s.identity := rfl
@[simp] theorem State.fresh_skews (s : State) (n : Nat) : (s.fresh n).skews = s.skews := rfl
@[simp] theorem State.fresh_softErrors (s : State) (n : Nat) : (s.fresh n).softErrors = s.softErrors := rfl
@[simp] theorem State.fresh_quarterClocks (s : State) (n : Nat) : (s.fresh n).quarterClocks = s.quarterClocks := rfl
@[simp] theorem State.fresh_replies (s : State) (n : Nat) : (s.fresh n).replies = s.replies := rfl

/-! ### markEmpty changes `fills` alone -/

@[simp] theorem State.markEmpty_issue (s : State) (h r l id : Nat) : (s.markEmpty h r l id).issue = s.issue := rfl
@[simp] theorem State.markEmpty_agenda (s : State) (h r l id : Nat) : (s.markEmpty h r l id).agenda = s.agenda := rfl
@[simp] theorem State.markEmpty_tick (s : State) (h r l id : Nat) : (s.markEmpty h r l id).tick = s.tick := rfl
@[simp] theorem State.markEmpty_broken (s : State) (h r l id : Nat) : (s.markEmpty h r l id).broken = s.broken := rfl
@[simp] theorem State.markEmpty_vregs (s : State) (h r l id : Nat) : (s.markEmpty h r l id).vregs = s.vregs := rfl
@[simp] theorem State.markEmpty_uregs (s : State) (h r l id : Nat) : (s.markEmpty h r l id).uregs = s.uregs := rfl
@[simp] theorem State.markEmpty_tiles (s : State) (h r l id : Nat) : (s.markEmpty h r l id).tiles = s.tiles := rfl
@[simp] theorem State.markEmpty_threads (s : State) (h r l id : Nat) : (s.markEmpty h r l id).threads = s.threads := rfl
@[simp] theorem State.markEmpty_groups (s : State) (h r l id : Nat) : (s.markEmpty h r l id).groups = s.groups := rfl
@[simp] theorem State.markEmpty_blocks (s : State) (h r l id : Nat) : (s.markEmpty h r l id).blocks = s.blocks := rfl
@[simp] theorem State.markEmpty_regions (s : State) (h r l id : Nat) : (s.markEmpty h r l id).regions = s.regions := rfl
@[simp] theorem State.markEmpty_kept (s : State) (h r l id : Nat) : (s.markEmpty h r l id).kept = s.kept := rfl
@[simp] theorem State.markEmpty_cores (s : State) (h r l id : Nat) : (s.markEmpty h r l id).cores = s.cores := rfl
@[simp] theorem State.markEmpty_places (s : State) (h r l id : Nat) : (s.markEmpty h r l id).places = s.places := rfl
@[simp] theorem State.markEmpty_planNotes (s : State) (h r l id : Nat) : (s.markEmpty h r l id).planNotes = s.planNotes := rfl
@[simp] theorem State.markEmpty_placeTurns (s : State) (h r l id : Nat) : (s.markEmpty h r l id).placeTurns = s.placeTurns := rfl
@[simp] theorem State.markEmpty_openBytes (s : State) (h r l id : Nat) : (s.markEmpty h r l id).openBytes = s.openBytes := rfl
@[simp] theorem State.markEmpty_nextId (s : State) (h r l id : Nat) : (s.markEmpty h r l id).nextId = s.nextId := rfl
@[simp] theorem State.markEmpty_vault (s : State) (h r l id : Nat) : (s.markEmpty h r l id).vault = s.vault := rfl
@[simp] theorem State.markEmpty_pool (s : State) (h r l id : Nat) : (s.markEmpty h r l id).pool = s.pool := rfl
@[simp] theorem State.markEmpty_locals (s : State) (h r l id : Nat) : (s.markEmpty h r l id).locals = s.locals := rfl
@[simp] theorem State.markEmpty_poisonVault (s : State) (h r l id : Nat) : (s.markEmpty h r l id).poisonVault = s.poisonVault := rfl
@[simp] theorem State.markEmpty_poisonPool (s : State) (h r l id : Nat) : (s.markEmpty h r l id).poisonPool = s.poisonPool := rfl
@[simp] theorem State.markEmpty_poisonLocal (s : State) (h r l id : Nat) : (s.markEmpty h r l id).poisonLocal = s.poisonLocal := rfl
@[simp] theorem State.markEmpty_poolGrants (s : State) (h r l id : Nat) : (s.markEmpty h r l id).poolGrants = s.poolGrants := rfl
@[simp] theorem State.markEmpty_poolRefusals (s : State) (h r l id : Nat) : (s.markEmpty h r l id).poolRefusals = s.poolRefusals := rfl
@[simp] theorem State.markEmpty_oldCode (s : State) (h r l id : Nat) : (s.markEmpty h r l id).oldCode = s.oldCode := rfl
@[simp] theorem State.markEmpty_torn (s : State) (h r l id : Nat) : (s.markEmpty h r l id).torn = s.torn := rfl
@[simp] theorem State.markEmpty_oldViews (s : State) (h r l id : Nat) : (s.markEmpty h r l id).oldViews = s.oldViews := rfl
@[simp] theorem State.markEmpty_racedOps (s : State) (h r l id : Nat) : (s.markEmpty h r l id).racedOps = s.racedOps := rfl
@[simp] theorem State.markEmpty_ctxs (s : State) (h r l id : Nat) : (s.markEmpty h r l id).ctxs = s.ctxs := rfl
@[simp] theorem State.markEmpty_queues (s : State) (h r l id : Nat) : (s.markEmpty h r l id).queues = s.queues := rfl
@[simp] theorem State.markEmpty_turn (s : State) (h r l id : Nat) : (s.markEmpty h r l id).turn = s.turn := rfl
@[simp] theorem State.markEmpty_counters (s : State) (h r l id : Nat) : (s.markEmpty h r l id).counters = s.counters := rfl
@[simp] theorem State.markEmpty_launches (s : State) (h r l id : Nat) : (s.markEmpty h r l id).launches = s.launches := rfl
@[simp] theorem State.markEmpty_nextLaunch (s : State) (h r l id : Nat) : (s.markEmpty h r l id).nextLaunch = s.nextLaunch := rfl
@[simp] theorem State.markEmpty_pageRing (s : State) (h r l id : Nat) : (s.markEmpty h r l id).pageRing = s.pageRing := rfl
@[simp] theorem State.markEmpty_registering (s : State) (h r l id : Nat) : (s.markEmpty h r l id).registering = s.registering := rfl
@[simp] theorem State.markEmpty_pageOps (s : State) (h r l id : Nat) : (s.markEmpty h r l id).pageOps = s.pageOps := rfl
@[simp] theorem State.markEmpty_prefetched (s : State) (h r l id : Nat) : (s.markEmpty h r l id).prefetched = s.prefetched := rfl
@[simp] theorem State.markEmpty_viewOps (s : State) (h r l id : Nat) : (s.markEmpty h r l id).viewOps = s.viewOps := rfl
@[simp] theorem State.markEmpty_coverage (s : State) (h r l id : Nat) : (s.markEmpty h r l id).coverage = s.coverage := rfl
@[simp] theorem State.markEmpty_links (s : State) (h r l id : Nat) : (s.markEmpty h r l id).links = s.links := rfl
@[simp] theorem State.markEmpty_planemap (s : State) (h r l id : Nat) : (s.markEmpty h r l id).planemap = s.planemap := rfl
@[simp] theorem State.markEmpty_nextTags (s : State) (h r l id : Nat) : (s.markEmpty h r l id).nextTags = s.nextTags := rfl
@[simp] theorem State.markEmpty_requests (s : State) (h r l id : Nat) : (s.markEmpty h r l id).requests = s.requests := rfl
@[simp] theorem State.markEmpty_fetched (s : State) (h r l id : Nat) : (s.markEmpty h r l id).fetched = s.fetched := rfl
@[simp] theorem State.markEmpty_responses (s : State) (h r l id : Nat) : (s.markEmpty h r l id).responses = s.responses := rfl
@[simp] theorem State.markEmpty_routes (s : State) (h r l id : Nat) : (s.markEmpty h r l id).routes = s.routes := rfl
@[simp] theorem State.markEmpty_groupTable (s : State) (h r l id : Nat) : (s.markEmpty h r l id).groupTable = s.groupTable := rfl
@[simp] theorem State.markEmpty_combines (s : State) (h r l id : Nat) : (s.markEmpty h r l id).combines = s.combines := rfl
@[simp] theorem State.markEmpty_memberLines (s : State) (h r l id : Nat) : (s.markEmpty h r l id).memberLines = s.memberLines := rfl
@[simp] theorem State.markEmpty_dbghold (s : State) (h r l id : Nat) : (s.markEmpty h r l id).dbghold = s.dbghold := rfl
@[simp] theorem State.markEmpty_deepHalt (s : State) (h r l id : Nat) : (s.markEmpty h r l id).deepHalt = s.deepHalt := rfl
@[simp] theorem State.markEmpty_debugHalt (s : State) (h r l id : Nat) : (s.markEmpty h r l id).debugHalt = s.debugHalt := rfl
@[simp] theorem State.markEmpty_outbox (s : State) (h r l id : Nat) : (s.markEmpty h r l id).outbox = s.outbox := rfl
@[simp] theorem State.markEmpty_wire (s : State) (h r l id : Nat) : (s.markEmpty h r l id).wire = s.wire := rfl
@[simp] theorem State.markEmpty_linkClock (s : State) (h r l id : Nat) : (s.markEmpty h r l id).linkClock = s.linkClock := rfl
@[simp] theorem State.markEmpty_lostPlanes (s : State) (h r l id : Nat) : (s.markEmpty h r l id).lostPlanes = s.lostPlanes := rfl
@[simp] theorem State.markEmpty_inbox (s : State) (h r l id : Nat) : (s.markEmpty h r l id).inbox = s.inbox := rfl
@[simp] theorem State.markEmpty_failedDevices (s : State) (h r l id : Nat) : (s.markEmpty h r l id).failedDevices = s.failedDevices := rfl
@[simp] theorem State.markEmpty_slowLog (s : State) (h r l id : Nat) : (s.markEmpty h r l id).slowLog = s.slowLog := rfl
@[simp] theorem State.markEmpty_powered (s : State) (h r l id : Nat) : (s.markEmpty h r l id).powered = s.powered := rfl
@[simp] theorem State.markEmpty_device (s : State) (h r l id : Nat) : (s.markEmpty h r l id).device = s.device := rfl
@[simp] theorem State.markEmpty_position (s : State) (h r l id : Nat) : (s.markEmpty h r l id).position = s.position := rfl
@[simp] theorem State.markEmpty_ready (s : State) (h r l id : Nat) : (s.markEmpty h r l id).ready = s.ready := rfl
@[simp] theorem State.markEmpty_error (s : State) (h r l id : Nat) : (s.markEmpty h r l id).error = s.error := rfl
@[simp] theorem State.markEmpty_host2 (s : State) (h r l id : Nat) : (s.markEmpty h r l id).host2 = s.host2 := rfl
@[simp] theorem State.markEmpty_bootStep (s : State) (h r l id : Nat) : (s.markEmpty h r l id).bootStep = s.bootStep := rfl
@[simp] theorem State.markEmpty_badClusters (s : State) (h r l id : Nat) : (s.markEmpty h r l id).badClusters = s.badClusters := rfl
@[simp] theorem State.markEmpty_badQuarters (s : State) (h r l id : Nat) : (s.markEmpty h r l id).badQuarters = s.badQuarters := rfl
@[simp] theorem State.markEmpty_power (s : State) (h r l id : Nat) : (s.markEmpty h r l id).power = s.power := rfl
@[simp] theorem State.markEmpty_gated (s : State) (h r l id : Nat) : (s.markEmpty h r l id).gated = s.gated := rfl
@[simp] theorem State.markEmpty_pwrReq (s : State) (h r l id : Nat) : (s.markEmpty h r l id).pwrReq = s.pwrReq := rfl
@[simp] theorem State.markEmpty_lifecycle (s : State) (h r l id : Nat) : (s.markEmpty h r l id).lifecycle = s.lifecycle := rfl
@[simp] theorem State.markEmpty_debug (s : State) (h r l id : Nat) : (s.markEmpty h r l id).debug = s.debug := rfl
@[simp] theorem State.markEmpty_identity (s : State) (h r l id : Nat) : (s.markEmpty h r l id).identity = s.identity := rfl
@[simp] theorem State.markEmpty_skews (s : State) (h r l id : Nat) : (s.markEmpty h r l id).skews = s.skews := rfl
@[simp] theorem State.markEmpty_softErrors (s : State) (h r l id : Nat) : (s.markEmpty h r l id).softErrors = s.softErrors := rfl
@[simp] theorem State.markEmpty_quarterClocks (s : State) (h r l id : Nat) : (s.markEmpty h r l id).quarterClocks = s.quarterClocks := rfl
@[simp] theorem State.markEmpty_replies (s : State) (h r l id : Nat) : (s.markEmpty h r l id).replies = s.replies := rfl

/-! ### markFull changes `fills` alone -/

@[simp] theorem State.markFull_issue (s : State) (h r l : Nat) : (s.markFull h r l).issue = s.issue := rfl
@[simp] theorem State.markFull_agenda (s : State) (h r l : Nat) : (s.markFull h r l).agenda = s.agenda := rfl
@[simp] theorem State.markFull_tick (s : State) (h r l : Nat) : (s.markFull h r l).tick = s.tick := rfl
@[simp] theorem State.markFull_broken (s : State) (h r l : Nat) : (s.markFull h r l).broken = s.broken := rfl
@[simp] theorem State.markFull_vregs (s : State) (h r l : Nat) : (s.markFull h r l).vregs = s.vregs := rfl
@[simp] theorem State.markFull_uregs (s : State) (h r l : Nat) : (s.markFull h r l).uregs = s.uregs := rfl
@[simp] theorem State.markFull_tiles (s : State) (h r l : Nat) : (s.markFull h r l).tiles = s.tiles := rfl
@[simp] theorem State.markFull_threads (s : State) (h r l : Nat) : (s.markFull h r l).threads = s.threads := rfl
@[simp] theorem State.markFull_groups (s : State) (h r l : Nat) : (s.markFull h r l).groups = s.groups := rfl
@[simp] theorem State.markFull_blocks (s : State) (h r l : Nat) : (s.markFull h r l).blocks = s.blocks := rfl
@[simp] theorem State.markFull_regions (s : State) (h r l : Nat) : (s.markFull h r l).regions = s.regions := rfl
@[simp] theorem State.markFull_kept (s : State) (h r l : Nat) : (s.markFull h r l).kept = s.kept := rfl
@[simp] theorem State.markFull_cores (s : State) (h r l : Nat) : (s.markFull h r l).cores = s.cores := rfl
@[simp] theorem State.markFull_places (s : State) (h r l : Nat) : (s.markFull h r l).places = s.places := rfl
@[simp] theorem State.markFull_planNotes (s : State) (h r l : Nat) : (s.markFull h r l).planNotes = s.planNotes := rfl
@[simp] theorem State.markFull_placeTurns (s : State) (h r l : Nat) : (s.markFull h r l).placeTurns = s.placeTurns := rfl
@[simp] theorem State.markFull_openBytes (s : State) (h r l : Nat) : (s.markFull h r l).openBytes = s.openBytes := rfl
@[simp] theorem State.markFull_nextId (s : State) (h r l : Nat) : (s.markFull h r l).nextId = s.nextId := rfl
@[simp] theorem State.markFull_vault (s : State) (h r l : Nat) : (s.markFull h r l).vault = s.vault := rfl
@[simp] theorem State.markFull_pool (s : State) (h r l : Nat) : (s.markFull h r l).pool = s.pool := rfl
@[simp] theorem State.markFull_locals (s : State) (h r l : Nat) : (s.markFull h r l).locals = s.locals := rfl
@[simp] theorem State.markFull_poisonVault (s : State) (h r l : Nat) : (s.markFull h r l).poisonVault = s.poisonVault := rfl
@[simp] theorem State.markFull_poisonPool (s : State) (h r l : Nat) : (s.markFull h r l).poisonPool = s.poisonPool := rfl
@[simp] theorem State.markFull_poisonLocal (s : State) (h r l : Nat) : (s.markFull h r l).poisonLocal = s.poisonLocal := rfl
@[simp] theorem State.markFull_poolGrants (s : State) (h r l : Nat) : (s.markFull h r l).poolGrants = s.poolGrants := rfl
@[simp] theorem State.markFull_poolRefusals (s : State) (h r l : Nat) : (s.markFull h r l).poolRefusals = s.poolRefusals := rfl
@[simp] theorem State.markFull_oldCode (s : State) (h r l : Nat) : (s.markFull h r l).oldCode = s.oldCode := rfl
@[simp] theorem State.markFull_torn (s : State) (h r l : Nat) : (s.markFull h r l).torn = s.torn := rfl
@[simp] theorem State.markFull_oldViews (s : State) (h r l : Nat) : (s.markFull h r l).oldViews = s.oldViews := rfl
@[simp] theorem State.markFull_racedOps (s : State) (h r l : Nat) : (s.markFull h r l).racedOps = s.racedOps := rfl
@[simp] theorem State.markFull_ctxs (s : State) (h r l : Nat) : (s.markFull h r l).ctxs = s.ctxs := rfl
@[simp] theorem State.markFull_queues (s : State) (h r l : Nat) : (s.markFull h r l).queues = s.queues := rfl
@[simp] theorem State.markFull_turn (s : State) (h r l : Nat) : (s.markFull h r l).turn = s.turn := rfl
@[simp] theorem State.markFull_counters (s : State) (h r l : Nat) : (s.markFull h r l).counters = s.counters := rfl
@[simp] theorem State.markFull_launches (s : State) (h r l : Nat) : (s.markFull h r l).launches = s.launches := rfl
@[simp] theorem State.markFull_nextLaunch (s : State) (h r l : Nat) : (s.markFull h r l).nextLaunch = s.nextLaunch := rfl
@[simp] theorem State.markFull_pageRing (s : State) (h r l : Nat) : (s.markFull h r l).pageRing = s.pageRing := rfl
@[simp] theorem State.markFull_registering (s : State) (h r l : Nat) : (s.markFull h r l).registering = s.registering := rfl
@[simp] theorem State.markFull_pageOps (s : State) (h r l : Nat) : (s.markFull h r l).pageOps = s.pageOps := rfl
@[simp] theorem State.markFull_prefetched (s : State) (h r l : Nat) : (s.markFull h r l).prefetched = s.prefetched := rfl
@[simp] theorem State.markFull_viewOps (s : State) (h r l : Nat) : (s.markFull h r l).viewOps = s.viewOps := rfl
@[simp] theorem State.markFull_coverage (s : State) (h r l : Nat) : (s.markFull h r l).coverage = s.coverage := rfl
@[simp] theorem State.markFull_links (s : State) (h r l : Nat) : (s.markFull h r l).links = s.links := rfl
@[simp] theorem State.markFull_planemap (s : State) (h r l : Nat) : (s.markFull h r l).planemap = s.planemap := rfl
@[simp] theorem State.markFull_nextTags (s : State) (h r l : Nat) : (s.markFull h r l).nextTags = s.nextTags := rfl
@[simp] theorem State.markFull_requests (s : State) (h r l : Nat) : (s.markFull h r l).requests = s.requests := rfl
@[simp] theorem State.markFull_fetched (s : State) (h r l : Nat) : (s.markFull h r l).fetched = s.fetched := rfl
@[simp] theorem State.markFull_responses (s : State) (h r l : Nat) : (s.markFull h r l).responses = s.responses := rfl
@[simp] theorem State.markFull_routes (s : State) (h r l : Nat) : (s.markFull h r l).routes = s.routes := rfl
@[simp] theorem State.markFull_groupTable (s : State) (h r l : Nat) : (s.markFull h r l).groupTable = s.groupTable := rfl
@[simp] theorem State.markFull_combines (s : State) (h r l : Nat) : (s.markFull h r l).combines = s.combines := rfl
@[simp] theorem State.markFull_memberLines (s : State) (h r l : Nat) : (s.markFull h r l).memberLines = s.memberLines := rfl
@[simp] theorem State.markFull_dbghold (s : State) (h r l : Nat) : (s.markFull h r l).dbghold = s.dbghold := rfl
@[simp] theorem State.markFull_deepHalt (s : State) (h r l : Nat) : (s.markFull h r l).deepHalt = s.deepHalt := rfl
@[simp] theorem State.markFull_debugHalt (s : State) (h r l : Nat) : (s.markFull h r l).debugHalt = s.debugHalt := rfl
@[simp] theorem State.markFull_outbox (s : State) (h r l : Nat) : (s.markFull h r l).outbox = s.outbox := rfl
@[simp] theorem State.markFull_wire (s : State) (h r l : Nat) : (s.markFull h r l).wire = s.wire := rfl
@[simp] theorem State.markFull_linkClock (s : State) (h r l : Nat) : (s.markFull h r l).linkClock = s.linkClock := rfl
@[simp] theorem State.markFull_lostPlanes (s : State) (h r l : Nat) : (s.markFull h r l).lostPlanes = s.lostPlanes := rfl
@[simp] theorem State.markFull_inbox (s : State) (h r l : Nat) : (s.markFull h r l).inbox = s.inbox := rfl
@[simp] theorem State.markFull_failedDevices (s : State) (h r l : Nat) : (s.markFull h r l).failedDevices = s.failedDevices := rfl
@[simp] theorem State.markFull_slowLog (s : State) (h r l : Nat) : (s.markFull h r l).slowLog = s.slowLog := rfl
@[simp] theorem State.markFull_powered (s : State) (h r l : Nat) : (s.markFull h r l).powered = s.powered := rfl
@[simp] theorem State.markFull_device (s : State) (h r l : Nat) : (s.markFull h r l).device = s.device := rfl
@[simp] theorem State.markFull_position (s : State) (h r l : Nat) : (s.markFull h r l).position = s.position := rfl
@[simp] theorem State.markFull_ready (s : State) (h r l : Nat) : (s.markFull h r l).ready = s.ready := rfl
@[simp] theorem State.markFull_error (s : State) (h r l : Nat) : (s.markFull h r l).error = s.error := rfl
@[simp] theorem State.markFull_host2 (s : State) (h r l : Nat) : (s.markFull h r l).host2 = s.host2 := rfl
@[simp] theorem State.markFull_bootStep (s : State) (h r l : Nat) : (s.markFull h r l).bootStep = s.bootStep := rfl
@[simp] theorem State.markFull_badClusters (s : State) (h r l : Nat) : (s.markFull h r l).badClusters = s.badClusters := rfl
@[simp] theorem State.markFull_badQuarters (s : State) (h r l : Nat) : (s.markFull h r l).badQuarters = s.badQuarters := rfl
@[simp] theorem State.markFull_power (s : State) (h r l : Nat) : (s.markFull h r l).power = s.power := rfl
@[simp] theorem State.markFull_gated (s : State) (h r l : Nat) : (s.markFull h r l).gated = s.gated := rfl
@[simp] theorem State.markFull_pwrReq (s : State) (h r l : Nat) : (s.markFull h r l).pwrReq = s.pwrReq := rfl
@[simp] theorem State.markFull_lifecycle (s : State) (h r l : Nat) : (s.markFull h r l).lifecycle = s.lifecycle := rfl
@[simp] theorem State.markFull_debug (s : State) (h r l : Nat) : (s.markFull h r l).debug = s.debug := rfl
@[simp] theorem State.markFull_identity (s : State) (h r l : Nat) : (s.markFull h r l).identity = s.identity := rfl
@[simp] theorem State.markFull_skews (s : State) (h r l : Nat) : (s.markFull h r l).skews = s.skews := rfl
@[simp] theorem State.markFull_softErrors (s : State) (h r l : Nat) : (s.markFull h r l).softErrors = s.softErrors := rfl
@[simp] theorem State.markFull_quarterClocks (s : State) (h r l : Nat) : (s.markFull h r l).quarterClocks = s.quarterClocks := rfl
@[simp] theorem State.markFull_replies (s : State) (h r l : Nat) : (s.markFull h r l).replies = s.replies := rfl

/-! ### putTile changes `tiles` alone -/

@[simp] theorem State.putTile_issue (s : State) (h t i : Nat) (bs : List Byte) : (s.putTile h t i bs).issue = s.issue := rfl
@[simp] theorem State.putTile_agenda (s : State) (h t i : Nat) (bs : List Byte) : (s.putTile h t i bs).agenda = s.agenda := rfl
@[simp] theorem State.putTile_tick (s : State) (h t i : Nat) (bs : List Byte) : (s.putTile h t i bs).tick = s.tick := rfl
@[simp] theorem State.putTile_broken (s : State) (h t i : Nat) (bs : List Byte) : (s.putTile h t i bs).broken = s.broken := rfl
@[simp] theorem State.putTile_vregs (s : State) (h t i : Nat) (bs : List Byte) : (s.putTile h t i bs).vregs = s.vregs := rfl
@[simp] theorem State.putTile_fills (s : State) (h t i : Nat) (bs : List Byte) : (s.putTile h t i bs).fills = s.fills := rfl
@[simp] theorem State.putTile_uregs (s : State) (h t i : Nat) (bs : List Byte) : (s.putTile h t i bs).uregs = s.uregs := rfl
@[simp] theorem State.putTile_threads (s : State) (h t i : Nat) (bs : List Byte) : (s.putTile h t i bs).threads = s.threads := rfl
@[simp] theorem State.putTile_groups (s : State) (h t i : Nat) (bs : List Byte) : (s.putTile h t i bs).groups = s.groups := rfl
@[simp] theorem State.putTile_blocks (s : State) (h t i : Nat) (bs : List Byte) : (s.putTile h t i bs).blocks = s.blocks := rfl
@[simp] theorem State.putTile_regions (s : State) (h t i : Nat) (bs : List Byte) : (s.putTile h t i bs).regions = s.regions := rfl
@[simp] theorem State.putTile_kept (s : State) (h t i : Nat) (bs : List Byte) : (s.putTile h t i bs).kept = s.kept := rfl
@[simp] theorem State.putTile_cores (s : State) (h t i : Nat) (bs : List Byte) : (s.putTile h t i bs).cores = s.cores := rfl
@[simp] theorem State.putTile_places (s : State) (h t i : Nat) (bs : List Byte) : (s.putTile h t i bs).places = s.places := rfl
@[simp] theorem State.putTile_planNotes (s : State) (h t i : Nat) (bs : List Byte) : (s.putTile h t i bs).planNotes = s.planNotes := rfl
@[simp] theorem State.putTile_placeTurns (s : State) (h t i : Nat) (bs : List Byte) : (s.putTile h t i bs).placeTurns = s.placeTurns := rfl
@[simp] theorem State.putTile_openBytes (s : State) (h t i : Nat) (bs : List Byte) : (s.putTile h t i bs).openBytes = s.openBytes := rfl
@[simp] theorem State.putTile_nextId (s : State) (h t i : Nat) (bs : List Byte) : (s.putTile h t i bs).nextId = s.nextId := rfl
@[simp] theorem State.putTile_vault (s : State) (h t i : Nat) (bs : List Byte) : (s.putTile h t i bs).vault = s.vault := rfl
@[simp] theorem State.putTile_pool (s : State) (h t i : Nat) (bs : List Byte) : (s.putTile h t i bs).pool = s.pool := rfl
@[simp] theorem State.putTile_locals (s : State) (h t i : Nat) (bs : List Byte) : (s.putTile h t i bs).locals = s.locals := rfl
@[simp] theorem State.putTile_poisonVault (s : State) (h t i : Nat) (bs : List Byte) : (s.putTile h t i bs).poisonVault = s.poisonVault := rfl
@[simp] theorem State.putTile_poisonPool (s : State) (h t i : Nat) (bs : List Byte) : (s.putTile h t i bs).poisonPool = s.poisonPool := rfl
@[simp] theorem State.putTile_poisonLocal (s : State) (h t i : Nat) (bs : List Byte) : (s.putTile h t i bs).poisonLocal = s.poisonLocal := rfl
@[simp] theorem State.putTile_poolGrants (s : State) (h t i : Nat) (bs : List Byte) : (s.putTile h t i bs).poolGrants = s.poolGrants := rfl
@[simp] theorem State.putTile_poolRefusals (s : State) (h t i : Nat) (bs : List Byte) : (s.putTile h t i bs).poolRefusals = s.poolRefusals := rfl
@[simp] theorem State.putTile_oldCode (s : State) (h t i : Nat) (bs : List Byte) : (s.putTile h t i bs).oldCode = s.oldCode := rfl
@[simp] theorem State.putTile_torn (s : State) (h t i : Nat) (bs : List Byte) : (s.putTile h t i bs).torn = s.torn := rfl
@[simp] theorem State.putTile_oldViews (s : State) (h t i : Nat) (bs : List Byte) : (s.putTile h t i bs).oldViews = s.oldViews := rfl
@[simp] theorem State.putTile_racedOps (s : State) (h t i : Nat) (bs : List Byte) : (s.putTile h t i bs).racedOps = s.racedOps := rfl
@[simp] theorem State.putTile_ctxs (s : State) (h t i : Nat) (bs : List Byte) : (s.putTile h t i bs).ctxs = s.ctxs := rfl
@[simp] theorem State.putTile_queues (s : State) (h t i : Nat) (bs : List Byte) : (s.putTile h t i bs).queues = s.queues := rfl
@[simp] theorem State.putTile_turn (s : State) (h t i : Nat) (bs : List Byte) : (s.putTile h t i bs).turn = s.turn := rfl
@[simp] theorem State.putTile_counters (s : State) (h t i : Nat) (bs : List Byte) : (s.putTile h t i bs).counters = s.counters := rfl
@[simp] theorem State.putTile_launches (s : State) (h t i : Nat) (bs : List Byte) : (s.putTile h t i bs).launches = s.launches := rfl
@[simp] theorem State.putTile_nextLaunch (s : State) (h t i : Nat) (bs : List Byte) : (s.putTile h t i bs).nextLaunch = s.nextLaunch := rfl
@[simp] theorem State.putTile_pageRing (s : State) (h t i : Nat) (bs : List Byte) : (s.putTile h t i bs).pageRing = s.pageRing := rfl
@[simp] theorem State.putTile_registering (s : State) (h t i : Nat) (bs : List Byte) : (s.putTile h t i bs).registering = s.registering := rfl
@[simp] theorem State.putTile_pageOps (s : State) (h t i : Nat) (bs : List Byte) : (s.putTile h t i bs).pageOps = s.pageOps := rfl
@[simp] theorem State.putTile_prefetched (s : State) (h t i : Nat) (bs : List Byte) : (s.putTile h t i bs).prefetched = s.prefetched := rfl
@[simp] theorem State.putTile_viewOps (s : State) (h t i : Nat) (bs : List Byte) : (s.putTile h t i bs).viewOps = s.viewOps := rfl
@[simp] theorem State.putTile_coverage (s : State) (h t i : Nat) (bs : List Byte) : (s.putTile h t i bs).coverage = s.coverage := rfl
@[simp] theorem State.putTile_links (s : State) (h t i : Nat) (bs : List Byte) : (s.putTile h t i bs).links = s.links := rfl
@[simp] theorem State.putTile_planemap (s : State) (h t i : Nat) (bs : List Byte) : (s.putTile h t i bs).planemap = s.planemap := rfl
@[simp] theorem State.putTile_nextTags (s : State) (h t i : Nat) (bs : List Byte) : (s.putTile h t i bs).nextTags = s.nextTags := rfl
@[simp] theorem State.putTile_requests (s : State) (h t i : Nat) (bs : List Byte) : (s.putTile h t i bs).requests = s.requests := rfl
@[simp] theorem State.putTile_fetched (s : State) (h t i : Nat) (bs : List Byte) : (s.putTile h t i bs).fetched = s.fetched := rfl
@[simp] theorem State.putTile_responses (s : State) (h t i : Nat) (bs : List Byte) : (s.putTile h t i bs).responses = s.responses := rfl
@[simp] theorem State.putTile_routes (s : State) (h t i : Nat) (bs : List Byte) : (s.putTile h t i bs).routes = s.routes := rfl
@[simp] theorem State.putTile_groupTable (s : State) (h t i : Nat) (bs : List Byte) : (s.putTile h t i bs).groupTable = s.groupTable := rfl
@[simp] theorem State.putTile_combines (s : State) (h t i : Nat) (bs : List Byte) : (s.putTile h t i bs).combines = s.combines := rfl
@[simp] theorem State.putTile_memberLines (s : State) (h t i : Nat) (bs : List Byte) : (s.putTile h t i bs).memberLines = s.memberLines := rfl
@[simp] theorem State.putTile_dbghold (s : State) (h t i : Nat) (bs : List Byte) : (s.putTile h t i bs).dbghold = s.dbghold := rfl
@[simp] theorem State.putTile_deepHalt (s : State) (h t i : Nat) (bs : List Byte) : (s.putTile h t i bs).deepHalt = s.deepHalt := rfl
@[simp] theorem State.putTile_debugHalt (s : State) (h t i : Nat) (bs : List Byte) : (s.putTile h t i bs).debugHalt = s.debugHalt := rfl
@[simp] theorem State.putTile_outbox (s : State) (h t i : Nat) (bs : List Byte) : (s.putTile h t i bs).outbox = s.outbox := rfl
@[simp] theorem State.putTile_wire (s : State) (h t i : Nat) (bs : List Byte) : (s.putTile h t i bs).wire = s.wire := rfl
@[simp] theorem State.putTile_linkClock (s : State) (h t i : Nat) (bs : List Byte) : (s.putTile h t i bs).linkClock = s.linkClock := rfl
@[simp] theorem State.putTile_lostPlanes (s : State) (h t i : Nat) (bs : List Byte) : (s.putTile h t i bs).lostPlanes = s.lostPlanes := rfl
@[simp] theorem State.putTile_inbox (s : State) (h t i : Nat) (bs : List Byte) : (s.putTile h t i bs).inbox = s.inbox := rfl
@[simp] theorem State.putTile_failedDevices (s : State) (h t i : Nat) (bs : List Byte) : (s.putTile h t i bs).failedDevices = s.failedDevices := rfl
@[simp] theorem State.putTile_slowLog (s : State) (h t i : Nat) (bs : List Byte) : (s.putTile h t i bs).slowLog = s.slowLog := rfl
@[simp] theorem State.putTile_powered (s : State) (h t i : Nat) (bs : List Byte) : (s.putTile h t i bs).powered = s.powered := rfl
@[simp] theorem State.putTile_device (s : State) (h t i : Nat) (bs : List Byte) : (s.putTile h t i bs).device = s.device := rfl
@[simp] theorem State.putTile_position (s : State) (h t i : Nat) (bs : List Byte) : (s.putTile h t i bs).position = s.position := rfl
@[simp] theorem State.putTile_ready (s : State) (h t i : Nat) (bs : List Byte) : (s.putTile h t i bs).ready = s.ready := rfl
@[simp] theorem State.putTile_error (s : State) (h t i : Nat) (bs : List Byte) : (s.putTile h t i bs).error = s.error := rfl
@[simp] theorem State.putTile_host2 (s : State) (h t i : Nat) (bs : List Byte) : (s.putTile h t i bs).host2 = s.host2 := rfl
@[simp] theorem State.putTile_bootStep (s : State) (h t i : Nat) (bs : List Byte) : (s.putTile h t i bs).bootStep = s.bootStep := rfl
@[simp] theorem State.putTile_badClusters (s : State) (h t i : Nat) (bs : List Byte) : (s.putTile h t i bs).badClusters = s.badClusters := rfl
@[simp] theorem State.putTile_badQuarters (s : State) (h t i : Nat) (bs : List Byte) : (s.putTile h t i bs).badQuarters = s.badQuarters := rfl
@[simp] theorem State.putTile_power (s : State) (h t i : Nat) (bs : List Byte) : (s.putTile h t i bs).power = s.power := rfl
@[simp] theorem State.putTile_gated (s : State) (h t i : Nat) (bs : List Byte) : (s.putTile h t i bs).gated = s.gated := rfl
@[simp] theorem State.putTile_pwrReq (s : State) (h t i : Nat) (bs : List Byte) : (s.putTile h t i bs).pwrReq = s.pwrReq := rfl
@[simp] theorem State.putTile_lifecycle (s : State) (h t i : Nat) (bs : List Byte) : (s.putTile h t i bs).lifecycle = s.lifecycle := rfl
@[simp] theorem State.putTile_debug (s : State) (h t i : Nat) (bs : List Byte) : (s.putTile h t i bs).debug = s.debug := rfl
@[simp] theorem State.putTile_identity (s : State) (h t i : Nat) (bs : List Byte) : (s.putTile h t i bs).identity = s.identity := rfl
@[simp] theorem State.putTile_skews (s : State) (h t i : Nat) (bs : List Byte) : (s.putTile h t i bs).skews = s.skews := rfl
@[simp] theorem State.putTile_softErrors (s : State) (h t i : Nat) (bs : List Byte) : (s.putTile h t i bs).softErrors = s.softErrors := rfl
@[simp] theorem State.putTile_quarterClocks (s : State) (h t i : Nat) (bs : List Byte) : (s.putTile h t i bs).quarterClocks = s.quarterClocks := rfl
@[simp] theorem State.putTile_replies (s : State) (h t i : Nat) (bs : List Byte) : (s.putTile h t i bs).replies = s.replies := rfl

end Sys2Proof.Machine
end

