-- ==== Sys2Proof/Laws/Issue.lean ====
section
/-! SUPPORT. Issuing: what register writes and the end of an instruction leave as they were, and what an admitted
instruction answers. -/

namespace Sys2Proof.Machine

/-! ### Register files and flags -/

@[simp] theorem State.setCell_broken (s : State) (p : RegPlace) (v : Word) : (s.setCell p v).broken = s.broken := by cases p <;> rfl
@[simp] theorem State.setCell_debug (s : State) (p : RegPlace) (v : Word) : (s.setCell p v).debug = s.debug := by cases p <;> rfl
@[simp] theorem State.setCell_vault (s : State) (p : RegPlace) (v : Word) : (s.setCell p v).vault = s.vault := by cases p <;> rfl
@[simp] theorem State.setCell_pool (s : State) (p : RegPlace) (v : Word) : (s.setCell p v).pool = s.pool := by cases p <;> rfl
@[simp] theorem State.setCell_locals (s : State) (p : RegPlace) (v : Word) : (s.setCell p v).locals = s.locals := by cases p <;> rfl
@[simp] theorem State.setCell_tiles (s : State) (p : RegPlace) (v : Word) : (s.setCell p v).tiles = s.tiles := by cases p <;> rfl
@[simp] theorem State.setCell_regions (s : State) (p : RegPlace) (v : Word) : (s.setCell p v).regions = s.regions := by cases p <;> rfl
@[simp] theorem State.setCell_ctxs (s : State) (p : RegPlace) (v : Word) : (s.setCell p v).ctxs = s.ctxs := by cases p <;> rfl
@[simp] theorem State.setCell_launches (s : State) (p : RegPlace) (v : Word) : (s.setCell p v).launches = s.launches := by cases p <;> rfl
@[simp] theorem State.setCell_blocks (s : State) (p : RegPlace) (v : Word) : (s.setCell p v).blocks = s.blocks := by cases p <;> rfl
@[simp] theorem State.setCell_queues (s : State) (p : RegPlace) (v : Word) : (s.setCell p v).queues = s.queues := by cases p <;> rfl
@[simp] theorem State.setCell_lifecycle (s : State) (p : RegPlace) (v : Word) : (s.setCell p v).lifecycle = s.lifecycle := by cases p <;> rfl

@[simp] theorem State.complete_broken (s : State) (ts : List Tid) (n : Option Nat) : (s.complete ts n).broken = s.broken := by cases n <;> rfl
@[simp] theorem State.complete_debug (s : State) (ts : List Tid) (n : Option Nat) : (s.complete ts n).debug = s.debug := by cases n <;> rfl
@[simp] theorem State.complete_vault (s : State) (ts : List Tid) (n : Option Nat) : (s.complete ts n).vault = s.vault := by cases n <;> rfl
@[simp] theorem State.complete_pool (s : State) (ts : List Tid) (n : Option Nat) : (s.complete ts n).pool = s.pool := by cases n <;> rfl
@[simp] theorem State.complete_locals (s : State) (ts : List Tid) (n : Option Nat) : (s.complete ts n).locals = s.locals := by cases n <;> rfl
@[simp] theorem State.complete_tiles (s : State) (ts : List Tid) (n : Option Nat) : (s.complete ts n).tiles = s.tiles := by cases n <;> rfl
@[simp] theorem State.complete_regions (s : State) (ts : List Tid) (n : Option Nat) : (s.complete ts n).regions = s.regions := by cases n <;> rfl
@[simp] theorem State.complete_ctxs (s : State) (ts : List Tid) (n : Option Nat) : (s.complete ts n).ctxs = s.ctxs := by cases n <;> rfl
@[simp] theorem State.complete_launches (s : State) (ts : List Tid) (n : Option Nat) : (s.complete ts n).launches = s.launches := by cases n <;> rfl
@[simp] theorem State.complete_blocks (s : State) (ts : List Tid) (n : Option Nat) : (s.complete ts n).blocks = s.blocks := by cases n <;> rfl
@[simp] theorem State.complete_queues (s : State) (ts : List Tid) (n : Option Nat) : (s.complete ts n).queues = s.queues := by cases n <;> rfl
@[simp] theorem State.complete_lifecycle (s : State) (ts : List Tid) (n : Option Nat) : (s.complete ts n).lifecycle = s.lifecycle := by cases n <;> rfl

@[simp] theorem State.land_broken (s : State) (l : Landing) : (s.land l).broken = s.broken := by simp [State.land]
@[simp] theorem State.land_debug (s : State) (l : Landing) : (s.land l).debug = s.debug := by simp [State.land]
@[simp] theorem State.land_vault (s : State) (l : Landing) : (s.land l).vault = s.vault := by simp [State.land]
@[simp] theorem State.land_pool (s : State) (l : Landing) : (s.land l).pool = s.pool := by simp [State.land]
@[simp] theorem State.land_locals (s : State) (l : Landing) : (s.land l).locals = s.locals := by simp [State.land]
@[simp] theorem State.land_tiles (s : State) (l : Landing) : (s.land l).tiles = s.tiles := by simp [State.land]
@[simp] theorem State.land_regions (s : State) (l : Landing) : (s.land l).regions = s.regions := by simp [State.land]
@[simp] theorem State.land_ctxs (s : State) (l : Landing) : (s.land l).ctxs = s.ctxs := by simp [State.land]
@[simp] theorem State.land_launches (s : State) (l : Landing) : (s.land l).launches = s.launches := by simp [State.land]
@[simp] theorem State.land_blocks (s : State) (l : Landing) : (s.land l).blocks = s.blocks := by simp [State.land]
@[simp] theorem State.land_queues (s : State) (l : Landing) : (s.land l).queues = s.queues := by simp [State.land]
@[simp] theorem State.land_lifecycle (s : State) (l : Landing) : (s.land l).lifecycle = s.lifecycle := by simp [State.land]

@[simp] theorem State.markEmptyRun_broken (s : State) (h r l id n : Nat) : (s.markEmptyRun h r l id n).broken = s.broken := by induction n with
  | zero => rfl
  | succ n ih => simpa [State.markEmptyRun] using ih
@[simp] theorem State.markEmptyRun_debug (s : State) (h r l id n : Nat) : (s.markEmptyRun h r l id n).debug = s.debug := by induction n with
  | zero => rfl
  | succ n ih => simpa [State.markEmptyRun] using ih
@[simp] theorem State.markEmptyRun_vault (s : State) (h r l id n : Nat) : (s.markEmptyRun h r l id n).vault = s.vault := by induction n with
  | zero => rfl
  | succ n ih => simpa [State.markEmptyRun] using ih
@[simp] theorem State.markEmptyRun_pool (s : State) (h r l id n : Nat) : (s.markEmptyRun h r l id n).pool = s.pool := by induction n with
  | zero => rfl
  | succ n ih => simpa [State.markEmptyRun] using ih
@[simp] theorem State.markEmptyRun_locals (s : State) (h r l id n : Nat) : (s.markEmptyRun h r l id n).locals = s.locals := by induction n with
  | zero => rfl
  | succ n ih => simpa [State.markEmptyRun] using ih
@[simp] theorem State.markEmptyRun_tiles (s : State) (h r l id n : Nat) : (s.markEmptyRun h r l id n).tiles = s.tiles := by induction n with
  | zero => rfl
  | succ n ih => simpa [State.markEmptyRun] using ih
@[simp] theorem State.markEmptyRun_regions (s : State) (h r l id n : Nat) : (s.markEmptyRun h r l id n).regions = s.regions := by induction n with
  | zero => rfl
  | succ n ih => simpa [State.markEmptyRun] using ih
@[simp] theorem State.markEmptyRun_ctxs (s : State) (h r l id n : Nat) : (s.markEmptyRun h r l id n).ctxs = s.ctxs := by induction n with
  | zero => rfl
  | succ n ih => simpa [State.markEmptyRun] using ih
@[simp] theorem State.markEmptyRun_launches (s : State) (h r l id n : Nat) : (s.markEmptyRun h r l id n).launches = s.launches := by induction n with
  | zero => rfl
  | succ n ih => simpa [State.markEmptyRun] using ih
@[simp] theorem State.markEmptyRun_blocks (s : State) (h r l id n : Nat) : (s.markEmptyRun h r l id n).blocks = s.blocks := by induction n with
  | zero => rfl
  | succ n ih => simpa [State.markEmptyRun] using ih
@[simp] theorem State.markEmptyRun_queues (s : State) (h r l id n : Nat) : (s.markEmptyRun h r l id n).queues = s.queues := by induction n with
  | zero => rfl
  | succ n ih => simpa [State.markEmptyRun] using ih
@[simp] theorem State.markEmptyRun_lifecycle (s : State) (h r l id n : Nat) : (s.markEmptyRun h r l id n).lifecycle = s.lifecycle := by induction n with
  | zero => rfl
  | succ n ih => simpa [State.markEmptyRun] using ih

@[simp] theorem State.noteRaw_broken (s : State) (p : RegPlace) : (s.noteRaw p).broken = s.broken := by unfold State.noteRaw; split <;> rfl
@[simp] theorem State.noteRaw_debug (s : State) (p : RegPlace) : (s.noteRaw p).debug = s.debug := by unfold State.noteRaw; split <;> rfl
@[simp] theorem State.noteRaw_vault (s : State) (p : RegPlace) : (s.noteRaw p).vault = s.vault := by unfold State.noteRaw; split <;> rfl
@[simp] theorem State.noteRaw_pool (s : State) (p : RegPlace) : (s.noteRaw p).pool = s.pool := by unfold State.noteRaw; split <;> rfl
@[simp] theorem State.noteRaw_locals (s : State) (p : RegPlace) : (s.noteRaw p).locals = s.locals := by unfold State.noteRaw; split <;> rfl
@[simp] theorem State.noteRaw_tiles (s : State) (p : RegPlace) : (s.noteRaw p).tiles = s.tiles := by unfold State.noteRaw; split <;> rfl
@[simp] theorem State.noteRaw_regions (s : State) (p : RegPlace) : (s.noteRaw p).regions = s.regions := by unfold State.noteRaw; split <;> rfl
@[simp] theorem State.noteRaw_ctxs (s : State) (p : RegPlace) : (s.noteRaw p).ctxs = s.ctxs := by unfold State.noteRaw; split <;> rfl
@[simp] theorem State.noteRaw_launches (s : State) (p : RegPlace) : (s.noteRaw p).launches = s.launches := by unfold State.noteRaw; split <;> rfl
@[simp] theorem State.noteRaw_blocks (s : State) (p : RegPlace) : (s.noteRaw p).blocks = s.blocks := by unfold State.noteRaw; split <;> rfl
@[simp] theorem State.noteRaw_queues (s : State) (p : RegPlace) : (s.noteRaw p).queues = s.queues := by unfold State.noteRaw; split <;> rfl
@[simp] theorem State.noteRaw_lifecycle (s : State) (p : RegPlace) : (s.noteRaw p).lifecycle = s.lifecycle := by unfold State.noteRaw; split <;> rfl
@[simp] theorem State.noteRaw_vregs (s : State) (p : RegPlace) : (s.noteRaw p).vregs = s.vregs := by unfold State.noteRaw; split <;> rfl
@[simp] theorem State.noteRaw_fills (s : State) (p : RegPlace) : (s.noteRaw p).fills = s.fills := by unfold State.noteRaw; split <;> rfl
@[simp] theorem State.noteRaw_uregs (s : State) (p : RegPlace) : (s.noteRaw p).uregs = s.uregs := by unfold State.noteRaw; split <;> rfl
@[simp] theorem State.noteRaw_threads (s : State) (p : RegPlace) : (s.noteRaw p).threads = s.threads := by unfold State.noteRaw; split <;> rfl
@[simp] theorem State.noteRaw_groups (s : State) (p : RegPlace) : (s.noteRaw p).groups = s.groups := by unfold State.noteRaw; split <;> rfl
@[simp] theorem State.noteRaw_tick (s : State) (p : RegPlace) : (s.noteRaw p).tick = s.tick := by unfold State.noteRaw; split <;> rfl
/-- A note of a raw write changes no cell. -/
@[simp] theorem State.noteRaw_cell (s : State) (p q : RegPlace) : (s.noteRaw p).cell q = s.cell q := by unfold State.noteRaw; split <;> rfl
@[simp] theorem State.noteRaw_cores (s : State) (p : RegPlace) : (s.noteRaw p).cores = s.cores := by unfold State.noteRaw; split <;> rfl
@[simp] theorem State.noteRaw_core (s : State) (k : Nat) (p : RegPlace) : (s.noteRaw p).core k = s.core k := by simp [State.core]
@[simp] theorem State.raceOps_broken (s : State) (c : Nat) (p : RegPlace) : (s.raceOps c p).broken = s.broken := by unfold State.raceOps; split <;> rfl
@[simp] theorem State.raceOps_debug (s : State) (c : Nat) (p : RegPlace) : (s.raceOps c p).debug = s.debug := by unfold State.raceOps; split <;> rfl
@[simp] theorem State.raceOps_vault (s : State) (c : Nat) (p : RegPlace) : (s.raceOps c p).vault = s.vault := by unfold State.raceOps; split <;> rfl
@[simp] theorem State.raceOps_pool (s : State) (c : Nat) (p : RegPlace) : (s.raceOps c p).pool = s.pool := by unfold State.raceOps; split <;> rfl
@[simp] theorem State.raceOps_locals (s : State) (c : Nat) (p : RegPlace) : (s.raceOps c p).locals = s.locals := by unfold State.raceOps; split <;> rfl
@[simp] theorem State.raceOps_tiles (s : State) (c : Nat) (p : RegPlace) : (s.raceOps c p).tiles = s.tiles := by unfold State.raceOps; split <;> rfl
@[simp] theorem State.raceOps_regions (s : State) (c : Nat) (p : RegPlace) : (s.raceOps c p).regions = s.regions := by unfold State.raceOps; split <;> rfl
@[simp] theorem State.raceOps_ctxs (s : State) (c : Nat) (p : RegPlace) : (s.raceOps c p).ctxs = s.ctxs := by unfold State.raceOps; split <;> rfl
@[simp] theorem State.raceOps_launches (s : State) (c : Nat) (p : RegPlace) : (s.raceOps c p).launches = s.launches := by unfold State.raceOps; split <;> rfl
@[simp] theorem State.raceOps_blocks (s : State) (c : Nat) (p : RegPlace) : (s.raceOps c p).blocks = s.blocks := by unfold State.raceOps; split <;> rfl
@[simp] theorem State.raceOps_queues (s : State) (c : Nat) (p : RegPlace) : (s.raceOps c p).queues = s.queues := by unfold State.raceOps; split <;> rfl
@[simp] theorem State.raceOps_lifecycle (s : State) (c : Nat) (p : RegPlace) : (s.raceOps c p).lifecycle = s.lifecycle := by unfold State.raceOps; split <;> rfl
@[simp] theorem State.raceOps_vregs (s : State) (c : Nat) (p : RegPlace) : (s.raceOps c p).vregs = s.vregs := by unfold State.raceOps; split <;> rfl
@[simp] theorem State.raceOps_fills (s : State) (c : Nat) (p : RegPlace) : (s.raceOps c p).fills = s.fills := by unfold State.raceOps; split <;> rfl
@[simp] theorem State.raceOps_uregs (s : State) (c : Nat) (p : RegPlace) : (s.raceOps c p).uregs = s.uregs := by unfold State.raceOps; split <;> rfl
@[simp] theorem State.raceOps_threads (s : State) (c : Nat) (p : RegPlace) : (s.raceOps c p).threads = s.threads := by unfold State.raceOps; split <;> rfl
@[simp] theorem State.raceOps_groups (s : State) (c : Nat) (p : RegPlace) : (s.raceOps c p).groups = s.groups := by unfold State.raceOps; split <;> rfl
@[simp] theorem State.raceOps_tick (s : State) (c : Nat) (p : RegPlace) : (s.raceOps c p).tick = s.tick := by unfold State.raceOps; split <;> rfl
/-- A note of a written uniform changes no cell. -/
@[simp] theorem State.raceOps_cell (s : State) (c : Nat) (p q : RegPlace) : (s.raceOps c p).cell q = s.cell q := by unfold State.raceOps; split <;> rfl
@[simp] theorem State.raceOps_core_landings (s : State) (c k : Nat) (p : RegPlace) : ((s.raceOps c p).core k).landings = (s.core k).landings := by
  unfold State.raceOps; split
  · simp only [State.core, State.modCore, List.getD_eq_getElem?_getD, List.getElem?_modify]
    split <;> cases s.cores[k]? <;> rfl
  · rfl
@[simp] theorem State.raceOps_core_clock (s : State) (c k : Nat) (p : RegPlace) : ((s.raceOps c p).core k).clock = (s.core k).clock := by
  unfold State.raceOps; split
  · simp only [State.core, State.modCore, List.getD_eq_getElem?_getD, List.getElem?_modify]
    split <;> cases s.cores[k]? <;> rfl
  · rfl
@[simp] theorem State.raceOps_core_accs (s : State) (c k : Nat) (p : RegPlace) : ((s.raceOps c p).core k).accs = (s.core k).accs := by
  unfold State.raceOps; split
  · simp only [State.core, State.modCore, List.getD_eq_getElem?_getD, List.getElem?_modify]
    split <;> cases s.cores[k]? <;> rfl
  · rfl
@[simp] theorem State.noteEarly_broken (s : State) (c : Nat) (p : RegPlace) : (s.noteEarly c p).broken = s.broken := by unfold State.noteEarly; split <;> rfl
@[simp] theorem State.noteEarly_debug (s : State) (c : Nat) (p : RegPlace) : (s.noteEarly c p).debug = s.debug := by unfold State.noteEarly; split <;> rfl
@[simp] theorem State.noteEarly_vault (s : State) (c : Nat) (p : RegPlace) : (s.noteEarly c p).vault = s.vault := by unfold State.noteEarly; split <;> rfl
@[simp] theorem State.noteEarly_pool (s : State) (c : Nat) (p : RegPlace) : (s.noteEarly c p).pool = s.pool := by unfold State.noteEarly; split <;> rfl
@[simp] theorem State.noteEarly_locals (s : State) (c : Nat) (p : RegPlace) : (s.noteEarly c p).locals = s.locals := by unfold State.noteEarly; split <;> rfl
@[simp] theorem State.noteEarly_tiles (s : State) (c : Nat) (p : RegPlace) : (s.noteEarly c p).tiles = s.tiles := by unfold State.noteEarly; split <;> rfl
@[simp] theorem State.noteEarly_regions (s : State) (c : Nat) (p : RegPlace) : (s.noteEarly c p).regions = s.regions := by unfold State.noteEarly; split <;> rfl
@[simp] theorem State.noteEarly_ctxs (s : State) (c : Nat) (p : RegPlace) : (s.noteEarly c p).ctxs = s.ctxs := by unfold State.noteEarly; split <;> rfl
@[simp] theorem State.noteEarly_launches (s : State) (c : Nat) (p : RegPlace) : (s.noteEarly c p).launches = s.launches := by unfold State.noteEarly; split <;> rfl
@[simp] theorem State.noteEarly_blocks (s : State) (c : Nat) (p : RegPlace) : (s.noteEarly c p).blocks = s.blocks := by unfold State.noteEarly; split <;> rfl
@[simp] theorem State.noteEarly_queues (s : State) (c : Nat) (p : RegPlace) : (s.noteEarly c p).queues = s.queues := by unfold State.noteEarly; split <;> rfl
@[simp] theorem State.noteEarly_lifecycle (s : State) (c : Nat) (p : RegPlace) : (s.noteEarly c p).lifecycle = s.lifecycle := by unfold State.noteEarly; split <;> rfl
@[simp] theorem State.noteEarly_vregs (s : State) (c : Nat) (p : RegPlace) : (s.noteEarly c p).vregs = s.vregs := by unfold State.noteEarly; split <;> rfl
@[simp] theorem State.noteEarly_fills (s : State) (c : Nat) (p : RegPlace) : (s.noteEarly c p).fills = s.fills := by unfold State.noteEarly; split <;> rfl
@[simp] theorem State.noteEarly_uregs (s : State) (c : Nat) (p : RegPlace) : (s.noteEarly c p).uregs = s.uregs := by unfold State.noteEarly; split <;> rfl
@[simp] theorem State.noteEarly_threads (s : State) (c : Nat) (p : RegPlace) : (s.noteEarly c p).threads = s.threads := by unfold State.noteEarly; split <;> rfl
@[simp] theorem State.noteEarly_groups (s : State) (c : Nat) (p : RegPlace) : (s.noteEarly c p).groups = s.groups := by unfold State.noteEarly; split <;> rfl
@[simp] theorem State.noteEarly_tick (s : State) (c : Nat) (p : RegPlace) : (s.noteEarly c p).tick = s.tick := by unfold State.noteEarly; split <;> rfl
/-- A note of an early write changes no cell. -/
@[simp] theorem State.noteEarly_cell (s : State) (c : Nat) (p q : RegPlace) : (s.noteEarly c p).cell q = s.cell q := by unfold State.noteEarly; split <;> rfl
@[simp] theorem State.noteEarly_core_landings (s : State) (c k : Nat) (p : RegPlace) : ((s.noteEarly c p).core k).landings = (s.core k).landings := by
  unfold State.noteEarly; split
  · simp only [State.core, State.modCore, List.getD_eq_getElem?_getD, List.getElem?_modify]
    split <;> cases s.cores[k]? <;> rfl
  · rfl
@[simp] theorem State.noteEarly_core_clock (s : State) (c k : Nat) (p : RegPlace) : ((s.noteEarly c p).core k).clock = (s.core k).clock := by
  unfold State.noteEarly; split
  · simp only [State.core, State.modCore, List.getD_eq_getElem?_getD, List.getElem?_modify]
    split <;> cases s.cores[k]? <;> rfl
  · rfl
@[simp] theorem State.noteEarly_core_accs (s : State) (c k : Nat) (p : RegPlace) : ((s.noteEarly c p).core k).accs = (s.core k).accs := by
  unfold State.noteEarly; split
  · simp only [State.core, State.modCore, List.getD_eq_getElem?_getD, List.getElem?_modify]
    split <;> cases s.cores[k]? <;> rfl
  · rfl
@[simp] theorem State.noteEarly_core_engine (s : State) (c k : Nat) (p : RegPlace) : ((s.noteEarly c p).core k).engine = (s.core k).engine := by
  unfold State.noteEarly; split
  · simp only [State.core, State.modCore, List.getD_eq_getElem?_getD, List.getElem?_modify]
    split <;> cases s.cores[k]? <;> rfl
  · rfl

@[simp] theorem State.fullAt_broken (s : State) (p : RegPlace) : (s.fullAt p).broken = s.broken := by cases p <;> rfl
@[simp] theorem State.fullAt_debug (s : State) (p : RegPlace) : (s.fullAt p).debug = s.debug := by cases p <;> rfl
@[simp] theorem State.fullAt_vault (s : State) (p : RegPlace) : (s.fullAt p).vault = s.vault := by cases p <;> rfl
@[simp] theorem State.fullAt_pool (s : State) (p : RegPlace) : (s.fullAt p).pool = s.pool := by cases p <;> rfl
@[simp] theorem State.fullAt_locals (s : State) (p : RegPlace) : (s.fullAt p).locals = s.locals := by cases p <;> rfl
@[simp] theorem State.fullAt_tiles (s : State) (p : RegPlace) : (s.fullAt p).tiles = s.tiles := by cases p <;> rfl
@[simp] theorem State.fullAt_regions (s : State) (p : RegPlace) : (s.fullAt p).regions = s.regions := by cases p <;> rfl
@[simp] theorem State.fullAt_ctxs (s : State) (p : RegPlace) : (s.fullAt p).ctxs = s.ctxs := by cases p <;> rfl
@[simp] theorem State.fullAt_launches (s : State) (p : RegPlace) : (s.fullAt p).launches = s.launches := by cases p <;> rfl
@[simp] theorem State.fullAt_blocks (s : State) (p : RegPlace) : (s.fullAt p).blocks = s.blocks := by cases p <;> rfl
@[simp] theorem State.fullAt_queues (s : State) (p : RegPlace) : (s.fullAt p).queues = s.queues := by cases p <;> rfl
@[simp] theorem State.fullAt_lifecycle (s : State) (p : RegPlace) : (s.fullAt p).lifecycle = s.lifecycle := by cases p <;> rfl
@[simp] theorem State.fullAt_vregs (s : State) (p : RegPlace) : (s.fullAt p).vregs = s.vregs := by cases p <;> rfl
@[simp] theorem State.fullAt_uregs (s : State) (p : RegPlace) : (s.fullAt p).uregs = s.uregs := by cases p <;> rfl
@[simp] theorem State.fullAt_threads (s : State) (p : RegPlace) : (s.fullAt p).threads = s.threads := by cases p <;> rfl
@[simp] theorem State.fullAt_groups (s : State) (p : RegPlace) : (s.fullAt p).groups = s.groups := by cases p <;> rfl
@[simp] theorem State.fullAt_tick (s : State) (p : RegPlace) : (s.fullAt p).tick = s.tick := by cases p <;> rfl
@[simp] theorem State.fullAt_cores (s : State) (p : RegPlace) : (s.fullAt p).cores = s.cores := by cases p <;> rfl
/-- A register made full keeps what it holds. -/
@[simp] theorem State.fullAt_cell (s : State) (p q : RegPlace) : (s.fullAt p).cell q = s.cell q := by cases p <;> rfl
@[simp] theorem State.fullAt_core (s : State) (p : RegPlace) (k : Nat) : (s.fullAt p).core k = s.core k := by cases p <;> rfl

@[simp] theorem State.writeFixed_broken (s : State) (c : Nat) (t : Tid) (p : RegPlace) (v : Word) (due : Nat) : (s.writeFixed c t p v due).broken = s.broken := by cases p <;> simp [State.writeFixed]
@[simp] theorem State.writeFixed_debug (s : State) (c : Nat) (t : Tid) (p : RegPlace) (v : Word) (due : Nat) : (s.writeFixed c t p v due).debug = s.debug := by cases p <;> simp [State.writeFixed]
@[simp] theorem State.writeFixed_vault (s : State) (c : Nat) (t : Tid) (p : RegPlace) (v : Word) (due : Nat) : (s.writeFixed c t p v due).vault = s.vault := by cases p <;> simp [State.writeFixed]
@[simp] theorem State.writeFixed_pool (s : State) (c : Nat) (t : Tid) (p : RegPlace) (v : Word) (due : Nat) : (s.writeFixed c t p v due).pool = s.pool := by cases p <;> simp [State.writeFixed]
@[simp] theorem State.writeFixed_locals (s : State) (c : Nat) (t : Tid) (p : RegPlace) (v : Word) (due : Nat) : (s.writeFixed c t p v due).locals = s.locals := by cases p <;> simp [State.writeFixed]
@[simp] theorem State.writeFixed_tiles (s : State) (c : Nat) (t : Tid) (p : RegPlace) (v : Word) (due : Nat) : (s.writeFixed c t p v due).tiles = s.tiles := by cases p <;> simp [State.writeFixed]
@[simp] theorem State.writeFixed_regions (s : State) (c : Nat) (t : Tid) (p : RegPlace) (v : Word) (due : Nat) : (s.writeFixed c t p v due).regions = s.regions := by cases p <;> simp [State.writeFixed]
@[simp] theorem State.writeFixed_ctxs (s : State) (c : Nat) (t : Tid) (p : RegPlace) (v : Word) (due : Nat) : (s.writeFixed c t p v due).ctxs = s.ctxs := by cases p <;> simp [State.writeFixed]
@[simp] theorem State.writeFixed_launches (s : State) (c : Nat) (t : Tid) (p : RegPlace) (v : Word) (due : Nat) : (s.writeFixed c t p v due).launches = s.launches := by cases p <;> simp [State.writeFixed]
@[simp] theorem State.writeFixed_blocks (s : State) (c : Nat) (t : Tid) (p : RegPlace) (v : Word) (due : Nat) : (s.writeFixed c t p v due).blocks = s.blocks := by cases p <;> simp [State.writeFixed]
@[simp] theorem State.writeFixed_queues (s : State) (c : Nat) (t : Tid) (p : RegPlace) (v : Word) (due : Nat) : (s.writeFixed c t p v due).queues = s.queues := by cases p <;> simp [State.writeFixed]
@[simp] theorem State.writeFixed_lifecycle (s : State) (c : Nat) (t : Tid) (p : RegPlace) (v : Word) (due : Nat) : (s.writeFixed c t p v due).lifecycle = s.lifecycle := by cases p <;> simp [State.writeFixed]

@[simp] theorem State.flagAt_broken (s : State) (c : Nat) (t : Tid) (n : Option Nat) (due : Nat) : (s.flagAt c t n due).broken = s.broken := by cases n <;> rfl
@[simp] theorem State.flagAt_debug (s : State) (c : Nat) (t : Tid) (n : Option Nat) (due : Nat) : (s.flagAt c t n due).debug = s.debug := by cases n <;> rfl
@[simp] theorem State.flagAt_vault (s : State) (c : Nat) (t : Tid) (n : Option Nat) (due : Nat) : (s.flagAt c t n due).vault = s.vault := by cases n <;> rfl
@[simp] theorem State.flagAt_pool (s : State) (c : Nat) (t : Tid) (n : Option Nat) (due : Nat) : (s.flagAt c t n due).pool = s.pool := by cases n <;> rfl
@[simp] theorem State.flagAt_locals (s : State) (c : Nat) (t : Tid) (n : Option Nat) (due : Nat) : (s.flagAt c t n due).locals = s.locals := by cases n <;> rfl
@[simp] theorem State.flagAt_tiles (s : State) (c : Nat) (t : Tid) (n : Option Nat) (due : Nat) : (s.flagAt c t n due).tiles = s.tiles := by cases n <;> rfl
@[simp] theorem State.flagAt_regions (s : State) (c : Nat) (t : Tid) (n : Option Nat) (due : Nat) : (s.flagAt c t n due).regions = s.regions := by cases n <;> rfl
@[simp] theorem State.flagAt_ctxs (s : State) (c : Nat) (t : Tid) (n : Option Nat) (due : Nat) : (s.flagAt c t n due).ctxs = s.ctxs := by cases n <;> rfl
@[simp] theorem State.flagAt_launches (s : State) (c : Nat) (t : Tid) (n : Option Nat) (due : Nat) : (s.flagAt c t n due).launches = s.launches := by cases n <;> rfl
@[simp] theorem State.flagAt_blocks (s : State) (c : Nat) (t : Tid) (n : Option Nat) (due : Nat) : (s.flagAt c t n due).blocks = s.blocks := by cases n <;> rfl
@[simp] theorem State.flagAt_queues (s : State) (c : Nat) (t : Tid) (n : Option Nat) (due : Nat) : (s.flagAt c t n due).queues = s.queues := by cases n <;> rfl
@[simp] theorem State.flagAt_lifecycle (s : State) (c : Nat) (t : Tid) (n : Option Nat) (due : Nat) : (s.flagAt c t n due).lifecycle = s.lifecycle := by cases n <;> rfl

@[simp] theorem State.putDst_broken (s : State) (x : Exec) (th : Thread) (o : Operand) (regs v lat : Nat) : (s.putDst x th o regs v lat).broken = s.broken := by unfold State.putDst; (repeat' split) <;> simp
@[simp] theorem State.putDst_debug (s : State) (x : Exec) (th : Thread) (o : Operand) (regs v lat : Nat) : (s.putDst x th o regs v lat).debug = s.debug := by unfold State.putDst; (repeat' split) <;> simp
@[simp] theorem State.putDst_vault (s : State) (x : Exec) (th : Thread) (o : Operand) (regs v lat : Nat) : (s.putDst x th o regs v lat).vault = s.vault := by unfold State.putDst; (repeat' split) <;> simp
@[simp] theorem State.putDst_pool (s : State) (x : Exec) (th : Thread) (o : Operand) (regs v lat : Nat) : (s.putDst x th o regs v lat).pool = s.pool := by unfold State.putDst; (repeat' split) <;> simp
@[simp] theorem State.putDst_locals (s : State) (x : Exec) (th : Thread) (o : Operand) (regs v lat : Nat) : (s.putDst x th o regs v lat).locals = s.locals := by unfold State.putDst; (repeat' split) <;> simp
@[simp] theorem State.putDst_tiles (s : State) (x : Exec) (th : Thread) (o : Operand) (regs v lat : Nat) : (s.putDst x th o regs v lat).tiles = s.tiles := by unfold State.putDst; (repeat' split) <;> simp
@[simp] theorem State.putDst_regions (s : State) (x : Exec) (th : Thread) (o : Operand) (regs v lat : Nat) : (s.putDst x th o regs v lat).regions = s.regions := by unfold State.putDst; (repeat' split) <;> simp
@[simp] theorem State.putDst_ctxs (s : State) (x : Exec) (th : Thread) (o : Operand) (regs v lat : Nat) : (s.putDst x th o regs v lat).ctxs = s.ctxs := by unfold State.putDst; (repeat' split) <;> simp
@[simp] theorem State.putDst_launches (s : State) (x : Exec) (th : Thread) (o : Operand) (regs v lat : Nat) : (s.putDst x th o regs v lat).launches = s.launches := by unfold State.putDst; (repeat' split) <;> simp
@[simp] theorem State.putDst_blocks (s : State) (x : Exec) (th : Thread) (o : Operand) (regs v lat : Nat) : (s.putDst x th o regs v lat).blocks = s.blocks := by unfold State.putDst; (repeat' split) <;> simp
@[simp] theorem State.putDst_queues (s : State) (x : Exec) (th : Thread) (o : Operand) (regs v lat : Nat) : (s.putDst x th o regs v lat).queues = s.queues := by unfold State.putDst; (repeat' split) <;> simp
@[simp] theorem State.putDst_lifecycle (s : State) (x : Exec) (th : Thread) (o : Operand) (regs v lat : Nat) : (s.putDst x th o regs v lat).lifecycle = s.lifecycle := by unfold State.putDst; (repeat' split) <;> simp

@[simp] theorem State.putUni_broken (s : State) (x : Exec) (th : Thread) (r regs v lat : Nat) : (s.putUni x th r regs v lat).broken = s.broken := by unfold State.putUni; (repeat' split) <;> simp
@[simp] theorem State.putUni_debug (s : State) (x : Exec) (th : Thread) (r regs v lat : Nat) : (s.putUni x th r regs v lat).debug = s.debug := by unfold State.putUni; (repeat' split) <;> simp
@[simp] theorem State.putUni_vault (s : State) (x : Exec) (th : Thread) (r regs v lat : Nat) : (s.putUni x th r regs v lat).vault = s.vault := by unfold State.putUni; (repeat' split) <;> simp
@[simp] theorem State.putUni_pool (s : State) (x : Exec) (th : Thread) (r regs v lat : Nat) : (s.putUni x th r regs v lat).pool = s.pool := by unfold State.putUni; (repeat' split) <;> simp
@[simp] theorem State.putUni_locals (s : State) (x : Exec) (th : Thread) (r regs v lat : Nat) : (s.putUni x th r regs v lat).locals = s.locals := by unfold State.putUni; (repeat' split) <;> simp
@[simp] theorem State.putUni_tiles (s : State) (x : Exec) (th : Thread) (r regs v lat : Nat) : (s.putUni x th r regs v lat).tiles = s.tiles := by unfold State.putUni; (repeat' split) <;> simp
@[simp] theorem State.putUni_regions (s : State) (x : Exec) (th : Thread) (r regs v lat : Nat) : (s.putUni x th r regs v lat).regions = s.regions := by unfold State.putUni; (repeat' split) <;> simp
@[simp] theorem State.putUni_ctxs (s : State) (x : Exec) (th : Thread) (r regs v lat : Nat) : (s.putUni x th r regs v lat).ctxs = s.ctxs := by unfold State.putUni; (repeat' split) <;> simp
@[simp] theorem State.putUni_launches (s : State) (x : Exec) (th : Thread) (r regs v lat : Nat) : (s.putUni x th r regs v lat).launches = s.launches := by unfold State.putUni; (repeat' split) <;> simp
@[simp] theorem State.putUni_blocks (s : State) (x : Exec) (th : Thread) (r regs v lat : Nat) : (s.putUni x th r regs v lat).blocks = s.blocks := by unfold State.putUni; (repeat' split) <;> simp
@[simp] theorem State.putUni_queues (s : State) (x : Exec) (th : Thread) (r regs v lat : Nat) : (s.putUni x th r regs v lat).queues = s.queues := by unfold State.putUni; (repeat' split) <;> simp
@[simp] theorem State.putUni_lifecycle (s : State) (x : Exec) (th : Thread) (r regs v lat : Nat) : (s.putUni x th r regs v lat).lifecycle = s.lifecycle := by unfold State.putUni; (repeat' split) <;> simp

theorem foldl_frame {α β : Type} (g : State → β) (f : State → α → State) (h : ∀ s a, g (f s a) = g s) (l : List α) (s : State) :
    g (l.foldl f s) = g s := by
  induction l generalizing s with
  | nil => rfl
  | cons a l ih => rw [List.foldl_cons, ih, h]

@[simp] theorem State.putAll_broken (s : State) (x : Exec) (regs lat : Nat) (vals : List (Thread × Nat)) : (s.putAll x regs lat vals).broken = s.broken := by unfold State.putAll; (repeat' split) <;> first | rfl | (simp; done) | exact foldl_frame State.broken _ (fun s p => by simp) _ _
@[simp] theorem State.putAll_debug (s : State) (x : Exec) (regs lat : Nat) (vals : List (Thread × Nat)) : (s.putAll x regs lat vals).debug = s.debug := by unfold State.putAll; (repeat' split) <;> first | rfl | (simp; done) | exact foldl_frame State.debug _ (fun s p => by simp) _ _
@[simp] theorem State.putAll_vault (s : State) (x : Exec) (regs lat : Nat) (vals : List (Thread × Nat)) : (s.putAll x regs lat vals).vault = s.vault := by unfold State.putAll; (repeat' split) <;> first | rfl | (simp; done) | exact foldl_frame State.vault _ (fun s p => by simp) _ _
@[simp] theorem State.putAll_pool (s : State) (x : Exec) (regs lat : Nat) (vals : List (Thread × Nat)) : (s.putAll x regs lat vals).pool = s.pool := by unfold State.putAll; (repeat' split) <;> first | rfl | (simp; done) | exact foldl_frame State.pool _ (fun s p => by simp) _ _
@[simp] theorem State.putAll_locals (s : State) (x : Exec) (regs lat : Nat) (vals : List (Thread × Nat)) : (s.putAll x regs lat vals).locals = s.locals := by unfold State.putAll; (repeat' split) <;> first | rfl | (simp; done) | exact foldl_frame State.locals _ (fun s p => by simp) _ _
@[simp] theorem State.putAll_tiles (s : State) (x : Exec) (regs lat : Nat) (vals : List (Thread × Nat)) : (s.putAll x regs lat vals).tiles = s.tiles := by unfold State.putAll; (repeat' split) <;> first | rfl | (simp; done) | exact foldl_frame State.tiles _ (fun s p => by simp) _ _
@[simp] theorem State.putAll_regions (s : State) (x : Exec) (regs lat : Nat) (vals : List (Thread × Nat)) : (s.putAll x regs lat vals).regions = s.regions := by unfold State.putAll; (repeat' split) <;> first | rfl | (simp; done) | exact foldl_frame State.regions _ (fun s p => by simp) _ _
@[simp] theorem State.putAll_ctxs (s : State) (x : Exec) (regs lat : Nat) (vals : List (Thread × Nat)) : (s.putAll x regs lat vals).ctxs = s.ctxs := by unfold State.putAll; (repeat' split) <;> first | rfl | (simp; done) | exact foldl_frame State.ctxs _ (fun s p => by simp) _ _
@[simp] theorem State.putAll_launches (s : State) (x : Exec) (regs lat : Nat) (vals : List (Thread × Nat)) : (s.putAll x regs lat vals).launches = s.launches := by unfold State.putAll; (repeat' split) <;> first | rfl | (simp; done) | exact foldl_frame State.launches _ (fun s p => by simp) _ _
@[simp] theorem State.putAll_blocks (s : State) (x : Exec) (regs lat : Nat) (vals : List (Thread × Nat)) : (s.putAll x regs lat vals).blocks = s.blocks := by unfold State.putAll; (repeat' split) <;> first | rfl | (simp; done) | exact foldl_frame State.blocks _ (fun s p => by simp) _ _
@[simp] theorem State.putAll_queues (s : State) (x : Exec) (regs lat : Nat) (vals : List (Thread × Nat)) : (s.putAll x regs lat vals).queues = s.queues := by unfold State.putAll; (repeat' split) <;> first | rfl | (simp; done) | exact foldl_frame State.queues _ (fun s p => by simp) _ _
@[simp] theorem State.putAll_lifecycle (s : State) (x : Exec) (regs lat : Nat) (vals : List (Thread × Nat)) : (s.putAll x regs lat vals).lifecycle = s.lifecycle := by unfold State.putAll; (repeat' split) <;> first | rfl | (simp; done) | exact foldl_frame State.lifecycle _ (fun s p => by simp) _ _

@[simp] theorem State.takeWindows_broken (s : State) (i : Instr) (act : List Thread) (due : Nat) : (s.takeWindows i act due).broken = s.broken := by unfold State.takeWindows; split <;> first | rfl | exact foldl_frame State.broken _ (fun s p => by simp only []; split <;> simp) _ _
@[simp] theorem State.takeWindows_debug (s : State) (i : Instr) (act : List Thread) (due : Nat) : (s.takeWindows i act due).debug = s.debug := by unfold State.takeWindows; split <;> first | rfl | exact foldl_frame State.debug _ (fun s p => by simp only []; split <;> simp) _ _
@[simp] theorem State.takeWindows_vault (s : State) (i : Instr) (act : List Thread) (due : Nat) : (s.takeWindows i act due).vault = s.vault := by unfold State.takeWindows; split <;> first | rfl | exact foldl_frame State.vault _ (fun s p => by simp only []; split <;> simp) _ _
@[simp] theorem State.takeWindows_pool (s : State) (i : Instr) (act : List Thread) (due : Nat) : (s.takeWindows i act due).pool = s.pool := by unfold State.takeWindows; split <;> first | rfl | exact foldl_frame State.pool _ (fun s p => by simp only []; split <;> simp) _ _
@[simp] theorem State.takeWindows_locals (s : State) (i : Instr) (act : List Thread) (due : Nat) : (s.takeWindows i act due).locals = s.locals := by unfold State.takeWindows; split <;> first | rfl | exact foldl_frame State.locals _ (fun s p => by simp only []; split <;> simp) _ _
@[simp] theorem State.takeWindows_tiles (s : State) (i : Instr) (act : List Thread) (due : Nat) : (s.takeWindows i act due).tiles = s.tiles := by unfold State.takeWindows; split <;> first | rfl | exact foldl_frame State.tiles _ (fun s p => by simp only []; split <;> simp) _ _
@[simp] theorem State.takeWindows_regions (s : State) (i : Instr) (act : List Thread) (due : Nat) : (s.takeWindows i act due).regions = s.regions := by unfold State.takeWindows; split <;> first | rfl | exact foldl_frame State.regions _ (fun s p => by simp only []; split <;> simp) _ _
@[simp] theorem State.takeWindows_ctxs (s : State) (i : Instr) (act : List Thread) (due : Nat) : (s.takeWindows i act due).ctxs = s.ctxs := by unfold State.takeWindows; split <;> first | rfl | exact foldl_frame State.ctxs _ (fun s p => by simp only []; split <;> simp) _ _
@[simp] theorem State.takeWindows_launches (s : State) (i : Instr) (act : List Thread) (due : Nat) : (s.takeWindows i act due).launches = s.launches := by unfold State.takeWindows; split <;> first | rfl | exact foldl_frame State.launches _ (fun s p => by simp only []; split <;> simp) _ _
@[simp] theorem State.takeWindows_blocks (s : State) (i : Instr) (act : List Thread) (due : Nat) : (s.takeWindows i act due).blocks = s.blocks := by unfold State.takeWindows; split <;> first | rfl | exact foldl_frame State.blocks _ (fun s p => by simp only []; split <;> simp) _ _
@[simp] theorem State.takeWindows_queues (s : State) (i : Instr) (act : List Thread) (due : Nat) : (s.takeWindows i act due).queues = s.queues := by unfold State.takeWindows; split <;> first | rfl | exact foldl_frame State.queues _ (fun s p => by simp only []; split <;> simp) _ _
@[simp] theorem State.takeWindows_lifecycle (s : State) (i : Instr) (act : List Thread) (due : Nat) : (s.takeWindows i act due).lifecycle = s.lifecycle := by unfold State.takeWindows; split <;> first | rfl | exact foldl_frame State.lifecycle _ (fun s p => by simp only []; split <;> simp) _ _

/-! ### The end of an instruction -/

@[simp] theorem State.yieldThreads_broken (s : State) (ts : List Tid) : (s.yieldThreads ts).broken = s.broken := by rfl
@[simp] theorem State.yieldThreads_debug (s : State) (ts : List Tid) : (s.yieldThreads ts).debug = s.debug := by rfl
@[simp] theorem State.yieldThreads_vault (s : State) (ts : List Tid) : (s.yieldThreads ts).vault = s.vault := by rfl
@[simp] theorem State.yieldThreads_pool (s : State) (ts : List Tid) : (s.yieldThreads ts).pool = s.pool := by rfl
@[simp] theorem State.yieldThreads_locals (s : State) (ts : List Tid) : (s.yieldThreads ts).locals = s.locals := by rfl
@[simp] theorem State.yieldThreads_tiles (s : State) (ts : List Tid) : (s.yieldThreads ts).tiles = s.tiles := by rfl
@[simp] theorem State.yieldThreads_regions (s : State) (ts : List Tid) : (s.yieldThreads ts).regions = s.regions := by rfl
@[simp] theorem State.yieldThreads_ctxs (s : State) (ts : List Tid) : (s.yieldThreads ts).ctxs = s.ctxs := by rfl
@[simp] theorem State.yieldThreads_launches (s : State) (ts : List Tid) : (s.yieldThreads ts).launches = s.launches := by rfl
@[simp] theorem State.yieldThreads_blocks (s : State) (ts : List Tid) : (s.yieldThreads ts).blocks = s.blocks := by rfl
@[simp] theorem State.yieldThreads_queues (s : State) (ts : List Tid) : (s.yieldThreads ts).queues = s.queues := by rfl
@[simp] theorem State.yieldThreads_lifecycle (s : State) (ts : List Tid) : (s.yieldThreads ts).lifecycle = s.lifecycle := by rfl

@[simp] theorem State.advance_broken (s : State) (x : Exec) : (s.advance x).broken = s.broken := by rfl
@[simp] theorem State.advance_debug (s : State) (x : Exec) : (s.advance x).debug = s.debug := by rfl
@[simp] theorem State.advance_vault (s : State) (x : Exec) : (s.advance x).vault = s.vault := by rfl
@[simp] theorem State.advance_pool (s : State) (x : Exec) : (s.advance x).pool = s.pool := by rfl
@[simp] theorem State.advance_locals (s : State) (x : Exec) : (s.advance x).locals = s.locals := by rfl
@[simp] theorem State.advance_tiles (s : State) (x : Exec) : (s.advance x).tiles = s.tiles := by rfl
@[simp] theorem State.advance_regions (s : State) (x : Exec) : (s.advance x).regions = s.regions := by rfl
@[simp] theorem State.advance_ctxs (s : State) (x : Exec) : (s.advance x).ctxs = s.ctxs := by rfl
@[simp] theorem State.advance_launches (s : State) (x : Exec) : (s.advance x).launches = s.launches := by rfl
@[simp] theorem State.advance_blocks (s : State) (x : Exec) : (s.advance x).blocks = s.blocks := by rfl
@[simp] theorem State.advance_queues (s : State) (x : Exec) : (s.advance x).queues = s.queues := by rfl
@[simp] theorem State.advance_lifecycle (s : State) (x : Exec) : (s.advance x).lifecycle = s.lifecycle := by rfl

@[simp] theorem State.noteIssue_broken (s : State) (x : Exec) (i : Instr) : (s.noteIssue x i).broken = s.broken := by rfl
@[simp] theorem State.noteIssue_debug (s : State) (x : Exec) (i : Instr) : (s.noteIssue x i).debug = s.debug := by rfl
@[simp] theorem State.noteIssue_vault (s : State) (x : Exec) (i : Instr) : (s.noteIssue x i).vault = s.vault := by rfl
@[simp] theorem State.noteIssue_pool (s : State) (x : Exec) (i : Instr) : (s.noteIssue x i).pool = s.pool := by rfl
@[simp] theorem State.noteIssue_locals (s : State) (x : Exec) (i : Instr) : (s.noteIssue x i).locals = s.locals := by rfl
@[simp] theorem State.noteIssue_tiles (s : State) (x : Exec) (i : Instr) : (s.noteIssue x i).tiles = s.tiles := by rfl
@[simp] theorem State.noteIssue_regions (s : State) (x : Exec) (i : Instr) : (s.noteIssue x i).regions = s.regions := by rfl
@[simp] theorem State.noteIssue_ctxs (s : State) (x : Exec) (i : Instr) : (s.noteIssue x i).ctxs = s.ctxs := by rfl
@[simp] theorem State.noteIssue_launches (s : State) (x : Exec) (i : Instr) : (s.noteIssue x i).launches = s.launches := by rfl
@[simp] theorem State.noteIssue_blocks (s : State) (x : Exec) (i : Instr) : (s.noteIssue x i).blocks = s.blocks := by rfl
@[simp] theorem State.noteIssue_queues (s : State) (x : Exec) (i : Instr) : (s.noteIssue x i).queues = s.queues := by rfl
@[simp] theorem State.noteIssue_lifecycle (s : State) (x : Exec) (i : Instr) : (s.noteIssue x i).lifecycle = s.lifecycle := by rfl


@[simp] theorem State.finish_broken (s : State) (x : Exec) (i : Instr) (c : Completes) (moved : Bool) : (s.finish x i c moved).broken = s.broken := by 
  unfold State.finish
  have h : ∀ (l : List Thread) (u : State) (due : Nat), (l.foldl (fun s t => s.flagAt x.ig.core t.tid x.flag due) u).broken = u.broken :=
    fun l u due => foldl_frame State.broken _ (fun s p => by simp) l u
  cases c <;> cases moved <;> (repeat' split) <;> simp [h]
@[simp] theorem State.finish_debug (s : State) (x : Exec) (i : Instr) (c : Completes) (moved : Bool) : (s.finish x i c moved).debug = s.debug := by 
  unfold State.finish
  have h : ∀ (l : List Thread) (u : State) (due : Nat), (l.foldl (fun s t => s.flagAt x.ig.core t.tid x.flag due) u).debug = u.debug :=
    fun l u due => foldl_frame State.debug _ (fun s p => by simp) l u
  cases c <;> cases moved <;> (repeat' split) <;> simp [h]
@[simp] theorem State.finish_vault (s : State) (x : Exec) (i : Instr) (c : Completes) (moved : Bool) : (s.finish x i c moved).vault = s.vault := by 
  unfold State.finish
  have h : ∀ (l : List Thread) (u : State) (due : Nat), (l.foldl (fun s t => s.flagAt x.ig.core t.tid x.flag due) u).vault = u.vault :=
    fun l u due => foldl_frame State.vault _ (fun s p => by simp) l u
  cases c <;> cases moved <;> (repeat' split) <;> simp [h]
@[simp] theorem State.finish_pool (s : State) (x : Exec) (i : Instr) (c : Completes) (moved : Bool) : (s.finish x i c moved).pool = s.pool := by 
  unfold State.finish
  have h : ∀ (l : List Thread) (u : State) (due : Nat), (l.foldl (fun s t => s.flagAt x.ig.core t.tid x.flag due) u).pool = u.pool :=
    fun l u due => foldl_frame State.pool _ (fun s p => by simp) l u
  cases c <;> cases moved <;> (repeat' split) <;> simp [h]
@[simp] theorem State.finish_locals (s : State) (x : Exec) (i : Instr) (c : Completes) (moved : Bool) : (s.finish x i c moved).locals = s.locals := by 
  unfold State.finish
  have h : ∀ (l : List Thread) (u : State) (due : Nat), (l.foldl (fun s t => s.flagAt x.ig.core t.tid x.flag due) u).locals = u.locals :=
    fun l u due => foldl_frame State.locals _ (fun s p => by simp) l u
  cases c <;> cases moved <;> (repeat' split) <;> simp [h]
@[simp] theorem State.finish_tiles (s : State) (x : Exec) (i : Instr) (c : Completes) (moved : Bool) : (s.finish x i c moved).tiles = s.tiles := by 
  unfold State.finish
  have h : ∀ (l : List Thread) (u : State) (due : Nat), (l.foldl (fun s t => s.flagAt x.ig.core t.tid x.flag due) u).tiles = u.tiles :=
    fun l u due => foldl_frame State.tiles _ (fun s p => by simp) l u
  cases c <;> cases moved <;> (repeat' split) <;> simp [h]
@[simp] theorem State.finish_regions (s : State) (x : Exec) (i : Instr) (c : Completes) (moved : Bool) : (s.finish x i c moved).regions = s.regions := by 
  unfold State.finish
  have h : ∀ (l : List Thread) (u : State) (due : Nat), (l.foldl (fun s t => s.flagAt x.ig.core t.tid x.flag due) u).regions = u.regions :=
    fun l u due => foldl_frame State.regions _ (fun s p => by simp) l u
  cases c <;> cases moved <;> (repeat' split) <;> simp [h]
@[simp] theorem State.finish_ctxs (s : State) (x : Exec) (i : Instr) (c : Completes) (moved : Bool) : (s.finish x i c moved).ctxs = s.ctxs := by 
  unfold State.finish
  have h : ∀ (l : List Thread) (u : State) (due : Nat), (l.foldl (fun s t => s.flagAt x.ig.core t.tid x.flag due) u).ctxs = u.ctxs :=
    fun l u due => foldl_frame State.ctxs _ (fun s p => by simp) l u
  cases c <;> cases moved <;> (repeat' split) <;> simp [h]
@[simp] theorem State.finish_launches (s : State) (x : Exec) (i : Instr) (c : Completes) (moved : Bool) : (s.finish x i c moved).launches = s.launches := by 
  unfold State.finish
  have h : ∀ (l : List Thread) (u : State) (due : Nat), (l.foldl (fun s t => s.flagAt x.ig.core t.tid x.flag due) u).launches = u.launches :=
    fun l u due => foldl_frame State.launches _ (fun s p => by simp) l u
  cases c <;> cases moved <;> (repeat' split) <;> simp [h]
@[simp] theorem State.finish_blocks (s : State) (x : Exec) (i : Instr) (c : Completes) (moved : Bool) : (s.finish x i c moved).blocks = s.blocks := by 
  unfold State.finish
  have h : ∀ (l : List Thread) (u : State) (due : Nat), (l.foldl (fun s t => s.flagAt x.ig.core t.tid x.flag due) u).blocks = u.blocks :=
    fun l u due => foldl_frame State.blocks _ (fun s p => by simp) l u
  cases c <;> cases moved <;> (repeat' split) <;> simp [h]
@[simp] theorem State.finish_queues (s : State) (x : Exec) (i : Instr) (c : Completes) (moved : Bool) : (s.finish x i c moved).queues = s.queues := by 
  unfold State.finish
  have h : ∀ (l : List Thread) (u : State) (due : Nat), (l.foldl (fun s t => s.flagAt x.ig.core t.tid x.flag due) u).queues = u.queues :=
    fun l u due => foldl_frame State.queues _ (fun s p => by simp) l u
  cases c <;> cases moved <;> (repeat' split) <;> simp [h]
@[simp] theorem State.finish_lifecycle (s : State) (x : Exec) (i : Instr) (c : Completes) (moved : Bool) : (s.finish x i c moved).lifecycle = s.lifecycle := by 
  unfold State.finish
  have h : ∀ (l : List Thread) (u : State) (due : Nat), (l.foldl (fun s t => s.flagAt x.ig.core t.tid x.flag due) u).lifecycle = u.lifecycle :=
    fun l u due => foldl_frame State.lifecycle _ (fun s p => by simp) l u
  cases c <;> cases moved <;> (repeat' split) <;> simp [h]

@[simp] theorem State.begin_broken (s : State) (x : Exec) : (s.begin x).broken = s.broken := by unfold State.begin; split <;> simp
@[simp] theorem State.begin_debug (s : State) (x : Exec) : (s.begin x).debug = s.debug := by unfold State.begin; split <;> simp
@[simp] theorem State.begin_vault (s : State) (x : Exec) : (s.begin x).vault = s.vault := by unfold State.begin; split <;> simp
@[simp] theorem State.begin_pool (s : State) (x : Exec) : (s.begin x).pool = s.pool := by unfold State.begin; split <;> simp
@[simp] theorem State.begin_locals (s : State) (x : Exec) : (s.begin x).locals = s.locals := by unfold State.begin; split <;> simp
@[simp] theorem State.begin_tiles (s : State) (x : Exec) : (s.begin x).tiles = s.tiles := by unfold State.begin; split <;> simp
@[simp] theorem State.begin_regions (s : State) (x : Exec) : (s.begin x).regions = s.regions := by unfold State.begin; split <;> simp
@[simp] theorem State.begin_ctxs (s : State) (x : Exec) : (s.begin x).ctxs = s.ctxs := by unfold State.begin; split <;> simp
@[simp] theorem State.begin_launches (s : State) (x : Exec) : (s.begin x).launches = s.launches := by unfold State.begin; split <;> simp
@[simp] theorem State.begin_blocks (s : State) (x : Exec) : (s.begin x).blocks = s.blocks := by unfold State.begin; split <;> simp
@[simp] theorem State.begin_queues (s : State) (x : Exec) : (s.begin x).queues = s.queues := by unfold State.begin; split <;> simp
@[simp] theorem State.begin_lifecycle (s : State) (x : Exec) : (s.begin x).lifecycle = s.lifecycle := by unfold State.begin; split <;> simp

@[simp] theorem State.closed_broken (s : State) (x : Exec) (i : Instr) (c : Completes) (moved : Bool) : (s.closed x i c moved).broken = s.broken := by simp [State.closed]
@[simp] theorem State.closed_debug (s : State) (x : Exec) (i : Instr) (c : Completes) (moved : Bool) : (s.closed x i c moved).debug = s.debug := by simp [State.closed]
@[simp] theorem State.closed_vault (s : State) (x : Exec) (i : Instr) (c : Completes) (moved : Bool) : (s.closed x i c moved).vault = s.vault := by simp [State.closed]
@[simp] theorem State.closed_pool (s : State) (x : Exec) (i : Instr) (c : Completes) (moved : Bool) : (s.closed x i c moved).pool = s.pool := by simp [State.closed]
@[simp] theorem State.closed_locals (s : State) (x : Exec) (i : Instr) (c : Completes) (moved : Bool) : (s.closed x i c moved).locals = s.locals := by simp [State.closed]
@[simp] theorem State.closed_tiles (s : State) (x : Exec) (i : Instr) (c : Completes) (moved : Bool) : (s.closed x i c moved).tiles = s.tiles := by simp [State.closed]
@[simp] theorem State.closed_regions (s : State) (x : Exec) (i : Instr) (c : Completes) (moved : Bool) : (s.closed x i c moved).regions = s.regions := by simp [State.closed]
@[simp] theorem State.closed_ctxs (s : State) (x : Exec) (i : Instr) (c : Completes) (moved : Bool) : (s.closed x i c moved).ctxs = s.ctxs := by simp [State.closed]
@[simp] theorem State.closed_launches (s : State) (x : Exec) (i : Instr) (c : Completes) (moved : Bool) : (s.closed x i c moved).launches = s.launches := by simp [State.closed]
@[simp] theorem State.closed_blocks (s : State) (x : Exec) (i : Instr) (c : Completes) (moved : Bool) : (s.closed x i c moved).blocks = s.blocks := by simp [State.closed]
@[simp] theorem State.closed_queues (s : State) (x : Exec) (i : Instr) (c : Completes) (moved : Bool) : (s.closed x i c moved).queues = s.queues := by simp [State.closed]
@[simp] theorem State.closed_lifecycle (s : State) (x : Exec) (i : Instr) (c : Completes) (moved : Bool) : (s.closed x i c moved).lifecycle = s.lifecycle := by simp [State.closed]

@[simp] theorem State.acting_broken (s : State) (x : Exec) : (s.acting x).broken = s.broken := by simp [State.acting, State.taken]
@[simp] theorem State.acting_debug (s : State) (x : Exec) : (s.acting x).debug = s.debug := by simp [State.acting, State.taken]
@[simp] theorem State.acting_vault (s : State) (x : Exec) : (s.acting x).vault = s.vault := by simp [State.acting, State.taken]
@[simp] theorem State.acting_pool (s : State) (x : Exec) : (s.acting x).pool = s.pool := by simp [State.acting, State.taken]
@[simp] theorem State.acting_locals (s : State) (x : Exec) : (s.acting x).locals = s.locals := by simp [State.acting, State.taken]
@[simp] theorem State.acting_tiles (s : State) (x : Exec) : (s.acting x).tiles = s.tiles := by simp [State.acting, State.taken]
@[simp] theorem State.acting_regions (s : State) (x : Exec) : (s.acting x).regions = s.regions := by simp [State.acting, State.taken]
@[simp] theorem State.acting_ctxs (s : State) (x : Exec) : (s.acting x).ctxs = s.ctxs := by simp [State.acting, State.taken]
@[simp] theorem State.acting_launches (s : State) (x : Exec) : (s.acting x).launches = s.launches := by simp [State.acting, State.taken]
@[simp] theorem State.acting_blocks (s : State) (x : Exec) : (s.acting x).blocks = s.blocks := by simp [State.acting, State.taken]
@[simp] theorem State.acting_queues (s : State) (x : Exec) : (s.acting x).queues = s.queues := by simp [State.acting, State.taken]
@[simp] theorem State.acting_lifecycle (s : State) (x : Exec) : (s.acting x).lifecycle = s.lifecycle := by simp [State.acting, State.taken]

/-! ### Tracing off -/

theorem State.observable_off {s : State} (h : s.debug = .none) (c : Ctx) : s.observable c = false := by simp [State.observable, h]

theorem State.trace_off {s : State} (h : s.debug = .none) (k : Nat) (t : Tid) (w : Bool) (pc : Word) (ws : List Word) :
    s.trace k t w pc ws = s := by
  unfold State.trace State.traceBytes
  simp only [State.observable_off h]
  repeat' split
  all_goals first | rfl | simp_all

theorem State.traceIssue_off {s : State} (h : s.debug = .none) (ws : List Word) (x : Exec) (i : Instr) :
    s.traceIssue ws x i = s := by
  unfold State.traceIssue
  split
  · rfl
  · exact State.trace_off h _ _ _ _ _

/-! ### What an admitted instruction answers -/

theorem conclude_next {s : State} (h : s.broken = none) : conclude s = .next s := by simp [conclude, h]

/-- Every outcome of an instruction of the word: nothing selected, a trap, a wait, no active lane, or its own effect. -/
theorem issueWith_cases (i : Instr) (f : Insn) (body : State → Exec → Act) (s : State) :
    ∃ t, issueWith i f body s = conclude t := by
  unfold issueWith
  dsimp only
  split
  · exact ⟨_, rfl⟩
  · split
    · exact ⟨_, rfl⟩
    · exact ⟨_, rfl⟩
    · split
      · exact ⟨_, rfl⟩
      · exact ⟨_, rfl⟩

/-- An admitted instruction answers what its own checks and effect come to. -/
theorem issueWith_go {i : Instr} {f : Insn} {body : State → Exec → Act} {s : State} {ig : IssueGroup} {act : List Thread}
    (h : Admits s i f ig act) :
    issueWith i f body s = conclude (s.taken.settleAct (s.about i f ig act) i
      (body (s.acting (s.about i f ig act)) (s.about i f ig act))) := by
  have ha : act.isEmpty = false := by cases act with
    | nil => exact absurd rfl h.active
    | cons a l => rfl
  unfold issueWith
  rw [h.selected]
  simp only []
  rw [show ({ s with issue := none } : State).checks ig i f = .go act from h.checked]
  simp only [ha, Bool.false_eq_true, if_false]
  rfl

/-- An instruction that does its effect answers the state of the effect, closed. -/
theorem issueWith_done {i : Instr} {f : Insn} {body : State → Exec → Act} {s u : State} {ig : IssueGroup} {act : List Thread}
    {c : Completes} {m : Bool} (h : Admits s i f ig act)
    (hb : body (s.acting (s.about i f ig act)) (s.about i f ig act) = .done u c m) (hu : u.broken = none) (hd : u.debug = .none) :
    issueWith i f body s = .next (u.closed (s.about i f ig act) i c m) := by
  rw [issueWith_go h, hb]
  show conclude (((u.traceIssue _ _ i).finish _ i c m).noteIssue _ i) = _
  rw [State.traceIssue_off hd]
  exact conclude_next (by simpa [State.closed] using hu)

/-- An instruction some of whose lanes block. -/
theorem issueWith_held {i : Instr} {f : Insn} {body : State → Exec → Act} {s u : State} {ig : IssueGroup} {act : List Thread}
    {c : Completes} {held : List Tid} (h : Admits s i f ig act)
    (hb : body (s.acting (s.about i f ig act)) (s.about i f ig act) = .held u c held) (hu : u.broken = none) (hd : u.debug = .none) :
    issueWith i f body s = .next (if (s.taken.without (s.about i f ig act) i held).mem.isEmpty then u.complete held (s.about i f ig act).flag
      else (u.complete held (s.about i f ig act).flag).closed (s.taken.without (s.about i f ig act) i held) i c false) := by
  rw [issueWith_go h, hb]
  by_cases hm : (s.taken.without (s.about i f ig act) i held).mem.isEmpty = true
  · simp only [State.settleAct, hm, if_true]
    exact conclude_next ((State.complete_broken u held _).trans hu)
  · simp only [State.settleAct, hm, Bool.false_eq_true, if_false]
    rw [State.traceIssue_off (by simpa using hd)]
    exact conclude_next (by simpa [State.closed] using hu)

/-- An instruction that traps takes its trap: nothing else of it happens (R83, R157). -/
theorem issueWith_trap {i : Instr} {f : Insn} {body : State → Exec → Act} {s : State} {ig : IssueGroup} {act : List Thread}
    {t : Trap} (h : Admits s i f ig act)
    (hb : body (s.acting (s.about i f ig act)) (s.about i f ig act) = .trap t) :
    issueWith i f body s = conclude (s.taken.takeTrap ig t) := by
  rw [issueWith_go h, hb]
  rfl

end Sys2Proof.Machine
end

