-- ==== Sys2Proof/Laws/Sparse.lean ====
section
/-! SUPPORT. Sparse stores: a read after a write, and that every operation keeps the canonical form. -/

namespace Sys2Proof.Machine

variable {w : Nat}

theorem sget_sins_same (m : Sparse w) (k : Nat) (v : BitVec w) : sget (sins m k v) k = v := by
  induction m with
  | nil => simp [sins, sget]
  | cons c t ih =>
    simp only [sins]
    split
    · simp [sget]
    · split
      · simp [sget]
      · rename_i h1 h2
        simp only [sget]
        rw [if_neg (by omega), ih]

theorem sget_sins_other (m : Sparse w) {k j : Nat} (v : BitVec w) (h : j ≠ k) : sget (sins m k v) j = sget m j := by
  induction m with
  | nil => simp [sins, sget]; omega
  | cons c t ih =>
    simp only [sins]
    split
    · simp only [sget]; rw [if_neg (by omega)]
    · split
      · simp only [sget]; rename_i h1 h2; rw [if_neg (by omega), if_neg (by omega)]
      · simp only [sget, ih]

theorem sget_filter_same (m : Sparse w) (k : Nat) : sget (m.filter fun c => decide (c.1 ≠ k)) k = 0 := by
  induction m with
  | nil => rfl
  | cons c t ih =>
    by_cases h : c.1 = k
    · simpa [List.filter, h] using ih
    · simp only [List.filter, h, ne_eq, not_false_eq_true, decide_true, sget, if_false]
      simpa using ih

theorem sget_filter_other (m : Sparse w) {k j : Nat} (h : j ≠ k) : sget (m.filter fun c => decide (c.1 ≠ k)) j = sget m j := by
  induction m with
  | nil => rfl
  | cons c t ih =>
    by_cases hc : c.1 = k
    · simp only [List.filter, hc, ne_eq, not_true_eq_false, decide_false, sget]
      rw [if_neg (by omega)]; simpa using ih
    · simp only [List.filter, hc, ne_eq, not_false_eq_true, decide_true, sget]
      rw [show sget (t.filter fun c => decide (¬ c.1 = k)) j = sget t j by simpa using ih]

/-- A cell reads as it was last written. -/
@[simp] theorem sget_sput_same (m : Sparse w) (k : Nat) (v : BitVec w) : sget (sput m k v) k = v := by
  unfold sput
  split
  · rename_i h; rw [sget_filter_same, h]
  · exact sget_sins_same m k v

/-- A write leaves every other cell alone. -/
theorem sget_sput_other (m : Sparse w) {k j : Nat} (v : BitVec w) (h : j ≠ k) : sget (sput m k v) j = sget m j := by
  unfold sput
  split
  · exact sget_filter_other m h
  · exact sget_sins_other m v h

/-! ### The canonical form -/

theorem sokAbove_mono {a b : Nat} (h : a ≤ b) {m : Sparse w} (hm : sokAbove (some b) m = true) : sokAbove (some a) m = true := by
  cases m with
  | nil => rfl
  | cons c t =>
    simp only [sokAbove, Bool.and_eq_true, decide_eq_true_eq] at hm ⊢
    exact ⟨⟨by omega, hm.1.2⟩, hm.2⟩

theorem sok_of_above {b : Nat} {m : Sparse w} (hm : sokAbove (some b) m = true) : sok m = true := by
  cases m with
  | nil => rfl
  | cons c t =>
    simp only [sok, sokAbove, Bool.and_eq_true, decide_eq_true_eq] at hm ⊢
    exact ⟨⟨trivial, hm.1.2⟩, hm.2⟩

theorem sokAbove_sins {b : Option Nat} {m : Sparse w} {k : Nat} {v : BitVec w} (hv : v ≠ 0)
    (hb : ∀ x, b = some x → x < k) (hm : sokAbove b m = true) : sokAbove b (sins m k v) = true := by
  have hv' : ¬(v = 0#w) := hv
  induction m generalizing b with
  | nil =>
    cases b with
    | none => simp [sins, sokAbove, hv']
    | some x => simp [sins, sokAbove, hv', hb x rfl]
  | cons c t ih =>
    have htail : sokAbove (some c.1) t = true := by
      cases b <;> simp only [sokAbove, Bool.and_eq_true] at hm <;> exact hm.2
    have hc0 : c.2 ≠ 0 := by
      cases b <;> simp only [sokAbove, Bool.and_eq_true, decide_eq_true_eq] at hm <;> exact hm.1.2
    have hc' : ¬(c.2 = 0#w) := hc0
    have hcb : ∀ x, b = some x → x < c.1 := by
      intro x hx; subst hx
      simp only [sokAbove, Bool.and_eq_true, decide_eq_true_eq] at hm; exact hm.1.1
    simp only [sins]
    split
    · rename_i h
      cases b with
      | none => simp [sokAbove, hv', h, hc', htail]
      | some x => simp [sokAbove, hv', h, hc', htail, hb x rfl]
    · split
      · rename_i h1 h2; subst h2
        cases b with
        | none => simp [sokAbove, hv', htail]
        | some x => simp [sokAbove, hv', htail, hb x rfl]
      · rename_i h1 h2
        have := ih (b := some c.1) (by intro x hx; cases hx; omega) htail
        cases b with
        | none => simp [sokAbove, hc', this]
        | some x => simp [sokAbove, hc', this, hcb x rfl]

theorem sokAbove_filter {b : Option Nat} {m : Sparse w} (p : Nat × BitVec w → Bool) (hm : sokAbove b m = true) :
    sokAbove b (m.filter p) = true := by
  induction m generalizing b with
  | nil => exact hm
  | cons c t ih =>
    have htail : sokAbove (some c.1) t = true := by
      cases b <;> simp only [sokAbove, Bool.and_eq_true] at hm <;> exact hm.2
    have hc0 : c.2 ≠ 0 := by
      cases b <;> simp only [sokAbove, Bool.and_eq_true, decide_eq_true_eq] at hm <;> exact hm.1.2
    have hc' : ¬(c.2 = 0#w) := hc0
    have hcb : ∀ x, b = some x → x < c.1 := by
      intro x hx; subst hx
      simp only [sokAbove, Bool.and_eq_true, decide_eq_true_eq] at hm; exact hm.1.1
    by_cases hp : p c = true
    · rw [List.filter_cons_of_pos hp]
      cases b with
      | none => simp [sokAbove, hc', ih htail]
      | some x => simp [sokAbove, hc', ih htail, hcb x rfl]
    · rw [List.filter_cons_of_neg hp]
      cases b with
      | none => exact sok_of_above (ih htail)
      | some x => exact sokAbove_mono (Nat.le_of_lt (hcb x rfl)) (ih htail)

/-- A selection of cells keeps the form. -/
theorem sok_filter {m : Sparse w} (p : Nat × BitVec w → Bool) (hm : sok m = true) : sok (m.filter p) = true := sokAbove_filter p hm

/-- A write of a cell keeps the form. -/
theorem sok_sput {m : Sparse w} (k : Nat) (v : BitVec w) (hm : sok m = true) : sok (sput m k v) = true := by
  unfold sput
  split
  · exact sok_filter _ hm
  · rename_i h; exact sokAbove_sins h (by intro x hx; cases hx) hm

theorem sok_sputL {m : Sparse w} (vs : List (BitVec w)) (k : Nat) (hm : sok m = true) : sok (sputL m k vs) = true := by
  induction vs generalizing m k with
  | nil => exact hm
  | cons v vs ih => exact ih (k + 1) (sok_sput k v hm)

theorem sok_sclear {m : Sparse w} (k n : Nat) (hm : sok m = true) : sok (sclear m k n) = true := sok_filter _ hm

theorem sok_sputAll {m : Sparse w} (cs : Sparse w) (hm : sok m = true) : sok (sputAll m cs) = true := by
  induction cs generalizing m with
  | nil => exact hm
  | cons c t ih => exact ih (sok_sput c.1 c.2 hm)

theorem sok_scopy (src : Sparse w) (k n j : Nat) {dst : Sparse w} (hm : sok dst = true) : sok (scopy src k n dst j) = true :=
  sok_sputAll _ (sok_sclear j n hm)

/-! ### Runs of cells -/

theorem sget_sputL_outside (m : Sparse w) (vs : List (BitVec w)) {k j : Nat} (h : j < k ∨ k + vs.length ≤ j) :
    sget (sputL m k vs) j = sget m j := by
  induction vs generalizing m k with
  | nil => rfl
  | cons v vs ih =>
    simp only [List.length_cons] at h
    rw [sputL, ih _ (by omega), sget_sput_other _ _ (by omega)]

theorem sget_sputL_inside (m : Sparse w) (vs : List (BitVec w)) {k i : Nat} (h : i < vs.length) :
    sget (sputL m k vs) (k + i) = vs[i] := by
  induction vs generalizing m k i with
  | nil => simp at h
  | cons v vs ih =>
    cases i with
    | zero => rw [sputL, sget_sputL_outside _ _ (by omega)]; simp
    | succ i =>
      have := ih (sput m k v) (k := k + 1) (i := i) (by simpa using h)
      rw [sputL, show k + (i + 1) = k + 1 + i by omega, this]; rfl

theorem sgetN_length (m : Sparse w) (k n : Nat) : (sgetN m k n).length = n := by
  induction n generalizing k with
  | zero => rfl
  | succ n ih => simp [sgetN, ih]

end Sys2Proof.Machine
end

