-- ==== Sys2Proof/Laws/Memory.lean ====
section
/-! SUPPORT. Memory: what a write does, read after write, and that every operation over memory keeps its canonical form. -/

namespace Sys2Proof.Machine

/-! ### The parts of a write -/

@[simp] theorem State.setPoison_mem (s : State) (p q : PAddr) (l : List Nat) : (s.setPoison p l).mem q = s.mem q := by
  cases p <;> cases q <;> rfl
@[simp] theorem State.setMem_mem (s : State) (p : PAddr) (m : Sparse 8) : (s.setMem p m).mem p = m := by cases p <;> rfl
@[simp] theorem State.setPoison_vault (s : State) (p : PAddr) (l : List Nat) : (s.setPoison p l).vault = s.vault := by cases p <;> rfl
@[simp] theorem State.setPoison_pool (s : State) (p : PAddr) (l : List Nat) : (s.setPoison p l).pool = s.pool := by cases p <;> rfl
@[simp] theorem State.setPoison_locals (s : State) (p : PAddr) (l : List Nat) : (s.setPoison p l).locals = s.locals := by cases p <;> rfl
@[simp] theorem State.setPoison_broken (s : State) (p : PAddr) (l : List Nat) : (s.setPoison p l).broken = s.broken := by cases p <;> rfl
@[simp] theorem State.setMem_broken (s : State) (p : PAddr) (m : Sparse 8) : (s.setMem p m).broken = s.broken := by cases p <;> rfl
@[simp] theorem State.break_mem (s : State) (f : Fault) (p : PAddr) : (s.break f).mem p = s.mem p := by
  unfold State.break; cases s.broken <;> cases p <;> rfl
@[simp] theorem State.break_vault (s : State) (f : Fault) : (s.break f).vault = s.vault := by unfold State.break; cases s.broken <;> rfl
@[simp] theorem State.break_pool (s : State) (f : Fault) : (s.break f).pool = s.pool := by unfold State.break; cases s.broken <;> rfl
@[simp] theorem State.break_locals (s : State) (f : Fault) : (s.break f).locals = s.locals := by unfold State.break; cases s.broken <;> rfl

@[simp] theorem State.noteWrite_mem (s : State) (p : PAddr) (n : Nat) (q : PAddr) : (s.noteWrite p n).mem q = s.mem q := by cases q <;> rfl
@[simp] theorem State.noteWrite_broken (s : State) (p : PAddr) (n : Nat) : (s.noteWrite p n).broken = s.broken := rfl
theorem State.noteWrite_memoryWf (s : State) (p : PAddr) (n : Nat) : (s.noteWrite p n).memoryWf = s.memoryWf := rfl

/-- A note of a write changes nothing but what the write leaves open: code, object and view table entries, operands of the engine. -/
theorem State.noteWrite_spec (s : State) (p : PAddr) (n : Nat) :
    s.noteWrite p n = { s with oldCode := (s.noteWrite p n).oldCode, torn := (s.noteWrite p n).torn, oldViews := (s.noteWrite p n).oldViews
                               racedOps := (s.noteWrite p n).racedOps } := rfl

/-- Bytes are equal where the memories are. -/
theorem State.byte_congr {s t : State} {p : PAddr} (h : s.mem p = t.mem p) : s.byte p = t.byte p := by simp [State.byte, h]

theorem State.setMem_mem_other (s : State) {p q : PAddr} (m : Sparse 8) (h : p.same q = false) : (s.setMem p m).mem q = s.mem q := by
  cases p <;> cases q <;> first | rfl | simp [PAddr.same] at h

theorem State.setMem_mem_same (s : State) {p q : PAddr} (m : Sparse 8) (h : p.same q = true) : (s.setMem p m).mem q = m := by
  cases p <;> cases q <;> first | rfl | simp [PAddr.same] at h

theorem State.mem_same (s : State) {p q : PAddr} (h : p.same q = true) : s.mem p = s.mem q := by
  cases p <;> cases q <;> first | rfl | simp [PAddr.same] at h

/-- A write of bytes that exist never stops the step, and one of bytes that do not exist changes no byte. -/
theorem State.write_broken (s : State) (p : PAddr) (bs : List Byte) (h : p.exists_ bs.length = true) :
    (s.write p bs).broken = s.broken := by simp [State.write, h]

/-- Everything a write does to a byte: the byte written, or the byte as it was. -/
theorem State.write_byte_other (s : State) (p q : PAddr) (bs : List Byte)
    (h : p.same q = true → q.key < p.key ∨ p.key + bs.length ≤ q.key) : (s.write p bs).byte q = s.byte q := by
  unfold State.write
  split
  · by_cases hs : p.same q = true
    · simp only [State.byte, State.setPoison_mem, State.setMem_mem_same _ _ hs]
      rw [sget_sputL_outside _ _ (h hs), State.noteWrite_mem, State.mem_same s hs]
    · simp only [State.byte, State.setPoison_mem, State.setMem_mem_other _ _ (by simpa using hs), State.noteWrite_mem]
  · split <;> simp [State.byte]

/-- The bytes written read back. -/
theorem State.write_byte_same (s : State) (p q : PAddr) (bs : List Byte) (i : Nat) (h : p.exists_ bs.length = true)
    (hs : p.same q = true) (hk : q.key = p.key + i) (hi : i < bs.length) : (s.write p bs).byte q = bs[i] := by
  unfold State.write
  rw [if_pos h]
  simp only [State.byte, State.setPoison_mem, State.setMem_mem_same _ _ hs]
  rw [hk, sget_sputL_inside _ _ hi]

/-! ### The canonical form -/

theorem Memory.wf_eq (m : List Host.Cell) : Memory.wf m = sok m := rfl

theorem State.memoryWf_iff (s : State) : s.memoryWf = true ↔ sok s.vault = true ∧ sok s.pool = true ∧ sok s.locals = true := by
  simp [State.memoryWf, Memory.wf_eq, and_assoc]

theorem State.memoryWf_mem {s : State} (h : s.memoryWf = true) (p : PAddr) : sok (s.mem p) = true := by
  rw [State.memoryWf_iff] at h
  cases p
  · exact h.1
  · exact h.2.1
  · exact h.2.2

theorem State.memoryWf_setMem {s : State} (h : s.memoryWf = true) (p : PAddr) {m : Sparse 8} (hm : sok m = true) :
    (s.setMem p m).memoryWf = true := by
  rw [State.memoryWf_iff] at h ⊢
  cases p
  · exact ⟨hm, h.2⟩
  · exact ⟨h.1, hm, h.2.2⟩
  · exact ⟨h.1, h.2.1, hm⟩

theorem State.memoryWf_setPoison {s : State} (p : PAddr) (l : List Nat) : (s.setPoison p l).memoryWf = s.memoryWf := by
  cases p <;> rfl

theorem State.memoryWf_break {s : State} (f : Fault) : (s.break f).memoryWf = s.memoryWf := by
  unfold State.break; cases s.broken <;> rfl

/-- A write keeps the form. -/
theorem State.memoryWf_write {s : State} (h : s.memoryWf = true) (p : PAddr) (bs : List Byte) : (s.write p bs).memoryWf = true := by
  unfold State.write
  split
  · rw [State.memoryWf_setPoison]
    have h := (State.noteWrite_memoryWf s p bs.length).trans h
    exact State.memoryWf_setMem h p (sok_sputL _ _ (State.memoryWf_mem h p))
  · split
    · rw [State.memoryWf_break]; exact h
    · exact h

theorem State.memoryWf_writeVal {s : State} (h : s.memoryWf = true) (p : PAddr) (n v : Nat) : (s.writeVal p n v).memoryWf = true :=
  State.memoryWf_write h p _

theorem State.memoryWf_touch {s : State} (h : s.memoryWf = true) (p : PAddr) (n : Nat) : (s.touch p n).memoryWf = true := by
  unfold State.touch
  split
  · exact h
  · split
    · rw [State.memoryWf_break]; exact h
    · exact h

theorem State.memoryWf_addPoison {s : State} (h : s.memoryWf = true) (p : PAddr) (n : Nat) : (s.addPoison p n).memoryWf = true := by
  unfold State.addPoison; rw [State.memoryWf_setPoison]; exact h

theorem State.memoryWf_copyRun {s : State} (h : s.memoryWf = true) (p q : PAddr) (n : Nat) : (s.copyRun p q n).memoryWf = true := by
  unfold State.copyRun
  split
  · exact State.memoryWf_setMem h q (sok_scopy _ _ _ _ (State.memoryWf_mem h q))
  · exact State.memoryWf_touch (State.memoryWf_touch h p n) q n

theorem State.memoryWf_zeroRun {s : State} (h : s.memoryWf = true) (p : PAddr) (n : Nat) : (s.zeroRun p n).memoryWf = true := by
  unfold State.zeroRun
  split
  · rw [State.memoryWf_setPoison]
    exact State.memoryWf_setMem h p (sok_sclear _ _ (State.memoryWf_mem h p))
  · exact State.memoryWf_touch h p n

/-- Every copy of a page table entry is written in the form. -/
theorem State.memoryWf_putPte {s : State} (h : s.memoryWf = true) (l : Leaf) (e : Pte) : (s.putPte l e).memoryWf = true := by
  unfold State.putPte
  generalize List.range l.copies = is
  induction is generalizing s with
  | nil => exact h
  | cons i is ih => exact ih (State.memoryWf_writeVal h _ _ _)

theorem State.memoryWf_pushRecord {s : State} (h : s.memoryWf = true) (c : Ctx) (e base : Nat) (r : List Byte) :
    (s.pushRecord c e base r).memoryWf = true := by
  unfold State.pushRecord
  exact State.memoryWf_writeVal (State.memoryWf_write h _ _) _ _ _

theorem State.memoryWf_flushRecords {s : State} (h : s.memoryWf = true) (ctx n : Nat) : (s.flushRecords ctx n).memoryWf = true := by
  induction n generalizing s with
  | zero => exact h
  | succ n ih =>
    unfold State.flushRecords
    split
    · split
      · split
        · exact h
        · exact ih (State.memoryWf_pushRecord h _ _ _ _)
      · exact h
    · exact h

theorem State.memoryWf_faultRecord {s : State} (h : s.memoryWf = true) (ctx : Nat) (r : List Byte) : (s.faultRecord ctx r).memoryWf = true := by
  unfold State.faultRecord
  split
  · exact State.memoryWf_flushRecords (s := s.modCtx ctx _) h _ _
  · exact h

theorem State.memoryWf_errorRecord {s : State} (h : s.memoryWf = true) (ctx : Nat) (r : List Byte) : (s.errorRecord ctx r).memoryWf = true := by
  unfold State.errorRecord
  split
  · split
    · exact State.memoryWf_writeVal h _ _ _
    · exact State.memoryWf_pushRecord h _ _ _ _
  · exact h

theorem State.memoryWf_setCtxState {s : State} (h : s.memoryWf = true) (ctx : Nat) (st : CtxState) : (s.setCtxState ctx st).memoryWf = true := by
  unfold State.setCtxState
  split
  · exact State.memoryWf_writeVal (s := s.modCtx ctx _) h _ _ _
  · exact h

/-! ### Writes that meet a registered barrier or a tensor in a PLACE -/

/-- A note of a stray write changes nothing but the blocks' `strayed` lists (R291). -/
theorem State.noteStray_spec (s : State) (core a n : Nat) :
    s.noteStray core a n = { s with blocks := (s.noteStray core a n).blocks } ∧ (s.noteStray core a n).blocks.map (·.key) = s.blocks.map (·.key) := by
  unfold State.noteStray
  split <;> simp [Function.comp_def]

/-- A note of a raw write changes nothing but the PLACEs' `dirty` marks and the tiles whose matrix area it meets (R230). -/
theorem State.rawWrite_spec (s : State) (core ctx : Nat) (loc : Bool) (obj off n : Nat) :
    s.rawWrite core ctx loc obj off n =
        { s with places := (s.rawWrite core ctx loc obj off n).places, groups := (s.rawWrite core ctx loc obj off n).groups } ∧
      (s.rawWrite core ctx loc obj off n).places.map (·.id) = s.places.map (·.id) := by
  unfold State.rawWrite
  cases loc <;> simp only [Bool.false_eq_true, if_false, if_true] <;> split
  all_goals refine ⟨rfl, ?_⟩
  all_goals first
    | rfl
    | (simp only [List.map_map]; congr 1; funext o; simp only [Function.comp]; split <;> rfl)

theorem State.memoryWf_storeLocal {s : State} (h : s.memoryWf = true) (core a : Nat) (bs : List Byte) : (s.storeLocal core a bs).memoryWf = true := by
  have e : (s.noteStray core a bs.length).memoryWf = true := by rw [(s.noteStray_spec core a bs.length).1]; exact h
  exact State.memoryWf_write e _ _

/-- The memories of the machine right after power-good are in the form. -/
theorem State.memoryWf_reset : State.reset.memoryWf = true := rfl

end Sys2Proof.Machine
end

