-- ==== Sys2Proof/Laws/PerInstr.lean ====
section
/-! SUPPORT. One statement for every instruction, as syntax: its opcode is one of the table, and the decoder's table gives the
instruction back from its opcode and fields (R98). -/

namespace Sys2Proof.Laws.Opcode

/-- An instruction of the word has an 8-bit opcode with a form, and the opcode table gives it back. -/
def Statement (i : Instr) : Prop :=
  ∀ (opc : Nat) (f : Insn), i.word? = some (opc, f) →
    opc < 256 ∧ (Forms.formOf opc).isSome = true ∧ (i.sub f.mod = true → build opc f = some i)

theorem nop (f : Insn) : Statement (.nop f) := by intro o g h; cases h; exact ⟨by decide, rfl, fun _ => rfl⟩
theorem mov (f : Insn) : Statement (.mov f) := by intro o g h; cases h; exact ⟨by decide, rfl, fun _ => rfl⟩
theorem movl (f : Insn) : Statement (.movl f) := by intro o g h; cases h; exact ⟨by decide, rfl, fun _ => rfl⟩
theorem sel (f : Insn) : Statement (.sel f) := by intro o g h; cases h; exact ⟨by decide, rfl, fun _ => rfl⟩
theorem iadd (f : Insn) : Statement (.iadd f) := by intro o g h; cases h; exact ⟨by decide, rfl, fun _ => rfl⟩
theorem isub (f : Insn) : Statement (.isub f) := by intro o g h; cases h; exact ⟨by decide, rfl, fun _ => rfl⟩
theorem imul (f : Insn) : Statement (.imul f) := by intro o g h; cases h; exact ⟨by decide, rfl, fun _ => rfl⟩
theorem imulh (f : Insn) : Statement (.imulh f) := by intro o g h; cases h; exact ⟨by decide, rfl, fun _ => rfl⟩
theorem imad (f : Insn) : Statement (.imad f) := by intro o g h; cases h; exact ⟨by decide, rfl, fun _ => rfl⟩
theorem imin (f : Insn) : Statement (.imin f) := by intro o g h; cases h; exact ⟨by decide, rfl, fun _ => rfl⟩
theorem imax (f : Insn) : Statement (.imax f) := by intro o g h; cases h; exact ⟨by decide, rfl, fun _ => rfl⟩
theorem iabs (f : Insn) : Statement (.iabs f) := by intro o g h; cases h; exact ⟨by decide, rfl, fun _ => rfl⟩
theorem ineg (f : Insn) : Statement (.ineg f) := by intro o g h; cases h; exact ⟨by decide, rfl, fun _ => rfl⟩
theorem isad (f : Insn) : Statement (.isad f) := by intro o g h; cases h; exact ⟨by decide, rfl, fun _ => rfl⟩
theorem and (f : Insn) : Statement (.and f) := by intro o g h; cases h; exact ⟨by decide, rfl, fun _ => rfl⟩
theorem or (f : Insn) : Statement (.or f) := by intro o g h; cases h; exact ⟨by decide, rfl, fun _ => rfl⟩
theorem xor (f : Insn) : Statement (.xor f) := by intro o g h; cases h; exact ⟨by decide, rfl, fun _ => rfl⟩
theorem andn (f : Insn) : Statement (.andn f) := by intro o g h; cases h; exact ⟨by decide, rfl, fun _ => rfl⟩
theorem not (f : Insn) : Statement (.not f) := by intro o g h; cases h; exact ⟨by decide, rfl, fun _ => rfl⟩
theorem shl (f : Insn) : Statement (.shl f) := by intro o g h; cases h; exact ⟨by decide, rfl, fun _ => rfl⟩
theorem shr (f : Insn) : Statement (.shr f) := by intro o g h; cases h; exact ⟨by decide, rfl, fun _ => rfl⟩
theorem sar (f : Insn) : Statement (.sar f) := by intro o g h; cases h; exact ⟨by decide, rfl, fun _ => rfl⟩
theorem rotl (f : Insn) : Statement (.rotl f) := by intro o g h; cases h; exact ⟨by decide, rfl, fun _ => rfl⟩
theorem bfx (f : Insn) : Statement (.bfx f) := by intro o g h; cases h; exact ⟨by decide, rfl, fun _ => rfl⟩
theorem bfi (f : Insn) : Statement (.bfi f) := by intro o g h; cases h; exact ⟨by decide, rfl, fun _ => rfl⟩
theorem popc (f : Insn) : Statement (.popc f) := by intro o g h; cases h; exact ⟨by decide, rfl, fun _ => rfl⟩
theorem clz (f : Insn) : Statement (.clz f) := by intro o g h; cases h; exact ⟨by decide, rfl, fun _ => rfl⟩
theorem brev (f : Insn) : Statement (.brev f) := by intro o g h; cases h; exact ⟨by decide, rfl, fun _ => rfl⟩
theorem icmp (f : Insn) : Statement (.icmp f) := by intro o g h; cases h; exact ⟨by decide, rfl, fun _ => rfl⟩
theorem lea (f : Insn) : Statement (.lea f) := by intro o g h; cases h; exact ⟨by decide, rfl, fun _ => rfl⟩
theorem bpick (f : Insn) : Statement (.bpick f) := by intro o g h; cases h; exact ⟨by decide, rfl, fun _ => rfl⟩
theorem bmix (f : Insn) : Statement (.bmix f) := by intro o g h; cases h; exact ⟨by decide, rfl, fun _ => rfl⟩
theorem idot4 (f : Insn) : Statement (.idot4 f) := by intro o g h; cases h; exact ⟨by decide, rfl, fun _ => rfl⟩
theorem par (f : Insn) : Statement (.par f) := by intro o g h; cases h; exact ⟨by decide, rfl, fun _ => rfl⟩
theorem fadd (f : Insn) : Statement (.fadd f) := by intro o g h; cases h; exact ⟨by decide, rfl, fun _ => rfl⟩
theorem fsub (f : Insn) : Statement (.fsub f) := by intro o g h; cases h; exact ⟨by decide, rfl, fun _ => rfl⟩
theorem fmul (f : Insn) : Statement (.fmul f) := by intro o g h; cases h; exact ⟨by decide, rfl, fun _ => rfl⟩
theorem ffma (f : Insn) : Statement (.ffma f) := by intro o g h; cases h; exact ⟨by decide, rfl, fun _ => rfl⟩
theorem fmin (f : Insn) : Statement (.fmin f) := by intro o g h; cases h; exact ⟨by decide, rfl, fun _ => rfl⟩
theorem fmax (f : Insn) : Statement (.fmax f) := by intro o g h; cases h; exact ⟨by decide, rfl, fun _ => rfl⟩
theorem fcmp (f : Insn) : Statement (.fcmp f) := by intro o g h; cases h; exact ⟨by decide, rfl, fun _ => rfl⟩
theorem frcp (f : Insn) : Statement (.frcp f) := by intro o g h; cases h; exact ⟨by decide, rfl, fun _ => rfl⟩
theorem frsq (f : Insn) : Statement (.frsq f) := by intro o g h; cases h; exact ⟨by decide, rfl, fun _ => rfl⟩
theorem fsqrt (f : Insn) : Statement (.fsqrt f) := by intro o g h; cases h; exact ⟨by decide, rfl, fun _ => rfl⟩
theorem fexp2 (f : Insn) : Statement (.fexp2 f) := by intro o g h; cases h; exact ⟨by decide, rfl, fun _ => rfl⟩
theorem flog2 (f : Insn) : Statement (.flog2 f) := by intro o g h; cases h; exact ⟨by decide, rfl, fun _ => rfl⟩
theorem ftanh (f : Insn) : Statement (.ftanh f) := by intro o g h; cases h; exact ⟨by decide, rfl, fun _ => rfl⟩
theorem fclass (f : Insn) : Statement (.fclass f) := by intro o g h; cases h; exact ⟨by decide, rfl, fun _ => rfl⟩
theorem fscalb (f : Insn) : Statement (.fscalb f) := by intro o g h; cases h; exact ⟨by decide, rfl, fun _ => rfl⟩
theorem cvt (f : Insn) : Statement (.cvt f) := by intro o g h; cases h; exact ⟨by decide, rfl, fun _ => rfl⟩
theorem bfma2 (f : Insn) : Statement (.bfma2 f) := by intro o g h; cases h; exact ⟨by decide, rfl, fun _ => rfl⟩
theorem badd2 (f : Insn) : Statement (.badd2 f) := by intro o g h; cases h; exact ⟨by decide, rfl, fun _ => rfl⟩
theorem bmul2 (f : Insn) : Statement (.bmul2 f) := by intro o g h; cases h; exact ⟨by decide, rfl, fun _ => rfl⟩
theorem frnd (f : Insn) : Statement (.frnd f) := by intro o g h; cases h; exact ⟨by decide, rfl, fun _ => rfl⟩
theorem plop (f : Insn) : Statement (.plop f) := by intro o g h; cases h; exact ⟨by decide, rfl, fun _ => rfl⟩
theorem poll (f : Insn) : Statement (.poll f) := by intro o g h; cases h; exact ⟨by decide, rfl, fun _ => rfl⟩
theorem lxch (f : Insn) : Statement (.lxch f) := by intro o g h; cases h; exact ⟨by decide, rfl, fun _ => rfl⟩
theorem lshf (f : Insn) : Statement (.lshf f) := by intro o g h; cases h; exact ⟨by decide, rfl, fun _ => rfl⟩
theorem lbcast (f : Insn) : Statement (.lbcast f) := by intro o g h; cases h; exact ⟨by decide, rfl, fun _ => rfl⟩
theorem lred (f : Insn) : Statement (.lred f) := by intro o g h; cases h; exact ⟨by decide, rfl, fun _ => rfl⟩
theorem rdlane (f : Insn) : Statement (.rdlane f) := by intro o g h; cases h; exact ⟨by decide, rfl, fun _ => rfl⟩
theorem xset (f : Insn) : Statement (.xset f) := by intro o g h; cases h; exact ⟨by decide, rfl, fun _ => rfl⟩
theorem xget (f : Insn) : Statement (.xget f) := by intro o g h; cases h; exact ⟨by decide, rfl, fun _ => rfl⟩
theorem xadv (f : Insn) : Statement (.xadv f) := by intro o g h; cases h; exact ⟨by decide, rfl, fun _ => rfl⟩
theorem bra (f : Insn) : Statement (.bra f) := by intro o g h; cases h; exact ⟨by decide, rfl, fun _ => rfl⟩
theorem brx (f : Insn) : Statement (.brx f) := by intro o g h; cases h; exact ⟨by decide, rfl, fun _ => rfl⟩
theorem call (f : Insn) : Statement (.call f) := by intro o g h; cases h; exact ⟨by decide, rfl, fun _ => rfl⟩
theorem ret (f : Insn) : Statement (.ret f) := by intro o g h; cases h; exact ⟨by decide, rfl, fun _ => rfl⟩
theorem exit (f : Insn) : Statement (.exit f) := by intro o g h; cases h; exact ⟨by decide, rfl, fun _ => rfl⟩
theorem yield (f : Insn) : Statement (.yield f) := by intro o g h; cases h; exact ⟨by decide, rfl, fun _ => rfl⟩
theorem spawn (f : Insn) : Statement (.spawn f) := by intro o g h; cases h; exact ⟨by decide, rfl, fun _ => rfl⟩
theorem trap (f : Insn) : Statement (.trap f) := by intro o g h; cases h; exact ⟨by decide, rfl, fun _ => rfl⟩
theorem tret (f : Insn) : Statement (.tret f) := by intro o g h; cases h; exact ⟨by decide, rfl, fun _ => rfl⟩
theorem barinit (f : Insn) : Statement (.barinit f) := by intro o g h; cases h; exact ⟨by decide, rfl, fun _ => rfl⟩
theorem bararr (f : Insn) : Statement (.bararr f) := by intro o g h; cases h; exact ⟨by decide, rfl, fun _ => rfl⟩
theorem barwait (f : Insn) : Statement (.barwait f) := by intro o g h; cases h; exact ⟨by decide, rfl, fun _ => rfl⟩
theorem bartest (f : Insn) : Statement (.bartest f) := by intro o g h; cases h; exact ⟨by decide, rfl, fun _ => rfl⟩
theorem gsync (f : Insn) : Statement (.gsync f) := by intro o g h; cases h; exact ⟨by decide, rfl, fun _ => rfl⟩
theorem mbxputRsv (f : Insn) : Statement (.mbxputRsv f) := by
  intro o g h; cases h; exact ⟨by decide, by decide, fun hm => by
    have hb : (!f.mod.getLsbD 0) = true := hm
    exact if_neg (by simpa using hb)⟩
theorem mbxputPub (f : Insn) : Statement (.mbxputPub f) := by
  intro o g h; cases h; exact ⟨by decide, by decide, fun hm => by
    have hb : f.mod.getLsbD 0 = true := hm
    exact if_pos hb⟩
theorem mbxgetTake (f : Insn) : Statement (.mbxgetTake f) := by
  intro o g h; cases h; exact ⟨by decide, by decide, fun hm => by
    have hb : (!f.mod.getLsbD 0) = true := hm
    exact if_neg (by simpa using hb)⟩
theorem mbxgetRel (f : Insn) : Statement (.mbxgetRel f) := by
  intro o g h; cases h; exact ⟨by decide, by decide, fun hm => by
    have hb : f.mod.getLsbD 0 = true := hm
    exact if_pos hb⟩
theorem quota (f : Insn) : Statement (.quota f) := by intro o g h; cases h; exact ⟨by decide, rfl, fun _ => rfl⟩
theorem rdsys (f : Insn) : Statement (.rdsys f) := by intro o g h; cases h; exact ⟨by decide, rfl, fun _ => rfl⟩
theorem wrsys (f : Insn) : Statement (.wrsys f) := by intro o g h; cases h; exact ⟨by decide, rfl, fun _ => rfl⟩
theorem clock (f : Insn) : Statement (.clock f) := by intro o g h; cases h; exact ⟨by decide, rfl, fun _ => rfl⟩
theorem waitf (f : Insn) : Statement (.waitf f) := by intro o g h; cases h; exact ⟨by decide, rfl, fun _ => rfl⟩
theorem cancel (f : Insn) : Statement (.cancel f) := by intro o g h; cases h; exact ⟨by decide, rfl, fun _ => rfl⟩
theorem enq (f : Insn) : Statement (.enq f) := by intro o g h; cases h; exact ⟨by decide, rfl, fun _ => rfl⟩
theorem bkpt (f : Insn) : Statement (.bkpt f) := by intro o g h; cases h; exact ⟨by decide, rfl, fun _ => rfl⟩
theorem replay (f : Insn) : Statement (.replay f) := by intro o g h; cases h; exact ⟨by decide, rfl, fun _ => rfl⟩
theorem ld (f : Insn) : Statement (.ld f) := by intro o g h; cases h; exact ⟨by decide, rfl, fun _ => rfl⟩
theorem st (f : Insn) : Statement (.st f) := by intro o g h; cases h; exact ⟨by decide, rfl, fun _ => rfl⟩
theorem ldl (f : Insn) : Statement (.ldl f) := by intro o g h; cases h; exact ⟨by decide, rfl, fun _ => rfl⟩
theorem stl (f : Insn) : Statement (.stl f) := by intro o g h; cases h; exact ⟨by decide, rfl, fun _ => rfl⟩
theorem ldgl (f : Insn) : Statement (.ldgl f) := by intro o g h; cases h; exact ⟨by decide, rfl, fun _ => rfl⟩
theorem atom (f : Insn) : Statement (.atom f) := by intro o g h; cases h; exact ⟨by decide, rfl, fun _ => rfl⟩
theorem atoml (f : Insn) : Statement (.atoml f) := by intro o g h; cases h; exact ⟨by decide, rfl, fun _ => rfl⟩
theorem red (f : Insn) : Statement (.red f) := by intro o g h; cases h; exact ⟨by decide, rfl, fun _ => rfl⟩
theorem mcst (f : Insn) : Statement (.mcst f) := by intro o g h; cases h; exact ⟨by decide, rfl, fun _ => rfl⟩
theorem redst (f : Insn) : Statement (.redst f) := by intro o g h; cases h; exact ⟨by decide, rfl, fun _ => rfl⟩
theorem pref (f : Insn) : Statement (.pref f) := by intro o g h; cases h; exact ⟨by decide, rfl, fun _ => rfl⟩
theorem fence (f : Insn) : Statement (.fence f) := by intro o g h; cases h; exact ⟨by decide, rfl, fun _ => rfl⟩
theorem fencex (f : Insn) : Statement (.fencex f) := by intro o g h; cases h; exact ⟨by decide, rfl, fun _ => rfl⟩
theorem oprdy (f : Insn) : Statement (.oprdy f) := by intro o g h; cases h; exact ⟨by decide, rfl, fun _ => rfl⟩
theorem vdup (f : Insn) : Statement (.vdup f) := by intro o g h; cases h; exact ⟨by decide, rfl, fun _ => rfl⟩
theorem vnarrow (f : Insn) : Statement (.vnarrow f) := by intro o g h; cases h; exact ⟨by decide, rfl, fun _ => rfl⟩
theorem vdrop (f : Insn) : Statement (.vdrop f) := by intro o g h; cases h; exact ⟨by decide, rfl, fun _ => rfl⟩
theorem vqry (f : Insn) : Statement (.vqry f) := by intro o g h; cases h; exact ⟨by decide, rfl, fun _ => rfl⟩
theorem wload (f : Insn) : Statement (.wload f) := by intro o g h; cases h; exact ⟨by decide, rfl, fun _ => rfl⟩
theorem mma (f : Insn) : Statement (.mma f) := by intro o g h; cases h; exact ⟨by decide, rfl, fun _ => rfl⟩
theorem accz (f : Insn) : Statement (.accz f) := by intro o g h; cases h; exact ⟨by decide, rfl, fun _ => rfl⟩
theorem accrd (f : Insn) : Statement (.accrd f) := by intro o g h; cases h; exact ⟨by decide, rfl, fun _ => rfl⟩
theorem accwr (f : Insn) : Statement (.accwr f) := by intro o g h; cases h; exact ⟨by decide, rfl, fun _ => rfl⟩
theorem accdr (f : Insn) : Statement (.accdr f) := by intro o g h; cases h; exact ⟨by decide, rfl, fun _ => rfl⟩
theorem accld (f : Insn) : Statement (.accld f) := by intro o g h; cases h; exact ⟨by decide, rfl, fun _ => rfl⟩
theorem rowmax (f : Insn) : Statement (.rowmax f) := by intro o g h; cases h; exact ⟨by decide, rfl, fun _ => rfl⟩
theorem rowexp (f : Insn) : Statement (.rowexp f) := by intro o g h; cases h; exact ⟨by decide, rfl, fun _ => rfl⟩
theorem rowsc (f : Insn) : Statement (.rowsc f) := by intro o g h; cases h; exact ⟨by decide, rfl, fun _ => rfl⟩
theorem place (f : Insn) : Statement (.place f) := by intro o g h; cases h; exact ⟨by decide, rfl, fun _ => rfl⟩
theorem tld (f : Insn) : Statement (.tld f) := by intro o g h; cases h; exact ⟨by decide, rfl, fun _ => rfl⟩
theorem tst (f : Insn) : Statement (.tst f) := by intro o g h; cases h; exact ⟨by decide, rfl, fun _ => rfl⟩
theorem tdset (f : Insn) : Statement (.tdset f) := by intro o g h; cases h; exact ⟨by decide, rfl, fun _ => rfl⟩
theorem tdget (f : Insn) : Statement (.tdget f) := by intro o g h; cases h; exact ⟨by decide, rfl, fun _ => rfl⟩
theorem locof (f : Insn) : Statement (.locof f) := by intro o g h; cases h; exact ⟨by decide, rfl, fun _ => rfl⟩
theorem optaw (f : Insn) : Statement (.optaw f) := by intro o g h; cases h; exact ⟨by decide, rfl, fun _ => rfl⟩
theorem statst (f : Insn) : Statement (.statst f) := by intro o g h; cases h; exact ⟨by decide, rfl, fun _ => rfl⟩
theorem statld (f : Insn) : Statement (.statld f) := by intro o g h; cases h; exact ⟨by decide, rfl, fun _ => rfl⟩
theorem lscale (f : Insn) : Statement (.lscale f) := by intro o g h; cases h; exact ⟨by decide, rfl, fun _ => rfl⟩
theorem cpkick (f : Insn) : Statement (.cpkick f) := by intro o g h; cases h; exact ⟨by decide, rfl, fun _ => rfl⟩
theorem chainBind (f : Insn) : Statement (.chainBind f) := by
  intro o g h; cases h; exact ⟨by decide, by decide, fun hm => by
    have hb : (!f.mod.getLsbD 6) = true := hm
    exact if_neg (by simpa using hb)⟩
theorem chainUnbind (f : Insn) : Statement (.chainUnbind f) := by
  intro o g h; cases h; exact ⟨by decide, by decide, fun hm => by
    have hb : f.mod.getLsbD 6 = true := hm
    exact if_pos hb⟩
theorem issueGroupSelect (core sched : Nat) : Statement (.issueGroupSelect core sched) := by intro o g h; cases h
theorem forcedCandidate (b : BlockKey) (g : Nat) : Statement (.forcedCandidate b g) := by intro o g h; cases h
theorem yieldTimeout (b : BlockKey) (g : Nat) : Statement (.yieldTimeout b g) := by intro o g h; cases h
theorem waitfLimit (t : Tid) : Statement (.waitfLimit t) := by intro o g h; cases h
theorem fixedLatencyWrite (core i : Nat) : Statement (.fixedLatencyWrite core i) := by intro o g h; cases h
theorem fillArrival (core i : Nat) : Statement (.fillArrival core i) := by intro o g h; cases h
theorem deferredTrap (b : BlockKey) (g : Nat) : Statement (.deferredTrap b g) := by intro o g h; cases h
theorem memueTrap (t : Tid) : Statement (.memueTrap t) := by intro o g h; cases h
theorem mcnackTrap (t : Tid) : Statement (.mcnackTrap t) := by intro o g h; cases h
theorem cancelTrap (b : BlockKey) : Statement (.cancelTrap b) := by intro o g h; cases h
theorem waitTableRetry (core : Nat) : Statement (.waitTableRetry core) := by intro o g h; cases h
theorem gsyncComplete (b : BlockKey) (g : Nat) : Statement (.gsyncComplete b g) := by intro o g h; cases h
theorem hangDetect (b : BlockKey) (g : Nat) : Statement (.hangDetect b g) := by intro o g h; cases h
theorem hangTrap (b : BlockKey) (g : Nat) : Statement (.hangTrap b g) := by intro o g h; cases h
theorem mmaSlice (core : Nat) : Statement (.mmaSlice core) := by intro o g h; cases h
theorem engineOperationDone (core : Nat) : Statement (.engineOperationDone core) := by intro o g h; cases h
theorem accdrRow (core : Nat) : Statement (.accdrRow core) := by intro o g h; cases h
theorem placePassStep (i : Nat) : Statement (.placePassStep i) := by intro o g h; cases h
theorem copyRequest (core i : Nat) : Statement (.copyRequest core i) := by intro o g h; cases h
theorem ldglBytesWritten (core i : Nat) : Statement (.ldglBytesWritten core i) := by intro o g h; cases h
theorem storePerformed (core i : Nat) : Statement (.storePerformed core i) := by intro o g h; cases h
theorem reclamationSequence (i : Nat) : Statement (.reclamationSequence i) := by intro o g h; cases h
theorem shootdown (core i : Nat) : Statement (.shootdown core i) := by intro o g h; cases h
theorem handleGrant (core n : Nat) : Statement (.handleGrant core n) := by intro o g h; cases h
theorem promotionRequest (core : Nat) : Statement (.promotionRequest core) := by intro o g h; cases h
theorem serialisationRequest (core : Nat) : Statement (.serialisationRequest core) := by intro o g h; cases h
theorem launch (q : Nat) : Statement (.launch q) := by intro o g h; cases h
theorem wait (q : Nat) : Statement (.wait q) := by intro o g h; cases h
theorem signal (q : Nat) : Statement (.signal q) := by intro o g h; cases h
theorem prefetch (q : Nat) : Statement (.prefetch q) := by intro o g h; cases h
theorem graph (q : Nat) : Statement (.graph q) := by intro o g h; cases h
theorem blockPlace (launch : Nat) : Statement (.blockPlace launch) := by intro o g h; cases h
theorem drainClusterReserve (launch : Nat) : Statement (.drainClusterReserve launch) := by intro o g h; cases h
theorem gangEvictDecision (launch : Nat) : Statement (.gangEvictDecision launch) := by intro o g h; cases h
theorem blockEvictionDone (b : BlockKey) : Statement (.blockEvictionDone b) := by intro o g h; cases h
theorem prologue (b : BlockKey) : Statement (.prologue b) := by intro o g h; cases h
theorem blockStart (b : BlockKey) : Statement (.blockStart b) := by intro o g h; cases h
theorem blockEnd (b : BlockKey) : Statement (.blockEnd b) := by intro o g h; cases h
theorem continuationGroupTimeout (launch entry : Nat) : Statement (.continuationGroupTimeout launch entry) := by intro o g h; cases h
theorem queueDrained (q : Nat) : Statement (.queueDrained q) := by intro o g h; cases h
theorem registerQueue (ctx : Nat) (ptr : BitVec 64) : Statement (.registerQueue ctx ptr) := by intro o g h; cases h
theorem reset (q : Nat) (skip : Bool) : Statement (.reset q skip) := by intro o g h; cases h
theorem disable (q : Nat) : Statement (.disable q) := by intro o g h; cases h
theorem enable (q : Nat) : Statement (.enable q) := by intro o g h; cases h
theorem registerContext (quarter addr : Nat) : Statement (.registerContext quarter addr) := by intro o g h; cases h
theorem start (ctx : Nat) : Statement (.start ctx) := by intro o g h; cases h
theorem preempt (ctx : Nat) : Statement (.preempt ctx) := by intro o g h; cases h
theorem preemptSaveDone (ctx : Nat) : Statement (.preemptSaveDone ctx) := by intro o g h; cases h
theorem resume (ctx : Nat) : Statement (.resume ctx) := by intro o g h; cases h
theorem restoreDone (ctx : Nat) : Statement (.restoreDone ctx) := by intro o g h; cases h
theorem destroy (ctx : Nat) : Statement (.destroy ctx) := by intro o g h; cases h
theorem contextFault (ctx : Nat) : Statement (.contextFault ctx) := by intro o g h; cases h
theorem viewroot (ctx obj low high : Nat) (rights : BitVec 8) : Statement (.viewroot ctx obj low high rights) := by intro o g h; cases h
theorem viewrecycle (ctx index : Nat) : Statement (.viewrecycle ctx index) := by intro o g h; cases h
theorem pagering (ctx : Nat) (ptr : BitVec 64) : Statement (.pagering ctx ptr) := by intro o g h; cases h
theorem fill : Statement .fill := by intro o g h; cases h
theorem fillDone (i : Nat) : Statement (.fillDone i) := by intro o g h; cases h
theorem evict : Statement .evict := by intro o g h; cases h
theorem evictionDone (i : Nat) : Statement (.evictionDone i) := by intro o g h; cases h
theorem softError (quarter addr : Nat) (corrected : Bool) : Statement (.softError quarter addr corrected) := by intro o g h; cases h
theorem frameLost (ctx obj off : Nat) : Statement (.frameLost ctx obj off) := by intro o g h; cases h
theorem bringUp (r : BringUpResult) : Statement (.bringUp r) := by intro o g h; cases h
theorem pstate (target : Nat) (quarters : BitVec 4) : Statement (.pstate target quarters) := by intro o g h; cases h
theorem currentLimiterWindow (core : Nat) : Statement (.currentLimiterWindow core) := by intro o g h; cases h
theorem attest (nonce : BitVec 256) : Statement (.attest nonce) := by intro o g h; cases h
theorem debugLevel (level : Nat) (token : Bool) : Statement (.debugLevel level token) := by intro o g h; cases h
theorem lifecycleAdvance : Statement .lifecycleAdvance := by intro o g h; cases h
theorem skewMeasure (i : Nat) (value : BitVec 32) : Statement (.skewMeasure i value) := by intro o g h; cases h
theorem linkTrain (l : Nat) : Statement (.linkTrain l) := by intro o g h; cases h
theorem linkTrained (l lanes : Nat) : Statement (.linkTrained l lanes) := by intro o g h; cases h
theorem linkTrainingTimeout (l : Nat) : Statement (.linkTrainingTimeout l) := by intro o g h; cases h
theorem linkKeyed (l : Nat) (ok : Bool) : Statement (.linkKeyed l ok) := by intro o g h; cases h
theorem laneLost (l : Nat) : Statement (.laneLost l) := by intro o g h; cases h
theorem crcErrorThreshold (l : Nat) : Statement (.crcErrorThreshold l) := by intro o g h; cases h
theorem linkRetrain (l : Nat) : Statement (.linkRetrain l) := by intro o g h; cases h
theorem retrainingDone (l lanes : Nat) : Statement (.retrainingDone l lanes) := by intro o g h; cases h
theorem linkRepair (l : Nat) : Statement (.linkRepair l) := by intro o g h; cases h
theorem rekey (l : Nat) : Statement (.rekey l) := by intro o g h; cases h
theorem noProgressTimer (l vc : Nat) (moving : Bool) : Statement (.noProgressTimer l vc moving) := by intro o g h; cases h
theorem flitReceive (l : Nat) (item : LinkItem) : Statement (.flitReceive l item) := by intro o g h; cases h
theorem remap (plane : Nat) (failed : BitVec 8) : Statement (.remap plane failed) := by intro o g h; cases h
theorem routingBankUpdate (plane : Nat) (rings : Nat × Nat × Nat) (places : List (Nat × Nat)) : Statement (.routingBankUpdate plane rings places) := by intro o g h; cases h
theorem bankRetire (plane : Nat) : Statement (.bankRetire plane) := by intro o g h; cases h
theorem deviceFailureDetected (dev : Nat) : Statement (.deviceFailureDetected dev) := by intro o g h; cases h
theorem read (p : Packet) : Statement (.read p) := by intro o g h; cases h
theorem write (p : Packet) : Statement (.write p) := by intro o g h; cases h
theorem atomic (p : Packet) : Statement (.atomic p) := by intro o g h; cases h
theorem redPacket (p : Packet) : Statement (.redPacket p) := by intro o g h; cases h
theorem mcast (p : Packet) : Statement (.mcast p) := by intro o g h; cases h
theorem data (p : Packet) : Statement (.data p) := by intro o g h; cases h
theorem ack (p : Packet) : Statement (.ack p) := by intro o g h; cases h
theorem linknack (p : Packet) : Statement (.linknack p) := by intro o g h; cases h
theorem retriedRequest (kind : Nat) (p : Packet) : Statement (.retriedRequest kind p) := by intro o g h; cases h
theorem refused (p : Packet) : Statement (.refused p) := by intro o g h; cases h
theorem mack (p : Packet) : Statement (.mack p) := by intro o g h; cases h
theorem mgt (p : Packet) : Statement (.mgt p) := by intro o g h; cases h
theorem dbghold (src : Nat) : Statement (.dbghold src) := by intro o g h; cases h
theorem dbgresume (src : Nat) : Statement (.dbgresume src) := by intro o g h; cases h
theorem deepHalt : Statement .deepHalt := by intro o g h; cases h
theorem breakpointRegisterWrite (ctx i launch : Nat) (pc : Word) (on : Bool) : Statement (.breakpointRegisterWrite ctx i launch pc on) := by intro o g h; cases h
theorem debugResume (b : Option BlockKey) : Statement (.debugResume b) := by intro o g h; cases h
theorem debugRegisterAccess (t : Tid) (place : DebugPlace) (write : Option Word) : Statement (.debugRegisterAccess t place write) := by intro o g h; cases h
theorem dump (ctx : Nat) (spaceFirst spaceSize : Nat) : Statement (.dump ctx spaceFirst spaceSize) := by intro o g h; cases h
theorem dumpRelease (ctx : Nat) : Statement (.dumpRelease ctx) := by intro o g h; cases h
theorem registerTraceRing (ctx : Nat) (ptr : BitVec 64) : Statement (.registerTraceRing ctx ptr) := by intro o g h; cases h
theorem sampleRecord (core : Nat) (t : Tid) (stages : List (BitVec 16)) (obj off : Nat) : Statement (.sampleRecord core t stages obj off) := by intro o g h; cases h
theorem registerWrite (reg : DeviceReg) (value : Word) : Statement (.registerWrite reg value) := by intro o g h; cases h
theorem hostAccess (ctx obj off : Nat) (write : Option (List Byte)) (size : Nat) : Statement (.hostAccess ctx obj off write size) := by intro o g h; cases h
theorem pstateReached : Statement .pstateReached := by intro o g h; cases h
theorem powerLoss : Statement .powerLoss := by intro o g h; cases h
theorem debugHalt (freeze : Bool) : Statement (.debugHalt freeze) := by intro o g h; cases h
theorem tdsetDone (b : BlockKey) (g tile : Nat) : Statement (.tdsetDone b g tile) := by intro o g h; cases h

end Sys2Proof.Laws.Opcode
end

