-- ==== Sys2Proof/Laws/Results.lean ====
section
/-! SUPPORT. What the shared operations of the meanings can do: results written at a latency, values supplied across lanes,
traps taken and returned from, links and packets. -/

namespace Sys2Proof.Machine

/-! ### Results -/

/-- An instruction whose body is done, with an effect that names no missing byte. -/
theorem effects_of {i : Instr} {f : Insn} {body : State → Exec → Act} {c : Exec → Completes} {m : Bool} {effect : State → Exec → State}
    (hx : ∀ s, exec i s = issueWith i f body s) (hb : ∀ u x, body u x = .done (effect u x) (c x) m)
    (hs : ∀ u x, (effect u x).broken = u.broken) (hd : ∀ u x, (effect u x).debug = u.debug) : Effects i f c m effect := by
  intro s ig act h
  rw [hx]
  exact issueWith_done h (hb _ _) (by simp [hs, h.sound]) (by simp [hd, h.untraced])

/-- A fixed-latency instruction with one result in each lane. -/
theorem results_of {i : Instr} {f : Insn} {regs lat : Nat} {val : State → Exec → Thread → Nat}
    (hx : ∀ s, exec i s = issueWith i f (fun s x => fixedResult s x regs lat (val s x)) s) : Results i f regs lat val :=
  effects_of hx (fun _ _ => rfl) (fun _ _ => by simp) (fun _ _ => by simp)

theorem results_congr {i : Instr} {f : Insn} {regs lat : Nat} {val val' : State → Exec → Thread → Nat}
    (h : Results i f regs lat val) (hv : ∀ u x th, val u x th = val' u x th) : Results i f regs lat val' := by
  have : val = val' := by funext u x th; exact hv u x th
  exact this ▸ h

@[simp] theorem State.raise_broken (s : State) (x : Exec) (th : Thread) (fl : BitVec 5) (lat : Nat) : (s.raise x th fl lat).broken = s.broken := by
  unfold State.raise; split <;> first | rfl | simp
@[simp] theorem State.raise_debug (s : State) (x : Exec) (th : Thread) (fl : BitVec 5) (lat : Nat) : (s.raise x th fl lat).debug = s.debug := by
  unfold State.raise; split <;> first | rfl | simp

/-- A floating-point instruction: the results, then the flags, of every active lane. -/
theorem floats_of {i : Instr} {f : Insn} {regs lat : Nat} {val : State → Thread → FpResult}
    (hx : ∀ s, exec i s = issueWith i f (fun s x => fpResult s x regs lat (val s)) s) :
    Effects i f (fun x => .at_ (x.due lat)) false fun u x =>
      (x.act.map fun th => (th, val u th)).foldl (fun s p => s.raise x p.1 p.2.2 lat)
        (u.putAll x regs lat (x.act.map fun th => (th, (val u th).1))) := by
  refine effects_of hx (fun u x => ?_) (fun u x => ?_) (fun u x => ?_)
  · simp only [fpResult, List.map_map]; rfl
  · rw [foldl_frame State.broken _ (fun s p => by simp)]; simp
  · rw [foldl_frame State.debug _ (fun s p => by simp)]; simp

/-- Where no source lane's register is empty, an instruction across lanes goes on with what they supply. -/
theorem acrossLanes_full {s : State} {x : Exec} {src : Thread → Tid × Use} {k : List (Thread × Nat) → Act}
    (h : ∀ th ∈ x.act, s.supply (src th).1 (src th).2 ≠ none) :
    acrossLanes s x src k = k (x.act.map fun th => (th, (s.supply (src th).1 (src th).2).getD 0)) := by
  unfold acrossLanes
  simp only
  rw [if_pos]
  · simp [List.map_map, Function.comp_def]
  · rw [List.isEmpty_iff, List.filter_eq_nil_iff]
    intro r hr
    obtain ⟨th, ht, rfl⟩ := List.mem_map.1 hr
    simpa [Option.isNone_iff_eq_none] using h th ht

/-! ### Traps -/

theorem State.takeTrap_handled {s : State} {ig : IssueGroup} {tr : Trap} (h : s.handled ig tr.cause = true) :
    s.takeTrap ig tr = s.enterHandler ig tr := by simp [State.takeTrap, h]

theorem State.takeTrap_cancel {s : State} {ig : IssueGroup} {tr : Trap} (h : s.handled ig tr.cause = false) (hc : tr.cause = Cause.cancel) :
    s.takeTrap ig tr = s.exitThreads ig.members := by unfold State.takeTrap; rw [h, if_neg (by simp), if_pos hc]

theorem State.takeTrap_fault {s : State} {ig : IssueGroup} {tr : Trap} (h : s.handled ig tr.cause = false) (hc : tr.cause ≠ Cause.cancel) :
    ∃ ctx img, s.takeTrap ig tr = s.faultCtx ctx img := by
  unfold State.takeTrap; rw [h, if_neg (by simp), if_neg hc]; exact ⟨_, _, rfl⟩

/-- What a trap can become: the handler, the end of the threads, or the fault of the context. -/
theorem State.takeTrap_cases (s : State) (ig : IssueGroup) (tr : Trap) :
    s.takeTrap ig tr = s.enterHandler ig tr ∨ s.takeTrap ig tr = s.exitThreads ig.members ∨ ∃ ctx img, s.takeTrap ig tr = s.faultCtx ctx img := by
  cases h : s.handled ig tr.cause with
  | true => exact .inl (State.takeTrap_handled h)
  | false =>
    by_cases hc : tr.cause = Cause.cancel
    · exact .inr (.inl (State.takeTrap_cancel h hc))
    · exact .inr (.inr (State.takeTrap_fault h hc))

@[simp] theorem State.faultCtx_broken (s : State) (ctx : Nat) (img : FaultImage) : (s.faultCtx ctx img).broken = s.broken := rfl
@[simp] theorem State.faultCtx_threads (s : State) (ctx : Nat) (img : FaultImage) : (s.faultCtx ctx img).threads = s.threads := rfl
@[simp] theorem State.faultCtx_vregs (s : State) (ctx : Nat) (img : FaultImage) : (s.faultCtx ctx img).vregs = s.vregs := rfl
@[simp] theorem State.faultCtx_vault (s : State) (ctx : Nat) (img : FaultImage) : (s.faultCtx ctx img).vault = s.vault := rfl

@[simp] theorem State.settleResults_broken (s : State) (core : Nat) (ts : List Tid) : (s.settleResults core ts).broken = s.broken := by
  unfold State.settleResults
  exact (foldl_frame State.broken _ (fun s p => by simp) _ _).trans rfl
@[simp] theorem State.settleResults_vault (s : State) (core : Nat) (ts : List Tid) : (s.settleResults core ts).vault = s.vault := by
  unfold State.settleResults
  exact (foldl_frame State.vault _ (fun s p => by simp) _ _).trans rfl
@[simp] theorem State.settleResults_locals (s : State) (core : Nat) (ts : List Tid) : (s.settleResults core ts).locals = s.locals := by
  unfold State.settleResults
  exact (foldl_frame State.locals _ (fun s p => by simp) _ _).trans rfl

@[simp] theorem State.enterHandler_broken (s : State) (ig : IssueGroup) (tr : Trap) : (s.enterHandler ig tr).broken = s.broken := by
  unfold State.enterHandler; exact (State.settleResults_broken s _ _)
@[simp] theorem State.enterHandler_vault (s : State) (ig : IssueGroup) (tr : Trap) : (s.enterHandler ig tr).vault = s.vault := by
  unfold State.enterHandler; exact (State.settleResults_vault s _ _)
@[simp] theorem State.enterHandler_locals (s : State) (ig : IssueGroup) (tr : Trap) : (s.enterHandler ig tr).locals = s.locals := by
  unfold State.enterHandler; exact (State.settleResults_locals s _ _)

/-- A handler returned from, where no cancellation waits. -/
theorem State.leaveHandler_resumes {s : State} {t : Tid} {th : Thread} (skip : Bool) (h : s.thread? t = some th) (hc : th.trapCause ≠ Cause.cancel) :
    s.leaveHandler skip t = s.modThread t fun th => { th with handler := false, pc := if skip then th.trapPc + 12 else th.trapPc } := by
  unfold State.leaveHandler; rw [h]; simp [hc]

/-! ### Links and packets -/

theorem State.linkEvent_taken {s : State} {l : Nat} {from_ : List LinkState} (f : State → State) (h : s.hasLink l = true) (ho : s.linkOff l = false) (hs : (s.link l).state ∈ from_) :
    s.linkEvent l from_ f = f s := by
  unfold State.linkEvent
  rw [if_pos]
  simpa [h, ho] using hs

theorem State.linkEvent_ignored {s : State} {l : Nat} {from_ : List LinkState} (f : State → State) (h : s.hasLink l = false ∨ (s.link l).state ∉ from_ ∨ s.linkOff l = true) :
    s.linkEvent l from_ f = s := by
  unfold State.linkEvent
  rw [if_neg]
  rcases h with h | h | h <;> simp [h]

theorem State.linkCommand_taken {s : State} {l : Nat} {st : LinkState} (f : State → State) (hd : s.deaf = false) (ho : s.linkOff l = false) (h : s.hasLink l = true)
    (hs : (s.link l).state = st) : s.linkCommand l st f = (f s).reply .ok := by simp [State.linkCommand, hd, ho, h, hs]

theorem State.linkCommand_refused {s : State} {l : Nat} {st : LinkState} (f : State → State) (hd : s.deaf = false) (hs : (s.link l).state ≠ st) :
    s.linkCommand l st f = s.reply .badState := by simp [State.linkCommand, hd, hs]

/-! ### Replies -/

/-- A command of the mailbox, which takes it. -/
theorem State.mail_open {s : State} (f : State → Host.Outcome State Fault Refusal) (h : s.mailOpen = true) : s.mail f = f s := by simp [State.mail, h]

/-- While nothing answers, a reply changes nothing; else it comes last. -/
theorem State.reply_deaf {s : State} (r : Reply) (h : s.deaf = true) : s.reply r = s := by simp [State.reply, h]
theorem State.reply_awake {s : State} (r : Reply) (h : s.deaf = false) : s.reply r = { s with replies := s.replies ++ [r] } := by simp [State.reply, h]
@[simp] theorem State.reply_broken (s : State) (r : Reply) : (s.reply r).broken = s.broken := by unfold State.reply; split <;> rfl

/-- A command at the debug port, which answers. -/
theorem State.debugPort_open {s : State} (f : State → Host.Outcome State Fault Refusal) (h : s.linksOff = false) (hb : s.bootStep ≠ some 1) : s.debugPort f = f s := by
  unfold State.debugPort
  rw [h, if_neg (by simp)]
  split
  · next h1 => exact absurd h1 hb
  · rfl

/-! ### Flits (R358) -/

/-- A flit that is made passes the check of its CRC. -/
@[simp] theorem flitBits_make (low : BitVec 32) (payload : List Byte) (tag : BitVec 64) : flitBits (makeFlit low payload tag) = low := by
  apply BitVec.eq_of_getLsbD_eq
  intro i hi
  have h := BitVec.getLsbD_append (x := flitCrc low payload tag) (y := low) (i := i)
  simpa [flitBits, makeFlit, hi] using h
@[simp] theorem flitCrcOk_make (low : BitVec 32) (payload : List Byte) (tag : BitVec 64) : flitCrcOk (makeFlit low payload tag) = true := by
  have h : (makeFlit low payload tag).header.extractLsb' 32 32 = flitCrc low payload tag := by
    apply BitVec.eq_of_getLsbD_eq
    intro i hi
    have h := BitVec.getLsbD_append (x := flitCrc low payload tag) (y := low) (i := 32 + i)
    simpa [makeFlit, BitVec.getLsbD_extractLsb', hi, show ¬(32 + i < 32) by omega] using h
  unfold flitCrcOk
  rw [h, flitBits_make]
  simp [makeFlit]

/-- A packet for this device, whose endpoints run, is served in the state without it. -/
theorem State.arrive_served {s : State} {p : Packet} (f : State → State) (h : s.portsOff = false) (hd : p.dst = s.device) (hw : s.mustWait p = false) :
    s.arrive p f = conclude (f { s with outbox := if p.src = s.device then s.outbox.erase p else s.outbox, inbox := s.inbox.erase p }) := by
  simp [State.arrive, State.isHere, h, hd, hw]

end Sys2Proof.Machine
end

