-- ==== Sys2Proof/Tests/Slice0.lean ====
section
/-! SUPPORT. Tests of the model, and witnesses for the hypotheses of the obligations. Expected values come from the spec's tables, listings and rules. -/

namespace Sys2Proof.Tests

set_option Elab.async false

open Machine

/-! ### Words: the listings of the spec's chapters 5 and 7 to 10, written out field by field (R79, R85 to R89) -/

abbrev v (n : BitVec 8) : Operand := .vec n false 0
abbrev s (n : BitVec 5) : Operand := .uni n 0
abbrev h (n : BitVec 15) : Operand := .imm n
abbrev o : Operand := .none

/-- The fields of a word: MOD, the three operands, SETF and GUARD; DIST, WAIT and YLD 0. -/
def f (mod : BitVec 8) (opd opa opb : Operand) (setf : BitVec 4 := 15) (guard : BitVec 4 := 7) : Insn :=
  { mod, guard, opd, opa, opb, dist := 0, wait := 0, setf, yld := false }

/-- A word (word 2, word 1, word 0) decodes to the instruction, and the instruction encodes to the word. -/
def reads (p : (BitVec 32 × BitVec 32 × BitVec 32) × Instr) : Bool :=
  let w := ofWords p.1.1 p.1.2.1 p.1.2.2
  (match decode w with | .ok i => decide (i = p.2) | .error _ => false) && decide (encode p.2 = some w)

/-- Words of chapter 5 (R99). -/
def words_nop : List ((BitVec 32 × BitVec 32 × BitVec 32) × Instr) :=
  [((0x00007000, 0x00000000, 0x0000003C), .nop (f 0x00 o o o))]

theorem test_decode_nop : words_nop.all reads = true := by decide +kernel

/-- Words of chapter 7. -/
def words_compute : List ((BitVec 32 × BitVec 32 × BitVec 32) × Instr) := List.flatten [
  [((0x01807002, 0x00010000, 0x0000003C), .mov (f 0x80 (v 1) (v 2) o)),
   ((0x02807018, 0x03891A15, 0x9E00003C), .movl (f 0x80 (v 12) (.lit 0x12345678) o)),
   ((0x03847002, 0x00010000, 0x6000003C), .sel (f 0x84 (v 1) (v 2) (v 3))),
   ((0x04487008, 0x00028000, 0xC000003C), .iadd (f 0x48 (v 4) (v 5) (v 6))),
   ((0x05187008, 0x00028000, 0xC000003C), .isub (f 0x18 (v 4) (v 5) (v 6))),
   ((0x06007008, 0x00028000, 0xC000003C), .imul (f 0x00 (v 4) (v 5) (v 6))),
   ((0x07107008, 0x00028000, 0xC000003C), .imulh (f 0x10 (v 4) (v 5) (v 6))),
   ((0x08207008, 0x00030001, 0x0000003C), .imad (f 0x20 (v 4) (v 6) (v 8)))],
  [((0x09607008, 0x00028000, 0xC000003C), .imin (f 0x60 (v 4) (v 5) (v 6))),
   ((0x0A507008, 0x00028000, 0xC000003C), .imax (f 0x50 (v 4) (v 5) (v 6))),
   ((0x0B087008, 0x00028000, 0x0000003C), .iabs (f 0x08 (v 4) (v 5) o)),
   ((0x0C007008, 0x00028000, 0x0000003C), .ineg (f 0x00 (v 4) (v 5) o)),
   ((0x0D707008, 0x00028000, 0xC000003C), .isad (f 0x70 (v 4) (v 5) (v 6))),
   ((0x0E807008, 0x00028000, 0xC040003C), .and (f 0x80 (v 4) (v 5) (.vec 6 false 1))),
   ((0x0F807008, 0x00028000, 0xC000003C), .or (f 0x80 (v 4) (v 5) (v 6))),
   ((0x10807008, 0x000280C0, 0x1FC0003C), .xor (f 0x80 (v 4) (v 5) (h 0x7F)))],
  [((0x11807008, 0x00028000, 0xC000003C), .andn (f 0x80 (v 4) (v 5) (v 6))),
   ((0x12807008, 0x00028000, 0x0000003C), .not (f 0x80 (v 4) (v 5) o)),
   ((0x13807008, 0x000280C0, 0x00C0003C), .shl (f 0x80 (v 4) (v 5) (h 0x3))),
   ((0x14307008, 0x00030001, 0x0000003C), .shr (f 0x30 (v 4) (v 6) (v 8))),
   ((0x15807008, 0x00028000, 0xC000003C), .sar (f 0x80 (v 4) (v 5) (v 6))),
   ((0x16807008, 0x000280C0, 0x0200003C), .rotl (f 0x80 (v 4) (v 5) (h 0x8))),
   ((0x17007008, 0x000280C2, 0x0100003C), .bfx (f 0x00 (v 4) (v 5) (h 0x804))),
   ((0x18807008, 0x000280C2, 0x0100003C), .bfi (f 0x80 (v 4) (v 5) (h 0x804)))],
  [((0x19807008, 0x00028000, 0x0000003C), .popc (f 0x80 (v 4) (v 5) o)),
   ((0x1A307008, 0x00030000, 0x0000003C), .clz (f 0x30 (v 4) (v 6) o)),
   ((0x1B807008, 0x00028000, 0x0000003C), .brev (f 0x80 (v 4) (v 5) o)),
   ((0x1C027402, 0x00028000, 0xC000003C), .icmp (f 0x02 (.pred 1 false) (v 5) (v 6))),
   ((0x1D127008, 0x00030001, 0x0000003C), .lea (f 0x12 (v 4) (v 6) (v 8))),
   ((0x1E807008, 0x000300C0, 0x48C0003C), .bpick (f 0x80 (v 4) (v 6) (h 0x123))),
   ((0x1FAC7008, 0x00028000, 0xC000003C), .bmix (f 0xAC (v 4) (v 5) (v 6))),
   ((0x20607008, 0x00028000, 0xC000003C), .idot4 (f 0x60 (v 4) (v 5) (v 6)))],
  [((0x21307404, 0x00030001, 0x0000003C), .par (f 0x30 (.pred 2 false) (v 6) (v 8))),
   ((0x40907008, 0x00028000, 0xC000003C), .fadd (f 0x90 (v 4) (v 5) (v 6))),
   ((0x41917008, 0x00028000, 0xC000003C), .fsub (f 0x91 (v 4) (v 5) (v 6))),
   ((0x42987008, 0x00028000, 0xC000003C), .fmul (f 0x98 (v 4) (v 5) (v 6))),
   ((0x43907008, 0x00028000, 0xC000003C), .ffma (f 0x90 (v 4) (v 5) (v 6))),
   ((0x44907008, 0x00028000, 0xC080003C), .fmin (f 0x90 (v 4) (v 5) (.vec 6 false 2))),
   ((0x45907008, 0x00028000, 0xC000003C), .fmax (f 0x90 (v 4) (v 5) (v 6))),
   ((0x46927402, 0x00028000, 0xC000003C), .fcmp (f 0x92 (.pred 1 false) (v 5) (v 6)))],
  [((0x47907008, 0x00028000, 0x0000003C), .frcp (f 0x90 (v 4) (v 5) o)),
   ((0x48907008, 0x00028000, 0x0000003C), .frsq (f 0x90 (v 4) (v 5) o)),
   ((0x49927008, 0x00028000, 0x0000003C), .fsqrt (f 0x92 (v 4) (v 5) o)),
   ((0x4A907008, 0x00028000, 0x0000003C), .fexp2 (f 0x90 (v 4) (v 5) o)),
   ((0x4B907008, 0x00028000, 0x0000003C), .flog2 (f 0x90 (v 4) (v 5) o)),
   ((0x4C907008, 0x00028000, 0x0000003C), .ftanh (f 0x90 (v 4) (v 5) o)),
   ((0x4D907402, 0x000280C0, 0x8100003C), .fclass (f 0x90 (.pred 1 false) (v 5) (h 0x204))),
   ((0x4E907008, 0x00028000, 0xC000003C), .fscalb (f 0x90 (v 4) (v 5) (v 6)))],
  [((0x4FB87008, 0x000280C0, 0x0240003C), .cvt (f 0xB8 (v 4) (v 5) (h 0x9))),
   ((0x50A07008, 0x00028000, 0xC000003C), .bfma2 (f 0xA0 (v 4) (v 5) (v 6))),
   ((0x51A07008, 0x00028000, 0xC000003C), .badd2 (f 0xA0 (v 4) (v 5) (v 6))),
   ((0x52A17008, 0x00028000, 0xC000003C), .bmul2 (f 0xA1 (v 4) (v 5) (v 6))),
   ((0x53937008, 0x00028000, 0x0000003C), .frnd (f 0x93 (v 4) (v 5) o)),
   ((0x70007402, 0x01010040, 0x6040003C), .plop (f 0x00 (.pred 1 false) (.pred 2 false) (.pred 3 true))),
   ((0x71017402, 0x01020000, 0x0000003C), .poll (f 0x01 (.pred 1 false) (.pred 4 false) o)),
   ((0x72827000, 0x00000000, 0x8000003C), .lxch (f 0x82 o (v 0) (v 4)))],
  [((0x73817008, 0x000280C0, 0x0040003C), .lshf (f 0x81 (v 4) (v 5) (h 0x1))),
   ((0x74807008, 0x000280C0, 0x0000003C), .lbcast (f 0x80 (v 4) (v 5) (h 0x0))),
   ((0x75907008, 0x00028000, 0x0000003C), .lred (f 0x90 (v 4) (v 5) o)),
   ((0x76807008, 0x00028000, 0xC000003C), .rdlane (f 0x80 (v 4) (v 5) (v 6))),
   ((0x77037A02, 0x03000300, 0x0000003C), .xset (f 0x03 (.xreg 1 0) (h 0x3) o)),
   ((0x78047008, 0x02808000, 0x0000003C), .xget (f 0x04 (v 4) (.xreg 1 0) o)),
   ((0x79007A02, 0x037FFE00, 0x0000003C), .xadv (f 0x00 (.xreg 1 0) (h 0x7FFE) o))]]

theorem test_decode_compute : words_compute.all reads = true := by decide +kernel

/-- Words of chapter 8. -/
def words_control : List ((BitVec 32 × BitVec 32 × BitVec 32) × Instr) := List.flatten [
  [((0x80007000, 0x037FFD00, 0x0000003C), .bra (f 0x00 o (h 0x7FFD) o)),
   ((0x80001000, 0x03000500, 0x0000003C), .bra (f 0x00 o (h 0x5) o 15 1)),
   ((0x81007000, 0x00020000, 0x0000003C), .brx (f 0x00 o (v 4) o)),
   ((0x82007014, 0x03001400, 0x0000003C), .call (f 0x00 (v 10) (h 0x14) o)),
   ((0x83007000, 0x00050000, 0x0000003C), .ret (f 0x00 o (v 10) o)),
   ((0x84007000, 0x00000000, 0x0000003C), .exit (f 0x00 o o o)),
   ((0x85007000, 0x00000000, 0x0000003C), .yield (f 0x00 o o o)),
   ((0x86007000, 0x000800C0, 0x00800008), .spawn (f 0x00 o (v 16) (h 0x2) 2))],
  [((0x87007000, 0x03000700, 0x0000003C), .trap (f 0x00 o (h 0x7) o)),
   ((0x88017000, 0x00000000, 0x0000003C), .tret (f 0x01 o o o)),
   ((0x89007000, 0x008100C0, 0x3000003C), .barinit (f 0x00 o (s 2) (h 0xC0))),
   ((0x8A00700E, 0x00810000, 0x0000003C), .bararr (f 0x00 (v 7) (s 2) o)),
   ((0x8A01700E, 0x00810020, 0x6000003C), .bararr (f 0x01 (v 7) (s 2) (s 3))),
   ((0x8B007000, 0x00810000, 0xE000003C), .barwait (f 0x00 o (s 2) (v 7))),
   ((0x8C007406, 0x00810000, 0xE000003C), .bartest (f 0x00 (.pred 3 false) (s 2) (v 7))),
   ((0x8D007000, 0x00000000, 0x0000003C), .gsync (f 0x00 o o o))],
  [((0x8E00720A, 0x00820000, 0x0000003C), .mbxputRsv (f 0x00 (s 5) (s 4) o)),
   ((0x8E017000, 0x00820020, 0xA000003C), .mbxputPub (f 0x01 o (s 4) (s 5))),
   ((0x8F00720C, 0x00820000, 0x0000003C), .mbxgetTake (f 0x00 (s 6) (s 4) o)),
   ((0x8F017000, 0x00820020, 0xC000003C), .mbxgetRel (f 0x01 o (s 4) (s 6))),
   ((0x90007000, 0x030001C0, 0x0100003C), .quota (f 0x00 o (h 0x1) (h 0x4))),
   ((0x910B7008, 0x00000000, 0x0000003C), .rdsys (f 0x0B (v 4) o o)),
   ((0x92087000, 0x03000000, 0x0000003C), .wrsys (f 0x08 o (h 0x0) o)),
   ((0x93007010, 0x00000000, 0x0000003C), .clock (f 0x00 (v 8) o o))],
  [((0x94007404, 0x030006C0, 0xFA00003C), .waitf (f 0x00 (.pred 2 false) (h 0x6) (h 0x3E8))),
   ((0x95007000, 0x00840000, 0x00000014), .cancel (f 0x00 o (s 8) o 5)),
   ((0x96007000, 0x00850021, 0x80000010), .enq (f 0x00 o (s 10) (s 12) 4)),
   ((0x97007000, 0x03000100, 0x0000003C), .bkpt (f 0x00 o (h 0x1) o)),
   ((0x98017000, 0x00810020, 0x6000003C), .replay (f 0x01 o (s 2) (s 3)))]]

theorem test_decode_control : words_control.all reads = true := by decide +kernel

/-- Words of chapter 9. -/
def words_memory : List ((BitVec 32 × BitVec 32 × BitVec 32) × Instr) := List.flatten [
  [((0xA0447012, 0x000300C0, 0x1000003C), .ld (f 0x44 (v 9) (v 6) (h 0x40))),
   ((0xA0857014, 0x008201C0, 0x0000003C), .ld (f 0x85 (v 10) (.uni 4 1) (h 0x0))),
   ((0xA1047012, 0x000300C0, 0x1000003C), .st (f 0x04 (v 9) (v 6) (h 0x40))),
   ((0xA2067020, 0x008100C0, 0x4000003C), .ldl (f 0x06 (v 16) (s 2) (h 0x100))),
   ((0xA3027006, 0x000100C0, 0x0080003C), .stl (f 0x02 (v 3) (v 2) (h 0x2))),
   ((0xA4067010, 0x00030020, 0x40000004), .ldgl (f 0x06 (v 8) (v 6) (s 2) 1)),
   ((0xA5887008, 0x00030000, 0xA000003C), .atom (f 0x88 (v 4) (v 6) (v 5))),
   ((0xA5DF7010, 0x00820201, 0x4000003C), .atom (f 0xDF (v 8) (.uni 4 2) (v 10)))],
  [((0xA6727008, 0x00810100, 0xA000003C), .atoml (f 0x72 (v 4) (.uni 2 1) (v 5))),
   ((0xA7907000, 0x00030300, 0xA000003C), .red (f 0x90 o (.vec 6 false 3) (v 5))),
   ((0xA8A4700A, 0x00030021, 0x80000008), .mcst (f 0xA4 (v 5) (v 6) (s 12) 2)),
   ((0xA9B0700A, 0x00030021, 0x80000008), .redst (f 0xB0 (v 5) (v 6) (s 12) 2)),
   ((0xAA007000, 0x000300C0, 0x4000003C), .pref (f 0x00 o (v 6) (h 0x100))),
   ((0xAB907000, 0x00000000, 0x0000003C), .fence (f 0x90 o o o)),
   ((0xAB897000, 0x00000000, 0x0000003C), .fence (f 0x89 o o o)),
   ((0xAC807000, 0x00000000, 0x0000000C), .fencex (f 0x80 o o o 3))],
  [((0xAD407000, 0x00000000, 0x0000003C), .oprdy (f 0x40 o o o)),
   ((0xAE007010, 0x000300C0, 0x0040003C), .vdup (f 0x00 (v 8) (v 6) (h 0x1))),
   ((0xAF007000, 0x00030001, 0x4000003C), .vnarrow (f 0x00 o (v 6) (v 10))),
   ((0xB0007000, 0x00820000, 0x00000000), .vdrop (f 0x00 o (s 4) o 0)),
   ((0xB1017010, 0x00030000, 0x0000003C), .vqry (f 0x01 (v 8) (v 6) o))]]

theorem test_decode_memory : words_memory.all reads = true := by decide +kernel

/-- Words of chapter 10. -/
def words_tensor : List ((BitVec 32 × BitVec 32 × BitVec 32) × Instr) := List.flatten [
  [((0xD0007000, 0x00820000, 0x00000004), .wload (f 0x00 o (s 4) o 1)),
   ((0xD0247000, 0x00830000, 0x0000003C), .wload (f 0x24 o (s 6) o)),
   ((0xD1007800, 0x00100000, 0x00000008), .mma (f 0x00 (.acc 0) (v 32) o 2)),
   ((0xD15C7802, 0x00820021, 0x0000000C), .mma (f 0x5C (.acc 1) (s 4) (s 8) 3)),
   ((0xD2007800, 0x00000000, 0x0000003C), .accz (f 0x00 (.acc 0) o o)),
   ((0xD2017804, 0x00000000, 0x0000003C), .accz (f 0x01 (.acc 2) o o)),
   ((0xD3017080, 0x020080C0, 0x08000010), .accrd (f 0x01 (v 64) (.acc 1) (h 0x20) 4)),
   ((0xD4007800, 0x000400C0, 0x0400003C), .accwr (f 0x00 (.acc 0) (v 8) (h 0x10)))],
  [((0xD54C7050, 0x02000021, 0x80000014), .accdr (f 0x4C (v 40) (.acc 0) (s 12) 5)),
   ((0xD6407802, 0x00820000, 0x00000004), .accld (f 0x40 (.acc 1) (s 4) o 1)),
   ((0xD7057028, 0x02000020, 0x6000003C), .rowmax (f 0x05 (v 20) (.acc 0) (s 3))),
   ((0xD801702A, 0x02000003, 0x00000018), .rowexp (f 0x01 (v 21) (.acc 0) (v 24) 6)),
   ((0xD902702C, 0x02008003, 0x8000001C), .rowsc (f 0x02 (v 22) (.acc 1) (v 28) 7)),
   ((0xD9017000, 0x02000002, 0xE000003C), .rowsc (f 0x01 o (.acc 0) (v 23))),
   ((0xDA007600, 0x01800020, 0x80000000), .place (f 0x00 (.tile 0) (.tile 0) (s 4) 0)),
   ((0xDA017602, 0x01800020, 0xC0000004), .place (f 0x01 (.tile 1) (.tile 0) (s 6) 1))],
  [((0xDB407012, 0x01800000, 0xC0000008), .tld (f 0x40 (v 9) (.tile 0) (v 6) 2)),
   ((0xDC007012, 0x01800000, 0xC000003C), .tst (f 0x00 (v 9) (.tile 0) (v 6))),
   ((0xDD007604, 0x00820000, 0x0000003C), .tdset (f 0x00 (.tile 2) (s 4) o)),
   ((0xDE007000, 0x01810020, 0x8000003C), .tdget (f 0x00 o (.tile 2) (s 4))),
   ((0xDF007014, 0x01800000, 0xC000003C), .locof (f 0x00 (v 10) (.tile 0) (v 6))),
   ((0xE0017402, 0x00840000, 0x8000000C), .optaw (f 0x01 (.pred 1 false) (s 8) (v 4) 3)),
   ((0xE1007018, 0x00830000, 0x8000003C), .statst (f 0x00 (v 12) (s 6) (v 4))),
   ((0xE2407018, 0x00830000, 0x80000004), .statld (f 0x40 (v 12) (s 6) (v 4) 1))],
  [((0xE3807404, 0x00850040, 0x60000010), .lscale (f 0x80 (.pred 2 false) (s 10) (.pred 3 false) 4)),
   ((0xE4007000, 0x00830000, 0x00000004), .cpkick (f 0x00 o (s 6) o 1)),
   ((0xE5027000, 0x03000300, 0x0000003C), .chainBind (f 0x02 o (h 0x3) o)),
   ((0xE5407000, 0x03000300, 0x0000003C), .chainUnbind (f 0x40 o (h 0x3) o))]]

theorem test_decode_tensor : words_tensor.all reads = true := by decide +kernel

/-! ### Ill-formed terms, one for each check of `Instr.wf`, and words that are no instruction (R83 step 2) -/

theorem test_wf_accepts : (Instr.iadd (f 0x48 (v 4) (v 5) (v 6))).wf = true := by decide +kernel
/-- Type 9 is no integer type. -/
theorem test_wf_refuses_mod : (Instr.iadd (f 0x90 (v 4) (v 5) (v 6))).wf = false := by decide +kernel
/-- A predicate is no destination of IADD. -/
theorem test_wf_refuses_opd : (Instr.iadd (f 0x48 (.pred 1 false) (v 5) (v 6))).wf = false := by decide +kernel
/-- A literal stands only where OPB is not read (R89). -/
theorem test_wf_refuses_opa : (Instr.iadd (f 0x48 (v 4) (.lit 7) (v 6))).wf = false := by decide +kernel
/-- BRA uses no OPB. -/
theorem test_wf_refuses_opb : (Instr.bra (f 0 o (h 5) (v 1))).wf = false := by decide +kernel
/-- A literal in OPA takes OPB's bits (R89). -/
theorem test_wf_refuses_literal_beside_opb : (Instr.mov (f 0x80 (v 1) (.lit 7) (v 2))).wf = false := by decide +kernel
/-- CVT from a type to itself (R137). -/
theorem test_wf_refuses_extra : (Instr.cvt (f 0x90 (v 4) (v 5) (h 9))).wf = false := by decide +kernel
/-- OPRDY is collective: no guard but pT (R201). -/
theorem test_wf_refuses_guard : (Instr.oprdy (f 0x40 o o o 15 1)).wf = false := by decide +kernel
theorem test_wf_refuses_setf : (Instr.nop (f 0 o o o 12)).wf = false := by decide +kernel
/-- MBXPUT.RSV's constructor with MBXPUT.PUB's MOD. -/
theorem test_wf_refuses_sub : (Instr.mbxputRsv (f 1 o (s 4) (s 5))).wf = false := by decide +kernel

def noInstr (a b c : BitVec 32) : Bool := match decode (ofWords a b c) with
  | .ok _ => false
  | .error _ => true

/-- Opcode 0x22 is reserved (R98), bit 0 must be 0 (R79), a class 2 operand's bits [14:10] must be 0 (R85), NOP uses no operand (R99). -/
theorem test_decode_refuses : noInstr 0x22007000 0 0x3C = true ∧ noInstr 0x00007000 0 0x3D = true ∧ noInstr 0x70007442 0x01010040 0x6040003C = true ∧
    noInstr 0x00007002 0 0x3C = true := by decide +kernel
/-- The host's numbering: word 0 holds bits 31 to 0. -/
theorem test_decode_table_word : decodeTableWord 96 0x01807002000100000000003C = some (.mov (f 0x80 (v 1) (v 2) o)) := by decide +kernel

/-! ### Instructions that pass the checks of R83 -/

/-- Right after power-good, with one program of this word in place. -/
def placed (p : BitVec 32 × BitVec 32 × BitVec 32) : State := State.reset.withFetchWord 96 (ofWords p.1 p.2.1 p.2.2).toNat

/-- The selected issue group passes the checks of an instruction in some lanes. -/
def passes (s : State) (i : Instr) : Bool := match s.issue, i.word? with
  | some ig, some (_, f) => decide (s.broken = none) && decide (s.debug = .none) && (match s.taken.checks ig i f with
    | .go act => !act.isEmpty
    | _ => false)
  | _, _ => false

theorem admits_of {s : State} {i : Instr} (h : passes s i = true) : ∃ f ig act, Admits s i f ig act := by
  unfold passes at h
  split at h
  · rename_i ig _ f h1 h2
    simp only [Bool.and_eq_true, decide_eq_true_eq] at h
    split at h
    · rename_i act h3
      exact ⟨f, ig, act, h1, h3, by simpa using h.2, h.1.1, h.1.2⟩
    · simp at h
  · simp at h

/-- The words of a list that name no region or tile but number 0, no predicate guard and no privilege. -/
def plain (ws : List ((BitVec 32 × BitVec 32 × BitVec 32) × Instr)) : List ((BitVec 32 × BitVec 32 × BitVec 32) × Instr) :=
  ws.filter fun p => match p.2.word? with
    | some (opc, g) => opc != 0x98 && g.guard == 7 && [g.opd, g.opa].all fun (q : Operand) => match q with
      | .acc n | .tile n => n == 0
      | _ => true
    | none => false

theorem wit_admits_compute : ((words_nop ++ words_compute).all fun p => passes (placed p.1) p.2) = true := by decide +kernel
theorem wit_admits_control : ((plain words_control).all fun p => passes (placed p.1) p.2) = true := by decide +kernel
theorem wit_admits_memory : (words_memory.all fun p => passes (placed p.1) p.2) = true := by decide +kernel
theorem wit_admits_tensor : ((plain words_tensor).all fun p => passes (placed p.1) p.2) = true := by decide +kernel

/-! ### A small machine: block 0 of launch 1 on core 0, home group 0 with lanes 0 and 1, the word next for both -/

def fieldsOf (i : Instr) : Insn := (i.word?.getD (0, f 0 o o o)).2
def lanes (s : State) (i : Instr) : List Thread := match s.issue with
  | some ig => match s.taken.checks ig i (fieldsOf i) with
    | .go act => act
    | _ => []
  | none => []
def ig0 : IssueGroup := ⟨0, 0, 1, 0, [⟨programKey, 0, 0⟩, ⟨programKey, 0, 1⟩]⟩
/-- The execution context, and the state, in which its effect is computed. -/
def ex (s : State) (i : Instr) : Exec := s.about i (fieldsOf i) (s.issue.getD ig0) (lanes s i)
def us (s : State) (i : Instr) : State := s.acting (ex s i)

def tid (l : Nat) : Tid := ⟨programKey, 0, l⟩
def thr (l : Nat) : Thread := { tid := tid l, home := 0, pc := 0 }
def lab : State :=
  let t := State.reset.withFetchWord 96 0x00007000000000000000003C
  { t with
    issue := some ig0, threads := [thr 0, thr 1]
    blocks := [{ programBlock with threads := 2, regions := 2, tiles := 4 }], regions := [{ block := programKey, index := 0 }, { block := programKey, index := 1 }]
    launches := [{ programLaunch with header := { programHeader with threads := 2, regions := 2, tiles := 4 } }]
    groups := [{ programGroup with alloc := 128 }] }
/-- The machine with a uniform register set. -/
def withUni (s : State) (r : Nat) (w : Word) : State := s.setCell (.uni 0 r) w
/-- With a vector register set in both lanes. -/
def withBoth (s : State) (r : Nat) (w : Word) : State := (s.setCell (.vec 0 r 0) w).setCell (.vec 0 r 1) w
/-- With the threads changed. -/
def eachThread (s : State) (g : Thread → Thread) : State := { s with threads := s.threads.map g }

theorem wit_lab_sound : lab.sound = true ∧ lab.storesWf = true := by decide +kernel

/-! Fetching, memory (R10, R80, R81). -/

/-- The last word of a program of one instruction; one byte on; one instruction on. -/
theorem wit_FetchChecks : lab.launch? 1 = some { programLaunch with header := { programHeader with threads := 2, regions := 2, tiles := 4 } } ∧
    (lab.codeWord { programLaunch with header := programHeader } 0).isSome = true ∧ (lab.codeWord { programLaunch with header := programHeader } 8).isSome = true ∧
    lab.fetch 1 1 = .trap Cause.align 0 ∧ lab.fetch 1 4 = .trap Cause.illop 4 := by decide +kernel
theorem wit_StepRunsDecoded : ∃ w i, lab.elapse.fetch 1 0 = .word w ∧ decode w = .ok i := ⟨0x00007000000000000000003C, .nop (f 0 o o o), by decide +kernel, rfl⟩
theorem wit_StepRunsDecoded_refused : ∃ w e, (placed (0x22007000, 0, 0x3C)).elapse.fetch 1 0 = .word w ∧ decode w = .error e :=
  ⟨0x22007000000000000000003C, .reservedOpcode, by decide +kernel, rfl⟩
theorem wit_StepRunsAgenda : { lab with issue := none, agenda := [.powerLoss] }.issue = none := rfl
theorem wit_DecodeAfterEncode : (Instr.iadd (f 0x48 (v 4) (v 5) (v 6))).wf = true ∧ encode (.iadd (f 0x48 (v 4) (v 5) (v 6))) = some (ofWords 0x04487008 0x00028000 0xC000003C) := by
  decide +kernel
/-- The last bytes of a quarter's Vault, and the first behind it. -/
theorem wit_MemoryBytes : (PAddr.vault 3 (vaultBytes - 2)).exists_ 2 = true ∧ (PAddr.vault 3 (vaultBytes - 2)).exists_ 3 = false ∧ (PAddr.cluster 0 0).exists_ 16 = true ∧
    (PAddr.pool 0).exists_ 16 = true := by decide +kernel
theorem test_write_reads_back : (lab.write (.vault 0 0x30000) [1, 2, 3]).bytes (.vault 0 0x2FFFF) 5 = [0, 1, 2, 3, 0] := by decide +kernel

/-! Rounding, special numbers (R25, R30, R131). -/

/-- 5/2 in units of 1: a tie. -/
theorem wit_RoundingCodes : (-1 : Int) < 0 ∧ 5 % 2 ^ ((0 : Int) - (-1)).toNat ≠ 0 ∧ (toUnits 0 false 5 (-1) 0).1 = 2 ∧ (toUnits 1 true 5 (-1) 0).1 = 2 ∧ (toUnits 2 false 5 (-1) 0).1 = 3 ∧
    (toUnits 3 true 5 (-1) 0).1 = 3 ∧ (toUnits 4 false 5 (-1) 0).1 = 3 := by decide +kernel
/-- −0 is below +0; a signalling NaN raises NV and the other operand is chosen. -/
theorem wit_MinimumAndMaximum : fp32.pick false 0 0x80000000 = (0x80000000, 0) ∧ fp32.pick true 0x7F800001 0x3F800000 = (0x3F800000, flagNV) ∧
    fp32.pick true 0x7FC00001 0xFFC00000 = (0x7FC00000, 0) := by decide +kernel
theorem wit_SpecialNumbers : (Fl.nan true).isNan = true ∧ (Fl.fin true 3 0).toInt 0 (-2) 7 = (-2, flagNV) ∧ (Fl.fin false 3 0).toInt 0 (-2) 7 = (3, 0) ∧
    (Fl.fin false 9 0).toInt 0 (-2) 7 = (7, flagNV) := by decide +kernel

/-! Index registers, lanes (R142 to R147). -/

def xadv : Instr := .xadv (f 0 (.xreg 1 0) (h 0x7FFE) o)
/-- A machine whose threads have this index register x1. -/
def withX1 (w : Word) : State := eachThread lab fun t => { t with xs := [0, w, 0, 0] }
def x1Mode (s : State) (i : Instr) : List (Nat × Nat) := (lanes s i).map fun th =>
  ((((us s i).xreg th 1).extractLsb' 28 2).toNat, (((us s i).xreg th 1).extractLsb' 8 8).toNat)
theorem wit_xadv_linear : passes (withX1 0) xadv = true ∧ x1Mode (withX1 0) xadv = [(0, 0), (0, 0)] := by decide +kernel
theorem wit_xadv_ring : passes (withX1 0x10000800) xadv = true ∧ x1Mode (withX1 0x10000800) xadv = [(1, 8), (1, 8)] := by decide +kernel
theorem wit_xadv_reserved_mode : passes (withX1 0x20000000) xadv = true ∧ x1Mode (withX1 0x20000000) xadv = [(2, 0), (2, 0)] := by decide +kernel
theorem wit_xadv_no_bound : passes (withX1 0x10000000) xadv = true ∧ x1Mode (withX1 0x10000000) xadv = [(1, 0), (1, 0)] := by decide +kernel
theorem wit_xset : ∃ j m, (fieldsOf (.xset (f 3 (.xreg 1 0) (h 3) o))).opd = .xreg j m := ⟨1, 0, rfl⟩
theorem wit_xget : ∃ j m, (fieldsOf (.xget (f 4 (v 4) (.xreg 1 0) o))).opa = .xreg j m := ⟨1, 0, rfl⟩

def lxch : Instr := .lxch (f 0x80 o (v 0) (v 4))
/-- Its partner's register is full in both lanes. -/
theorem wit_LaneMoves_lxch : passes lab lxch = true ∧ ((lanes lab lxch).all fun th =>
    ((us lab lxch).supply { th.tid with lane := th.tid.lane ^^^ 1 } (lxchOwn (fieldsOf lxch) (th.tid.lane ^^^ 1))).isSome) = true := by decide +kernel
def lshf : Instr := .lshf (f 0x81 (v 4) (v 5) (h 1))
def lbcast : Instr := .lbcast (f 0x80 (v 4) (v 5) (h 0))
def rdlane : Instr := .rdlane (f 0x80 (v 4) (v 5) (v 6))
def fullIn (s : State) (i : Instr) (src : Thread → Tid) : Bool := passes s i && (lanes s i).all fun th => ((us s i).supply (src th) ⟨0, (fieldsOf i).opa, 1, true, false⟩).isSome
theorem wit_LaneMoves_lshf : fullIn lab lshf (fun th => { th.tid with lane := th.tid.lane + 1 }) = true := by decide +kernel
theorem wit_LaneMoves_lbcast : fullIn lab lbcast (fun th => { th.tid with lane := 0 }) = true := by decide +kernel
theorem wit_LaneMoves_rdlane : fullIn lab rdlane (fun th => { th.tid with lane := 0 }) = true ∧ ((lanes lab rdlane).all fun th => (us lab rdlane).src th (v 6) 1 / 128 % 8 == th.tid.group) = true := by
  decide +kernel
theorem wit_ReductionScans : (∀ a b c : Nat, (a + b) + c = a + (b + c)) ∧ (List.range 128).length = 128 ∧ (lredScan (· + ·) (List.range 128)).getD 127 0 = 8128 :=
  ⟨Nat.add_assoc, rfl, by decide +kernel⟩
theorem wit_lred_add : Forms.ty (fieldsOf (.lred (f 0x00 (v 4) (v 5) o))).mod ≠ 9 ∧ passes lab (.lred (f 0x00 (v 4) (v 5) o)) = true := by decide +kernel

/-! Destinations (R46, R86, R117). -/

/-- A destination pair at the top of the file, and a uniform pair at its end. -/
theorem wit_Destinations : lab.regNo (thr 0) (v 254) + 2 ≤ 256 ∧ (lab.thread? (tid 0)).isSome = true ∧ (s 22 = .uni 22 0 ∧ (22 : BitVec 5).toNat < 31) ∧ (thr 0).xs.length = 4 := by decide +kernel

/-! Traps and control flow (R151 to R160). -/

def trapAt (c : BitVec 6) : Trap := { cause := c, infos := [(tid 0, 5), (tid 1, 5)] }
/-- A kernel whose handler takes TRAPI. -/
def handled : State := { lab with launches := [{ programLaunch with header := { programHeader with threads := 2, trapMask := BitVec.ofNat 32 (2 ^ Cause.trapi.toNat), handler := 0 } }] }
theorem wit_HandlerEntry : handled.handled ig0 Cause.trapi = true ∧ (handled.takeTrap ig0 (trapAt Cause.trapi)).threads.map (fun t => (t.handler, t.trapInfo)) = [(true, 5), (true, 5)] := by decide +kernel
theorem wit_TrapsWithoutHandler_cancel : lab.handled ig0 Cause.cancel = false ∧ (lab.takeTrap ig0 (trapAt Cause.cancel)).threads.map (·.life) = [.exited, .exited] := by decide +kernel
theorem wit_TrapsWithoutHandler_fault : lab.handled ig0 Cause.trapi = false ∧ ((lab.ctx? 0).map fun c => c.fault) = some none ∧
    (((lab.takeTrap ig0 (trapAt Cause.trapi)).ctx? 0).bind (·.fault)).map (·.reason) = some (Cause.trapi.setWidth 8) := by decide +kernel
/-- A trap in a handler. -/
theorem wit_TrapsWithoutHandler_twice : (eachThread handled fun t => { t with handler := true }).handled ig0 Cause.trapi = false := by decide +kernel
theorem wit_TrapInstruction : (Instr.trap (f 0 o (h 7) o)).wf = true ∧ passes lab (.trap (f 0 o (h 7) o)) = true := by decide +kernel
theorem wit_ReturnFromTrap : (Instr.tret (f 1 o o o)).wf = true ∧ passes lab (.tret (f 1 o o o)) = true ∧ (lanes lab (.tret (f 1 o o o))).map (·.handler) = [false, false] := by decide +kernel
theorem wit_ReturnFromTrap_in_handler : passes (eachThread lab fun t => { t with handler := true }) (.tret (f 1 o o o)) = true ∧
    (lanes (eachThread lab fun t => { t with handler := true }) (.tret (f 1 o o o))).map (·.handler) = [true, true] ∧ (lab.threads.map (·.tid)).Nodup := by decide +kernel
theorem wit_RelativeBranch : (Instr.bra (f 0 o (h 5) o)).wf = true ∧ passes lab (.bra (f 0 o (h 5) o)) = true := by decide +kernel
theorem wit_Branches : passes lab (.call (f 0 (v 10) (h 0x14) o)) = true ∧ passes lab (.call (f 1 (v 10) (v 4) o)) = true ∧ (lab.thread? (tid 1)).isSome = true := by decide +kernel
theorem wit_exit : passes lab (.exit (f 0 o o o)) = true ∧ ((us lab (.exit (f 0 o o o))).core 0).outstanding = [] ∧ (lab.block? programKey).isSome = true := by decide +kernel
theorem wit_bkpt : passes lab (.bkpt (f 0 o (h 1) o)) = true := by decide +kernel
def stopping : State := { lab with debug := .invasive, ctxs := [{ programCtx with breakStops := true }] }
theorem wit_bkpt_stops : stopping.breakStopsOn 0 = true ∧ stopping.taken.checks ig0 (.bkpt (f 0 o (h 1) o)) (f 0 o (h 1) o) = .go stopping.threads ∧
    (match exec (.bkpt (f 0 o (h 1) o)) stopping with
      | .next t => t.threads.map (·.stopped)
      | _ => []) = [true, true] := by decide +kernel
/-- Lane 0 alone is not an operand of an increment. -/
theorem wit_IssueFrame : (lab.thread? (tid 0)).isSome = true := by decide +kernel

/-! Barriers, GSYNC, QUOTA, mailboxes (R161 to R168). -/

def barinit : Instr := .barinit (f 0 o (s 2) (h 192))
theorem wit_barinit : passes lab barinit = true ∧ (us lab barinit).ownBusy (ex lab barinit) ((lanes lab barinit).map fun th => (th, 0)) 16 = false ∧
    ((lanes lab barinit).map fun th => ((us lab barinit).localAddr th (s 2), ((us lab barinit).src32 th (h 192)).toNat)) = [(0, 192), (0, 192)] ∧
    (lab.block? programKey).map (fun b => (b.ownsLocal 0 16, b.barIndex 0)) = some (true, none) := by decide +kernel
/-- Counts 1 and 1024 are the ends of BARINIT's range. -/
theorem wit_barinit_counts : passes lab (.barinit (f 0 o (s 2) (h 1))) = true ∧ passes lab (.barinit (f 0 o (s 2) (h 1024))) = true := by decide +kernel
def barred : State := lab.initBar programKey 0 2
def bararr : Instr := .bararr (f 0 (v 7) (s 2) o)
def bararrTx : Instr := .bararr (f 1 (v 7) (s 2) (s 3))
theorem wit_bararr : passes barred bararr = true ∧ (barred.block? programKey).bind (·.barIndex 0) = some 0 ∧ (us barred bararr).releaseWait 0 [tid 0, tid 1] false = false ∧
    ((us barred bararr).bar 0 0).arrived + (lanes barred bararr).length ≤ ((us barred bararr).bar 0 0).expected := by decide +kernel
theorem wit_bararr_tx : passes (withUni barred 3 16) bararrTx = true ∧ (lanes (withUni barred 3 16) bararrTx).map (fun th => ((us (withUni barred 3 16) bararrTx).src32 th (s 3)).toNat) = [16, 16] := by decide +kernel
/-- The phase completes on the second arrival: the next is 1. -/
theorem test_bararr_completes : (match exec bararr barred with
    | .next t => (t.bar 0 0).phase
    | _ => 9) = 1 := by decide +kernel
def barwait : Instr := .barwait (f 0 o (s 2) (v 7))
theorem wit_barwait : passes (withBoth barred 7 1) barwait = true ∧ ((lanes (withBoth barred 7 1) barwait).map fun th => ((us (withBoth barred 7 1) barwait).barOf (th, 0)).isSome) = [true, true] ∧
    BitVec.ofNat 32 ((us (withBoth barred 7 1) barwait).bar 0 0).phase ≠ 1 := by decide +kernel
theorem wit_bartest : passes barred (.bartest (f 0 (.pred 3 false) (s 2) (v 7))) = true := by decide +kernel
theorem wit_BarrierPhases : (0 : Nat) < 192 ∧ 16 ≤ clusterBytes ∧ (⟨2, 2, 0, 7, 1, 0x8000⟩ : Bar).settle = ⟨1, 0, 0, 8, 0, 0x8000⟩ ∧ (⟨2, 1, 0, 7, 1, 0x8000⟩ : Bar).settle = ⟨2, 1, 0, 7, 1, 0x8000⟩ := by
  decide +kernel
/-- R291: a write of byte 15 meets the registered barrier at 0, whose fields are free values then; a write from byte 16 on does not. -/
theorem test_barrier_strayed : (lab.barStrayed 0 0, barred.barStrayed 0 0, (barred.storeLocal 0 15 [1]).barStrayed 0 0, (barred.storeLocal 0 16 [1]).barStrayed 0 0) =
    (false, false, true, false) := by decide +kernel
theorem wit_gsync : passes lab (.gsync (f 0 o o o)) = true ∧ (us lab (.gsync (f 0 o o o))).releaseWait 0 [tid 0, tid 1] false = false ∧ lab.threads.map (·.handler) = [false, false] := by decide +kernel
def twoGroups : State := { lab with groups := [{ programGroup with alloc := 128 }, { programGroup with index := 1, home := 1, sched := 1, alloc := 64 }] }
def quota (n : BitVec 15) : Instr := .quota (f 0 o (h 1) (h n))
/-- From 1 to 16 granules of 128 registers; no more, and not 0. -/
theorem wit_quota : [quota 1, quota 16].map (passes twoGroups) = [true, true] ∧ [quota 0, quota 17].map (passes twoGroups) = [true, true] ∧
    (twoGroups.group? programKey 0).map (·.alloc) = some 128 ∧ (twoGroups.group? programKey 1).map (·.alloc) = some 64 := by decide +kernel
def boxed (states : BitVec 128) : State := lab.putMbx 0 0 ⟨4, 0, 0, 0, 4, states⟩
def boxedFull : State := lab.putMbx 0 0 ⟨4, 0, 0, 2, 0, 0xA⟩
def rsv : Instr := .mbxputRsv (f 0 (v 5) (s 4) o)
def take : Instr := .mbxgetTake (f 0 (v 6) (s 4) o)
def pub (n : BitVec 15) : Instr := .mbxputPub (f 1 o (s 4) (h n))
def rel (n : BitVec 15) : Instr := .mbxgetRel (f 1 o (s 4) (h n))
def boxOk (s : State) (i : Instr) : Bool := passes s i && (us s i).mbxOk 0 0 && !(us s i).ownBusy (ex s i) ((lanes s i).map fun th => (th, 0)) 32
theorem wit_mbxput_rsv : boxOk (boxed 0) rsv = true ∧ ((us (boxed 0) rsv).mbx 0 0).ready false 2 = true ∧ (us (boxed 0) rsv).mbxEarlier 0 0 false (mbxTicket (ex (boxed 0) rsv)) [tid 0, tid 1] = false := by
  decide +kernel
theorem wit_mbxget_take : boxOk boxedFull take = true ∧ ((us boxedFull take).mbx 0 0).ready true 2 = true ∧
    (us boxedFull take).mbxEarlier 0 0 true (mbxTicket (ex boxedFull take)) [tid 0, tid 1] = false := by decide +kernel
/-- One lane: slot 0 is reserved, slot 1 taken. -/
def one (s : State) : State := { s with issue := some ⟨0, 0, 1, 0, [tid 0]⟩, threads := [thr 0] }
theorem wit_mbxput_pub : boxOk (one (boxed 0xD)) (pub 0) = true ∧ ((boxed 0xD).mbx 0 0).slot 0 = 1 ∧ ((boxed 0xD).mbx 0 0).slot 1 = 3 ∧ ((boxed 0xD).mbx 0 0).slots = 4 := by decide +kernel
theorem wit_mbxget_rel : boxOk (one (boxed 0xD)) (rel 1) = true ∧ boxOk (one (boxed 0xD)) (rel 4) = true := by decide +kernel

/-! ### Memory instructions: view 1 of object 1 in the core's view cache (R176 to R206) -/

def view1 : CachedView := { ctx := 0, index := 1, live := true, gen := 0, obj := 1, rights := 15, held := true, low := 0, high := 2 ^ 34 }
def seen : State := lab.modCore 0 fun c => { c with views := [view1], pool := [(0, 5), (0, 6)] }
/-- A pointer of view 1 in a vector pair, or in a uniform pair. -/
def vptr (s : State) (r off : Nat) : State := withBoth (withBoth s r (BitVec.ofNat 32 off)) (r + 1) 0x1000
def uptr (s : State) (r off : Nat) : State := withUni (withUni s r (BitVec.ofNat 32 off)) (r + 1) 0x1000
/-- The instruction goes on: every thread stands behind it. -/
def goes (s : State) (i : Instr) : Bool := match exec i s with
  | .next t => t.threads.all fun x => x.pc == 12
  | _ => false
/-- The checks of R177 of every active lane, as objects and offsets. -/
def gots (s : State) (i : Instr) (d : Int) (n al : Nat) (need : BitVec 4) : List (Option (Nat × Nat)) := (lanes s i).map fun th =>
  match (us s i).cachedView 0 0 (ptrIndex ((us s i).ptr th (fieldsOf i).opa)) with
    | some v => match checkView v ((us s i).ptr th (fieldsOf i).opa) d n al need with
      | .ok o => some (v.obj, o)
      | .error _ => none
    | none => none
/-- The bytes' ends: the last byte of the view, one past it, one before its first, misaligned, another generation, no right. -/
theorem wit_PointerChecks : (match checkView view1 0x103FFFFFFFC 0 4 4 rightR with | .ok o => o | .error _ => 0) = 0 ∧
    (match checkView view1 0x1003FFFFFFFC 0 4 4 rightR with | .ok o => o | .error _ => 0) = 0x3FFFFFFFC ∧
    (match checkView view1 0x1003FFFFFFFC 4 4 4 rightR with | .ok _ => 0 | .error c => c) = Cause.viewbound ∧
    (match checkView view1 0x100000000000 (-4) 4 4 rightR with | .ok _ => 0 | .error c => c) = Cause.viewbound ∧
    (match checkView view1 0x100000000002 0 4 4 rightR with | .ok _ => 0 | .error c => c) = Cause.align ∧
    (match checkView view1 0x110000000000 0 4 4 rightR with | .ok _ => 0 | .error c => c) = Cause.staleview ∧
    (match checkView { view1 with rights := 1 } 0x100000000000 0 4 4 rightW with | .ok _ => 0 | .error c => c) = Cause.rights ∧
    ptrIndex (mkPtr 0xFFFFF 15 0xFFFFFFFFFF) = 0xFFFFF ∧ ptrGen (mkPtr 0xFFFFF 15 0xFFFFFFFFFF) = 15 := by decide +kernel

def ld : Instr := .ld (f 0x44 (v 9) (v 6) (h 0x40))
def st : Instr := .st (f 0x04 (v 9) (v 6) (h 0x40))
def atom : Instr := .atom (f 0x88 (v 4) (v 6) (v 5))
def red : Instr := .red (f 0x90 o (v 6) (v 5))
theorem wit_ld : passes (vptr seen 6 0x30000) ld = true ∧ gots (vptr seen 6 0x30000) ld 0x40 4 4 rightR = [some (1, 0x30040), some (1, 0x30040)] ∧ goes (vptr seen 6 0x30000) ld = true ∧
    sizeBytes (Forms.low3 (fieldsOf ld).mod) = 4 := by decide +kernel
theorem wit_st : passes (vptr seen 6 0x30000) st = true ∧ gots (vptr seen 6 0x30000) st 0x40 4 4 rightW = [some (1, 0x30040), some (1, 0x30040)] ∧ goes (vptr seen 6 0x30000) st = true ∧
    ((us (vptr seen 6 0x30000) st).core 0).outstanding = [] := by decide +kernel
theorem wit_atom : passes (vptr seen 6 0x30000) atom = true ∧ gots (vptr seen 6 0x30000) atom 0 4 4 rightA = [some (1, 0x30000), some (1, 0x30000)] ∧ goes (vptr seen 6 0x30000) atom = true := by decide +kernel
theorem wit_red : passes (vptr seen 6 0x30000) red = true ∧ gots (vptr seen 6 0x30000) red 0 4 4 rightA = [some (1, 0x30000), some (1, 0x30000)] ∧ goes (vptr seen 6 0x30000) red = true := by decide +kernel
def ldl : Instr := .ldl (f 0x06 (v 16) (s 2) (h 0x100))
def stl : Instr := .stl (f 0x02 (v 3) (v 2) (h 2))
def atoml : Instr := .atoml (f 0x72 (v 4) (s 2) (v 5))
/-- The places of every active lane lie in the block's own local memory, and no operation fills them. -/
def localOk (s : State) (i : Instr) (d : Int) (n : Nat) : Bool := passes s i && (lanes s i).all fun th =>
  let a := ((us s i).localAddr th (fieldsOf i).opa + d).toNat
  a % n == 0 && (match (us s i).block? th.tid.block with
    | some b => (us s i).gangLocal b a n
    | none => false) && ((us s i).core 0).ranges.isEmpty
theorem wit_ldl : localOk lab ldl 0x100 16 = true ∧ goes lab ldl = true := by decide +kernel
theorem wit_stl : localOk lab stl 2 2 = true ∧ goes lab stl = true := by decide +kernel
theorem wit_atoml : localOk lab atoml 0 4 = true ∧ goes lab atoml = true := by decide +kernel

def pod : State := { seen with launches := [{ programLaunch with header := { programHeader with threads := 2, flags := 0xC, entryTable := 0x100, entries := [0, 12, 24] } }] }
theorem wit_fence : passes lab (.fence (f 0x90 o o o)) = true ∧ goes lab (.fence (f 0x90 o o o)) = true ∧ Forms.scope 0x90 = 4 := by decide +kernel
theorem wit_fence_thread : Forms.scope 0 = 0 ∧ passes lab (.fence (f 0x08 o o o)) = true := by decide +kernel
/-- The widest scope that needs no POD launch, the narrowest that does, on either kind of launch. -/
theorem wit_fencex : passes lab (.fencex (f 0x80 o o o)) = true ∧ goes lab (.fencex (f 0x80 o o o)) = true ∧ Forms.scope 0x80 = 4 ∧ Forms.scope 0xA0 = 5 ∧
    passes lab (.fencex (f 0xA0 o o o)) = true ∧ goes pod (.fencex (f 0xA0 o o o)) = true ∧ (us lab (.fencex (f 0xA0 o o o))).headerFlag (ex lab (.fencex (f 0xA0 o o o))) 3 = false ∧
    (us pod (.fencex (f 0xA0 o o o))).headerFlag (ex pod (.fencex (f 0xA0 o o o))) 3 = true := by decide +kernel
theorem wit_oprdy : passes lab (.oprdy (f 0x40 o o o)) = true ∧ passes lab (.oprdy (f 0x60 o o o)) = true ∧ Forms.scope 0x60 = 3 := by decide +kernel

def ldgl : Instr := .ldgl (f 0x06 (v 8) (v 6) (s 2) 1)
def ldglS : State := withBoth (vptr (seen.initBar programKey 0 2) 6 0x30000) 8 0x200
theorem wit_ldgl : passes ldglS ldgl = true ∧ gots ldglS ldgl 0 16 16 rightR = [some (1, 0x30000), some (1, 0x30000)] ∧ (ldglS.block? programKey).bind (·.barIndex 0) = some 0 ∧
    (ldglS.block? programKey).map (·.ownsLocal 0x200 16) = some true ∧ (us ldglS ldgl).engineWait 0 [tid 0, tid 1] = false ∧ goes ldglS ldgl = true := by decide +kernel
/-- Object 1 names group 5. -/
def grouped : State := (vptr pod 6 0x30000).write (.vault 0 0x2020) (toLE 4 0x203 ++ toLE 2 5)
def mcst : Instr := .mcst (f 0xA4 (v 5) (v 6) (s 12) 2)
def redst : Instr := .redst (f 0xB0 (v 5) (v 6) (s 12) 2)
theorem wit_mcst : passes grouped mcst = true ∧ gots grouped mcst 0 4 4 rightW = [some (1, 0x30000), some (1, 0x30000)] ∧ (grouped.object? programCtx 1).map (fun o => (o.mcast, o.group)) = some (true, 5) ∧
    (us grouped mcst).engineWait 0 [tid 0, tid 1] = false ∧ (us grouped mcst).headerFlag (ex grouped mcst) 3 = true ∧ goes grouped mcst = true := by decide +kernel
theorem wit_redst : passes grouped redst = true ∧ gots grouped redst 0 4 4 rightA = [some (1, 0x30000), some (1, 0x30000)] ∧ goes grouped redst = true := by decide +kernel
def pref : Instr := .pref (f 0 o (v 6) (h 0x100))
theorem wit_pref : passes (vptr seen 6 0x30000) pref = true ∧ gots (vptr seen 6 0x30000) pref 0 1 1 rightR = [some (1, 0x30000), some (1, 0x30000)] ∧ goes (vptr seen 6 0x30000) pref = true := by
  decide +kernel

def vdup : Instr := .vdup (f 0 (v 8) (v 6) (h 1))
def alone (s : State) : State := { s with issue := some ⟨0, 0, 1, 0, [tid 0]⟩, threads := [thr 0] }
theorem wit_vdup : passes (vptr seen 6 0x30000) vdup = true ∧ gots (vptr seen 6 0x30000) vdup 0 0 1 rightD = [some (1, 0x30000), some (1, 0x30000)] ∧
    ((us (vptr seen 6 0x30000) vdup).core 0).handlesOf 0 = [5, 6] ∧ goes (vptr seen 6 0x30000) vdup = true := by decide +kernel
/-- No handle, and no FREE entry: the one entry of the table is LIVE. -/
def dryCtx : Ctx := { programCtx with viewEntries := 2 }
def dry : State := ({ vptr (lab.modCore 0 fun c => { c with views := [view1] }) 6 0x30000 with ctxs := [dryCtx] }).putView dryCtx 1 ⟨1, 15, true, 0, 2, 0, 2 ^ 34⟩
theorem wit_vdup_none : passes dry vdup = true ∧ (us dry vdup).anyFree dryCtx = none ∧ goes dry vdup = true := by decide +kernel
def vnarrow : Instr := .vnarrow (f 0 o (v 6) (v 10))
/-- To [0x30000, 0x40000) with every right; and to one byte past the view. -/
def narrowS (high : Nat) : State := withBoth (withBoth (vptr (alone seen) 6 0x30000) 10 (BitVec.ofNat 32 high)) 11 (BitVec.ofNat 32 (0xF00 + high / 2 ^ 32))
theorem wit_vnarrow : passes (narrowS 0x40000) vnarrow = true ∧ (us (narrowS 0x40000) vnarrow).src (thr 0) (v 10) 2 = 0xF0000040000 ∧ goes (narrowS 0x40000) vnarrow = true ∧
    goes (narrowS (2 ^ 34)) vnarrow = true := by decide +kernel
theorem wit_vnarrow_widens : passes (narrowS (2 ^ 34 + 1)) vnarrow = true ∧ goes (narrowS (2 ^ 34 + 1)) vnarrow = false ∧
    (us (narrowS (2 ^ 34 + 1)) vnarrow).src (thr 0) (v 10) 2 = 0xF0000000000 + 2 ^ 34 + 1 := by decide +kernel
def vdrop : Instr := .vdrop (f 0 o (s 4) o 0)
theorem wit_vdrop : passes (uptr (alone seen) 4 0) vdrop = true ∧ gots (uptr (alone seen) 4 0) vdrop 0 0 1 0 = [some (1, 0)] ∧ goes (uptr (alone seen) 4 0) vdrop = true := by decide +kernel
def vqry (k : BitVec 8) : Instr := .vqry (f k (v 8) (v 6) o)
theorem wit_vqry : ([0, 1, 2].all fun k => passes (vptr seen 6 0) (vqry k) && goes (vptr seen 6 0) (vqry k)) = true ∧ gots (vptr seen 6 0) (vqry 1) 0 0 1 0 = [some (1, 0), some (1, 0)] := by decide +kernel
/-- The rights word: live, generation 0, held, all rights (R206). -/
theorem test_vqry_rights : (match exec (vqry 2) (vptr seen 6 0) with
    | .next t => t.cell (.vec 0 8 0)
    | _ => 0) = 0x8000001F := by decide +kernel

/-! System registers and the distributor (R156, R169 to R174). -/

theorem wit_rdsys : ([0, 1, 2, 3, 4, 5, 6, 7, 8, 9, 10, 11, 12].all fun k => goes lab (.rdsys (f k (v 4) o o))) = true := by decide +kernel
theorem wit_waitf : passes lab (.waitf (f 0 (.pred 2 false) (h 6) (h 1000))) = true ∧ ((lanes lab (.waitf (f 0 (.pred 2 false) (h 6) (h 1000)))).all fun th => !th.flag 1 && !th.flag 2) = true := by
  decide +kernel
def spawn (n : BitVec 15) : Instr := .spawn (f 0 o (v 16) (h n) 2)
/-- Its continuation entry table has three entries (R110). -/
def spawner : State := pod.write (.vault 0 (0x10000 + 64 + 0x100)) (toLE 4 3 ++ toLE 4 0 ++ toLE 4 12 ++ toLE 4 24)
theorem wit_spawn : passes spawner (spawn 2) = true ∧ passes spawner (spawn 3) = true ∧ (spawner.entryTable programCtx 1 0x10000 { programHeader with threads := 2, flags := 0xC, entryTable := 0x100 }) = some [0, 12, 24] ∧
    goes spawner (spawn 2) = true ∧ goes spawner (spawn 3) = false ∧ passes lab (spawn 0) = true ∧ goes lab (spawn 0) = false := by decide +kernel
/-- A launch that holds 65 535 records already: one more than fits with two lanes. -/
theorem wit_spawn_full : 65536 < 65535 + (lanes spawner (spawn 2)).length ∧ (List.replicate 65535 ([] : List Word)).length = 65535 := ⟨by decide +kernel, List.length_replicate⟩
def cancel : Instr := .cancel (f 0 o (s 8) o 5)
theorem wit_cancel : passes (uptr seen 8 0x20000) cancel = true ∧ gots (uptr seen 8 0x20000) cancel 0 1 1 rightW = [some (1, 0x20000), some (1, 0x20000)] := by decide +kernel
def enq : Instr := .enq (f 0 o (s 10) (s 12) 4)
theorem wit_enq : passes (uptr seen 10 0x30000) enq = true ∧ gots (uptr seen 10 0x30000) enq 0 128 64 (rightW ||| rightA) = [some (1, 0x30000), some (1, 0x30000)] ∧ goes (uptr seen 10 0x30000) enq = true := by
  decide +kernel
def replay : Instr := .replay (f 1 o (s 2) (s 3))
def ruler : State := { alone seen with ctxs := [{ programCtx with priv := true }] }
theorem wit_replay : passes (withUni ruler 2 1) replay = true ∧ goes (withUni ruler 2 1) replay = true ∧ passes (withUni (withUni ruler 4 0) 5 0x100) (.replay (f 0 o (s 4) (s 3))) = true ∧
    ((ruler.object? { programCtx with priv := true } 1).isSome) = true := by decide +kernel

/-! ### Engines, tensors, training (R209 to R239) -/

def accz : Instr := .accz (f 0 (.acc 0) o o)
def accrd (c : BitVec 15) : Instr := .accrd (f 1 (v 64) (.acc 0) (h c) 4)
def accwr (c : BitVec 15) : Instr := .accwr (f 0 (.acc 0) (v 8) (h c))
def rowmax : Instr := .rowmax (f 5 (v 20) (.acc 0) (s 3))
def rowexp : Instr := .rowexp (f 1 (v 21) (.acc 0) (v 24) 6)
def rowsc : Instr := .rowsc (f 2 (v 22) (.acc 0) (v 28) 7)
/-- The engine of core 0 has one operation more. -/
def hands (s : State) (i : Instr) : Bool := i.wf && passes s i && (match exec i s with
  | .next t => (t.core 0).engine.length == (s.core 0).engine.length + 1 && t.threads.all fun x => x.pc == 12
  | _ => false)
theorem wit_accz : hands lab accz = true := by decide +kernel
/-- The last column that 16 columns from it reach, and one more (R221). -/
theorem wit_accrd : hands lab (accrd 240) = true ∧ accCols (fieldsOf (accrd 240)) = 16 ∧ passes lab (accrd 241) = true ∧ goes lab (accrd 241) = false := by decide +kernel
theorem wit_accwr : hands lab (accwr 248) = true ∧ accCols (fieldsOf (accwr 248)) = 8 := by decide +kernel
def i32 : State := { lab with regions := [{ block := programKey, index := 0, i32 := true }, { block := programKey, index := 1, i32 := true }] }
theorem wit_rows : ([rowmax, rowexp, rowsc].all fun i => hands lab i) = true ∧ (lab.regionAt programKey 0).i32 = false := by decide +kernel
theorem wit_rows_int : ([rowmax, rowexp, rowsc].all fun i => passes i32 i && !goes i32 i) = true ∧ (i32.regionAt programKey 0).i32 = true := by decide +kernel

/-- A block with 256 KiB of local memory. -/
def wide (s : State) : State := { s with blocks := s.blocks.map fun b => { b with localBytes := 0x40000 } }
def wload : Instr := .wload (f 0 o (s 4) o 1)
theorem wit_wload : hands lab wload = true ∧ pairOf 0 = some ⟨0, 0, 0, 0, false⟩ ∧ (us lab wload).engineWait 0 [tid 0, tid 1] = false := by decide +kernel
/-- A packed pair. -/
theorem wit_wload_packed : hands (withUni lab 5 0x1000000) wload = true ∧ (pairOf (0x1000000 * 2 ^ 32)).map (·.pk) = some true := by decide +kernel
/-- Region 0's header holds a loaded slot 0; FIFO 2 ends at the matrix engine, FIFO 3 begins at the Mint. -/
def fed : State := ({ lab with regions := [{ block := programKey, index := 0, latch0 := latchRecord 0 0 0 }, { block := programKey, index := 1, i32 := true }] }).modCore 0 fun c =>
  { c with views := [view1], fifos := (c.fifos.set 2 { owner := some programKey, producer := 0, consumer := 2 }).set 3 { owner := some programKey, producer := 3, consumer := 0 } }
def mma : Instr := .mma (f 0 (.acc 0) (v 32) o 2)
def mmaMem : Instr := .mma (f 0x5C (.acc 1) (s 4) (s 8) 3)
def mmaFifo : Instr := .mma (f 0x84 (.acc 0) (h 2) (s 8) 3)
def mmaWFifo : Instr := .mma (f 0x48 (.acc 0) (s 4) (s 8) 3)
/-- A in registers and W in a latch; A in local memory and W through a view; A from a FIFO and W in local memory; A in local memory and W from a FIFO. -/
theorem wit_mma : hands fed mma = true ∧ hands (uptr (withUni fed 10 0x101) 8 0x30000) mmaMem = true ∧ hands (withUni fed 10 1) mmaFifo = true ∧
    hands (withUni (withUni fed 8 2) 10 1) mmaWFifo = true := by decide +kernel
theorem wit_mma_operands : ((us fed mma).mmaW (thr 0) (fieldsOf mma) ((us fed mma).regionAt programKey 0)) = some (.latch 0, 0, 1, false) ∧ ((us fed mma).mmaA (thr 0) (fieldsOf mma)) = some (.regs 32) ∧
    mmaPair 0 0 false = true ∧ mmaPair 1 1 true = true ∧ ((us fed mma).core 0).bound programKey 2 true 2 = true ∧ ((us fed mma).core 0).bound programKey 3 false 3 = true := by decide +kernel
def accldLocal : Instr := .accld (f 0 (.acc 1) (s 4) o 1)
def accldMem : Instr := .accld (f 0x40 (.acc 1) (s 4) o 1)
/-- Rows of 1024 bytes, 64 units of 16 apart: the least pitch. -/
theorem wit_accld : hands (withUni (wide lab) 4 0x20000000) accldLocal = true ∧ (pairOf 0x20000000).map (·.rpitch) = some 64 ∧ hands (uptr fed 4 0) accldMem = true := by decide +kernel
def accdrLocal : Instr := .accdr (f 0 (v 40) (.acc 0) (s 12) 5)
def accdrMem : Instr := .accdr (f 0x4C (v 40) (.acc 0) (s 12) 5)
def accdrFifo : Instr := .accdr (f 0x80 (v 40) (.acc 0) (h 3) 5)
theorem wit_accdr : hands lab accdrLocal = true ∧ hands (uptr fed 12 0) accdrMem = true ∧ hands fed accdrFifo = true := by decide +kernel

def cpkick : Instr := .cpkick (f 0 o (s 6) o 1)
def kicked (n : Nat) : State := withUni (withUni (wide lab) 6 0x200) 7 (BitVec.ofNat 32 n)
/-- A count of 1 and of 256; of 0 and of 257. -/
theorem wit_cpkick : ([1, 256].all fun n => passes (kicked n) cpkick && goes (kicked n) cpkick) = true ∧ ([0, 257].all fun n => passes (kicked n) cpkick && !goes (kicked n) cpkick) = true := by decide +kernel
def bind (n : BitVec 15) : Instr := .chainBind (f 2 o (h n) o)
def unbind (n : BitVec 15) : Instr := .chainUnbind (f 0x40 o (h n) o)
/-- The last FIFO; one past it; a bound one. -/
theorem wit_chain_bind : passes fed (bind 7) = true ∧ goes fed (bind 7) = true ∧ passes fed (bind 8) = true ∧ goes fed (bind 8) = false ∧ goes fed (bind 2) = false := by decide +kernel
theorem wit_chain_unbind : passes fed (unbind 2) = true ∧ goes fed (unbind 2) = true ∧ ((fed.core 0).fifo 2).owner = some programKey ∧ fed.fifoPending 0 2 = false ∧
    goes (fed.modCore 0 fun c => { c with fifos := c.fifos.set 2 { owner := some programKey, bytes := [1] } }) (unbind 2) = false := by decide +kernel

/-- A tensor of 8 bytes in local memory at 0x800: rank 1, level 4 of width 3, matrix at 0x400, plan at 0xC00 (R324). -/
def image (base mat : Nat) : List Byte :=
  [0, 1, 1, 3, 3, 0, 0, 0, 0, 0, 0, 0] ++ toLE 4 8 ++ zeros 20 ++ [0, 0, 0, 0, 3, 0, 0, 0] ++ zeros 4 ++ toLE 8 base ++ toLE 8 0 ++ toLE 4 mat ++ toLE 4 0xC00 ++ zeros 56
def matrixAt (s : State) (a : Nat) (rows : List Nat) : State := (List.range rows.length).foldl (fun t i => t.writeVal (localAt 0 (a + 8 * i)) 8 (rows.getD i 0)) s
/-- Tiles 0 and 1 hold tensors; their images stand at 0x100 and 0x180. -/
def tensors : State :=
  let t := matrixAt (matrixAt (seen.write (localAt 0 0x100) (image 0x800 0x400)) 0x400 [1, 2, 4]) 0x600 [2, 1, 4]
  (t.putTile 0 0 0 (image 0x800 0x400)).putTile 0 1 0 (image 0x880 0x780)
def tdset : Instr := .tdset (f 0 (.tile 2) (s 4) o)
theorem wit_tdset : (image 0x800 0x400).length = 128 ∧ passes (withUni tensors 4 0x100) tdset = true ∧ (tensors.descOk { programBlock with regions := 2, tiles := 4 } (image 0x800 0x400)) = true ∧
    gfInv 3 (tensors.matrix 0 0x400 3) = some [1, 2, 4] ∧ goes (withUni tensors 4 0x100) tdset = true := by decide +kernel
/-- An image of zeros is no tensor; a matrix of zeros is singular. -/
theorem wit_tdset_refused : passes (withUni tensors 4 0x200) tdset = true ∧ goes (withUni tensors 4 0x200) tdset = false ∧
    goes (matrixAt (withUni tensors 4 0x100) 0x400 [0, 0, 0]) tdset = false ∧ gfInv 3 [0, 0, 0] = none := by decide +kernel
def tdget : Instr := .tdget (f 0 o (.tile 0) (s 4))
theorem wit_tdget : passes (withUni tensors 4 0x200) tdget = true ∧ goes (withUni tensors 4 0x200) tdget = true := by decide +kernel
def locof : Instr := .locof (f 0 (v 10) (.tile 0) (v 6))
/-- The last index, and one past it. -/
theorem wit_locof : passes (withBoth tensors 6 7) locof = true ∧ goes (withBoth tensors 6 7) locof = true ∧ goes (withBoth tensors 6 8) locof = false ∧ (descOf (image 0x800 0x400)).n = 3 := by decide +kernel
def tld : Instr := .tld (f 0x40 (v 9) (.tile 0) (v 6) 2)
def tst : Instr := .tst (f 0 (v 9) (.tile 0) (v 6))
theorem wit_elements : passes (withBoth tensors 6 7) tld = true ∧ goes (withBoth tensors 6 7) tld = true ∧ passes (withBoth tensors 6 7) tst = true ∧ goes (withBoth tensors 6 7) tst = true ∧
    (us (withBoth tensors 6 7) tld).elemOf (ex (withBoth tensors 6 7) tld) programCtx { programBlock with regions := 2, tiles := 4, threads := 2 } rightR (thr 0, descOf (image 0x800 0x400), 7)
      = (none, .loc 0x807) := by decide +kernel
def place : Instr := .place (f 0 (.tile 0) (.tile 0) (s 4) 0)
def placed1 : Instr := .place (f 0 (.tile 1) (.tile 0) (s 4) 0)
/-- The new matrix swaps the low two bits of a place; then the tensor moves to tile 1's. -/
theorem wit_place : passes (withUni tensors 4 0x600) place = true ∧ goes (withUni tensors 4 0x600) place = true ∧ goes (withUni tensors 4 0x600) placed1 = true ∧
    tensors.matrixTidy 0 0x400 3 = true ∧ tensors.matrixTidy 0 0x600 3 = true := by decide +kernel

def optaw : Instr := .optaw (f 1 (.pred 1 false) (s 8) (v 4) 3)
def trained : State := uptr (uptr (uptr (uptr seen 8 0x30000) 10 0x31000) 12 0x32000) 14 0x33000
theorem wit_optaw : passes trained optaw = true ∧ goes trained optaw = true ∧ (trained.threads.map (·.tid)).Nodup ∧ (us trained optaw).headerFlag (ex trained optaw) 5 = false := by decide +kernel
def statst : Instr := .statst (f 0 (v 12) (s 6) (v 4))
def statld : Instr := .statld (f 0x40 (v 12) (s 6) (v 4) 1)
def lscale : Instr := .lscale (f 0x80 (.pred 2 false) (s 10) (.pred 3 false) 4)
theorem wit_stats : gots (uptr seen 6 0x30000) statst 0 16 16 rightW = [some (1, 0x30000), some (1, 0x30000)] ∧ goes (uptr seen 6 0x30000) statst = true ∧
    gots (uptr seen 6 0x30000) statld 0 16 16 rightR = [some (1, 0x30000), some (1, 0x30000)] ∧ goes (uptr seen 6 0x30000) statld = true ∧
    gots (uptr seen 10 0x30000) lscale 0 16 16 (rightR ||| rightW ||| rightA) = [some (1, 0x30000), some (1, 0x30000)] ∧ goes (uptr seen 10 0x30000) lscale = true := by decide +kernel

/-! ### Schedulers and boundary traps (R155, R171, R188, R196, R212, R258, R273 to R284) -/

def after (s : State) (i : Instr) : State := match exec i s with
  | .next t => t
  | _ => s
def lab0 : State := { lab with issue := none }
def core0 (s : State) (g : Core → Core) : State := s.modCore 0 g
theorem wit_fragment : (lab0.groups.head?.bind lab0.fragment) = some ig0 := by decide +kernel
theorem wit_select : lab0.coreOff 0 = false ∧ lab0.owesLanding 0 = false ∧ (lab0.core 0).turns = [] ∧ (after lab0 (.issueGroupSelect 0 0)).issue = some ig0 := by decide +kernel
/-- The scheduler's turn comes round again once the others have had theirs: the next cycle. -/
theorem wit_select_again : (core0 lab0 fun c => { c with turns := [0] }).othersDone 0 0 = true ∧ ((after (core0 lab0 fun c => { c with turns := [0] }) (.issueGroupSelect 0 0)).core 0).clock = 1 := by decide +kernel
/-- A datapath busy for one cycle more, and one with nothing to select from. -/
theorem wit_select_none : ((core0 lab0 fun c => { c with freeAt := [1, 0, 0, 0] }).core 0).clock < 1 ∧ (lab0.selected 0 3).isNone = true ∧
    (after (core0 lab0 fun c => { c with freeAt := [1, 0, 0, 0] }) (.issueGroupSelect 0 0)).issue = none := by decide +kernel
def atClock (s : State) (n : Nat) : State := core0 s fun c => { c with clock := n }
def readyAt (n : Nat) : State := { lab0 with groups := [{ programGroup with alloc := 128, readySince := some n }] }
/-- 256 cycles, and one less. -/
theorem wit_forced : ((after (atClock (readyAt 3) 259) (.forcedCandidate programKey 0)).groups.map (·.forced)) = [true] ∧
    ((after (atClock (readyAt 3) 258) (.forcedCandidate programKey 0)).groups.map (·.forced)) = [false] := by decide +kernel
theorem wit_yield : ((eachThread lab0 fun t => { t with yielded := some 64 }).groupThreads programKey 0).map (·.yielded) = [some 64, some 64] := by decide +kernel
def waiting (n : Nat) : State := atClock (eachThread lab0 fun t => { t with blocked := some (.waitf 6 10 100), flags := [0, 0, 1, 0, 0, 0, 0, 0, 0, 0, 0, 0] }) n
theorem wit_waitf_limit : ((waiting 110).thread? (tid 0)).map (·.blocked) = some (some (.waitf 6 10 100)) ∧ ((after (waiting 110) (.waitfLimit (tid 0))).threads.map (·.waitOver)) = [true, false] ∧
    ((after (waiting 109) (.waitfLimit (tid 0))).threads.map (·.waitOver)) = [false, false] := by decide +kernel
def landing : Landing := { due := 5, place := .vec 0 4 0, old := 0, owner := tid 0, flag := some 1 }
def pending (n : Nat) : State := atClock (core0 (eachThread lab0 fun t => { t with flags := [0, 1, 0, 0, 0, 0, 0, 0, 0, 0, 0, 0] }) fun c => { c with landings := [landing] }) n
theorem wit_landing : ((pending 5).core 0).landings[0]? = some landing ∧ ((after (pending 5) (.fixedLatencyWrite 0 0)).core 0).landings = [] ∧
    ((after (pending 5) (.fixedLatencyWrite 0 0)).thread? (tid 0)).map (·.flags[1]?) = some (some 0) ∧ ((after (pending 4) (.fixedLatencyWrite 0 0)).core 0).landings = [landing] := by decide +kernel
def synced (s : State) : State := { s with issue := none, threads := s.threads.map fun t => { t with blocked := some (.gsync false) } }
theorem wit_gsync_complete : (synced lab).atGsync programKey 0 = true ∧ ((after (synced lab) (.gsyncComplete programKey 0)).threads.map (·.blocked)) = [none, none] := by decide +kernel
/-- Home group 0 gives two granules to home group 1. -/
def gives : State :=
  let t : State := { lab with groups := [{ programGroup with alloc := 128, quotaPending := -2, quotaPartner := 1 }, { programGroup with index := 1, home := 1, alloc := 64, quotaPending := 2, quotaPartner := 0 }] }
  synced { t with threads := [thr 0, { tid := ⟨programKey, 1, 0⟩, home := 1, pc := 0 }] }
theorem wit_quota_complete : gives.atGsync programKey 0 = true ∧ gives.atGsync programKey 1 = true ∧ ((after gives (.gsyncComplete programKey 0)).groups.map (·.alloc)) = [112, 80] := by decide +kernel

def deferring : State := eachThread lab0 fun t => { t with deferred := [(Cause.badfmt, 7)] }
theorem wit_deferred : ((deferring.groupThreads programKey 0).map (·.deferred.head?)) = [some (Cause.badfmt, 7), some (Cause.badfmt, 7)] ∧
    ((after deferring (.deferredTrap programKey 0)).threads.map (·.deferred)) = [[], []] := by decide +kernel
theorem wit_memue : ((eachThread lab0 fun t => { t with memue := some 4 }).thread? (tid 0)).map (fun t => (t.memue, t.life)) = some (some 4, .live) ∧
    (after (eachThread lab0 fun t => { t with memue := some 4 }) (.memueTrap (tid 0))).threads.map (·.memue) = [none, some 4] := by decide +kernel
theorem wit_mcnack : (after (eachThread lab0 fun t => { t with mcnack := some 4 }) (.mcnackTrap (tid 0))).threads.map (·.mcnack) = [none, some 4] := by decide +kernel
def cancelled : State := { lab0 with blocks := [{ programBlock with threads := 2, regions := 2, tiles := 4, cancel := true }] }
theorem wit_cancel_trap : (cancelled.block? programKey).map (·.phase) = some .running ∧ (cancelled.threads.map cancelled.cancelDue) = [true, true] ∧
    (after cancelled (.cancelTrap programKey)).threads.map (·.life) = [.exited, .exited] := by decide +kernel
def hung (n : Nat) (due : Bool) : State := { lab0 with groups := [{ programGroup with alloc := 128, hang := n, hangPcs := [0], hangDue := due }] }
theorem wit_hang : ((after (hung (2 ^ 24) false) (.hangDetect programKey 0)).groups.map (·.hang)) = [0] ∧ ((after (hung (2 ^ 24 - 1) false) (.hangDetect programKey 0)).groups.map (·.hang)) = [2 ^ 24 - 1] ∧
    ((hung 0 true).groups.head?.bind (hung 0 true).fragment) = some ig0 ∧ ((after (hung 0 true) (.hangTrap programKey 0)).groups.map (·.hangDue)) = [false] := by decide +kernel

/-! ### Accesses performed (R51, R180 to R200, R298) -/

/-- The access at a place on core 0 is ready, and its registers await it. -/
def ready (s : State) (i n : Nat) : Bool := match (s.core 0).accs[i]? with
  | some a => (s.core 0).ready a && (s.thread? a.tid).isSome && (s.ctx? (s.ctxOf a.tid.block)).isSome && s.broken.isNone && !s.placeTouches 0 a && (s.core 0).drains.isEmpty && s.gated.isEmpty && !(s.core 0).portHolds a
      && (List.range n).all fun j => sget s.fills (vkey 0 (a.reg + j) a.tid.lane) == BitVec.ofNat 64 a.id && !s.writeInFlight 0 (.vec 0 (a.reg + j) a.tid.lane)
  | none => false
def bytesAt (s : State) (bs : List Byte) : State := s.write (localAt 0 0x100) bs
theorem wit_ldl_performed : ready (after (bytesAt lab [1, 2, 3, 4, 5]) ldl) 0 4 = true ∧ (after (after (bytesAt lab [1, 2, 3, 4, 5]) ldl) (.fillArrival 0 0)).cell (.vec 0 16 0) = 0x04030201 ∧
    (after (after (bytesAt lab [1, 2, 3, 4, 5]) ldl) (.fillArrival 0 0)).cell (.vec 0 17 0) = 5 := by decide +kernel
theorem wit_stl_performed : ready (after (withBoth lab 3 0xABCD) stl) 0 0 = true ∧
    (after (after (withBoth lab 3 0xABCD) stl) (.storePerformed 0 0)).bytes (localAt 0 0) 6 = [0, 0, 0xCD, 0xAB, 0, 0] := by decide +kernel
/-- Signed maximum of −1 and 5 (the type is the qualifier, .i32). -/
def atomlI : Instr := .atoml (f 0x72 (v 4) (.uni 2 1) (v 5))
theorem wit_atoml_performed : ready (after ((withBoth lab 5 5).write (localAt 0 0) [0xFF, 0xFF, 0xFF, 0xFF]) atomlI) 0 1 = true ∧
    (after (after ((withBoth lab 5 5).write (localAt 0 0) [0xFF, 0xFF, 0xFF, 0xFF]) atomlI) (.fillArrival 0 0)).bytes (localAt 0 0) 4 = [5, 0, 0, 0] ∧
    (after (after ((withBoth lab 5 5).write (localAt 0 0) [0xFF, 0xFF, 0xFF, 0xFF]) atomlI) (.fillArrival 0 0)).cell (.vec 0 4 0) = 0xFFFFFFFF := by decide +kernel

def ldDev : Instr := .ld (f 0x84 (v 9) (.vec 6 false 1) o)
def far (bs : List Byte) : State := (vptr seen 6 0x30000).write (.vault 0 0x30000) bs
/-- A load at device scope, past the line cache. -/
theorem wit_ld_performed : passes (far [1, 2, 3, 4]) ldDev = true ∧ ready (after (far [1, 2, 3, 4]) ldDev) 0 1 = true ∧
    ((after (far [1, 2, 3, 4]) ldDev).core 0).accs.map (fun a => (a.opc, decide (3 ≤ a.scope), a.qual, ((after (far [1, 2, 3, 4]) ldDev).sideHit 0 a).isNone)) = [(0xA0, true, 1, true), (0xA0, true, 1, true)] ∧
    (after (after (far [1, 2, 3, 4]) ldDev) (.fillArrival 0 0)).cell (.vec 0 9 0) = 0x04030201 := by decide +kernel
def stored : State := after (withBoth (vptr seen 6 0x30000) 9 0xABCD) st
theorem wit_st_buffered : ready stored 0 0 = true ∧ ((after stored (.storePerformed 0 0)).core 0).accs.map (·.atBlk) = [false, true] := by decide +kernel
theorem wit_st_performed : ready (after stored (.storePerformed 0 0)) 1 0 = true ∧ ((((after stored (.storePerformed 0 0)).core 0).accs[1]?).map ((after stored (.storePerformed 0 0)).core 0).readyHome) = some true ∧
    (after (after stored (.storePerformed 0 0)) (.storePerformed 0 1)).bytes (.vault 0 0x30040) 4 = [0xCD, 0xAB, 0, 0] := by decide +kernel
def fenced : State := after lab (.fence (f 0x90 o o o))
def fencexed : State := after lab (.fencex (f 0x80 o o o 3))
theorem wit_fence_end : (fenced.core 0).accs.map (fun a => (a.isFence, fenced.readyFence 0 a, a.asked)) = [(true, true, []), (true, true, [])] ∧
    ((after fenced (.storePerformed 0 0)).core 0).accs.length = 1 := by decide +kernel
theorem wit_fencex_asks : (fencexed.core 0).accs.map (fun a => (a.opc, a.args, fencexed.readyFence 0 a, a.asked)) = [(0xAC, [0], true, []), (0xAC, [0], true, [])] ∧
    (((after fencexed (.storePerformed 0 0)).core 0).accs.map (·.args)) = [[1], [0]] := by decide +kernel
theorem wit_requests : (after fencexed (.serialisationRequest 5)).broken = none ∧ (after fenced (.promotionRequest 5)).broken = none := by decide +kernel
def retrying : State := core0 fenced fun c => { c with accs := [], retries := c.accs.map fun a => { kind := 1, key := .page 1 0, acc := a } }
theorem wit_retry : (retrying.core 0).retries.length = 2 ∧ (retrying.core 0).waits.length < 256 ∧ ((after retrying (.waitTableRetry 0)).core 0).accs.length = 1 := by decide +kernel
theorem wit_no_access : (lab.core 0).accs[0]? = none ∧ (lab.deliverAccrd 0).broken = none := by decide +kernel
/-- The other accesses that instructions leave on the core are ready there. -/
theorem wit_performed_later : ready (after (vptr seen 6 0x30000) atom) 0 1 = true ∧ ready (after (vptr seen 6 0x30000) red) 0 0 = true ∧ ready (after (withBoth tensors 6 7) tld) 0 1 = true ∧
    ready (after (withBoth tensors 6 7) tst) 0 0 = true ∧ ready (after trained optaw) 0 0 = true ∧ ready (after (uptr seen 6 0x30000) statst) 0 0 = true ∧
    ready (after (uptr seen 6 0x30000) statld) 0 0 = true ∧ ready (after (uptr seen 10 0x30000) lscale) 0 0 = true ∧ ready (after spawner (spawn 2)) 0 0 = true ∧
    ready (after (uptr seen 10 0x30000) enq) 0 0 = true ∧ ready (after grouped mcst) 0 0 = true ∧ ready (after grouped redst) 0 0 = true := by decide +kernel
/-- RDLANE from another home group leaves an access. -/
def twoGroupsRun : State := { twoGroups with threads := [thr 0, { tid := ⟨programKey, 1, 0⟩, home := 1, pc := 0 }], issue := some ⟨0, 0, 1, 0, [tid 0]⟩ }
theorem wit_rdlane_far : ready (after (withBoth twoGroupsRun 6 128) rdlane) 0 1 = true ∧ ((after (withBoth twoGroupsRun 6 128) rdlane).core 0).accs.map (·.opc) = [0x76] := by decide +kernel
theorem wit_ldgl_performed : ((after ldglS ldgl).core 0).ldgl.map (fun l => (l.park, l.bytes, (after ldglS ldgl).owed 0 l.id true 0 l.dst l.bytes)) = [(none, 16, false), (none, 16, false)] ∧
    (((after (after ldglS ldgl) (.ldglBytesWritten 0 0)).core 0).ldgl.map (·.bytes)) = [0, 16] ∧ ((after (after ldglS ldgl) (.ldglBytesWritten 0 0)).bar 0 0).pending = -16 := by decide +kernel

/-! The Teller (R202 to R205, R316 to R321). -/

def viewCtx : Ctx := programCtx
theorem wit_grant : lab.clusterCtx 0 = some 0 ∧ lab.anyFree programCtx = some 1 ∧ ((after lab0 (.handleGrant 0 2)).core 0).pool = [(0, 1), (0, 2)] ∧ (programCtx.viewAddr 15).exists_ 32 = true := by decide +kernel
/-- View 1 LIVE in the table, of a generation; a drop of it and a narrowing of it wait at the Teller. -/
def liveView (gen : Nat) (drop : Bool) : State := { seen.putView programCtx 1 ⟨1, 15, true, gen, 2, 0, 2 ^ 34⟩ with
  issue := none, viewOps := [{ id := 9, ctx := 0, index := 1, gen, drop, low := 0x1000, high := 0x2000, mask := 3, core := 0, tid := tid 0, flag := none }] }
theorem wit_teller_drop : (liveView 3 true).viewOps.map (liveView 3 true).reclaimReady = [true] ∧ ((after (liveView 3 true) (.reclamationSequence 0)).viewEntry programCtx 1).gen = 4 := by
  decide +kernel
theorem wit_teller_free : ((after (liveView 3 true) (.reclamationSequence 0)).viewEntry programCtx 1).state = 0 := by decide +kernel
/-- Generation 15 retires the entry (R320). -/
theorem wit_teller_retired : ((after (liveView 14 true) (.reclamationSequence 0)).viewEntry programCtx 1).state = 3 := by decide +kernel
theorem wit_teller_narrow : ((after (liveView 3 false) (.reclamationSequence 0)).viewEntry programCtx 1) = ⟨1, 3, true, 3, 2, 0x1000, 0x2000⟩ := by decide +kernel
theorem wit_teller_cores : (after (liveView 3 false) (.reclamationSequence 0)).viewOps.map (fun o => (o.stage, o.cores)) = [(1, [0, 1, 2, 3])] := by decide +kernel
def shot : State := after (liveView 3 false) (.reclamationSequence 0)
theorem wit_shootdown : ((after shot (.shootdown 0 0)).core 0).views.map (fun w => (w.low, w.high)) = [(0x1000, 0x2000)] := by decide +kernel
theorem wit_shootdown_left : (after shot (.shootdown 0 0)).viewOps.map (·.cores) = [[1, 2, 3]] := by decide +kernel
def shotAll : State := [0, 1, 2, 3].foldl (fun s k => after s (.shootdown k 0)) shot
theorem wit_reclaim_end : shotAll.viewOps.map shotAll.reclaimReady = [true] := by decide +kernel
theorem wit_reclaimed : (after shotAll (.reclamationSequence 0)).viewOps = [] := by decide +kernel

/-! ### Engines, passes and prologue go on (R213 to R239, R266, R267, R330 to R333) -/

/-- A step answers a next state. -/
def runs (s : State) (i : Instr) : Bool := match exec i s with
  | .next _ => true
  | _ => false
/-- An operation at the head of core 0's engine, which is not parked and whose block and context stand. -/
def headed (s : State) : Bool := s.broken.isNone && (s.discardOp 0).isNone && decide (0 < s.cores.length) && (match (s.core 0).engine with
  | o :: _ => o.park.isNone && (s.block? o.block).any (fun b => !b.frozen) && (s.ctx? o.ctx).any (fun c => c.state == .running)
  | [] => false)
/-- The head's operation is performed and leaves the engine. -/
def performs (s : State) (i : Instr) : Bool := headed (after s i) && runs (after s i) (.engineOperationDone 0) &&
  ((after (after s i) (.engineOperationDone 0)).core 0).engine.length + 1 == ((after s i).core 0).engine.length

/-- 128 rows of 128 and of 256. -/
theorem wit_addSlice : (List.replicate 128 (List.replicate 128 (1 : Nat))).length = 128 ∧ (∀ r ∈ List.replicate 128 (List.replicate 128 (1 : Nat)), r.length = 128) ∧
    (∀ r ∈ List.replicate 128 (List.replicate 256 (0 : Word)), r.length = 256) ∧ 127 < 128 ∧ 255 < 256 := by
  refine ⟨List.length_replicate, ?_, ?_, by decide, by decide⟩ <;> intro r h <;> rw [List.eq_of_mem_replicate h] <;> exact List.length_replicate
theorem wit_engine_accz : performs lab accz = true := by decide +kernel
theorem wit_engine_wload : performs lab wload = true := by decide +kernel
theorem wit_engine_accwr : performs lab (accwr 248) = true := by decide +kernel
/-- Object 1 with its one page ABSENT: the load parks. -/
def absent1 (s : State) : State := match s.object? programCtx 1 with
  | some o => match s.walk o 0 with
    | .leaf l => s.putPte l (l.entry.set 0 l.entry.frame false false)
    | _ => s
  | none => s
theorem wit_engine_accld : headed (absent1 (after (uptr fed 4 0) accldMem)) = true ∧ runs (absent1 (after (uptr fed 4 0) accldMem)) (.engineOperationDone 0) = true := by decide +kernel
theorem wit_engine_rowmax : performs lab rowmax = true := by decide +kernel
theorem wit_engine_rowexp : performs lab rowexp = true := by decide +kernel
theorem wit_engine_rowsc : performs lab rowsc = true := by decide +kernel
theorem wit_mma_slice : headed (after fed mma) = true ∧ runs (after fed mma) (.mmaSlice 0) = true := by decide +kernel
/-- The drain to local memory at 0 stands before its first and before its last row. -/
def drainAt (i : Nat) : State := core0 lab0 fun c => { c with engine :=
  [{ id := 1, block := programKey, group := 0, ctx := 0, insn := 0, lanes := [tid 0, tid 1], flag := some 5, kind := .accdr false 0 0 0 false false [] [] (.pair 0 0x800000) i }] }
theorem wit_accdr_row : headed (drainAt 0) = true ∧ headed (drainAt 127) = true := by decide +kernel
theorem wit_accdr_first : ((after (drainAt 0) (.accdrRow 0)).core 0).engine.length = 1 := by decide +kernel
theorem wit_accdr_last : ((after (drainAt 127) (.accdrRow 0)).core 0).engine.length = 0 := by decide +kernel
/-- R372: a uniform that a WLOAD names, s4 or s5, is written before it completes, and its slot holds no weights then; another uniform does nothing. -/
theorem test_uniform_races :
    [3, 4, 5, 6].map (fun n => (((after lab wload).raceOps 0 (.uni (thr 0).home n)).core 0).engine.map (·.raced)) = [[false], [true], [true], [false]] := by decide +kernel
/-- A drain at row 9 whose uniform is written begins again, and what it has given out is free (R372). -/
theorem test_drain_races : ((drainAt 9).core 0).engine.map (fun o => (o.race.raced, o.race.kind)) =
    [(true, .accdr false 0 0 0 false false [] [] (.pair 0 0x800000) 0)] := by decide +kernel
/-- A request of 16 bytes of zeros at 0x200: the batch begins, and ends after it. -/
def batched : State := after (kicked 1) cpkick
def batchEnd : State := core0 batched fun c => { c with batches := c.batches.map fun b => { b with next := 1 } }
def batchOk (s : State) : Bool := match (s.core 0).batches with
  | [b] => (s.block? b.block).any (fun k => !k.frozen) && (s.ctx? b.ctx).any (fun c => c.state == .running && c.fault.isNone) && !s.blockCancelled b.block && b.park.isNone
      && !(s.core 0).batchBusy b.id && b.sent == 0
  | _ => false
theorem wit_copy_begin : batchOk batched = true ∧ (batched.core 0).batches.map (fun b => (b.cur, b.next, b.count)) = [([], 0, 1)] ∧ runs batched (.copyRequest 0 0) = true := by decide +kernel
theorem wit_copy_end : batchOk batchEnd = true ∧ (batchEnd.core 0).batches.map (fun b => (b.cur, b.next, b.count)) = [([], 1, 1)] ∧ ((after batchEnd (.copyRequest 0 0)).core 0).batches = [] := by decide +kernel
/-- A request from memory to local memory that passes its checks (R238). -/
def requestBytes : List Byte := toLE 8 0x100000000000 ++ toLE 8 0x400 ++ toLE 3 16 ++ [4] ++ toLE 2 1 ++ [0, 0] ++ toLE 3 1 ++ toLE 3 1 ++ [0, 0]
def batchMid : State := after ((batched.modCore 0 fun c => { c with views := [view1] }).write (localAt 0 0x200) requestBytes) (.copyRequest 0 0)
theorem wit_copy_piece : requestBytes.length = 32 ∧ batchOk batchMid = true ∧ (batchMid.core 0).batches.map (fun b => b.cur.length) = [32] ∧ runs batchMid (.copyRequest 0 0) = true := by decide +kernel

/-- Lanes 0 and 1 with equal element indices are marked (R234), and each still owes its predicate (R211). -/
theorem test_optaw_twin : ((after (withBoth trained 4 7) optaw).core 0).accs.map (fun a => a.args.getD 17 9) = [1, 1] ∧
    ((after ((withBoth trained 4 7).setCell (.vec 0 4 1) 8) optaw).core 0).accs.map (fun a => a.args.getD 17 9) = [0, 0] ∧
    (after trained optaw).owesResult 0 (.pred (tid 0) 1) = true ∧ (after trained optaw).owesResult 0 (.pred (tid 0) 2) = false := by decide +kernel
def loadingTile : State := after (withUni tensors 4 0x100) tdset
theorem wit_tdset_done : loadingTile.broken = none ∧ (loadingTile.group? programKey 0).map (·.loading) = some [(2, none)] ∧ (after loadingTile (.tdsetDone programKey 0 2)).tileLoading programKey 0 2 = false := by
  decide +kernel
/-- A tensor of 4 bytes in registers v64 and v65: a register pass of two steps. -/
def imageR : List Byte := [0, 1, 0, 2, 2, 0, 0, 0, 0, 0, 0, 0] ++ toLE 4 4 ++ zeros 20 ++ [1, 1, 0, 0, 0, 0, 0, 0] ++ zeros 4 ++ toLE 8 64 ++ toLE 8 0 ++ toLE 4 0x400 ++ toLE 4 0xC00 ++ zeros 56
def tensorsR : State := (matrixAt (matrixAt seen 0x400 [1, 2]) 0x600 [2, 1]).putTile 0 0 0 imageR
def placingR : State := after (withUni tensorsR 4 0x600) place
def placing : State := after (withUni tensors 4 0x600) place
def placeOk (s : State) : Bool := s.broken.isNone && !s.portsOff && s.requests.isEmpty && (match s.places with
  | [o] => (s.block? o.block).any (fun b => !b.frozen) && (s.ctx? o.ctx).any (fun c => c.state == .running) && !s.blockCancelled o.block && o.park.isNone
      && !(s.core 0).placeBusy o.id
  | _ => false)
theorem wit_place_step : placeOk placingR = true := by decide +kernel
theorem wit_place_step2 : placingR.places.map (fun o => (o.pass, o.step, (o.passes[0]?).map o.steps)) = [(0, 0, some 2)] := by decide +kernel
theorem wit_place_step3 : runs placingR (.placePassStep 0) = true := by decide +kernel
def placedAll : State := after placing (.placePassStep 0)
theorem wit_place_last : placeOk placedAll = true ∧ placedAll.places.map (fun o => (o.passes[o.pass]?).isNone) = [true] := by decide +kernel
theorem wit_place_same : placedAll.places.map (fun o => decide (o.tD = o.tS)) = [true] := by decide +kernel
theorem wit_place_spans : placedAll.places.map (fun o => (o.dirty, (placedAll.endSpans o).broken)) = [(false, none)] := by decide +kernel
/-- The registers of the tensor's span, and no others, are held by the PLACE (R230). -/
theorem test_place_span : placingR.placeHolds (.vec 0 64 0) = true ∧ placingR.placeHolds (.vec 0 65 0) = true ∧ placingR.placeHolds (.vec 0 66 0) = false ∧
    placingR.placeHolds (.vec 0 64 1) = false := by decide +kernel
/-- A write of a register of the span leaves the tensor's elements free; one beside it does not (R230). -/
theorem test_place_dirty : [64, 66].map (fun r => (placingR.writeFixed 0 (tid 0) (.vec 0 r 0) 1 9).places.map (·.dirty)) = [[true], [false]] := by decide +kernel
theorem wit_place_end : (after placedAll (.placePassStep 0)).places = [] := by decide +kernel

/-- A block at binding `i` of `n`. Binding 0 copies 8 bytes at 0x40000, by the pointer at offset 0 of the arguments, to local offset 0x10. -/
def bindingBytes : List Byte := toLE 4 0 ++ toLE 4 0x10 ++ toLE 4 8 ++ toLE 4 0 ++ zeros 16
def opening (i n : Nat) : State :=
  let t : State := { lab0.putView programCtx 1 ⟨1, 15, true, 0, 2, 0, 2 ^ 34⟩ with
    blocks := [{ programBlock with threads := 2, regions := 2, tiles := 4, phase := .prologue i none }]
    launches := [{ programLaunch with header := { programHeader with threads := 2, bindings := n, binds := List.replicate n bindingBytes }, args := 0x100000030000 }] }
  ((t.write (.vault 0 0x30000) (toLE 8 0x100000040000)).write (.vault 0 0x40000) [1, 2, 3, 4, 5, 6, 7, 8]).write (.vault 0 (0x10000 + 64 + programHeader.bindTable)) bindingBytes
theorem wit_prologue : bindingBytes.length = 32 ∧ (opening 0 1).blocks.map (fun b => (b.phase, b.spawned)) = [(.prologue 0 none, none)] ∧
    (match ((opening 0 1).bindBytes programBlock programCtx 0x100000030000 bindingBytes) with | .ok (.full bs) => bs | _ => []) = [1, 2, 3, 4, 5, 6, 7, 8] := by decide +kernel
theorem wit_prologue_binding : (opening 0 1).binding programCtx 1 0x10000 { programHeader with bindings := 1 } 0 = some bindingBytes := by decide +kernel
theorem wit_prologue_written : (after (opening 0 1) (.prologue programKey)).bytes (localAt 0 0x10) 8 = [1, 2, 3, 4, 5, 6, 7, 8] := by decide +kernel
theorem wit_block_start : (opening 0 0).broken = none ∧ ((opening 0 0).headerOf programKey).map (·.bindings) = some 0 ∧ ((opening 0 1).headerOf programKey).map (·.bindings) = some 1 ∧
    (after (opening 0 0) (.blockStart programKey)).blocks.map (·.phase) = [.running] := by decide +kernel
theorem wit_block_start_waits : (after (opening 0 1) (.blockStart programKey)).blocks.map (·.phase) = [.prologue 0 none] := by decide +kernel

/-! ### Queues, launches, blocks (R252 to R272) -/

def vp (off : Nat) : Nat := 2 ^ 44 + off
def rec' (kind flags cnt a b c : Nat) : List Byte := withCrc (toLE 1 kind ++ toLE 1 flags ++ toLE 2 0 ++ toLE 4 cnt ++ toLE 8 a ++ toLE 8 b ++ toLE 8 c ++ zeros 28 ++ zeros 4) 0x3C
def headerBytes (gang : Nat) : List Byte := withCrc (toLE 4 0x394B505A ++ toLE 2 1 ++ toLE 2 0 ++ toLE 2 8 ++ toLE 2 1 ++ toLE 4 64 ++ toLE 1 0 ++ toLE 1 0 ++ toLE 1 gang ++ zeros 17 ++ toLE 4 0 ++ toLE 4 0xFFFFFFFF ++
  toLE 4 12 ++ zeros 16) 0x3C
def aQueue : Queue := { ctx := 0, control := BitVec.ofNat 64 (vp 0x50000), priority := 3, entries := 16, ring := BitVec.ofNat 64 (vp 0x51000), controlAt := (1, 0x50000), ringAt := (1, 0x51000), state := .active }
/-- Queue 0 with these records published, a kernel at 0x60000. -/
def queued (rs : List (List Byte)) : State :=
  let t : State := { lab0.putView programCtx 1 ⟨1, 15, true, 0, 2, 0, 2 ^ 34⟩ with queues := [aQueue] }
  ((t.write (.vault 0 0x5001C) (toLE 4 rs.length)).write (.vault 0 0x51000) rs.flatten).write (.vault 0 0x60000) (headerBytes 1)
def takes (s : State) : Option Take := match (s.refreshQueue 0).headOf 0 with
  | some (_, q, _, _, t) => if q.state = .active ∧ (s.refreshQueue 0).queueTurn 0 then some t else none
  | none => none
def headIs (s : State) : List Byte := s.bytes (.vault 0 0x50018) 4
def launchRec : List Byte := rec' 1 0 1 (vp 0x60000) 0 (vp 0x70000)
theorem wit_queue_launch : (headerBytes 1).length = 64 ∧ launchRec.length = 64 ∧ takes (queued [launchRec]) = some .yes := by decide +kernel
theorem wit_queue_launched : (after (queued [launchRec]) (.launch 0)).launches.map (fun l => (l.num, l.count)) = [(1, 1), (2, 1)] ∧ headIs (after (queued [launchRec]) (.launch 0)) = [1, 0, 0, 0] := by
  decide +kernel
def settledCounter : State := (queued [rec' 2 1 0 (vp 0x70000) 0 0]).write (.vault 0 0x70003) [1]
theorem wit_queue_wait : takes settledCounter = some .yes ∧ headIs (after settledCounter (.wait 0)) = [1, 0, 0, 0] := by decide +kernel
def signalled : State := (queued [rec' 3 0 0 (vp 0x71000) 5 0]).write (.vault 0 0x71000) [0xFF]
/-- The lab's own launch came from queue 0: let it be queue 1's. -/
def apart (s : State) : State := { s with launches := s.launches.map fun l => { l with queue := 1 } }
theorem wit_queue_signal : takes (apart signalled) = some .yes ∧ (after (apart signalled) (.signal 0)).bytes (.vault 0 0x71000) 2 = [4, 1] := by decide +kernel
def prefetching : State := queued [rec' 4 0 0 (vp 0x30000) 0x1000 0]
theorem wit_queue_prefetch : takes prefetching = some .yes ∧ headIs (after prefetching (.prefetch 0)) = [1, 0, 0, 0] := by decide +kernel
def graphed : State := queued [rec' 5 0 1 (vp 0x72000) 0 0, launchRec]
theorem wit_queue_graph : takes graphed = some .yes := by decide +kernel
theorem wit_queue_graph_taken : headIs (after graphed (.graph 0)) = [2, 0, 0, 0] := by decide +kernel
/-- A kind above 5: BADREC, detail 1. -/
def badRecord : State := queued [rec' 6 0 0 0 0 0]
theorem wit_queue_bad : (match takes badRecord with | some (.bad code detail _) => (code, detail) | _ => (0, 0)) = (5, 1) ∧ (after badRecord (.launch 0)).queues.map (·.state) = [.error] ∧
    (after badRecord (.launch 0)).bytes (.vault 0 0x50024) 4 = [0, 0, 1, 5] := by decide +kernel

/-- A control block as a driver writes it (R252). -/
def controlBytes : List Byte := withCrc (toLE 4 0x51555A50 ++ toLE 2 1 ++ toLE 2 0 ++ toLE 1 3 ++ zeros 3 ++ toLE 4 16 ++ toLE 8 (vp 0x51000) ++ zeros 104) 0x7C
def unregistered : State := { (queued []).write (.vault 0 0x50000) controlBytes with queues := [] }
theorem wit_register_queue : controlBytes.length = 128 ∧ (unregistered.addQueue 0 (BitVec.ofNat 64 (vp 0x50000))).isSome = true ∧
    (after unregistered (.registerQueue 0 (BitVec.ofNat 64 (vp 0x50000)))).queues.map (fun q => (q.priority, q.entries, q.state)) = [(3, 16, .empty)] := by decide +kernel
/-- Misaligned by one byte. -/
theorem wit_register_queue_bad : (unregistered.addQueue 0 (BitVec.ofNat 64 (vp 0x50001))).isNone = true ∧ unregistered.broken = none := by decide +kernel
def inState (st : QueueState) : State := { apart (queued []) with queues := [{ aQueue with state := st }] }
theorem wit_queue_states : [QueueState.error, .disabled, .draining, .active, .empty, .blocked].map (fun st => (after (inState st) (.reset 0 false)).queues.map (·.state))
      = [[.empty], [.disabled], [.draining], [.active], [.empty], [.blocked]] ∧
    [QueueState.error, .disabled, .draining, .active].map (fun st => (after (inState st) (.disable 0)).queues.map (·.state)) = [[.draining], [.disabled], [.draining], [.draining]] ∧
    [QueueState.error, .disabled].map (fun st => (after (inState st) (.enable 0)).queues.map (·.state)) = [[.error], [.empty]] := by decide +kernel
/-- The failing record still stands at the head. -/
def failedAtHead : State := { apart (queued []) with queues := [{ aQueue with state := .error, atHead := true }] }
theorem wit_queue_skip : ((failedAtHead.queues.head?.bind fun q => failedAtHead.qPut programCtx q 0x18 4 1).map (·.broken)) = some none ∧ headIs (after failedAtHead (.reset 0 true)) = [1, 0, 0, 0] ∧
    headIs (after (inState .error) (.reset 0 true)) = [0, 0, 0, 0] := by
  decide +kernel
theorem wit_queue_drained : (inState .draining).queueSettled 0 = true ∧ [QueueState.draining, .active].map (fun st => (after (inState st) (.queueDrained 0)).queues.map (·.state)) = [[.disabled], [.active]] := by
  decide +kernel

/-- A launch of its own number beside the lab's block, on the one good cluster. -/
def second (gang localBytes : Nat) : Launch := { programLaunch with num := 2, count := gang, next := 0, state := .validated, header := { programHeader with gang, localBytes } }
def beside (l : Launch) (flags : BitVec 16) : State := { lab0 with
  badClusters := (List.range 48).drop 1, launches := [{ programLaunch with header := { programHeader with threads := 2, flags } }, l] }
theorem wit_block_place : ((beside (second 1 64) 0).pay 2 |>.launch? 2).isSome = true ∧ ((beside (second 1 64) 0).nextPlacing.map (·.1.num)) = some 2 ∧
    (beside (second 1 64) 0).gangStuck (second 1 64) = false ∧ ((beside (second 1 64) 0).blocks.any (beside (second 1 64) 0).endDue) = false := by decide +kernel
theorem wit_block_placed : (after (beside (second 1 64) 0) (.blockPlace 2)).blocks.map (·.key.launch) = [1, 2] := by decide +kernel
/-- Launch 1, its predecessor, has settled FAILED. -/
def orphan : State := let t := beside { second 1 64 with preds := [1] } 0; { t with launches := t.launches.map fun l => if l.num = 1 then { l with settled := true, code := 6 } else l }
theorem wit_block_place_lost : (orphan.launches.any fun x => x.num == 1 && x.settled && x.code != 1) = true ∧ (after orphan (.blockPlace 2)).launches.map (·.state) = [.running, .cancelled] := by decide +kernel
/-- A gang that needs the whole cluster's local memory waits. -/
def stuck (flags : BitVec 16) (wait drain : Option Nat) : State := beside { second 4 0x200000 with gangWait := wait, drain } flags
theorem wit_gang_waits : (stuck 0 none none).gangStuck (second 4 0x200000) = true ∧ ((after (stuck 0 none none) (.blockPlace 2)).launch? 2).map (·.gangWait) = some (some 0) := by decide +kernel
theorem wit_gang_reserve : (stuck 0 (some 0) none).gangStuck { second 4 0x200000 with gangWait := some 0 } = true ∧ (atClock (stuck 0 (some 0) none) (2 ^ 20)).now = 2 ^ 20 ∧
    ((after (atClock (stuck 0 (some 0) none) (2 ^ 20)) (.drainClusterReserve 2)).launch? 2).map (·.drain) = some (some 0) ∧
    ((after (atClock (stuck 0 (some 0) none) (2 ^ 20 - 1)) (.drainClusterReserve 2)).launch? 2).map (·.drain) = some none := by decide +kernel
def drained (flags : BitVec 16) : State := atClock (stuck flags (some 0) (some 0)) (2 ^ 20 + 2 ^ 24)
/-- The PREEMPTIBLE block in the way is evicted; a PERSISTENT one stays, and the launch is rejected. -/
theorem wit_gang_evict : (drained 1).fitsWithout { second 4 0x200000 with gangWait := some 0, drain := some 0 } 0 [programKey] = true ∧
    (after (drained 1) (.gangEvictDecision 2)).blocks.map (·.phase) = [.evicting] := by decide +kernel
theorem wit_gang_reject : (drained 2).fitsWithout { second 4 0x200000 with gangWait := some 0, drain := some 0 } 0 [] = false ∧
    ((after (drained 2) (.gangEvictDecision 2)).launch? 2).map (·.state) = some .rejected := by decide +kernel
def evicting (bytes : Nat) : State := { beside (second 1 64) 1 with groups := [{ programGroup with alloc := 8 }], threads := [thr 0], ctxs := [{ programCtx with saveBytes := bytes }], blocks := [{ programBlock with threads := 2, regions := 0, tiles := 0, localBytes := 64, phase := .evicting }], regions := [] }
theorem wit_eviction_done : (evicting 0x1000000).blocks.all ((evicting 0x1000000).quiet · true) = true ∧ (after (evicting 0x1000000) (.blockEvictionDone programKey)).kept.map (·.evicted) = [true] := by decide +kernel
theorem wit_eviction_no_room : (after (evicting 64) (.blockEvictionDone programKey)).blocks.map (·.phase) = [.running] := by decide +kernel
def ended : State := eachThread lab0 fun t => { t with life := .exited }
theorem wit_block_end : ended.blocks.map ended.endDue = [true] ∧ ended.blocks.map (·.phase) = [.running] ∧ (after ended (.blockEnd programKey)).blocks = [] := by decide +kernel
def continuing (n : Nat) : State := atClock { lab0 with launches := [{ programLaunch with header := { programHeader with threads := 2 }, open_ := [(1, 0, [[7]])] }] } n
theorem wit_continuation : ((after (continuing 4096) (.continuationGroupTimeout 1 1)).launches.map fun l => (l.open_.length, l.ready.length)) = [(0, 1)] ∧
    ((after (continuing 4095) (.continuationGroupTimeout 1 1)).launches.map fun l => (l.open_.length, l.ready.length)) = [(1, 0)] := by decide +kernel

/-! ### Contexts, views, pages (R242 to R251, R317, R339, R347 to R350) -/

/-- A context control block of this number and view table size. -/
def contextBytes (num views : Nat) : List Byte := withCrc (toLE 4 0x43545A50 ++ toLE 2 1 ++ toLE 2 num ++ zeros 4 ++ toLE 4 views ++ toLE 8 0x1000 ++ toLE 8 0x2000 ++ toLE 4 2 ++ toLE 4 64 ++ toLE 8 0x4000 ++ toLE 8 0x5000 ++
  zeros 8 ++ toLE 8 0x100000 ++ toLE 8 0x1000000 ++ zeros 48) 0x7C
def offered (num : Nat) : State := lab0.write (.vault 0 0x90000) (contextBytes num 16)
theorem wit_register_context : (contextBytes 1 16).length = 128 ∧ (readContext 0 0x90000 (contextBytes 1 16)).map (·.num) = some 1 ∧
    (after (offered 1) (.registerContext 0 0x90000)).ctxs.map (fun c => (c.num, c.state)) = [(0, .running), (1, .created)] := by decide +kernel
theorem wit_register_context_again : (readContext 0 0x90000 (contextBytes 0 16)).map (·.num) = some 0 ∧ (after (offered 0) (.registerContext 0 0x90000)).replies = [.badState] := by decide +kernel
/-- 4 MiB of view entries are taken already. -/
def crowded : State := { offered 1 with ctxs := [2, 3, 4, 5].map fun n => { programCtx with num := n, viewEntries := 2 ^ 20 } }
theorem wit_register_context_full : (after crowded (.registerContext 0 0x90000)).replies = [.noSpace] := by decide +kernel
def ctxIn (st : CtxState) : State := { beside (second 1 64) 1 with ctxs := [{ programCtx with state := st }], groups := [{ programGroup with alloc := 8 }], threads := [thr 0], regions := [], blocks := [{ programBlock with threads := 2, regions := 0, tiles := 0, localBytes := 64 }] }
theorem wit_context_start : (after (ctxIn .created) (.start 0)).ctxs.map (·.state) = [.runnable] ∧ (after (ctxIn .running) (.start 0)).replies = [.badState] := by decide +kernel
/-- A context that never ran has no block. -/
def idleCtx : State := { ctxIn .runnable with blocks := [], threads := [], groups := [] }
theorem wit_context_preempt : (after (ctxIn .running) (.preempt 0)).ctxs.map (·.state) = [.preempting] ∧ (after (ctxIn .saved) (.preempt 0)).replies = [.badState] := by decide +kernel
theorem wit_context_preempt_idle : (after idleCtx (.preempt 0)).ctxs.map (·.state) = [.saved] := by decide +kernel
theorem wit_context_saved : ((ctxIn .preempting).blocksOf 0).all ((ctxIn .preempting).quiet · true) = true ∧ (after (ctxIn .preempting) (.preemptSaveDone 0)).ctxs.map (·.state) = [.saved] := by decide +kernel
/-- Cause 0x10 of lane 0. -/
def laneFault : FaultImage := { reason := 0x10, launch := 1, mask := 1, hit := 1, infos := [(0, 0)], offsets := [(0, 0)], names := [(0, tid 0)] }
def faulting : State := { ctxIn .running with ctxs := [{ programCtx with fault := some laneFault }] }
/-- Writing a fault image and its record breaks nothing where both lie in the Vault. -/
theorem raiseFault_sound {s : State} {c : Ctx} {img : FaultImage} {n : Nat} (hb : s.broken = none) (hq : s.queues = []) (hc : s.ctxs = [c]) (hr : c.heldRecords = [])
    (hp : c.quarter < 4 ∧ c.saveBase < 2 ^ 28 ∧ c.control < 2 ^ 28 ∧ c.faultBase < 2 ^ 28 ∧ c.faultTail < 65536) (hn : img.bytes.length < 2 ^ 28) : (s.raiseFault c img n).broken = none := by
  obtain ⟨h1, h2, h3, h4, ht⟩ := hp
  have ex : ∀ a n, a + n < 2 ^ 30 → (PAddr.vault c.quarter a).exists_ n = true := by
    intro a n h
    have : vaultBytes = 3 * 2 ^ 30 := by decide
    simp only [PAddr.exists_, h1, decide_true, Bool.true_and, decide_eq_true_eq]; omega
  have hw : ∀ (u : State) a (bs : List Byte), u.broken = none → a + bs.length < 2 ^ 30 → (u.write (.vault c.quarter a) bs).broken = none := by
    intro u a bs hu h; rw [State.write_broken u _ _ (ex a _ h)]; exact hu
  have hcs : ∀ (u : State) p bs, (u.write p bs).ctxs = u.ctxs ∧ (u.write p bs).queues = u.queues := by
    intro u p bs; unfold State.write; split
    · cases p <;> exact ⟨rfl, rfl⟩
    · cases p <;> (try unfold State.break; cases u.broken) <;> exact ⟨rfl, rfl⟩
  have hl : ∀ n v, (toLE n v).length = n := by
    intro n; induction n with
    | zero => intro v; rfl
    | succ n ih => intro v; simp [toLE, ih]
  have key : ∀ u : State, u.broken = none → u.ctxs = [c] → u.queues = [] → ∀ r : List Byte, r.length = 32 →
      (((u.faultRecord c.num r).modCtx c.num fun c => { c with resuming := false }).setCtxState c.num .faulted |>.disableQueues c.num).broken = none := by
    intro u hu hx hy r hrl
    have hf : ∀ v : State, v.broken = none → (∃ d, v.ctxs = [d] ∧ d.num = c.num ∧ d.quarter = c.quarter ∧ d.control = c.control) → v.queues = [] →
        (((v.modCtx c.num fun c => { c with resuming := false }).setCtxState c.num .faulted).disableQueues c.num).broken = none := by
      intro v hv ⟨d, hd, e1, e2, e3⟩ hqv
      have hx : (v.modCtx c.num fun c => { c with resuming := false }).ctx? c.num = some { d with resuming := false } := by
        simp [State.modCtx, State.ctx?, hd, e1]
      simp only [State.setCtxState, hx, State.writeVal, e2, e3]
      have hq2 : ∀ w : State, w.queues = [] → w.disableQueues c.num = w := by intro w hw; simp [State.disableQueues, hw]
      rw [hq2 _ (by rw [(hcs _ _ _).2]; exact hqv)]
      exact hw _ _ _ hv (by rw [hl]; omega)
    have e : u.ctx? c.num = some c := by simp [State.ctx?, hx]
    have e2 : (u.modCtx c.num fun c => { c with heldRecords := c.heldRecords ++ [r] }).ctx? c.num = some { c with heldRecords := [r] } := by
      simp [State.modCtx, State.ctx?, hx, hr]
    have e3 : (u.modCtx c.num fun c => { c with heldRecords := c.heldRecords ++ [r] }).ctxs = [{ c with heldRecords := [r] }] := by
      simp [State.modCtx, hx, hr]
    simp only [State.faultRecord, e, hr, List.length_nil, State.flushRecords, e2]
    split
    · exact hf _ hu ⟨_, e3, rfl, rfl, rfl⟩ hy
    · refine hf _ (hw _ _ _ (hw _ _ _ hu ?_) ?_) ⟨{ c with heldRecords := [], faultTail := (c.tail 0 + 1) % c.queueEntries }, ?_, rfl, rfl, rfl⟩ ?_
      · simp only [Ctx.tail, if_true]; omega
      · rw [hl]; simp only []; omega
      · simp only [State.modCtx, State.pushRecord, State.writeVal, (hcs _ _ _).1]; simp [hx, hr, Ctx.tail]
      · simp only [State.modCtx, State.pushRecord, State.writeVal, (hcs _ _ _).2]; exact hy
  unfold State.raiseFault
  simp only []
  split
  · exact key _ (hw _ _ _ hb (by omega)) ((hcs _ _ _).1.trans hc) ((hcs _ _ _).2.trans hq) _ (by simp [mkRecord, hl])
  · exact key _ hb hc hq _ (by simp [mkRecord, hl])
def faultCtx0 : Ctx := { programCtx with fault := some laneFault }
theorem wit_context_fault_saved : (match faulting.saveBlocks faultCtx0 (faulting.blocksOf 0) false with
    | some t => decide ((t.dropCaches faultCtx0).broken = none) && decide ((t.dropCaches faultCtx0).queues = []) && decide ((t.dropCaches faultCtx0).ctxs = [faultCtx0])
    | none => false) = true := by decide +kernel
theorem wit_context_fault : faulting.ctxs = [faultCtx0] ∧ (faulting.blocksOf 0).all (faulting.quiet · false) = true ∧ ∃ t, faulting.saveBlocks faultCtx0 (faulting.blocksOf 0) false = some t ∧
    ((t.dropCaches faultCtx0).raiseFault faultCtx0 laneFault (faulting.faultThread laneFault)).broken = none := by
  refine ⟨rfl, by decide +kernel, ?_⟩
  have h := wit_context_fault_saved
  split at h
  · rename_i t ht
    simp only [Bool.and_eq_true, decide_eq_true_eq] at h
    exact ⟨t, ht, raiseFault_sound h.1.1 h.1.2 h.2 rfl (by decide) (by decide +kernel)⟩
  · cases h
theorem wit_context_resume : (after (ctxIn .saved) (.resume 0)).ctxs.map (·.resuming) = [true] ∧ (after (ctxIn .running) (.resume 0)).replies = [.badState] := by decide +kernel
/-- A saved context without blocks: its save header of no areas, the directory at 0x2000. -/
def saveBytes0 : List Byte := let h := toLE 4 0x53565A50 ++ toLE 2 1 ++ toLE 2 0 ++ zeros 24 ++ toLE 8 0x2000; h ++ toLE 4 (crc32c h) ++ zeros 4
def resumed (h : List Byte) : State := { idleCtx.write (.vault 0 0x100000) h with ctxs := [{ programCtx with state := .saved, resuming := true, saveBytes := 0x1000 }] }
theorem wit_context_restore : saveBytes0.length = 48 ∧ (resumed saveBytes0).ctxs.map (resumed saveBytes0).saveHeaderOk = [true] ∧ (after (resumed saveBytes0) (.restoreDone 0)).ctxs.map (·.state) = [.runnable] := by decide +kernel
theorem wit_context_restore_bad : (resumed []).ctxs.map (resumed []).saveHeaderOk = [false] ∧ ((after (resumed []) (.restoreDone 0)).ctxs.map fun c => c.state) = [.faulted] := by decide +kernel
theorem wit_context_destroy : (after (ctxIn .running) (.destroy 0)).ctxs.map (·.state) = [.destroyed] ∧ (after (ctxIn .destroyed) (.destroy 0)).replies = [.badState] := by decide +kernel

theorem wit_viewroot : lab0.anyFree programCtx = some 1 ∧ (lab0.object? programCtx 1).isSome = true ∧ (lab0.liveCtx 0).isSome = true ∧
    (after lab0 (.viewroot 0 1 0 (2 ^ 40) 15)).replies = [.pointer (mkPtr 1 0 0)] := by decide +kernel
theorem wit_viewroot_bad : (after lab0 (.viewroot 0 1 1 0 15)).replies = [.badArg] ∧ (after lab0 (.viewroot 0 1 0 (2 ^ 40 + 1) 15)).replies = [.badArg] ∧ (after lab0 (.viewroot 0 1 0 0 16)).replies = [.badArg] := by
  decide +kernel
/-- A view table of the two entries 0 and 1, and entry 1 is LIVE or RETIRED. -/
def oneView (st : Nat) : State := { lab0.putView programCtx 1 ⟨1, 15, true, 7, st, 0, 2 ^ 34⟩ with ctxs := [{ programCtx with viewEntries := 2 }] }
theorem wit_viewroot_full : (oneView 2).anyFree { programCtx with viewEntries := 2 } = none := by decide +kernel
theorem wit_viewrecycle : ((oneView 3).viewEntry programCtx 1).state = 3 ∧ ((after (oneView 3) (.viewrecycle 0 1)).viewEntry programCtx 1).gen = 0 := by decide +kernel
theorem wit_viewrecycle_bad : (after (oneView 3) (.viewrecycle 0 0)).replies = [.badState] ∧ (after (oneView 3) (.viewrecycle 0 2)).replies = [.badState] ∧ (after (oneView 2) (.viewrecycle 0 1)).replies = [.badState] := by
  decide +kernel

/-- Object 2 is one 4 KiB page in this state, with frame 0x40000; its table stands at 0x8000. -/
def ctx3 : Ctx := { programCtx with objEntries := 3 }
def paged (st : Nat) : State :=
  let t : State := { queued [] with ctxs := [ctx3], pageRing := some 0 }
  ((((t.write (.vault 0 0x2040) (toLE 4 3 ++ zeros 4 ++ toLE 8 0x8000 ++ toLE 8 0x1000)).writeVal (.vault 0 0x8000) 16 0x9006).writeVal (.vault 0 0x9000) 16 0xA006).writeVal (.vault 0 0xA000) 16 0xB006).writeVal
    (.vault 0 0xB000) 16 (0x40000 + st)
def command (kind mode : Nat) : List Byte :=
  withCrc (toLE 1 kind ++ toLE 1 mode ++ zeros 2 ++ toLE 4 0 ++ toLE 5 0 ++ toLE 3 2 ++ toLE 8 0x80000 ++ toLE 8 (vp 0x70000) ++ toLE 8 0x42000 ++ zeros 20 ++ zeros 4) 0x3C
def commanded (st : Nat) (r : List Byte) : State := ((paged st).write (.vault 0 0x5001C) (toLE 4 1)).write (.vault 0 0x51000) r
def leafState (s : State) : Nat := match s.object? ctx3 2 with
  | some o => match s.walk o 0 with
    | .leaf l => l.entry.state + 8 * l.entry.frame
    | _ => 7
  | none => 7
theorem wit_page_leaf : (command 0x10 0).length = 64 ∧ leafState (paged 0) = 0x200000 ∧ leafState (paged 2) = 0x200002 := by decide +kernel
theorem wit_page_fill : (commanded 0 (command 0x10 0)).pageCheck ctx3 (command 0x10 0) = 0 ∧ leafState (after (commanded 0 (command 0x10 0)) .fill) = 8 * 0x42000 + 1 := by decide +kernel
theorem wit_page_evict : (commanded 2 (command 0x11 0)).pageCheck ctx3 (command 0x11 0) = 0 ∧ leafState (after (commanded 2 (command 0x11 0)) .evict) = 8 * 0x40000 + 3 := by decide +kernel
/-- Mode 3 is none of a FILL's. -/
theorem wit_page_bad : (commanded 0 (command 0x10 3)).pageCheck ctx3 (command 0x10 3) = 3 ∧ (after (commanded 0 (command 0x10 3)) .fill).queues.map (·.state) = [.error] := by decide +kernel
def pageOp (evict : Bool) (mode : Nat) : PageOp := { evict, mode, ctx := 0, obj := 2, off := 0xFFF, source := 0x80000, counter := BitVec.ofNat 64 (vp 0x70000), counterCtx := 0, frame := 0x42000, length := 0 }
def operating (st : Nat) (evict : Bool) (mode : Nat) (grant : Bool) : State := { paged st with pageOps := [pageOp evict mode], poolGrants := if grant then [(0, 2 ^ 44)] else [] }
theorem wit_page_refuses : ((paged 0).pageLeaf (pageOp false 0)).map (fun x => x.2.2.refuses (pageOp false 0)) = some 0 ∧ ((paged 1).pageLeaf (pageOp false 0)).map (fun x => x.2.2.refuses (pageOp false 0)) = some 1 := by
  decide +kernel
theorem wit_fill_done : leafState (after (operating 1 false 0 false) (.fillDone 0)) = 0x200002 ∧ (after (operating 1 false 0 false) (.fillDone 0)).bytes (.vault 0 0x70000) 4 = [0, 0, 0, 1] := by decide +kernel
/-- A copy of a source that the pool has not granted: FAILED, detail 7. -/
theorem wit_fill_refused : leafState (after (operating 1 false 1 false) (.fillDone 0)) = 0x200000 ∧ (after (operating 1 false 1 false) (.fillDone 0)).bytes (.vault 0 0x70000) 4 = [0, 0, 7, 6] := by decide +kernel
theorem wit_eviction_end : leafState (after (operating 3 true 0 false) (.evictionDone 0)) = 0x200000 := by decide +kernel
theorem wit_eviction_written : (operating 3 true 1 true).poolGranted 0x80000 4096 = true ∧ (operating 3 true 1 true).poisoned (.vault 0 0x40000) 4096 = false := by decide +kernel
theorem wit_eviction_back : leafState (after (operating 3 true 1 true) (.evictionDone 0)) = 0x200000 := by decide +kernel
theorem wit_soft_error : (PAddr.vault 3 (vaultBytes - 1)).exists_ 1 = true ∧ (after lab0 (.softError 0 0x30000 false)).poisoned (.vault 0 0x30003) 1 = true ∧ (after lab0 (.softError 0 0x30000 true)).softErrors = 1 := by
  decide +kernel
theorem wit_frame_lost : leafState (after (paged 2) (.frameLost 0 2 0)) = 0x200004 ∧ leafState (after (paged 0) (.frameLost 0 2 0)) = 0x200000 := by decide +kernel
theorem wit_page_ring : ((unregistered.pageRing = none) ∧ (unregistered.addQueue 0 (BitVec.ofNat 64 (vp 0x50000))).isSome = true) ∧ (paged 0).pageRing = some 0 ∧ (after (paged 0) (.pagering 0 0)).replies = [.badState] := by
  decide +kernel

/-! ### The device and its debugging (R3, R312, R366, R368, R375 to R388) -/

def booted (sig cal ident : Bool) : BringUpResult := ⟨sig, cal, 2, [5], ident, 511, false⟩
def brought (r : BringUpResult) : Bool × Option Nat × Bool × Nat × List Nat := let t := after State.reset (.bringUp r); (t.ready, t.bootStep, t.error, t.device, t.badQuarters)
theorem wit_bring_up : State.reset.broken = none ∧ State.reset.ready = false ∧ State.reset.bootStep = none ∧ brought (booted true true true) = (true, none, true, 511, [1]) ∧
    brought (booted true true false) = (false, some 5, true, 511, [1]) ∧ (brought (booted true false true)).2.1 = some 2 ∧ (brought (booted false true true)).2.1 = some 1 := by decide +kernel
theorem wit_power_loss : (after lab0 .powerLoss).threads = [] ∧ (after lab0 .powerLoss).vault = [] ∧ lab0.vault ≠ [] := by decide +kernel
theorem wit_pstate : Rule.awake lab0 ∧ [0, 1, 2, 3, 4].map (lab0.power.allows ·) = [false, true, true, true, true] ∧ (after lab0 (.pstate 2 4)).pwrReq = some (2, [2]) ∧ (after lab0 (.pstate 0 4)).replies = [.badState] := by
  refine ⟨⟨by decide +kernel, by decide +kernel, by decide +kernel⟩, ?_⟩; decide +kernel
theorem wit_pstate_waits : (after { lab0 with pwrReq := some (2, [2]) } (.pstate 2 4)).replies = [.badState] := by decide +kernel
def emptied (r : Nat × List Nat) : State := { lab0 with pwrReq := some r, blocks := [], groups := [], threads := [] }
theorem wit_pstate_reached : (emptied (2, [2])).powerReady 2 [2] = true ∧ (after (emptied (2, [2])) .pstateReached).gated = [2] ∧ (after (emptied (1, [])) .pstateReached).power = .p1 ∧
    (after (emptied (4, [])) .pstateReached).powered = false := by decide +kernel
theorem wit_pstate_not_yet : ({ lab0 with pwrReq := some (2, [0]) } : State).powerReady 2 [0] = false := by decide +kernel
theorem wit_limiter : (0 : Nat) < lab0.cores.length ∧ (lab0.core 0).clock % 256 = 0 ∧ ((after (core0 lab0 fun c => { c with issued := 9, engineStarts := 4 }) (.currentLimiterWindow 0)).core 0).issued = 0 := by
  decide +kernel
theorem wit_lifecycle : [Lifecycle.factory, .development, .production, .returned].map (fun l => (after { lab0 with lifecycle := l } .lifecycleAdvance).lifecycle) = [.development, .production, .returned, .returned] := by
  decide +kernel
theorem wit_debug_level : lab0.lifecycle = .production ∧ (after lab0 (.debugLevel 1 false)).debug = .observe ∧ (after lab0 (.debugLevel 2 false)).replies = [.badState] ∧ (after lab0 (.debugLevel 3 true)).replies = [.badState] ∧
    (after { lab0 with lifecycle := .development } (.debugLevel 2 false)).debug = .invasive ∧ (after lab0 (.debugLevel 2 true)).debug = .invasive := by decide +kernel
theorem wit_attest : runs { lab0 with identity := true } (.attest 7) = true ∧ ({ lab0 with identity := true } : State).lifecycle ≠ .returned ∧ (after { lab0 with identity := false } (.attest 7)).replies = [.badState] := by
  decide +kernel
/-- Quarter 3's counter is 5 ns ahead of quarter 2's, ten units of 0.5 ns (the last of the pairs); the last link is UP (the last index). -/
def skewed : State := { lab0 with ready := true, quarterClocks := [0, 0, 7, 12] }
theorem wit_skew : skewed.linksOff = false ∧ skewPairs[5]? = some (2, 3) ∧ sget (after skewed (.skewMeasure 5 0)).skews 5 = 10 ∧
    sget (after (skewed.modLink 47 fun x => { x with state := .up }) (.skewMeasure 53 0x80)).skews 53 = 0x80 ∧ sget (after skewed (.skewMeasure 53 0x80)).skews 53 = 0 ∧
    sget (after skewed (.skewMeasure 54 0x80)).skews 54 = 0 := by decide +kernel
theorem wit_registers : (after lab0 (.registerWrite .planemap 0xFFFFFFFF)).planemap = 0xFFFFFF ∧ (after lab0 (.registerWrite .devstat 1)) = lab0 ∧ (after lab0 (.registerWrite (.skew 511) 1)) = lab0 ∧
    ((after lab0 (.registerWrite (.integrityMode 47) 0x181)).link 47).integrity = 0x81 := by decide +kernel
theorem wit_register_group : ((after lab0 (.registerWrite (.groupEntry 4095 127) 0x1FF)).groupEntry 4095).getD 127 0 = 0xFF := by decide +kernel
def observed : State := { lab0 with debug := .observe }
theorem wit_register_sampling : (observed.liveCtx 0).isSome = true ∧ observed.observable programCtx = true ∧ ([0, 6, 20].all fun n => (after observed (.registerWrite (.sampling 0) (BitVec.ofNat 32 n))).ctxs.all fun c => c.sampling == n) = true := by
  decide +kernel
/-- A saved context's memory is the host's. -/
def hosted : State := { lab0 with ctxs := [{ programCtx with state := .saved }] }
theorem wit_host_access : ({ programCtx with state := .saved } : Ctx).mayAccess = false ∧ (after hosted (.hostAccess 0 1 0x30000 (some [1, 2]) 2)).bytes (.vault 0 0x30000) 2 = [1, 2] ∧
    (after hosted (.hostAccess 0 1 0x2020 none 1)).replies = [.report [3]] := by decide +kernel

def invaded : State := { lab0 with debug := .invasive }
theorem wit_breakpoint : (after invaded (.breakpointRegisterWrite 0 7 1 12 true)).ctxs.map (fun c => c.breaks.getD 7 (0, none)) = [(1, some 12)] ∧ (after observed (.breakpointRegisterWrite 0 7 1 12 true)).replies = [.badState] := by
  decide +kernel
theorem wit_debug_resume : observed.debug ≠ .none ∧ (after (eachThread invaded fun t => { t with stopped := true }) (.debugResume (some programKey))).threads.map (·.stopped) = [false, false] ∧
    (after { invaded with debugHalt := true, deepHalt := true } (.debugResume none)).debugHalt = false := by decide +kernel
theorem wit_debug_halt : (after invaded (.debugHalt true)).blocks.map (·.frozen) = [true] ∧ (after observed (.debugHalt true)).replies = [.badState] := by decide +kernel
theorem wit_deep_halt : (after invaded .deepHalt).portsOff = true ∧ (after lab0 (.dbghold 1)).dbghold = 1 ∧ (after { lab0 with dbghold := 1 } (.dbgresume 1)).dbghold = 0 ∧ lab0.device = 0 := by decide +kernel
theorem wit_debug_read : runs { observed with debugHalt := true } (.debugRegisterAccess (tid 1) (.vector 255) none) = true ∧ ((observed.thread? (tid 1)).map (·.stopped)) = some false ∧
    (after observed (.debugRegisterAccess (tid 1) (.vector 255) none)).replies = [.busy] ∧ (after observed (.debugRegisterAccess (tid 1) (.vector 2) (some 7))).replies = [.badState] ∧
    (after { invaded with debugHalt := true } (.debugRegisterAccess (tid 1) (.vector 2) (some 7))).cell (.vec 0 2 1) = 7 := by decide +kernel
theorem wit_dump : (after { observed with ctxs := [{ programCtx with state := .saved }] } (.dump 0 0x80000000 4096)).ctxs.map (fun c => c.dump.isSome) = [true] ∧
    (after observed (.dump 0 0x80000000 4096)).ctxs.map (fun c => (c.dump.isSome, c.state)) = [(true, .preempting)] ∧ (after lab0 (.dump 0 0x80000000 4096)).replies = [.badState] := by decide +kernel
theorem wit_dump_release : (after observed (.dumpRelease 0)).replies = [.badState] ∧
    (after { observed with ctxs := [{ programCtx with dump := some { first := 0, size := 0, used := 0, copied := [] } }] } (.dumpRelease 0)).ctxs.map (fun c => c.dump.isSome) = [false] := by decide +kernel
def ringed : State := { unregistered with debug := .observe }
theorem wit_trace_ring : (ringed.readQueue programCtx (BitVec.ofNat 64 (vp 0x50000))).isSome = true ∧ (after ringed (.registerTraceRing 0 (BitVec.ofNat 64 (vp 0x50000)))).ctxs.map (·.traceRing) = [some (BitVec.ofNat 64 (vp 0x50000))] ∧
    (after lab0 (.registerTraceRing 0 (BitVec.ofNat 64 (vp 0x50000)))).replies = [.badState] := by decide +kernel
def sampled : State := core0 { lab0 with ctxs := [{ programCtx with sampling := 6 }] } fun c => { c with samples := [{ id := 5, tid := tid 0, obj := 1, off := 0x30000, pc := 0 }] }
theorem wit_sample : ((sampled.thread? (tid 0)).map (·.core)) = some 0 ∧ runs sampled (.sampleRecord 0 (tid 0) [0x6FFF, 0] 1 0x30000) = true := by decide +kernel

/-! ### The fabric (R196, R251, R352 to R366) -/

/-- A domain of two devices. -/
def twoDevices (s : State) : State := { s with routes := s.routes.map fun r => { r with bank0 := { r.bank0 with places := [(0, 0), (1, 1)] } } }
def linked (l : Nat) (x : Link) : State := (twoDevices lab0).modLink l fun _ => x
/-- Link 47 in a state, with lanes, after a step: its state and lanes. -/
def hop (x : Link) (i : Instr) : LinkState × Nat := let t := after (linked 47 x) i; ((t.link 47).state, (t.link 47).lanes)
theorem wit_link : lab0.hasLink 47 = true ∧ lab0.links.length = 48 ∧ hop {} (.linkTrain 47) = (.training, 4) ∧ hop { state := .training } (.linkTrained 47 1) = (.failed, 4) ∧
    hop { state := .training } (.linkTrained 47 2) = (.keying, 2) ∧ hop { state := .training } (.linkTrained 47 4) = (.keying, 4) ∧ hop { state := .training } (.linkTrainingTimeout 47) = (.failed, 4) := by decide +kernel
theorem wit_link_keyed : hop { state := .keying } (.linkKeyed 47 false) = (.failed, 4) ∧ hop { state := .keying } (.linkKeyed 47 true) = (.up, 4) ∧ hop { state := .keying, lanes := 3 } (.linkKeyed 47 true) = (.degraded, 3) := by
  decide +kernel
theorem wit_link_lanes : hop { state := .up } (.laneLost 47) = (.degraded, 3) ∧ hop { state := .degraded, lanes := 3 } (.laneLost 47) = (.degraded, 2) ∧ hop { state := .degraded, lanes := 2 } (.laneLost 47) = (.failed, 2) := by
  decide +kernel
def noisy (c now : Nat) : State := atClock (linked 47 { state := .up, crcErrors := List.replicate 15 now ++ [c] }) now
theorem wit_link_crc : ((noisy 7 (7 + 2 ^ 20)).link 47).crcErrors[15]? = some 7 ∧ ((after (noisy 7 (7 + 2 ^ 20)) (.crcErrorThreshold 47)).link 47).state = .retraining ∧
    ((after (noisy 7 (8 + 2 ^ 20)) (.crcErrorThreshold 47)).link 47).state = .up := by decide +kernel
theorem wit_link_retrain : hop { state := .degraded } (.linkRetrain 47) = (.retraining, 4) ∧ hop { state := .up } (.linkRetrain 47) = (.up, 4) ∧ hop { state := .retraining } (.retrainingDone 47 4) = (.up, 4) ∧
    hop { state := .retraining } (.retrainingDone 47 2) = (.degraded, 2) ∧ hop { state := .retraining, failures := 1 } (.retrainingDone 47 1) = (.retraining, 4) ∧
    hop { state := .retraining, failures := 2 } (.retrainingDone 47 1) = (.failed, 4) ∧ hop { state := .failed } (.linkRepair 47) = (.down, 4) ∧ hop {} (.linkRepair 47) = (.down, 4) := by decide +kernel
theorem wit_link_rekey : ((after (linked 47 { state := .up, flits := 2 ^ 32 }) (.rekey 47)).link 47).flits = 0 ∧ ((after (linked 47 { state := .up, flits := 2 ^ 32 - 1 }) (.rekey 47)).link 47).flits = 2 ^ 32 - 1 := by decide +kernel
theorem wit_link_timer : (after (linked 47 { state := .up, stalled := [0, 0, 0, 0, 0, 0, 0, 2 ^ 20] }) (.noProgressTimer 47 7 true)).slowLog = [(47, 7)] ∧
    hop { state := .up, stalled := [0, 0, 0, 0, 0, 0, 0, 2 ^ 20] } (.noProgressTimer 47 7 false) = (.retraining, 4) ∧ hop { state := .up, stalled := [0, 0, 0, 0, 0, 0, 0, 2 ^ 20 - 1] } (.noProgressTimer 47 7 false) = (.up, 4) ∧ lab0.dbghold = 0 := by decide +kernel
/-- The last sequence number, taken in order, out of order and damaged. -/
def flit (seq : BitVec 8) (good : Bool) : Flit := { makeFlit (flitLow 1 true false true 3 seq) (zeros 128) 0 with gmacOk := good }
def hears (f : Flit) : State := after (linked 47 { state := .up, expect := 255 }) (.flitReceive 47 (.flit f))
def heard (f : Flit) : BitVec 8 × Nat × Nat := let x := (hears f).link 47; (x.expect, x.replays, x.credits.getD 1 9)
theorem wit_link_flit : heard (flit 255 true) = (0, 0, 3) ∧ heard (flit 254 true) = (255, 0, 0) ∧ heard (flit 255 false) = (255, 1, 0) := by decide +kernel
theorem wit_link_told : (hears (flit 255 true)).wire = [(47, .ack 255)] ∧ (hears (flit 254 true)).wire = [] ∧ (hears (flit 255 false)).wire = [(47, .replay 255)] := by decide +kernel
/-- The place of each field in a header, by hand from the table of R358: class 1, VC 1, FIRST, LAST, GMAC, 3 credits, sequence 254. -/
theorem test_flit_low : flitLow 3 true true true 3 254 = 0x7C0003FE#32 := by decide +kernel
/-- Plane 7 has failed; its neighbour in turn is plane 0. -/
theorem wit_remap : (7 : Nat) < 8 ∧ (linked 42 { state := .failed }).planemap = 0xFAC688 ∧ (after (linked 42 { state := .failed }) (.remap 7 0)).planemap = 0x1AC688 := by decide +kernel
def banked (r : Routes) : State := { lab0 with routes := lab0.routes.set 7 r }
theorem wit_routes : (after lab0 (.routingBankUpdate 7 (4, 4, 2) [(0, 1)])).bank 7 = { rings := (4, 4, 2), places := [(0, 1)] } ∧ lab0.routes.length = 8 ∧
    ((after (banked { retiring := true }) (.bankRetire 7)).routes.getD 7 {}).drained = some lab0.now ∧
    ((after (atClock (banked { retiring := true, drained := some 9 }) (9 + 2 ^ 16)) (.bankRetire 7)).routes.getD 7 {}).retiring = false ∧
    ((after (atClock (banked { retiring := true, drained := some 9 }) (8 + 2 ^ 16)) (.bankRetire 7)).routes.getD 7 {}).retiring = true := by decide +kernel
/-- Object 2 is at device 9. -/
def peerTable : State := { lab0.write (.vault 0 0x2040) (toLE 4 0xB ++ toLE 2 0 ++ toLE 2 9 ++ zeros 8 ++ toLE 8 0x1000) with ctxs := [ctx3] }
theorem wit_device_failed : (peerTable.object? ctx3 2).map (fun o => (o.home, o.peer)) = some (2, 9) ∧ (after peerTable (.deviceFailureDetected 9)).ctxs.map (fun c => c.fault.map (·.reason)) = [some reasonPeerLost] ∧
    (after peerTable (.deviceFailureDetected 8)).ctxs.map (fun c => c.fault.isNone) = [true] := by decide +kernel

/-! Packets of device 5 to this device, on object 1 at 0x30000. -/

def pk (kind : Nat) (data : List Byte) : Packet := { kind, flags := 0, dst := 0, src := 5, ctx := 0, obj := 1, off := 0x30000, tag := 77, op := 0, group := 0, plane := 3, length := if kind = 1 then 4 else data.length, data }
def answered (s : State) (i : Instr) : List (Nat × List Byte) := (after s i).outbox.map fun p => (p.kind, p.data)
theorem wit_packet : lab0.portsOff = false ∧ lab0.device = 0 ∧ lab0.heldAnswer (pk 2 [1]) = none ∧ lab0.isHere (pk 2 [1]) = true ∧ lab0.mustWait (pk 2 [1]) = false := by decide +kernel
/-- The second of two packets of one source for one line waits for the first (R310). -/
theorem test_packet_order : ({ lab0 with inbox := [pk 2 [1], pk 1 []] } : State).mustWait (pk 1 []) = true ∧ ({ lab0 with inbox := [pk 2 [1], pk 1 []] } : State).mustWait (pk 2 [1]) = false := by decide +kernel
theorem wit_read : answered (lab0.write (.vault 0 0x30000) [1, 2, 3, 4]) (.read (pk 1 [])) = [(6, [1, 2, 3, 4])] := by decide +kernel
/-- A tag that fails, a context that does not stand, and a page that is ABSENT. -/
theorem wit_read_refused : answered lab0 (.read { pk 1 [] with tagOk := false }) = [(8, [])] ∧ answered lab0 (.read { pk 1 [] with ctx := 1023 }) = [(9, [])] ∧ answered (absent1 lab0) (.read (pk 1 [])) = [(9, [])] := by
  decide +kernel
theorem wit_write : answered lab0 (.write (pk 2 [9, 8])) = [(7, [])] ∧ (after lab0 (.write (pk 2 [9, 8]))).bytes (.vault 0 0x30000) 2 = [9, 8] := by decide +kernel
theorem wit_write_refused : answered (absent1 lab0) (.write (pk 2 [9])) = [(9, [])] ∧ answered lab0 (.write { pk 2 [9] with tagOk := false }) = [(8, [])] ∧ answered lab0 (.write { pk 2 [9] with ctx := 1023 }) = [(9, [])] := by
  decide +kernel
/-- Adds 3 to 0xFF, a value of 4 bytes. -/
def adds (kind : Nat) : Packet := pk kind ([3, 0, 0, 0] ++ [0, 0, 0, 0] ++ [0])
def counted : State := lab0.write (.vault 0 0x30000) [0xFF]
theorem wit_atomic : packetOperands (adds 3) = (4, 0, 3, 0) ∧ answered counted (.atomic (adds 3)) = [(6, [0xFF, 0, 0, 0])] ∧ (after counted (.atomic (adds 3))).bytes (.vault 0 0x30000) 4 = [2, 1, 0, 0] ∧
    answered counted (.redPacket (adds 4)) = [(7, [])] := by decide +kernel
/-- The second WRITE of one tag finds the held answer, and writes nothing. -/
def twice : State := after (after lab0 (.write (pk 2 [9]))) (.hostAccess noCtx 0 0x30000 (some [4]) 1)
theorem wit_retried : answered twice (.retriedRequest 2 (pk 2 [9])) = [(7, []), (7, [])] ∧ (after twice (.retriedRequest 2 (pk 2 [9]))).bytes (.vault 0 0x30000) 1 = [4] ∧
    answered lab0 (.retriedRequest 2 (pk 2 [9])) = [(7, [])] ∧ answered lab0 (.retriedRequest 1 (pk 1 [])) = [(6, [0, 0, 0, 0])] := by decide +kernel

/-- This device has asked device 5 for 4 bytes, for an engine. -/
def asking (failures : Nat) : State := { lab0 with requests := [{ packet := { pk 1 [] with dst := 5, src := 0 }, plane := 3, core := 0, id := 40, failures }] }
def reply (kind : Nat) (data : List Byte) : Packet := { pk kind data with off := 0x30000 }
theorem wit_data : (asking 0).requestOf (reply 6 [1, 2, 3, 4]) = (asking 0).requests[0]? ∧ (after (asking 0) (.data (reply 6 [1, 2, 3, 4]))).fetched.map (fun x => (x.id, x.off, x.bytes, x.ue)) = [(40, 0x30000, [1, 2, 3, 4], false)] ∧
    lab0.requestOf (reply 6 []) = none ∧ (after (asking 0) (.ack (reply 7 []))).requests = [] := by decide +kernel
theorem wit_data_failed : (after (asking 1) (.data { reply 6 [] with tagOk := false })).requests.map (·.failures) = [2] ∧ (after (asking 1) (.data { reply 6 [] with tagOk := false })).outbox.map (·.flags) = [4] := by decide +kernel
theorem wit_refused_line : (after { asking 0 with requests := [{ packet := { pk 5 [0] with dst := 5, src := 0 }, plane := 3, core := 0, id := 40 }] } (.refused (reply 9 []))).requests = [] := by decide +kernel
/-- A load of a peer's object waits for the answer. -/
def loadsPeer : State := core0 { asking 0 with ctxs := [ctx3] } fun c => { c with accs := [{ id := 40, inst := 40, tid := tid 0, opc := 0xA0, mod := 4, obj := 1, off := 0x30000, bytes := 4, reg := 9, tag := some (3, 77) }] }
theorem wit_refused_access : (loadsPeer.requests[0]?.bind loadsPeer.requestAccess).map (·.id) = some 40 ∧ runs loadsPeer (.refused (reply 9 [])) = true ∧ ((after loadsPeer (.refused (reply 9 []))).core 0).waits.length = 1 := by
  decide +kernel
/-- PLANEMAP already names another plane, 0, for the line: the returned request goes out there at once. -/
theorem wit_linknack : (after (asking 0) (.linknack { reply 0xB [] with src := 3 })).requests.map (fun r => (r.returned, r.packet.plane)) = [(false, 0)] := by decide +kernel

/-- A multicast line of group 5 with no children at this node; the node delivers it here, or does not. -/
def line : Packet := { pk 5 (toLE 4 0xEE ++ ((List.range 64).filter (· != 2)).map (BitVec.ofNat 8)) with group := 5, op := 4 }
def noded (delivers : Bool) : State := { grouped with issue := none, groupTable := if delivers then [(5, zeros 0x48 ++ toLE 2 0xC0 ++ zeros 54)] else [] }
theorem wit_mcast : line.flags.getLsbD 2 = false ∧ (noded true).treeNode 5 3 = 0xC0 ∧ (noded true).memberLines = [] ∧ (noded true).combines = [] ∧ (noded true).treeChildren line = [] ∧ (noded false).treeNode 5 3 = 0 := by decide +kernel
theorem wit_mcast_passed : runs (noded false) (.mcast line) = true := by decide +kernel
/-- Of a full line the data are its 256 bytes (R359). -/
theorem test_line_data : (lineData 4 ((List.range 64).map fun i => (4 * i, i))).length = 256 ∧ lineData 4 [(8, 0xEE)] = line.data := by decide +kernel
theorem wit_mcast_delivered : lineElements line = [(8, [0xEE, 0, 0, 0])] ∧ (after (noded true) (.mcast line)).bytes (.vault 0 0x30008) 1 = [0xEE] := by decide +kernel
/-- No such object; an object of another group. -/
theorem wit_mcast_refused : ((noded true).object? programCtx 9).isNone = true ∧ runs (noded true) (.mcast { line with obj := 9 }) = true ∧ runs { noded true with groupTable := [(6, zeros 0x48 ++ toLE 2 0xC0 ++ zeros 54)] } (.mcast { line with group := 6 }) = true := by
  decide +kernel
def combining : State := { lab0 with combines := [{ packet := line, waiting := [6] }] }
/-- Child 6 has written the line; the root is this device. -/
def mack : Packet := { line with kind := 0xA, src := 6, data := mackData 1 0 [] 5, length := 16 }
theorem wit_mack : (combining.combines.find? fun x => mackOf x.packet mack) = combining.combines[0]? ∧ (after combining (.mack mack)).combines = [] ∧
    (after combining (.mack mack)).outbox.map (fun p => (p.kind, p.dst, p.data)) = [(10, 5, mackData 1 0 [] 5)] ∧ runs lab0 (.mack mack) = true := by decide +kernel
/-- The four lowest of five refusers; a line damaged on its way; a failed member's refusal, told to the issuer. -/
theorem test_mack_refusers : mackRefusers (mackData 0 5 [1, 2, 3, 511] 5) = [1, 2, 3, 511] ∧ (mackData 0 1023 [1, 2, 3, 511] 5).length = 16 := by decide +kernel
theorem wit_mcast_damaged : answered (noded true) (.mcast { line with tagOk := false }) = [(8, [])] := by decide +kernel
/-- This device is the issuer of a store of one line, and hears that device 6 refuses it for want of its object; then comes the root's answer. -/
def issuing : State := core0 { lab0 with requests := [{ packet := { line with src := 0, dst := 4 }, plane := 3, core := 0, id := 41 }], groupTable := [(5, zeros 0x40 ++ toLE 2 4 ++ zeros 62)] } fun c =>
  { c with multis := [{ id := 41, tids := [tid 0], ctx := 0, group := 5, record := 0x100, flag := none, pc := 0, lines := [{ line with src := 0, dst := 4 }], handles := [], lowest := (1, 0x30000) }] }
theorem wit_line_refused : ((after issuing (.mgt { line with kind := 0x10, op := 0xDC, src := 6, data := [6, 0, 10], length := 3 })).core 0).multis.map (fun m => (m.refusers, m.heard.length)) = [([(6, 10)], 1)] := by
  decide +kernel
theorem wit_line_answered : (issuing.combines.find? fun x => mackOf x.packet mack) = none ∧ issuing.groupRoot 5 = 4 ∧
    (after issuing (.mack { mack with src := 4, data := mackData 2 1 [6] 0 })).requests = [] ∧ runs issuing (.mack { mack with src := 4, data := mackData 2 1 [6] 0 }) = true := by decide +kernel
theorem wit_mgt_none : runs lab0 (.mgt { pk 0x10 [] with op := 4 }) = true := by decide +kernel
theorem wit_mgt : (after lab0 (.mgt { pk 0xC (toLE 4 7 ++ toLE 8 0x800 ++ zeros 12) with op := 0xDA })).planNotes.map (fun n => (n.dev, n.crc)) = [(5, 7)] ∧ (after lab0 (.mgt (pk 0xC []))).planNotes = [] ∧
    (after lab0 (.mgt { pk 0x10 [] with op := 1 })).dbghold = 1 ∧ (after { lab0 with dbghold := 1 } (.mgt { pk 0x10 [] with op := 2 })).dbghold = 0 ∧
    (after lab0 (.mgt { pk 0x10 [7] with op := 3 })).planemap = 0x1AC688 ∧ (after lab0 (.mgt { pk 0x10 [7] with op := 3 })).lostPlanes = 0x80#8 := by decide +kernel

/-! ### The clauses that the routers, the engines' parts and the queues of other devices add -/

/-- The steps of the index registers in an instruction that is admitted (R68). -/
theorem wit_issue_steps : (ex lab (.nop (f 0 o o o))).steps = (ex lab (.nop (f 0 o o o))).act.flatMap (lab.stepped (.nop (f 0 o o o)) (ex lab (.nop (f 0 o o o))).f) := by decide +kernel

/-! Schedulers (R171, R274 to R277, R284). -/

/-- A breakpoint at the PC of the selection. -/
def brk : State := { lab0 with debug := .invasive, ctxs := [{ programCtx with breaks := programCtx.breaks.set 7 (0, some 0) }] }
theorem wit_select_break : brk.breakHit ig0 = true ∧ (brk.selected 0 0) = some ig0 ∧ (after brk (.issueGroupSelect 0 0)).threads.map (·.stopped) = [true, true] := by decide +kernel
theorem wit_select_gsync : ((synced lab).groups.map (synced lab).gsyncDue) = [true] ∧ ((synced lab).selected 0 0).isSome = true ∧
    (after (synced lab) (.issueGroupSelect 0 0)).threads.map (·.blocked) = [none, none] := by decide +kernel
theorem wit_select_hang : (hung 0 true).hangingGroups ig0 ≠ [] ∧ (hung 0 true).breakHit ig0 = false ∧ ((hung 0 true).groups.map (hung 0 true).gsyncDue) = [false] ∧
    (hung 0 true).selected 0 0 = some ig0 ∧ ((after (hung 0 true) (.issueGroupSelect 0 0)).groups.map (·.hangDue)) = [false] := by decide +kernel
theorem wit_hang_alone : ∀ q ∈ (hung 0 true).groups, (tid 0).block = q.block ∧ (tid 0).group = q.index := by decide +kernel
theorem wit_gsync_due : ((synced lab).core 0).turns.contains 0 = false ∧ ((synced lab).core 0).freeAt.getD 0 0 ≤ ((synced lab).core 0).clock ∧ (synced lab).coreOff 0 = false ∧ (gives.groups.map gives.gsyncDue) = [true, true] := by decide +kernel
/-- The partner is on scheduler 1, whose other groups hold 63 of its granules. -/
def fullPool : State := { gives with groups := gives.groups.map (fun g => if g.index = 1 then { g with sched := 1, home := 16 } else g) ++
  [{ programGroup with block := ⟨2, 0⟩, index := 0, home := 17, sched := 1, alloc := 256 }, { programGroup with block := ⟨2, 0⟩, index := 1, home := 18, sched := 1, alloc := 184 }] }
theorem wit_quota_trap : fullPool.freeGranules 0 1 < 2 ∧ (fullPool.groups.map fullPool.gsyncDue).take 2 = [true, true] ∧ runs fullPool (.gsyncComplete programKey 0) = true ∧
    ((after fullPool (.gsyncComplete programKey 0)).groups.map (·.alloc)).take 2 = [128, 64] := by decide +kernel

/-! Accesses and the store buffer (R298, R300). -/

theorem wit_ld_alone : (((after (far [1, 2, 3, 4]) ldDev).core 0).accs.map ((after (far [1, 2, 3, 4]) ldDev).core 0).bufferAhead) = [false, false] := by decide +kernel

/-! Engines (R218, R224, R238) and placement (R229, R332). -/

/-- A drain with automatic scales, the scale of row 0 to v40. -/
def drainAuto : State := core0 lab0 fun c => { c with engine :=
  [{ id := 1, block := programKey, group := 0, ctx := 0, insn := 0, lanes := [tid 0, tid 1], flag := some 5, kind := .accdr false 0 0 0 false true [] [some 40] (.pair 0 0x800000) 0 }] }
theorem wit_accdr_auto : headed drainAuto = true ∧ drainAuto.laneLives programKey 0 0 = true ∧ ((after drainAuto (.accdrRow 0)).core 0).engine.length = 1 := by decide +kernel
theorem wit_engine_runs : programCtx.runs = true := rfl
/-- 16 bytes of the row have been sent and performed. -/
def batchSent : State := core0 batchMid fun c => { c with batches := c.batches.map fun b => { b with sent := 16, len := some 16 } }
theorem wit_copy_sent : (batchSent.core 0).batches.map (fun b => decide (0 < b.sent)) = [true] ∧ runs batchSent (.copyRequest 0 0) = true := by decide +kernel
/-- A context that is to be saved lets a request go on that is not at an edge. -/
theorem wit_copy_edge : (batchMid.core 0).batches.map (fun b => b.goesOn { programCtx with state := .preempting } programBlock) = (batchMid.core 0).batches.map fun b => !b.atEdge := by decide +kernel
theorem wit_place_alone : placedAll.places.map (fun o => o.setDesc.isNone) = [true] ∧ placedAll.places.map (fun o => (placedAll.finishPlace programCtx o).broken) = [none] := by decide +kernel
theorem wit_place_found : (match placingR.places with
    | [o] => match o.passes[o.pass]? with
      | some p => match placingR.placeStep (programBlock) programCtx o p with
        | .ok t => (t.places.find? fun q => q.id == o.id).map (fun q => (q.step, q.steps p))
        | _ => none
      | none => none
    | _ => none) = some (0, 2) := by decide +kernel
theorem wit_place_tidy : tensors.matrixTidy 0 0x400 3 = true ∧ (tensors.tile 0 0).length = 128 ∧ (descOf (tensors.tile 0 0)).mat = 0x400 := by decide +kernel

/-! Queues (R257 to R259), pages (R347). -/

/-- The context cannot be reached, so that nothing is decided. -/
theorem wit_settle_marked : ((inState .draining).settleMarked programCtx 0).queueSettled 0 = true ∧ (inState .draining).counters.length = 0 := by decide +kernel
theorem wit_reset_taken : (inState .error).queues.map (·.atHead) = [false] ∧ (after (inState .error) (.reset 0 true)).queues.map (·.state) = [.empty] := by decide +kernel

/-! Device and debugging (R3, R49, R353). -/

theorem wit_links_train : (linked 47 {}).hasLink 47 = true ∧ ((after { linked 47 {} with ready := false, bootStep := none } (.bringUp (booted true true true))).link 47).state = .training := by decide +kernel
theorem wit_register_read : (after lab0 (.hostAccess noCtx 4 1 none 4)).replies = [.value lab0.planemap] ∧ (after lab0 (.hostAccess noCtx 4 0 none 4)).replies = [.value lab0.devstat] := by decide +kernel
/-- The highest lane that has no thread. -/
theorem wit_phantom : (observed.thread? (tid 127)).isNone = true ∧ (observed.group? programKey 0).isSome = true ∧ (after observed (.debugRegisterAccess (tid 127) (.vector 3) none)).replies = [.value 0] := by
  decide +kernel

/-! The fabric (R311, R355 to R358). -/

theorem wit_rekey_sent : ((after (linked 47 { state := .up, sent := 2 ^ 32 }) (.rekey 47)).link 47).sent = 0 ∧ ((after (linked 47 { state := .up, sent := 2 ^ 32 - 1 }) (.rekey 47)).link 47).sent = 2 ^ 32 - 1 := by
  decide +kernel
/-- The failed link 47 is one of plane 7: its entry of PLANEMAP, 7, becomes 0, and the other Bursar is told. -/
theorem wit_link_failed : (after (linked 47 { state := .training }) (.linkTrainingTimeout 47)).planemap = 0x1AC688 ∧
    (after (linked 47 { state := .training }) (.linkTrainingTimeout 47)).outbox.map (fun p => (p.kind, p.dst, p.op, p.data)) = [(0x10, 1, 3, [7])] := by decide +kernel
/-- Rings of 8: half the ring goes +, one more place goes −; x before y before z (R357). -/
theorem test_ring_way : ringWay 8 0 4 = some 0 ∧ ringWay 8 0 5 = some 1 ∧ ringWay 8 7 0 = some 0 ∧ ringWay 8 3 3 = none ∧ ({ rings := (8, 8, 8), places := [] } : Bank).way 0 (8 * 4 + 7) = some 1 ∧
    ({ rings := (8, 8, 8), places := [] } : Bank).way 7 (8 * 4 + 7) = some 2 := by decide +kernel
/-- The hop from 7 to 0 crosses the wrap link, and the one after it follows on the same channel. -/
theorem test_channel : ({ rings := (8, 8, 8), places := [] } : Bank).channel 6 6 0 = 0 ∧ ({ rings := (8, 8, 8), places := [] } : Bank).channel 6 7 0 = 1 ∧
    ({ rings := (8, 8, 8), places := [] } : Bank).channel 6 0 0 = 1 ∧ ({ rings := (8, 8, 8), places := [] } : Bank).channel 1 0 1 = 1 := by decide +kernel
/-- A request to device 1, one place in x+ away, on plane 3: link 18, and the first channel of REQ. -/
def leaving (credits : Nat) : State := { (linked 18 { state := .up, credits := [credits, 0, 0, 0, 0, 0, 0, 0] }) with outbox := [{ pk 1 [] with src := 0, dst := 1 }] }
theorem wit_forward : (leaving 1).wayOut { pk 1 [] with src := 0, dst := 1 } = some (18, 0) ∧ packetFlits { pk 1 [] with src := 0, dst := 1 } = 1 ∧ (leaving 1).powered = true ∧
    (leaving 1).forward.wire.length = 1 ∧ ((leaving 1).forward.link 18).credits.getD 0 9 = 0 ∧ (leaving 0).forward.outbox.length = 1 := by decide +kernel
theorem wit_passed_on : (lab0.bankOf { pk 1 [] with dst := 1 }).position 1 = some 1 ∧ (after lab0 (.read { pk 1 [] with dst := 1 })).outbox.length = 1 := by decide +kernel
theorem wit_linknack_op : runs (asking 0) (.linknack { reply 0xB [] with op := 1 }) = true := by decide +kernel
theorem wit_mcast_first : ((noded true).heldFirst 0).isNone = true := by decide +kernel
/-- A WRITE of one byte from device 5, by hand from the table of R359. -/
def onWire : Packet := pk 2 [9]
theorem test_packet_bytes : packetBytes onWire = [2, 0, 0, 0, 5, 0, 0, 0, 0, 0, 3, 0, 0, 1, 0, 0, 77, 0, 0, 0, 1, 0, 0, 0, 0, 0, 0, 0, 0, 0, 0, 0, 9] ∧ parsePacket 3 true (packetBytes onWire ++ zeros 95) = onWire := by
  decide +kernel
/-- Its one flit, as a sender makes it, brings it to a receiver. -/
def wholeFlit : Option Flit := (({ state := .up } : Link).flitsOf 0 onWire fun _ => 0)[0]?
theorem wit_flit_packet : (wholeFlit.map fun f => (({ state := .up } : Link).packetAt 3 f, (after (linked 18 { state := .up }) (.flitReceive 18 (.flit f))).inbox)) = some (some onWire, [onWire]) := by decide +kernel
/-- Two flits are not acknowledged. -/
def unacked : Link := { state := .up, seq := 1, window := [(flit 255 true, none), (flit 0 true, some onWire)] }
theorem wit_flit_ack : ((after (linked 18 unacked) (.flitReceive 18 (.ack 255))).link 18).window = [(flit 0 true, some onWire)] ∧ unacked.window[0]?.map (fun e => flitSeq e.1) = some 255 ∧
    (after (linked 18 unacked) (.flitReceive 18 (.replay 255))).wire = [(18, .flit (flit 255 true)), (18, .flit (flit 0 true))] := by decide +kernel
/-- Its link fails: the packet is another device's request, which hears of it. -/
def failing : State := after (State.modLink { lab0 with routes := lab0.routes.map fun r => { r with bank0 := { r.bank0 with places := [(0, 0), (5, 5)] } } } 18 fun _ => { unacked with state := .training }) (.linkTrainingTimeout 18)
theorem wit_link_held : (failing.outbox.filter fun p => p.kind == 8).map (fun p => (p.dst, p.tag)) = [(5, 77)] ∧
    (failing.link 18).window = [] := by decide +kernel
/-- No device of the domain has ID 9: the request is refused. -/
def toNobody : State := { twoDevices lab0 with outbox := [{ pk 1 [] with src := 0, dst := 9 }] }
theorem wit_forward_absent : (toNobody.bankOf { pk 1 [] with src := 0, dst := 9 }).position 9 = none ∧ packetClass (pk 1 []) = 0 ∧ toNobody.forward.inbox.map (fun p => (p.kind, p.src, p.dst)) = [(9, 9, 0)] ∧
    toNobody.forward.outbox = [] := by decide +kernel
/-- A failed member answers as a refusal, by its neighbour. -/
def failedKid : State := { noded true with failedDevices := [1], groupTable := [(5, [2] ++ zeros 71 ++ toLE 2 0xC1 ++ zeros 54)] }
theorem wit_mcast_gone : failedKid.treeChildren line = [1] ∧ failedKid.treeKids line = [] ∧ failedKid.goneMembers line = [1] := by decide +kernel
/-- Without power nothing answers; a halted bring-up is told at the debug port. -/
theorem wit_deaf : ({ lab0 with powered := false } : State).deaf = true ∧ (after { lab0 with power := .p4 } (.hostAccess noCtx 4 1 none 4)).replies = [] ∧
    (after { lab0 with power := .p3 } (.hostAccess 0 1 0x30000 none 4)).replies = [] ∧ (after { lab0 with power := .p1 } (.hostAccess 0 1 0x30000 none 4)).replies = [.badState] ∧ (after { lab0 with power := .p3 } (.hostAccess noCtx 4 1 none 4)).replies = [.value lab0.planemap] := by decide +kernel
theorem wit_debug_port : lab0.linksOff = false ∧ lab0.bootStep = none ∧ (after { lab0 with bootStep := some 1 } (.debugHalt false)).replies = [.value 1] ∧ (after { invaded with power := .p3 } (.debugHalt false)).replies = [] := by
  decide +kernel
/-- A line that an earlier one of its context precedes is held behind it (R311). -/
theorem wit_mcast_behind : (after { noded true with memberLines := [⟨{ line with off := 0x30100 }, .page 1 0x30000⟩] } (.mcast line)).memberLines.length = 2 := by decide +kernel

/-! Queues and counters of peers, pages that wait (R257, R258, R347, R349). -/
/-- A WAIT on a counter still PENDING waits. -/
def pendingWait : State := (queued [rec' 2 1 0 (vp 0x70000) 0 0]).write (.vault 0 0x70000) (toLE 4 1)
theorem wit_queue_no : (match (pendingWait.refreshQueue 0).headOf 0 with | some (_, _, _, _, t) => some t | none => none) = some .no ∧ (after pendingWait (.wait 0)).queues.map (·.state) = [.blocked] ∧ headIs (after pendingWait (.wait 0)) = [0, 0, 0, 0] := by decide +kernel
/-- The job counter of the graph is CANCELLED: its launch is discarded. -/
def graphUnder : State := (queued [rec' 5 0 1 (vp 0x72000) 0 (vp 0x73000), launchRec]).write (.vault 0 0x73000) ([0, 0, 0, 2] ++ zeros 12)
theorem wit_queue_graph_under : takes graphUnder = some .yes ∧ graphUnder.cancelledAt programCtx (BitVec.ofNat 64 (vp 0x73000)) = true ∧ headIs (after graphUnder (.graph 0)) = [2, 0, 0, 0] := by decide +kernel
/-- The page's eviction holds its fill back. -/
def waitingFill (evicting : Bool) : State := { paged (if evicting then 3 else 0) with pageOps := (if evicting then [pageOp true 0] else []) ++ [{ pageOp false 0 with waiting := true }] }
theorem wit_page_waits : (waitingFill true).startWaiting false 1 = none ∧ ((waitingFill false).startWaiting false 0).isSome = true ∧ (paged 0).pageOps = [] ∧
    leafState (after (waitingFill false) .fill) = 8 * 0x42000 + 1 := by decide +kernel
/-- A write-back to a place that the pool has not granted: RESIDENT again, FAILED, detail 7. -/
theorem wit_eviction_refused : leafState (after (operating 3 true 1 false) (.evictionDone 0)) = 0x200002 ∧ (after (operating 3 true 1 false) (.evictionDone 0)).bytes (.vault 0 0x70000) 4 = [0, 0, 7, 6] := by decide +kernel
/-- A SIGNAL whose target is device 5's. -/
def ctxFar : Ctx := { programCtx with objEntries := 4, viewEntries := 3 }
def signalFar : State :=
  let t := { apart (queued [rec' 3 0 0 (2 * 2 ^ 44 + 0x100) 5 0]) with ctxs := [ctxFar] }
  (t.write (.vault ctxFar.quarter (ctxFar.objTable + 96)) (toLE 4 9 ++ toLE 4 0x50000 ++ zeros 8 ++ toLE 8 0x1000)).putView ctxFar 2 ⟨3, 15, true, 0, 2, 0, 2 ^ 34⟩
theorem wit_signal_peer : takes signalFar = some .yes ∧ signalFar.ptrPeer ctxFar (BitVec.ofNat 64 (2 * 2 ^ 44 + 0x100)) = some (5, 3, 256) ∧ (after signalFar (.signal 0)).requests.length = 1 ∧ headIs (after signalFar (.signal 0)) = [1, 0, 0, 0] := by
  decide +kernel
/-- While an older operation waits before the table, the core keeps its narrower copy (R203). -/
def shotBehind : State := { shot with viewOps := shot.viewOps ++ [{ id := 10, ctx := 0, index := 1, gen := 3, drop := false, low := 0x1800, high := 0x1900, mask := 3, core := 0, tid := tid 0, flag := none }] }
theorem wit_shootdown_behind : ((after shotBehind (.shootdown 0 0)).core 0).views = [shotBehind.copyFor 0 ((shotBehind.viewEntry programCtx 1).cached 0 1)] ∧ shotBehind.copyFor 0 ((shotBehind.viewEntry programCtx 1).cached 0 1) ≠ (shotBehind.viewEntry programCtx 1).cached 0 1 := by
  decide +kernel

/-! ### Words that are no instruction, rounding, lanes (R25, R98, R130, R145) -/

/-- The ends of the ranges that R98 reserves, and an opcode beside each. -/
theorem wit_reserved : ([0x22, 0x3F, 0x54, 0x6F, 0x7A, 0x7F, 0x99, 0x9F, 0xB2, 0xCF, 0xE6, 0xFF].all fun c => noInstr (BitVec.ofNat 32 (c * 2 ^ 24 + 0x7000)) 0 0x3C) = true ∧
    ([0x21, 0x40, 0x53, 0x70, 0x79, 0x80, 0x98, 0xA0, 0xB1, 0xD0, 0xE5].all fun c => (Forms.formOf c).isSome) = true ∧
    (match decode (ofWords 0x00007000 0 0x3D) with | .error .bitZero => true | _ => false) = true := by decide +kernel
/-- 3, −1/4 and 1/2, whose sums and products are not 0. -/
theorem wit_RoundedOnce : Rule.value (.fin false 3 0) = some 3 ∧ Rule.value (.fin true 1 (-2)) = some (-1 / 4) ∧ Rule.value (.fin false 1 (-1)) = some (1 / 2) ∧
    (3 : Rat) + -1 / 4 ≠ 0 ∧ (3 : Rat) * (-1 / 4) ≠ 0 ∧ (3 : Rat) * (-1 / 4) + 1 / 2 ≠ 0 := by
  refine ⟨?_, ?_, ?_, by norm_num, by norm_num, by norm_num⟩ <;> simp only [Rule.value] <;> norm_num
/-- 1 + 2⁻²⁴ is a tie: to even 1, toward zero and down 1, up and to odd the next number. −2²⁰⁰ overflows. An exact zero sum is −0 in .rd. -/
theorem test_rounded_once : [0, 1, 2, 3, 4].map (fun m => fp32.add m false (.fin false 1 0) (.fin false 1 (-24))) =
      [(0x3F800000, flagNX), (0x3F800000, flagNX), (0x3F800001, flagNX), (0x3F800000, flagNX), (0x3F800001, flagNX)] ∧
    fp32.mul 0 false (.fin true 1 100) (.fin false 1 100) = (0xFF800000, flagOF ||| flagNX) ∧ fp32.mul 1 false (.fin true 1 100) (.fin false 1 100) = (0xFF7FFFFF, flagOF ||| flagNX) ∧
    fp32.fma 3 false (.fin false 1 0) (.fin false 1 0) (.fin true 1 0) = (0x80000000, 0) := by decide +kernel
/-- v4 of both lanes, and x1 of both, after an instruction. -/
def v4After (i : Instr) (s : State) : List Word := [(after s i).cell (.vec 0 4 0), (after s i).cell (.vec 0 4 1)]
def x1After (i : Instr) (s : State) : List Word := (after s i).threads.map fun t => t.xs.getD 1 0
/-- Operations of LRED on .i32, and three on .f32, with .scan and without. -/
def lredF (m : Nat) : Instr := .lred (f (BitVec.ofNat 8 m) (v 4) (v 5) o)
theorem wit_lred_forms : ([0x00, 0x01, 0x02, 0x08, 0x90, 0x91, 0x92, 0x98].all fun m => (lredF m).wf && passes lab (lredF m)) = true := by decide +kernel
/-- Lane 0 holds 5 and lane 1 −3: their minimum, their sum with .scan; and the FP32 maximum of 1 and 2. -/
def lredS (a b : Word) : State := (lab.setCell (.vec 0 5 0) a).setCell (.vec 0 5 1) b
theorem test_lred : v4After (lredF 0x01) (lredS 5 0xFFFFFFFD) = [0xFFFFFFFD, 0xFFFFFFFD] ∧ v4After (lredF 0x08) (lredS 5 0xFFFFFFFD) = [5, 2] ∧
    v4After (lredF 0x92) (lredS 0x3F800000 0x40000000) = [0x40000000, 0x40000000] := by decide +kernel

/-! ### Destinations, index registers, exits (R50, R53, R68, R118, R154) -/

/-- FTANH's write of v1 lands at cycle 18: one of latency 4 does not show, one of v2 does (R118). -/
def slow : State := lab.modCore 0 fun c => { c with landings := [{ due := 18, place := .vec 0 1 0, old := 7, owner := tid 0, flag := none }] }
theorem wit_lands_last : ((slow.core 0).landings.map fun d => (d.place, d.due)) = [(.vec 0 1 0, 18)] ∧ ((slow.writeFixed 0 (tid 0) (.vec 0 1 0) 9 4).cell (.vec 0 1 0)) = slow.cell (.vec 0 1 0) ∧
    ((slow.writeFixed 0 (tid 0) (.vec 0 2 0) 9 4).cell (.vec 0 2 0)) = 9 := by decide +kernel
/-- OPA and OPB name x1 with INC: IDX 100 and STEP −8 in mode 0 come to 84; in mode 1 with BOUND 8, IDX 1 and STEP −3 come to 6, then 3. -/
def incs : Instr := .iadd (f 0x08 (v 4) (.idx 0 1 true false 0) (.idx 0 1 true false 0))
theorem wit_advance : Rule.steps incs 0 1 = 2 ∧ Rule.steps incs 0 0 = 0 ∧ passes (withX1 0x0864FF00) incs = true ∧ Rule.advances 2 0x0864FF00 = 0x0854FF00 ∧
    Rule.advances 2 0x1D010800 = 0x1D030800 ∧ x1After incs (withX1 0x0864FF00) = [0x0854FF00, 0x0854FF00] ∧ x1After incs (withX1 0x1D010800) = [0x1D030800, 0x1D030800] := by decide +kernel
/-- Thread 1 has arrived in the phase: the exit of thread 0 completes it, and that of thread 1 is put off to the next. -/
def arrived1 : State := (barred.modThreads [tid 1] fun t => { t with arrivals := [(0, 0)] }).putBar 0 0 { barred.bar 0 0 with arrived := 1 }
theorem wit_exit_deduct : ((arrived1.exitThread (tid 0)).bar 0 0).phase = 1 ∧ ((arrived1.exitThread (tid 0)).bar 0 0).expected = 1 ∧ arrived1.barStrayed 0 0 = false ∧
    ((arrived1.exitThread (tid 1)).bar 0 0).deferred = 1 := by decide +kernel
/-- EXIT goes while a load of the thread is outstanding (R50). -/
theorem wit_exit_outstanding : (after (core0 lab fun c => { c with accs := [{ id := 7, inst := 7, tid := tid 0, opc := 0xA2, mod := 4, inLocal := true, bytes := 4, reg := 9 }] })
    (.exit (f 0 o o o))).threads.map (·.life) = [.exited, .exited] := by decide +kernel

/-! ### Data of accesses, views, ISSUEMASK and WAITF (R88, R169, R171, R184, R202) -/

/-- A store's data are the low bytes of OPD; an atomic's operand b is a short immediate extended by its sign. -/
def atomNeg : Instr := .atom (f 0x88 (v 4) (.vec 6 false 1) (h 0x7FFF))
theorem test_access_data : ((after (withBoth lab 3 0xABCDEF) stl).core 0).accs.map (·.data) = [0xCDEF, 0xCDEF] ∧
    ((after (vptr seen 6 0x30000) atomNeg).core 0).accs.map (fun a => (a.data, a.qual)) = [(0xFFFFFFFF, 1), (0xFFFFFFFF, 1)] := by decide +kernel
/-- View 1 is LIVE in the table, within [0, 2³⁴); the first lane takes handle 5. -/
def dupping : State := (vptr seen 6 0x30000).putView programCtx 1 ⟨1, 15, true, 0, 2, 0, 2 ^ 34⟩
theorem wit_vdup_lanes : ((us dupping vdup).core 0).handlesOf 0 = [5, 6] ∧ ((us dry vdup).core 0).handlesOf 0 = [] ∧ ((us dupping vdup).viewEntry programCtx 1).state = 2 ∧
    ((us dupping vdup).viewEntry programCtx 1).gen = view1.gen ∧ (programCtx.viewAddr 5).exists_ 32 = true ∧
    ((((us dupping vdup).dupView programCtx 0 5 view1 1).viewEntry programCtx 5).rights, (((us dupping vdup).dupView programCtx 0 5 view1 1).viewEntry programCtx 5).high) = (1, 2 ^ 34) := by decide +kernel
theorem test_vdup : (after dupping vdup).cell (.vec 0 8 0) = 0x30000 ∧ (after dupping vdup).cell (.vec 0 9 0) = 0x5000 ∧ (after dupping vdup).cell (.vec 0 9 1) = 0x6000 ∧
    (after dry vdup).cell (.vec 0 9 1) = 0 := by decide +kernel
/-- Lanes 0 and 1 are in the issue group; a handler sees what its entry recorded. -/
def issueMask : Instr := .rdsys (f 13 (v 4) o (h 0))
theorem wit_issuemask : passes lab issueMask = true ∧ v4After issueMask lab = [3, 3] ∧ v4After issueMask (eachThread lab fun t => { t with handler := true, trapMask := 0x80000001 }) = [0x80000001, 0x80000001] := by
  decide +kernel
/-- Flag 1 is pending. The limit of 1000 cycles since cycle 10 has passed at 1010, and not at 1009. -/
def waitf : Instr := .waitf (f 0 (.pred 2 false) (h 6) (h 1000))
def overdue (n : Nat) : State := atClock (eachThread lab fun t => { t with flags := [0, 1, 0, 0, 0, 0, 0, 0, 0, 0, 0, 0], waitSince := some 10, preds := 0xFF }) n
theorem wit_waitf_over : passes (overdue 1010) waitf = true ∧ (after (overdue 1010) waitf).threads.map (fun t => (t.pc, t.preds.getLsbD 2)) = [(12, false), (12, false)] ∧
    (after (overdue 1009) waitf).threads.map (·.pc) = [0, 0] := by decide +kernel

/-! ### PLACE and OPTAW (R229, R234) -/

/-- The matrix and the plan of the destination do not meet; its cursor runs at step 0 with flag 0 and group 0. -/
theorem wit_place_clauses : (tensors.group? programKey 0).map (·.home) = some 0 ∧ (descOf (image 0x800 0x400)).mat + 384 ≤ (descOf (image 0x800 0x400)).plan ∧
    field ((after (withUni tensors 4 0x600) place).tile 0 0) 0x50 16 = 1 := by decide +kernel
/-- A new matrix with a bit beyond its three columns; one without an inverse. -/
def placeBad (rows : List Nat) : State := withUni (matrixAt tensors 0x1000 rows) 4 0x1000
theorem wit_place_traps : (placeBad [9, 2, 4]).matrixTidy 0 0x1000 3 = false ∧ passes (placeBad [9, 2, 4]) place = true ∧ goes (placeBad [9, 2, 4]) place = false ∧
    (placeBad [1, 1, 4]).matrixTidy 0 0x1000 3 = true ∧ passes (placeBad [1, 1, 4]) place = true ∧ goes (placeBad [1, 1, 4]) place = false ∧ gfInv 3 [1, 1, 4] = none := by decide +kernel
/-- A kernel with TRAP_UE; the word of m of element 7, which lane 1 names, is poisoned. -/
def poisonedAdam (poison : Bool) : State :=
  let t := { (withBoth trained 4 0).setCell (.vec 0 4 1) 7 with launches := [{ programLaunch with header := { programHeader with threads := 2, flags := 0x20, trapMask := BitVec.ofNat 32 (2 ^ Cause.memue.toNat), handler := 0 } }] }
  if poison then after t (.softError 0 (0x31000 + 28) false) else t
theorem wit_optaw_memue : passes (poisonedAdam true) optaw = true ∧ (us (poisonedAdam true) optaw).headerFlag (ex (poisonedAdam true) optaw) 5 = true ∧
    (after (poisonedAdam true) optaw).threads.map (fun t => (t.handler, t.trapInfo)) = [(true, 0), (true, 7)] ∧ goes (poisonedAdam false) optaw = true := by decide +kernel

/-! ### Selection, merges and GSYNC in its turn (R165, R275, R276, R282) -/

/-- Two home groups of scheduler 0, each with a thread at PC 0 and one further on. -/
def parted (lane : Nat) : State := { lab0 with
  groups := [{ programGroup with alloc := 64 }, { programGroup with index := 1, home := 4, alloc := 64 }]
  threads := [thr 0, { thr 1 with pc := 24 }, { tid := ⟨programKey, 1, lane⟩, home := 4, pc := 0 }, { tid := ⟨programKey, 1, 3⟩, home := 4, pc := 24 }] }
theorem wit_merge : ((parted 2).ranked 0 0).map (fun p => (p.1.home, p.2.members)) = [(0, [tid 0]), (4, [⟨programKey, 1, 2⟩])] ∧
    ((parted 2).selected 0 0).map (·.members) = some [tid 0, ⟨programKey, 1, 2⟩] ∧ ((parted 0).selected 0 0).map (·.members) = some [tid 0] := by decide +kernel
/-- The longer wait goes first, then the lower home group; a forced one before both. -/
def waits (a b : Nat) (forced : Bool) : State := atClock { parted 2 with groups := [{ programGroup with alloc := 64, readySince := some a }, { programGroup with index := 1, home := 4, alloc := 64, readySince := some b, forced }] } 100
theorem wit_preference : [waits 9 8 false, waits 8 8 false, waits 8 9 true].map (fun s => (s.ranked 0 0).map (·.1.home)) = [[4, 0], [0, 4], [4, 0]] ∧ lab0.issueGroups (lab0.groups.headD programGroup) ig0 = [ig0] := by
  decide +kernel
theorem wit_gsync_turn : ((synced lab).ranked 0 0).map (fun p => (p.1.index, (synced lab).gsyncDue p.1)) = [(0, true)] ∧ lab0.coreOff 0 = false ∧ runs lab0 (.gsyncComplete programKey 0) = true ∧
    (after lab0 (.gsyncComplete programKey 0)).threads = lab0.threads := by decide +kernel

/-! ### Fences, prefetches, drains, steps of PLACE (R197, R199, R224, R333) -/

/-- FENCE.rmt of a thread that has read a line which core 3 has released: the core is asked at the fence's own turn. -/
def remote : State := core0 (lab0.modCore 3 fun c => { c with releases := [{ ctx := 0, obj := 1, line := 0x30000, upTo := 9, at_ := 2 }] }) fun c =>
  { c with accs := [{ id := 7, inst := 7, tid := tid 0, opc := 0xAB, mod := 0x21, args := [1, 0x30000] }] }
theorem wit_fence_remote : (remote.core 0).accs.map (fun a => (a.isFence, remote.readyFence 0 a, a.asked, a.cmp)) = [(true, true, [], 0)] ∧
    ((after remote (.storePerformed 0 0)).core 0).accs.map (fun a => (a.asked, a.cmp)) = [([(3, 0)], 1)] := by decide +kernel
/-- A line of a peer that PREF asks for; one at home leaves nothing. -/
def prefetching2 : State := core0 lab0 fun c => { c with accs := [{ id := 7, inst := 7, tid := tid 0, opc := 0xAA, mod := 0, obj := 1, off := 0x30000, bytes := 256 }] }
theorem wit_prefetch : ready prefetching2 0 0 = true ∧ ((after prefetching2 (.storePerformed 0 0)).core 0).accs = [] := by decide +kernel
/-- Row 127 of the drain, with a store of an earlier row still on its way, and with none. -/
def drainEnds (busy : Bool) : State := core0 drainAuto fun c => { c with
  engine := c.engine.map fun q => { q with kind := .accdr false 0 0 0 false true [] [some 40] (.pair 0 0x800000) 127 }
  accs := if busy then [{ id := 9, inst := 9, tid := tid 0, opc := 0xA1, mod := 0, obj := 1, off := 0x30000, bytes := 16, args := [1] }] else [] }
theorem wit_drain_ends : headed (drainEnds true) = true ∧ ((drainEnds true).core 0).drainBusy 1 = true ∧ ((after (drainEnds true) (.accdrRow 0)).core 0).drains.length = 1 ∧
    ((drainEnds false).core 0).drainBusy 1 = false ∧ ((after (drainEnds false) (.accdrRow 0)).core 0).drains = [] ∧ ((after (drainEnds false) (.accdrRow 0)).core 0).engine = [] := by decide +kernel
/-- The limiter's idle slices hold an MMA back. -/
theorem wit_idle_slices : ((after fed mma).core 0).idleSlices = 0 ∧ (lab0.core 0).lastStarts = 0 := by decide +kernel
/-- The moves of step 0 are made, with its stores performed, or one still on its way. -/
def stepped (busy : Bool) : State := core0 { placingR with places := placingR.places.map fun q => { q with made := true } } fun c =>
  { c with accs := if busy then [{ id := 9, inst := 9, tid := tid 0, opc := 0xDC, mod := 0, obj := 1, off := 0x30000, bytes := 4, args := (placingR.places.map (·.id)) }] else [] }
theorem wit_place_made : placeOk (stepped false) = true ∧ (after (stepped false) (.placePassStep 0)).places.map (fun q => (q.step, q.made)) = [(1, false)] ∧
    (placingR.places.map fun q => q.objs.all fun x => !placingR.vaultOff programCtx x.2) = [true] := by decide +kernel
theorem wit_place_busy : ((stepped true).core 0).placeBusy ((placingR.places.map (·.id)).headD 0) = true ∧ (after (stepped true) (.placePassStep 0)).places.map (·.step) = [0] := by decide +kernel

/-! ### Queues, gangs, contexts (R247, R252, R255, R257, R264) -/

/-- The page of the control block is ABSENT: the command waits for it, with no answer. -/
theorem wit_register_unread : ((absent1 unregistered).queueUnread 0 (BitVec.ofNat 64 (vp 0x50000))).isSome = true ∧ (unregistered.queueUnread 0 (BitVec.ofNat 64 (vp 0x50000))).isNone = true ∧
    (after (absent1 unregistered) (.registerQueue 0 (BitVec.ofNat 64 (vp 0x50000)))).registering.length = 1 ∧ (after (absent1 unregistered) (.registerQueue 0 (BitVec.ofNat 64 (vp 0x50000)))).replies = [] := by
  decide +kernel
/-- A launch of no block whose counter is device 5's: the line is asked for first. -/
def failFar : State :=
  let t := { apart (queued [rec' 1 0 0 (vp 0x60000) 0 (2 * 2 ^ 44 + 0x100)]) with ctxs := [ctxFar] }
  (t.write (.vault ctxFar.quarter (ctxFar.objTable + 96)) (toLE 4 9 ++ toLE 4 0x50000 ++ zeros 8 ++ toLE 8 0x1000)).putView ctxFar 2 ⟨3, 15, true, 0, 2, 0, 2 ^ 34⟩
theorem wit_fail_far : (match takes failFar with | some (.bad code _ bad) => (code, bad.length) | _ => (0, 0)) = (5, 64) ∧
    (after failFar (.launch 0)).queues.map (·.state) = [.active] ∧ (after failFar (.launch 0)).requests.length = 1 := by decide +kernel
/-- A gang that does not fit on an empty cluster decides nothing. -/
def hopeless : State := atClock (beside { second 4 0x1000000 with gangWait := some 0, drain := some 0 } 0) (2 ^ 20 + 2 ^ 24)
theorem wit_gang_hopeless : hopeless.fitsWithout { second 4 0x1000000 with gangWait := some 0, drain := some 0 } 0 [programKey] = false ∧
    ((after hopeless (.gangEvictDecision 2)).launch? 2).map (·.state) = some .validated ∧ hopeless.blocks.map hopeless.endDue = [false] := by decide +kernel
theorem wit_gang_of : (evicting 64).blocks.map (fun b => ((evicting 64).gangOf b).map (fun x => (x.key, x.phase, (evicting 64).endDue x))) = [[(programKey, .evicting, false)]] := by decide +kernel
/-- No control block stands there; its quarter is gated; the mailbox is shut. -/
theorem wit_register_refused : (after (offered 1) (.registerContext 0 0xA0000)).replies = [.badState] ∧ (after { offered 1 with gated := [0] } (.registerContext 0 0x90000)).replies = [.badState] ∧
    (offered 1).mailOpen = true ∧ ({ offered 1 with power := .p1 } : State).mailOpen = false := by decide +kernel
/-- The save for a dump answers with the names of the threads: 16 bytes for each. -/
def dumped : State := { ctxIn .preempting with ctxs := [{ programCtx with state := .preempting, dump := some { first := 0, size := 0, used := 0, copied := [], armed := false } }] }
theorem wit_dump_names : (after dumped (.preemptSaveDone 0)).replies.map (fun r => match r with | .report bs => bs.length | _ => 0) = [16] ∧ dumped.ctxs.map (fun c => c.dump.isSome) = [true] := by decide +kernel
theorem wit_fault_thread : laneFault.names = [(0, tid 0)] ∧ faulting.faultThread laneFault = 0 ∧ faulting.faultThread { reason := reasonRestoreBad } = 0xFFFF ∧ (ctxIn .saved).rangesFit [] [] = true ∧
    (resumed saveBytes0).blocks = [] := by decide +kernel

/-! ### Power, samples, links (R353, R380, R383) -/

theorem wit_pstate_back : ({ emptied (0, []) with power := .p1 } : State).powerReady 0 [] = true ∧ (after { emptied (0, []) with power := .p1 } .pstateReached).power = .p0 ∧ lab0.registering = [] := by decide +kernel
theorem wit_sample_none : (sampled.core 0).sampleOf (tid 1) 1 0x30000 = none ∧ ((sampled.core 0).sampleOf (tid 0) 1 0x30000).isSome = true ∧
    (after sampled (.sampleRecord 0 (tid 0) [0x6FFF, 0] 1 0x30000)).cores.head?.map (·.samples) = some [] := by decide +kernel
theorem wit_dump_level : (after { lab0 with ctxs := [{ programCtx with dump := some { first := 0, size := 0, used := 0, copied := [] } }] } (.dumpRelease 0)).replies = [.badState] := by decide +kernel
/-- What link 47 reports of an event, in a state, as replies. -/
def told (x : Link) (i : Instr) : List Reply := (after (linked 47 x) i).replies
theorem wit_link_reports : told {} (.linkTrain 47) = [.link 47 .training, .ok] ∧ told { state := .training } (.linkTrained 47 2) = [.link 47 .keying] ∧
    told { state := .training } (.linkTrainingTimeout 47) = [.link 47 .failed] ∧ told { state := .keying } (.linkKeyed 47 true) = [.link 47 .up] ∧ told { state := .up } (.laneLost 47) = [.link 47 .degraded] ∧
    told { state := .degraded } (.linkRetrain 47) = [.link 47 .retraining, .ok] ∧ told { state := .retraining } (.retrainingDone 47 4) = [.link 47 .up] ∧ told { state := .failed } (.linkRepair 47) = [.link 47 .down, .ok] ∧
    told { state := .retraining } (.retrainingDone 47 1) = [] := by decide +kernel
/-- Events in a state that has no row for them. -/
def unmoved (x : Link) (i : Instr) : Bool := decide ((after (linked 47 x) i).link 47 = x) && (after (linked 47 x) i).replies.isEmpty && runs (linked 47 x) i
theorem wit_link_no_row : ([.linkTrained 47 4, .linkTrainingTimeout 47, .linkKeyed 47 true, .crcErrorThreshold 47, .laneLost 47, .retrainingDone 47 4, .rekey 47, .noProgressTimer 47 0 false,
    .flitReceive 47 (.flit (flit 0 true))].all (unmoved { state := .down })) = true ∧ ([.linkTrained 47 4, .linkTrainingTimeout 47, .linkKeyed 47 true, .retrainingDone 47 4].all (unmoved { state := .up })) = true ∧
    unmoved { state := .degraded } (.crcErrorThreshold 47) = true ∧ unmoved { state := .up } (.crcErrorThreshold 47) = true := by decide +kernel
/-- In standby, and with its quarter gated, a link stands still. -/
theorem wit_link_off : ({ lab0 with power := .p3 } : State).linkOff 0 = true ∧ ({ lab0 with gated := [3] } : State).linkOff 47 = true ∧ ({ lab0 with gated := [3] } : State).linkOff 35 = false ∧
    (after { linked 47 { state := .training } with gated := [3] } (.linkTrained 47 4)).link 47 = { state := .training } := by decide +kernel
theorem wit_timers : lab0.timersStand = false ∧ ({ lab0 with deepHalt := true } : State).timersStand = true ∧ lab0.linkOff 47 = false ∧ lab0.deaf = false := by decide +kernel
/-- The last bits of a packet's header that the spec leaves open carry the form of a multicast line. -/
theorem test_packet_form : parsePacket 3 true (packetBytes { line with form := 9 } ++ zeros 3) = { line with form := 9 } := by decide +kernel

end Sys2Proof.Tests
end

section
/-! PROOFS. O11 and O12: the bit counts of R125 and the parity of R129. -/

namespace Sys2Proof.Machine

/-! ### What the encoding admits (R83 step 2) -/

/-- The values of MOD that name `.b32` or `.n64` and set nothing else (R96). -/
theorem mod_of_mLogic {m : BitVec 8} (h : Forms.mLogic m = true) : m = 0x80 ∨ m = 0x30 := by
  simp only [Forms.mLogic, Forms.ty, Forms.low4, BitVec.extractLsb'_toNat, Nat.shiftRight_eq_div_pow, Bool.and_eq_true,
    Bool.or_eq_true, beq_iff_eq] at h
  obtain ⟨hty, hlow⟩ := h
  have hm := m.isLt
  rcases hty with hty | hty
  · exact .inl (BitVec.eq_of_toNat_eq (by simp; omega))
  · exact .inr (BitVec.eq_of_toNat_eq (by simp; omega))

/-- A well-formed instruction has a MOD value and a destination that its form accepts. -/
theorem modOk_and_accepts_of_wf {i : Instr} {opc : Nat} {f : Insn} {F : Form} (hw : i.word? = some (opc, f))
    (hF : Forms.formOf opc = some F) (h : i.wf = true) : F.modOk f.mod = true ∧ Forms.accepts (F.opd f.mod) f.opd = true := by
  simp only [Instr.wf, hw, Forms.encodable, hF, Bool.and_eq_true] at h
  obtain ⟨⟨⟨⟨⟨⟨⟨⟨hmod, hopd⟩, -⟩, -⟩, -⟩, -⟩, -⟩, -⟩, -⟩ := h
  exact ⟨hmod, hopd⟩

/-- A destination that may be a predicate is a vector register, direct or indexed, a uniform register or a predicate (R85). -/
theorem dst_of_accepts_pDstP {o : Operand} (h : Forms.accepts Forms.pDstP o = true) :
    (∃ n e m, o = .vec n e m) ∨ (∃ p x i e m, o = .idx p x i e m) ∨ (∃ n m, o = .uni n m) ∨ ∃ n neg, o = .pred n neg := by
  cases o with
  | vec n e m => exact .inl ⟨n, e, m, rfl⟩
  | idx p x i e m => exact .inr (.inl ⟨p, x, i, e, m, rfl⟩)
  | uni n m => exact .inr (.inr (.inl ⟨n, m, rfl⟩))
  | pred n neg => exact .inr (.inr (.inr ⟨n, neg, rfl⟩))
  | tile | acc | xreg | lane | hgrp | flag | imm | lit | none => exact absurd h (by simp [Forms.accepts, Forms.pDstP])

/-! ### Registers and latency of the type (R45, R118) -/

theorem wide_iff (f : Insn) : Rule.wide f = true ↔ Forms.ty f.mod = 2 ∨ Forms.ty f.mod = 3 := by simp [Rule.wide]

theorem regs_eq_modRegs (f : Insn) : Rule.regs f = modRegs f := by simp [Rule.regs, wide_iff, modRegs, typeRegs]

theorem late_four_eq_lat46 (f : Insn) : Rule.late f 4 = lat46 f := by
  by_cases h : Forms.ty f.mod = 2 ∨ Forms.ty f.mod = 3 <;> simp [Rule.late, wide_iff, lat46, modRegs, typeRegs, h]

/-! ### Counting, leading zeros and reversal of bits -/

theorem countOnes_eq_countP (v n : Nat) : countOnes v n = (List.range n).countP fun j => v.testBit j := by
  induction n with
  | zero => rfl
  | succ n ih => simp [countOnes, ih, List.range_succ, List.countP_append, List.countP_singleton, Nat.add_comm]

theorem leadingZeros_le (v n : Nat) : leadingZeros v n ≤ n := by
  induction n with
  | zero => exact Nat.le_refl 0
  | succ n ih => unfold leadingZeros; split <;> omega

/-- The bits that `leadingZeros` counts are 0. -/
theorem testBit_of_leadingZeros_le {v n j : Nat} (hlo : n - leadingZeros v n ≤ j) (hhi : j < n) : v.testBit j = false := by
  induction n with
  | zero => omega
  | succ n ih =>
    unfold leadingZeros at hlo
    split at hlo
    · omega
    · next htop =>
      rcases Nat.lt_succ_iff_lt_or_eq.1 hhi with hj | rfl
      · exact ih (by omega) hj
      · simpa using htop

/-- The bit below the ones that `leadingZeros` counts is 1. -/
theorem testBit_below_leadingZeros {v n : Nat} (h : leadingZeros v n < n) : v.testBit (n - 1 - leadingZeros v n) = true := by
  induction n with
  | zero => omega
  | succ n ih =>
    unfold leadingZeros at h ⊢
    split at h
    · next htop => simp [htop]
    · next htop =>
      have hih := ih (by omega)
      rwa [if_neg htop, show n + 1 - 1 - (1 + leadingZeros v n) = n - 1 - leadingZeros v n by omega]

theorem testBit_reverseBits (v n j : Nat) :
    (reverseBits v n).testBit j = (decide (j < n) && v.testBit (n - 1 - j)) := by
  induction n generalizing j with
  | zero => simp [reverseBits]
  | succ n ih =>
    cases j with
    | zero => cases h : v.testBit n <;> simp [reverseBits, h, Nat.testBit_zero, Nat.add_mod]
    | succ j =>
      have hhalf : reverseBits v (n + 1) / 2 = reverseBits v n := by
        simp only [reverseBits]
        split <;> omega
      rw [Nat.testBit_succ, hhalf, ih, show n + 1 - 1 - (j + 1) = n - 1 - j by omega]
      simp

/-! ### The results of POPC, CLZ, BREV and PAR (R125, R129) -/

/-- Each of the three accepts the types of the logic instructions alone. -/
theorem mod_of_bitCount_wf {f : Insn} (h : (Instr.popc f).wf = true ∨ (Instr.clz f).wf = true ∨ (Instr.brev f).wf = true) :
    f.mod = 0x80 ∨ f.mod = 0x30 := by
  rcases h with h | h | h
  · exact mod_of_mLogic (modOk_and_accepts_of_wf rfl rfl h).1
  · exact mod_of_mLogic (modOk_and_accepts_of_wf rfl rfl h).1
  · exact mod_of_mLogic (modOk_and_accepts_of_wf rfl rfl h).1

/-- A 4-cycle instruction of the type in MOD, with one result in each lane. -/
theorem results_of_lat46 {i : Instr} {f : Insn} {regs : Nat} {val : State → Exec → Thread → Nat}
    (hx : ∀ s, exec i s = issueWith i f (fun s x => fixedResult s x regs (lat46 f) (val s x)) s) :
    Results i f regs (Rule.late f 4) val :=
  late_four_eq_lat46 f ▸ results_of hx

theorem popc_results (f : Insn) : Results (.popc f) f 1 (Rule.late f 4) fun u _ th =>
    countOnes (u.src th f.opa (Rule.regs f)) (32 * Rule.regs f) := by
  rw [regs_eq_modRegs]
  exact results_of_lat46 fun _ => rfl

theorem clz_results (f : Insn) : Results (.clz f) f 1 (Rule.late f 4) fun u _ th =>
    leadingZeros (u.src th f.opa (Rule.regs f)) (32 * Rule.regs f) := by
  rw [regs_eq_modRegs]
  exact results_of_lat46 fun _ => rfl

theorem brev_results (f : Insn) : Results (.brev f) f (Rule.regs f) (Rule.late f 4) fun u _ th =>
    reverseBits (u.src th f.opa (Rule.regs f)) (32 * Rule.regs f) := by
  rw [regs_eq_modRegs]
  exact results_of_lat46 fun _ => rfl

theorem par_results (f : Insn) : Results (.par f) f 1 (Rule.late f 4) fun u _ th =>
    countOnes (u.src th f.opa (Rule.regs f) &&& u.src th f.opb (Rule.regs f)) (32 * Rule.regs f) % 2 := by
  rw [regs_eq_modRegs]
  exact results_of_lat46 fun _ => rfl

end Sys2Proof.Machine

namespace Sys2Proof.Proofs

open Machine

/-- Settles O11: the counts and the reversal of the model, which recurse on the width, read bit by bit. -/
theorem bitCounts : Obligations.BitCounts := by
  unfold Obligations.BitCounts
  refine ⟨fun f => mod_of_bitCount_wf, fun f => ?_, fun f => ⟨_, clz_results f, fun u x th => ?_⟩,
    fun f => ⟨_, brev_results f, fun u x th j => testBit_reverseBits _ _ j⟩⟩
  · exact results_congr (popc_results f) fun u x th => countOnes_eq_countP _ _
  · exact ⟨leadingZeros_le _ _, fun j => testBit_of_leadingZeros_le, testBit_below_leadingZeros⟩

/-- Settles O12: PAR counts the 1 bits of a & b as POPC does those of a, and keeps the lowest bit of the count. -/
theorem parity : Obligations.Parity := by
  unfold Obligations.Parity
  refine ⟨fun f h => ?_, fun f => results_congr (par_results f) fun u x th => ?_⟩
  · obtain ⟨hmod, hopd⟩ := modOk_and_accepts_of_wf rfl rfl h
    exact ⟨mod_of_mLogic hmod, dst_of_accepts_pDstP hopd⟩
  · simp only [countOnes_eq_countP, Nat.testBit_and]

end Sys2Proof.Proofs
end

section
/-! SUPPORT. What issuing leaves as it was: of a thread all but its marks, and of the machine its registers and memories. -/

namespace Sys2Proof.Machine

/-! ### Threads found by name -/

/-- Where no two threads of a list share a name, a thread is found under its own. -/
theorem find?_tid_of_mem {l : List Thread} {th : Thread} (hn : (l.map (·.tid)).Nodup) (h : th ∈ l) :
    l.find? (fun a => decide (a.tid = th.tid)) = some th := by
  cases hf : l.find? (fun a => decide (a.tid = th.tid)) with
  | none => simpa using List.find?_eq_none.1 hf th h
  | some a =>
    have htid : a.tid = th.tid := by simpa using List.find?_some hf
    exact congrArg some (List.inj_on_of_nodup_map hn (List.mem_of_find?_eq_some hf) h htid)

theorem State.thread?_of_mem {s : State} {th : Thread} (hn : (s.threads.map (·.tid)).Nodup) (h : th ∈ s.threads) :
    s.thread? th.tid = some th := find?_tid_of_mem hn h

theorem State.tid_of_thread? {s : State} {t : Tid} {a : Thread} (h : s.thread? t = some a) : a.tid = t := by
  simpa using List.find?_some h

theorem State.modThreads_thread? {s : State} {ts : List Tid} {f : Thread → Thread} (hf : ∀ a, (f a).tid = a.tid) (t : Tid) :
    (s.modThreads ts f).thread? t = (s.thread? t).map fun a => if ts.contains t then f a else a := by
  have htid : ∀ a : Thread, (if ts.contains a.tid then f a else a).tid = a.tid := fun a => by split <;> simp [hf]
  simp only [State.thread?, State.modThreads, List.find?_map, Function.comp_def, htid]
  refine Option.map_congr fun a ha => ?_
  rw [State.tid_of_thread? ha]

theorem State.modThread_eq_modThreads (s : State) (t : Tid) (f : Thread → Thread) : s.modThread t f = s.modThreads [t] f := by
  simp [State.modThread, State.modThreads]

/-! ### The marks of issuing (R54, R90, R155, R171) -/

/-- A thread without the marks that issuing sets on it: flags pending, the time of its last issue, a yield, a wait, a breakpoint passed. -/
def Thread.unmarked (a : Thread) : Thread :=
  { a with flags := [], lastIssue := none, yielded := none, waitSince := none, waitOver := false, passBreak := false }

theorem Thread.unmarked_tid (a : Thread) : a.unmarked.tid = a.tid := rfl

/-- The thread of a name, its marks aside. -/
def State.seen (s : State) (t : Tid) : Option Thread := (s.thread? t).map Thread.unmarked

theorem State.seen_of_thread? {s : State} {t : Tid} {a : Thread} (h : s.thread? t = some a) : s.seen t = some a.unmarked := by
  simp [State.seen, h]

theorem State.thread?_of_seen {s : State} {t : Tid} {c : Thread} (h : s.seen t = some c) : ∃ b, s.thread? t = some b ∧ b.unmarked = c := by
  simpa [State.seen] using h

/-- A thread that differs from another in its marks and its next PC alone keeps its registers, those of its trap too. -/
theorem sameThread_of_unmarked {a b : Thread} {p : Word} (h : b.unmarked = { a.unmarked with pc := p }) : Rule.sameThread a b ∧ b.pc = p := by
  have hf : ∀ {α : Type} (g : Thread → α), g b.unmarked = g { a.unmarked with pc := p } := fun g => congrArg g h
  exact ⟨⟨hf (·.preds), hf (·.xs), hf (·.fpflags), hf (·.handler), hf (·.trapCause), hf (·.trapPc), hf (·.trapInfo), hf (·.trapMask), hf (·.clkHi)⟩,
    hf (·.pc)⟩

/-- What is done to threads apart from their marks is seen. -/
theorem State.seen_modThreads {s : State} {ts : List Tid} {f : Thread → Thread} (hf : ∀ a, (f a).tid = a.tid)
    (hu : ∀ a, (f a).unmarked = f a.unmarked) (t : Tid) :
    (s.modThreads ts f).seen t = (s.seen t).map fun a => if ts.contains t then f a else a := by
  simp only [State.seen, State.modThreads_thread? hf, Option.map_map]
  refine Option.map_congr fun a _ => ?_
  simp only [Function.comp_apply]
  split <;> simp [hu]

/-- What changes marks alone is not seen. -/
theorem State.seen_of_threads_map {s u : State} {g : Thread → Thread} (hg : u.threads = s.threads.map g)
    (hu : ∀ a, (g a).unmarked = a.unmarked) (t : Tid) : u.seen t = s.seen t := by
  have htid : ∀ a : Thread, (g a).tid = a.tid := fun a => by rw [← Thread.unmarked_tid, hu, Thread.unmarked_tid]
  simp only [State.seen, State.thread?, hg, List.find?_map, Function.comp_def, htid, Option.map_map, hu]

theorem State.seen_modThreads_marks {s : State} {ts : List Tid} {f : Thread → Thread} (hu : ∀ a, (f a).unmarked = a.unmarked) (t : Tid) :
    (s.modThreads ts f).seen t = s.seen t :=
  State.seen_of_threads_map rfl (fun a => by split <;> simp [hu]) t

@[simp] theorem State.modCore_seen (s : State) (c : Nat) (f : Core → Core) (t : Tid) : (s.modCore c f).seen t = s.seen t := rfl

@[simp] theorem State.complete_seen (s : State) (ts : List Tid) (n : Option Nat) (t : Tid) : (s.complete ts n).seen t = s.seen t := by
  cases n with
  | none => rfl
  | some n => exact State.seen_modThreads_marks (fun _ => by rfl) t

@[simp] theorem State.yieldThreads_seen (s : State) (ts : List Tid) (t : Tid) : (s.yieldThreads ts).seen t = s.seen t :=
  State.seen_modThreads_marks (fun _ => by rfl) t

@[simp] theorem State.noteIssue_seen (s : State) (x : Exec) (i : Instr) (t : Tid) : (s.noteIssue x i).seen t = s.seen t := by
  unfold State.noteIssue
  rw [State.modCore_seen]
  refine (State.seen_of_threads_map rfl (fun a => ?_) t).trans (State.seen_modThreads_marks (fun _ => by rfl) t)
  split <;> rfl

@[simp] theorem State.begin_seen (s : State) (x : Exec) (t : Tid) : (s.begin x).seen t = s.seen t := by
  unfold State.begin
  split
  · exact State.seen_modThreads_marks (fun _ => by rfl) t
  · rfl

@[simp] theorem State.acting_seen (s : State) (x : Exec) (t : Tid) : (s.acting x).seen t = s.seen t := State.begin_seen _ _ _

theorem postIncrement_nil (a : Thread) : postIncrement [] a = a := rfl

/-- The end of an instruction that has set the PCs itself and increments no index register changes marks alone. -/
theorem State.closed_seen {u : State} {x : Exec} (hs : x.steps = []) (i : Instr) (t : Tid) : (u.closed x i .atIssue true).seen t = u.seen t := by
  have hp : (u.modThreads (x.act.map (·.tid)) (postIncrement x.steps)).seen t = u.seen t :=
    State.seen_modThreads_marks (fun a => by rw [hs, postIncrement_nil]) t
  simp only [State.closed, State.noteIssue_seen, State.finish, completion, if_true]
  split <;> simp [hp]

/-- No operand, no increment (R68). -/
theorem State.steps_about_of_no_uses {i : Instr} (hu : ∀ lane, usesOf i lane = []) (s : State) (f : Insn) (ig : IssueGroup) (act : List Thread) :
    (s.about i f ig act).steps = [] := by
  simp [State.about, State.execAt, State.stepped, hu]

/-! ### What issuing leaves of registers and memories -/

/-- The registers, the Vault and the pool, the blocks, the stop of the step and the debug level: what neither issuing nor the end of a thread changes. -/
def State.files (s : State) :=
  (s.vregs, s.fills, s.uregs, s.tiles, s.regions, s.vault, s.pool, s.blocks, s.broken, s.debug)

theorem State.files_eq_iff {s t : State} : t.files = s.files ↔
    Rule.sameRegisters s t ∧ t.vault = s.vault ∧ t.pool = s.pool ∧ t.blocks = s.blocks ∧ t.broken = s.broken ∧ t.debug = s.debug := by
  simp only [State.files, Prod.mk.injEq, Rule.sameRegisters, and_assoc]

@[simp] theorem State.modThreads_files (s : State) (ts : List Tid) (f : Thread → Thread) : (s.modThreads ts f).files = s.files := rfl
@[simp] theorem State.advance_files (s : State) (x : Exec) : (s.advance x).files = s.files := rfl
@[simp] theorem State.yieldThreads_files (s : State) (ts : List Tid) : (s.yieldThreads ts).files = s.files := rfl
@[simp] theorem State.noteIssue_files (s : State) (x : Exec) (i : Instr) : (s.noteIssue x i).files = s.files := rfl
@[simp] theorem State.jump_files (s : State) (x : Exec) (target : Thread → Word) : (s.jump x target).files = s.files := rfl

@[simp] theorem State.complete_files (s : State) (ts : List Tid) (n : Option Nat) : (s.complete ts n).files = s.files := by
  cases n <;> rfl

@[simp] theorem State.flagAt_files (s : State) (c : Nat) (t : Tid) (n : Option Nat) (due : Nat) : (s.flagAt c t n due).files = s.files := by
  cases n <;> rfl

@[simp] theorem State.takeWindows_files (s : State) (i : Instr) (act : List Thread) (due : Nat) : (s.takeWindows i act due).files = s.files := by
  unfold State.takeWindows
  split
  · rfl
  · refine foldl_frame State.files _ (fun s p => ?_) _ _
    dsimp only
    split <;> rfl

@[simp] theorem State.finish_files (s : State) (x : Exec) (i : Instr) (c : Completes) (moved : Bool) : (s.finish x i c moved).files = s.files := by
  have hflags : ∀ (u : State) (due : Nat), (x.act.foldl (fun s t => s.flagAt x.ig.core t.tid x.flag due) u).files = u.files :=
    fun u due => foldl_frame State.files _ (fun s t => by simp) x.act u
  unfold State.finish
  cases completion i x.f c <;> cases moved <;> cases x.f.yld <;> simp [hflags]

@[simp] theorem State.begin_files (s : State) (x : Exec) : (s.begin x).files = s.files := by
  unfold State.begin
  split <;> rfl

@[simp] theorem State.acting_files (s : State) (x : Exec) : (s.acting x).files = s.files := State.begin_files _ _

@[simp] theorem State.closed_files (s : State) (x : Exec) (i : Instr) (c : Completes) (moved : Bool) : (s.closed x i c moved).files = s.files := by
  simp [State.closed]

@[simp] theorem State.about_ig (s : State) (i : Instr) (f : Insn) (ig : IssueGroup) (act : List Thread) : (s.about i f ig act).ig = ig := rfl
@[simp] theorem State.about_act (s : State) (i : Instr) (f : Insn) (ig : IssueGroup) (act : List Thread) : (s.about i f ig act).act = act := rfl

end Sys2Proof.Machine
end

section
/-! SUPPORT. The lanes that act, the traps of instructions, and the operands that control instructions accept. -/

namespace Sys2Proof.Machine

/-! ### Who acts, and what a trap answers (R83, R157) -/

theorem mem_insertBy {α : Type} {key : α → Nat} {a b : α} {l : List α} : b ∈ insertBy key a l ↔ b = a ∨ b ∈ l := by
  induction l with
  | nil => simp [insertBy]
  | cons c l ih =>
    simp only [insertBy]
    split
    · simp
    · simp only [List.mem_cons, ih]
      tauto

theorem mem_sortBy {α : Type} {key : α → Nat} {b : α} {l : List α} : b ∈ sortBy key l ↔ b ∈ l := by
  induction l with
  | nil => simp [sortBy]
  | cons a l ih => simp [sortBy, mem_insertBy, ih]

theorem State.mem_members {s : State} {ig : IssueGroup} {th : Thread} : th ∈ s.members ig ↔ th ∈ s.threads ∧ th.tid ∈ ig.members := by
  simp [State.members, mem_sortBy]

/-- The lanes that pass the checks of R83 are those in which the guard holds (R84). -/
theorem State.activeOf_of_checks_go {s : State} {ig : IssueGroup} {i : Instr} {f : Insn} {act : List Thread}
    (h : s.checks ig i f = .go act) (ha : act ≠ []) : act = s.activeOf f (s.members ig) := by
  unfold State.checks at h
  dsimp only at h
  (repeat' split at h) <;> simp_all

/-- An active lane is a thread of the machine and of the issue group. -/
theorem Admits.of_mem_act {s : State} {i : Instr} {f : Insn} {ig : IssueGroup} {act : List Thread} (h : Admits s i f ig act)
    {th : Thread} (ht : th ∈ act) : th ∈ s.threads ∧ th.tid ∈ ig.members := by
  rw [State.activeOf_of_checks_go h.checked h.active] at ht
  exact State.mem_members.1 (List.mem_of_mem_filter ht)

/-- A trap other than CANCEL enters the handler or faults the context: no byte is named. -/
theorem State.takeTrap_broken {s : State} {ig : IssueGroup} {tr : Trap} (hc : tr.cause ≠ Cause.cancel) : (s.takeTrap ig tr).broken = s.broken := by
  cases h : s.handled ig tr.cause with
  | true => rw [State.takeTrap_handled h, State.enterHandler_broken]
  | false =>
    obtain ⟨ctx, img, ht⟩ := State.takeTrap_fault h hc
    rw [ht, State.faultCtx_broken]

/-- An instruction that traps goes on to the state in which its trap is taken. -/
theorem issueWith_takes_trap {i : Instr} {f : Insn} {body : State → Exec → Act} {s : State} {ig : IssueGroup} {act : List Thread} {tr : Trap}
    (h : Admits s i f ig act) (hb : body (s.acting (s.about i f ig act)) (s.about i f ig act) = .trap tr) (hc : tr.cause ≠ Cause.cancel) :
    issueWith i f body s = .next (s.taken.takeTrap ig tr) := by
  rw [issueWith_trap h hb]
  exact conclude_next ((State.takeTrap_broken hc).trans h.sound)

/-- TRAPINFO of a member whose name no other has, where a trap gives each its own. -/
theorem Trap.info_of_mem {tr : Trap} {mem : List Thread} {info : Thread → Word} (hi : tr.infos = mem.map fun t => (t.tid, info t))
    {th : Thread} (hn : (mem.map (·.tid)).Nodup) (h : th ∈ mem) : tr.info th.tid = info th := by
  simp only [Trap.info, hi, List.find?_map, Function.comp_def, find?_tid_of_mem hn h, Option.map_some, Option.getD_some]

/-! ### Operands of the control instructions (R87, R148) -/

theorem eq_none_of_accepts_pNone {o : Operand} (h : Forms.accepts Forms.pNone o = true) : o = .none := by
  cases o with
  | none => rfl
  | vec | idx | uni | pred | tile | acc | xreg | lane | hgrp | flag | imm | lit => exact absurd h (by simp [Forms.accepts, Forms.pNone])

/-- A well-formed instruction of one source has an operand in OPA and OPD that its form accepts, and none in OPB. -/
theorem operands_of_wf_form1 {i : Instr} {opc : Nat} {f : Insn} {modOk : BitVec 8 → Bool} {d a : Pos} (hw : i.word? = some (opc, f))
    (hF : Forms.formOf opc = some (Forms.form1 modOk d a)) (h : i.wf = true) :
    modOk f.mod = true ∧ Forms.accepts d f.opd = true ∧ Forms.accepts a f.opa = true ∧ f.opb = .none := by
  simp only [Instr.wf, hw, Forms.encodable, hF, Bool.and_eq_true] at h
  obtain ⟨⟨⟨⟨⟨⟨⟨⟨hmod, hopd⟩, hopa⟩, hopb⟩, -⟩, -⟩, -⟩, -⟩, -⟩ := h
  exact ⟨hmod, hopd, hopa, eq_none_of_accepts_pNone hopb⟩

theorem mod_of_le_one {m : BitVec 8} (h : decide (m.toNat ≤ 1) = true) : m = 0 ∨ m = 1 := by
  have hm : m.toNat ≤ 1 := of_decide_eq_true h
  rcases Nat.le_one_iff_eq_zero_or_eq_one.1 hm with h0 | h1
  · exact .inl (BitVec.eq_of_toNat_eq h0)
  · exact .inr (BitVec.eq_of_toNat_eq h1)

/-- A control source that may be a literal (R148). -/
theorem source_of_accepts_pCtlL {o : Operand} (h : Forms.accepts Forms.pCtlL o = true) :
    (∃ v, o = .imm v) ∨ (∃ v, o = .lit v) ∨ (∃ n e m, o = .vec n e m) ∨ (∃ p x i e m, o = .idx p x i e m) ∨ ∃ n m, o = .uni n m := by
  cases o with
  | imm v => exact .inl ⟨v, rfl⟩
  | lit v => exact .inr (.inl ⟨v, rfl⟩)
  | vec n e m => exact .inr (.inr (.inl ⟨n, e, m, rfl⟩))
  | idx p x i e m => exact .inr (.inr (.inr (.inl ⟨p, x, i, e, m, rfl⟩)))
  | uni n m => exact .inr (.inr (.inr (.inr ⟨n, m, rfl⟩)))
  | none | pred | tile | acc | xreg | lane | hgrp | flag => exact absurd h (by simp [Forms.accepts, Forms.pCtlL])

/-- The offset of a relative branch is a constant of the instruction (R151). -/
theorem constant_of_accepts {o : Operand} {ms : List (BitVec 2)} (h : Forms.accepts ⟨[.imm, .lit], ms, false, false⟩ o = true) :
    (∃ v, o = .imm v) ∨ ∃ v, o = .lit v := by
  cases o with
  | imm v => exact .inl ⟨v, rfl⟩
  | lit v => exact .inr ⟨v, rfl⟩
  | none | vec | idx | uni | pred | tile | acc | xreg | lane | hgrp | flag => exact absurd h (by simp [Forms.accepts])

end Sys2Proof.Machine
end

section
/-! SUPPORT. Where BRA and TRET leave each thread (R151, R159). -/

namespace Sys2Proof.Machine

/-! ### Next PCs -/

/-- The thread after an instruction that sends the active lanes of an issue group to a target and its other members on. -/
def Thread.jumped (x : Exec) (target : Thread → Word) (a : Thread) : Thread :=
  { a with pc := match x.act.find? fun b => decide (b.tid = a.tid) with
      | some b => target b
      | none => x.ig.pc + 12 }

theorem Thread.jumped_pc_of_active {x : Exec} {target : Thread → Word} {p : Word} {a th : Thread} (hp : ∀ b ∈ x.act, target b = p)
    (hth : th ∈ x.act) (ht : th.tid = a.tid) : (a.jumped x target).pc = p := by
  cases hf : x.act.find? fun b => decide (b.tid = a.tid) with
  | none => exact absurd ht (by simpa using List.find?_eq_none.1 hf th hth)
  | some b => simp only [Thread.jumped, hf, hp b (List.mem_of_find?_eq_some hf)]

theorem Thread.jumped_pc_of_inactive {x : Exec} {target : Thread → Word} {a : Thread} (hn : ∀ th ∈ x.act, th.tid ≠ a.tid) :
    (a.jumped x target).pc = x.ig.pc + 12 := by
  have hf : (x.act.find? fun b => decide (b.tid = a.tid)) = none := List.find?_eq_none.2 fun b hb => by simpa using hn b hb
  simp only [Thread.jumped, hf]

theorem State.jump_seen (s : State) (x : Exec) (target : Thread → Word) (t : Tid) :
    (s.jump x target).seen t = (s.seen t).map fun a => if x.ig.members.contains t then a.jumped x target else a :=
  State.seen_modThreads (f := Thread.jumped x target) (fun _ => rfl) (fun _ => rfl) t

/-! ### The offset of BRA -/

theorem sext_eq_toInt (n : Nat) : sext 32 n = (BitVec.ofNat 32 n).toInt := by
  simp only [sext, BitVec.toInt, BitVec.toNat_ofNat]
  split <;> split <;> omega

/-- A relative target is taken modulo 2^32 (R151). -/
theorem relativeTarget_eq (s : State) (x : Exec) (th : Thread) : relativeTarget s x th = x.ig.pc + 12 + 12 * s.src32 th x.f.opa := by
  simp only [relativeTarget, State.disp, State.src32, sext_eq_toInt, BitVec.ofInt_add, BitVec.ofInt_mul, BitVec.ofInt_toInt]
  simp

theorem ofNat_wrap (z : Int) : BitVec.ofNat 32 (wrap 64 z) = BitVec.ofInt 32 z := by
  apply BitVec.eq_of_toNat_eq
  simp only [wrap, BitVec.toNat_ofNat, BitVec.toNat_ofInt]
  omega

theorem src32_of_constant {o : Operand} (h : (∃ v, o = .imm v) ∨ ∃ v, o = .lit v) (s : State) (th : Thread) : s.src32 th o = Rule.offset o := by
  rcases h with ⟨v, rfl⟩ | ⟨v, rfl⟩
  · exact ofNat_wrap v.toInt
  · simp [State.src32, State.src, Rule.offset]

/-! ### The end of a thread (R154), and the return from a handler (R159) -/

theorem State.write_cluster_files (s : State) (c a : Nat) (bs : List Byte) : (s.write (.cluster c a) bs).files = s.files := by
  unfold State.write
  split <;> rfl

theorem State.write_cluster_threads (s : State) (c a : Nat) (bs : List Byte) : (s.write (.cluster c a) bs).threads = s.threads := by
  unfold State.write
  split <;> rfl

/-- The thread after its end. -/
def Thread.ended (a : Thread) : Thread := { a with life := .exited, blocked := none, yielded := none, handler := false }

/-- The end of a thread of a block: its barriers lose it, which only local memory holds, and then it has exited. -/
theorem State.exitThread_eq {s : State} {t : Tid} {a : Thread} {b : Block} (ht : s.thread? t = some a) (hb : s.block? t.block = some b) :
    ∃ u : State, s.exitThread t = u.modThread t Thread.ended ∧ u.threads = s.threads ∧ u.files = s.files := by
  refine ⟨b.barriers.foldl (fun s x => s.exitBar b.core a x) s, ?_, foldl_frame State.threads _ ?_ _ _, foldl_frame State.files _ ?_ _ _⟩
  · simp only [State.exitThread, ht, hb]
    rfl
  · exact fun u p => State.write_cluster_threads u _ _ _
  · exact fun u p => State.write_cluster_files u _ _ _

theorem State.exitThread_of_no_block {s : State} {t : Tid} (hb : s.block? t.block = none) : s.exitThread t = s := by
  unfold State.exitThread
  rw [hb]
  split <;> simp_all

/-- A thread after TRET: at TRAPPC, or after it, or ended where its trap is CANCEL, as one of a block is. -/
def Thread.left (skip ends : Bool) (a : Thread) : Thread :=
  if a.trapCause = Cause.cancel then if ends then a.ended else a
  else { a with handler := false, pc := if skip then a.trapPc + 12 else a.trapPc }

theorem Thread.left_of_resumes {a : Thread} (skip ends : Bool) (hc : a.trapCause ≠ Cause.cancel) :
    a.left skip ends = { a with handler := false, pc := if skip then a.trapPc + 12 else a.trapPc } := if_neg hc

theorem Thread.left_of_cancel {a : Thread} (skip : Bool) (hc : a.trapCause = Cause.cancel) : a.left skip true = a.ended := by
  simp [Thread.left, hc]

theorem Thread.left_left (skip ends : Bool) (a : Thread) : (a.left skip ends).left skip ends = a.left skip ends := by
  by_cases hc : a.trapCause = Cause.cancel
  · cases ends <;> simp [Thread.left, hc, Thread.ended]
  · rw [Thread.left_of_resumes skip ends hc]
    exact Thread.left_of_resumes skip ends hc

/-- What one return from a handler can be: a change of the thread alone, in a state of the same registers and threads. -/
theorem State.leaveHandler_eq {s : State} {t : Tid} {a : Thread} (skip : Bool) (ha : s.thread? t = some a) :
    ∃ (v : State) (g : Thread → Thread), s.leaveHandler skip t = v.modThreads [t] g ∧ v.threads = s.threads ∧ v.files = s.files ∧
      (∀ b, (g b).tid = b.tid) ∧ (∀ b, (g b).unmarked = g b.unmarked) ∧ g a.unmarked = a.unmarked.left skip (s.block? t.block).isSome := by
  by_cases hc : a.trapCause = Cause.cancel
  · have hl : s.leaveHandler skip t = s.exitThread t := by simp [State.leaveHandler, ha, hc]
    have hcu : a.unmarked.trapCause = Cause.cancel := hc
    cases hb : s.block? t.block with
    | none =>
      refine ⟨s, id, ?_, rfl, rfl, fun _ => rfl, fun _ => rfl, by simp [Thread.left, hcu]⟩
      rw [hl, State.exitThread_of_no_block hb]
      simp [State.modThreads]
    | some b =>
      obtain ⟨v, hv, hthreads, hfiles⟩ := State.exitThread_eq ha hb
      exact ⟨v, Thread.ended, by rw [hl, hv, State.modThread_eq_modThreads], hthreads, hfiles, fun _ => rfl, fun _ => rfl,
        (Thread.left_of_cancel skip hcu).symm⟩
  · exact ⟨s, _, (State.leaveHandler_resumes skip ha hc).trans (State.modThread_eq_modThreads s t _), rfl, rfl, fun _ => rfl, fun _ => rfl,
      (Thread.left_of_resumes (a := a.unmarked) skip _ hc).symm⟩

theorem State.leaveHandler_of_no_thread {s : State} {t : Tid} (skip : Bool) (h : s.thread? t = none) : s.leaveHandler skip t = s := by
  simp [State.leaveHandler, h]

@[simp] theorem State.leaveHandler_files (s : State) (skip : Bool) (t : Tid) : (s.leaveHandler skip t).files = s.files := by
  cases ha : s.thread? t with
  | none => rw [State.leaveHandler_of_no_thread skip ha]
  | some a =>
    obtain ⟨v, g, hl, -, hfiles, -⟩ := State.leaveHandler_eq skip ha
    rw [hl, State.modThreads_files, hfiles]

theorem State.leaveHandler_seen (s : State) (skip : Bool) (t u : Tid) :
    (s.leaveHandler skip t).seen u = (s.seen u).map fun a => if u = t then a.left skip (s.block? u.block).isSome else a := by
  cases ha : s.thread? t with
  | none =>
    rw [State.leaveHandler_of_no_thread skip ha]
    by_cases hu : u = t
    · simp [State.seen, hu, ha]
    · simp [hu]
  | some a =>
    obtain ⟨v, g, hl, hthreads, -, htid, hmarks, hga⟩ := State.leaveHandler_eq skip ha
    have hv : v.seen u = s.seen u := by simp only [State.seen, State.thread?, hthreads]
    rw [hl, State.seen_modThreads htid hmarks, hv]
    by_cases hu : u = t
    · subst hu
      simp [State.seen_of_thread? ha, hga]
    · simp [hu]

/-- All of a list of threads return from their handlers. -/
def State.leaveHandlers (s : State) (skip : Bool) (ts : List Tid) : State := ts.foldl (State.leaveHandler · skip) s

@[simp] theorem State.leaveHandlers_files (s : State) (skip : Bool) (ts : List Tid) : (s.leaveHandlers skip ts).files = s.files :=
  foldl_frame State.files _ (fun s t => s.leaveHandler_files skip t) ts s

theorem State.block?_of_files {s t : State} (h : t.files = s.files) (k : BlockKey) : t.block? k = s.block? k := by
  obtain ⟨-, -, -, hblocks, -⟩ := State.files_eq_iff.1 h
  rw [State.block?, State.block?, hblocks]

theorem State.leaveHandlers_seen (skip : Bool) (ts : List Tid) (s : State) (u : Tid) :
    (s.leaveHandlers skip ts).seen u = (s.seen u).map fun a => if u ∈ ts then a.left skip (s.block? u.block).isSome else a := by
  induction ts generalizing s with
  | nil => simp [State.leaveHandlers]
  | cons t ts ih =>
    have hrest : s.leaveHandlers skip (t :: ts) = (s.leaveHandler skip t).leaveHandlers skip ts := rfl
    rw [hrest, ih, State.leaveHandler_seen, State.block?_of_files (s.leaveHandler_files skip t), Option.map_map]
    refine Option.map_congr fun a _ => ?_
    by_cases hu : u = t <;> by_cases hm : u ∈ ts <;> simp [hu, hm, Thread.left_left]

end Sys2Proof.Machine
end

section
/-! PROOFS. O23 to O25: TRAP, TRET and BRA (R151, R158, R159). -/

namespace Sys2Proof.Machine

/-- The trap of TRAP: OPA of each member as its TRAPINFO (R158). -/
def trapiOf (u : State) (x : Exec) : Trap := { cause := Cause.trapi, infos := x.mem.map fun t => (t.tid, u.src32 t x.f.opa) }

theorem trapiOf_info {u : State} {x : Exec} {th : Thread} (hn : (x.mem.map (·.tid)).Nodup) (h : th ∈ x.mem) :
    (trapiOf u x).info th.tid = u.src32 th x.f.opa := Trap.info_of_mem (info := fun t => u.src32 t x.f.opa) rfl hn h

theorem exec_trap {f : Insn} {s : State} {ig : IssueGroup} {act : List Thread} (h : Admits s (.trap f) f ig act) :
    exec (.trap f) s = .next (s.taken.takeTrap ig (trapiOf (s.acting (s.about (.trap f) f ig act)) (s.about (.trap f) f ig act))) := by
  show execTrap f s = _
  exact issueWith_takes_trap h rfl (by decide : Cause.trapi ≠ Cause.cancel)

/-- The trap of TRET outside a handler (R159). -/
def illopOf (x : Exec) : Trap := { cause := Cause.illop, infos := x.mem.map fun t => (t.tid, 0) }

theorem exec_tret_outside {f : Insn} {s : State} {ig : IssueGroup} {act : List Thread} (h : Admits s (.tret f) f ig act)
    (ho : ∃ th ∈ act, th.handler = false) :
    ∃ tr : Trap, tr.cause = Cause.illop ∧ exec (.tret f) s = .next (s.taken.takeTrap ig tr) := by
  have hany : ((s.about (.tret f) f ig act).act.any fun th => !th.handler) = true := by
    simpa using ho
  refine ⟨illopOf (s.about (.tret f) f ig act), rfl, ?_⟩
  show execTret f s = _
  exact issueWith_takes_trap h (if_pos hany) (by decide : Cause.illop ≠ Cause.cancel)

/-- The effect of TRET in a handler (R159). -/
def State.returned (u : State) (x : Exec) (skip : Bool) : State := (u.jump x (·.pc)).leaveHandlers skip (x.act.map (·.tid))

@[simp] theorem State.returned_files (u : State) (x : Exec) (skip : Bool) : (u.returned x skip).files = u.files := by simp [State.returned]

/-- What TRET in a handler leaves. -/
def State.afterTret (s : State) (f : Insn) (ig : IssueGroup) (act : List Thread) : State :=
  ((s.acting (s.about (.tret f) f ig act)).returned (s.about (.tret f) f ig act) (f.mod.getLsbD 0)).closed (s.about (.tret f) f ig act) (.tret f)
    .atIssue true

theorem exec_tret_inside {f : Insn} {s : State} {ig : IssueGroup} {act : List Thread} (h : Admits s (.tret f) f ig act)
    (hi : ∀ th ∈ act, th.handler = true) :
    exec (.tret f) s = .next (s.afterTret f ig act) := by
  have hany : ¬((s.about (.tret f) f ig act).act.any fun th => !th.handler) = true := by
    simpa using hi
  obtain ⟨-, -, -, -, hbroken, hdebug⟩ := State.files_eq_iff.1
    (((s.acting (s.about (.tret f) f ig act)).returned_files (s.about (.tret f) f ig act) (f.mod.getLsbD 0)).trans (s.acting_files _))
  show execTret f s = _
  exact issueWith_done h (if_neg hany) (hbroken.trans h.sound) (hdebug.trans h.untraced)

/-- What TRET changes in a handler, the local memory of ended threads' barriers aside, it changes in threads. -/
theorem State.afterTret_files (s : State) (f : Insn) (ig : IssueGroup) (act : List Thread) : (s.afterTret f ig act).files = s.files := by
  simp [State.afterTret]

theorem State.afterTret_seen {s : State} {f : Insn} {ig : IssueGroup} {act : List Thread} (h : Admits s (.tret f) f ig act)
    (hn : (s.threads.map (·.tid)).Nodup) {th : Thread} (hth : th ∈ act) :
    (s.afterTret f ig act).seen th.tid =
      some ((th.unmarked.jumped (s.about (.tret f) f ig act) (·.pc)).left (f.mod.getLsbD 0) (s.block? th.tid.block).isSome) := by
  obtain ⟨hmem, hmembers⟩ := h.of_mem_act hth
  have hact : th.tid ∈ act.map (·.tid) := List.mem_map_of_mem hth
  have hblock : ((s.acting (s.about (.tret f) f ig act)).jump (s.about (.tret f) f ig act) (·.pc)).block? th.tid.block = s.block? th.tid.block :=
    State.block?_of_files (by simp) _
  rw [State.afterTret, State.closed_seen (State.steps_about_of_no_uses (fun _ => rfl) ..), State.returned, State.leaveHandlers_seen, State.jump_seen,
    State.acting_seen, State.seen_of_thread? (State.thread?_of_mem hn hmem), hblock]
  simp [hmembers, hact]

theorem exec_bra (f : Insn) : Effects (.bra f) f (fun _ => .atIssue) true fun u x => u.jump x (relativeTarget u x) :=
  effects_of (fun _ => rfl) (fun _ _ => rfl) (fun _ _ => rfl) (fun _ _ => rfl)

/-- What BRA leaves. -/
def State.afterBra (s : State) (f : Insn) (ig : IssueGroup) (act : List Thread) : State :=
  ((s.acting (s.about (.bra f) f ig act)).jump (s.about (.bra f) f ig act)
    (relativeTarget (s.acting (s.about (.bra f) f ig act)) (s.about (.bra f) f ig act))).closed (s.about (.bra f) f ig act) (.bra f) .atIssue true

theorem State.afterBra_files (s : State) (f : Insn) (ig : IssueGroup) (act : List Thread) : (s.afterBra f ig act).files = s.files := by
  simp [State.afterBra]

theorem State.afterBra_locals (s : State) (f : Insn) (ig : IssueGroup) (act : List Thread) : (s.afterBra f ig act).locals = s.locals := by
  simp [State.afterBra, State.jump]

theorem State.afterBra_seen {s : State} (f : Insn) (ig : IssueGroup) (act : List Thread) {t : Tid} {a : Thread} (ha : s.thread? t = some a) :
    (s.afterBra f ig act).seen t = some (if t ∈ ig.members then a.unmarked.jumped (s.about (.bra f) f ig act)
      (relativeTarget (s.acting (s.about (.bra f) f ig act)) (s.about (.bra f) f ig act)) else a.unmarked) := by
  rw [State.afterBra, State.closed_seen (State.steps_about_of_no_uses (fun _ => rfl) ..), State.jump_seen, State.acting_seen, State.seen_of_thread? ha]
  simp

/-- With a constant offset, every active lane has one target (R151). -/
theorem relativeTarget_of_constant {f : Insn} (ho : (∃ v, f.opa = .imm v) ∨ ∃ v, f.opa = .lit v) (u : State) {x : Exec} (hx : x.f = f) (th : Thread) :
    relativeTarget u x th = x.ig.pc + 12 + 12 * Rule.offset f.opa := by
  rw [relativeTarget_eq, hx, src32_of_constant ho]

end Sys2Proof.Machine

namespace Sys2Proof.Proofs

open Machine

/-- Settles O23: the body of TRAP is a trap with OPA of each member as TRAPINFO. -/
theorem trapInstruction : Obligations.TrapInstruction := by
  unfold Obligations.TrapInstruction
  refine ⟨fun f h => ?_, fun f s ig act h => ⟨_, rfl, fun th ht hn => trapiOf_info hn ht, exec_trap h⟩⟩
  obtain ⟨hmod, hopd, hopa, hopb⟩ := operands_of_wf_form1 rfl rfl h
  exact ⟨by simpa [Forms.modIs] using hmod, eq_none_of_accepts_pNone hopd, hopb, source_of_accepts_pCtlL hopa⟩

/-- Settles O24: every active thread stands, its marks aside, where one return from its handler puts it, however many threads return. -/
theorem returnFromTrap : Obligations.ReturnFromTrap := by
  unfold Obligations.ReturnFromTrap
  refine ⟨fun f h => ?_, fun f s ig act h => ⟨exec_tret_outside h, fun hi hn => ⟨_, exec_tret_inside h hi, ?_⟩⟩⟩
  · obtain ⟨hmod, hopd, hopa, hopb⟩ := operands_of_wf_form1 rfl rfl h
    exact ⟨mod_of_le_one hmod, eq_none_of_accepts_pNone hopd, eq_none_of_accepts_pNone hopa, hopb⟩
  · obtain ⟨hregs, hvault, hpool, -⟩ := State.files_eq_iff.1 (s.afterTret_files f ig act)
    refine ⟨hregs, hvault, hpool, fun th hth => ?_⟩
    obtain ⟨b, hb, hseen⟩ := State.thread?_of_seen (State.afterTret_seen h hn hth)
    refine ⟨b, hb, fun hc => ?_, fun hc hblock => ?_⟩
    · have hleft := hseen.trans (Thread.left_of_resumes _ _ hc)
      exact ⟨congrArg Thread.handler hleft, congrArg Thread.pc hleft, (congrArg Thread.life hleft :)⟩
    · rw [Option.isSome_iff_ne_none.2 hblock] at hseen
      exact congrArg Thread.life (hseen.trans (Thread.left_of_cancel _ hc))

/-- Settles O25: the jump of BRA sets PCs alone, and a fetch compares the end of the instruction with the code's size. -/
theorem relativeBranch : Obligations.RelativeBranch := by
  unfold Obligations.RelativeBranch
  refine ⟨fun f h => ?_, fun f s ig act ho h => ?_, fun s l pc hl halign hsize => ?_⟩
  · obtain ⟨hmod, hopd, hopa, hopb⟩ := operands_of_wf_form1 rfl rfl h
    exact ⟨by simpa [Forms.modIs] using hmod, eq_none_of_accepts_pNone hopd, hopb, constant_of_accepts hopa⟩
  · obtain ⟨hregs, hvault, hpool, -⟩ := State.files_eq_iff.1 (s.afterBra_files f ig act)
    refine ⟨s.afterBra f ig act, exec_bra f s ig act h, hregs, ⟨hvault, hpool, s.afterBra_locals f ig act⟩, fun tid a ha => ?_⟩
    obtain rfl := State.tid_of_thread? ha
    obtain ⟨b, hb, hseen⟩ := State.thread?_of_seen (State.afterBra_seen f ig act ha)
    by_cases hm : a.tid ∈ ig.members
    · rw [if_pos hm] at hseen
      obtain ⟨hsame, hpc⟩ := sameThread_of_unmarked hseen
      refine ⟨b, hb, hsame, fun ⟨th, hth, ht⟩ => ?_, fun _ hn => ?_, fun hn => absurd hm hn⟩
      · exact hpc.trans (Thread.jumped_pc_of_active (fun th _ => relativeTarget_of_constant ho _ rfl th) hth ht)
      · exact hpc.trans (Thread.jumped_pc_of_inactive hn)
    · rw [if_neg hm] at hseen
      obtain ⟨hsame, hpc⟩ := sameThread_of_unmarked (p := a.pc) hseen
      exact ⟨b, hb, hsame, fun ⟨th, hth, ht⟩ => absurd (ht ▸ (h.of_mem_act hth).2) hm, fun hm' => absurd hm' hm, fun _ => hpc⟩
  · simp [State.fetch, hl, halign, hsize]

end Sys2Proof.Proofs
end

section
/-! PROOFS. O8: every step that goes on keeps soundness. -/

namespace Sys2Proof.Machine

/-! ### Every answer is a conclusion -/

/-- An answer is a conclusion: it goes on from a sound state alone (log 11). -/
def Concludes (o : Host.Outcome State Fault Refusal) : Prop := ∃ u, o = conclude u

theorem conclude_concludes (u : State) : Concludes (conclude u) := ⟨u, rfl⟩

/-- A conclusion that goes on goes on from a sound state. -/
theorem Concludes.sound {o : Host.Outcome State Fault Refusal} {t : State} (h : Concludes o) (ho : o = .next t) : t.sound = true := by
  obtain ⟨u, rfl⟩ := h
  cases hb : u.broken with
  | none =>
    rw [conclude_next hb] at ho
    injection ho with ho
    simpa [State.sound, ho] using congrArg Option.isNone hb
  | some r => simp [conclude, hb] at ho

/-- What reads a queue's record concludes, whatever the record's effect (R254, R255). -/
theorem takeRecord_concludes (kinds : Nat → Bool) (q : Nat) (body : State → Ctx → Queue → Nat → List Byte → Option State) (s : State) :
    Concludes (takeRecord kinds q body s) := by
  unfold takeRecord
  repeat' first | exact ⟨_, rfl⟩ | split | (extract_lets; split)

theorem State.mail_concludes (s : State) {f : State → Host.Outcome State Fault Refusal} (h : ∀ s, Concludes (f s)) : Concludes (s.mail f) := by
  unfold State.mail
  split
  · exact h s
  · exact conclude_concludes _

theorem State.arrive_concludes (s : State) (p : Packet) (f : State → State) : Concludes (s.arrive p f) := by
  unfold State.arrive
  repeat' first | exact ⟨_, rfl⟩ | split | (extract_lets; split)

theorem State.debugPort_concludes (s : State) {f : State → Host.Outcome State Fault Refusal} (h : ∀ s, Concludes (f s)) :
    Concludes (s.debugPort f) := by
  unfold State.debugPort
  repeat' split
  · exact conclude_concludes _
  · exact conclude_concludes _
  · exact h s

/-! ### Commands through the mailbox -/

@[simp] theorem execRegisterQueue_concludes (ctx : Nat) (ptr : BitVec 64) (s : State) : Concludes (execRegisterQueue ctx ptr s) := by
  unfold execRegisterQueue
  refine s.mail_concludes fun s => ?_
  repeat' first | exact ⟨_, rfl⟩ | split | (extract_lets; split)

@[simp] theorem execReset_concludes (q : Nat) (skip : Bool) (s : State) : Concludes (execReset q skip s) := by
  unfold execReset
  refine s.mail_concludes fun s => ?_
  repeat' first | exact ⟨_, rfl⟩ | split | (extract_lets; split)

@[simp] theorem execDisable_concludes (q : Nat) (s : State) : Concludes (execDisable q s) := by
  unfold execDisable
  refine s.mail_concludes fun s => ?_
  repeat' first | exact ⟨_, rfl⟩ | split | (extract_lets; split)

@[simp] theorem execEnable_concludes (q : Nat) (s : State) : Concludes (execEnable q s) := by
  unfold execEnable
  refine s.mail_concludes fun s => ?_
  repeat' first | exact ⟨_, rfl⟩ | split | (extract_lets; split)

@[simp] theorem execRegisterContext_concludes (quarter addr : Nat) (s : State) : Concludes (execRegisterContext quarter addr s) := by
  unfold execRegisterContext
  refine s.mail_concludes fun s => ?_
  repeat' first | exact ⟨_, rfl⟩ | split | (extract_lets; split)

@[simp] theorem execStart_concludes (ctx : Nat) (s : State) : Concludes (execStart ctx s) := by
  unfold execStart
  refine s.mail_concludes fun s => ?_
  repeat' first | exact ⟨_, rfl⟩ | split | (extract_lets; split)

@[simp] theorem execPreempt_concludes (ctx : Nat) (s : State) : Concludes (execPreempt ctx s) := by
  unfold execPreempt
  refine s.mail_concludes fun s => ?_
  repeat' first | exact ⟨_, rfl⟩ | split | (extract_lets; split)

@[simp] theorem execResume_concludes (ctx : Nat) (s : State) : Concludes (execResume ctx s) := by
  unfold execResume
  refine s.mail_concludes fun s => ?_
  repeat' first | exact ⟨_, rfl⟩ | split | (extract_lets; split)

@[simp] theorem execDestroy_concludes (ctx : Nat) (s : State) : Concludes (execDestroy ctx s) := by
  unfold execDestroy
  refine s.mail_concludes fun s => ?_
  repeat' first | exact ⟨_, rfl⟩ | split | (extract_lets; split)

@[simp] theorem execViewroot_concludes (ctx obj low high : Nat) (rights : BitVec 8) (s : State) : Concludes (execViewroot ctx obj low high rights s) := by
  unfold execViewroot
  refine s.mail_concludes fun s => ?_
  repeat' first | exact ⟨_, rfl⟩ | split | (extract_lets; split)

@[simp] theorem execViewrecycle_concludes (ctx index : Nat) (s : State) : Concludes (execViewrecycle ctx index s) := by
  unfold execViewrecycle
  refine s.mail_concludes fun s => ?_
  repeat' first | exact ⟨_, rfl⟩ | split | (extract_lets; split)

@[simp] theorem execPagering_concludes (ctx : Nat) (ptr : BitVec 64) (s : State) : Concludes (execPagering ctx ptr s) := by
  unfold execPagering
  refine s.mail_concludes fun s => ?_
  repeat' first | exact ⟨_, rfl⟩ | split | (extract_lets; split)

@[simp] theorem execRegisterTraceRing_concludes (ctx : Nat) (ptr : BitVec 64) (s : State) : Concludes (execRegisterTraceRing ctx ptr s) := by
  unfold execRegisterTraceRing
  refine s.mail_concludes fun s => ?_
  repeat' first | exact ⟨_, rfl⟩ | split | (extract_lets; split)

/-- A line of a multicast that a member holds is tried again where it stands (R365). -/
@[simp] theorem execMcast_concludes (p : Packet) (s : State) : Concludes (execMcast p s) := by
  unfold execMcast
  split
  · split <;> exact conclude_concludes _
  · exact s.arrive_concludes _ _

/-! ### Commands of the debugger -/

@[simp] theorem execDeepHalt_concludes (s : State) : Concludes (execDeepHalt s) := by
  unfold execDeepHalt
  refine s.debugPort_concludes fun s => ?_
  repeat' first | exact ⟨_, rfl⟩ | split | (extract_lets; split)

@[simp] theorem execBreakpointRegisterWrite_concludes (ctx i launch : Nat) (pc : Word) (on : Bool) (s : State) : Concludes (execBreakpointRegisterWrite ctx i launch pc on s) := by
  unfold execBreakpointRegisterWrite
  refine s.debugPort_concludes fun s => ?_
  repeat' first | exact ⟨_, rfl⟩ | split | (extract_lets; split)

@[simp] theorem execDebugResume_concludes (b : Option BlockKey) (s : State) : Concludes (execDebugResume b s) := by
  unfold execDebugResume
  refine s.debugPort_concludes fun s => ?_
  repeat' first | exact ⟨_, rfl⟩ | split | (extract_lets; split)

@[simp] theorem execDebugRegisterAccess_concludes (t : Tid) (place : DebugPlace) (write : Option Word) (s : State) : Concludes (execDebugRegisterAccess t place write s) := by
  unfold execDebugRegisterAccess
  refine s.debugPort_concludes fun s => ?_
  repeat' first | exact ⟨_, rfl⟩ | split | (extract_lets; split)

@[simp] theorem execDump_concludes (ctx : Nat) (spaceFirst spaceSize : Nat) (s : State) : Concludes (execDump ctx spaceFirst spaceSize s) := by
  unfold execDump
  refine s.debugPort_concludes fun s => ?_
  repeat' first | exact ⟨_, rfl⟩ | split | (extract_lets; split)

@[simp] theorem execDumpRelease_concludes (ctx : Nat) (s : State) : Concludes (execDumpRelease ctx s) := by
  unfold execDumpRelease
  refine s.debugPort_concludes fun s => ?_
  repeat' first | exact ⟨_, rfl⟩ | split | (extract_lets; split)

@[simp] theorem execDebugHalt_concludes (freeze : Bool) (s : State) : Concludes (execDebugHalt freeze s) := by
  unfold execDebugHalt
  refine s.debugPort_concludes fun s => ?_
  repeat' first | exact ⟨_, rfl⟩ | split | (extract_lets; split)

/-! ### Steps of the units -/

@[simp] theorem execIssueGroupSelect_concludes (core sched : Nat) (s : State) : Concludes (execIssueGroupSelect core sched s) := by
  unfold execIssueGroupSelect
  repeat' first | exact ⟨_, rfl⟩ | split | (extract_lets; split)

@[simp] theorem execForcedCandidate_concludes (b : BlockKey) (g : Nat) (s : State) : Concludes (execForcedCandidate b g s) := by
  unfold execForcedCandidate
  repeat' first | exact ⟨_, rfl⟩ | split | (extract_lets; split)

@[simp] theorem execYieldTimeout_concludes (b : BlockKey) (g : Nat) (s : State) : Concludes (execYieldTimeout b g s) := by
  unfold execYieldTimeout
  repeat' first | exact ⟨_, rfl⟩ | split | (extract_lets; split)

@[simp] theorem execWaitfLimit_concludes (t : Tid) (s : State) : Concludes (execWaitfLimit t s) := by
  unfold execWaitfLimit
  repeat' first | exact ⟨_, rfl⟩ | split | (extract_lets; split)

@[simp] theorem execFixedLatencyWrite_concludes (core i : Nat) (s : State) : Concludes (execFixedLatencyWrite core i s) := by
  unfold execFixedLatencyWrite
  repeat' first | exact ⟨_, rfl⟩ | split | (extract_lets; split)

@[simp] theorem execFillArrival_concludes (core i : Nat) (s : State) : Concludes (execFillArrival core i s) := by
  unfold execFillArrival
  repeat' first | exact ⟨_, rfl⟩ | split | (extract_lets; split)

@[simp] theorem execDeferredTrap_concludes (b : BlockKey) (g : Nat) (s : State) : Concludes (execDeferredTrap b g s) := by
  unfold execDeferredTrap
  repeat' first | exact ⟨_, rfl⟩ | split | (extract_lets; split)

@[simp] theorem execMemueTrap_concludes (t : Tid) (s : State) : Concludes (execMemueTrap t s) := by
  unfold execMemueTrap
  repeat' first | exact ⟨_, rfl⟩ | split | (extract_lets; split)

@[simp] theorem execMcnackTrap_concludes (t : Tid) (s : State) : Concludes (execMcnackTrap t s) := by
  unfold execMcnackTrap
  repeat' first | exact ⟨_, rfl⟩ | split | (extract_lets; split)

@[simp] theorem execCancelTrap_concludes (b : BlockKey) (s : State) : Concludes (execCancelTrap b s) := by
  unfold execCancelTrap
  repeat' first | exact ⟨_, rfl⟩ | split | (extract_lets; split)

@[simp] theorem execWaitTableRetry_concludes (core : Nat) (s : State) : Concludes (execWaitTableRetry core s) := by
  unfold execWaitTableRetry
  repeat' first | exact ⟨_, rfl⟩ | split | (extract_lets; split)

@[simp] theorem execGsyncComplete_concludes (b : BlockKey) (g : Nat) (s : State) : Concludes (execGsyncComplete b g s) := by
  unfold execGsyncComplete
  repeat' first | exact ⟨_, rfl⟩ | split | (extract_lets; split)

@[simp] theorem execHangDetect_concludes (b : BlockKey) (g : Nat) (s : State) : Concludes (execHangDetect b g s) := by
  unfold execHangDetect
  repeat' first | exact ⟨_, rfl⟩ | split | (extract_lets; split)

@[simp] theorem execHangTrap_concludes (b : BlockKey) (g : Nat) (s : State) : Concludes (execHangTrap b g s) := by
  unfold execHangTrap
  repeat' first | exact ⟨_, rfl⟩ | split | (extract_lets; split)

@[simp] theorem execMmaSlice_concludes (core : Nat) (s : State) : Concludes (execMmaSlice core s) := by
  unfold execMmaSlice
  repeat' first | exact ⟨_, rfl⟩ | split | (extract_lets; split)

@[simp] theorem execEngineOperationDone_concludes (core : Nat) (s : State) : Concludes (execEngineOperationDone core s) := by
  unfold execEngineOperationDone
  repeat' first | exact ⟨_, rfl⟩ | split | (extract_lets; split)

@[simp] theorem execAccdrRow_concludes (core : Nat) (s : State) : Concludes (execAccdrRow core s) := by
  unfold execAccdrRow
  repeat' first | exact ⟨_, rfl⟩ | split | (extract_lets; split)

@[simp] theorem execPlacePassStep_concludes (i : Nat) (s : State) : Concludes (execPlacePassStep i s) := by
  unfold execPlacePassStep
  repeat' first | exact ⟨_, rfl⟩ | split | (extract_lets; split)

@[simp] theorem execCopyRequest_concludes (core i : Nat) (s : State) : Concludes (execCopyRequest core i s) := by
  unfold execCopyRequest
  repeat' first | exact ⟨_, rfl⟩ | split | (extract_lets; split)

@[simp] theorem execLdglBytesWritten_concludes (core i : Nat) (s : State) : Concludes (execLdglBytesWritten core i s) := by
  unfold execLdglBytesWritten
  repeat' first | exact ⟨_, rfl⟩ | split | (extract_lets; split)

@[simp] theorem execStorePerformed_concludes (core i : Nat) (s : State) : Concludes (execStorePerformed core i s) := by
  unfold execStorePerformed
  repeat' first | exact ⟨_, rfl⟩ | split | (extract_lets; split)

@[simp] theorem execReclamationSequence_concludes (i : Nat) (s : State) : Concludes (execReclamationSequence i s) := by
  unfold execReclamationSequence
  repeat' first | exact ⟨_, rfl⟩ | split | (extract_lets; split)

@[simp] theorem execShootdown_concludes (core i : Nat) (s : State) : Concludes (execShootdown core i s) := by
  unfold execShootdown
  repeat' first | exact ⟨_, rfl⟩ | split | (extract_lets; split)

@[simp] theorem execHandleGrant_concludes (core n : Nat) (s : State) : Concludes (execHandleGrant core n s) := by
  unfold execHandleGrant
  repeat' first | exact ⟨_, rfl⟩ | split | (extract_lets; split)

@[simp] theorem execPromotionRequest_concludes (core : Nat) (s : State) : Concludes (execPromotionRequest core s) := by
  unfold execPromotionRequest
  repeat' first | exact ⟨_, rfl⟩ | split | (extract_lets; split)

@[simp] theorem execSerialisationRequest_concludes (core : Nat) (s : State) : Concludes (execSerialisationRequest core s) := by
  unfold execSerialisationRequest
  repeat' first | exact ⟨_, rfl⟩ | split | (extract_lets; split)

@[simp] theorem execBlockPlace_concludes (launch : Nat) (s : State) : Concludes (execBlockPlace launch s) := by
  unfold execBlockPlace
  repeat' first | exact ⟨_, rfl⟩ | split | (extract_lets; split)

@[simp] theorem execDrainClusterReserve_concludes (launch : Nat) (s : State) : Concludes (execDrainClusterReserve launch s) := by
  unfold execDrainClusterReserve
  repeat' first | exact ⟨_, rfl⟩ | split | (extract_lets; split)

@[simp] theorem execGangEvictDecision_concludes (launch : Nat) (s : State) : Concludes (execGangEvictDecision launch s) := by
  unfold execGangEvictDecision
  repeat' first | exact ⟨_, rfl⟩ | split | (extract_lets; split)

@[simp] theorem execBlockEvictionDone_concludes (b : BlockKey) (s : State) : Concludes (execBlockEvictionDone b s) := by
  unfold execBlockEvictionDone
  repeat' first | exact ⟨_, rfl⟩ | split | (extract_lets; split)

@[simp] theorem execPrologue_concludes (b : BlockKey) (s : State) : Concludes (execPrologue b s) := by
  unfold execPrologue
  repeat' first | exact ⟨_, rfl⟩ | split | (extract_lets; split)

@[simp] theorem execBlockStart_concludes (b : BlockKey) (s : State) : Concludes (execBlockStart b s) := by
  unfold execBlockStart
  repeat' first | exact ⟨_, rfl⟩ | split | (extract_lets; split)

@[simp] theorem execBlockEnd_concludes (b : BlockKey) (s : State) : Concludes (execBlockEnd b s) := by
  unfold execBlockEnd
  repeat' first | exact ⟨_, rfl⟩ | split | (extract_lets; split)

@[simp] theorem execContinuationGroupTimeout_concludes (launch entry : Nat) (s : State) : Concludes (execContinuationGroupTimeout launch entry s) := by
  unfold execContinuationGroupTimeout
  repeat' first | exact ⟨_, rfl⟩ | split | (extract_lets; split)

@[simp] theorem execQueueDrained_concludes (q : Nat) (s : State) : Concludes (execQueueDrained q s) := by
  unfold execQueueDrained
  repeat' first | exact ⟨_, rfl⟩ | split | (extract_lets; split)

@[simp] theorem execPreemptSaveDone_concludes (ctx : Nat) (s : State) : Concludes (execPreemptSaveDone ctx s) := by
  unfold execPreemptSaveDone
  repeat' first | exact ⟨_, rfl⟩ | split | (extract_lets; split)

@[simp] theorem execRestoreDone_concludes (ctx : Nat) (s : State) : Concludes (execRestoreDone ctx s) := by
  unfold execRestoreDone
  repeat' first | exact ⟨_, rfl⟩ | split | (extract_lets; split)

@[simp] theorem execContextFault_concludes (ctx : Nat) (s : State) : Concludes (execContextFault ctx s) := by
  unfold execContextFault
  repeat' first | exact ⟨_, rfl⟩ | split | (extract_lets; split)

@[simp] theorem execFill_concludes (s : State) : Concludes (execFill s) := by
  unfold execFill
  repeat' first | exact ⟨_, rfl⟩ | split | (extract_lets; split)

@[simp] theorem execFillDone_concludes (i : Nat) (s : State) : Concludes (execFillDone i s) := by
  unfold execFillDone
  repeat' first | exact ⟨_, rfl⟩ | split | (extract_lets; split)

@[simp] theorem execEvict_concludes (s : State) : Concludes (execEvict s) := by
  unfold execEvict
  repeat' first | exact ⟨_, rfl⟩ | split | (extract_lets; split)

@[simp] theorem execEvictionDone_concludes (i : Nat) (s : State) : Concludes (execEvictionDone i s) := by
  unfold execEvictionDone
  repeat' first | exact ⟨_, rfl⟩ | split | (extract_lets; split)

@[simp] theorem execSoftError_concludes (quarter addr : Nat) (corrected : Bool) (s : State) : Concludes (execSoftError quarter addr corrected s) := by
  unfold execSoftError
  repeat' first | exact ⟨_, rfl⟩ | split | (extract_lets; split)

@[simp] theorem execFrameLost_concludes (ctx obj off : Nat) (s : State) : Concludes (execFrameLost ctx obj off s) := by
  unfold execFrameLost
  repeat' first | exact ⟨_, rfl⟩ | split | (extract_lets; split)

@[simp] theorem execBringUp_concludes (r : BringUpResult) (s : State) : Concludes (execBringUp r s) := by
  unfold execBringUp
  repeat' first | exact ⟨_, rfl⟩ | split | (extract_lets; split)

@[simp] theorem execPstate_concludes (target : Nat) (quarters : BitVec 4) (s : State) : Concludes (execPstate target quarters s) := by
  unfold execPstate
  repeat' first | exact ⟨_, rfl⟩ | split | (extract_lets; split)

@[simp] theorem execCurrentLimiterWindow_concludes (core : Nat) (s : State) : Concludes (execCurrentLimiterWindow core s) := by
  unfold execCurrentLimiterWindow
  repeat' first | exact ⟨_, rfl⟩ | split | (extract_lets; split)

@[simp] theorem execAttest_concludes (nonce : BitVec 256) (s : State) : Concludes (execAttest nonce s) := by
  unfold execAttest
  repeat' first | exact ⟨_, rfl⟩ | split | (extract_lets; split)

@[simp] theorem execDebugLevel_concludes (level : Nat) (token : Bool) (s : State) : Concludes (execDebugLevel level token s) := by
  unfold execDebugLevel
  repeat' first | exact ⟨_, rfl⟩ | split | (extract_lets; split)

@[simp] theorem execLifecycleAdvance_concludes (s : State) : Concludes (execLifecycleAdvance s) := by
  unfold execLifecycleAdvance
  repeat' first | exact ⟨_, rfl⟩ | split | (extract_lets; split)

@[simp] theorem execSkewMeasure_concludes (i : Nat) (value : BitVec 32) (s : State) : Concludes (execSkewMeasure i value s) := by
  unfold execSkewMeasure
  repeat' first | exact ⟨_, rfl⟩ | split | (extract_lets; split)

@[simp] theorem execLinkTrain_concludes (l : Nat) (s : State) : Concludes (execLinkTrain l s) := by
  unfold execLinkTrain
  repeat' first | exact ⟨_, rfl⟩ | split | (extract_lets; split)

@[simp] theorem execLinkTrained_concludes (l lanes : Nat) (s : State) : Concludes (execLinkTrained l lanes s) := by
  unfold execLinkTrained
  repeat' first | exact ⟨_, rfl⟩ | split | (extract_lets; split)

@[simp] theorem execLinkTrainingTimeout_concludes (l : Nat) (s : State) : Concludes (execLinkTrainingTimeout l s) := by
  unfold execLinkTrainingTimeout
  repeat' first | exact ⟨_, rfl⟩ | split | (extract_lets; split)

@[simp] theorem execLinkKeyed_concludes (l : Nat) (ok : Bool) (s : State) : Concludes (execLinkKeyed l ok s) := by
  unfold execLinkKeyed
  repeat' first | exact ⟨_, rfl⟩ | split | (extract_lets; split)

@[simp] theorem execLaneLost_concludes (l : Nat) (s : State) : Concludes (execLaneLost l s) := by
  unfold execLaneLost
  repeat' first | exact ⟨_, rfl⟩ | split | (extract_lets; split)

@[simp] theorem execCrcErrorThreshold_concludes (l : Nat) (s : State) : Concludes (execCrcErrorThreshold l s) := by
  unfold execCrcErrorThreshold
  repeat' first | exact ⟨_, rfl⟩ | split | (extract_lets; split)

@[simp] theorem execLinkRetrain_concludes (l : Nat) (s : State) : Concludes (execLinkRetrain l s) := by
  unfold execLinkRetrain
  repeat' first | exact ⟨_, rfl⟩ | split | (extract_lets; split)

@[simp] theorem execRetrainingDone_concludes (l lanes : Nat) (s : State) : Concludes (execRetrainingDone l lanes s) := by
  unfold execRetrainingDone
  repeat' first | exact ⟨_, rfl⟩ | split | (extract_lets; split)

@[simp] theorem execLinkRepair_concludes (l : Nat) (s : State) : Concludes (execLinkRepair l s) := by
  unfold execLinkRepair
  repeat' first | exact ⟨_, rfl⟩ | split | (extract_lets; split)

@[simp] theorem execRekey_concludes (l : Nat) (s : State) : Concludes (execRekey l s) := by
  unfold execRekey
  repeat' first | exact ⟨_, rfl⟩ | split | (extract_lets; split)

@[simp] theorem execNoProgressTimer_concludes (l vc : Nat) (moving : Bool) (s : State) : Concludes (execNoProgressTimer l vc moving s) := by
  unfold execNoProgressTimer
  repeat' first | exact ⟨_, rfl⟩ | split | (extract_lets; split)

@[simp] theorem execFlitReceive_concludes (l : Nat) (item : LinkItem) (s : State) : Concludes (execFlitReceive l item s) := by
  unfold execFlitReceive
  repeat' first | exact ⟨_, rfl⟩ | split | (extract_lets; split)

@[simp] theorem execRemap_concludes (plane : Nat) (failed : BitVec 8) (s : State) : Concludes (execRemap plane failed s) := by
  unfold execRemap
  repeat' first | exact ⟨_, rfl⟩ | split | (extract_lets; split)

@[simp] theorem execRoutingBankUpdate_concludes (plane : Nat) (rings : Nat × Nat × Nat) (places : List (Nat × Nat)) (s : State) : Concludes (execRoutingBankUpdate plane rings places s) := by
  unfold execRoutingBankUpdate
  repeat' first | exact ⟨_, rfl⟩ | split | (extract_lets; split)

@[simp] theorem execBankRetire_concludes (plane : Nat) (s : State) : Concludes (execBankRetire plane s) := by
  unfold execBankRetire
  repeat' first | exact ⟨_, rfl⟩ | split | (extract_lets; split)

@[simp] theorem execDeviceFailureDetected_concludes (dev : Nat) (s : State) : Concludes (execDeviceFailureDetected dev s) := by
  unfold execDeviceFailureDetected
  repeat' first | exact ⟨_, rfl⟩ | split | (extract_lets; split)

@[simp] theorem execDbghold_concludes (src : Nat) (s : State) : Concludes (execDbghold src s) := by
  unfold execDbghold
  repeat' first | exact ⟨_, rfl⟩ | split | (extract_lets; split)

@[simp] theorem execDbgresume_concludes (src : Nat) (s : State) : Concludes (execDbgresume src s) := by
  unfold execDbgresume
  repeat' first | exact ⟨_, rfl⟩ | split | (extract_lets; split)

@[simp] theorem execSampleRecord_concludes (core : Nat) (t : Tid) (stages : List (BitVec 16)) (obj off : Nat) (s : State) : Concludes (execSampleRecord core t stages obj off s) := by
  unfold execSampleRecord
  repeat' first | exact ⟨_, rfl⟩ | split | (extract_lets; split)

@[simp] theorem execRegisterWrite_concludes (reg : DeviceReg) (value : Word) (s : State) : Concludes (execRegisterWrite reg value s) := by
  unfold execRegisterWrite
  repeat' first | exact ⟨_, rfl⟩ | split | (extract_lets; split)

@[simp] theorem execHostAccess_concludes (ctx obj off : Nat) (write : Option (List Byte)) (size : Nat) (s : State) : Concludes (execHostAccess ctx obj off write size s) := by
  unfold execHostAccess
  repeat' first | exact ⟨_, rfl⟩ | split | (extract_lets; split)

@[simp] theorem execPstateReached_concludes (s : State) : Concludes (execPstateReached s) := by
  unfold execPstateReached
  repeat' first | exact ⟨_, rfl⟩ | split | (extract_lets; split)

@[simp] theorem execPowerLoss_concludes (s : State) : Concludes (execPowerLoss s) := by
  unfold execPowerLoss
  repeat' first | exact ⟨_, rfl⟩ | split | (extract_lets; split)

@[simp] theorem execTdsetDone_concludes (b : BlockKey) (g tile : Nat) (s : State) : Concludes (execTdsetDone b g tile s) := by
  unfold execTdsetDone
  repeat' first | exact ⟨_, rfl⟩ | split | (extract_lets; split)

/-! ### Every instruction and every step -/

/-- An instruction of the word issues, and whatever it does, issuing concludes. -/
theorem exec_word_concludes {i : Instr} {p : Nat × Insn} (s : State) (h : i.word? = some p) : Concludes (exec i s) := by
  cases i
  case nop | mov | movl | sel | iadd | isub | imul | imulh | imad | imin | imax | iabs | ineg | isad | and | or | xor | andn | not | shl | shr |
      sar | rotl | bfx | bfi | popc | clz | brev | icmp | lea | bpick | bmix | idot4 | par | fadd | fsub | fmul | ffma | fmin | fmax | fcmp | frcp |
      frsq | fsqrt | fexp2 | flog2 | ftanh | fclass | fscalb | cvt | bfma2 | badd2 | bmul2 | frnd | plop | poll | lxch | lshf | lbcast | lred |
      rdlane | xset | xget | xadv | bra | brx | call | ret | exit | yield | spawn | trap | tret | barinit | bararr | barwait | bartest | gsync |
      mbxputRsv | mbxputPub | mbxgetTake | mbxgetRel | quota | rdsys | wrsys | clock | waitf | cancel | enq | bkpt | replay | ld | st | ldl | stl |
      ldgl | atom | atoml | red | mcst | redst | pref | fence | fencex | oprdy | vdup | vnarrow | vdrop | vqry | wload | mma | accz | accrd |
      accwr | accdr | accld | rowmax | rowexp | rowsc | place | tld | tst | tdset | tdget | locof | optaw | statst | statld | lscale | cpkick |
      chainBind | chainUnbind =>
    simp only [exec, execNop, execMov, execMovl, execSel, execIadd, execIsub, execImul, execImulh, execImad, execImin, execImax, execIabs, execIneg,
      execIsad, execAnd, execOr, execXor, execAndn, execNot, execShl, execShr, execSar, execRotl, execBfx, execBfi, execPopc, execClz, execBrev,
      execIcmp, execLea, execBpick, execBmix, execIdot4, execPar, execFadd, execFsub, execFmul, execFfma, execFmin, execFmax, execFcmp, execFrcp,
      execFrsq, execFsqrt, execFexp2, execFlog2, execFtanh, execFclass, execFscalb, execCvt, execBfma2, execBadd2, execBmul2, execFrnd, execPlop,
      execPoll, execLxch, execLshf, execLbcast, execLred, execRdlane, execXset, execXget, execXadv, execBra, execBrx, execCall, execRet, execExit,
      execYield, execSpawn, execTrap, execTret, execBarinit, execBararr, execBarwait, execBartest, execGsync, execMbxputRsv, execMbxputPub,
      execMbxgetTake, execMbxgetRel, execQuota, execRdsys, execWrsys, execClock, execWaitf, execCancel, execEnq, execBkpt, execReplay, execLd,
      execSt, execLdl, execStl, execLdgl, execAtom, execAtoml, execRed, execMcst, execRedst, execPref, execFence, execFencex, execOprdy, execVdup,
      execVnarrow, execVdrop, execVqry, execWload, execMma, execAccz, execAccrd, execAccwr, execAccdr, execAccld, execRowmax, execRowexp, execRowsc,
      execPlace, execTld, execTst, execTdset, execTdget, execLocof, execOptaw, execStatst, execStatld, execLscale, execCpkick, execChainBind,
      execChainUnbind]
    exact issueWith_cases _ _ _ _
  all_goals cases h

/-- Each step of a unit concludes: a record is taken, a packet is taken where it arrives, and the others by their own meaning. -/
theorem exec_concludes (i : Instr) (s : State) : Concludes (exec i s) := by
  cases hw : i.word? with
  | some p => exact exec_word_concludes s hw
  | none =>
    cases i
    case launch | wait | signal | prefetch | graph =>
      simp only [exec, execLaunch, execWait, execSignal, execPrefetch, execGraph, takeRecord_concludes]
    case read | write | atomic | redPacket | data | ack | linknack | retriedRequest | refused | mack | mgt =>
      simp only [exec, execRead, execWrite, execAtomic, execRedPacket, execData, execAck, execLinknack, execRetriedRequest, execRefused, execMack,
        execMgt, State.arrive_concludes]
    all_goals first | (simp only [Instr.word?, reduceCtorEq] at hw; done) | simp [exec]

theorem step_concludes (s : State) : Concludes (step s) := by
  unfold step
  extract_lets s
  split
  · next ig _ =>
    unfold issueStep
    repeat' split
    all_goals first | exact conclude_concludes _ | exact exec_concludes _ _
  · split
    · exact exec_concludes _ _
    · exact conclude_concludes _

end Sys2Proof.Machine

namespace Sys2Proof.Proofs

open Machine

/-- Settles O8: a step answers a conclusion, and a conclusion goes on from a sound state alone. -/
theorem stepsStaySound : Obligations.StepsStaySound := by
  unfold Obligations.StepsStaySound
  exact fun s t _ h => (step_concludes s).sound h

end Sys2Proof.Proofs
end

section
/-! PROOFS. O2 to O4: the encoder and the decoder undo each other, and what R98 reserves is refused. -/

namespace Sys2Proof

/-! ### Bit fields as numbers -/

theorem toNat_append_mul {m n : Nat} (x : BitVec m) (y : BitVec n) : (x ++ y).toNat = x.toNat * 2 ^ n + y.toNat := by
  rw [BitVec.toNat_append, ← Nat.shiftLeft_add_eq_or_of_lt y.isLt, Nat.shiftLeft_eq]

theorem toNat_extract {n : Nat} (x : BitVec n) (i k : Nat) : (x.extractLsb' i k).toNat = x.toNat / 2 ^ i % 2 ^ k := by
  rw [BitVec.extractLsb'_toNat, Nat.shiftRight_eq_div_pow]

theorem toNat_getLsbD {n : Nat} (x : BitVec n) (i : Nat) : (x.getLsbD i).toNat = x.toNat / 2 ^ i % 2 := by
  rw [BitVec.getLsbD, Nat.toNat_testBit]

/-! ### Operands (R85, R86) -/

/-- The 18 bits of an operand as a number. -/
def Operand.code : Operand → Nat
  | .vec n e m => n.toNat * 2 ^ 7 + e.toNat * 2 ^ 2 + m.toNat
  | .idx off x inc e m => off.toNat * 2 ^ 7 + 2 ^ 6 + x.toNat * 2 ^ 4 + inc.toNat * 2 ^ 3 + e.toNat * 2 ^ 2 + m.toNat
  | .uni n m => 2 ^ 15 + n.toNat * 2 ^ 7 + m.toNat
  | .pred n neg => 2 * 2 ^ 15 + n.toNat * 2 ^ 7 + neg.toNat
  | .tile n => 3 * 2 ^ 15 + n.toNat * 2 ^ 7
  | .acc n => 4 * 2 ^ 15 + n.toNat * 2 ^ 7
  | .xreg j m => 5 * 2 ^ 15 + j.toNat * 2 ^ 7 + m.toNat
  | .lane m => 5 * 2 ^ 15 + 0x10 * 2 ^ 7 + m.toNat
  | .hgrp m => 5 * 2 ^ 15 + 0x11 * 2 ^ 7 + m.toNat
  | .flag f neg => 5 * 2 ^ 15 + 2 * 2 ^ 11 + f.toNat * 2 ^ 7 + neg.toNat
  | .imm v => 6 * 2 ^ 15 + v.toNat
  | .lit v => 7 * 2 ^ 15 + v.toNat / 2 ^ 17
  | .none => 0

theorem toNat_encodeOperand (o : Operand) : (encodeOperand o).toNat = o.code := by
  cases o <;> simp only [encodeOperand, Operand.code]
  case none => rfl
  case lit v =>
    rw [toNat_append_mul, toNat_extract]
    simp
    omega
  all_goals
    repeat rw [toNat_append_mul]
    simp [BitVec.toNat_ofBool]
    try omega

theorem getLsbD_eq_true_iff {n : Nat} (x : BitVec n) (i : Nat) : x.getLsbD i = true ↔ x.toNat / 2 ^ i % 2 = 1 := by
  rw [← toNat_getLsbD]; cases x.getLsbD i <;> simp

theorem getLsbD_eq_false_iff {n : Nat} (x : BitVec n) (i : Nat) : x.getLsbD i = false ↔ x.toNat / 2 ^ i % 2 = 0 := by
  rw [← toNat_getLsbD]; cases x.getLsbD i <;> simp

/-- The decoder reads every bit of the operand that it names. -/
theorem code_of_decodeOperand {b : BitVec 18} {o : Operand} (h : decodeOperand b = some o) : o.code = b.toNat := by
  have hb := b.isLt
  unfold decodeOperand at h
  simp only [← BitVec.toNat_inj, toNat_extract, getLsbD_eq_true_iff, getLsbD_eq_false_iff, BitVec.toNat_ofNat, BitVec.ofNat_eq_ofNat] at h
  (repeat' split at h) <;> simp only [Option.some.injEq, reduceCtorEq] at h
  all_goals
    subst h
    simp only [Operand.code, toNat_extract, toNat_getLsbD]
    omega

theorem extract_of_toNat {n k i : Nat} {x : BitVec n} {y : BitVec k} (h : x.toNat / 2 ^ i % 2 ^ k = y.toNat) : x.extractLsb' i k = y :=
  BitVec.eq_of_toNat_eq (by rw [toNat_extract, h])

theorem getLsbD_of_toNat {n i : Nat} {x : BitVec n} {e : Bool} (h : x.toNat / 2 ^ i % 2 = e.toNat) : x.getLsbD i = e :=
  by rw [← toNat_getLsbD] at h; cases hx : x.getLsbD i <;> cases e <;> simp [hx] at h ⊢

/-- An operand is read from its code: the class first, then the bits the class reserves. -/
theorem decodeOperand_of_code {o : Operand} {b : BitVec 18} (hn : o ≠ .none) (hl : ∀ v, o ≠ .lit v) (hb : b.toNat = o.code) :
    decodeOperand b = some o := by
  unfold decodeOperand
  simp only [← BitVec.toNat_inj, toNat_extract, getLsbD_eq_true_iff, getLsbD_eq_false_iff, BitVec.toNat_ofNat, BitVec.ofNat_eq_ofNat]
  cases o with
  | vec n e m =>
    have := Bool.toNat_lt e
    simp only [Operand.code] at hb
    simp only [show b.toNat / 2 ^ 15 % 2 ^ 3 = 0 by omega]
    rw [if_neg (by omega), if_pos (by omega), extract_of_toNat (y := n) (by omega), extract_of_toNat (y := m) (by omega), getLsbD_of_toNat (e := e) (by omega)]
  | idx off x inc e m =>
    have := Bool.toNat_lt e; have := Bool.toNat_lt inc
    simp only [Operand.code] at hb
    simp only [show b.toNat / 2 ^ 15 % 2 ^ 3 = 0 by omega]
    rw [if_pos (by omega), extract_of_toNat (y := off) (by omega), extract_of_toNat (y := x) (by omega), extract_of_toNat (y := m) (by omega), getLsbD_of_toNat (e := inc) (by omega), getLsbD_of_toNat (e := e) (by omega)]
  | uni n m =>
    simp only [Operand.code] at hb
    simp only [show b.toNat / 2 ^ 15 % 2 ^ 3 = 1 by omega]
    rw [if_pos (by omega), extract_of_toNat (y := n) (by omega), extract_of_toNat (y := m) (by omega)]
  | pred n neg =>
    have := Bool.toNat_lt neg
    simp only [Operand.code] at hb
    simp only [show b.toNat / 2 ^ 15 % 2 ^ 3 = 2 by omega]
    rw [if_pos (by omega), extract_of_toNat (y := n) (by omega), getLsbD_of_toNat (e := neg) (by omega)]
  | tile n =>
    simp only [Operand.code] at hb
    simp only [show b.toNat / 2 ^ 15 % 2 ^ 3 = 3 by omega]
    rw [if_pos (by omega), extract_of_toNat (y := n) (by omega)]
  | acc n =>
    simp only [Operand.code] at hb
    simp only [show b.toNat / 2 ^ 15 % 2 ^ 3 = 4 by omega]
    rw [if_pos (by omega), extract_of_toNat (y := n) (by omega)]
  | xreg j m =>
    simp only [Operand.code] at hb
    simp only [show b.toNat / 2 ^ 15 % 2 ^ 3 = 5 by omega]
    rw [if_pos (by omega), if_pos (by omega), extract_of_toNat (y := j) (by omega), extract_of_toNat (y := m) (by omega)]
  | lane m =>
    simp only [Operand.code] at hb
    simp only [show b.toNat / 2 ^ 15 % 2 ^ 3 = 5 by omega]
    rw [if_pos (by omega), if_neg (by omega), if_pos (by omega), extract_of_toNat (y := m) (by omega)]
  | hgrp m =>
    simp only [Operand.code] at hb
    simp only [show b.toNat / 2 ^ 15 % 2 ^ 3 = 5 by omega]
    rw [if_pos (by omega), if_neg (by omega), if_neg (by omega), if_pos (by omega), extract_of_toNat (y := m) (by omega)]
  | flag f neg =>
    have := Bool.toNat_lt neg
    simp only [Operand.code] at hb
    simp only [show b.toNat / 2 ^ 15 % 2 ^ 3 = 5 by omega]
    rw [if_pos (by omega), if_neg (by omega), if_neg (by omega), if_neg (by omega), if_pos (by omega), extract_of_toNat (y := f) (by omega), getLsbD_of_toNat (e := neg) (by omega)]
  | imm v =>
    simp only [Operand.code] at hb
    simp only [show b.toNat / 2 ^ 15 % 2 ^ 3 = 6 by omega]
    rw [extract_of_toNat (y := v) (by omega)]
  | lit v => exact absurd rfl (hl v)
  | none => exact absurd rfl hn

open Forms

/-! ### Operands in their positions (R87, R89) -/

/-- No operand but a literal has the class 7 (R85). -/
theorem Operand.code_lt_of_not_lit {o : Operand} (hl : ∀ v, o ≠ .lit v) : o.code < 7 * 2 ^ 15 := by
  cases o with
  | idx n x i e m =>
    have := Bool.toNat_lt i
    have := Bool.toNat_lt e
    simp only [code]
    omega
  | vec n e m | pred n e | flag n e =>
    have := Bool.toNat_lt e
    simp only [code]
    omega
  | lit v => exact absurd rfl (hl v)
  | uni | tile | acc | xreg | lane | hgrp | imm | none =>
    simp only [code]
    omega

theorem Operand.code_lt (o : Operand) : o.code < 2 ^ 18 := toNat_encodeOperand o ▸ (encodeOperand o).isLt

/-- Only a direct vector register has the bits of the absent operand (R87). -/
theorem Operand.vec_of_code_eq_zero {o : Operand} (hn : o ≠ .none) (h : o.code = 0) : ∃ n e m, o = .vec n e m := by
  cases o with
  | vec n e m => exact ⟨n, e, m, rfl⟩
  | none => exact absurd rfl hn
  | idx | uni | pred | tile | acc | xreg | lane | hgrp | flag | imm | lit => 
    simp only [code] at h
    omega

theorem not_accepts_none_of_accepts_vec {p : Pos} {n : BitVec 8} {e : Bool} {m : BitVec 2} (h : accepts p (.vec n e m) = true) :
    accepts p .none = false := by
  simp only [accepts, Bool.and_eq_true, Bool.or_eq_true] at h
  obtain ⟨⟨hv | hv, -⟩, -⟩ := h <;> simp [accepts, -List.contains_eq_mem, hv]

theorem fitOperand_of_accepts {p : Pos} {o : Operand} {b : BitVec 18} (h : accepts p o = true) (hl : ∀ v, o ≠ .lit v) (hb : b.toNat = o.code) :
    fitOperand p b = some o := by
  unfold fitOperand
  by_cases hn : o = .none
  · subst hn
    rw [if_pos ⟨BitVec.eq_of_toNat_eq hb, h⟩]
  · rw [if_neg, decodeOperand_of_code hn hl hb]
    · simp [h]
    · rintro ⟨rfl, hp⟩
      obtain ⟨n, e, m, rfl⟩ := o.vec_of_code_eq_zero hn hb.symm
      simp [not_accepts_none_of_accepts_vec h] at hp

theorem accepts_and_code_of_fitOperand {p : Pos} {b : BitVec 18} {o : Operand} (h : fitOperand p b = some o) :
    accepts p o = true ∧ o.code = b.toNat := by
  unfold fitOperand at h
  split at h
  · next hz =>
    cases h
    exact ⟨hz.2, by simp [Operand.code, hz.1]⟩
  · split at h
    · next o' hd =>
      split at h
      · next ha =>
        cases h
        exact ⟨ha, code_of_decodeOperand hd⟩
      · cases h
    · cases h

theorem not_lit_of_fitOperand {p : Pos} {b : BitVec 18} {o : Operand} (h : fitOperand p b = some o) (hc : b.extractLsb' 15 3 ≠ 7) (v : BitVec 32) : o ≠ .lit v := by
  rintro rfl
  have := (accepts_and_code_of_fitOperand h).2
  refine hc (extract_of_toNat ?_)
  simp only [Operand.code] at this
  
  simp
  omega

/-- The bits of OPB: its operand's, or the low 17 bits of a literal in OPA (R89). -/
def codeB (a b : Operand) : Nat :=
  match a with
  | .lit v => v.toNat % 2 ^ 17
  | _ => b.code

theorem codeB_lt (a b : Operand) : codeB a b < 2 ^ 18 := by
  cases a with
  | lit v => exact (Nat.mod_lt _ (by decide)).trans (by decide)
  | _ => exact b.code_lt

theorem decodeSources_of_accepts {F : Form} {m : BitVec 8} {d a b : Operand} {x y : BitVec 18} (ha : accepts (F.opa m) a = true)
    (hb : accepts (F.opb m d) b = true) (hbl : ∀ v, b ≠ .lit v) (hlone : ∀ v, a = .lit v → b = .none)
    (hx : x.toNat = a.code) (hy : y.toNat = codeB a b) :
    decodeSources F m d x y = .ok (a, b) := by
  unfold decodeSources
  by_cases hl : ∃ v, a = .lit v
  · obtain ⟨v, rfl⟩ := hl
    cases hlone v rfl
    have hv := v.isLt
    simp only [Operand.code] at hx
    simp only [codeB] at hy
    rw [if_pos (extract_of_toNat (by simp; omega)), if_pos ⟨ha, hb, getLsbD_of_toNat (by simp; omega)⟩]
    congr 3
    apply BitVec.eq_of_toNat_eq
    rw [toNat_append_mul, toNat_extract, toNat_extract]
    omega
  · rw [not_exists] at hl
    have hc : x.extractLsb' 15 3 ≠ 7 := by
      intro h
      have hx7 := congrArg BitVec.toNat h
      have hlt := Operand.code_lt_of_not_lit hl
      rw [toNat_extract, hx] at hx7
      simp at hx7
      omega
    rw [if_neg hc, fitOperand_of_accepts ha hl hx]
    simp only []
    rw [fitOperand_of_accepts hb hbl (hy.trans (by cases a <;> first | rfl | exact absurd rfl (hl _)))]

theorem decodeSources_code {F : Form} {m : BitVec 8} {d a b : Operand} {x y : BitVec 18} (h : decodeSources F m d x y = .ok (a, b)) :
    a.code = x.toNat ∧ codeB a b = y.toNat := by
  unfold decodeSources at h
  split at h
  · next h7 =>
    split at h
    · next hl =>
      obtain ⟨-, -, h17⟩ := hl
      cases h
      have hc := congrArg BitVec.toNat h7
      rw [toNat_extract] at hc
      rw [getLsbD_eq_false_iff] at h17
      simp only [Operand.code, codeB, toNat_append_mul, toNat_extract]
      simp at hc
      omega
    · cases h
  · next hc =>
    split at h
    · cases h
    · next oa hoa =>
      split at h
      · cases h
      · next ob hob =>
        cases h
        refine ⟨(accepts_and_code_of_fitOperand hoa).2, Eq.trans ?_ (accepts_and_code_of_fitOperand hob).2⟩
        cases a with
        | lit v => exact absurd rfl (not_lit_of_fitOperand hoa hc v)
        | _ => rfl

/-! ### Fields of the word (R79) -/

/-- The word of an opcode and fields as a number. -/
theorem toNat_encodeFields (opc : BitVec 8) (f : Insn) : (encodeFields opc f).toNat =
    opc.toNat * 2 ^ 88 + f.mod.toNat * 2 ^ 80 + f.guard.toNat * 2 ^ 76 + f.opd.code * 2 ^ 58 + f.opa.code * 2 ^ 40 + codeB f.opa f.opb * 2 ^ 22 +
      f.dist.toNat * 2 ^ 18 + f.wait.toNat * 2 ^ 6 + f.setf.toNat * 2 ^ 2 + f.yld.toNat * 2 := by
  have hb : (match f.opa with
      | .lit v => (0#1 : BitVec 1) ++ v.extractLsb' 0 17
      | _ => encodeOperand f.opb : BitVec 18).toNat = codeB f.opa f.opb := by
    cases f.opa with
    | lit v =>
      simp only [codeB]
      rw [toNat_append_mul, toNat_extract]
      simp
    | _ => exact toNat_encodeOperand _
  unfold encodeFields
  extract_lets b
  repeat rw [toNat_append_mul]
  rw [toNat_encodeOperand, toNat_encodeOperand, show b.toNat = _ from hb]
  simp
  omega

/-- The fields of a word around its operands. -/
def fieldsOf (w : IWord) (d a b : Operand) : Insn :=
  ⟨w.extractLsb' 80 8, w.extractLsb' 76 4, d, a, b, w.extractLsb' 18 4, w.extractLsb' 6 12, w.extractLsb' 2 4, w.getLsbD 1⟩

theorem decode_eq_ok_iff (w : IWord) (i : Instr) : decode w = .ok i ↔ ∃ F d a b, formOf (w.extractLsb' 88 8).toNat = some F ∧ w.getLsbD 0 = false ∧
    fitOperand (F.opd (w.extractLsb' 80 8)) (w.extractLsb' 58 18) = some d ∧
    decodeSources F (w.extractLsb' 80 8) d (w.extractLsb' 40 18) (w.extractLsb' 22 18) = .ok (a, b) ∧
    encodable (w.extractLsb' 88 8).toNat (fieldsOf w d a b) = true ∧ build (w.extractLsb' 88 8).toNat (fieldsOf w d a b) = some i := by
  unfold decode
  constructor
  · intro h
    dsimp only at h
    split at h
    · cases h
    · next F hF =>
      split at h
      · cases h
      · next h0 =>
        split at h
        · cases h
        · next d hd =>
          split at h
          · cases h
          · next a b hs =>
            split at h
            · next he =>
              split at h
              · next hi =>
                cases h
                exact ⟨F, d, a, b, hF, by simpa using h0, hd, hs, he, hi⟩
              · cases h
            · cases h
  · rintro ⟨F, d, a, b, hF, h0, hd, hs, he, hi⟩
    simp only [fieldsOf] at he hi
    simp only [hF, h0, hd, hs, he, hi, Bool.false_eq_true, if_false, if_true]

/-! ### The opcode table (R98) -/

/-- The opcode table read forwards: the instruction of an opcode and its fields (R98). -/
theorem build_of_word {i : Instr} {opc : Nat} {f : Insn} (h : i.word? = some (opc, f)) (hs : i.sub f.mod = true) :
    opc < 256 ∧ build opc f = some i := by
  cases i <;> simp only [Instr.word?, Option.some.injEq, Prod.mk.injEq, reduceCtorEq] at h
  all_goals
    obtain ⟨rfl, rfl⟩ := h
    refine ⟨by decide, ?_⟩
  case mbxputRsv | mbxputPub | mbxgetTake | mbxgetRel | chainBind | chainUnbind => simpa [build, Instr.sub] using hs
  all_goals rfl

/-- The opcode table read backwards. -/
theorem word_of_build {i : Instr} {opc : Nat} {f : Insn} (h : build opc f = some i) : i.word? = some (opc, f) ∧ i.sub f.mod = true := by
  unfold build at h
  (repeat' split at h) <;> cases h
  all_goals exact ⟨rfl, by simp_all [Instr.sub]⟩

theorem encodable_cases {opc : Nat} {f : Insn} (h : encodable opc f = true) : ∃ F, formOf opc = some F ∧ accepts (F.opd f.mod) f.opd = true ∧
    accepts (F.opa f.mod) f.opa = true ∧ accepts (F.opb f.mod f.opd) f.opb = true ∧ ∀ v, f.opa = .lit v → f.opb = .none := by
  unfold encodable at h
  split at h
  · cases h
  · next F hF =>
    simp only [Bool.and_eq_true] at h
    obtain ⟨⟨⟨⟨⟨⟨⟨-, hd⟩, ha⟩, hb⟩, hl⟩, -⟩, -⟩, -⟩ := h
    refine ⟨F, hF, hd, ha, hb, fun v hv => ?_⟩
    cases hob : f.opb with
    | none => rfl
    | _ => simp [litAlone, hv, hob] at hl

/-- No form takes a literal in OPD or OPB (R89). -/
theorem not_accepts_lit {opc : Nat} {F : Form} (hF : formOf opc = some F) (m : BitVec 8) (d : Operand) (v : BitVec 32) :
    accepts (F.opd m) (.lit v) = false ∧ accepts (F.opb m d) (.lit v) = false := by
  unfold formOf intForm floatForm laneForm ctlForm memForm tensorForm at hF
  (repeat' split at hF) <;> cases hF
  all_goals
    dsimp only [form1, form2, loadDst, storeData]
    refine ⟨?_, ?_⟩ <;> repeat' split
  all_goals rfl

/-! ### Decoding what was encoded -/

/-- The word of a well-formed instruction decodes to it: each field stands where the decoder reads it. -/
theorem decode_encodeFields {i : Instr} {opc : Nat} {f : Insn} (hw : i.word? = some (opc, f)) (h : i.wf = true) :
    decode (encodeFields (BitVec.ofNat 8 opc) f) = .ok i := by
  simp only [Instr.wf, hw, Bool.and_eq_true] at h
  obtain ⟨he, hsub⟩ := h
  obtain ⟨hopc, hbuild⟩ := build_of_word hw hsub
  obtain ⟨F, hF, hd, ha, hb, hlone⟩ := encodable_cases he
  have hlit := not_accepts_lit hF f.mod f.opd
  have hdl : ∀ v, f.opd ≠ .lit v := fun v hv => by simp [hv, hlit] at hd
  have hbl : ∀ v, f.opb ≠ .lit v := fun v hv => by rw [hv, (hlit v).2] at hb; cases hb
  have hn := toNat_encodeFields (BitVec.ofNat 8 opc) f
  rw [BitVec.toNat_ofNat, Nat.mod_eq_of_lt (by simpa using hopc)] at hn
  generalize encodeFields (BitVec.ofNat 8 opc) f = w at hn ⊢
  have hdc := f.opd.code_lt
  have hac := f.opa.code_lt
  have hbc := codeB_lt f.opa f.opb
  have hyld := Bool.toNat_lt f.yld
  have hopc' : (w.extractLsb' 88 8).toNat = opc := by rw [toNat_extract]; omega
  have hmod : w.extractLsb' 80 8 = f.mod := extract_of_toNat (by omega)
  have hfields : fieldsOf w f.opd f.opa f.opb = f := by
    unfold fieldsOf
    rw [hmod, extract_of_toNat (y := f.guard) (by omega), extract_of_toNat (y := f.dist) (by omega), extract_of_toNat (y := f.wait) (by omega),
      extract_of_toNat (y := f.setf) (by omega), getLsbD_of_toNat (e := f.yld) (by omega)]
  rw [decode_eq_ok_iff]
  refine ⟨F, f.opd, f.opa, f.opb, by rw [hopc', hF], ?_, ?_, ?_, by rw [hopc', hfields, he], by rw [hopc', hfields, hbuild]⟩
  · exact getLsbD_of_toNat (by simp; omega)
  · exact fitOperand_of_accepts (hmod ▸ hd) hdl (by rw [toNat_extract]; omega)
  · rw [hmod]
    exact decodeSources_of_accepts ha hb hbl hlone (by rw [toNat_extract]; omega) (by rw [toNat_extract]; omega)

/-- A decoded word is that of its opcode and the fields read from it. -/
theorem encodeFields_fieldsOf {w : IWord} {F : Form} {m : BitVec 8} {p : Pos} {d a b : Operand} (h0 : w.getLsbD 0 = false)
    (hd : fitOperand p (w.extractLsb' 58 18) = some d) (hs : decodeSources F m d (w.extractLsb' 40 18) (w.extractLsb' 22 18) = .ok (a, b)) :
    encodeFields (BitVec.ofNat 8 (w.extractLsb' 88 8).toNat) (fieldsOf w d a b) = w := by
  obtain ⟨-, hdc⟩ := accepts_and_code_of_fitOperand hd
  obtain ⟨hac, hbc⟩ := decodeSources_code hs
  rw [getLsbD_eq_false_iff] at h0
  rw [BitVec.ofNat_toNat, BitVec.setWidth_eq]
  refine BitVec.eq_of_toNat_eq ?_
  rw [toNat_encodeFields]
  simp only [fieldsOf, toNat_extract, toNat_getLsbD] at hdc hac hbc ⊢
  omega

/-! ### Reserved opcodes (R98) -/

/-- The opcodes without a form are those of the gaps of the map. -/
theorem formOf_eq_none_iff {opc : Nat} (h : opc < 256) : formOf opc = none ↔ Rule.reserved opc := by
  have htable : ∀ n : Fin 256, (formOf n).isNone = true ↔ ((0x22 ≤ n.val ∧ n.val ≤ 0x3F) ∨ (0x54 ≤ n.val ∧ n.val ≤ 0x6F) ∨
      (0x7A ≤ n.val ∧ n.val ≤ 0x7F) ∨ (0x99 ≤ n.val ∧ n.val ≤ 0x9F) ∨ (0xB2 ≤ n.val ∧ n.val ≤ 0xCF) ∨ (0xE6 ≤ n.val ∧ n.val ≤ 0xFF)) := by decide +kernel
  rw [← Option.isNone_iff_eq_none]
  exact htable ⟨opc, h⟩

theorem build_ne_none {opc : Nat} {F : Form} (hF : formOf opc = some F) (f : Insn) : build opc f ≠ none := by
  unfold formOf intForm floatForm laneForm ctlForm memForm tensorForm at hF
  (repeat' split at hF) <;> cases hF
  all_goals
    first
    | exact Option.some_ne_none _
    | show (if _ then some _ else some _) ≠ none; split <;> exact Option.some_ne_none _

theorem decodeSources_ne_reservedOpcode {F : Form} {m : BitVec 8} {d : Operand} {x y : BitVec 18} :
    decodeSources F m d x y ≠ .error .reservedOpcode := by
  unfold decodeSources
  repeat' split
  all_goals simp

/-- A word is refused for its opcode where the opcode has no form, and nowhere else. -/
theorem decode_eq_reservedOpcode_iff (w : IWord) : decode w = .error .reservedOpcode ↔ formOf (w.extractLsb' 88 8).toNat = none := by
  constructor
  · intro h
    by_contra hF
    obtain ⟨F, hF⟩ := Option.ne_none_iff_exists'.1 hF
    unfold decode at h
    dsimp only at h
    rw [hF] at h
    split at h
    · next hn => cases hn
    · split at h
      · cases h
      · split at h
        · cases h
        · split at h
          · next hs =>
            cases h
            exact decodeSources_ne_reservedOpcode hs
          · split at h
            · split at h
              · cases h
              · next hb => exact build_ne_none hF _ hb
            · cases h
  · intro hF
    unfold decode
    dsimp only
    rw [hF]

theorem decode_of_bitZero {w : IWord} {F : Form} (hF : formOf (w.extractLsb' 88 8).toNat = some F) (h0 : w.getLsbD 0 = true) :
    decode w = .error .bitZero := by
  unfold decode
  dsimp only
  rw [hF]
  exact if_pos h0

end Sys2Proof

namespace Sys2Proof.Proofs

/-- Settles O2: each field of the word stands where the decoder reads it, and the opcode table is read backwards. -/
theorem decodeAfterEncode : Obligations.DecodeAfterEncode := by
  unfold Obligations.DecodeAfterEncode
  intro i w hwf h
  unfold encode at h
  split at h
  · next opc f hw =>
    cases h
    exact decode_encodeFields hw hwf
  · cases h

/-- Settles O3: the fields that the decoder has read, with the bits it has found 0, are all of the word. -/
theorem encodeAfterDecode : Obligations.EncodeAfterDecode := by
  unfold Obligations.EncodeAfterDecode
  intro w i h
  obtain ⟨F, d, a, b, -, h0, hd, hs, he, hi⟩ := (decode_eq_ok_iff w i).1 h
  obtain ⟨hw, hsub⟩ := word_of_build hi
  refine ⟨by simp only [Instr.wf, hw, he, hsub, Bool.and_self], ?_⟩
  simp only [encode, hw]
  exact congrArg some (encodeFields_fieldsOf h0 hd hs)

/-- Settles O4: the opcodes without a form are those of R98's gaps, and past the opcode the first check is that of bit 0. -/
theorem reservedWordsRefused : Obligations.ReservedWordsRefused := by
  unfold Obligations.ReservedWordsRefused
  intro w
  rw [← formOf_eq_none_iff (w.extractLsb' 88 8).isLt, ← decode_eq_reservedOpcode_iff]
  refine ⟨id, fun h => ⟨h, ?_⟩⟩
  rw [decode_eq_reservedOpcode_iff] at h
  obtain ⟨F, hF⟩ := Option.ne_none_iff_exists'.1 h
  exact decode_of_bitZero hF

end Sys2Proof.Proofs
end

section
/-! PROOFS. O1, O5 to O7, O9 and O10: listings, one step, the fetch, bytes of memory and the state at reset. -/

namespace Sys2Proof.Machine

/-! ### Bytes of memory (R10) -/

theorem PAddr.shift_key (p : PAddr) (i : Nat) : (p.shift i).key = p.key + i := by
  cases p <;> simp [PAddr.shift, PAddr.key, Nat.add_assoc]

theorem PAddr.same_shift (p : PAddr) (i : Nat) : p.same (p.shift i) = true := by cases p <;> rfl

theorem State.write_vault_absent {q a : Nat} {bs : List Byte} (s : State) (h : (PAddr.vault q a).exists_ bs.length = false) :
    s.write (.vault q a) bs = s.break (.vaultRange q a) := by
  simp [State.write, h]

theorem State.touch_vault_absent {q a n : Nat} (s : State) (h : (PAddr.vault q a).exists_ n = false) :
    s.touch (.vault q a) n = s.break (.vaultRange q a) := by
  simp [State.touch, h]

theorem conclude_break {s : State} (h : s.broken = none) (f : Fault) : conclude (s.break f) = .fault f := by
  simp [conclude, State.break, h]

/-! ### Selectors of planes (R355) -/

theorem selector_lt (off : Nat) : selector off < 8 := by
  have h : ∀ hi lo, hi = lo + 2 → bits off hi lo < 2 ^ 3 := fun hi lo h => by
    subst h
    exact (Nat.mod_lt _ (by positivity)).trans_eq (by rw [show lo + 2 + 1 - lo = 3 by omega])
  exact Nat.xor_lt_two_pow (n := 3) (h _ _ rfl) (h _ _ rfl)

theorem State.reset_planeOf (off : Nat) : State.reset.planeOf off = selector off := by
  have h : ∀ k : Fin 8, (State.reset.planemap.toNat >>> (3 * k.val)) % 8 = k.val := by decide
  exact h ⟨selector off, selector_lt off⟩

end Sys2Proof.Machine

namespace Sys2Proof.Proofs

open Machine

/-- Settles O1, by running decoder and encoder on the five words. -/
theorem listingsDecode : Obligations.ListingsDecode := by
  unfold Obligations.ListingsDecode
  decide

/-- Settles O5: the step follows what the fetch gives and what the decoder makes of it. -/
theorem stepRunsDecoded : Obligations.StepRunsDecoded := by
  unfold Obligations.StepRunsDecoded
  intro s ig hs
  have hissue : s.elapse.issue = some ig := hs
  refine ⟨fun w i hw hi => ?_, fun w e hw he => ?_, fun c info hc => ?_⟩
  · simp only [step, hissue, issueStep, hw, hi]
  · simp only [step, hissue, issueStep, hw, he]
  · simp only [step, hissue, issueStep, hc]

/-- Settles O6: time passes, and then the agenda's first step runs. -/
theorem stepRunsAgenda : Obligations.StepRunsAgenda := by
  unfold Obligations.StepRunsAgenda
  intro s i rest hs ha
  have hissue : s.elapse.issue = none := hs
  have hagenda : s.elapse.agenda = i :: rest := ha
  simp only [step, hissue, State.nextEvent, hagenda]

/-- Settles O7: the checks of the fetch in their order, then the three words. -/
theorem fetchChecks : Obligations.FetchChecks := by
  unfold Obligations.FetchChecks
  intro s l pc hl
  refine ⟨fun ha => ?_, fun ha hsize => ?_, fun a b c ha hsize h0 h1 h2 => ?_⟩
  · simp only [State.fetch, hl, if_pos ha]
  · simp only [State.fetch, hl, if_neg (not_not.2 ha), if_pos hsize]
  · simp only [State.fetch, hl, if_neg (not_not.2 ha), if_neg (Nat.not_lt.2 hsize), h0, h1, h2, ofWords]

/-- Settles O9: a write puts its bytes into the store that the address names, and one of absent bytes breaks the step alone. -/
theorem memoryBytes : Obligations.MemoryBytes := by
  unfold Obligations.MemoryBytes Rule.WritesReadBack Rule.AbsentBytesStop
  refine ⟨fun s p bs h => ⟨fun i hi => ?_, fun q hq => ?_, fun hm => s.memoryWf_write hm p bs, s.write_broken p bs h⟩, fun s q a bs hb h => ?_⟩
  · exact s.write_byte_same p _ bs i h (p.same_shift i) (p.shift_key i) hi
  · exact s.write_byte_other p q bs hq
  · rw [State.write_vault_absent s h, State.touch_vault_absent s h]
    exact ⟨conclude_break hb _, conclude_break hb _, fun p => State.byte_congr (State.break_mem s _ p)⟩

/-- Settles O10: the fields of the reset state, and the selectors of PLANEMAP one by one. -/
theorem stateAtReset : Obligations.StateAtReset := by
  unfold Obligations.StateAtReset Rule.ResetValues Rule.ResetIsSound
  refine ⟨⟨rfl, rfl, rfl, rfl, rfl, rfl, rfl, rfl, rfl, ?_, State.reset_planeOf⟩, rfl, rfl⟩
  intro l hl
  rw [List.eq_of_mem_replicate (show l ∈ List.replicate 48 _ from hl)]

end Sys2Proof.Proofs
end

section
/-! PROOFS. O13 and O14: integer arithmetic, logic, shifts and bit fields. -/

namespace Sys2Proof.Machine

/-! ### Numbers of a type as bit vectors (R18, R23) -/

theorem sext_eq_toInt_ofNat (w v : Nat) : sext w v = (BitVec.ofNat w v).toInt := by
  rw [BitVec.toInt_eq_toNat_cond, BitVec.toNat_ofNat, sext]
  cases w with
  | zero => simp [Nat.mod_one]
  | succ w =>
    have h2 : 2 ^ (w + 1) = 2 * 2 ^ w := Nat.pow_succ'
    simp only [Nat.add_sub_cancel, h2, Nat.mul_lt_mul_left (by decide : 0 < 2), Nat.cast_mul, Nat.cast_pow, Nat.cast_ofNat, pow_succ']

theorem wrap_eq_toNat (w : Nat) (y : Int) : wrap w y = (BitVec.ofInt w y).toNat := by
  rw [BitVec.toNat_ofInt]; rfl

theorem wrap_toInt {n : Nat} (w : Nat) (x : BitVec n) : wrap w x.toInt = (x.signExtend w).toNat := by
  rw [wrap_eq_toNat, BitVec.signExtend]

theorem readInt_eq_int (t v : Nat) : readInt t v = Rule.int t v := by
  unfold readInt Rule.int
  split
  · exact sext_eq_toInt_ofNat _ _
  · rw [BitVec.toNat_ofNat]

theorem typeWidth_cases (t : Nat) : typeWidth t = 64 ∨ typeWidth t ≤ 32 := by
  unfold typeWidth
  repeat' split
  all_goals simp

theorem writeInt_eq_bits (t : Nat) (y : Int) : writeInt t y = Rule.bits t y := by
  unfold writeInt Rule.bits
  split
  · exact wrap_eq_toNat _ _
  · next h64 =>
    rw [readInt_eq_int, wrap_eq_toNat (typeWidth t), Rule.int, BitVec.ofNat_toNat, BitVec.setWidth_eq]
    split
    · exact wrap_toInt _ _
    · have hlt : (BitVec.ofInt (typeWidth t) y).toNat < 2 ^ 32 :=
        (BitVec.isLt _).trans_le (Nat.pow_le_pow_right (by decide) ((typeWidth_cases t).resolve_left h64))
      rw [wrap, ← Int.natCast_mod, Int.toNat_natCast, Nat.mod_eq_of_lt hlt]

theorem clampInt_eq_clamp (t : Nat) (y : Int) : clampInt t y = Rule.clamp t y := by
  have h1 : (1 : Int) ≤ 2 ^ (typeWidth t - 1) := by exact_mod_cast Nat.one_le_two_pow
  have h2 : (1 : Int) ≤ 2 ^ typeWidth t := by exact_mod_cast Nat.one_le_two_pow
  unfold clampInt Rule.clamp typeMin typeMax
  generalize (2 : Int) ^ (typeWidth t - 1) = p at *
  generalize (2 : Int) ^ typeWidth t = q at *
  split <;> simp only [max_def, min_def] <;> (repeat' split) <;> omega

/-! ### Integer arithmetic (R119, R120) -/

theorem late_six_eq_lat68 (f : Insn) : Rule.late f 6 = lat68 f := by
  by_cases h : Forms.ty f.mod = 2 ∨ Forms.ty f.mod = 3 <;> simp [Rule.late, wide_iff, lat68, modRegs, typeRegs, h]

/-- An instruction of the shape of R119. -/
theorem results_of_arith {i : Instr} {f : Insn} {lat : Nat} {g : Int → Int → Int → Int}
    (hx : ∀ s, exec i s = issueWith i f (arith f lat g) s) :
    Results i f (Rule.regs f) lat fun u _ th =>
      let t := Forms.ty f.mod
      let y := g (Rule.int t (u.srcTyped th f.opa t)) (Rule.int t (u.src th f.opb (Rule.regs f))) (Rule.int t (u.src th f.opd (Rule.regs f)))
      Rule.bits t (if Forms.sat f.mod then Rule.clamp t y else y) := by
  rw [regs_eq_modRegs]
  refine results_congr (results_of hx) fun u x th => ?_
  simp only [readInt_eq_int, writeInt_eq_bits, clampInt_eq_clamp]
  rfl

/-- The high half of a product, rounded down. -/
theorem fdiv_two_pow (w : Nat) : (fun a b _ => Int.fdiv (a * b) (2 ^ w) : Int → Int → Int → Int) = fun a b _ => a * b / ((2 ^ w : Nat) : Int) := by
  funext a b _
  rw [Int.fdiv_eq_ediv_of_nonneg _ (by positivity), Nat.cast_pow, Nat.cast_ofNat]

theorem dot4_eq_sum (signed : Bool) (a b : Nat) : dot4 signed a b =
    let e : Nat → Nat → Int := fun v i => if signed then (Rule.byte v i).toInt else (Rule.byte v i).toNat
    e a 0 * e b 0 + e a 1 * e b 1 + e a 2 * e b 2 + e a 3 * e b 3 := by
  have hbyte : ∀ v i : Nat, BitVec.ofNat 8 (v >>> (8 * i)) = Rule.byte v i := fun v i => by
    rw [Rule.byte, Nat.shiftRight_eq_div_pow, Nat.pow_mul]
  have hnat : ∀ v i : Nat, v >>> (8 * i) % 256 = (Rule.byte v i).toNat := fun v i => by rw [← hbyte, BitVec.toNat_ofNat]
  have hint : ∀ v i : Nat, sext 8 (v >>> (8 * i)) = (Rule.byte v i).toInt := fun v i => by rw [sext_eq_toInt_ofNat, hbyte]
  simp only [dot4, hint, hnat, List.map_cons, List.map_nil, List.foldl_cons, List.foldl_nil, zero_add]

theorem idot4_results (f : Insn) : Results (.idot4 f) f 1 6 fun u _ th =>
    let sg := Forms.ty f.mod == 6
    let t := if sg then 0 else 1
    let y := readInt t (u.src th f.opd 1) + dot4 sg (u.src th f.opa 1) (u.src th f.opb 1)
    writeInt t (if Forms.sat f.mod then clampInt t y else y) := results_of fun _ => rfl

/-! ### Logic, shifts and rotations (R122, R123) -/

theorem toNat_source (f : Insn) (u : State) (th : Thread) (o : Operand) : (Rule.source f u th o).toNat = u.srcLogic th o (Rule.regs f) := by
  unfold Rule.source State.srcLogic
  dsimp only
  split <;> simp [BitVec.toNat_not]

theorem toNat_not_source (f : Insn) (u : State) (th : Thread) (o : Operand) :
    (~~~Rule.source f u th o).toNat = notBits (Rule.regs f) (u.srcLogic th o (Rule.regs f)) := by
  rw [BitVec.toNat_not, ← toNat_source, notBits, Nat.mod_eq_of_lt (Rule.source f u th o).isLt]

theorem results_of_logic {i : Instr} {f : Insn} {g : Nat → Nat → Nat} {val : State → Exec → Thread → Nat}
    (hx : ∀ s, exec i s = issueWith i f (logic f g) s)
    (hv : ∀ u x th, g (u.srcLogic th f.opa (Rule.regs f)) (u.srcLogic th f.opb (Rule.regs f)) = val u x th) :
    Results i f (Rule.regs f) (Rule.late f 4) val := by
  refine results_congr ?_ hv
  rw [regs_eq_modRegs]
  exact results_of_lat46 hx

theorem results_of_shift {i : Instr} {f : Insn} {g : Nat → Nat → Nat → Nat} {h : (w : Nat) → BitVec w → Nat → BitVec w}
    (hx : ∀ s, exec i s = issueWith i f (shift f g) s) (hg : ∀ (w : Nat) (a : BitVec w) (n : Nat), g w a.toNat n = (h w a n).toNat) :
    Results i f (Rule.regs f) (Rule.late f 4) fun u _ th =>
      (h (32 * Rule.regs f) (BitVec.ofNat _ (u.src th f.opa (Rule.regs f))) (u.src th f.opb 1 % 256)).toNat := by
  simp only [← hg, BitVec.toNat_ofNat]
  rw [regs_eq_modRegs]
  exact results_of_lat46 hx

theorem wrap_sext_div (w : Nat) (a : BitVec w) (n : Nat) : wrap w (sext w a.toNat / ((2 ^ n : Nat) : Int)) = (a.sshiftRight n).toNat := by
  rw [sext_eq_toInt_ofNat, BitVec.ofNat_toNat, BitVec.setWidth_eq, wrap_eq_toNat, BitVec.sshiftRight, Int.shiftRight_eq_div_pow]

theorem toNat_rotateLeft_add (w : Nat) (a : BitVec w) (n : Nat) :
    (a.toNat * 2 ^ (n % w)) % 2 ^ w + a.toNat / 2 ^ (w - n % w) = (a.rotateLeft n).toNat := by
  rcases Nat.eq_zero_or_pos w with rfl | hw
  · simp [Nat.mod_one, BitVec.of_length_zero]
  have hk := Nat.mod_lt n hw
  have hsplit : 2 ^ w = 2 ^ (n % w) * 2 ^ (w - n % w) := by rw [← pow_add, Nat.add_sub_cancel' hk.le]
  have hlow : a.toNat / 2 ^ (w - n % w) < 2 ^ (n % w) := Nat.div_lt_of_lt_mul (by rw [mul_comm, ← hsplit]; exact a.isLt)
  rw [BitVec.toNat_rotateLeft, Nat.shiftLeft_eq, Nat.shiftRight_eq_div_pow, hsplit, mul_comm a.toNat, Nat.mul_mod_mul_left, mul_comm (2 ^ (n % w)),
    ← Nat.shiftLeft_eq, Nat.shiftLeft_add_eq_or_of_lt hlow]

/-! ### Bit fields (R124) -/

/-- Bits of a sign extension from `n` bits to 32. -/
theorem testBit_wrap_sext {n v j : Nat} (hn : n ≠ 0) :
    (wrap 32 (sext n v)).testBit j = (decide (j < 32) && if j < n then v.testBit j else v.testBit (n - 1)) := by
  rw [sext_eq_toInt_ofNat, wrap_toInt, ← BitVec.getLsbD, BitVec.getLsbD_signExtend, BitVec.msb_eq_getLsbD_last, BitVec.getLsbD_ofNat,
    BitVec.getLsbD_ofNat]
  by_cases hj : j < n
  · simp [hj]
  · simp [hj, Nat.pos_of_ne_zero hn]

/-- Position and length of a field as the rule reads them from OPB. -/
theorem fieldEnds_eq (b : Nat) : fieldEnds b =
    (((BitVec.ofNat 32 b).extractLsb' 0 8).toNat, ((BitVec.ofNat 32 b).extractLsb' 8 8).toNat,
      min (((BitVec.ofNat 32 b).extractLsb' 0 8).toNat + ((BitVec.ofNat 32 b).extractLsb' 8 8).toNat) 32) := by
  have hpos : ((BitVec.ofNat 32 b).extractLsb' 0 8).toNat = b % 256 := by
    simp only [BitVec.extractLsb'_toNat, BitVec.toNat_ofNat, Nat.shiftRight_eq_div_pow]; omega
  have hlen : ((BitVec.ofNat 32 b).extractLsb' 8 8).toNat = b / 256 % 256 := by
    simp only [BitVec.extractLsb'_toNat, BitVec.toNat_ofNat, Nat.shiftRight_eq_div_pow]; omega
  rw [hpos, hlen, fieldEnds]

/-- The field of BFX: the bits from `pos` up to `hi`, and above them 0, or the field's highest bit where it is signed. -/
def fieldOut (signed : Bool) (a b : Nat) : Nat :=
  let (pos, len, hi) := fieldEnds b
  if len = 0 ∨ 32 ≤ pos then 0
  else
    let v := a % 2 ^ hi / 2 ^ pos
    if signed then wrap 32 (sext (hi - pos) v) else v

theorem bfx_results (f : Insn) : Results (.bfx f) f 1 4 fun u _ th =>
    fieldOut (decide (Forms.ty f.mod = 0)) (u.src th f.opa 1) (u.src th f.opb 1) := by
  simp only [fieldOut, decide_eq_true_eq]
  exact results_of fun _ => rfl

theorem testBit_fieldOut (signed : Bool) (a b j : Nat) : (fieldOut signed a b).testBit j =
    let pos := (fieldEnds b).1
    let len := (fieldEnds b).2.1
    let hi := (fieldEnds b).2.2
    (decide (j < 32) && decide (len ≠ 0) && decide (pos < 32) && (if j < hi - pos then a.testBit (pos + j) else signed && a.testBit (hi - 1))) := by
  have hhi : (fieldEnds b).2.2 = min ((fieldEnds b).1 + (fieldEnds b).2.1) 32 := rfl
  simp only [fieldOut]
  generalize (fieldEnds b).1 = pos at *
  generalize (fieldEnds b).2.1 = len at *
  generalize (fieldEnds b).2.2 = hi at *
  have hbit : ∀ k, (a % 2 ^ hi / 2 ^ pos).testBit k = (decide (k < hi - pos) && a.testBit (pos + k)) := fun k => by
    rw [Nat.testBit_div_two_pow, Nat.testBit_mod_two_pow, add_comm]
    congr 1
    simp only [decide_eq_decide]
    omega
  by_cases hempty : len = 0 ∨ 32 ≤ pos
  · rw [if_pos hempty]
    rcases hempty with h | h <;> simp [h]
  · rw [if_neg hempty]
    rw [not_or, not_le] at hempty
    obtain ⟨hlen, hpos⟩ := hempty
    cases signed with
    | true =>
      rw [if_pos rfl, testBit_wrap_sext (by omega), hbit, hbit]
      have htop : pos + (hi - pos - 1) = hi - 1 := by omega
      have hlt : hi - pos - 1 < hi - pos := by omega
      by_cases hj : j < hi - pos <;> simp [hj, hlen, hpos, htop, hlt]
    | false =>
      rw [if_neg Bool.false_ne_true, hbit]
      by_cases hj : j < hi - pos
      · have hj32 : j < 32 := by omega
        simp [hj, hlen, hpos, hj32]
      · simp [hj]

/-- OPD with the field of BFI in it. -/
def fieldIn (a b d : Nat) : Nat :=
  let (pos, len, hi) := fieldEnds b
  if len = 0 ∨ 32 ≤ pos then d else d % 2 ^ pos + (a % 2 ^ (hi - pos)) * 2 ^ pos + d / 2 ^ hi * 2 ^ hi

theorem bfi_results (f : Insn) : Results (.bfi f) f 1 4 fun u _ th => fieldIn (u.src th f.opa 1) (u.src th f.opb 1) (u.src th f.opd 1) :=
  results_of fun _ => rfl

theorem testBit_fieldIn (a b d j : Nat) : (fieldIn a b d).testBit j =
    if (fieldEnds b).2.1 ≠ 0 ∧ (fieldEnds b).1 ≤ j ∧ j < (fieldEnds b).2.2 then a.testBit (j - (fieldEnds b).1) else d.testBit j := by
  have hhi : (fieldEnds b).2.2 = min ((fieldEnds b).1 + (fieldEnds b).2.1) 32 := rfl
  simp only [fieldIn]
  generalize (fieldEnds b).1 = pos at *
  generalize (fieldEnds b).2.1 = len at *
  generalize (fieldEnds b).2.2 = hi at *
  by_cases hempty : len = 0 ∨ 32 ≤ pos
  · rw [if_pos hempty, if_neg (by omega)]
  · rw [if_neg hempty]
    have hsplit : 2 ^ hi = 2 ^ pos * 2 ^ (hi - pos) := by rw [← pow_add]; congr 1; omega
    have hsum : d % 2 ^ pos + (a % 2 ^ (hi - pos)) * 2 ^ pos + d / 2 ^ hi * 2 ^ hi =
        2 ^ pos * (2 ^ (hi - pos) * (d / 2 ^ hi) + a % 2 ^ (hi - pos)) + d % 2 ^ pos := by
      rw [Nat.mul_add, ← mul_assoc, ← hsplit]; ring
    rw [hsum, Nat.testBit_two_pow_mul_add _ (Nat.mod_lt _ (by positivity)), Nat.testBit_two_pow_mul_add _ (Nat.mod_lt _ (by positivity)),
      Nat.testBit_mod_two_pow, Nat.testBit_mod_two_pow, Nat.testBit_div_two_pow]
    by_cases hj : j < pos
    · rw [if_pos hj, if_neg (by omega)]; simp [hj]
    · by_cases hj' : j < hi
      · rw [if_neg hj, if_pos (by omega), if_pos (by omega)]; simp; omega
      · rw [if_neg hj, if_neg (by omega), if_neg (by omega)]; congr 1; omega

end Sys2Proof.Machine

namespace Sys2Proof.Proofs

open Machine

/-- Settles O13: R119 row by row, each read, clamped and written as a bit vector, and the four products of IDOT4. -/
theorem integerResults : Obligations.IntegerResults := by
  unfold Obligations.IntegerResults Rule.IntegerArithmetic Rule.DotProduct
  refine ⟨fun i f lat g h => ?_, fun f => ?_⟩
  · unfold Rule.row at h
    split at h <;> cases h
    all_goals first | rw [late_four_eq_lat46] | rw [late_six_eq_lat68]
    case h_1 => exact results_of_arith (g := fun a b _ => a + b) fun _ => rfl
    case h_2 => exact results_of_arith (g := fun a b _ => a - b) fun _ => rfl
    case h_3 => exact results_of_arith (g := fun a b _ => a * b) fun _ => rfl
    case h_4 => exact results_of_arith (g := fun a b _ => Int.fdiv (a * b) (2 ^ typeWidth (Forms.ty f.mod))) fun s => by rw [fdiv_two_pow]; rfl
    case h_5 => exact results_of_arith (g := fun a b c => a * b + c) fun _ => rfl
    case h_6 => exact results_of_arith (g := fun a b _ => if a ≤ b then a else b) fun _ => rfl
    case h_7 => exact results_of_arith (g := fun a b _ => if a ≤ b then b else a) fun _ => rfl
    case h_8 => exact results_of_arith (g := fun a _ _ => (a.natAbs : Int)) fun _ => rfl
    case h_9 => exact results_of_arith (g := fun a _ _ => -a) fun _ => rfl
    case h_10 => exact results_of_arith (g := fun a b c => ((a - b).natAbs : Int) + c) fun _ => rfl
  · refine results_congr (idot4_results f) fun u x th => ?_
    simp only [readInt_eq_int, writeInt_eq_bits, clampInt_eq_clamp, dot4_eq_sum]

/-- Settles O14: logic and shifts on bit vectors of the type's width, and the fields of BFX and BFI bit by bit. -/
theorem bitResults : Obligations.BitResults := by
  unfold Obligations.BitResults Rule.LogicAndShifts Rule.BitFields
  refine ⟨⟨fun i f g h => ?_, fun i f g h => ?_⟩, fun f => ?_, fun f => ?_⟩
  · unfold Rule.logic at h
    split at h <;> cases h
    all_goals refine results_of_logic (fun _ => rfl) fun u x th => ?_
    · rw [BitVec.toNat_and, toNat_source, toNat_source]
    · rw [BitVec.toNat_or, toNat_source, toNat_source]
    · rw [BitVec.toNat_xor, toNat_source, toNat_source]
    · rw [BitVec.toNat_and, toNat_source, toNat_not_source, regs_eq_modRegs]
    · rw [toNat_not_source, regs_eq_modRegs]
  · unfold Rule.shift at h
    split at h <;> cases h
    all_goals refine results_of_shift (fun _ => rfl) fun w a n => ?_
    · exact (BitVec.toNat_shiftLeft.trans (by rw [Nat.shiftLeft_eq])).symm
    · exact ((BitVec.toNat_ushiftRight a n).trans (Nat.shiftRight_eq_div_pow _ _)).symm
    · exact wrap_sext_div w a n
    · exact toNat_rotateLeft_add w a n
  · refine ⟨_, bfx_results f, fun u x th j => ?_⟩
    rw [testBit_fieldOut, fieldEnds_eq]
  · refine ⟨_, bfi_results f, fun u x th j => ?_⟩
    rw [testBit_fieldIn, fieldEnds_eq]

end Sys2Proof.Proofs
end

section
/-! PROOFS. O15: LEA under a type code that no encoding of it admits. -/

namespace Sys2Proof.Machine

/-- LEA with the type code of .i16, which no encoding of it admits: to the pair v4, from pointer 0 and the index −16384. -/
def leaNarrow : Insn := Tests.f 0x40 (Tests.v 4) (Tests.h 0) (Tests.h 0x4000)

theorem leaNarrow_not_wf : (Instr.lea leaNarrow).wf = false := by decide

/-- Nothing before the effect looks at the type: both lanes of the small machine are admitted. -/
theorem leaNarrow_admitted : Admits Tests.lab (.lea leaNarrow) leaNarrow Tests.ig0 [Tests.thr 0, Tests.thr 1] :=
  ⟨rfl, by decide +kernel, by decide, rfl, rfl⟩

/-- What a register holds after an answer that goes on. -/
def heldAfter (p : RegPlace) : Host.Outcome State Fault Refusal → Option Word
  | .next t => some (t.cell p)
  | _ => none

/-- The model reads the index as 16 bits with their sign, so the high half of the address is all ones. -/
theorem leaNarrow_high : heldAfter (.vec 0 5 0) (exec (.lea leaNarrow) Tests.lab) = some 0xFFFFFFFF := by decide +kernel

end Sys2Proof.Machine

namespace Sys2Proof.Proofs

open Machine

/-- Refutes O15: LEA is stated for every MOD, and with the type code of .i16, which the decoder refuses, the model extends the index from
16 bits, where the statement reads all 32 without sign. The other clauses are not at fault. -/
theorem not_movedAndComparedResults : ¬ Obligations.MovedAndComparedResults := by
  unfold Obligations.MovedAndComparedResults Rule.CompareAndLea
  rintro ⟨-, ⟨-, hlea⟩, -⟩
  have hhigh := leaNarrow_high
  rw [hlea leaNarrow Tests.lab Tests.ig0 _ leaNarrow_admitted] at hhigh
  revert hhigh
  decide +kernel

end Sys2Proof.Proofs
end

section
/-! PROOFS. O16 and O17: the floating-point instructions read, compute and write as R117 and R130 to R138 say. -/

namespace Sys2Proof.Machine

/-! ### Shapes of the floating-point family -/

theorem floats_congr {i : Instr} {f : Insn} {regs lat : Nat} {val val' : State → Thread → FpResult} (h : Rule.Floats i f regs lat val)
    (hv : ∀ u th, val u th = val' u th) : Rule.Floats i f regs lat val' := by
  have : val = val' := by funext u th; exact hv u th
  exact this ▸ h

/-- The addend of an FP32 instruction is OPD's register as it is. -/
theorem addend_fp32 (u : State) (th : Thread) (o : Operand) : u.addend th o fp32 = fp32.read (u.src th o 1) := rfl

theorem ffma_floats (f : Insn) : Rule.Floats (.ffma f) f 1 6 fun u th =>
    fp32.fma (rnd f) (Forms.sat f.mod) (u.fl th f.opa fp32) (u.fl th f.opb fp32) (u.addend th f.opd fp32) := floats_of fun _ => rfl

theorem fscalb_floats (f : Insn) : Rule.Floats (.fscalb f) f 1 6 fun u th =>
    fp32.scalb (rnd f) (Forms.sat f.mod) (u.fl th f.opa fp32) (sext 32 (u.src th f.opb 1)) := floats_of fun _ => rfl

/-! ### FCLASS (R134) -/

theorem land_mod_eq_zero_iff (a b n : Nat) : (a &&& b) % 2 ^ n = 0 ↔ (List.range n).any (fun j => a.testBit j && b.testBit j) = false := by
  rw [List.any_eq_false]
  constructor
  · intro h j hj
    have hbit := congrArg (Nat.testBit · j) h
    simpa [Nat.testBit_mod_two_pow, List.mem_range.1 hj] using hbit
  · intro h
    refine Nat.eq_of_testBit_eq fun j => ?_
    rw [Nat.testBit_mod_two_pow, Nat.testBit_and, Nat.zero_testBit]
    by_cases hj : j < n
    · simpa [hj] using h j (List.mem_range.2 hj)
    · simp [hj]

/-- FCLASS's mask, or whether it meets OPB. -/
def classResult (f : Insn) (u : State) (th : Thread) : Nat :=
  let F := fmtOf (Forms.ty f.mod)
  let m := F.class (u.srcFl th f.opa F)
  match f.opd with
  | .pred _ _ => if (m &&& u.src th f.opb 1) % 2 ^ 32 = 0 then 0 else 1
  | _ => m

theorem fclass_results (f : Insn) : Results (.fclass f) f 1 6 fun u _ th => classResult f u th := results_of fun _ => rfl

theorem classResult_register {f : Insn} (u : State) (th : Thread) (h : ∀ n neg, f.opd ≠ .pred n neg) :
    classResult f u th = (fmtOf (Forms.ty f.mod)).class (u.srcFl th f.opa (fmtOf (Forms.ty f.mod))) := by
  unfold classResult
  split
  · next n neg hd => exact absurd hd (h n neg)
  · rfl

theorem classResult_predicate {f : Insn} (u : State) (th : Thread) {n : BitVec 3} {neg : Bool} (h : f.opd = .pred n neg) :
    classResult f u th = if (List.range 32).any (fun j => ((fmtOf (Forms.ty f.mod)).class (u.srcFl th f.opa (fmtOf (Forms.ty f.mod)))).testBit j &&
      (u.src th f.opb 1).testBit j) then 1 else 0 := by
  simp only [classResult, h, land_mod_eq_zero_iff]
  cases (List.range 32).any _ <;> simp

/-! ### CVT (R137) -/

theorem cvt_floats {f : Insn} {v : BitVec 15} (h : f.opb = .imm v) :
    Rule.Floats (.cvt f) f (Rule.regs f) (if Rule.wide f ∨ v.toNat = 2 ∨ v.toNat = 3 then 8 else 6) fun u th =>
      u.convert th f.opa v.toNat (Forms.ty f.mod) (rnd f) (Forms.sat f.mod) := by
  have hlat : (if Rule.wide f ∨ v.toNat = 2 ∨ v.toNat = 3 then 8 else 6) = if modRegs f = 2 ∨ typeRegs v.toNat = 2 then 8 else 6 := by
    have h2 : ∀ t, typeRegs t = 2 ↔ t = 2 ∨ t = 3 := fun t => by unfold typeRegs; split <;> simp_all
    simp only [modRegs, h2, wide_iff]
  rw [hlat, regs_eq_modRegs]
  refine floats_of fun s => ?_
  simp only [exec, execCvt, h, Forms.immNat, Option.getD_some]

end Sys2Proof.Machine

namespace Sys2Proof.Proofs

open Machine

/-- Settles O16: each instruction is one operation of its format in each lane, or two on the elements of a pair. -/
theorem floatArithmetic : Obligations.FloatArithmetic := by
  unfold Obligations.FloatArithmetic
  refine ⟨fun f => ?_, fun f => ?_, fun f => ?_, fun f => ffma_floats f, fun f => ?_, fun f => ?_, fun f => ?_⟩
  all_goals exact floats_of fun _ => rfl

/-- Settles O17: as O16, with the mask of FCLASS bit by bit and the latency of CVT by its two types. -/
theorem floatOperations : Obligations.FloatOperations := by
  unfold Obligations.FloatOperations
  refine ⟨fun f => ?_, fun f => ?_, fun f => ?_, fun f => ?_, fun f => ?_, fun f => ?_, fun f => ?_, fun f => ?_, fun f => ?_, fun f => ?_, fun f => ?_,
    fun f => ⟨_, fclass_results f, fun u x th => ⟨classResult_register u th, fun n neg => classResult_predicate u th⟩⟩, fun f v => cvt_floats⟩
  case refine_4 => exact floats_congr (fscalb_floats f) fun u th => by rw [sext_eq_toInt_ofNat]
  all_goals exact floats_of fun _ => rfl

end Sys2Proof.Proofs
end

section
/-! PROOFS. O18: the rounding codes of R25, and the choice of FMIN and FMAX. -/

namespace Sys2Proof.Machine

/-! ### Units (R25) -/

theorem toUnits_of_lt {mode : Nat} {neg : Bool} {m : Nat} {e q : Int} (h : e < q) :
    toUnits mode neg m e q = (roundAt mode neg (m / 2 ^ (q - e).toNat) (m % 2 ^ (q - e).toNat) (2 ^ (q - e).toNat), m % 2 ^ (q - e).toNat != 0) := by
  simp [toUnits, not_le.2 h]

/-- A whole number of units is not rounded. -/
theorem roundAt_exact (mode : Nat) (neg : Bool) (lo den : Nat) : roundAt mode neg lo 0 den = lo := by simp [roundAt]

/-- To nearest, ties to even: at most half a unit away, and even at half a unit. -/
theorem roundAt_nearest {neg : Bool} {lo rem den : Nat} (hr : rem ≠ 0) (hd : rem < den) :
    (roundAt 0 neg lo rem den = lo ∧ 2 * rem ≤ den ∧ (2 * rem = den → lo % 2 = 0)) ∨
    (roundAt 0 neg lo rem den = lo + 1 ∧ den ≤ 2 * rem ∧ (2 * rem = den → (lo + 1) % 2 = 0)) := by
  simp only [roundAt, if_neg hr, if_true]
  split <;> omega

/-- To odd: of the two neighbours, the odd one. -/
theorem roundAt_odd {neg : Bool} {lo rem den : Nat} (hr : rem ≠ 0) :
    roundAt 4 neg lo rem den % 2 = 1 ∧ lo ≤ roundAt 4 neg lo rem den ∧ roundAt 4 neg lo rem den ≤ lo + 1 := by
  simp only [roundAt, if_neg hr]
  norm_num
  split <;> omega

/-! ### The order of FP32 patterns (R131) -/

/-- The magnitude of a finite FP32 pattern without its sign, in units of the smallest subnormal. -/
def magnitude (a : Nat) : Nat := if a / 2 ^ 23 = 0 then a % 2 ^ 23 else (2 ^ 23 + a % 2 ^ 23) * 2 ^ (a / 2 ^ 23 - 1)

theorem magnitude_lt_of_lt {a b : Nat} (h : a < b) : magnitude a < magnitude b := by
  have hab : a / 2 ^ 23 ≤ b / 2 ^ 23 := Nat.div_le_div_right h.le
  have hmod : ∀ c, c % 2 ^ 23 < 2 ^ 23 := fun c => Nat.mod_lt _ (by norm_num)
  rcases hab.eq_or_lt with he | hlt
  · have hf : a % 2 ^ 23 < b % 2 ^ 23 := by omega
    unfold magnitude
    rw [he]
    split
    · exact hf
    · exact Nat.mul_lt_mul_of_pos_right (by omega) (by positivity)
  · have hupper : magnitude a < 2 ^ (23 + a / 2 ^ 23) := by
      unfold magnitude
      split
      · next h0 => rw [h0]; exact hmod a
      · next h0 =>
        calc (2 ^ 23 + a % 2 ^ 23) * 2 ^ (a / 2 ^ 23 - 1) < 2 ^ 24 * 2 ^ (a / 2 ^ 23 - 1) :=
              Nat.mul_lt_mul_of_pos_right (by have := hmod a; omega) (by positivity)
          _ = 2 ^ (23 + a / 2 ^ 23) := by rw [← pow_add]; congr 1; omega
    have hlower : 2 ^ (23 + (b / 2 ^ 23 - 1)) ≤ magnitude b := by
      unfold magnitude
      rw [if_neg (by omega), pow_add]
      exact Nat.mul_le_mul_right _ (by omega)
    exact hupper.trans_le ((Nat.pow_le_pow_right (by norm_num) (by omega)).trans hlower)

theorem magnitude_lt_iff {a b : Nat} : magnitude a < magnitude b ↔ a < b := by
  refine ⟨fun h => ?_, magnitude_lt_of_lt⟩
  rcases lt_trichotomy a b with hab | rfl | hab
  · exact hab
  · exact absurd h (lt_irrefl _)
  · exact absurd (magnitude_lt_of_lt hab) (not_lt.2 h.le)

theorem inUnits_rescale (neg : Bool) (m : Nat) {e q r : Int} (hr : r ≤ q) (hq : q ≤ e) :
    inUnits neg m e r = inUnits neg m e q * 2 ^ (q - r).toNat := by
  have hexp : (e - r).toNat = (e - q).toNat + (q - r).toNat := by omega
  have hpow : m * 2 ^ (e - r).toNat = m * 2 ^ (e - q).toNat * 2 ^ (q - r).toNat := by rw [hexp, pow_add, mul_assoc]
  simp only [inUnits, hpow]
  cases neg <;> simp

/-- The order of two finite values is that of their numbers of units of any exponent below both. -/
theorem compare_fin {na nb : Bool} {ma mb : Nat} {ea eb r : Int} (ha : r ≤ ea) (hb : r ≤ eb) :
    ((Fl.fin na ma ea).compare (.fin nb mb eb) < 0 ↔ inUnits na ma ea r < inUnits nb mb eb r) ∧
    ((Fl.fin na ma ea).compare (.fin nb mb eb) = 0 ↔ inUnits na ma ea r = inUnits nb mb eb r) := by
  have hq : r ≤ min ea eb := le_min ha hb
  have hpos : (0 : Int) < 2 ^ (min ea eb - r).toNat := by positivity
  rw [inUnits_rescale na ma hq (min_le_left _ _), inUnits_rescale nb mb hq (min_le_right _ _), mul_lt_mul_iff_left₀ hpos,
    mul_left_inj' hpos.ne']
  simp only [Fl.compare]
  split
  · exact ⟨by omega, by omega⟩
  · split
    · exact ⟨by omega, by omega⟩
    · exact ⟨by omega, by omega⟩

/-- A finite FP32 pattern as the reader gives it. -/
theorem read_fp32_finite {b : Nat} (h : b % 2 ^ 31 < 0x7F800000) : ∃ m e, fp32.read b = .fin (b.testBit 31) m e ∧ fp32.ulp0 ≤ e ∧
    ∀ neg, inUnits neg m e fp32.ulp0 = if neg then -(magnitude (b % 2 ^ 31) : Int) else magnitude (b % 2 ^ 31) := by
  have hread : fp32.read b = if b % 2 ^ 31 / 2 ^ 23 = 0 then .fin (b.testBit 31) (b % 2 ^ 31 % 2 ^ 23) fp32.ulp0
      else .fin (b.testBit 31) (2 ^ 23 + b % 2 ^ 31 % 2 ^ 23) (fp32.ulp0 + (b % 2 ^ 31 / 2 ^ 23 : Nat) - 1) := if_neg (by simp [fp32]; omega)
  unfold magnitude
  rw [hread]
  split
  · exact ⟨_, _, rfl, le_rfl, fun neg => by simp [inUnits]⟩
  · next h0 =>
    refine ⟨_, _, rfl, by omega, fun neg => ?_⟩
    have hexp : (fp32.ulp0 + (b % 2 ^ 31 / 2 ^ 23 : Nat) - 1 - fp32.ulp0).toNat = b % 2 ^ 31 / 2 ^ 23 - 1 := by omega
    simp only [inUnits, hexp]

theorem read_fp32_special {b : Nat} (h : 0x7F800000 ≤ b % 2 ^ 31) :
    fp32.read b = if b % 2 ^ 31 = 0x7F800000 then .inf (b.testBit 31) else .nan (!(b % 2 ^ 31).testBit 22) :=
  if_pos (show 0x7F7FFFFF < b % 2 ^ 31 by omega)

theorem read_fp32_infinite {b : Nat} (h : b % 2 ^ 31 = 0x7F800000) : fp32.read b = .inf (b.testBit 31) := by
  rw [read_fp32_special h.ge, if_pos h]

theorem read_fp32_nan {b : Nat} (h : 0x7F800000 < b % 2 ^ 31) : fp32.read b = .nan (!b.testBit 22) := by
  rw [read_fp32_special h.le, if_neg h.ne', Nat.testBit_mod_two_pow]
  rfl

theorem isNan_read_fp32 (b : Nat) : (fp32.read b).isNan = decide (0x7F800000 < b % 2 ^ 31) := by
  rcases lt_trichotomy (b % 2 ^ 31) 0x7F800000 with h | h | h
  · obtain ⟨m, e, hread, -⟩ := read_fp32_finite h
    simp only [hread, Fl.isNan, not_lt.2 h.le, decide_false]
  · simp only [read_fp32_infinite h, Fl.isNan, h, lt_irrefl, decide_false]
  · simp only [read_fp32_nan h, Fl.isNan, h, decide_true]

theorem isSnan_read_fp32 (b : Nat) : (fp32.read b).isSnan = (decide (0x7F800000 < b % 2 ^ 31) && !b.testBit 22) := by
  rcases lt_trichotomy (b % 2 ^ 31) 0x7F800000 with h | h | h
  · obtain ⟨m, e, hread, -⟩ := read_fp32_finite h
    simp only [hread, Fl.isSnan, not_lt.2 h.le, decide_false, Bool.false_and]
  · simp only [read_fp32_infinite h, Fl.isSnan, h, lt_irrefl, decide_false, Bool.false_and]
  · simp only [read_fp32_nan h, Fl.isSnan, h, decide_true, Bool.true_and]

theorem testBit_31_iff {b : Nat} (h : b < 2 ^ 32) : b.testBit 31 = decide (2 ^ 31 ≤ b) := by
  rw [Nat.testBit_eq_decide_div_mod_eq]
  simp only [decide_eq_decide]
  omega

/-- The order that FMIN and FMAX choose by is that of the places on the line, −0 just below +0. -/
theorem less_iff_place_lt {x y : Nat} (hx : x < 2 ^ 32) (hy : y < 2 ^ 32) (hxn : ¬0x7F800000 < x % 2 ^ 31) (hyn : ¬0x7F800000 < y % 2 ^ 31) :
    ((fp32.read x).compare (fp32.read y) < 0 ∨ (fp32.read x).compare (fp32.read y) = 0 ∧ (fp32.read x).isNeg = true ∧ (fp32.read y).isNeg = false) ↔
      Rule.place x < Rule.place y := by
  have hsx := testBit_31_iff hx
  have hsy := testBit_31_iff hy
  unfold Rule.place
  rcases (not_lt.1 hxn).lt_or_eq with hxf | hxi
  · obtain ⟨ma, ea, hxr, hea, hua⟩ := read_fp32_finite hxf
    rcases (not_lt.1 hyn).lt_or_eq with hyf | hyi
    · obtain ⟨mb, eb, hyr, heb, hub⟩ := read_fp32_finite hyf
      obtain ⟨hlt, heq⟩ := compare_fin (na := x.testBit 31) (nb := y.testBit 31) (ma := ma) (mb := mb) hea heb
      rw [hxr, hyr, hlt, heq, hua, hub, hsx, hsy]
      have hm := @magnitude_lt_iff (x % 2 ^ 31) (y % 2 ^ 31)
      have hm' := @magnitude_lt_iff (y % 2 ^ 31) (x % 2 ^ 31)
      simp only [Fl.isNeg, decide_eq_true_eq, decide_eq_false_iff_not]
      (repeat' split) <;> omega
    · rw [hxr, read_fp32_infinite hyi, hsx, hsy]
      simp only [Fl.compare, Fl.isNeg, decide_eq_true_eq, decide_eq_false_iff_not]
      (repeat' split) <;> omega
  · rcases (not_lt.1 hyn).lt_or_eq with hyf | hyi
    · obtain ⟨mb, eb, hyr, -⟩ := read_fp32_finite hyf
      rw [hyr, read_fp32_infinite hxi, hsx, hsy]
      simp only [Fl.compare, Fl.isNeg, decide_eq_true_eq, decide_eq_false_iff_not]
      (repeat' split) <;> omega
    · rw [read_fp32_infinite hxi, read_fp32_infinite hyi, hsx, hsy]
      simp only [Fl.compare, Fl.isNeg, decide_eq_true_eq, decide_eq_false_iff_not, decide_eq_decide]
      (repeat' split) <;> omega

/-- Two patterns at one place are one pattern. -/
theorem place_injective {x y : Nat} (h : Rule.place x = Rule.place y) : x = y := by
  unfold Rule.place at h
  split at h <;> split at h <;> omega

theorem pick_numbers {x y : Nat} (larger : Bool) (hx : x < 2 ^ 32) (hy : y < 2 ^ 32) (hxn : ¬0x7F800000 < x % 2 ^ 31) (hyn : ¬0x7F800000 < y % 2 ^ 31) :
    fp32.pick larger x y = (if larger then if Rule.place x ≤ Rule.place y then y else x else if Rule.place x ≤ Rule.place y then x else y, 0) := by
  have hless : (decide ((fp32.read x).compare (fp32.read y) < 0) || (decide ((fp32.read x).compare (fp32.read y) = 0) && (fp32.read x).isNeg && !(fp32.read y).isNeg)) =
      decide (Rule.place x < Rule.place y) := by
    rw [Bool.eq_iff_iff, decide_eq_true_iff, ← less_iff_place_lt hx hy hxn hyn]
    simp [and_assoc]
  simp only [Fmt.pick, isNan_read_fp32, decide_eq_false hxn, decide_eq_false hyn, hless, Bool.false_and, Bool.false_eq_true, if_false]
  rcases lt_trichotomy (Rule.place x) (Rule.place y) with h | h | h
  · cases larger <;> simp [h, h.le]
  · cases larger <;> simp [place_injective h]
  · cases larger <;> simp [not_lt.2 h.le, not_le.2 h]

theorem pick_flags_of_nan {x y : Nat} (larger : Bool) (h : 0x7F800000 < x % 2 ^ 31 ∨ 0x7F800000 < y % 2 ^ 31) :
    (fp32.pick larger x y).2 = snanFlag [fp32.read x, fp32.read y] := by
  unfold Fmt.pick
  dsimp only
  split
  · rfl
  · split
    · rfl
    · next hx =>
      split
      · rfl
      · next hy =>
        rw [isNan_read_fp32, decide_eq_true_eq] at hx hy
        exact absurd h (not_or.2 ⟨hx, hy⟩)

end Sys2Proof.Machine

namespace Sys2Proof.Proofs

open Machine

theorem roundingCodes : Rule.RoundingCodes := by
  unfold Rule.RoundingCodes
  intro neg m e q h d
  have hd : 0 < d := by positivity
  have hm : d * (m / d) + m % d = m := Nat.div_add_mod m d
  have hr := Nat.mod_lt m hd
  have hu : ∀ mode, toUnits mode neg m e q = (roundAt mode neg (m / d) (m % d) d, m % d != 0) := fun mode => toUnits_of_lt h
  simp only [hu]
  generalize m / d = lo at *
  generalize m % d = rem at *
  have hone : (lo + 1) * d = d * lo + d := by ring
  have hzero : lo * d = d * lo := mul_comm _ _
  refine ⟨fun mode => by simp, fun mode h0 => ?_, fun h0 => ?_⟩
  · rw [h0, roundAt_exact, hzero]
    omega
  · obtain ⟨hodd, hlo, hhi⟩ := roundAt_odd (neg := neg) (lo := lo) (den := d) h0
    refine ⟨fun hlt => ?_, fun hlt => ?_, fun htie => ?_, by simp [roundAt, h0], by simp [roundAt, h0], by simp [roundAt, h0], hodd, ?_, ?_⟩
    · rcases roundAt_nearest (neg := neg) (lo := lo) h0 hr with ⟨hres, hhalf, -⟩ | ⟨hres, hhalf, -⟩ <;> rw [hres] at hlt ⊢ <;> omega
    · rcases roundAt_nearest (neg := neg) (lo := lo) h0 hr with ⟨hres, hhalf, -⟩ | ⟨hres, hhalf, -⟩ <;> rw [hres] at hlt ⊢ <;> omega
    · rcases roundAt_nearest (neg := neg) (lo := lo) h0 hr with ⟨hres, -, heven⟩ | ⟨hres, -, heven⟩ <;> rw [hres] <;> exact heven htie
    · have hmul := Nat.mul_le_mul_right d hlo
      rw [Nat.succ_mul]
      omega
    · have hmul := Nat.mul_le_mul_right d hhi
      omega

theorem minimumAndMaximum : Rule.MinimumAndMaximum := by
  unfold Rule.MinimumAndMaximum
  intro x y hx hy
  simp only [decide_eq_true_eq, decide_eq_false_iff_not]
  refine ⟨fun hxn hyn => ⟨by rw [pick_numbers false hx hy hxn hyn]; rfl, by rw [pick_numbers true hx hy hxn hyn]; rfl⟩, fun larger => ⟨fun hxn hyn => ?_, fun hxn hyn => ?_,
    fun hxn hyn => ?_, ?_⟩⟩
  · simp only [Fmt.pick, isNan_read_fp32, decide_eq_true hxn, decide_eq_true hyn, Bool.and_true, if_true]
    rfl
  · simp only [Fmt.pick, isNan_read_fp32, decide_eq_true hxn, decide_eq_false hyn, Bool.and_false, Bool.false_eq_true, if_false, if_true]
  · simp only [Fmt.pick, isNan_read_fp32, decide_eq_false hxn, decide_eq_true hyn, Bool.false_and, Bool.false_eq_true, if_false, if_true]
  · have hflag : snanFlag [fp32.read x, fp32.read y] = if (decide (0x7F800000 < x % 2 ^ 31) && !x.testBit 22 || decide (0x7F800000 < y % 2 ^ 31) && !y.testBit 22) = true
        then flagNV else 0 := by
      simp only [snanFlag, List.any_cons, List.any_nil, Bool.or_false, isSnan_read_fp32]
    rw [← hflag]
    by_cases hn : 0x7F800000 < x % 2 ^ 31 ∨ 0x7F800000 < y % 2 ^ 31
    · exact pick_flags_of_nan larger hn
    · rw [not_or] at hn
      rw [pick_numbers larger hx hy hn.1 hn.2, hflag, decide_eq_false hn.1, decide_eq_false hn.2]
      rfl

/-- Settles O18: R25 on a whole number and a remainder, and the choice by places on the line. -/
theorem roundingAndSelection : Obligations.RoundingAndSelection := by
  unfold Obligations.RoundingAndSelection
  exact ⟨roundingCodes, minimumAndMaximum⟩

end Sys2Proof.Proofs
end

section
/-! PROOFS. O19: special numbers, the finite results rounded once, and conversion to integers. -/

namespace Sys2Proof.Machine

/-! ### Exact values (R25) -/

/-- ±m·2^e. -/
def ratOf (neg : Bool) (m : Nat) (e : Int) : Rat := (if neg then -1 else 1) * m * (2 : Rat) ^ e

theorem value_fin (neg : Bool) (m : Nat) (e : Int) : Rule.value (.fin neg m e) = some (ratOf neg m e) := rfl

theorem ratOf_eq (neg : Bool) (m : Nat) (e : Int) : ratOf neg m e = if neg then -(m * (2 : Rat) ^ e) else m * (2 : Rat) ^ e := by
  cases neg <;> simp [ratOf]

theorem abs_ratOf (neg : Bool) (m : Nat) (e : Int) : |ratOf neg m e| = m * (2 : Rat) ^ e := by
  have h : (0 : Rat) ≤ m * (2 : Rat) ^ e := by positivity
  cases neg <;> simp only [ratOf_eq, Bool.false_eq_true, if_false, if_true, abs_neg, abs_of_nonneg h]

theorem ratOf_lt_zero_iff {neg : Bool} {m : Nat} {e : Int} (hm : m ≠ 0) : ratOf neg m e < 0 ↔ neg = true := by
  have h : (0 : Rat) < m * (2 : Rat) ^ e := by positivity
  cases neg
  · simp only [ratOf_eq, Bool.false_eq_true, if_false, iff_false, not_lt, h.le]
  · simp only [ratOf_eq, if_true, neg_lt_zero, h]

theorem zero_lt_ratOf_iff {neg : Bool} {m : Nat} {e : Int} (hm : m ≠ 0) : 0 < ratOf neg m e ↔ neg = false := by
  have h : (0 : Rat) < m * (2 : Rat) ^ e := by positivity
  cases neg
  · simp only [ratOf_eq, Bool.false_eq_true, if_false, h]
  · simp only [ratOf_eq, if_true, Bool.true_eq_false, iff_false, not_lt, neg_nonpos, h.le]

theorem log_ratOf {m : Nat} (hm : m ≠ 0) (e : Int) : Int.log 2 ((m : Rat) * 2 ^ e) = Nat.log2 m + e := by
  have hpos : (0 : Rat) < m * (2 : Rat) ^ e := by positivity
  have hlo : (2 : Rat) ^ (Nat.log2 m : Int) ≤ m := by exact_mod_cast Nat.log2_self_le hm
  have hhi : (m : Rat) < (2 : Rat) ^ ((Nat.log2 m : Int) + 1) := by exact_mod_cast Nat.lt_log2_self
  refine le_antisymm ?_ ?_
  · rw [← Int.lt_add_one_iff, ← Int.lt_zpow_iff_log_lt (by norm_num) hpos]
    calc (m : Rat) * 2 ^ e < 2 ^ ((Nat.log2 m : Int) + 1) * 2 ^ e := mul_lt_mul_of_pos_right hhi (by positivity)
      _ = 2 ^ ((Nat.log2 m : Int) + e + 1) := by rw [← zpow_add₀ (by norm_num)]; congr 1; ring
  · rw [← Int.zpow_le_iff_le_log (by norm_num) hpos, Nat.cast_ofNat, zpow_add₀ (by norm_num)]
    exact mul_le_mul_of_nonneg_right hlo (by positivity)

/-! ### Rounding over the rationals -/

/-- The rounding of R25, of a number of units that need not be whole. -/
def roundRat (mode : Nat) (neg : Bool) (n : Rat) : Int :=
  let lo := ⌊n⌋
  if n = lo then lo
  else if mode = 0 then (if 1 / 2 < n - lo ∨ (n - lo = 1 / 2 ∧ lo % 2 = 1) then lo + 1 else lo)
  else if mode = 1 then lo
  else if mode = 2 then (if neg then lo else lo + 1)
  else if mode = 3 then (if neg then lo + 1 else lo)
  else if lo % 2 = 1 then lo else lo + 1

theorem roundRat_natCast (mode : Nat) (neg : Bool) (k : Nat) : roundRat mode neg k = k := by
  simp only [roundRat, Int.floor_natCast, Int.cast_natCast, if_true]

theorem roundRat_div (mode : Nat) (neg : Bool) (m : Nat) {d : Nat} (hd : 0 < d) :
    roundRat mode neg ((m : Rat) / d) = roundAt mode neg (m / d) (m % d) d := by
  have hfloor : ⌊(m : Rat) / d⌋ = ((m / d : Nat) : Int) := by rw [Rat.floor_natCast_div_natCast]; rfl
  have hd' : (0 : Rat) < d := by exact_mod_cast hd
  have hsplit : (m : Rat) = d * (m / d : Nat) + (m % d : Nat) := by exact_mod_cast (Nat.div_add_mod m d).symm
  have hfrac : (m : Rat) / d - (m / d : Nat) = ((m % d : Nat) : Rat) / d := by
    rw [eq_div_iff hd'.ne', sub_mul, div_mul_cancel₀ _ hd'.ne']
    linarith [mul_comm (d : Rat) (m / d : Nat)]
  have hwhole : (m : Rat) / d = ((m / d : Nat) : Int) ↔ m % d = 0 := by
    rw [Int.cast_natCast, ← sub_eq_zero, hfrac, div_eq_zero_iff, or_iff_left hd'.ne', Nat.cast_eq_zero]
  have hhalf : (1 / 2 : Rat) < (m : Rat) / d - ((m / d : Nat) : Int) ↔ d < 2 * (m % d) := by
    rw [Int.cast_natCast, hfrac, div_lt_div_iff₀ (by norm_num) hd', one_mul]
    exact_mod_cast (by rw [mul_comm])
  have htie : (m : Rat) / d - ((m / d : Nat) : Int) = 1 / 2 ↔ 2 * (m % d) = d := by
    rw [Int.cast_natCast, hfrac, div_eq_div_iff hd'.ne' (by norm_num), one_mul]
    exact_mod_cast (by rw [mul_comm])
  have hodd : (((m / d : Nat) : Int) % 2 = 1) ↔ m / d % 2 = 1 := by omega
  simp only [roundRat, hfloor, hwhole, hhalf, htie, hodd, roundAt]
  push_cast
  rfl

theorem roundRat_units (mode : Nat) (neg : Bool) (m : Nat) (e q : Int) :
    roundRat mode neg ((m : Rat) * 2 ^ e / 2 ^ q) = (toUnits mode neg m e q).1 := by
  rcases le_or_gt q e with h | h
  · have hn : (m : Rat) * 2 ^ e / 2 ^ q = ((m * 2 ^ (e - q).toNat : Nat) : Rat) := by
      rw [mul_div_assoc, ← zpow_sub₀ (by norm_num), Nat.cast_mul, Nat.cast_pow, ← zpow_natCast, Int.toNat_of_nonneg (by omega), Nat.cast_ofNat]
    rw [hn, roundRat_natCast, toUnits, if_pos h]
  · have hn : (m : Rat) * 2 ^ e / 2 ^ q = (m : Rat) / (2 ^ (q - e).toNat : Nat) := by
      rw [Nat.cast_pow, ← zpow_natCast, Int.toNat_of_nonneg (by omega), Nat.cast_ofNat, mul_div_assoc, ← zpow_sub₀ (by norm_num), div_eq_mul_inv, ← zpow_neg]
      congr 2
      ring
    rw [hn, roundRat_div _ _ _ (by positivity), toUnits_of_lt h]

/-- Rounding over the rationals takes the units of the exponent that R25 names. -/
theorem round_ratOf {mode : Nat} {neg : Bool} {m : Nat} (hm : m ≠ 0) (e emin : Int) :
    Rule.round mode emin (ratOf neg m e) = ratOf neg (toUnits mode neg m e (max (Nat.log2 m + e) emin - 24 + 1)).1 (max (Nat.log2 m + e) emin - 24 + 1) := by
  have hneg := @ratOf_lt_zero_iff neg m e hm
  have hpos := @zero_lt_ratOf_iff neg m e hm
  have hr := roundRat_units mode neg m e (max (Nat.log2 m + e) emin - 24 + 1)
  have hround : Rule.round mode emin (ratOf neg m e) = (if neg then -1 else 1) *
      roundRat mode neg ((m : Rat) * 2 ^ e / 2 ^ (max (Nat.log2 m + e) emin - 24 + 1)) * 2 ^ (max (Nat.log2 m + e) emin - 24 + 1) := by
    unfold Rule.round roundRat
    simp only [abs_ratOf, log_ratOf hm, hneg, hpos]
    cases neg <;> simp only [Bool.false_eq_true, Bool.true_eq_false, if_false, if_true]
  rw [hround, hr, Int.cast_natCast, ratOf]

theorem floor_le_roundRat (mode : Nat) (neg : Bool) (n : Rat) : ⌊n⌋ ≤ roundRat mode neg n := by
  unfold roundRat
  dsimp only
  repeat' split
  all_goals omega

theorem roundRat_le_of_le {mode : Nat} {neg : Bool} {n : Rat} {k : Int} (h : n ≤ k) : roundRat mode neg n ≤ k := by
  unfold roundRat
  dsimp only
  split
  · exact_mod_cast (Int.floor_le n).trans h
  · next hne =>
    have hlt : ⌊n⌋ < k := by exact_mod_cast lt_of_lt_of_le (lt_of_le_of_ne (Int.floor_le n) (Ne.symm hne)) h
    repeat' split
    all_goals omega

theorem ratOf_eq_iff {neg : Bool} {m n : Nat} {e q : Int} : ratOf neg m e = ratOf neg n q ↔ (m : Rat) * 2 ^ e = n * 2 ^ q := by
  cases neg <;> simp [ratOf_eq]

/-- A number of units is inexact where it differs from what was rounded. -/
theorem toUnits_inexact_iff (mode : Nat) (neg : Bool) (m : Nat) (e q : Int) :
    (toUnits mode neg m e q).2 = false ↔ ratOf neg (toUnits mode neg m e q).1 q = ratOf neg m e := by
  rw [ratOf_eq_iff]
  rcases le_or_gt q e with h | h
  · simp only [toUnits, if_pos h, true_iff]
    rw [Nat.cast_mul, Nat.cast_pow, Nat.cast_ofNat, mul_assoc, ← zpow_natCast, Int.toNat_of_nonneg (by omega), ← zpow_add₀ (by norm_num)]
    congr 2
    ring
  · have hd : (0 : Nat) < 2 ^ (q - e).toNat := by positivity
    have hq : (2 : Rat) ^ q = 2 ^ (q - e).toNat * 2 ^ e := by
      rw [← zpow_natCast, Int.toNat_of_nonneg (by omega), ← zpow_add₀ (by norm_num)]
      congr 1
      ring
    rw [toUnits_of_lt h, hq, ← mul_assoc, mul_left_inj' (by positivity)]
    have hcast : ((roundAt mode neg (m / 2 ^ (q - e).toNat) (m % 2 ^ (q - e).toNat) (2 ^ (q - e).toNat) : Nat) : Rat) * 2 ^ (q - e).toNat = m ↔
        roundAt mode neg (m / 2 ^ (q - e).toNat) (m % 2 ^ (q - e).toNat) (2 ^ (q - e).toNat) * 2 ^ (q - e).toNat = m := by exact_mod_cast Iff.rfl
    rw [hcast]
    simp only [bne_eq_false_iff_eq]
    constructor
    · intro h0
      rw [h0, roundAt_exact]
      exact Nat.div_mul_cancel (Nat.dvd_of_mod_eq_zero h0)
    · intro hm
      exact hm ▸ Nat.mul_mod_left _ _

/-- At the exponent of the value's leading bit, or above it, 24 bits hold the units, and 2^24 where they round up to it. -/
theorem toUnits_le {mode : Nat} {neg : Bool} {m : Nat} (hm : m ≠ 0) {e fl : Int} (h : Nat.log2 m + e ≤ fl) :
    (toUnits mode neg m e (fl - 24 + 1)).1 ≤ 2 ^ 24 := by
  have hn : (m : Rat) * 2 ^ e / 2 ^ (fl - 24 + 1) ≤ ((2 ^ 24 : Nat) : Int) := by
    rw [div_le_iff₀ (by positivity)]
    have hlt := Int.lt_zpow_succ_log_self (b := 2) (by norm_num) ((m : Rat) * 2 ^ e)
    rw [log_ratOf hm, Nat.cast_ofNat] at hlt
    refine hlt.le.trans ?_
    rw [show (((2 ^ 24 : Nat) : Int) : Rat) = 2 ^ (24 : Int) by norm_num, ← zpow_add₀ (by norm_num)]
    exact zpow_le_zpow_right₀ (by norm_num) (by omega)
  have := roundRat_le_of_le (mode := mode) (neg := neg) hn
  rw [roundRat_units] at this
  exact_mod_cast this

theorem le_toUnits {mode : Nat} {neg : Bool} {m : Nat} (hm : m ≠ 0) (e : Int) :
    2 ^ 23 ≤ (toUnits mode neg m e (Nat.log2 m + e - 24 + 1)).1 := by
  have hn : ((2 ^ 23 : Nat) : Int) ≤ (m : Rat) * 2 ^ e / 2 ^ ((Nat.log2 m : Int) + e - 24 + 1) := by
    rw [le_div_iff₀ (by positivity)]
    have hle := Int.zpow_log_le_self (b := 2) (by norm_num) (show (0 : Rat) < m * 2 ^ e by positivity)
    rw [log_ratOf hm, Nat.cast_ofNat] at hle
    refine le_trans ?_ hle
    rw [show (((2 ^ 23 : Nat) : Int) : Rat) = 2 ^ (23 : Int) by norm_num, ← zpow_add₀ (by norm_num)]
    exact zpow_le_zpow_right₀ (by norm_num) (by omega)
  have := (Int.le_floor.2 hn).trans (floor_le_roundRat mode neg _)
  rw [roundRat_units] at this
  exact_mod_cast this

/-! ### FP32 patterns as numbers -/

theorem value_read_fp32 {b : Nat} (h : b % 2 ^ 31 < 0x7F800000) :
    Rule.value (fp32.read b) = some (ratOf (b.testBit 31) (magnitude (b % 2 ^ 31)) fp32.ulp0) := by
  obtain ⟨m, e, hread, he, hunits⟩ := read_fp32_finite h
  have hmag : m * 2 ^ (e - fp32.ulp0).toNat = magnitude (b % 2 ^ 31) := by
    have hfalse := hunits false
    simp only [inUnits, Bool.false_eq_true, if_false] at hfalse
    exact_mod_cast hfalse
  rw [hread, value_fin, Option.some_inj, ratOf_eq_iff, ← hmag, Nat.cast_mul, Nat.cast_pow, Nat.cast_ofNat, mul_assoc, ← zpow_natCast,
    Int.toNat_of_nonneg (by omega), ← zpow_add₀ (by norm_num)]
  congr 2
  ring

/-- An exponent and its units, carried into the exponent where they are 2^24, lie next to each other in a pattern. -/
theorem magnitude_add {k u : Nat} (hu : u ≤ 2 ^ 24) (hk : k = 0 ∨ 2 ^ 23 ≤ u) : magnitude (k * 2 ^ 23 + u) = u * 2 ^ k := by
  unfold magnitude
  rcases lt_or_ge u (2 ^ 23) with hlow | hlow
  · have h0 : k = 0 := hk.resolve_right (by omega)
    subst h0
    rw [if_pos (by omega)]
    simp
    omega
  · rcases hu.lt_or_eq with hmid | rfl
    · have hdiv : (k * 2 ^ 23 + u) / 2 ^ 23 = k + 1 := by omega
      have hmod : (k * 2 ^ 23 + u) % 2 ^ 23 = u - 2 ^ 23 := by omega
      rw [hdiv, hmod, if_neg (by omega), Nat.add_sub_cancel, show 2 ^ 23 + (u - 2 ^ 23) = u by omega]
    · have hdiv : (k * 2 ^ 23 + 2 ^ 24) / 2 ^ 23 = k + 2 := by omega
      have hmod : (k * 2 ^ 23 + 2 ^ 24) % 2 ^ 23 = 0 := by omega
      rw [hdiv, hmod, if_neg (by omega), show k + 2 - 1 = 1 + k by omega, pow_add, Nat.add_zero, ← mul_assoc]
      norm_num

theorem ulp0_fp32 : fp32.ulp0 = -149 := by norm_num [Fmt.ulp0, fp32]

/-- The largest finite pattern's magnitude is the largest finite value of R26. -/
theorem top_eq : ((2 : Rat) ^ 24 - 1) * 2 ^ 104 = (magnitude 0x7F7FFFFF : Rat) * 2 ^ fp32.ulp0 := by
  have hm : magnitude 0x7F7FFFFF = (2 ^ 24 - 1) * 2 ^ 253 := by norm_num [magnitude]
  rw [hm, ulp0_fp32]
  norm_num

/-- The value that a pattern's exponent and units stand for. -/
theorem abs_ratOf_eq_magnitude {neg : Bool} {u : Nat} {ee : Int} (hee : -126 ≤ ee) (hu : u ≤ 2 ^ 24) (hlow : ee = -126 ∨ 2 ^ 23 ≤ u) :
    ratOf neg u (ee - 24 + 1) = ratOf neg (magnitude ((ee + 126).toNat * 2 ^ 23 + u)) fp32.ulp0 := by
  rw [magnitude_add hu (hlow.imp_left fun h => by omega), ratOf_eq_iff, Nat.cast_mul, Nat.cast_pow, Nat.cast_ofNat, mul_assoc, ← zpow_natCast,
    ← zpow_add₀ (by norm_num), Int.toNat_of_nonneg (by omega), ulp0_fp32]
  congr 2
  ring

theorem testBit_signed {neg : Bool} {a : Nat} (ha : a < 2 ^ 31) : fp32.signed neg a < 2 ^ 32 ∧ (fp32.signed neg a).testBit 31 = neg ∧
    fp32.signed neg a % 2 ^ 31 = a := by
  have hs : fp32.signed neg a = if neg then 2 ^ 31 + a else a := rfl
  have hlt : fp32.signed neg a < 2 ^ 32 := by rw [hs]; split <;> omega
  refine ⟨hlt, ?_, by rw [hs]; split <;> omega⟩
  rw [testBit_31_iff hlt, hs]
  cases neg <;> simp <;> omega

/-- Whether the rounding with unbounded exponents stays below the smallest normal number (R27). -/
theorem tiny_iff {mode : Nat} {neg : Bool} {m : Nat} (hm : m ≠ 0) (e : Int) :
    |Rule.round mode (Int.log 2 |ratOf neg m e|) (ratOf neg m e)| < 2 ^ (-126 : Int) ↔
      Nat.log2 m + e < -126 ∧ ¬(Nat.log2 m + e = -126 - 1 ∧ (toUnits mode neg m e (Nat.log2 m + e - 24 + 1)).1 = 2 ^ 24) := by
  rw [abs_ratOf, log_ratOf hm, round_ratOf hm, max_self, abs_ratOf]
  have hle := toUnits_le (mode := mode) (neg := neg) hm (le_refl ((Nat.log2 m : Int) + e))
  have hge := le_toUnits (mode := mode) (neg := neg) hm e
  generalize (toUnits mode neg m e (Nat.log2 m + e - 24 + 1)).1 = u at *
  generalize (Nat.log2 m : Int) + e = fl at *
  have hmul : ∀ k : Nat, (2 : Rat) ^ k * 2 ^ (fl - 24 + 1) = 2 ^ ((k : Int) + (fl - 24 + 1)) := fun k => by
    rw [zpow_add₀ (by norm_num) (k : Int), zpow_natCast]
  have hpos : (0 : Rat) < 2 ^ (fl - 24 + 1) := by positivity
  rcases lt_trichotomy fl (-127) with h | h | h
  · refine iff_of_true ?_ ⟨by omega, by omega⟩
    calc (u : Rat) * 2 ^ (fl - 24 + 1) ≤ 2 ^ 24 * 2 ^ (fl - 24 + 1) := mul_le_mul_of_nonneg_right (by exact_mod_cast hle) hpos.le
      _ = 2 ^ (((24 : Nat) : Int) + (fl - 24 + 1)) := hmul 24
      _ < 2 ^ (-126 : Int) := zpow_lt_zpow_right₀ (by norm_num) (by push_cast; omega)
  · have hcast : (u : Rat) * 2 ^ (fl - 24 + 1) < 2 ^ (-126 : Int) ↔ u < 2 ^ 24 := by
      rw [show (2 : Rat) ^ (-126 : Int) = 2 ^ 24 * 2 ^ (fl - 24 + 1) by rw [hmul, h]; norm_num, mul_lt_mul_iff_left₀ hpos]
      exact_mod_cast Iff.rfl
    rw [hcast]
    omega
  · refine iff_of_false (not_lt.2 ?_) (by omega)
    calc (2 : Rat) ^ (-126 : Int) ≤ 2 ^ (((23 : Nat) : Int) + (fl - 24 + 1)) := zpow_le_zpow_right₀ (by norm_num) (by push_cast; omega)
      _ = 2 ^ 23 * 2 ^ (fl - 24 + 1) := (hmul 23).symm
      _ ≤ u * 2 ^ (fl - 24 + 1) := mul_le_mul_of_nonneg_right (by exact_mod_cast hge) hpos.le

/-- Rounding to FP32, with the format's numbers put in. -/
theorem round_fp32 (mode : Nat) (sat neg : Bool) (m : Nat) (e : Int) : fp32.round mode sat neg m e =
    let ee := max ((Nat.log2 m : Int) + e) (-126)
    let u := toUnits mode neg m e (ee - 24 + 1)
    let a := (ee + 126).toNat * 2 ^ 23 + u.1
    if 0x7F7FFFFF < a then (fp32.overflow mode sat neg, flagOF ||| flagNX)
    else (fp32.signed neg a, (if u.2 then flagNX else 0) ||| (if u.2 ∧ ((Nat.log2 m : Int) + e < -126 ∧
      ¬((Nat.log2 m : Int) + e = -126 - 1 ∧ (toUnits mode neg m e ((Nat.log2 m : Int) + e - 24 + 1)).1 = 2 ^ 24)) then flagUF else 0)) := rfl

theorem overflow_fp32 {mode : Nat} (hmode : mode ≤ 4) (sat neg : Bool) : fp32.overflow mode sat neg =
    (if neg = true then 2 ^ 31 else 0) + if sat = true ∨ mode = 1 ∨ mode = 4 ∨ (mode = 2 ∧ neg = true) ∨ (mode = 3 ∧ neg = false) then 0x7F7FFFFF else 0x7F800000 := by
  interval_cases mode <;> cases sat <;> cases neg <;> rfl

/-- The places of finite patterns and the largest finite value. -/
theorem abs_le_top_iff {neg : Bool} {a : Nat} : |ratOf neg (magnitude a) fp32.ulp0| ≤ (2 ^ 24 - 1) * 2 ^ 104 ↔ ¬0x7F7FFFFF < a := by
  rw [abs_ratOf, top_eq, mul_le_mul_iff_left₀ (by positivity), Nat.cast_le, ← not_lt, magnitude_lt_iff]

theorem top_lt_abs_iff {neg : Bool} {a : Nat} : (2 ^ 24 - 1) * 2 ^ 104 < |ratOf neg (magnitude a) fp32.ulp0| ↔ 0x7F7FFFFF < a := by
  rw [← not_le, abs_le_top_iff, not_not]

/-- Rounding a value that is not 0 delivers what R25 to R27 ask. -/
theorem round_delivers {mode : Nat} (hmode : mode ≤ 4) (sat neg : Bool) {m : Nat} (hm : m ≠ 0) (e : Int) :
    Rule.delivers mode sat (ratOf neg m e) (fp32.round mode sat neg m e) := by
  have htiny := tiny_iff (mode := mode) (neg := neg) hm e
  have hinexact := toUnits_inexact_iff mode neg m e (max (Nat.log2 m + e) (-126) - 24 + 1)
  have hu := toUnits_le (mode := mode) (neg := neg) hm (le_max_left ((Nat.log2 m : Int) + e) (-126))
  have hlow : max ((Nat.log2 m : Int) + e) (-126) = -126 ∨ 2 ^ 23 ≤ (toUnits mode neg m e (max (Nat.log2 m + e) (-126) - 24 + 1)).1 := by
    rcases le_total ((Nat.log2 m : Int) + e) (-126) with h | h
    · exact .inl (max_eq_right h)
    · right
      rw [max_eq_left h]
      exact le_toUnits hm e
  have hvalue := abs_ratOf_eq_magnitude (neg := neg) (le_max_right ((Nat.log2 m : Int) + e) (-126)) hu hlow
  have hv : Rule.round mode (-126) (ratOf neg m e) =
      ratOf neg (magnitude ((max ((Nat.log2 m : Int) + e) (-126) + 126).toNat * 2 ^ 23 + (toUnits mode neg m e (max (Nat.log2 m + e) (-126) - 24 + 1)).1)) fp32.ulp0 := by
    rw [round_ratOf hm, hvalue]
  have hround := round_fp32 mode sat neg m e
  dsimp only at hround
  have hexact := hinexact.trans (by rw [hvalue, ← hv])
  generalize toUnits mode neg m e (max (Nat.log2 m + e) (-126) - 24 + 1) = u at *
  generalize (max ((Nat.log2 m : Int) + e) (-126) + 126).toNat * 2 ^ 23 + u.1 = a at *
  generalize fp32.round mode sat neg m e = r at *
  unfold Rule.delivers
  extract_lets v top sign ends
  change v = _ at hv
  refine ⟨fun ha => ?_, fun ha => ?_⟩
  · have hle : ¬0x7F7FFFFF < a := abs_le_top_iff.1 (hv ▸ ha)
    obtain ⟨hlt, hsign, hmod⟩ := testBit_signed (neg := neg) (a := a) (by omega)
    rw [hround, if_neg hle]
    generalize fp32.signed neg a = b at *
    have hread := value_read_fp32 (b := b) (hmod.trans_lt (by omega))
    rw [hsign, hmod] at hread
    refine ⟨hlt, ?_, ?_, ?_⟩
    · rw [hsign, Bool.eq_iff_iff, decide_eq_true_iff]
      exact (ratOf_lt_zero_iff hm).symm
    · exact hread.trans (congrArg some hv.symm)
    · rw [if_congr hexact.symm rfl (if_congr htiny rfl rfl)]
      cases u.2 <;> simp
      split <;> rfl
  · have hlt : 0x7F7FFFFF < a := top_lt_abs_iff.1 (hv ▸ ha)
    rw [hround, if_pos hlt, overflow_fp32 hmode]
    have hsign : sign = if neg = true then 2 ^ 31 else 0 := if_congr (ratOf_lt_zero_iff hm) rfl rfl
    have hends : ends = if sat = true ∨ mode = 1 ∨ mode = 4 ∨ (mode = 2 ∧ neg = true) ∨ (mode = 3 ∧ neg = false) then 0x7F7FFFFF else 0x7F800000 :=
      if_congr (by rw [ratOf_lt_zero_iff hm, zero_lt_ratOf_iff hm]) rfl rfl
    rw [hsign, hends]

/-! ### Sums and products -/

theorem inUnits_mul {neg : Bool} {m : Nat} {e q : Int} (h : q ≤ e) : (inUnits neg m e q : Rat) * 2 ^ q = ratOf neg m e := by
  have hpow : ((2 ^ (e - q).toNat : Nat) : Rat) * 2 ^ q = 2 ^ e := by
    rw [Nat.cast_pow, Nat.cast_ofNat, ← zpow_natCast, Int.toNat_of_nonneg (by omega), ← zpow_add₀ (by norm_num)]
    congr 1
    ring
  rw [ratOf_eq]
  cases neg
  · simp only [inUnits, Bool.false_eq_true, if_false]
    rw [Int.cast_natCast, Nat.cast_mul, mul_assoc, hpow]
  · simp only [inUnits, if_true]
    rw [Int.cast_neg, Int.cast_natCast, Nat.cast_mul, neg_mul, mul_assoc, hpow]

theorem ratOf_zero (neg : Bool) (e : Int) : ratOf neg 0 e = 0 := by simp [ratOf]

theorem ratOf_natAbs (v q : Int) : ratOf (decide (v < 0)) v.natAbs q = v * 2 ^ q := by
  rcases lt_or_ge v 0 with h | h
  · rw [ratOf_eq, decide_eq_true h, if_pos rfl, ← neg_mul, ← Int.cast_natCast, Int.ofNat_natAbs_of_nonpos h.le, Int.cast_neg, neg_neg]
  · rw [ratOf_eq, decide_eq_false (not_lt.2 h), if_neg Bool.false_ne_true, ← Int.cast_natCast, Int.natAbs_of_nonneg h]

/-- An exact sum of 0 with a term that is not 0 has terms of opposite signs. -/
theorem ne_of_ratOf_add_eq_zero {na nb : Bool} {ma mb : Nat} {ea eb : Int} (h : ratOf na ma ea + ratOf nb mb eb = 0) (hm : ¬(ma = 0 ∧ mb = 0)) :
    na ≠ nb := by
  rintro rfl
  have ha : (0 : Rat) ≤ ma * 2 ^ ea := by positivity
  have hb : (0 : Rat) ≤ mb * 2 ^ eb := by positivity
  have hsum : (ma : Rat) * 2 ^ ea + mb * 2 ^ eb = 0 := by
    cases na <;> simp only [ratOf_eq, Bool.false_eq_true, if_false, if_true] at h <;> linarith
  have ha0 : (ma : Rat) * 2 ^ ea = 0 := by linarith
  have hb0 : (mb : Rat) * 2 ^ eb = 0 := by linarith
  have hne : ∀ e : Int, (2 : Rat) ^ e ≠ 0 := fun e => by positivity
  exact hm ⟨by simpa [hne] using ha0, by simpa [hne] using hb0⟩

/-- The sum that is rounded is the exact one. -/
theorem sum_units {na nb : Bool} {ma mb : Nat} {ea eb : Int} (hm : ¬(ma = 0 ∧ mb = 0)) (mode : Nat) (sat : Bool) :
    ∃ v q : Int, (v : Rat) * 2 ^ q = ratOf na ma ea + ratOf nb mb eb ∧
      fp32.sum mode sat na ma ea nb mb eb = if v = 0 then fp32.zero (mode == 3) else fp32.round mode sat (decide (v < 0)) v.natAbs q := by
  refine ⟨_, _, ?_, if_neg hm⟩
  rw [Int.cast_add, add_mul]
  by_cases ha : ma = 0
  · rw [if_pos ha, if_pos ha, if_neg fun hb => hm ⟨ha, hb⟩, ha, ratOf_zero, inUnits_mul le_rfl, Int.cast_zero, zero_mul]
  · rw [if_neg ha, if_neg ha]
    by_cases hb : mb = 0
    · rw [if_pos hb, if_pos hb, hb, ratOf_zero, inUnits_mul le_rfl, Int.cast_zero, zero_mul]
    · rw [if_neg hb, if_neg hb, inUnits_mul (min_le_left _ _), inUnits_mul (min_le_right _ _)]

theorem zero_fp32 (neg : Bool) : fp32.zero neg = (if neg then 2 ^ 31 else 0, 0) := by cases neg <;> rfl

/-- The exact sum of two finite values, rounded once. -/
theorem sum_delivers {mode : Nat} (hmode : mode ≤ 4) (sat na nb : Bool) (ma mb : Nat) (ea eb : Int) :
    (ratOf na ma ea + ratOf nb mb eb ≠ 0 → Rule.delivers mode sat (ratOf na ma ea + ratOf nb mb eb) (fp32.sum mode sat na ma ea nb mb eb)) ∧
    (ratOf na ma ea + ratOf nb mb eb = 0 → fp32.sum mode sat na ma ea nb mb eb = fp32.zero (if na = nb then na else mode == 3)) := by
  by_cases hm : ma = 0 ∧ mb = 0
  · refine ⟨fun h => absurd ?_ h, fun _ => if_pos hm⟩
    rw [hm.1, hm.2, ratOf_zero, ratOf_zero, add_zero]
  · obtain ⟨v, q, hv, hsum⟩ := sum_units (na := na) (nb := nb) (ea := ea) (eb := eb) hm mode sat
    have hv0 : v = 0 ↔ ratOf na ma ea + ratOf nb mb eb = 0 := by
      have hne : (2 : Rat) ^ q ≠ 0 := by positivity
      rw [← hv, mul_eq_zero, or_iff_left hne, Int.cast_eq_zero]
    rw [hsum]
    refine ⟨fun h => ?_, fun h => ?_⟩
    · rw [if_neg (hv0.not.2 h), ← hv, ← ratOf_natAbs]
      exact round_delivers hmode sat _ (Int.natAbs_ne_zero.2 (hv0.not.2 h)) q
    · rw [if_pos (hv0.2 h), if_neg (ne_of_ratOf_add_eq_zero h hm)]

theorem ratOf_mul (na nb : Bool) (ma mb : Nat) (ea eb : Int) : ratOf na ma ea * ratOf nb mb eb = ratOf (na != nb) (ma * mb) (ea + eb) := by
  rw [ratOf, ratOf, ratOf, zpow_add₀ (by norm_num), Nat.cast_mul]
  cases na <;> cases nb <;> simp <;> ring

theorem fma_fin (mode : Nat) (sat na nb nc : Bool) (ma mb mc : Nat) (ea eb ec : Int) : fp32.fma mode sat (.fin na ma ea) (.fin nb mb eb) (.fin nc mc ec) =
    fp32.sum mode sat (na != nb) (ma * mb) (ea + eb) nc mc ec := by
  simp only [Fmt.fma, Fl.times, Fl.isNan, Fmt.add, Bool.or_self, Bool.false_eq_true, if_false]

/-- The exact product of two finite values, rounded once. -/
theorem product_delivers {mode : Nat} (hmode : mode ≤ 4) (sat neg : Bool) (m : Nat) (e : Int) :
    (ratOf neg m e ≠ 0 → Rule.delivers mode sat (ratOf neg m e) (fp32.deliver mode sat neg m e)) ∧
    (ratOf neg m e = 0 → fp32.deliver mode sat neg m e = fp32.zero neg) := by
  have h0 : ratOf neg m e = 0 ↔ m = 0 := by
    have hne : (2 : Rat) ^ e ≠ 0 := by positivity
    cases neg <;> simp [ratOf_eq, hne]
  rw [Ne, h0, Fmt.deliver]
  refine ⟨fun hm => ?_, fun hm => if_pos hm⟩
  rw [if_neg hm]
  exact round_delivers hmode sat neg hm e

end Sys2Proof.Machine

namespace Sys2Proof.Proofs

open Machine

/-- NaN, infinity and zero (R24, R25, R130). -/
theorem floatSpecials : Rule.FloatSpecials := by
  unfold Rule.FloatSpecials
  refine ⟨fun mode sat a b h => ?_, fun mode sat g => ?_, fun mode sat g n e c => ⟨rfl, rfl, rfl⟩, fun mode sat n m e hm => ?_, fun sat g n mode m e => ?_⟩
  · have hflag : snanFlag [a, b] = if (a.isSnan || b.isSnan) = true then flagNV else 0 := by simp [snanFlag]
    rw [← hflag]
    cases a with
    | nan => exact ⟨rfl, rfl⟩
    | inf => cases b with
      | nan => exact ⟨rfl, rfl⟩
      | inf | fin => simp [Fl.isNan] at h
    | fin => cases b with
      | nan => exact ⟨rfl, rfl⟩
      | inf | fin => simp [Fl.isNan] at h
  · cases g <;> rfl
  · obtain ⟨v, q, hv, hsum⟩ := sum_units (na := n) (nb := !n) (ea := e) (eb := e) (not_and_of_not_left (m = 0) hm) mode sat
    have hopp : ratOf n m e + ratOf (!n) m e = 0 := by cases n <;> simp [ratOf_eq]
    have hv0 : v = 0 := by
      have hne : (2 : Rat) ^ q ≠ 0 := by positivity
      rw [hopp, mul_eq_zero, or_iff_left hne, Int.cast_eq_zero] at hv
      exact hv
    rw [Fmt.add, hsum, if_pos hv0, zero_fp32]
    simp only [beq_iff_eq]
    rfl
  · cases sat <;> cases g <;> rfl

/-- The exact result, rounded once (R25, R130). -/
theorem roundedOnce : Rule.RoundedOnce := by
  unfold Rule.RoundedOnce
  intro mode sat na nb nc ma mb mc ea eb ec a b c hmode ha hb hc
  rw [value_fin, Option.some_inj] at ha hb hc
  subst ha hb hc
  have hsum := sum_delivers hmode sat na nb ma mb ea eb
  have hproduct := product_delivers hmode sat (na != nb) (ma * mb) (ea + eb)
  have hboth := sum_delivers hmode sat (na != nb) nc (ma * mb) mc (ea + eb) ec
  rw [← ratOf_mul] at hproduct hboth
  simp only [zero_fp32] at hsum hproduct hboth
  have hsign : (if (na != nb) = nc then nc else mode == 3) = if (na != nb) = nc then na != nb else mode == 3 := ite_congr rfl Eq.symm fun _ => rfl
  rw [fma_fin, hsign]
  exact ⟨hsum.1, hsum.2, hproduct.1, hproduct.2, hboth.1, hboth.2, rfl⟩

theorem floatToInteger : Rule.FloatToInteger := by
  unfold Rule.FloatToInteger
  refine fun mode lo hi hle => ⟨fun s => rfl, fun g => rfl, fun g m e => ⟨fun hlo hhi => ?_, fun hlo => if_pos hlo, fun hhi => ?_⟩⟩
  · exact (if_neg (not_lt.2 hlo)).trans (if_neg (not_lt.2 hhi))
  · exact (if_neg (not_lt.2 (hle.trans hhi.le))).trans (if_pos hhi)

/-- Settles O19: an operation's exact result as a whole number of units of some power of two, rounded as R25 rounds a rational number. -/
theorem specialNumbers : Obligations.SpecialNumbers := by
  unfold Obligations.SpecialNumbers
  exact ⟨floatSpecials, roundedOnce, floatToInteger⟩

end Sys2Proof.Proofs
end


section
/-! PROOFS. Predicates, polls and index registers: what PLOP, POLL, XSET, XGET and XADV write (R65, R139, R140, R147). -/

namespace Sys2Proof.Machine

/-! ### Predicates and polls -/

theorem plop_results (f : Insn) : Results (.plop f) f 1 2 fun u _ th =>
    match Forms.low3 f.mod with
    | 0 => u.src th f.opa 1 &&& u.src th f.opb 1
    | 1 => u.src th f.opa 1 ||| u.src th f.opb 1
    | 2 => u.src th f.opa 1 ^^^ u.src th f.opb 1
    | 3 => u.src th f.opa 1 &&& (1 - u.src th f.opb 1)
    | _ => u.src th f.opa 1 := results_of fun _ => rfl

theorem poll_results (f : Insn) : Results (.poll f) f 1 6 State.poll := results_of fun _ => rfl

/-- Bit j of a sum of different powers of two. -/
theorem testBit_sum_two_pow {ls : List Nat} (hn : ls.Nodup) (j : Nat) : (ls.map (2 ^ ·)).sum.testBit j = true ↔ j ∈ ls := by
  rw [← List.sum_toFinset _ hn, ← Nat.mem_bitIndices, ← List.mem_toFinset, Finset.toFinset_bitIndices_sum_two_pow, List.mem_toFinset]

/-- The ballot of one quarter of a home group: bit j is that of lane 32 q + j. -/
theorem testBit_ballot {yes : List Thread} (hn : (yes.map fun t => t.tid.lane).Nodup) (q : Nat) {j : Nat} (hj : j < 32) :
    ((yes.filter fun t : Thread => t.tid.lane / 32 == q).map fun t : Thread => 2 ^ (t.tid.lane % 32)).sum.testBit j = true ↔
      ∃ t ∈ yes, t.tid.lane = 32 * q + j := by
  have hmap : ((yes.filter fun t : Thread => t.tid.lane / 32 == q).map fun t : Thread => t.tid.lane % 32).Nodup := by
    refine List.Nodup.map_on (fun a ha b hb hab => ?_) (hn.of_map.filter _)
    obtain ⟨ha, hqa⟩ := List.mem_filter.1 ha
    obtain ⟨hb, hqb⟩ := List.mem_filter.1 hb
    have hqa : a.tid.lane / 32 = q := by simpa using hqa
    have hqb : b.tid.lane / 32 = q := by simpa using hqb
    have hlane : a.tid.lane = b.tid.lane := by omega
    exact List.inj_on_of_nodup_map hn ha hb hlane
  have hsum := testBit_sum_two_pow hmap j
  rw [List.map_map] at hsum
  rw [show (fun t : Thread => 2 ^ (t.tid.lane % 32)) = (fun n => 2 ^ n) ∘ fun t : Thread => t.tid.lane % 32 from rfl, hsum, List.mem_map]
  constructor
  · rintro ⟨t, ht, hl⟩
    obtain ⟨ht, hq⟩ := List.mem_filter.1 ht
    have hq : t.tid.lane / 32 = q := by simpa using hq
    exact ⟨t, ht, by omega⟩
  · rintro ⟨t, ht, hl⟩
    exact ⟨t, List.mem_filter.2 ⟨ht, by simp; omega⟩, by omega⟩

theorem ite_one_zero {p : Prop} [Decidable p] {q : Prop} (h : p ↔ q) : ((if p then 1 else 0) = 1 ↔ q) ∧ ((if p then 1 else 0) = 0 ↔ ¬q) := by
  by_cases hp : p
  · simp [hp, h.1 hp]
  · simp [hp, h.not.1 hp]

/-- What POLL gives, by its operation. -/
theorem poll_cases (u : State) (x : Exec) (th : Thread) :
    let yes := (polling x th).filter fun t => u.src t x.f.opa 1 == 1
    (Forms.low3 x.f.mod = 0 → u.poll x th = if yes.length = (polling x th).length then 1 else 0) ∧
    (Forms.low3 x.f.mod = 1 → u.poll x th = if yes.isEmpty = true then 0 else 1) ∧
    (Forms.low3 x.f.mod = 2 → u.poll x th = if (yes.isEmpty || yes.length == (polling x th).length) = true then 1 else 0) ∧
    (Forms.low3 x.f.mod = 3 → u.poll x th =
      ((yes.filter fun t => t.tid.lane / 32 == u.src th x.f.opb 1 % 4).map fun t => 2 ^ (t.tid.lane % 32)).sum) ∧
    (Forms.low3 x.f.mod = 4 → u.poll x th = yes.length) := by
  refine ⟨?_, ?_, ?_, ?_, ?_⟩ <;> intro h <;> simp only [State.poll, h]

theorem predicatesAndPolls : Rule.PredicatesAndPolls := by
  refine ⟨fun f => ⟨_, plop_results f, fun u x th => ⟨fun p hp q hq => ⟨?_, ?_, ?_, ?_⟩, ?_⟩⟩,
    fun f => ⟨_, poll_results f, fun u x th => ?_⟩⟩
  · intro h; simp only [h, hp, hq]; cases p <;> cases q <;> rfl
  · intro h; simp only [h, hp, hq]; cases p <;> cases q <;> rfl
  · intro h; simp only [h, hp, hq]; cases p <;> cases q <;> rfl
  · intro h; simp only [h, hp, hq]; cases p <;> cases q <;> rfl
  · intro h; simp only [h]
  · obtain ⟨hall, hany, hsame, hballot, hcount⟩ := poll_cases u x th
    have hlen : (((polling x th).filter fun t => u.src t x.f.opa 1 == 1).length = (polling x th).length) ↔
        ∀ t ∈ polling x th, u.src t x.f.opa 1 = 1 := by
      simp [List.length_filter_eq_length_iff]
    have hnone : ((polling x th).filter fun t => u.src t x.f.opa 1 == 1).isEmpty = true ↔
        ∀ t ∈ polling x th, ¬u.src t x.f.opa 1 = 1 := by
      simp [List.isEmpty_iff, List.filter_eq_nil_iff]
    refine ⟨fun h => ?_, fun h => ?_, fun h => ?_, fun h hn j hj => ?_, fun h => ?_⟩
    · rw [hall h]; exact ite_one_zero hlen
    · rw [hany h, ← ite_not]
      exact ite_one_zero (by rw [hnone]; push Not; rfl)
    · rw [hsame h]
      exact ite_one_zero (by rw [Bool.or_eq_true, hnone, beq_iff_eq, hlen]; exact or_comm)
    · have hyes : (((polling x th).filter fun t => u.src t x.f.opa 1 == 1).map fun t => t.tid.lane).Nodup :=
        hn.sublist (List.filter_sublist.map _)
      refine (by rw [hballot h] : _ ↔ _).trans ((testBit_ballot hyes _ hj).trans ?_)
      simp only [List.mem_filter (p := fun t => u.src t x.f.opa 1 == 1), beq_iff_eq]
      exact ⟨fun ⟨t, ⟨ht, hp⟩, hl⟩ => ⟨t, ht, hl, hp⟩, fun ⟨t, ht, hl, hp⟩ => ⟨t, ⟨ht, hp⟩, hl⟩⟩
    · rw [hcount h, List.countP_eq_length_filter]; rfl

/-! ### Index registers -/

theorem xset_results (f : Insn) : Results (.xset f) f 1 2 fun u _ th =>
    (xPut (u.xcell th (xOf f.opd)) f.mod.toNat (u.src32 th f.opa)).toNat := results_of fun _ => rfl

theorem xget_results (f : Insn) : Results (.xget f) f 1 4 fun u _ th => xPick (u.xreg th (xOf f.opa)) f.mod.toNat :=
  results_of fun _ => rfl

/-- A field put into a word: the field's bits are the low ones of the value, every other bit stays. -/
theorem put_field (x v : Word) {lo w : Nat} (hw : lo + w ≤ 32) :
    let y := (x &&& ~~~(BitVec.ofNat 32 ((2 ^ w - 1) * 2 ^ lo))) ||| BitVec.ofNat 32 (v.toNat % 2 ^ w * 2 ^ lo)
    y.extractLsb' lo w = v.extractLsb' 0 w ∧ ∀ b < 32, b < lo ∨ lo + w ≤ b → y.getLsbD b = x.getLsbD b := by
  intro y
  have hy : ∀ b < 32, y.getLsbD b = if lo ≤ b ∧ b < lo + w then v.getLsbD (b - lo) else x.getLsbD b := by
    intro b hb
    simp only [y, BitVec.getLsbD_or, BitVec.getLsbD_and, BitVec.getLsbD_not, BitVec.getLsbD_ofNat, hb, decide_true, Bool.true_and,
      Nat.testBit_mul_two_pow, Nat.testBit_two_pow_sub_one, Nat.testBit_mod_two_pow, BitVec.testBit_toNat]
    by_cases h1 : lo ≤ b <;> by_cases h2 : b - lo < w <;>
      simp [h1, h2] <;> (try (have := h1; omega)) <;> (intros; omega)
  refine ⟨BitVec.eq_of_getLsbD_eq fun b hb => ?_, fun b hb hout => ?_⟩
  · rw [BitVec.getLsbD_extractLsb', BitVec.getLsbD_extractLsb', hy _ (by omega), if_pos (by omega)]
    simp [hb]
  · rw [hy b hb, if_neg (by omega)]

/-- A field of an index register, extended by zeros. -/
theorem ofNat_extract (w : Word) (lo n : Nat) : BitVec.ofNat 32 (w.extractLsb' lo n).toNat = (w.extractLsb' lo n).setWidth 32 :=
  BitVec.ofNat_toNat ..

/-- STEP, extended by its sign. -/
theorem ofNat_wrap_step (w : Word) : BitVec.ofNat 32 (wrap 32 (xStep w)) = (w.extractLsb' 24 4).signExtend 32 := by
  rw [xStep, wrap_toInt, BitVec.ofNat_toNat, BitVec.setWidth_eq]

/-- IDX of a register in which it has been set. -/
theorem xIdx_xSetIdx (w : Word) (i : Nat) : xIdx (xSetIdx w i) = i % 256 := by
  refine Nat.eq_of_testBit_eq fun b => ?_
  simp only [xIdx, xSetIdx, BitVec.testBit_toNat, BitVec.getLsbD_extractLsb', BitVec.getLsbD_or, BitVec.getLsbD_and, BitVec.getLsbD_shiftLeft,
    BitVec.getLsbD_ofNat, show 256 = 2 ^ 8 from rfl, Nat.testBit_mod_two_pow]
  by_cases hb : b < 8
  · have hm : ∀ b < 8, (0xFF00FFFF#32).getLsbD (16 + b) = false := by decide
    have hm : (0xFF00FFFF#32)[16 + b]'(by omega) = false := by rw [← BitVec.getLsbD_eq_getElem, hm b hb]
    simp [hb, hm, show 16 + b < 32 by omega, show b < 32 by omega]
  · simp [hb]

theorem xSetIdx_mod (w : Word) (i : Nat) : xSetIdx w (i % 256) = xSetIdx w i := by simp [xSetIdx]

/-- What XADV puts in IDX, in the register as it holds it then. -/
theorem xSetIdx_xAdd (w cell : Word) (n : Int) : xSetIdx cell (xIdx (xAdd w n)) =
    xSetIdx cell (((xIdx w : Int) + n) % ((if xMode w = 0 then 256 else xBound w : Nat) : Int)).toNat := by
  by_cases h : xMode w = 0 <;> simp only [xAdd, h, if_true, if_false, xIdx_xSetIdx, xSetIdx_mod] <;> rfl

/-- XADV where every active lane's register can advance. -/
theorem xadv_done {f : Insn} {j m : BitVec 2} {s : State} {ig : IssueGroup} {act : List Thread} (hj : f.opd = .xreg j m)
    (h : Admits s (.xadv f) f ig act)
    (hok : ∀ th ∈ act, xMode ((s.acting (s.about (.xadv f) f ig act)).xreg th j.toNat) < 2 ∧
      (xMode ((s.acting (s.about (.xadv f) f ig act)).xreg th j.toNat) = 1 →
        xBound ((s.acting (s.about (.xadv f) f ig act)).xreg th j.toNat) ≠ 0)) :
    let x := s.about (.xadv f) f ig act
    let u := s.acting x
    exec (.xadv f) s = .next ((u.putAll x 1 2 (act.map fun th => (th,
      (xSetIdx (u.xcell th j.toNat) (xIdx (xAdd (u.xreg th j.toNat) (sext 32 (u.src th f.opa 1))))).toNat))).closed
        x (.xadv f) (.at_ (x.due 2)) false) := by
  intro x u
  have hx : xOf f.opd = j.toNat := by rw [hj]; rfl
  rw [show exec (.xadv f) s = execXadv f s from rfl, execXadv]
  refine issueWith_done h ?_ ?_ ?_
  case refine_2 => simp [u, h.sound]
  case refine_3 => simp [u, h.untraced]
  have hmode : (x.act.any fun th => decide (2 ≤ xMode (u.xreg th j.toNat))) = false := by
    rw [List.any_eq_false]
    intro th ht
    have := (hok th ht).1
    simpa using this
  have hbad : (x.act.filter fun th => xMode (u.xreg th j.toNat) == 1 && xBound (u.xreg th j.toNat) == 0).isEmpty = true := by
    rw [List.isEmpty_iff, List.filter_eq_nil_iff]
    intro th ht
    have := (hok th ht).2
    simpa using this
  simp only [hx]
  rw [if_neg (by rw [hmode]; decide), if_pos hbad]
  rfl

/-- XADV where some active lane's register is in a mode that is none. -/
theorem xadv_illop {f : Insn} {j m : BitVec 2} {s : State} {ig : IssueGroup} {act : List Thread} (hj : f.opd = .xreg j m)
    (h : Admits s (.xadv f) f ig act)
    (hbad : ∃ th ∈ act, 2 ≤ xMode ((s.acting (s.about (.xadv f) f ig act)).xreg th j.toNat)) :
    ∃ t : Trap, t.cause = Cause.illop ∧ exec (.xadv f) s = conclude (s.taken.takeTrap ig t) := by
  have hx : xOf f.opd = j.toNat := by rw [hj]; rfl
  rw [show exec (.xadv f) s = execXadv f s from rfl, execXadv]
  refine ⟨_, ?_, issueWith_trap h (if_pos ?_)⟩
  · rfl
  · rw [hx, List.any_eq_true]
    obtain ⟨th, ht, hm⟩ := hbad
    exact ⟨th, ht, by simpa using hm⟩

/-- XADV where some active lane's register wraps at 0. -/
theorem xadv_xbound {f : Insn} {j m : BitVec 2} {s : State} {ig : IssueGroup} {act : List Thread} (hj : f.opd = .xreg j m)
    (h : Admits s (.xadv f) f ig act)
    (hmode : ∀ th ∈ act, xMode ((s.acting (s.about (.xadv f) f ig act)).xreg th j.toNat) < 2)
    (hbad : ∃ th ∈ act, xMode ((s.acting (s.about (.xadv f) f ig act)).xreg th j.toNat) = 1 ∧
      xBound ((s.acting (s.about (.xadv f) f ig act)).xreg th j.toNat) = 0) :
    ∃ t : Trap, t.cause = Cause.xbound ∧ exec (.xadv f) s = conclude (s.taken.takeTrap ig t) := by
  have hx : xOf f.opd = j.toNat := by rw [hj]; rfl
  rw [show exec (.xadv f) s = execXadv f s from rfl, execXadv]
  refine ⟨_, ?_, issueWith_trap h ((if_neg ?_).trans (if_neg ?_))⟩
  · rfl
  · rw [hx, List.any_eq_true]
    rintro ⟨th, ht, hm⟩
    have hlt := hmode th ht
    have hle : 2 ≤ xMode ((s.acting (s.about (.xadv f) f ig act)).xreg th j.toNat) := by simpa using hm
    omega
  · rw [hx, List.isEmpty_iff, List.filter_eq_nil_iff]
    obtain ⟨th, ht, hm, hb⟩ := hbad
    exact fun hall => hall th ht (by simp [hm, hb])

theorem indexRegisters : Rule.IndexRegisters := by
  refine ⟨fun f => ⟨_, xset_results f, fun u x th j neg hopd => ?_⟩, fun f => ⟨_, xget_results f, fun u x th j m hopa => ?_⟩,
    fun f j m s ig act hopd h => ⟨fun hok => ?_, fun hbad => xadv_illop hopd h hbad, fun hmode hbad => xadv_xbound hopd h hmode hbad⟩⟩
  · have hj : xOf f.opd = j.toNat := by rw [hopd]; rfl
    simp only [BitVec.ofNat_toNat, BitVec.setWidth_eq, hj]
    refine ⟨?_, ?_, ?_, ?_, ?_, ?_⟩ <;> intro hm <;> rw [hm]
    · rfl
    · exact put_field _ _ (by omega)
    · exact put_field _ _ (by omega)
    · exact put_field _ _ (by omega)
    · exact put_field _ _ (by omega)
    · exact put_field _ _ (by omega)
  · have hj : xOf f.opa = j.toNat := by rw [hopa]; rfl
    simp only [hj]
    refine ⟨?_, ?_, ?_, ?_, ?_, ?_⟩ <;> intro hm <;> rw [hm]
    · exact BitVec.ofNat_toNat .. |>.trans (BitVec.setWidth_eq _)
    · exact ofNat_extract _ 0 8
    · exact ofNat_extract _ 8 8
    · exact ofNat_extract _ 16 8
    · exact ofNat_wrap_step _
    · exact ofNat_extract _ 28 2
  · refine (xadv_done hopd h hok).trans ?_
    simp only [xSetIdx_xAdd, sext_eq_toInt_ofNat]
    rfl

end Sys2Proof.Machine

namespace Sys2Proof.Proofs
open Machine

/-- Settles O20: PLOP and POLL by their operations, XSET and XGET field by field, XADV by what its registers allow. -/
theorem predicatesAndIndexRegisters : Obligations.PredicatesAndIndexRegisters := ⟨predicatesAndPolls, indexRegisters⟩

end Sys2Proof.Proofs
end


section
/-! PROOFS. Instructions across lanes: LXCH, LSHF, LBCAST and RDLANE where no register read is empty, and LRED's scans as prefixes
combined in lane order (R141 to R146). -/

namespace Sys2Proof.Machine

/-! ### Scans (R145) -/

/-- One of R145's seven steps, at distance d, over the lanes' values. -/
def scanStep (g : Nat → Nat → Nat) (y : Nat → Nat) (d l : Nat) : Nat := if d ≤ l then g (y (l - d)) (y l) else y l

/-- The n + 1 values from lane a on, combined in lane order. -/
def span (g : Nat → Nat → Nat) (y : Nat → Nat) (a : Nat) : Nat → Nat
  | 0 => y a
  | n + 1 => g (span g y a n) (y (a + n + 1))

theorem span_append {g : Nat → Nat → Nat} (hg : ∀ a b c, g (g a b) c = g a (g b c)) (y : Nat → Nat) (a m n : Nat) :
    g (span g y a m) (span g y (a + m + 1) n) = span g y a (m + n + 1) := by
  induction n with
  | zero => rfl
  | succ n ih =>
    rw [span, ← hg, ih, show a + m + 1 + n + 1 = a + (m + n + 1) + 1 by omega]
    rfl

/-- Once every lane holds the d values up to its own, a step at distance d makes them 2 d. -/
theorem scanStep_span {g : Nat → Nat → Nat} (hg : ∀ a b c, g (g a b) c = g a (g b c)) {y z : Nat → Nat} {d : Nat} (hd : 0 < d)
    (hz : ∀ l, z l = span g y (l - min l (d - 1)) (min l (d - 1))) (l : Nat) :
    scanStep g z d l = span g y (l - min l (2 * d - 1)) (min l (2 * d - 1)) := by
  unfold scanStep
  split
  · next h =>
    have hr : min l (d - 1) = d - 1 := by omega
    rw [hz l, hr, hz (l - d)]
    generalize hm : min (l - d) (d - 1) = m
    have hcat := span_append hg y (l - d - m) m (d - 1)
    rw [show l - d - m + m + 1 = l - (d - 1) by omega] at hcat
    rw [hcat, show min l (2 * d - 1) = m + (d - 1) + 1 by omega, show l - (m + (d - 1) + 1) = l - d - m by omega]
  · rw [hz l, show min l (d - 1) = l by omega, show min l (2 * d - 1) = l by omega]

/-- After the seven steps a lane holds the values of the lanes up to its own, combined in lane order. -/
theorem scanned_eq_span {g : Nat → Nat → Nat} (hg : ∀ a b c, g (g a b) c = g a (g b c)) (y : Nat → Nat) {l : Nat} (hl : l < 128) :
    Rule.scanned g y l = span g y 0 l := by
  have h0 : ∀ l, y l = span g y (l - min l (1 - 1)) (min l (1 - 1)) := fun l => by simp [span]
  have h1 := scanStep_span hg (by decide) h0
  have h2 := scanStep_span hg (by decide) h1
  have h3 := scanStep_span hg (by decide) h2
  have h4 := scanStep_span hg (by decide) h3
  have h5 := scanStep_span hg (by decide) h4
  have h6 := scanStep_span hg (by decide) h5
  have h7 := scanStep_span hg (by decide) h6
  refine (h7 l).trans ?_
  rw [show min l _ = l by omega, Nat.sub_self]

theorem lredStep_length (g : Nat → Nat → Nat) (y : List Nat) (d : Nat) : (lredStep g y d).length = y.length := by
  simp [lredStep]; omega

theorem lredStep_getD (g : Nat → Nat → Nat) {y : List Nat} (d : Nat) {l : Nat} (hl : l < y.length) :
    (lredStep g y d).getD l 0 = scanStep g (fun l => y.getD l 0) d l := by
  unfold lredStep scanStep
  split
  · next h =>
    rw [List.getD_append_right _ _ _ _ (by simp; omega)]
    simp [List.getD_eq_getElem?_getD, List.getElem?_zipWith, List.getElem?_drop, hl, show min d y.length = d by omega,
      show d + (l - d) = l by omega, show l - d < y.length by omega]
  · next h =>
    rw [List.getD_append _ _ _ _ (by simp; omega)]
    simp [List.getD_eq_getElem?_getD, List.getElem?_take, show l < d by omega]

/-- The steps over a list are the steps over its entries. -/
theorem foldl_lredStep (g : Nat → Nat → Nat) (ds : List Nat) (y : List Nat) (z : Nat → Nat) (h : ∀ l < y.length, y.getD l 0 = z l) :
    (ds.foldl (lredStep g) y).length = y.length ∧ ∀ l < y.length, (ds.foldl (lredStep g) y).getD l 0 = ds.foldl (scanStep g) z l := by
  induction ds generalizing y z with
  | nil => exact ⟨rfl, h⟩
  | cons d ds ih =>
    have hstep : ∀ l < (lredStep g y d).length, (lredStep g y d).getD l 0 = scanStep g z d l := fun l hl => by
      rw [lredStep_length] at hl
      rw [lredStep_getD g d hl]
      unfold scanStep
      simp only [h l hl]
      split
      · rw [h (l - d) (by omega)]
      · rfl
    obtain ⟨hlen, hget⟩ := ih _ _ hstep
    rw [lredStep_length] at hlen hget
    exact ⟨hlen, hget⟩

theorem lredScan_getD (g : Nat → Nat → Nat) {y : List Nat} {z : Nat → Nat} {l : Nat} (h : ∀ l < y.length, y.getD l 0 = z l)
    (hl : l < y.length) : (lredScan g y).getD l 0 = Rule.scanned g z l :=
  (foldl_lredStep g _ y z h).2 l hl

theorem span_eq_foldl (g : Nat → Nat → Nat) (y : List Nat) (l : Nat) (hl : l < y.length) :
    span g (fun l => y.getD l 0) 0 l = (y.tail.take l).foldl g (y.headD 0) := by
  induction l with
  | zero => cases y <;> simp [span]
  | succ l ih =>
    have htail : y.tail[l]? = some (y.getD (l + 1) 0) := by
      rw [List.getElem?_tail, List.getD_eq_getElem?_getD, List.getElem?_eq_getElem hl]
      rfl
    rw [span, ih (by omega), List.take_add_one, htail, List.foldl_append, Nat.zero_add]
    rfl

/-! ### LRED -/

/-- What the active lane l of a home group gives to the scan, and the identity where there is none. -/
def laneTerm (ls : List Thread) (value : Thread → Nat) (e l : Nat) : Nat :=
  match ls.find? fun t => t.tid.lane == l with
  | some a => value a
  | none => e

/-- The value of LRED in a lane. -/
def lredValue (f : Insn) (u : State) (x : Exec) (th : Thread) : Nat :=
  let t := Forms.ty f.mod
  let op := Forms.low3 f.mod
  (lredScan (lredOp op t) ((List.range 128).map fun l => laneTerm (polling x th)
    (fun th => if t = 9 then u.srcFl th f.opa fp32 else u.src th f.opa 1 % 2 ^ 32) (lredIdentity op t) l)).getD
    (if Forms.sat f.mod then th.tid.lane else 127) 0

theorem mem_dedup {α : Type} [DecidableEq α] {a : α} {l : List α} : a ∈ dedup l ↔ a ∈ l := by
  induction l with
  | nil => rfl
  | cons b l ih =>
    unfold dedup
    split
    · next h => rw [ih, List.mem_cons]; exact ⟨.inr, fun h' => h'.elim (fun e => e ▸ List.contains_iff_mem.1 h) id⟩
    · rw [List.mem_cons, List.mem_cons, ih]

theorem find?_map_key {α β : Type} [DecidableEq α] {ls : List α} (g : α → β) {a : α} (h : a ∈ ls) :
    (ls.map fun b => (b, g b)).find? (fun p => decide (p.1 = a)) = some (a, g a) := by
  induction ls with
  | nil => cases h
  | cons b ls ih =>
    rw [List.map_cons, List.find?_cons]
    by_cases hb : b = a
    · simp [hb]
    · simp only [hb, decide_false]
      exact ih ((List.mem_cons.1 h).resolve_left fun e => hb e.symm)

/-- LRED looks the scan of a lane's home group up among those of all home groups. -/
theorem lred_results (f : Insn) : Results (.lred f) f 1 (if Forms.ty f.mod = 9 then 20 else 16) fun u x th =>
    match ((groupsOf x.act).map fun bg => (bg, lredScan (lredOp (Forms.low3 f.mod) (Forms.ty f.mod)) ((List.range 128).map fun l =>
      laneTerm (x.act.filter fun th => decide ((th.tid.block, th.tid.group) = bg))
        (fun th => if Forms.ty f.mod = 9 then u.srcFl th f.opa fp32 else u.src th f.opa 1 % 2 ^ 32)
        (lredIdentity (Forms.low3 f.mod) (Forms.ty f.mod)) l))).find? fun p => decide (p.1 = (th.tid.block, th.tid.group)) with
    | some p => p.2.getD (if Forms.sat f.mod then th.tid.lane else 127) 0
    | none => 0 := results_of fun _ => rfl

/-- The same lookup, in an active lane. -/
theorem lred_value {x : Exec} {th : Thread} (scan : BlockKey × Nat → List Nat) (l : Nat) (h : th ∈ x.act) :
    (match ((groupsOf x.act).map fun bg => (bg, scan bg)).find? fun p => decide (p.1 = (th.tid.block, th.tid.group)) with
      | some p => p.2.getD l 0
      | none => 0) = (scan (th.tid.block, th.tid.group)).getD l 0 := by
  have hmem : (th.tid.block, th.tid.group) ∈ groupsOf x.act := mem_dedup.2 (List.mem_map.2 ⟨th, h, rfl⟩)
  rw [find?_map_key scan hmem]

theorem filter_key_eq_polling (x : Exec) (th : Thread) :
    (x.act.filter fun t => decide ((t.tid.block, t.tid.group) = (th.tid.block, th.tid.group))) = polling x th := by
  simp only [polling, Prod.mk.injEq, Bool.decide_and]

/-- A 32-bit integer type's register bits (R18). -/
theorem bits_eq_wrap {t : Nat} (ht : t = 0 ∨ t = 1) (y : Int) : Rule.bits t y = wrap 32 y := by
  rcases ht with rfl | rfl
  · rw [wrap_eq_toNat]; simp [Rule.bits, typeWidth, typeSigned]
  · rw [wrap_eq_toNat]; simp [Rule.bits, typeWidth, typeSigned]

/-- The sum, the least and the greatest of a 32-bit integer type. -/
theorem combination_int {op t : Nat} (ht : t = 0 ∨ t = 1) (hop : op ≤ 2) :
    Rule.combination op t = (lredOp op t, lredIdentity op t) := by
  have hmin : ∀ a b, Rule.bits t (min (Rule.int t a) (Rule.int t b)) = wrap 32 (min (readInt t a) (readInt t b)) := fun a b => by
    rw [bits_eq_wrap ht, readInt_eq_int, readInt_eq_int]
  have hmax : ∀ a b, Rule.bits t (max (Rule.int t a) (Rule.int t b)) = wrap 32 (max (readInt t a) (readInt t b)) := fun a b => by
    rw [bits_eq_wrap ht, readInt_eq_int, readInt_eq_int]
  obtain rfl | rfl | rfl : op = 0 ∨ op = 1 ∨ op = 2 := by omega
  · rcases ht with rfl | rfl <;> rfl
  · refine Prod.ext (funext₂ fun a b => ?_) ?_
    · rcases ht with rfl | rfl <;> exact hmin a b
    · rcases ht with rfl | rfl <;> decide
  · refine Prod.ext (funext₂ fun a b => ?_) ?_
    · rcases ht with rfl | rfl <;> exact hmax a b
    · rcases ht with rfl | rfl <;> decide

/-- LRED's combination and identity are R145's, for the types that its form accepts. -/
theorem combination_eq {m : BitVec 8} (h : Forms.lredOk m = true) :
    Rule.combination (Forms.low3 m) (Forms.ty m) = (lredOp (Forms.low3 m) (Forms.ty m), lredIdentity (Forms.low3 m) (Forms.ty m)) := by
  simp only [Forms.lredOk, Bool.or_eq_true, Bool.and_eq_true, decide_eq_true_eq, beq_iff_eq] at h
  generalize Forms.low3 m = op at h ⊢
  generalize Forms.ty m = t at h ⊢
  obtain ⟨hop, ht | rfl⟩ | ⟨⟨h3, h5⟩, rfl⟩ := h
  · exact combination_int ht hop
  · obtain rfl | rfl | rfl : op = 0 ∨ op = 1 ∨ op = 2 := by omega
    all_goals rfl
  · obtain rfl | rfl | rfl : op = 3 ∨ op = 4 ∨ op = 5 := by omega
    all_goals rfl

/-- The lane terms up to lane n, summed, are the values of the lanes there. -/
theorem sum_laneTerm (value : Thread → Nat) (ls : List Thread) (hn : (ls.map fun t => t.tid.lane).Nodup) (n : Nat) :
    ∑ l ∈ Finset.range n, laneTerm ls value 0 l = ((ls.filter fun t => decide (t.tid.lane < n)).map value).sum := by
  induction ls with
  | nil => simp [laneTerm]
  | cons a ls ih =>
    obtain ⟨ha, hn⟩ := List.nodup_cons.1 hn
    have hcons : ∀ l, laneTerm (a :: ls) value 0 l = (if l = a.tid.lane then value a else 0) + laneTerm ls value 0 l := fun l => by
      by_cases h : l = a.tid.lane
      · have hnone : ls.find? (fun t => t.tid.lane == l) = none := by
          rw [List.find?_eq_none]
          intro t ht he
          exact ha (List.mem_map.2 ⟨t, ht, (by simpa using he : t.tid.lane = l).trans h⟩)
        simp [laneTerm, List.find?_cons, h, h ▸ hnone]
      · simp [laneTerm, List.find?_cons, h, show (a.tid.lane == l) = false by simpa using fun e => h e.symm]
    rw [Finset.sum_congr rfl fun l _ => hcons l, Finset.sum_add_distrib, ih hn, Finset.sum_ite_eq', List.filter_cons]
    by_cases h : a.tid.lane < n <;> simp [h]

/-- A sum of words modulo 2^32, as the scan forms it. -/
theorem span_add (y : Nat → Nat) (h0 : y 0 < 2 ^ 32) (l : Nat) :
    span (fun a b => (a + b) % 2 ^ 32) y 0 l = (∑ i ∈ Finset.range (l + 1), y i) % 2 ^ 32 := by
  induction l with
  | zero => simpa [span] using (Nat.mod_eq_of_lt h0).symm
  | succ l ih => rw [span, ih, Nat.zero_add, Finset.sum_range_succ _ (l + 1), Nat.mod_add_mod]

theorem lanes_nodup {x : Exec} (th : Thread) (h : (x.act.map (·.tid)).Nodup) : ((polling x th).map fun t => t.tid.lane).Nodup := by
  refine List.Nodup.map_on (fun a ha b hb hab => ?_) (h.of_map.filter _)
  obtain ⟨ha, hka⟩ := List.mem_filter.1 ha
  obtain ⟨hb, hkb⟩ := List.mem_filter.1 hb
  simp only [Bool.and_eq_true, decide_eq_true_eq] at hka hkb
  refine List.inj_on_of_nodup_map h ha hb ?_
  obtain ⟨⟨ab, ag, al⟩⟩ := a
  obtain ⟨⟨bb, bg, bl⟩⟩ := b
  simp_all

theorem getD_map_range (g : Nat → Nat) : ∀ l < ((List.range 128).map g).length, ((List.range 128).map g).getD l 0 = g l := by
  intro l hl
  rw [List.getD_eq_getElem?_getD, List.getElem?_eq_getElem hl]
  simp

theorem reductionScans : Rule.ReductionScans := by
  refine ⟨fun g y hg hy => ⟨(foldl_lredStep g _ y _ fun _ _ => rfl).1.trans hy, fun l hl => ?_⟩,
    fun f => ⟨_, lred_results f, fun u x th hwf hth => ?_, fun u x th hty hth hn hlanes hop => ?_⟩⟩
  · rw [lredScan_getD g (fun _ _ => rfl) (hy ▸ hl), scanned_eq_span hg _ hl, span_eq_foldl g y l (hy ▸ hl)]
  · obtain ⟨hmod, -⟩ := modOk_and_accepts_of_wf rfl rfl hwf
    dsimp only
    rw [combination_eq hmod]
    refine ⟨fun hs hl => ?_, fun hs => ?_⟩
    · rw [lred_value _ _ hth, filter_key_eq_polling, if_pos hs]
      exact lredScan_getD _ (getD_map_range _) (by simpa using hl)
    · rw [lred_value _ _ hth, filter_key_eq_polling, if_neg (by simp [hs])]
      exact lredScan_getD _ (getD_map_range _) (by simp)
  · have hg : lredOp (Forms.low3 f.mod) (Forms.ty f.mod) = fun a b => (a + b) % 2 ^ 32 := by
      rw [hop]
      exact funext₂ fun a b => if_neg hty
    have he : lredIdentity (Forms.low3 f.mod) (Forms.ty f.mod) = 0 := by
      rw [hop]
      exact if_neg hty
    have hsum : ∀ l < 128, (lredScan (lredOp (Forms.low3 f.mod) (Forms.ty f.mod)) ((List.range 128).map fun l =>
        laneTerm (polling x th) (fun th => if Forms.ty f.mod = 9 then u.srcFl th f.opa fp32 else u.src th f.opa 1 % 2 ^ 32)
          (lredIdentity (Forms.low3 f.mod) (Forms.ty f.mod)) l)).getD l 0 =
        (((polling x th).filter fun t => decide (t.tid.lane < l + 1)).map fun t => u.src t f.opa 1 % 2 ^ 32).sum % 2 ^ 32 := fun l hl => by
      rw [lredScan_getD _ (getD_map_range _) (by simpa using hl), hg, he]
      simp only [if_neg hty]
      rw [scanned_eq_span (fun a b c => by simp [Nat.add_assoc]) _ hl, span_add _ ?_, sum_laneTerm _ _ (lanes_nodup th hn)]
      unfold laneTerm
      split
      · exact Nat.mod_lt _ (by decide)
      · decide
    rw [lred_value _ _ hth, filter_key_eq_polling]
    by_cases hs : Forms.sat f.mod = true
    · simp only [hs, if_true]
      rw [hsum _ (hlanes th hth)]
      simp only [Nat.lt_succ_iff]
      rfl
    · have hall : (polling x th).filter (fun t => decide (t.tid.lane < 127 + 1)) = polling x th :=
        List.filter_eq_self.2 fun t ht => by simpa using hlanes t (List.mem_of_mem_filter ht)
      simp only [hs]
      rw [if_neg (by decide), hsum 127 (by decide), hall]
      rfl

/-! ### Moves between lanes (R142 to R144, R146) -/

/-- The lane that LSHF reads, as R143 gives it. -/
theorem lshfSource_eq (dir n l : Nat) (hn : n < 128) : lshfSource dir n l =
    if dir = 0 then (if l < n then l else l - n) else if dir = 1 then (if 127 < l + n then l else l + n)
    else if dir = 2 then (l + (128 - n)) % 128 else (l + n) % 128 := by
  match dir with
  | 0 => by_cases h : n ≤ l <;> simp [lshfSource, h, Nat.not_lt.2, Nat.not_le.1]
  | 1 => by_cases h : l + n < 128 <;> simp [lshfSource, h, show (127 < l + n) ↔ ¬l + n < 128 by omega]
  | 2 => simp only [lshfSource]; congr 1; omega
  | n + 3 => rfl

/-- An instruction across lanes that writes what each lane's source supplies, as one result. -/
theorem across_putAll {i : Instr} {f : Insn} {s : State} {ig : IssueGroup} {act : List Thread} {src : State → Thread → Tid × Use}
    {regs lat : Nat} (hx : exec i s = issueWith i f (fun s x => acrossLanes s x (src s) fun vs =>
      .done (s.putAll x regs lat vs) (.at_ (x.due lat)) false) s) (h : Admits s i f ig act)
    (hs : ∀ th ∈ act, (s.acting (s.about i f ig act)).supply (src (s.acting (s.about i f ig act)) th).1
      (src (s.acting (s.about i f ig act)) th).2 ≠ none) :
    exec i s = .next (((s.acting (s.about i f ig act)).putAll (s.about i f ig act) regs lat (act.map fun th => (th,
      ((s.acting (s.about i f ig act)).supply (src (s.acting (s.about i f ig act)) th).1
        (src (s.acting (s.about i f ig act)) th).2).getD 0))).closed (s.about i f ig act) i (.at_ ((s.about i f ig act).due lat)) false) := by
  rw [hx]
  exact issueWith_done h (acrossLanes_full hs) (by simp [h.sound]) (by simp [h.untraced])

theorem lxch_moves {f : Insn} {s : State} {ig : IssueGroup} {act : List Thread} (h : Admits s (.lxch f) f ig act)
    (hs : ∀ th ∈ act, (s.acting (s.about (.lxch f) f ig act)).supply (sibling th (th.tid.lane ^^^ 2 ^ Forms.low3 f.mod))
      (lxchOwn f (th.tid.lane ^^^ 2 ^ Forms.low3 f.mod)) ≠ none) :
    let x := s.about (.lxch f) f ig act
    let u := s.acting x
    let lat := if 5 ≤ Forms.low3 f.mod then 10 else 8
    exec (.lxch f) s = .next (((act.map fun th => (th, (u.supply (sibling th (th.tid.lane ^^^ 2 ^ Forms.low3 f.mod))
      (lxchOwn f (th.tid.lane ^^^ 2 ^ Forms.low3 f.mod))).getD 0)).foldl
      (fun s p => s.putDst x p.1 (lxchOwn f p.1.tid.lane).op (modRegs f) p.2 lat) u).closed x (.lxch f) (.at_ (x.due lat)) false) := by
  rw [show exec (.lxch f) s = execLxch f s from rfl, execLxch]
  refine issueWith_done h (acrossLanes_full hs) ?_ ?_
  · rw [foldl_frame State.broken _ fun s p => by simp]; simp [h.sound]
  · rw [foldl_frame State.debug _ fun s p => by simp]; simp [h.untraced]

/-- The parts of the state that no lane instruction touches. -/
def State.outside (s : State) := (s.broken, s.debug, s.vault, s.pool, s.locals)

/-- What RDLANE can do once its sources have supplied their values. -/
theorem rdlane_goes {f : Insn} {s : State} {ig : IssueGroup} {act : List Thread} (h : Admits s (.rdlane f) f ig act)
    (hs : ∀ th ∈ act, (s.acting (s.about (.rdlane f) f ig act)).supply (rdlaneSource th ((s.acting (s.about (.rdlane f) f ig act)).src th f.opb 1))
      (laneSrc f) ≠ none) :
    ∃ t, exec (.rdlane f) s = .next t ∧ t.vault = s.vault ∧ t.pool = s.pool ∧ t.locals = s.locals := by
  have hact : ∃ u : State, u.outside = (s.acting (s.about (.rdlane f) f ig act)).outside ∧
      exec (.rdlane f) s = conclude (s.taken.settleAct (s.about (.rdlane f) f ig act) (.rdlane f) (.done u .later false)) := by
    rw [show exec (.rdlane f) s = execRdlane f s from rfl, execRdlane, issueWith_go h, acrossLanes_full hs]
    extract_lets own near far pending s0 s1 s2 s3 s4
    have h2 : s2.outside = (s.acting (s.about (.rdlane f) f ig act)).outside :=
      (foldl_frame State.outside _ (fun s p => by simp [State.outside]) _ _).trans (by simp [s1, s0, State.outside])
    split
    · refine ⟨_, ?_, rfl⟩
      refine (foldl_frame State.outside _ (fun s p => by simp [State.outside]) _ _).trans ?_
      split
      · exact (by simp [State.outside] : _ = _).trans h2
      · exact h2
    · refine ⟨s4, ?_, rfl⟩
      refine (foldl_frame State.outside _ (fun s p => by simp [State.outside]) _ _).trans ?_
      exact (foldl_frame State.outside _ (fun s p => by simp [State.outside]) _ _).trans h2
  obtain ⟨u, hu, hx⟩ := hact
  obtain ⟨hb, hd, hv, hp, hl⟩ : u.broken = none ∧ u.debug = .none ∧ u.vault = s.vault ∧ u.pool = s.pool ∧ u.locals = s.locals := by
    simpa [State.outside, h.sound, h.untraced] using hu
  refine ⟨u.closed (s.about (.rdlane f) f ig act) (.rdlane f) .later false, ?_, by simp [hv], by simp [hp], by simp [hl]⟩
  rw [hx]
  show conclude (((u.traceIssue _ _ _).finish _ _ _ _).noteIssue _ _) = _
  rw [State.traceIssue_off hd]
  exact conclude_next (by simpa [State.closed] using hb)

/-- RDLANE where every source lane is of the reader's own home group. -/
theorem rdlane_near {f : Insn} {s : State} {ig : IssueGroup} {act : List Thread} (h : Admits s (.rdlane f) f ig act)
    (hs : ∀ th ∈ act, (s.acting (s.about (.rdlane f) f ig act)).supply (rdlaneSource th ((s.acting (s.about (.rdlane f) f ig act)).src th f.opb 1))
      (laneSrc f) ≠ none)
    (hown : ∀ th ∈ act, (rdlaneSource th ((s.acting (s.about (.rdlane f) f ig act)).src th f.opb 1)).group = th.tid.group) :
    let x := s.about (.rdlane f) f ig act
    let u := s.acting x
    exec (.rdlane f) s = .next ((((act.foldl (fun s th => s.flagAt ig.core th.tid x.flag (x.due 10)) (u.takeWindows (.rdlane f) act (x.due 10))).putAll
      x (modRegs f) 10 (act.map fun th => (th, (u.supply (rdlaneSource th (u.src th f.opb 1)) (laneSrc f)).getD 0)))).closed
        x (.rdlane f) .later false) := by
  intro x u
  rw [show exec (.rdlane f) s = execRdlane f s from rfl, execRdlane]
  refine issueWith_done h ((acrossLanes_full hs).trans ?_) ?_ ?_
  · extract_lets own near far pending s0 s1 s2 s3 s4
    have hnear : near = act.map fun th => (th, (u.supply (rdlaneSource th (u.src th f.opb 1)) (laneSrc f)).getD 0) :=
      List.filter_eq_self.2 fun p hp => by
        obtain ⟨th, ht, rfl⟩ := List.mem_map.1 hp
        simpa [own] using hown th ht
    have hfar : far = [] := List.filter_eq_nil_iff.2 fun p hp => by
        obtain ⟨th, ht, rfl⟩ := List.mem_map.1 hp
        simpa [own] using hown th ht
    have h2 : s2 = act.foldl (fun s th => s.flagAt ig.core th.tid x.flag (x.due 10)) (u.takeWindows (.rdlane f) act (x.due 10)) := by
      simp only [s2, s1, hnear, List.map_map, List.foldl_map, Function.comp_def, List.map_id']
      rfl
    rw [← h2, ← hnear]
    have hs4 : s4 = near.foldl (fun s p => s.putDst x p.1 f.opd (modRegs f) p.2 10) s2 := by simp only [s4, hfar, s3]; rfl
    split
    · next r m th v rest hopd hvs =>
      have hown' : own th = true := by
        have hm : (th, v) ∈ act.map fun th => (th, (u.supply (rdlaneSource th (u.src th f.opb 1)) (laneSrc f)).getD 0) := hvs ▸ List.mem_cons_self
        obtain ⟨a, ha, he⟩ := List.mem_map.1 hm
        obtain rfl : a = th := congrArg Prod.fst he
        simpa [own] using hown a ha
      have hput : s2.putAll x (modRegs f) 10 near = s2.putUni x th r.toNat (modRegs f) v 10 := by
        rw [hnear.trans hvs, State.putAll, show x.f.opd = _ from hopd]
      rw [hput, hfar, if_pos hown']
      rfl
    · next hno =>
      have hput : s2.putAll x (modRegs f) 10 near = near.foldl (fun s p => s.putDst x p.1 f.opd (modRegs f) p.2 10) s2 := by
        unfold State.putAll
        split
        · next r m hopd =>
          obtain ⟨a, l, hal⟩ := List.exists_cons_of_ne_nil h.active
          exact absurd (by rw [show x.act = act from rfl, hal]; rfl) (hno r m _ _ _ hopd)
        · rfl
      rw [hs4, hput]
  · rw [State.putAll_broken, foldl_frame State.broken _ fun s p => by simp]; simp [u, h.sound]
  · rw [State.putAll_debug, foldl_frame State.debug _ fun s p => by simp]; simp [u, h.untraced]

theorem laneMoves : Rule.LaneMoves := by
  refine ⟨fun f s ig act h => ?_, fun i f s ig act hi h => ?_, fun f s ig act h => ?_⟩
  · intro k x u src own use lat hs
    have hown : ∀ l, (lxchOwn f l).op = own l := fun l => by
      simp only [lxchOwn, own, k]
      split <;> rfl
    have hlat : lat = if 5 ≤ Forms.low3 f.mod then 10 else 8 := by
      simp only [lat, k]
      split <;> split <;> omega
    rw [hlat, regs_eq_modRegs]
    simp only [← hown]
    exact lxch_moves h hs
  · rw [regs_eq_modRegs]
    rcases hi with rfl | rfl
    · intro x u n lane src use hs
      have hsrc : ∀ th, src th = sibling th (lshfSource (Forms.low3 f.mod) (u.src th f.opb 1 % 128) th.tid.lane) := fun th => by
        rw [lshfSource_eq _ _ _ (Nat.mod_lt _ (by decide))]
        simp [src, lane, n, sibling]
      rw [funext hsrc]
      rw [funext hsrc] at hs
      exact across_putAll (src := fun u th => (sibling th (lshfSource (Forms.low3 f.mod) (u.src th f.opb 1 % 128) th.tid.lane), laneSrc f))
        rfl h hs
    · intro x u n lane src use hs
      have hsrc : ∀ th, src th = sibling th (u.src th f.opb 1 % 128) := fun th => by simp [src, lane, n, sibling]
      rw [funext hsrc]
      rw [funext hsrc] at hs
      exact across_putAll (src := fun u th => (sibling th (u.src th f.opb 1 % 128), laneSrc f)) rfl h hs
  · intro x u sel src use hs
    have huse : use = fun _ => laneSrc f := by simp only [use, regs_eq_modRegs]; rfl
    rw [huse] at hs ⊢
    rw [regs_eq_modRegs]
    exact ⟨rdlane_goes h hs, fun hown => rdlane_near h hs hown⟩

end Sys2Proof.Machine
end


section
/-! PROOFS. The checks of an access through a pointer (R177) and the layout of a pointer (R313). -/

namespace Sys2Proof.Machine

/-! ### Pointers -/

theorem ptrIndex_eq (p : BitVec 64) : ptrIndex p = p.toNat / 2 ^ 44 := by
  have h := p.isLt
  rw [ptrIndex, BitVec.extractLsb'_toNat, Nat.shiftRight_eq_div_pow, Nat.mod_eq_of_lt (by omega)]

theorem ptrGen_eq (p : BitVec 64) : ptrGen p = p.toNat / 2 ^ 40 % 16 := by
  rw [ptrGen, BitVec.extractLsb'_toNat, Nat.shiftRight_eq_div_pow]

theorem ptrOffset_eq (p : BitVec 64) : ptrOffset p = p.toNat % 2 ^ 40 := by
  rw [ptrOffset, BitVec.extractLsb'_toNat, Nat.shiftRight_zero]

theorem toNat_mkPtr {i : Nat} (hi : i < 2 ^ 20) (g o : Nat) : (mkPtr i g o).toNat = i * 2 ^ 44 + g % 16 * 2 ^ 40 + o % 2 ^ 40 := by
  rw [mkPtr, BitVec.toNat_ofNat, Nat.mod_eq_of_lt (by omega)]

theorem pointerLayout {i g o : Nat} (hi : i < 2 ^ 20) (hg : g < 16) (ho : o < 2 ^ 40) :
    ptrIndex (mkPtr i g o) = i ∧ ptrGen (mkPtr i g o) = g ∧ ptrOffset (mkPtr i g o) = o := by
  rw [ptrIndex_eq, ptrGen_eq, ptrOffset_eq, toNat_mkPtr hi]
  refine ⟨?_, ?_, ?_⟩ <;> omega

/-! ### The checks -/

/-- The rights of a view cover those needed, as a mask says it. -/
theorem and_eq_right_iff (rights need : BitVec 4) :
    rights &&& need = need ↔ ∀ b < 4, need.getLsbD b = true → rights.getLsbD b = true := by
  constructor
  · intro h b hb hn
    rw [← h, BitVec.getLsbD_and, Bool.and_eq_true] at hn
    exact hn.1
  · intro h
    refine BitVec.eq_of_getLsbD_eq fun b hb => ?_
    rw [BitVec.getLsbD_and]
    cases hn : need.getLsbD b with
    | false => simp
    | true => simp [h b hb hn]

theorem viewChecks (v : CachedView) (p : BitVec 64) (d : Int) (n al : Nat) (need : BitVec 4) :
    let o : Int := (p.toNat % 2 ^ 40 : Nat) + d
    let live := p.toNat / 2 ^ 44 ≠ 0 ∧ v.live = true ∧ v.gen = p.toNat / 2 ^ 40 % 16
    let aligned := (al : Int) ∣ o
    let within := (v.low : Int) ≤ o ∧ o + n ≤ v.high
    let allowed := ∀ b < 4, need.getLsbD b = true → v.rights.getLsbD b = true
    (live → aligned → within → allowed → checkView v p d n al need = .ok o.toNat) ∧
    (¬live → checkView v p d n al need = .error Cause.staleview) ∧
    (live → ¬aligned → checkView v p d n al need = .error Cause.align) ∧
    (live → aligned → ¬within → checkView v p d n al need = .error Cause.viewbound) ∧
    (live → aligned → within → ¬allowed → checkView v p d n al need = .error Cause.rights) := by
  intro o live aligned within allowed
  have hlive : (ptrIndex p = 0 ∨ v.live = false ∨ v.gen ≠ ptrGen p) ↔ ¬live := by
    simp only [live, ptrIndex_eq, ptrGen_eq, not_and_or, not_not, Bool.not_eq_true]
  have haligned : ((ptrOffset p : Int) + d) % (al : Int) ≠ 0 ↔ ¬aligned := by
    simp only [aligned, o, ptrOffset_eq]
    exact not_congr Int.dvd_iff_emod_eq_zero.symm
  have hwithin : ((ptrOffset p : Int) + d < v.low ∨ (v.high : Int) < (ptrOffset p : Int) + d + n) ↔ ¬within := by
    simp only [within, o, ptrOffset_eq]
    omega
  have hallowed : v.rights &&& need ≠ need ↔ ¬allowed := not_congr (and_eq_right_iff _ _)
  have ho : (ptrOffset p : Int) + d = o := by rw [ptrOffset_eq]
  unfold checkView
  refine ⟨fun h1 h2 h3 h4 => ?_, fun h1 => ?_, fun h1 h2 => ?_, fun h1 h2 h3 => ?_, fun h1 h2 h3 h4 => ?_⟩
  · rw [if_neg fun h => hlive.1 h h1, if_neg fun h => haligned.1 h h2, if_neg fun h => hwithin.1 h h3, if_neg fun h => hallowed.1 h h4, ho]
  · rw [if_pos (hlive.2 h1)]
  · rw [if_neg fun h => hlive.1 h h1, if_pos (haligned.2 h2)]
  · rw [if_neg fun h => hlive.1 h h1, if_neg fun h => haligned.1 h h2, if_pos (hwithin.2 h3)]
  · rw [if_neg fun h => hlive.1 h h1, if_neg fun h => haligned.1 h h2, if_neg fun h => hwithin.1 h h3, if_pos (hallowed.2 h4)]

end Sys2Proof.Machine

namespace Sys2Proof.Proofs
open Machine

/-- Settles O33: the checks one after the other, and the three fields of a pointer. -/
theorem pointerChecks : Obligations.PointerChecks :=
  ⟨fun v p d n al need _ => viewChecks v p d n al need, fun _ _ _ hi hg ho => pointerLayout hi hg ho⟩

end Sys2Proof.Proofs
end


section
/-! PROOFS. What issuing leaves beside the effect: the next PCs, and the index registers that operands with INC advance (R68, R79). -/

namespace Sys2Proof.Machine

/-! ### Advances of an index register (R68) -/

/-- Bits of a register outside IDX stay where IDX is set. -/
theorem getLsbD_xSetIdx (w : Word) (i : Nat) {b : Nat} (hb : b < 32) (hout : b < 16 ∨ 24 ≤ b) : (xSetIdx w i).getLsbD b = w.getLsbD b := by
  have hput : xSetIdx w i = (w &&& ~~~(BitVec.ofNat 32 ((2 ^ 8 - 1) * 2 ^ 16))) ||| BitVec.ofNat 32 ((BitVec.ofNat 32 i).toNat % 2 ^ 8 * 2 ^ 16) := by
    have hi : (BitVec.ofNat 32 i).toNat % 2 ^ 8 = i % 256 := by rw [BitVec.toNat_ofNat]; omega
    have hshift : BitVec.ofNat 32 (i % 256) <<< 16 = BitVec.ofNat 32 (i % 256 * 2 ^ 16) :=
      BitVec.eq_of_toNat_eq (by simp [Nat.shiftLeft_eq])
    rw [hi, ← hshift]
    rfl
  rw [hput]
  exact (put_field w (BitVec.ofNat 32 i) (by decide : 16 + 8 ≤ 32)).2 b hb hout

theorem extract_xSetIdx (w : Word) (i : Nat) {lo n : Nat} (h : lo + n ≤ 16 ∨ 24 ≤ lo ∧ lo + n ≤ 32) :
    (xSetIdx w i).extractLsb' lo n = w.extractLsb' lo n := by
  refine BitVec.eq_of_getLsbD_eq fun b hb => ?_
  rw [BitVec.getLsbD_extractLsb', BitVec.getLsbD_extractLsb', getLsbD_xSetIdx w i (by omega) (by omega)]

/-- A register that can advance: one in mode 0, or with a bound. -/
def xCan (w : Word) : Prop := xMode w = 0 ∨ xBound w ≠ 0

theorem xCan_xSetIdx (w : Word) (i : Nat) : xCan (xSetIdx w i) ↔ xCan w := by
  rw [xCan, xMode, xBound, extract_xSetIdx w i (by decide), extract_xSetIdx w i (by decide)]
  rfl

theorem xAdvance_eq {w : Word} (h : xCan w) : xAdvance w = Rule.advance w ∧ xCan (xAdvance w) := by
  have hset : ∀ k : Int, 0 ≤ k → k < 256 → xSetIdx w k.toNat = (w &&& 0xFF00FFFF) ||| (BitVec.ofNat 32 k.toNat <<< 16) := fun k h0 h1 => by
    rw [xSetIdx, Nat.mod_eq_of_lt (by omega)]
  have hb : xBound w < 256 := BitVec.isLt _
  by_cases hm : xMode w = 0
  · have ha : xAdvance w = xSetIdx w ((xIdx w + xStep w) % 256).toNat := if_pos hm
    refine ⟨?_, ha ▸ (xCan_xSetIdx w _).2 h⟩
    rw [ha, hset _ (Int.emod_nonneg _ (by decide)) (Int.emod_lt_of_pos _ (by decide))]
    simp only [Rule.advance, show (w.extractLsb' 28 2).toNat = 0 from hm, if_true]
    rfl
  · have hbound : xBound w ≠ 0 := h.resolve_left hm
    have ha : xAdvance w = xSetIdx w ((xIdx w + xStep w) % (xBound w : Int)).toNat := (if_neg hm).trans (if_neg hbound)
    refine ⟨?_, ha ▸ (xCan_xSetIdx w _).2 h⟩
    rw [ha, hset _ (Int.emod_nonneg _ (by omega)) (by have := Int.emod_lt_of_pos (xIdx w + xStep w) (show (0 : Int) < xBound w by omega); omega)]
    simp only [Rule.advance, show ¬(w.extractLsb' 28 2).toNat = 0 from hm, if_false]
    rfl

theorem iterate_xAdvance {w : Word} (h : xCan w) (n : Nat) : xAdvance^[n] w = Rule.advances n w := by
  induction n generalizing w with
  | zero => rfl
  | succ n ih =>
    obtain ⟨heq, hcan⟩ := xAdvance_eq h
    rw [Function.iterate_succ_apply, ih hcan, heq]
    rfl

/-! ### The registers that an instruction steps -/

/-- The value a list of steps gives an index register. -/
def steppedTo (l : List (Tid × Nat × Word)) (j : Nat) : Option Word := (l.find? fun p => p.2.1 == j).map (·.2.2)

/-- The step of one operand. -/
def State.step1 (s : State) (f : Insn) (th : Thread) (l : List (Tid × Nat × Word)) (u : Use) : List (Tid × Nat × Word) :=
  match u.op with
  | .idx _ j true _ _ =>
    if destXreg f = some j.toNat then l
    else (th.tid, j.toNat, xAdvance (((l.find? fun p => p.2.1 == j.toNat).map (·.2.2)).getD (s.xreg th j.toNat))) :: l
  | _ => l

theorem State.stepped_eq (s : State) (i : Instr) (f : Insn) (th : Thread) : s.stepped i f th = (usesOf i th.tid.lane).foldl (s.step1 f th) [] := rfl

/-- An operand that steps index register j. -/
def Use.steps (j : Nat) (u : Use) : Bool :=
  match u.op with
  | .idx _ k true _ _ => k.toNat == j
  | _ => false

theorem steps_eq_countP (i : Instr) (lane j : Nat) : Rule.steps i lane j = (usesOf i lane).countP (Use.steps j) := rfl

/-- One operand either leaves the list as it is or puts one step of its lane before it. -/
theorem State.step1_cases (s : State) (f : Insn) (th : Thread) (l : List (Tid × Nat × Word)) (u : Use) :
    (s.step1 f th l u = l ∧ ∀ j, u.steps j = true → destXreg f = some j) ∨
    ∃ k, s.step1 f th l u = (th.tid, k, xAdvance ((steppedTo l k).getD (s.xreg th k))) :: l ∧ destXreg f ≠ some k ∧ ∀ j, u.steps j = true ↔ k = j := by
  obtain ⟨slot, op, regs, rd, wr⟩ := u
  cases op with
  | idx off k inc e m =>
    cases inc with
    | true =>
      by_cases hd : destXreg f = some k.toNat
      · exact .inl ⟨if_pos hd, fun j hj => (by simpa [Use.steps] using hj : k.toNat = j) ▸ hd⟩
      · exact .inr ⟨k.toNat, if_neg hd, hd, fun j => by simp [Use.steps]⟩
    | false => exact .inl ⟨rfl, fun j hj => absurd hj (by simp [Use.steps])⟩
  | vec | uni | pred | tile | acc | xreg | lane | hgrp | flag | imm | lit | none => exact .inl ⟨rfl, fun j hj => absurd hj (by simp [Use.steps])⟩

/-- After the operands `us`, a register that is not the destination has advanced once for each that steps it. -/
theorem steppedTo_foldl (s : State) (f : Insn) (th : Thread) {j : Nat} (hd : destXreg f ≠ some j) (us : List Use) (l : List (Tid × Nat × Word)) :
    steppedTo (us.foldl (s.step1 f th) l) j = if us.countP (Use.steps j) = 0 then steppedTo l j
      else some (xAdvance^[us.countP (Use.steps j)] ((steppedTo l j).getD (s.xreg th j))) := by
  induction us generalizing l with
  | nil => rfl
  | cons u us ih =>
    rw [List.foldl_cons, ih, List.countP_cons]
    rcases s.step1_cases f th l u with ⟨hl, hdest⟩ | ⟨k, hl, -, hk⟩
    · have hu : u.steps j = false := Bool.eq_false_iff.2 fun h => hd (hdest j h)
      rw [hl, hu]
      rfl
    · rw [hl]
      by_cases hkj : k = j
      · subst hkj
        have hto : steppedTo ((th.tid, k, xAdvance ((steppedTo l k).getD (s.xreg th k))) :: l) k =
            some (xAdvance ((steppedTo l k).getD (s.xreg th k))) := by simp [steppedTo]
        rw [hto, (hk k).2 rfl, if_pos rfl, if_neg (Nat.succ_ne_zero _), Function.iterate_succ_apply]
        split
        · next h0 => rw [h0]; rfl
        · rfl
      · have hu : u.steps j = false := Bool.eq_false_iff.2 fun h => hkj ((hk j).1 h)
        have hto : ∀ w, steppedTo ((th.tid, k, w) :: l) j = steppedTo l j := fun w => by simp [steppedTo, hkj]
        rw [hto, hu]
        rfl

/-- Every step of a lane is of the lane, and of a register that an operand steps and that is not the destination. -/
theorem State.mem_stepped {s : State} {i : Instr} {f : Insn} {th : Thread} {p : Tid × Nat × Word} (h : p ∈ s.stepped i f th) :
    p.1 = th.tid ∧ destXreg f ≠ some p.2.1 ∧ Rule.steps i th.tid.lane p.2.1 ≠ 0 := by
  rw [steps_eq_countP]
  rw [State.stepped_eq] at h
  have hgen : ∀ (us : List Use) (l : List (Tid × Nat × Word)), p ∈ us.foldl (s.step1 f th) l →
      p ∈ l ∨ p.1 = th.tid ∧ destXreg f ≠ some p.2.1 ∧ us.countP (Use.steps p.2.1) ≠ 0 := by
    intro us
    induction us with
    | nil => exact fun l h => .inl h
    | cons u us ih =>
      intro l h
      rw [List.countP_cons]
      rcases ih _ h with hl | ⟨h1, h2, h3⟩
      · rcases s.step1_cases f th l u with ⟨he, -⟩ | ⟨k, he, hd, hk⟩
        · exact .inl (he ▸ hl)
        · rcases List.mem_cons.1 (he ▸ hl) with rfl | hl
          · exact .inr ⟨rfl, hd, by rw [(hk k).2 rfl]; simp⟩
          · exact .inl hl
      · exact .inr ⟨h1, h2, by omega⟩
  exact (hgen _ [] h).resolve_left (by simp)

/-! ### Post-increments -/

theorem foldr_set_getD (l : List (Tid × Nat × Word)) (xs : List Word) {j : Nat} (hj : j < xs.length) :
    (l.foldr (fun p xs => xs.set p.2.1 p.2.2) xs).getD j 0 = (steppedTo l j).getD (xs.getD j 0) := by
  have hlen : ∀ l : List (Tid × Nat × Word), (l.foldr (fun p xs => xs.set p.2.1 p.2.2) xs).length = xs.length := fun l => by
    induction l with
    | nil => rfl
    | cons p l ih => rw [List.foldr_cons, List.length_set, ih]
  induction l with
  | nil => rfl
  | cons p l ih =>
    rw [List.foldr_cons, List.getD_eq_getElem?_getD, List.getElem?_set, hlen]
    by_cases hp : p.2.1 = j
    · simp [hp, hj, steppedTo]
    · rw [if_neg hp, ← List.getD_eq_getElem?_getD, ih]
      simp [steppedTo, hp]

theorem foldr_set_getD_other (l : List (Tid × Nat × Word)) (xs : List Word) {j : Nat} (h : ∀ p ∈ l, p.2.1 ≠ j) :
    (l.foldr (fun p xs => xs.set p.2.1 p.2.2) xs).getD j 0 = xs.getD j 0 := by
  induction l with
  | nil => rfl
  | cons p l ih =>
    rw [List.foldr_cons, List.getD_eq_getElem?_getD, List.getElem?_set, if_neg (h p List.mem_cons_self), ← List.getD_eq_getElem?_getD,
      ih fun q hq => h q (List.mem_cons_of_mem _ hq)]

/-- The steps of a thread that is no active lane, and of one that is. -/
theorem filter_steps_eq_nil {s : State} {i : Instr} {f : Insn} {act : List Thread} {t : Tid} (h : ∀ th ∈ act, th.tid ≠ t) :
    (act.flatMap (s.stepped i f)).filter (fun p => decide (p.1 = t)) = [] := by
  rw [List.filter_eq_nil_iff]
  intro p hp
  obtain ⟨th, ht, hp⟩ := List.mem_flatMap.1 hp
  simpa [(State.mem_stepped hp).1] using h th ht

theorem filter_steps_eq_stepped {s : State} {i : Instr} {f : Insn} {act : List Thread} {th : Thread} (hn : (act.map (·.tid)).Nodup) (ht : th ∈ act) :
    (act.flatMap (s.stepped i f)).filter (fun p => decide (p.1 = th.tid)) = s.stepped i f th := by
  have hall : (s.stepped i f th).filter (fun p => decide (p.1 = th.tid)) = s.stepped i f th :=
    List.filter_eq_self.2 fun p hp => by simpa using (State.mem_stepped hp).1
  induction act with
  | nil => cases ht
  | cons a act ih =>
    obtain ⟨ha, hn⟩ := List.nodup_cons.1 hn
    rw [List.flatMap_cons, List.filter_append]
    rcases List.mem_cons.1 ht with rfl | hin
    · have hrest : ∀ b ∈ act, b.tid ≠ th.tid := fun b hb he => ha (List.mem_map.2 ⟨b, hb, he⟩)
      rw [hall, filter_steps_eq_nil hrest, List.append_nil]
    · have hat : ∀ b ∈ [a], b.tid ≠ th.tid := fun b hb he => by
        obtain rfl := List.mem_singleton.1 hb
        exact ha (List.mem_map.2 ⟨th, hin, he.symm⟩)
      have hnil := filter_steps_eq_nil (s := s) (i := i) (f := f) hat
      rw [List.flatMap_cons, List.flatMap_nil, List.append_nil] at hnil
      rw [hnil, List.nil_append, ih hn hin]

/-! ### Threads after the issue -/

@[simp] theorem State.takeWindows_seen (s : State) (i : Instr) (act : List Thread) (due : Nat) (t : Tid) : (s.takeWindows i act due).seen t = s.seen t := by
  unfold State.takeWindows
  split
  · rfl
  · refine foldl_frame (fun s => s.seen t) _ (fun s p => ?_) _ _
    dsimp only
    split <;> rfl

@[simp] theorem State.flagAt_seen (s : State) (c : Nat) (o : Tid) (n : Option Nat) (due : Nat) (t : Tid) : (s.flagAt c o n due).seen t = s.seen t := by
  cases n <;> rfl

/-- A thread that goes on to the next instruction, unless the effect has set its PC. -/
def Thread.advanced (x : Exec) (moved : Bool) (a : Thread) : Thread :=
  if moved = false ∧ a.tid ∈ x.ig.members then { a with pc := x.ig.pc + 12 } else a

theorem Thread.advanced_tid (x : Exec) (moved : Bool) (a : Thread) : (a.advanced x moved).tid = a.tid := by
  unfold Thread.advanced
  split <;> rfl

/-- A thread, its marks aside, with its next PC and its index registers as issuing leaves them. -/
def Thread.issued (x : Exec) (moved : Bool) (a : Thread) : Thread :=
  if (x.act.map (·.tid)).contains a.tid then postIncrement x.steps (a.advanced x moved) else a.advanced x moved

theorem State.closed_seen_issued (u : State) (x : Exec) (i : Instr) (c : Completes) (moved : Bool) (t : Tid) :
    (u.closed x i c moved).seen t = (u.seen t).map (Thread.issued x moved) := by
  have hadv : (if moved then u else u.advance x).seen t =
      (u.seen t).map (Thread.advanced x moved) := by
    cases moved with
    | true =>
      have hid : Thread.advanced x true = id := funext fun a => if_neg (by simp)
      rw [hid, Option.map_id, id_eq, if_pos rfl]
    | false =>
      refine (State.seen_modThreads (f := fun a => { a with pc := x.ig.pc + 12 }) (fun _ => rfl) (fun _ => rfl) t).trans ?_
      refine Option.map_congr fun a ha => ?_
      obtain ⟨b, hb, rfl⟩ := State.thread?_of_seen (Option.mem_def.1 ha)
      simp [Thread.advanced, Thread.unmarked_tid, State.tid_of_thread? hb]
  have hinc : ∀ s : State, (s.modThreads (x.act.map (·.tid)) (postIncrement x.steps)).seen t = (s.seen t).map fun a =>
      if (x.act.map (·.tid)).contains t then postIncrement x.steps a else a := fun s =>
    State.seen_modThreads (f := postIncrement x.steps) (fun _ => rfl) (fun _ => rfl) t
  have hflags : ∀ (s : State) (due : Nat), (x.act.foldl (fun s t => s.flagAt x.ig.core t.tid x.flag due) s).seen t = s.seen t := fun s due =>
    foldl_frame (fun s => s.seen t) _ (fun s a => by simp) _ _
  have hfin : (u.finish x i c moved).seen t = (((if moved then u else u.advance x).seen t).map fun a =>
      if (x.act.map (·.tid)).contains t then postIncrement x.steps a else a) := by
    unfold State.finish
    cases completion i x.f c <;> cases x.f.yld <;> simp [hflags, hinc]
  rw [State.closed, State.noteIssue_seen, hfin, hadv, Option.map_map]
  refine Option.map_congr fun a ha => ?_
  obtain ⟨b, hb, rfl⟩ := State.thread?_of_seen (Option.mem_def.1 ha)
  have htid : b.unmarked.tid = t := (Thread.unmarked_tid b).trans (State.tid_of_thread? hb)
  simp only [Thread.issued, Function.comp_apply, htid]

/-- The index registers of a thread after the issue. -/
theorem Thread.issued_xs (x : Exec) (moved : Bool) (a : Thread) : (a.issued x moved).xs =
    if (x.act.map (·.tid)).contains a.tid then (x.steps.filter fun p => decide (p.1 = a.tid)).foldr (fun p xs => xs.set p.2.1 p.2.2) a.xs else a.xs := by
  unfold Thread.issued postIncrement
  rw [Thread.advanced_tid]
  unfold Thread.advanced
  split <;> split <;> simp_all

/-- What else of a thread the issue leaves. -/
theorem Thread.issued_rest (x : Exec) (moved : Bool) (a : Thread) :
    (a.issued x moved).pc = (if moved = false ∧ a.tid ∈ x.ig.members then x.ig.pc + 12 else a.pc) ∧
    a.issued x moved = { a with pc := (a.issued x moved).pc, xs := (a.issued x moved).xs } := by
  unfold Thread.issued postIncrement Thread.advanced
  split <;> split <;> simp_all

theorem steps_of_no_destination {s : State} {i : Instr} {f : Insn} {th : Thread} {j : Nat}
    (h : Rule.steps i th.tid.lane j = 0 ∨ ∃ k m, f.opd = .xreg k m ∧ k.toNat = j) : ∀ p ∈ s.stepped i f th, p.2.1 ≠ j := by
  rintro p hp rfl
  obtain ⟨-, hd, hs⟩ := State.mem_stepped hp
  rcases h with h | ⟨k, m, hopd, hk⟩
  · exact hs h
  · exact hd (by simp [destXreg, hopd, hk])

end Sys2Proof.Machine

namespace Sys2Proof.Proofs
open Machine

/-- Settles O22: registers and memories by the frame of the issue, threads by what it leaves of each, index registers step by step. -/
theorem issueFrame : Obligations.IssueFrame := by
  intro s u x i c moved hsteps t
  obtain ⟨hregs, hvault, hpool, hblocks, -⟩ := State.files_eq_iff.1 (State.closed_files u x i c moved)
  refine ⟨hregs, ⟨hvault, hpool, State.closed_locals ..⟩, State.closed_ctxs .., State.closed_launches .., hblocks, State.closed_queues ..,
    fun tid a ha => ?_⟩
  obtain rfl : a.tid = tid := State.tid_of_thread? ha
  have hseen : t.seen a.tid = some (a.unmarked.issued x moved) := by
    rw [State.closed_seen_issued, State.seen_of_thread? ha]
    rfl
  obtain ⟨b, hb, hba⟩ := State.thread?_of_seen hseen
  obtain ⟨hpc, hrest⟩ := Thread.issued_rest x moved a.unmarked
  have hxs := Thread.issued_xs x moved a.unmarked
  rw [← hba] at hpc hrest hxs
  have hf : ∀ {α : Type} (g : Thread → α), g b.unmarked = g { a.unmarked with pc := b.unmarked.pc, xs := b.unmarked.xs } := fun g => congrArg g hrest
  refine ⟨b, hb, hpc, hf (·.preds), hf (·.fpflags), hf (·.life), hf (·.handler), hf (·.trapCause), hf (·.trapPc), hf (·.trapInfo), hf (·.clkHi),
    fun hno => ?_, fun j hj => ?_, fun th hth ht hn hlen j hj hne hdest hcan => ?_⟩
  · have hout : (x.act.map (·.tid)).contains a.unmarked.tid = false := by
      simpa [List.contains_iff_mem, Thread.unmarked_tid] using hno
    rwa [hout, if_neg (by decide)] at hxs
  · by_cases hin : (x.act.map (·.tid)).contains a.unmarked.tid = true
    · rw [if_pos hin] at hxs
      refine (congrArg (·.getD j 0) hxs).trans (foldr_set_getD_other _ _ fun p hp => ?_)
      rw [hsteps] at hp
      obtain ⟨hp, hpt⟩ := List.mem_filter.1 hp
      obtain ⟨th, -, hp⟩ := List.mem_flatMap.1 hp
      have hpt : p.1 = a.tid := of_decide_eq_true hpt
      have hlane : th.tid = a.tid := (State.mem_stepped hp).1.symm.trans hpt
      exact steps_of_no_destination (hlane ▸ hj) p hp
    · rw [if_neg hin] at hxs
      exact congrArg (·.getD j 0) hxs
  · have hin : (x.act.map (·.tid)).contains a.unmarked.tid = true := by
      rw [List.contains_iff_mem]
      exact List.mem_map.2 ⟨th, hth, ht⟩
    have hd : destXreg x.f ≠ some j := by
      unfold destXreg
      split
      · next k m hopd => simpa using hdest k m hopd
      · simp
    rw [if_pos hin, hsteps, Thread.unmarked_tid, ← ht, filter_steps_eq_stepped hn hth] at hxs
    refine (congrArg (·.getD j 0) hxs).trans ((foldr_set_getD _ _ (hlen ▸ hj)).trans ?_)
    rw [← ht] at hne ⊢
    rw [State.stepped_eq, steppedTo_foldl s x.f th hd, ← steps_eq_countP, if_neg hne, Option.getD_some]
    exact iterate_xAdvance (by rw [xCan]; exact hcan.imp id fun h0 he => h0 (BitVec.eq_of_toNat_eq he)) _

end Sys2Proof.Proofs
end


section
/-! PROOFS. BRX, RET and CALL, and the threads that a jump leaves (R151 to R153). -/

namespace Sys2Proof.Machine

theorem exec_call (f : Insn) : Effects (.call f) f (fun x => .at_ (x.due 4)) true fun u x =>
    (u.putAll x 1 4 (x.act.map fun th => (th, (x.ig.pc + 12).toNat))).jump x fun th =>
      if f.mod.getLsbD 0 then u.src32 th f.opa else relativeTarget u x th :=
  effects_of (fun _ => rfl) (fun _ _ => rfl) (fun _ _ => State.putAll_broken ..) (fun _ _ => State.putAll_debug ..)

theorem jump_thread (u : State) (x : Exec) (target : Thread → Word) (tid : Tid) (a : Thread) (h : u.thread? tid = some a) :
    ∃ b, (u.jump x target).thread? tid = some b ∧ b = { a with pc := b.pc } ∧
      (tid ∉ x.ig.members → b.pc = a.pc) ∧ (tid ∈ x.ig.members → (∀ th ∈ x.act, th.tid ≠ tid) → b.pc = x.ig.pc + 12) ∧
      (∀ th, tid ∈ x.ig.members → x.act.find? (fun th => decide (th.tid = tid)) = some th → b.pc = target th) := by
  obtain rfl : a.tid = tid := State.tid_of_thread? h
  have hb : (u.jump x target).thread? a.tid = some (if x.ig.members.contains a.tid then a.jumped x target else a) := by
    refine (State.modThreads_thread? (f := Thread.jumped x target) (fun _ => rfl) a.tid).trans ?_
    rw [h, Option.map_some]
  refine ⟨_, hb, ?_, fun hn => ?_, fun hm hno => ?_, fun th hm hf => ?_⟩
  · split <;> rfl
  · rw [if_neg (by simpa using hn)]
  · rw [if_pos (by simpa using hm), Thread.jumped_pc_of_inactive hno]
  · rw [if_pos (by simpa using hm)]
    simp only [Thread.jumped, hf]

end Sys2Proof.Machine

namespace Sys2Proof.Proofs
open Machine

/-- Settles O26: the targets of the three branches, and what a jump changes of a thread. -/
theorem branches : Obligations.Branches := by
  refine ⟨fun i f hi => ?_, fun f hf => ?_, jump_thread⟩
  · rcases hi with rfl | rfl
    · exact effects_of (fun _ => rfl) (fun _ _ => rfl) (fun _ _ => rfl) (fun _ _ => rfl)
    · exact effects_of (fun _ => rfl) (fun _ _ => rfl) (fun _ _ => rfl) (fun _ _ => rfl)
  · intro s ig act h
    have htarget : (fun th => if f.mod.getLsbD 0 then (s.acting (s.about (.call f) f ig act)).src32 th f.opa
        else relativeTarget (s.acting (s.about (.call f) f ig act)) (s.about (.call f) f ig act) th) = fun th =>
        if f.mod.getLsbD 0 then (s.acting (s.about (.call f) f ig act)).src32 th f.opa
          else (s.about (.call f) f ig act).ig.pc + 12 + 12 * Rule.offset f.opa := by
      funext th
      rcases hf with hm | hc
      · simp only [hm, if_true]
      · rw [relativeTarget_of_constant hc _ rfl]
    rw [exec_call f s ig act h]
    dsimp only
    rw [htarget]

end Sys2Proof.Proofs
end


section
/-! PROOFS. EXIT, YIELD and BKPT, and the threads that a stop leaves (R154, R155, R160). -/

namespace Sys2Proof.Machine

/-! ### EXIT -/

@[simp] theorem State.exitThread_files (s : State) (t : Tid) : (s.exitThread t).files = s.files := by
  cases ht : s.thread? t with
  | none => simp only [State.exitThread, ht]
  | some a =>
    cases hb : s.block? t.block with
    | none => rw [State.exitThread_of_no_block hb]
    | some b =>
      obtain ⟨u, hu, -, hfiles⟩ := State.exitThread_eq ht hb
      rw [hu, State.modThread_eq_modThreads, State.modThreads_files, hfiles]

@[simp] theorem State.exitThreads_files (s : State) (ts : List Tid) : (s.exitThreads ts).files = s.files :=
  foldl_frame State.files _ (fun s t => s.exitThread_files t) _ _

theorem exit_effects (f : Insn) : Effects (.exit f) f (fun _ => .atIssue) false fun u x => u.exitThreads (x.act.map (·.tid)) := by
  refine effects_of (fun _ => rfl) (fun _ _ => rfl) (fun u x => ?_) (fun u x => ?_)
  · obtain ⟨-, -, -, -, hb, -⟩ := State.files_eq_iff.1 (u.exitThreads_files (x.act.map (·.tid)))
    exact hb
  · obtain ⟨-, -, -, -, -, hd⟩ := State.files_eq_iff.1 (u.exitThreads_files (x.act.map (·.tid)))
    exact hd

/-- A barrier of the block loses the thread that exits. -/
theorem exitBar_eq (s : State) (core : Nat) (th : Thread) (x : Nat × Nat) :
    s.exitBar core th x = s.putBar core x.2 (if (x.1, BitVec.ofNat 32 (s.bar core x.2).phase) ∈ th.arrivals then
      { s.bar core x.2 with deferred := (s.bar core x.2).deferred + 1 } else { s.bar core x.2 with expected := (s.bar core x.2).expected - 1 }).settle := by
  simp only [State.exitBar, Thread.arrivedIn, List.contains_iff_mem]

theorem exited_thread {s : State} {th : Thread} {b : Block} (ht : s.thread? th.tid = some th) (hb : s.block? th.tid.block = some b) :
    ∃ th', (s.exitThread th.tid).thread? th.tid = some th' ∧ th'.life = .exited ∧ th'.blocked = none ∧
      (s.exitThread th.tid).locals = (b.barriers.foldl (fun s x => s.exitBar b.core th x) s).locals := by
  obtain ⟨u, hu, hthreads, -⟩ := State.exitThread_eq ht hb
  refine ⟨th.ended, ?_, rfl, rfl, ?_⟩
  · rw [hu, State.modThread_eq_modThreads, State.modThreads_thread? (f := Thread.ended) (fun _ => rfl), State.thread?, hthreads]
    have ht' : s.threads.find? (fun a => decide (a.tid = th.tid)) = some th := ht
    rw [ht']
    simp
  · simp only [State.exitThread, ht, hb]
    rfl

/-! ### Threads under what a unit writes -/

@[simp] theorem State.break_threads (s : State) (f : Fault) : (s.break f).threads = s.threads := by
  unfold State.break
  split <;> rfl
@[simp] theorem State.setMem_threads (s : State) (p : PAddr) (m : Sparse 8) : (s.setMem p m).threads = s.threads := by cases p <;> rfl
@[simp] theorem State.setPoison_threads (s : State) (p : PAddr) (l : List Nat) : (s.setPoison p l).threads = s.threads := by cases p <;> rfl
@[simp] theorem State.noteWrite_threads (s : State) (p : PAddr) (n : Nat) : (s.noteWrite p n).threads = s.threads := rfl

@[simp] theorem State.write_threads (s : State) (p : PAddr) (bs : List Byte) : (s.write p bs).threads = s.threads := by
  unfold State.write
  split
  · simp
  · split <;> simp

@[simp] theorem State.touch_threads (s : State) (p : PAddr) (n : Nat) : (s.touch p n).threads = s.threads := by
  unfold State.touch
  split
  · rfl
  · split <;> simp

@[simp] theorem State.copyRun_threads (s : State) (src dst : PAddr) (n : Nat) : (s.copyRun src dst n).threads = s.threads := by
  unfold State.copyRun
  split <;> simp

@[simp] theorem State.putPte_threads (s : State) (l : Leaf) (e : Pte) : (s.putPte l e).threads = s.threads :=
  foldl_frame State.threads _ (fun s i => State.write_threads s _ _) _ _

theorem State.copyOnWrite_threads {s t : State} {c : Ctx} {obj : Nat} {l : Leaf} (h : s.copyOnWrite c obj l = some t) : t.threads = s.threads := by
  unfold State.copyOnWrite at h
  dsimp only at h
  split at h
  · rw [← Option.some.inj h]
  · split at h
    · rw [← Option.some.inj h]
    · split at h
      · exact absurd h (by simp)
      · rw [← Option.some.inj h]
        simp [State.modCtx]

theorem State.beforeWrite_threads {s t : State} {c : Ctx} {obj off n : Nat} {p : PAddr} (h : s.beforeWrite c obj off n = some (t, p)) :
    t.threads = s.threads := by
  unfold State.beforeWrite at h
  split at h
  · split at h
    · exact absurd h (by simp)
    · next u hu =>
      split at h
      · obtain ⟨rfl, -⟩ := Prod.mk.inj (Option.some.inj h)
        have hthreads := State.copyOnWrite_threads hu
        split <;> simp [hthreads]
      · exact absurd h (by simp)
  · exact absurd h (by simp)

@[simp] theorem State.unitPut_threads (s : State) (ctx obj dev fuel off : Nat) (bs : List Byte) :
    (s.unitPut ctx obj dev fuel off bs).threads = s.threads := by
  induction fuel generalizing s off bs with
  | zero => rfl
  | succ fuel ih =>
    unfold State.unitPut
    dsimp only
    split
    · rfl
    · rw [ih]
      rfl

theorem State.unitWriteFrom_threads {s t : State} {c : Ctx} {obj fuel off : Nat} {bs : List Byte} (h : s.unitWriteFrom c obj fuel off bs = some t) :
    t.threads = s.threads := by
  induction fuel generalizing s off bs with
  | zero => exact absurd h (by simp [State.unitWriteFrom])
  | succ fuel ih =>
    unfold State.unitWriteFrom at h
    split at h
    · dsimp only at h
      split at h
      · next u p hu =>
        have hthreads := State.beforeWrite_threads hu
        split at h
        · rw [← Option.some.inj h, State.write_threads, hthreads]
        · rw [ih h, State.write_threads, hthreads]
      · exact absurd h (by simp)
    · split at h
      · exact absurd h (by simp)
      · rw [← Option.some.inj h, State.unitPut_threads]
    · exact absurd h (by simp)

theorem State.ptrWrite_threads {s t : State} {c : Ctx} {p : BitVec 64} {bs : List Byte} (h : s.ptrWrite c p bs = some t) : t.threads = s.threads := by
  unfold State.ptrWrite State.unitWrite at h
  split at h
  · exact absurd h (by simp)
  · exact State.unitWriteFrom_threads h

theorem State.ptrWrite_getD_threads (s : State) (c : Ctx) (p : BitVec 64) (bs : List Byte) : ((s.ptrWrite c p bs).getD s).threads = s.threads := by
  cases h : s.ptrWrite c p bs with
  | none => rfl
  | some t => exact State.ptrWrite_threads h

@[simp] theorem State.putSlots_threads (s : State) (c : Ctx) (ring : BitVec 64) (entries i : Nat) (bs : List (List Byte)) :
    (s.putSlots c ring entries i bs).threads = s.threads := by
  induction bs generalizing s i with
  | nil => rfl
  | cons b bs ih =>
    unfold State.putSlots
    split
    · next t h => rw [ih, State.ptrWrite_threads h]
    · exact ih _ _

theorem State.traceBytes_threads (s : State) (ctx : Nat) (r : List Byte) : (s.traceBytes ctx r).threads = s.threads := by
  unfold State.traceBytes
  split
  · rfl
  · split
    · rfl
    · split
      · rfl
      · split
        · rfl
        · extract_lets
          split
          · exact (State.ptrWrite_getD_threads ..).trans (State.putSlots_threads ..)
          · exact State.ptrWrite_getD_threads ..

@[simp] theorem State.trace_threads (s : State) (kind : Nat) (t : Tid) (whole : Bool) (pc : Word) (words : List Word) :
    (s.trace kind t whole pc words).threads = s.threads := by
  unfold State.trace
  extract_lets
  exact State.traceBytes_threads ..

/-! ### BKPT -/

@[simp] theorem State.putCursor_threads (s : State) (o : PlaceOp) (bs : List Byte) : (s.putCursor o bs).threads = s.threads := by
  unfold State.putCursor
  split <;> rfl

@[simp] theorem State.markPlaces_threads (s : State) (pick : PlaceOp → Bool) (state : Nat) : (s.markPlaces pick state).threads = s.threads := by
  unfold State.markPlaces
  exact foldl_frame State.threads _ (fun s o => State.putCursor_threads s o _) _ _

@[simp] theorem State.freezeWith_threads (s : State) (ig : IssueGroup) : (s.freezeWith ig).threads = s.threads := by
  unfold State.freezeWith
  split
  · exact State.markPlaces_threads ..
  · rfl

theorem State.seen_of_threads {s t : State} (h : t.threads = s.threads) (i : Tid) : t.seen i = s.seen i := by
  simp only [State.seen, State.thread?, h]

@[simp] theorem State.settleResults_seen (s : State) (core : Nat) (ts : List Tid) (t : Tid) : (s.settleResults core ts).seen t = s.seen t := by
  unfold State.settleResults
  exact foldl_frame (fun s => s.seen t) _ (fun s l => State.complete_seen s _ _ t) _ _

/-- What is done to threads is seen apart from the marks it sets. -/
theorem State.seen_modThreads_apart {s : State} {ts : List Tid} {f g : Thread → Thread} (hf : ∀ a, (f a).tid = a.tid)
    (hu : ∀ a, (f a).unmarked = g a.unmarked) (t : Tid) :
    (s.modThreads ts f).seen t = (s.seen t).map fun a => if ts.contains t then g a else a := by
  simp only [State.seen, State.modThreads_thread? hf, Option.map_map]
  refine Option.map_congr fun a _ => ?_
  simp only [Function.comp_apply]
  split <;> simp [hu]

/-- Every thread of a group that is stopped stands stopped, where it stood. -/
theorem State.stopGroup_seen (s : State) {ig : IssueGroup} (named : Option Thread) {t : Tid} {a : Thread} (ha : s.thread? t = some a)
    (ht : t ∈ ig.members) : (s.stopGroup ig named).seen t = some { a.unmarked with stopped := true } := by
  have hin : t ∈ s.stopsWith ig := by
    unfold State.stopsWith
    split
    · split
      · refine List.mem_map.2 ⟨a, List.mem_filter.2 ⟨List.mem_of_find?_eq_some ha, ?_⟩, State.tid_of_thread? ha⟩
        rw [List.any_eq_true]
        exact ⟨t, ht, by rw [State.tid_of_thread? ha]; exact beq_self_eq_true _⟩
      · exact ht
    · exact ht
  have hstop : ((s.settleResults ig.core (s.stopsWith ig)).modThreads (s.stopsWith ig)
      fun t => { t with stopped := true, passBreak := t.passBreak || ig.members.contains t.tid }).seen t = some { a.unmarked with stopped := true } := by
    refine (State.seen_modThreads_apart (f := fun t => { t with stopped := true, passBreak := t.passBreak || ig.members.contains t.tid })
      (g := fun t => { t with stopped := true }) (fun _ => rfl) (fun _ => rfl) t).trans ?_
    rw [State.settleResults_seen, State.seen_of_thread? ha]
    simp [hin]
  unfold State.stopGroup
  dsimp only
  split
  · rw [State.seen_of_threads (State.trace_threads ..), State.seen_of_threads (State.freezeWith_threads ..), hstop]
  · rw [State.seen_of_threads (State.freezeWith_threads ..), hstop]

/-- TRAPINFO of a member, where a trap gives all of them one word. -/
theorem Trap.info_of_mem_const {tr : Trap} {mem : List Thread} {info : Word} (hi : tr.infos = mem.map fun t => (t.tid, info)) {th : Thread}
    (h : th ∈ mem) : tr.info th.tid = info := by
  cases hf : tr.infos.find? fun p => decide (p.1 = th.tid) with
  | none =>
    rw [List.find?_eq_none] at hf
    exact absurd (hf (th.tid, info) (hi ▸ List.mem_map.2 ⟨th, h, rfl⟩)) (by simp)
  | some p =>
    obtain ⟨t, -, rfl⟩ := List.mem_map.1 (hi ▸ List.mem_of_find?_eq_some hf)
    rw [Trap.info, hf]
    rfl

/-- Where breakpoint stops are off, BKPT traps. -/
theorem bkpt_traps {f : Insn} {s : State} {ig : IssueGroup} {act : List Thread} (h : Admits s (.bkpt f) f ig act) :
    ∃ tr : Trap, tr.cause = Cause.bkpt ∧ exec (.bkpt f) s = .next (s.taken.takeTrap ig tr) ∧
      ∀ (th : Thread) (v : BitVec 15), f.opa = .imm v → th.tid ∈ (s.about (.bkpt f) f ig act).mem.map (·.tid) → tr.info th.tid = v.signExtend 32 := by
  have hoff : (s.acting (s.about (.bkpt f) f ig act)).breakStopsOn ((s.acting (s.about (.bkpt f) f ig act)).ctxOfExec (s.about (.bkpt f) f ig act)) = false := by
    simp [State.breakStopsOn, h.untraced]
  rw [show exec (.bkpt f) s = execBkpt f s from rfl, execBkpt]
  refine ⟨_, ?_, issueWith_takes_trap h (if_neg (by rw [hoff]; decide)) ?_, fun th v hv hth => ?_⟩
  · rfl
  · exact (by decide : Cause.bkpt ≠ Cause.cancel)
  · obtain ⟨a, l, hal⟩ := List.exists_cons_of_ne_nil h.active
    obtain ⟨t, ht, he⟩ := List.mem_map.1 hth
    have hsrc : ∀ u : State, u.src32 a f.opa = v.signExtend 32 := fun u => by
      rw [src32_of_constant (.inl ⟨v, hv⟩), hv]
      rfl
    rw [← he, Trap.info_of_mem_const rfl ht]
    simp only [State.about_act, hal, List.head?_cons, Option.map_some, Option.getD_some, hsrc]

/-- Where they are on, BKPT stops its group, at the instruction. -/
theorem bkpt_stops {f : Insn} {s t : State} {ig : IssueGroup} {act : List Thread} (hi : s.issue = some ig)
    (hc : s.taken.checks ig (.bkpt f) f = .go act) (hp : ∃ th ∈ act, th.passBreak = false)
    (hon : s.taken.breakStopsOn (s.taken.ctxOfExec (s.about (.bkpt f) f ig act)) = true) (ht : exec (.bkpt f) s = .next t)
    {tid : Tid} {a : Thread} (hm : tid ∈ ig.members) (ha : s.thread? tid = some a) :
    ∃ b, t.thread? tid = some b ∧ b.stopped = true ∧ b.pc = a.pc := by
  have hx : exec (.bkpt f) s = conclude (s.taken.settleAct (s.about (.bkpt f) f ig act) (.bkpt f)
      (.wait ((s.acting (s.about (.bkpt f) f ig act)).stopGroup ig act.head?))) := by
    rw [show exec (.bkpt f) s = execBkpt f s from rfl, execBkpt, issueWith, hi]
    dsimp only
    rw [show ({ s with issue := none } : State).checks ig (.bkpt f) f = .go act from hc]
    obtain ⟨th, hth, hpass⟩ := hp
    have hne : act.isEmpty = false := by cases act with
      | nil => cases hth
      | cons a l => rfl
    have hall : act.all (·.passBreak) = false := List.all_eq_false.2 ⟨th, hth, by simp [hpass]⟩
    have hon' : (s.acting (s.about (.bkpt f) f ig act)).breakStopsOn
        ((s.acting (s.about (.bkpt f) f ig act)).ctxOfExec (s.about (.bkpt f) f ig act)) = true := by
      have hblock : ∀ k, (s.acting (s.about (.bkpt f) f ig act)).block? k = s.taken.block? k := fun k => by
        simp only [State.block?, State.acting_blocks]
        rfl
      have hctx : ∀ n, (s.acting (s.about (.bkpt f) f ig act)).ctx? n = s.taken.ctx? n := fun n => by
        simp only [State.ctx?, State.acting_ctxs]
        rfl
      simp only [State.breakStopsOn, State.ctxOfExec, State.ctxOf, hblock, hctx, State.acting_debug] at hon ⊢
      exact hon
    dsimp only
    rw [hne, if_neg (by decide)]
    have hbody : (if (s.acting (s.about (.bkpt f) f ig act)).breakStopsOn
          ((s.acting (s.about (.bkpt f) f ig act)).ctxOfExec (s.about (.bkpt f) f ig act)) = true then
        if act.all (·.passBreak) = true then Act.done (s.acting (s.about (.bkpt f) f ig act)) .atIssue false
        else .wait ((s.acting (s.about (.bkpt f) f ig act)).stopGroup ig act.head?)
      else trapAll (s.about (.bkpt f) f ig act) Cause.bkpt
        (((act.head?).map fun th => (s.acting (s.about (.bkpt f) f ig act)).src32 th f.opa).getD 0)) =
      .wait ((s.acting (s.about (.bkpt f) f ig act)).stopGroup ig act.head?) := by
      rw [if_pos hon', hall, if_neg (by decide)]
    exact congrArg (fun a => conclude (s.taken.settleAct (s.about (.bkpt f) f ig act) (.bkpt f) a)) hbody
  have hstopped : t = (((s.acting (s.about (.bkpt f) f ig act)).stopGroup ig act.head?).undoFlags (s.about (.bkpt f) f ig act)).restart ig := by
    rw [hx, conclude] at ht
    split at ht
    · exact absurd ht (by simp)
    · exact (Host.Outcome.next.inj ht).symm
  have hact : (s.acting (s.about (.bkpt f) f ig act)).seen tid = some a.unmarked := by
    rw [State.acting_seen, State.seen_of_thread? ha]
  obtain ⟨c, hc, hca⟩ := State.thread?_of_seen hact
  have hseen : t.seen tid = some { c.unmarked with stopped := true } := by
    rw [hstopped]
    exact (State.complete_seen ..).trans (State.stopGroup_seen _ _ hc hm)
  obtain ⟨b, hb, hba⟩ := State.thread?_of_seen hseen
  exact ⟨b, hb, congrArg (·.stopped) hba, (congrArg (·.pc) hba).trans (congrArg (·.pc) hca)⟩

end Sys2Proof.Machine

namespace Sys2Proof.Proofs
open Machine

/-- Settles O27: the effects of EXIT and YIELD, the end of a thread barrier by barrier, the trap and the stop of BKPT. -/
theorem endingYieldingAndBreaking : Obligations.EndingYieldingAndBreaking := by
  refine ⟨fun f s ig act h => exit_effects f s ig act h, fun s th b ht hb => ?_, fun f => ?_, fun f s ig act h => bkpt_traps h,
    fun f s t ig act hi hc hp hon ht tid a hm ha => bkpt_stops hi hc hp hon ht hm ha⟩
  · obtain ⟨th', h1, h2, h3, h4⟩ := exited_thread ht hb
    refine ⟨th', h1, h2, h3, h4.trans ?_⟩
    simp only [exitBar_eq]
  · exact effects_of (fun _ => rfl) (fun _ _ => rfl) (fun _ _ => rfl) (fun _ _ => rfl)

end Sys2Proof.Proofs
end


section
/-! PROOFS. O28: GSYNC with a uniform operand, which no encoding of it admits, holds the members that it should let go on. -/

namespace Sys2Proof.Machine

/-- GSYNC under the guard p0, with the uniform register u0 in OPA. -/
def gsyncUniform : Insn := { Tests.f 0 .none (.uni 0 0) .none with guard := 0 }

theorem gsyncUniform_not_wf : (Instr.gsync gsyncUniform).wf = false := by decide

/-- The small machine with p0 set in lane 0 alone. -/
def laneZeroGuarded : State := { Tests.lab with threads := [{ Tests.thr 0 with preds := 1 }, Tests.thr 1] }

theorem gsyncUniform_admitted :
    Admits laneZeroGuarded (.gsync gsyncUniform) gsyncUniform Tests.ig0 [{ Tests.thr 0 with preds := 1 }] :=
  ⟨rfl, by decide +kernel, by decide, rfl, rfl⟩

/-- The PC of a thread after an answer that goes on. -/
def pcAfter (t : Tid) : Host.Outcome State Fault Refusal → Option Word
  | .next s => (s.thread? t).map (·.pc)
  | _ => none

/-- An instruction that names a uniform register needs convergence, so the member whose guard fails is held where it stands (R280). -/
theorem gsyncUniform_holds : pcAfter (Tests.tid 1) (exec (.gsync gsyncUniform) laneZeroGuarded) = some 0 := by decide +kernel

end Sys2Proof.Machine

namespace Sys2Proof.Proofs
open Machine

/-- Refutes O28: GSYNC is stated for every operand, and with a uniform register in OPA, which the decoder refuses, the model holds the members
whose guard fails where the statement lets them go on. The QUOTA clauses are not at fault. -/
theorem not_groupSynchronisation : ¬ Obligations.GroupSynchronisation := by
  unfold Obligations.GroupSynchronisation
  rintro ⟨hgsync, -⟩
  obtain ⟨t, ht, -, -, hthreads⟩ := hgsync gsyncUniform laneZeroGuarded Tests.ig0 _ gsyncUniform_admitted (by decide +kernel) (by decide)
  obtain ⟨b, hb, -, hpc⟩ := hthreads (Tests.tid 1) (Tests.thr 1) (by decide +kernel)
  have hpc := hpc (by decide) (by decide)
  have hheld := gsyncUniform_holds
  rw [ht, pcAfter, hb, Option.map_some, hpc] at hheld
  revert hheld
  decide

end Sys2Proof.Proofs
end


section
/-! PROOFS. O31: entry into the handler lands a uniform register's result whoever of the home group owns it, and clears the owner's flag. -/

namespace Sys2Proof.Machine

/-- A launch whose handler takes every cause. -/
def handlingLaunch : Launch := { programLaunch with header := { programHeader with trapMask := BitVec.allOnes _ } }

/-- The small machine with a result of the uniform register 0 in flight, whose owner is lane 1 and whose completion clears flag 0, pending there. -/
def uniformInFlight : State :=
  { Tests.lab with
    launches := [handlingLaunch]
    threads := [Tests.thr 0, { Tests.thr 1 with flags := [1] }]
    cores := Tests.lab.cores.modify 0 fun c => { c with landings := [⟨0, .uni 0 0, 0, Tests.tid 1, some 0, 0⟩] } }

/-- Lane 0 alone as an issue group. -/
def laneZero : IssueGroup := { Tests.ig0 with members := [Tests.tid 0] }

/-- Lane 0 takes a trap, and the flag of lane 1 clears. -/
theorem flags_after_handler_entry :
    ((uniformInFlight.takeTrap laneZero { cause := Cause.illop }).thread? (Tests.tid 1)).map (·.flags) = some [0] := by decide +kernel

end Sys2Proof.Machine

namespace Sys2Proof.Proofs
open Machine

/-- Refutes O31: a result of a uniform register lands at the entry for any thread of the home group (R279), and where it carries the flag
of a thread outside the issue group that thread's pending count falls, while the statement keeps every other thread as it was. -/
theorem not_trapTaking : ¬ Obligations.TrapTaking := by
  unfold Obligations.TrapTaking Rule.HandlerEntry
  rintro ⟨hentry, -⟩
  obtain ⟨-, -, -, -, -, -, hthreads⟩ := hentry uniformInFlight laneZero { cause := Cause.illop } handlingLaunch (by decide +kernel)
    (by decide +kernel) (by decide +kernel)
  obtain ⟨b, hb, hsame, -⟩ := hthreads (Tests.tid 1) { Tests.thr 1 with flags := [1] } (by decide +kernel)
  have hflags := flags_after_handler_entry
  rw [hb, hsame (by decide)] at hflags
  revert hflags
  decide

end Sys2Proof.Proofs
end


section
/-! PROOFS. MBXPUT and MBXGET at one mailbox, and the slots of a mailbox (R167, R296). -/

namespace Sys2Proof.Machine

/-! ### Slots -/

theorem Mbx.slot_setSlot (m : Mbx) {i j : Nat} (hi : i < 64) (hj : j < 64) {v : Nat} (hv : v < 4) :
    (m.setSlot i v).slot j = if j = i then v else m.slot j := by
  refine Nat.eq_of_testBit_eq fun b => ?_
  have h3 : ∀ b, (3#128).getLsbD b = decide (b < 2) := fun b => by
    match b with
    | 0 => rfl
    | 1 => rfl
    | b + 2 => simp [BitVec.getLsbD_ofNat]; intro _; exact Nat.testBit_eq_false_of_lt (lt_of_lt_of_le (by decide : 3 < 2 ^ 2) (Nat.pow_le_pow_right (by decide) (by omega)))
  simp only [Mbx.slot, Mbx.setSlot, BitVec.testBit_toNat, BitVec.getLsbD_extractLsb', BitVec.getLsbD_or, BitVec.getLsbD_and, BitVec.getLsbD_not,
    BitVec.getLsbD_shiftLeft, BitVec.getLsbD_ofNat, h3]
  have hlow : ∀ k, ¬k < 2 → v.testBit k = false := fun k hk =>
    Nat.testBit_eq_false_of_lt (lt_of_lt_of_le (by omega : v < 2 ^ 2) (Nat.pow_le_pow_right (by decide) (by omega)))
  have hm : (if j = i then v else m.slot j).testBit b = if j = i then v.testBit b else decide (b < 2) && m.states.getLsbD (2 * j + b) := by
    split
    · rfl
    · simp only [Mbx.slot, BitVec.testBit_toNat, BitVec.getLsbD_extractLsb']
  rw [← Mbx.slot, hm]
  by_cases hb : b < 2
  · by_cases he : j = i
    · subst he
      simp [hb, show 2 * j + b < 128 by omega, show b < 128 by omega]
    · rcases Nat.lt_or_gt_of_ne he with hlt | hgt
      · simp [hb, he, show 2 * j + b < 128 by omega, show 2 * j + b < 2 * i by omega]
      · simp [hb, he, show 2 * j + b < 128 by omega, show ¬(2 * j + b < 2 * i) by omega, show ¬(2 * j + b - 2 * i < 2) by omega,
          hlow (2 * j + b - 2 * i) (by omega)]
  · by_cases he : j = i
    · simp [hb, he, hlow b hb]
    · simp [hb, he]

theorem Mbx.slot_foldl_setSlot (m : Mbx) {L : List Nat} (hL : ∀ i ∈ L, i < 64) {j : Nat} (hj : j < 64) {v : Nat} (hv : v < 4) :
    (L.foldl (fun m i => m.setSlot i v) m).slot j = if j ∈ L then v else m.slot j := by
  induction L generalizing m with
  | nil => rfl
  | cons i L ih =>
    rw [List.foldl_cons, ih _ fun k hk => hL k (List.mem_cons_of_mem _ hk), Mbx.slot_setSlot m (hL i List.mem_cons_self) hj hv]
    by_cases h1 : j ∈ L <;> by_cases h2 : j = i <;> simp [h1, h2]

theorem Mbx.mem_at {m : Mbx} {cur k i : Nat} : i ∈ m.at_ cur k ↔ ∃ j < k, i = (cur + j) % m.slots := by
  simp [Mbx.at_, eq_comm]

theorem slotsOfGrant (m : Mbx) (take : Bool) (k i : Nat) (hs : m.slots ≤ 64) (hi : i < m.slots) :
    (m.grant take k).slot i = (if ∃ j < k, i = ((if take then m.take else m.rsv) + j) % m.slots then (if take then 3 else 1) else m.slot i) ∧
    (m.finish take i).slot i = (if take then 0 else 2) ∧ ∀ j < m.slots, j ≠ i → (m.finish take i).slot j = m.slot j := by
  have hlt : ∀ cur, ∀ j ∈ m.at_ cur k, j < 64 := fun cur j hj => by
    obtain ⟨n, -, rfl⟩ := Mbx.mem_at.1 hj
    exact lt_of_lt_of_le (Nat.mod_lt _ (by omega)) hs
  have hgrant : (m.grant take k).slot i = ((m.at_ (if take then m.take else m.rsv) k).foldl (fun m i => m.setSlot i (if take then 3 else 1)) m).slot i := by
    cases take <;> rfl
  have hfin : ∀ j, (m.finish take i).slot j = (m.setSlot i (if take then 0 else 2)).slot j := fun j => by cases take <;> rfl
  refine ⟨?_, ?_, fun j hj hne => ?_⟩
  · rw [hgrant, Mbx.slot_foldl_setSlot m (hlt _) (by omega) (by cases take <;> decide)]
    simp only [Mbx.mem_at]
  · rw [hfin, Mbx.slot_setSlot m (by omega) (by omega) (by cases take <;> decide), if_pos rfl]
  · rw [hfin, Mbx.slot_setSlot m (by omega) (by omega) (by cases take <;> decide), if_neg hne]

/-! ### Lists of lanes -/

theorem dedup_const {α : Type} [DecidableEq α] {a : α} {l : List α} (hne : l ≠ []) (h : ∀ b ∈ l, b = a) : dedup l = [a] := by
  induction l with
  | nil => exact absurd rfl hne
  | cons b l ih =>
    obtain rfl := h b List.mem_cons_self
    cases l with
    | nil => rfl
    | cons c l =>
      obtain rfl := h c (by simp)
      rw [dedup, if_pos (by simp), ih (by simp) fun b hb => h b (List.mem_cons_of_mem _ hb)]

theorem uniq_const {α : Type} [DecidableEq α] {a : α} {l : List α} (hne : l ≠ []) (h : ∀ b ∈ l, b = a) : uniq l = [a] := by
  rw [uniq, dedup_const (by simpa using hne) fun b hb => h b (List.mem_reverse.1 hb)]
  rfl

/-- What is sorted stays. -/
theorem sortBy_of_pairwise {α : Type} {key : α → Nat} {l : List α} (h : (l.map key).Pairwise (· < ·)) : sortBy key l = l := by
  induction l with
  | nil => rfl
  | cons a l ih =>
    obtain ⟨ha, hl⟩ := List.pairwise_cons.1 h
    rw [sortBy, ih hl]
    cases l with
    | nil => rfl
    | cons b l => rw [insertBy, if_pos (le_of_lt (ha (key b) (by simp)))]

theorem trapLanes_none {x : Exec} {c : BitVec 6} {bad : List Thread} (h : bad = []) : trapLanes x c bad = none := by
  rw [h]
  rfl

theorem misaligned_none {names : List (Thread × Nat)} {al : Nat} (h : ∀ p ∈ names, p.2 % al = 0) : misaligned names al = none := by
  unfold misaligned
  dsimp only
  rw [if_pos]
  rw [List.isEmpty_iff, List.filter_eq_nil_iff]
  exact fun p hp => by simp [h p hp]

/-! ### The checks of a mailbox instruction -/

/-- Where every active lane names the mailbox at `a` and it passes its checks, there is no trap. -/
theorem mbxTrap_none {u : State} {x : Exec} {a : Nat} (h : ∀ th ∈ x.act, Rule.boxPlace u x.f x.ig.core th a) (hb : u.ownBusy x (x.act.map fun th => (th, a)) 32 = false) :
    u.mbxTrap x (x.act.map fun th => (th, a)) = none := by
  unfold State.mbxTrap
  rw [misaligned_none fun p hp => by obtain ⟨th, ht, rfl⟩ := List.mem_map.1 hp; exact (h th ht).1]
  dsimp only
  rw [hb, if_neg (by decide)]
  refine trapLanes_none (List.map_eq_nil_iff.2 (List.filter_eq_nil_iff.2 fun p hp => ?_))
  obtain ⟨th, ht, rfl⟩ := List.mem_map.1 hp
  obtain ⟨-, hok, b, hb, hin⟩ := h th ht
  simp only [hok, hb, hin, Bool.not_true, Bool.or_self, Bool.false_eq_true, not_false_eq_true]

theorem barNames_eq {u : State} {x : Exec} {a : Nat} (h : ∀ th ∈ x.act, u.localAddr th x.f.opa = a) : u.barNames x = x.act.map fun th => (th, a) :=
  List.map_congr_left fun th ht => by rw [h th ht]

@[simp] theorem State.unblock_mbx (u : State) (ts : List Tid) (core a : Nat) : (u.unblock ts).mbx core a = u.mbx core a := rfl

/-- Taking or reserving slots of one mailbox: what the instruction does. -/
theorem mbxTake_done {take : Bool} {i : Instr} {u : State} {x : Exec} {a : Nat} (hv : ∃ r e m, x.f.opd = .vec r e m) (hne : x.act ≠ [])
    (h : ∀ th ∈ x.act, u.localAddr th x.f.opa = a ∧ Rule.boxPlace u x.f x.ig.core th a) (hb : u.ownBusy x (x.act.map fun th => (th, a)) 32 = false)
    (hl : (x.act.map (·.tid.lane)).Pairwise (· < ·)) (hs : x.act.length ≤ (u.mbx x.ig.core a).slots)
    (hr : (u.mbx x.ig.core a).ready take x.act.length = true) (he : u.mbxEarlier x.ig.core a take (mbxTicket x) (x.act.map (·.tid)) = false) :
    ∃ t : State, mbxTake take i u x = .done (t.putAll x 1 8 (x.act.zip ((List.range x.act.length).map fun j =>
        ((if take then (u.mbx x.ig.core a).take else (u.mbx x.ig.core a).rsv) + j) % (u.mbx x.ig.core a).slots))) (.at_ (x.due 8)) false ∧
      (t = (u.unblock (x.act.map (·.tid))).putMbx x.ig.core a ((u.mbx x.ig.core a).grant take x.act.length) ∨
        t = ((u.unblock (x.act.map (·.tid))).putMbx x.ig.core a ((u.mbx x.ig.core a).grant take x.act.length)).staleLines x.ig.core) := by
  have hnames := barNames_eq fun th ht => (h th ht).1
  have htakers : mbxTakers u x = x.act.map fun th => (th, a) := by
    obtain ⟨r, e, m, hopd⟩ := hv
    rw [mbxTakers, hopd]
    exact hnames
  have hwants : mbxWants u x = [(a, x.act)] := by
    have hu : uniq ((x.act.map fun th => (th, a)).map (·.2)) = [a] := uniq_const (by simpa using hne) fun b hb => by
      obtain ⟨p, hp, rfl⟩ := List.mem_map.1 hb
      obtain ⟨th, -, rfl⟩ := List.mem_map.1 hp
      rfl
    rw [mbxWants, htakers, hu]
    simp [List.filter_map, Function.comp_def]
  have hready : u.mbxReady x take = true := by simp [State.mbxReady, hwants, hr, he]
  have hsort : sortBy (fun p : Thread × Nat => p.1.tid.lane) (x.act.zip ((u.mbx x.ig.core a).at_ (if take then (u.mbx x.ig.core a).take else (u.mbx x.ig.core a).rsv) x.act.length)) =
      x.act.zip ((u.mbx x.ig.core a).at_ (if take then (u.mbx x.ig.core a).take else (u.mbx x.ig.core a).rsv) x.act.length) := by
    refine sortBy_of_pairwise ?_
    have hfst := List.map_fst_zip (l₁ := x.act) (l₂ := (u.mbx x.ig.core a).at_ (if take then (u.mbx x.ig.core a).take else (u.mbx x.ig.core a).rsv) x.act.length)
      (by simp [Mbx.at_])
    rw [show (fun p : Thread × Nat => p.1.tid.lane) = (fun th : Thread => th.tid.lane) ∘ Prod.fst from rfl, ← List.map_map, hfst]
    exact hl
  unfold mbxTake
  dsimp only
  rw [hnames, mbxTrap_none (fun th ht => (h th ht).2) hb]
  dsimp only
  rw [hb, if_neg (by decide), hwants, trapLanes_none (by simp [Nat.not_lt.2 hs])]
  dsimp only
  rw [hready, if_pos rfl]
  simp only [List.flatMap_cons, List.flatMap_nil, List.append_nil, List.foldl_cons, List.foldl_nil, State.unblock_mbx]
  rw [hsort]
  cases x.f.mod.getLsbD 1 with
  | true => exact ⟨_, rfl, .inr rfl⟩
  | false => exact ⟨_, rfl, .inl rfl⟩

/-- Publishing or releasing one slot. -/
theorem mbxGive_done {rel : Bool} {u : State} {x : Exec} {th : Thread} (hact : x.act = [th])
    (hp : Rule.boxPlace u x.f x.ig.core th (u.localAddr th x.f.opa)) (hb : u.ownBusy x [(th, u.localAddr th x.f.opa)] 32 = false) :
    let a := u.localAddr th x.f.opa
    let m := u.mbx x.ig.core a
    let n := (u.src32 th x.f.opb).toNat
    (n < m.slots → m.slot n = (if rel then 3 else 1) → u.releaseWait x.ig.core [th.tid] (x.f.mod.getLsbD 1) = false →
      mbxGive rel u x = .done (u.putMbx x.ig.core a (m.finish rel n)) .atIssue false) ∧
    (m.slots ≤ n ∨ m.slot n ≠ (if rel then 3 else 1) → mbxGive rel u x = trapAll x Cause.mbxerr 0) := by
  intro a m n
  have hnames : u.barNames x = x.act.map fun th => (th, a) := barNames_eq fun t ht => by
    rw [hact, List.mem_singleton] at ht
    rw [ht]
  have hmap : (x.act.map fun th => (th, a)) = [(th, a)] := by rw [hact]; rfl
  have htrap : u.mbxTrap x (x.act.map fun th => (th, a)) = none := mbxTrap_none (fun t ht => by
    rw [hact, List.mem_singleton] at ht
    rw [ht]
    exact hp) (by rw [hmap]; exact hb)
  have hactors : mbxActors x.f.opb [(th, a)] = [(th, a)] := by
    have hu : uniq ([(th, a)].map (·.2)) = [a] := rfl
    unfold mbxActors
    split
    · rfl
    · rfl
    · rw [hu]
      simp
  have hgive : mbxGive rel u x = match (if n < m.slots ∧ m.slot n = (if rel then 3 else 1) then some (u.putMbx x.ig.core a (m.finish rel n)) else none) with
      | none => trapAll x Cause.mbxerr 0
      | some t => if u.releaseWait x.ig.core [th.tid] (x.f.mod.getLsbD 1) then .wait u else .done t .atIssue false := by
    unfold mbxGive
    dsimp only
    rw [hnames, htrap]
    dsimp only
    rw [hmap, hb, if_neg (by decide), hactors, hact]
    rfl
  refine ⟨fun h1 h2 h3 => ?_, fun h => ?_⟩
  · rw [hgive, if_pos ⟨h1, h2⟩, h3]
    rfl
  · rw [hgive, if_neg fun ⟨h1, h2⟩ => h.elim (fun hle => absurd h1 (Nat.not_lt.2 hle)) fun hne => hne h2]

/-! ### What the mailbox leaves as it was -/

theorem State.putMbx_frame (s : State) (core a : Nat) (m : Mbx) :
    (s.putMbx core a m).vregs = s.vregs ∧ (s.putMbx core a m).vault = s.vault ∧ (s.putMbx core a m).pool = s.pool ∧
    (s.putMbx core a m).broken = s.broken ∧ (s.putMbx core a m).debug = s.debug := by
  obtain ⟨⟨hv, -⟩, hvault, hpool, -, hb, hd⟩ := State.files_eq_iff.1 (State.write_cluster_files (s.useBox core a) (clusterOf core) a
    (toLE 1 m.slots ++ toLE 1 m.rsv ++ toLE 1 m.take ++ toLE 1 0 ++ toLE 1 m.filled ++ toLE 1 m.free ++ zeros 10 ++ toLE 16 m.states.toNat))
  exact ⟨hv, hvault, hpool, hb, hd⟩

end Sys2Proof.Machine

namespace Sys2Proof.Proofs
open Machine

/-- Settles O29: the slots granted to the lanes in order, the slot published or released, and the states of the slots. -/
theorem mailboxes : Obligations.Mailboxes := by
  refine ⟨fun take i f s ig act a hi hv h => ?_, fun rel i f s ig th hi h => ?_, fun m take k i hs _ hi => slotsOfGrant m take k i hs hi⟩
  · intro x u m hall hb hl hs hr he
    obtain ⟨t, hdone, ht⟩ := mbxTake_done (i := i) (take := take) hv h.active hall hb hl hs hr he
    have hframe : t.locals = ((u.unblock (act.map (·.tid))).putMbx ig.core a (m.grant take act.length)).locals ∧ t.vregs = u.vregs ∧
        t.vault = u.vault ∧ t.pool = u.pool ∧ t.broken = u.broken ∧ t.debug = u.debug := by
      obtain ⟨h1, h2, h3, h4, h5⟩ := State.putMbx_frame (u.unblock (act.map (·.tid))) ig.core a (m.grant take act.length)
      rcases ht with rfl | rfl
      · exact ⟨rfl, h1, h2, h3, h4, h5⟩
      · exact ⟨rfl, h1, h2, h3, h4, h5⟩
    obtain ⟨h1, h2, h3, h4, h5, h6⟩ := hframe
    refine ⟨t, ?_, h1, h2, h3, h4⟩
    have hbroken : (t.putAll x 1 8 (act.zip ((List.range act.length).map fun j => ((if take then m.take else m.rsv) + j) % m.slots))).broken = none := by
      rw [State.putAll_broken, h5]
      simp [u, h.sound]
    have hdebug : (t.putAll x 1 8 (act.zip ((List.range act.length).map fun j => ((if take then m.take else m.rsv) + j) % m.slots))).debug = .none := by
      rw [State.putAll_debug, h6]
      simp [u, h.untraced]
    rcases hi with ⟨rfl, rfl⟩ | ⟨rfl, rfl⟩
    · exact issueWith_done h hdone hbroken hdebug
    · exact issueWith_done h hdone hbroken hdebug
  · intro x u a m n hp hb
    obtain ⟨hdone, htrap⟩ := mbxGive_done (rel := rel) (u := u) (x := x) rfl hp hb
    obtain ⟨-, -, -, h4, h5⟩ := State.putMbx_frame u ig.core a (m.finish rel n)
    refine ⟨fun h1 h2 h3 => ?_, fun h1 => ⟨{ cause := Cause.mbxerr, infos := x.mem.map fun t => (t.tid, 0) }, rfl, ?_⟩⟩
    · have hbroken : (u.putMbx ig.core a (m.finish rel n)).broken = none := by rw [h4]; simp [u, h.sound]
      have hdebug : (u.putMbx ig.core a (m.finish rel n)).debug = .none := by rw [h5]; simp [u, h.untraced]
      rcases hi with ⟨rfl, rfl⟩ | ⟨rfl, rfl⟩
      · exact issueWith_done h (hdone h1 h2 h3) hbroken hdebug
      · exact issueWith_done h (hdone h1 h2 h3) hbroken hdebug
    · rcases hi with ⟨rfl, rfl⟩ | ⟨rfl, rfl⟩
      · exact issueWith_takes_trap h (htrap h1) (by decide : Cause.mbxerr ≠ Cause.cancel)
      · exact issueWith_takes_trap h (htrap h1) (by decide : Cause.mbxerr ≠ Cause.cancel)

end Sys2Proof.Proofs
end


section
/-! PROOFS. Bytes as values, and what a write leaves to be read. -/

namespace Sys2Proof.Machine

/-! ### Little-endian values -/

@[simp] theorem toLE_length (n v : Nat) : (toLE n v).length = n := by
  induction n generalizing v with
  | zero => rfl
  | succ n ih => rw [toLE, List.length_cons, ih]

theorem ofLE_toLE (n v : Nat) : ofLE (toLE n v) = v % 256 ^ n := by
  induction n generalizing v with
  | zero => rw [Nat.pow_zero, Nat.mod_one]; rfl
  | succ n ih =>
    rw [toLE, ofLE, ih, BitVec.toNat_ofNat]
    show v % 256 + 256 * (v / 256 % 256 ^ n) = v % 256 ^ (n + 1)
    rw [Nat.pow_succ', Nat.mod_mul]

theorem ofLE_toLE_of_lt {n v : Nat} (h : v < 256 ^ n) : ofLE (toLE n v) = v := by rw [ofLE_toLE, Nat.mod_eq_of_lt h]

theorem ofLE_lt (bs : List Byte) : ofLE bs < 256 ^ bs.length := by
  induction bs with
  | nil => decide
  | cons b bs ih =>
    rw [ofLE, List.length_cons, Nat.pow_succ']
    have hb := b.isLt
    omega

theorem field_lt (bs : List Byte) (i n : Nat) : field bs i n < 256 ^ n :=
  lt_of_lt_of_le (ofLE_lt _) (Nat.pow_le_pow_right (by decide) (by simp))

/-- A field of a string that begins with other bytes. -/
theorem field_append_right (as bs : List Byte) {i n : Nat} (h : as.length ≤ i) : field (as ++ bs) i n = field bs (i - as.length) n := by
  rw [field, field, List.drop_append, List.drop_eq_nil_of_le h, List.nil_append]

/-- The value that a string begins with, and those behind it. -/
theorem field_toLE_append (n v : Nat) (bs : List Byte) : field (toLE n v ++ bs) 0 n = v % 256 ^ n := by
  rw [field, List.drop_zero, List.take_append_of_le_length (by simp), List.take_of_length_le (by simp), ofLE_toLE]

theorem field_skip (n v : Nat) (bs : List Byte) {i k : Nat} (h : n ≤ i) : field (toLE n v ++ bs) i k = field bs (i - n) k := by
  rw [field_append_right _ _ (by simpa using h), toLE_length]

/-! ### Reading what was written -/

theorem sgetN_eq_of_sget {w : Nat} {m : Sparse w} {k : Nat} {vs : List (BitVec w)} (h : ∀ i (hi : i < vs.length), sget m (k + i) = vs[i]) :
    sgetN m k vs.length = vs := by
  induction vs generalizing k with
  | nil => rfl
  | cons v vs ih =>
    have h0 := h 0 (by simp)
    have ht : sgetN m (k + 1) vs.length = vs := ih fun i hi => by
      have := h (i + 1) (by simpa using hi)
      rwa [show k + (i + 1) = k + 1 + i by omega] at this
    rw [List.length_cons, sgetN, ht]
    exact congrArg (· :: vs) h0

theorem State.bytes_write_same {s : State} {p : PAddr} {bs : List Byte} (h : p.exists_ bs.length = true) : (s.write p bs).bytes p bs.length = bs := by
  have hmem : (s.write p bs).mem p = sputL (s.mem p) p.key bs := by
    unfold State.write
    rw [if_pos h]
    simp
  rw [State.bytes, hmem]
  exact sgetN_eq_of_sget fun i hi => sget_sputL_inside _ _ hi

theorem State.bytes_length (s : State) (p : PAddr) (n : Nat) : (s.bytes p n).length = n := sgetN_length _ _ _

end Sys2Proof.Machine
end

section
/-! PROOFS. Barriers: the phase of a barrier object, its bytes, and the four barrier instructions (R154, R161 to R164, R287, R288). -/

namespace Sys2Proof.Machine

/-! ### The barrier object -/

theorem Bar.settle_completes {b : Bar} (h : b.arrived = b.expected ∧ b.expected ≠ 0 ∧ b.pending = 0) :
    b.settle = { b with phase := (b.phase + 1) % 2 ^ 32, expected := b.expected - b.deferred, deferred := 0, arrived := 0, pending := 0 } := if_pos h

theorem Bar.settle_stays {b : Bar} (h : ¬(b.arrived = b.expected ∧ b.expected ≠ 0 ∧ b.pending = 0)) : b.settle = b := if_neg h

/-- A barrier whose fields fit theirs in memory (R287). -/
structure Bar.Fits (b : Bar) : Prop where
  expected : b.expected < 2 ^ 16
  arrived  : b.arrived < 2 ^ 16
  low      : -(2 ^ 31) ≤ b.pending
  high     : b.pending < 2 ^ 31
  phase    : b.phase < 2 ^ 32
  deferred : b.deferred < 2 ^ 16
  flags    : b.flags < 2 ^ 16

theorem Bar.Fits.settle {b : Bar} (h : b.Fits) : b.settle.Fits := by
  by_cases hc : b.arrived = b.expected ∧ b.expected ≠ 0 ∧ b.pending = 0
  · rw [Bar.settle_completes hc]
    exact ⟨lt_of_le_of_lt (Nat.sub_le _ _) h.expected, (by decide : 0 < 2 ^ 16), (by decide : -(2 ^ 31) ≤ (0 : Int)), (by decide : (0 : Int) < 2 ^ 31),
      Nat.mod_lt _ (by decide), (by decide : 0 < 2 ^ 16), h.flags⟩
  · rw [Bar.settle_stays hc]
    exact h

theorem Bar.bytes_length (b : Bar) : b.bytes.length = 16 := by simp [Bar.bytes]

/-- The bytes of a barrier give its fields back. -/
theorem Bar.fields_bytes {b : Bar} (h : b.Fits) :
    (⟨field b.bytes 0 2, field b.bytes 2 2, sext 32 (field b.bytes 4 4), field b.bytes 8 4, field b.bytes 12 2, field b.bytes 14 2⟩ : Bar) = b := by
  have hpending : sext 32 (wrap 32 b.pending) = b.pending := by
    rw [sext_eq_toInt_ofNat, wrap_eq_toNat, BitVec.ofNat_toNat, BitVec.setWidth_eq]
    exact BitVec.toInt_ofInt_eq_self (by decide) h.low h.high
  have hbytes : b.bytes = toLE 2 b.expected ++ (toLE 2 b.arrived ++ (toLE 4 (wrap 32 b.pending) ++ (toLE 4 b.phase ++
      (toLE 2 b.deferred ++ (toLE 2 b.flags ++ []))))) := by simp [Bar.bytes]
  have hwrap : wrap 32 b.pending < 2 ^ 32 := by rw [wrap_eq_toNat]; exact BitVec.isLt _
  obtain ⟨he, ha, hl, hh, hp, hd, hf⟩ := h
  obtain ⟨e, a, p, ph, d, f⟩ := b
  rw [hbytes]
  simp only at *
  have h1 : 256 ^ 2 = 2 ^ 16 := by decide
  have h2 : 256 ^ 4 = 2 ^ 32 := by decide
  simp only [field_skip, field_toLE_append, Nat.reduceLeDiff, Nat.reduceSub, h1, h2, Nat.mod_eq_of_lt, he, ha, hwrap, hp, hd, hf, hpending]

theorem localAt_exists {core a n : Nat} (hc : core < 192) (ha : a + n ≤ clusterBytes) : (localAt core a).exists_ n = true := by
  simp [localAt, PAddr.exists_, clusterOf, ha]
  omega

theorem State.write_cluster_blocks (s : State) (c a : Nat) (bs : List Byte) : (s.write (.cluster c a) bs).blocks = s.blocks := by
  obtain ⟨-, -, -, hb, -⟩ := State.files_eq_iff.1 (State.write_cluster_files s c a bs)
  exact hb

theorem State.barStrayed_putBar (s : State) (core a core' a' : Nat) (b : Bar) : (s.putBar core a b).barStrayed core' a' = s.barStrayed core' a' := by
  rw [State.barStrayed, State.imagesAt, State.putBar, localAt, State.write_cluster_blocks]
  rfl

theorem State.bar_putBar {s : State} {core a : Nat} {b : Bar} (hc : core < 192) (ha : a + 16 ≤ clusterBytes) (h : b.Fits)
    (hs : s.barStrayed core a = false) : (s.putBar core a b).bar core a = b := by
  have hread : (s.putBar core a b).bytes (localAt core a) 16 = b.bytes := by
    have hw := State.bytes_write_same (s := s) (p := localAt core a) (bs := b.bytes) (by rw [Bar.bytes_length]; exact localAt_exists hc ha)
    rwa [Bar.bytes_length] at hw
  rw [State.bar, State.barStrayed_putBar, hs, if_neg (by decide)]
  dsimp only
  rw [hread]
  exact Bar.fields_bytes h

/-- A barrier read from memory fits. -/
theorem State.bar_fits {s : State} {core a : Nat} (hs : s.barStrayed core a = false) : (s.bar core a).Fits := by
  have hp : ∀ v < 256 ^ 4, -(2 ^ 31) ≤ sext 32 v ∧ sext 32 v < 2 ^ 31 := fun v hv => by
    rw [sext_eq_toInt_ofNat]
    exact ⟨BitVec.le_toInt _, BitVec.toInt_lt⟩
  rw [State.bar, hs, if_neg (by decide)]
  dsimp only
  exact ⟨field_lt _ 0 2, field_lt _ 2 2, (hp _ (field_lt _ 4 4)).1, (hp _ (field_lt _ 4 4)).2, field_lt _ 8 4, field_lt _ 12 2, field_lt _ 14 2⟩

theorem barrierPhases : Rule.BarrierPhases := by
  refine fun b => ⟨fun h => ?_, Bar.settle_stays, fun s core a i th hc ha hs hd => ?_,
    fun s core a hc ha he harr hlow hhigh hph hd hf hs => State.bar_putBar hc ha ⟨he, harr, hlow, hhigh, hph, hd, hf⟩ hs⟩
  · rw [Bar.settle_completes h]
    exact ⟨rfl, rfl, rfl, rfl, rfl, rfl⟩
  · intro old
    obtain ⟨he, harr, hlow, hhigh, hph, hdef, hf⟩ := State.bar_fits hs
    have hexit := exitBar_eq s core th (i, a)
    rw [hexit]
    refine State.bar_putBar hc ha (Bar.Fits.settle ?_) hs
    split
    · exact ⟨he, harr, hlow, hhigh, hph, hd, hf⟩
    · exact ⟨lt_of_le_of_lt (Nat.sub_le _ _) he, harr, hlow, hhigh, hph, hdef, hf⟩

/-! ### The barrier instructions -/

/-- Where every active lane names a barrier at its place, and it is registered and known if it must be, there is no trap. -/
theorem barTrap_none {u : State} {x : Exec} {reg : Bool} (h : ∀ th ∈ x.act, Rule.barPlace u th (u.localAddr th x.f.opa) ∧
      (reg = true → u.barOf (th, u.localAddr th x.f.opa) ≠ none ∧ u.barStrayed x.ig.core (u.localAddr th x.f.opa) = false)) :
    u.barTrap x reg = none := by
  have hmem : ∀ p ∈ u.barNames x, ∃ th ∈ x.act, p = (th, u.localAddr th x.f.opa) := fun p hp => by
    obtain ⟨th, ht, rfl⟩ := List.mem_map.1 hp
    exact ⟨th, ht, rfl⟩
  have haligned : misaligned (u.barNames x) 16 = none := misaligned_none fun p hp => by
    obtain ⟨th, ht, rfl⟩ := hmem p hp
    exact (h th ht).1.1
  have hown : (u.barNames x).filter (u.foreign 16) = [] := List.filter_eq_nil_iff.2 fun p hp => by
    obtain ⟨th, ht, rfl⟩ := hmem p hp
    obtain ⟨-, b, hb, hin⟩ := (h th ht).1
    simp [State.foreign, hb, hin]
  unfold State.barTrap
  dsimp only
  rw [haligned, hown, List.map_nil, trapLanes_none rfl]
  cases reg with
  | false => rfl
  | true =>
    have hregistered : (u.barNames x).filter (u.barRefused x) = [] := List.filter_eq_nil_iff.2 fun p hp => by
      obtain ⟨th, ht, rfl⟩ := hmem p hp
      obtain ⟨hb, hs⟩ := (h th ht).2 rfl
      simp [State.barRefused, hs, hb]
    dsimp only
    rw [hregistered, List.map_nil, trapLanes_none rfl]
    rfl

/-- A barrier that no forbidden write has met: its phase differs from a value or does not. -/
theorem phaseDiffers_eq {u : State} {core a : Nat} (h : u.barStrayed core a = false) (v : Word) :
    u.phaseDiffers core a v = decide (BitVec.ofNat 32 (u.bar core a).phase ≠ v) := by
  rw [State.phaseDiffers, h, if_neg (by decide)]

theorem bartest_done {f : Insn} {s : State} {ig : IssueGroup} {act : List Thread} (h : Admits s (.bartest f) f ig act) :
    let x := s.about (.bartest f) f ig act
    let u := s.acting x
    (∀ th ∈ act, Rule.barPlace u th (u.localAddr th f.opa) ∧ u.barOf (th, u.localAddr th f.opa) ≠ none ∧ u.barStrayed ig.core (u.localAddr th f.opa) = false) →
    u.ownBusy x (act.map fun th => (th, u.localAddr th f.opa)) 16 = false →
    exec (.bartest f) s = .next ((u.putAll x 1 8 (act.map fun th =>
      (th, if BitVec.ofNat 32 (u.bar ig.core (u.localAddr th f.opa)).phase = u.src32 th f.opb then 0 else 1))).closed x (.bartest f) (.at_ (x.due 8)) false) := by
  intro x u hall hbusy
  have hvals : (act.map fun th => (th, if u.phasePassed x (th, u.localAddr th f.opa) then 1 else 0)) =
      act.map fun th => (th, if BitVec.ofNat 32 (u.bar ig.core (u.localAddr th f.opa)).phase = u.src32 th f.opb then 0 else 1) :=
    List.map_congr_left fun th ht => by
      show (th, if u.phaseDiffers ig.core (u.localAddr th f.opa) (u.src32 th f.opb) = true then 1 else 0) = _
      rw [phaseDiffers_eq (hall th ht).2.2]
      by_cases he : BitVec.ofNat 32 (u.bar ig.core (u.localAddr th f.opa)).phase = u.src32 th f.opb
      · simp [he]
      · simp [he]
  rw [show exec (.bartest f) s = execBartest f s from rfl, execBartest, ← hvals]
  refine issueWith_done h ?_ ?_ ?_
  · rw [barTrap_none fun th ht => ⟨(hall th ht).1, fun _ => (hall th ht).2⟩]
    dsimp only
    rw [show u.ownBusy x (u.barNames x) 16 = false from hbusy, if_neg (by decide)]
    rfl
  · simp [u, h.sound]
  · simp [u, h.untraced]

theorem barwait_done {f : Insn} {s : State} {ig : IssueGroup} {act : List Thread} (h : Admits s (.barwait f) f ig act) :
    let x := s.about (.barwait f) f ig act
    let u := s.acting x
    (∀ th ∈ act, Rule.barPlace u th (u.localAddr th f.opa) ∧ u.barOf (th, u.localAddr th f.opa) ≠ none ∧ u.barStrayed ig.core (u.localAddr th f.opa) = false) →
    u.ownBusy x (act.map fun th => (th, u.localAddr th f.opa)) 16 = false →
    (∀ th ∈ act, BitVec.ofNat 32 (u.bar ig.core (u.localAddr th f.opa)).phase ≠ u.src32 th f.opb) →
    exec (.barwait f) s = .next ((u.unblock (act.map (·.tid))).closed x (.barwait f) .atIssue false) := by
  intro x u hall hbusy hpassed
  have hpass : ∀ p ∈ u.barNames x, u.phasePassed x p = true := fun p hp => by
    obtain ⟨th, ht, rfl⟩ := List.mem_map.1 hp
    exact (phaseDiffers_eq (hall th ht).2.2 _).trans (decide_eq_true (hpassed th ht))
  have hon : (u.barNames x).filter (u.phasePassed x) = u.barNames x := List.filter_eq_self.2 hpass
  have hblocked : u.barBlocked x = [] := by
    rw [State.barBlocked, List.filter_eq_nil_iff.2 fun p hp => by simp [hpass p hp]]
    rfl
  have htids : (u.barNames x).map (·.1.tid) = act.map (·.tid) := by simp [State.barNames, x]
  rw [show exec (.barwait f) s = execBarwait f s from rfl, execBarwait]
  refine issueWith_done h ?_ ?_ ?_
  · dsimp only
    rw [barTrap_none fun th ht => ⟨(hall th ht).1, fun _ => (hall th ht).2⟩]
    dsimp only
    rw [show u.ownBusy x (u.barNames x) 16 = false from hbusy, if_neg (by decide), hblocked, hon, htids]
    rfl
  · simp [u, h.sound, State.unblock, State.modThreads]
  · simp [u, h.untraced, State.unblock, State.modThreads]

/-- The barriers that the lanes name, where they all name one. -/
theorem uniq_names {act : List Thread} (hne : act ≠ []) {α : Type} [DecidableEq α] (a : α) : uniq (act.map fun _ => a) = [a] :=
  uniq_const (by simpa using hne) fun b hb => by
    obtain ⟨-, -, rfl⟩ := List.mem_map.1 hb
    rfl

@[simp] theorem State.initBar_broken (s : State) (k : BlockKey) (a n : Nat) : (s.initBar k a n).broken = s.broken := by
  unfold State.initBar
  split
  · rfl
  · obtain ⟨-, -, -, -, hb, -⟩ := State.files_eq_iff.1 (State.write_cluster_files _ _ _ _)
    exact hb

@[simp] theorem State.initBar_debug (s : State) (k : BlockKey) (a n : Nat) : (s.initBar k a n).debug = s.debug := by
  unfold State.initBar
  split
  · rfl
  · obtain ⟨-, -, -, -, -, hd⟩ := State.files_eq_iff.1 (State.write_cluster_files _ _ _ _)
    exact hd

theorem barinit_done {f : Insn} {s : State} {ig : IssueGroup} {act : List Thread} {k : BlockKey} {a : Nat} {last : Thread} (h : Admits s (.barinit f) f ig act) :
    let x := s.about (.barinit f) f ig act
    let u := s.acting x
    act.getLast? = some last → (∀ th ∈ act, th.tid.block = k ∧ u.localAddr th f.opa = a ∧ Rule.barPlace u th a ∧
      1 ≤ (u.src32 th f.opb).toNat ∧ (u.src32 th f.opb).toNat ≤ 1024) → u.ownBusy x (act.map fun th => (th, a)) 16 = false →
    (∀ b, u.block? k = some b → (∀ i, b.barIndex a = some i → (u.bar ig.core a).arrived = 0) ∧ (b.barIndex a = none → b.barriers.length < 16)) →
    exec (.barinit f) s = .next ((u.initBar k a (u.src32 last f.opb).toNat).closed x (.barinit f) .atIssue false) := by
  intro x u hlast hall hbusy htable
  have hnames : u.barNames x = act.map fun th => (th, a) := barNames_eq (x := x) fun th ht => (hall th ht).2.1
  have hkeys : (act.map fun th => (th, a)).map (fun p => (p.1.tid.block, p.2)) = act.map fun _ => (k, a) := by
    rw [List.map_map]
    exact List.map_congr_left fun th ht => by simp [(hall th ht).1]
  have hbarriers : uniq ((act.map fun th => (th, a)).map fun p => (p.1.tid.block, p.2)) = [(k, a)] := by
    rw [hkeys, uniq_names h.active]
  obtain ⟨th0, hth0⟩ : ∃ th0, th0 ∈ act := by
    cases act with
    | nil => exact absurd rfl h.active
    | cons t l => exact ⟨t, List.mem_cons_self⟩
  obtain ⟨hk0, -, ⟨-, b, hb, -⟩, -⟩ := hall th0 hth0
  rw [hk0] at hb
  obtain ⟨harrived, hroom⟩ := htable b hb
  have hbad : (act.map fun th => (th, a)).filter (fun p => decide ((u.src32 p.1 f.opb).toNat < 1) || decide (1024 < (u.src32 p.1 f.opb).toNat)
      || ((u.barOf p).isSome && decide ((u.bar ig.core p.2).arrived ≠ 0))
      || ((u.barOf p).isNone && decide (16 < ((u.block? p.1.tid.block).map (·.barriers.length)).getD 0 +
        (([(k, a)].filter fun q => decide (q.1 = p.1.tid.block) && (((u.block? p.1.tid.block).bind fun b => b.barIndex q.2).isNone))).length))) = [] := by
    refine List.filter_eq_nil_iff.2 fun p hp => ?_
    obtain ⟨th, ht, rfl⟩ := List.mem_map.1 hp
    obtain ⟨hk, -, -, h1, h1024⟩ := hall th ht
    have hbar : u.barOf (th, a) = b.barIndex a := by simp [State.barOf, hk, hb]
    rw [hbar]
    cases hi : b.barIndex a with
    | some i => simp [harrived i hi]; omega
    | none =>
      have := hroom hi
      simp [hk, hb, hi]
      omega
  have hlanes : (act.map fun th => (th, a)).filter (fun p => decide (p.1.tid.block = k) && p.2 == a) = act.map fun th => (th, a) :=
    List.filter_eq_self.2 fun p hp => by
      obtain ⟨th, ht, rfl⟩ := List.mem_map.1 hp
      simp [(hall th ht).1]
  rw [show exec (.barinit f) s = execBarinit f s from rfl, execBarinit]
  refine issueWith_done h ?_ ?_ ?_
  · rw [barTrap_none fun th ht => ⟨(hall th ht).2.1.symm ▸ (hall th ht).2.2.1, fun hr => absurd hr (by decide)⟩]
    dsimp only
    rw [show u.ownBusy x (u.barNames x) 16 = false from hnames.symm ▸ hbusy, if_neg (by decide)]
    rw [hnames, hbarriers]
    split
    · next t ht => exact absurd (ht.symm.trans (trapLanes_none (List.map_eq_nil_iff.2 hbad))) (by simp)
    · rw [List.foldl_cons, List.foldl_nil, hlanes, List.getLast?_map, hlast]
      rfl
  · simp [u, h.sound]
  · simp [u, h.untraced]

theorem State.putBar_frame (s : State) (core a : Nat) (b : Bar) : (s.putBar core a b).broken = s.broken ∧ (s.putBar core a b).debug = s.debug := by
  obtain ⟨-, -, -, -, hb, hd⟩ := State.files_eq_iff.1 (State.write_cluster_files s (clusterOf core) a b.bytes)
  exact ⟨hb, hd⟩

theorem bararr_done {f : Insn} {s : State} {ig : IssueGroup} {act : List Thread} {k : BlockKey} {b : Block} {a i : Nat} (h : Admits s (.bararr f) f ig act) :
    let x := s.about (.bararr f) f ig act
    let u := s.acting x
    let owed : Thread → Nat := fun th => if f.mod.getLsbD 0 then (u.src32 th f.opb).toNat else 0
    let bar := u.bar ig.core a
    let sum := (act.map owed).sum
    u.block? k = some b → b.barIndex a = some i → u.barStrayed ig.core a = false → (∀ th ∈ act, th.tid.block = k ∧ u.localAddr th f.opa = a ∧ Rule.barPlace u th a ∧ owed th < 2 ^ 31) →
    u.releaseWait ig.core (act.map (·.tid)) false = false → bar.arrived + act.length ≤ bar.expected → bar.pending + sum < 2 ^ 31 →
    exec (.bararr f) s = .next ((((u.modThreads (act.map (·.tid)) fun th =>
        { th with arrivals := (i, BitVec.ofNat 32 bar.phase) :: th.arrivals.filter fun y => y.1 != i }).putBar ig.core a
        { bar with arrived := bar.arrived + act.length, pending := bar.pending + sum }.settle).putAll x 1 8
        (act.map fun th => (th, bar.phase))).closed x (.bararr f) (.at_ (x.due 8)) false) := by
  intro x u owed bar sum hb hi hs hall hrel hroom hpend
  have hnames : u.barNames x = act.map fun th => (th, a) := barNames_eq (x := x) fun th ht => (hall th ht).2.1
  have hlanes : ((act.map fun th => (th, a)).filter fun p => p.2 == a).map (·.1) = act := by
    rw [List.filter_eq_self.2 fun p hp => by obtain ⟨th, -, rfl⟩ := List.mem_map.1 hp; simp, List.map_map]
    exact List.map_id _
  have hbar : ∀ th ∈ act, u.barOf (th, a) = some i := fun th ht => by simp [State.barOf, (hall th ht).1, hb, hi]
  have hindex : ((act.head?).bind fun th => u.barOf (th, a)).getD 0 = i := by
    cases hact : act with
    | nil => exact absurd hact h.active
    | cons t l => simp [hbar t (hact ▸ List.mem_cons_self)]
  have hbad : (act.map fun th => (th, a)).filter (fun p => decide (2 ^ 31 ≤ owed p.1)
      || decide ((u.bar ig.core p.2).expected < (u.bar ig.core p.2).arrived + (((act.map fun th => (th, a)).filter fun q => q.2 == p.2).map (·.1)).length)
      || (f.mod.getLsbD 0 && decide (2 ^ 31 - 1 < (u.bar ig.core p.2).pending + ((((act.map fun th => (th, a)).filter fun q => q.2 == p.2).map (·.1)).map owed).sum))) = [] := by
    refine List.filter_eq_nil_iff.2 fun p hp => ?_
    obtain ⟨th, ht, rfl⟩ := List.mem_map.1 hp
    have howed := (hall th ht).2.2.2
    have h1 : decide (2 ^ 31 ≤ owed th) = false := decide_eq_false (by omega)
    have h2 : decide (bar.expected < bar.arrived + act.length) = false := decide_eq_false (by omega)
    have h3 : decide (2 ^ 31 - 1 < bar.pending + sum) = false := decide_eq_false (by omega)
    dsimp only
    rw [hlanes, h1]
    show ¬(false || decide (bar.expected < bar.arrived + act.length) || (f.mod.getLsbD 0 && decide (2 ^ 31 - 1 < bar.pending + sum))) = true
    rw [h2, h3]
    simp
  obtain ⟨hbroken, hdebug⟩ := State.putBar_frame (u.modThreads (act.map (·.tid)) fun th =>
    { th with arrivals := (i, BitVec.ofNat 32 bar.phase) :: th.arrivals.filter fun y => y.1 != i }) ig.core a
    { bar with arrived := bar.arrived + act.length, pending := bar.pending + sum }.settle
  rw [show exec (.bararr f) s = execBararr f s from rfl, execBararr]
  refine issueWith_done h ?_ ?_ ?_
  · rw [barTrap_none fun th ht => ⟨(hall th ht).2.1.symm ▸ (hall th ht).2.2.1, fun _ => (hall th ht).2.1.symm ▸ ⟨by rw [hbar th ht]; simp, hs⟩⟩]
    dsimp only
    split
    · next hw => exact absurd (hrel.symm.trans hw) (by decide)
    · rw [hnames]
      split
      · next t ht => exact absurd (ht.symm.trans (trapLanes_none (List.map_eq_nil_iff.2 hbad))) (by simp)
      · have huniq : uniq ((act.map fun th => (th, a)).map (·.2)) = [a] := by
          rw [List.map_map]
          exact uniq_names h.active a
        rw [huniq, List.foldl_cons, List.foldl_nil, hlanes, hindex, List.map_map]
        rfl
  · rw [State.putAll_broken, hbroken]
    simp [u, h.sound, State.modThreads]
  · rw [State.putAll_debug, hdebug]
    simp [u, h.untraced, State.modThreads]

end Sys2Proof.Machine

namespace Sys2Proof.Proofs
open Machine

/-- Settles O32: the phases from the settling of the object and its bytes in memory, the four instructions where one barrier is named. -/
theorem barrierMeaning : Obligations.BarrierMeaning :=
  ⟨barrierPhases, fun _ _ _ _ _ _ _ h => barinit_done h, fun _ _ _ _ _ _ _ _ h => bararr_done h, fun _ _ _ _ h => barwait_done h,
    fun _ _ _ _ h => bartest_done h⟩

end Sys2Proof.Proofs
end


section
/-! PROOFS. What an instruction leaves when its operation stays behind: the accesses of its lanes, in lane order, on its core; and the checks
before that, when they all pass (R83, R177 to R179). -/

namespace Sys2Proof.Machine

/-! ### The stores of the machine, without the marks of empty registers -/

/-- The registers and the memory, and what ends a step. -/
def State.still (s : State) :=
  (s.vregs, s.uregs, s.tiles, s.regions, s.vault, s.pool, s.locals, s.broken, s.debug)

theorem State.still_eq_iff {s t : State} : t.still = s.still ↔
    t.vregs = s.vregs ∧ t.uregs = s.uregs ∧ t.tiles = s.tiles ∧ t.regions = s.regions ∧ Rule.sameMemory s t ∧ t.broken = s.broken ∧ t.debug = s.debug := by
  simp only [State.still, Prod.mk.injEq, Rule.sameMemory, and_assoc]

theorem State.still_of_files {s t : State} (h : t.files = s.files) (hl : t.locals = s.locals) : t.still = s.still := by
  obtain ⟨⟨hv, -, hu, ht, hr⟩, hva, hp, -, hb, hd⟩ := State.files_eq_iff.1 h
  exact State.still_eq_iff.2 ⟨hv, hu, ht, hr, ⟨hva, hp, hl⟩, hb, hd⟩

@[simp] theorem State.modCore_still (s : State) (c : Nat) (f : Core → Core) : (s.modCore c f).still = s.still := rfl
@[simp] theorem State.modThread_still (s : State) (t : Tid) (f : Thread → Thread) : (s.modThread t f).still = s.still := rfl
@[simp] theorem State.fresh_still (s : State) (n : Nat) : (s.fresh n).still = s.still := rfl
@[simp] theorem State.closed_still (s : State) (x : Exec) (i : Instr) (c : Completes) (moved : Bool) : (s.closed x i c moved).still = s.still :=
  State.still_of_files (by simp) (by simp)
@[simp] theorem State.acting_still (s : State) (x : Exec) : (s.acting x).still = s.still := State.still_of_files (by simp) (by simp)
@[simp] theorem State.closed_fills (s : State) (x : Exec) (i : Instr) (c : Completes) (moved : Bool) : (s.closed x i c moved).fills = s.fills := by
  obtain ⟨⟨-, hf, -⟩, -⟩ := State.files_eq_iff.1 (s.closed_files x i c moved)
  exact hf
@[simp] theorem State.acting_fills (s : State) (x : Exec) : (s.acting x).fills = s.fills := by
  obtain ⟨⟨-, hf, -⟩, -⟩ := State.files_eq_iff.1 (s.acting_files x)
  exact hf

theorem State.sameRegisters_of_still {s t : State} (h : t.still = s.still) (hf : t.fills = s.fills) : Rule.sameRegisters s t := by
  obtain ⟨hv, hu, ht, hr, -⟩ := State.still_eq_iff.1 h
  exact ⟨hv, hf, hu, ht, hr⟩

theorem State.sameMemory_of_still {s t : State} (h : t.still = s.still) : Rule.sameMemory s t := by
  obtain ⟨-, -, -, -, hm, -⟩ := State.still_eq_iff.1 h
  exact hm

theorem State.broken_of_still {s t : State} (h : t.still = s.still) : t.broken = s.broken := by
  obtain ⟨-, -, -, -, -, hb, -⟩ := State.still_eq_iff.1 h
  exact hb

theorem State.debug_of_still {s t : State} (h : t.still = s.still) : t.debug = s.debug := by
  obtain ⟨-, -, -, -, -, -, hd⟩ := State.still_eq_iff.1 h
  exact hd

/-- An instruction whose effect leaves the stores goes on. -/
theorem issueWith_still {i : Instr} {f : Insn} {body : State → Exec → Act} {s u : State} {ig : IssueGroup} {act : List Thread}
    {c : Completes} {m : Bool} (h : Admits s i f ig act)
    (hb : body (s.acting (s.about i f ig act)) (s.about i f ig act) = .done u c m) (hu : u.still = (s.acting (s.about i f ig act)).still) :
    issueWith i f body s = .next (u.closed (s.about i f ig act) i c m) :=
  issueWith_done h hb ((State.broken_of_still hu).trans ((s.acting_broken _).trans h.sound))
    ((State.debug_of_still hu).trans ((s.acting_debug _).trans h.untraced))

/-! ### Cores -/

theorem State.modCore_core (s : State) (c k : Nat) (f : Core → Core) :
    (s.modCore c f).core k = if k = c ∧ c < s.cores.length then f (s.core k) else s.core k := by
  simp only [State.core, State.modCore, List.getD_eq_getElem?_getD, List.getElem?_modify]
  by_cases hk : c = k
  · subst hk
    by_cases hlt : c < s.cores.length
    · simp [hlt]
    · simp [hlt]
  · simp [hk, Ne.symm hk]

theorem State.modCore_core_self {s : State} {c : Nat} (h : c < s.cores.length) (f : Core → Core) : (s.modCore c f).core c = f (s.core c) := by
  rw [State.modCore_core, if_pos ⟨rfl, h⟩]

/-- What a change of a core leaves in each core. -/
theorem State.modCore_frame {α : Type} (P : Core → α) {f : Core → Core} (hf : ∀ c, P (f c) = P c) (s : State) (c k : Nat) :
    P ((s.modCore c f).core k) = P (s.core k) := by
  rw [State.modCore_core]
  split
  · exact hf _
  · rfl

@[simp] theorem State.modCore_length (s : State) (c : Nat) (f : Core → Core) : (s.modCore c f).cores.length = s.cores.length := by
  simp [State.modCore]

@[simp] theorem State.complete_cores (s : State) (ts : List Tid) (n : Option Nat) : (s.complete ts n).cores = s.cores := by cases n <;> rfl

theorem State.core_of_cores {s t : State} (h : t.cores = s.cores) (k : Nat) : t.core k = s.core k := by rw [State.core, State.core, h]

@[simp] theorem State.begin_cores (s : State) (x : Exec) : (s.begin x).cores = s.cores := by
  unfold State.begin
  split <;> rfl
@[simp] theorem State.acting_cores (s : State) (x : Exec) : (s.acting x).cores = s.cores := State.begin_cores _ _
@[simp] theorem State.acting_core (s : State) (x : Exec) (k : Nat) : (s.acting x).core k = s.core k := State.core_of_cores (by simp) k

theorem State.acting_nextId (s : State) (x : Exec) : (s.acting x).nextId = s.nextId + 1 := by
  unfold State.acting State.begin
  split <;> rfl

/-- What stays behind of an instruction that completes later: in the cores, the datapath's turn alone. -/
theorem State.finish_later_cores (s : State) (x : Exec) (i : Instr) (moved : Bool) : (s.finish x i .later moved).cores = s.cores := by
  unfold State.finish
  cases moved <;> cases x.f.yld <;> rfl

theorem State.closed_later_core {α : Type} (P : Core → α) (hP : ∀ (c : Core) (a : List Nat) (n : Nat), P { c with freeAt := a, issued := n } = P c)
    (s : State) (x : Exec) (i : Instr) (moved : Bool) (k : Nat) : P ((s.closed x i .later moved).core k) = P (s.core k) := by
  unfold State.closed State.noteIssue
  refine (State.modCore_frame P (fun c => hP c _ _) _ _ _).trans ?_
  exact congrArg P (State.core_of_cores (s.finish_later_cores x i moved) k)

/-! ### Accesses taken up, one for each lane -/

/-- A state has taken up accesses on a core, one for each lane, each as `Q` says of it. -/
def State.TakesUp {α : Type} (core : Nat) (Q : α → Access → Prop) (l : List α) (s t : State) : Prop :=
  t.cores.length = s.cores.length ∧ ∃ new, (t.core core).accs = (s.core core).accs ++ new ∧ List.Forall₂ Q l new

/-- Lane after lane, each step takes up one access. -/
theorem State.takesUp_foldl {α : Type} {core : Nat} {Q : α → Access → Prop} {step : State → α → State} (l : List α)
    (h : ∀ t p, p ∈ l → core < t.cores.length → State.TakesUp core Q [p] t (step t p)) (s : State) (hc : core < s.cores.length) :
    State.TakesUp core Q l s (l.foldl step s) := by
  induction l generalizing s with
  | nil => exact ⟨rfl, [], by simp, .nil⟩
  | cons p l ih =>
    obtain ⟨hlen, new, haccs, hnew⟩ := h s p (by simp) hc
    obtain ⟨hlen', new', haccs', hnew'⟩ := ih (fun t q hq => h t q (by simp [hq])) (step s p) (by omega)
    exact ⟨hlen'.trans hlen, new ++ new', by rw [List.foldl_cons, haccs', haccs, List.append_assoc], List.rel_append hnew hnew'⟩

/-- An access as it is taken up: numbered, and with what it must wait for. -/
def Access.TakenUp (a b : Access) : Prop := ∃ id needs, b = { a with id := id, needs := needs }

theorem State.issueAccess_takesUp {s : State} {core : Nat} (h : core < s.cores.length) (a : Access) :
    State.TakesUp core Access.TakenUp [a] s (s.issueAccess core a) := by
  refine ⟨by simp [State.issueAccess], [{ a with id := s.nextId, needs := (s.core core).needsOf a }], ?_, .cons ⟨_, _, rfl⟩ .nil⟩
  rw [State.issueAccess, State.core_of_cores (State.fresh_cores _ _), State.modCore_core_self h]

theorem State.issueAfter_takesUp {s : State} {core : Nat} (h : core < s.cores.length) (a : Access) (after : List Nat) :
    State.TakesUp core Access.TakenUp [a] s (s.issueAfter core a after) := by
  refine ⟨by simp [State.issueAfter], [{ a with id := s.nextId, needs := (s.core core).needsOf a ++ after }], ?_, .cons ⟨_, _, rfl⟩ .nil⟩
  rw [State.issueAfter, State.core_of_cores (State.fresh_cores _ _), State.modCore_core_self h]

/-- A step that takes up an access and then changes no core. -/
theorem State.TakesUp.lane {α : Type} {core : Nat} {Q : α → Access → Prop} {p : α} {a : Access} {s t u : State}
    (h : State.TakesUp core Access.TakenUp [a] s t) (hu : u.cores = t.cores) (hQ : ∀ b, a.TakenUp b → Q p b) : State.TakesUp core Q [p] s u := by
  obtain ⟨hlen, new, haccs, hnew⟩ := h
  refine ⟨by rw [hu, hlen], new, by rw [State.core_of_cores hu, haccs], ?_⟩
  cases hnew with
  | cons hb hrest =>
    cases hrest
    exact .cons (hQ _ hb) .nil

theorem State.TakesUp.of_cores {α : Type} {core : Nat} {Q : α → Access → Prop} {l : List α} {s r t : State}
    (h : State.TakesUp core Q l r t) (hr : r.cores = s.cores) : State.TakesUp core Q l s t := by
  obtain ⟨hlen, new, haccs, hnew⟩ := h
  exact ⟨by rw [hlen, hr], new, by rw [haccs, State.core_of_cores hr], hnew⟩

/-- The accesses taken up still stand when the instruction is closed. -/
theorem State.TakesUp.closed {α : Type} {core : Nat} {Q : α → Access → Prop} {l : List α} {s t : State} (h : State.TakesUp core Q l s t)
    (x : Exec) (i : Instr) (moved : Bool) :
    ∃ new, ((t.closed x i .later moved).core core).accs = (s.core core).accs ++ new ∧ List.Forall₂ Q l new := by
  obtain ⟨-, new, haccs, hnew⟩ := h
  refine ⟨new, ?_, hnew⟩
  rw [State.closed_later_core Core.accs (fun _ _ _ => rfl), haccs]

theorem forall₂_map_eq {α β γ : Type} {Q : α → β → Prop} {f : α → γ} {g : β → γ} {l : List α} {m : List β}
    (h : List.Forall₂ Q l m) (hQ : ∀ a b, Q a b → g b = f a) : m.map g = l.map f := by
  induction h with
  | nil => rfl
  | cons hab _ ih => rw [List.map_cons, List.map_cons, hQ _ _ hab, ih]

@[simp] theorem State.issueAccess_still (s : State) (core : Nat) (a : Access) : (s.issueAccess core a).still = s.still := rfl
@[simp] theorem State.issueAccess_fills (s : State) (core : Nat) (a : Access) : (s.issueAccess core a).fills = s.fills := rfl
@[simp] theorem State.issueAccess_nextId (s : State) (core : Nat) (a : Access) : (s.issueAccess core a).nextId = s.nextId + 1 := rfl
@[simp] theorem State.issueAfter_still (s : State) (core : Nat) (a : Access) (l : List Nat) : (s.issueAfter core a l).still = s.still := rfl
@[simp] theorem State.issueAfter_fills (s : State) (core : Nat) (a : Access) (l : List Nat) : (s.issueAfter core a l).fills = s.fills := rfl
@[simp] theorem State.promote_still (s : State) (t : Tid) (scope obj off : Nat) : (s.promote t scope obj off).still = s.still := by
  unfold State.promote
  split <;> rfl
@[simp] theorem State.promote_fills (s : State) (t : Tid) (scope obj off : Nat) : (s.promote t scope obj off).fills = s.fills := by
  unfold State.promote
  split <;> rfl
@[simp] theorem State.promote_cores (s : State) (t : Tid) (scope obj off : Nat) : (s.promote t scope obj off).cores = s.cores := by
  unfold State.promote
  split <;> rfl
@[simp] theorem State.promote_nextId (s : State) (t : Tid) (scope obj off : Nat) : (s.promote t scope obj off).nextId = s.nextId := by
  unfold State.promote
  split <;> rfl

/-! ### Registers left empty -/

@[simp] theorem State.markEmptyRun_still (s : State) (home r lane id n : Nat) : (s.markEmptyRun home r lane id n).still = s.still := by
  induction n with
  | zero => rfl
  | succ n ih => exact ih
@[simp] theorem State.markEmptyRun_cores (s : State) (home r lane id n : Nat) : (s.markEmptyRun home r lane id n).cores = s.cores := by
  induction n with
  | zero => rfl
  | succ n ih => exact ih
@[simp] theorem State.markEmptyRun_nextId (s : State) (home r lane id n : Nat) : (s.markEmptyRun home r lane id n).nextId = s.nextId := by
  induction n with
  | zero => rfl
  | succ n ih => exact ih

theorem State.emptyReg_markEmpty {s : State} {home r lane id h' r' l' : Nat} (hid : BitVec.ofNat 64 id ≠ 0)
    (h : s.emptyReg h' r' l' = true ∨ (h' = home ∧ r' = r ∧ l' = lane)) : (s.markEmpty home r lane id).emptyReg h' r' l' = true := by
  unfold State.emptyReg State.markEmpty
  by_cases hk : vkey h' r' l' = vkey home r lane
  · simpa [hk] using hid
  · rcases h with h | ⟨rfl, rfl, rfl⟩
    · simpa [sget_sput_other _ _ hk, State.emptyReg] using h
    · exact absurd rfl hk

/-- A run marked empty is empty, and no register becomes full by it. -/
theorem State.emptyReg_markEmptyRun {s : State} {home r lane id n h' r' l' : Nat} (hid : BitVec.ofNat 64 id ≠ 0)
    (h : s.emptyReg h' r' l' = true ∨ (h' = home ∧ (∃ j < n, r' = r + j) ∧ l' = lane)) :
    (s.markEmptyRun home r lane id n).emptyReg h' r' l' = true := by
  induction n with
  | zero =>
    rcases h with h | ⟨-, ⟨j, hj, -⟩, -⟩
    · exact h
    · omega
  | succ n ih =>
    refine State.emptyReg_markEmpty hid ?_
    rcases h with h | ⟨hh, ⟨j, hj, hr⟩, hl⟩
    · exact .inl (ih (.inl h))
    · by_cases hjn : j = n
      · exact .inr ⟨hh, hr.trans (by rw [hjn]), hl⟩
      · exact .inl (ih (.inr ⟨hh, ⟨j, by omega, hr⟩, hl⟩))

theorem ofNat64_ne_zero {n : Nat} (h : 0 < n) (h' : n < 2 ^ 64) : BitVec.ofNat 64 n ≠ 0 := by
  intro h0
  have h1 := congrArg BitVec.toNat h0
  simp only [BitVec.toNat_ofNat, Nat.mod_eq_of_lt h'] at h1
  simp at h1
  omega

/-- Lane after lane, each step marks its lane's run empty under the number that comes next. -/
theorem State.empties_foldl {α : Type} (home lane reg : α → Nat) (n : Nat) {step : State → α → State}
    (hfills : ∀ t p, (step t p).fills = (t.markEmptyRun (home p) (reg p) (lane p) t.nextId n).fills) (hid : ∀ t p, (step t p).nextId = t.nextId + 1)
    (l : List α) (s : State) (h0 : 0 < s.nextId) (h1 : s.nextId + l.length ≤ 2 ^ 64) :
    ∀ h' r' l', (s.emptyReg h' r' l' = true ∨ ∃ p ∈ l, h' = home p ∧ (∃ j < n, r' = reg p + j) ∧ l' = lane p) →
      (l.foldl step s).emptyReg h' r' l' = true := by
  induction l generalizing s with
  | nil =>
    rintro h' r' l' (h | ⟨p, hp, -⟩)
    · exact h
    · cases hp
  | cons p l ih =>
    intro h' r' l' h
    rw [List.length_cons] at h1
    have hstep : (step s p).emptyReg h' r' l' = (s.markEmptyRun (home p) (reg p) (lane p) s.nextId n).emptyReg h' r' l' := by
      rw [State.emptyReg, State.emptyReg, hfills]
    refine ih (step s p) (by rw [hid]; omega) (by rw [hid]; omega) h' r' l' ?_
    have hne := ofNat64_ne_zero h0 (show s.nextId < 2 ^ 64 by omega)
    rcases h with h | ⟨q, hq, h⟩
    · exact .inl (hstep.trans (State.emptyReg_markEmptyRun hne (.inl h)))
    · rcases List.mem_cons.1 hq with rfl | hq
      · exact .inl (hstep.trans (State.emptyReg_markEmptyRun hne (.inr h)))
      · exact .inr ⟨q, hq, h⟩

/-! ### Checks that all pass -/

/-- An access passes: the core holds its view's entry, and the check of R177 gives what `g` says. -/
def Want.Passes (u : State) (x : Exec) (ctx : Nat) (w : Want) (g : Got) : Prop :=
  ∃ v, u.cachedView x.ig.core ctx (ptrIndex w.p) = some v ∧ checkView v w.p w.d w.n w.al w.need = .ok g.off ∧ g = ⟨w.th, v.obj, g.off, ptrIndex w.p⟩

theorem Rule.passes.want {u : State} {x : Exec} {w : Want} {g : Got} (h : Rule.passes u x w.p w.d w.n w.al w.need w.th g) :
    w.Passes u x (u.ctxOfExec x) g := by
  obtain ⟨v, hv, hc, hobj, hth, hh⟩ := h
  refine ⟨v, hv, hc, ?_⟩
  obtain ⟨th, obj, off, handle⟩ := g
  simp only at hobj hth hh ⊢
  rw [hobj, hth, hh]

theorem minBy_nil {α : Type} {key : α → Nat} {l : List α} (h : l = []) : minBy key l = none := by rw [h]; rfl

/-- Where every lane's access passes, what they give is in the order of the lanes. -/
theorem State.checkAll_ok {α : Type} {u : State} {x : Exec} {ctx : Nat} {act : List α} {w : α → Want} {g : α → Got}
    (h : ∀ th ∈ act, (w th).Passes u x ctx (g th)) : u.checkAll x ctx (act.map w) = .ok (act.map g) := by
  have hheld : (act.map w).find? (fun w => (u.cachedView x.ig.core ctx (ptrIndex w.p)).isNone) = none := by
    simp only [List.find?_eq_none, List.mem_map, Bool.not_eq_true]
    rintro _ ⟨th, hth, rfl⟩
    obtain ⟨v, hv, -⟩ := h th hth
    simp [hv]
  have hchecked : ∀ th ∈ act, ∃ v, (u.cachedView x.ig.core ctx (ptrIndex (w th).p)).getD (noView ctx 0) = v ∧
      checkView v (w th).p (w th).d (w th).n (w th).al (w th).need = .ok (g th).off ∧ g th = ⟨(w th).th, v.obj, (g th).off, ptrIndex (w th).p⟩ := by
    intro th hth
    obtain ⟨v, hv, hc, hg⟩ := h th hth
    exact ⟨v, by simp [hv], hc, hg⟩
  unfold State.checkAll
  rw [hheld]
  dsimp only
  split
  · next w0 c hm =>
    refine absurd (hm.symm.trans (minBy_nil ?_)) (by simp)
    simp only [List.filterMap_eq_nil_iff, List.mem_map, exists_exists_and_eq_and]
    rintro _ ⟨th, hth, rfl⟩
    obtain ⟨v, hv, hc, -⟩ := hchecked th hth
    simp only [hv, hc]
  · refine congrArg Checked.ok ?_
    rw [List.filterMap_map, List.filterMap_map, ← List.filterMap_eq_map]
    refine List.filterMap_congr fun th hth => ?_
    obtain ⟨v, hv, hc, hg⟩ := hchecked th hth
    simp only [Function.comp, hv, hc]
    exact congrArg some hg.symm

/-- An address of local memory that passes R178. -/
theorem State.checkLocal_none {u : State} {w : WantLocal} {b : Block} (hal : w.a % (w.al : Int) = 0) (hb : u.block? w.th.tid.block = some b)
    (h0 : 0 ≤ w.a) (h1 : w.a + w.n ≤ clusterBytes) (hown : (if w.own then b.ownsLocal w.a.toNat w.n else u.gangLocal b w.a.toNat w.n) = true) :
    u.checkLocal w = none := by
  unfold State.checkLocal
  rw [if_neg (by simpa using hal), hb]
  dsimp only
  rw [if_neg (by omega), if_pos hown]

theorem State.localTrap_none {u : State} {x : Exec} {act : List Thread} {w : Thread → WantLocal} (h : ∀ th ∈ act, u.checkLocal (w th) = none) :
    u.localTrap x (act.map w) = none := by
  unfold State.localTrap
  dsimp only
  split
  · rfl
  · next w0 c hm =>
    refine absurd (hm.symm.trans (minBy_nil ?_)) (by simp)
    simp only [List.filterMap_eq_nil_iff, List.mem_map]
    rintro _ ⟨th, hth, rfl⟩
    rw [h th hth]
    rfl

/-! ### What writes of memory leave -/

/-- A state without its memory: what no write of memory changes. -/
def State.bare (s : State) : State :=
  { s with vault := [], pool := [], locals := [], poisonVault := [], poisonPool := [], poisonLocal := [], oldCode := [], torn := [], oldViews := []
           racedOps := [], broken := none }

@[simp] theorem State.break_bare (s : State) (f : Fault) : (s.break f).bare = s.bare := by
  unfold State.break
  split <;> rfl
@[simp] theorem State.setMem_bare (s : State) (p : PAddr) (m : Sparse 8) : (s.setMem p m).bare = s.bare := by cases p <;> rfl
@[simp] theorem State.setPoison_bare (s : State) (p : PAddr) (l : List Nat) : (s.setPoison p l).bare = s.bare := by cases p <;> rfl
@[simp] theorem State.noteWrite_bare (s : State) (p : PAddr) (n : Nat) : (s.noteWrite p n).bare = s.bare := rfl
@[simp] theorem State.addPoison_bare (s : State) (p : PAddr) (n : Nat) : (s.addPoison p n).bare = s.bare := State.setPoison_bare _ _ _

@[simp] theorem State.write_bare (s : State) (p : PAddr) (bs : List Byte) : (s.write p bs).bare = s.bare := by
  unfold State.write
  split
  · simp
  · split <;> simp
@[simp] theorem State.writeVal_bare (s : State) (p : PAddr) (n v : Nat) : (s.writeVal p n v).bare = s.bare := State.write_bare _ _ _

@[simp] theorem State.touch_bare (s : State) (p : PAddr) (n : Nat) : (s.touch p n).bare = s.bare := by
  unfold State.touch
  split
  · rfl
  · split <;> simp

@[simp] theorem State.copyRun_bare (s : State) (src dst : PAddr) (n : Nat) : (s.copyRun src dst n).bare = s.bare := by
  unfold State.copyRun
  split <;> simp

@[simp] theorem State.zeroRun_bare (s : State) (p : PAddr) (n : Nat) : (s.zeroRun p n).bare = s.bare := by
  unfold State.zeroRun
  split <;> simp

@[simp] theorem State.putPte_bare (s : State) (l : Leaf) (e : Pte) : (s.putPte l e).bare = s.bare :=
  foldl_frame State.bare _ (fun s i => State.writeVal_bare s _ _ _) _ _

/-- A state without its memory and its contexts: what records leave. -/
def State.bareOfContexts (s : State) : State := { s.bare with ctxs := [] }

theorem State.debug_of_bare {s t : State} (h : t.bare = s.bare) : t.debug = s.debug := by
  have h' := congrArg State.debug h
  exact h'
theorem State.debug_of_bareOfContexts {s t : State} (h : t.bareOfContexts = s.bareOfContexts) : t.debug = s.debug := by
  have h' := congrArg State.debug h
  exact h'

theorem State.bareOfContexts_of_bare {s t : State} (h : t.bare = s.bare) : t.bareOfContexts = s.bareOfContexts := by
  rw [State.bareOfContexts, State.bareOfContexts, h]

@[simp] theorem State.modCtx_bareOfContexts (s : State) (n : Nat) (f : Ctx → Ctx) : (s.modCtx n f).bareOfContexts = s.bareOfContexts := rfl

@[simp] theorem State.pushRecord_bare (s : State) (c : Ctx) (e base : Nat) (r : List Byte) : (s.pushRecord c e base r).bareOfContexts = s.bareOfContexts := by
  refine State.bareOfContexts_of_bare (s := s) (t := (s.write _ r).writeVal _ 2 _) ?_
  rw [State.writeVal_bare, State.write_bare]

@[simp] theorem State.flushRecords_bare (s : State) (ctx n : Nat) : (State.flushRecords s ctx n).bareOfContexts = s.bareOfContexts := by
  induction n generalizing s with
  | zero => rfl
  | succ n ih =>
    unfold State.flushRecords
    split
    · split
      · split
        · rfl
        · rw [ih, State.modCtx_bareOfContexts, State.pushRecord_bare]
      · rfl
    · rfl

@[simp] theorem State.faultRecord_bare (s : State) (ctx : Nat) (r : List Byte) : (s.faultRecord ctx r).bareOfContexts = s.bareOfContexts := by
  unfold State.faultRecord
  split
  · rw [State.flushRecords_bare, State.modCtx_bareOfContexts]
  · rfl

@[simp] theorem State.errorRecord_bare (s : State) (ctx : Nat) (r : List Byte) : (s.errorRecord ctx r).bareOfContexts = s.bareOfContexts := by
  unfold State.errorRecord
  split
  · dsimp only
    split
    · rw [State.modCtx_bareOfContexts, State.bareOfContexts_of_bare (State.writeVal_bare _ _ _ _)]
    · exact State.pushRecord_bare _ _ _ _ _
  · rfl

end Sys2Proof.Machine
end


section
/-! PROOFS. LDGL, the multicast stores and PREF at issue (R189, R194, R197). -/

namespace Sys2Proof.Machine

/-! ### LDGL -/

theorem firstTrap_none : firstTrap none none = none := rfl

theorem wantPtr_passes {u : State} {x : Exec} {f : Insn} {n : Nat} {need : BitVec 4} {disp : Bool} {th : Thread} {g : Got}
    (h : Rule.passes u x (u.ptr th f.opa) (if disp then u.disp th f.opb else 0) n n need th g) :
    (wantPtr u f n need disp th).Passes u x (u.ctxOfExec x) g := Rule.passes.want (w := wantPtr u f n need disp th) h

/-- A local operand without a displacement that lies within the lane's own block. -/
theorem checkLocal_own {u : State} {o : Operand} {slot n al : Nat} {th : Thread} {b : Block} (hal : u.localAddr th o % al = 0)
    (hb : u.block? th.tid.block = some b) (h1 : u.localAddr th o + n ≤ clusterBytes) (hown : b.ownsLocal (u.localAddr th o) n = true) :
    u.checkLocal (wantLocal u o .none slot n al true th) = none := by
  refine State.checkLocal_none (b := b) ?_ hb ?_ ?_ ?_
  · show ((u.localAddr th o : Int) + 0) % (al : Int) = 0
    rw [Int.add_zero]
    exact_mod_cast congrArg (Nat.cast (R := Int)) hal
  · show (0 : Int) ≤ (u.localAddr th o : Int) + 0
    omega
  · show (u.localAddr th o : Int) + 0 + n ≤ clusterBytes
    exact_mod_cast h1
  · simpa [wantLocal] using hown

theorem barrierBad_false {u : State} {th : Thread} {a : Nat} {b : Block} (hb : u.block? th.tid.block = some b) (hown : b.ownsLocal a 16 = true)
    (hi : b.barIndex a ≠ none) : u.barrierBad th a = false := by
  unfold State.barrierBad
  rw [hb]
  simpa [hown, Option.isSome_iff_ne_none] using hi

/-- The copies that LDGL puts on its core. -/
def State.ldglCopies (u : State) (x : Exec) (f : Insn) (gs : List Got) : List LdglCopy :=
  gs.map fun g => { id := x.inst, tid := g.th.tid, ctx := u.ctxOfExec x, obj := g.obj, off := g.off, handle := g.handle
                    dst := u.localAddr g.th f.opd, bytes := sizeBytes (Forms.low3 f.mod), barrier := u.localAddr g.th f.opb, flag := x.flag
                    pc := x.ig.pc, mod := f.mod }

theorem ldgl_issues (f : Insn) (s : State) (ig : IssueGroup) (act : List Thread) (g : Thread → Got) (h : Admits s (.ldgl f) f ig act) :
    let x := s.about (.ldgl f) f ig act
    let u := s.acting x
    let n := sizeBytes (Forms.low3 f.mod)
    (∀ th ∈ act, Rule.passes u x (u.ptr th f.opa) 0 n n rightR th (g th) ∧ u.localAddr th f.opd % n = 0 ∧
      ∃ b, u.block? th.tid.block = some b ∧ b.ownsLocal (u.localAddr th f.opd) n = true ∧ u.localAddr th f.opd + n ≤ clusterBytes ∧
        u.localAddr th f.opb % 16 = 0 ∧ b.ownsLocal (u.localAddr th f.opb) 16 = true ∧ b.barIndex (u.localAddr th f.opb) ≠ none) →
    (u.core ig.core).ranges.length < 32 → u.engineWait ig.core (act.map (·.tid)) = false →
    ∃ r, exec (.ldgl f) s = .next ((u.modCore ig.core fun c =>
      { c with ldgl := c.ldgl ++ u.ldglCopies x f (act.map g), ranges := c.ranges ++ [r] }).closed x (.ldgl f) .later false) := by
  intro x u n hall hranges hwait
  have hx : x.act = act := rfl
  have hchecks : u.checkAll x (u.ctxOfExec x) (x.act.map (wantPtr u f n rightR false)) = .ok (act.map g) :=
    State.checkAll_ok fun th hth => wantPtr_passes (disp := false) (hall th hth).1
  have hdst : u.localTrap x (x.act.map (wantLocal u f.opd .none 2 n n true)) = none := by
    refine State.localTrap_none fun th hth => ?_
    obtain ⟨-, hal, b, hb, hown, h1, -⟩ := hall th hth
    exact checkLocal_own hal hb h1 hown
  have hmis : (x.act.map fun th => (th, u.localAddr th f.opb)).filter (fun p => p.2 % 16 != 0) = [] := by
    simp only [List.filter_eq_nil_iff, List.mem_map]
    rintro _ ⟨th, hth, rfl⟩
    obtain ⟨-, -, b, -, -, -, h16, -⟩ := hall th hth
    simp [h16]
  have hbars : ((x.act.map fun th => (th, u.localAddr th f.opb)).any fun p => u.barrierBad p.1 p.2) = false := by
    simp only [List.any_eq_false, List.mem_map, Bool.not_eq_true]
    rintro _ ⟨th, hth, rfl⟩
    obtain ⟨-, -, b, hb, -, -, -, hown, hi⟩ := hall th hth
    exact barrierBad_false hb hown hi
  have hfree : ¬(32 ≤ (u.core x.ig.core).ranges.length ∨ u.engineWait x.ig.core (x.act.map (·.tid)) = true) := by
    rintro (h1 | h1)
    · exact absurd hranges (Nat.not_lt.2 h1)
    · exact absurd (hwait.symm.trans h1) (by simp)
  rw [show exec (.ldgl f) s = execLdgl f s from rfl, execLdgl]
  refine ⟨⟨(minBy id ((x.act.map (wantLocal u f.opd .none 2 n n true)).map (·.a.toNat))).getD 0,
    (maxBy id ((x.act.map (wantLocal u f.opd .none 2 n n true)).map (·.a.toNat))).getD 0 + n, x.inst⟩, issueWith_still h ?_ ?_⟩
  · dsimp only
    rw [hchecks]
    dsimp only
    rw [hdst, hmis, if_pos List.isEmpty_nil]
    dsimp only [firstTrap]
    rw [if_neg (ne_true_of_eq_false hbars), if_neg hfree]
    rfl
  · rfl

/-! ### The multicast stores -/

theorem multicastPackets_lines {u : State} {dst ctx group : Nat} {red : Bool} {mod : BitVec 8} {q : BitVec 2} {n : Nat}
    {es : List (Nat × Nat × Nat)} : ∀ p ∈ multicastPackets u dst ctx group red mod q n es, p.kind = 5 ∧ p.off % 256 = 0 := by
  intro p hp
  simp only [multicastPackets, List.mem_flatMap, List.mem_map] at hp
  obtain ⟨⟨obj, line⟩, -, es', -, rfl⟩ := hp
  exact ⟨rfl, by simp⟩

/-- Where the header sets FABRIC and every lane names an object of one group, the multicast store is on the core, and an access of each lane. -/
theorem multicast_done {f : Insn} {opc : BitVec 8} {n : Nat} {need : BitVec 4} {val : State → Thread → Nat} {u : State} {x : Exec} {c : Ctx}
    {group : Nat} {g : Thread → Got} (hfabric : u.headerFlag x 3 = true) (hctx : u.ctx? (u.ctxOfExec x) = some c) (hact : x.act ≠ [])
    (hall : ∀ th ∈ x.act, Rule.passes u x (u.ptr th f.opa) 0 n n need th (g th) ∧ u.localAddr th f.opb % 16 = 0 ∧
      u.localAddr th f.opb + 16 ≤ clusterBytes ∧ (∃ b, u.block? th.tid.block = some b ∧ b.ownsLocal (u.localAddr th f.opb) 16 = true) ∧
      ∃ o, u.object? c (g th).obj = some o ∧ o.mcast = true ∧ o.group = group) :
    ∃ (m : Multi) (as : List Access) (after : List Nat), multicast f opc n need val u x =
        .done (as.foldl (fun t a => t.issueAfter x.ig.core a after) (u.modCore x.ig.core fun k => { k with multis := k.multis ++ [m] })) .later false ∧
      m.group = group ∧ m.tids = x.act.map (·.tid) ∧ m.flag = x.flag ∧ ∀ p ∈ m.lines, p.kind = 5 ∧ p.off % 256 = 0 := by
  have hchecks : u.checkAll x (u.ctxOfExec x) (x.act.map (wantPtr u f n need false)) = .ok (x.act.map g) :=
    State.checkAll_ok fun th hth => wantPtr_passes (disp := false) (hall th hth).1
  have hrec : u.localTrap x (x.act.map (wantLocal u f.opb .none 1 16 16 true)) = none := by
    refine State.localTrap_none fun th hth => ?_
    obtain ⟨-, hal, h1, ⟨b, hb, hown⟩, -⟩ := hall th hth
    exact checkLocal_own hal hb h1 hown
  have hgroup : ∀ q ∈ x.act.map g, ((u.object? c q.obj).bind fun o => if o.mcast then some o.group else none) = some group := by
    simp only [List.mem_map]
    rintro _ ⟨th, hth, rfl⟩
    obtain ⟨-, -, -, -, o, ho, hm, hg⟩ := hall th hth
    simp [ho, hm, hg]
  have hhead : ((x.act.map g).head?.bind fun q => (u.object? c q.obj).bind fun o => if o.mcast then some o.group else none) = some group := by
    cases hl : x.act.map g with
    | nil => exact absurd (List.map_eq_nil_iff.1 hl) hact
    | cons q l => exact hgroup q (by simp [hl])
  unfold multicast
  dsimp only
  rw [hfabric, hchecks, hctx]
  simp only [Bool.not_true, Bool.false_eq_true, if_false, hrec, firstTrap]
  rw [hhead]
  have hbad : (x.act.map g).filter (fun q => ((u.object? c q.obj).bind fun o => if o.mcast then some o.group else none).isNone ||
      (((u.object? c q.obj).bind fun o => if o.mcast then some o.group else none) != some ((some group).getD 0) &&
        (x.act.map g).all fun h => ((u.object? c h.obj).bind fun o => if o.mcast then some o.group else none).isSome)) = [] := by
    refine List.filter_eq_nil_iff.2 fun q hq => ?_
    simp [hgroup q hq]
  rw [if_neg (by rw [hbad]; simp)]
  exact ⟨_, _, _, rfl, rfl, rfl, rfl, multicastPackets_lines⟩

theorem issueAfter_foldl_core {α : Type} (P : Core → α) (hP : ∀ (c : Core) l, P { c with accs := l } = P c) (s : State) (core k : Nat) (as : List Access)
    (after : List Nat) : P ((as.foldl (fun t a => t.issueAfter core a after) s).core k) = P (s.core k) :=
  foldl_frame (fun t => P (t.core k)) (fun t a => t.issueAfter core a after) (fun _ _ => State.modCore_frame P (fun c => hP c _) _ _ _) as s

theorem multicast_issues {i : Instr} {f : Insn} {opc : BitVec 8} {n : Nat} {need : BitVec 4} {val : State → Thread → Nat} {s : State}
    {ig : IssueGroup} {act : List Thread} {c : Ctx} {group : Nat} {g : Thread → Got} (h : Admits s i f ig act) (hc : ig.core < s.cores.length)
    (hexec : exec i s = issueWith i f (multicast f opc n need val) s) :
    let x := s.about i f ig act
    let u := s.acting x
    u.headerFlag x 3 = true → u.ctx? (u.ctxOfExec x) = some c →
    (∀ th ∈ act, Rule.passes u x (u.ptr th f.opa) 0 n n need th (g th) ∧ u.localAddr th f.opb % 16 = 0 ∧ u.localAddr th f.opb + 16 ≤ clusterBytes ∧
      (∃ b, u.block? th.tid.block = some b ∧ b.ownsLocal (u.localAddr th f.opb) 16 = true) ∧
      ∃ o, u.object? c (g th).obj = some o ∧ o.mcast = true ∧ o.group = group) →
    ∃ t, exec i s = .next t ∧ Rule.sameMemory s t ∧ Rule.sameRegisters s t ∧ ∃ m : Multi, (t.core ig.core).multis = (s.core ig.core).multis ++ [m] ∧
      m.group = group ∧ m.tids = act.map (·.tid) ∧ m.flag = setfOf f ∧ ∀ p ∈ m.lines, p.kind = 5 ∧ p.off % 256 = 0 := by
  intro x u hfabric hctx hall
  obtain ⟨m, as, after, hbody, hgroup, htids, hflag, hlines⟩ :=
    multicast_done (opc := opc) (val := val) hfabric hctx h.active hall
  have hstill : ∀ r : State, (as.foldl (fun t a => t.issueAfter x.ig.core a after) r).still = r.still :=
    fun r => foldl_frame State.still (fun t a => t.issueAfter x.ig.core a after) (fun _ _ => rfl) as r
  have hfills : ∀ r : State, (as.foldl (fun t a => t.issueAfter x.ig.core a after) r).fills = r.fills :=
    fun r => foldl_frame State.fills (fun t a => t.issueAfter x.ig.core a after) (fun _ _ => rfl) as r
  refine ⟨_, hexec.trans (issueWith_still h hbody ((hstill _).trans rfl)), ?_, ?_, m, ?_, hgroup, htids, hflag, hlines⟩
  · exact State.sameMemory_of_still (by simp [hstill, u])
  · exact State.sameRegisters_of_still (by simp [hstill, u]) (by simp [hfills, u])
  · rw [State.closed_later_core Core.multis (fun _ _ _ => rfl), issueAfter_foldl_core Core.multis (fun _ _ => rfl)]
    have hcu : ig.core < u.cores.length := by simpa [u] using hc
    refine (congrArg Core.multis (State.modCore_core_self hcu _)).trans ?_
    simp [u]

/-! ### PREF -/

theorem homeRead_ok {s t : State} {c : Ctx} {obj off n : Nat} {old : List Byte} {ue : Bool} (h : s.homeRead c obj off n = .ok t old ue) :
    ∃ p l, s.translate c obj off n = .at_ p l ∧ t = s.touch p n ∧ old = s.bytes p n ∧ ue = s.poisoned p n := by
  unfold State.homeRead at h
  split at h
  · next p l hx =>
    obtain ⟨rfl, rfl, rfl⟩ := Home.ok.inj h
    exact ⟨p, l, hx, rfl, rfl, rfl⟩
  all_goals exact absurd h (by simp)

theorem prefetchLane_debug (s : State) (x : Exec) (c : Ctx) (th : Thread) : (s.prefetchLane x c th).debug = s.debug := by
  unfold State.prefetchLane
  dsimp only
  split
  · rfl
  · split
    · split
      · next hr =>
        obtain ⟨p, l, -, rfl, -⟩ := homeRead_ok hr
        have hd := State.debug_of_bare (s.touch_bare p 256)
        exact hd
      · rfl
      · rfl
    · split
      · split
        · rfl
        · exact State.debug_of_bareOfContexts (t := s.faultRecord _ _) (s.faultRecord_bare _ _)
      · rfl

theorem pref_issues (f : Insn) (s : State) (ig : IssueGroup) (act : List Thread) (c : Ctx) (h : Admits s (.pref f) f ig act) :
    let x := s.about (.pref f) f ig act
    let u := s.acting x
    u.ctx? (u.ctxOfExec x) = some c → (∀ th ∈ act, u.cachedView ig.core c.num (ptrIndex (u.ptr th f.opa)) ≠ none) →
    (act.foldl (fun t th => t.prefetchLane x c th) u).broken = none →
    exec (.pref f) s = .next ((act.foldl (fun t th => t.prefetchLane x c th) u).closed x (.pref f) .atIssue false) := by
  intro x u hctx hheld hb
  rw [show exec (.pref f) s = execPref f s from rfl, execPref]
  refine issueWith_done h ?_ hb ?_
  · rw [hctx]
    simp only []
    split
    · next th hfind =>
      exact absurd (by simpa using List.find?_some hfind) (hheld th (List.mem_of_find?_eq_some hfind))
    · rfl
  · exact (foldl_frame State.debug _ (fun t th => prefetchLane_debug t x c th) act u).trans ((s.acting_debug x).trans h.untraced)

end Sys2Proof.Machine

namespace Sys2Proof.Proofs

open Machine

/-- Settles O34. Where the checks pass, the body of the instruction is one update of its core; what closes an instruction that completes
later leaves that part of the core alone. PREF is the fold of its lanes. -/
theorem asynchronousIssue : Obligations.AsynchronousIssue := by
  refine ⟨fun f s ig act g h hc => ?_, fun red i f s ig act g c group hi h hc => ?_, fun f s ig act c h => pref_issues f s ig act c h⟩
  · intro x u n hall hranges hwait
    obtain ⟨r, hr⟩ := ldgl_issues f s ig act g h hall hranges hwait
    have hcu : ig.core < u.cores.length := by simpa [u] using hc
    refine ⟨_, hr, State.sameMemory_of_still (by simp), State.sameRegisters_of_still (by simp) (by simp), ?_,
      u.ldglCopies x f (act.map g), ?_, ?_⟩
    · rw [State.closed_later_core (fun k => k.ranges.length) (fun _ _ _ => rfl), State.modCore_core_self hcu]
      simp [u]
    · rw [State.closed_later_core Core.ldgl (fun _ _ _ => rfl), State.modCore_core_self hcu]
      simp [u, x]
    · simp only [State.ldglCopies, List.map_map]
      refine List.map_congr_left fun th hth => ?_
      obtain ⟨⟨v, -, -, -, hth', -⟩, -⟩ := hall th hth
      simp only [Function.comp, hth']
      rfl
  · rcases hi with ⟨rfl, rfl⟩ | ⟨rfl, rfl⟩
    · exact multicast_issues h hc rfl
    · exact multicast_issues h hc rfl

end Sys2Proof.Proofs
end


section
/-! PROOFS. Loads, stores, atomics, reductions and fences at issue (R180 to R185, R190 to R193, R198 to R201). -/

namespace Sys2Proof.Machine

/-! ### The data an access carries -/

theorem dataValue_eq_src {u : State} {th : Thread} {o : Operand} {regs : Nat} (h : regs ≠ 4) : u.dataValue th o regs = u.src th o regs := by
  unfold State.dataValue
  split
  · exact absurd rfl h
  · rfl

theorem sum_four (f : Nat → Nat) : ((List.range 4).map f).sum = f 0 + (f 1 + (f 2 + f 3)) := by
  simp [List.range, List.range.loop]

/-- The digits of a number of four digits to a base. -/
theorem digit_of_four {B : Nat} {d : Nat → Nat} (hd : ∀ i, d i < B) {j : Nat} (hj : j < 4) :
    d 0 * B ^ 0 + (d 1 * B ^ 1 + (d 2 * B ^ 2 + d 3 * B ^ 3)) < B ^ 4 ∧
    (d 0 * B ^ 0 + (d 1 * B ^ 1 + (d 2 * B ^ 2 + d 3 * B ^ 3))) / B ^ j % B = d j := by
  have hB : 0 < B := (Nat.zero_le _).trans_lt (hd 0)
  have hdigit : ∀ k a, (d k + B * a) % B = d k := fun k a => by rw [Nat.add_mul_mod_self_left, Nat.mod_eq_of_lt (hd k)]
  have hdrop : ∀ k a, (d k + B * a) / B = a := fun k a => by rw [Nat.add_mul_div_left _ _ hB, Nat.div_eq_of_lt (hd k), Nat.zero_add]
  have hlow : ∀ k a b, a < b → d k + B * a < B * b := fun k a b h => by
    have h1 := hd k
    have h2 := Nat.mul_le_mul_left B (Nat.succ_le_of_lt h)
    rw [Nat.mul_succ] at h2
    omega
  have hform : d 0 * B ^ 0 + (d 1 * B ^ 1 + (d 2 * B ^ 2 + d 3 * B ^ 3)) = d 0 + B * (d 1 + B * (d 2 + B * (d 3 + B * 0))) := by ring
  rw [hform]
  constructor
  · have h4 : B ^ 4 = B * (B * (B * (B * 1))) := by ring
    rw [h4]
    exact hlow 0 _ _ (hlow 1 _ _ (hlow 2 _ _ (hlow 3 0 1 (by decide))))
  · match j, hj with
    | 0, _ => rw [pow_zero, Nat.div_one, hdigit]
    | 1, _ => rw [pow_one, hdrop, hdigit]
    | 2, _ => rw [pow_two, ← Nat.div_div_eq_div_mul, hdrop, hdrop, hdigit]
    | 3, _ => rw [pow_succ, pow_two, ← Nat.div_div_eq_div_mul, ← Nat.div_div_eq_div_mul, hdrop, hdrop, hdrop, hdigit]

/-- One word of a run of four, as the bytes of 16 carry it. -/
theorem extract_run (v : Nat → BitVec 32) {j : Nat} (hj : j < 4) :
    (BitVec.ofNat 128 (((List.range 4).map fun i => (v i).toNat * 2 ^ (32 * i)).sum % 2 ^ (8 * 16))).extractLsb' (32 * j) 32 = v j := by
  obtain ⟨hlt, hj⟩ := digit_of_four (B := 2 ^ 32) (d := fun i => (v i).toNat) (fun i => (v i).isLt) hj
  have hpow : ∀ i, 2 ^ (32 * i) = (2 ^ 32) ^ i := fun i => pow_mul 2 32 i
  have h128 : 2 ^ (8 * 16) = (2 ^ 32) ^ 4 := (pow_mul 2 32 4)
  apply BitVec.eq_of_toNat_eq
  rw [sum_four, toNat_extract, BitVec.toNat_ofNat, h128, Nat.mod_mod]
  simp only [hpow]
  rw [Nat.mod_eq_of_lt hlt, hj]
theorem dataValue_run {u : State} {th : Thread} {r : BitVec 8} {e : Bool} {m : BitVec 2} {j : Nat} (hj : j < 4) :
    (BitVec.ofNat 128 (u.dataValue th (.vec r e m) 4 % 2 ^ (8 * 16))).extractLsb' (32 * j) 32 = u.vreg th (r.toNat + j) :=
  extract_run (fun i => u.vreg th (r.toNat + i)) hj

theorem sizeBytes_of_run {f : Insn} (h : sizeRegs f = 4) : sizeBytes (Forms.low3 f.mod) = 16 := by
  unfold sizeRegs at h
  split at h
  · exact absurd h (by decide)
  · split at h
    · next h6 => rw [h6]; rfl
    · exact absurd h (by decide)

theorem atomB_eq (u : State) (th : Thread) (f : Insn) : u.atomB th f.opb (Forms.qualOf f.opa) = Rule.atomB u th f := by
  unfold State.atomB Rule.atomB atomRegs
  cases f.opb with
  | imm v =>
    dsimp only
    split
    · rfl
    · split <;> exact wrap_toInt _ _
  | vec | idx | uni | pred | tile | acc | xreg | lane | hgrp | flag | lit | none => rfl

/-! ### What is issued -/

/-- An access is what the instruction issues for a lane. -/
def Rule.asIssued (u : State) (f : Insn) (opc : BitVec 8) (inLocal : Bool) (n regs : Nat) (obj off : Thread → Nat) (th : Thread) (a : Access) : Prop :=
  (a.tid, a.opc, a.mod, a.inLocal, a.obj, a.off, a.bytes) = (th.tid, opc, f.mod, inLocal, obj th, off th, n) ∧ Rule.carries u f opc n th a ∧
    (regs ≠ 0 → a.reg = u.regNo th f.opd)

theorem Rule.asIssued.takenUp {u : State} {f : Insn} {opc : BitVec 8} {inLocal : Bool} {n regs : Nat} {obj off : Thread → Nat} {th : Thread}
    {a b : Access} (h : Rule.asIssued u f opc inLocal n regs obj off th a) (hb : a.TakenUp b) : Rule.asIssued u f opc inLocal n regs obj off th b := by
  obtain ⟨id, needs, rfl⟩ := hb
  exact h

/-- What one lane of an access instruction does: one access, its registers left empty under the next number, and nothing else of the stores. -/
structure LaneIssues (core : Nat) (acc : Access) (home reg lane regs : Nat) (t t' : State) : Prop where
  takes : core < t.cores.length → State.TakesUp core Access.TakenUp [acc] t t'
  still : t'.still = t.still
  fills : t'.fills = (t.markEmptyRun home reg lane t.nextId regs).fills
  next  : t'.nextId = t.nextId + 1

/-- The lanes of an access instruction, one after another. -/
theorem issued_of_lanes {s : State} {i : Instr} {f : Insn} {ig : IssueGroup} {act : List Thread} {opc : BitVec 8} {inLocal : Bool} {n regs : Nat}
    {obj off : Thread → Nat} {step : State → Thread → State} (acc : Thread → Access) (hc : ig.core < s.cores.length)
    (hid : s.nextId + act.length + 1 < 2 ^ 64)
    (hlane : ∀ t th, LaneIssues ig.core (acc th) th.home ((s.acting (s.about i f ig act)).regNo th f.opd) th.tid.lane regs t (step t th))
    (hacc : ∀ th ∈ act, Rule.asIssued (s.acting (s.about i f ig act)) f opc inLocal n regs obj off th (acc th)) :
    Rule.issued s ((act.foldl step (s.acting (s.about i f ig act))).closed (s.about i f ig act) i .later false) i f ig act opc inLocal n regs obj off := by
  set x := s.about i f ig act
  set u := s.acting x with hu
  have hstill : ((act.foldl step u).closed x i .later false).still = s.still := by
    rw [State.closed_still, foldl_frame State.still _ (fun t th => (hlane t th).still), hu, State.acting_still]
  obtain ⟨hv, huni, ht, hr, hm, -⟩ := State.still_eq_iff.1 hstill
  have htakes : State.TakesUp ig.core (Rule.asIssued u f opc inLocal n regs obj off) act u (act.foldl step u) :=
    State.takesUp_foldl act (fun t th hth hc => ((hlane t th).takes hc).lane rfl fun b hb => (hacc th hth).takenUp hb) u (by simpa [hu] using hc)
  obtain ⟨new, haccs, hnew⟩ := htakes.closed x i false
  refine ⟨hm, hv, huni, ht, hr, ⟨new, ?_, ?_, ?_, ?_⟩, ?_⟩
  · rw [haccs, hu, State.acting_core]
  · exact forall₂_map_eq hnew fun th a h => h.1
  · exact fun p hp => (List.forall₂_zip hnew hp).2.1
  · exact fun h0 => forall₂_map_eq hnew fun th a h => h.2.2 h0
  · intro th hth j hj
    rw [State.emptyReg, State.closed_fills]
    have hnext : u.nextId = s.nextId + 1 := s.acting_nextId x
    exact State.empties_foldl (·.home) (·.tid.lane) (fun th => u.regNo th f.opd) regs (fun t th => (hlane t th).fills) (fun t th => (hlane t th).next)
      act u (by omega) (by omega) _ _ _ (.inr ⟨th, hth, rfl, ⟨j, hj, rfl⟩, rfl⟩)

/-- A lane of a store. -/
theorem laneIssues_store (core : Nat) (a : Access) (home reg lane : Nat) (t : State) : LaneIssues core a home reg lane 0 t (t.issueAccess core a) :=
  ⟨fun h => State.issueAccess_takesUp h a, rfl, rfl, rfl⟩

/-- A lane of a load or an atomic of cluster space. -/
theorem laneIssues_empty (core : Nat) (a : Access) (home reg lane regs : Nat) (t : State) :
    LaneIssues core a home reg lane regs t ((t.markEmptyRun home reg lane t.nextId regs).issueAccess core a) :=
  ⟨fun h => (State.issueAccess_takesUp (by simpa using h) a).of_cores (by simp), by simp, rfl, by simp⟩

/-- A lane of a load or an atomic of device memory, whose line may be promoted later. -/
theorem laneIssues_promote (core : Nat) (a : Access) (home reg lane regs : Nat) (t : State) (tid : Tid) (scope obj off : Nat) :
    LaneIssues core a home reg lane regs t (((t.markEmptyRun home reg lane t.nextId regs).issueAccess core a).promote tid scope obj off) :=
  ⟨fun h => (((State.issueAccess_takesUp (s := t.markEmptyRun home reg lane t.nextId regs) (by simpa using h) a).of_cores (by simp)).lane
    (State.promote_cores _ _ _ _ _) fun b hb => hb), by simp, by simp, by simp⟩

theorem wait_free {α : Type} {l : List α} {p : α → Bool} (h : ∀ a ∈ l, p a = false) : ¬(l.any p = true) := by
  simpa using h

/-- No load stands ahead of a store that has one run of bytes. -/
theorem loadAhead_false {u : State} {core : Nat} {a : Access} (h : Rule.noLoadAhead u core a.tid a.inLocal a.obj a.off a.bytes)
    (hopc : a.is [0xE0] = false) : u.loadAhead core a.tid a = false := by
  unfold State.loadAhead
  simp only [List.any_eq_false, Bool.and_eq_true, decide_eq_true_eq]
  rintro b hb ⟨⟨ht, hr⟩, ho⟩
  simp only [Access.overlaps, Access.spans, hopc, Bool.false_eq_true, if_false, List.any_cons, List.any_nil, Bool.or_false, List.any_eq_true,
    Bool.and_eq_true, decide_eq_true_eq, beq_iff_eq] at ho
  obtain ⟨q, hq, ⟨⟨hloc, hobj⟩, hlo⟩, hhi⟩ := ho
  have hspans : q ∈ b.spans := hq
  exact h b hb ht hr q hspans ⟨hloc.symm, hobj.symm, hhi, hlo⟩

/-- An instruction whose effect is that of its lanes issues the accesses of its lanes. -/
theorem issues_of_lanes {s : State} {i : Instr} {f : Insn} {ig : IssueGroup} {act : List Thread} {opc : BitVec 8} {inLocal : Bool} {n regs : Nat}
    {obj off : Thread → Nat} {step : State → Thread → State} {body : State → Exec → Act} (acc : Thread → Access) (h : Admits s i f ig act)
    (hexec : exec i s = issueWith i f body s)
    (hbody : body (s.acting (s.about i f ig act)) (s.about i f ig act) = .done (act.foldl step (s.acting (s.about i f ig act))) .later false)
    (hc : ig.core < s.cores.length) (hid : s.nextId + act.length + 1 < 2 ^ 64)
    (hlane : ∀ t th, LaneIssues ig.core (acc th) th.home ((s.acting (s.about i f ig act)).regNo th f.opd) th.tid.lane regs t (step t th))
    (hacc : ∀ th ∈ act, Rule.asIssued (s.acting (s.about i f ig act)) f opc inLocal n regs obj off th (acc th)) :
    ∃ t, exec i s = .next t ∧ Rule.issued s t i f ig act opc inLocal n regs obj off :=
  ⟨_, hexec.trans (issueWith_still h hbody (foldl_frame State.still _ (fun t th => (hlane t th).still) _ _)),
    issued_of_lanes acc hc hid hlane hacc⟩

/-! ### What each kind of access carries -/

theorem carries_load {u : State} {f : Insn} {opc : BitVec 8} {n : Nat} {th : Thread} {a : Access} (h : opc = 0xA0 ∨ opc = 0xA2) :
    Rule.carries u f opc n th a := by
  rcases h with rfl | rfl <;> exact ⟨fun h => absurd h (by decide), fun h => absurd h (by decide)⟩

theorem carries_store {u : State} {f : Insn} {opc : BitVec 8} {th : Thread} {a : Access} (h : opc = 0xA1 ∨ opc = 0xA3)
    (hd : a.data = BitVec.ofNat 128 (u.dataValue th f.opd (sizeRegs f) % 2 ^ (8 * sizeBytes (Forms.low3 f.mod)))) :
    Rule.carries u f opc (sizeBytes (Forms.low3 f.mod)) th a := by
  refine ⟨fun _ => ⟨fun h4 => ?_, fun r e m h4 hv j hj => ?_⟩, fun ha => ?_⟩
  · rw [hd, dataValue_eq_src h4]
  · rw [hd, sizeBytes_of_run h4, h4, hv]
    exact dataValue_run hj
  · rcases h with rfl | rfl <;> exact absurd ha (by decide)

theorem carries_atomic {u : State} {f : Insn} {opc : BitVec 8} {n : Nat} {th : Thread} {a : Access} (h : opc = 0xA5 ∨ opc = 0xA6 ∨ opc = 0xA7)
    (hd : a.data = BitVec.ofNat 128 (u.atomB th f.opb (Forms.qualOf f.opa))) (hq : a.qual = BitVec.ofNat 2 (Forms.qualOf f.opa))
    (hc : opc ≠ 0xA7 → a.cmp = BitVec.ofNat 64 (if Forms.low3 f.mod = 7 then u.src th f.opd (atomRegs f) else 0)) :
    Rule.carries u f opc n th a := by
  refine ⟨fun ha => ?_, fun _ => ⟨by rw [hd, atomB_eq], hq, fun h7 hm => by rw [hc h7, if_pos hm]⟩⟩
  rcases h with rfl | rfl | rfl <;> exact absurd ha (by decide)

/-! ### Through pointers -/

section
variable {f : Insn} {s : State} {ig : IssueGroup} {act : List Thread} {g : Thread → Got}

theorem checkAll_pointer {x : Exec} {u : State} {n : Nat} {need : BitVec 4} {disp : Bool}
    (hp : ∀ th ∈ x.act, Rule.passes u x (u.ptr th f.opa) (if disp then u.disp th f.opb else 0) n n need th (g th)) :
    u.checkAll x (u.ctxOfExec x) (x.act.map (wantPtr u f n need disp)) = .ok (x.act.map g) :=
  State.checkAll_ok fun th hth => wantPtr_passes (hp th hth)

/-- A lane of LD or ATOM: its registers left empty, its access taken up, its line noted. -/
def State.fetchLane (u : State) (x : Exec) (f : Insn) (regs : Nat) (acc : Got → Access) (t : State) (g : Got) : State :=
  ((t.markEmptyRun g.th.home (u.regNo g.th f.opd) g.th.tid.lane t.nextId regs).issueAccess x.ig.core (acc g)).promote g.th.tid
    (Forms.scope f.mod) g.obj g.off

theorem fetchLane_issues (u : State) (x : Exec) (f : Insn) (regs : Nat) (acc : Got → Access) (t : State) (g : Got) :
    LaneIssues x.ig.core (acc g) g.th.home (u.regNo g.th f.opd) g.th.tid.lane regs t (u.fetchLane x f regs acc t g) :=
  laneIssues_promote _ _ _ _ _ _ _ _ _ _ _

/-- LD and ATOM, whose body is `body`: each lane leaves its registers empty and takes up its access. -/
theorem fetch_issues {i : Instr} {opc : BitVec 8} {n regs : Nat} {body : State → Exec → Act} (acc : Got → Access) (h : Admits s i f ig act)
    (hc : ig.core < s.cores.length) (hid : s.nextId + act.length + 1 < 2 ^ 64) (hg : ∀ th, (g th).th = th)
    (hexec : exec i s = issueWith i f body s)
    (hbody : body (s.acting (s.about i f ig act)) (s.about i f ig act) =
      .done ((act.map g).foldl ((s.acting (s.about i f ig act)).fetchLane (s.about i f ig act) f regs acc) (s.acting (s.about i f ig act))) .later false)
    (hacc : ∀ th, Rule.asIssued (s.acting (s.about i f ig act)) f opc false n regs (fun th => (g th).obj) (fun th => (g th).off) th (acc (g th))) :
    ∃ t, exec i s = .next t ∧ Rule.issued s t i f ig act opc false n regs (fun th => (g th).obj) (fun th => (g th).off) := by
  refine issues_of_lanes (step := fun t th => (s.acting (s.about i f ig act)).fetchLane (s.about i f ig act) f regs acc t (g th))
    (fun th => acc (g th)) h hexec (hbody.trans ?_) hc hid (fun t th => ?_) fun th _ => hacc th
  · rw [List.foldl_map]
  · have hl := fetchLane_issues (s.acting (s.about i f ig act)) (s.about i f ig act) f regs acc t (g th)
    rw [hg th] at hl
    exact hl

/-- ST and RED, whose body is `body`: each lane takes up its access. -/
theorem send_issues {i : Instr} {opc : BitVec 8} {n : Nat} {body : State → Exec → Act} {inLocal : Bool} {obj off : Thread → Nat} (acc : Thread → Access)
    (h : Admits s i f ig act) (hc : ig.core < s.cores.length) (hid : s.nextId + act.length + 1 < 2 ^ 64)
    (hexec : exec i s = issueWith i f body s)
    (hbody : body (s.acting (s.about i f ig act)) (s.about i f ig act) =
      .done ((act.map acc).foldl (fun t a => t.issueAccess ig.core a) (s.acting (s.about i f ig act))) .later false)
    (hacc : ∀ th ∈ act, Rule.asIssued (s.acting (s.about i f ig act)) f opc inLocal n 0 obj off th (acc th)) :
    ∃ t, exec i s = .next t ∧ Rule.issued s t i f ig act opc inLocal n 0 obj off :=
  issues_of_lanes acc h hexec (hbody.trans (by rw [List.foldl_map])) hc hid (fun t th => laneIssues_store _ _ _ _ _ _) hacc

theorem access_fields {i : Instr} {opc : BitVec 8} {q : BitVec 2} {n : Nat} {th : Thread} {r : Got} (h : r.th = th) :
    let a := (s.about i f ig act).access opc q r n
    (a.tid, a.opc, a.mod, a.inLocal, a.obj, a.off, a.bytes) = (th.tid, opc, f.mod, false, r.obj, r.off, n) := by
  rw [← h]
  rfl

theorem ld_issues (h : Admits s (.ld f) f ig act) (hc : ig.core < s.cores.length) (hid : s.nextId + act.length + 1 < 2 ^ 64)
    (hg : ∀ th, (g th).th = th)
    (hp : ∀ th ∈ act, Rule.passes (s.acting (s.about (.ld f) f ig act)) (s.about (.ld f) f ig act) ((s.acting (s.about (.ld f) f ig act)).ptr th f.opa)
      ((s.acting (s.about (.ld f) f ig act)).disp th f.opb) (sizeBytes (Forms.low3 f.mod)) (sizeBytes (Forms.low3 f.mod)) rightR th (g th)) :
    ∃ t, exec (.ld f) s = .next t ∧
      Rule.issued s t (.ld f) f ig act 0xA0 false (sizeBytes (Forms.low3 f.mod)) (sizeRegs f) (fun th => (g th).obj) (fun th => (g th).off) := by
  refine fetch_issues (fun g => { (s.about (.ld f) f ig act).access 0xA0 (modOf f.opa) g (sizeBytes (Forms.low3 f.mod)) with
    reg := (s.acting (s.about (.ld f) f ig act)).regNo g.th f.opd }) h hc hid hg (show exec (.ld f) s = execLd f s from rfl) ?_ fun th => ?_
  · dsimp only
    rw [checkAll_pointer (disp := true) (by exact hp)]
    rfl
  · exact ⟨access_fields (q := 0) (hg th), carries_load (.inl rfl), fun _ => congrArg (State.regNo _ · f.opd) (hg th)⟩

theorem atom_issues (h : Admits s (.atom f) f ig act) (hc : ig.core < s.cores.length) (hid : s.nextId + act.length + 1 < 2 ^ 64)
    (hg : ∀ th, (g th).th = th)
    (hp : ∀ th ∈ act, Rule.passes (s.acting (s.about (.atom f) f ig act)) (s.about (.atom f) f ig act)
      ((s.acting (s.about (.atom f) f ig act)).ptr th f.opa) 0 (4 * atomRegs f) (4 * atomRegs f) rightA th (g th)) :
    ∃ t, exec (.atom f) s = .next t ∧
      Rule.issued s t (.atom f) f ig act 0xA5 false (4 * atomRegs f) (atomRegs f) (fun th => (g th).obj) (fun th => (g th).off) := by
  refine fetch_issues (fun g => { (s.about (.atom f) f ig act).access 0xA5 (BitVec.ofNat 2 (Forms.qualOf f.opa)) g (4 * atomRegs f) with
    reg := (s.acting (s.about (.atom f) f ig act)).regNo g.th f.opd
    data := BitVec.ofNat 128 ((s.acting (s.about (.atom f) f ig act)).atomB g.th f.opb (Forms.qualOf f.opa))
    cmp := BitVec.ofNat 64 (if Forms.low3 f.mod = 7 then (s.acting (s.about (.atom f) f ig act)).src g.th f.opd (atomRegs f) else 0) })
    h hc hid hg (show exec (.atom f) s = execAtom f s from rfl) ?_ fun th => ?_
  · dsimp only
    rw [checkAll_pointer (disp := false) (by exact hp)]
    rfl
  · refine ⟨access_fields (q := 0) (hg th), carries_atomic (.inl rfl) ?_ rfl fun _ => ?_, fun _ => congrArg (State.regNo _ · f.opd) (hg th)⟩
    · exact congrArg (fun t => BitVec.ofNat 128 (State.atomB _ t f.opb (Forms.qualOf f.opa))) (hg th)
    · exact congrArg (fun t => BitVec.ofNat 64 (if Forms.low3 f.mod = 7 then State.src _ t f.opd (atomRegs f) else 0)) (hg th)

theorem st_issues (h : Admits s (.st f) f ig act) (hc : ig.core < s.cores.length) (hid : s.nextId + act.length + 1 < 2 ^ 64)
    (hg : ∀ th, (g th).th = th)
    (hp : ∀ th ∈ act, Rule.passes (s.acting (s.about (.st f) f ig act)) (s.about (.st f) f ig act) ((s.acting (s.about (.st f) f ig act)).ptr th f.opa)
      ((s.acting (s.about (.st f) f ig act)).disp th f.opb) (sizeBytes (Forms.low3 f.mod)) (sizeBytes (Forms.low3 f.mod)) rightW th (g th))
    (hn : ∀ th ∈ act, Rule.noLoadAhead (s.acting (s.about (.st f) f ig act)) ig.core th.tid false (g th).obj (g th).off (sizeBytes (Forms.low3 f.mod))) :
    ∃ t, exec (.st f) s = .next t ∧
      Rule.issued s t (.st f) f ig act 0xA1 false (sizeBytes (Forms.low3 f.mod)) 0 (fun th => (g th).obj) (fun th => (g th).off) := by
  refine send_issues (fun th => { (s.about (.st f) f ig act).access 0xA1 0 (g th) (sizeBytes (Forms.low3 f.mod)) with
    data := BitVec.ofNat 128 ((s.acting (s.about (.st f) f ig act)).dataValue (g th).th f.opd (sizeRegs f) % 2 ^ (8 * sizeBytes (Forms.low3 f.mod))) })
    h hc hid (show exec (.st f) s = execSt f s from rfl) ?_ fun th hth => ?_
  · dsimp only
    rw [checkAll_pointer (disp := true) (by exact hp)]
    dsimp only
    rw [if_neg, List.map_map]
    · rfl
    · refine wait_free fun a ha => ?_
      rw [List.map_map] at ha
      obtain ⟨th, hth, rfl⟩ := List.mem_map.1 ha
      refine loadAhead_false ?_ rfl
      have hno := hn th hth
      rw [show th.tid = (g th).th.tid from congrArg Thread.tid (hg th).symm] at hno
      exact hno
  · refine ⟨access_fields (q := 0) (hg th), carries_store (.inl rfl) ?_, fun h0 => absurd rfl h0⟩
    exact congrArg (fun t => BitVec.ofNat 128 (State.dataValue _ t f.opd (sizeRegs f) % 2 ^ (8 * sizeBytes (Forms.low3 f.mod)))) (hg th)

theorem red_issues (h : Admits s (.red f) f ig act) (hc : ig.core < s.cores.length) (hid : s.nextId + act.length + 1 < 2 ^ 64)
    (hg : ∀ th, (g th).th = th)
    (hp : ∀ th ∈ act, Rule.passes (s.acting (s.about (.red f) f ig act)) (s.about (.red f) f ig act)
      ((s.acting (s.about (.red f) f ig act)).ptr th f.opa) 0 (4 * atomRegs f) (4 * atomRegs f) rightA th (g th))
    (hn : ∀ th ∈ act, Rule.noLoadAhead (s.acting (s.about (.red f) f ig act)) ig.core th.tid false (g th).obj (g th).off (4 * atomRegs f)) :
    ∃ t, exec (.red f) s = .next t ∧
      Rule.issued s t (.red f) f ig act 0xA7 false (4 * atomRegs f) 0 (fun th => (g th).obj) (fun th => (g th).off) := by
  refine send_issues (fun th => { (s.about (.red f) f ig act).access 0xA7 (BitVec.ofNat 2 (Forms.qualOf f.opa)) (g th) (4 * atomRegs f) with
    data := BitVec.ofNat 128 ((s.acting (s.about (.red f) f ig act)).atomB (g th).th f.opb (Forms.qualOf f.opa)) })
    h hc hid (show exec (.red f) s = execRed f s from rfl) ?_ fun th hth => ?_
  · dsimp only
    rw [checkAll_pointer (disp := false) (by exact hp)]
    dsimp only
    rw [if_neg, List.map_map]
    · rfl
    · refine wait_free fun a ha => ?_
      rw [List.map_map] at ha
      obtain ⟨th, hth, rfl⟩ := List.mem_map.1 ha
      refine loadAhead_false ?_ rfl
      have hno := hn th hth
      rw [show th.tid = (g th).th.tid from congrArg Thread.tid (hg th).symm] at hno
      exact hno
  · refine ⟨access_fields (q := 0) (hg th), carries_atomic (.inr (.inr rfl)) ?_ rfl fun h7 => absurd rfl h7, fun h0 => absurd rfl h0⟩
    exact congrArg (fun t => BitVec.ofNat 128 (State.atomB _ t f.opb (Forms.qualOf f.opa))) (hg th)

end

/-! ### In cluster space -/

section
variable {f : Insn} {s : State} {ig : IssueGroup} {act : List Thread} {off : Thread → Nat}

/-- The place a lane names: the address and, but for an atomic, the displacement; aligned, in the gang's memory, and being filled by nothing. -/
def Rule.localPlace (u : State) (core : Nat) (f : Insn) (atomic : Bool) (n : Nat) (off : Thread → Nat) (th : Thread) : Prop :=
  (off th : Int) = u.localAddr th f.opa + (if atomic = true ∨ f.opb = .none then 0 else u.disp th f.opb) ∧ off th % n = 0 ∧ off th + n ≤ clusterBytes ∧
    (∃ b, u.block? th.tid.block = some b ∧ u.gangLocal b (off th) n = true) ∧ ∀ r ∈ (u.core core).ranges, r.hi ≤ off th ∨ off th + n ≤ r.lo

/-- The place as the instruction computes it. -/
theorem wantLocal_of_place {u : State} {core n : Nat} {atomic : Bool} {th : Thread} (h : Rule.localPlace u core f atomic n off th) :
    wantLocal u f.opa (if atomic then .none else f.opb) 0 n n false th = { th, slot := 0, a := off th, n, al := n, own := false } := by
  obtain ⟨ha, -⟩ := h
  unfold wantLocal
  rw [ha]
  cases atomic with
  | true => simp
  | false => cases hb : f.opb <;> simp

theorem wants_of_place {u : State} {core n : Nat} {atomic : Bool} (h : ∀ th ∈ act, Rule.localPlace u core f atomic n off th) :
    act.map (wantLocal u f.opa (if atomic then .none else f.opb) 0 n n false) =
      act.map fun th => { th, slot := 0, a := off th, n, al := n, own := false } :=
  List.map_congr_left fun th hth => wantLocal_of_place (h th hth)

theorem localTrap_of_place {u : State} {x : Exec} {core n : Nat} {atomic : Bool} (h : ∀ th ∈ act, Rule.localPlace u core f atomic n off th) :
    u.localTrap x (act.map fun th => { th, slot := 0, a := off th, n, al := n, own := false }) = none := by
  refine State.localTrap_none fun th hth => ?_
  obtain ⟨-, hal, h1, ⟨b, hb, hgang⟩, -⟩ := h th hth
  refine State.checkLocal_none (b := b) ?_ hb (Int.natCast_nonneg _) ?_ (by simpa using hgang)
  · show (off th : Int) % (n : Int) = 0
    exact_mod_cast congrArg (Nat.cast (R := Int)) hal
  · show (off th : Int) + n ≤ clusterBytes
    exact_mod_cast h1

theorem rangeBusy_of_place {u : State} {core n : Nat} {atomic : Bool} {th : Thread} (h : Rule.localPlace u core f atomic n off th) :
    u.rangeBusy core (off th) n = false := by
  obtain ⟨-, -, -, -, hr⟩ := h
  unfold State.rangeBusy
  simp only [List.any_eq_false, Bool.and_eq_true, decide_eq_true_eq]
  intro r hmem ⟨h1, h2⟩
  have := hr r hmem
  omega

/-- A lane of LDL or ATOML: its registers left empty, its access taken up. -/
def State.fetchLocalLane (u : State) (x : Exec) (f : Insn) (regs : Nat) (acc : WantLocal → Access) (t : State) (w : WantLocal) : State :=
  (t.markEmptyRun w.th.home (u.regNo w.th f.opd) w.th.tid.lane t.nextId regs).issueAccess x.ig.core (acc w)

theorem fetchLocal_issues {i : Instr} {opc : BitVec 8} {n regs : Nat} {body : State → Exec → Act} (acc : WantLocal → Access) (h : Admits s i f ig act)
    (hc : ig.core < s.cores.length) (hid : s.nextId + act.length + 1 < 2 ^ 64) (hexec : exec i s = issueWith i f body s)
    (hbody : body (s.acting (s.about i f ig act)) (s.about i f ig act) =
      .done ((act.map fun th => ({ th, slot := 0, a := off th, n, al := n, own := false } : WantLocal)).foldl
        ((s.acting (s.about i f ig act)).fetchLocalLane (s.about i f ig act) f regs acc) (s.acting (s.about i f ig act))) .later false)
    (hacc : ∀ th, Rule.asIssued (s.acting (s.about i f ig act)) f opc true n regs (fun _ => 0) off th
      (acc { th, slot := 0, a := off th, n, al := n, own := false })) :
    ∃ t, exec i s = .next t ∧ Rule.issued s t i f ig act opc true n regs (fun _ => 0) off :=
  issues_of_lanes (step := fun t th => (s.acting (s.about i f ig act)).fetchLocalLane (s.about i f ig act) f regs acc t
    { th, slot := 0, a := off th, n, al := n, own := false })
    (fun th => acc { th, slot := 0, a := off th, n, al := n, own := false }) h hexec (hbody.trans (by rw [List.foldl_map])) hc hid
    (fun t th => laneIssues_empty _ _ _ _ _ _ _) fun th _ => hacc th

theorem ldl_issues (h : Admits s (.ldl f) f ig act) (hc : ig.core < s.cores.length) (hid : s.nextId + act.length + 1 < 2 ^ 64)
    (hp : ∀ th ∈ act, Rule.localPlace (s.acting (s.about (.ldl f) f ig act)) ig.core f false (sizeBytes (Forms.low3 f.mod)) off th) :
    ∃ t, exec (.ldl f) s = .next t ∧
      Rule.issued s t (.ldl f) f ig act 0xA2 true (sizeBytes (Forms.low3 f.mod)) (sizeRegs f) (fun _ => 0) off := by
  refine fetchLocal_issues (fun w => { (s.about (.ldl f) f ig act).accessLocal 0xA2 w with
    reg := (s.acting (s.about (.ldl f) f ig act)).regNo w.th f.opd }) h hc hid (show exec (.ldl f) s = execLdl f s from rfl) ?_ fun th => ?_
  · dsimp only
    have hw := wants_of_place hp
    simp only [Bool.false_eq_true, if_false] at hw
    rw [State.about_act, hw, localTrap_of_place hp]
    dsimp only
    rw [if_neg]
    · rfl
    · refine wait_free fun w hw => ?_
      obtain ⟨th, hth, rfl⟩ := List.mem_map.1 hw
      exact rangeBusy_of_place (hp th hth)
  · exact ⟨rfl, carries_load (.inr rfl), fun _ => rfl⟩

theorem atoml_issues (h : Admits s (.atoml f) f ig act) (hc : ig.core < s.cores.length) (hid : s.nextId + act.length + 1 < 2 ^ 64)
    (hp : ∀ th ∈ act, Rule.localPlace (s.acting (s.about (.atoml f) f ig act)) ig.core f true (4 * atomRegs f) off th) :
    ∃ t, exec (.atoml f) s = .next t ∧ Rule.issued s t (.atoml f) f ig act 0xA6 true (4 * atomRegs f) (atomRegs f) (fun _ => 0) off := by
  refine fetchLocal_issues (fun w => { (s.about (.atoml f) f ig act).accessLocal 0xA6 w with
    reg := (s.acting (s.about (.atoml f) f ig act)).regNo w.th f.opd
    qual := BitVec.ofNat 2 (Forms.qualOf f.opa)
    data := BitVec.ofNat 128 ((s.acting (s.about (.atoml f) f ig act)).atomB w.th f.opb (Forms.qualOf f.opa))
    cmp := BitVec.ofNat 64 (if Forms.low3 f.mod = 7 then (s.acting (s.about (.atoml f) f ig act)).src w.th f.opd (atomRegs f) else 0) })
    h hc hid (show exec (.atoml f) s = execAtoml f s from rfl) ?_ fun th => ?_
  · dsimp only
    have hw := wants_of_place hp
    simp only [if_true] at hw
    rw [State.about_act, hw, localTrap_of_place hp]
    dsimp only
    rw [if_neg]
    · rfl
    · refine wait_free fun w hw => ?_
      obtain ⟨th, hth, rfl⟩ := List.mem_map.1 hw
      exact rangeBusy_of_place (hp th hth)
  · exact ⟨rfl, carries_atomic (.inr (.inl rfl)) rfl rfl fun _ => rfl, fun _ => rfl⟩

theorem stl_issues (h : Admits s (.stl f) f ig act) (hc : ig.core < s.cores.length) (hid : s.nextId + act.length + 1 < 2 ^ 64)
    (hp : ∀ th ∈ act, Rule.localPlace (s.acting (s.about (.stl f) f ig act)) ig.core f false (sizeBytes (Forms.low3 f.mod)) off th)
    (hn : ∀ th ∈ act, Rule.noLoadAhead (s.acting (s.about (.stl f) f ig act)) ig.core th.tid true 0 (off th) (sizeBytes (Forms.low3 f.mod))) :
    ∃ t, exec (.stl f) s = .next t ∧ Rule.issued s t (.stl f) f ig act 0xA3 true (sizeBytes (Forms.low3 f.mod)) 0 (fun _ => 0) off := by
  refine send_issues (fun th => { (s.about (.stl f) f ig act).accessLocal 0xA3
      { th, slot := 0, a := off th, n := sizeBytes (Forms.low3 f.mod), al := sizeBytes (Forms.low3 f.mod), own := false } with
    data := BitVec.ofNat 128 ((s.acting (s.about (.stl f) f ig act)).dataValue th f.opd (sizeRegs f) % 2 ^ (8 * sizeBytes (Forms.low3 f.mod))) })
    h hc hid (show exec (.stl f) s = execStl f s from rfl) ?_ fun th hth => ?_
  · dsimp only
    have hw := wants_of_place hp
    simp only [Bool.false_eq_true, if_false] at hw
    rw [State.about_act, hw, localTrap_of_place hp]
    dsimp only
    rw [if_neg, List.map_map]
    · rfl
    · refine wait_free fun a ha => ?_
      rw [List.map_map] at ha
      obtain ⟨th, hth, rfl⟩ := List.mem_map.1 ha
      exact Bool.or_eq_false_iff.2 ⟨rangeBusy_of_place (hp th hth), loadAhead_false (by exact hn th hth) rfl⟩
  · exact ⟨rfl, carries_store (.inr rfl) rfl, fun h0 => absurd rfl h0⟩

end

/-! ### Fences -/

/-- An access is the fence of a lane. -/
def Access.FenceOf (f : Insn) (opcs : List (BitVec 8)) (th : Thread) (a : Access) : Prop :=
  a.opc ∈ opcs ∧ a.mod = f.mod ∧ a.flag = setfOf f ∧ a.tid = th.tid

theorem isFence_of_opc {f : Insn} {opcs : List (BitVec 8)} {th : Thread} {a : Access} (h : a.FenceOf f opcs th) (ho : ∀ o ∈ opcs, o = 0xAB ∨ o = 0xAC) :
    a.isFence = true := by
  unfold Access.isFence Access.is
  rcases ho _ h.1 with h | h <;> rw [h] <;> rfl

@[simp] theorem State.fenceLane_still (s : State) (x : Exec) (t : Tid) (opc : BitVec 8) (args : List Nat) : (s.fenceLane x t opc args).still = s.still := rfl
@[simp] theorem State.fenceLane_fills (s : State) (x : Exec) (t : Tid) (opc : BitVec 8) (args : List Nat) : (s.fenceLane x t opc args).fills = s.fills := rfl

theorem State.fenceLane_takesUp {s t : State} {i : Instr} {f : Insn} {ig : IssueGroup} {act : List Thread} {th : Thread} {opc : BitVec 8}
    {args : List Nat} {opcs : List (BitVec 8)} (ho : opc ∈ opcs) (hc : ig.core < t.cores.length) :
    State.TakesUp ig.core (Access.FenceOf f opcs) [th] t (t.fenceLane (s.about i f ig act) th.tid opc args) := by
  refine (State.issueAccess_takesUp hc { id := 0, inst := (s.about i f ig act).inst, tid := th.tid, opc := opc, mod := f.mod
                                         flag := (s.about i f ig act).flag, pc := ig.pc, args := args }).lane rfl fun b hb => ?_
  obtain ⟨id, needs, rfl⟩ := hb
  exact ⟨ho, rfl, rfl, rfl⟩

/-- What a fence that stands behind leaves: no change of registers or memory, and one fence of each lane on the core. -/
theorem fences_issue {i : Instr} {f : Insn} {s : State} {ig : IssueGroup} {act : List Thread} {body : State → Exec → Act} {step : State → Thread → State}
    (opcs : List (BitVec 8)) (ho : ∀ o ∈ opcs, o = 0xAB ∨ o = 0xAC) (h : Admits s i f ig act) (hc : ig.core < s.cores.length)
    (hexec : exec i s = issueWith i f body s)
    (hbody : body (s.acting (s.about i f ig act)) (s.about i f ig act) = .done (act.foldl step (s.acting (s.about i f ig act))) .later false)
    (hstill : ∀ t th, (step t th).still = t.still) (hfills : ∀ t th, (step t th).fills = t.fills)
    (htakes : ∀ t th, ig.core < t.cores.length → State.TakesUp ig.core (Access.FenceOf f opcs) [th] t (step t th)) :
    ∃ t, exec i s = .next t ∧ Rule.sameMemory s t ∧ Rule.sameRegisters s t ∧
      ∃ new : List Access, (t.core ig.core).accs = (s.core ig.core).accs ++ new ∧ (∀ a ∈ new, a.isFence = true ∧ a.mod = f.mod ∧ a.flag = setfOf f) ∧
        new.map (·.tid) = act.map (·.tid) ∧ ∀ a ∈ new, a.opc ∈ opcs := by
  have hs := foldl_frame State.still step hstill act (s.acting (s.about i f ig act))
  have hf := foldl_frame State.fills step hfills act (s.acting (s.about i f ig act))
  obtain ⟨new, haccs, hnew⟩ := (State.takesUp_foldl act (fun t th _ hc => htakes t th hc) (s.acting (s.about i f ig act)) (by simpa using hc)).closed
    (s.about i f ig act) i false
  have hall : ∀ a ∈ new, ∃ th, Access.FenceOf f opcs th a := by
    intro a ha
    obtain ⟨n, hn, rfl⟩ := List.getElem_of_mem ha
    exact ⟨_, hnew.get (by rw [hnew.length_eq]; exact hn) hn⟩
  refine ⟨_, hexec.trans (issueWith_still h hbody hs), State.sameMemory_of_still (by simp [hs]), State.sameRegisters_of_still (by simp [hs]) (by simp [hf]),
    new, by rw [haccs, State.acting_core], fun a ha => ?_, forall₂_map_eq hnew fun th a h => h.2.2.2, fun a ha => ?_⟩
  · obtain ⟨th, hfence⟩ := hall a ha
    exact ⟨isFence_of_opc hfence ho, hfence.2.1, hfence.2.2.1⟩
  · obtain ⟨th, hfence⟩ := hall a ha
    exact hfence.1

/-- A lane of FENCE. -/
def State.fenceStep (x : Exec) (f : Insn) (s : State) (th : Thread) : State :=
  let lines := ((s.thread? th.tid).map (·.promoted)).getD []
  if f.mod.getLsbD 0 then
    if 16 < lines.length then s.fenceLane x th.tid 0xAC [0] else s.fenceLane x th.tid 0xAB (lines.flatMap fun l => [l.1, l.2])
  else s.fenceLane x th.tid 0xAB []

theorem fenceStep_cases (x : Exec) (f : Insn) (t : State) (th : Thread) :
    ∃ opc args, State.fenceStep x f t th = t.fenceLane x th.tid opc args ∧ (opc = 0xAB ∨ (opc = 0xAC ∧ f.mod.getLsbD 0 = true)) := by
  unfold State.fenceStep
  dsimp only
  split
  · next h =>
    split
    · exact ⟨_, _, rfl, .inr ⟨rfl, h⟩⟩
    · exact ⟨_, _, rfl, .inl rfl⟩
  · exact ⟨_, _, rfl, .inl rfl⟩

theorem fence_issues {f : Insn} {s : State} {ig : IssueGroup} {act : List Thread} (h : Admits s (.fence f) f ig act) (hc : ig.core < s.cores.length)
    (hs : 1 ≤ Forms.scope f.mod) (opcs : List (BitVec 8)) (ho : opcs = [0xAB, 0xAC] ∨ (opcs = [0xAB] ∧ f.mod.getLsbD 0 = false)) :
    ∃ t, exec (.fence f) s = .next t ∧ Rule.sameMemory s t ∧ Rule.sameRegisters s t ∧
      ∃ new : List Access, (t.core ig.core).accs = (s.core ig.core).accs ++ new ∧ (∀ a ∈ new, a.isFence = true ∧ a.mod = f.mod ∧ a.flag = setfOf f) ∧
        new.map (·.tid) = act.map (·.tid) ∧ ∀ a ∈ new, a.opc ∈ opcs := by
  refine fences_issue (step := State.fenceStep (s.about (.fence f) f ig act) f) opcs ?_ h hc (show exec (.fence f) s = execFence f s from rfl) ?_
    (fun t th => ?_) (fun t th => ?_) fun t th hc => ?_
  · rcases ho with rfl | ⟨rfl, -⟩ <;> simp
  · exact if_neg (by omega)
  · obtain ⟨opc, args, he, -⟩ := fenceStep_cases (s.about (.fence f) f ig act) f t th
    rw [he, State.fenceLane_still]
  · obtain ⟨opc, args, he, -⟩ := fenceStep_cases (s.about (.fence f) f ig act) f t th
    rw [he, State.fenceLane_fills]
  · obtain ⟨opc, args, he, hopc⟩ := fenceStep_cases (s.about (.fence f) f ig act) f t th
    rw [he]
    refine State.fenceLane_takesUp ?_ hc
    rcases hopc with rfl | ⟨rfl, hbit⟩ <;> rcases ho with rfl | ⟨rfl, h0⟩
    · simp
    · simp
    · simp
    · exact absurd (hbit.symm.trans h0) (by simp)

theorem fencex_issues {f : Insn} {s : State} {ig : IssueGroup} {act : List Thread} (h : Admits s (.fencex f) f ig act) (hc : ig.core < s.cores.length)
    (hs : Forms.scope f.mod < 5 ∨ (s.acting (s.about (.fencex f) f ig act)).headerFlag (s.about (.fencex f) f ig act) 3 = true) :
    ∃ t, exec (.fencex f) s = .next t ∧ Rule.sameMemory s t ∧ Rule.sameRegisters s t ∧
      ∃ new : List Access, (t.core ig.core).accs = (s.core ig.core).accs ++ new ∧ (∀ a ∈ new, a.isFence = true ∧ a.mod = f.mod ∧ a.flag = setfOf f) ∧
        new.map (·.tid) = act.map (·.tid) ∧ ∀ a ∈ new, a.opc ∈ ([0xAC] : List (BitVec 8)) := by
  refine fences_issue (step := fun t th => t.fenceLane (s.about (.fencex f) f ig act) th.tid 0xAC [0]) _ (by simp) h hc
    (show exec (.fencex f) s = execFencex f s from rfl) ?_ (fun t th => rfl) (fun t th => rfl) fun t th hc => State.fenceLane_takesUp (by simp) hc
  refine if_neg ?_
  · rintro ⟨h5, hf⟩
    rcases hs with hs | hs
    · omega
    · exact absurd (hf.symm.trans hs) (by simp)

theorem oprdy_effects (f : Insn) : Effects (.oprdy f) f (fun _ => .atIssue) false fun u x =>
    (if 3 ≤ Forms.scope f.mod then u.staleLines x.ig.core else u).operandsReady x (Forms.scope f.mod) := by
  refine effects_of (fun _ => rfl) (fun _ _ => rfl) (fun u x => ?_) (fun u x => ?_) <;> split <;> rfl

/-- The home group of an issue group, as the rule names it. -/
theorem operandsReady_eq (s : State) (x : Exec) (scope : Nat) : s.operandsReady x scope =
    { s with groups := s.groups.map fun g : Group =>
        if ∃ th, x.act.head? = some th ∧ g.block = th.tid.block ∧ g.index = th.tid.group then
          { g with unready := g.unready.filter (fun r => decide (scope < r.2.2)), unreadyRegs := [] }
        else g } := by
  have hgroups : s.groups.map (fun g : Group => if (x.act.head?.any fun th => decide (g.block = th.tid.block) && decide (g.index = th.tid.group)) then
        { g with unready := g.unready.filter (fun r => decide (scope < r.2.2)), unreadyRegs := [] } else g) =
      s.groups.map fun g : Group => if ∃ th, x.act.head? = some th ∧ g.block = th.tid.block ∧ g.index = th.tid.group then
        { g with unready := g.unready.filter (fun r => decide (scope < r.2.2)), unreadyRegs := [] } else g := by
    refine List.map_congr_left fun g _ => if_congr ?_ rfl rfl
    cases x.act.head? <;> simp
  show { s with groups := _ } = _
  rw [hgroups]

/-- What the access of a lane gives, with the lane itself in it. -/
def gotOf (g : Thread → Got) (th : Thread) : Got := { g th with th := th }

theorem fencesIssue : Rule.FencesIssue := by
  refine ⟨fun i f s ig act h hc hi => ?_, fun f hs => ?_, fun f s ig act h h5 hflag => ?_, fun f => ?_⟩
  · rcases hi with ⟨rfl, hs⟩ | ⟨rfl, hs⟩
    · by_cases h0 : f.mod.getLsbD 0 = false
      · obtain ⟨t, ht, hm, hr, new, haccs, hall, htids, hopc⟩ := fence_issues h hc hs [0xAB] (.inr ⟨rfl, h0⟩)
        exact ⟨t, ht, hm, hr, new, haccs, hall, htids, fun _ _ a ha => List.mem_singleton.1 (hopc a ha)⟩
      · obtain ⟨t, ht, hm, hr, new, haccs, hall, htids, -⟩ := fence_issues h hc hs [0xAB, 0xAC] (.inl rfl)
        exact ⟨t, ht, hm, hr, new, haccs, hall, htids, fun h0' => absurd h0' h0⟩
    · obtain ⟨t, ht, hm, hr, new, haccs, hall, htids, -⟩ := fencex_issues h hc hs
      exact ⟨t, ht, hm, hr, new, haccs, hall, htids, fun _ hi => absurd hi (by simp)⟩
  · refine fun s ig act h => ?_
    rw [show exec (.fence f) s = execFence f s from rfl, execFence]
    exact issueWith_still h (if_pos hs) rfl
  · refine ⟨⟨Cause.illop, (s.about (.fencex f) f ig act).mem.map fun t => (t.tid, 0), [], []⟩, rfl, ?_⟩
    rw [show exec (.fencex f) s = execFencex f s from rfl, execFencex]
    exact issueWith_takes_trap h (if_pos ⟨h5, hflag⟩) (by decide : Cause.illop ≠ Cause.cancel)
  · have h := oprdy_effects f
    simp only [operandsReady_eq] at h
    exact h

end Sys2Proof.Machine

namespace Sys2Proof.Proofs

open Machine

/-- Settles O38. Each lane takes up one access after another on the core; what closes an instruction that completes later leaves them there. -/
theorem accessesAndFencesIssue : Obligations.AccessesAndFencesIssue := by
  refine ⟨⟨?_, ?_⟩, fencesIssue⟩
  · intro i f opc n regs need disp s ig act g hi h hc hid x u hp hn
    have hpass : ∀ th ∈ act, Rule.passes u x (u.ptr th f.opa) (if disp then u.disp th f.opb else 0) n n need th (gotOf g th) := by
      intro th hth
      obtain ⟨v, hv, hck, hobj, -, hhandle⟩ := hp th hth
      exact ⟨v, hv, hck, hobj, rfl, hhandle⟩
    unfold Rule.pointerOp at hi
    split at hi
    · obtain ⟨rfl, rfl, rfl, rfl, rfl, rfl⟩ := by simpa using hi
      exact ld_issues (g := gotOf g) h hc hid (fun _ => rfl) hpass
    · obtain ⟨rfl, rfl, rfl, rfl, rfl, rfl⟩ := by simpa using hi
      exact st_issues (g := gotOf g) h hc hid (fun _ => rfl) hpass (hn rfl)
    · obtain ⟨rfl, rfl, rfl, rfl, rfl, rfl⟩ := by simpa using hi
      exact atom_issues (g := gotOf g) h hc hid (fun _ => rfl) hpass
    · obtain ⟨rfl, rfl, rfl, rfl, rfl, rfl⟩ := by simpa using hi
      exact red_issues (g := gotOf g) h hc hid (fun _ => rfl) hpass (hn rfl)
    · exact absurd hi (by simp)
  · intro i f opc n regs s ig act off hi h hc hid x u hp hn
    unfold Rule.localOp at hi
    split at hi
    · obtain ⟨rfl, rfl, rfl, rfl⟩ := by simpa using hi
      exact ldl_issues h hc hid fun th hth => ⟨(hp th hth).1.trans (by simp [u, x]), (hp th hth).2⟩
    · obtain ⟨rfl, rfl, rfl, rfl⟩ := by simpa using hi
      exact stl_issues h hc hid (fun th hth => ⟨(hp th hth).1.trans (by simp [u, x]), (hp th hth).2⟩) (hn rfl)
    · obtain ⟨rfl, rfl, rfl, rfl⟩ := by simpa using hi
      exact atoml_issues h hc hid fun th hth => ⟨(hp th hth).1.trans (by simp [u, x]), (hp th hth).2⟩
    · exact absurd hi (by simp)

end Sys2Proof.Proofs
end


section
/-! PROOFS. SPAWN, CANCEL, ENQ and REPLAY at issue (R156, R172 to R174). -/

namespace Sys2Proof.Machine

/-! ### SPAWN -/

/-- The access that a lane of SPAWN leaves. -/
def State.spawnAccess (u : State) (x : Exec) (f : Insn) (th : Thread) : Access :=
  { id := 0, inst := x.inst, tid := th.tid, opc := 0x86, mod := 0, flag := x.flag, pc := x.ig.pc
    args := u.src th f.opb 1 :: th.tid.block.index :: (List.range 14).map fun i => (u.vreg th (u.regNo th f.opa + i)).toNat }

theorem headerFlag_eq {u : State} {x : Exec} {l : Launch} (h : u.launch? x.ig.launch = some l) (b : Nat) : u.headerFlag x b = l.header.flags.getLsbD b := by
  unfold State.headerFlag
  rw [h]
  rfl

/-- What an instruction leaves whose lanes take up one access each, in their order. -/
theorem lanes_take_up {i : Instr} {f : Insn} {s : State} {ig : IssueGroup} {act : List Thread} {body : State → Exec → Act} (acc : Thread → Access)
    (h : Admits s i f ig act) (hc : ig.core < s.cores.length) (hexec : exec i s = issueWith i f body s)
    (hbody : body (s.acting (s.about i f ig act)) (s.about i f ig act) =
      .done (act.foldl (fun t th => t.issueAccess ig.core (acc th)) (s.acting (s.about i f ig act))) .later false) :
    ∃ t, exec i s = .next t ∧ Rule.sameMemory s t ∧ Rule.sameRegisters s t ∧
      ∃ new : List Access, (t.core ig.core).accs = (s.core ig.core).accs ++ new ∧ List.Forall₂ (fun th a => (acc th).TakenUp a) act new := by
  have hs := foldl_frame State.still (fun t th => t.issueAccess ig.core (acc th)) (fun t th => rfl) act (s.acting (s.about i f ig act))
  have hf := foldl_frame State.fills (fun t th => t.issueAccess ig.core (acc th)) (fun t th => rfl) act (s.acting (s.about i f ig act))
  obtain ⟨new, haccs, hnew⟩ := (State.takesUp_foldl (Q := fun th a => (acc th).TakenUp a) act
    (fun t th _ hc => (State.issueAccess_takesUp hc (acc th)).lane rfl fun b hb => hb) (s.acting (s.about i f ig act)) (by simpa using hc)).closed
    (s.about i f ig act) i false
  exact ⟨_, hexec.trans (issueWith_still h hbody hs), State.sameMemory_of_still (by simp [hs]), State.sameRegisters_of_still (by simp [hs]) (by simp [hf]),
    new, by rw [haccs, State.acting_core], hnew⟩

/-- A body that ends in a trap of a cause makes the step that trap. -/
theorem traps_of_body {i : Instr} {f : Insn} {body : State → Exec → Act} {s : State} {ig : IssueGroup} {act : List Thread} {c : BitVec 6}
    (h : Admits s i f ig act) (hexec : exec i s = issueWith i f body s) (hc : c ≠ Cause.cancel)
    (hb : ∃ tr, body (s.acting (s.about i f ig act)) (s.about i f ig act) = .trap tr ∧ tr.cause = c) :
    ∃ tr : Trap, tr.cause = c ∧ exec i s = .next (s.taken.takeTrap ig tr) := by
  obtain ⟨tr, htr, hcause⟩ := hb
  exact ⟨tr, hcause, hexec.trans (issueWith_takes_trap h htr (by rw [hcause]; exact hc))⟩

theorem spawn_entries {u : State} {f : Insn} {n : Nat} {act : List Thread} (h : ∀ th ∈ act, u.src th f.opb 1 < n) :
    act.filter (fun th => decide (n ≤ u.src th f.opb 1)) = [] :=
  List.filter_eq_nil_iff.2 fun th hth => by simpa using h th hth

section
variable {f : Insn} {s : State} {ig : IssueGroup} {act : List Thread} {l : Launch}

theorem spawn_issues (h : Admits s (.spawn f) f ig act) (hc : ig.core < s.cores.length)
    (hl : (s.acting (s.about (.spawn f) f ig act)).launch? ig.launch = some l) (hflag : l.header.flags.getLsbD 2 = true)
    (hentry : ∀ th ∈ act, (s.acting (s.about (.spawn f) f ig act)).src th f.opb 1 < l.header.entries.length)
    (hroom : (s.acting (s.about (.spawn f) f ig act)).heldRecords l + act.length ≤ 65536)
    (hdevice : ((s.acting (s.about (.spawn f) f ig act)).launches.map (s.acting (s.about (.spawn f) f ig act)).heldRecords).sum + act.length ≤ 2 ^ 20) :
    ∃ t, exec (.spawn f) s = .next t ∧ Rule.sameMemory s t ∧ Rule.sameRegisters s t ∧
      ∃ new : List Access, (t.core ig.core).accs = (s.core ig.core).accs ++ new ∧
        List.Forall₂ (fun th a => ((s.acting (s.about (.spawn f) f ig act)).spawnAccess (s.about (.spawn f) f ig act) f th).TakenUp a) act new := by
  refine lanes_take_up _ h hc (show exec (.spawn f) s = execSpawn f s from rfl) ?_
  dsimp only
  rw [headerFlag_eq hl, hflag, State.about_ig, State.about_act, hl]
  simp only [Bool.not_true, Bool.false_eq_true, if_false]
  rw [spawn_entries hentry, if_neg (by simp), if_neg (by omega)]
  rfl

theorem spawn_illop (h : Admits s (.spawn f) f ig act) (hl : (s.acting (s.about (.spawn f) f ig act)).launch? ig.launch = some l)
    (hbad : l.header.flags.getLsbD 2 = false ∨ ∃ th ∈ act, l.header.entries.length ≤ (s.acting (s.about (.spawn f) f ig act)).src th f.opb 1) :
    ∃ tr : Trap, tr.cause = Cause.illop ∧ exec (.spawn f) s = .next (s.taken.takeTrap ig tr) := by
  refine traps_of_body h (show exec (.spawn f) s = execSpawn f s from rfl) (by decide : Cause.illop ≠ Cause.cancel) ?_
  dsimp only
  rw [headerFlag_eq hl, State.about_ig, State.about_act, hl]
  cases hflag : l.header.flags.getLsbD 2
  · exact ⟨_, if_pos rfl, rfl⟩
  · obtain ⟨th, hth, hle⟩ := hbad.resolve_left (by rw [hflag]; simp)
    have hne : (act.filter fun th => decide (l.header.entries.length ≤ (s.acting (s.about (.spawn f) f ig act)).src th f.opb 1)).isEmpty = false :=
      List.isEmpty_eq_false_iff_exists_mem.2 ⟨th, List.mem_filter.2 ⟨hth, decide_eq_true hle⟩⟩
    simp only [Bool.not_true, Bool.false_eq_true, if_false]
    rw [hne]
    exact ⟨_, if_pos rfl, rfl⟩

theorem spawn_full (h : Admits s (.spawn f) f ig act) (hl : (s.acting (s.about (.spawn f) f ig act)).launch? ig.launch = some l)
    (hflag : l.header.flags.getLsbD 2 = true)
    (hentry : ∀ th ∈ act, (s.acting (s.about (.spawn f) f ig act)).src th f.opb 1 < l.header.entries.length)
    (hfull : 65536 < (s.acting (s.about (.spawn f) f ig act)).heldRecords l + act.length) :
    ∃ tr : Trap, tr.cause = Cause.spawnfull ∧ exec (.spawn f) s = .next (s.taken.takeTrap ig tr) := by
  refine traps_of_body h (show exec (.spawn f) s = execSpawn f s from rfl) (by decide : Cause.spawnfull ≠ Cause.cancel) ?_
  dsimp only
  rw [headerFlag_eq hl, hflag, State.about_ig, State.about_act, hl]
  simp only [Bool.not_true, Bool.false_eq_true, if_false]
  rw [spawn_entries hentry, if_neg (by simp), if_pos (.inl hfull)]
  exact ⟨_, rfl, rfl⟩

end

/-! ### CANCEL -/

theorem passes_thread {u : State} {x : Exec} {p : BitVec 64} {d : Int} {n al : Nat} {need : BitVec 4} {th : Thread} {g : Got}
    (h : Rule.passes u x p d n al need th g) : g.th = th := by
  obtain ⟨v, -, -, -, hth, -⟩ := h
  exact hth

theorem cancel_issues {f : Insn} {s : State} {ig : IssueGroup} {act : List Thread} {g : Thread → Got} (h : Admits s (.cancel f) f ig act)
    (hp : ∀ th ∈ act, Rule.passes (s.acting (s.about (.cancel f) f ig act)) (s.about (.cancel f) f ig act)
      ((s.acting (s.about (.cancel f) f ig act)).ptr th f.opa) 0 1 1 rightW th (g th)) {t : State}
    (ht : t = act.foldl (fun t th => t.cancelAt ((s.acting (s.about (.cancel f) f ig act)).ctxOfExec (s.about (.cancel f) f ig act))
      ((g th).obj, (g th).off)) (s.acting (s.about (.cancel f) f ig act)))
    (hb : t.broken = none) (hd : t.debug = .none) : exec (.cancel f) s = .next (t.closed (s.about (.cancel f) f ig act) (.cancel f) .atIssue false) := by
  rw [show exec (.cancel f) s = execCancel f s from rfl, execCancel]
  refine issueWith_done h ?_ hb hd
  dsimp only
  rw [State.about_act, State.checkAll_ok (g := g) fun th hth => Rule.passes.want (w := { th, slot := 0, p := State.ptr _ th f.opa, n := 1, al := 1, need := rightW }) (hp th hth)]
  dsimp only
  rw [List.foldl_map, ht]

/-! ### ENQ -/

/-- What an append is of, whatever it waits for. -/
def Access.enqShape (a : Access) : Tid × BitVec 8 × Nat × Nat × List Nat := (a.tid, a.opc, a.obj, a.off, a.args)

theorem issueEnqs_still (s : State) (x : Exec) (recs : List (Got × List Byte)) (before : Option Nat) : (s.issueEnqs x recs before).still = s.still := by
  induction recs generalizing s before with
  | nil => rfl
  | cons r rest ih =>
    unfold State.issueEnqs
    cases before <;> exact (ih _ _).trans rfl

theorem issueEnqs_fills (s : State) (x : Exec) (recs : List (Got × List Byte)) (before : Option Nat) : (s.issueEnqs x recs before).fills = s.fills := by
  induction recs generalizing s before with
  | nil => rfl
  | cons r rest ih =>
    unfold State.issueEnqs
    cases before <;> exact (ih _ _).trans rfl

/-- Each append takes up its access; the order among them is what it waits for alone. -/
theorem issueEnqs_accs (x : Exec) (recs : List (Got × List Byte)) (s : State) (before : Option Nat) (hc : x.ig.core < s.cores.length) :
    ((s.issueEnqs x recs before).core x.ig.core).accs.map Access.enqShape =
      (s.core x.ig.core).accs.map Access.enqShape ++ recs.map fun r => (r.1.th.tid, 0x96#8, r.1.obj, r.1.off, r.2.map (·.toNat)) := by
  induction recs generalizing s before with
  | nil => simp [State.issueEnqs]
  | cons r rest ih =>
    obtain ⟨g, bs⟩ := r
    obtain ⟨hlen, new, haccs, hnew⟩ := State.issueAccess_takesUp hc { x.access 0x96 0 g 128 with args := bs.map (·.toNat) }
    have hone : new.map Access.enqShape = [(g.th.tid, 0x96#8, g.obj, g.off, bs.map (·.toNat))] := by
      refine (forall₂_map_eq (f := Access.enqShape) hnew fun a b hb => ?_).trans rfl
      obtain ⟨id, needs, rfl⟩ := hb
      rfl
    unfold State.issueEnqs
    cases before with
    | none =>
      dsimp only
      rw [ih _ _ (hc.trans_eq hlen.symm), haccs, List.map_append, hone, List.append_assoc]
      rfl
    | some b =>
      dsimp only
      rw [ih _ _ (by rw [State.modCore_length]; exact hc.trans_eq hlen.symm), State.modCore_core_self (hc.trans_eq hlen.symm)]
      dsimp only
      rw [List.map_map, haccs]
      have hshape : (Access.enqShape ∘ fun y : Access => if y.id = s.nextId then { y with needs := b :: y.needs } else y) = Access.enqShape := by
        funext y
        simp only [Function.comp]
        split <;> rfl
      rw [hshape, List.map_append, hone, List.append_assoc]
      rfl

theorem enq_issues {f : Insn} {s : State} {ig : IssueGroup} {act : List Thread} {g : Thread → Got} (h : Admits s (.enq f) f ig act)
    (hc : ig.core < s.cores.length) :
    let x := s.about (.enq f) f ig act
    let u := s.acting x
    (∀ th ∈ act, Rule.passes u x (u.ptr th f.opa) 0 128 64 (rightW ||| rightA) th (g th) ∧ u.localAddr th f.opb % 16 = 0 ∧
      u.localAddr th f.opb + 64 ≤ clusterBytes ∧ ∃ b, u.block? th.tid.block = some b ∧ b.ownsLocal (u.localAddr th f.opb) 64 = true) →
    u.ownBusy x (act.map fun th => (th, u.localAddr th f.opb)) 64 = false →
    ∃ t, exec (.enq f) s = .next t ∧ Rule.sameMemory s t ∧ Rule.sameRegisters s t ∧
      (t.core ig.core).accs.map Access.enqShape = (s.core ig.core).accs.map Access.enqShape ++ act.map fun th => (th.tid, 0x96#8, (g th).obj, (g th).off,
        (u.bytes (localAt ig.core (u.localAddr th f.opb)) 64).map (·.toNat)) := by
  intro x u hall hbusy
  have hchecks : u.checkAll x (u.ctxOfExec x) (x.act.map fun th =>
      ({ th, slot := 0, p := u.ptr th f.opa, n := 128, al := 64, need := rightW ||| rightA } : Want)) = .ok (act.map g) :=
    State.checkAll_ok fun th hth => Rule.passes.want
      (w := { th, slot := 0, p := u.ptr th f.opa, n := 128, al := 64, need := rightW ||| rightA }) (hall th hth).1
  have hrec : u.localTrap x (x.act.map (wantLocal u f.opb .none 1 64 16 true)) = none := by
    refine State.localTrap_none fun th hth => ?_
    obtain ⟨-, hal, h1, b, hb, hown⟩ := hall th hth
    exact checkLocal_own hal hb h1 hown
  have hcu : ig.core < u.cores.length := by simpa [u] using hc
  refine ⟨((u.issueEnqs x ((act.map g).map fun g => (g, u.bytes (localAt ig.core (u.localAddr g.th f.opb)) 64)) none).closed x (.enq f) .later false), ?_,
    ?_, ?_, ?_⟩
  · rw [show exec (.enq f) s = execEnq f s from rfl, execEnq]
    refine issueWith_still h ?_ (issueEnqs_still _ _ _ _)
    dsimp only
    rw [hchecks]
    dsimp only
    rw [hrec]
    dsimp only [firstTrap]
    exact if_neg (ne_true_of_eq_false hbusy)
  · exact State.sameMemory_of_still (by simp [issueEnqs_still, u])
  · exact State.sameRegisters_of_still (by simp [issueEnqs_still, u]) (by simp [issueEnqs_fills, u])
  · rw [State.closed_later_core (fun k => k.accs.map Access.enqShape) (fun _ _ _ => rfl)]
    refine (issueEnqs_accs x _ u none hcu).trans ?_
    rw [List.map_map, List.map_map]
    refine congrArg₂ (· ++ ·) (by simp [u, x]) (List.map_congr_left fun th hth => ?_)
    simp only [Function.comp, passes_thread (hall th hth).1]

/-! ### REPLAY -/

theorem replay_issues {f : Insn} {s : State} {ig : IssueGroup} {th : Thread} {c : Ctx} (h : Admits s (.replay f) f ig [th]) :
    let x := s.about (.replay f) f ig [th]
    let u := s.acting x
    let v := u.src th f.opa (if f.mod.getLsbD 0 then 1 else 2)
    u.ctx? (u.src th f.opb 1) = some c → (f.mod.getLsbD 0 = true ∨ u.object? c (v / 2 ^ 40) ≠ none) →
    let r := u.replay c (replayKey v (f.mod.getLsbD 0))
    r.1.broken = none → r.1.debug = .none → r.2 = [] → exec (.replay f) s = .next (r.1.closed x (.replay f) .atIssue false) := by
  intro x u v hctx hobj r hb hd hsent
  rw [show exec (.replay f) s = execReplay f s from rfl, execReplay]
  refine issueWith_done h ?_ hb hd
  have hnamed : ¬((!f.mod.getLsbD 0 && (u.object? c (v / 2 ^ 40)).isNone) = true) := by
    rcases hobj with hbit | hobj
    · simp [hbit]
    · simp only [Bool.and_eq_true, Option.isNone_iff_eq_none, not_and]
      exact fun _ => hobj
  dsimp only
  rw [State.about_act, List.foldl_cons, List.foldl_nil, hctx]
  split
  · next hnone => exact absurd hnone (by simp)
  · next c' hsome =>
    obtain rfl := Option.some.inj hsome
    simp only [u, v, x] at hnamed
    simp only [if_neg hnamed]
    show (if ([] ++ r.2).isEmpty = true then Act.done r.1 .atIssue false else _) = _
    exact if_pos (by rw [hsent]; rfl)

end Sys2Proof.Machine

namespace Sys2Proof.Proofs

open Machine

/-- Settles O37. The checks of each instruction pass, or name its trap; the effect is then that of its lanes in their order. -/
theorem distributorInstructions : Obligations.DistributorInstructions := by
  refine ⟨?_, fun f s ig act g h hp hb hd => cancel_issues h hp rfl hb hd, ?_, fun f s ig th c h => replay_issues h⟩
  · intro f s ig act l h hc x u hl offs
    refine ⟨fun hflag hentry hroom hdevice => ?_, spawn_illop h hl, fun hflag hentry hfull => spawn_full h hl hflag hentry hfull⟩
    obtain ⟨t, ht, hm, hr, new, haccs, hnew⟩ := spawn_issues h hc hl hflag hentry hroom hdevice
    refine ⟨t, ht, hm, hr, new, haccs, forall₂_map_eq hnew fun th a ha => ?_⟩
    obtain ⟨id, needs, rfl⟩ := ha
    rfl
  · intro f s ig act g h hc x u hall hbusy shape
    exact enq_issues h hc hall hbusy

end Sys2Proof.Proofs
end


section
/-! PROOFS. RDSYS, WRSYS, CLOCK and WAITF (R169 to R171). -/

namespace Sys2Proof.Machine

/-! ### ISSUEMASK -/

theorem getLsbD_one_shiftLeft (l i : Nat) : ((1#128 <<< l).getLsbD i) = (decide (i < 128) && decide (i = l)) := by
  rw [BitVec.getLsbD_shiftLeft, BitVec.getLsbD_one]
  by_cases hi : i < 128 <;> by_cases hl : i < l <;> simp [hi, hl] <;> omega

/-- A mask of lanes has the bits of the lanes listed. -/
theorem getLsbD_laneMask (ls : List Nat) {i : Nat} (hi : i < 128) : (laneMask ls).getLsbD i = decide (i ∈ ls) := by
  have hfold : ∀ (m : BitVec 128), (ls.foldl (fun m l => m ||| (1#128 <<< l)) m).getLsbD i = (m.getLsbD i || decide (i ∈ ls)) := by
    induction ls with
    | nil => simp
    | cons l ls ih =>
      intro m
      rw [List.foldl_cons, ih, BitVec.getLsbD_or, getLsbD_one_shiftLeft]
      by_cases hl : i = l
      · simp [← hl, hi]
      · simp [hi, hl]
  unfold laneMask
  rw [hfold]
  simp

theorem testBit_issueMask (x : Exec) (th : Thread) {q j : Nat} (hj : j < 32) (hq : q < 4) :
    (issueMask x th q).testBit j = if th.handler then th.trapMask.getLsbD (32 * q + j) else decide ({ th.tid with lane := 32 * q + j } ∈ x.ig.members) := by
  unfold issueMask
  dsimp only
  rw [BitVec.testBit_toNat, BitVec.getLsbD_extractLsb']
  simp only [hj, decide_true, Bool.true_and]
  split
  · rfl
  · rw [getLsbD_laneMask _ (by omega)]
    refine decide_eq_decide.2 ?_
    simp only [List.mem_map, List.mem_filter, Bool.and_eq_true, decide_eq_true_eq]
    constructor
    · rintro ⟨t, ⟨ht, hb, hg⟩, hl⟩
      rw [← hb, ← hg, ← hl]
      exact ht
    · exact fun h => ⟨_, ⟨h, rfl, rfl⟩, rfl⟩

/-! ### The registers -/

theorem rdsys_effects (f : Insn) : Effects (.rdsys f) f (fun x => .at_ (x.due 4)) false fun u x =>
    (if f.mod = 6 then u.modThreads (x.act.map (·.tid)) fun t =>
      { t with clkHi := BitVec.ofNat 32 (u.quarterClocks.getD (x.ig.core / 48) 0 / 2 ^ 32) } else u).putAll x 1 4
      (x.act.map fun th => (th, u.sysValue x th)) := by
  refine effects_of (fun _ => rfl) (fun _ _ => rfl) (fun u x => ?_) (fun u x => ?_)
  · rw [State.putAll_broken]
    split <;> rfl
  · rw [State.putAll_debug]
    split <;> rfl

theorem sysValue_of_selector {u : State} {x : Exec} {th : Thread} {f : Insn} {v : Nat} (hx : x.f = f) (h : Rule.selector u x th f = some v) :
    u.sysValue x th = v := by
  subst hx
  unfold Rule.selector at h
  unfold State.sysValue
  split at h
  case h_13 heq =>
    rw [heq]
    show (Option.map _ _).getD 0 = v
    rw [h]
    rfl
  case h_17 => exact absurd h (by simp)
  all_goals
    rename_i heq
    rw [heq]
    exact Option.some.inj h

theorem wrsys_effects (f : Insn) : Effects (.wrsys f) f (fun x => .at_ (x.due 2)) false fun u x => x.act.foldl (fun t th =>
    t.writeFixed x.ig.core th.tid (.fpflags th.tid) (BitVec.ofNat 32 (u.src th f.opa 1 % 32)) (x.due 2)) u :=
  effects_of (fun _ => rfl) (fun _ _ => rfl) (fun u x => foldl_frame State.broken _ (fun t th => by simp) _ _)
    fun u x => foldl_frame State.debug _ (fun t th => by simp) _ _

theorem clock_results (f : Insn) : Results (.clock f) f 2 4 fun u x _ => (u.core x.ig.core).clock % 2 ^ 64 := by
  intro s ig act h
  rw [show exec (.clock f) s = execClock f s from rfl, execClock]
  refine issueWith_done h ?_ (by simp [h.sound]) (by simp [h.untraced])
  unfold fixedResult
  have hnow : (s.about (.clock f) f ig act).now = ((s.acting (s.about (.clock f) f ig act)).core (s.about (.clock f) f ig act).ig.core).clock := by
    rw [State.acting_core]
    rfl
  rw [hnow]

/-! ### WAITF -/

theorem clear_waitf (u : State) (x : Exec) (th : Thread) :
    th.clear (u.waitfMask x th) = (List.range 12).all fun i => !((u.src th x.f.opa 1).testBit i && th.flag i) := by
  unfold Thread.clear State.waitfMask
  rw [Bool.eq_iff_iff, List.all_eq_true, List.all_eq_true]
  refine forall_congr' fun i => forall_congr' fun hi => ?_
  rw [BitVec.getLsbD_ofNat, decide_eq_true (List.mem_range.1 hi), Bool.true_and]

theorem limitPassed_iff (since limit now : Nat) : limitPassed since limit now = true ↔ limit ≠ 0 ∧ since + limit ≤ now := by
  simp [limitPassed]

/-- Where the wait of every lane is over, all of them go on. -/
theorem waitf_goes {f : Insn} {s : State} {ig : IssueGroup} {act : List Thread} (h : Admits s (.waitf f) f ig act) :
    let x := s.about (.waitf f) f ig act
    let u := s.acting x
    (∀ th ∈ act, u.waitfOver x th = true) →
    exec (.waitf f) s = .next (((u.putAll x 1 2 (act.map fun th => (th, if th.clear (u.waitfMask x th) && !th.waitOver then 1 else 0))).unblock
      (act.map (·.tid))).closed x (.waitf f) (.at_ (x.due 2)) false) := by
  intro x u hover
  rw [show exec (.waitf f) s = execWaitf f s from rfl, execWaitf]
  refine issueWith_done h ?_ ?_ ?_
  · have hon : act.filter (u.waitfOver x) = act := List.filter_eq_self.2 hover
    have hblocked : u.waitfBlocked x = [] := by
      unfold State.waitfBlocked
      rw [List.filter_eq_nil_iff.2 fun th hth => by simpa using hover th hth]
      rfl
    dsimp only
    rw [State.about_act, hon, hblocked]
    rfl
  · exact (State.putAll_broken _ _ _ _ _).trans ((s.acting_broken x).trans h.sound)
  · exact (State.putAll_debug _ _ _ _ _).trans ((s.acting_debug x).trans h.untraced)

end Sys2Proof.Machine

namespace Sys2Proof.Proofs

open Machine

/-- Settles O36. Each instruction's body is one write of its lanes' values; that of a selector is a case of `sysValue`. -/
theorem systemRegisters : Obligations.SystemRegisters := by
  refine ⟨fun f => ⟨State.sysValue, rdsys_effects f, fun u x th v hx h => sysValue_of_selector hx h, fun u x th hx hm => ?_⟩, wrsys_effects, clock_results,
    fun f s ig act h => ?_⟩
  · have hval : u.sysValue x th = issueMask x th (u.src th f.opb 1 % 4) := by
      unfold State.sysValue
      rw [hx, hm]
      rfl
    rw [hval]
    exact ⟨BitVec.isLt _, fun j hj => testBit_issueMask x th hj (Nat.mod_lt _ (by decide))⟩
  · intro x u clear limit since hall
    have hnow : x.now = (u.core ig.core).clock := by
      rw [State.acting_core]
      rfl
    have hclear : ∀ th, th.clear (u.waitfMask x th) = clear th := fun th => clear_waitf u x th
    have hlimit : ∀ th, u.waitfLimit x th = limit th := fun th => BitVec.toNat_ofNat _ _
    refine (waitf_goes h fun th hth => ?_).trans ?_
    · show (th.clear (u.waitfMask x th) || th.waitOver || limitPassed (th.waitSince.getD x.now) (u.waitfLimit x th) x.now) = true
      rw [hclear, hlimit, hnow, Bool.or_eq_true, Bool.or_eq_true, limitPassed_iff, or_assoc]
      exact hall th hth
    · simp only [hclear, u, x]

end Sys2Proof.Proofs
end


section
/-! PROOFS. VDUP, VNARROW, VDROP and VQRY (R202 to R206, R322). -/

namespace Sys2Proof.Machine

/-! ### Entries of the view table -/

/-- Every field of an entry lies in its range. -/
def ViewEntry.Fits (e : ViewEntry) : Prop := e.obj < 2 ^ 24 ∧ e.gen < 16 ∧ e.state < 256 ∧ e.low < 2 ^ 41 ∧ e.high < 2 ^ 41

theorem ViewEntry.bytes_length (e : ViewEntry) : e.bytes.length = 32 := by simp [ViewEntry.bytes, zeros]

theorem ViewEntry.ofBytes_bytes {e : ViewEntry} (h : e.Fits) : ViewEntry.ofBytes e.bytes = e := by
  obtain ⟨ho, hg, hs, hl, hh⟩ := h
  have hr := e.rights.isLt
  obtain ⟨obj, rights, held, gen, state, low, high⟩ := e
  simp only at ho hg hs hl hh hr
  unfold ViewEntry.ofBytes ViewEntry.bytes
  simp only [List.append_assoc]
  simp only [ViewEntry.mk.injEq]
  refine ⟨?_, ?_, ?_, ?_, ?_, ?_, ?_⟩
  · rw [field_toLE_append]; omega
  · rw [field_skip _ _ _ (by decide), field_toLE_append]
    apply BitVec.eq_of_toNat_eq
    simp only [BitVec.toNat_ofNat]
    omega
  · rw [field_skip _ _ _ (by decide), field_skip _ _ _ (by decide), field_toLE_append]
    cases held <;> rfl
  · rw [field_skip _ _ _ (by decide), field_skip _ _ _ (by decide), field_skip _ _ _ (by decide), field_toLE_append]
    omega
  · rw [field_skip _ _ _ (by decide), field_skip _ _ _ (by decide), field_skip _ _ _ (by decide), field_skip _ _ _ (by decide), field_toLE_append]
    omega
  · rw [field_skip _ _ _ (by decide), field_skip _ _ _ (by decide), field_skip _ _ _ (by decide), field_skip _ _ _ (by decide),
      field_skip _ _ _ (by decide), field_toLE_append]
    omega
  · rw [field_skip _ _ _ (by decide), field_skip _ _ _ (by decide), field_skip _ _ _ (by decide), field_skip _ _ _ (by decide),
      field_skip _ _ _ (by decide), field_skip _ _ _ (by decide), field_toLE_append]
    omega

theorem ViewEntry.fits_ofBytes (bs : List Byte) : (ViewEntry.ofBytes bs).Fits := by
  refine ⟨Nat.mod_lt _ (by decide), Nat.mod_lt _ (by decide), ?_, Nat.mod_lt _ (by decide), Nat.mod_lt _ (by decide)⟩
  exact field_lt bs 7 1

theorem State.viewEntry_fits (s : State) (c : Ctx) (i : Nat) : (s.viewEntry c i).Fits := by
  unfold State.viewEntry
  dsimp only
  split <;> exact ViewEntry.fits_ofBytes _

theorem State.viewEntry_congr {s t : State} (hv : t.vault = s.vault) (ho : t.oldViews = s.oldViews) (ht : t.tick = s.tick) (c : Ctx) (i : Nat) :
    t.viewEntry c i = s.viewEntry c i := by
  have hb : t.bytes (c.viewAddr i) 32 = s.bytes (c.viewAddr i) 32 := congrArg (fun m => sgetN m (c.viewAddr i).key 32) hv
  unfold State.viewEntry
  rw [hb, ho, ht]

/-- An entry that the Teller writes reads back, whatever it held before. -/
theorem State.viewEntry_putView {s : State} {c : Ctx} {i : Nat} {e : ViewEntry} (h : (c.viewAddr i).exists_ 32 = true) (he : e.Fits) :
    (s.putView c i e).viewEntry c i = e := by
  have hb : (s.putView c i e).bytes (c.viewAddr i) 32 = e.bytes := by
    have hw := State.bytes_write_same (s := s) (p := c.viewAddr i) (bs := e.bytes) (by rw [e.bytes_length]; exact h)
    rw [e.bytes_length] at hw
    exact hw
  have hold : ((s.putView c i e).oldViews.filter fun v => v.1 == c.num && v.2.1 == i) = [] := by
    refine List.filter_eq_nil_iff.2 fun v hv => ?_
    have hv' := (List.mem_filter.1 hv).2
    rw [Bool.not_eq_true'] at hv'
    rw [hv']
    decide
  unfold State.viewEntry
  rw [hb, hold]
  dsimp only
  rw [ViewEntry.ofBytes_bytes he]
  split
  · rfl
  · simp [ViewEntry.ofBytes_bytes he, Nat.mod_one]

theorem State.setCoverage_same (s : State) (c : Ctx) (i obj lo hi : Nat) :
    (s.setCoverage c i obj lo hi).vault = s.vault ∧ (s.setCoverage c i obj lo hi).oldViews = s.oldViews ∧ (s.setCoverage c i obj lo hi).tick = s.tick ∧
      (s.setCoverage c i obj lo hi).debug = s.debug := by
  unfold State.setCoverage
  split
  · exact ⟨rfl, rfl, rfl, rfl⟩
  · split <;> exact ⟨rfl, rfl, rfl, rfl⟩

theorem State.viewEntry_makeLive {s : State} {c : Ctx} {i obj low high : Nat} {rights : BitVec 4} {held : Bool} (h : (c.viewAddr i).exists_ 32 = true)
    (ho : obj < 2 ^ 24) (hl : low < 2 ^ 41) (hh : high < 2 ^ 41) :
    (s.makeLive c i obj low high rights held).viewEntry c i = { s.viewEntry c i with obj, rights, held, state := 2, low, high } := by
  obtain ⟨-, hg, -⟩ := s.viewEntry_fits c i
  have hput := State.viewEntry_putView (s := s) (e := { s.viewEntry c i with obj, rights, held, state := 2, low, high }) h ⟨ho, hg, show 2 < 256 by decide, hl, hh⟩
  obtain ⟨hv, hold, ht, -⟩ := (s.putView c i { s.viewEntry c i with obj, rights, held, state := 2, low, high }).setCoverage_same c i obj low high
  exact (State.viewEntry_congr (by exact hv) (by exact hold) (by exact ht) c i).trans hput

theorem State.makeLive_debug (s : State) (c : Ctx) (i obj low high : Nat) (rights : BitVec 4) (held : Bool) :
    (s.makeLive c i obj low high rights held).debug = s.debug := by
  obtain ⟨-, -, -, hd⟩ := (s.putView c i { s.viewEntry c i with obj, rights, held, state := 2, low, high }).setCoverage_same c i obj low high
  exact hd.trans (State.debug_of_bare (t := s.write _ _) (State.write_bare _ _ _))

/-! ### VDUP -/

theorem State.dupView_debug (s : State) (c : Ctx) (core h : Nat) (v : CachedView) (mask : BitVec 4) : (s.dupView c core h v mask).debug = s.debug := by
  unfold State.dupView
  dsimp only
  split
  · exact (State.debug_of_bare (t := State.write _ _ _) (State.write_bare _ _ _)).trans (State.makeLive_debug _ _ _ _ _ _ _ _)
  · exact State.makeLive_debug _ _ _ _ _ _ _ _

theorem State.dupLanes_debug (c : Ctx) (core : Nat) (f : Insn) (l : List (Thread × CachedView)) (s : State) : (s.dupLanes c core f l).2.debug = s.debug := by
  induction l generalizing s with
  | nil => rfl
  | cons p l ih =>
    unfold State.dupLanes
    split
    · exact ih s
    · exact (ih _).trans (State.dupView_debug _ _ _ _ _ _)

theorem State.dupLanes_empty {u : State} {c : Ctx} {core : Nat} (h : (u.core core).handlesOf c.num = []) (f : Insn) (th : Thread) (v : CachedView)
    (rest : List (Thread × CachedView)) : (u.dupLanes c core f ((th, v) :: rest)).1 = (th, 0) :: (u.dupLanes c core f rest).1 := by
  rw [State.dupLanes, h]

theorem State.dupLanes_handle {u : State} {c : Ctx} {core h : Nat} {more : List Nat} (hh : (u.core core).handlesOf c.num = h :: more) (f : Insn)
    (th : Thread) (v : CachedView) (rest : List (Thread × CachedView)) : (u.dupLanes c core f ((th, v) :: rest)).1 =
      (th, (mkPtr h (u.viewEntry c h).gen (ptrOffset (u.ptr th f.opa))).toNat) ::
        ((u.dupView c core h v (BitVec.ofNat 4 (u.src th f.opb 1))).dupLanes c core f rest).1 := by
  rw [State.dupLanes, hh]

/-- The entry of a handle that VDUP has taken. -/
theorem State.viewEntry_dupView {u : State} {c : Ctx} {core h : Nat} {v : CachedView} {mask : BitVec 4} (hs : (u.viewEntry c v.index).state = 2)
    (hg : (u.viewEntry c v.index).gen = v.gen) (ho : v.obj < 2 ^ 24) (hl : v.low < 2 ^ 41) (hx : (c.viewAddr h).exists_ 32 = true) :
    ∃ e : ViewEntry, (u.dupView c core h v mask).viewEntry c h = { e with
      obj := v.obj, rights := v.rights &&& mask &&& (u.viewEntry c v.index).rights, held := v.held, state := 2
      low := max v.low (u.viewEntry c v.index).low
      high := max (max v.low (u.viewEntry c v.index).low) (min v.high (u.viewEntry c v.index).high) } := by
  obtain ⟨-, -, -, hlow, hhigh⟩ := u.viewEntry_fits c v.index
  unfold State.dupView
  dsimp only
  rw [if_neg (by rw [hs, hg]; simp)]
  exact ⟨_, State.viewEntry_makeLive hx ho (by omega) (by omega)⟩

/-! ### Lanes that name views -/

theorem handles_ok {u : State} {x : Exec} {ctx : Nat} {ths : List Thread} {need : BitVec 4} {v : Thread → CachedView}
    (h : ∀ th ∈ ths, Rule.namesView u x.ig.core ctx (u.ptr th x.f.opa) need (v th)) :
    u.handles x ctx ths need = (.ok [], ths.map fun th => (th, v th)) := by
  have hfind : (ths.map fun th => (th, u.ptr th x.f.opa)).find? (fun p => (u.cachedView x.ig.core ctx (ptrIndex p.2)).isNone) = none := by
    simp only [List.find?_eq_none, List.mem_map, Bool.not_eq_true]
    rintro _ ⟨th, hth, rfl⟩
    obtain ⟨hv, -⟩ := h th hth
    simp [hv]
  have hvs : ((ths.map fun th => (th, u.ptr th x.f.opa)).map fun p => (p.1, p.2, (u.cachedView x.ig.core ctx (ptrIndex p.2)).getD (noView ctx 0))) =
      ths.map fun th => (th, u.ptr th x.f.opa, v th) := by
    rw [List.map_map]
    refine List.map_congr_left fun th hth => ?_
    obtain ⟨hv, -⟩ := h th hth
    simp [hv]
  unfold State.handles
  dsimp only
  rw [hfind, hvs]
  dsimp only
  rw [if_neg, if_neg]
  · rw [List.map_map]
    rfl
  · simp only [Bool.not_eq_true', Bool.not_eq_false, List.isEmpty_iff]
    refine List.filter_eq_nil_iff.2 fun p hp => ?_
    obtain ⟨th, hth, rfl⟩ := List.mem_map.1 hp
    obtain ⟨-, -, -, -, hr⟩ := h th hth
    simp [hr]
  · simp only [Bool.not_eq_true', Bool.not_eq_false, List.isEmpty_iff]
    refine List.filter_eq_nil_iff.2 fun p hp => ?_
    obtain ⟨th, hth, rfl⟩ := List.mem_map.1 hp
    obtain ⟨-, h0, hlive, hgen, -⟩ := h th hth
    simp [h0, hlive, hgen]

theorem vdup_issues {f : Insn} {s : State} {ig : IssueGroup} {act : List Thread} {c : Ctx} {v : Thread → CachedView} (h : Admits s (.vdup f) f ig act) :
    let x := s.about (.vdup f) f ig act
    let u := s.acting x
    let ths := if ∃ n m, f.opd = .uni n m then act.take 1 else act
    u.ctx? (u.ctxOfExec x) = some c → (∀ th ∈ ths, Rule.namesView u ig.core c.num (u.ptr th f.opa) rightD (v th)) →
    (ths.length ≤ ((u.core ig.core).handlesOf c.num).length ∨ u.anyFree c = none) →
    let r := u.dupLanes c ig.core f (ths.map fun th => (th, v th))
    r.2.broken = none → exec (.vdup f) s = .next ((r.2.putAll x 2 24 r.1).closed x (.vdup f) (.at_ (x.due 24)) false) := by
  intro x u ths hctx hnames hroom r hb
  have hroom' : ¬(((u.core ig.core).handlesOf c.num).length < (ths.map fun th => (th, v th)).length ∧ (u.anyFree c).isSome = true) := by
    rintro ⟨h1, h2⟩
    rw [List.length_map] at h1
    rcases hroom with hroom | hroom
    · omega
    · simp [hroom] at h2
  rw [show exec (.vdup f) s = execVdup f s from rfl, execVdup]
  refine issueWith_done h ?_ ((State.putAll_broken _ _ _ _ _).trans hb) ((State.putAll_debug _ _ _ _ _).trans ?_)
  · dsimp only
    rw [hctx]
    dsimp only
    rw [State.about_act]
    have hall : ∀ l, l = ths → u.handles x c.num l rightD = (.ok [], ths.map fun th => (th, v th)) := by
      rintro l rfl
      exact handles_ok (by exact hnames)
    cases hopd : f.opd with
    | uni n m =>
      dsimp only
      rw [hall _ (if_pos ⟨n, m, hopd⟩).symm]
      exact if_neg hroom'
    | vec | idx | pred | tile | acc | xreg | lane | hgrp | flag | imm | lit | none =>
      dsimp only
      rw [hall _ (if_neg (by simp [hopd])).symm]
      exact if_neg hroom'
  · exact (State.dupLanes_debug _ _ _ _ _).trans ((s.acting_debug x).trans h.untraced)

/-! ### VNARROW and VDROP -/

theorem cachedView_names {u : State} {core ctx i : Nat} {v : CachedView} (h : u.cachedView core ctx i = some v) : v.ctx = ctx ∧ v.index = i := by
  unfold State.cachedView at h
  split at h
  · split at h
    · rw [← Option.some.inj h]
      exact ⟨rfl, rfl⟩
    · simpa using List.find?_some h
  · rw [← Option.some.inj h]
    exact ⟨rfl, rfl⟩

/-- The copy an operation of the Teller changes is the one the lane has named. -/
theorem cachedView_again {u : State} {core ctx i : Nat} {v : CachedView} (h : u.cachedView core ctx i = some v) :
    u.cachedView core v.ctx v.index = some v := by
  obtain ⟨hc, hi⟩ := cachedView_names h
  rw [hc, hi, h]

section
variable {f : Insn} {s : State} {ig : IssueGroup} {th : Thread} {v : CachedView}

theorem handles_one {i : Instr} {need : BitVec 4}
    (hn : Rule.namesView (s.acting (s.about i f ig [th])) ig.core ((s.acting (s.about i f ig [th])).ctxOfExec (s.about i f ig [th]))
      ((s.acting (s.about i f ig [th])).ptr th f.opa) need v) :
    (s.acting (s.about i f ig [th])).handles (s.about i f ig [th]) ((s.acting (s.about i f ig [th])).ctxOfExec (s.about i f ig [th]))
      (s.about i f ig [th]).act need = (.ok [], [(th, v)]) :=
  handles_ok (v := fun _ => v) fun t ht => by
    rw [State.about_act, List.mem_singleton] at ht
    rw [ht]
    exact hn

theorem narrowFails_one (lo hi : Nat) :
    narrowFails [] [(th, v, lo, hi)] = if v.low ≤ lo ∧ lo ≤ hi ∧ hi ≤ v.high then [] else [th] := rfl

theorem vnarrow_issues (h : Admits s (.vnarrow f) f ig [th]) :
    let x := s.about (.vnarrow f) f ig [th]
    let u := s.acting x
    let lo := (u.ptr th f.opa).toNat % 2 ^ 40
    let w := u.src th f.opb 2
    Rule.namesView u ig.core (u.ctxOfExec x) (u.ptr th f.opa) 0 v → w < 2 ^ 44 → v.low ≤ lo ∧ lo ≤ w % 2 ^ 40 ∧ w % 2 ^ 40 ≤ v.high →
    exec (.vnarrow f) s = .next (((u.viewOp x th lo v false lo (w % 2 ^ 40) (BitVec.ofNat 4 (w / 2 ^ 40))).setCached ig.core
      { v with low := lo, high := w % 2 ^ 40, rights := v.rights &&& BitVec.ofNat 4 (w / 2 ^ 40) }).closed x (.vnarrow f) .later false) := by
  intro x u lo w hn hw hin
  have hlo : ptrOffset (u.ptr th f.opa) = lo := ptrOffset_eq _
  obtain ⟨hv, -⟩ := id hn
  rw [show exec (.vnarrow f) s = execVnarrow f s from rfl, execVnarrow]
  refine issueWith_still h ?_ rfl
  dsimp only
  rw [if_neg, handles_one hn]
  · show (if (!(narrowFails [] [(th, v, ptrOffset (u.ptr th f.opa), w % 2 ^ 40)]).isEmpty) = true then _ else
        Act.done ((u.viewOp x th (ptrOffset (u.ptr th f.opa)) v false (ptrOffset (u.ptr th f.opa)) (w % 2 ^ 40) (BitVec.ofNat 4 (w / 2 ^ 40))).setCached
          ig.core { (u.cachedView ig.core v.ctx v.index).getD v with
            low := ptrOffset (u.ptr th f.opa), high := w % 2 ^ 40
            rights := ((u.cachedView ig.core v.ctx v.index).getD v).rights &&& BitVec.ofNat 4 (w / 2 ^ 40) }) .later false) = _
    rw [hlo, narrowFails_one, if_pos hin, if_neg (by simp), cachedView_again hv]
    rfl
  · simpa using hw

theorem vnarrow_widens (h : Admits s (.vnarrow f) f ig [th]) :
    let x := s.about (.vnarrow f) f ig [th]
    let u := s.acting x
    let lo := (u.ptr th f.opa).toNat % 2 ^ 40
    let w := u.src th f.opb 2
    Rule.namesView u ig.core (u.ctxOfExec x) (u.ptr th f.opa) 0 v → w < 2 ^ 44 → ¬(v.low ≤ lo ∧ lo ≤ w % 2 ^ 40 ∧ w % 2 ^ 40 ≤ v.high) →
    ∃ tr : Trap, tr.cause = Cause.widen ∧ exec (.vnarrow f) s = .next (s.taken.takeTrap ig tr) := by
  intro x u lo w hn hw hout
  have hlo : ptrOffset (u.ptr th f.opa) = lo := ptrOffset_eq _
  refine traps_of_body h (show exec (.vnarrow f) s = execVnarrow f s from rfl) (by decide : Cause.widen ≠ Cause.cancel) ?_
  dsimp only
  rw [if_neg, handles_one hn]
  · show ∃ tr, (if (!(narrowFails [] [(th, v, ptrOffset (u.ptr th f.opa), w % 2 ^ 40)]).isEmpty) = true then _ else _) = Act.trap tr ∧ _
    rw [hlo, narrowFails_one, if_neg hout]
    exact ⟨_, rfl, rfl⟩
  · simpa using hw

theorem vdrop_issues (h : Admits s (.vdrop f) f ig [th]) :
    let x := s.about (.vdrop f) f ig [th]
    let u := s.acting x
    Rule.namesView u ig.core (u.ctxOfExec x) (u.ptr th f.opa) 0 v →
    exec (.vdrop f) s = .next (((u.viewOp x th ((u.ptr th f.opa).toNat % 2 ^ 40) v true 0 0 0).setCached ig.core { v with live := false }).closed x
      (.vdrop f) .later false) := by
  intro x u hn
  obtain ⟨hv, -, hlive, -⟩ := id hn
  rw [show exec (.vdrop f) s = execVdrop f s from rfl, execVdrop]
  refine issueWith_still h ?_ rfl
  dsimp only
  rw [handles_one hn]
  show Act.done (if ((u.cachedView ig.core v.ctx v.index).getD v).live = true then
      (u.viewOp x th (ptrOffset (u.ptr th f.opa)) v true 0 0 0).setCached ig.core { (u.cachedView ig.core v.ctx v.index).getD v with live := false }
    else _) .later false = _
  rw [cachedView_again hv, Option.getD_some, if_pos hlive, ptrOffset_eq]

end

/-! ### VQRY -/

theorem vqry_issues {f : Insn} {s : State} {ig : IssueGroup} {act : List Thread} {c : Ctx} {v : Thread → CachedView} (h : Admits s (.vqry f) f ig act) :
    let x := s.about (.vqry f) f ig act
    let u := s.acting x
    u.ctx? (u.ctxOfExec x) = some c →
    (∀ th ∈ act, u.cachedView ig.core (u.ctxOfExec x) (ptrIndex (u.ptr th f.opa)) = some (v th)) →
    exec (.vqry f) s = .next ((u.putAll x (if f.mod = 2 then 1 else 2) 20 (act.map fun th => (th,
      let i := ptrIndex (u.ptr th f.opa)
      let ok := (v th).live && (v th).gen == ptrGen (u.ptr th f.opa)
      if f.mod = 2 then (if ok then 2 ^ 31 + (v th).gen * 256 + (if (v th).held then 16 else 0) + (v th).rights.toNat
        else if i = 0 ∨ c.viewEntries ≤ i then 0 else (u.viewEntry c i).gen * 256)
      else if ok then (if f.mod = 0 then (v th).low else (v th).high) % 2 ^ 40 else 0))).closed x (.vqry f) (.at_ (x.due 20)) false) := by
  intro x u hctx hheld
  rw [show exec (.vqry f) s = execVqry f s from rfl, execVqry]
  refine issueWith_done h ?_ ((State.putAll_broken _ _ _ _ _).trans ((s.acting_broken x).trans h.sound))
    ((State.putAll_debug _ _ _ _ _).trans ((s.acting_debug x).trans h.untraced))
  have hfind : x.act.find? (fun th => (u.cachedView x.ig.core (u.ctxOfExec x) (ptrIndex (u.ptr th f.opa))).isNone) = none := by
    refine List.find?_eq_none.2 fun th hth => ?_
    rw [show u.cachedView x.ig.core _ _ = some (v th) from hheld th hth]
    simp
  dsimp only
  rw [hfind, hctx]
  unfold fixedResult
  refine congrArg (fun l => Act.done (u.putAll x (if f.mod = 2 then 1 else 2) 20 l) (.at_ (x.due 20)) false) (List.map_congr_left fun th hth => ?_)
  have hv : (s.acting (s.about (.vqry f) f ig act)).cachedView (s.about (.vqry f) f ig act).ig.core
      ((s.acting (s.about (.vqry f) f ig act)).ctxOfExec (s.about (.vqry f) f ig act))
      (ptrIndex ((s.acting (s.about (.vqry f) f ig act)).ptr th f.opa)) = some (v th) := hheld th hth
  dsimp only
  rw [hv]
  refine Prod.ext rfl ?_
  dsimp only [Option.getD_some, rightsWord]
  refine if_congr Iff.rfl (if_congr Iff.rfl rfl ?_) rfl
  split
  · exact Nat.zero_mul _
  · rfl

end Sys2Proof.Machine

namespace Sys2Proof.Proofs

open Machine

/-- Settles O35. The views that the lanes name pass `handles`; the rest is each instruction's own body, and an entry that the Teller writes
reads back. -/
theorem viewInstructions : Obligations.ViewInstructions := by
  refine ⟨fun f s ig act c v h => vdup_issues h, fun u c core f th v rest => ⟨fun he => State.dupLanes_empty he f th v rest, fun h more hh hlt => ?_⟩,
    fun f s ig th v h => fun hn hw => ⟨vnarrow_issues h hn hw, vnarrow_widens h hn hw⟩, fun f s ig th v h => vdrop_issues h,
    fun f s ig act c v h => vqry_issues h⟩
  intro mask t old entry
  obtain ⟨-, hgen, -⟩ := u.viewEntry_fits c h
  obtain ⟨hi, hg, ho⟩ := pointerLayout hlt hgen (show ptrOffset (u.ptr th f.opa) < 2 ^ 40 from BitVec.isLt _)
  refine ⟨⟨_, State.dupLanes_handle hh f th v rest, hi, hg, ho⟩, fun hs hgv hobj hlow hx => ?_⟩
  obtain ⟨e, he⟩ := State.viewEntry_dupView (core := core) (mask := mask) hs hgv hobj hlow hx
  have he' : entry = _ := he
  rw [he']
  exact ⟨rfl, rfl, rfl, rfl, rfl⟩

end Sys2Proof.Proofs
end


section
/-! PROOFS. CPKICK and CHAIN (R238, R239). -/

namespace Sys2Proof.Machine

/-! ### CPKICK -/

/-- The batch that CPKICK puts on the copy engine. -/
def State.kickBatch (u : State) (x : Exec) (f : Insn) (th : Thread) : Batch :=
  { id := x.inst, block := th.tid.block, group := th.tid.group, ctx := u.ctxOfExec x, lanes := x.act.map (·.tid), flag := x.flag
    addr := u.src th f.opa 2 % 2 ^ 23, count := u.src th f.opa 2 / 2 ^ 32, pc := x.ig.pc }

section
variable {f : Insn} {s : State} {ig : IssueGroup} {act : List Thread} {th : Thread} {b : Block}

theorem cpkick_issues (h : Admits s (.cpkick f) f ig act) (hc : ig.core < s.cores.length) (hth : act.head? = some th) :
    let x := s.about (.cpkick f) f ig act
    let u := s.acting x
    let w := u.src th f.opa 2
    u.block? th.tid.block = some b → w % 2 ^ 23 % 32 = 0 → 1 ≤ w / 2 ^ 32 → w / 2 ^ 32 ≤ 256 → w % 2 ^ 23 + 32 * (w / 2 ^ 32) ≤ clusterBytes →
    u.gangLocal b (w % 2 ^ 23) (32 * (w / 2 ^ 32)) = true → u.engineWait ig.core (act.map (·.tid)) = false →
    ∃ t, exec (.cpkick f) s = .next t ∧ Rule.sameMemory s t ∧ Rule.sameRegisters s t ∧
      (t.core ig.core).batches = (s.core ig.core).batches ++ [u.kickBatch x f th] := by
  intro x u w hb hal h1 h256 hin hgang hwait
  obtain ⟨rest, rfl⟩ : ∃ rest, act = th :: rest := by
    cases act with
    | nil => simp at hth
    | cons t rest => exact ⟨rest, by rw [Option.some.inj hth]⟩
  have htrap : u.localTrap x [({ th, slot := 0, a := ((w % 2 ^ 23 : Nat) : Int), n := 32 * (w / 2 ^ 32), al := 32, own := false } : WantLocal)] = none := by
    refine State.localTrap_none (act := [th])
      (w := fun th => { th, slot := 0, a := ((w % 2 ^ 23 : Nat) : Int), n := 32 * (w / 2 ^ 32), al := 32, own := false }) fun t ht => ?_
    rw [List.mem_singleton.1 ht]
    refine State.checkLocal_none (b := b) ?_ hb (Int.natCast_nonneg _) ?_ hgang
    · show ((w % 2 ^ 23 : Nat) : Int) % ((32 : Nat) : Int) = 0
      rw [← Int.natCast_mod, hal]
      rfl
    · show ((w % 2 ^ 23 : Nat) : Int) + (32 * (w / 2 ^ 32) : Nat) ≤ clusterBytes
      exact_mod_cast hin
  refine ⟨(u.modCore ig.core fun c => { c with batches := c.batches ++ [u.kickBatch x f th] }).closed x (.cpkick f) .later false, ?_,
    State.sameMemory_of_still (by simp [u]), State.sameRegisters_of_still (by simp [u]) (by simp [u]), ?_⟩
  · rw [show exec (.cpkick f) s = execCpkick f s from rfl, execCpkick]
    refine issueWith_still h ?_ rfl
    dsimp only [State.about_act]
    rw [if_neg fun hn => hn.2.elim (Nat.pos_iff_ne_zero.1 h1) (Nat.not_lt.2 h256)]
    split
    · next t ht => exact absurd (htrap.symm.trans ht) (by simp)
    · exact if_neg (ne_true_of_eq_false hwait)
  · rw [State.closed_later_core Core.batches (fun _ _ _ => rfl), State.modCore_core_self (by simpa [u] using hc)]
    simp [u]

theorem cpkick_illop (h : Admits s (.cpkick f) f ig act) (hth : act.head? = some th) :
    let w := (s.acting (s.about (.cpkick f) f ig act)).src th f.opa 2
    w % 2 ^ 23 % 32 = 0 → w / 2 ^ 32 = 0 ∨ 256 < w / 2 ^ 32 →
    ∃ tr : Trap, tr.cause = Cause.illop ∧ exec (.cpkick f) s = .next (s.taken.takeTrap ig tr) := by
  intro w hal hn
  refine traps_of_body h (show exec (.cpkick f) s = execCpkick f s from rfl) (by decide : Cause.illop ≠ Cause.cancel) ?_
  cases act with
  | nil => simp at hth
  | cons t rest =>
    obtain rfl := Option.some.inj hth
    exact ⟨_, if_pos ⟨hal, hn⟩, rfl⟩

/-! ### CHAIN -/

theorem chainNo_eq {u : State} {x : Exec} (hth : x.act.head? = some th) : chainNo u f x = u.src th f.opa 1 := by
  unfold chainNo
  rw [hth]
  rfl

theorem chainBind_binds (h : Admits s (.chainBind f) f ig act) (hth : act.head? = some th) :
    let x := s.about (.chainBind f) f ig act
    let u := s.acting x
    let k := u.src th f.opa 1
    let prod := f.mod.toNat / 4 % 4
    let cons := f.mod.toNat % 4
    (prod = 0 ∨ prod = 3) → (cons = 0 ∨ cons = 2) → k < 8 → ((u.core ig.core).fifo k).owner = none → exec (.chainBind f) s = .next
      ((u.modCore ig.core fun c => { c with fifos := c.fifos.set k { owner := some th.tid.block, producer := prod, consumer := cons, bytes := [] } }).closed
        x (.chainBind f) .atIssue false) := by
  intro x u k prod cons hprod hcons hk howner
  rw [show exec (.chainBind f) s = execChainBind f s from rfl, execChainBind]
  refine issueWith_still h ?_ rfl
  dsimp only
  rw [chainNo_eq (th := th) (by exact hth), State.about_act, hth, State.about_ig]
  refine if_neg ?_
  rintro (⟨h1, h2⟩ | ⟨h1, h2⟩ | h1 | h1)
  · exact hprod.elim h1 h2
  · exact hcons.elim h1 h2
  · exact absurd hk (Nat.not_lt.2 h1)
  · rw [howner] at h1
    exact absurd h1 (by simp)

theorem chainBind_traps (h : Admits s (.chainBind f) f ig act) (hth : act.head? = some th) :
    let u := s.acting (s.about (.chainBind f) f ig act)
    let k := u.src th f.opa 1
    7 < k ∨ ((u.core ig.core).fifo k).owner ≠ none →
    ∃ tr : Trap, tr.cause = Cause.fifoerr ∧ exec (.chainBind f) s = .next (s.taken.takeTrap ig tr) := by
  intro u k hbad
  refine traps_of_body h (show exec (.chainBind f) s = execChainBind f s from rfl) (by decide : Cause.fifoerr ≠ Cause.cancel) ⟨_, if_pos ?_, rfl⟩
  rw [chainNo_eq (th := th) (by exact hth)]
  exact .inr (.inr (hbad.imp_right fun ho => Option.isSome_iff_ne_none.2 ho))

theorem chainUnbind_unbinds (h : Admits s (.chainUnbind f) f ig act) (hth : act.head? = some th) :
    let x := s.about (.chainUnbind f) f ig act
    let u := s.acting x
    let k := u.src th f.opa 1
    let q := (u.core ig.core).fifo k
    k < 8 → (q.owner = none ∨ (q.owner = some th.tid.block ∧ q.bytes = [] ∧ u.fifoPending ig.core k = false)) → exec (.chainUnbind f) s = .next
      ((u.modCore ig.core fun c => { c with fifos := c.fifos.set k {} }).closed x (.chainUnbind f) .atIssue false) := by
  intro x u k q hk hq
  rw [show exec (.chainUnbind f) s = execChainUnbind f s from rfl, execChainUnbind]
  refine issueWith_still h ?_ rfl
  dsimp only
  rw [chainNo_eq (th := th) (by exact hth), State.about_act, hth, State.about_ig]
  refine if_neg ?_
  rintro (h1 | ⟨hsome, hbad⟩)
  · exact absurd hk (Nat.not_lt.2 h1)
  · rcases hq with hq | ⟨ho, hbytes, hpending⟩
    · exact absurd hq (Option.isSome_iff_ne_none.1 hsome)
    · rcases hbad with h1 | h1 | h1
      · exact h1 ho
      · exact h1 hbytes
      · exact absurd (hpending.symm.trans h1) (by simp)

theorem chainUnbind_traps (h : Admits s (.chainUnbind f) f ig act) (hth : act.head? = some th) :
    let u := s.acting (s.about (.chainUnbind f) f ig act)
    let k := u.src th f.opa 1
    let q := (u.core ig.core).fifo k
    q.owner ≠ none → q.owner ≠ some th.tid.block ∨ q.bytes ≠ [] ∨ u.fifoPending ig.core k = true →
    ∃ tr : Trap, tr.cause = Cause.fifoerr ∧ exec (.chainUnbind f) s = .next (s.taken.takeTrap ig tr) := by
  intro u k q ho hbad
  refine traps_of_body h (show exec (.chainUnbind f) s = execChainUnbind f s from rfl) (by decide : Cause.fifoerr ≠ Cause.cancel) ⟨_, if_pos ?_, rfl⟩
  rw [chainNo_eq (th := th) (by exact hth), State.about_act, hth]
  exact .inr ⟨Option.isSome_iff_ne_none.2 ho, hbad⟩

end

end Sys2Proof.Machine

namespace Sys2Proof.Proofs

open Machine

/-- Settles O41, branch after branch of the three bodies. -/
theorem copyInstructions : Obligations.CopyInstructions := by
  refine ⟨?_, ?_, ?_⟩
  · intro f s ig act th b h hc hth u w hb hal
    refine ⟨fun h1 h256 hin hgang hwait => ?_, cpkick_illop h hth hal⟩
    obtain ⟨t, ht, hm, hr, hbatches⟩ := cpkick_issues h hc hth hb hal h1 h256 hin hgang hwait
    exact ⟨t, ht, hm, hr, _, hbatches, rfl, rfl, rfl, rfl, rfl, rfl⟩
  · intro f s ig act th h hth x u k prod cons hprod hcons
    exact ⟨chainBind_binds h hth hprod hcons, chainBind_traps h hth⟩
  · intro f s ig act th h hth x u k q hk
    exact ⟨chainUnbind_unbinds h hth hk, chainUnbind_traps h hth⟩

end Sys2Proof.Proofs
end


section
/-! PROOFS. TDSET, TDGET and LOCOF (R232, R233). -/

namespace Sys2Proof.Machine

/-! ### Local areas -/

theorem localArea_ok {u : State} {x : Exec} {th : Thread} {o : Operand} {slot n al : Nat} (hth : x.act.head? = some th) (h : Rule.area u th o n al) :
    localArea u x o slot n al = .ok (u.localAddr th o) := by
  obtain ⟨hal, h1, b, hb, hown⟩ := h
  obtain ⟨rest, hact⟩ : ∃ rest, x.act = th :: rest := by
    cases hx : x.act with
    | nil => simp [hx] at hth
    | cons t rest => exact ⟨rest, by rw [hx] at hth; rw [Option.some.inj hth]⟩
  have htrap : u.localTrap x ((x.act.take 1).map (wantLocal u o .none slot n al true)) = none := by
    rw [hact]
    refine State.localTrap_none fun t ht => ?_
    rw [show t = th by simpa using ht]
    exact checkLocal_own hal hb h1 hown
  unfold localArea
  rw [htrap, hth]
  rfl

theorem block?_key {u : State} {k : BlockKey} {b : Block} (h : u.block? k = some b) : b.key = k := by
  have h' := List.find?_some h
  simpa using h'

/-! ### TDSET -/

section
variable {f : Insn} {s : State} {ig : IssueGroup} {act : List Thread} {th : Thread} {b : Block}

/-- TDSET up to the checks of the image: nothing holds the tile, or is still to be written in the image. -/
def State.tdsetImage (u : State) (x : Exec) (f : Insn) (th : Thread) (b : Block) : Act :=
  let bs := u.bytes (localAt x.ig.core (u.localAddr th f.opa)) 128
  let d := descOf bs
  if !u.descOk b bs then trapAll x Cause.badfmt 0
  else if u.localBusy x.ig.core b.key th.tid.group d.mat (8 * d.n) false then .wait u
  else if (gfInv d.n (u.matrix x.ig.core d.mat d.n)).isNone then trapAll x Cause.placebad 0
  else .done ((u.modGroup b.key th.tid.group fun g =>
    { g with loading := g.loading ++ [(tileNo f.opd, x.flag)], loose := g.loose.filter (· != tileNo f.opd) }).putTile th.home (tileNo f.opd) 0 bs) .later false

/-- The 128 bytes of the image that OPA names. -/
def State.tdsetBytes (u : State) (core : Nat) (f : Insn) (th : Thread) : List Byte := u.bytes (localAt core (u.localAddr th f.opa)) 128

theorem tdsetImage_badfmt {u : State} {x : Exec} (hok : u.descOk b (u.tdsetBytes x.ig.core f th) = false) :
    u.tdsetImage x f th b = trapAll x Cause.badfmt 0 :=
  if_pos (by rw [show u.descOk b (u.bytes _ 128) = false from hok]; rfl)

theorem tdsetImage_free {u : State} {x : Exec} (hok : u.descOk b (u.tdsetBytes x.ig.core f th) = true)
    (hmat : u.localBusy x.ig.core b.key th.tid.group (descOf (u.tdsetBytes x.ig.core f th)).mat (8 * (descOf (u.tdsetBytes x.ig.core f th)).n)
      false = false) :
    u.tdsetImage x f th b =
      if (gfInv (descOf (u.tdsetBytes x.ig.core f th)).n (u.matrix x.ig.core (descOf (u.tdsetBytes x.ig.core f th)).mat
          (descOf (u.tdsetBytes x.ig.core f th)).n)).isNone then trapAll x Cause.placebad 0
      else .done ((u.modGroup b.key th.tid.group fun g =>
        { g with loading := g.loading ++ [(tileNo f.opd, x.flag)], loose := g.loose.filter (· != tileNo f.opd) }).putTile th.home (tileNo f.opd) 0
          (u.tdsetBytes x.ig.core f th)) .later false := by
  refine (if_neg ?_).trans (if_neg (ne_true_of_eq_false hmat))
  rw [show u.descOk b (u.bytes _ 128) = true from hok]
  simp

/-- Where the image can be read and the tile is free, TDSET is what its image makes of it. -/
theorem tdset_exec (h : Admits s (.tdset f) f ig act) (hth : act.head? = some th) :
    let u := s.acting (s.about (.tdset f) f ig act)
    u.block? th.tid.block = some b → Rule.area u th f.opa 128 16 → Rule.tileFree u th (tileNo f.opd) →
    u.localBusy ig.core b.key th.tid.group (u.localAddr th f.opa) 128 false = false →
    exec (.tdset f) s = issueWith (.tdset f) f (fun u x => u.tdsetImage x f th b) s := by
  intro u hb harea hfree hbusy
  have hkey := block?_key hb
  obtain ⟨hplacing, hloading⟩ := hfree
  rw [show exec (.tdset f) s = execTdset f s from rfl, execTdset, issueWith_go h, issueWith_go h]
  refine congrArg (fun a => conclude (s.taken.settleAct (s.about (.tdset f) f ig act) (.tdset f) a)) ?_
  have hbind : (s.about (.tdset f) f ig act).act.head?.bind (fun th => u.block? th.tid.block) = some b := by
    rw [State.about_act, hth]
    exact hb
  dsimp only
  rw [hbind, State.about_act, hth]
  dsimp only
  rw [localArea_ok (x := s.about (.tdset f) f ig act) (by exact hth) harea]
  dsimp only
  rw [if_neg]
  · rfl
  · rw [hkey, hplacing, hloading, ← hkey]
    simpa using hbusy

theorem tdset_takes (h : Admits s (.tdset f) f ig act) (hth : act.head? = some th) :
    let x := s.about (.tdset f) f ig act
    let u := s.acting x
    let bs := u.bytes (localAt ig.core (u.localAddr th f.opa)) 128
    let d := descOf bs
    u.block? th.tid.block = some b → Rule.area u th f.opa 128 16 → Rule.tileFree u th (tileNo f.opd) →
    u.localBusy ig.core b.key th.tid.group (u.localAddr th f.opa) 128 false = false → u.descOk b bs = true →
    u.localBusy ig.core b.key th.tid.group d.mat (8 * d.n) false = false → gfInv d.n (u.matrix ig.core d.mat d.n) ≠ none →
    exec (.tdset f) s = .next (((u.modGroup b.key th.tid.group fun g =>
      { g with loading := g.loading ++ [(tileNo f.opd, setfOf f)], loose := g.loose.filter (· != tileNo f.opd) }).putTile th.home (tileNo f.opd) 0 bs).closed
      x (.tdset f) .later false) := by
  intro x u bs d hb harea hfree hbusy hok hmat hinv
  rw [tdset_exec h hth hb harea hfree hbusy]
  refine issueWith_done h ?_ ((s.acting_broken x).trans h.sound) ((s.acting_debug x).trans h.untraced)
  have hnone : ¬((gfInv d.n (u.matrix ig.core d.mat d.n)).isNone = true) := by simpa [Option.isNone_iff_eq_none] using hinv
  exact (tdsetImage_free (x := x) hok hmat).trans (if_neg hnone)

theorem tdset_badfmt (h : Admits s (.tdset f) f ig act) (hth : act.head? = some th) :
    let u := s.acting (s.about (.tdset f) f ig act)
    u.block? th.tid.block = some b → Rule.area u th f.opa 128 16 → Rule.tileFree u th (tileNo f.opd) →
    u.localBusy ig.core b.key th.tid.group (u.localAddr th f.opa) 128 false = false →
    u.descOk b (u.bytes (localAt ig.core (u.localAddr th f.opa)) 128) = false →
    ∃ tr : Trap, tr.cause = Cause.badfmt ∧ exec (.tdset f) s = .next (s.taken.takeTrap ig tr) := by
  intro u hb harea hfree hbusy hok
  refine traps_of_body h (tdset_exec h hth hb harea hfree hbusy) (by decide : Cause.badfmt ≠ Cause.cancel) ⟨_, tdsetImage_badfmt hok, rfl⟩

theorem tdset_placebad (h : Admits s (.tdset f) f ig act) (hth : act.head? = some th) :
    let u := s.acting (s.about (.tdset f) f ig act)
    let bs := u.bytes (localAt ig.core (u.localAddr th f.opa)) 128
    let d := descOf bs
    u.block? th.tid.block = some b → Rule.area u th f.opa 128 16 → Rule.tileFree u th (tileNo f.opd) →
    u.localBusy ig.core b.key th.tid.group (u.localAddr th f.opa) 128 false = false → u.descOk b bs = true →
    u.localBusy ig.core b.key th.tid.group d.mat (8 * d.n) false = false → gfInv d.n (u.matrix ig.core d.mat d.n) = none →
    ∃ tr : Trap, tr.cause = Cause.placebad ∧ exec (.tdset f) s = .next (s.taken.takeTrap ig tr) := by
  intro u bs d hb harea hfree hbusy hok hmat hinv
  refine traps_of_body h (tdset_exec h hth hb harea hfree hbusy) (by decide : Cause.placebad ≠ Cause.cancel) ?_
  have hnone : (gfInv d.n (u.matrix ig.core d.mat d.n)).isNone = true := by rw [hinv]; rfl
  exact ⟨_, (tdsetImage_free (x := s.about (.tdset f) f ig act) hok hmat).trans (if_pos hnone), rfl⟩

/-! ### TDGET -/

theorem State.write_local_broken (s : State) (core a : Nat) (bs : List Byte) : (s.write (localAt core a) bs).broken = s.broken := by
  unfold State.write
  split <;> rfl

theorem storeLocal_frame (s : State) (core a : Nat) (bs : List Byte) :
    (s.storeLocal core a bs).broken = s.broken ∧ (s.storeLocal core a bs).debug = s.debug := by
  obtain ⟨hn, -⟩ := s.noteStray_spec core a bs.length
  refine ⟨(State.write_local_broken _ _ _ _).trans ?_, (State.debug_of_bare (State.write_bare (s.noteStray core a bs.length) _ _)).trans ?_⟩ <;> rw [hn]

theorem rawWrite_frame (s : State) (core ctx : Nat) (loc : Bool) (obj off n : Nat) :
    (s.rawWrite core ctx loc obj off n).broken = s.broken ∧ (s.rawWrite core ctx loc obj off n).debug = s.debug := by
  obtain ⟨hr, -⟩ := s.rawWrite_spec core ctx loc obj off n
  constructor <;> rw [hr]

theorem tdget_writes (h : Admits s (.tdget f) f ig act) (hth : act.head? = some th) :
    let x := s.about (.tdget f) f ig act
    let u := s.acting x
    let a := u.localAddr th f.opb
    Rule.area u th f.opb 128 16 → Rule.tileFree u th (tileNo f.opa) → u.rangeBusy ig.core a 128 = false →
    u.localBusy ig.core th.tid.block th.tid.group a 128 true = false →
    exec (.tdget f) s = .next (((u.rawWrite ig.core 0 true 0 a 128).storeLocal ig.core a (u.tile th.home (tileNo f.opa))).closed x (.tdget f)
      (.at_ (x.due 24)) false) := by
  intro x u a harea hfree hrange hbusy
  obtain ⟨hplacing, hloading⟩ := hfree
  obtain ⟨hsb, hsd⟩ := storeLocal_frame (u.rawWrite ig.core 0 true 0 a 128) ig.core a (u.tile th.home (tileNo f.opa))
  obtain ⟨hrb, hrd⟩ := rawWrite_frame u ig.core 0 true 0 a 128
  rw [show exec (.tdget f) s = execTdget f s from rfl, execTdget]
  refine issueWith_done h ?_ (hsb.trans (hrb.trans ((s.acting_broken x).trans h.sound))) (hsd.trans (hrd.trans ((s.acting_debug x).trans h.untraced)))
  dsimp only
  rw [State.about_act, hth]
  dsimp only
  rw [localArea_ok (x := s.about (.tdget f) f ig act) (by exact hth) harea]
  dsimp only
  rw [if_neg]
  · rfl
  · rw [hplacing, hloading]
    simp only [Bool.false_or, Bool.or_eq_true, not_or]
    exact ⟨ne_true_of_eq_false hrange, ne_true_of_eq_false hbusy⟩

end

/-! ### LOCOF -/

/-- A number given bit by bit. -/
theorem sum_of_bits (b : Nat → Nat) (hb : ∀ i, b i < 2) (n : Nat) :
    (List.range n).foldl (fun a i => a + b i * 2 ^ i) 0 < 2 ^ n ∧
      ∀ j, ((List.range n).foldl (fun a i => a + b i * 2 ^ i) 0).testBit j = (decide (j < n) && decide (b j = 1)) := by
  induction n with
  | zero => simp
  | succ n ih =>
    obtain ⟨hlt, hbits⟩ := ih
    rw [List.range_succ, List.foldl_append, List.foldl_cons, List.foldl_nil]
    set v := (List.range n).foldl (fun a i => a + b i * 2 ^ i) 0
    have hn := hb n
    rcases (by omega : b n = 0 ∨ b n = 1) with h0 | h1
    · rw [h0, Nat.zero_mul, Nat.add_zero]
      refine ⟨hlt.trans (Nat.pow_lt_pow_right (by decide) (Nat.lt_succ_self n)), fun j => ?_⟩
      rw [hbits]
      by_cases hj : j = n
      · simp [hj, h0]
      · refine congrArg (· && _) (decide_eq_decide.2 ⟨fun h => by omega, fun h => by omega⟩)
    · rw [h1, Nat.one_mul, Nat.add_comm]
      refine ⟨by rw [Nat.pow_succ]; omega, fun j => ?_⟩
      rcases Nat.lt_trichotomy j n with hj | rfl | hj
      · rw [Nat.testBit_two_pow_add_gt hj, hbits]
        simp [hj, hj.trans (Nat.lt_succ_self n)]
      · rw [Nat.testBit_two_pow_add_eq, hbits]
        simp [h1]
      · rw [Nat.testBit_lt_two_pow (by have := Nat.pow_le_pow_right (n := 2) (by decide) hj; rw [Nat.pow_succ] at this; omega)]
        simp [show ¬ j < n + 1 by omega]

theorem testBit_gfApply (m : List Nat) (v j : Nat) :
    (gfApply m v).testBit j = (decide (j < m.length) && decide (parity (m.getD j 0 &&& v) = 1)) :=
  (sum_of_bits (fun i => parity (m.getD i 0 &&& v)) (fun i => Nat.mod_lt _ (by decide)) m.length).2 j

theorem parity_and (r v : Nat) : parity (r &&& v) = ((List.range 64).countP fun k => v.testBit k && r.testBit k) % 2 := by
  unfold parity ones
  rw [List.countP_eq_length_filter]
  congr 2
  refine List.filter_congr fun k _ => ?_
  rw [Nat.testBit_and, Bool.and_comm]

theorem matrix_row (u : State) (core a n : Nat) {j : Nat} (hj : j < n) :
    (u.matrix core a n).getD j 0 = field (u.bytes (localAt core (a + 8 * j)) 8) 0 8 := by
  have hlen := State.bytes_length u (localAt core (a + 8 * j)) 8
  rw [State.matrix, List.getD_eq_getElem?_getD, List.getElem?_map, List.getElem?_range hj, field, List.drop_zero, List.take_of_length_le hlen.le]
  rfl

/-- What LOCOF writes in a lane. -/
def State.locofValue (u : State) (x : Exec) (f : Insn) (th : Thread) : Nat :=
  let d := descOf (u.tile th.home (tileNo f.opa))
  if u.tileLoose th.tid.block th.tid.group (tileNo f.opa) then
    (Config.freeWord u.tick (2 * th.tid.lane)).toNat + (Config.freeWord u.tick (2 * th.tid.lane + 1)).toNat % 2 ^ 16 * 2 ^ 32
  else gfApply (u.matrix x.ig.core d.mat 48) (u.src th f.opb 2) % 2 ^ 48

theorem testBit_locofValue {u : State} {x : Exec} {f : Insn} {th : Thread} (h : u.tileLoose th.tid.block th.tid.group (tileNo f.opa) = false) (j : Nat) :
    (u.locofValue x f th).testBit j = (decide (j < 48) && decide (((List.range 64).countP fun k => (u.src th f.opb 2).testBit k &&
      (field (u.bytes (localAt x.ig.core ((descOf (u.tile th.home (tileNo f.opa))).mat + 8 * j)) 8) 0 8).testBit k) % 2 = 1)) := by
  unfold State.locofValue
  dsimp only
  rw [if_neg (ne_true_of_eq_false h), Nat.testBit_mod_two_pow, testBit_gfApply]
  by_cases hj : j < 48
  · rw [matrix_row _ _ _ _ hj, parity_and]
    simp [hj, State.matrix]
  · simp [hj]

theorem descBad_false {d : Desc} (h : d.rank ≠ 0) : d.bad false = false := by simp [Desc.bad, h]

section
variable {f : Insn} {s : State} {ig : IssueGroup} {act : List Thread}

/-- Where no tile is loading and each holds a tensor, LOCOF is what its indexes make of it. -/
theorem locof_exec (h : Admits s (.locof f) f ig act) :
    let u := s.acting (s.about (.locof f) f ig act)
    (∀ th ∈ act, u.tileLoading th.tid.block th.tid.group (tileNo f.opa) = false ∧ (descOf (u.tile th.home (tileNo f.opa))).rank ≠ 0) →
    exec (.locof f) s = issueWith (.locof f) f (fun u x => match indexTrap x (u.elemNames x) with
      | some t => .trap t
      | none => fixedResult u x 2 8 (u.locofValue x f)) s := by
  intro u hall
  rw [show exec (.locof f) s = execLocof f s from rfl, execLocof, issueWith_go h, issueWith_go h]
  refine congrArg (fun a => conclude (s.taken.settleAct (s.about (.locof f) f ig act) (.locof f) a)) ?_
  dsimp only
  rw [if_neg, if_neg]
  · rfl
  · simp only [List.any_eq_true, not_exists, not_and, State.elemNames, List.mem_map]
    rintro _ ⟨th, hth, rfl⟩
    exact ne_true_of_eq_false (descBad_false (hall th hth).2)
  · simp only [List.any_eq_true, not_exists, not_and, State.elemNames, List.mem_map]
    rintro _ ⟨th, hth, rfl⟩
    exact ne_true_of_eq_false (hall th hth).1

/-- The lanes whose index is none of their tensor's. -/
theorem indexTrap_none {x : Exec} {u : State} (h : ∀ th ∈ x.act, u.src th x.f.opb 2 < 2 ^ (descOf (u.tile th.home (tileNo x.f.opa))).n) :
    indexTrap x (u.elemNames x) = none := by
  unfold indexTrap
  dsimp only
  rw [if_pos]
  rw [List.isEmpty_iff, List.filter_eq_nil_iff]
  simp only [State.elemNames, List.mem_map]
  rintro _ ⟨th, hth, rfl⟩
  simpa using h th hth

theorem indexTrap_some {x : Exec} {u : State} (h : ∃ th ∈ x.act, 2 ^ (descOf (u.tile th.home (tileNo x.f.opa))).n ≤ u.src th x.f.opb 2) :
    ∃ tr, indexTrap x (u.elemNames x) = some tr ∧ tr.cause = Cause.viewbound := by
  obtain ⟨th, hth, hle⟩ := h
  unfold indexTrap
  dsimp only
  rw [if_neg]
  · exact ⟨_, rfl, rfl⟩
  · rw [List.isEmpty_iff, List.filter_eq_nil_iff]
    intro hnone
    refine hnone _ (List.mem_map.2 ⟨th, hth, rfl⟩) ?_
    simpa using hle

theorem locof_writes (h : Admits s (.locof f) f ig act) :
    let x := s.about (.locof f) f ig act
    let u := s.acting x
    (∀ th ∈ act, u.tileLoading th.tid.block th.tid.group (tileNo f.opa) = false ∧ (descOf (u.tile th.home (tileNo f.opa))).rank ≠ 0) →
    (∀ th ∈ act, u.src th f.opb 2 < 2 ^ (descOf (u.tile th.home (tileNo f.opa))).n) →
    exec (.locof f) s = .next ((u.putAll x 2 8 (act.map fun th => (th, u.locofValue x f th))).closed x (.locof f) (.at_ (x.due 8)) false) := by
  intro x u hall hidx
  rw [locof_exec h hall]
  refine issueWith_done h ?_ ((State.putAll_broken _ _ _ _ _).trans ((s.acting_broken x).trans h.sound))
    ((State.putAll_debug _ _ _ _ _).trans ((s.acting_debug x).trans h.untraced))
  rw [indexTrap_none (by exact hidx)]
  rfl

theorem locof_traps (h : Admits s (.locof f) f ig act) :
    let u := s.acting (s.about (.locof f) f ig act)
    (∀ th ∈ act, u.tileLoading th.tid.block th.tid.group (tileNo f.opa) = false ∧ (descOf (u.tile th.home (tileNo f.opa))).rank ≠ 0) →
    (∃ th ∈ act, 2 ^ (descOf (u.tile th.home (tileNo f.opa))).n ≤ u.src th f.opb 2) →
    ∃ tr : Trap, tr.cause = Cause.viewbound ∧ exec (.locof f) s = .next (s.taken.takeTrap ig tr) := by
  intro u hall hidx
  obtain ⟨tr, htr, hc⟩ := indexTrap_some (x := s.about (.locof f) f ig act) (u := u) hidx
  refine traps_of_body h (locof_exec h hall) (by decide : Cause.viewbound ≠ Cause.cancel) ⟨tr, ?_, hc⟩
  rw [htr]

end

end Sys2Proof.Machine

namespace Sys2Proof.Proofs

open Machine

/-- Settles O42. A bit of what LOCOF writes is the parity of one row; the rest is branch after branch of the bodies. -/
theorem tileInstructions : Obligations.TileInstructions := by
  refine ⟨?_, fun f s ig act th h hth => tdget_writes h hth, ?_⟩
  · intro f s ig act th b h hth x u bs d hb harea hfree hbusy
    exact ⟨tdset_takes h hth hb harea hfree hbusy, tdset_badfmt h hth hb harea hfree hbusy, tdset_placebad h hth hb harea hfree hbusy⟩
  · intro f s ig act h x u d hall
    exact ⟨fun hidx => ⟨_, locof_writes h hall hidx, fun th hth hloose j hj => testBit_locofValue hloose j⟩, locof_traps h hall⟩

end Sys2Proof.Proofs
end


section
/-! PROOFS. What the matrix engine is handed at issue (R209 to R213); ACCZ, ACCRD, ACCWR and the row instructions (R221 to R228). -/

namespace Sys2Proof.Machine

/-! ### The stores of the machine, without the regions -/

/-- The registers that no engine's instruction writes at issue, the memory, and what ends a step. -/
def State.steady (s : State) := (s.vregs, s.uregs, s.tiles, s.vault, s.pool, s.locals, s.broken, s.debug)

theorem State.steady_eq_iff {s t : State} : t.steady = s.steady ↔
    t.vregs = s.vregs ∧ t.uregs = s.uregs ∧ t.tiles = s.tiles ∧ Rule.sameMemory s t ∧ t.broken = s.broken ∧ t.debug = s.debug := by
  simp only [State.steady, Prod.mk.injEq, Rule.sameMemory, and_assoc]

theorem State.steady_of_still {s t : State} (h : t.still = s.still) : t.steady = s.steady := by
  obtain ⟨hv, hu, ht, -, hm, hb, hd⟩ := State.still_eq_iff.1 h
  exact State.steady_eq_iff.2 ⟨hv, hu, ht, hm, hb, hd⟩

@[simp] theorem State.modRegion_steady (s : State) (b : BlockKey) (a : Nat) (f : Region → Region) : (s.modRegion b a f).steady = s.steady := rfl
@[simp] theorem State.modRegion_core (s : State) (b : BlockKey) (a c : Nat) (f : Region → Region) : (s.modRegion b a f).core c = s.core c := rfl
@[simp] theorem State.modCore_steady (s : State) (c : Nat) (f : Core → Core) : (s.modCore c f).steady = s.steady := rfl
@[simp] theorem State.closed_steady (s : State) (x : Exec) (i : Instr) (c : Completes) (moved : Bool) : (s.closed x i c moved).steady = s.steady :=
  State.steady_of_still (by simp)
@[simp] theorem State.acting_steady (s : State) (x : Exec) : (s.acting x).steady = s.steady := State.steady_of_still (by simp)

/-! ### Regions -/

theorem State.region?_of_regions {s t : State} (h : t.regions = s.regions) (b : BlockKey) (a : Nat) : t.region? b a = s.region? b a := by
  rw [State.region?, State.region?, h]

theorem State.mem_modRegion {s : State} {b : BlockKey} {a : Nat} {f : Region → Region} {r : Region} (h : r ∈ (s.modRegion b a f).regions) :
    ∃ r' ∈ s.regions, r = if r'.block = b ∧ r'.index = a then f r' else r' := by
  obtain ⟨r', hr', rfl⟩ := List.mem_map.1 h
  exact ⟨r', hr', rfl⟩

/-- A region of another name is found as it was. -/
theorem State.modRegion_region?_other {s : State} {b b' : BlockKey} {a a' : Nat} {f : Region → Region}
    (hf : ∀ r, (f r).block = r.block ∧ (f r).index = r.index) (h : (b', a') ≠ (b, a)) : (s.modRegion b a f).region? b' a' = s.region? b' a' := by
  unfold State.region? State.modRegion
  rw [List.find?_map]
  have hp : (fun r : Region => decide (r.block = b') && decide (r.index = a')) ∘ (fun r => if r.block = b ∧ r.index = a then f r else r) =
      fun r => decide (r.block = b') && decide (r.index = a') := by
    funext r
    by_cases hr : r.block = b ∧ r.index = a
    · simp [hr, hf r]
    · simp [hr]
  rw [hp]
  cases hfind : s.regions.find? (fun r => decide (r.block = b') && decide (r.index = a')) with
  | none => rfl
  | some r =>
    have hr : r.block = b' ∧ r.index = a' := by simpa using List.find?_some hfind
    rw [Option.map_some, if_neg fun hba => h (by rw [← hr.1, ← hr.2, hba.1, hba.2])]

/-! ### An operation handed to the engine -/

theorem EngineOp.hurries_of_mmaOn {c : Core} {o : EngineOp} {a : Nat} (hr : o.region = some a) (h : c.mmaOn o.block a = false) : c.hurries o = false := by
  simp [Core.hurries, hr, h]

theorem State.enqueue_steady (u : State) (x : Exec) (o : EngineOp) : (u.enqueue x o).steady = u.steady := by
  unfold State.enqueue
  dsimp only
  split <;> rfl

theorem State.enqueue_fills (u : State) (x : Exec) (o : EngineOp) : (u.enqueue x o).fills = u.fills := by
  unfold State.enqueue
  dsimp only
  split <;> rfl

/-- An operation as it stands in the queue. -/
def EngineOp.QueuedAs (o q : EngineOp) : Prop := ∃ hasty raced, q = { o with hasty, raced }

theorem State.enqueue_engine {u : State} {x : Exec} (h : x.ig.core < u.cores.length) (o : EngineOp) :
    ∃ q, o.QueuedAs q ∧ ((u.enqueue x o).core x.ig.core).engine = (u.core x.ig.core).engine ++ [q] := by
  unfold State.enqueue
  dsimp only
  split
  · exact ⟨_, ⟨_, _, rfl⟩, by rw [State.modCore_core_self (by simpa using h), State.modRegion_core]⟩
  · exact ⟨_, ⟨_, _, rfl⟩, by rw [State.modCore_core_self h]⟩

theorem State.enqueue_regions {u : State} {x : Exec} {o : EngineOp} (h : (u.core x.ig.core).hurries o = false) : (u.enqueue x o).regions = u.regions := by
  unfold State.enqueue
  rw [h]
  rfl

/-- Whatever an operation that is handed over spoils, a region keeps all but that mark. -/
theorem State.enqueue_mem_regions {u : State} {x : Exec} {o : EngineOp} {r : Region} (h : r ∈ (u.enqueue x o).regions) :
    ∃ r' ∈ u.regions, r = r' ∨ r = { r' with spoiled := true } := by
  unfold State.enqueue at h
  dsimp only at h
  split at h
  · obtain ⟨r', hr', rfl⟩ := State.mem_modRegion (s := u) h
    refine ⟨r', hr', ?_⟩
    split
    · exact .inr rfl
    · exact .inl rfl
  · exact ⟨r, h, .inl rfl⟩

/-- A region other than the operation's keeps even its mark. -/
theorem State.enqueue_region?_other {u : State} {x : Exec} {o : EngineOp} {b : BlockKey} {a : Nat} (h : (b, a) ≠ (o.block, o.region.getD 0)) :
    (u.enqueue x o).region? b a = u.region? b a := by
  unfold State.enqueue
  dsimp only
  split
  · exact State.modRegion_region?_other (s := u) (fun _ => ⟨rfl, rfl⟩) h
  · rfl

/-- What is set in every region of a name stays set while the operation is handed over and the instruction closed. -/
theorem State.all_regions_closed {u : State} {x : Exec} {o : EngineOp} {i : Instr} {c : Completes} {m : Bool} {P : Region → Prop}
    (hP : ∀ r, P r → P { r with spoiled := true }) (h : ∀ r ∈ u.regions, P r) : ∀ r ∈ ((u.enqueue x o).closed x i c m).regions, P r := by
  intro r hr
  rw [State.closed_regions] at hr
  obtain ⟨r', hr', rfl | rfl⟩ := State.enqueue_mem_regions hr
  · exact h _ hr'
  · exact hP _ (h _ hr')

/-- An operation is the one of an instruction: of its home group, with its lanes, flag, place and kind. -/
structure EngineOp.Of (o : EngineOp) (f : Insn) (ig : IssueGroup) (act : List Thread) (th : Thread) (kind : EngineKind) : Prop where
  kind : o.kind = kind
  block : o.block = th.tid.block
  group : o.group = th.tid.group
  lanes : o.lanes = act.map (·.tid)
  flag : o.flag = setfOf f
  pc : o.pc = ig.pc

theorem engineOp_of (s : State) (i : Instr) (f : Insn) (ig : IssueGroup) (act : List Thread) (u : State) (th : Thread) (kind : EngineKind) :
    ((s.about i f ig act).engineOp u th i kind).Of f ig act th kind := ⟨rfl, rfl, rfl, rfl, rfl, rfl⟩

section
variable {i : Instr} {f : Insn} {s u : State} {ig : IssueGroup} {act : List Thread} {th : Thread} {kind : EngineKind} {o : EngineOp}
  {body : State → Exec → Act}

/-- What an instruction leaves that hands an operation over from a state with the stores and the queue of the one before. -/
theorem queued_closed (hc : ig.core < s.cores.length) (hu : u.steady = s.steady) (hlen : u.cores.length = s.cores.length)
    (hq : (u.core ig.core).engine = (s.core ig.core).engine) (ho : o.Of f ig act th kind) :
    Rule.queued s ((u.enqueue (s.about i f ig act) o).closed (s.about i f ig act) i .later false) f ig act th kind := by
  have hsteady : ((u.enqueue (s.about i f ig act) o).closed (s.about i f ig act) i .later false).steady = s.steady := by
    rw [State.closed_steady, State.enqueue_steady, hu]
  obtain ⟨hv, hur, ht, hm, -⟩ := State.steady_eq_iff.1 hsteady
  obtain ⟨q, ⟨hasty, raced, rfl⟩, hengine⟩ := State.enqueue_engine (u := u) (x := s.about i f ig act) (by rw [State.about_ig, hlen]; exact hc) o
  refine ⟨hm, hv, hur, ht, { o with hasty, raced }, ?_, ho.kind, ho.block, ho.group, ho.lanes, ho.flag, ho.pc⟩
  rw [State.closed_later_core Core.engine (fun _ _ _ => rfl)]
  exact hengine.trans (by rw [State.about_ig, hq])

/-- An instruction whose body hands its operation over goes on. -/
theorem hands_over (h : Admits s i f ig act) (hexec : exec i s = issueWith i f body s) (hu : u.steady = s.steady)
    (hb : body (s.acting (s.about i f ig act)) (s.about i f ig act) = .done (u.enqueue (s.about i f ig act) o) .later false) :
    exec i s = .next ((u.enqueue (s.about i f ig act) o).closed (s.about i f ig act) i .later false) := by
  obtain ⟨-, -, -, -, hbroken, hdebug⟩ := State.steady_eq_iff.1 ((State.enqueue_steady u (s.about i f ig act) o).trans hu)
  exact hexec.trans (issueWith_done h hb (hbroken.trans h.sound) (hdebug.trans h.untraced))

theorem head_eq_cons {l : List Thread} (h : l.head? = some th) : ∃ rest, l = th :: rest := by
  cases l with
  | nil => simp at h
  | cons t rest => exact ⟨rest, by rw [Option.some.inj h]⟩

theorem engineOnly_eq {k : State → Exec → Thread → EngineKind} {x : Exec} (hth : x.act.head? = some th) :
    engineOnly i k u x = .done (u.enqueue x (x.engineOp u th i (k u x th))) .later false := by
  obtain ⟨rest, hact⟩ := head_eq_cons hth
  rw [engineOnly, hact]

/-- An instruction that only goes to the engine, from the state that its body makes first. -/
theorem engineOnly_hands_over (h : Admits s i f ig act) (hc : ig.core < s.cores.length) (hth : act.head? = some th)
    (hexec : exec i s = issueWith i f body s) {k : State → Exec → Thread → EngineKind}
    (hb : body (s.acting (s.about i f ig act)) (s.about i f ig act) = engineOnly i k u (s.about i f ig act)) (hu : u.steady = s.steady)
    (hcores : u.cores = s.cores) :
    let x := s.about i f ig act
    let o := x.engineOp u th i (k u x th)
    exec i s = .next ((u.enqueue x o).closed x i .later false) ∧ Rule.queued s ((u.enqueue x o).closed x i .later false) f ig act th (k u x th) :=
  ⟨hands_over h hexec hu (hb.trans (engineOnly_eq hth)),
    queued_closed hc hu (by rw [hcores]) (by rw [State.core_of_cores hcores]) (engineOp_of s i f ig act u th _)⟩

/-- The regions stand where no MMA is incomplete on the operation's own. -/
theorem regions_kept {a : Nat} (hcores : u.cores = s.cores) (hu : u.regions = s.regions) (hr : o.region = some a) (hb : o.block = th.tid.block)
    (hm : (s.core ig.core).mmaOn th.tid.block a = false) : ((u.enqueue (s.about i f ig act) o).closed (s.about i f ig act) i .later false).regions = s.regions := by
  rw [State.closed_regions, State.enqueue_regions, hu]
  refine EngineOp.hurries_of_mmaOn hr ?_
  rw [State.core_of_cores hcores, hb]
  exact hm

end

/-! ### ACCZ -/

section
variable {f : Insn} {s : State} {ig : IssueGroup} {act : List Thread} {th : Thread}

theorem accz_issues (h : Admits s (.accz f) f ig act) (hc : ig.core < s.cores.length) (hth : act.head? = some th) :
    ∃ t, exec (.accz f) s = .next t ∧ Rule.queued s t f ig act th (.accz (accNo f.opd)) ∧
      (∀ r ∈ t.regions, r.block = th.tid.block → r.index = accNo f.opd → r.i32 = f.mod.getLsbD 0) ∧
      ∀ b a, (b, a) ≠ (th.tid.block, accNo f.opd) → t.region? b a = s.region? b a := by
  let x := s.about (.accz f) f ig act
  let u := (s.acting x).modRegion th.tid.block (accNo f.opd) fun r => { r with i32 := f.mod.getLsbD 0 }
  have hblock : (x.act.head?.map (·.tid.block)).getD ⟨0, 0⟩ = th.tid.block := by rw [State.about_act, hth]; rfl
  obtain ⟨hnext, hqueued⟩ := engineOnly_hands_over (u := u) h hc hth (show exec (.accz f) s = execAccz f s from rfl)
    (by rw [hblock]) (by simp [u]) (by simp [u])
  refine ⟨_, hnext, hqueued, State.all_regions_closed (P := fun r => r.block = th.tid.block → r.index = accNo f.opd → r.i32 = f.mod.getLsbD 0)
    (fun _ hr => hr) ?_, ?_⟩
  · intro r hr
    obtain ⟨r', -, rfl⟩ := State.mem_modRegion hr
    intro hb ha
    split
    · rfl
    · next hne =>
      rw [if_neg hne] at hb ha
      exact absurd ⟨hb, ha⟩ hne
  · intro b a hne
    rw [State.region?_of_regions (State.closed_regions _ _ _ _ _), State.enqueue_region?_other hne]
    exact (State.modRegion_region?_other (by exact fun _ => ⟨rfl, rfl⟩) hne).trans (State.region?_of_regions (State.acting_regions s x) b a)

/-! ### ACCRD -/

/-- The m registers from `v` on, in the lanes given, are marked empty under the number of the operation. -/
def State.emptyRuns (u : State) (act : List Thread) (v inst m : Nat) : State :=
  act.foldl (fun t th => t.markEmptyRun th.home v th.tid.lane inst m) u

theorem State.emptyRuns_still (u : State) (act : List Thread) (v inst m : Nat) : (u.emptyRuns act v inst m).still = u.still :=
  foldl_frame State.still (fun t (th : Thread) => t.markEmptyRun th.home v th.tid.lane inst m) (fun t th => by simp) act u

theorem State.emptyRuns_cores (u : State) (act : List Thread) (v inst m : Nat) : (u.emptyRuns act v inst m).cores = u.cores :=
  foldl_frame State.cores (fun t (th : Thread) => t.markEmptyRun th.home v th.tid.lane inst m) (fun t th => by simp) act u

theorem State.emptyReg_emptyRuns {u : State} {act : List Thread} {v inst m : Nat} (hid : BitVec.ofNat 64 inst ≠ 0) {home r lane : Nat}
    (h : u.emptyReg home r lane = true ∨ ∃ q ∈ act, home = q.home ∧ (∃ j < m, r = v + j) ∧ lane = q.tid.lane) :
    (u.emptyRuns act v inst m).emptyReg home r lane = true := by
  induction act generalizing u with
  | nil =>
    rcases h with h | ⟨q, hq, -⟩
    · exact h
    · cases hq
  | cons p act ih =>
    refine ih (u := u.markEmptyRun p.home v p.tid.lane inst m) ?_
    rcases h with h | ⟨q, hq, h⟩
    · exact .inl (State.emptyReg_markEmptyRun hid (.inl h))
    · rcases List.mem_cons.1 hq with rfl | hq
      · exact .inl (State.emptyReg_markEmptyRun hid (.inr h))
      · exact .inr ⟨q, hq, h⟩

theorem firstColumn_eq {u : State} {x : Exec} (hth : x.act.head? = some th) : firstColumn u x f = u.src32 th f.opb := by
  unfold firstColumn
  rw [hth]
  rfl

theorem accrd_issues (h : Admits s (.accrd f) f ig act) (hc : ig.core < s.cores.length) (hth : act.head? = some th) (h0 : 0 < s.nextId)
    (h1 : s.nextId < 2 ^ 64) :
    let u := s.acting (s.about (.accrd f) f ig act)
    let c := u.src32 th f.opb
    let v := u.regNo th f.opd
    c.toNat + accCols f ≤ 256 → ∃ t, exec (.accrd f) s = .next t ∧ Rule.queued s t f ig act th (.accrd (accNo f.opa) v (accCols f) c.toNat) ∧
      ((s.core ig.core).mmaOn th.tid.block (accNo f.opa) = false → t.regions = s.regions) ∧
      ∀ q ∈ act, ∀ j < accCols f, t.emptyReg q.home (v + j) q.tid.lane = true := by
  intro u c v hfits
  let t := u.emptyRuns act v s.nextId (accCols f)
  have hstill : t.still = s.still := (u.emptyRuns_still act v s.nextId (accCols f)).trans (s.acting_still _)
  have hcores : t.cores = s.cores := (u.emptyRuns_cores act v s.nextId (accCols f)).trans (s.acting_cores _)
  obtain ⟨hnext, hqueued⟩ := engineOnly_hands_over (u := t) h hc hth (show exec (.accrd f) s = execAccrd f s from rfl)
    (k := fun _ _ _ => .accrd (accNo f.opa) v (accCols f) c.toNat) (by
      dsimp only
      rw [firstColumn_eq (th := th) (by exact hth), State.about_act, hth, if_neg (Nat.not_lt.2 hfits)]
      rfl) (State.steady_of_still hstill) hcores
  refine ⟨_, hnext, hqueued, regions_kept hcores ?_ rfl rfl, fun q hq j hj => ?_⟩
  · obtain ⟨-, -, -, hr, -⟩ := State.still_eq_iff.1 hstill
    exact hr
  · rw [State.emptyReg, State.closed_fills, State.enqueue_fills]
    exact State.emptyReg_emptyRuns (ofNat64_ne_zero h0 h1) (.inr ⟨q, hq, rfl, ⟨j, hj, rfl⟩, rfl⟩)

theorem accrd_illop (h : Admits s (.accrd f) f ig act) (hth : act.head? = some th)
    (hbad : 256 < ((s.acting (s.about (.accrd f) f ig act)).src32 th f.opb).toNat + accCols f) :
    ∃ tr : Trap, tr.cause = Cause.illop ∧ exec (.accrd f) s = .next (s.taken.takeTrap ig tr) := by
  refine traps_of_body h (show exec (.accrd f) s = execAccrd f s from rfl) (by decide : Cause.illop ≠ Cause.cancel) ⟨_, if_pos ?_, rfl⟩
  rw [firstColumn_eq (th := th) (by exact hth)]
  exact hbad

/-! ### ACCWR -/

/-- What ACCWR carries: a row of registers for each lane, zeros for a phantom one. -/
def State.accRows (u : State) (x : Exec) (f : Insn) : List (List Word) :=
  (laneThreads x).map fun t => match t with
    | none => List.replicate (accCols f) 0
    | some th => (List.range (accCols f)).map fun k => u.vreg th (u.regNo th f.opa + k)

theorem laneThreads_get {x : Exec} {l : Nat} (h : l < 128) : (laneThreads x)[l]? = some (x.act.find? fun t => t.tid.lane == l) := by
  simp [laneThreads, h]

theorem accRows_phantom {u : State} {x : Exec} {l : Nat} (hl : l < 128) (h : ∀ q ∈ x.act, q.tid.lane ≠ l) :
    (u.accRows x f)[l]? = some (List.replicate (accCols f) 0) := by
  have hnone : x.act.find? (fun t => t.tid.lane == l) = none := by simpa [List.find?_eq_none] using h
  rw [State.accRows, List.getElem?_map, laneThreads_get hl, hnone]
  rfl

theorem accRows_lane {u : State} {x : Exec} {q : Thread} (hl : q.tid.lane < 128) (hq : q ∈ x.act) (h : ∀ q' ∈ x.act, q'.tid.lane = q.tid.lane → q' = q) :
    (u.accRows x f)[q.tid.lane]? = some ((List.range (accCols f)).map fun k => u.vreg q (u.regNo q f.opa + k)) := by
  have hsome : x.act.find? (fun t => t.tid.lane == q.tid.lane) = some q := by
    cases hfind : x.act.find? (fun t => t.tid.lane == q.tid.lane) with
    | none => exact absurd (List.find?_eq_none.1 hfind q hq) (by simp)
    | some q' => rw [h q' (List.mem_of_find?_eq_some hfind) (by simpa using List.find?_some hfind)]
  rw [State.accRows, List.getElem?_map, laneThreads_get hl, hsome]
  rfl

theorem accwr_issues (h : Admits s (.accwr f) f ig act) (hc : ig.core < s.cores.length) (hth : act.head? = some th) :
    let x := s.about (.accwr f) f ig act
    let u := s.acting x
    let c := u.src32 th f.opb
    c.toNat + accCols f ≤ 256 → ∃ t, exec (.accwr f) s = .next t ∧
      Rule.queued s t f ig act th (.accwr (accNo f.opd) (accCols f) c.toNat (u.accRows x f)) ∧
      t.fills = s.fills ∧ ((s.core ig.core).mmaOn th.tid.block (accNo f.opd) = false → t.regions = s.regions) := by
  intro x u c hfits
  obtain ⟨hnext, hqueued⟩ := engineOnly_hands_over (u := u) h hc hth (show exec (.accwr f) s = execAccwr f s from rfl)
    (k := fun _ _ _ => .accwr (accNo f.opd) (accCols f) c.toNat (u.accRows x f)) (by
      dsimp only
      rw [firstColumn_eq (th := th) (by exact hth), if_neg (Nat.not_lt.2 hfits)]
      rfl) (by simp [u]) (by simp [u])
  exact ⟨_, hnext, hqueued, by rw [State.closed_fills, State.enqueue_fills, State.acting_fills], regions_kept (by simp [u]) (by simp [u]) rfl rfl⟩

/-! ### The row instructions -/

section
variable {i : Instr} {a : Nat} {k : State → Exec → Thread → EngineKind}

theorem rowInsn_block {x : Exec} (hth : x.act.head? = some th) : (x.act.head?.map (·.tid.block)).getD ⟨0, 0⟩ = th.tid.block := by
  rw [hth]
  rfl

/-- A row instruction on an FP32 region hands over its operation. -/
theorem row_issues (h : Admits s i f ig act) (hc : ig.core < s.cores.length) (hth : act.head? = some th) (hexec : exec i s = issueWith i f (rowInsn i a k) s)
    (hregion : ∀ o : EngineOp, o.kind = k (s.acting (s.about i f ig act)) (s.about i f ig act) th → o.region = some a) :
    let x := s.about i f ig act
    let u := s.acting x
    (u.regionAt th.tid.block a).i32 = false → ∃ t, exec i s = .next t ∧ Rule.queued s t f ig act th (k u x th) ∧ t.fills = s.fills ∧
      ((s.core ig.core).mmaOn th.tid.block a = false → t.regions = s.regions) := by
  intro x u hfp
  obtain ⟨hnext, hqueued⟩ := engineOnly_hands_over (u := u) h hc hth hexec (k := k) (by
    unfold rowInsn
    dsimp only
    rw [rowInsn_block (th := th) (by exact hth)]
    exact if_neg (ne_true_of_eq_false hfp)) (by simp [u]) (by simp [u])
  exact ⟨_, hnext, hqueued, by rw [State.closed_fills, State.enqueue_fills, State.acting_fills],
    regions_kept (by simp [u]) (by simp [u]) (hregion _ rfl) rfl⟩

/-- On an INT32 region it traps. -/
theorem row_badfmt (h : Admits s i f ig act) (hth : act.head? = some th) (hexec : exec i s = issueWith i f (rowInsn i a k) s)
    (hi : ((s.acting (s.about i f ig act)).regionAt th.tid.block a).i32 = true) :
    ∃ tr : Trap, tr.cause = Cause.badfmt ∧ exec i s = .next (s.taken.takeTrap ig tr) := by
  refine traps_of_body h hexec (by decide : Cause.badfmt ≠ Cause.cancel) ⟨_, if_pos ?_, rfl⟩
  rw [rowInsn_block (th := th) (by exact hth)]
  exact hi

theorem EngineOp.region_rowmax {o : EngineOp} {a m : Nat} {p : Bool} {v w : List Word} {r : List (Option Nat)} (h : o.kind = .rowmax a m p v w r) :
    o.region = some a := by rw [EngineOp.region, h]
theorem EngineOp.region_rowexp {o : EngineOp} {a m : Nat} {v w y : List Word} {r : List (Option Nat)} (h : o.kind = .rowexp a m v w y r) :
    o.region = some a := by rw [EngineOp.region, h]
theorem EngineOp.region_rowsc {o : EngineOp} {a m : Nat} {v w y : List Word} {r : List (Option Nat)} (h : o.kind = .rowsc a m v w y r) :
    o.region = some a := by rw [EngineOp.region, h]

end
end

end Sys2Proof.Machine

namespace Sys2Proof.Proofs

open Machine

/-- Settles O39: each of these instructions, past its checks, hands one operation to the engine, which at most marks its own region. -/
theorem regionOperations : Obligations.RegionOperations := by
  refine ⟨fun f s ig act th h hc hth => accz_issues h hc hth, ?_, ?_, ?_⟩
  · intro f s ig act th h hc hth h0 h1 u c v
    exact ⟨accrd_issues h hc hth h0 h1, accrd_illop h hth⟩
  · intro f s ig act th h hc hth u c hfits
    obtain ⟨t, hnext, hqueued, hfills, hregions⟩ := accwr_issues h hc hth hfits
    refine ⟨t, _, hnext, hqueued, hfills, hregions, by simp [State.accRows, laneThreads], fun l hl => ⟨fun hl' => accRows_phantom hl hl', ?_⟩⟩
    rintro q hq rfl honly
    exact accRows_lane hl hq honly
  · intro i f s ig act th hi h hc hth x u a xf
    rcases hi with rfl | rfl | rfl
    · refine ⟨fun hfp => ?_, row_badfmt h hth (show exec (.rowmax f) s = execRowmax f s from rfl)⟩
      obtain ⟨t, hnext, hqueued, hrest⟩ := row_issues h hc hth (show exec (.rowmax f) s = execRowmax f s from rfl)
        (fun _ ho => EngineOp.region_rowmax ho) hfp
      exact ⟨t, _, hnext, hqueued, hrest.1, hrest.2, fun _ => rfl, fun hi => by simp at hi, fun hi => by simp at hi⟩
    · refine ⟨fun hfp => ?_, row_badfmt h hth (show exec (.rowexp f) s = execRowexp f s from rfl)⟩
      obtain ⟨t, hnext, hqueued, hrest⟩ := row_issues h hc hth (show exec (.rowexp f) s = execRowexp f s from rfl)
        (fun _ ho => EngineOp.region_rowexp ho) hfp
      exact ⟨t, _, hnext, hqueued, hrest.1, hrest.2, fun hi => by simp at hi, fun _ => rfl, fun hi => by simp at hi⟩
    · refine ⟨fun hfp => ?_, row_badfmt h hth (show exec (.rowsc f) s = execRowsc f s from rfl)⟩
      obtain ⟨t, hnext, hqueued, hrest⟩ := row_issues h hc hth (show exec (.rowsc f) s = execRowsc f s from rfl)
        (fun _ ho => EngineOp.region_rowsc ho) hfp
      exact ⟨t, _, hnext, hqueued, hrest.1, hrest.2, fun hi => by simp at hi, fun hi => by simp at hi, fun _ => rfl⟩

end Sys2Proof.Proofs
end


section
/-! PROOFS. WLOAD, MMA, ACCLD and ACCDR at issue (R210, R215 to R218, R223, R224). -/

namespace Sys2Proof.Machine

/-! ### What an operand's check finds -/

theorem not_not_true {b : Bool} (h : b = true) : ¬((!b) = true) := by rw [h]; decide

section
variable {u : State} {x : Exec} {act : List Thread} {th : Thread} {b : Block}

/-- The context that the lanes' views are looked up in is the block's. -/
theorem ctxOfExec_eq (hth : x.act.head? = some th) (hb : u.block? th.tid.block = some b) : u.ctxOfExec x = b.ctx := by
  obtain ⟨rest, hact⟩ := head_eq_cons hth
  rw [State.ctxOfExec, hact]
  show u.ctxOf th.tid.block = b.ctx
  rw [State.ctxOf, hb]
  rfl

theorem checkAll_view {p : BitVec 64} {n slot : Nat} {need : BitVec 4} {g : Thread → Got} (hth : x.act.head? = some th)
    (hb : u.block? th.tid.block = some b) (h : ∀ q ∈ x.act, Rule.passes u x p 0 n 1 need q (g q)) :
    u.checkAll x b.ctx (x.act.map fun t => { th := t, slot, p, n, al := 1, need : Want }) = .ok (x.act.map g) := by
  refine State.checkAll_ok fun q hq => ?_
  rw [← ctxOfExec_eq hth hb]
  exact Rule.passes.want (w := { th := q, slot, p, n, al := 1, need }) (h q hq)

theorem checkView_offset {v : CachedView} {p : BitVec 64} {n al off : Nat} {need : BitVec 4} (h : checkView v p 0 n al need = .ok off) :
    off = ptrOffset p := by
  unfold checkView at h
  simp only [Int.add_zero] at h
  split at h
  · cases h
  split at h
  · cases h
  split at h
  · cases h
  split at h
  · cases h
  · exact (Except.ok.inj h).symm

/-- What a pointer that passes names: the object and the offset that its check gives. -/
theorem viewSpan_of_passes {p : BitVec 64} {n : Nat} {need : BitVec 4} {g : Got} (hth : x.act.head? = some th) (hb : u.block? th.tid.block = some b)
    (h : Rule.passes u x p 0 n 1 need th g) : ∃ low high, u.viewSpan x.ig.core b.ctx p = .view g.obj g.off low high := by
  obtain ⟨v, hv, hc, hobj, -⟩ := h
  rw [ctxOfExec_eq hth hb] at hv
  refine ⟨v.low, v.high, ?_⟩
  rw [State.viewSpan, hv, hobj, checkView_offset hc]
  rfl

theorem head_mem {l : List Thread} (h : l.head? = some th) : th ∈ l := by
  obtain ⟨rest, rfl⟩ := head_eq_cons h
  simp

theorem bind_block (hth : act.head? = some th) : (act.head?.bind fun th => u.block? th.tid.block) = u.block? th.tid.block := by
  rw [hth]
  rfl

end

/-! ### Latches -/

@[simp] theorem State.disown_steady (s : State) (c slot : Nat) : (s.disown c slot).steady = s.steady := by
  unfold State.disown
  split <;> rfl
@[simp] theorem State.disown_cores (s : State) (c slot : Nat) : (s.disown c slot).cores = s.cores := by
  unfold State.disown
  split <;> rfl
@[simp] theorem State.takeSlot_steady (s : State) (c slot : Nat) (b : BlockKey) (r : BitVec 64) : (s.takeSlot c slot b r).steady = s.steady :=
  s.disown_steady c slot
@[simp] theorem State.dropSlots_steady (s : State) (c : Nat) : (s.dropSlots c).steady = s.steady :=
  ((s.disown c 0).disown_steady c 1).trans (s.disown_steady c 0)

@[simp] theorem State.takeSlot_length (s : State) (c slot : Nat) (b : BlockKey) (r : BitVec 64) : (s.takeSlot c slot b r).cores.length = s.cores.length := by
  refine (State.modCore_length (s.disown c slot) c _).trans ?_
  rw [State.disown_cores]
@[simp] theorem State.dropSlots_length (s : State) (c : Nat) : (s.dropSlots c).cores.length = s.cores.length := by
  refine (State.modCore_length ((s.disown c 0).disown c 1) c _).trans ?_
  rw [State.disown_cores, State.disown_cores]

@[simp] theorem State.takeSlot_engine (s : State) (c slot : Nat) (b : BlockKey) (r : BitVec 64) (k : Nat) :
    ((s.takeSlot c slot b r).core k).engine = (s.core k).engine := by
  refine (State.modCore_frame Core.engine (by exact fun _ => rfl) (s.disown c slot) c k).trans ?_
  rw [State.core_of_cores (s.disown_cores c slot)]
@[simp] theorem State.dropSlots_engine (s : State) (c k : Nat) : ((s.dropSlots c).core k).engine = (s.core k).engine := by
  refine (State.modCore_frame Core.engine (by exact fun _ => rfl) ((s.disown c 0).disown c 1) c k).trans ?_
  rw [State.core_of_cores ((s.disown c 0).disown_cores c 1), State.core_of_cores (s.disown_cores c 0)]

theorem Region.latch_setLatch (r : Region) (slot : Nat) (v : BitVec 64) : (r.setLatch slot v).latch slot = v := by
  unfold Region.setLatch Region.latch
  by_cases h : slot = 0 <;> simp [h]

theorem Region.setLatch_name (r : Region) (slot : Nat) (v : BitVec 64) : (r.setLatch slot v).block = r.block ∧ (r.setLatch slot v).index = r.index := by
  unfold Region.setLatch
  split <;> exact ⟨rfl, rfl⟩

/-- The record of a WLOAD, field by field: bit 63, the format above bit 61, and the pair's word below. -/
theorem latchRecord_digits (fmt lo hi : Nat) : ∃ w < 2 ^ 61, lo < 2 ^ 32 → latchRecord fmt lo hi = BitVec.ofNat 64 (2 ^ 61 * (4 + fmt) + w) := by
  by_cases hlo : lo < 2 ^ 32
  · have h24 : bits hi 24 24 < 2 ^ 1 := Nat.mod_lt _ (by decide)
    have h20 : bits hi 23 20 < 2 ^ 4 := Nat.mod_lt _ (by decide)
    refine ⟨bits hi 24 24 * 2 ^ 36 + bits hi 23 20 * 2 ^ 32 + lo, by omega, fun _ => congrArg (BitVec.ofNat 64) ?_⟩
    ring
  · exact ⟨0, by decide, fun h => absurd h hlo⟩

theorem latchRecord_valid {fmt lo hi : Nat} (hf : fmt < 4) (hlo : lo < 2 ^ 32) : latchValid (latchRecord fmt lo hi) = true := by
  obtain ⟨w, hw, h⟩ := latchRecord_digits fmt lo hi
  have hdiv : (2 ^ 61 * (4 + fmt) + w) / 2 ^ 63 = 1 := by omega
  rw [latchValid, h hlo, BitVec.getLsbD_ofNat, Nat.testBit_eq_decide_div_mod_eq, hdiv]
  rfl

theorem latchRecord_fmt {fmt lo hi : Nat} (hf : fmt < 4) (hlo : lo < 2 ^ 32) : latchFmt (latchRecord fmt lo hi) = fmt := by
  obtain ⟨w, hw, h⟩ := latchRecord_digits fmt lo hi
  rw [latchFmt, h hlo, BitVec.extractLsb'_toNat, BitVec.toNat_ofNat, Nat.shiftRight_eq_div_pow]
  omega

theorem mid2_lt (m : BitVec 8) : Forms.mid2 m < 4 := (BitVec.isLt _ : _)

/-- The slot's record stands in the header of its new owner. -/
theorem State.takeSlot_record {s : State} {c slot : Nat} {b : BlockKey} {v : BitVec 64} {r : Region} (h : r ∈ (s.takeSlot c slot b v).regions)
    (hb : r.block = b) (hi : r.index = 0) : r.latch slot = v := by
  obtain ⟨r', -, rfl⟩ := State.mem_modRegion h
  by_cases hr : r'.block = b ∧ r'.index = 0
  · rw [if_pos hr]
    exact Region.latch_setLatch r' slot v
  · rw [if_neg hr] at hb hi
    exact absurd ⟨hb, hi⟩ hr

section
variable {f : Insn} {s : State} {ig : IssueGroup} {act : List Thread} {th : Thread} {b : Block}

/-! ### WLOAD -/

theorem wload_issues (p : Pair) (h : Admits s (.wload f) f ig act) (hc : ig.core < s.cores.length) (hth : act.head? = some th) :
    let u := s.acting (s.about (.wload f) f ig act)
    let v := u.src th f.opa 2
    let fmt := Forms.mid2 f.mod
    let slot := if f.mod.getLsbD 2 then 1 else 0
    u.block? th.tid.block = some b → 0 < b.regions → pairOf v = some p →
    (p.pk = true ∨ b.ownsLocal p.base 1024 = true ∧ u.pairOk b true (p.at_ 1024) 1 128 (256 * wtSize fmt) = true) → u.engineWait ig.core (act.map (·.tid)) = false →
    ∃ t, exec (.wload f) s = .next t ∧ Rule.queued s t f ig act th (.wload fmt slot (BitVec.ofNat 32 v) (BitVec.ofNat 32 (v / 2 ^ 32))) ∧
      ∀ r ∈ t.regions, r.block = b.key → r.index = 0 → latchValid (r.latch slot) = true ∧ latchFmt (r.latch slot) = fmt := by
  intro u v fmt slot hb hregions hp hlocal hwait
  let x := s.about (.wload f) f ig act
  let t := u.takeSlot ig.core slot b.key (latchRecord fmt (v % 2 ^ 32) (v / 2 ^ 32))
  let o := { x.engineOp t th (.wload f) (.wload fmt slot (BitVec.ofNat 32 v) (BitVec.ofNat 32 (v / 2 ^ 32))) with unis := uniRun f.opa 2 }
  have hpair : ¬((!p.pk && !(b.ownsLocal p.base 1024 && u.pairOk b true (p.at_ 1024) 1 128 (256 * wtSize fmt))) = true) := by
    rcases hlocal with hpk | ⟨h1, h2⟩
    · simp [hpk]
    · simp [h1, h2]
  have ht : t.steady = s.steady := by simp [t, u]
  refine ⟨_, hands_over (o := o) h (show exec (.wload f) s = execWload f s from rfl) ht ?_,
    queued_closed (u := t) hc ht (by simp [t, u]) (by simp [t, u]) ⟨rfl, rfl, rfl, rfl, rfl, rfl⟩,
    State.all_regions_closed (P := fun r => r.block = b.key → r.index = 0 → latchValid (r.latch slot) = true ∧ latchFmt (r.latch slot) = fmt)
      (fun _ hr => hr) fun r hr hb' hi => ?_⟩
  · dsimp only
    rw [State.about_act, hth, Option.bind_some, hb]
    refine (if_neg (Nat.pos_iff_ne_zero.1 hregions)).trans ?_
    rw [show pairOf (State.src _ th f.opa 2) = some p from hp]
    exact (if_neg hpair).trans (if_neg (ne_true_of_eq_false hwait))
  · rw [State.takeSlot_record hr hb' hi]
    exact ⟨latchRecord_valid (mid2_lt _) (Nat.mod_lt _ (by decide)), latchRecord_fmt (mid2_lt _) (Nat.mod_lt _ (by decide))⟩

/-! ### ACCLD -/

/-- ACCLD past its checks: the region's format is set and the operation handed over. -/
theorem accld_hands_over {sp : Span} {hd : Nat} (h : Admits s (.accld f) f ig act) (hc : ig.core < s.cores.length) (bk : BlockKey) {body : State → Exec → Act} 
    (hexec : exec (.accld f) s = issueWith (.accld f) f body s) :
    let x := s.about (.accld f) f ig act
    let u := s.acting x
    let t := u.modRegion bk (accNo f.opd) fun r => { r with i32 := f.mod.getLsbD 0 }
    let o := { x.engineOp u th (.accld f) (.accld (accNo f.opd) sp) with handle := hd, unis := uniRun f.opa 2 }
    body u x = .done (t.enqueue x o) .later false →
    ∃ t, exec (.accld f) s = .next t ∧ Rule.queued s t f ig act th (.accld (accNo f.opd) sp) ∧
      ∀ r ∈ t.regions, r.block = bk → r.index = accNo f.opd → r.i32 = f.mod.getLsbD 0 := by
  intro x u t o hbody
  have ht : t.steady = s.steady := by simp [t, u]
  refine ⟨_, hands_over (o := o) h hexec ht hbody, queued_closed (u := t) hc ht (by simp [t, u]) (by simp [t, u]) ⟨rfl, rfl, rfl, rfl, rfl, rfl⟩,
    State.all_regions_closed (P := fun r => r.block = bk → r.index = accNo f.opd → r.i32 = f.mod.getLsbD 0) (fun _ hr => hr) ?_⟩
  intro r hr hb' hi
  obtain ⟨r', -, rfl⟩ := State.mem_modRegion hr
  by_cases hr' : r'.block = bk ∧ r'.index = accNo f.opd
  · rw [if_pos hr']
  · rw [if_neg hr'] at hb' hi
    exact absurd ⟨hb', hi⟩ hr'

theorem accld_pair (p : Pair) (h : Admits s (.accld f) f ig act) (hc : ig.core < s.cores.length) (hth : act.head? = some th) :
    let u := s.acting (s.about (.accld f) f ig act)
    let v := u.src th f.opa 2
    u.block? th.tid.block = some b → u.engineWait ig.core (act.map (·.tid)) = false → Forms.hi2 f.mod = 0 → pairOf v = some p →
    1024 ≤ 16 * p.rpitch → p.rot = 0 → p.pk = false → u.pairOk b false p 1 128 1024 = true →
    ∃ t, exec (.accld f) s = .next t ∧ Rule.queued s t f ig act th (.accld (accNo f.opd) (.pair (BitVec.ofNat 32 v) (BitVec.ofNat 32 (v / 2 ^ 32)))) ∧
      ∀ r ∈ t.regions, r.block = b.key → r.index = accNo f.opd → r.i32 = f.mod.getLsbD 0 := by
  intro u v hb hwait hhi hp hpitch hrot hpk hok
  refine accld_hands_over (hd := 0) h hc b.key (show exec (.accld f) s = execAccld f s from rfl) ?_
  dsimp only
  rw [State.about_act, hth, Option.bind_some, hb]
  refine (if_pos hhi).trans ?_
  rw [show pairOf (State.src _ th f.opa 2) = some p from hp]
  refine (if_neg ?_).trans ((if_neg ?_).trans (if_neg (ne_true_of_eq_false hwait)))
  · rintro (h1 | h1 | h1)
    · omega
    · exact h1 hrot
    · simp [hpk] at h1
  · exact not_not_true hok

theorem accld_view {g : Thread → Got} (h : Admits s (.accld f) f ig act) (hc : ig.core < s.cores.length) (hth : act.head? = some th) :
    let x := s.about (.accld f) f ig act
    let u := s.acting x
    let v := u.src th f.opa 2
    u.block? th.tid.block = some b → u.engineWait ig.core (act.map (·.tid)) = false → Forms.hi2 f.mod ≠ 0 →
    (∀ q ∈ act, Rule.passes u x (BitVec.ofNat 64 v) 0 131072 1 rightR q (g q)) →
    ∃ t low high, exec (.accld f) s = .next t ∧ Rule.queued s t f ig act th (.accld (accNo f.opd) (.view (g th).obj (g th).off low high)) ∧
      ∀ r ∈ t.regions, r.block = b.key → r.index = accNo f.opd → r.i32 = f.mod.getLsbD 0 := by
  intro x u v hb hwait hhi hpass
  obtain ⟨low, high, hspan⟩ := viewSpan_of_passes (x := x) hth hb (hpass th (head_mem hth))
  have hok := checkAll_view (slot := 0) (x := x) hth hb hpass
  obtain ⟨t, hnext, hqueued, hregions⟩ := accld_hands_over (hd := ptrIndex (BitVec.ofNat 64 v)) (sp := .view (g th).obj (g th).off low high) (th := th) h hc b.key
    (show exec (.accld f) s = execAccld f s from rfl) (by
      dsimp only
      rw [State.about_act, hth, Option.bind_some, hb]
      refine (if_neg hhi).trans ?_
      split
      · next t ht => exact absurd (hok.symm.trans ht) (by simp)
      · next t ht => exact absurd (hok.symm.trans ht) (by simp)
      · refine (if_neg (ne_true_of_eq_false hwait)).trans ?_
        rw [show State.viewSpan _ _ _ _ = _ from hspan])
  exact ⟨t, low, high, hnext, hqueued, hregions⟩

/-! ### ACCDR -/

/-- The operation that ACCDR hands over. -/
def State.accdrKind (u : State) (x : Exec) (f : Insn) (b : Block) (d : Span) : EngineKind :=
  .accdr (u.regionAt b.key (accNo f.opa)).i32 (accNo f.opa) (Forms.mid2 f.mod) (Forms.low2 f.mod) (f.mod.getLsbD 3) (f.mod.getLsbD 2)
    (if f.mod.getLsbD 2 then [] else u.laneVals x f.opd 0) (u.laneRegs x f.opd) d 0

theorem accdr_pair (p : Pair) (h : Admits s (.accdr f) f ig act) (hc : ig.core < s.cores.length) (hth : act.head? = some th) :
    let x := s.about (.accdr f) f ig act
    let u := s.acting x
    let S := mintPitch (Forms.mid2 f.mod) (f.mod.getLsbD 3)
    u.block? th.tid.block = some b → Forms.hi2 f.mod = 0 → pairOf (u.src th f.opb 2) = some p → p.rot = 0 → p.pk = false →
    (f.mod.getLsbD 3 = true → S ≤ 16 * p.rpitch) → u.pairOk b false p 1 128 S = true → (u.core ig.core).ranges.length < 32 →
    ∃ t, exec (.accdr f) s = .next t ∧
      Rule.queued s t f ig act th (u.accdrKind x f b (.pair (BitVec.ofNat 32 (u.src th f.opb 2)) (BitVec.ofNat 32 (u.src th f.opb 2 / 2 ^ 32)))) ∧
      (t.core ig.core).ranges.length = (s.core ig.core).ranges.length + 1 := by
  intro x u S hb hhi hp hrot hpk hpitch hok hranges
  let t := u.modCore ig.core fun c => { c with ranges := c.ranges ++ [⟨p.base, p.base + 16 * 127 * p.rpitch + S, x.inst⟩] }
  let o := { x.engineOp u th (.accdr f) (u.accdrKind x f b (.pair (BitVec.ofNat 32 (u.src th f.opb 2)) (BitVec.ofNat 32 (u.src th f.opb 2 / 2 ^ 32)))) with
    unis := uniRun f.opb 2 }
  have hcu : ig.core < u.cores.length := by simpa [u] using hc
  have ht : t.steady = s.steady := by simp [t, u]
  refine ⟨_, hands_over (o := o) h (show exec (.accdr f) s = execAccdr f s from rfl) ht ?_,
    queued_closed (u := t) hc ht (by simp [t, u]) ?_ ⟨rfl, rfl, rfl, rfl, rfl, rfl⟩, ?_⟩
  · dsimp only
    rw [State.about_act, hth, Option.bind_some, hb, hhi]
    dsimp only
    rw [show pairOf (State.src _ th f.opb 2) = some p from hp]
    refine (if_neg ?_).trans ((if_neg ?_).trans (if_neg (Nat.not_le.2 hranges)))
    · rintro (h1 | h1 | ⟨h1, h2⟩)
      · exact h1 hrot
      · simp [hpk] at h1
      · exact absurd (hpitch h1) (Nat.not_le.2 h2)
    · exact not_not_true hok
  · refine (State.modCore_frame Core.engine (by exact fun _ => rfl) u ig.core ig.core).trans ?_
    simp [u]
  · rw [State.closed_later_core Core.ranges (fun _ _ _ => rfl)]
    have hr : ((t.enqueue x o).core ig.core).ranges = (t.core ig.core).ranges := by
      unfold State.enqueue
      dsimp only
      split <;> exact State.modCore_frame Core.ranges (by exact fun _ => rfl) _ _ _
    rw [hr, State.modCore_core_self hcu]
    simp [u]

theorem accdr_view {g : Thread → Got} (h : Admits s (.accdr f) f ig act) (hc : ig.core < s.cores.length) (hth : act.head? = some th) :
    let x := s.about (.accdr f) f ig act
    let u := s.acting x
    u.block? th.tid.block = some b → Forms.hi2 f.mod = 1 →
    (∀ q ∈ act, Rule.passes u x (u.ptr th f.opb) 0 (128 * mintPitch (Forms.mid2 f.mod) (f.mod.getLsbD 3)) 1 rightW q (g q)) →
    ∃ t low high, exec (.accdr f) s = .next t ∧ Rule.queued s t f ig act th (u.accdrKind x f b (.view (g th).obj (g th).off low high)) := by
  intro x u hb hhi hpass
  obtain ⟨low, high, hspan⟩ := viewSpan_of_passes (x := x) hth hb (hpass th (head_mem hth))
  have hok := checkAll_view (slot := 1) (x := x) hth hb hpass
  let o := { x.engineOp u th (.accdr f) (u.accdrKind x f b (.view (g th).obj (g th).off low high)) with
    unis := uniRun f.opb 2, handle := ptrIndex (u.ptr th f.opb) }
  have hu : u.steady = s.steady := by simp [u]
  refine ⟨_, low, high, hands_over (o := o) h (show exec (.accdr f) s = execAccdr f s from rfl) hu ?_,
    queued_closed (u := u) hc hu (by simp [u]) (by simp [u]) ⟨rfl, rfl, rfl, rfl, rfl, rfl⟩⟩
  dsimp only
  rw [State.about_act, hth, Option.bind_some, hb]
  dsimp only
  split
  · next h0 => exact absurd (hhi.symm.trans h0) (by decide)
  · split
    · next t ht => exact absurd (hok.symm.trans ht) (by simp)
    · next t ht => exact absurd (hok.symm.trans ht) (by simp)
    · rw [show State.viewSpan _ _ _ _ = _ from hspan]
      rfl
  · next h1 => exact absurd hhi h1

theorem accdr_fifo (h : Admits s (.accdr f) f ig act) (hc : ig.core < s.cores.length) (hth : act.head? = some th) :
    let x := s.about (.accdr f) f ig act
    let u := s.acting x
    u.block? th.tid.block = some b → 2 ≤ Forms.hi2 f.mod → (u.core ig.core).bound b.key (u.src th f.opb 1 % 2 ^ 32) false 3 = true →
    ∃ t, exec (.accdr f) s = .next t ∧ Rule.queued s t f ig act th (u.accdrKind x f b (.fifo (u.src th f.opb 1 % 2 ^ 32))) := by
  intro x u hb hhi hbound
  let o := { x.engineOp u th (.accdr f) (u.accdrKind x f b (.fifo (u.src th f.opb 1 % 2 ^ 32))) with unis := uniRun f.opb 2 }
  have hu : u.steady = s.steady := by simp [u]
  refine ⟨_, hands_over (o := o) h (show exec (.accdr f) s = execAccdr f s from rfl) hu ?_,
    queued_closed (u := u) hc hu (by simp [u]) (by simp [u]) ⟨rfl, rfl, rfl, rfl, rfl, rfl⟩⟩
  dsimp only
  rw [State.about_act, hth, Option.bind_some, hb]
  dsimp only
  split
  · next h0 => exact absurd h0 (by omega)
  · next h1 => exact absurd h1 (by omega)
  · exact if_neg (not_not_true hbound)

/-! ### MMA -/

/-- The places that W can have: a latch slot, a pair, a FIFO, or a view that is still to be checked. -/
theorem mmaW_place {u : State} {r0 : Region} {w : Span} {wFmt n : Nat} {pk : Bool} (h : u.mmaW th f r0 = some (w, wFmt, n, pk)) :
    (∃ slot, w = .latch slot) ∨ (∃ lo hi, w = .pair lo hi) ∨ (∃ k, w = .fifo k) ∨ w = .view 0 0 0 0 := by
  unfold State.mmaW at h
  dsimp only at h
  repeat' split at h
  all_goals cases h
  all_goals simp

/-- The registers that A names. -/
def mmaRun (a : Span) (size n : Nat) : Nat × Nat :=
  match a with
  | .regs v => (v, v + 32 * size * n)
  | _ => (0, 0)

/-- A FIFO that the block may not read. -/
def State.mmaFifoBad (u : State) (core : Nat) (b : Block) (sp : Span) : Bool :=
  match sp with
  | .fifo k => !(u.core core).bound b.key k true 2
  | _ => false

/-- A pair that names bytes it may not. -/
def State.mmaLocalBad (u : State) (b : Block) (size wFmt n : Nat) (sp : Span) (wt : Bool) : Option Pair :=
  sp.pair?.bind fun p =>
    if p.pk then none
    else if wt then if u.gangLocal b p.base 1024 && u.pairOk b false (p.at_ 1024) n 128 (256 * wtSize wFmt) then none else some p
    else if u.pairOk b false p n 128 (128 * size) then none else some p

/-- The checks of a W that lies in a view, one for each lane. -/
def mmaWants (x : Exec) (p : BitVec 64) (w : Span) (wFmt n : Nat) (pk : Bool) : List Want :=
  match w with
  | .view .. => x.act.map fun t => { th := t, slot := 1, p, n := if pk then 1032 else 1024 + 32768 * wtSize wFmt * n, al := 1, need := rightR : Want }
  | _ => []

/-- The place of W as it is handed over, and the view index it was checked through. -/
def State.mmaSpan (u : State) (core ctx : Nat) (p : BitVec 64) (w : Span) : Span × Nat :=
  match w with
  | .view .. => (u.viewSpan core ctx p, ptrIndex p)
  | w => (w, 0)

/-- The state that hands an MMA over: its region has the header, and a W that is not latched has taken the slots. -/
def State.mmaPrepared (u : State) (core : Nat) (b : Block) (r n : Nat) (w : Span) (o : EngineOp) : State :=
  let t := if (u.core core).mmaOn b.key r then u else u.modRegion b.key r (·.header o n)
  match w with
  | .latch _ => t
  | _ => t.dropSlots core

theorem State.mmaPrepared_steady (u : State) (core : Nat) (b : Block) (r n : Nat) (w : Span) (o : EngineOp) :
    (u.mmaPrepared core b r n w o).steady = u.steady := by
  unfold State.mmaPrepared
  dsimp only
  split <;> split <;> simp

theorem State.mmaPrepared_length (u : State) (core : Nat) (b : Block) (r n : Nat) (w : Span) (o : EngineOp) :
    (u.mmaPrepared core b r n w o).cores.length = u.cores.length := by
  unfold State.mmaPrepared
  dsimp only
  split <;> split <;> simp

theorem State.mmaPrepared_engine (u : State) (core : Nat) (b : Block) (r n : Nat) (w : Span) (o : EngineOp) (k : Nat) :
    ((u.mmaPrepared core b r n w o).core k).engine = (u.core k).engine := by
  unfold State.mmaPrepared
  dsimp only
  split <;> split <;> simp

/-- The operation of an MMA. -/
def State.mmaOp (u : State) (x : Exec) (th : Thread) (f : Insn) (b : Block) (a w : Span) (wFmt n : Nat) (pk : Bool) : EngineOp :=
  let sp := u.mmaSpan x.ig.core b.ctx (u.ptr th f.opb) w
  { x.engineOp u th (.mma f) (.mma (accNo f.opd) (Forms.mid2 f.mod) wFmt n pk a sp.1) with
    handle := sp.2, run := mmaRun a (actSize (Forms.mid2 f.mod)) n, unis := uniRun f.opa 2 ++ uniRun f.opb 3 }

/-- MMA past all its checks. -/
theorem mma_hands_over {a w : Span} {wFmt n : Nat} {pk : Bool} (gs : List Got) (h : Admits s (.mma f) f ig act) (hc : ig.core < s.cores.length)
    (hth : act.head? = some th) :
    let x := s.about (.mma f) f ig act
    let u := s.acting x
    let size := actSize (Forms.mid2 f.mod)
    u.block? th.tid.block = some b → u.mmaW th f (u.regionAt b.key 0) = some (w, wFmt, n, pk) → u.mmaA th f = some a →
    mmaPair (Forms.mid2 f.mod) wFmt (u.regionAt b.key (accNo f.opd)).i32 = true →
    (mmaRun a size n).2 ≤ ((u.group? th.tid.block th.tid.group).map (·.alloc)).getD 0 →
    ((List.range ((mmaRun a size n).2 - (mmaRun a size n).1)).any fun k =>
      act.any fun t => u.emptyReg t.home ((mmaRun a size n).1 + k) t.tid.lane) = false →
    u.mmaFifoBad ig.core b a = false → u.mmaFifoBad ig.core b w = false →
    u.mmaLocalBad b size wFmt n a false = none → u.mmaLocalBad b size wFmt n w true = none →
    u.checkAll x b.ctx (mmaWants x (u.ptr th f.opb) w wFmt n pk) = .ok gs → u.engineWait ig.core (act.map (·.tid)) = false →
    ∃ t, exec (.mma f) s = .next t ∧
      Rule.queued s t f ig act th (.mma (accNo f.opd) (Forms.mid2 f.mod) wFmt n pk a (u.mmaSpan ig.core b.ctx (u.ptr th f.opb) w).1) := by
  intro x u size hb hw ha hpair halloc hempty hfa hfw hla hlw hcheck hwait
  let o := u.mmaOp x th f b a w wFmt n pk
  let t := u.mmaPrepared ig.core b (accNo f.opd) n (u.mmaSpan ig.core b.ctx (u.ptr th f.opb) w).1 o
  have ht : t.steady = s.steady := (u.mmaPrepared_steady _ _ _ _ _ _).trans (by simp [u])
  refine ⟨_, hands_over (o := o) (u := t) h (show exec (.mma f) s = execMma f s from rfl) ht ?_,
    queued_closed (u := t) hc ht ((u.mmaPrepared_length _ _ _ _ _ _).trans (by simp [u])) ((u.mmaPrepared_engine _ _ _ _ _ _ _).trans (by simp [u]))
      ⟨rfl, rfl, rfl, rfl, rfl, rfl⟩⟩
  dsimp only
  rw [State.about_act, hth, Option.bind_some, hb]
  dsimp only
  rw [show State.mmaW _ th f _ = some (w, wFmt, n, pk) from hw, show State.mmaA _ th f = some a from ha]
  refine (if_neg (not_not_true hpair)).trans ((if_neg (Nat.not_lt.2 halloc)).trans ((if_neg ?_).trans ?_))
  · exact Bool.not_eq_true _ ▸ Bool.or_eq_false_iff.2 ⟨hfa, hfw⟩
  · split
    · next q hq => exact absurd (hla.symm.trans hq) (by simp)
    · next q hq => exact absurd (hlw.symm.trans hq) (by simp)
    · split
      · next q hq => exact absurd (hcheck.symm.trans hq) (by simp)
      · next q hq => exact absurd (hcheck.symm.trans hq) (by simp)
      · exact if_neg (Bool.not_eq_true _ ▸ Bool.or_eq_false_iff.2 ⟨hempty, hwait⟩)

end

end Sys2Proof.Machine

namespace Sys2Proof.Machine

section
variable {f : Insn} {s : State} {ig : IssueGroup} {act : List Thread} {th : Thread} {b : Block} {u : State} {x : Exec}

theorem mmaRun_free {a : Span} {size n : Nat} {act : List Thread}
    (h : ∀ v, a = .regs v → ∀ q ∈ act, ∀ k < 32 * size * n, u.emptyReg q.home (v + k) q.tid.lane = false) :
    ((List.range ((mmaRun a size n).2 - (mmaRun a size n).1)).any fun k =>
      act.any fun t => u.emptyReg t.home ((mmaRun a size n).1 + k) t.tid.lane) = false := by
  cases a with
  | regs v =>
    simp only [mmaRun, Nat.add_sub_cancel_left, List.any_eq_false, List.mem_range, Bool.not_eq_true]
    exact fun k hk q hq => h v rfl q hq k hk
  | _ => rfl

theorem mmaRun_le {a : Span} {size n m : Nat} (h : ∀ v, a = .regs v → v + 32 * size * n ≤ m) : (mmaRun a size n).2 ≤ m := by
  cases a with
  | regs v => exact h v rfl
  | _ => exact Nat.zero_le m

theorem mmaFifoBad_false {core : Nat} {sp : Span} (h : ∀ k, sp = .fifo k → (u.core core).bound b.key k true 2 = true) :
    u.mmaFifoBad core b sp = false := by
  cases sp with
  | fifo k => exact congrArg (!·) (h k rfl)
  | _ => rfl

theorem mmaLocalBad_none {size wFmt n : Nat} {sp : Span} {wt : Bool}
    (h : ∀ p, sp.pair? = some p → p.pk = true ∨ (if wt then u.gangLocal b p.base 1024 && u.pairOk b false (p.at_ 1024) n 128 (256 * wtSize wFmt)
      else u.pairOk b false p n 128 (128 * size)) = true) : u.mmaLocalBad b size wFmt n sp wt = none := by
  unfold State.mmaLocalBad
  cases hp : sp.pair? with
  | none => rfl
  | some p =>
    show (if p.pk then none else _) = none
    rcases h p hp with hpk | hok
    · exact if_pos hpk
    · refine (if_congr Iff.rfl rfl ?_).trans (ite_self none)
      cases wt with
      | true => exact if_pos hok
      | false => exact if_pos hok

/-- The check of W's view, where W lies in one, and what it then names. -/
theorem mmaW_checked {w : Span} {wFmt n : Nat} {pk : Bool} {r0 : Region} {g : Thread → Got} (hth : x.act.head? = some th)
    (hb : u.block? th.tid.block = some b) (hw : u.mmaW th f r0 = some (w, wFmt, n, pk))
    (h : w = .view 0 0 0 0 → ∀ q ∈ x.act, Rule.passes u x (u.ptr th f.opb) 0 (if pk then 1032 else 1024 + 32768 * wtSize wFmt * n) 1 rightR q (g q)) :
    (∃ gs, u.checkAll x b.ctx (mmaWants x (u.ptr th f.opb) w wFmt n pk) = .ok gs) ∧
    ∃ low high, (u.mmaSpan x.ig.core b.ctx (u.ptr th f.opb) w).1 = if w = .view 0 0 0 0 then .view (g th).obj (g th).off low high else w := by
  have hnil : u.checkAll x b.ctx [] = .ok [] := State.checkAll_ok (act := []) (w := fun q => ⟨q, 0, 0, 0, 0, 0, 0⟩) (g := fun q => ⟨q, 0, 0, 0⟩) (by simp)
  rcases mmaW_place hw with ⟨slot, rfl⟩ | ⟨lo, hi, rfl⟩ | ⟨k, rfl⟩ | rfl
  · exact ⟨⟨_, hnil⟩, 0, 0, rfl⟩
  · exact ⟨⟨_, hnil⟩, 0, 0, rfl⟩
  · exact ⟨⟨_, hnil⟩, 0, 0, rfl⟩
  · obtain ⟨low, high, hspan⟩ := viewSpan_of_passes hth hb (h rfl th (head_mem hth))
    exact ⟨⟨_, checkAll_view hth hb (h rfl)⟩, low, high, hspan⟩

end

end Sys2Proof.Machine

namespace Sys2Proof.Proofs

open Machine

/-- Settles O40, place by place of each operand. -/
theorem engineOperands : Obligations.EngineOperands := by
  refine ⟨?_, ?_, ?_, ?_⟩
  · intro f s ig act th b p h hc hth
    exact wload_issues p h hc hth
  · intro f s ig act th b w a wFmt n pk g h hc hth x u r aFmt hb hw ha hpair hregs hfifo hpa hpw hview hwait
    obtain ⟨⟨gs, hcheck⟩, low, high, hspan⟩ := mmaW_checked (x := x) hth hb hw hview
    have halloc : (mmaRun a (actSize aFmt) n).2 ≤ ((u.group? th.tid.block th.tid.group).map (·.alloc)).getD 0 := by
      refine mmaRun_le fun v hv => ?_
      obtain ⟨⟨q, hq, hle⟩, -⟩ := hregs v hv
      rw [hq]
      exact hle
    obtain ⟨t, hnext, hqueued⟩ := mma_hands_over gs h hc hth hb hw ha hpair halloc (mmaRun_free fun v hv => (hregs v hv).2)
      (mmaFifoBad_false fun k hk => hfifo k (.inl hk)) (mmaFifoBad_false fun k hk => hfifo k (.inr hk))
      (mmaLocalBad_none fun p hp => hpa p hp) (mmaLocalBad_none fun p hp => (hpw p hp).imp_right (by simpa using ·)) hcheck hwait
    rw [show (State.mmaSpan _ ig.core b.ctx _ w).1 = _ from hspan] at hqueued
    exact ⟨t, low, high, hnext, hqueued⟩
  · intro f s ig act th b g h hc hth x u v hb hwait
    exact ⟨fun hhi p hp hpitch hrot hpk hok => accld_pair p h hc hth hb hwait hhi hp hpitch hrot hpk hok,
      fun hhi hpass => accld_view h hc hth hb hwait hhi hpass⟩
  · intro f s ig act th b g h hc hth x u fmt pk auto kind hb
    exact ⟨fun hhi p hp hrot hpk hpitch hok hranges => accdr_pair p h hc hth hb hhi hp hrot hpk hpitch hok hranges,
      fun hhi hpass => accdr_view h hc hth hb hhi hpass, fun hhi hbound => accdr_fifo h hc hth hb hhi hbound⟩

end Sys2Proof.Proofs
end


section
/-! PROOFS. TLD and TST at issue (R230, R231). -/

namespace Sys2Proof.Machine

/-! ### The elements of the lanes -/

/-- What an element instruction of a lane names: the thread, the descriptor of its tile and the index. -/
def State.elemName (u : State) (f : Insn) (th : Thread) : Thread × Desc × Nat :=
  (th, descOf (u.tile th.home (tileNo f.opa)), u.src th f.opb 2)

section
variable {u : State} {x : Exec} {f : Insn} {c : Ctx} {need : BitVec 4} {e : Thread → Option ElemAt}

theorem elemNames_eq (hf : x.f = f) : u.elemNames x = x.act.map (u.elemName f) := by
  subst hf
  rfl

/-- Where every lane's element is there, the instruction passes the checks of its tile, its index and its view. -/
theorem elements_checked (hf : x.f = f) (h : ∀ th ∈ x.act, Rule.element u x c f need th (e th)) :
    ((u.elemNames x).any fun p => u.tileLoading p.1.tid.block p.1.tid.group (tileNo f.opa)) = false ∧
    ((u.elemNames x).any fun p => p.2.1.bad true) = false ∧ indexTrap x (u.elemNames x) = none ∧ u.elemView x (u.ctxOfExec x) (u.elemNames x) = none := by
  refine ⟨?_, ?_, indexTrap_none fun th hth => ?_, ?_⟩
  · rw [elemNames_eq hf, List.any_map, List.any_eq_false]
    intro th hth
    obtain ⟨hload, -⟩ := h th hth
    exact Bool.not_eq_true _ ▸ hload
  · rw [elemNames_eq hf, List.any_map, List.any_eq_false]
    intro th hth
    obtain ⟨-, hrank, hcursor, -⟩ := h th hth
    simp [Desc.bad, State.elemName, hrank, hcursor]
  · obtain ⟨-, -, -, hi, -⟩ := h th hth
    subst hf
    exact hi
  · rw [elemNames_eq hf, State.elemView, List.find?_map, Option.map_map, Option.map_eq_none_iff, List.find?_eq_none]
    intro th hth
    obtain ⟨-, -, -, -, hview, -⟩ := h th hth
    simp only [Function.comp, Bool.and_eq_true, beq_iff_eq, Option.isNone_iff_eq_none, not_and]
    exact hview

/-- No place among those that pass traps. -/
theorem elemTrap_none {es : List (Thread × ElemAt)} (h : ∀ p ∈ es, (∀ k m, p.2 ≠ .bad k m) ∧ ∀ m o, p.2 ≠ .other m o) : elemTrap x es = none := by
  unfold elemTrap
  dsimp only
  split
  · rfl
  · next hm =>
    refine absurd (hm.symm.trans (minBy_nil ?_)) (by simp)
    rw [List.filterMap_eq_nil_iff]
    rintro ⟨th, p⟩ hp
    obtain ⟨hbad, hother⟩ := h _ hp
    cases p with
    | bad k m => exact absurd rfl (hbad k m)
    | other m o => exact absurd rfl (hother m o)
    | _ => rfl

/-- The place of an element, by its descriptor. -/
theorem element_place {th : Thread} {b : Block} {p : Option ElemAt} (h : Rule.element u x c f need th p) (hb : u.block? th.tid.block = some b) :
    (p = if (u.elemName f th).2.1.ghost (u.elemName f th).2.2 then none else some (u.elemOf x c b need (u.elemName f th)).2) ∧
    (∀ k m, p ≠ some (.bad k m)) ∧ (∀ m o, p ≠ some (.other m o)) ∧
    ∀ a, p = some (.loc a) → u.rangeBusy x.ig.core a (u.elemName f th).2.1.size = false := by
  obtain ⟨-, -, -, -, -, b', hb', hplace⟩ := h
  obtain rfl : b = b' := Option.some.inj (hb.symm.trans hb')
  split at hplace
  · next hghost =>
    subst hplace
    exact ⟨(if_pos hghost).symm, by simp, by simp, by simp⟩
  · next hghost =>
    obtain ⟨q, rfl, hq, hbad, hother, hloc⟩ := hplace
    refine ⟨(congrArg some hq).trans (if_neg hghost).symm, ?_, ?_, fun a ha => hloc a (Option.some.inj ha)⟩
    · exact fun k m hk => hbad k m (Option.some.inj hk)
    · exact fun m o hk => hother m o (Option.some.inj hk)

theorem element_block {th : Thread} {p : Option ElemAt} (h : Rule.element u x c f need th p) : ∃ b, u.block? th.tid.block = some b := by
  obtain ⟨-, -, -, -, -, b, hb, -⟩ := h
  exact ⟨b, hb⟩

/-- The places that the elements of the lanes give trap nothing. -/
theorem elements_no_trap (h : ∀ th ∈ x.act, Rule.element u x c f need th (e th)) :
    elemTrap x (x.act.filterMap fun th => (e th).map fun p => (th, p)) = none := by
  refine elemTrap_none fun p hp => ?_
  obtain ⟨th, hth, hp⟩ := List.mem_filterMap.1 hp
  obtain ⟨q, hq, rfl⟩ := Option.map_eq_some_iff.1 hp
  obtain ⟨b, hb⟩ := element_block (h th hth)
  obtain ⟨-, hbad, hother, -⟩ := element_place (h th hth) hb
  exact ⟨fun k m hk => hbad k m (hq.trans (congrArg some hk)), fun m o hk => hother m o (hq.trans (congrArg some hk))⟩

end

theorem exists_of_forall₂_mem {α β : Type} {R : α → β → Prop} {l : List α} {m : List β} (h : List.Forall₂ R l m) {b : β} (hb : b ∈ m) :
    ∃ a ∈ l, R a b := by
  induction h with
  | nil => cases hb
  | cons hab _ ih =>
    rcases List.mem_cons.1 hb with rfl | hb
    · exact ⟨_, List.mem_cons_self, hab⟩
    · obtain ⟨a, ha, hr⟩ := ih hb
      exact ⟨a, List.mem_cons_of_mem _ ha, hr⟩

/-! ### What an element's access keeps -/

/-- An access with what its place does not decide. -/
def Access.frame (a : Access) := (a.inst, a.tid, a.opc, a.mod, a.cmp, a.bytes, a.reg, a.flag, a.pc, a.data)

theorem ElemAt.access_frame (e : ElemAt) (a : Access) (pid i : Nat) : (e.access a pid i).frame = a.frame := by cases e <;> rfl

/-! ### TLD -/

/-- What TLD has found for a lane: what it names, the PLACE that moves the element, and its place, none for a ghost. -/
abbrev ElemFound := (Thread × Desc × Nat) × Option PlaceOp × Option ElemAt

/-- The elements that the lanes of TLD name. -/
def State.tldElems (u : State) (x : Exec) (c : Ctx) : List ElemFound :=
  (u.elemNames x).filterMap fun p => (u.block? p.1.tid.block).map fun b =>
    (p, if p.2.1.ghost p.2.2 then (none, none) else ((u.elemOf x c b rightR p).1, some (u.elemOf x c b rightR p).2))

/-- The access of a lane of TLD, before its place. -/
def State.tldBase (u : State) (x : Exec) (f : Insn) (p : Thread × Desc × Nat) : Access :=
  { id := 0, inst := x.inst, tid := p.1.tid, opc := 0xDB, mod := f.mod, cmp := BitVec.ofNat 64 (elemCode p.2.1.fmt)
    bytes := p.2.1.size, reg := u.regNo p.1 f.opd, flag := x.flag, pc := x.ig.pc
    data := BitVec.ofNat 128 (tileNo f.opa + 2 ^ 8 * p.2.1.res + 2 ^ 16 * p.2.1.base) }

/-- The access of a lane of TLD. -/
def State.tldAccess (u : State) (x : Exec) (f : Insn) (q : ElemFound) : Access :=
  match q.2.2 with
  | some e =>
    if u.tileLoose q.1.1.tid.block q.1.1.tid.group (tileNo f.opa) && q.2.1.isNone then
      (ElemAt.held (Config.freeWord u.tick (2 ^ 16 + q.1.1.tid.lane)).toNat).access (u.tldBase x f q.1) 0 q.1.2.2
    else e.access (u.tldBase x f q.1) ((q.2.1.map (·.id)).getD 0) q.1.2.2
  | none => { u.tldBase x f q.1 with inLocal := true, args := [0, q.1.2.2, 2], data := BitVec.ofNat 128 q.1.2.1.fill }

/-- A lane's register is marked empty, and its access is taken up. -/
def State.tldStep (u : State) (x : Exec) (f : Insn) (t : State) (q : ElemFound) : State :=
  (t.markEmptyRun q.1.1.home (u.regNo q.1.1 f.opd) q.1.1.tid.lane t.nextId 1).issueAccess x.ig.core (u.tldAccess x f q)

theorem tldAccess_names (u : State) (x : Exec) (f : Insn) (q : ElemFound) :
    ((u.tldAccess x f q).tid, (u.tldAccess x f q).opc, (u.tldAccess x f q).bytes, (u.tldAccess x f q).reg) =
      (q.1.1.tid, 0xDB#8, q.1.2.1.size, u.regNo q.1.1 f.opd) := by
  obtain ⟨p, o, e⟩ := q
  cases e with
  | none => rfl
  | some e =>
    simp only [State.tldAccess]
    split
    · rfl
    · have hframe := e.access_frame (u.tldBase x f p) ((o.map (·.id)).getD 0) p.2.2
      simp only [Access.frame, Prod.mk.injEq] at hframe
      obtain ⟨-, htid, hopc, -, -, hbytes, hreg, -⟩ := hframe
      rw [htid, hopc, hbytes, hreg]
      rfl

theorem tldAccess_place {u : State} {x : Exec} {f : Insn} {q : ElemFound} {e : ElemAt} (he : q.2.2 = some e)
    (h : u.tileLoose q.1.1.tid.block q.1.1.tid.group (tileNo f.opa) = false) :
    u.tldAccess x f q = e.access (u.tldBase x f q.1) ((q.2.1.map (·.id)).getD 0) q.1.2.2 := by
  unfold State.tldAccess
  rw [he, h]
  rfl

section
variable {f : Insn} {s : State} {ig : IssueGroup} {act : List Thread} {c : Ctx} {e : Thread → Option ElemAt}

/-- What TLD finds for each lane, in their order. -/
theorem tldElems_eq {u : State} {x : Exec} (hf : x.f = f) (h : ∀ th ∈ x.act, Rule.element u x c f rightR th (e th)) :
    ∃ o : Thread → Option PlaceOp, u.tldElems x c = x.act.map fun th => (u.elemName f th, o th, e th) := by
  let o : Thread → Option PlaceOp := fun th => (u.block? th.tid.block).bind fun b =>
    if (u.elemName f th).2.1.ghost (u.elemName f th).2.2 then none else (u.elemOf x c b rightR (u.elemName f th)).1
  refine ⟨o, ?_⟩
  rw [State.tldElems, elemNames_eq hf, List.filterMap_map, ← List.filterMap_eq_map]
  refine List.filterMap_congr fun th hth => ?_
  obtain ⟨b, hb⟩ := element_block (h th hth)
  obtain ⟨hplace, -⟩ := element_place (h th hth) hb
  have hb' : u.block? (u.elemName f th).1.tid.block = some b := hb
  simp only [Function.comp, hb', Option.map_some, o, hb, Option.bind_some, hplace]
  split <;> rfl

/-- TLD past its checks takes up one access for each lane. -/
theorem tld_exec (h : Admits s (.tld f) f ig act) :
    let x := s.about (.tld f) f ig act
    let u := s.acting x
    u.ctx? (u.ctxOfExec x) = some c →
    (∀ th ∈ act, Rule.element u x c f rightR th (e th) ∧ ∀ h r l sh, e th = some (.reg h r l sh) → u.emptyReg h r l = false) →
    let t := (u.tldElems x c).foldl (u.tldStep x f) u
    t.still = u.still → exec (.tld f) s = .next (t.closed x (.tld f) .later false) := by
  intro x u hctx hall t hstill
  have helem : ∀ th ∈ x.act, Rule.element u x c f rightR th (e th) := fun th hth => (hall th hth).1
  obtain ⟨hload, hbad, hindex, hview⟩ := elements_checked (f := f) rfl helem
  obtain ⟨o, ho⟩ := tldElems_eq (f := f) rfl helem
  have htrap : elemTrap x ((u.tldElems x c).filterMap fun q => q.2.2.map fun e => (q.1.1, e)) = none := by
    rw [ho, List.filterMap_map]
    exact elements_no_trap helem
  refine (show exec (.tld f) s = execTld f s from rfl).trans (issueWith_still h ?_ hstill)
  dsimp only
  refine (if_neg (ne_true_of_eq_false hload)).trans ((if_neg (ne_true_of_eq_false hbad)).trans ?_)
  rw [show indexTrap _ _ = none from hindex, show State.elemView _ _ _ _ = none from hview, show State.ctx? _ _ = some c from hctx]
  dsimp only
  split
  · next tr htr => exact absurd (htrap.symm.trans htr) (by simp)
  · refine if_neg ?_
    rw [Bool.or_eq_true, not_or, Bool.not_eq_true, Bool.not_eq_true, List.any_eq_false, List.any_eq_false]
    constructor <;> intro q hq <;> (replace hq : q ∈ u.tldElems x c := hq) <;> rw [ho] at hq <;> obtain ⟨th, hth, rfl⟩ := List.mem_map.1 hq
    · split
      · next hd r l sh hreg =>
        rw [show State.emptyReg _ hd r l = false from (hall th hth).2 hd r l sh hreg]
        simp
      · simp
    · split
      · next a hloc =>
        obtain ⟨b, hb⟩ := element_block (helem th hth)
        obtain ⟨-, -, -, hfree⟩ := element_place (helem th hth) hb
        exact ne_true_of_eq_false (hfree a hloc)
      · simp

theorem State.tldStep_nextId (u : State) (x : Exec) (f : Insn) (t : State) (q : ElemFound) : (u.tldStep x f t q).nextId = t.nextId + 1 := by
  rw [State.tldStep, State.issueAccess_nextId, State.markEmptyRun_nextId]

theorem tldSteps_still (u : State) (x : Exec) (f : Insn) (l : List ElemFound) : (l.foldl (u.tldStep x f) u).still = u.still :=
  foldl_frame State.still (u.tldStep x f) (fun t q => by simp [State.tldStep]) l u

theorem tld_issues (h : Admits s (.tld f) f ig act) (hc : ig.core < s.cores.length) (hid : s.nextId + act.length + 1 < 2 ^ 64) :
    let x := s.about (.tld f) f ig act
    let u := s.acting x
    u.ctx? (u.ctxOfExec x) = some c →
    (∀ th ∈ act, Rule.element u x c f rightR th (e th) ∧ ∀ h r l sh, e th = some (.reg h r l sh) → u.emptyReg h r l = false) →
    ∃ t, exec (.tld f) s = .next t ∧ Rule.sameMemory s t ∧ t.vregs = s.vregs ∧ t.uregs = s.uregs ∧ t.tiles = s.tiles ∧ t.regions = s.regions ∧
      (∀ th ∈ act, t.emptyReg th.home (u.regNo th f.opd) th.tid.lane = true) ∧
      ∃ (o : Thread → Option PlaceOp) (new : List Access), (t.core ig.core).accs = (s.core ig.core).accs ++ new ∧
        List.Forall₂ (fun th a => (u.tldAccess x f (u.elemName f th, o th, e th)).TakenUp a) act new := by
  intro x u hctx hall
  obtain ⟨o, ho⟩ := tldElems_eq (f := f) (x := x) rfl fun th hth => (hall th hth).1
  have hstill := tldSteps_still u x f (u.tldElems x c)
  have hnext := tld_exec h hctx hall hstill
  rw [show State.tldElems _ _ c = _ from ho, List.foldl_map] at hnext
  rw [ho, List.foldl_map] at hstill
  let t := act.foldl (fun t th => u.tldStep x f t (u.elemName f th, o th, e th)) u
  have hclosed : (t.closed x (.tld f) .later false).still = s.still := by
    rw [State.closed_still]
    exact hstill.trans (s.acting_still x)
  obtain ⟨hv, hur, htl, hr, hm, -⟩ := State.still_eq_iff.1 hclosed
  refine ⟨t.closed x (.tld f) .later false, hnext, hm, hv, hur, htl, hr, fun th hth => ?_, o, ?_⟩
  · rw [State.emptyReg, State.closed_fills]
    refine State.empties_foldl (step := fun t th => u.tldStep x f t (u.elemName f th, o th, e th)) (fun th : Thread => th.home)
      (fun th => th.tid.lane) (fun th => u.regNo th f.opd) 1
      (fun _ _ => rfl) (fun t th => u.tldStep_nextId x f t (u.elemName f th, o th, e th)) act u ?_ ?_ _ _ _
      (.inr ⟨th, hth, rfl, ⟨0, by decide, rfl⟩, rfl⟩)
    · rw [State.acting_nextId]
      omega
    · rw [State.acting_nextId]
      omega
  · obtain ⟨new, haccs, hnew⟩ := (State.takesUp_foldl (core := ig.core) (step := fun t th => u.tldStep x f t (u.elemName f th, o th, e th))
      (Q := fun th a => (u.tldAccess x f (u.elemName f th, o th, e th)).TakenUp a) act
      (fun t th _ hc => ((State.issueAccess_takesUp (by simpa using hc) _).of_cores (by simp)).lane rfl fun b hb => hb) u (by simpa [u] using hc)).closed
        x (.tld f) false
    exact ⟨new, haccs.trans (by simp [u]), hnew⟩

/-! ### TST -/

theorem State.complete_still (t : State) (ts : List Tid) (n : Option Nat) : (t.complete ts n).still = t.still :=
  State.still_of_files (by simp) (by simp)
theorem State.complete_fills (t : State) (ts : List Tid) (n : Option Nat) : (t.complete ts n).fills = t.fills := by cases n <;> rfl

/-- The access of a lane of TST, before its place. -/
def State.tstBase (u : State) (x : Exec) (f : Insn) (p : Thread × Desc × Nat) : Access :=
  { id := 0, inst := x.inst, tid := p.1.tid, opc := 0xDC, mod := 0, bytes := p.2.1.size, flag := x.flag, pc := x.ig.pc
    data := BitVec.ofNat 128 ((u.src32 p.1 f.opd).toNat % 2 ^ (8 * p.2.1.size)) }

/-- The places that the lanes of TST write: a ghost has none. -/
def State.tstElems (u : State) (x : Exec) (c : Ctx) : List ((Thread × Desc × Nat) × ElemAt) :=
  ((u.elemNames x).filter fun p => !p.2.1.ghost p.2.2).filterMap fun p => (u.block? p.1.tid.block).map fun b => (p, (u.elemOf x c b rightW p).2)

/-- The lanes of TST that are no ghosts, in their order, each with its place. -/
theorem tstElems_eq {u : State} {x : Exec} (hf : x.f = f) (h : ∀ th ∈ x.act, Rule.element u x c f rightW th (e th)) :
    u.tstElems x c = x.act.filterMap fun th => (e th).map fun p => (u.elemName f th, p) := by
  rw [State.tstElems, elemNames_eq hf, List.filter_map, List.filterMap_map, List.filterMap_filter]
  refine List.filterMap_congr fun th hth => ?_
  obtain ⟨b, hb⟩ := element_block (h th hth)
  obtain ⟨hplace, -⟩ := element_place (h th hth) hb
  have hb' : u.block? (u.elemName f th).1.tid.block = some b := hb
  simp only [Function.comp, hb', Option.map_some, hplace]
  cases (u.elemName f th).2.1.ghost (u.elemName f th).2.2 <;> rfl

/-- The accesses of TST. -/
def State.tstAccess (u : State) (x : Exec) (f : Insn) (q : (Thread × Desc × Nat) × ElemAt) : Access := q.2.access (u.tstBase x f q.1) 0 q.1.2.2

theorem tstAccess_names (u : State) (x : Exec) (f : Insn) (q : (Thread × Desc × Nat) × ElemAt) :
    ((u.tstAccess x f q).tid, (u.tstAccess x f q).opc, (u.tstAccess x f q).bytes, (u.tstAccess x f q).data) =
      (q.1.1.tid, 0xDC#8, q.1.2.1.size, BitVec.ofNat 128 ((u.src32 q.1.1 f.opd).toNat % 2 ^ (8 * q.1.2.1.size))) := by
  have hframe := q.2.access_frame (u.tstBase x f q.1) 0 q.1.2.2
  simp only [Access.frame, Prod.mk.injEq] at hframe
  obtain ⟨-, htid, hopc, -, -, hbytes, -, -, -, hdata⟩ := hframe
  rw [State.tstAccess, htid, hopc, hbytes, hdata]
  rfl

/-- An element's access of local bytes that are its own is to the place that its check found. -/
theorem tstAccess_free {u : State} {x : Exec} {q : (Thread × Desc × Nat) × ElemAt}
    (h : ∀ a, q.2 = .loc a → u.rangeBusy x.ig.core a q.1.2.1.size = false) :
    ((u.tstAccess x f q).inLocal && (u.tstAccess x f q).args.getD 2 0 == 0 &&
      u.rangeBusy x.ig.core (u.tstAccess x f q).off (u.tstAccess x f q).bytes) = false := by
  obtain ⟨p, e⟩ := q
  cases e with
  | loc a => exact h a rfl
  | reg => rfl
  | held => rfl
  | mem => rfl
  | far => rfl
  | other => rfl
  | bad => rfl

theorem tst_issues (h : Admits s (.tst f) f ig act) (hc : ig.core < s.cores.length) :
    let x := s.about (.tst f) f ig act
    let u := s.acting x
    u.ctx? (u.ctxOfExec x) = some c →
    (∀ th ∈ act, Rule.element u x c f rightW th (e th) ∧
      u.placeOn th.tid.block th.tid.group (tileNo f.opa) (descOf (u.tile th.home (tileNo f.opa))) = none ∧
      ∀ q ∈ (u.core ig.core).outstanding, q.tid = th.tid → q.reads = false) →
    ∃ t, exec (.tst f) s = .next t ∧ Rule.sameMemory s t ∧ Rule.sameRegisters s t ∧ ∃ new : List Access,
      (t.core ig.core).accs = (s.core ig.core).accs ++ new ∧
      List.Forall₂ (fun q a => (u.tstAccess x f q).TakenUp a) (act.filterMap fun th => (e th).map fun p => (u.elemName f th, p)) new := by
  intro x u hctx hall
  have helem : ∀ th ∈ x.act, Rule.element u x c f rightW th (e th) := fun th hth => (hall th hth).1
  obtain ⟨-, hbad, hindex, hview⟩ := elements_checked (f := f) rfl helem
  have hfound := tstElems_eq (f := f) rfl helem
  have hmoved : ((u.elemNames x).any fun p => u.tileLoading p.1.tid.block p.1.tid.group (tileNo f.opa) ||
      (u.placeOn p.1.tid.block p.1.tid.group (tileNo f.opa) p.2.1).isSome) = false := by
    rw [elemNames_eq (f := f) rfl, List.any_map, List.any_eq_false]
    intro th hth
    obtain ⟨⟨hload, -⟩, hplace, -⟩ := hall th hth
    simp only [Function.comp, State.elemName, hload]
    rw [show State.placeOn _ _ _ _ _ = none from hplace]
    simp
  have htrap : elemTrap x ((u.tstElems x c).map fun q => (q.1.1, q.2)) = none := by
    rw [hfound, List.map_filterMap]
    refine Eq.trans (congrArg (elemTrap x) (List.filterMap_congr fun th _ => ?_)) (elements_no_trap helem)
    rw [Option.map_map]
    rfl
  have hidle : (((u.tstElems x c).map (u.tstAccess x f)).any fun a => (a.inLocal && a.args.getD 2 0 == 0 && u.rangeBusy x.ig.core a.off a.bytes) ||
      u.loadAhead x.ig.core a.tid a) = false := by
    rw [hfound, List.any_map, List.any_eq_false]
    intro q hq
    obtain ⟨th, hth, hq⟩ := List.mem_filterMap.1 hq
    obtain ⟨p, hp, rfl⟩ := Option.map_eq_some_iff.1 hq
    obtain ⟨b, hb⟩ := element_block (helem th hth)
    obtain ⟨-, -, -, hfree⟩ := element_place (helem th hth) hb
    refine Bool.not_eq_true _ ▸ Bool.or_eq_false_iff.2 ⟨tstAccess_free fun a ha => hfree a (hp.trans (congrArg some ha)), ?_⟩
    have htid : (u.tstAccess x f (u.elemName f th, p)).tid = th.tid := congrArg Prod.fst (tstAccess_names u x f (u.elemName f th, p))
    rw [State.loadAhead, List.any_eq_false, htid]
    intro r hr
    by_cases ht : r.tid = th.tid
    · have hreads : r.reads = false := (hall th hth).2.2 r hr ht
      simp [hreads]
    · simp [ht]
  let t := ((u.tstElems x c).map (u.tstAccess x f)).foldl (fun t a => t.issueAccess ig.core a) u
  let t' := t.complete (((u.elemNames x).filter fun p => p.2.1.ghost p.2.2).map (·.1.tid)) x.flag
  have hcores : t'.cores = t.cores := State.complete_cores _ _ _
  have hstill : t'.still = u.still := by
    refine Eq.trans ?_ (foldl_frame State.still (fun t (a : Access) => t.issueAccess ig.core a) (fun _ _ => rfl) ((u.tstElems x c).map (u.tstAccess x f)) u)
    exact t.complete_still _ _
  have hfills : t'.fills = u.fills := by
    refine Eq.trans ?_ (foldl_frame State.fills (fun t (a : Access) => t.issueAccess ig.core a) (fun _ _ => rfl) ((u.tstElems x c).map (u.tstAccess x f)) u)
    exact t.complete_fills _ _
  refine ⟨t'.closed x (.tst f) .later false, (show exec (.tst f) s = execTst f s from rfl).trans (issueWith_still h ?_ hstill),
    State.sameMemory_of_still (by rw [State.closed_still, hstill]; simp [u]), State.sameRegisters_of_still (by rw [State.closed_still, hstill]; simp [u])
      (by rw [State.closed_fills, hfills]; simp [u]), ?_⟩
  · dsimp only
    refine (if_neg (ne_true_of_eq_false hmoved)).trans ((if_neg (ne_true_of_eq_false hbad)).trans ?_)
    rw [show indexTrap _ _ = none from hindex, show State.elemView _ _ _ _ = none from hview, show State.ctx? _ _ = some c from hctx]
    dsimp only
    split
    · next tr htr => exact absurd (htrap.symm.trans htr) (by simp)
    · exact if_neg (ne_true_of_eq_false hidle)
  · obtain ⟨new, haccs, hnew⟩ := ((State.takesUp_foldl (core := ig.core) (step := fun t q => t.issueAccess ig.core (u.tstAccess x f q))
      (Q := fun q a => (u.tstAccess x f q).TakenUp a) (u.tstElems x c)
      (fun t q _ hc => (State.issueAccess_takesUp hc _).lane rfl fun b hb => hb) u (by simpa [u] using hc))).closed x (.tst f) false
    refine ⟨new, ?_, hfound ▸ hnew⟩
    rw [State.closed_later_core Core.accs (fun _ _ _ => rfl)] at haccs ⊢
    rw [State.core_of_cores hcores]
    simp only [t, List.foldl_map]
    rw [haccs]
    simp [u]

end

end Sys2Proof.Machine

namespace Sys2Proof.Proofs

open Machine

/-- Settles O43: each lane's element, past its checks, is one access that is taken up in the order of the lanes. -/
theorem elementAccesses : Obligations.ElementAccesses := by
  refine ⟨?_, ?_⟩
  · intro f s ig act c e h hc hid x u hctx hall
    obtain ⟨t, hnext, hm, hv, hur, htl, hr, hempty, o, new, haccs, hnew⟩ := tld_issues h hc hid hctx hall
    refine ⟨t, hnext, hm, hv, hur, htl, hr, hempty, new, haccs, forall₂_map_eq hnew ?_, fun a ha => ?_⟩
    · rintro th a ⟨id, needs, rfl⟩
      exact tldAccess_names u x f (u.elemName f th, o th, e th)
    · obtain ⟨th, hth, id, needs, rfl⟩ := exists_of_forall₂_mem hnew ha
      have hplace := fun p (hp : e th = some p) => tldAccess_place (u := u) (x := x) (f := f) (q := (u.elemName f th, o th, e th)) hp
      refine ⟨th, hth, congrArg Prod.fst (tldAccess_names u x f (u.elemName f th, o th, e th)), fun hloose => ⟨fun n hn => ?_, fun ob n hd hn => ?_⟩⟩
      · rw [hplace _ hn hloose]
        exact ⟨rfl, rfl⟩
      · rw [hplace _ hn hloose]
        exact ⟨rfl, rfl, rfl⟩
  · intro f s ig act c e h hc x u hctx hall
    obtain ⟨t, hnext, hm, hr, new, haccs, hnew⟩ := tst_issues h hc hctx hall
    refine ⟨t, hnext, hm, hr, new, haccs, ?_⟩
    rw [forall₂_map_eq (f := fun q => (q.1.1.tid, 0xDC#8, q.1.2.1.size, BitVec.ofNat 128 ((u.src32 q.1.1 f.opd).toNat % 2 ^ (8 * q.1.2.1.size)))) hnew
      (by rintro q a ⟨id, needs, rfl⟩; exact tstAccess_names u x f q)]
    rw [List.map_filterMap, ← List.filterMap_eq_map, List.filterMap_filter]
    refine List.filterMap_congr fun th _ => ?_
    cases e th <;> rfl

end Sys2Proof.Proofs
end


section
/-! PROOFS. OPTAW, STATST, STATLD and LSCALE at issue (R234 to R236). -/

namespace Sys2Proof.Machine

/-! ### OPTAW: the checks -/

theorem Admits.act_mem_members {i : Instr} {f : Insn} {s : State} {ig : IssueGroup} {act : List Thread} (h : Admits s i f ig act) {th : Thread}
    (hth : th ∈ act) : th ∈ s.taken.members ig := by
  rw [State.activeOf_of_checks_go h.checked h.active] at hth
  exact List.mem_of_mem_filter hth

/-- The bytes of a g. -/
def optawBytes (f : Insn) : Nat := if f.mod.getLsbD 0 then 2 else 4

/-- The check of a lane's array number `i` of w, m, v and g. -/
def State.optawWant (u : State) (f : Insn) (th : Thread) (i : Nat) : Want :=
  let b := if i = 3 then optawBytes f else 4
  { th, slot := 0, p := u.uniPtr th (uniNo f.opa + 2 * i), d := (b * (u.src32 th f.opb).toNat : Nat), n := b, al := b
    need := if i = 3 then rightR else rightR ||| rightW }

/-- What the checks of a lane's four arrays give. -/
def optawGots (g : Nat → Thread → Got) (th : Thread) : List Got := [0, 1, 2, 3].map fun i => g i th

/-- Of what the checks of all lanes give, a lane's own are its four. -/
theorem filter_gots {act : List Thread} {g : Nat → Thread → Got} (hnd : (act.map (·.tid)).Nodup) (hth : ∀ i < 4, ∀ th ∈ act, (g i th).th = th)
    {th : Thread} (h : th ∈ act) : (act.flatMap (optawGots g)).filter (fun q => decide (q.th.tid = th.tid)) = optawGots g th := by
  have hlane : ∀ q ∈ act, (optawGots g q).filter (fun r => decide (r.th.tid = th.tid)) = if q.tid = th.tid then optawGots g q else [] := by
    intro q hq
    have hown : ∀ r ∈ optawGots g q, r.th = q := by
      intro r hr
      obtain ⟨i, hi, rfl⟩ := List.mem_map.1 hr
      exact hth i (by simp at hi; omega) q hq
    by_cases hqt : q.tid = th.tid
    · rw [if_pos hqt, List.filter_eq_self]
      exact fun r hr => by simp [hown r hr, hqt]
    · rw [if_neg hqt, List.filter_eq_nil_iff]
      exact fun r hr => by simp [hown r hr, hqt]
  rw [List.filter_flatMap]
  clear hth
  induction act with
  | nil => cases h
  | cons q act ih =>
    rw [List.map_cons, List.nodup_cons] at hnd
    rw [List.flatMap_cons, hlane q (by simp)]
    rcases List.mem_cons.1 h with rfl | h
    · rw [if_pos rfl, List.flatMap_eq_nil_iff.2, List.append_nil]
      intro r hr
      rw [hlane r (by simp [hr]), if_neg]
      exact fun hrt => hnd.1 (List.mem_map.2 ⟨r, hr, hrt⟩)
    · rw [if_neg fun hqt => hnd.1 (List.mem_map.2 ⟨th, h, hqt.symm⟩), List.nil_append]
      exact ih hnd.2 h fun r hr => hlane r (by simp [hr])

/-- The access of a lane of OPTAW. -/
def State.optawAccess (u : State) (x : Exec) (f : Insn) (lanes : List (Thread × List Got)) (p : Thread × List Got) : Access :=
  let at_ : List (Nat × Nat) := (p.2.take 3).map fun g => (g.obj, g.off)
  let twin := lanes.any fun q => decide (q.1.tid ≠ p.1.tid) && ((q.2.take 3).map fun g => (g.obj, g.off)) == at_
  let args := (p.2.flatMap fun g => [g.obj, g.off]) ++ [(u.src32 p.1 f.opb).toNat, optawBytes f] ++
    ((List.range 7).map fun i => (u.ureg p.1 (uniNo f.opa + 8 + i)).toNat) ++ [if twin then 1 else 0]
  { id := 0, inst := x.inst, tid := p.1.tid, opc := 0xE0, mod := f.mod, reg := predNo f.opd, handle := ((p.2.head?).map (·.handle)).getD 0
    others := p.2.tail.map (·.handle), obj := args.getD 0 0, off := args.getD 1 0, bytes := 4, flag := x.flag, pc := x.ig.pc, args }

/-- A lane of OPTAW is taken up; the words that it has asked for are its own no more. -/
def State.optawStep (u : State) (x : Exec) (f : Insn) (lanes : List (Thread × List Got)) (t : State) (p : Thread × List Got) : State :=
  State.issueAccess { t with fetched := t.fetched.filter fun y => y.id != optawId } x.ig.core (u.optawAccess x f lanes p)

/-- The lanes whose operands are poisoned. -/
def State.optawBad (u : State) (c : Ctx) (f : Insn) (lanes : List (Thread × List Got)) : List (Thread × List Got) :=
  lanes.filter fun p => (p.2.zip [4, 4, 4, optawBytes f]).any fun q =>
    u.memPoisoned c q.1.obj q.1.off q.2 || u.sentBad optawId q.1.obj q.1.off q.2

/-- OPTAW past the checks of its lanes. -/
def State.optawRun (u : State) (x : Exec) (f : Insn) (c : Ctx) (lanes : List (Thread × List Got)) : Act :=
  let asks := if u.headerFlag x 5 then u.optawAsks x.ig.core c (lanes.flatMap fun p => p.2.zip [4, 4, 4, optawBytes f]) else none
  if asks.isSome then .wait (asks.getD u)
  else if u.headerFlag x 5 && !(u.optawBad c f lanes).isEmpty then
    trapEach x Cause.memue (fun th => if (u.optawBad c f lanes).any fun b => decide (b.1.tid = th.tid) then
      BitVec.ofNat 32 (u.src32 th f.opb).toNat else 0) ((u.optawBad c f lanes).map (·.1.tid.lane))
  else .done (lanes.foldl (u.optawStep x f lanes) u) .later false

/-- The lanes of OPTAW, each with what its checks give. -/
def optawLanes (act : List Thread) (g : Nat → Thread → Got) : List (Thread × List Got) := act.map fun th => (th, optawGots g th)

section
variable {f : Insn} {s : State} {ig : IssueGroup} {act : List Thread} {c : Ctx} {g : Nat → Thread → Got}

/-- Where every lane's four arrays pass, OPTAW goes on with what they give. -/
theorem optaw_exec (h : Admits s (.optaw f) f ig act) :
    let x := s.about (.optaw f) f ig act
    let u := s.acting x
    u.ctx? (u.ctxOfExec x) = some c → (act.map (·.tid)).Nodup →
    (∀ i < 4, ∀ th ∈ act, Rule.passes u x (u.optawWant f th i).p (u.optawWant f th i).d (u.optawWant f th i).n (u.optawWant f th i).al
      (u.optawWant f th i).need th (g i th)) →
    exec (.optaw f) s = issueWith (.optaw f) f (fun u x => u.optawRun x f c (optawLanes act g)) s := by
  intro x u hctx hnd hall
  have hth : ∀ i < 4, ∀ th ∈ act, (g i th).th = th := by
    intro i hi th h
    obtain ⟨-, -, -, -, hth, -⟩ := hall i hi th h
    exact hth
  have hchecks : u.checkAll x (u.ctxOfExec x) (x.act.flatMap fun th => [0, 1, 2, 3].map (u.optawWant f th)) = .ok (act.flatMap (optawGots g)) := by
    have hok := State.checkAll_ok (u := u) (x := x) (ctx := u.ctxOfExec x) (act := act.flatMap fun th => [0, 1, 2, 3].map fun i => (th, i))
      (w := fun p => u.optawWant f p.1 p.2) (g := fun p => g p.2 p.1) (by
        intro p hp
        obtain ⟨th, hth, hp⟩ := List.mem_flatMap.1 hp
        obtain ⟨i, hi, rfl⟩ := List.mem_map.1 hp
        exact Rule.passes.want (w := u.optawWant f th i) (hall i (by simp at hi; omega) th hth))
    simp only [List.map_flatMap, List.map_map] at hok
    exact hok
  have hlanes : (act.map fun th => (th, (act.flatMap (optawGots g)).filter fun q => decide (q.th.tid = th.tid))) = optawLanes act g :=
    List.map_congr_left fun th h => congrArg (th, ·) (filter_gots hnd hth h)
  rw [show exec (.optaw f) s = execOptaw f s from rfl, execOptaw, issueWith_go h, issueWith_go h]
  refine congrArg (fun a => conclude (s.taken.settleAct (s.about (.optaw f) f ig act) (.optaw f) a)) ?_
  dsimp only
  split
  · next ht => exact absurd (hchecks.symm.trans ht) (by simp)
  · next ht => exact absurd (hchecks.symm.trans ht) (by simp)
  · next hn => exact absurd (hctx.symm.trans hn) (by simp)
  · next hgs hc' =>
    obtain rfl := Checked.ok.inj (hchecks.symm.trans hgs)
    obtain rfl := Option.some.inj (hctx.symm.trans hc')
    rw [State.about_act, hlanes]
    rfl

/-- An operand of a lane is poisoned. -/
def State.OptawBad (u : State) (c : Ctx) (f : Insn) (g : Nat → Thread → Got) (th : Thread) : Prop :=
  ∃ i < 4, u.memPoisoned c (g i th).obj (g i th).off (if i = 3 then optawBytes f else 4) = true ∨
    u.sentBad optawId (g i th).obj (g i th).off (if i = 3 then optawBytes f else 4) = true

theorem mem_optawBad {u : State} {p : Thread × List Got} :
    p ∈ u.optawBad c f (optawLanes act g) ↔ ∃ th ∈ act, u.OptawBad c f g th ∧ p = (th, optawGots g th) := by
  have hzip : ∀ th, ((optawGots g th).zip [4, 4, 4, optawBytes f]).any (fun q =>
      u.memPoisoned c q.1.obj q.1.off q.2 || u.sentBad optawId q.1.obj q.1.off q.2) = true ↔ u.OptawBad c f g th := by
    intro th
    simp only [optawGots, State.OptawBad, List.map_cons, List.map_nil, List.zip_cons_cons, List.zip_nil_right, List.any_cons, List.any_nil,
      Bool.or_false, Bool.or_eq_true, Nat.exists_lt_succ_right, Nat.not_lt_zero]
    simp [or_assoc]
  simp only [State.optawBad, optawLanes, List.mem_filter, List.mem_map]
  constructor
  · rintro ⟨⟨th, hth, rfl⟩, hbad⟩
    exact ⟨th, hth, (hzip th).1 hbad, rfl⟩
  · rintro ⟨th, hth, hbad, rfl⟩
    exact ⟨⟨th, hth, rfl⟩, (hzip th).2 hbad⟩

/-- Nothing is asked of peers for operands that lie at home. -/
theorem optawAsks_none {u : State} {core : Nat} {l : List (Got × Nat)} (h : ∀ p ∈ l, ∀ d, u.translate c p.1.obj p.1.off 1 ≠ .peer d) :
    u.optawAsks core c l = none := by
  unfold State.optawAsks
  dsimp only
  rw [if_pos]
  rw [List.isEmpty_iff, List.filterMap_eq_nil_iff]
  intro p hp
  split
  · next d hd => exact absurd hd (h p hp d)
  · rfl

theorem asks_none_of_here {u : State} {core : Nat} (h : ∀ i < 4, ∀ th ∈ act, ∀ d, u.translate c (g i th).obj (g i th).off 1 ≠ .peer d) :
    u.optawAsks core c ((optawLanes act g).flatMap fun p => p.2.zip [4, 4, 4, optawBytes f]) = none := by
  refine optawAsks_none fun p hp d => ?_
  simp only [optawLanes, List.flatMap_map] at hp
  obtain ⟨th, hth, hp⟩ := List.mem_flatMap.1 hp
  obtain ⟨i, hi, heq⟩ := List.mem_map.1 (List.of_mem_zip hp).1
  rw [← heq]
  exact h i (by simp at hi; omega) th hth d

/-- A poisoned operand at home traps under TRAP_UE. -/
theorem optawRun_traps {u : State} {x : Exec} (hue : u.headerFlag x 5 = true)
    (hhere : ∀ i < 4, ∀ th ∈ act, ∀ d, u.translate c (g i th).obj (g i th).off 1 ≠ .peer d) (hbad : ∃ th ∈ act, u.OptawBad c f g th) :
    u.optawRun x f c (optawLanes act g) = trapEach x Cause.memue (fun th => if (u.optawBad c f (optawLanes act g)).any fun b => decide (b.1.tid = th.tid) then
      BitVec.ofNat 32 (u.src32 th f.opb).toNat else 0) ((u.optawBad c f (optawLanes act g)).map (·.1.tid.lane)) := by
  have hne : (u.optawBad c f (optawLanes act g)).isEmpty = false := by
    obtain ⟨th, hth, hb⟩ := hbad
    exact List.isEmpty_eq_false_iff_exists_mem.2 ⟨_, mem_optawBad.2 ⟨th, hth, hb, rfl⟩⟩
  unfold State.optawRun
  rw [hue, asks_none_of_here hhere, hne]
  rfl

/-- With no TRAP_UE, or with sound operands at home, OPTAW goes on. -/
theorem optawRun_done {u : State} {x : Exec} (h : u.headerFlag x 5 = false ∨
    ((∀ i < 4, ∀ th ∈ act, ∀ d, u.translate c (g i th).obj (g i th).off 1 ≠ .peer d) ∧ ∀ th ∈ act, ¬u.OptawBad c f g th)) :
    u.optawRun x f c (optawLanes act g) = .done ((optawLanes act g).foldl (u.optawStep x f (optawLanes act g)) u) .later false := by
  unfold State.optawRun
  rcases h with hue | ⟨hhere, hbad⟩
  · rw [hue]
    rfl
  · have hnil : (u.optawBad c f (optawLanes act g)).isEmpty = true := by
      rw [List.isEmpty_iff, List.eq_nil_iff_forall_not_mem]
      intro p hp
      obtain ⟨th, hth, hb, -⟩ := mem_optawBad.1 hp
      exact hbad th hth hb
    rw [asks_none_of_here hhere, hnil]
    cases u.headerFlag x 5 <;> rfl

theorem optawSteps_still (u : State) (x : Exec) (lanes l : List (Thread × List Got)) : (l.foldl (u.optawStep x f lanes) u).still = u.still :=
  foldl_frame State.still (u.optawStep x f lanes) (fun _ _ => rfl) l u
theorem optawSteps_fills (u : State) (x : Exec) (lanes l : List (Thread × List Got)) : (l.foldl (u.optawStep x f lanes) u).fills = u.fills :=
  foldl_frame State.fills (u.optawStep x f lanes) (fun _ _ => rfl) l u

theorem optaw_issues (h : Admits s (.optaw f) f ig act) (hc : ig.core < s.cores.length) (lanes : List (Thread × List Got)) {body : State → Exec → Act}
    (hexec : exec (.optaw f) s = issueWith (.optaw f) f body s) :
    let x := s.about (.optaw f) f ig act
    let u := s.acting x
    body u x = .done (lanes.foldl (u.optawStep x f lanes) u) .later false →
    ∃ t, exec (.optaw f) s = .next t ∧ Rule.sameMemory s t ∧ Rule.sameRegisters s t ∧ ∃ new : List Access,
      (t.core ig.core).accs = (s.core ig.core).accs ++ new ∧ List.Forall₂ (fun p a => (u.optawAccess x f lanes p).TakenUp a) lanes new := by
  intro x u hbody
  have hstill := optawSteps_still (f := f) u x lanes lanes
  obtain ⟨new, haccs, hnew⟩ := ((State.takesUp_foldl (core := ig.core) (step := u.optawStep x f lanes)
    (Q := fun p a => (u.optawAccess x f lanes p).TakenUp a) lanes
    (fun t p _ hc => ((State.issueAccess_takesUp (s := { t with fetched := t.fetched.filter fun y => y.id != optawId }) hc _).of_cores rfl).lane rfl
      fun b hb => hb) u (by simpa [u] using hc))).closed x (.optaw f) false
  refine ⟨_, hexec.trans (issueWith_still h hbody hstill), State.sameMemory_of_still (by rw [State.closed_still, hstill]; simp [u]),
    State.sameRegisters_of_still (by rw [State.closed_still, hstill]; simp [u]) (by rw [State.closed_fills, optawSteps_fills]; simp [u]),
    new, haccs.trans (by simp [u]), hnew⟩

theorem optawAccess_args (u : State) (x : Exec) (th : Thread) :
    let a := u.optawAccess x f (optawLanes act g) (th, optawGots g th)
    (a.tid, a.opc, a.reg, a.args) = (th.tid, 0xE0#8, predNo f.opd,
      ((List.range 4).flatMap fun i => [(g i th).obj, (g i th).off]) ++ [(u.src32 th f.opb).toNat, optawBytes f] ++
        ((List.range 7).map fun i => (u.ureg th (uniNo f.opa + 8 + i)).toNat) ++
        [if act.any fun q => decide (q.tid ≠ th.tid) && (List.range 3).all fun i => (g i q).obj == (g i th).obj && (g i q).off == (g i th).off then 1 else 0]) := by
  have htwin : ∀ q : Thread, ((((optawGots g q).take 3).map fun r => (r.obj, r.off)) == (((optawGots g th).take 3).map fun r => (r.obj, r.off))) =
      ((List.range 3).all fun i => (g i q).obj == (g i th).obj && (g i q).off == (g i th).off) := by
    intro q
    rw [Bool.eq_iff_iff]
    simp [optawGots, List.range_succ, and_assoc]
  have hany : ((optawLanes act g).any fun q => decide (q.1.tid ≠ th.tid) && ((q.2.take 3).map fun r => (r.obj, r.off)) ==
      (((optawGots g th).take 3).map fun r => (r.obj, r.off))) =
      act.any fun q => decide (q.tid ≠ th.tid) && (List.range 3).all fun i => (g i q).obj == (g i th).obj && (g i q).off == (g i th).off := by
    rw [optawLanes, List.any_map]
    exact congrArg (act.any ·) (funext fun q => congrArg (decide (q.tid ≠ th.tid) && ·) (htwin q))
  simp only [State.optawAccess, hany]
  rfl

/-- TRAPINFO under the trap: the index in a lane with a poisoned operand, 0 in the others. -/
theorem optawTrap_info {m : List Thread} {hit : List Nat} {info : Thread → Word} {th : Thread} (hnd : (m.map (·.tid)).Nodup)
    (hth : th ∈ m) : ({ cause := Cause.memue, infos := m.map fun t => (t.tid, info t), hit } : Trap).info th.tid = info th := by
  unfold Trap.info
  rw [List.find?_map]
  have hfind : m.find? ((fun p : Tid × Word => decide (p.1 = th.tid)) ∘ fun t => (t.tid, info t)) = some th := by
    induction m with
    | nil => cases hth
    | cons q m ih =>
      rw [List.map_cons, List.nodup_cons] at hnd
      rcases List.mem_cons.1 hth with rfl | hth
      · simp
      · rw [List.find?_cons_of_neg, ih hnd.2 hth]
        simpa using fun hq => hnd.1 (List.mem_map.2 ⟨th, hth, hq.symm⟩)
  rw [hfind]
  rfl

/-! ### STATST, STATLD and LSCALE -/

/-- Taken up in the order of the lanes, the accesses are as each lane's own is. -/
theorem takenUp_map_eq {γ : Type} {acc : Thread → Access} {f : Thread → γ} {k : Access → γ} {l : List Thread} {new : List Access}
    (h : List.Forall₂ (fun th a => (acc th).TakenUp a) l new) (hid : ∀ a b : Access, a.TakenUp b → k b = k a) (hk : ∀ th ∈ l, k (acc th) = f th) :
    new.map k = l.map f :=
  (forall₂_map_eq (f := fun th => k (acc th)) h fun _ _ hb => hid _ _ hb).trans (List.map_congr_left hk)

section
variable {i : Instr} {g : Thread → Got} {body : State → Exec → Act}

/-- What the lanes' accesses are, of an instruction each of whose lanes takes one up and leaves the stores. -/
theorem lanes_issue (acc : Thread → Access) {step : State → Thread → State} (h : Admits s i f ig act) (hc : ig.core < s.cores.length)
    (hexec : exec i s = issueWith i f body s)
    (hbody : body (s.acting (s.about i f ig act)) (s.about i f ig act) = .done (act.foldl step (s.acting (s.about i f ig act))) .later false)
    (hlane : ∀ t th, LaneIssues ig.core (acc th) th.home ((s.acting (s.about i f ig act)).regNo th f.opd) th.tid.lane 0 t (step t th)) :
    ∃ t, exec i s = .next t ∧ Rule.sameMemory s t ∧ Rule.sameRegisters s t ∧
      ∃ new : List Access, (t.core ig.core).accs = (s.core ig.core).accs ++ new ∧ List.Forall₂ (fun th a => (acc th).TakenUp a) act new := by
  have hs := foldl_frame State.still step (fun t th => (hlane t th).still) act (s.acting (s.about i f ig act))
  have hf := foldl_frame State.fills step (fun t th => (hlane t th).fills) act (s.acting (s.about i f ig act))
  obtain ⟨new, haccs, hnew⟩ := (State.takesUp_foldl (Q := fun th a => (acc th).TakenUp a) act
    (fun t th _ hc => ((hlane t th).takes hc).lane rfl fun b hb => hb) (s.acting (s.about i f ig act)) (by simpa using hc)).closed
    (s.about i f ig act) i false
  exact ⟨_, hexec.trans (issueWith_still h hbody hs), State.sameMemory_of_still (by simp [hs]), State.sameRegisters_of_still (by simp [hs]) (by simp [hf]),
    new, by rw [haccs, State.acting_core], hnew⟩

theorem wantStat_passes {u : State} {x : Exec} {need : BitVec 4} {th : Thread} {p : Got}
    (h : Rule.passes u x (u.ptr th x.f.opa) (statOffset (u.src32 th x.f.opb) : Nat) 16 16 need th p) :
    (u.wantStat x need th).Passes u x (u.ctxOfExec x) p := Rule.passes.want (w := u.wantStat x need th) h

theorem thread_of_passes {u : State} {x : Exec} {p : BitVec 64} {d : Int} {n al : Nat} {need : BitVec 4} {th : Thread} {q : Got}
    (h : Rule.passes u x p d n al need th q) : q.th = th := by
  obtain ⟨-, -, -, -, hth, -⟩ := h
  exact hth

/-- STATST's access: three registers, and a word that is valid and has the tag. -/
def State.statstAccess (u : State) (x : Exec) (f : Insn) (q : Got) : Access :=
  { x.access 0xE1 0 q 16 with data := BitVec.ofNat 128 (((List.range 3).map fun k => (u.vreg q.th (u.regNo q.th f.opd + k)).toNat * 2 ^ (32 * k)).sum +
      (2 ^ 31 + u.statTag x (u.src32 q.th f.opb)) * 2 ^ 96) }

/-- STATLD's access: the first register and the tag expected. -/
def State.statldAccess (u : State) (x : Exec) (f : Insn) (q : Got) : Access :=
  { x.access 0xE2 0 q 16 with reg := u.regNo q.th f.opd, args := [u.statTag x (u.src32 q.th f.opb)] }

/-- LSCALE's access: the predicate register and the predicate. -/
def State.lscaleAccess (u : State) (x : Exec) (f : Insn) (q : Got) : Access :=
  { x.access 0xE3 0 q 16 with reg := predNo f.opd, data := BitVec.ofNat 128 (u.src q.th f.opb 1) }

theorem statst_issues (h : Admits s (.statst f) f ig act) (hc : ig.core < s.cores.length) :
    let x := s.about (.statst f) f ig act
    let u := s.acting x
    (∀ th ∈ act, Rule.passes u x (u.ptr th f.opa) (statOffset (u.src32 th f.opb) : Nat) 16 16 rightW th (g th)) →
    (∀ th ∈ act, Rule.noLoadAhead u ig.core th.tid false (g th).obj (g th).off 16) →
    ∃ t, exec (.statst f) s = .next t ∧ Rule.sameMemory s t ∧ Rule.sameRegisters s t ∧ ∃ new : List Access,
      (t.core ig.core).accs = (s.core ig.core).accs ++ new ∧ List.Forall₂ (fun th a => (u.statstAccess x f (g th)).TakenUp a) act new := by
  intro x u hpass hload
  have hchecks : u.checkAll x (u.ctxOfExec x) (x.act.map (u.wantStat x rightW)) = .ok (act.map g) :=
    State.checkAll_ok fun th hth => wantStat_passes (hpass th hth)
  refine lanes_issue (fun th => u.statstAccess x f (g th)) h hc (show exec (.statst f) s = execStatst f s from rfl) ?_
    fun t th => laneIssues_store _ _ _ _ _ _
  dsimp only
  rw [show State.checkAll _ _ _ _ = .ok (act.map g) from hchecks]
  refine (if_neg ?_).trans ?_
  · rw [Bool.not_eq_true, List.map_map, List.any_map, List.any_eq_false]
    intro th hth
    refine ne_true_of_eq_false (loadAhead_false (a := u.statstAccess x f (g th)) ?_ rfl)
    show Rule.noLoadAhead u ig.core (g th).th.tid false (g th).obj (g th).off 16
    rw [thread_of_passes (hpass th hth)]
    exact hload th hth
  · rw [List.map_map, List.foldl_map]
    rfl

theorem statld_issues (h : Admits s (.statld f) f ig act) (hc : ig.core < s.cores.length) :
    let x := s.about (.statld f) f ig act
    let u := s.acting x
    (∀ th ∈ act, Rule.passes u x (u.ptr th f.opa) (statOffset (u.src32 th f.opb) : Nat) 16 16 rightR th (g th)) →
    ∃ t, exec (.statld f) s = .next t ∧ Rule.sameMemory s t ∧ Rule.sameRegisters s t ∧ ∃ new : List Access,
      (t.core ig.core).accs = (s.core ig.core).accs ++ new ∧ List.Forall₂ (fun th a => (u.statldAccess x f (g th)).TakenUp a) act new := by
  intro x u hpass
  have hchecks : u.checkAll x (u.ctxOfExec x) (x.act.map (u.wantStat x rightR)) = .ok (act.map g) :=
    State.checkAll_ok fun th hth => wantStat_passes (hpass th hth)
  refine lanes_issue (fun th => u.statldAccess x f (g th)) h hc (show exec (.statld f) s = execStatld f s from rfl)
    (step := fun t th => (t.issueAccess ig.core (u.statldAccess x f (g th))).promote (g th).th.tid (Forms.scope f.mod) (g th).obj (g th).off) ?_
    fun t th => laneIssues_promote _ _ _ _ _ 0 _ _ _ _ _
  dsimp only
  rw [show State.checkAll _ _ _ _ = .ok (act.map g) from hchecks]
  dsimp only
  rw [List.foldl_map]
  rfl

theorem lscale_issues (h : Admits s (.lscale f) f ig act) (hc : ig.core < s.cores.length) :
    let x := s.about (.lscale f) f ig act
    let u := s.acting x
    (∀ th ∈ act, Rule.passes u x (u.ptr th f.opa) 0 16 16 (rightR ||| rightW ||| rightA) th (g th)) →
    ∃ t, exec (.lscale f) s = .next t ∧ Rule.sameMemory s t ∧ Rule.sameRegisters s t ∧ ∃ new : List Access,
      (t.core ig.core).accs = (s.core ig.core).accs ++ new ∧ List.Forall₂ (fun th a => (u.lscaleAccess x f (g th)).TakenUp a) act new := by
  intro x u hpass
  have hchecks : u.checkAll x (u.ctxOfExec x) (x.act.map fun th =>
      ({ th, slot := 0, p := u.ptr th f.opa, n := 16, al := 16, need := rightR ||| rightW ||| rightA } : Want)) = .ok (act.map g) :=
    State.checkAll_ok fun th hth => Rule.passes.want (w := { th, slot := 0, p := u.ptr th f.opa, n := 16, al := 16, need := rightR ||| rightW ||| rightA })
      (hpass th hth)
  refine lanes_issue (fun th => u.lscaleAccess x f (g th)) h hc (show exec (.lscale f) s = execLscale f s from rfl) ?_
    fun t th => laneIssues_store _ _ _ _ _ _
  dsimp only
  rw [show State.checkAll _ _ _ _ = .ok (act.map g) from hchecks]
  dsimp only
  rw [List.foldl_map]
  rfl

end
end

end Sys2Proof.Machine

namespace Sys2Proof.Proofs

open Machine

/-- Settles O45: past its checks each lane's access is taken up in the order of the lanes; OPTAW looks for poison before that. -/
theorem trainingInstructions : Obligations.TrainingInstructions := by
  refine ⟨?_, ?_⟩
  · intro f s ig act c g h hc x u n size idx hctx hnd hpass here bad
    have hexec := optaw_exec h hctx hnd hpass
    refine ⟨fun hue hhere hbad hmem => ?_, fun hgo => ?_⟩
    · have hrun := optawRun_traps (x := x) hue hhere hbad
      refine ⟨_, rfl, hexec.trans (issueWith_takes_trap h hrun (by exact (by decide : Cause.memue ≠ Cause.cancel))), fun th hth => ?_⟩
      have hinfo := optawTrap_info (hit := (u.optawBad c f (optawLanes act g)).map (·.1.tid.lane)) (info := fun th =>
        if (u.optawBad c f (optawLanes act g)).any fun b => decide (b.1.tid = th.tid) then BitVec.ofNat 32 (u.src32 th f.opb).toNat else 0) hmem hth
      have hany : ((u.optawBad c f (optawLanes act g)).any fun b => decide (b.1.tid = th.tid)) = true ↔ th ∈ act ∧ bad th := by
        simp only [List.any_eq_true, mem_optawBad, decide_eq_true_eq]
        constructor
        · rintro ⟨_, ⟨q, hq, hb, rfl⟩, htid⟩
          obtain rfl : q = th := List.inj_on_of_nodup_map hmem (h.act_mem_members hq) hth htid
          exact ⟨hq, hb⟩
        · rintro ⟨ha, hb⟩
          exact ⟨_, ⟨th, ha, hb, rfl⟩, rfl⟩
      refine ⟨fun ha hb => hinfo.trans ?_, fun hno => hinfo.trans ?_⟩
      · rw [if_pos (hany.2 ⟨ha, hb⟩), BitVec.ofNat_toNat, BitVec.setWidth_eq]
      · exact if_neg fun hany' => hno.elim (fun hna => hna (hany.1 hany').1) fun hnb => hnb (hany.1 hany').2
    · obtain ⟨t, hnext, hm, hr, new, haccs, hnew⟩ := optaw_issues h hc (optawLanes act g) hexec (optawRun_done (x := x) hgo)
      refine ⟨t, hnext, hm, hr, new, haccs, ?_⟩
      have hnew' := List.forall₂_map_left_iff.1 hnew
      refine forall₂_map_eq hnew' ?_
      rintro th a ⟨id, needs, rfl⟩
      exact optawAccess_args u x th
  · intro i f s ig act g hi h hc x u need hpass hload
    rcases hi with rfl | rfl | rfl
    · have hth : ∀ th ∈ act, (g th).th = th := fun th hth => thread_of_passes (hpass th hth)
      obtain ⟨t, hnext, hm, hr, new, haccs, hnew⟩ := statst_issues h hc (by simpa [need] using hpass) (hload rfl)
      refine ⟨t, hnext, hm, hr, new, haccs, takenUp_map_eq hnew ?_ fun th h => ?_, fun _ => takenUp_map_eq hnew ?_ fun th h => ?_,
        fun hi => by simp at hi, fun hi => by simp at hi⟩
      · rintro a b ⟨id, needs, rfl⟩
        rfl
      · rw [State.statstAccess, hth th h]
        exact congrArg (fun q : Thread => (q.tid, _)) (hth th h)
      · rintro a b ⟨id, needs, rfl⟩
        rfl
      · rw [State.statstAccess, hth th h]
        rfl
    · have hth : ∀ th ∈ act, (g th).th = th := fun th hth => thread_of_passes (hpass th hth)
      obtain ⟨t, hnext, hm, hr, new, haccs, hnew⟩ := statld_issues h hc (by simpa [need] using hpass)
      refine ⟨t, hnext, hm, hr, new, haccs, takenUp_map_eq hnew ?_ fun th h => ?_, fun hi => by simp at hi, fun _ => takenUp_map_eq hnew ?_ fun th h => ?_,
        fun hi => by simp at hi⟩
      · rintro a b ⟨id, needs, rfl⟩
        rfl
      · rw [State.statldAccess, hth th h]
        exact congrArg (fun q : Thread => (q.tid, _)) (hth th h)
      · rintro a b ⟨id, needs, rfl⟩
        rfl
      · rw [State.statldAccess, hth th h]
        rfl
    · have hth : ∀ th ∈ act, (g th).th = th := fun th hth => thread_of_passes (hpass th hth)
      obtain ⟨t, hnext, hm, hr, new, haccs, hnew⟩ := lscale_issues h hc (by simpa [need] using hpass)
      refine ⟨t, hnext, hm, hr, new, haccs, takenUp_map_eq hnew ?_ fun th h => ?_, fun hi => by simp at hi, fun hi => by simp at hi,
        fun _ => takenUp_map_eq hnew ?_ fun th h => ?_⟩
      · rintro a b ⟨id, needs, rfl⟩
        rfl
      · exact congrArg (fun q : Thread => (q.tid, _)) (hth th h)
      · rintro a b ⟨id, needs, rfl⟩
        rfl
      · have hbit : (BitVec.ofNat 128 (u.src th f.opb 1)).getLsbD 0 = decide (u.src th f.opb 1 % 2 = 1) := by
          rw [BitVec.getLsbD_ofNat, Nat.testBit_zero, Bool.and_eq_right_iff_imp.2 (fun _ => by decide)]
        rw [State.lscaleAccess, hth th h]
        exact congrArg (fun v : Bool => (0xE3#8, predNo f.opd, v)) hbit

end Sys2Proof.Proofs
end


section
/-! PROOFS. O44: a PLACE of a core that no device has writes no matrix, since no such cluster has local memory. -/

namespace Sys2Proof.Machine

/-- The tensor in tile 0 with its matrices, in the local memory of a cluster past the last, and a home group issuing on a core there. -/
def placePastLast : State :=
  let t := Tests.withUni Tests.tensors 4 0x600
  { t with issue := some { Tests.ig0 with core := 192 }, locals := t.locals.map fun c => (c.1 + 48 * clusterBytes, c.2) }

/-- PLACE of tile 0's tensor into tile 1. -/
def placeTwoTiles : Insn := Tests.f 0 (.tile 1) (.tile 0) (.uni 4 0)

theorem placePastLast_admitted : Admits placePastLast (.place placeTwoTiles) placeTwoTiles { Tests.ig0 with core := 192 } [Tests.thr 0, Tests.thr 1] :=
  ⟨rfl, by decide +kernel, by decide, by decide +kernel, by decide +kernel⟩

/-- What the instruction works on. -/
def placeFrom : State := placePastLast.acting (placePastLast.about (.place placeTwoTiles) placeTwoTiles { Tests.ig0 with core := 192 } [Tests.thr 0, Tests.thr 1])

/-- The first row of the new matrix where the destination's descriptor has it, after an answer that goes on. -/
def firstRowAfter : Host.Outcome State Fault Refusal → Option Nat
  | .next s => some (field (s.bytes (localAt 192 ((descOf (placeFrom.tile 0 1)).mat + 8 * 0)) 8) 0 8)
  | _ => none

theorem placePastLast_row : firstRowAfter (exec (.place placeTwoTiles) placePastLast) = some 0 := by decide +kernel

theorem placePastLast_block : placeFrom.block? (Tests.thr 0).tid.block = some { programBlock with threads := 2, regions := 2, tiles := 4 } := by decide +kernel

theorem placePastLast_area : Rule.area placeFrom (Tests.thr 0) (.uni 4 0) 384 8 :=
  ⟨by decide +kernel, by decide +kernel, _, placePastLast_block, by decide +kernel⟩

theorem placePastLast_free : Rule.tileFree placeFrom (Tests.thr 0) 1 ∧ Rule.tileFree placeFrom (Tests.thr 0) 0 :=
  ⟨⟨by decide +kernel, by decide +kernel⟩, by decide +kernel, by decide +kernel⟩

theorem placePastLast_group : placeFrom.group? programKey 0 = some { programGroup with alloc := 128 } := by decide +kernel

/-- The plan that R327 gives for the two matrices. -/
def planFrom : Except (BitVec 6) (List Nat × List Nat × List Nat × List Nat) :=
  let dS := descOf (placeFrom.tile 0 0)
  let dD := descOf (placeFrom.tile 0 1)
  let copy := copyPlace (tileNo placeTwoTiles.opd == tileNo placeTwoTiles.opa) dS dD
  placeFrom.placePlan 192 (placeFrom.localAddr (Tests.thr 0) placeTwoTiles.opb) (placeTwoTiles.mod.getLsbD 0) dS.n
    (placeFrom.matrix 192 dS.mat dS.n) (if copy = some true then dS else dD) copy

theorem placePastLast_plan : ∃ v src w, planFrom = .ok ([2, 1, 4], v, src, w) := by
  have h : planFrom.toOption.map (·.1) = some [2, 1, 4] := by decide +kernel
  cases hplan : planFrom with
  | error c =>
    rw [hplan] at h
    cases h
  | ok p =>
    rw [hplan] at h
    exact ⟨_, _, _, congrArg (fun new => Except.ok (new, p.2)) (Option.some.inj h)⟩

end Sys2Proof.Machine

namespace Sys2Proof.Proofs

open Machine

/-- Refutes O44: PLACE is stated for every core that an issue group names. On core 192, which no device has, the matrix area that the
statement has written does not exist (R54), so the new matrix's first row, 2, does not stand there. -/
theorem not_placeIssues : ¬ Obligations.PlaceIssues := by
  unfold Obligations.PlaceIssues
  rintro ⟨hplace, -⟩
  obtain ⟨v, src, w, hplan⟩ := placePastLast_plan
  obtain ⟨t, ht, -, -, -, -, -, -, hrows, -⟩ := hplace placeTwoTiles placePastLast { Tests.ig0 with core := 192 }
    [Tests.thr 0, Tests.thr 1] (Tests.thr 0) { programBlock with threads := 2, regions := 2, tiles := 4 } [2, 1, 4] v src w placePastLast_admitted rfl
    placePastLast_block placePastLast_area placePastLast_free.1 placePastLast_free.2 (by decide +kernel) (by decide +kernel) (by decide +kernel) (by decide +kernel)
    (by decide +kernel) (by decide +kernel) (by decide +kernel) (by decide +kernel) (by decide +kernel) (fun _ => by decide +kernel) hplan
    (fun h => absurd h (by decide +kernel)) (by decide +kernel) (by decide +kernel) (by decide +kernel) (by decide +kernel) (by decide +kernel)
    ⟨_, placePastLast_group, rfl⟩ (by decide) (by decide)
  have hzero := placePastLast_row
  rw [ht] at hzero
  exact absurd ((hrows 0 (by decide)).symm.trans (Option.some.inj hzero)) (by decide +kernel)

end Sys2Proof.Proofs
end


section
/-! PROOFS. Traps at instruction boundaries (R188, R196, R212, R258, R284). -/

namespace Sys2Proof.Machine

/-- A thread alone takes its trap as an issue group of its own. -/
theorem State.trapThreads_single (s : State) (g : Group) (th : Thread) (tr : Thread → Trap) :
    s.trapThreads g [th] tr = s.takeTrap ⟨coreOf g.home, g.sched, g.block.launch, th.pc, [th.tid]⟩ (tr th) := by
  simp [State.trapThreads, uniq, dedup]

theorem sameInfo_info_of_mem {c : BitVec 6} {w : Word} {ths : List Thread} {th : Thread} (h : th ∈ ths) : (sameInfo c w ths).info th.tid = w := by
  induction ths with
  | nil => simp at h
  | cons a l ih =>
    by_cases ha : a.tid = th.tid
    · simp [sameInfo, Trap.info, ha]
    · have hl : th ∈ l := (List.mem_cons.1 h).resolve_left fun he => ha (he ▸ rfl)
      simpa [sameInfo, Trap.info, ha] using ih hl

/-- The smallest of a list whose elements are all the same. -/
theorem minBy_of_forall_eq {α : Type} {key : α → Nat} {a : α} {l : List α} (hne : l ≠ []) (h : ∀ b ∈ l, b = a) : minBy key l = some a := by
  have hmem : ∀ l : List α, (∀ b ∈ l, b = a) → minBy key l = none ∨ minBy key l = some a := by
    intro l
    induction l with
    | nil => exact fun _ => .inl rfl
    | cons b l ih =>
      intro h
      obtain rfl := h b List.mem_cons_self
      rcases ih fun c hc => h c (List.mem_cons_of_mem _ hc) with hn | hs
      · exact .inr (by simp [minBy, hn])
      · exact .inr (by simp [minBy, hs])
  refine (hmem l h).resolve_left ?_
  cases l with
  | nil => exact absurd rfl hne
  | cons b l => unfold minBy; split <;> (try split) <;> simp

theorem State.mem_groups_of_group? {s : State} {b : BlockKey} {g : Nat} {x : Group} (h : s.group? b g = some x) :
    x ∈ s.groups ∧ x.block = b ∧ x.index = g := by
  refine ⟨List.mem_of_find?_eq_some h, ?_⟩
  simpa using List.find?_some h

/-- The hang trap leaves the model sound. -/
theorem State.takeHang_broken (s : State) (ig : IssueGroup) : (s.takeHang ig).broken = s.broken :=
  State.takeTrap_broken (show Cause.hang ≠ Cause.cancel by decide)

theorem State.mem_hangingGroups {s : State} {ig : IssueGroup} {q : Group} :
    q ∈ s.hangingGroups ig ↔ q ∈ s.groups ∧ q.hangDue = true ∧ ∃ tid ∈ ig.members, tid.block = q.block ∧ tid.group = q.index := by
  simp [State.hangingGroups]

/-- A selection in which one group alone hangs: its detector starts again, and its PCs are counted in TRAPINFO. -/
theorem State.takeHang_of_one {s : State} {ig : IssueGroup} {x : Group} (hx : x ∈ s.hangingGroups ig) (hone : ∀ q ∈ s.hangingGroups ig, q = x) :
    s.takeHang ig = ({ s with groups := s.groups.map fun q => if q = x then { q with hangDue := false, hang := 0 } else q } : State).takeTrap ig
      (sameInfo Cause.hang (BitVec.ofNat 32 x.hangPcs.length) (s.members ig)) := by
  have hmin : minBy (·.home) (s.hangingGroups ig) = some x := minBy_of_forall_eq (List.ne_nil_of_mem hx) hone
  have hmark : (s.groups.map fun q => if (s.hangingGroups ig).contains q then { q with hangDue := false, hang := 0 } else q) =
      s.groups.map fun q => if q = x then { q with hangDue := false, hang := 0 } else q := by
    refine List.map_congr_left fun q _ => ?_
    by_cases hq : q = x
    · subst hq
      rw [if_pos (List.contains_iff_mem.2 hx), if_pos rfl]
    · rw [if_neg fun hc => hq (hone q (List.contains_iff_mem.1 hc)), if_neg hq]
  unfold State.takeHang
  dsimp only
  rw [hmin, hmark]
  rfl

end Sys2Proof.Machine

namespace Sys2Proof.Proofs

open Machine

/-- R212: the oldest deferred trap of a home group. -/
theorem deferredTraps (s : State) (b : BlockKey) (g : Nat) (x : Group) (c : BitVec 6) (w : Word) (th : Thread) (rest : List Thread)
    (hx : s.group? b g = some x) (hdue : ((s.groupThreads b g).filter fun t => decide (t.life = .live) && !t.deferred.isEmpty) = th :: rest)
    (hd : th.deferred.head? = some (c, w)) :
    let now := (th :: rest).filter fun t => decide (t.deferred.head? = some (c, w))
    let t := (s.modThreads (now.map (·.tid)) fun t => { t with deferred := t.deferred.drop 1 }).trapThreads x now fun _ => sameInfo c w now
    t.broken = none → exec (.deferredTrap b g) s = .next t := by
  intro now t ht
  rw [show exec (.deferredTrap b g) s = execDeferredTrap b g s from rfl]
  unfold execDeferredTrap
  rw [hx]
  dsimp only
  rw [hdue, List.head?_cons, Option.bind_some, hd]
  exact conclude_next ht

/-- R188: an uncorrectable error of a load traps its thread alone. -/
theorem memueTraps (s : State) (tid : Tid) (th : Thread) (g : Group) (w : Word) (hb : s.broken = none) (hth : s.thread? tid = some th)
    (hg : s.group? tid.block tid.group = some g) (hl : th.life = .live) (hw : th.memue = some w) :
    ∃ tr : Trap, tr.cause = Cause.memue ∧ tr.info th.tid = w ∧ exec (.memueTrap tid) s = .next
      ((s.modThread tid fun th => { th with memue := none }).takeTrap ⟨coreOf g.home, g.sched, g.block.launch, th.pc, [th.tid]⟩ tr) := by
  refine ⟨sameInfo Cause.memue w [th], rfl, sameInfo_info_of_mem List.mem_cons_self, ?_⟩
  rw [show exec (.memueTrap tid) s = execMemueTrap tid s from rfl]
  unfold execMemueTrap
  rw [hth, hg]
  dsimp only
  rw [hw]
  dsimp only
  rw [if_neg (by simp [hl]), State.trapThreads_single]
  exact conclude_next ((State.takeTrap_broken (show Cause.memue ≠ Cause.cancel by decide)).trans hb)

/-- R196: so does a refused multicast store. -/
theorem mcnackTraps (s : State) (tid : Tid) (th : Thread) (g : Group) (w : Word) (hb : s.broken = none) (hth : s.thread? tid = some th)
    (hg : s.group? tid.block tid.group = some g) (hl : th.life = .live) (hw : th.mcnack = some w) :
    ∃ tr : Trap, tr.cause = Cause.mcnack ∧ tr.info th.tid = w ∧ exec (.mcnackTrap tid) s = .next
      ((s.modThread tid fun th => { th with mcnack := none }).takeTrap ⟨coreOf g.home, g.sched, g.block.launch, th.pc, [th.tid]⟩ tr) := by
  refine ⟨sameInfo Cause.mcnack w [th], rfl, sameInfo_info_of_mem List.mem_cons_self, ?_⟩
  rw [show exec (.mcnackTrap tid) s = execMcnackTrap tid s from rfl]
  unfold execMcnackTrap
  rw [hth, hg]
  dsimp only
  rw [hw]
  dsimp only
  rw [if_neg (by simp [hl]), State.trapThreads_single]
  exact conclude_next ((State.takeTrap_broken (show Cause.mcnack ≠ Cause.cancel by decide)).trans hb)

/-- R258: the threads of a cancelled block that stand at a boundary. -/
theorem cancelTraps (s : State) (b : BlockKey) (k : Block) (hk : s.block? b = some k) (hp : k.phase = .running) :
    let t := (s.groups.filter fun g => g.block == b).foldl (fun s g =>
      s.trapThreads g ((s.groupThreads b g.index).filter s.cancelDue) fun _ => { cause := Cause.cancel }) s
    t.broken = none → exec (.cancelTrap b) s = .next t := by
  intro t ht
  rw [show exec (.cancelTrap b) s = execCancelTrap b s from rfl]
  unfold execCancelTrap
  rw [hk]
  dsimp only
  rw [if_neg (by simp [hp])]
  exact conclude_next ht

/-- R284: the hang detector. -/
theorem hangDetection (s : State) (b : BlockKey) (g : Nat) (x : Group) (hx : s.group? b g = some x) :
    let rec_ := mkRecord 0x20 (coreOf x.home) g 0 0 0 0 b.launch b.index 0xFFFF 0 (BitVec.ofNat 32 ((minBy id (x.hangPcs.map (·.toNat))).getD 0))
    let t := s.errorRecord (s.ctxOf b) rec_
    (2 ^ 24 ≤ x.hang → t.broken = none → exec (.hangDetect b g) s = .next (t.modGroup b g fun x =>
      { x with hang := 0, hangDue := ((t.headerOf b).map (·.flags.getLsbD 6)).getD false })) ∧
    (x.hang < 2 ^ 24 → s.broken = none → exec (.hangDetect b g) s = .next s) := by
  intro rec_ t
  rw [show exec (.hangDetect b g) s = execHangDetect b g s from rfl]
  unfold execHangDetect
  rw [hx]
  dsimp only
  refine ⟨fun hlim ht => ?_, fun hlim hb => ?_⟩
  · rw [if_neg (by unfold hangLimit; omega)]
    exact conclude_next ht
  · rw [if_pos (by unfold hangLimit; omega)]
    exact conclude_next hb

/-- R284: the trap before the group's next selected issue group issues. -/
theorem hangTraps (s : State) (b : BlockKey) (g : Nat) (x : Group) (ig : IssueGroup) (hb : s.broken = none) (hx : s.group? b g = some x)
    (hdue : x.hangDue = true) (hgs : s.gsyncDue x = false) (hsel : s.selected (coreOf x.home) x.sched = some ig)
    (hm : ∃ tid ∈ ig.members, tid.block = b ∧ tid.group = g) :
    exec (.hangTrap b g) s = .next (s.takeHang ig) ∧
    ((∀ q ∈ s.groups, q.hangDue = true → (∃ tid ∈ ig.members, tid.block = q.block ∧ tid.group = q.index) → q = x) →
      ∃ tr : Trap, tr.cause = Cause.hang ∧ (∀ th ∈ s.members ig, tr.info th.tid = BitVec.ofNat 32 x.hangPcs.length) ∧
        s.takeHang ig = ({ s with groups := s.groups.map fun q => if q = x then { q with hangDue := false, hang := 0 } else q } : State).takeTrap ig tr) := by
  have hmem : (ig.members.any fun t => t.block == b && t.group == g) = true := by simpa using hm
  refine ⟨?_, fun hone => ?_⟩
  · rw [show exec (.hangTrap b g) s = execHangTrap b g s from rfl]
    unfold execHangTrap
    rw [hx]
    dsimp only
    rw [hsel]
    dsimp only
    rw [show s.issueGroups x ig = [ig] from by simp [State.issueGroups, hgs], List.find?_cons_of_pos (by exact hmem)]
    dsimp only
    rw [if_pos ⟨hdue, hmem⟩]
    exact conclude_next ((State.takeHang_broken s ig).trans hb)
  · obtain ⟨hin, hblock, hindex⟩ := State.mem_groups_of_group? hx
    refine ⟨_, rfl, fun th hth => sameInfo_info_of_mem hth, State.takeHang_of_one (State.mem_hangingGroups.2 ⟨hin, hdue, ?_⟩) fun q hq => ?_⟩
    · rw [hblock, hindex]; exact hm
    · obtain ⟨hq, hd, ht⟩ := State.mem_hangingGroups.1 hq
      exact hone q hq hd ht

/-- Settles O47: each boundary step takes the trap that waits there. -/
theorem boundaryTraps : Obligations.BoundaryTraps :=
  ⟨deferredTraps, fun s tid th g w hb hth hg hl => ⟨memueTraps s tid th g w hb hth hg hl, mcnackTraps s tid th g w hb hth hg hl⟩,
    cancelTraps, hangDetection, hangTraps⟩

end Sys2Proof.Proofs
end


section
/-! PROOFS. Schedulers: selection, merging, cycles and their time limits (R155, R171, R273 to R277). -/

namespace Sys2Proof.Machine

/-! ### Sorting by a key -/

theorem insertBy_pairwise_lex {α : Type} {key : α → Nat} {R : α → α → Prop} {a : α} {l : List α} (ha : ∀ b ∈ l, R a b)
    (h : l.Pairwise fun x y => key x < key y ∨ key x = key y ∧ R x y) :
    (insertBy key a l).Pairwise fun x y => key x < key y ∨ key x = key y ∧ R x y := by
  induction l with
  | nil => exact List.pairwise_singleton _ _
  | cons b l ih =>
    obtain ⟨hb, hl⟩ := List.pairwise_cons.1 h
    unfold insertBy
    split
    · next hab =>
      refine List.pairwise_cons.2 ⟨fun c hc => ?_, h⟩
      have hbc : key b ≤ key c := by
        rcases List.mem_cons.1 hc with rfl | hc
        · exact le_rfl
        · rcases hb c hc with hlt | ⟨heq, -⟩ <;> omega
      rcases Nat.lt_or_ge (key a) (key c) with hlt | hge
      · exact .inl hlt
      · exact .inr ⟨by omega, ha c hc⟩
    · next hab =>
      refine List.pairwise_cons.2 ⟨fun c hc => ?_, ih (fun c hc => ha c (List.mem_cons_of_mem _ hc)) hl⟩
      rcases mem_insertBy.1 hc with rfl | hc
      · exact .inl (by omega)
      · exact hb c hc

/-- Sorting is stable: elements of the same key keep their order. -/
theorem sortBy_pairwise_lex {α : Type} {key : α → Nat} {R : α → α → Prop} {l : List α} (h : l.Pairwise R) :
    (sortBy key l).Pairwise fun x y => key x < key y ∨ key x = key y ∧ R x y := by
  induction l with
  | nil => exact List.Pairwise.nil
  | cons a l ih =>
    obtain ⟨ha, hl⟩ := List.pairwise_cons.1 h
    exact insertBy_pairwise_lex (fun b hb => ha b (mem_sortBy.1 hb)) (ih hl)

theorem sortBy_pairwise_le {α : Type} {key : α → Nat} {l : List α} : (sortBy key l).Pairwise fun x y => key x ≤ key y :=
  (sortBy_pairwise_lex (R := fun _ _ => True) (List.pairwise_of_forall (l := l) fun _ _ => trivial)).imp fun h => by omega

theorem le_foldl_max {l : List Nat} {m n : Nat} (h : n ≤ m ∨ n ∈ l) : n ≤ l.foldl max m := by
  induction l generalizing m with
  | nil => simpa using h
  | cons a l ih =>
    refine ih ?_
    rcases h with h | h
    · exact .inl (h.trans (le_max_left _ _))
    · rcases List.mem_cons.1 h with rfl | h
      · exact .inl (le_max_right _ _)
      · exact .inr h

/-- The smallest of a list by a key. -/
theorem minBy_some {α : Type} {key : α → Nat} {a : α} {l : List α} (h : minBy key l = some a) : a ∈ l ∧ ∀ b ∈ l, key a ≤ key b := by
  induction l generalizing a with
  | nil => simp [minBy] at h
  | cons c l ih =>
    unfold minBy at h
    split at h
    · next b hb =>
      obtain ⟨hmem, hle⟩ := ih hb
      split at h
      · next hcb =>
        obtain rfl := Option.some.inj h
        refine ⟨List.mem_cons_self, fun d hd => ?_⟩
        rcases List.mem_cons.1 hd with rfl | hd
        · exact le_rfl
        · exact hcb.trans (hle d hd)
      · next hcb =>
        obtain rfl := Option.some.inj h
        refine ⟨List.mem_cons_of_mem _ hmem, fun d hd => ?_⟩
        rcases List.mem_cons.1 hd with rfl | hd
        · omega
        · exact hle d hd
    · next hn =>
      obtain rfl := Option.some.inj h
      have hl : l = [] := by
        cases l with
        | nil => rfl
        | cons d l =>
          unfold minBy at hn
          split at hn
          · split at hn <;> simp at hn
          · simp at hn
      simp [hl]

/-! ### The order of R275 -/

/-- A group with its ready fragment, on a scheduler. -/
def State.Stands (s : State) (core sched : Nat) (p : Group × IssueGroup) : Prop :=
  p.1 ∈ s.groups ∧ coreOf p.1.home = core ∧ p.1.sched = sched ∧ s.readyFragment p.1 = some p.2

/-- A group comes before another by the longest waiting time, then the lowest home group. -/
def Longer (now : Nat) (p q : Group × IssueGroup) : Prop :=
  Rule.waited now q.1 < Rule.waited now p.1 ∨ Rule.waited now p.1 = Rule.waited now q.1 ∧ p.1.home ≤ q.1.home

theorem Group.isForced_iff {g : Group} {now : Nat} : g.isForced now = true ↔ Rule.forced now g := by
  simp [Group.isForced, Rule.forced, Rule.waited]

/-- The list of a scheduler's ready fragments, longest waiting first. -/
def longestFirst (now : Nat) (l : List (Group × IssueGroup)) : List (Group × IssueGroup) :=
  sortBy (fun p => (l.map fun p => Rule.waited now p.1).foldl max 0 - Rule.waited now p.1) l

theorem longestFirst_pairwise {now : Nat} {l : List (Group × IssueGroup)} (h : l.Pairwise fun p q => p.1.home ≤ q.1.home) :
    (longestFirst now l).Pairwise (Longer now) := by
  have htop : ∀ p ∈ longestFirst now l, Rule.waited now p.1 ≤ (l.map fun p => Rule.waited now p.1).foldl max 0 := fun p hp =>
    le_foldl_max (.inr (List.mem_map.2 ⟨p, mem_sortBy.1 hp, rfl⟩))
  refine List.Pairwise.imp_of_mem (fun {p q} hp hq hpq => ?_) (sortBy_pairwise_lex h)
  have h1 := htop p hp
  have h2 := htop q hq
  unfold Longer
  rcases hpq with hlt | ⟨heq, hle⟩
  · exact .inl (by omega)
  · exact .inr ⟨by omega, hle⟩

/-- The ready fragments of a scheduler by home group. -/
def State.readyByHome (s : State) (core sched : Nat) : List (Group × IssueGroup) :=
  sortBy (fun p => p.1.home) ((s.groups.filter fun g => coreOf g.home == core && g.sched == sched).filterMap fun g =>
    (s.readyFragment g).map fun ig => (g, ig))

theorem State.mem_readyByHome {s : State} {core sched : Nat} {p : Group × IssueGroup} : p ∈ s.readyByHome core sched ↔ s.Stands core sched p := by
  obtain ⟨g, ig⟩ := p
  simp only [State.readyByHome, mem_sortBy, List.mem_filterMap, List.mem_filter, Option.map_eq_some_iff, Prod.mk.injEq, State.Stands,
    Bool.and_eq_true, beq_iff_eq]
  constructor
  · rintro ⟨a, ⟨hmem, hc, hs⟩, j, hj, rfl, rfl⟩
    exact ⟨hmem, hc, hs, hj⟩
  · rintro ⟨hmem, hc, hs, hj⟩
    exact ⟨g, ⟨hmem, hc, hs⟩, ig, hj, rfl, rfl⟩

theorem State.ranked_eq (s : State) (core sched : Nat) : s.ranked core sched =
    longestFirst (s.core core).clock ((s.readyByHome core sched).filter fun p => p.1.isForced (s.core core).clock) ++
      longestFirst (s.core core).clock ((s.readyByHome core sched).filter fun p => !p.1.isForced (s.core core).clock) := rfl

theorem State.mem_ranked {s : State} {core sched : Nat} {p : Group × IssueGroup} : p ∈ s.ranked core sched ↔ s.Stands core sched p := by
  rw [State.ranked_eq, List.mem_append, longestFirst, longestFirst, mem_sortBy, mem_sortBy, List.mem_filter, List.mem_filter, State.mem_readyByHome]
  by_cases hf : p.1.isForced (s.core core).clock = true <;> simp [hf]

/-- A forced candidate comes before one that is not, and the longer wait before the shorter among the others. -/
def Before (now : Nat) (p q : Group × IssueGroup) : Prop :=
  (Rule.forced now q.1 → Rule.forced now p.1) ∧ ((Rule.forced now q.1 ↔ Rule.forced now p.1) → Longer now p q)

theorem State.ranked_pairwise (s : State) (core sched : Nat) : (s.ranked core sched).Pairwise (Before (s.core core).clock) := by
  have hhome : (s.readyByHome core sched).Pairwise fun p q => p.1.home ≤ q.1.home := sortBy_pairwise_le
  rw [State.ranked_eq]
  refine List.pairwise_append.2 ⟨?_, ?_, fun p hp q hq => ?_⟩
  · refine List.Pairwise.imp_of_mem (fun {p q} hp _ hpq => ?_) (longestFirst_pairwise (hhome.filter _))
    exact ⟨fun _ => Group.isForced_iff.1 (List.mem_filter.1 (mem_sortBy.1 hp)).2, fun _ => hpq⟩
  · refine List.Pairwise.imp_of_mem (fun {p q} _ hq hpq => ?_) (longestFirst_pairwise (hhome.filter _))
    have hnot := (List.mem_filter.1 (mem_sortBy.1 hq)).2
    exact ⟨fun hf => absurd (Group.isForced_iff.2 hf) (by simpa using hnot), fun _ => hpq⟩
  · have hp := Group.isForced_iff.1 (List.mem_filter.1 (mem_sortBy.1 hp)).2
    have hq := (List.mem_filter.1 (mem_sortBy.1 hq)).2
    exact ⟨fun _ => hp, fun hi => absurd (Group.isForced_iff.2 (hi.2 hp)) (by simpa using hq)⟩

/-! ### Merging (R276) -/

theorem mem_addFragment_left {ig other : IssueGroup} {t : Tid} (h : t ∈ ig.members) : t ∈ (addFragment ig other).members := by
  unfold addFragment
  split
  · exact h
  · exact List.mem_append_left _ h

theorem mem_addFragment {ig other : IssueGroup} {t : Tid} (h : t ∈ (addFragment ig other).members) : t ∈ ig.members ∨ t ∈ other.members := by
  unfold addFragment at h
  split at h
  · exact .inl h
  · exact List.mem_append.1 h

/-- A fragment is taken in, or one of its lane slots was taken. -/
theorem addFragment_takes (ig other : IssueGroup) :
    (∀ t ∈ other.members, t ∈ (addFragment ig other).members) ∨ ∃ t ∈ other.members, ∃ v ∈ ig.members, v.lane = t.lane := by
  unfold addFragment
  split
  · next h => exact .inr (by simpa using h)
  · exact .inl fun t ht => List.mem_append_right _ ht

theorem addFragment_nodup {ig other : IssueGroup} (h : (ig.members.map (·.lane)).Nodup) (ho : (other.members.map (·.lane)).Nodup) :
    ((addFragment ig other).members.map (·.lane)).Nodup := by
  unfold addFragment
  split
  · exact h
  · next hn =>
    rw [List.map_append, List.nodup_append]
    refine ⟨h, ho, ?_⟩
    rintro _ ha _ hb rfl
    obtain ⟨v, hv, hvl⟩ := List.mem_map.1 ha
    obtain ⟨t, ht, htl⟩ := List.mem_map.1 hb
    exact hn (List.any_eq_true.2 ⟨t, ht, List.any_eq_true.2 ⟨v, hv, by simp [hvl, htl]⟩⟩)

/-- Fragments taken in one after another. -/
def takeIn (l : List (Group × IssueGroup)) (ig : IssueGroup) : IssueGroup := l.foldl (fun a p => addFragment a p.2) ig

theorem takeIn_cons (p : Group × IssueGroup) (l : List (Group × IssueGroup)) (ig : IssueGroup) :
    takeIn (p :: l) ig = takeIn l (addFragment ig p.2) := rfl

theorem takeIn_append (l r : List (Group × IssueGroup)) (ig : IssueGroup) : takeIn (l ++ r) ig = takeIn r (takeIn l ig) := List.foldl_append

theorem takeIn_eq (l : List (Group × IssueGroup)) (ig : IssueGroup) : takeIn l ig = { ig with members := (takeIn l ig).members } := by
  induction l generalizing ig with
  | nil => rfl
  | cons p l ih =>
    refine (ih (addFragment ig p.2)).trans ?_
    rw [takeIn_cons]
    generalize (takeIn l (addFragment ig p.2)).members = m
    unfold addFragment
    split <;> rfl

theorem mem_takeIn_left {l : List (Group × IssueGroup)} {ig : IssueGroup} {t : Tid} (h : t ∈ ig.members) : t ∈ (takeIn l ig).members := by
  induction l generalizing ig with
  | nil => exact h
  | cons p l ih => exact ih (mem_addFragment_left h)

theorem mem_takeIn {l : List (Group × IssueGroup)} {ig : IssueGroup} {t : Tid} (h : t ∈ (takeIn l ig).members) :
    t ∈ ig.members ∨ ∃ p ∈ l, t ∈ p.2.members := by
  induction l generalizing ig with
  | nil => exact .inl h
  | cons p l ih =>
    rcases ih h with ht | ⟨q, hq, ht⟩
    · rcases mem_addFragment ht with ht | ht
      · exact .inl ht
      · exact .inr ⟨p, List.mem_cons_self, ht⟩
    · exact .inr ⟨q, List.mem_cons_of_mem _ hq, ht⟩

theorem takeIn_nodup {l : List (Group × IssueGroup)} {ig : IssueGroup} (h : (ig.members.map (·.lane)).Nodup)
    (hl : ∀ p ∈ l, (p.2.members.map (·.lane)).Nodup) : ((takeIn l ig).members.map (·.lane)).Nodup := by
  induction l generalizing ig with
  | nil => exact h
  | cons p l ih => exact ih (addFragment_nodup h (hl p List.mem_cons_self)) fun q hq => hl q (List.mem_cons_of_mem _ hq)

/-- What may be taken into a fragment: another of the same launch and PC that does not hold its group whole. -/
def State.fitsIn (s : State) (ig : IssueGroup) (p : Group × IssueGroup) : Bool :=
  !s.whole p.1 p.2 && p.2.pc == ig.pc && p.2.launch == ig.launch

theorem State.fitsIn_iff {s : State} {ig : IssueGroup} {p : Group × IssueGroup} :
    s.fitsIn ig p = true ↔ s.whole p.1 p.2 = false ∧ p.2.pc = ig.pc ∧ p.2.launch = ig.launch := by
  simp [State.fitsIn, and_assoc]

theorem State.selected_cons {s : State} {core sched : Nat} {g : Group} {ig sel : IssueGroup} {rest : List (Group × IssueGroup)}
    (hr : s.ranked core sched = (g, ig) :: rest) (hs : s.selected core sched = some sel) :
    sel = if (s.whole g ig || !s.mergeable ig) = true then ig else takeIn (rest.filter (s.fitsIn ig)) ig := by
  unfold State.selected at hs
  rw [hr] at hs
  dsimp only at hs
  split at hs
  · next h => rw [if_pos h]; exact (Option.some.inj hs).symm
  · next h => rw [if_neg h]; exact (Option.some.inj hs).symm

/-- May a fragment's instruction be merged: it neither needs convergence nor uses a uniform operand. -/
theorem State.mergeable_iff {s : State} {ig : IssueGroup} : s.mergeable ig = true ↔
    ∃ w i k f, s.fetch ig.launch ig.pc = .word w ∧ decode w = .ok i ∧ i.word? = some (k, f) ∧ needsConvergence i f = false := by
  constructor
  · intro h
    unfold State.mergeable at h
    split at h
    · next w hw =>
      split at h
      · next i hi =>
        split at h
        · next k f hf => exact ⟨w, i, k, f, hw, hi, hf, by simpa using h⟩
        · simp at h
      · simp at h
    · simp at h
  · rintro ⟨w, i, k, f, hw, hi, hf, hn⟩
    simp [State.mergeable, hw, hi, hf, hn]

/-! ### Cycles leave the machine sound -/

theorem State.standAt_broken (s : State) (g : Group) (pc : Word) : (s.standAt g pc).broken = s.broken := by
  unfold State.standAt
  dsimp only
  (repeat' split) <;> rfl

theorem State.standAll_broken (s : State) (core : Nat) : (s.standAll core).broken = s.broken := by
  refine foldl_frame State.broken _ (fun u g => ?_) _ s
  split
  · split
    · exact foldl_frame State.broken _ (fun u pc => State.standAt_broken u g pc) _ u
    · rfl
  · rfl

@[simp] theorem State.tickCore_broken (s : State) (core : Nat) : (s.tickCore core).broken = s.broken := State.standAll_broken s core

/-! ### A scheduler's turn -/

theorem State.atTurn_eq (s : State) (core : Nat) : s.atTurn core = if (s.core core).turns = [] then s.tickCore core else s := by
  unfold State.atTurn
  by_cases h : (s.core core).turns = [] <;> simp [h]

theorem State.atTurn_broken (s : State) (core : Nat) : (s.atTurn core).broken = s.broken := by
  unfold State.atTurn
  split
  · exact State.tickCore_broken s core
  · rfl

/-- The state in which a scheduler's turn is taken. -/
def State.withTurn (s : State) (core sched : Nat) : State := s.modCore core fun c => { c with turns := sched :: c.turns }

theorem State.turn_idle {s : State} {core sched : Nat} (hc : (s.core core).turns.contains sched = false)
    (h : ((s.withTurn core sched).core core).clock < ((s.withTurn core sched).core core).freeAt.getD sched 0 ∨ (s.withTurn core sched).selected core sched = none) :
    s.turn_ core sched = s.withTurn core sched := by
  unfold State.turn_
  rw [if_neg (by simpa using hc)]
  dsimp only
  split
  · rfl
  · next hn =>
    split
    · next _ _ _ _ hsel => exact absurd (hsel.symm.trans (h.resolve_left hn)) (by simp)
    · rfl

theorem State.turn_selects {s : State} {core sched : Nat} {g : Group} {ig : IssueGroup} (hc : (s.core core).turns.contains sched = false)
    (hfree : ((s.withTurn core sched).core core).freeAt.getD sched 0 ≤ ((s.withTurn core sched).core core).clock)
    (hg : (((s.withTurn core sched).ranked core sched).head?).map (·.1) = some g) (hsel : (s.withTurn core sched).selected core sched = some ig) :
    s.turn_ core sched = (s.withTurn core sched).select g ig := by
  unfold State.turn_
  rw [if_neg (by simpa using hc)]
  refine (if_neg (by exact Nat.not_lt.2 hfree)).trans ?_
  obtain ⟨⟨x, j⟩, hx, rfl⟩ := Option.map_eq_some_iff.1 hg
  split
  · next a b c ha hb =>
    obtain ⟨rfl, rfl⟩ := Prod.mk.inj (Option.some.inj (hx.symm.trans ha))
    obtain rfl := Option.some.inj (hsel.symm.trans hb)
    rfl
  · next hno => exact (hno x j ig hx hsel).elim

/-- What follows a selection, case by case. -/
theorem State.select_stops {s : State} {g : Group} {ig y : IssueGroup} (h : (s.issueGroups g ig).find? s.breakHit = some y) :
    s.select g ig = s.stopGroup y (s.members y).head? := by
  unfold State.select; rw [h]

theorem State.select_hangs {s : State} {g : Group} {ig y : IssueGroup} (h : (s.issueGroups g ig).find? s.breakHit = none)
    (hh : (s.issueGroups g ig).find? (fun x => !(s.hangingGroups x).isEmpty) = some y) : s.select g ig = s.takeHang y := by
  unfold State.select; rw [h]; dsimp only; rw [hh]

theorem State.select_goes {s : State} {g : Group} {ig : IssueGroup} (h : (s.issueGroups g ig).find? s.breakHit = none)
    (hh : (s.issueGroups g ig).find? (fun x => !(s.hangingGroups x).isEmpty) = none) :
    s.select g ig = if s.gsyncDue g then s.doGsync g.block g else { s with issue := some ig } := by
  unfold State.select; rw [h]; dsimp only; rw [hh]

/-! ### Landings -/

theorem State.complete_sameRegisters (s : State) (ts : List Tid) (f : Option Nat) : Rule.sameRegisters s (s.complete ts f) := by
  cases f <;> exact ⟨rfl, rfl, rfl, rfl, rfl⟩

theorem eraseAt_eq_eraseIdx {α : Type} (l : List α) (n : Nat) : eraseAt l n = l.eraseIdx n := by
  induction l generalizing n with
  | nil => rfl
  | cons a l ih =>
    cases n with
    | zero => rfl
    | succ n => simp [eraseAt, ih]

theorem State.mem_modThreads {s : State} {ts : List Tid} {f : Thread → Thread} {u : Thread} (h : u ∈ (s.modThreads ts f).threads) :
    ∃ w ∈ s.threads, w.tid ∈ ts ∧ u = f w ∨ w.tid ∉ ts ∧ u = w := by
  obtain ⟨w, hw, rfl⟩ := List.mem_map.1 h
  refine ⟨w, hw, ?_⟩
  by_cases hin : w.tid ∈ ts
  · exact .inl ⟨hin, if_pos (List.contains_iff_mem.2 hin)⟩
  · exact .inr ⟨hin, if_neg fun hc => hin (List.contains_iff_mem.1 hc)⟩

theorem State.thread?_modThreads_single {s : State} {tid : Tid} {f : Thread → Thread} {a : Thread} (hf : ∀ x, (f x).tid = x.tid)
    (h : s.thread? tid = some a) : (s.modThreads [tid] f).thread? tid = some (f a) := by
  have ha : a.tid = tid := by simpa using List.find?_some h
  unfold State.thread? State.modThreads
  rw [List.find?_map]
  have hkeep : ((fun x : Thread => decide (x.tid = tid)) ∘ fun x => if [tid].contains x.tid = true then f x else x) = fun x => decide (x.tid = tid) := by
    funext x
    simp only [Function.comp]
    split <;> simp [hf]
  rw [hkeep, show s.threads.find? (fun x => decide (x.tid = tid)) = some a from h, Option.map_some, if_pos (by simp [ha])]

end Sys2Proof.Machine

namespace Sys2Proof.Proofs

open Machine

/-- R275. -/
theorem preference : Rule.preference := by
  intro s core sched now stands
  refine ⟨fun hr g ig hst => ?_, fun g ig hhead => ?_⟩
  · have hmem := State.mem_ranked.2 (show s.Stands core sched (g, ig) from hst)
    rw [hr] at hmem
    simp at hmem
  · obtain ⟨rest, hr⟩ := List.head?_eq_some_iff.1 hhead
    have hfirst : s.Stands core sched (g, ig) := State.mem_ranked.1 (hr ▸ List.mem_cons_self)
    refine ⟨hfirst, fun h j hst => ?_⟩
    have hmem : (h, j) ∈ s.ranked core sched := State.mem_ranked.2 hst
    have hbefore : (h, j) = (g, ig) ∨ Before now (g, ig) (h, j) := by
      rw [hr] at hmem
      refine (List.mem_cons.1 hmem).imp_right fun hin => ?_
      have hp := s.ranked_pairwise core sched
      rw [hr] at hp
      exact (List.pairwise_cons.1 hp).1 _ hin
    rcases hbefore with heq | ⟨hf, hl⟩
    · obtain ⟨rfl, rfl⟩ := Prod.mk.inj heq
      exact ⟨id, fun _ => ⟨le_rfl, fun _ => le_rfl⟩⟩
    · refine ⟨hf, fun hi => ?_⟩
      rcases hl hi with hlt | ⟨heq, hle⟩
      · exact ⟨hlt.le, fun he => absurd he hlt.ne⟩
      · exact ⟨heq.ge, fun _ => hle⟩

/-- R276. -/
theorem merge : Rule.merge := by
  intro s core sched g ig sel rest hr hs alone fits
  have hsel := State.selected_cons hr hs
  have halone : alone ↔ (s.whole g ig || !s.mergeable ig) = true := by
    rw [Bool.or_eq_true, Bool.not_eq_true', ← Bool.not_eq_true, State.mergeable_iff]
  have hfits : ∀ p, fits p ↔ s.fitsIn ig p = true := fun p => State.fitsIn_iff.symm
  by_cases ha : alone
  · rw [if_pos (halone.1 ha)] at hsel
    subst hsel
    exact ⟨fun _ => rfl, rfl, fun t h => h, fun t h => .inl h, fun h => absurd ha h, fun h => h (g, sel) List.mem_cons_self⟩
  · rw [if_neg fun h => ha (halone.2 h)] at hsel
    subst hsel
    refine ⟨fun h => absurd h ha, takeIn_eq _ ig, fun t h => mem_takeIn_left h, fun t h => ?_, fun _ l p r hrest hp => ?_, fun h => ?_⟩
    · refine (mem_takeIn h).imp_right ?_
      rintro ⟨p, hp, ht⟩
      obtain ⟨hin, hf⟩ := List.mem_filter.1 hp
      exact ⟨p, hin, (hfits p).2 hf, ht⟩
    · subst hrest
      rw [List.filter_append, List.filter_cons_of_pos ((hfits p).1 hp), takeIn_append, takeIn_cons]
      rcases addFragment_takes (takeIn (l.filter (s.fitsIn ig)) ig) p.2 with hall | ⟨t, ht, v, hv, hvt⟩
      · exact .inl fun t ht => mem_takeIn_left (hall t ht)
      · refine .inr ⟨t, ht, ?_⟩
        have hin := mem_takeIn_left (l := r.filter (s.fitsIn ig)) (mem_addFragment_left (other := p.2) hv)
        rcases mem_takeIn hv with hv | ⟨q, hq, hv⟩
        · exact ⟨(g, ig), List.mem_cons_self, v, hv, hin, hvt⟩
        · exact ⟨q, List.mem_cons_of_mem _ (List.mem_of_mem_filter hq), v, hv, hin, hvt⟩
    · exact takeIn_nodup (h (g, ig) List.mem_cons_self) fun p hp => h p (List.mem_cons_of_mem _ (List.mem_of_mem_filter hp))

/-- R274. -/
theorem fragments (s : State) (g : Group) (ig : IssueGroup) (h : s.fragment g = some ig) : ig.launch = g.block.launch ∧ ig.sched = g.sched ∧
    (∀ th ∈ s.candidates g, ig.pc.toNat ≤ th.pc.toNat) ∧ ∀ tid, tid ∈ ig.members ↔ ∃ th ∈ s.candidates g, th.tid = tid ∧ th.pc = ig.pc := by
  obtain ⟨t, ht, rfl⟩ := Option.map_eq_some_iff.1 h
  refine ⟨rfl, rfl, (minBy_some ht).2, fun tid => ?_⟩
  simp only [List.mem_map, List.mem_filter, beq_iff_eq]
  constructor
  · rintro ⟨th, ⟨hin, hpc⟩, rfl⟩
    exact ⟨th, hin, rfl, hpc⟩
  · rintro ⟨th, hin, rfl, hpc⟩
    exact ⟨th, ⟨hin, hpc⟩, rfl⟩

/-- R274 to R277: one turn of a scheduler. -/
theorem turns (s : State) (core sched : Nat) (hsched : sched < 4) (hb : s.broken = none) (hoff : s.coreOff core = false) (howe : s.owesLanding core = false)
    (hround : (s.core core).turns.contains sched = true → s.othersDone core sched = true) :
    let b := if (s.core core).turns.contains sched then s.nextCycle core else s
    let v := if (b.core core).turns = [] then b.tickCore core else b
    let u := v.modCore core fun c => { c with turns := sched :: c.turns }
    b.owesLanding core = false → (v.core core).turns.contains sched = false →
    ((u.core core).freeAt.getD sched 0 ≤ (u.core core).clock → ∀ g ig, ((u.ranked core sched).head?).map (·.1) = some g → u.selected core sched = some ig →
      let parts := u.issueGroups g ig
      let hangs : IssueGroup → Bool := fun y => !(u.hangingGroups y).isEmpty
      (∀ y, parts.find? u.breakHit = some y → (u.stopGroup y (u.members y).head?).broken = none →
        exec (.issueGroupSelect core sched) s = .next (u.stopGroup y (u.members y).head?)) ∧
      (∀ y, parts.find? u.breakHit = none → parts.find? hangs = some y → exec (.issueGroupSelect core sched) s = .next (u.takeHang y)) ∧
      (parts.find? u.breakHit = none → parts.find? hangs = none → u.gsyncDue g = true → (u.doGsync g.block g).broken = none →
        exec (.issueGroupSelect core sched) s = .next (u.doGsync g.block g)) ∧
      (parts.find? u.breakHit = none → parts.find? hangs = none → u.gsyncDue g = false → exec (.issueGroupSelect core sched) s = .next { u with issue := some ig })) ∧
    ((u.core core).clock < (u.core core).freeAt.getD sched 0 ∨ u.selected core sched = none → exec (.issueGroupSelect core sched) s = .next u) := by
  intro b v u hbowe hturn
  have hexec : exec (.issueGroupSelect core sched) s = conclude (v.turn_ core sched) := by
    rw [show exec (.issueGroupSelect core sched) s = execIssueGroupSelect core sched s from rfl]
    unfold execIssueGroupSelect
    rw [if_neg (by simp [hoff, howe]; omega)]
    dsimp only
    rw [if_neg (fun h => by simp [hround h.1] at h)]
    refine (if_neg (by exact ne_true_of_eq_false hbowe)).trans ?_
    exact congrArg (fun t : State => conclude (t.turn_ core sched)) (State.atTurn_eq b core)
  have hub : u.broken = none := by
    have hbb : b.broken = s.broken := by unfold b; split <;> rfl
    have hvb : v.broken = b.broken := (congrArg State.broken (State.atTurn_eq b core)).symm.trans (State.atTurn_broken b core)
    exact (hvb.trans hbb).trans hb
  rw [hexec]
  refine ⟨fun hfree g ig hg hsel => ?_, fun hidle => ?_⟩
  · rw [State.turn_selects hturn hfree hg hsel]
    refine ⟨fun y hy ht => ?_, fun y hn hy => ?_, fun hn hh hd ht => ?_, fun hn hh hd => ?_⟩
    · exact (congrArg conclude (State.select_stops hy)).trans (conclude_next ht)
    · exact (congrArg conclude (State.select_hangs hn hy)).trans (conclude_next ((State.takeHang_broken u y).trans hub))
    · exact (congrArg conclude ((State.select_goes hn hh).trans (if_pos hd))).trans (conclude_next ht)
    · exact (congrArg conclude ((State.select_goes hn hh).trans (if_neg (ne_true_of_eq_false hd)))).trans (conclude_next hub)
  · rw [State.turn_idle hturn hidle]
    exact conclude_next hub

/-- The clock of one core alone goes on. -/
theorem cyclesBegin (s : State) (core : Nat) (h : core < s.cores.length) : ((s.nextCycle core).core core).clock = (s.core core).clock + 1 ∧
    ∀ k ≠ core, (s.nextCycle core).core k = s.core k :=
  ⟨congrArg Core.clock (State.modCore_core_self h _), fun _ hk => (State.modCore_core _ _ _ _).trans (if_neg fun h => hk h.1)⟩

/-- R275: no group waits longer than 256 cycles. -/
theorem forcedCandidates (s : State) (b : BlockKey) (g n : Nat) (x : Group) (hb : s.broken = none) (hx : s.group? b g = some x) (hr : x.readySince = some n) :
    (n + 256 ≤ (s.core (coreOf x.home)).clock → exec (.forcedCandidate b g) s = .next (s.modGroup b g fun x => { x with forced := true })) ∧
    ((s.core (coreOf x.home)).clock < n + 256 → exec (.forcedCandidate b g) s = .next s) := by
  rw [show exec (.forcedCandidate b g) s = execForcedCandidate b g s from rfl]
  unfold execForcedCandidate
  rw [hx]
  dsimp only
  rw [hr]
  dsimp only
  refine ⟨fun h => ?_, fun h => ?_⟩
  · rw [if_pos h]
    exact conclude_next hb
  · rw [if_neg (Nat.not_le.2 h)]
    exact conclude_next hb

/-- R155: no yield lasts longer than 64 cycles. -/
theorem yieldTimeouts (s : State) (b : BlockKey) (g : Nat) (hb : s.broken = none) (hdue : ∃ th ∈ s.groupThreads b g, ∃ n, th.yielded = some n ∧ 64 ≤ n) :
    ∃ t, exec (.yieldTimeout b g) s = .next t ∧ Rule.sameRegisters s t ∧ Rule.sameMemory s t ∧
      ∀ th ∈ t.threads, th.tid.block = b → th.tid.group = g → ∀ n, th.yielded = some n → n < 64 := by
  rw [show exec (.yieldTimeout b g) s = execYieldTimeout b g s from rfl]
  unfold execYieldTimeout
  dsimp only
  obtain ⟨th, hth, n, hn, hle⟩ := hdue
  rw [if_neg (by
    rw [List.isEmpty_iff]
    exact List.ne_nil_of_mem (List.mem_filter.2 ⟨hth, by simp [hn, hle]⟩))]
  refine ⟨_, conclude_next hb, ⟨rfl, rfl, rfl, rfl, rfl⟩, ⟨rfl, rfl, rfl⟩, fun u hu hblock hgroup m hm => ?_⟩
  obtain ⟨w, hw, ⟨-, rfl⟩ | ⟨hnot, rfl⟩⟩ := State.mem_modThreads hu
  · exact absurd hm (by simp)
  · by_contra hge
    refine hnot (List.mem_map.2 ⟨_, List.mem_filter.2 ⟨List.mem_filter.2 ⟨hw, by simp [hblock, hgroup]⟩, ?_⟩, rfl⟩)
    simpa [hm] using hge

/-- R171: no WAITF lasts longer than its limit. -/
theorem waitfLimits (s : State) (tid : Tid) (th : Thread) (mask : BitVec 12) (since limit : Nat) (hb : s.broken = none) (hth : s.thread? tid = some th)
    (hw : th.blocked = some (.waitf mask since limit)) (hl : limit ≠ 0) :
    (since + limit ≤ (s.core th.core).clock → (∃ k < 12, mask.getLsbD k = true ∧ th.flag k = true) →
        exec (.waitfLimit tid) s = .next (s.modThread tid fun th => { th with waitOver := true })) ∧
      ((s.core th.core).clock < since + limit → exec (.waitfLimit tid) s = .next s) := by
  rw [show exec (.waitfLimit tid) s = execWaitfLimit tid s from rfl]
  unfold execWaitfLimit
  rw [hth]
  dsimp only
  refine ⟨fun hle hk => ?_, fun hlt => ?_⟩
  · have hclear : th.clear mask = false := by
      obtain ⟨k, hk, hm, hf⟩ := hk
      refine List.all_eq_false.2 ⟨k, List.mem_range.2 hk, ?_⟩
      simp [hm, hf]
    rw [if_pos (by simp [Thread.limitOver, hw, hclear, limitPassed, hl, hle])]
    exact conclude_next hb
  · rw [if_neg (by simp [Thread.limitOver, hw, limitPassed, Nat.not_le.2 hlt])]
    exact conclude_next hb

/-- R72, R90: a result lands when it is due, and not before. -/
theorem landings (s : State) (core i : Nat) (l : Landing) (hb : s.broken = none) (hcore : core < s.cores.length) (hl : (s.core core).landings[i]? = some l) :
    (l.due ≤ (s.core core).clock → ∃ t, exec (.fixedLatencyWrite core i) s = .next t ∧ Rule.sameRegisters s t ∧ Rule.sameMemory s t ∧
      (t.core core).landings = (s.core core).landings.eraseIdx i ∧ ∀ a, s.thread? l.owner = some a → ∀ f, l.flag = some f → f < a.flags.length →
        ∃ b, t.thread? l.owner = some b ∧ b.flags[f]? = (a.flags[f]?).map (· - 1)) ∧
    ((s.core core).clock < l.due → exec (.fixedLatencyWrite core i) s = .next s) := by
  rw [show exec (.fixedLatencyWrite core i) s = conclude (s.landOne core i) from rfl]
  unfold State.landOne
  rw [hl]
  dsimp only
  refine ⟨fun hle => ?_, fun hlt => ?_⟩
  · rw [if_neg (Nat.not_lt.2 hle)]
    refine ⟨_, conclude_next ?_, ?_, ?_, ?_, fun a ha f hf hlen => ?_⟩
    · exact (State.land_broken _ l).trans hb
    · exact (State.complete_sameRegisters _ [l.owner] l.flag)
    · exact ⟨State.land_vault _ l, State.land_pool _ l, State.land_locals _ l⟩
    · refine (congrArg Core.landings ((State.core_of_cores (State.complete_cores _ _ _) core).trans (State.modCore_core_self hcore _))).trans ?_
      exact eraseAt_eq_eraseIdx _ i
    · refine ⟨a.flagDown f, ?_, List.getElem?_modify_eq _ _ _⟩
      have := State.thread?_modThreads_single (s := s.modCore core fun c => { c with landings := eraseAt c.landings i }) (f := (·.flagDown f)) (fun _ => rfl) ha
      unfold State.land
      rw [hf]
      exact this
  · rw [if_pos hlt]
    exact conclude_next hb

/-- R165, R286: what a GSYNC that completes does. -/
theorem gsyncs (s : State) (b : BlockKey) (x : Group) : (x.quotaPending = 0 → s.doGsync b x = s.passGsync b x.index) ∧
    ∀ y, x.quotaPending ≠ 0 → s.group? b x.quotaPartner = some y →
      let taker := if 0 < x.quotaPending then x else y
      (x.sched = y.sched ∨ taker.quotaPending.natAbs ≤ s.freeGranules (coreOf taker.home) taker.sched →
        s.doGsync b x = (((s.moveQuota b x).moveQuota b y).passGsync b x.index).passGsync b y.index) ∧
      (x.sched ≠ y.sched → s.freeGranules (coreOf taker.home) taker.sched < taker.quotaPending.natAbs →
        s.doGsync b x = (((s.endQuota b x.index).endQuota b y.index).quotaTrap b x).quotaTrap b y) := by
  unfold State.doGsync
  refine ⟨fun h => if_pos h, fun y hq hy => ?_⟩
  rw [if_neg hq, hy]
  dsimp only
  refine ⟨fun h => if_pos h, fun hne hlt => if_neg ?_⟩
  rintro (h | h)
  · exact hne h
  · omega

/-- R165: a GSYNC completes in its group's own turn. -/
theorem gsyncTurns (s : State) (b : BlockKey) (g : Nat) (x y : Group) (ig sel : IssueGroup) (hb : s.broken = none) (hx : s.group? b g = some x) (hsched : x.sched < 4) :
    let core := coreOf x.home
    s.coreOff core = false → s.owesLanding core = false → (s.core core).turns.contains x.sched = false →
    let v := if (s.core core).turns = [] then s.tickCore core else s
    let u := v.modCore core fun c => { c with turns := x.sched :: c.turns }
    (v.core core).turns.contains x.sched = false →
    ((v.ranked core x.sched).head? = some (y, ig) → y.block = b → y.index = g → v.gsyncDue y = true → (u.ranked core x.sched).head? = some (y, ig) →
      u.selected core x.sched = some sel → u.gsyncDue y = true → (u.core core).freeAt.getD x.sched 0 ≤ (u.core core).clock →
      (∀ z ∈ u.issueGroups y sel, u.breakHit z = false ∧ u.hangingGroups z = []) → (u.doGsync b y).broken = none →
      exec (.gsyncComplete b g) s = .next (u.doGsync b y)) ∧
    ((v.ranked core x.sched).head? = some (y, ig) → ¬(y.block = b ∧ y.index = g ∧ v.gsyncDue y = true) → exec (.gsyncComplete b g) s = .next s) := by
  intro core hoff howe hturn v u hvturn
  have hv : s.atTurn core = v := State.atTurn_eq s core
  rw [show exec (.gsyncComplete b g) s = execGsyncComplete b g s from rfl]
  unfold execGsyncComplete
  rw [hx]
  dsimp only
  rw [show s.atTurn (coreOf x.home) = v from hv]
  refine ⟨fun hhead hblock hindex hdue huhead husel hudue hfree hparts ht => ?_, fun hhead hno => ?_⟩
  · have hgo : v.gsyncTurn core x.sched b g = true := by simp [State.gsyncTurn, hhead, hblock, hindex, hdue]
    rw [if_neg (by rintro (h | h | h | h) <;> simp_all [core])]
    rw [State.turn_selects hvturn hfree (show ((u.ranked core x.sched).head?).map (·.1) = some y by rw [huhead]; rfl) husel]
    have hbreak : (u.issueGroups y sel).find? u.breakHit = none := List.find?_eq_none.2 fun z hz => by simp [(hparts z hz).1]
    have hhang : (u.issueGroups y sel).find? (fun z => !(u.hangingGroups z).isEmpty) = none := List.find?_eq_none.2 fun z hz => by simp [(hparts z hz).2]
    refine (congrArg conclude ((State.select_goes hbreak hhang).trans (if_pos hudue))).trans ?_
    rw [hblock]
    exact conclude_next ht
  · have hgo : v.gsyncTurn core x.sched b g = false := by
      simpa [State.gsyncTurn, hhead, and_assoc] using hno
    rw [if_pos (.inr (.inr (.inr hgo)))]
    exact conclude_next hb

/-- Settles O46, a theorem for each of its clauses. -/
theorem schedulerSteps : Obligations.SchedulerSteps :=
  ⟨preference, merge, fun s g ig h => by simp [State.issueGroups, h], fragments, turns, cyclesBegin, forcedCandidates, yieldTimeouts, waitfLimits,
    landings, gsyncs, gsyncTurns⟩

end Sys2Proof.Proofs
end


section
/-! PROOFS. What the notes of an access's step leave, the registers that it fills, and the drains that stand over it (R51, R53, R211, R224). -/

namespace Sys2Proof.Machine

/-! ### What stands through the notes of a step -/

/-- The stores but for the vector registers, and what ends a step. -/
def State.ground (s : State) := (s.uregs, s.tiles, s.regions, s.vault, s.pool, s.locals, s.broken)

/-- Of a core, what is outstanding and what will land. -/
def Core.sketch (c : Core) := (c.accs.map (·.id), c.outstanding.map fun a => (a.id, a.opc, a.args), c.landings, c.clock)

/-- A step that notes things: the stores but for the vector registers stand, so does each core's outstanding work, and no drain is new. -/
structure State.Calm (s t : State) : Prop where
  ground : t.ground = s.ground
  sketch : ∀ k, (t.core k).sketch = (s.core k).sketch
  drains : ∀ k, ∀ d ∈ (t.core k).drains, d ∈ (s.core k).drains

theorem State.Calm.refl (s : State) : s.Calm s := ⟨rfl, fun _ => rfl, fun _ _ h => h⟩

theorem State.Calm.trans {s t u : State} (h : s.Calm t) (h' : t.Calm u) : s.Calm u :=
  ⟨h'.ground.trans h.ground, fun k => (h'.sketch k).trans (h.sketch k), fun k d hd => h.drains k d (h'.drains k d hd)⟩

theorem State.calm_of_cores {s t : State} (h : t.ground = s.ground) (hc : t.cores = s.cores) : s.Calm t :=
  ⟨h, fun k => by rw [State.core_of_cores hc], fun k d hd => by rwa [State.core_of_cores hc] at hd⟩

theorem State.calm_modCore (s : State) (c : Nat) {f : Core → Core} (h : ∀ k, (f k).sketch = k.sketch) (hd : ∀ k, ∀ d ∈ (f k).drains, d ∈ k.drains) :
    s.Calm (s.modCore c f) := by
  refine ⟨rfl, State.modCore_frame Core.sketch h s c, fun k d hdk => ?_⟩
  rw [State.modCore_core] at hdk
  split at hdk
  · exact hd _ d hdk
  · exact hdk

theorem State.ground_of_still {s t : State} (h : t.still = s.still) : t.ground = s.ground := by
  obtain ⟨-, hu, ht, hr, ⟨hv, hp, hl⟩, hb, -⟩ := State.still_eq_iff.1 h
  rw [State.ground, State.ground, hu, ht, hr, hv, hp, hl, hb]

theorem State.ground_eq_iff {s t : State} : t.ground = s.ground ↔
    t.uregs = s.uregs ∧ t.tiles = s.tiles ∧ t.regions = s.regions ∧ Rule.sameMemory s t ∧ t.broken = s.broken := by
  simp only [State.ground, Prod.mk.injEq, Rule.sameMemory, and_assoc]

theorem State.Calm.memory {s t : State} (h : s.Calm t) : Rule.sameMemory s t := (State.ground_eq_iff.1 h.ground).2.2.2.1
theorem State.Calm.broken {s t : State} (h : s.Calm t) : t.broken = s.broken := (State.ground_eq_iff.1 h.ground).2.2.2.2

theorem State.Calm.clock {s t : State} (h : s.Calm t) (k : Nat) : (t.core k).clock = (s.core k).clock := (Prod.mk.inj (Prod.mk.inj (Prod.mk.inj (h.sketch k)).2).2).2
theorem State.Calm.landings {s t : State} (h : s.Calm t) (k : Nat) : (t.core k).landings = (s.core k).landings :=
  (Prod.mk.inj (Prod.mk.inj (Prod.mk.inj (h.sketch k)).2).2).1
theorem State.Calm.outstanding {s t : State} (h : s.Calm t) (k : Nat) :
    (t.core k).outstanding.map (fun a => (a.id, a.opc, a.args)) = (s.core k).outstanding.map fun a => (a.id, a.opc, a.args) :=
  (Prod.mk.inj (Prod.mk.inj (h.sketch k)).2).1
theorem State.Calm.accs {s t : State} (h : s.Calm t) (k : Nat) : (t.core k).accs.map (·.id) = (s.core k).accs.map (·.id) := (Prod.mk.inj (h.sketch k)).1

theorem State.Calm.writeInFlight {s t : State} (h : s.Calm t) (k : Nat) (p : RegPlace) : t.writeInFlight k p = s.writeInFlight k p := by
  rw [State.writeInFlight, State.writeInFlight, h.landings, h.clock]

/-! ### The notes -/

theorem State.noteEarly_calm (s : State) (c : Nat) (p : RegPlace) : s.Calm (s.noteEarly c p) := by
  unfold State.noteEarly
  split
  · exact s.calm_modCore c (fun _ => rfl) fun _ _ hd => hd
  · exact .refl s

theorem State.noteRaw_calm (s : State) (p : RegPlace) : s.Calm (s.noteRaw p) := by
  unfold State.noteRaw
  split
  · exact State.calm_of_cores rfl rfl
  · exact .refl s

theorem State.raceOps_calm (s : State) (c : Nat) (p : RegPlace) : s.Calm (s.raceOps c p) := by
  unfold State.raceOps
  split
  · exact s.calm_modCore c (fun _ => rfl) fun _ _ hd => List.mem_of_mem_filter hd
  · exact .refl s

theorem State.complete_calm (s : State) (ts : List Tid) (n : Option Nat) : s.Calm (s.complete ts n) :=
  State.calm_of_cores (State.ground_of_still (s.complete_still ts n)) (s.complete_cores ts n)

theorem State.unrace_calm (t s : State) (c : Nat) (a : Access) : t.Calm (t.unrace s c a) := by
  unfold State.unrace
  split
  · exact .refl t
  · exact State.calm_of_cores rfl rfl

theorem Core.outstanding_key {c : Core} {g : Access → Access} (h : ∀ a, (g a).id = a.id ∧ (g a).opc = a.opc ∧ (g a).args = a.args) :
    ({ c with accs := c.accs.map g } : Core).outstanding.map (fun a => (a.id, a.opc, a.args)) = c.outstanding.map fun a => (a.id, a.opc, a.args) := by
  have hg : (fun a : Access => (a.id, a.opc, a.args)) ∘ g = fun a => (a.id, a.opc, a.args) := by
    funext a
    simp [Function.comp, h a]
  simp [Core.outstanding, hg]

theorem State.staleLines_calm (s : State) (c : Nat) : s.Calm (s.staleLines c) := by
  refine s.calm_modCore c (fun k => ?_) fun _ _ hd => hd
  have hg : ∀ a : Access, ((if a.awaits a.obj a.off then { a with noLine := true } else a : Access).id = a.id ∧
      (if a.awaits a.obj a.off then { a with noLine := true } else a : Access).opc = a.opc ∧
      (if a.awaits a.obj a.off then { a with noLine := true } else a : Access).args = a.args) := by
    intro a
    split <;> exact ⟨rfl, rfl, rfl⟩
  unfold Core.sketch
  refine Prod.ext ?_ (Prod.ext (Core.outstanding_key hg) rfl)
  show List.map (fun a : Access => a.id) (List.map _ k.accs) = _
  rw [List.map_map]
  exact List.map_congr_left fun a _ => (hg a).1

theorem State.rawWrite_calm (s : State) (core ctx : Nat) (loc : Bool) (obj off n : Nat) : s.Calm (s.rawWrite core ctx loc obj off n) := by
  obtain ⟨hr, -⟩ := s.rawWrite_spec core ctx loc obj off n
  exact State.calm_of_cores (by rw [hr]; rfl) (by rw [hr])

/-! ### Drains that stand -/

theorem drainsStand_calm {s t : State} {core : Nat} {a : Access} (h : s.Calm t) (hs : Rule.drainsStand s core a) : Rule.drainsStand t core a := by
  intro d hd
  obtain ⟨b, hb, hid, hopc, hargs⟩ := hs d (h.drains core d hd)
  have hmem : (b.id, b.opc, b.args) ∈ (t.core core).outstanding.map fun a => (a.id, a.opc, a.args) := by
    rw [h.outstanding core]
    exact List.mem_map.2 ⟨b, hb, rfl⟩
  obtain ⟨b', hb', heq⟩ := List.mem_map.1 hmem
  obtain ⟨h1, h2, h3⟩ := Prod.mk.inj (Prod.mk.inj heq).2 |> fun h => And.intro (Prod.mk.inj heq).1 h
  exact ⟨b', hb', by rw [h1]; exact hid, h2.trans hopc, h3.trans hargs⟩

/-- An access that leaves its core takes no other with it. -/
theorem drainsStand_dropAccess {s : State} {core : Nat} {a : Access} (hs : Rule.drainsStand s core a) : Rule.drainsStand (s.dropAccess core a.id) core a := by
  intro d hd
  have hdrains : ((s.dropAccess core a.id).core core).drains = (s.core core).drains := State.modCore_frame Core.drains (by exact fun _ => rfl) s core core
  obtain ⟨b, hb, hid, hrest⟩ := hs d (hdrains ▸ hd)
  refine ⟨b, ?_, hid, hrest⟩
  unfold State.dropAccess
  rw [State.modCore_core]
  split
  · simp only [Core.outstanding, List.mem_append, List.mem_filter] at hb ⊢
    rcases hb with ((hb | hb) | hb) | hb
    · exact .inl (.inl (.inl ⟨hb, by simpa using hid⟩))
    · exact .inl (.inl (.inr hb))
    · exact .inl (.inr hb)
    · exact .inr hb
  · exact hb

/-- Where every drain has a store still to be performed, none completes. -/
theorem settleDrains_stand {s : State} {core : Nat} {a : Access} (hs : Rule.drainsStand s core a) :
    s.settleDrains core = s.modCore core fun c => { c with drains := c.drains.filter fun d => c.drainBusy d.id } := by
  unfold State.settleDrains
  have hnone : ((s.core core).drains.filter fun d => !(s.core core).drainBusy d.id) = [] := by
    rw [List.filter_eq_nil_iff]
    intro d hd
    obtain ⟨b, hb, -, hopc, hargs⟩ := hs d hd
    have hbusy : (s.core core).drainBusy d.id = true := List.any_eq_true.2 ⟨b, hb, by simp [hopc, hargs]⟩
    simp [hbusy]
  simp only [hnone]
  rfl

theorem settleDrains_calm {s : State} {core : Nat} {a : Access} (hs : Rule.drainsStand s core a) : s.Calm (s.settleDrains core) := by
  rw [settleDrains_stand hs]
  exact s.calm_modCore core (fun _ => rfl) fun _ _ hd => List.mem_of_mem_filter hd

theorem settleDrains_registers {s : State} {core : Nat} {a : Access} (hs : Rule.drainsStand s core a) :
    (s.settleDrains core).vregs = s.vregs ∧ (s.settleDrains core).fills = s.fills := by
  rw [settleDrains_stand hs]
  exact ⟨rfl, rfl⟩

/-! ### Registers filled -/

theorem vkey_inj {h r l r' l' : Nat} (hl : l < 128) (hl' : l' < 128) : vkey h r l = vkey h r' l' ↔ r = r' ∧ l = l' := by
  unfold vkey
  omega

theorem State.noteEarly_registers (s : State) (c : Nat) (p : RegPlace) : (s.noteEarly c p).vregs = s.vregs ∧ (s.noteEarly c p).fills = s.fills := by
  unfold State.noteEarly
  split <;> exact ⟨rfl, rfl⟩
theorem State.noteRaw_registers (s : State) (p : RegPlace) : (s.noteRaw p).vregs = s.vregs ∧ (s.noteRaw p).fills = s.fills := by
  unfold State.noteRaw
  split <;> exact ⟨rfl, rfl⟩
theorem State.raceOps_registers (s : State) (c : Nat) (p : RegPlace) : (s.raceOps c p).vregs = s.vregs ∧ (s.raceOps c p).fills = s.fills := by
  unfold State.raceOps
  split <;> exact ⟨rfl, rfl⟩

theorem State.setCell_vec_registers (s : State) (home r lane : Nat) (v : Word) :
    (s.setCell (.vec home r lane) v).vregs = sput s.vregs (vkey home r lane) v ∧ (s.setCell (.vec home r lane) v).fills = s.fills := ⟨rfl, rfl⟩
theorem State.setCell_vec_calm (s : State) (home r lane : Nat) (v : Word) : s.Calm (s.setCell (.vec home r lane) v) := State.calm_of_cores rfl rfl
theorem State.markFull_fills (s : State) (home r lane : Nat) : (s.markFull home r lane).fills = sput s.fills (vkey home r lane) 0 := rfl

/-- A register that awaits an operation takes its word, and is full. -/
theorem fillReg_spec {s : State} {home r lane id : Nat} (v : Word) (hf : sget s.fills (vkey home r lane) = BitVec.ofNat 64 id)
    (hw : s.writeInFlight (coreOf home) (.vec home r lane) = false) :
    s.Calm (s.fillReg home r lane id v) ∧ (s.fillReg home r lane id v).vregs = sput s.vregs (vkey home r lane) v ∧
      (s.fillReg home r lane id v).fills = sput s.fills (vkey home r lane) 0 := by
  let p : RegPlace := .vec home r lane
  let s1 := (s.markFull home r lane).noteEarly (coreOf home) p
  let s2 := s1.noteRaw p
  let s3 := s2.raceOps (coreOf home) p
  obtain ⟨hv1, hf1⟩ := (s.markFull home r lane).noteEarly_registers (coreOf home) p
  obtain ⟨hv2, hf2⟩ := s1.noteRaw_registers p
  obtain ⟨hv3, hf3⟩ := s2.raceOps_registers (coreOf home) p
  have hcalm : s.Calm s3 := (((State.calm_of_cores (s := s) (t := s.markFull home r lane) rfl rfl).trans (State.noteEarly_calm _ _ _)).trans
    (State.noteRaw_calm _ _)).trans (State.raceOps_calm _ _ _)
  have hcome : s.fillReg home r lane id v = s3.setCell p v := by
    unfold State.fillReg
    rw [if_pos hf]
    show s3.comeTo (coreOf home) p v = _
    unfold State.comeTo
    rw [hcalm.writeInFlight, hw]
    rfl
  rw [hcome]
  obtain ⟨hv4, hf4⟩ := s3.setCell_vec_registers home r lane v
  refine ⟨hcalm.trans (s3.setCell_vec_calm home r lane v), ?_, ?_⟩
  · rw [hv4, hv3, hv2, hv1, State.markFull_vregs]
  · rw [hf4, hf3, hf2, hf1, State.markFull_fills]

/-- A run of registers that awaits an operation takes its words, and is full; every other register is as it was. -/
theorem fillRun_spec {ws : List Word} {s : State} {home r lane id : Nat} (hl : lane < 128)
    (h : ∀ j < ws.length, sget s.fills (vkey home (r + j) lane) = BitVec.ofNat 64 id ∧ s.writeInFlight (coreOf home) (.vec home (r + j) lane) = false) :
    s.Calm (s.fillRun home r lane id ws) ∧ Rule.filled s (s.fillRun home r lane id ws) home r lane ws ∧
      ∀ q < r, sget (s.fillRun home r lane id ws).fills (vkey home q lane) = sget s.fills (vkey home q lane) := by
  induction ws generalizing s r with
  | nil => exact ⟨.refl s, fun q _ l _ => ⟨by simp only [List.length_nil]; rw [if_neg (by omega)]; rfl, fun _ h1 h2 => by simp at h2; omega⟩, fun _ _ => rfl⟩
  | cons v ws ih =>
    obtain ⟨hf, hw⟩ := h 0 (by simp)
    rw [Nat.add_zero] at hf hw
    obtain ⟨hcalm, hv, hfl⟩ := fillReg_spec v hf hw
    have hnext : ∀ j < ws.length, sget (s.fillReg home r lane id v).fills (vkey home (r + 1 + j) lane) = BitVec.ofNat 64 id ∧
        (s.fillReg home r lane id v).writeInFlight (coreOf home) (.vec home (r + 1 + j) lane) = false := by
      intro j hj
      obtain ⟨hf', hw'⟩ := h (j + 1) (by simpa using hj)
      rw [hfl, sget_sput_other _ _ (by rw [Ne, vkey_inj hl hl]; omega), hcalm.writeInFlight, show r + 1 + j = r + (j + 1) by omega]
      exact ⟨hf', hw'⟩
    obtain ⟨hcalm', hfilled, hkeep⟩ := ih hnext
    refine ⟨hcalm.trans hcalm', fun q hq l hlt => ?_, fun q hq => ?_⟩
    case refine_2 =>
      refine (hkeep q (by omega)).trans ?_
      rw [hfl, sget_sput_other _ _ (by rw [Ne, vkey_inj hl hl]; omega)]
    obtain ⟨hcell, hempty⟩ := hfilled q hq l hlt
    have hcell' : (s.fillReg home r lane id v).cell (.vec home q l) = if l = lane ∧ q = r then v else s.cell (.vec home q l) := by
      show sget (s.fillReg home r lane id v).vregs _ = _
      rw [hv]
      by_cases hk : l = lane ∧ q = r
      · rw [if_pos hk, hk.1, hk.2]
        exact sget_sput_same _ _ _
      · rw [if_neg hk]
        exact sget_sput_other _ _ (by rw [Ne, vkey_inj hlt hl]; tauto)
    refine ⟨?_, fun hl' h1 h2 => ?_⟩
    · show (State.fillRun _ _ _ _ _ _).cell _ = _
      rw [State.fillRun, hcell, hcell', List.length_cons]
      by_cases hin : l = lane ∧ r + 1 ≤ q ∧ q < r + 1 + ws.length
      · rw [if_pos hin, if_pos ⟨hin.1, by omega, by omega⟩, show q - r = q - (r + 1) + 1 by omega, List.getD_cons_succ]
      · rw [if_neg hin]
        by_cases hk : l = lane ∧ q = r
        · rw [if_pos hk, if_pos ⟨hk.1, by omega, by omega⟩, hk.2, Nat.sub_self, List.getD_cons_zero]
        · rw [if_neg hk, if_neg (by omega)]
    · rw [List.length_cons] at h2
      by_cases hk : q = r
      · subst hl' hk
        have hfull : sget (State.fillRun (s.fillReg home q l id v) home (q + 1) l id ws).fills (vkey home q l) = 0 :=
          (hkeep q (by omega)).trans (by rw [hfl, sget_sput_same])
        show (State.fillRun _ _ _ _ _ _).emptyReg _ _ _ = _
        simp [State.fillRun, State.emptyReg, hfull]
      · exact hempty hl' (by omega) (by omega)

end Sys2Proof.Machine
end


section
/-! PROOFS. Loads, stores and atomics of local memory are performed (R51, R180, R185, R190, R192). -/

namespace Sys2Proof.Machine

/-! ### Bytes of local memory -/

/-- A store of a thread to local memory changes the cluster's bytes, what is noted of blocks and groups, and what notes of old bytes. -/
theorem groupStores_frame (s : State) (core : Nat) (t : Tid) (a : Nat) (bs : List Byte) :
    let u := s.groupStores core t a bs
    u.threads = s.threads ∧ u.cores = s.cores ∧ u.places = s.places ∧ u.ctxs = s.ctxs ∧ u.vregs = s.vregs ∧ u.fills = s.fills ∧
      u.uregs = s.uregs ∧ u.tiles = s.tiles ∧ u.regions = s.regions ∧ u.vault = s.vault ∧ u.pool = s.pool ∧ u.broken = s.broken := by
  obtain ⟨hn, -⟩ := (s.noteUnready core (some t) a bs.length).noteStray_spec core a bs.length
  unfold State.groupStores State.storeLocal
  dsimp only
  rw [hn]
  unfold State.write
  split <;> exact ⟨rfl, rfl, rfl, rfl, rfl, rfl, rfl, rfl, rfl, rfl, rfl, rfl⟩

/-- The blocks keep their cores and contexts through a note of stray writes. -/
theorem noteStray_block (s : State) (core a n : Nat) (b : BlockKey) :
    ((s.noteStray core a n).block? b).map (fun k => (k.core, k.ctx)) = (s.block? b).map fun k => (k.core, k.ctx) := by
  unfold State.noteStray
  split
  · rfl
  · simp only [State.block?, List.find?_map, Option.map_map, Function.comp_def]

theorem groupStores_block (s : State) (core : Nat) (t : Tid) (a : Nat) (bs : List Byte) (b : BlockKey) :
    ((s.groupStores core t a bs).block? b).map (fun k => (k.core, k.ctx)) = (s.block? b).map fun k => (k.core, k.ctx) := by
  have hw : (s.groupStores core t a bs).blocks = ((s.noteUnready core (some t) a bs.length).noteStray core a bs.length).blocks := State.write_cluster_blocks _ _ _ _
  rw [State.block?, hw]
  exact noteStray_block (s.noteUnready core (some t) a bs.length) core a bs.length b

/-- Local bytes of two cores are the same bytes where the cores share their cluster. -/
theorem localAt_same {k core m a : Nat} : (localAt core a).same (localAt k m) = true := rfl

theorem localAt_key (core a : Nat) : (localAt core a).key = clusterOf core * clusterBytes + a := rfl

/-- A store of a thread to local bytes that exist writes them and no others. -/
theorem groupStores_localStored {s : State} {core a : Nat} {bs : List Byte} (t : Tid) (hcore : core < 192) (ha : a + bs.length ≤ clusterBytes) :
    Rule.localStored s (s.groupStores core t a bs) core a bs := by
  obtain ⟨-, -, -, -, -, -, -, -, -, hv, hp, -⟩ := groupStores_frame s core t a bs
  obtain ⟨hn, -⟩ := (s.noteUnready core (some t) a bs.length).noteStray_spec core a bs.length
  refine ⟨hv, hp, fun k m hk hm => ?_⟩
  have hold : ((s.noteUnready core (some t) a bs.length).noteStray core a bs.length).byte (localAt k m) = s.byte (localAt k m) := by rw [hn]; rfl
  have hc : clusterBytes = 8388608 := rfl
  by_cases hin : clusterOf k = clusterOf core ∧ a ≤ m ∧ m < a + bs.length
  · obtain ⟨hkc, hle, hlt⟩ := hin
    rw [if_pos ⟨hkc, hle, hlt⟩, List.getD_eq_getElem _ _ (by omega)]
    refine State.write_byte_same _ _ _ _ (m - a) (localAt_exists hcore ha) localAt_same ?_ (by omega)
    rw [localAt_key, localAt_key, hkc]
    omega
  · rw [if_neg hin, ← hold]
    refine State.write_byte_other _ _ _ _ fun _ => ?_
    rw [localAt_key, localAt_key]
    by_cases hkc : clusterOf k = clusterOf core
    · rw [hkc]
      rcases Nat.lt_or_ge m a with h | h
      · exact .inl (by omega)
      · exact .inr (by have : ¬ m < a + bs.length := fun hlt => hin ⟨hkc, h, hlt⟩
                       omega)
    · rcases Nat.lt_or_gt_of_ne hkc with h | h
      · exact .inl (by rw [hc] at hm ⊢; omega)
      · exact .inr (by rw [hc] at ha ⊢; omega)

/-- What has been stored stands through what leaves the local memory as it is. -/
theorem localStored_of_memory {s t u : State} {core a : Nat} {bs : List Byte} (h : Rule.localStored s t core a bs) (hm : Rule.sameMemory t u) :
    Rule.localStored s u core a bs := by
  obtain ⟨hv, hp, hbytes⟩ := h
  obtain ⟨hv', hp', hl⟩ := hm
  refine ⟨hv'.trans hv, hp'.trans hp, fun k m hk hm => ?_⟩
  rw [← hbytes k m hk hm]
  show sget u.locals _ = sget t.locals _
  rw [hl]

theorem localStored_of_same {s s' t : State} {core a : Nat} {bs : List Byte} (hm : Rule.sameMemory s s') (h : Rule.localStored s' t core a bs) :
    Rule.localStored s t core a bs := by
  obtain ⟨hv, hp, hbytes⟩ := h
  obtain ⟨hv', hp', hl⟩ := hm
  refine ⟨hv.trans hv', hp.trans hp', fun k m hk hm => ?_⟩
  rw [hbytes k m hk hm]
  show (if _ then _ else sget s'.locals _) = if _ then _ else sget s.locals _
  rw [hl]

/-! ### Spans of moving tensors -/

/-- The ranges of a span that lie in cluster space do not depend on the view table. -/
theorem spanRanges_local (s t : State) (c : Ctx) (d : List Byte) (alt : Bool) :
    (s.spanRanges c d alt).filter (·.1) = (t.spanRanges c d alt).filter (·.1) := by
  unfold State.spanRanges
  simp only [List.filter_flatMap]
  refine congrArg (fun f => List.flatMap f _) (funext fun p => ?_)
  (repeat' split) <;> rfl

theorem movesBytes_local_congr {s t : State} (hc : t.ctxs = s.ctxs) {o : PlaceOp}
    (hb : (t.block? o.block).map (fun k => (k.core, k.ctx)) = (s.block? o.block).map fun k => (k.core, k.ctx)) (core ctx ctx' obj off n : Nat) :
    t.movesBytes core ctx true obj off n o = s.movesBytes core ctx' true obj off n o := by
  have hany : ∀ (l : List (Bool × Nat × Nat × Nat)) (k k' : Nat), (l.any fun r => r.1 == true && (if r.1 then clusterOf k == clusterOf core else o.ctx == k' && r.2.1 == obj)
      && decide (r.2.2.1 < off + n) && decide (off < r.2.2.1 + r.2.2.2)) =
      (l.filter (·.1)).any fun r => clusterOf k == clusterOf core && decide (r.2.2.1 < off + n) && decide (off < r.2.2.1 + r.2.2.2) := by
    intro l k k'
    rw [List.any_filter]
    refine congrArg (fun f => List.any l f) (funext fun r => ?_)
    cases r.1 <;> simp
  unfold State.movesBytes
  rw [show t.ctx? o.ctx = s.ctx? o.ctx by rw [State.ctx?, State.ctx?, hc]]
  cases hs : s.ctx? o.ctx with
  | none => rfl
  | some c =>
    cases hsb : s.block? o.block with
    | none =>
      rw [hsb, Option.map_none, Option.map_eq_none_iff] at hb
      rw [hb]
    | some b =>
      rw [hsb, Option.map_some] at hb
      obtain ⟨b', hb', heq⟩ := Option.map_eq_some_iff.1 hb
      obtain ⟨hcore, -⟩ := Prod.mk.inj heq
      rw [hb']
      dsimp only
      rw [hany _ b'.core ctx, hany _ b.core ctx', List.filter_append, List.filter_append, spanRanges_local t s, spanRanges_local t s c o.dD, hcore]

theorem placeTouches_local_congr {s t : State} (hc : t.ctxs = s.ctxs) (hp : t.places = s.places)
    (hb : ∀ b, (t.block? b).map (fun k => (k.core, k.ctx)) = (s.block? b).map fun k => (k.core, k.ctx)) (core : Nat) {a : Access} (ha : a.inLocal = true) :
    t.placeTouches core a = s.placeTouches core a := by
  unfold State.placeTouches
  rw [hp, ha]
  exact congrArg (fun f => List.any s.places f) (funext fun o => movesBytes_local_congr hc (hb o.block) core _ _ a.obj a.off a.bytes)

/-! ### Values delivered -/

theorem dropAccess_not_mem {s : State} {core id : Nat} : ∀ b ∈ ((s.dropAccess core id).core core).accs, b.id ≠ id := by
  unfold State.dropAccess
  rw [State.modCore_core]
  intro b hb
  split at hb
  · simpa using (List.mem_filter.1 hb).2
  · next hno =>
    rw [State.core, List.getD_eq_default _ _ (by simpa using hno)] at hb
    exact absurd hb (by simp)

theorem calm_not_mem {s t : State} {core id : Nat} (h : s.Calm t) (hs : ∀ b ∈ (s.core core).accs, b.id ≠ id) : ∀ b ∈ (t.core core).accs, b.id ≠ id := by
  intro b hb he
  have hmem : b.id ∈ (s.core core).accs.map (·.id) := h.accs core ▸ List.mem_map.2 ⟨b, hb, rfl⟩
  obtain ⟨b', hb', heq⟩ := List.mem_map.1 hmem
  exact hs b' hb' (heq.trans he)

/-- What a run of registers has taken stands through what leaves the registers as they are. -/
theorem filled_congr {s t s' t' : State} {home reg lane : Nat} {ws : List Word} (h : Rule.filled s t home reg lane ws) (hs : s'.vregs = s.vregs)
    (ht : t'.vregs = t.vregs) (hf : t'.fills = t.fills) : Rule.filled s' t' home reg lane ws := by
  intro r hr l hl
  obtain ⟨hcell, hfull⟩ := h r hr l hl
  refine ⟨?_, fun h1 h2 h3 => ?_⟩
  · show sget t'.vregs _ = if _ then _ else sget s'.vregs _
    rw [hs, ht]
    exact hcell
  · rw [State.emptyReg, hf]
    exact hfull h1 h2 h3

theorem complete_registers (s : State) (ts : List Tid) (f : Option Nat) : (s.complete ts f).vregs = s.vregs ∧ (s.complete ts f).fills = s.fills := by
  cases f <;> exact ⟨rfl, rfl⟩

/-- A value delivered fills the registers that await the access, and the access leaves its core. -/
theorem deliver_spec {s : State} {core : Nat} {a : Access} {th : Thread} {ws : List Word} (hth : s.thread? a.tid = some th)
    (hw : Rule.awaited s a th ws.length) :
    (s.dropAccess core a.id).Calm (s.deliver core a ws) ∧ Rule.filled s (s.deliver core a ws) th.home a.reg a.tid.lane ws := by
  obtain ⟨hlane, -, hregs⟩ := hw
  have hflight : ∀ k p, (s.dropAccess core a.id).writeInFlight k p = s.writeInFlight k p := by
    intro k p
    rw [State.writeInFlight, State.writeInFlight, State.dropAccess,
      State.modCore_frame Core.landings (by exact fun _ => rfl), State.modCore_frame Core.clock (by exact fun _ => rfl)]
  obtain ⟨hcalm, hfilled, -⟩ := fillRun_spec (s := s.dropAccess core a.id) (home := th.home) (r := a.reg) (id := a.id) hlane fun j hj =>
    ⟨(hregs j hj).1, (hflight _ _).trans (hregs j hj).2⟩
  have hdeliver : s.deliver core a ws = ((s.dropAccess core a.id).fillRun th.home a.reg a.tid.lane a.id ws).complete [a.tid] a.flag := by
    unfold State.deliver
    dsimp only
    rw [show (s.dropAccess core a.id).thread? a.tid = some th from hth]
  obtain ⟨hv, hf⟩ := complete_registers ((s.dropAccess core a.id).fillRun th.home a.reg a.tid.lane a.id ws) [a.tid] a.flag
  rw [hdeliver]
  exact ⟨hcalm.trans (State.complete_calm _ _ _), filled_congr hfilled rfl hv hf⟩

/-- What follows an access that has been performed where every drain stands: notes alone. -/
theorem settled {s t : State} {core : Nat} {a : Access} (h : Rule.drainsStand t core a) :
    let u := (t.unrace s core a).settleDrains core
    t.Calm u ∧ u.vregs = t.vregs ∧ u.fills = t.fills := by
  have hc := State.unrace_calm t s core a
  have hs := drainsStand_calm hc h
  obtain ⟨hv, hf⟩ := settleDrains_registers hs
  have hreg : (t.unrace s core a).vregs = t.vregs ∧ (t.unrace s core a).fills = t.fills := by
    unfold State.unrace
    split <;> exact ⟨rfl, rfl⟩
  exact ⟨hc.trans (settleDrains_calm hs), hv.trans hreg.1, hf.trans hreg.2⟩

/-! ### The steps of a core's accesses -/

/-- FILL_ARRIVAL performs a load or an atomic operation that is ready. -/
theorem fillArrival_performs {s : State} {core i : Nat} {a : Access} {th : Thread} {c : Ctx} (h : Rule.ready s core i a th c)
    (ho : a.is [0xA0, 0xA2, 0xA5, 0xA6, 0xDB, 0xE2] = true) : exec (.fillArrival core i) s = conclude ((s.performAt core c a).settleDrains core) := by
  obtain ⟨-, -, ha, hready, -, hctx⟩ := h
  have hn : a.is [0x76] = false := by
    simp only [Access.is, List.contains_eq_mem, List.mem_cons, List.not_mem_nil, or_false, decide_eq_true_eq, decide_eq_false_iff_not] at ho ⊢
    omega
  rw [show exec (.fillArrival core i) s = execFillArrival core i s from rfl, execFillArrival, ha]
  dsimp only
  rw [if_neg (by rw [hn]; decide), if_neg (by rw [ho, hready]; decide), hctx]

/-- STORE_PERFORMED performs a store that is ready. -/
theorem storePerformed_performs {s : State} {core i : Nat} {a : Access} {th : Thread} {c : Ctx} (h : Rule.ready s core i a th c) (ho : a.isStore = true) :
    exec (.storePerformed core i) s = conclude ((s.performAt core c a).settleDrains core) := by
  obtain ⟨-, -, ha, hready, -, hctx⟩ := h
  have hn : a.isFence = false ∧ a.is [0x98] = false := by
    simp only [Access.isStore, Access.isFence, Access.is, List.contains_eq_mem, List.mem_cons, List.not_mem_nil, or_false, decide_eq_true_eq,
      decide_eq_false_iff_not] at ho ⊢
    omega
  rw [show exec (.storePerformed core i) s = execStorePerformed core i s from rfl, execStorePerformed, ha]
  dsimp only
  rw [if_neg (by rw [hn.1]; decide), if_neg (by rw [hn.2]; decide), if_neg (by rw [hready]; decide), hctx]
  dsimp only
  rw [if_pos ho]

/-- An access of local memory, of none of the tensor's elements. -/
theorem performAt_local {s : State} {core : Nat} {a : Access} {c : Ctx} (hl : a.inLocal = true) (he : a.is [0xDB, 0xDC] = false) :
    s.performAt core c a = (s.performLocal core a).unrace s core a := by
  rw [State.performAt, hl, if_neg (by simp), State.performKind, hl, if_pos rfl, he, if_neg (by decide)]

/-! ### The values of R180 and R190 -/

theorem sizeWords_values (v : Nat) : sizeWords 0 v = [(BitVec.ofNat 8 v).setWidth 32] ∧ sizeWords 1 v = [(BitVec.ofNat 8 v).signExtend 32] ∧
    sizeWords 2 v = [(BitVec.ofNat 16 v).setWidth 32] ∧ sizeWords 3 v = [(BitVec.ofNat 16 v).signExtend 32] ∧ sizeWords 4 v = [BitVec.ofNat 32 v] ∧
    sizeWords 5 v = (List.range 2).map (fun i => BitVec.ofNat 32 (v / 2 ^ (32 * i))) ∧ sizeWords 6 v = (List.range 4).map fun i => BitVec.ofNat 32 (v / 2 ^ (32 * i)) := by
  have hunsigned : ∀ w, w ≤ 32 → BitVec.ofNat 32 (v % 2 ^ w) = (BitVec.ofNat w v).setWidth 32 := fun w hw => by
    apply BitVec.eq_of_toNat_eq
    rw [BitVec.toNat_setWidth, BitVec.toNat_ofNat, BitVec.toNat_ofNat]
  have hsigned : ∀ w, BitVec.ofInt 32 (sext w v) = (BitVec.ofNat w v).signExtend 32 := fun w => by rw [sext_eq_toInt_ofNat, BitVec.signExtend]
  exact ⟨congrArg (fun x => [x]) (hunsigned 8 (by decide)), congrArg (fun x => [x]) (hsigned 8), congrArg (fun x => [x]) (hunsigned 16 (by decide)),
    congrArg (fun x => [x]) (hsigned 16), rfl, by simp [sizeWords, List.range_succ], by simp [sizeWords, List.range_succ]⟩

/-- A word by its value under a sign. -/
theorem ofNat_wrap_sext (x : BitVec 32) : BitVec.ofNat 32 (wrap 32 (sext 32 x.toNat)) = x := by
  rw [sext_eq_toInt_ofNat, BitVec.ofNat_toNat, wrap_toInt]
  simp

theorem ofNat_wrap_min (x y : BitVec 32) : BitVec.ofNat 32 (wrap 32 (min (sext 32 x.toNat) (sext 32 y.toNat))) = if x.slt y then x else y := by
  have hx : sext 32 x.toNat = x.toInt := by rw [sext_eq_toInt_ofNat]; simp
  have hy : sext 32 y.toNat = y.toInt := by rw [sext_eq_toInt_ofNat]; simp
  rw [min_def, BitVec.slt_eq_decide]
  simp only [decide_eq_true_eq]
  rcases lt_trichotomy x.toInt y.toInt with h | h | h
  · rw [if_pos (by omega), if_pos h, ofNat_wrap_sext]
  · rw [if_pos (by omega), if_neg (by omega), ofNat_wrap_sext]
    exact BitVec.eq_of_toInt_eq h
  · rw [if_neg (by omega), if_neg (by omega), ofNat_wrap_sext]

theorem ofNat_wrap_max (x y : BitVec 32) : BitVec.ofNat 32 (wrap 32 (max (sext 32 x.toNat) (sext 32 y.toNat))) = if x.slt y then y else x := by
  have hx : sext 32 x.toNat = x.toInt := by rw [sext_eq_toInt_ofNat]; simp
  have hy : sext 32 y.toNat = y.toInt := by rw [sext_eq_toInt_ofNat]; simp
  rw [max_def, BitVec.slt_eq_decide]
  simp only [decide_eq_true_eq]
  rcases lt_trichotomy x.toInt y.toInt with h | h | h
  · rw [if_pos (by omega), if_pos h, ofNat_wrap_sext]
  · rw [if_pos (by omega), if_neg (by omega), ofNat_wrap_sext]
    exact (BitVec.eq_of_toInt_eq h).symm
  · rw [if_neg (by omega), if_neg (by omega), ofNat_wrap_sext]

theorem ofNat_min (x y : BitVec 32) : BitVec.ofNat 32 (min x.toNat y.toNat) = if x.ult y then x else y := by
  rw [BitVec.ult_eq_decide]
  simp only [decide_eq_true_eq]
  split
  · next h => rw [min_eq_left h.le, BitVec.ofNat_toNat, BitVec.setWidth_eq]
  · next h => rw [min_eq_right (Nat.not_lt.1 h), BitVec.ofNat_toNat, BitVec.setWidth_eq]

theorem ofNat_max (x y : BitVec 32) : BitVec.ofNat 32 (max x.toNat y.toNat) = if x.ult y then y else x := by
  rw [BitVec.ult_eq_decide]
  simp only [decide_eq_true_eq]
  split
  · next h => rw [max_eq_right h.le, BitVec.ofNat_toNat, BitVec.setWidth_eq]
  · next h => rw [max_eq_left (Nat.not_lt.1 h), BitVec.ofNat_toNat, BitVec.setWidth_eq]

theorem atomNew_values (x y z : BitVec 32) : let f := fun op q => BitVec.ofNat 32 (atomNew op q x.toNat y.toNat z.toNat)
    f 0 0 = x + y ∧ f 1 0 = (if x.ult y then x else y) ∧ f 1 1 = (if x.slt y then x else y) ∧ f 2 0 = (if x.ult y then y else x) ∧ f 2 1 = (if x.slt y then y else x) ∧
    f 3 0 = x &&& y ∧ f 4 0 = x ||| y ∧ f 5 0 = x ^^^ y ∧ f 6 0 = y ∧ f 7 0 = if x = y then z else x := by
  intro f
  have hbits : ∀ v : BitVec 32, BitVec.ofNat 32 v.toNat = v := fun v => by rw [BitVec.ofNat_toNat, BitVec.setWidth_eq]
  refine ⟨BitVec.eq_of_toNat_eq (by simp [f, atomNew]), ofNat_min x y, ofNat_wrap_min x y, ofNat_max x y, ofNat_wrap_max x y, ?_, ?_, ?_, hbits y, ?_⟩
  · exact (congrArg _ (BitVec.toNat_and ..).symm).trans (hbits _)
  · exact (congrArg _ (BitVec.toNat_or ..).symm).trans (hbits _)
  · exact (congrArg _ (BitVec.toNat_xor ..).symm).trans (hbits _)
  · show BitVec.ofNat 32 (if x.toNat = y.toNat then z.toNat else x.toNat) = _
    by_cases h : x = y
    · rw [if_pos (congrArg _ h), if_pos h, hbits]
    · rw [if_neg fun he => h (BitVec.eq_of_toNat_eq he), if_neg h, hbits]

/-! ### LDL, STL and ATOML -/

theorem performLocal_load {s : State} {core : Nat} {a : Access} (ho : a.opc = 0xA2) (hp : s.poisoned (localAt core a.off) a.bytes = false)
    (ht : s.placeTouches core a = false) :
    s.performLocal core a = s.deliver core a (sizeWords (Forms.low3 a.mod) (s.val (localAt core a.off) a.bytes)) := by
  rw [State.performLocal]
  dsimp only
  rw [if_pos (by simp [Access.is, ho]), hp, State.deliverValue]
  rw [if_neg (show ¬(a.opc == 0xDB) = true by simp [ho]), ht, if_neg (by decide), if_neg (by decide), if_neg (by decide)]
  simp [Access.words, Access.is, ho]

theorem performLocal_store {s : State} {core : Nat} {a : Access} (ho : a.opc = 0xA3) :
    s.performLocal core a = ((s.rawWrite core 0 true 0 a.off a.bytes).groupStores core a.tid a.off (toLE a.bytes a.data.toNat)).finishAccess core a := by
  rw [State.performLocal]
  dsimp only
  rw [if_neg (by simp [Access.is, ho]), if_pos (by simp [Access.is, ho])]

/-- What an atomic operation has written, its lines stale where it acquires. -/
def State.atomStored (s : State) (core : Nat) (a : Access) (bs : List Byte) : State :=
  if a.acquires && decide (3 ≤ a.scope) then (s.groupStores core a.tid a.off bs).staleLines core else s.groupStores core a.tid a.off bs

theorem performLocal_atom {s : State} {core : Nat} {a : Access} (ho : a.opc = 0xA6) (hp : s.poisoned (localAt core a.off) a.bytes = false) :
    s.performLocal core a = ((s.atomStored core a (a.atomBytes (s.bytes (localAt core a.off) a.bytes))).deliverValue core a
      (s.val (localAt core a.off) a.bytes) false).rawWrite core 0 true 0 a.off a.bytes := by
  rw [State.performLocal]
  dsimp only
  rw [if_neg (by simp [Access.is, ho]), if_neg (by simp [Access.is, ho]), hp, if_neg (by decide)]
  rfl

theorem deliverValue_atom {s : State} {core : Nat} {a : Access} (v : Nat) (ho : a.opc = 0xA6) (ht : s.placeTouches core a = false) :
    s.deliverValue core a v false = s.deliver core a (sizeWords (if a.qual = 2 then 5 else 4) v) := by
  rw [State.deliverValue]
  rw [if_neg (show ¬(a.opc == 0xDB) = true by simp [ho]), ht, if_neg (by decide), if_neg (by decide), if_neg (by decide)]
  simp [Access.words, Access.is, ho]

end Sys2Proof.Machine

namespace Sys2Proof.Proofs

open Machine

/-- R185: LDL writes the value read. -/
theorem localLoads (s : State) (core i : Nat) (a : Access) (th : Thread) (c : Ctx) (h : Rule.ready s core i a th c) (hl : a.inLocal = true)
    (ho : a.opc = 0xA2) (hd : Rule.drainsStand s core a) (hp : s.poisoned (localAt core a.off) a.bytes = false) (ht : s.placeTouches core a = false) :
    let ws := sizeWords (Forms.low3 a.mod) (s.val (localAt core a.off) a.bytes)
    Rule.awaited s a th ws.length → ∃ t, exec (.fillArrival core i) s = .next t ∧ Rule.sameMemory s t ∧ Rule.filled s t th.home a.reg a.tid.lane ws ∧
      ∀ b ∈ (t.core core).accs, b.id ≠ a.id := by
  intro ws hw
  obtain ⟨hb, -, -, -, hth, -⟩ := id h
  obtain ⟨hcalm, hfilled⟩ := deliver_spec (core := core) hth hw
  obtain ⟨hset, hv, hf⟩ := settled (s := s) (drainsStand_calm hcalm (drainsStand_dropAccess hd))
  have hall := hcalm.trans hset
  refine ⟨_, ?_, hall.memory, filled_congr hfilled rfl hv hf, calm_not_mem hall dropAccess_not_mem⟩
  rw [fillArrival_performs h (by simp [Access.is, ho]), performAt_local hl (by simp [Access.is, ho]), performLocal_load ho hp ht]
  exact conclude_next (hall.broken.trans hb)

/-- R185: STL writes its bytes. -/
theorem localStores (s : State) (core i : Nat) (a : Access) (th : Thread) (c : Ctx) (h : Rule.ready s core i a th c) (hl : a.inLocal = true)
    (ho : a.opc = 0xA3) (hd : Rule.drainsStand s core a) (hcore : core < 192) (ha : a.off + a.bytes ≤ clusterBytes) :
    ∃ t, exec (.storePerformed core i) s = .next t ∧ Rule.localStored s t core a.off (toLE a.bytes a.data.toNat) ∧ Rule.sameRegisters s t ∧
      ∀ b ∈ (t.core core).accs, b.id ≠ a.id := by
  obtain ⟨hb, -⟩ := id h
  let r := s.rawWrite core 0 true 0 a.off a.bytes
  let w := r.groupStores core a.tid a.off (toLE a.bytes a.data.toNat)
  obtain ⟨hr, -⟩ := s.rawWrite_spec core 0 true 0 a.off a.bytes
  obtain ⟨-, hcores, -, -, hv, hf, hu, htiles, hregions, -, -, hbroken⟩ := groupStores_frame r core a.tid a.off (toLE a.bytes a.data.toNat)
  have hrcores : w.cores = s.cores := hcores.trans (by unfold r; rw [hr])
  have hstands : Rule.drainsStand w core a := by
    intro d hdd
    rw [State.core_of_cores hrcores] at hdd ⊢
    exact hd d hdd
  have hdone : (w.dropAccess core a.id).Calm (w.finishAccess core a) := State.complete_calm _ _ _
  obtain ⟨hset, hv', hf'⟩ := settled (s := s) (drainsStand_calm hdone (drainsStand_dropAccess hstands))
  have hall := hdone.trans hset
  obtain ⟨hcv, hcf⟩ := complete_registers (w.dropAccess core a.id) [a.tid] a.flag
  obtain ⟨hu', ht', hreg', hmem, hb'⟩ := State.ground_eq_iff.1 hall.ground
  have hstored : Rule.localStored s w core a.off (toLE a.bytes a.data.toNat) := by
    refine localStored_of_same (s' := r) ?_ (groupStores_localStored a.tid hcore (by rwa [toLE_length]))
    unfold r
    rw [hr]
    exact ⟨rfl, rfl, rfl⟩
  refine ⟨_, ?_, localStored_of_memory hstored hmem, ⟨?_, ?_, ?_, ?_, ?_⟩, calm_not_mem hall dropAccess_not_mem⟩
  · rw [storePerformed_performs h (by simp [Access.isStore, Access.is, ho]), performAt_local hl (by simp [Access.is, ho]), performLocal_store ho]
    refine conclude_next (hb'.trans (hbroken.trans ?_))
    unfold r
    rw [hr]
    exact hb
  · exact hv'.trans (hcv.trans (hv.trans (by unfold r; rw [hr])))
  · exact hf'.trans (hcf.trans (hf.trans (by unfold r; rw [hr])))
  · exact hu'.trans (hu.trans (by unfold r; rw [hr]))
  · exact ht'.trans (htiles.trans (by unfold r; rw [hr]))
  · exact hreg'.trans (hregions.trans (by unfold r; rw [hr]))

/-- R190, R192: ATOML writes the old value, and the new bytes. -/
theorem localAtoms (s : State) (core i : Nat) (a : Access) (th : Thread) (c : Ctx) (h : Rule.ready s core i a th c) (hl : a.inLocal = true)
    (ho : a.opc = 0xA6) (hd : Rule.drainsStand s core a) (hcore : core < 192) (ha : a.off + a.bytes ≤ clusterBytes)
    (hp : s.poisoned (localAt core a.off) a.bytes = false) (ht : s.placeTouches core a = false) :
    let old := s.val (localAt core a.off) a.bytes
    let ws := sizeWords (if a.qual = 2 then 5 else 4) old
    Rule.awaited s a th ws.length → ∃ t, exec (.fillArrival core i) s = .next t ∧
      Rule.localStored s t core a.off (toLE a.bytes (atomNew (Forms.low3 a.mod) a.qual.toNat old (a.data.toNat % 2 ^ (8 * a.bytes)) a.cmp.toNat)) ∧
      Rule.filled s t th.home a.reg a.tid.lane ws := by
  intro old ws hw
  obtain ⟨hb, -, -, -, hth, -⟩ := id h
  let bs := a.atomBytes (s.bytes (localAt core a.off) a.bytes)
  have hlen : bs.length = a.bytes := toLE_length _ _
  let g := s.groupStores core a.tid a.off bs
  let w := s.atomStored core a bs
  obtain ⟨hthreads, hcores, hplaces, hctxs, hv, hf, -, -, -, -, -, hbroken⟩ := groupStores_frame s core a.tid a.off bs
  have hgw : g.Calm w ∧ w.vregs = g.vregs ∧ w.fills = g.fills ∧ w.threads = g.threads ∧ w.places = g.places ∧ w.ctxs = g.ctxs ∧ w.blocks = g.blocks := by
    unfold w State.atomStored
    split
    · exact ⟨State.staleLines_calm _ _, rfl, rfl, rfl, rfl, rfl, rfl⟩
    · exact ⟨.refl _, rfl, rfl, rfl, rfl, rfl, rfl⟩
  obtain ⟨hgcalm, hwv, hwf, hwt, hwp, hwc, hwb⟩ := hgw
  have hflight : ∀ k p, w.writeInFlight k p = s.writeInFlight k p := fun k p => by
    rw [hgcalm.writeInFlight, State.writeInFlight, State.core_of_cores hcores]
    rfl
  have haw : Rule.awaited w a th ws.length := by
    obtain ⟨h1, h2, h3⟩ := hw
    refine ⟨h1, h2, fun j hj => ⟨?_, (hflight _ _).trans (h3 j hj).2⟩⟩
    rw [hwf, hf]
    exact (h3 j hj).1
  have hwth : w.thread? a.tid = some th := by
    rw [State.thread?, hwt, hthreads]
    exact hth
  have hstands : Rule.drainsStand w core a := by
    refine drainsStand_calm hgcalm fun d hdd => ?_
    rw [State.core_of_cores hcores] at hdd ⊢
    exact hd d hdd
  have htouch : w.placeTouches core a = false := by
    refine (placeTouches_local_congr (hwc.trans hctxs) (hwp.trans hplaces) (fun b => ?_) core hl).trans ht
    rw [State.block?, hwb]
    exact groupStores_block s core a.tid a.off bs b
  obtain ⟨hcalm, hfilled⟩ := deliver_spec (core := core) hwth haw
  have hraw := State.rawWrite_calm (w.deliver core a ws) core 0 true 0 a.off a.bytes
  obtain ⟨hr, -⟩ := (w.deliver core a ws).rawWrite_spec core 0 true 0 a.off a.bytes
  have hcalm' := hcalm.trans hraw
  obtain ⟨hset, hv', hf'⟩ := settled (s := s) (drainsStand_calm hcalm' (drainsStand_dropAccess hstands))
  have hall := hcalm'.trans hset
  have hstored : Rule.localStored s g core a.off bs := groupStores_localStored a.tid hcore (by rwa [hlen])
  refine ⟨(((w.deliver core a ws).rawWrite core 0 true 0 a.off a.bytes).unrace s core a).settleDrains core, ?_, localStored_of_memory hstored ?_, ?_⟩
  · rw [fillArrival_performs h (by simp [Access.is, ho]), performAt_local hl (by simp [Access.is, ho]), performLocal_atom ho hp,
      show (s.atomStored core a (a.atomBytes (s.bytes (localAt core a.off) a.bytes))).deliverValue core a (s.val (localAt core a.off) a.bytes) false =
        w.deliver core a ws from deliverValue_atom _ ho htouch]
    exact conclude_next (hall.broken.trans (hgcalm.broken.trans (hbroken.trans hb)))
  · obtain ⟨h1, h2, h3⟩ := hgcalm.memory
    obtain ⟨h1', h2', h3'⟩ := hall.memory
    exact ⟨h1'.trans h1, h2'.trans h2, h3'.trans h3⟩
  · refine filled_congr hfilled ?_ (hv'.trans ?_) (hf'.trans ?_)
    · exact (hwv.trans hv).symm
    · rw [hr]
    · rw [hr]

/-- Settles O48: the three steps, and the values that they write. -/
theorem localAccessesPerformed : Obligations.LocalAccessesPerformed :=
  ⟨localLoads, localStores, localAtoms, sizeWords_values, atomNew_values⟩

end Sys2Proof.Proofs
end


section
/-! PROOFS. Accesses of device memory are performed at their home; fences end; the other accesses of a core go on (R182 to R187, R198 to R200, R298). -/

namespace Sys2Proof.Machine

/-! ### Device memory at home -/

theorem performAt_device {s : State} {core : Nat} {a : Access} {c : Ctx} (hl : a.inLocal = false) (hv : s.vaultOff c a.obj = false)
    (hp : (s.core core).portHolds a = false) (hs : s.sideHit core a = none) :
    s.performAt core c a = (if a.is [0xA0, 0xDB] then s.performLoad core c a
      else if a.is [0xA1, 0xDC, 0xE1] then s.performStore core c a
      else if a.is [0xE0] then s.performOptaw core c a
      else if a.is [0xE2] then s.performStatld core c a
      else if a.is [0xE3] then s.performLscale core c a
      else s.performAtomic core c a).unrace s core a := by
  rw [State.performAt, hv, Bool.and_false, if_neg (by decide), State.performKind, hl, if_neg (by decide), hp, if_neg (by decide), hs]

/-- A read that meets a byte the machine does not have is noted, and nothing else. -/
theorem State.touch_eq (s : State) (p : PAddr) (n : Nat) : ∃ b, s.touch p n = { s with broken := b } := by
  unfold State.touch
  split
  · exact ⟨s.broken, rfl⟩
  · split
    · unfold State.break
      split
      · exact ⟨s.broken, rfl⟩
      · exact ⟨_, rfl⟩
    · exact ⟨s.broken, rfl⟩

theorem homeRead_eq {s t : State} {c : Ctx} {obj off n : Nat} {old : List Byte} {ue : Bool} (h : s.homeRead c obj off n = .ok t old ue) :
    ∃ b, t = { s with broken := b } := by
  obtain ⟨p, l, -, rfl, -⟩ := homeRead_ok h
  exact s.touch_eq p n

/-- A load at .cls or wider that fills no line delivers the bytes at its home. -/
theorem performLoad_wide {s s1 : State} {core : Nat} {c : Ctx} {a : Access} {old : List Byte} (hscope : 3 ≤ a.scope) (hq : a.qual = 1)
    (hb : (s.core core).bufferAhead a = false) (hr : s.homeRead c a.obj a.off a.bytes = .ok s1 old false) :
    ∃ b, s.performLoad core c a = ({ s with broken := b } : State).deliverValue core a (ofLE old) false := by
  have hn : decide (a.scope ≤ 2) = false := decide_eq_false (by omega)
  obtain ⟨b1, rfl⟩ := homeRead_eq hr
  unfold State.performLoad
  dsimp only
  rw [hn, Bool.false_and, if_neg (by decide)]
  dsimp only
  rw [hb, if_neg (by decide), hr]
  dsimp only
  split
  · next s2 line hline =>
    obtain ⟨b2, rfl⟩ := homeRead_eq hline
    rw [if_neg (by simp [hq]), if_neg (by decide)]
    exact ⟨b2, rfl⟩
  · rw [if_pos (by simp [hq])]
    exact ⟨b1, rfl⟩

theorem deliverValue_load {s : State} {core : Nat} {a : Access} (v : Nat) (ho : a.opc = 0xA0) (ht : s.placeTouches core a = false) :
    s.deliverValue core a v false = s.deliver core a (sizeWords (Forms.low3 a.mod) v) := by
  rw [State.deliverValue]
  rw [if_neg (show ¬(a.opc == 0xDB) = true by simp [ho]), ht, if_neg (by decide), if_neg (by decide), if_neg (by decide)]
  simp [Access.words, Access.is, ho]

/-! ### The store buffer -/

/-- An access that its core takes up again behind the others. -/
def State.reenter (s : State) (core : Nat) (a : Access) : State :=
  (s.dropAccess core a.id).modCore core fun k => { k with accs := k.accs ++ [{ a with atBlk := true }] }

theorem reenter_accs {s : State} {core : Nat} {a : Access} : ∀ b ∈ ((s.reenter core a).core core).accs, b.id = a.id → b.atBlk = true := by
  intro b hb hid
  unfold State.reenter at hb
  rw [State.modCore_core] at hb
  split at hb
  · rcases List.mem_append.1 hb with hb | hb
    · exact absurd hid (dropAccess_not_mem b hb)
    · obtain rfl := List.mem_singleton.1 hb
      rfl
  · exact absurd hid (dropAccess_not_mem b hb)

theorem drainsStand_reenter {s : State} {core : Nat} {a : Access} (hs : Rule.drainsStand s core a) : Rule.drainsStand (s.reenter core a) core a := by
  intro d hd
  have hdrains : ((s.reenter core a).core core).drains = ((s.dropAccess core a.id).core core).drains :=
    State.modCore_frame Core.drains (by exact fun _ => rfl) _ core core
  obtain ⟨b, hb, hrest⟩ := drainsStand_dropAccess hs d (hdrains ▸ hd)
  refine ⟨b, ?_, hrest⟩
  unfold State.reenter
  rw [State.modCore_core]
  split
  · simp only [Core.outstanding, List.mem_append] at hb ⊢
    tauto
  · exact hb

theorem Line.notes_calm (s : State) (core : Nat) (g : Access → Access) (l l' : List Line → List Line)
    (hg : ∀ a, (g a).id = a.id ∧ (g a).opc = a.opc ∧ (g a).args = a.args) :
    s.Calm (s.modCore core fun c => { c with lines := l c.lines, stats := l' c.stats, accs := c.accs.map g }) := by
  refine s.calm_modCore core (fun k => ?_) fun _ _ hd => hd
  unfold Core.sketch
  refine Prod.ext ?_ (Prod.ext (Core.outstanding_key hg) rfl)
  show List.map (fun a : Access => a.id) (List.map g k.accs) = _
  rw [List.map_map]
  exact List.map_congr_left fun a _ => (hg a).1

/-- The mark of a line that is not kept. -/
def Access.marked (a : Access) (obj off : Nat) : Access := if a.awaits obj off then { a with noLine := true } else a

theorem Access.marked_key (a : Access) (obj off : Nat) :
    (a.marked obj off).id = a.id ∧ (a.marked obj off).opc = a.opc ∧ (a.marked obj off).args = a.args ∧ (a.marked obj off).atBlk = a.atBlk := by
  unfold Access.marked
  split <;> exact ⟨rfl, rfl, rfl, rfl⟩

theorem updateLines_calm (s : State) (core ctx obj off : Nat) (bs : List Byte) : s.Calm (s.updateLines core ctx obj off bs) :=
  Line.notes_calm s core (fun a => a.marked obj off) _ _ fun a => ⟨(a.marked_key obj off).1, (a.marked_key obj off).2.1, (a.marked_key obj off).2.2.1⟩

/-- The mark of a release changes the core's releases alone. -/
theorem markRelease_eq (s : State) (core : Nat) (a : Access) : s.markRelease core a = s ∨
    ∃ f : List Release → List Release, s.markRelease core a = s.modCore core fun c => { c with releases := f c.releases } := by
  unfold State.markRelease
  dsimp only
  generalize (if a.releases = true then a.id else ((s.thread? a.tid).map (·.lastRelease)).getD 0) = n
  split
  · exact .inl rfl
  · exact .inr ⟨fun l => ⟨s.ctxOf a.tid.block, a.obj, a.off / 256, n, s.tick⟩ ::
      l.filter fun x => !(x.ctx == s.ctxOf a.tid.block && x.obj == a.obj && x.line == a.off / 256), rfl⟩

theorem markRelease_calm (s : State) (core : Nat) (a : Access) : s.Calm (s.markRelease core a) := by
  rcases markRelease_eq s core a with h | ⟨f, h⟩
  · rw [h]
    exact .refl s
  · rw [h]
    exact s.calm_modCore core (by exact fun _ => rfl) (by exact fun _ _ hd => hd)

theorem updateLines_accs {s : State} {core ctx obj off : Nat} {bs : List Byte} {n : Nat} (h : ∀ b ∈ (s.core core).accs, b.id = n → b.atBlk = true) :
    ∀ b ∈ ((s.updateLines core ctx obj off bs).core core).accs, b.id = n → b.atBlk = true := by
  intro b hb hid
  unfold State.updateLines at hb
  rw [State.modCore_core] at hb
  split at hb
  · obtain ⟨b', hb', rfl⟩ := List.mem_map.1 hb
    obtain ⟨hk, -, -, hat⟩ := b'.marked_key obj off
    exact hat.trans (h b' hb' (hk.symm.trans hid))
  · exact h b hb hid

theorem markRelease_accs (s : State) (core : Nat) (a : Access) : ((s.markRelease core a).core core).accs = (s.core core).accs := by
  rcases markRelease_eq s core a with h | ⟨f, h⟩
  · rw [h]
  · rw [h]
    exact State.modCore_frame Core.accs (by exact fun _ => rfl) s core core

theorem settled_accs {s t : State} {core : Nat} {a : Access} (h : Rule.drainsStand t core a) :
    ((((t.unrace s core a).settleDrains core)).core core).accs = (t.core core).accs := by
  have hcores : (t.unrace s core a).cores = t.cores := by unfold State.unrace; split <;> rfl
  rw [settleDrains_stand (drainsStand_calm (State.unrace_calm t s core a) h)]
  exact (State.modCore_frame Core.accs (by exact fun _ => rfl) _ core core).trans (congrArg Core.accs (State.core_of_cores hcores core))

/-- What calm notes leave of the registers, where they leave the vector registers. -/
theorem sameRegisters_of_calm {s t : State} (h : s.Calm t) (hv : t.vregs = s.vregs) (hf : t.fills = s.fills) : Rule.sameRegisters s t := by
  obtain ⟨hu, ht, hr, -, -⟩ := State.ground_eq_iff.1 h.ground
  exact ⟨hv, hf, hu, ht, hr⟩

theorem Rule.sameRegisters.trans {s t u : State} (h : Rule.sameRegisters s t) (h' : Rule.sameRegisters t u) : Rule.sameRegisters s u := by
  obtain ⟨h1, h2, h3, h4, h5⟩ := h
  obtain ⟨h1', h2', h3', h4', h5'⟩ := h'
  exact ⟨h1'.trans h1, h2'.trans h2, h3'.trans h3, h4'.trans h4, h5'.trans h5⟩

/-! ### Stores at home -/

theorem cores_of_bareOfContexts {s t : State} (h : t.bareOfContexts = s.bareOfContexts) : t.cores = s.cores := by
  have h' := congrArg State.cores h
  exact h'

theorem beforeWrite_bare {s t : State} {c : Ctx} {obj off n : Nat} {p : PAddr} (h : s.beforeWrite c obj off n = some (t, p)) :
    t.bareOfContexts = s.bareOfContexts := by
  unfold State.beforeWrite at h
  split at h
  · split at h
    · simp at h
    · next u hu =>
      have hcopy : u.bareOfContexts = s.bareOfContexts := by
        unfold State.copyOnWrite at hu
        split at hu
        · obtain rfl := Option.some.inj hu
          rfl
        · split at hu
          · obtain rfl := Option.some.inj hu
            rfl
          · dsimp only at hu
            split at hu
            · simp at hu
            · obtain rfl := Option.some.inj hu
              rw [State.modCtx_bareOfContexts]
              exact State.bareOfContexts_of_bare ((State.putPte_bare _ _ _).trans (State.copyRun_bare _ _ _ _))
      split at h
      · obtain ⟨rfl, rfl⟩ := Prod.mk.inj (Option.some.inj h)
        refine Eq.trans ?_ hcopy
        split
        · rfl
        · exact State.bareOfContexts_of_bare (State.putPte_bare _ _ _)
      · simp at h
  · simp at h

theorem homeWrite_ok {s s1 s2 : State} {c : Ctx} {obj off n : Nat} {old new : List Byte} {ue : Bool} {p : PAddr} (hr : s.homeRead c obj off n = .ok s1 old ue)
    (hb : s1.beforeWrite c obj off n = some (s2, p)) : s.homeWrite c obj off n (fun _ => some new) = .ok (s2.write p new) old ue := by
  rw [State.homeWrite, hr]
  dsimp only
  rw [hb]

theorem performStore_home {s s1 s2 : State} {core : Nat} {c : Ctx} {a : Access} {old : List Byte} {ue : Bool} {p : PAddr} (ho : a.opc = 0xA1)
    (ha : a.atBlk = true) (hready : (s.core core).readyHome a = true) (hport : (s.core core).portHolds a = false)
    (hr : s.homeRead c a.obj a.off a.bytes = .ok s1 old ue) (hb : s1.beforeWrite c a.obj a.off a.bytes = some (s2, p)) :
    s.performStore core c a = ((s2.write p (toLE a.bytes a.data.toNat)).rawWrite core c.num false a.obj a.off a.bytes).finishAccess core a := by
  rw [State.performStore, ha, if_neg (by decide), hready, hport, if_neg (by decide), homeWrite_ok hr hb]
  dsimp only
  rw [if_neg (by rw [ho]; decide)]

/-- The registers stand through a write of memory. -/
theorem write_sameRegisters (s : State) (p : PAddr) (bs : List Byte) : Rule.sameRegisters s (s.write p bs) := by
  have h : (s.write p bs).bare = s.bare := State.write_bare s p bs
  have hv := congrArg State.vregs h
  have hf := congrArg State.fills h
  have hu := congrArg State.uregs h
  have ht := congrArg State.tiles h
  have hr := congrArg State.regions h
  exact ⟨hv, hf, hu, ht, hr⟩

theorem PAddr.same_comm (p q : PAddr) : PAddr.same p q = PAddr.same q p := by cases p <;> cases q <;> rfl

/-- The bytes after a write of bytes that exist. -/
theorem write_byte {s : State} {p : PAddr} {bs : List Byte} (h : p.exists_ bs.length = true) (q : PAddr) :
    (s.write p bs).byte q = if PAddr.same q p = true ∧ p.key ≤ q.key ∧ q.key < p.key + bs.length then bs.getD (q.key - p.key) 0 else s.byte q := by
  split
  · next hin =>
    obtain ⟨hs, hle, hlt⟩ := hin
    rw [List.getD_eq_getElem _ _ (by omega)]
    exact State.write_byte_same _ _ _ _ (q.key - p.key) h (by rwa [PAddr.same_comm]) (by omega) (by omega)
  · next hout =>
    refine State.write_byte_other _ _ _ _ fun hs => ?_
    by_contra hno
    exact hout ⟨by rwa [PAddr.same_comm], by omega, by omega⟩

/-! ### Fences -/

theorem endFence_broken (s : State) (core : Nat) (a : Access) : (s.endFence core a).broken = s.broken := by
  unfold State.endFence State.finishAccess
  rw [State.complete_broken]
  split <;> rfl

/-- A fence whose needs are settled goes on. -/
theorem storePerformed_fence {s : State} {core i : Nat} {a : Access} (ha : (s.core core).accs[i]? = some a) (hf : a.isFence = true) :
    exec (.storePerformed core i) s = conclude (s.performFence core a) := by
  rw [show exec (.storePerformed core i) s = execStorePerformed core i s from rfl, execStorePerformed, ha]
  dsimp only
  rw [if_pos hf]

theorem Access.is_single {a : Access} {n : Nat} (hn : n < 256) : a.is [n] = true ↔ a.opc = BitVec.ofNat 8 n := by
  simp only [Access.is, List.contains_eq_mem, List.mem_singleton, decide_eq_true_eq]
  constructor
  · intro h
    exact BitVec.eq_of_toNat_eq (by rw [h, BitVec.toNat_ofNat, Nat.mod_eq_of_lt hn])
  · intro h
    rw [h, BitVec.toNat_ofNat, Nat.mod_eq_of_lt hn]

/-- A fence that has reached a core asks it no more. -/
theorem reach_asked {s : State} {core opc : Nat} (hopc : opc < 256) {extra : Access → List Nat} :
    ∀ k ∈ (s.reach core opc extra).cores, ∀ a ∈ k.accs, a.opc = BitVec.ofNat 8 opc → ∀ p ∈ a.asked, p.1 ≠ core := by
  intro k hk a ha ho p hp
  obtain ⟨k', -, rfl⟩ := List.mem_map.1 hk
  obtain ⟨a', -, rfl⟩ := List.mem_map.1 ha
  split at hp
  · simpa using (List.mem_filter.1 hp).2
  · next hno =>
    rw [if_neg hno] at ho
    intro he
    refine hno ⟨?_, List.any_eq_true.2 ⟨p, hp, by simp [he]⟩⟩
    rw [ho, BitVec.toNat_ofNat, Nat.mod_eq_of_lt hopc]

/-! ### Records and results -/

theorem flushRecords_none {s : State} {n k : Nat} (h : ∀ c ∈ s.ctxs, c.heldRecords = []) : State.flushRecords s n k = s := by
  cases k with
  | zero => rfl
  | succ k =>
    unfold State.flushRecords
    split
    · next c hc =>
      rw [h c (List.mem_of_find?_eq_some hc)]
    · rfl

theorem foldl_flushRecords_none {s : State} {l : List Ctx} (h : ∀ c ∈ s.ctxs, c.heldRecords = []) :
    l.foldl (fun (t : State) (c : Ctx) => State.flushRecords t c.num (c.heldRecords.length + 1)) s = s := by
  induction l with
  | nil => rfl
  | cons c l ih => rw [List.foldl_cons, flushRecords_none h, ih]

theorem comeTo_broken (s : State) (core : Nat) (p : RegPlace) (v : Word) : (s.comeTo core p v).broken = s.broken := by
  unfold State.comeTo
  split
  · rfl
  · cases p <;> rfl

theorem fillReg_broken (s : State) (home r lane id : Nat) (v : Word) : (s.fillReg home r lane id v).broken = s.broken := by
  unfold State.fillReg
  split
  · rw [comeTo_broken, (State.raceOps_calm _ _ _).broken, (State.noteRaw_calm _ _).broken, (State.noteEarly_calm _ _ _).broken]
    rfl
  · rfl

theorem fillRun_broken (s : State) (home r lane id : Nat) (ws : List Word) : (s.fillRun home r lane id ws).broken = s.broken := by
  induction ws generalizing s r with
  | nil => rfl
  | cons v ws ih => exact (ih _ _).trans (fillReg_broken s home r lane id v)

theorem deliver_broken (s : State) (core : Nat) (a : Access) (ws : List Word) : (s.deliver core a ws).broken = s.broken := by
  unfold State.deliver
  dsimp only
  rw [State.complete_broken]
  split
  · exact fillRun_broken _ _ _ _ _ _
  · rfl

theorem putResult_broken (s : State) (core : Nat) (p : RegPlace) (v : Word) : (s.putResult core p v).broken = s.broken := by
  have hnotes : (((s.fullAt p).noteRaw p).raceOps core p).broken = s.broken := by
    rw [(State.raceOps_calm _ _ _).broken, (State.noteRaw_calm _ _).broken]
    cases p <;> rfl
  unfold State.putResult
  dsimp only
  split
  · split
    · exact (comeTo_broken _ _ _ _).trans hnotes
    · exact hnotes
  · exact (comeTo_broken _ _ _ _).trans hnotes

theorem finishAccess_broken (s : State) (core : Nat) (a : Access) : (s.finishAccess core a).broken = s.broken := State.complete_broken _ _ _

theorem performRdlane_broken (s : State) (core : Nat) (a : Access) : (s.performRdlane core a).broken = s.broken := by
  unfold State.performRdlane
  dsimp only
  split
  · exact deliver_broken _ _ _ _
  · split
    · exact (finishAccess_broken _ _ _).trans (foldl_frame State.broken _ (fun t p => putResult_broken t core _ _) _ s)
    · exact finishAccess_broken _ _ _
  · exact finishAccess_broken _ _ _

end Sys2Proof.Machine

namespace Sys2Proof.Proofs

open Machine

/-- R182: a load at .cls or wider. -/
theorem wideLoads {s : State} {core i : Nat} {a : Access} {th : Thread} {c : Ctx} (h : Rule.ready s core i a th c) (hl : a.inLocal = false)
    (hv : s.vaultOff c a.obj = false) (hport : (s.core core).portHolds a = false) (hside : s.sideHit core a = none) (hd : Rule.drainsStand s core a)
    {s1 : State} {old : List Byte} (ho : a.opc = 0xA0) (hscope : 3 ≤ a.scope) (hq : a.qual = 1) (hpl : s.placeTouches core a = false)
    (hbuf : (s.core core).bufferAhead a = false) (hr : s.homeRead c a.obj a.off a.bytes = .ok s1 old false) :
    let ws := sizeWords (Forms.low3 a.mod) (ofLE old)
    let t := (s.performAt core c a).settleDrains core
    Rule.awaited s a th ws.length → t.broken = none → exec (.fillArrival core i) s = .next t ∧ Rule.sameMemory s t ∧ Rule.filled s t th.home a.reg a.tid.lane ws := by
  intro ws t hw ht
  obtain ⟨-, -, -, -, hth, -⟩ := id h
  obtain ⟨b, hload⟩ := performLoad_wide (core := core) hscope hq hbuf hr
  let u : State := { s with broken := b }
  have hperf : t = ((u.deliver core a ws).unrace s core a).settleDrains core := by
    unfold t
    rw [performAt_device hl hv hport hside, if_pos (by simp [Access.is, ho]), hload,
      show ({ s with broken := b } : State).deliverValue core a (ofLE old) false = u.deliver core a ws from deliverValue_load _ ho hpl]
  obtain ⟨hcalm, hfilled⟩ := deliver_spec (s := u) (core := core) hth hw
  obtain ⟨hset, hvr, hf⟩ := settled (s := s) (drainsStand_calm hcalm (drainsStand_dropAccess (s := u) hd))
  rw [← hperf] at hset hvr hf
  refine ⟨?_, (hcalm.trans hset).memory, filled_congr hfilled rfl hvr hf⟩
  rw [fillArrival_performs h (by simp [Access.is, ho])]
  exact conclude_next ht

/-- R184: a store enters the store buffer. -/
theorem bufferedStores {s : State} {core i : Nat} {a : Access} {th : Thread} {c : Ctx} (h : Rule.ready s core i a th c) (hl : a.inLocal = false)
    (hv : s.vaultOff c a.obj = false) (hport : (s.core core).portHolds a = false) (hside : s.sideHit core a = none) (hd : Rule.drainsStand s core a)
    (ho : a.opc = 0xA1) (hat : a.atBlk = false) : ∃ t, exec (.storePerformed core i) s = .next t ∧ Rule.sameMemory s t ∧ Rule.sameRegisters s t ∧
      ∀ b ∈ (t.core core).accs, b.id = a.id → b.atBlk = true := by
  obtain ⟨hb, -⟩ := id h
  let r := s.reenter core a
  let u := r.updateLines core c.num a.obj a.off (toLE a.bytes a.data.toNat)
  let w := u.markRelease core a
  have hstore : s.performStore core c a = w := by rw [State.performStore, if_pos hat]; rfl
  have hcalm : r.Calm w := (updateLines_calm r core c.num a.obj a.off _).trans (markRelease_calm u core a)
  have hstands : Rule.drainsStand w core a := drainsStand_calm hcalm (drainsStand_reenter hd)
  have hreg : w.vregs = s.vregs ∧ w.fills = s.fills := by
    have hw : w.vregs = u.vregs ∧ w.fills = u.fills := by
      unfold w
      rcases markRelease_eq u core a with h | ⟨f, h⟩ <;> rw [h] <;> exact ⟨rfl, rfl⟩
    exact hw
  obtain ⟨hset, hvr, hf⟩ := settled (s := s) hstands
  have hall := hcalm.trans hset
  have hreg' := sameRegisters_of_calm hall (hvr.trans hreg.1) (hf.trans hreg.2)
  refine ⟨_, ?_, hall.memory, hreg', fun b hbm hid => ?_⟩
  · rw [storePerformed_performs h (by simp [Access.isStore, Access.is, ho]), performAt_device hl hv hport hside, if_neg (by simp [Access.is, ho]),
      if_pos (by simp [Access.is, ho]), hstore]
    exact conclude_next (hall.broken.trans hb)
  · rw [settled_accs hstands, markRelease_accs] at hbm
    exact updateLines_accs reenter_accs b hbm hid

/-- R187, R298: a store of the store buffer writes its bytes at its home, and no others. -/
theorem homeStores {s : State} {core i : Nat} {a : Access} {th : Thread} {c : Ctx} (h : Rule.ready s core i a th c) (hl : a.inLocal = false)
    (hv : s.vaultOff c a.obj = false) (hport : (s.core core).portHolds a = false) (hside : s.sideHit core a = none) (hd : Rule.drainsStand s core a)
    {s1 s2 : State} {old : List Byte} {ue : Bool} {p : PAddr} (ho : a.opc = 0xA1) (hat : a.atBlk = true) (hready : (s.core core).readyHome a = true)
    (hr : s.homeRead c a.obj a.off a.bytes = .ok s1 old ue) (hbw : s1.beforeWrite c a.obj a.off a.bytes = some (s2, p)) (hp : p.exists_ a.bytes = true)
    (hb : s2.broken = none) : ∃ t, exec (.storePerformed core i) s = .next t ∧ Rule.sameRegisters s2 t ∧ (∀ b ∈ (t.core core).accs, b.id ≠ a.id) ∧
      ∀ q : PAddr, t.byte q = if PAddr.same q p = true ∧ p.key ≤ q.key ∧ q.key < p.key + a.bytes then (toLE a.bytes a.data.toNat).getD (q.key - p.key) 0 else s2.byte q := by
  let new := toLE a.bytes a.data.toNat
  have hlen : new.length = a.bytes := toLE_length _ _
  let v := s2.write p new
  let w := v.rawWrite core c.num false a.obj a.off a.bytes
  have hraw : v.Calm w := State.rawWrite_calm _ _ _ _ _ _ _
  have hcores : w.cores = s.cores := by
    obtain ⟨b, rfl⟩ := homeRead_eq hr
    have hw : w.cores = v.cores := by
      unfold w
      rw [(v.rawWrite_spec core c.num false a.obj a.off a.bytes).1]
    have hv2 : v.cores = s2.cores := cores_of_bareOfContexts (State.bareOfContexts_of_bare (State.write_bare s2 p new))
    have h2 := cores_of_bareOfContexts (beforeWrite_bare hbw)
    exact hw.trans (hv2.trans h2)
  have hstands : Rule.drainsStand w core a := fun d hdd => by
    rw [State.core_of_cores hcores] at hdd ⊢
    exact hd d hdd
  have hdone : (w.dropAccess core a.id).Calm (w.finishAccess core a) := State.complete_calm _ _ _
  obtain ⟨hset, hvr, hf⟩ := settled (s := s) (drainsStand_calm hdone (drainsStand_dropAccess hstands))
  have hall := hdone.trans hset
  obtain ⟨hcv, hcf⟩ := complete_registers (w.dropAccess core a.id) [a.tid] a.flag
  have hwv : w.vregs = v.vregs ∧ w.fills = v.fills := by
    unfold w
    rw [(v.rawWrite_spec core c.num false a.obj a.off a.bytes).1]
    exact ⟨rfl, rfl⟩
  have hregs : Rule.sameRegisters v (((w.finishAccess core a).unrace s core a).settleDrains core) :=
    (sameRegisters_of_calm hraw hwv.1 hwv.2).trans (sameRegisters_of_calm (s := w.dropAccess core a.id) hall (hvr.trans hcv) (hf.trans hcf))
  refine ⟨_, ?_, (write_sameRegisters s2 p new).trans hregs, calm_not_mem hall dropAccess_not_mem, fun q => ?_⟩
  · rw [storePerformed_performs h (by simp [Access.isStore, Access.is, ho]), performAt_device hl hv hport hside, if_neg (by simp [Access.is, ho]),
      if_pos (by simp [Access.is, ho]), performStore_home ho hat hready hport hr hbw]
    refine conclude_next (hall.broken.trans (hraw.broken.trans ?_))
    exact (State.write_broken s2 p new (by rw [hlen]; exact hp)).trans hb
  · have hwrite := write_byte (s := s2) (p := p) (bs := new) (by rw [hlen]; exact hp) q
    rw [hlen] at hwrite
    rw [← hwrite]
    obtain ⟨h1, h2, h3⟩ := hraw.memory
    obtain ⟨h1', h2', h3'⟩ := hall.memory
    unfold State.byte
    refine congrArg (fun m => sget m q.key) ?_
    cases q with
    | vault q a => exact h1'.trans h1
    | pool a => exact h2'.trans h2
    | cluster c a => exact h3'.trans h3

/-- R198 to R200: what a fence does once its needs are settled. -/
theorem fencesEnd (s : State) (core i : Nat) (a : Access) (hb : s.broken = none) (ha : (s.core core).accs[i]? = some a) (hf : a.isFence = true)
    (hr : s.readyFence core a = true) (hask : a.asked = []) :
    (¬(a.opc = 0xAC ∧ a.args = [0]) → ¬(a.opc = 0xAB ∧ a.args ≠ [] ∧ a.cmp = 0) → exec (.storePerformed core i) s = .next (s.endFence core a)) ∧
    (a.opc = 0xAB → a.args ≠ [] → a.cmp = 0 →
      let lines := (runsOf 2 a.args.length a.args).map fun l => (l.headD 0, l.getD 1 0)
      let asked := (dedup (lines.filterMap (s.releaserOf (s.ctxOf a.tid.block)))).map fun k => (k, 0)
      exec (.storePerformed core i) s = .next (s.setAccess core { a with cmp := 1, asked })) ∧
    (a.opc = 0xAC → a.args = [0] → exec (.storePerformed core i) s = .next
      (s.setAccess core { a with args := [1], asked := (scopeCores core a.scope).map fun k => (k, 0) })) := by
  have hgo : ¬(s.readyFence core a = false ∨ a.asked ≠ []) := by simp [hr, hask]
  have hab : a.is [0xAB] = true ↔ a.opc = 0xAB := Access.is_single (by decide)
  have hac : a.is [0xAC] = true ↔ a.opc = 0xAC := Access.is_single (by decide)
  rw [storePerformed_fence ha hf, State.performFence, if_neg hgo]
  refine ⟨fun hnc hnb => ?_, fun ho hargs hcmp => ?_, fun ho hargs => ?_⟩
  · rw [if_neg (by rwa [hab]), if_neg (by rwa [hac])]
    exact conclude_next ((endFence_broken s core a).trans hb)
  · rw [if_pos ⟨hab.2 ho, hargs, hcmp⟩]
    exact conclude_next hb
  · rw [if_neg (fun hn => by rw [hab, ho] at hn; exact absurd hn.1 (by decide)), if_pos ⟨hac.2 ho, hargs⟩]
    exact conclude_next hb

/-- R199, R200: a fence's request reaches a core. -/
theorem requestsReach (s : State) (core : Nat) (hb : s.broken = none) :
    (∃ t, exec (.promotionRequest core) s = .next t ∧ Rule.sameMemory s t ∧ Rule.sameRegisters s t ∧
      ∀ k ∈ t.cores, ∀ a ∈ k.accs, a.opc = 0xAB → ∀ p ∈ a.asked, p.1 ≠ core) ∧
    ∃ t, exec (.serialisationRequest core) s = .next t ∧ Rule.sameMemory s t ∧ Rule.sameRegisters s t ∧
      ∀ k ∈ t.cores, ∀ a ∈ k.accs, a.opc = 0xAC → ∀ p ∈ a.asked, p.1 ≠ core :=
  ⟨⟨_, conclude_next hb, ⟨rfl, rfl, rfl⟩, ⟨rfl, rfl, rfl, rfl, rfl⟩, reach_asked (by decide)⟩,
    ⟨_, conclude_next hb, ⟨rfl, rfl, rfl⟩, ⟨rfl, rfl, rfl, rfl, rfl⟩, reach_asked (by decide)⟩⟩

/-- R186: an access that found the wait table full is tried again. -/
theorem waitTableRetries (s : State) (core : Nat) (e : Entry) (es : List Entry) (hb : s.broken = none) (hh : ∀ c ∈ s.ctxs, c.heldRecords = [])
    (hr : (s.core core).retries = e :: es) (hroom : (s.core core).waits.length < 256) : exec (.waitTableRetry core) s =
      .next (s.modCore core fun k => { k with retries := es, accs := if e.acc.atBlk then e.acc :: k.accs else k.accs ++ [e.acc] }) := by
  rw [show exec (.waitTableRetry core) s = execWaitTableRetry core s from rfl, execWaitTableRetry, foldl_flushRecords_none hh]
  rw [hr]
  dsimp only
  rw [if_pos (.inl hroom)]
  exact conclude_next hb

/-- An ACCRD of the engine delivers its rows where no access stands at the number. -/
theorem accrdArrives (s : State) (core i : Nat) (ha : (s.core core).accs[i]? = none) (hb : (s.deliverAccrd core).broken = none) :
    exec (.fillArrival core i) s = .next (s.deliverAccrd core) := by
  rw [show exec (.fillArrival core i) s = execFillArrival core i s from rfl, execFillArrival, ha]
  exact conclude_next hb

/-- What else is on a core moves on by the operation of its kind. -/
theorem othersPerform (s : State) (core i : Nat) (a : Access) (th : Thread) (c : Ctx) (h : Rule.ready s core i a th c) :
    let t := (s.performAt core c a).settleDrains core
    (a.opc ∈ [0xA0#8, 0xA2, 0xA5, 0xA6, 0xDB, 0xE2] → t.broken = none → exec (.fillArrival core i) s = .next t) ∧
    (a.opc ∈ [0xA1#8, 0xA3, 0xA7, 0xDC, 0xE0, 0xE1, 0xE3] → t.broken = none → exec (.storePerformed core i) s = .next t) ∧
    (a.opc = 0xAA → (s.performPrefetch core c a).broken = none → exec (.storePerformed core i) s = .next (s.performPrefetch core c a)) ∧
    (a.opc = 0x76 → exec (.fillArrival core i) s = .next (s.performRdlane core a)) ∧
    (a.opc = 0x86 → (s.performSpawn core a).broken = none → exec (.storePerformed core i) s = .next (s.performSpawn core a)) ∧
    (a.opc = 0x96 → (s.performEnq core c a).broken = none → exec (.storePerformed core i) s = .next (s.performEnq core c a)) ∧
    (a.opc = 0xA8 ∨ a.opc = 0xA9 → (s.performMulticast core a).broken = none → exec (.storePerformed core i) s = .next (s.performMulticast core a)) := by
  intro t
  obtain ⟨hb, -, ha, hready, -, hctx⟩ := id h
  have hstep : ∀ {o : BitVec 8} {u : State}, a.opc = o → o.toNat ∉ [0xA1, 0xA3, 0xA7, 0xDC, 0xE0, 0xE1, 0xE3, 0xAB, 0xAC, 0x98] →
      (if a.is [0xAA] then conclude (s.performPrefetch core c a) else if a.is [0x86] then conclude (s.performSpawn core a)
        else if a.is [0x96] then conclude (s.performEnq core c a) else if a.is [0xA8, 0xA9] then conclude (s.performMulticast core a) else conclude s) = conclude u →
      u.broken = none → exec (.storePerformed core i) s = .next u := by
    intro o u ho hn hu hub
    have hn' : a.isFence = false ∧ a.is [0x98] = false ∧ a.isStore = false := by
      simp only [List.mem_cons, List.not_mem_nil, or_false, not_or] at hn
      simp only [Access.isFence, Access.isStore, Access.is, ho, List.contains_eq_mem, List.mem_cons, List.not_mem_nil, or_false, decide_eq_false_iff_not]
      omega
    rw [show exec (.storePerformed core i) s = execStorePerformed core i s from rfl, execStorePerformed, ha]
    dsimp only
    rw [if_neg (by rw [hn'.1]; decide), if_neg (by rw [hn'.2.1]; decide), if_neg (by rw [hready]; decide), hctx]
    dsimp only
    rw [if_neg (by rw [hn'.2.2]; decide), hu]
    exact conclude_next hub
  refine ⟨fun ho ht => ?_, fun ho ht => ?_, fun ho ht => ?_, fun ho => ?_, fun ho ht => ?_, fun ho ht => ?_, fun ho ht => ?_⟩
  · rw [fillArrival_performs h (List.contains_iff_mem.2 (List.mem_map_of_mem (f := BitVec.toNat) ho))]
    exact conclude_next ht
  · rw [storePerformed_performs h (List.contains_iff_mem.2 (List.mem_map_of_mem (f := BitVec.toNat) ho))]
    exact conclude_next ht
  · exact hstep ho (by decide) (if_pos (by simp [Access.is, ho])) ht
  · rw [show exec (.fillArrival core i) s = execFillArrival core i s from rfl, execFillArrival, ha]
    dsimp only
    rw [if_pos (by simp [Access.is, ho])]
    exact conclude_next ((performRdlane_broken s core a).trans hb)
  · exact hstep ho (by decide) (by rw [if_neg (by simp [Access.is, ho]), if_pos (by simp [Access.is, ho])]) ht
  · exact hstep ho (by decide) (by rw [if_neg (by simp [Access.is, ho]), if_neg (by simp [Access.is, ho]), if_pos (by simp [Access.is, ho])]) ht
  · rcases ho with ho | ho <;> refine hstep ho (by decide) ?_ ht <;>
      rw [if_neg (by simp [Access.is, ho]), if_neg (by simp [Access.is, ho]), if_neg (by simp [Access.is, ho]), if_pos (by simp [Access.is, ho])]

/-- R189: the bytes of an LDGL arrive. -/
theorem ldglBytes (s : State) (core i : Nat) (l : LdglCopy) (c : Ctx) (bs : List Byte) (hl : (s.core core).ldgl[i]? = some l) (hc : s.ctx? l.ctx = some c)
    (hp : l.park = none) (hn : l.bytes ≠ 0) (ho : s.owed core l.id true 0 l.dst l.bytes = false)
    (hr : s.engineRead core c l.id l.obj (readFuel l.bytes) l.off l.bytes = .full bs) :
    let w := ((s.rawWrite core 0 true 0 l.dst bs.length).engineStores core l.dst bs).copyPoison core c l.id (.dev l.obj l.off) (.loc l.dst) l.bytes
    let t := w.countBytes core l.barrier l.bytes
    let u := (t.1.setLdgl core { l with bytes := 0, overrun := !t.2 }).settleLdgl core l.id
    u.broken = none → exec (.ldglBytesWritten core i) s = .next u := by
  intro w t u hu
  rw [show exec (.ldglBytesWritten core i) s = execLdglBytesWritten core i s from rfl, execLdglBytesWritten, hl]
  dsimp only
  rw [hc]
  dsimp only
  rw [if_neg (by simp [hp, hn, ho]), hr]
  exact conclude_next hu

/-- Settles O49, a theorem for each of its clauses. -/
theorem accessesPerformed : Obligations.AccessesPerformed :=
  ⟨fun _ _ _ _ _ _ h hl hv hport hside hd =>
      ⟨fun _ _ ho hscope hq hpl hbuf hr => wideLoads h hl hv hport hside hd ho hscope hq hpl hbuf hr, bufferedStores h hl hv hport hside hd,
        fun _ _ _ _ _ ho hat hready hr hbw hp hb => homeStores h hl hv hport hside hd ho hat hready hr hbw hp hb⟩,
    fencesEnd, requestsReach, waitTableRetries, accrdArrives, othersPerform, ldglBytes⟩

end Sys2Proof.Proofs
end


section
/-! PROOFS. The Teller: handles granted, entries reclaimed, copies shot down (R202, R203, R205, R316, R320, R321). -/

namespace Sys2Proof.Machine

/-! ### Handles -/

theorem State.freeView_some {s : State} {c : Ctx} {n i j : Nat} (h : s.freeView c n i = some j) : (s.viewEntry c j).state = 0 ∧ i ≤ j := by
  induction n generalizing i with
  | zero => simp [State.freeView] at h
  | succ n ih =>
    unfold State.freeView at h
    split at h
    · next h0 =>
      obtain rfl := Option.some.inj h
      exact ⟨h0, le_rfl⟩
    · obtain ⟨h0, hle⟩ := ih h
      exact ⟨h0, by omega⟩

theorem State.grantHandles_one {s : State} {core ctx i : Nat} {c : Ctx} (hc : s.ctx? ctx = some c) (hi : s.anyFree c = some i) :
    s.grantHandles core ctx 1 = (s.putView c i { s.viewEntry c i with state := 1 }).modCore core fun k => { k with pool := k.pool ++ [(ctx, i)] } := by
  unfold State.grantHandles
  rw [hc]
  dsimp only
  rw [hi]
  rfl

theorem State.putView_cores (s : State) (c : Ctx) (i : Nat) (e : ViewEntry) : (s.putView c i e).cores = s.cores := by
  have h := congrArg State.cores (State.write_bare s (c.viewAddr i) e.bytes)
  exact h

/-! ### Entries that the Teller writes -/

/-- What is met on the way to the pages of a range leaves the table as it is. -/
theorem State.viewEntry_uncovered (s : State) (c d : Ctx) (obj lo hi i : Nat) : (s.uncovered c obj lo hi).1.viewEntry d i = s.viewEntry d i := by
  unfold State.uncovered
  split
  · rfl
  · split
    · rfl
    · dsimp only
      split <;> exact State.viewEntry_congr rfl rfl rfl d i

theorem State.viewEntry_setCoverage (s : State) (c d : Ctx) (k obj lo hi i : Nat) : (s.setCoverage c k obj lo hi).viewEntry d i = s.viewEntry d i := by
  obtain ⟨hv, ho, ht, -⟩ := s.setCoverage_same c k obj lo hi
  exact State.viewEntry_congr hv ho ht d i

theorem tellerWrite_drop {s : State} {c : Ctx} {o : ViewOp} (hx : (c.viewAddr o.index).exists_ 32 = true) (hs : (s.viewEntry c o.index).state = 2)
    (hg : (s.viewEntry c o.index).gen = o.gen) (hd : o.drop = true) : (s.tellerWrite c o).1.viewEntry c o.index = (s.viewEntry c o.index).dropped := by
  have hfits : (s.viewEntry c o.index).dropped.Fits := by
    refine ⟨show 0 < 2 ^ 24 by decide, Nat.mod_lt _ (by decide), ?_, show 0 < 2 ^ 41 by decide, show 0 < 2 ^ 41 by decide⟩
    show (if _ then 3 else 0) < 256
    split <;> decide
  unfold State.tellerWrite
  rw [if_neg (by simp [hs, hg]), if_pos hd, State.viewEntry_uncovered, State.viewEntry_setCoverage]
  exact State.viewEntry_putView hx hfits

theorem tellerWrite_narrow {s : State} {c : Ctx} {o : ViewOp} (hx : (c.viewAddr o.index).exists_ 32 = true) (hs : (s.viewEntry c o.index).state = 2)
    (hg : (s.viewEntry c o.index).gen = o.gen) (hd : o.drop = false) (hlow : (s.viewEntry c o.index).low ≤ o.low) (hle : o.low ≤ o.high)
    (hhigh : o.high ≤ (s.viewEntry c o.index).high) : (s.tellerWrite c o).1.viewEntry c o.index =
      { s.viewEntry c o.index with low := o.low, high := o.high, rights := (s.viewEntry c o.index).rights &&& o.mask } := by
  obtain ⟨ho, hgen, hst, -, hh⟩ := s.viewEntry_fits c o.index
  unfold State.tellerWrite
  rw [if_neg (by simp [hs, hg]), if_neg (by simp [hd])]
  dsimp only
  rw [State.viewEntry_uncovered, State.viewEntry_setCoverage, max_eq_right hlow, min_eq_right hhigh, max_eq_right hle]
  exact State.viewEntry_putView hx ⟨ho, hgen, hst, show o.low < _ by omega, show o.high < _ by omega⟩

/-! ### Copies -/

theorem CachedView.after_key (v : CachedView) (o : ViewOp) : (v.after o).ctx = v.ctx ∧ (v.after o).index = v.index := by
  unfold CachedView.after
  split
  · exact ⟨rfl, rfl⟩
  · split <;> exact ⟨rfl, rfl⟩

theorem foldl_after_key (l : List ViewOp) (v : CachedView) : (l.foldl CachedView.after v).ctx = v.ctx ∧ (l.foldl CachedView.after v).index = v.index := by
  induction l generalizing v with
  | nil => exact ⟨rfl, rfl⟩
  | cons o l ih =>
    obtain ⟨hc, hi⟩ := ih (v.after o)
    obtain ⟨hc', hi'⟩ := v.after_key o
    exact ⟨hc.trans hc', hi.trans hi'⟩

/-- Where no operation at its issue names the view, a core's copy is the entry. -/
theorem foldl_after_other {l : List ViewOp} {v : CachedView} (h : ∀ o ∈ l, o.ctx = v.ctx → o.index ≠ v.index) : l.foldl CachedView.after v = v := by
  induction l with
  | nil => rfl
  | cons o l ih =>
    have hv : v.after o = v := by
      unfold CachedView.after
      rw [if_pos]
      by_cases hc : o.ctx = v.ctx
      · exact .inr (.inl fun hi => h o List.mem_cons_self hc hi.symm)
      · exact .inl fun hc' => hc hc'.symm
    rw [List.foldl_cons, hv]
    exact ih fun p hp => h p (List.mem_cons_of_mem _ hp)

/-- The views of a core once an entry has been shot down. -/
def shotViews (views : List CachedView) (ctx index : Nat) (live : Bool) (v : CachedView) : List CachedView :=
  if live then views.map fun x => if x.ctx = ctx ∧ x.index = index then v else x else views.filter fun x => !(x.ctx == ctx && x.index == index)

theorem shotViews_mem {views : List CachedView} {ctx index : Nat} {live : Bool} {v w : CachedView} (h : w ∈ shotViews views ctx index live v) (hc : w.ctx = ctx)
    (hi : w.index = index) : live = true ∧ w = v := by
  unfold shotViews at h
  cases live with
  | true =>
    rw [if_pos rfl] at h
    obtain ⟨x, -, rfl⟩ := List.mem_map.1 h
    refine ⟨rfl, ?_⟩
    by_cases hx : x.ctx = ctx ∧ x.index = index
    · rw [if_pos hx]
    · rw [if_neg hx] at hc hi
      exact absurd ⟨hc, hi⟩ hx
  | false =>
    rw [if_neg (by decide)] at h
    have := (List.mem_filter.1 h).2
    simp [hc, hi] at this

end Sys2Proof.Machine

namespace Sys2Proof.Proofs

open Machine

/-- R202: the grant of handles. -/
theorem handleGrants (s : State) (core n ctx : Nat) (h : s.clusterCtx core = some ctx) :
    let t := s.grantHandles core ctx (min n (64 + (s.core core).claimed - ((s.core core).handlesOf ctx).length))
    t.broken = none → exec (.handleGrant core n) s = .next t := by
  intro t ht
  rw [show exec (.handleGrant core n) s = execHandleGrant core n s from rfl, execHandleGrant, h]
  exact conclude_next ht

/-- R202, R316: what one grant does. -/
theorem oneGrant (s : State) (core ctx i : Nat) (c : Ctx) (hc : s.ctx? ctx = some c) (hi : s.anyFree c = some i) (hcore : core < s.cores.length)
    (hx : (c.viewAddr i).exists_ 32 = true) :
    let t := s.grantHandles core ctx 1
    (s.viewEntry c i).state = 0 ∧ i ≠ 0 ∧ (t.viewEntry c i).state = 1 ∧ (t.core core).pool = (s.core core).pool ++ [(ctx, i)] := by
  intro t
  obtain ⟨h0, hle⟩ := State.freeView_some hi
  obtain ⟨ho, hg, -, hl, hh⟩ := s.viewEntry_fits c i
  let p := s.putView c i { s.viewEntry c i with state := 1 }
  have ht : t = p.modCore core fun k => { k with pool := k.pool ++ [(ctx, i)] } := State.grantHandles_one hc hi
  have hcores : p.cores = s.cores := State.putView_cores _ _ _ _
  refine ⟨h0, by omega, ?_, ?_⟩
  · rw [ht]
    have hput : p.viewEntry c i = { s.viewEntry c i with state := 1 } := State.viewEntry_putView hx ⟨ho, hg, show 1 < 256 by decide, hl, hh⟩
    exact congrArg ViewEntry.state ((State.viewEntry_congr rfl rfl rfl c i).trans hput)
  · rw [ht, State.modCore_core_self (by rw [hcores]; exact hcore), State.core_of_cores hcores]

/-- R321: the parts of a reclamation sequence. -/
theorem reclamations (s : State) (i : Nat) (o : ViewOp) (c : Ctx) (ho : s.viewOps[i]? = some o) (hr : s.reclaimReady o = true) (hc : s.ctx? o.ctx = some c) :
    (o.stage = 0 → let r := s.tellerWrite c o
      r.1.broken = none → exec (.reclamationSequence i) s = .next (r.1.setViewOp
        { o with stage := 1, cores := r.1.coresOf o.ctx o.index, waits := r.1.kept.flatMap fun k : Kept => k.through o.ctx o.index, pages := r.2 })) ∧
    (o.stage ≠ 0 → let r := s.freePages c o.pages
      r.1.broken = none → exec (.reclamationSequence i) s = .next (if r.2 = [] then r.1.endViewOp o else r.1.setViewOp { o with stage := 2, pages := r.2 })) := by
  rw [show exec (.reclamationSequence i) s = execReclamationSequence i s from rfl, execReclamationSequence, ho]
  dsimp only
  rw [if_neg (by simp [hr]), hc]
  dsimp only
  refine ⟨fun h0 hb => ?_, fun h0 hb => ?_⟩
  · rw [if_pos h0]
    exact conclude_next hb
  · rw [if_neg h0]
    by_cases hl : (s.freePages c o.pages).2 = []
    · rw [if_pos hl, if_pos (by rw [hl]; rfl)]
      exact conclude_next ((State.complete_broken _ _ _).trans hb)
    · rw [if_neg hl, if_neg (by rwa [List.isEmpty_iff])]
      exact conclude_next hb

/-- R203, R205, R316: the entry that the Teller leaves. -/
theorem tellerWrites (s : State) (c : Ctx) (o : ViewOp) (hx : (c.viewAddr o.index).exists_ 32 = true) :
    let e := s.viewEntry c o.index
    let t := (s.tellerWrite c o).1
    e.state = 2 → e.gen = o.gen →
    (o.drop = true → (t.viewEntry c o.index).gen = (e.gen + 1) % 16 ∧ (t.viewEntry c o.index).state = if e.gen = 14 then 3 else 0) ∧
    (o.drop = false → e.low ≤ o.low → o.low ≤ o.high → o.high ≤ e.high → o.low < 2 ^ 40 → (t.viewEntry c o.index).low = o.low ∧ (t.viewEntry c o.index).high = o.high ∧
      (t.viewEntry c o.index).rights = e.rights &&& o.mask ∧ (t.viewEntry c o.index).state = 2) := by
  intro e t hs hg
  refine ⟨fun hd => ?_, fun hd hlow hle hhigh _ => ?_⟩
  · rw [show t.viewEntry c o.index = e.dropped from tellerWrite_drop hx hs hg hd]
    refine ⟨rfl, ?_⟩
    show (if e.gen + 1 = 15 then 3 else 0) = _
    by_cases h : e.gen = 14
    · rw [if_pos h, if_pos (by omega)]
    · rw [if_neg h, if_neg (by omega)]
  · rw [show t.viewEntry c o.index = { e with low := o.low, high := o.high, rights := e.rights &&& o.mask } from tellerWrite_narrow hx hs hg hd hlow hle hhigh]
    exact ⟨rfl, rfl, rfl, hs⟩

/-- R321: a core's copy follows the entry. -/
theorem shootdowns (s : State) (core i : Nat) (o : ViewOp) (c : Ctx) (hb : s.broken = none) (hcore : core < s.cores.length) (ho : s.viewOps[i]? = some o)
    (h1 : o.stage = 1) (hin : core ∈ o.cores) (hc : s.ctx? o.ctx = some c) :
    ∃ t, exec (.shootdown core i) s = .next t ∧ Rule.sameMemory s t ∧ Rule.sameRegisters s t ∧
      (∀ v ∈ (t.core core).views, v.ctx = o.ctx → v.index = o.index → (s.viewEntry c o.index).state = 2 ∧
        v = s.copyFor core ((s.viewEntry c o.index).cached o.ctx o.index) ∧
        ((∀ q ∈ s.viewOps, q.ctx = o.ctx → q.index = o.index → q.stage ≠ 0) → v = (s.viewEntry c o.index).cached o.ctx o.index)) ∧
      ∀ x ∈ t.viewOps, x.id = o.id → core ∉ x.cores := by
  rw [show exec (.shootdown core i) s = execShootdown core i s from rfl, execShootdown, ho]
  dsimp only
  rw [if_neg (by simp [h1, hin]), hc]
  refine ⟨_, conclude_next (by exact hb), ⟨rfl, rfl, rfl⟩, ⟨rfl, rfl, rfl, rfl, rfl⟩, fun v hv hvc hvi => ?_, fun x hx hid => ?_⟩
  · let e := (s.viewEntry c o.index).cached o.ctx o.index
    have hviews := congrArg Core.views (State.modCore_core_self hcore fun k : Core =>
      { k with views := shotViews k.views o.ctx o.index e.live (s.copyFor core e) })
    obtain ⟨hlive, hcopy⟩ := shotViews_mem (hviews ▸ hv) hvc hvi
    refine ⟨by simpa [e, ViewEntry.cached] using hlive, hcopy, fun hq => hcopy.trans (foldl_after_other fun q hqm hqc hqi => ?_)⟩
    obtain ⟨hqm, hstage⟩ := List.mem_filter.1 hqm
    rw [Bool.and_eq_true, beq_iff_eq] at hstage
    exact hq q hqm hqc hqi hstage.1
  · obtain ⟨y, -, rfl⟩ := List.mem_map.1 hx
    by_cases hy : y.id = o.id
    · rw [if_pos hy]
      simp
    · rw [if_neg hy] at hid
      exact absurd hid hy

/-- Settles O50, a theorem for each of its clauses. -/
theorem tellerSteps : Obligations.TellerSteps := ⟨handleGrants, oneGrant, reclamations, tellerWrites, shootdowns⟩

end Sys2Proof.Proofs
end


section
/-! PROOFS. The engine's steps: slices of INT8 products, operations at the head of the queue, drains and copies (R37, R211, R213, R221 to R228, R237). -/

namespace Sys2Proof.Machine

/-! ### The slice arithmetic of INT32 regions (R37) -/

theorem sum_zip_eq_range {α β : Type} (f : α → β → Int) (da : α) (db : β) {n : Nat} {xs : List α} {ys : List β} (hx : xs.length = n) (hy : ys.length = n) :
    ((xs.zip ys).map fun p => f p.1 p.2).sum = ((List.range n).map fun k => f (xs.getD k da) (ys.getD k db)).sum := by
  refine congrArg List.sum (List.ext_getElem (by simp [hx, hy]) fun k h1 h2 => ?_)
  have hk : k < n := by simpa using h2
  have hkx : k < xs.length := hx ▸ hk
  have hky : k < ys.length := hy ▸ hk
  rw [List.getElem_map, List.getElem_map, List.getElem_range, List.getElem_zip, List.getD_eq_getElem xs _ hkx, List.getD_eq_getElem ys _ hky]

theorem foldl_add_eq_sum (l : List Int) : l.foldl (· + ·) 0 = l.sum := List.sum_eq_foldl.symm

theorem sliceSum_eq {xs ws : List Nat} (hx : xs.length = 128) (hw : ws.length = 128) :
    sliceSum xs ws = ((List.range 128).map fun k => (BitVec.ofNat 8 (xs.getD k 0)).toInt * (BitVec.ofNat 8 (ws.getD k 0)).toInt).sum := by
  rw [sliceSum, foldl_add_eq_sum, sum_zip_eq_range (fun x w => sext 8 x * sext 8 w) 0 0 hx hw]
  simp only [sext_eq_toInt_ofNat]

/-- An element of a region after a slice of INT8 products. -/
theorem addSlice_i32 {af wf : Nat} {sc : List Word} {a w : List (List Nat)} {acc : List (List Word)} {i j : Nat} (ha : a.length = 128)
    (hacc : acc.length = 128) (hi : i < 128) (hj : j < 256) (hrows : ∀ r ∈ acc, r.length = 256) :
    ((addSlice true af wf sc a w acc).getD i []).getD j 0 = (acc.getD i []).getD j 0 + BitVec.ofInt 32 (sliceSum (a.getD i []) (w.map fun r => r.getD j 0)) := by
  have hia : i < a.length := ha ▸ hi
  have hiacc : i < acc.length := hacc ▸ hi
  have hrow : acc[i].length = 256 := hrows _ (List.getElem_mem _)
  have hnew : (addSlice true af wf sc a w acc).getD i [] =
      (acc[i].zip ((List.range 256).map fun j => w.map fun r => r.getD j 0)).map fun p => p.1 + BitVec.ofInt 32 (sliceSum a[i] p.2) := by
    unfold addSlice
    rw [if_pos rfl, List.getD_eq_getElem _ _ (by simp [hia, hiacc]), List.getElem_map, List.getElem_zip]
  rw [hnew, List.getD_eq_getElem _ _ (by simp [hrow, hj]), List.getElem_map, List.getElem_zip, List.getElem_map, List.getElem_range,
    List.getD_eq_getElem _ _ hiacc, List.getD_eq_getElem _ _ hia, List.getD_eq_getElem _ _ (by rw [hrow]; exact hj)]

/-! ### The operation at the head of the queue -/

/-- The head of the queue is next, where it is of the kind that is asked for and not parked. -/
theorem nextOp_head {c : Core} {o : EngineOp} {rest : List EngineOp} {p : EngineOp → Bool} (he : c.engine = o :: rest) (hp : p o = true) (hk : o.park = none) :
    c.nextOp p = some o := by
  unfold Core.nextOp
  rw [he]
  unfold nextOp
  rw [if_pos (by simp [hp, hk])]

/-- The step of the operation at the head that is no MMA, no read into registers and no drain. -/
theorem engineOperationDone_head {s : State} {core : Nat} {o : EngineOp} {b : Block} {c : Ctx} (h : Rule.atHead s core o b c)
    (hkind : (match o.kind with
      | .mma .. | .accrd .. | .accdr .. => false
      | _ => true) = true) :
    exec (.engineOperationDone core) s = (match o.kind with
      | .wload fmt slot lo hi => conclude (s.doWload core b o fmt slot lo hi)
      | .accz a => conclude (((s.modRegion o.block a fun r => { r with data := [], spoiled := false }).spoil core o a).endOp core o)
      | .accwr a m k rows => conclude (s.doRows core o a [] [] (some (((s.regionRows (s.regionAt o.block a)).zip rows).map fun p => p.1.take k ++ p.2 ++ p.1.drop (k + m))))
      | .accld a src => conclude (s.doAccld core c o a src)
      | .rowmax a mask run d old regs => conclude (s.doRows core o a regs ((s.numbered o.block a).map fun p =>
          BitVec.ofNat 32 (if run = true then (fp32.pick true (old.getD p.1 0).toNat (rowLargest mask p.1 (d.getD p.1 0) p.2)).1
            else rowLargest mask p.1 (d.getD p.1 0) p.2)) none)
      | .rowexp a mask m k d regs =>
        let new := (s.numbered o.block a).map fun p => expRow mask p.1 (m.getD p.1 0) (k.getD p.1 0) (d.getD p.1 0) p.2
        conclude (s.doRows core o a regs (new.map rowSum) (some (new.map fun r => r.map (BitVec.ofNat 32))))
      | .rowsc a form f g k regs =>
        let fs := (List.range 128).map fun i => if form = 2 then xfFactor (f.getD i 0) (g.getD i 0) (k.getD i 0) else f.getD i 0
        conclude (s.doRows core o a regs fs (some ((s.numbered o.block a).map fun p => p.2.map fun x => scaleElem form x (fs.getD p.1 0))))
      | _ => conclude s) := by
  obtain ⟨-, hd, ⟨rest, he⟩, hp, hb, hc⟩ := h
  rw [show exec (.engineOperationDone core) s = execEngineOperationDone core s from rfl, execEngineOperationDone, hd]
  dsimp only
  rw [nextOp_head he hkind hp]
  dsimp only
  rw [hb, hc] <;> cases o.kind <;> rfl

theorem noteRegs_broken (s : State) (home : Nat) (rs : List Nat) : (s.noteRegs home rs).broken = s.broken := rfl

theorem putLanes_broken (s : State) (o : EngineOp) (regs : List (Option Nat)) (vals : List Word) : (s.putLanes o regs vals).broken = s.broken := by
  unfold State.putLanes
  dsimp only
  refine (foldl_frame State.broken _ (fun t i => ?_) _ _).trans (noteRegs_broken _ _ _)
  split
  · split
    · exact putResult_broken _ _ _ _
    · rfl
  · rfl

theorem spoil_broken (s : State) (core : Nat) (o : EngineOp) (a : Nat) : (s.spoil core o a).broken = s.broken := by
  unfold State.spoil
  split
  · rfl
  · split <;> rfl

theorem endOp_broken (s : State) (core : Nat) (o : EngineOp) : (s.endOp core o).broken = s.broken := by
  unfold State.endOp State.putScales
  rw [State.complete_broken]
  split
  · exact putLanes_broken _ _ _ _
  · rfl

theorem doRows_broken (s : State) (core : Nat) (o : EngineOp) (a : Nat) (regs : List (Option Nat)) (vals : List Word) (rows : Option (List (List Word))) :
    (s.doRows core o a regs vals rows).broken = s.broken := by
  unfold State.doRows
  rw [endOp_broken, spoil_broken, putLanes_broken]
  cases rows <;> rfl

/-- An operation at the head that was not hasty spoils no region. -/
theorem spoil_head {s : State} {core : Nat} {o : EngineOp} {rest : List EngineOp} (he : (s.core core).engine = o :: rest) (hh : o.hasty = false) (a : Nat) :
    s.spoil core o a = s := by
  unfold State.spoil
  rw [he, List.takeWhile_cons_of_neg (by simp), if_neg (by simp), if_neg (by simp [hh])]

theorem dropOp_engine (s : State) (core id : Nat) : ∀ p ∈ ((s.dropOp core id).core core).engine, p.id ≠ id := by
  intro p hp
  have hcore : (s.dropOp core id).core core = (s.modCore core fun c => { c with engine := c.engine.filter (fun o => o.id != id), ranges := c.ranges.filter (fun r => r.op != id) }).core core := rfl
  rw [hcore, State.modCore_core] at hp
  split at hp
  · simpa using (List.mem_filter.1 hp).2
  · next hno =>
    rw [State.core, List.getD_eq_default _ _ (by simpa using hno)] at hp
    exact absurd hp (by simp)

end Sys2Proof.Machine

namespace Sys2Proof.Proofs

open Machine

/-- R37: a slice of INT8 products. -/
theorem int8Slices (af wf : Nat) (sc : List Word) (a w : List (List Nat)) (acc : List (List Word)) (i j : Nat) (ha : a.length = 128) (hacc : acc.length = 128)
    (hw : w.length = 128) (hi : i < 128) (hj : j < 256) (hra : ∀ r ∈ a, r.length = 128) (hrows : ∀ r ∈ acc, r.length = 256) :
    ((addSlice true af wf sc a w acc).getD i []).getD j 0 = (acc.getD i []).getD j 0 +
      BitVec.ofInt 32 ((List.range 128).map fun k => (BitVec.ofNat 8 ((a.getD i []).getD k 0)).toInt * (BitVec.ofNat 8 ((w.getD k []).getD j 0)).toInt).sum := by
  have hrow : (a.getD i []).length = 128 := by
    rw [List.getD_eq_getElem _ _ (ha ▸ hi)]
    exact hra _ (List.getElem_mem _)
  rw [addSlice_i32 ha hacc hi hj hrows, sliceSum_eq hrow (by rw [List.length_map, hw])]
  refine congrArg (fun l => _ + BitVec.ofInt 32 (List.sum l)) (List.map_congr_left fun k hk => ?_)
  have hkw : k < w.length := hw ▸ List.mem_range.1 hk
  have hcol : (w.map fun r => r.getD j 0).getD k 0 = (w.getD k []).getD j 0 := by
    rw [List.getD_eq_getElem _ _ (by rwa [List.length_map]), List.getElem_map, List.getD_eq_getElem w _ hkw]
  rw [hcol]

/-- R221: ACCZ zeroes its region. -/
theorem acczDone {s : State} {core : Nat} {o : EngineOp} {b : Block} {c : Ctx} (h : Rule.atHead s core o b c) (hcore : core < s.cores.length) {a : Nat}
    (hk : o.kind = .accz a) (hh : o.hasty = false) : ∃ t, exec (.engineOperationDone core) s = .next t ∧ Rule.sameMemory s t ∧ t.vregs = s.vregs ∧
      t.uregs = s.uregs ∧ t.tiles = s.tiles ∧ (∀ r ∈ t.regions, r.block = o.block → r.index = a → r.data = []) ∧ (∀ p ∈ (t.core core).engine, p.id ≠ o.id) ∧
      ∀ k r, (k, r) ≠ (o.block, a) → t.region? k r = s.region? k r := by
  obtain ⟨hb, -, ⟨rest, he⟩, -⟩ := id h
  let z := s.modRegion o.block a fun r => { r with data := [], spoiled := false }
  have hend : (z.spoil core o a).endOp core o = (z.dropOp core o.id).complete o.lanes o.flag := by
    rw [spoil_head (s := z) he hh a, State.endOp, State.putScales, hk]
  have hstill := State.complete_still (z.dropOp core o.id) o.lanes o.flag
  obtain ⟨hv, hu, ht, hr, hm, -, -⟩ := State.still_eq_iff.1 hstill
  have hregions : ((z.dropOp core o.id).complete o.lanes o.flag).regions = z.regions := hr
  refine ⟨(z.dropOp core o.id).complete o.lanes o.flag, ?_, hm, hv, hu, ht, fun r hrm hrb hri => ?_, ?_, fun k r hne => ?_⟩
  · rw [engineOperationDone_head h (by rw [hk]), hk]
    exact (congrArg conclude hend).trans (conclude_next ((State.complete_broken _ _ _).trans hb))
  · rw [hregions] at hrm
    obtain ⟨q, -, rfl⟩ := List.mem_map.1 hrm
    by_cases hq : q.block = o.block ∧ q.index = a
    · rw [if_pos hq]
    · rw [if_neg hq] at hrb hri
      exact absurd ⟨hrb, hri⟩ hq
  · rw [State.core_of_cores (State.complete_cores _ _ _)]
    exact dropOp_engine z core o.id
  · rw [State.region?, hregions]
    exact State.modRegion_region?_other (s := s) (f := fun r => { r with data := [], spoiled := false }) (fun _ => ⟨rfl, rfl⟩) hne

/-- R215, R221 to R228: the other operations at the head of the queue. -/
theorem headsDone {s : State} {core : Nat} {o : EngineOp} {b : Block} {c : Ctx} (h : Rule.atHead s core o b c) :
    (∀ fmt slot lo hi, o.kind = .wload fmt slot lo hi → (s.doWload core b o fmt slot lo hi).broken = none →
      exec (.engineOperationDone core) s = .next (s.doWload core b o fmt slot lo hi)) ∧
    (∀ a src, o.kind = .accld a src → (s.doAccld core c o a src).broken = none → exec (.engineOperationDone core) s = .next (s.doAccld core c o a src)) ∧
    (∀ a m k rows, o.kind = .accwr a m k rows →
      let new := ((s.regionRows (s.regionAt o.block a)).zip rows).map fun p => p.1.take k ++ p.2 ++ p.1.drop (k + m)
      exec (.engineOperationDone core) s = .next (s.doRows core o a [] [] (some new))) ∧
    (∀ a mask run d old regs, o.kind = .rowmax a mask run d old regs →
      let vals := (s.numbered o.block a).map fun p =>
        let m := rowLargest mask p.1 (d.getD p.1 0) p.2
        BitVec.ofNat 32 (if run = true then (fp32.pick true (old.getD p.1 0).toNat m).1 else m)
      exec (.engineOperationDone core) s = .next (s.doRows core o a regs vals none)) ∧
    (∀ a mask m k d regs, o.kind = .rowexp a mask m k d regs →
      let new := (s.numbered o.block a).map fun p => expRow mask p.1 (m.getD p.1 0) (k.getD p.1 0) (d.getD p.1 0) p.2
      exec (.engineOperationDone core) s = .next (s.doRows core o a regs (new.map rowSum) (some (new.map fun r => r.map (BitVec.ofNat 32))))) ∧
    (∀ a form f g k regs, o.kind = .rowsc a form f g k regs →
      let fs := (List.range 128).map fun i => if form = 2 then xfFactor (f.getD i 0) (g.getD i 0) (k.getD i 0) else f.getD i 0
      let new := (s.numbered o.block a).map fun p => p.2.map fun x => scaleElem form x (fs.getD p.1 0)
      exec (.engineOperationDone core) s = .next (s.doRows core o a regs fs (some new))) := by
  obtain ⟨hb, -⟩ := id h
  have hrows : ∀ (a : Nat) (regs : List (Option Nat)) (vals : List Word) (rows : Option (List (List Word))),
      conclude (s.doRows core o a regs vals rows) = .next (s.doRows core o a regs vals rows) := fun a regs vals rows =>
    conclude_next ((doRows_broken s core o a regs vals rows).trans hb)
  refine ⟨fun fmt slot lo hi hk ht => ?_, fun a src hk ht => ?_, fun a m k rows hk => ?_, fun a mask run d old regs hk => ?_,
    fun a mask m k d regs hk => ?_, fun a form f g k regs hk => ?_⟩ <;> rw [engineOperationDone_head h (by rw [hk]), hk]
  · exact conclude_next ht
  · exact conclude_next ht
  · exact hrows _ _ _ _
  · exact hrows _ _ _ _
  · exact hrows _ _ _ _
  · exact hrows _ _ _ _

/-- R218: an MMA adds its next slice. -/
theorem mmaSlices {s : State} {core : Nat} {o : EngineOp} {b : Block} {c : Ctx} (h : Rule.atHead s core o b c) (region aFmt wFmt n : Nat) (pk : Bool)
    (a w : Span) (hk : o.kind = .mma region aFmt wFmt n pk a w) (hr : c.runs = true) (hf : b.frozen = false) (hi : (s.core core).idleSlices = 0) :
    let t := s.mmaSlice core b c o region aFmt wFmt n pk a w true
    t.broken = none → exec (.mmaSlice core) s = .next t := by
  intro t ht
  obtain ⟨-, hd, ⟨rest, he⟩, hp, hb, hc⟩ := h
  rw [show exec (.mmaSlice core) s = execMmaSlice core s from rfl, execMmaSlice, hd]
  dsimp only
  rw [nextOp_head he (show o.isMma = true by simp [EngineOp.isMma, hk]) hp]
  dsimp only
  rw [hk, hb, hc]
  dsimp only
  rw [hr, Bool.true_or, hf, hi, if_neg (by simp)]
  exact conclude_next ht

/-- The end of a drain writes the scales that it has chosen. -/
theorem endOp_drain (u : State) (core : Nat) (o : EngineOp) (i32 : Bool) (a fmt mode : Nat) (pk auto : Bool) (got : List Word) (regs : List (Option Nat))
    (dst : Span) (n : Nat) : u.endOp core { o with kind := .accdr i32 a fmt mode pk auto got regs dst n } =
      ((if auto = true then (u.dropOp core o.id).putLanes o regs got else u.dropOp core o.id).complete o.lanes o.flag) := by
  unfold State.endOp State.putScales
  cases auto <;> rfl

/-- R224: a drain goes on row after row. -/
theorem drainRows {s : State} {core : Nat} {o : EngineOp} {b : Block} {c : Ctx} (h : Rule.atHead s core o b c) (i32 : Bool) (a fmt mode : Nat) (pk auto : Bool)
    (scales : List Word) (regs : List (Option Nat)) (dst : Span) (i : Nat) (t : State) (hk : o.kind = .accdr i32 a fmt mode pk auto scales regs dst i)
    (hr : c.runs = true) (hf : b.frozen = false) :
    let xs := ((s.regionRows (s.regionAt o.block a)).getD i []).map (regionFl i32)
    let q := if auto = false then scales.getD i 0 else if o.raced = true then Config.freeWord s.tick i else autoScale fmt xs
    s.drainRow core c o fmt pk dst i (o.rowOut s.tick (mintRow fmt mode pk xs q)) = some (.ok t) →
    let u := t.spoil core o a
    let got := if auto = true then scales.take i ++ [q] else scales
    let p := { o with kind := .accdr i32 a fmt mode pk auto got regs dst (i + 1) }
    u.broken = none →
    (i < 127 → exec (.accdrRow core) s = .next (u.setOp core p)) ∧
    (127 ≤ i → (u.core core).drainBusy o.id = true →
      exec (.accdrRow core) s = .next ((u.dropOp core o.id).modCore core fun k => { k with drains := k.drains ++ [p] })) ∧
    (127 ≤ i → (u.core core).drainBusy o.id = false →
      exec (.accdrRow core) s = .next (((if auto = true then (u.dropOp core o.id).putLanes o regs got else u.dropOp core o.id).complete o.lanes o.flag))) := by
  intro xs q hrow u got p hub
  obtain ⟨-, hd, ⟨rest, he⟩, hp, hb, hc⟩ := h
  have hq : (if (!auto) = true then scales.getD i 0 else if o.raced = true then Config.freeWord s.tick i else autoScale fmt xs) = q := by
    unfold q
    cases auto <;> rfl
  have hexec : exec (.accdrRow core) s = if i < 127 then conclude (u.setOp core p)
      else if (u.core core).drainBusy p.id = true then conclude ((u.dropOp core p.id).modCore core fun k => { k with drains := k.drains ++ [p] })
      else conclude (u.endOp core p) := by
    rw [show exec (.accdrRow core) s = execAccdrRow core s from rfl, execAccdrRow, hd]
    dsimp only
    rw [nextOp_head he (by rw [hk]) hp]
    dsimp only
    rw [hk, hc]
    dsimp only
    rw [hr, Bool.true_or, hb, if_neg (by simp [hf]), hq, hrow]
  rw [hexec]
  refine ⟨fun hi => ?_, fun hi hbusy => ?_, fun hi hbusy => ?_⟩
  · rw [if_pos hi]
    exact conclude_next hub
  · rw [if_neg (by omega), if_pos hbusy]
    exact conclude_next hub
  · rw [if_neg (by omega), if_neg (by rw [show p.id = o.id from rfl, hbusy]; decide), endOp_drain]
    exact conclude_next ((endOp_drain u core o i32 a fmt mode pk auto got regs dst (i + 1) ▸ endOp_broken u core p).trans hub)

/-- R237, R238: a copy batch goes on. -/
theorem copySteps (s : State) (core i : Nat) (b : Batch) (k : Block) (c : Ctx) (hb : (s.core core).batches[i]? = some b) (hk : s.block? b.block = some k)
    (hc : s.ctx? b.ctx = some c) (hcan : s.blockCancelled b.block = false) (hp : b.park = none)
    (hgo : c.runs = true ∧ k.frozen = false ∨ (c.state = .running ∨ c.state = .preempting) ∧ b.atEdge = false) (hbusy : (s.core core).batchBusy b.id = false) :
    let go : State → Prop := fun t => t.broken = none → exec (.copyRequest core i) s = .next t
    (0 < b.sent → go (s.copied core k b (copyReq b.cur) (b.dst.shift (b.row * (copyReq b.cur).dpitch)) (b.len.getD 0) b.sent)) ∧
    (b.sent = 0 → b.cur ≠ [] → go (s.copyPiece core k c b)) ∧
    (b.sent = 0 → b.cur = [] → b.count ≤ b.next → go (s.endBatch core b)) ∧
    (b.sent = 0 → b.cur = [] → b.next < b.count → go (s.beginRequest core k c b)) := by
  intro go
  have hon : b.goesOn c k = true := by
    unfold Batch.goesOn
    split
    · rfl
    · next hno =>
      rcases hgo with ⟨hr, hf⟩ | ⟨hst, he⟩
      · simp [hr, hf] at hno
      · rcases hst with hst | hst <;> simp [hst, he]
  have hexec : exec (.copyRequest core i) s =
      if 0 < b.sent then conclude (s.copied core k b (copyReq b.cur) (b.dst.shift (b.row * (copyReq b.cur).dpitch)) (b.len.getD 0) b.sent)
      else if b.cur ≠ [] then conclude (s.copyPiece core k c b)
      else if b.count ≤ b.next then conclude (s.endBatch core b)
      else conclude (s.beginRequest core k c b) := by
    rw [show exec (.copyRequest core i) s = execCopyRequest core i s from rfl, execCopyRequest, hb]
    dsimp only
    rw [hk, hc]
    dsimp only
    rw [if_neg (by simp [hcan]), if_neg (by simp [hp, hon, hbusy])]
  refine ⟨fun h0 ht => ?_, fun h0 h1 ht => ?_, fun h0 h1 h2 ht => ?_, fun h0 h1 h2 ht => ?_⟩ <;> rw [hexec]
  · rw [if_pos h0]
    exact conclude_next ht
  · rw [if_neg (by omega), if_pos h1]
    exact conclude_next ht
  · rw [if_neg (by omega), if_neg (by simp [h1]), if_pos h2]
    exact conclude_next ht
  · rw [if_neg (by omega), if_neg (by simp [h1]), if_neg (by omega)]
    exact conclude_next ht

/-- Settles O51: the slice arithmetic, the engine's operations and the copies. -/
theorem engineSteps : Obligations.EngineSteps := by
  refine ⟨int8Slices, fun s core o b c h hcore => ?_, copySteps⟩
  obtain ⟨hwload, haccld, haccwr, hrowmax, hrowexp, hrowsc⟩ := headsDone h
  exact ⟨fun a hk hh => acczDone h hcore hk hh, hwload, haccld, haccwr, hrowmax, hrowexp, hrowsc, mmaSlices h, drainRows h⟩

end Sys2Proof.Proofs
end


section
/-! PROOFS. TDSET_DONE, pass steps of a PLACE, the prologue and the start of a block (R214, R232, R266, R267, R330 to R333). -/

namespace Sys2Proof.Machine

/-! ### Homes of home groups -/

/-- The home groups with their home slots: what the Orrery's steps leave of them. -/
def State.roster (s : State) := s.groups.map fun g => (g.block, g.index, g.home)

theorem home_of_roster {s t : State} (h : t.roster = s.roster) (b : BlockKey) (g : Nat) : (t.group? b g).map (·.home) = (s.group? b g).map (·.home) := by
  have hfind : ∀ u : State, (u.group? b g).map (·.home) = (u.roster.find? fun x => decide (x.1 = b) && decide (x.2.1 = g)).map (·.2.2) := fun u => by
    rw [State.roster, List.find?_map, Option.map_map]
    rfl
  rw [hfind, hfind, h]

theorem roster_of_groups {s t : State} (h : t.groups = s.groups) : t.roster = s.roster := by rw [State.roster, State.roster, h]

theorem roster_mapGroups {s t : State} (f : Group → Group) (hf : ∀ g, (f g).block = g.block ∧ (f g).index = g.index ∧ (f g).home = g.home)
    (h : t.groups = s.groups.map f) : t.roster = s.roster := by
  rw [State.roster, h, List.map_map]
  refine List.map_congr_left fun g _ => ?_
  obtain ⟨h1, h2, h3⟩ := hf g
  simp [Function.comp, h1, h2, h3]

theorem groups_of_bareOfContexts {s t : State} (h : t.bareOfContexts = s.bareOfContexts) : t.groups = s.groups := by
  have h' := congrArg State.groups h
  exact h'

theorem homeWrite_bare {s t : State} {c : Ctx} {obj off n : Nat} {f : List Byte → Option (List Byte)} {old : List Byte} {ue : Bool}
    (h : s.homeWrite c obj off n f = .ok t old ue) : t.bareOfContexts = s.bareOfContexts := by
  unfold State.homeWrite at h
  split at h
  · next s1 old1 ue1 hr =>
    obtain ⟨b, rfl⟩ := homeRead_eq hr
    split at h
    · obtain ⟨rfl, -, -⟩ := Home.ok.inj h
      rfl
    · split at h
      · next s2 p hb =>
        obtain ⟨rfl, -, -⟩ := Home.ok.inj h
        have h2 := beforeWrite_bare hb
        exact (State.bareOfContexts_of_bare (State.write_bare s2 p _)).trans h2
      · simp at h
  · next hno => exact absurd h (hno t old ue)

theorem noteRegs_roster (s : State) (home : Nat) (rs : List Nat) : (s.noteRegs home rs).roster = s.roster :=
  roster_mapGroups (fun g => if g.home = home then { g with unreadyRegs := rs.filter (fun r => !g.unreadyRegs.contains r) ++ g.unreadyRegs } else g)
    (fun g => by split <;> exact ⟨rfl, rfl, rfl⟩) rfl

theorem engineStores_roster (s : State) (core a : Nat) (bs : List Byte) : (s.engineStores core a bs).roster = s.roster := by
  have hstore : (s.engineStores core a bs).groups = (s.noteUnready core none a bs.length).groups := by
    obtain ⟨hn, -⟩ := (s.noteUnready core none a bs.length).noteStray_spec core a bs.length
    refine (groups_of_bareOfContexts (State.bareOfContexts_of_bare (State.write_bare _ _ _))).trans ?_
    rw [hn]
  have hkeep : ∀ (p : Bool) (g : Group) (l : List (Nat × Nat × Nat)), (if p = true then { g with unready := l } else g).block = g.block ∧
      (if p = true then { g with unready := l } else g).index = g.index ∧ (if p = true then { g with unready := l } else g).home = g.home := by
    intro p g l
    cases p <;> exact ⟨rfl, rfl, rfl⟩
  exact (roster_of_groups hstore).trans (roster_mapGroups (s := s) _ (fun g => hkeep _ g _) rfl)

theorem putRegElem_groups (s : State) (h r l sh size v : Nat) : (s.putRegElem h r l sh size v).groups = s.groups := by
  unfold State.putRegElem
  split <;> rfl

theorem writeElem_roster (s : State) (core : Nat) (c : Ctx) (o : PlaceOp) (size : Nat) (e : ElemAt) (bs : List Byte) :
    (s.writeElem core c o size e bs).roster = s.roster := by
  unfold State.writeElem
  split
  · exact (noteRegs_roster _ _ _).trans (roster_of_groups (putRegElem_groups _ _ _ _ _ _ _))
  · exact engineStores_roster s core _ bs
  · split
    · next t _ _ hw => exact roster_of_groups (s := s) (t := t) (groups_of_bareOfContexts (homeWrite_bare hw))
    · rfl
    · exact roster_of_groups (groups_of_bareOfContexts (State.errorRecord_bare _ _ _))
    · rfl
  · rfl

theorem freeElem_roster (s : State) (core : Nat) (c : Ctx) (o : PlaceOp) (size i : Nat) (e : ElemAt) : (s.freeElem core c o size i e).roster = s.roster := by
  unfold State.freeElem
  dsimp only
  split
  · split
    · rfl
    · rfl
    · rfl
    · exact writeElem_roster _ _ _ _ _ _ _
  · exact writeElem_roster _ _ _ _ _ _ _

theorem freeSpans_roster (s : State) (o : PlaceOp) (d : Desc) (keep : Option (List Byte)) (first : Nat) : (s.freeSpans o d keep first).roster = s.roster := by
  unfold State.freeSpans
  split
  · exact foldl_frame State.roster _ (fun t e => freeElem_roster t _ _ _ _ _ _) _ s
  · rfl

theorem endSpans_roster (s : State) (o : PlaceOp) : (s.endSpans o).roster = s.roster := by
  unfold State.endSpans
  dsimp only
  split <;> split
  · exact freeSpans_roster _ _ _ _ _
  · exact (freeSpans_roster _ _ _ _ _).trans (freeSpans_roster _ _ _ _ _)
  · rfl
  · exact freeSpans_roster _ _ _ _ _

/-! ### Steps of a PLACE leave the machine sound -/

theorem putCursor_broken (s : State) (o : PlaceOp) (bs : List Byte) : (s.putCursor o bs).broken = s.broken := by
  unfold State.putCursor
  split <;> rfl

theorem putCursor_frame (s : State) (o : PlaceOp) (bs : List Byte) : Rule.sameMemory s (s.putCursor o bs) ∧ (s.putCursor o bs).vregs = s.vregs := by
  unfold State.putCursor
  split <;> exact ⟨⟨rfl, rfl, rfl⟩, rfl⟩

theorem retarget_frame (s : State) (o : PlaceOp) (last : Bool) : (s.retarget o last).still = s.still ∧ (s.retarget o last).groups = s.groups := by
  unfold State.retarget
  split <;> exact ⟨rfl, rfl⟩

theorem retarget_broken (s : State) (o : PlaceOp) (last : Bool) : (s.retarget o last).broken = s.broken := by
  obtain ⟨-, -, -, -, -, hb, -⟩ := State.still_eq_iff.1 (retarget_frame s o last).1
  exact hb

theorem dropNotes_broken (s : State) (o : PlaceOp) (d : Desc) : (s.dropNotes o d).broken = s.broken := by
  refine foldl_frame State.broken _ (fun t m => ?_) _ s
  split <;> rfl

theorem exchange_broken (s : State) (o : PlaceOp) : (s.exchange o).broken = s.broken := by
  unfold State.exchange
  split <;> rfl

theorem afterStep_broken (s : State) (o : PlaceOp) (p : Pass) : (s.afterStep o p).broken = s.broken := by
  unfold State.afterStep
  dsimp only
  rw [retarget_broken, putCursor_broken]
  show (if _ then _ else _ : State).broken = _
  split
  · rw [exchange_broken]
    split
    · exact dropNotes_broken _ _ _
    · rfl
  · split
    · exact dropNotes_broken _ _ _
    · rfl

/-! ### The end of a PLACE -/

theorem tileByte_zero (i : Nat) : tileByte i 0 = 0 := by
  unfold tileByte
  split
  · rfl
  · split
    · rfl
    · split <;> rfl

theorem putTile_zeros (s : State) (h t i n : Nat) : (s.putTile h t i (zeros n)).tiles = sputL s.tiles (tkey h t i) (zeros n) := by
  unfold State.putTile
  refine congrArg (sputL s.tiles (tkey h t i)) (List.eq_replicate_iff.2 ⟨by simp [zeros], fun b hb => ?_⟩)
  obtain ⟨p, hp, rfl⟩ := List.mem_map.1 hb
  have hz : p.1 ∈ zeros n := List.fst_mem_of_mem_zipIdx hp
  rw [List.eq_of_mem_replicate hz, tileByte_zero]

theorem sgetN_sputL {w : Nat} (m : Sparse w) (k : Nat) (vs : List (BitVec w)) : sgetN (sputL m k vs) k vs.length = vs :=
  sgetN_eq_of_sget fun i hi => sget_sputL_inside m vs hi

/-- A PLACE that is over has left cursor 0 in its destination's tile, and its place in the Orrery. -/
theorem retirePlace_spec (s : State) (o : PlaceOp) :
    let t := s.retirePlace o (zeros 16)
    (∀ p ∈ t.places, p.id ≠ o.id) ∧ Rule.sameMemory s t ∧ t.vregs = s.vregs ∧ t.broken = s.broken ∧
      ∀ g, s.group? o.block o.group = some g → sgetN t.tiles (tkey g.home o.tD 0x50) 16 = zeros 16 := by
  intro t
  let u := s.putCursor o (zeros 16)
  have hu : Rule.sameMemory s u ∧ u.vregs = s.vregs := putCursor_frame s o (zeros 16)
  obtain ⟨hv, -, ht, -, hm, hb, -⟩ := State.still_eq_iff.1 (State.complete_still u o.lanes o.flag)
  obtain ⟨h1, h2, h3⟩ := hm
  obtain ⟨⟨h1', h2', h3'⟩, hv'⟩ := hu
  have hplaces : t.places = (u.complete o.lanes o.flag).places.filter fun p => p.id != o.id := rfl
  have hgone : ∀ p ∈ t.places, p.id ≠ o.id := fun p hp => by
    rw [hplaces] at hp
    simpa using (List.mem_filter.1 hp).2
  refine ⟨hgone, ⟨h1.trans h1', h2.trans h2', h3.trans h3'⟩, hv.trans hv',
    hb.trans (putCursor_broken _ _ _), fun g hg => ?_⟩
  have htiles : t.tiles = sputL s.tiles (tkey g.home o.tD 0x50) (zeros 16) := by
    refine ht.trans ?_
    unfold u State.putCursor
    rw [hg]
    exact putTile_zeros s g.home o.tD 0x50 16
  rw [htiles]
  exact sgetN_sputL s.tiles (tkey g.home o.tD 0x50) (zeros 16)

end Sys2Proof.Machine

namespace Sys2Proof.Proofs

open Machine

/-- R214, R232: the loading of a tile ends. -/
theorem tdsetsDone (s : State) (b : BlockKey) (g tile : Nat) (x : Group) (l : Nat × Option Nat) (hb : s.broken = none) (hx : s.group? b g = some x)
    (hl : x.loading.find? (fun l => l.1 == tile) = some l) : ∃ t, exec (.tdsetDone b g tile) s = .next t ∧ t.tileLoading b g tile = false ∧
      Rule.sameMemory s t ∧ Rule.sameRegisters s t ∧ t.threads = (s.complete (((s.groupThreads b g).filter fun th => th.alive).map (·.tid)) l.2).threads := by
  let u := s.modGroup b g fun x => { x with loading := x.loading.filter fun k => k.1 != tile }
  let lanes := ((s.groupThreads b g).filter fun th => th.alive).map (·.tid)
  obtain ⟨hv, hu, ht, hr, hm, hbr, -⟩ := State.still_eq_iff.1 (State.complete_still u lanes l.2)
  have hgroups : (u.complete lanes l.2).groups = u.groups := by cases l.2 <;> rfl
  have hfills : (u.complete lanes l.2).fills = u.fills := State.complete_fills _ _ _
  refine ⟨u.complete lanes l.2, ?_, ?_, hm, ⟨hv, hfills, hu, ht, hr⟩, by cases l.2 <;> rfl⟩
  · rw [show exec (.tdsetDone b g tile) s = execTdsetDone b g tile s from rfl, execTdsetDone, hx]
    dsimp only
    rw [hl]
    exact conclude_next (hbr.trans hb)
  · unfold State.tileLoading State.group?
    rw [hgroups]
    cases hf : u.groups.find? fun x => decide (x.block = b) && decide (x.index = g) with
    | none => rfl
    | some y =>
      obtain ⟨y', -, rfl⟩ := List.mem_map.1 (List.mem_of_find?_eq_some hf)
      have hy := List.find?_some hf
      rw [Bool.and_eq_true, decide_eq_true_eq, decide_eq_true_eq] at hy
      by_cases hm : y'.block = b ∧ y'.index = g
      · rw [if_pos hm]
        simp
      · rw [if_neg hm] at hy
        exact absurd hy hm

/-- R330 to R333: the next pass step of a PLACE, or its end. -/
theorem passSteps (s : State) (i : Nat) (o : PlaceOp) (b : Block) (c : Ctx) (hb : s.broken = none) (ho : s.places[i]? = some o) (hk : s.block? o.block = some b)
    (hc : s.ctx? o.ctx = some c) (hcan : s.blockCancelled o.block = false) (hp : o.park = none) (hr : c.runs = true) (hf : b.frozen = false)
    (hu : s.unitsOff = false) (hv : ∀ x ∈ o.objs, s.vaultOff c x.2 = false) (hreq : ∀ r ∈ s.requests, r.id = o.id → r.refused = false) :
    (o.passes[o.pass]? = none → (s.core b.core).placeBusy o.id = false → (s.finishPlace c o).broken = none → exec (.placePassStep i) s = .next (s.finishPlace c o)) ∧
    (o.passes[o.pass]? = none → (s.core b.core).placeBusy o.id = false → o.setDesc = none → (s.endSpans o).broken = none → ∃ t, exec (.placePassStep i) s = .next t ∧
      (∀ p ∈ t.places, p.id ≠ o.id) ∧ (o.tD = o.tS → o.dirty = false → Rule.sameMemory s t ∧ t.vregs = s.vregs) ∧ ∀ g, s.group? o.block o.group = some g → sgetN t.tiles (tkey g.home o.tD 0x50) 16 = zeros 16) ∧
    (∀ p, o.passes[o.pass]? = some p → o.made = true → (s.core b.core).placeBusy o.id = false → exec (.placePassStep i) s = .next (s.afterStep o p)) ∧
    (∀ p t, o.passes[o.pass]? = some p → o.made = false → s.placeStep b c o p = .ok t → t.broken = none → (t.core b.core).placeBusy o.id = true →
      exec (.placePassStep i) s = .next (t.stepMade o.id)) ∧
    (∀ p t q, o.passes[o.pass]? = some p → o.made = false → s.placeStep b c o p = .ok t → t.broken = none → (t.core b.core).placeBusy o.id = false →
      t.places.find? (fun q => q.id == o.id) = some q → exec (.placePassStep i) s = .next (t.afterStep o p) ∧
      (q.lastStep p = false →
        let q' := { q with step := q.step + 1, made := false }
        t.afterStep o p = (((({ t with fetched := t.fetched.filter fun x => x.id % 2 ^ 120 != q.id }).setPlace q').putCursor q' (q'.cursor 1)).retarget q' false))) := by
  have hexec : exec (.placePassStep i) s = match o.passes[o.pass]? with
      | none => if (s.core b.core).placeBusy o.id then conclude s else conclude (s.finishPlace c o)
      | some p => if o.made then (if (s.core b.core).placeBusy o.id then conclude s else conclude (s.afterStep o p)) else match s.placeStep b c o p with
        | .ok t => if (t.core b.core).placeBusy o.id then conclude (t.stepMade o.id) else conclude (t.afterStep o p)
        | .wait t => conclude t
        | .park w token why obj off => conclude (s.parkPlace b.core c o w token why obj off)
        | .fail e => conclude (s.failPlace o e)
        | .internal => conclude (s.faultCtxBare o.ctx reasonInternal) := by
    have hany : ¬(o.park.isSome = true ∨ c.runs = false ∨ b.frozen = true ∨ s.unitsOff = true ∨ o.objs.any (fun x => s.vaultOff c x.2) = true) := by
      simp only [hp, hr, hf, hu, Option.isSome_none, Bool.false_eq_true, false_or, List.any_eq_true, not_exists, not_and, or_self]
      simpa using fun x y hx => hv (x, y) hx
    have hsent : ¬(s.requests.any fun r => r.id == o.id && r.refused) = true := by
      simp only [List.any_eq_true, not_exists, not_and, Bool.and_eq_true, beq_iff_eq]
      exact fun r hrm hid => by simp [hreq r hrm hid]
    rw [show exec (.placePassStep i) s = execPlacePassStep i s from rfl, execPlacePassStep, ho]
    dsimp only
    rw [hk, hc]
    dsimp only
    rw [if_neg (by simp [hcan]), if_neg hany, if_neg hsent] <;> rfl
  rw [hexec]
  refine ⟨fun hn hbusy ht => ?_, fun hn hbusy hd ht => ?_, fun p hps hmade hbusy => ?_, fun p t hps hmade hstep ht hbusy => ?_,
    fun p t q hps hmade hstep ht hbusy hq => ⟨?_, fun hlast => ?_⟩⟩
  · rw [hn]
    dsimp only
    rw [if_neg (by simp [hbusy])]
    exact conclude_next ht
  · let e := s.endSpans o
    let w := e.retarget o true
    obtain ⟨hstill, hgroups⟩ := retarget_frame e o true
    obtain ⟨hv, -, -, -, ⟨h1, h2, h3⟩, hbr, -⟩ := State.still_eq_iff.1 hstill
    obtain ⟨hplaces, ⟨h1', h2', h3'⟩, hv', hb', hcursor⟩ := retirePlace_spec w o
    refine ⟨w.retirePlace o (zeros 16), ?_, hplaces, fun hsame hdirty => ?_, fun g hg => ?_⟩
    · rw [hn]
      dsimp only
      rw [if_neg (by simp [hbusy]), show s.finishPlace c o = w.retirePlace o (zeros 16) by rw [State.finishPlace, hd]]
      exact conclude_next (hb'.trans (hbr.trans ht))
    · have he : e = s := by
        unfold e
        simp [State.endSpans, PlaceOp.same, hsame, hdirty]
      exact ⟨⟨h1'.trans (h1.trans (congrArg State.vault he)), h2'.trans (h2.trans (congrArg State.pool he)),
        h3'.trans (h3.trans (congrArg State.locals he))⟩, hv'.trans (hv.trans (congrArg State.vregs he))⟩
    · have hhome : (w.group? o.block o.group).map (·.home) = some g.home := by
        rw [home_of_roster ((roster_of_groups hgroups).trans (endSpans_roster s o)), hg]
        rfl
      obtain ⟨g', hg', heq⟩ := Option.map_eq_some_iff.1 hhome
      rw [← heq]
      exact hcursor g' hg'
  · rw [hps]
    dsimp only
    rw [if_pos hmade, if_neg (by simp [hbusy])]
    exact conclude_next ((afterStep_broken s o p).trans hb)
  · rw [hps]
    dsimp only
    rw [if_neg (by simp [hmade]), hstep]
    dsimp only
    rw [if_pos hbusy]
    exact conclude_next ht
  · rw [hps]
    dsimp only
    rw [if_neg (by simp [hmade]), hstep]
    dsimp only
    rw [if_neg (by simp [hbusy])]
    exact conclude_next ((afterStep_broken t o p).trans ht)
  · have hid : q.id = o.id := by simpa using List.find?_some hq
    unfold State.afterStep
    dsimp only
    rw [hq, Option.getD_some, hlast, hid]
    rfl

/-- R266, R267: the prologue places one binding's bytes. -/
theorem prologues (s : State) (key : BlockKey) (b : Block) (i : Nat) (l : Launch) (c : Ctx) (r bs : List Byte) (hk : s.block? key = some b)
    (hp : b.phase = .prologue i none) (hl : s.launchOf key = some l) (hc : s.ctx? b.ctx = some c) (hi : i < l.header.bindings) (hs : b.spawned = none)
    (hr : c.runs = true) (hb : l.header.binds[i]? = some r) (hbs : s.bindBytes b c l.args r = .ok (.full bs)) :
    let t := s.storeLocal b.core (b.localBase + field r 4 4) bs
    t.broken = none → exec (.prologue key) s =
      .next ({ t with fetched := t.fetched.filter fun x => x.id != prologueId key }.modBlock key fun b => { b with phase := .prologue (i + 1) none }) := by
  intro t ht
  rw [show exec (.prologue key) s = execPrologue key s from rfl, execPrologue, hk]
  dsimp only
  rw [hp, hl, hc]
  dsimp only
  rw [if_neg (by simp [hs, hr]; omega), hb]
  dsimp only
  rw [hbs]
  exact conclude_next ht

/-- R266: a block starts after its last binding. -/
theorem blockStarts (s : State) (key : BlockKey) (b : Block) (i : Nat) (hb : s.broken = none) (hk : s.block? key = some b) (hp : b.phase = .prologue i none) :
    (((s.headerOf key).map (·.bindings)).getD 0 ≤ i ∨ b.spawned ≠ none → exec (.blockStart key) s = .next (s.modBlock key fun b => { b with phase := .running })) ∧
    (i < ((s.headerOf key).map (·.bindings)).getD 0 → b.spawned = none → exec (.blockStart key) s = .next s) := by
  rw [show exec (.blockStart key) s = execBlockStart key s from rfl, execBlockStart, hk]
  dsimp only
  rw [hp]
  dsimp only
  refine ⟨fun h => ?_, fun hi hs => ?_⟩
  · rw [if_neg]
    · exact conclude_next hb
    · rintro ⟨hi, hs⟩
      rcases h with h | h
      · omega
      · exact h (Option.isNone_iff_eq_none.1 hs)
  · rw [if_pos ⟨hi, by simp [hs]⟩]
    exact conclude_next hb

/-- Settles O52, a theorem for each of its steps. -/
theorem placementSteps : Obligations.PlacementSteps := ⟨tdsetsDone, passSteps, prologues, blockStarts⟩

end Sys2Proof.Proofs
end

section
/-! PROOFS. O53: what a unit writes leaves of the state; records taken and refused, and the states of a queue. -/

namespace Sys2Proof.Machine

/-! ### What the writes of a unit leave (R356) -/

/-- A state without memory, contexts and fabric requests: what no write of a unit changes. -/
def State.bareOfUnits (s : State) : State :=
  { s.bareOfContexts with fetched := [], outbox := [], requests := [], nextTags := [], nextId := 0 }

theorem State.bareOfUnits_of_contexts {s t : State} (h : t.bareOfContexts = s.bareOfContexts) : t.bareOfUnits = s.bareOfUnits := by
  rw [State.bareOfUnits, State.bareOfUnits, h]

theorem State.queues_of_bareOfUnits {s t : State} (h : t.bareOfUnits = s.bareOfUnits) : t.queues = s.queues := by
  have h' := congrArg State.queues h
  exact h'

@[simp] theorem State.unitSend_bareOfUnits (s : State) (id : Nat) (p : Packet) : (s.unitSend id p).bareOfUnits = s.bareOfUnits := rfl

@[simp] theorem State.unitPut_bareOfUnits (s : State) (ctx obj dev fuel off : Nat) (bs : List Byte) :
    (s.unitPut ctx obj dev fuel off bs).bareOfUnits = s.bareOfUnits := by
  induction fuel generalizing s off bs with
  | zero => rfl
  | succ fuel ih =>
    unfold State.unitPut
    dsimp only
    split
    · rfl
    · rw [ih]
      rfl

theorem State.unitWriteFrom_bareOfUnits {s t : State} {c : Ctx} {obj fuel off : Nat} {bs : List Byte}
    (h : s.unitWriteFrom c obj fuel off bs = some t) : t.bareOfUnits = s.bareOfUnits := by
  induction fuel generalizing s off bs with
  | zero => exact absurd h (by simp [State.unitWriteFrom])
  | succ fuel ih =>
    unfold State.unitWriteFrom at h
    split at h
    · dsimp only at h
      split at h
      · next u p hu =>
        have hkeep (v : List Byte) : (u.write p v).bareOfUnits = s.bareOfUnits :=
          (State.bareOfUnits_of_contexts (State.bareOfContexts_of_bare (State.write_bare u p v))).trans
            (State.bareOfUnits_of_contexts (beforeWrite_bare hu))
        split at h
        · rw [← Option.some.inj h, hkeep]
        · rw [ih h, hkeep]
      · exact absurd h (by simp)
    · split at h
      · exact absurd h (by simp)
      · rw [← Option.some.inj h, State.unitPut_bareOfUnits]
    · exact absurd h (by simp)

theorem State.unitWrite_bareOfUnits {s t : State} {c : Ctx} {obj off : Nat} {bs : List Byte} (h : s.unitWrite c obj off bs = some t) :
    t.bareOfUnits = s.bareOfUnits := by
  unfold State.unitWrite at h
  split at h
  · exact absurd h (by simp)
  · exact State.unitWriteFrom_bareOfUnits h

theorem State.counterStatus_bareOfUnits {s t : State} {c : Ctx} {a : Nat × Nat} {code detail : Nat} (h : s.counterStatus c a code detail = some t) :
    t.bareOfUnits = s.bareOfUnits := by
  unfold State.counterStatus at h
  split at h
  · exact absurd h (by simp)
  · split at h
    · rw [← Option.some.inj h]
    · exact State.unitWrite_bareOfUnits h

/-! ### The state of a queue (R259) -/

theorem State.queue?_modQueue_same {s : State} {i : Nat} {q : Queue} (f : Queue → Queue) (h : s.queue? i = some q) :
    (s.modQueue i f).queue? i = some (f q) := by
  unfold State.queue? at h ⊢
  simp [State.modQueue, List.getElem?_modify, h]

/-- A queue put in a state is in that state, with everything else as it was. -/
theorem State.queue?_setQueueState {s : State} {i : Nat} {q : Queue} (st : QueueState) (h : s.queue? i = some q) :
    (s.setQueueState i st).queue? i = some { q with state := st } := by
  have hmod := State.queue?_modQueue_same (fun x => { x with state := st }) h
  rw [State.setQueueState, h]
  dsimp only
  split
  · next c hc =>
    cases hw : (s.modQueue i fun x => { x with state := st }).qPut c q 0x09 1 st.code with
    | none => exact hmod
    | some t =>
      have hq : t.queues = _ := State.queues_of_bareOfUnits (State.unitWrite_bareOfUnits hw)
      rw [Option.getD_some, State.queue?, hq]
      exact hmod
  · exact hmod

/-- R259: a record that fails leaves its queue in ERROR at the record. -/
theorem failQueue_errors {s t : State} {i : Nat} {c : Ctx} {q : Queue} {head code detail : Nat} {bad : List Byte} (hq : s.queue? i = some q)
    (h : s.failQueue c i q head code detail bad = some t) : ∃ x, t.queue? i = some x ∧ x.state = .error ∧ x.atHead = true := by
  unfold State.failQueue at h
  obtain ⟨v, hv, rfl⟩ := Option.map_eq_some_iff.1 h
  obtain ⟨u, hu, hv⟩ := Option.bind_eq_some_iff.1 hv
  have hqu : u.queues = s.queues := State.queues_of_bareOfUnits (State.unitWrite_bareOfUnits hu)
  have hqv : v.queues = u.queues := by
    split at hv
    · exact State.queues_of_bareOfUnits (State.counterStatus_bareOfUnits hv)
    · rw [Option.some.inj hv]
  have hvq : v.queue? i = some q := by rw [State.queue?, hqv, hqu]; exact hq
  exact ⟨_, State.queue?_modQueue_same _ (State.queue?_setQueueState .error hvq), rfl, rfl⟩

/-! ### Records at the head (R255, R257) -/

theorem State.served_queue {s : State} {i : Nat} {c : Ctx} {q : Queue} (h : s.served i = some (c, q)) : s.queue? i = some q := by
  unfold State.served at h
  split at h
  · exact absurd h (by simp)
  · next x hx =>
    split at h
    · exact absurd h (by simp)
    · split at h
      · exact absurd h (by simp)
      · rw [hx, ← (Prod.mk.inj (Option.some.inj h)).2]

/-- The queue of a record that stands at a head. -/
theorem State.headOf_queue {s : State} {i : Nat} {c : Ctx} {q : Queue} {head : Nat} {r : List Byte} {t : Take}
    (h : s.headOf i = some (c, q, head, r, t)) : s.queue? i = some q := by
  unfold State.headOf at h
  split at h
  · exact absurd h (by simp)
  · next x y hs =>
    split at h
    · split at h
      · exact absurd h (by simp)
      · split at h
        · exact absurd h (by simp)
        · simp only [Option.some.injEq, Prod.mk.injEq] at h
          rw [State.served_queue hs, h.2.1]
    · exact absurd h (by simp)

section
variable {kinds : Nat → Bool} {i : Nat} {body : State → Ctx → Queue → Nat → List Byte → Option State} {s v : State} {c : Ctx} {q : Queue} {head : Nat}
  {r : List Byte}

/-- A record whose turn it is is taken with its effect. -/
theorem takeRecord_yes (h : Rule.atTurn (s.refreshQueue i) i c q head r .yes) (hk : kinds (field r 0 1) = true)
    (hb : body (s.refreshQueue i) c q head r = some v) :
    takeRecord kinds i body s = conclude ((v.refreshQueue i).unitForget c.num) := by
  obtain ⟨hh, hs, ht⟩ := h
  simp [takeRecord, State.headOf_queue hh, hh, hk, hs, ht, hb]

/-- A record about which nothing is decided yet has its queue wait. -/
theorem takeRecord_no (h : (s.refreshQueue i).headOf i = some (c, q, head, r, .no)) (hk : kinds (field r 0 1) = true) :
    takeRecord kinds i body s = conclude ((s.refreshQueue i).queueWaits c q) := by
  simp [takeRecord, State.headOf_queue h, h, hk]

/-- A record that fails its checks takes its queue to ERROR, once that can be written. -/
theorem takeRecord_bad {code detail : Nat} {bad : List Byte} (h : Rule.atTurn (s.refreshQueue i) i c q head r (.bad code detail bad))
    (hk : kinds (field r 0 1) = true) :
    takeRecord kinds i body s = match (s.refreshQueue i).failQueue c i q head code detail bad with
      | some t => conclude (t.unitForget c.num)
      | none => conclude ((s.refreshQueue i).ptrWaits c (recPtr bad 0x18) 16) := by
  obtain ⟨hh, hs, ht⟩ := h
  simp only [takeRecord, State.headOf_queue hh, hh, hk, hs, ht]
  rfl

end

end Sys2Proof.Machine

namespace Sys2Proof.Proofs
open Machine

theorem exec_launch (i : Nat) (s : State) : exec (.launch i) s = execLaunch i s := rfl
theorem exec_wait (i : Nat) (s : State) : exec (.wait i) s = execWait i s := rfl
theorem exec_signal (i : Nat) (s : State) : exec (.signal i) s = execSignal i s := rfl
theorem exec_prefetch (i : Nat) (s : State) : exec (.prefetch i) s = execPrefetch i s := rfl
theorem exec_graph (i : Nat) (s : State) : exec (.graph i) s = execGraph i s := rfl

/-- The step that takes a record accepts the record's kind. -/
theorem taker_takes (i : Nat) (r : List Byte) (s : State) :
    ∃ kinds body, exec (Rule.taker i r) s = takeRecord kinds i body s ∧ kinds (field r 0 1) = true := by
  unfold Rule.taker
  split
  · next h =>
    rw [exec_wait, execWait]
    exact ⟨_, _, rfl, by simp [h]⟩
  · next h =>
    rw [exec_signal, execSignal]
    exact ⟨_, _, rfl, by simp [h]⟩
  · next h =>
    rw [exec_prefetch, execPrefetch]
    exact ⟨_, _, rfl, by simp [h]⟩
  · next h =>
    rw [exec_graph, execGraph]
    exact ⟨_, _, rfl, by simp [h]⟩
  · next h2 h3 h4 h5 =>
    rw [exec_launch, execLaunch]
    refine ⟨_, _, rfl, ?_⟩
    have hrest : field r 0 1 ≠ 2 ∧ field r 0 1 ≠ 3 ∧ field r 0 1 ≠ 4 ∧ field r 0 1 ≠ 5 := ⟨h2, h3, h4, h5⟩
    simp only [Bool.or_eq_true, beq_iff_eq, decide_eq_true_eq]
    omega

section
variable {s : State} {i : Nat} {c : Ctx} {q : Queue} {head : Nat} {r : List Byte}

/-- R257: a launch, a WAIT or a SIGNAL is taken with its effect. -/
theorem recordTaken (h : Rule.atTurn (s.refreshQueue i) i c q head r .yes) (hk : field r 0 1 = 1 ∨ field r 0 1 = 2 ∨ field r 0 1 = 3) (v w : State)
    (he : Rule.effect (s.refreshQueue i) i c q head r = some v) (ht : v.took c i q head 1 = some w) (hb : (Rule.afterTake i c r w).broken = none) :
    exec (Rule.taker i r) s = .next (Rule.afterTake i c r w) := by
  rw [← conclude_next hb]
  rcases hk with hk | hk | hk
  · simp only [Rule.effect, hk] at he
    simp only [Rule.taker, Rule.afterTake, hk]
    rw [exec_launch, execLaunch]
    exact takeRecord_yes h (by simp [hk]) (by rw [he]; exact ht)
  · simp only [Rule.effect, hk, Option.some.injEq] at he
    subst he
    simp only [Rule.taker, Rule.afterTake, hk]
    rw [exec_wait, execWait]
    exact takeRecord_yes h (by simp [hk]) (by rw [ht]; rfl)
  · simp only [Rule.taker, Rule.afterTake, hk]
    rw [exec_signal, execSignal]
    refine takeRecord_yes h (by simp [hk]) ?_
    rcases Option.eq_none_or_eq_some ((s.refreshQueue i).ptrPeer c (recPtr r 8)) with hp | ⟨⟨d, obj, off⟩, hp⟩
    · simp only [Rule.effect, hk, hp] at he
      obtain ⟨old, hold, hw⟩ := Option.bind_eq_some_iff.1 he
      simp only [hp, hold, hw, Option.bind_some]
      exact ht
    · simp only [Rule.effect, hk, hp] at he
      rw [← Option.some.inj he] at ht
      simp only [hp]
      exact ht

/-- R257: a PREFETCH requests each absent page once. -/
theorem prefetchTaken (h : Rule.atTurn (s.refreshQueue i) i c q head r .yes) (hk : field r 0 1 = 4) (w : State)
    (hg : (s.refreshQueue i).unitBad c ((s.refreshQueue i).prefetchPages c r).1 (ptrOffset (recPtr r 8)) (field r 0x10 8) = false) :
    let u := s.refreshQueue i
    let p := u.prefetchPages c r
    let v := (p.2.filter fun x => x.2 == 0).foldl (fun (t : State) x =>
      if t.prefetched.contains (c.num, p.1, x.1) then t
      else
        let t := t.faultRecord c.num (mkRecord 5 0xFF 0 0 0 p.1 x.1 0 0 0xFFFF 0 0)
        { t with prefetched := (c.num, p.1, x.1) :: t.prefetched }) u
    v.took c i q head 1 = some w → (Rule.afterTake i c r w).broken = none → exec (.prefetch i) s = .next (Rule.afterTake i c r w) := by
  intro u p v ht hb
  rw [← conclude_next hb]
  simp only [Rule.afterTake, hk]
  rw [exec_prefetch, execPrefetch]
  refine takeRecord_yes h (by simp [hk]) ?_
  dsimp only
  rw [if_neg (by simp [hg])]
  exact ht

/-- R254, R256: a GRAPH is taken with its members. -/
theorem graphTaken (h : Rule.atTurn (s.refreshQueue i) i c q head r .yes) (hk : field r 0 1 = 5) (ms : List (List Byte)) (v1 v2 v3 v4 w : State)
    (hms : (s.refreshQueue i).members? c q head (field r 4 4) = some ms) :
    let u := s.refreshQueue i
    let g := recPtr r 8
    let ph := recPtr r 0x10
    let jb := recPtr r 0x18
    u.openCounter c jb 0 = some v1 → v1.openCounter c ph jb = some v2 → v2.openCounter c g (if ph = 0 then jb else ph) = some v3 →
    let v := v3.modCtx c.num fun c =>
      { c with
        graphs := nameOnce (v3.placeOf c g) c.graphs
        phases := nameOnce (v3.placeOf c ph) c.phases
        jobs := nameOnce (v3.placeOf c jb) c.jobs }
    v.addMembers c i q head (g, ph, jb) (v.placeOf c g) [] ms = some v4 → v4.took c i q head (1 + field r 4 4) = some w →
    let x := if u.cancelledAt c ph = true ∨ u.cancelledAt c jb = true then ((w.placeOf c g).map fun a => w.cancelAt c.num a).getD w else w
    (Rule.afterTake i c r x).broken = none → exec (.graph i) s = .next (Rule.afterTake i c r x) := by
  intro u g ph jb h1 h2 h3 v h4 ht x hb
  rw [← conclude_next hb]
  simp only [Rule.afterTake, hk]
  rw [exec_graph, execGraph]
  refine takeRecord_yes h (by simp [hk]) ?_
  dsimp only
  rw [hms]
  dsimp only
  rw [h1, Option.bind_some, h2, Option.bind_some, h3, Option.bind_some]
  have h4' := congrArg (fun (o : Option State) => o.bind fun s => s.took c i q head (1 + field r 4 4)) h4
  rw [Option.bind_some, ht] at h4'
  refine (congrArg _ h4').trans ?_
  rw [Option.map_some]
  refine congrArg some ?_
  cases hp : w.placeOf c g with
  | none => simp [x, hp]
  | some a => simp [x, hp, u, ph, jb]

/-- R255: what is not decided yet waits. -/
theorem recordUndecided (h : (s.refreshQueue i).headOf i = some (c, q, head, r, .no)) (hb : ((s.refreshQueue i).queueWaits c q).broken = none) :
    exec (Rule.taker i r) s = .next ((s.refreshQueue i).queueWaits c q) := by
  obtain ⟨kinds, body, he, hk⟩ := taker_takes i r s
  rw [he, takeRecord_no h hk]
  exact conclude_next hb

/-- R255, R259: a record that fails its checks, whether its failure can be written or not. -/
theorem recordFails {code detail : Nat} {bad : List Byte} (h : Rule.atTurn (s.refreshQueue i) i c q head r (.bad code detail bad)) :
    let u := s.refreshQueue i
    (∀ v, u.failQueue c i q head code detail bad = some v → (v.unitForget c.num).broken = none →
      exec (Rule.taker i r) s = .next (v.unitForget c.num)) ∧
    (u.failQueue c i q head code detail bad = none → let v := u.ptrWaits c (recPtr bad 0x18) 16
      v.broken = none → exec (Rule.taker i r) s = .next v) := by
  intro u
  obtain ⟨kinds, body, he, hk⟩ := taker_takes i r s
  rw [he, takeRecord_bad h hk]
  constructor
  · intro v hv hb
    rw [hv]
    exact conclude_next hb
  · intro hn v hb
    rw [hn]
    exact conclude_next hb

end

/-! ### Commands on queues (R252, R259) -/

section
variable {s : State} {ctx : Nat} {ptr : BitVec 64}

theorem registerQueue_open (h : s.mailOpen = true) : exec (.registerQueue ctx ptr) s = conclude (s.register ctx ptr false) :=
  State.mail_open (fun s => conclude (s.register ctx ptr false)) h

theorem register_waits {c : Ctx} {obj off : Nat} (h : s.queueUnread ctx ptr = some (c, obj, off)) :
    s.register ctx ptr false = ({ s with registering := s.registering ++ [(ctx, ptr, false)] } : State).unitWaits c obj off 128 := by
  rw [State.register, if_neg fun h => Bool.false_ne_true h.1, h]

theorem register_done {t : State} (h : s.queueUnread ctx ptr = none) (ha : s.addQueue ctx ptr = some t) : s.register ctx ptr false = t.reply .ok := by
  rw [State.register, if_neg fun h => Bool.false_ne_true h.1, h, ha]
  rfl

theorem register_refused (h : s.queueUnread ctx ptr = none) (ha : s.addQueue ctx ptr = none) : s.register ctx ptr false = s.reply .badState := by
  rw [State.register, if_neg fun h => Bool.false_ne_true h.1, h, ha]

end

/-- R252: a queue is registered, waits for its control block, or is refused. -/
theorem queueRegistered (s : State) (ctx : Nat) (ptr : BitVec 64) (ho : s.mailOpen = true) (hb : s.broken = none) :
    (∀ c obj off, s.queueUnread ctx ptr = some (c, obj, off) →
      let t := ({ s with registering := s.registering ++ [(ctx, ptr, false)] } : State).unitWaits c obj off 128
      t.broken = none → exec (.registerQueue ctx ptr) s = .next t) ∧
    (s.queueUnread ctx ptr = none → (∀ t, s.addQueue ctx ptr = some t → t.broken = none → exec (.registerQueue ctx ptr) s = .next (t.reply .ok)) ∧
      (s.addQueue ctx ptr = none → exec (.registerQueue ctx ptr) s = .next (s.reply .badState))) := by
  have hopen : exec (.registerQueue ctx ptr) s = _ := registerQueue_open ho
  constructor
  · intro c obj off hu t ht
    have hw : s.register ctx ptr false = t := register_waits hu
    rw [hopen, hw]
    exact conclude_next ht
  · intro hu
    rw [hopen]
    constructor
    · intro t ha ht
      rw [register_done hu ha]
      exact conclude_next ((State.reply_broken t .ok).trans ht)
    · intro ha
      rw [register_refused hu ha]
      exact conclude_next ((State.reply_broken s .badState).trans hb)

section
variable {s : State} {i : Nat} {q : Queue}

/-- R259: RESET, skipping the failing record or not. -/
theorem queueReset (hb : s.broken = none) (ho : s.mailOpen = true) (hq : s.queue? i = some q) :
    let heads := fun (t : State) => t.modQueue i fun x => { x with atHead := false }
    (∀ skip, q.state = .error → skip = false ∨ q.atHead = false → (s.setQueueState i (s.idleState q)).broken = none →
      exec (.reset i skip) s = .next ((heads (s.setQueueState i (s.idleState q))).reply .ok)) ∧
    (q.state ≠ .error → ∀ skip, exec (.reset i skip) s = .next (s.reply .badState)) ∧
    (∀ c t, q.state = .error → q.atHead = true → s.ctx? q.ctx = some c → s.qPut c q 0x18 4 (((s.qField c q 0x18 4).getD 0 + 1) % 2 ^ 32) = some t →
      (t.setQueueState i (t.idleState q)).broken = none → exec (.reset i true) s = .next ((heads (t.setQueueState i (t.idleState q))).reply .ok)) := by
  intro heads
  have hexec (skip : Bool) : exec (.reset i skip) s = execReset i skip s := rfl
  refine ⟨fun skip he hs ht => ?_, fun he skip => ?_, fun c t he ha hc hw ht => ?_⟩
  · rw [hexec, execReset, State.mail_open _ ho, hq]
    dsimp only
    rw [if_neg (by simp [he]), if_neg (by rcases hs with hs | hs <;> simp [hs])]
    exact conclude_next ((State.reply_broken _ .ok).trans ht)
  · rw [hexec, execReset, State.mail_open _ ho, hq]
    dsimp only
    rw [if_pos he]
    exact conclude_next ((State.reply_broken s .badState).trans hb)
  · rw [hexec, execReset, State.mail_open _ ho, hq]
    dsimp only
    rw [if_neg (by simp [he]), if_pos ⟨rfl, ha⟩, hc]
    dsimp only
    rw [hw, Option.getD_some]
    exact conclude_next ((State.reply_broken _ .ok).trans ht)

/-- R259: DISABLE. -/
theorem queueDisabled (hb : s.broken = none) (ho : s.mailOpen = true) (hq : s.queue? i = some q) :
    (q.state ≠ .draining → q.state ≠ .disabled → (s.setQueueState i .draining).broken = none →
      exec (.disable i) s = .next ((s.setQueueState i .draining).reply .ok)) ∧
    (q.state = .draining ∨ q.state = .disabled → exec (.disable i) s = .next (s.reply .badState)) := by
  rw [show exec (.disable i) s = execDisable i s from rfl, execDisable, State.mail_open _ ho, hq]
  dsimp only
  constructor
  · intro h1 h2 ht
    split
    · next h => exact absurd h h1
    · next h => exact absurd h h2
    · exact conclude_next ((State.reply_broken _ .ok).trans ht)
  · intro h
    have hrefused : conclude (s.reply .badState) = .next (s.reply .badState) := conclude_next ((State.reply_broken s .badState).trans hb)
    rcases h with h | h
    · rw [h]
      exact hrefused
    · rw [h]
      exact hrefused

/-- R259: ENABLE. -/
theorem queueEnabled (hb : s.broken = none) (ho : s.mailOpen = true) (hq : s.queue? i = some q) :
    (q.state = .disabled → (s.setQueueState i (s.idleState q)).broken = none →
      exec (.enable i) s = .next ((s.setQueueState i (s.idleState q)).reply .ok)) ∧
    (q.state ≠ .disabled → exec (.enable i) s = .next (s.reply .badState)) := by
  rw [show exec (.enable i) s = execEnable i s from rfl, execEnable, State.mail_open _ ho, hq]
  dsimp only
  constructor
  · intro h ht
    rw [if_pos h]
    exact conclude_next ((State.reply_broken _ .ok).trans ht)
  · intro h
    rw [if_neg h]
    exact conclude_next ((State.reply_broken s .badState).trans hb)

/-- R259: a draining queue whose launches have settled is disabled. -/
theorem queueDrained (hq : s.queue? i = some q) (c : Ctx) (x : Queue) (hc : s.ctx? q.ctx = some c) :
    let u := s.settleMarked c s.counters.length
    u.queue? i = some x →
      (x.state = .draining → u.queueSettled i = true → (u.setQueueState i .disabled).broken = none →
        exec (.queueDrained i) s = .next (u.setQueueState i .disabled)) ∧
      (x.state ≠ .draining ∨ u.queueSettled i = false → u.broken = none → exec (.queueDrained i) s = .next u) := by
  intro u hx
  rw [show exec (.queueDrained i) s = execQueueDrained i s from rfl, execQueueDrained, hq, Option.bind_some, hc]
  dsimp only
  rw [show (s.settleMarked c s.counters.length).queue? i = some x from hx]
  dsimp only
  constructor
  · intro hd hs ht
    rw [if_pos ⟨hd, hs⟩]
    exact conclude_next ht
  · intro h ht
    rw [if_neg fun ⟨hd, hs⟩ => h.elim (· hd) fun h => by simp [u, hs] at h]
    exact conclude_next ht

end

/-- Settles O53: records by the decision about them, commands by the queue's state. -/
theorem queueSteps : Obligations.QueueSteps := by
  refine ⟨fun s i c q head r => ⟨recordTaken, fun h hk w => prefetchTaken h hk w, fun h hk ms v1 v2 v3 v4 w => graphTaken h hk ms v1 v2 v3 v4 w, recordUndecided,
    fun code detail bad => recordFails⟩, fun s i c q head code detail bad t => failQueue_errors, queueRegistered,
    fun s i q st h => ⟨_, State.queue?_setQueueState st h, rfl, rfl⟩, fun s i q hb ho hq => ?_⟩
  obtain ⟨hr1, hr2, hr3⟩ := queueReset hb ho hq
  obtain ⟨hd1, hd2⟩ := queueDisabled hb ho hq
  obtain ⟨he1, he2⟩ := queueEnabled hb ho hq
  exact ⟨hr1, hr2, hr3, hd1, hd2, he1, he2, fun c x => queueDrained hq c x⟩

end Sys2Proof.Proofs
end

section
/-! PROOFS. O54: blocks and gangs placed, evicted and ended. -/

namespace Sys2Proof.Machine

theorem State.endDue_any {s : State} (h : ∀ b ∈ s.blocks, s.endDue b = false) : s.blocks.any s.endDue = false :=
  List.any_eq_false.2 fun b hb => by simp [h b hb]

/-! ### A block removed -/

/-- What follows the removal of a block leaves none of its threads, nor the block. -/
theorem State.removeBlock_gone (s : State) (b : Block) :
    let u := ((s.removeBlock b).endBoxes b).forgetCode
    (∀ k ∈ u.blocks, k.key ≠ b.key) ∧ ∀ th ∈ u.threads, th.tid.block ≠ b.key := by
  intro u
  have hblocks : u.blocks = s.blocks.filter fun x => x.key != b.key := rfl
  constructor
  · intro k hk
    rw [hblocks] at hk
    simpa using (List.mem_filter.1 hk).2
  · intro th hth
    obtain ⟨t, ht, rfl⟩ := List.mem_map.1 (show th ∈ (s.removeBlock b).threads.map _ from hth)
    have hkey : t.tid.block ≠ b.key := by
      have ht' : t ∈ s.threads.filter fun t => t.tid.block != b.key := ht
      simpa using (List.mem_filter.1 ht').2
    split
    · split
      · exact hkey
      · exact hkey
    · exact hkey

end Sys2Proof.Machine

namespace Sys2Proof.Proofs
open Machine

/-- R257, R263, R264: a launch places what is next, begins to wait, or is cancelled. -/
theorem launchPlaces (s : State) (n : Nat) (l : Launch) :
    let u := s.pay n
    u.launch? n = some l → u.broken = none →
    let lost := l.preds.any fun p => u.launches.any fun x => x.num == p && x.settled && x.code != 1
    (lost = true → (u.cancelLaunch n).broken = none → exec (.blockPlace n) s = .next (u.cancelLaunch n)) ∧
    (lost = false → (∀ b ∈ u.blocks, u.endDue b = false) →
      (u.gangStuck l = true → l.gangWait = none → exec (.blockPlace n) s = .next (u.modLaunch n fun l => { l with gangWait := some u.now })) ∧
      ∀ x p, (u.gangStuck l = false ∨ l.gangWait ≠ none) → u.nextPlacing = some (x, p) → x.num = n → (u.place x p).broken = none →
        exec (.blockPlace n) s = .next (u.place x p)) := by
  intro u hl hb lost
  have hexec : exec (.blockPlace n) s = if lost = true then conclude (u.cancelLaunch n)
      else if u.blocks.any u.endDue = true then conclude u
      else if u.gangStuck l = true ∧ l.gangWait.isNone = true then conclude (u.modLaunch n fun l => { l with gangWait := some u.now })
      else match u.nextPlacing with
        | some (x, p) => if x.num = n then conclude (u.place x p) else conclude u
        | none => conclude u := by
    rw [show exec (.blockPlace n) s = execBlockPlace n s from rfl, execBlockPlace,
      show (s.pay n).launch? n = some l from hl] <;> rfl
  rw [hexec]
  refine ⟨fun h ht => ?_, fun h he => ⟨fun hg hw => ?_, fun x p hg hp hx ht => ?_⟩⟩
  · rw [if_pos h]
    exact conclude_next ht
  · rw [if_neg (by simp [h]), if_neg (by simp [State.endDue_any he]), if_pos ⟨hg, by simp [hw]⟩]
    exact conclude_next hb
  · rw [if_neg (by simp [h]), if_neg (by simp [State.endDue_any he]), if_neg, hp]
    · dsimp only
      rw [if_pos hx]
      exact conclude_next ht
    · rintro ⟨h1, h2⟩
      rcases hg with hg | hg
      · exact Bool.false_ne_true (hg.symm.trans h1)
      · exact hg (Option.isNone_iff_eq_none.1 h2)

/-- R265: a gang that waits reserves a cluster, and later has blocks evicted or is rejected. -/
theorem gangWaits (s : State) (n t0 : Nat) (l : Launch) (hb : s.broken = none) (hl : s.launch? n = some l) (hw : l.gangWait = some t0)
    (hg : s.gangStuck l = true) (he : ∀ b ∈ s.blocks, s.endDue b = false) :
    (l.drain = none → t0 + 2 ^ 20 ≤ s.now → ∀ cl,
      maxBy (fun cl => s.clusterUnits cl (l.header.shape l.ctx l.num l.gangNumber).limiting)
        ((List.range 48).filter fun cl => (s.reservedFor cl).isNone && !s.quarterClosed (cl / 12) && !s.coreBroken (4 * cl)) = some cl →
      exec (.drainClusterReserve n) s = .next (s.modLaunch n fun l => { l with drain := some cl })) ∧
    (l.drain = none → s.now < t0 + 2 ^ 20 → exec (.drainClusterReserve n) s = .next s) ∧
    ∀ cl, l.drain = some cl → t0 + 2 ^ 20 + 2 ^ 24 ≤ s.now →
      let here := s.blocks.filter fun b => clusterOf b.core == cl
      let loose := (here.filter fun b => !s.persistent b).map (·.key)
      (s.fitsWithout l cl (here.map (·.key)) = false → exec (.gangEvictDecision n) s = .next s) ∧
      (s.fitsWithout l cl (here.map (·.key)) = true → s.fitsWithout l cl loose = true →
        let t := s.evictBlocks (here.filter fun b => (s.needed l cl loose ((here.filter s.evictable).map (·.key))).contains b.key)
        t.broken = none → exec (.gangEvictDecision n) s = .next t) ∧
      (s.fitsWithout l cl (here.map (·.key)) = true → s.fitsWithout l cl loose = false →
        let t := (s.discardRest l .rejected (4, l.header.gang)).rejectQueue l 4 l.header.gang
        t.broken = none → exec (.gangEvictDecision n) s = .next t) := by
  have hdue := State.endDue_any he
  refine ⟨fun hd ht cl hm => ?_, fun hd ht => ?_, fun cl hd ht => ?_⟩
  · rw [show exec (.drainClusterReserve n) s = execDrainClusterReserve n s from rfl, execDrainClusterReserve, hl]
    dsimp only
    rw [hw]
    dsimp only
    rw [if_neg (by simp [hd, hdue, hg]; omega), hm]
    exact conclude_next hb
  · rw [show exec (.drainClusterReserve n) s = execDrainClusterReserve n s from rfl, execDrainClusterReserve, hl]
    dsimp only
    rw [hw]
    dsimp only
    rw [if_pos (.inr (.inl ht))]
    exact conclude_next hb
  · intro here loose
    have hexec : exec (.gangEvictDecision n) s = if s.fitsWithout l cl (here.map (·.key)) = false then conclude s
        else if s.fitsWithout l cl loose = false then conclude ((s.discardRest l .rejected (4, l.header.gang)).rejectQueue l 4 l.header.gang)
        else conclude (s.evictBlocks (here.filter fun b => (s.needed l cl loose ((here.filter s.evictable).map (·.key))).contains b.key)) := by
      rw [show exec (.gangEvictDecision n) s = execGangEvictDecision n s from rfl, execGangEvictDecision, hl]
      dsimp only
      rw [hw, hd]
      dsimp only
      rw [if_neg (by simp [hdue, hg]; omega)]
    refine ⟨fun h => ?_, fun h1 h2 => ?_, fun h1 h2 => ?_⟩
    · rw [hexec, if_pos h]
      exact conclude_next hb
    · intro t ht
      rw [hexec, if_neg (by simp [h1]), if_neg (by simp [h2])]
      exact conclude_next ht
    · intro t ht
      rw [hexec, if_neg (by simp [h1]), if_pos h2]
      exact conclude_next ht

/-- R265: a block whose gang has come to its boundaries is saved, or runs on. -/
theorem blockEvicted (s : State) (key : BlockKey) (b : Block) (c : Ctx) (hb : s.broken = none) (hk : s.block? key = some b) (hc : s.ctx? b.ctx = some c)
    (hp : b.phase = .evicting) (he : s.endDue b = false) (hr : c.state = .running) (hf : c.fault = none) :
    let bs := (s.gangOf b).filter fun x => !s.endDue x
    (∀ x ∈ bs, x.phase = .evicting ∧ s.quiet x true = true) →
    (∀ t, s.saveBlocks c bs true = some t → let u := (t.discardEvicted key.launch (bs.map (·.key))).settleRunning b.ctx
      u.broken = none → exec (.blockEvictionDone key) s = .next u) ∧
    (s.saveBlocks c bs true = none → exec (.blockEvictionDone key) s = .next
      { s with blocks := s.blocks.map fun x => if (bs.any fun y => y.key == x.key) = true then { x with phase := .running } else x }) := by
  intro bs hq
  have hall : (bs.all fun x => x.phase == .evicting && s.quiet x true) = true :=
    List.all_eq_true.2 fun x hx => by simp [hq x hx]
  have hgo : ¬(b.phase ≠ .evicting ∨ s.endDue b = true ∨ c.state ≠ .running ∨ c.fault.isSome = true ∨
      (bs.all fun x => x.phase == .evicting && s.quiet x true) = false) := by simp [hp, he, hr, hf, hall]
  have hexec : exec (.blockEvictionDone key) s = match s.saveBlocks c bs true with
      | some t => conclude ((t.discardEvicted key.launch (bs.map (·.key))).settleRunning b.ctx)
      | none => conclude { s with blocks := s.blocks.map fun x => if (bs.any fun y => y.key == x.key) = true then { x with phase := .running } else x } := by
    rw [show exec (.blockEvictionDone key) s = execBlockEvictionDone key s from rfl, execBlockEvictionDone, hk]
    dsimp only
    rw [hc]
    dsimp only
    rw [if_neg hgo] <;> rfl
  rw [hexec]
  constructor
  · intro t ht u hu
    rw [ht]
    exact conclude_next hu
  · intro hn
    rw [hn]
    exact conclude_next hb

/-- R154, R260, R271: an ended block leaves, and its launch counts it. -/
theorem blockEnds (s : State) (key : BlockKey) (b : Block) (hk : s.block? key = some b) (he : s.endDue b = true) :
    let u := ((s.removeBlock b).endBoxes b).forgetCode
    let v := u.modLaunch key.launch fun l =>
      let l := match b.phase with
        | .abandoned c => { l with verdict := some (l.verdict.getD (6, c.toNat)) }
        | _ => l
      if l.state = .running ∧ (u.blocks.any fun x => x.key.launch == l.num) = false ∧ (u.kept.any fun k => k.block.key.launch == l.num) = false ∧
          !(l.open_.isEmpty && l.ready.isEmpty) then { l with state := .draining } else l
    let t := ((v.owe key.launch 1).pay key.launch).settleRunning b.ctx
    (∀ k ∈ u.blocks, k.key ≠ key) ∧ (∀ th ∈ u.threads, th.tid.block ≠ key) ∧ (t.broken = none → exec (.blockEnd key) s = .next t) := by
  intro u v t
  have hkey := block?_key hk
  obtain ⟨hblocks, hthreads⟩ := s.removeBlock_gone b
  rw [hkey] at hblocks hthreads
  refine ⟨hblocks, hthreads, fun ht => ?_⟩
  have hexec : exec (.blockEnd key) s = conclude t := by
    rw [show exec (.blockEnd key) s = execBlockEnd key s from rfl, execBlockEnd, hk]
    dsimp only
    rw [if_neg (by simp [he])] <;> rfl
  rw [hexec]
  exact conclude_next ht

/-- R268: continuation records of one entry are released once they have waited long enough. -/
theorem continuationReleased (s : State) (n entry : Nat) (l : Launch) (g : Nat × Nat × List (List Word)) (hb : s.broken = none) (hl : s.launch? n = some l)
    (hg : l.open_.find? (fun g => g.1 == entry) = some g) :
    (g.2.1 + 4096 ≤ s.now → (s.releaseGroup n entry).broken = none → exec (.continuationGroupTimeout n entry) s = .next (s.releaseGroup n entry)) ∧
    (s.now < g.2.1 + 4096 → exec (.continuationGroupTimeout n entry) s = .next s) := by
  rw [show exec (.continuationGroupTimeout n entry) s = conclude (s.releaseOld n entry) from rfl, State.releaseOld, hl, Option.bind_some, hg]
  dsimp only
  constructor
  · intro ht hr
    rw [if_pos ht]
    exact conclude_next hr
  · intro ht
    rw [if_neg (by omega)]
    exact conclude_next hb

/-- Settles O54, a theorem for each of its steps. -/
theorem blockSteps : Obligations.BlockSteps :=
  ⟨launchPlaces, gangWaits, blockEvicted, blockEnds, continuationReleased⟩

end Sys2Proof.Proofs
end

section
/-! PROOFS. O55: contexts registered, started, saved, restored, faulted and destroyed. -/

namespace Sys2Proof.Machine

/-! ### A context as its state moves -/

theorem State.ctx?_num {s : State} {n : Nat} {c : Ctx} (h : s.ctx? n = some c) : c.num = n := by
  simpa using List.find?_some h

/-- A context that is changed, but for its number, is found changed. -/
theorem State.ctx?_modCtx {s : State} {n : Nat} {c : Ctx} {f : Ctx → Ctx} (hf : ∀ c, (f c).num = c.num) (h : s.ctx? n = some c) :
    (s.modCtx n f).ctx? n = some (f c) := by
  have hp : ((fun x : Ctx => decide (x.num = n)) ∘ fun x => if x.num = n then f x else x) = fun x => decide (x.num = n) := by
    funext x
    by_cases hx : x.num = n <;> simp [hx, hf]
  rw [State.ctx?, State.modCtx, List.find?_map, hp, show s.ctxs.find? (fun x => decide (x.num = n)) = some c from h]
  simp [State.ctx?_num h]

theorem State.ctx?_of_bare {s t : State} (h : t.bare = s.bare) (n : Nat) : t.ctx? n = s.ctx? n := by
  have h' := congrArg (fun u : State => u.ctx? n) h
  exact h'

/-- A context is put in a state, and keeps the rest. -/
theorem State.ctx?_setCtxState {s : State} {n : Nat} {c : Ctx} (st : CtxState) (h : s.ctx? n = some c) :
    (s.setCtxState n st).ctx? n = some { c with state := st } := by
  rw [State.setCtxState, h]
  exact (State.ctx?_of_bare (State.writeVal_bare _ _ _ _) n).trans (State.ctx?_modCtx (fun _ => rfl) h)

/-! ### The thread that a fault names (R244) -/

theorem State.faultThread_single (s : State) {f : FaultImage} {lane : Nat} {th : Tid} (h : f.names = [(lane, th)]) : s.faultThread f = threadIndex th := by
  rw [State.faultThread, h, show minBy (·.1) [(lane, th)] = some (lane, th) from rfl]
  exact if_neg fun h => by simp at h

theorem State.faultThread_none (s : State) {f : FaultImage} (h : f.names = []) : s.faultThread f = 0xFFFF := by
  rw [State.faultThread, h]
  rfl

/-- An answer of the mailbox goes on where the state that it leaves is sound. -/
theorem conclude_reply {s : State} (r : Reply) (h : s.broken = none) : conclude (s.reply r) = .next (s.reply r) :=
  conclude_next ((State.reply_broken s r).trans h)

end Sys2Proof.Machine

namespace Sys2Proof.Proofs
open Machine

/-- R242, R320: a context is registered where its number is free and its views fit. -/
theorem contextRegistered (s : State) (q a : Nat) (c : Ctx) (hb : s.broken = none) (ho : s.mailOpen = true) (hq : q ∉ s.gated)
    (he : (PAddr.vault q a).exists_ 128 = true) (hc : readContext q a (s.bytes (.vault q a) 128) = some c) :
    let others := s.ctxs.filter fun x => x.num != c.num
    let fits := 2 * (((others.filter fun x => x.state != .destroyed).map (·.viewEntries)).sum + c.viewEntries) ≤ 2 ^ 23
    let t := ({ s with ctxs := others ++ [c], torn := s.torn.filter (fun t => t.1 != c.num), oldViews := s.oldViews.filter fun v => v.1 != c.num }).setCtxState c.num .created
    ((∃ x ∈ s.ctxs, x.num = c.num ∧ x.state ≠ .destroyed) → exec (.registerContext q a) s = .next (s.reply .badState)) ∧
    ((∀ x ∈ s.ctxs, x.num = c.num → x.state = .destroyed) → ¬fits → exec (.registerContext q a) s = .next (s.reply .noSpace)) ∧
    ((∀ x ∈ s.ctxs, x.num = c.num → x.state = .destroyed) → fits → t.broken = none → exec (.registerContext q a) s = .next (t.reply .ok)) := by
  intro others fits t
  have hexec : exec (.registerContext q a) s = if (s.ctxs.any fun x => x.num == c.num && x.state != .destroyed) = true then conclude (s.reply .badState)
      else if 2 ^ 23 < 2 * (((others.filter fun x => x.state != .destroyed).map (·.viewEntries)).sum + c.viewEntries) then conclude (s.reply .noSpace)
      else conclude (t.reply .ok) := by
    rw [show exec (.registerContext q a) s = execRegisterContext q a s from rfl, execRegisterContext, State.mail_open _ ho]
    rw [if_neg (by simp [he, hq]), hc]
    rfl
  have hfree (h : ∀ x ∈ s.ctxs, x.num = c.num → x.state = .destroyed) : ¬(s.ctxs.any fun x => x.num == c.num && x.state != .destroyed) = true := by
    rw [List.any_eq_true]
    rintro ⟨x, hx, hn⟩
    simp only [Bool.and_eq_true, beq_iff_eq, bne_iff_ne] at hn
    exact hn.2 (h x hx hn.1)
  rw [hexec]
  refine ⟨fun ⟨x, hx, hn, hst⟩ => ?_, fun h hf => ?_, fun h hf ht => ?_⟩
  · rw [if_pos (List.any_eq_true.2 ⟨x, hx, by simp [hn, hst]⟩)]
    exact conclude_reply _ hb
  · rw [if_neg (hfree h), if_pos (Nat.lt_of_not_le hf)]
    exact conclude_reply _ hb
  · rw [if_neg (hfree h), if_neg (Nat.not_lt.2 hf)]
    exact conclude_reply _ ht

/-- R242: a control block that is not there or not sound is refused. -/
theorem contextRefused (s : State) (q a : Nat) (hb : s.broken = none) (ho : s.mailOpen = true)
    (h : q ∈ s.gated ∨ (PAddr.vault q a).exists_ 128 = false ∨ readContext q a (s.bytes (.vault q a) 128) = none) :
    exec (.registerContext q a) s = .next (s.reply .badState) := by
  rw [show exec (.registerContext q a) s = execRegisterContext q a s from rfl, execRegisterContext, State.mail_open _ ho]
  split
  · exact conclude_reply _ hb
  · next hn =>
    have hr : readContext q a (s.bytes (.vault q a) 128) = none := by
      rcases h with h | h | h
      · exact absurd (.inr (by simpa using h)) hn
      · exact absurd (.inl h) hn
      · exact h
    rw [hr]
    exact conclude_reply _ hb

section
variable {s : State} {ctx : Nat} {c : Ctx}

/-- R247, R387: START. -/
theorem contextStarted (hb : s.broken = none) (ho : s.mailOpen = true) (hc : s.ctx? ctx = some c) :
    (c.state ≠ .created → exec (.start ctx) s = .next (s.reply .badState)) ∧
    (c.state = .created → let t := (s.modCtx ctx fun c => { c with confKey := s.confidential c }).setCtxState ctx .runnable
      t.broken = none → exec (.start ctx) s = .next (t.reply .ok)) := by
  have hexec : exec (.start ctx) s = if c.state ≠ .created then conclude (s.reply .badState)
      else conclude (((s.modCtx ctx fun c => { c with confKey := s.confidential c }).setCtxState ctx .runnable).reply .ok) := by
    rw [show exec (.start ctx) s = execStart ctx s from rfl, execStart, State.mail_open _ ho, hc]
  constructor
  · intro h
    rw [hexec, if_pos h]
    exact conclude_reply _ hb
  · intro h t ht
    rw [hexec, if_neg (by simp [h])]
    exact conclude_reply _ ht

/-- R247: PREEMPT. -/
theorem contextPreempted (hb : s.broken = none) (ho : s.mailOpen = true) (hc : s.ctx? ctx = some c) :
    (c.state = .running → (s.setCtxState ctx .preempting).broken = none → exec (.preempt ctx) s = .next ((s.setCtxState ctx .preempting).reply .ok)) ∧
    (c.state = .runnable → ∀ t, s.saveBlocks c [] false = some t → ((t.dropCaches c).setCtxState ctx .saved).broken = none →
      exec (.preempt ctx) s = .next (((t.dropCaches c).setCtxState ctx .saved).reply .ok)) ∧
    (c.state ≠ .running → c.state ≠ .runnable → exec (.preempt ctx) s = .next (s.reply .badState)) := by
  rw [show exec (.preempt ctx) s = execPreempt ctx s from rfl, execPreempt, State.mail_open _ ho, hc]
  dsimp only
  refine ⟨fun h ht => ?_, fun h t hs ht => ?_, fun h1 h2 => ?_⟩
  · rw [h]
    exact conclude_reply _ ht
  · rw [h, hs]
    exact conclude_reply _ ht
  · split
    · next h => exact absurd h h2
    · next h => exact absurd h h1
    · exact conclude_reply _ hb

/-- R248, R249: the image is written once every core has come to its boundaries. -/
theorem contextSaved (hc : s.ctx? ctx = some c) (hp : c.state = .preempting) (hf : c.fault = none)
    (hq : ∀ x ∈ s.blocksOf ctx, s.quiet x true = true) (t : State) (hs : s.saveBlocks c (s.blocksOf ctx) false = some t) :
    let v := ((t.dropCaches c).modCtx ctx fun c => { c with dump := c.dump.map fun d => { d with armed := true } }).setCtxState ctx .saved
    let w := if c.dump = none then v else v.reply (.report (v.threadNames ctx))
    v.broken = none → exec (.preemptSaveDone ctx) s = .next w := by
  intro v w hv
  have hall : ((s.blocksOf ctx).all fun b => s.quiet b true) = true := List.all_eq_true.2 hq
  have hexec : exec (.preemptSaveDone ctx) s = conclude (if c.dump.isSome = true then v.reply (.report (v.threadNames ctx)) else v) := by
    rw [show exec (.preemptSaveDone ctx) s = execPreemptSaveDone ctx s from rfl, execPreemptSaveDone, hc]
    dsimp only
    rw [if_neg (by simp [hp, hf, hall]), hs]
  have hw : (if c.dump.isSome = true then v.reply (.report (v.threadNames ctx)) else v) = w := by
    unfold w
    cases c.dump <;> rfl
  rw [hexec, hw]
  refine conclude_next ?_
  unfold w
  split
  · exact hv
  · exact (State.reply_broken _ _).trans hv

/-- R246: a fault follows the save. -/
theorem contextFaulted (hc : s.ctx? ctx = some c) (img : FaultImage) (t : State) (hf : c.fault = some img) (h1 : c.state ≠ .faulted)
    (h2 : c.state ≠ .destroyed) (hq : ∀ x ∈ s.blocksOf ctx, s.quiet x false = true) (hs : s.saveBlocks c (s.blocksOf ctx) false = some t) :
    let w := (t.dropCaches c).raiseFault c img (s.faultThread img)
    w.broken = none → exec (.contextFault ctx) s = .next w := by
  intro w hw
  have hall : ((s.blocksOf ctx).all fun b => s.quiet b false) = true := List.all_eq_true.2 hq
  rw [show exec (.contextFault ctx) s = execContextFault ctx s from rfl, execContextFault, hc]
  dsimp only
  rw [hf]
  dsimp only
  rw [if_neg (by simp [h1, h2, hall]), hs]
  exact conclude_next hw

/-- R247: RESUME. -/
theorem contextResumes (hb : s.broken = none) (ho : s.mailOpen = true) (hc : s.ctx? ctx = some c) :
    (c.state = .saved → exec (.resume ctx) s = .next ((s.modCtx ctx fun c => { c with resuming := true }).reply .ok)) ∧
    (c.state ≠ .saved → exec (.resume ctx) s = .next (s.reply .badState)) := by
  rw [show exec (.resume ctx) s = execResume ctx s from rfl, execResume, State.mail_open _ ho, hc]
  dsimp only
  constructor
  · intro h
    rw [if_pos h]
    exact conclude_reply _ (show (s.modCtx ctx _).broken = none from hb)
  · intro h
    rw [if_neg h]
    exact conclude_reply _ hb

/-- R250: a context that resumes is restored where its image is sound and it fits, and faults where the image is not. -/
theorem contextRestored (hc : s.ctx? ctx = some c) (hst : c.state = .saved) (hr : c.resuming = true) (hf : c.fault = none)
    (he : ∀ x ∈ s.blocks, s.endDue x = false) :
    let ks := sortKept (s.kept.filter fun k => k.block.ctx == ctx && !k.evicted)
    (∀ sps, s.saveHeaderOk c = true → (∀ k ∈ ks, s.areaOk c k = true) → s.restoreSpots [] ks.length ks = some sps → s.rangesFit ks sps = true →
      let t := (((s.restoreAll c ks sps).modCtx ctx fun c => { c with resuming := false }).setCtxState ctx .running).settleRunning ctx
      t.broken = none → exec (.restoreDone ctx) s = .next t) ∧
    (s.saveHeaderOk c = false ∨ (ks.all fun k => s.areaOk c k) = false → let t := s.raiseFault c { reason := reasonRestoreBad } 0xFFFF
      t.broken = none → exec (.restoreDone ctx) s = .next t) := by
  intro ks
  have hdue : s.blocks.any s.endDue = false := List.any_eq_false.2 fun b hb => by simp [he b hb]
  have hexec : exec (.restoreDone ctx) s = if s.saveHeaderOk c = false ∨ (ks.all fun k => s.areaOk c k) = false then
        conclude (s.raiseFault c { reason := reasonRestoreBad } 0xFFFF)
      else match s.restoreSpots [] ks.length ks with
        | none => conclude s
        | some sps => if s.rangesFit ks sps = false then conclude s
          else conclude ((((s.restoreAll c ks sps).modCtx ctx fun c => { c with resuming := false }).setCtxState ctx .running).settleRunning ctx) := by
    rw [show exec (.restoreDone ctx) s = execRestoreDone ctx s from rfl, execRestoreDone, hc]
    dsimp only
    rw [if_neg (by simp [hst, hr, hf, hdue])] <;> rfl
  constructor
  · intro sps hh ha hsp hfit t ht
    have hall : (ks.all fun k => s.areaOk c k) = true := List.all_eq_true.2 ha
    rw [hexec, if_neg (by simp [hh, hall]), hsp]
    dsimp only
    rw [if_neg (by simp [hfit])]
    exact conclude_next ht
  · intro h t ht
    rw [hexec, if_pos h]
    exact conclude_next ht

/-- R247: DESTROY. -/
theorem contextDestroyed (hb : s.broken = none) (ho : s.mailOpen = true) (hc : s.ctx? ctx = some c) :
    (c.state ≠ .destroyed → (s.destroyCtx c).broken = none → exec (.destroy ctx) s = .next ((s.destroyCtx c).reply .ok)) ∧
    (c.state = .destroyed → exec (.destroy ctx) s = .next (s.reply .badState)) := by
  rw [show exec (.destroy ctx) s = execDestroy ctx s from rfl, execDestroy, State.mail_open _ ho, hc]
  dsimp only
  constructor
  · intro h ht
    rw [if_neg h]
    exact conclude_reply _ ht
  · intro h
    rw [if_pos h]
    exact conclude_reply _ hb

end

/-- Settles O55, command by command. -/
theorem contextSteps : Obligations.ContextSteps := by
  refine ⟨contextRegistered, contextRefused, fun s ctx c hb ho hc => ?_, fun s ctx c st h => ⟨_, State.ctx?_setCtxState st h, rfl, rfl, rfl⟩⟩
  obtain ⟨hs1, hs2⟩ := contextStarted hb ho hc
  obtain ⟨hp1, hp2, hp3⟩ := contextPreempted hb ho hc
  obtain ⟨hr1, hr2⟩ := contextResumes hb ho hc
  obtain ⟨hd1, hd2⟩ := contextDestroyed hb ho hc
  exact ⟨hs1, hs2, hp1, hp2, hp3, contextSaved hc, contextFaulted hc, fun img lane th => s.faultThread_single, fun img => s.faultThread_none, hr1, hr2,
    contextRestored hc, hd1, hd2⟩

end Sys2Proof.Proofs
end

section
/-! PROOFS. O56: the view commands of the mailbox, and the fill engine's pages. -/

namespace Sys2Proof.Machine

/-! ### What the write of a view entry leaves (R317) -/

/-- A state without its memory, its cores and its coverage: what no view entry's write changes. -/
def State.bareOfViews (s : State) : State := { s.bare with cores := [], coverage := [] }

theorem State.replies_of_bareOfViews {s t : State} (h : t.bareOfViews = s.bareOfViews) : t.replies = s.replies := by
  have h' := congrArg State.replies h
  exact h'

theorem State.deaf_of_bareOfViews {s t : State} (h : t.bareOfViews = s.bareOfViews) : t.deaf = s.deaf := by
  have h' := congrArg State.deaf h
  exact h'

theorem State.putView_bareOfViews (s : State) (c : Ctx) (i : Nat) (e : ViewEntry) : (s.putView c i e).bareOfViews = s.bareOfViews := by
  have hw := congrArg (fun u : State => { u with cores := [], coverage := [] }) (State.write_bare s (c.viewAddr i) e.bytes)
  exact hw

theorem State.setCoverage_bareOfViews (s : State) (c : Ctx) (i obj lo hi : Nat) : (s.setCoverage c i obj lo hi).bareOfViews = s.bareOfViews := by
  unfold State.setCoverage
  split
  · rfl
  · split <;> rfl

theorem State.makeLive_bareOfViews (s : State) (c : Ctx) (i obj low high : Nat) (rights : BitVec 4) (held : Bool) :
    (s.makeLive c i obj low high rights held).bareOfViews = s.bareOfViews :=
  (State.setCoverage_bareOfViews _ c i obj low high).trans (State.putView_bareOfViews s c i _)

theorem State.setCoverage_broken (s : State) (c : Ctx) (i obj lo hi : Nat) : (s.setCoverage c i obj lo hi).broken = s.broken := by
  unfold State.setCoverage
  split
  · rfl
  · split <;> rfl

theorem State.putView_broken {s : State} {c : Ctx} {i : Nat} {e : ViewEntry} (h : (c.viewAddr i).exists_ 32 = true) :
    (s.putView c i e).broken = s.broken :=
  State.write_broken s _ _ (by rw [e.bytes_length]; exact h)

theorem State.makeLive_broken {s : State} {c : Ctx} {i obj low high : Nat} {rights : BitVec 4} {held : Bool} (h : (c.viewAddr i).exists_ 32 = true) :
    (s.makeLive c i obj low high rights held).broken = s.broken :=
  (State.setCoverage_broken _ c i obj low high).trans (State.putView_broken h)

theorem State.mailOpen_awake {s : State} (h : s.mailOpen = true) : s.deaf = false := by
  unfold State.mailOpen at h
  simp only [Bool.and_eq_true, Bool.not_eq_true'] at h
  exact h.1.1

theorem State.viewEntry_reply (s : State) (r : Reply) (c : Ctx) (i : Nat) : (s.reply r).viewEntry c i = s.viewEntry c i := by
  unfold State.reply
  split
  · rfl
  · exact State.viewEntry_congr rfl rfl rfl c i

theorem State.reply_replies {s : State} (h : s.deaf = false) (r : Reply) : (s.reply r).replies = s.replies ++ [r] := by
  rw [State.reply_awake r h]

/-! ### The search of the fill engine -/

/-- The first of a range of numbers at which something is found. -/
theorem findSome_range {α : Type} {f : Nat → Option α} {n i : Nat} {a : α} (hi : i < n) (hn : ∀ j < i, f j = none) (ha : f i = some a) :
    (List.range n).findSome? f = some a := by
  obtain ⟨k, rfl⟩ := Nat.exists_eq_add_of_lt hi
  rw [show i + k + 1 = i + (1 + k) by omega, List.range_add, List.findSome?_append,
    List.findSome?_eq_none_iff.2 fun j hj => hn j (List.mem_range.1 hj), Option.none_or, Nat.add_comm 1 k, List.range_succ_eq_map]
  simp [ha]

end Sys2Proof.Machine

namespace Sys2Proof.Proofs
open Machine

/-- R317: VIEWROOT makes a free entry live and answers its pointer. -/
theorem viewRooted (s : State) (ctx obj low high : Nat) (rights : BitVec 8) (c : Ctx) (o : ObjEntry) (hb : s.broken = none) (ho : s.mailOpen = true)
    (hc : s.liveCtx ctx = some c) (hobj : s.object? c obj = some o) :
    (high < low ∨ 2 ^ 40 < high ∨ 15 < rights.toNat → exec (.viewroot ctx obj low high rights) s = .next (s.reply .badArg)) ∧
    (low ≤ high → high ≤ 2 ^ 40 → rights.toNat ≤ 15 → (s.anyFree c = none → exec (.viewroot ctx obj low high rights) s = .next (s.reply .noSpace)) ∧
      ∀ i, s.anyFree c = some i → (c.viewAddr i).exists_ 32 = true → obj < 2 ^ 24 → ∃ t, exec (.viewroot ctx obj low high rights) s = .next t ∧
        t.replies = s.replies ++ [.pointer (mkPtr i (s.viewEntry c i).gen low)] ∧
        t.viewEntry c i = { obj, rights := rights.setWidth 4, held := o.held, gen := (s.viewEntry c i).gen, state := 2, low, high }) := by
  rw [show exec (.viewroot ctx obj low high rights) s = execViewroot ctx obj low high rights s from rfl, execViewroot, State.mail_open _ ho, hc]
  dsimp only
  rw [hobj]
  dsimp only
  refine ⟨fun h => ?_, fun h1 h2 h3 => ⟨fun hn => ?_, fun i hi he hob => ?_⟩⟩
  · rw [if_pos h]
    exact conclude_reply _ hb
  · rw [if_neg (by omega), hn]
    exact conclude_reply _ hb
  · rw [if_neg (by omega), hi]
    have hbare := s.makeLive_bareOfViews c i obj low high (rights.setWidth 4) o.held
    refine ⟨_, conclude_reply _ ((State.makeLive_broken he).trans hb), ?_, ?_⟩
    · rw [State.reply_replies ((State.deaf_of_bareOfViews hbare).trans (State.mailOpen_awake ho)), State.replies_of_bareOfViews hbare]
    · rw [State.viewEntry_reply, State.viewEntry_makeLive he hob (by omega) (by omega)]

/-- R317: VIEWRECYCLE makes a retired entry free. -/
theorem viewRecycled (s : State) (ctx i : Nat) (c : Ctx) (hb : s.broken = none) (ho : s.mailOpen = true) (hc : s.liveCtx ctx = some c) :
    (i = 0 ∨ c.viewEntries ≤ i ∨ (s.viewEntry c i).state ≠ 3 → exec (.viewrecycle ctx i) s = .next (s.reply .badState)) ∧
    (i ≠ 0 → i < c.viewEntries → (s.viewEntry c i).state = 3 → (c.viewAddr i).exists_ 32 = true → ∃ t, exec (.viewrecycle ctx i) s = .next t ∧ t.replies = s.replies ++ [.ok] ∧
      (t.viewEntry c i).state = 0 ∧ (t.viewEntry c i).gen = 0) := by
  rw [show exec (.viewrecycle ctx i) s = execViewrecycle ctx i s from rfl, execViewrecycle, State.mail_open _ ho, hc]
  dsimp only
  constructor
  · intro h
    rw [if_pos h]
    exact conclude_reply _ hb
  · intro h0 hi hst he
    rw [if_neg (by omega)]
    let e : ViewEntry := { s.viewEntry c i with state := 0, gen := 0 }
    have hfits : e.Fits := by
      obtain ⟨hobj, -, -, hlow, hhigh⟩ := s.viewEntry_fits c i
      exact ⟨hobj, show 0 < 16 by decide, show 0 < 256 by decide, hlow, hhigh⟩
    have hbare : ((s.putView c i e).dropCopies ctx i).bareOfViews = s.bareOfViews := s.putView_bareOfViews c i e
    have hview : ((s.putView c i e).dropCopies ctx i).viewEntry c i = e :=
      (State.viewEntry_congr (by exact rfl) (by exact rfl) (by exact rfl) c i).trans (State.viewEntry_putView he hfits)
    refine ⟨((s.putView c i e).dropCopies ctx i).reply .ok, conclude_reply _ ((State.putView_broken (e := e) he).trans hb), ?_, ?_⟩
    · rw [State.reply_replies ((State.deaf_of_bareOfViews hbare).trans (State.mailOpen_awake ho)), State.replies_of_bareOfViews hbare]
    · rw [State.viewEntry_reply, hview]
      exact ⟨rfl, rfl⟩

/-- R347: one page ring for a device. -/
theorem pageRingRegistered (s : State) (ctx : Nat) (ptr : BitVec 64) (ho : s.mailOpen = true) :
    (s.pageRing ≠ none → s.broken = none → exec (.pagering ctx ptr) s = .next (s.reply .badState)) ∧
    ∀ t, s.pageRing = none → s.queueUnread ctx ptr = none → s.addQueue ctx ptr = some t → t.broken = none →
      exec (.pagering ctx ptr) s = .next ({ t with pageRing := some s.queues.length }.reply .ok) := by
  have hexec : exec (.pagering ctx ptr) s = conclude (s.register ctx ptr true) := State.mail_open (fun s => conclude (s.register ctx ptr true)) ho
  constructor
  · intro hp hb
    rw [hexec, State.register, if_pos ⟨rfl, Option.isSome_iff_ne_none.2 hp⟩]
    exact conclude_reply _ hb
  · intro t hp hu ha ht
    rw [hexec, State.register, if_neg (by simp [hp]), hu, ha]
    dsimp only
    rw [if_pos rfl]
    exact conclude_reply _ ht

/-! ### Page commands -/

/-- The step of the fill engine that takes a command of a kind. -/
theorem exec_page (b : Bool) (s : State) : exec (if b = true then .evict else .fill) s = conclude (s.pageTurn b) := by
  cases b <;> rfl

/-- R347: a command of the ring is taken or rejected where none waits. -/
theorem pageTaken (s : State) (i head : Nat) (q : Queue) (c : Ctx) (r : List Byte) (hr : s.pageRing = some i) (hw : ∀ p ∈ s.pageOps, p.waiting = false) :
    let u := s.refreshQueue i
    u.queue? i = some q → u.liveCtx q.ctx = some c → q.state = .active → u.qField c q 0x18 4 = some head → u.recordAt c q head = some r →
    let p := parsePage c.num r
    let step := if p.evict then Instr.evict else Instr.fill
    (u.pageCheck c r ≠ 0 → ∀ v, u.failQueue c i q head 5 (u.pageCheck c r) [] = some v → v.broken = none → exec step s = .next v) ∧
    (u.pageCheck c r = 0 → ∀ v, u.qPut c q 0x18 4 ((head + 1) % 2 ^ 32) = some v →
      let t := ({ v with pageOps := v.pageOps ++ [{ p with waiting := true }] }).refreshQueue i
      let n := t.pageOps.length - 1
      let w := (t.startWaiting p.evict n).getD t
      w.broken = none → exec step s = .next w) := by
  intro u hq hc ha hf hrec p step
  have hnone : (List.range s.pageOps.length).findSome? (s.startWaiting p.evict) = none := by
    refine List.findSome?_eq_none_iff.2 fun j _ => ?_
    unfold State.startWaiting
    split
    · rfl
    · next x hx => rw [if_pos (.inl (hw x (List.mem_of_getElem? hx)))]
  have hturn : s.pageTurn p.evict = if u.pageCheck c r ≠ 0 then (u.failQueue c i q head 5 (u.pageCheck c r) []).getD u
      else match u.qPut c q 0x18 4 ((head + 1) % 2 ^ 32) with
        | none => u
        | some t =>
          let t := { t with pageOps := t.pageOps ++ [{ p with waiting := true }] }.refreshQueue i
          (t.startWaiting p.evict (t.pageOps.length - 1)).getD t := by
    rw [State.pageTurn, hnone]
    dsimp only
    rw [State.takePage, hr]
    dsimp only
    rw [show (s.refreshQueue i).queue? i = some q from hq]
    dsimp only
    rw [show (s.refreshQueue i).liveCtx q.ctx = some c from hc]
    dsimp only
    rw [if_neg (not_not.2 ha), show (s.refreshQueue i).qField c q 0x18 4 = some head from hf]
    dsimp only
    rw [show (s.refreshQueue i).recordAt c q head = some r from hrec]
    dsimp only
    rw [if_neg (not_not.2 rfl)] <;> rfl
  have hexec : exec step s = conclude (s.pageTurn p.evict) := exec_page p.evict s
  constructor
  · intro hn v hv hb
    rw [hexec, hturn, if_pos hn, hv]
    exact conclude_next hb
  · intro hn v hv t n w hb
    rw [hexec, hturn, if_neg (not_not.2 hn), hv]
    exact conclude_next hb

/-- R347: a command that waits starts once nothing before it is for its page. -/
theorem pageStarted (s : State) (i : Nat) (p : PageOp) (hp : s.pageOps[i]? = some p) (hw : p.waiting = true) :
    let go := ({ s with pageOps := eraseAt s.pageOps i }).startPage { p with waiting := false }
    s.startWaiting p.evict i = (if s.pageBusy (s.pageOps.take i) p = true then none else go) ∧
    ((∀ j < i, s.startWaiting p.evict j = none) → s.pageBusy (s.pageOps.take i) p = false → ∀ t, go = some t → t.broken = none →
      exec (if p.evict then .evict else .fill) s = .next t) := by
  intro go
  have hstart : s.startWaiting p.evict i = if s.pageBusy (s.pageOps.take i) p = true then none else go := by
    rw [State.startWaiting, hp]
    dsimp only
    exact if_congr (by simp [hw]) rfl rfl
  refine ⟨hstart, fun hn hbusy t ht hb => ?_⟩
  have hfound : (List.range s.pageOps.length).findSome? (s.startWaiting p.evict) = some t :=
    findSome_range (List.getElem?_eq_some_iff.1 hp).1 hn (by rw [hstart, if_neg (by simp [hbusy])]; exact ht)
  rw [exec_page, State.pageTurn, hfound]
  exact conclude_next hb

/-- R348, R349: an accepted command begins. -/
theorem pageBegun (s : State) (p : PageOp) (c : Ctx) (o : ObjEntry) (l : Leaf) (hl : s.pageLeaf p = some (c, o, l)) (hr : l.refuses p = 0) :
    s.startPage p = some (s.beginPage p l) ∧ (s.beginPage p l).pageOps = s.pageOps ++ [p] := by
  have hops (e : Pte) : (s.putPte l e).pageOps = s.pageOps := by
    have h' := congrArg State.pageOps (s.putPte_bare l e)
    exact h'
  constructor
  · rw [State.startPage, hl]
    exact if_neg (not_not.2 hr)
  · unfold State.beginPage
    dsimp only
    split
    · exact congrArg (· ++ [p]) (hops _)
    · rw [hops]

/-- R348, R349: fills and evictions end. -/
theorem pageEnded (s : State) (i : Nat) (p : PageOp) (c : Ctx) (o : ObjEntry) (l : Leaf) (hb : s.broken = none) (hp : s.pageOps[i]? = some p)
    (hw : p.waiting = false) (hl : s.pageLeaf p = some (c, o, l)) :
    let absent := l.entry.set 0 l.entry.frame false false
    let f := s.fillFrame p o l
    (p.evict = false → f.2 = 0 → let t := ((f.1.freeOpen c o p.obj l).endPage i p c l (l.entry.set 2 l.entry.frame false (p.mode == 2)) 1 0).registerAgain
      t.broken = none → exec (.fillDone i) s = .next t) ∧
    (p.evict = false → f.2 ≠ 0 → (s.endPage i p c l absent 6 f.2).broken = none → exec (.fillDone i) s = .next (s.endPage i p c l absent 6 f.2)) ∧
    (p.evict = true → p.mode % 2 = 0 → (s.endPage i p c l absent 1 0).broken = none → exec (.evictionDone i) s = .next (s.endPage i p c l absent 1 0)) ∧
    (p.evict = true → p.mode % 2 = 1 → s.poolGranted p.source l.size = false →
      let t := s.endPage i p c l (l.entry.set 2 l.entry.frame l.entry.dirty l.entry.expanded) 6 7
      t.broken = none → exec (.evictionDone i) s = .next t) ∧
    (p.evict = true → p.mode % 2 = 1 → s.poolGranted p.source l.size = true → s.poisoned (o.frameAt l.entry.frame) l.size = false →
      let t := (s.copyPage (o.frameAt l.entry.frame) (.pool p.source) l.size).endPage i p c l absent 1 0
      t.broken = none → exec (.evictionDone i) s = .next t) := by
  intro absent f
  have hfill (he : p.evict = false) : exec (.fillDone i) s = if f.2 ≠ 0 then conclude (s.endPage i p c l absent 6 f.2)
      else conclude ((f.1.freeOpen c o p.obj l).endPage i p c l (l.entry.set 2 l.entry.frame false (p.mode == 2)) 1 0).registerAgain := by
    rw [show exec (.fillDone i) s = execFillDone i s from rfl, execFillDone, hp]
    dsimp only
    rw [if_neg (by simp [he, hw]), hl]
  have hevict (he : p.evict = true) : exec (.evictionDone i) s = if p.mode % 2 = 0 then conclude (s.endPage i p c l absent 1 0)
      else if s.poolGranted p.source l.size = false then conclude (s.endPage i p c l (l.entry.set 2 l.entry.frame l.entry.dirty l.entry.expanded) 6 7)
      else if s.poisoned (o.frameAt l.entry.frame) l.size = true then conclude (s.endPage i p c l (l.entry.set 2 l.entry.frame l.entry.dirty l.entry.expanded) 6 4)
      else conclude ((s.copyPage (o.frameAt l.entry.frame) (.pool p.source) l.size).endPage i p c l absent 1 0) := by
    rw [show exec (.evictionDone i) s = execEvictionDone i s from rfl, execEvictionDone, hp]
    dsimp only
    rw [if_neg (by simp [he, hw]), hl]
  refine ⟨fun he hf => ?_, fun he hf ht => ?_, fun he hm ht => ?_, fun he hm hg => ?_, fun he hm hg hpo => ?_⟩
  · intro t ht
    rw [hfill he, if_neg (not_not.2 hf)]
    exact conclude_next ht
  · rw [hfill he, if_pos hf]
    exact conclude_next ht
  · rw [hevict he, if_pos hm]
    exact conclude_next ht
  · intro t ht
    rw [hevict he, if_neg (by omega), if_pos hg]
    exact conclude_next ht
  · intro t ht
    rw [hevict he, if_neg (by omega), if_neg (by simp [hg]), if_neg (by simp [hpo])]
    exact conclude_next ht

/-! ### Errors of the Vault (R350) -/

theorem addPoison_broken (s : State) (p : PAddr) (n : Nat) : (s.addPoison p n).broken = s.broken := State.setPoison_broken _ _ _

theorem addPoison_sameMemory (s : State) (p : PAddr) (n : Nat) : Rule.sameMemory s (s.addPoison p n) :=
  ⟨State.setPoison_vault _ _ _, State.setPoison_pool _ _ _, State.setPoison_locals _ _ _⟩

theorem key_vault (q a : Nat) : (PAddr.vault q a).key = q * vaultBytes + a := rfl

theorem vaultBytes_words : vaultBytes = 4 * 0x30000000 := by decide

theorem poison_setPoison (s : State) (q a b : Nat) (l : List Nat) : (s.setPoison (.vault q a) l).poison (.vault q b) = l := rfl

/-- The words of the Vault that are poisoned after some are added. -/
theorem poison_addPoison (s : State) (q a b n : Nat) : (s.addPoison (.vault q a) n).poison (.vault q b) =
    dedup (((List.range (((PAddr.vault q a).key + n + 3) / 4 - (PAddr.vault q a).key / 4)).map (· + (PAddr.vault q a).key / 4)) ++ s.poison (.vault q a)) := by
  rw [State.addPoison, poison_setPoison]

/-- A word of the Vault that is poisoned has each of its bytes poisoned. -/
theorem poisoned_addPoison (s : State) (q a : Nat) : (s.addPoison (.vault q (a / 4 * 4)) 4).poisoned (.vault q a) 1 = true := by
  unfold State.poisoned
  rw [poison_addPoison, List.any_eq_true]
  refine ⟨q * 0x30000000 + a / 4, mem_dedup.2 (List.mem_append_left _ (List.mem_map.2 ⟨0, List.mem_range.2 ?_, ?_⟩)), ?_⟩
  · rw [key_vault, vaultBytes_words]
    omega
  · rw [key_vault, vaultBytes_words]
    omega
  · rw [key_vault, vaultBytes_words]
    simp only [Bool.and_eq_true, decide_eq_true_eq]
    omega

/-- R350: a single-bit error is counted, and one beyond correction leaves a poisoned word. -/
theorem softErrors (s : State) (q a : Nat) (hb : s.broken = none) (he : (PAddr.vault q a).exists_ 1 = true) :
    exec (.softError q a true) s = .next { s with softErrors := s.softErrors + 1 } ∧
    ∃ t, exec (.softError q a false) s = .next t ∧ Rule.sameMemory s t ∧ t.poisoned (.vault q a) 1 = true := by
  have hexec (b : Bool) : exec (.softError q a b) s = execSoftError q a b s := rfl
  constructor
  · rw [hexec, execSoftError, if_neg (by simp [he]), if_pos rfl]
    exact conclude_next hb
  · refine ⟨s.addPoison (.vault q (a / 4 * 4)) 4, ?_, addPoison_sameMemory _ _ _, poisoned_addPoison s q a⟩
    rw [hexec, execSoftError, if_neg (by simp [he]), if_neg Bool.false_ne_true]
    exact conclude_next ((addPoison_broken _ _ _).trans hb)

/-- R339, R350: a resident page whose frame is lost is poisoned and recorded. -/
theorem frameLost (s : State) (ctx obj off : Nat) (c : Ctx) (o : ObjEntry) (l : Leaf) (hb : s.broken = none) (hc : s.ctx? ctx = some c)
    (ho : s.object? c obj = some o) (hh : o.home ≠ 2) (hl : s.walk o off = .leaf l) :
    let lost := (s.putPte l (l.entry.set 4 l.entry.frame l.entry.dirty l.entry.expanded)).dropLines ctx obj l.base l.size
    let t := lost.errorRecord ctx (mkRecord 0x21 0xFF 0 0 0 obj l.base 0 0 0xFFFF 0 0)
    (l.entry.state = 2 → t.broken = none → exec (.frameLost ctx obj off) s = .next t) ∧
    (l.entry.state ≠ 2 → exec (.frameLost ctx obj off) s = .next s) := by
  intro lost t
  have hexec : exec (.frameLost ctx obj off) s = if l.entry.state ≠ 2 then conclude s else conclude t := by
    rw [show exec (.frameLost ctx obj off) s = execFrameLost ctx obj off s from rfl, execFrameLost, hc]
    dsimp only
    rw [ho]
    dsimp only
    rw [if_neg hh, hl]
  rw [hexec]
  constructor
  · intro h ht
    rw [if_neg (not_not.2 h)]
    exact conclude_next ht
  · intro h
    rw [if_pos h]
    exact conclude_next hb

/-- Settles O56, step by step. -/
theorem viewAndPageSteps : Obligations.ViewAndPageSteps :=
  ⟨viewRooted, viewRecycled, pageRingRegistered, pageTaken, pageStarted, pageBegun, pageEnded, softErrors, frameLost⟩

end Sys2Proof.Proofs
end

section
/-! PROOFS. What links and routers change: one link set, packets returned, held requests released, and what leaves on the links. -/

namespace Sys2Proof.Machine

/-! ### One link -/

theorem State.link_modLink_same {s : State} {l : Nat} (f : Link → Link) (h : l < s.links.length) : (s.modLink l f).link l = f (s.link l) := by
  simp [State.link, State.modLink, List.getD_eq_getElem?_getD, h]

theorem State.link_modLink_other {s : State} {l k : Nat} (f : Link → Link) (h : k ≠ l) : (s.modLink l f).link k = s.link k := by
  simp [State.link, State.modLink, List.getD_eq_getElem?_getD, List.getElem?_modify_ne f s.links (Ne.symm h)]

theorem State.link_of_links {s t : State} (h : t.links = s.links) (k : Nat) : t.link k = s.link k := by
  rw [State.link, State.link, h]

/-! ### What packets on their way leave -/

/-- A state without its packets and the requests that they answer. -/
def State.unrouted (s : State) : State := { s with requests := [], outbox := [], inbox := [], wire := [], linkClock := 0 }

theorem State.links_of_unrouted {s t : State} (h : t.unrouted = s.unrouted) : t.links = s.links := by
  have h' := congrArg State.links h
  exact h'
theorem State.planemap_of_unrouted {s t : State} (h : t.unrouted = s.unrouted) : t.planemap = s.planemap := by
  have h' := congrArg State.planemap h
  exact h'

@[simp] theorem State.tellDomain_unrouted (s : State) (op : BitVec 8) (data : List Byte) : (s.tellDomain op data).unrouted = s.unrouted := rfl

@[simp] theorem State.returnPacket_unrouted (s : State) (p : Packet) : (s.returnPacket p).unrouted = s.unrouted := by
  unfold State.returnPacket
  dsimp only
  split
  · split <;> rfl
  · rfl

@[simp] theorem State.refuseAbsent_unrouted (s : State) (p : Packet) : (s.refuseAbsent p).unrouted = s.unrouted := by
  unfold State.refuseAbsent
  dsimp only
  split
  · rfl
  · split <;> rfl

@[simp] theorem State.releaseSelector_unrouted (s : State) (sel : Nat) : (s.releaseSelector sel).unrouted = s.unrouted := by
  unfold State.releaseSelector
  dsimp only
  split <;> rfl

@[simp] theorem State.releaseHeld_unrouted (s : State) : s.releaseHeld.unrouted = s.unrouted := by
  unfold State.releaseHeld
  split
  · rfl
  · exact foldl_frame State.unrouted _ (fun s i => State.releaseSelector_unrouted s i) _ _

/-- Does plane `q` hold a FAILED link, as this device knows (R355)? -/
def State.planeLost (s : State) (failed : BitVec 8) (q : Nat) : Bool :=
  failed.getLsbD q || s.lostPlanes.getLsbD q || (List.range 6).any fun d => (s.link (6 * q + d)).state == .failed

/-- PLANEMAP with the entries of a plane replaced. -/
def State.newMap (s : State) (plane : Nat) (failed : BitVec 8) : BitVec 32 :=
  BitVec.ofNat 32 (remapEntries s.planemap.toNat plane (nextPlane (s.planeLost failed) plane))

/-- A state with a PLANEMAP. -/
def State.mapped (s : State) (m : BitVec 32) : State := { s with planemap := m }

theorem State.mapped_unrouted (u : State) (m : BitVec 32) : (u.mapped m).unrouted = u.unrouted.mapped m := rfl
theorem State.mapped_link (u : State) (m : BitVec 32) (k : Nat) : (u.mapped m).link k = u.link k := rfl

/-- A remap changes PLANEMAP, and lets what was held back go. -/
theorem State.remapPlane_eq (s : State) (plane : Nat) (failed : BitVec 8) : s.remapPlane plane failed = (s.mapped (s.newMap plane failed)).releaseHeld := rfl

theorem State.remapPlane_unrouted (s : State) (plane : Nat) (failed : BitVec 8) :
    (s.remapPlane plane failed).unrouted = s.unrouted.mapped (s.newMap plane failed) := by
  rw [State.remapPlane_eq, State.releaseHeld_unrouted, State.mapped_unrouted]

/-- The packets on their way have no part in a remap. -/
theorem State.newMap_of_unrouted {s t : State} (h : t.unrouted = s.unrouted) (plane : Nat) (failed : BitVec 8) : t.newMap plane failed = s.newMap plane failed := by
  have hp := State.planemap_of_unrouted h
  have hl := State.links_of_unrouted h
  have hlost : t.lostPlanes = s.lostPlanes := by
    have h' := congrArg State.lostPlanes h
    exact h'
  have hbad : t.planeLost failed = s.planeLost failed := by
    funext q
    simp only [State.planeLost, State.link, hl, hlost]
  rw [State.newMap, State.newMap, hp, hbad]

/-! ### What leaves on the links -/

/-- A link without its buffers, its flits sent and their counts: what no packet that leaves changes. -/
def Link.still (x : Link) : Link := { x with credits := [], freed := [], sent := 0, seq := 0, window := [], stalled := [] }

theorem Link.sendOn_still (x : Link) (ch : Nat) (p : Packet) (free : Nat → Word) : (x.sendOn ch p free).still = x.still := rfl
theorem State.countStalls_still (s : State) (l : Nat) (r : Routed) (x : Link) : (s.countStalls l r x).still = x.still := rfl

theorem map_set_still {ls : List Link} {l : Nat} {y : Link} (h : y.still = (ls.getD l {}).still) : (ls.set l y).map Link.still = ls.map Link.still := by
  refine List.ext_getElem? fun i => ?_
  rw [List.getElem?_map, List.getElem?_map, List.getElem?_set]
  split
  · next hi =>
    subst hi
    split
    · next hl => simp [h, List.getD_eq_getElem?_getD, hl]
    · next hl => simp [List.getElem?_eq_none (Nat.not_lt.1 hl)]
  · rfl

/-- What every step of a fold keeps. -/
theorem foldl_keeps {α β γ : Type} (g : α → γ) {f : α → β → α} (h : ∀ a b, g (f a b) = g a) (l : List β) (a : α) : g (l.foldl f a) = g a := by
  induction l generalizing a with
  | nil => rfl
  | cons b l ih => exact (ih _).trans (h a b)

theorem State.routeOne_still (s : State) (r : Routed) (p : Packet) : (s.routeOne r p).links.map Link.still = r.links.map Link.still := by
  unfold State.routeOne
  split
  · split <;> rfl
  · dsimp only
    split
    · rfl
    · split
      · exact map_set_still (Link.sendOn_still _ _ _ _)
      · rfl

/-- A state without packets and links. -/
def State.unlinked (s : State) : State := { s.unrouted with links := [] }

theorem State.unlinked_of_unrouted {s t : State} (h : t.unrouted = s.unrouted) : t.unlinked = s.unlinked := by
  rw [State.unlinked, State.unlinked, h]

/-- What the routers change beside packets: the buffers of links and their counts. -/
theorem State.forward_still (s : State) : s.forward.unlinked = s.unlinked ∧ s.forward.links.map Link.still = s.links.map Link.still := by
  unfold State.forward
  split
  · exact ⟨rfl, rfl⟩
  · dsimp only
    generalize hr : s.outbox.foldl s.routeOne { links := s.links } = r
    generalize hlinks : (((List.range r.links.length).zip r.links).map fun e => s.countStalls e.1 r e.2) = links
    have hstill : links.map Link.still = s.links.map Link.still := by
      have hfold : r.links.map Link.still = s.links.map Link.still := by
        rw [← hr]
        exact foldl_keeps (fun r : Routed => r.links.map Link.still) (fun r p => s.routeOne_still r p) _ _
      have hsnd : links.map Link.still = ((List.range r.links.length).zip r.links).map fun e => e.2.still := by
        rw [← hlinks, List.map_map]
        exact List.map_congr_left fun e _ => s.countStalls_still e.1 r e.2
      rw [hsnd, ← hfold, show (fun e : Nat × Link => e.2.still) = Link.still ∘ Prod.snd from rfl, ← List.map_map,
        List.map_snd_zip (by simp)]
    have hlost : (r.lost.foldl State.refuseAbsent { s with links, outbox := r.kept, wire := s.wire ++ r.wire, linkClock := s.now }).unrouted =
        { s.unrouted with links } := foldl_frame State.unrouted _ (fun s p => State.refuseAbsent_unrouted s p) _ _
    have hend (t : State) (ht : t.unrouted = { s.unrouted with links }) : t.unlinked = s.unlinked ∧ t.links.map Link.still = s.links.map Link.still := by
      have h1 := congrArg (fun u : State => { u with links := [] }) ht
      have h2 := congrArg State.links ht
      exact ⟨h1, (congrArg (List.map Link.still) h2).trans hstill⟩
    split
    · exact hend _ hlost
    · refine hend _ ?_
      rw [State.releaseHeld_unrouted, foldl_frame State.unrouted _ (fun s p => State.returnPacket_unrouted s p), hlost]

theorem link_still_of_map {s t : State} (h : t.links.map Link.still = s.links.map Link.still) (k : Nat) : (t.link k).still = (s.link k).still := by
  have hk := congrArg (fun l => l.getD k (Link.still {})) h
  rw [List.getD_map, List.getD_map] at hk
  exact hk

/-- Links that differ in buffers and counts alone. -/
theorem Link.of_still {x y : Link} (h : y.still = x.still) :
    { y with credits := x.credits, freed := x.freed, sent := x.sent, seq := x.seq, window := x.window, stalled := x.stalled } = x := by
  have h' := congrArg (fun z : Link => { z with credits := x.credits, freed := x.freed, sent := x.sent, seq := x.seq, window := x.window, stalled := x.stalled }) h
  exact h'

/-! ### A link set to a state (R353) -/

section
variable {s : State} {l : Nat}

/-- A link that is set to a state that is not FAILED, and the report of it. -/
theorem State.setLink_eq {st : LinkState} (f : Link → Link) (hd : s.deaf = false) (hst : st ≠ .failed) :
    s.setLink l st f = { (s.modLink l fun x => { f x with state := st }) with replies := s.replies ++ [.link l st] } := by
  unfold State.setLink
  rw [State.reply_awake (s := s.modLink l _) _ hd]
  exact if_neg hst

theorem State.setLink_link {st : LinkState} (f : Link → Link) (hl : l < s.links.length) (hd : s.deaf = false) (hst : st ≠ .failed) :
    (s.setLink l st f).link l = { f (s.link l) with state := st } := by
  rw [State.setLink_eq f hd hst]
  exact State.link_modLink_same (fun x => { f x with state := st }) hl

theorem State.setLink_moved {st : LinkState} {n : Nat} (f : Link → Link) (hl : l < s.links.length) (hd : s.deaf = false) (hst : st ≠ .failed)
    (hn : (f (s.link l)).lanes = n) : Rule.linkMoved s (s.setLink l st f) l st n := by
  have hlink := State.setLink_link f hl hd hst
  rw [State.setLink_eq f hd hst] at hlink ⊢
  exact ⟨⟨by rw [hlink], by rw [hlink]; exact hn, fun k hk => State.link_modLink_other (fun x => { f x with state := st }) hk, ⟨rfl, rfl, rfl⟩,
    ⟨rfl, rfl, rfl, rfl, rfl⟩⟩, rfl⟩

theorem State.setLink_broken {st : LinkState} (f : Link → Link) (hd : s.deaf = false) (hst : st ≠ .failed) : (s.setLink l st f).broken = s.broken := by
  rw [State.setLink_eq f hd hst]
  rfl

/-- A plane takes over by what is said of the other planes alone. -/
theorem nextPlane_congr {f g : Nat → Bool} {p : Nat} (hp : p < 8) (h : ∀ q, q < 8 → q ≠ p → f q = g q) : nextPlane f p = nextPlane g p := by
  have hfind : (((List.range 7).map fun i => (p + 1 + i) % 8).find? fun q => !f q) = ((List.range 7).map fun i => (p + 1 + i) % 8).find? fun q => !g q := by
    refine List.find?_congr fun q hq => ?_
    obtain ⟨i, hi, rfl⟩ := List.mem_map.1 hq
    have hi := List.mem_range.1 hi
    rw [h _ (by omega) (by omega)]
  rw [nextPlane, nextPlane, hfind]

/-- What follows the failure of a link on a plane, in the state where the link is FAILED and its packets have returned. -/
theorem remap_forward {u v : State} (h : v.unrouted = u.unrouted) (plane : Nat) (failed : BitVec 8) :
    (v.remapPlane plane failed).forward.unlinked = (u.mapped (u.newMap plane failed)).unlinked ∧
      ∀ k, ((v.remapPlane plane failed).forward.link k).still = (u.link k).still := by
  have hremap : (v.remapPlane plane failed).unrouted = (u.mapped (u.newMap plane failed)).unrouted := by
    rw [State.remapPlane_unrouted, State.newMap_of_unrouted h, h, State.mapped_unrouted]
  obtain ⟨hun, hst⟩ := (v.remapPlane plane failed).forward_still
  refine ⟨hun.trans (State.unlinked_of_unrouted hremap), fun k => ?_⟩
  rw [link_still_of_map hst k, State.link_of_links (State.links_of_unrouted hremap), State.mapped_link]

section
variable {t u : State} {m : BitVec 32} (h : t.unlinked = (u.mapped m).unlinked)
include h

theorem planemap_of_mapped : t.planemap = m := by
  have h' := congrArg State.planemap h
  exact h'

theorem replies_of_mapped : t.replies = u.replies := by
  have h' := congrArg State.replies h
  exact h'

theorem broken_of_mapped : t.broken = u.broken := by
  have h' := congrArg State.broken h
  exact h'

theorem sameMemory_of_mapped : Rule.sameMemory u t := by
  have h1 := congrArg State.vault h
  have h2 := congrArg State.pool h
  have h3 := congrArg State.locals h
  exact ⟨h1, h2, h3⟩

theorem sameRegisters_of_mapped : Rule.sameRegisters u t := by
  have h1 := congrArg State.vregs h
  have h2 := congrArg State.fills h
  have h3 := congrArg State.uregs h
  have h4 := congrArg State.tiles h
  have h5 := congrArg State.regions h
  exact ⟨h1, h2, h3, h4, h5⟩

end

/-- The state in which a link has just failed: reported, its replay buffer empty. -/
def State.failing (s : State) (l : Nat) : State :=
  { (s.modLink l fun x => { x with state := .failed, window := [] }) with replies := s.replies ++ [.link l .failed] }

theorem State.modLink_modLink (s : State) (l : Nat) (f g : Link → Link) : (s.modLink l f).modLink l g = s.modLink l fun x => g (f x) := by
  unfold State.modLink
  rw [List.modify_modify_eq]
  rfl

/-- A link that fails leaves what a remap of its plane and the routers make of that. -/
theorem State.setLink_failed_eq (hd : s.deaf = false) : ∃ v : State, s.setLink l .failed id = (v.remapPlane (l / 6) 0).forward ∧
    v.unrouted = (s.failing l).unrouted := by
  unfold State.setLink
  dsimp only
  rw [if_pos rfl]
  refine ⟨_, rfl, ?_⟩
  rw [foldl_frame State.unrouted _ (fun s p => State.returnPacket_unrouted s p), State.tellDomain_unrouted, State.reply_awake (s := s.modLink l _) _ hd]
  exact congrArg (fun t : State => { t.unrouted with replies := s.replies ++ [Reply.link l .failed] })
    (State.modLink_modLink s l (fun x => { x with state := .failed }) fun x => { x with window := [] })

/-- Of the planes beside its own a failing link says nothing. -/
theorem nextPlane_failing (hl : l < 48) : nextPlane ((s.failing l).planeLost 0) (l / 6) =
    nextPlane (fun q => s.lostPlanes.getLsbD q || (List.range 6).any fun d => (s.link (6 * q + d)).state == .failed) (l / 6) := by
  refine nextPlane_congr (by omega) fun q hq hne => ?_
  have hany : ((List.range 6).any fun d => ((s.failing l).link (6 * q + d)).state == .failed) = (List.range 6).any fun d => (s.link (6 * q + d)).state == .failed := by
    rw [Bool.eq_iff_iff, List.any_eq_true, List.any_eq_true]
    refine exists_congr fun d => and_congr_right fun hd => ?_
    have hd := List.mem_range.1 hd
    have hother : (s.failing l).link (6 * q + d) = s.link (6 * q + d) := State.link_modLink_other (fun x => { x with state := .failed, window := [] }) (by omega)
    rw [hother]
  rw [State.planeLost, hany, show (0 : BitVec 8).getLsbD q = false from BitVec.getLsbD_zero, Bool.false_or]
  rfl

/-- A link that fails: it alone is FAILED, and PLANEMAP leaves its plane (R355, R363). -/
theorem State.setLink_failed (hl : l < 48) (hlen : s.links.length = 48) (hd : s.deaf = false) :
    Rule.linkFailed s (s.setLink l .failed id) l ∧ (s.setLink l .failed id).broken = s.broken := by
  obtain ⟨v, hset, hv⟩ := State.setLink_failed_eq (l := l) hd
  obtain ⟨hframe, hstill⟩ := remap_forward hv (l / 6) 0
  rw [← hset] at hframe hstill
  have hself : ((s.setLink l .failed id).link l).still = ({ s.link l with state := .failed, window := [] } : Link).still := by
    rw [hstill]
    exact congrArg Link.still (State.link_modLink_same (fun x => { x with state := .failed, window := [] }) (by omega))
  have hother (k : Nat) (hk : k ≠ l) : (s.failing l).link k = s.link k := State.link_modLink_other (fun x => { x with state := .failed, window := [] }) hk
  have hmap := planemap_of_mapped hframe
  rw [State.newMap, nextPlane_failing hl] at hmap
  have hstate := congrArg Link.state hself
  have hlanes := congrArg Link.lanes hself
  exact ⟨⟨hstate, hlanes, replies_of_mapped hframe, hmap, fun k hk => Link.of_still (by rw [hstill, hother k hk]), (sameMemory_of_mapped hframe :),
    (sameRegisters_of_mapped hframe :)⟩, (broken_of_mapped hframe :)⟩

end

end Sys2Proof.Machine
end

section
/-! PROOFS. O59: link states and their reports. -/

namespace Sys2Proof.Proofs
open Machine

section
variable {s : State} {l : Nat}

/-! ### Events and commands of a link (R353) -/

/-- An event in a state that has no row for it changes nothing. -/
theorem linkEvent_none (hb : s.broken = none) (from_ : List LinkState) (f : State → State) (h : (s.link l).state ∉ from_) :
    conclude (s.linkEvent l from_ f) = .next s := by
  rw [State.linkEvent_ignored f (.inr (.inl h))]
  exact conclude_next hb

/-- An event in a state that has a row for it. -/
theorem linkEvent_goes (hh : s.hasLink l = true) (ho : s.linkOff l = false) {from_ : List LinkState} (f : State → State)
    (h : (s.link l).state ∈ from_) (hb : (f s).broken = none) : conclude (s.linkEvent l from_ f) = .next (f s) := by
  rw [State.linkEvent_taken f hh ho h]
  exact conclude_next hb

/-- A command that changes a link is answered after the report. -/
theorem linkTold_of_moved {t : State} {st : LinkState} {n : Nat} (hd : t.deaf = false) (h : Rule.linkMoved s t l st n) : Rule.linkTold s (t.reply .ok) l st n := by
  obtain ⟨⟨hst, hn, ho, hm, hr⟩, hrep⟩ := h
  rw [State.reply_awake _ hd]
  exact ⟨⟨hst, hn, ho, hm, hr⟩, by simp [hrep]⟩

section
variable (hb : s.broken = none) (hh : s.hasLink l = true) (hlen : s.links.length = 48) (ho : s.linkOff l = false) (hd : s.deaf = false)
include hb hh hlen ho hd

/-- A command in its state sets the link, reports it and is answered. -/
theorem linkCommand_goes {from_ st : LinkState} (f : Link → Link) (hs : (s.link l).state = from_) (hst : st ≠ .failed) (hl : l < 48)
    (hn : (f (s.link l)).lanes = (s.link l).lanes) :
    ∃ t, conclude (s.linkCommand l from_ fun s => s.setLink l st f) = .next t ∧ Rule.linkTold s t l st (s.link l).lanes := by
  have hmoved := State.setLink_moved f (by omega) hd hst hn
  have hdeaf : (s.setLink l st f).deaf = false := by
    rw [State.setLink_eq f hd hst]
    exact hd
  refine ⟨(s.setLink l st f).reply .ok, ?_, linkTold_of_moved hdeaf hmoved⟩
  rw [State.linkCommand_taken _ hd ho hh hs]
  exact conclude_reply _ ((State.setLink_broken f hd hst).trans hb)

omit hh hlen ho in
theorem linkCommand_bad {from_ : LinkState} (f : State → State) (hs : (s.link l).state ≠ from_) :
    conclude (s.linkCommand l from_ f) = .next (s.reply .badState) := by
  rw [State.linkCommand_refused f hd hs]
  exact conclude_reply _ hb

omit hb ho hd hlen in
theorem hasLink_lt : l < 48 := by
  unfold State.hasLink at hh
  simp only [Bool.and_eq_true, decide_eq_true_eq] at hh
  exact hh.1

/-- A link that is set by an event, and the report. -/
theorem linkEvent_moves {i : Instr} {from_ : List LinkState} {f : State → State} {st : LinkState} {n : Nat} (hi : exec i s = conclude (s.linkEvent l from_ f))
    (g : Link → Link) (hs : (s.link l).state ∈ from_)
    (hf : f s = s.setLink l st g) (hst : st ≠ .failed) (hn : (g (s.link l)).lanes = n) :
    ∃ t, exec i s = .next t ∧ Rule.linkMoved s t l st n ∧ t.link l = { g (s.link l) with state := st } := by
  have hl := hasLink_lt hh
  refine ⟨s.setLink l st g, ?_, State.setLink_moved g (by omega) hd hst hn, State.setLink_link g (by omega) hd hst⟩
  rw [hi, ← hf]
  exact linkEvent_goes hh ho f hs (by rw [hf]; exact (State.setLink_broken g hd hst).trans hb)

/-- A link that fails by an event. -/
theorem linkEvent_fails {i : Instr} {from_ : List LinkState} {f : State → State} (hi : exec i s = conclude (s.linkEvent l from_ f))
    (hs : (s.link l).state ∈ from_) (hf : f s = s.setLink l .failed id) : ∃ t, exec i s = .next t ∧ Rule.linkFailed s t l := by
  obtain ⟨hfailed, hbroken⟩ := State.setLink_failed (hasLink_lt hh) hlen hd
  refine ⟨s.setLink l .failed id, ?_, hfailed⟩
  rw [hi, ← hf]
  exact linkEvent_goes hh ho f hs (by rw [hf]; exact hbroken.trans hb)

/-! ### The rows of R353 -/

theorem linkTrain_rows : ((s.link l).state = .down → ∃ t, exec (.linkTrain l) s = .next t ∧ Rule.linkTold s t l .training (s.link l).lanes) ∧
    ((s.link l).state ≠ .down → exec (.linkTrain l) s = .next (s.reply .badState)) :=
  ⟨fun h => linkCommand_goes hb hh hlen ho hd id h (by decide) (hasLink_lt hh) rfl, fun h => linkCommand_bad hb hd _ h⟩

theorem linkTrained_rows (lanes : Nat) :
    ((s.link l).state = .training → lanes < 2 → ∃ t, exec (.linkTrained l lanes) s = .next t ∧ Rule.linkFailed s t l) ∧
    ((s.link l).state = .training → 2 ≤ lanes → lanes ≤ 4 → ∃ t, exec (.linkTrained l lanes) s = .next t ∧ Rule.linkMoved s t l .keying lanes) ∧
    ((s.link l).state ≠ .training → exec (.linkTrained l lanes) s = .next s) := by
  refine ⟨fun h hl => linkEvent_fails hb hh hlen ho hd rfl (by simp [h]) (if_pos hl), fun h h2 h4 => ?_, fun h => linkEvent_none hb _ _ (by simpa using h)⟩
  obtain ⟨t, he, hm, -⟩ := linkEvent_moves hb hh hlen ho hd (i := .linkTrained l lanes) (st := .keying) rfl (fun x => { x with lanes := min lanes 4 }) (by simp [h])
    (if_neg (by omega)) (by decide) (show min lanes 4 = lanes by omega)
  exact ⟨t, he, hm⟩

theorem linkTrainingTimeout_rows : ((s.link l).state = .training → ∃ t, exec (.linkTrainingTimeout l) s = .next t ∧ Rule.linkFailed s t l) ∧
    ((s.link l).state ≠ .training → exec (.linkTrainingTimeout l) s = .next s) :=
  ⟨fun h => linkEvent_fails hb hh hlen ho hd rfl (by simp [h]) rfl, fun h => linkEvent_none hb _ _ (by simpa using h)⟩

theorem linkKeyed_rows : ((s.link l).state = .keying → (∃ t, exec (.linkKeyed l false) s = .next t ∧ Rule.linkFailed s t l) ∧
      ∃ t, exec (.linkKeyed l true) s = .next t ∧ Rule.linkMoved s t l (if 4 ≤ (s.link l).lanes then .up else .degraded) (s.link l).lanes ∧
        (t.link l).keyEpoch = (s.link l).keyEpoch + 1) ∧
    ((s.link l).state ≠ .keying → ∀ ok, exec (.linkKeyed l ok) s = .next s) := by
  refine ⟨fun h => ⟨linkEvent_fails hb hh hlen ho hd rfl (by simp [h]) rfl, ?_⟩, fun h ok => linkEvent_none hb _ _ (by simpa using h)⟩
  obtain ⟨t, he, hm, hlink⟩ := linkEvent_moves hb hh hlen ho hd (i := .linkKeyed l true) (st := upState (s.link l).lanes) (n := (s.link l).lanes) rfl Link.opened
    (by simp [h]) (if_pos rfl) (by unfold upState; split <;> decide) rfl
  exact ⟨t, he, hm, by rw [hlink]; rfl⟩

theorem laneLost_rows : ((s.link l).state = .up ∨ (s.link l).state = .degraded →
      (2 < (s.link l).lanes → ∃ t, exec (.laneLost l) s = .next t ∧ Rule.linkMoved s t l .degraded ((s.link l).lanes - 1)) ∧
      ((s.link l).lanes ≤ 2 → ∃ t, exec (.laneLost l) s = .next t ∧ Rule.linkFailed s t l)) ∧
    ((s.link l).state ≠ .up → (s.link l).state ≠ .degraded → exec (.laneLost l) s = .next s) := by
  refine ⟨fun h => ⟨fun h2 => ?_, fun h2 => linkEvent_fails hb hh hlen ho hd rfl (by simpa using h) (if_pos (by omega))⟩,
    fun h1 h2 => linkEvent_none hb _ _ (by simp [h1, h2])⟩
  obtain ⟨t, he, hm, -⟩ := linkEvent_moves hb hh hlen ho hd (i := .laneLost l) (st := .degraded) rfl (fun x => { x with lanes := (s.link l).lanes - 1 })
    (by simpa using h) (if_neg (by omega)) (by decide) rfl
  exact ⟨t, he, hm⟩

theorem crcErrorThreshold_rows : ((s.link l).state = .up → (∀ c, (s.link l).crcErrors[15]? = some c →
        (s.now ≤ c + 2 ^ 20 → ∃ t, exec (.crcErrorThreshold l) s = .next t ∧ Rule.linkMoved s t l .retraining (s.link l).lanes) ∧
        (c + 2 ^ 20 < s.now → exec (.crcErrorThreshold l) s = .next s)) ∧
      ((s.link l).crcErrors[15]? = none → exec (.crcErrorThreshold l) s = .next s)) ∧
    ((s.link l).state ≠ .up → exec (.crcErrorThreshold l) s = .next s) := by
  refine ⟨fun h => ⟨fun c hc => ⟨fun ht => ?_, fun ht => ?_⟩, fun hc => ?_⟩, fun h => linkEvent_none hb _ _ (by simpa using h)⟩
  · obtain ⟨t, he, hm, -⟩ := linkEvent_moves hb hh hlen ho hd (i := .crcErrorThreshold l) (st := .retraining) (n := (s.link l).lanes) rfl
      (fun x => { x with crcErrors := [], failures := 0 }) (by simp [h])
      (by rw [hc]; exact if_pos ht) (by decide) rfl
    exact ⟨t, he, hm⟩
  · rw [show exec (.crcErrorThreshold l) s = execCrcErrorThreshold l s from rfl, execCrcErrorThreshold, State.linkEvent_taken _ hh ho (by simp [h]), hc]
    dsimp only
    rw [if_neg (by omega)]
    exact conclude_next hb
  · rw [show exec (.crcErrorThreshold l) s = execCrcErrorThreshold l s from rfl, execCrcErrorThreshold, State.linkEvent_taken _ hh ho (by simp [h]), hc]
    exact conclude_next hb

theorem linkRetrain_rows : ((s.link l).state = .degraded → ∃ t, exec (.linkRetrain l) s = .next t ∧ Rule.linkTold s t l .retraining (s.link l).lanes) ∧
    ((s.link l).state ≠ .degraded → exec (.linkRetrain l) s = .next (s.reply .badState)) :=
  ⟨fun h => linkCommand_goes hb hh hlen ho hd _ h (by decide) (hasLink_lt hh) rfl, fun h => linkCommand_bad hb hd _ h⟩

theorem linkRepair_rows : ((s.link l).state = .failed → ∃ t, exec (.linkRepair l) s = .next t ∧ Rule.linkTold s t l .down (s.link l).lanes) ∧
    ((s.link l).state ≠ .failed → exec (.linkRepair l) s = .next (s.reply .badState)) :=
  ⟨fun h => linkCommand_goes hb hh hlen ho hd _ h (by decide) (hasLink_lt hh) rfl, fun h => linkCommand_bad hb hd _ h⟩

/-- A link whose fields alone change, but for its state and lanes, by an event that reports nothing. -/
theorem linkEvent_leaves {e : Instr} {from_ : List LinkState} {f : State → State} (he : exec e s = conclude (s.linkEvent l from_ f)) (g : Link → Link)
    (hs : (s.link l).state ∈ from_) (w : List (Nat × LinkItem)) (i : List Packet) (hf : f s = ({ s with wire := w, inbox := i } : State).modLink l g) (hst : (g (s.link l)).state = (s.link l).state) (hn : (g (s.link l)).lanes = (s.link l).lanes) :
    ∃ t, exec e s = .next t ∧ Rule.linkLeft s t l (s.link l).state (s.link l).lanes ∧ t.link l = g (s.link l) ∧ t.replies = s.replies ∧
      t.wire = w ∧ t.inbox = i := by
  have hl := hasLink_lt hh
  have hlink : (({ s with wire := w, inbox := i } : State).modLink l g).link l = g (s.link l) :=
    State.link_modLink_same (s := { s with wire := w, inbox := i }) g (show l < s.links.length by omega)
  refine ⟨({ s with wire := w, inbox := i } : State).modLink l g, ?_,
    ⟨by rw [hlink, hst], by rw [hlink, hn], fun k hk => State.link_modLink_other (s := { s with wire := w, inbox := i }) g hk, ⟨rfl, rfl, rfl⟩, ⟨rfl, rfl, rfl, rfl, rfl⟩⟩,
    hlink, rfl, rfl, rfl⟩
  rw [he, ← hf]
  exact linkEvent_goes hh ho f hs (by rw [hf]; exact hb)

theorem retrainingDone_rows (lanes : Nat) : ((s.link l).state = .retraining →
      (2 ≤ lanes → lanes ≤ 4 → ∃ t, exec (.retrainingDone l lanes) s = .next t ∧ Rule.linkMoved s t l (if 4 ≤ lanes then .up else .degraded) lanes ∧ (t.link l).failures = 0) ∧
      (lanes < 2 → (s.link l).failures < 2 → ∃ t, exec (.retrainingDone l lanes) s = .next t ∧ Rule.linkLeft s t l .retraining (s.link l).lanes ∧
        (t.link l).failures = (s.link l).failures + 1 ∧ t.replies = s.replies) ∧
      (lanes < 2 → 2 ≤ (s.link l).failures → ∃ t, exec (.retrainingDone l lanes) s = .next t ∧ Rule.linkFailed s t l)) ∧
    ((s.link l).state ≠ .retraining → exec (.retrainingDone l lanes) s = .next s) := by
  refine ⟨fun h => ⟨fun h2 h4 => ?_, fun h2 hf => ?_, fun h2 hf => ?_⟩, fun h => linkEvent_none hb _ _ (by simpa using h)⟩
  · obtain ⟨t, he, hm, hlink⟩ := linkEvent_moves hb hh hlen ho hd (i := .retrainingDone l lanes) (st := upState lanes) (n := lanes) rfl
      (fun x => { x.rekeyed with failures := 0, lanes := min lanes 4 }) (by simp [h]) (if_pos h2) (by unfold upState; split <;> decide) (show min lanes 4 = lanes by omega)
    exact ⟨t, he, hm, by rw [hlink]⟩
  · obtain ⟨t, he, hleft, hlink, hrep, -, -⟩ := linkEvent_leaves hb hh hlen ho hd (e := .retrainingDone l lanes) rfl (fun x => { x with failures := x.failures + 1 })
      (by simp [h]) s.wire s.inbox ((if_neg (by omega)).trans (if_neg (by omega))) rfl rfl
    rw [h] at hleft
    exact ⟨t, he, hleft, by rw [hlink], hrep⟩
  · exact linkEvent_fails hb hh hlen ho hd rfl (by simp [h]) ((if_neg (by omega)).trans (if_pos (by omega)))

/-! ### Timers and flits -/

omit hlen ho hd hh in
/-- A link that is neither UP nor DEGRADED takes no flit, no new key and no count of its timers. -/
theorem link_idle (h1 : (s.link l).state ≠ .up) (h2 : (s.link l).state ≠ .degraded) : exec (.rekey l) s = .next s ∧
    (∀ vc moving, exec (.noProgressTimer l vc moving) s = .next s) ∧ ∀ item, exec (.flitReceive l item) s = .next s := by
  have hno (f : State → State) : conclude (s.linkEvent l [.up, .degraded] f) = .next s := linkEvent_none hb _ f (by simp [h1, h2])
  refine ⟨hno _, fun vc moving => ?_, fun item => hno _⟩
  rw [show exec (.noProgressTimer l vc moving) s = execNoProgressTimer l vc moving s from rfl, execNoProgressTimer]
  split
  · exact conclude_next hb
  · exact hno _

section
variable (hup : (s.link l).state = .up ∨ (s.link l).state = .degraded)
include hup

theorem rekey_rows : (2 ^ 32 ≤ (s.link l).flits ∨ 2 ^ 32 ≤ (s.link l).sent → ∃ t, exec (.rekey l) s = .next t ∧
        Rule.linkLeft s t l (s.link l).state (s.link l).lanes ∧ (t.link l).keyEpoch = (s.link l).keyEpoch + 1 ∧ (t.link l).flits = 0 ∧
        (t.link l).sent = 0 ∧ t.replies = s.replies) ∧
    ((s.link l).flits < 2 ^ 32 → (s.link l).sent < 2 ^ 32 → exec (.rekey l) s = .next s) := by
  constructor
  · intro h
    obtain ⟨t, he, hleft, hlink, hrep, -, -⟩ := linkEvent_leaves hb hh hlen ho hd (e := .rekey l) rfl Link.rekeyed (by simpa using hup) s.wire s.inbox (if_pos h) rfl rfl
    exact ⟨t, he, hleft, by rw [hlink]; rfl, by rw [hlink]; rfl, by rw [hlink]; rfl, hrep⟩
  · intro h1 h2
    rw [show exec (.rekey l) s = execRekey l s from rfl, execRekey, State.linkEvent_taken _ hh ho (by simpa using hup), if_neg (by omega)]
    exact conclude_next hb

omit hlen in
theorem noProgress_early (vc : Nat) (moving : Bool) (hv : vc < 8) (ht : s.timersStand = false) (hs : (s.link l).stalled.getD vc 0 < 2 ^ 20) :
    exec (.noProgressTimer l vc moving) s = .next s := by
  rw [show exec (.noProgressTimer l vc moving) s = execNoProgressTimer l vc moving s from rfl, execNoProgressTimer, if_neg (by simp [ht]; omega),
    State.linkEvent_taken _ hh ho (by simpa using hup), if_pos hs]
  exact conclude_next hb

theorem noProgress_due (vc : Nat) (hv : vc < 8) (ht : s.timersStand = false) (hs : 2 ^ 20 ≤ (s.link l).stalled.getD vc 0) :
    exec (.noProgressTimer l vc true) s = .next ({ s with slowLog := s.slowLog ++ [(l, vc)] }.modLink l fun x => { x with stalled := x.stalled.set vc 0 }) ∧
    ∃ t, exec (.noProgressTimer l vc false) s = .next t ∧ Rule.linkMoved s t l .retraining (s.link l).lanes := by
  have hgo (moving : Bool) : ¬(s.timersStand = true ∨ 7 < vc) := by simp [ht]; omega
  constructor
  · rw [show exec (.noProgressTimer l vc true) s = execNoProgressTimer l vc true s from rfl, execNoProgressTimer, if_neg (hgo true),
      State.linkEvent_taken _ hh ho (by simpa using hup), if_neg (by omega), if_pos rfl]
    exact conclude_next hb
  · obtain ⟨t, he, hm, -⟩ := linkEvent_moves hb hh hlen ho hd (i := .noProgressTimer l vc false) (st := .retraining) (n := (s.link l).lanes)
      (if_neg (hgo false)) (fun x => { x with failures := 0, stalled := List.replicate 8 0 }) (by simpa using hup) ((if_neg (by omega)).trans (if_neg Bool.false_ne_true))
      (by decide) rfl
    exact ⟨t, he, hm⟩

omit hlen hh ho hd hup in
theorem noProgress_suspended (h : s.dbghold ≠ 0 ∨ s.deepHalt = true) (vc : Nat) (moving : Bool) : exec (.noProgressTimer l vc moving) s = .next s := by
  rw [show exec (.noProgressTimer l vc moving) s = execNoProgressTimer l vc moving s from rfl, execNoProgressTimer, if_pos]
  · exact conclude_next hb
  · exact .inl (by simpa [State.timersStand] using h)

omit hb hh hlen ho hd hup in
/-- What the receiver does with a flit, as its link shows (R358). -/
theorem took_flit (x : Link) (now : Nat) (f : Flit) :
    (x.took now f).expect = (if flitGood f = true ∧ flitSeq f = x.expect then x.expect + 1 else x.expect) ∧
    (x.took now f).replays = (x.replays + if flitGood f then 0 else 1) ∧
    (flitGood f = true → flitSeq f = x.expect → (x.took now f).credits = x.credits.modify (flitChannel f) (· + flitCredits f)) ∧
    (x.took now f).state = x.state ∧ (x.took now f).lanes = x.lanes := by
  unfold Link.took
  dsimp only
  cases hg : flitGood f with
  | false => simp
  | true =>
    by_cases hs : flitSeq f = x.expect <;> simp [hs]

omit hb hh hlen ho hd hup in
theorem tells_flit (x : Link) (l : Nat) (f : Flit) : (x.tells f).map (fun i => (l, i)) =
    if flitGood f = false then [(l, .replay x.expect)] else if flitSeq f = x.expect then [(l, .ack (flitSeq f))] else [] := by
  unfold Link.tells
  split
  · rfl
  · split <;> rfl

omit hb hh hlen ho hd hup in
/-- A flit that completes a packet is the next in order, and undamaged. -/
theorem packetAt_good {x : Link} {plane : Nat} {f : Flit} {p : Packet} (h : x.packetAt plane f = some p) : flitGood f = true ∧ flitSeq f = x.expect ∧ flitLast f = true := by
  unfold Link.packetAt at h
  split at h
  · next hg => exact hg
  · exact absurd h (by simp)

theorem flit_rows (f : Flit) : ((s.link l).packetAt (l / 6) f = none → ∃ t, exec (.flitReceive l (.flit f)) s = .next t ∧
        Rule.linkLeft s t l (s.link l).state (s.link l).lanes ∧ t.inbox = s.inbox ∧ Rule.flitTaken s t l f) ∧
    ∀ p, (s.link l).packetAt (l / 6) f = some p → s.isHere p = true → ∃ t, exec (.flitReceive l (.flit f)) s = .next t ∧
      Rule.linkLeft s t l (s.link l).state (s.link l).lanes ∧
      t.inbox = s.inbox ++ [p] ∧ Rule.flitTaken s t l f ∧ flitGood f = true ∧ flitSeq f = (s.link l).expect ∧ flitLast f = true := by
  obtain ⟨hexpect, hreplays, hcredits, hstate, hlanes⟩ := took_flit (s.link l) s.now f
  have htaken (t : State) (hlink : t.link l = (s.link l).took s.now f) (hwire : t.wire = s.wire ++ ((s.link l).tells f).map fun i => (l, i)) : Rule.flitTaken s t l f := by
    refine ⟨?_, ?_, ?_, ?_⟩
    · rw [hlink, hexpect]
    · rw [hlink, hreplays]
    · rw [hwire, tells_flit]
    · rw [hlink]
      exact hcredits
  constructor
  · intro hp
    obtain ⟨t, he, hleft, hlink, -, hwire, hin⟩ := linkEvent_leaves hb hh hlen ho hd (e := .flitReceive l (.flit f)) rfl (fun x => x.took s.now f) (by simpa using hup)
      (s.wire ++ ((s.link l).tells f).map fun i => (l, i)) s.inbox (by dsimp only; rw [hp]) hstate hlanes
    exact ⟨t, he, hleft, hin, htaken t hlink hwire⟩
  · intro p hp hhere
    obtain ⟨t, he, hleft, hlink, -, hwire, hin⟩ := linkEvent_leaves hb hh hlen ho hd (e := .flitReceive l (.flit f)) rfl (fun x => x.took s.now f) (by simpa using hup)
      (s.wire ++ ((s.link l).tells f).map fun i => (l, i)) (s.inbox ++ [p]) (by dsimp only; rw [hp]; exact if_pos hhere) hstate hlanes
    obtain ⟨hg, hs, hl⟩ := packetAt_good hp
    exact ⟨t, he, hleft, hin, htaken t hlink hwire, hg, hs, hl⟩

omit hb hh hlen ho hd hup in
/-- The place of a flit in the replay buffer is the first of its number. -/
theorem findIdx_first {α : Type} {p : α → Bool} {xs : List α} {i : Nat} {e : α} (h : xs[i]? = some e) (hp : p e = true)
    (hn : ∀ j e', j < i → xs[j]? = some e' → p e' = false) : findIdx? p xs = some i := by
  induction xs generalizing i with
  | nil => simp at h
  | cons a xs ih =>
    cases i with
    | zero =>
      simp only [List.getElem?_cons_zero, Option.some.injEq] at h
      simp [findIdx?, h, hp]
    | succ i =>
      have ha := hn 0 a (by omega) rfl
      have := ih (i := i) h fun j e' hj he' => hn (j + 1) e' (by omega) he'
      simp [findIdx?, ha, this]

theorem ack_rows (seq : BitVec 8) (i : Nat) (e : Flit × Option Packet) (hi : (s.link l).window[i]? = some e) (hseq : flitSeq e.1 = seq)
    (hfirst : ∀ j e', j < i → (s.link l).window[j]? = some e' → flitSeq e'.1 ≠ seq) :
    (∃ t, exec (.flitReceive l (.ack seq)) s = .next t ∧ Rule.linkLeft s t l (s.link l).state (s.link l).lanes ∧
      (t.link l).window = (s.link l).window.drop (i + 1)) ∧
    ∃ t, exec (.flitReceive l (.replay seq)) s = .next t ∧ Rule.linkLeft s t l (s.link l).state (s.link l).lanes ∧ (t.link l).window = (s.link l).window ∧
      t.wire = s.wire ++ ((s.link l).window.drop i).map fun e => (l, .flit e.1) := by
  have hplace : (s.link l).placeOf seq = some i := findIdx_first hi (by simp [hseq]) fun j e' hj he' => by simpa using hfirst j e' hj he'
  have hacked : (s.link l).acked seq = { s.link l with window := (s.link l).window.drop (i + 1) } := by rw [Link.acked, hplace]
  have hreplayed : (s.link l).replayed seq = ((s.link l).window.drop i).map (·.1) := by rw [Link.replayed, hplace]
  constructor
  · obtain ⟨t, he, hleft, hlink, -, -, -⟩ := linkEvent_leaves hb hh hlen ho hd (e := .flitReceive l (.ack seq)) rfl (fun x => x.acked seq) (by simpa using hup)
      s.wire s.inbox rfl (by rw [hacked]) (by rw [hacked])
    exact ⟨t, he, hleft, by rw [hlink, hacked]⟩
  · obtain ⟨t, he, hleft, hlink, -, hwire, -⟩ := linkEvent_leaves hb hh hlen ho hd (e := .flitReceive l (.replay seq)) rfl
      (fun x => { x with sent := x.sent + (x.replayed seq).length }) (by simpa using hup)
      (s.wire ++ ((s.link l).replayed seq).map fun f => (l, LinkItem.flit f)) s.inbox rfl rfl rfl
    refine ⟨t, he, hleft, by rw [hlink], ?_⟩
    rw [hwire, hreplayed, List.map_map]
    rfl

end

end

end

/-- R383: a link that stands still takes no event. -/
theorem linkStands (s : State) (l : Nat) (hb : s.broken = none) (ho : s.linkOff l = true) (lanes vc : Nat) (ok : Bool) (item : LinkItem) :
    ∀ i ∈ [Instr.linkTrained l lanes, .linkTrainingTimeout l, .linkKeyed l ok, .laneLost l, .crcErrorThreshold l, .retrainingDone l lanes, .rekey l, .noProgressTimer l vc ok,
      .flitReceive l item], exec i s = .next s := by
  have hno (from_ : List LinkState) (f : State → State) : conclude (s.linkEvent l from_ f) = .next s := by
    rw [State.linkEvent_ignored f (.inr (.inr ho))]
    exact conclude_next hb
  have htimer : exec (.noProgressTimer l vc ok) s = .next s := by
    rw [show exec (.noProgressTimer l vc ok) s = execNoProgressTimer l vc ok s from rfl, execNoProgressTimer]
    split
    · exact conclude_next hb
    · exact hno _ _
  intro i hi
  simp only [List.mem_cons, List.not_mem_nil, or_false] at hi
  rcases hi with rfl | rfl | rfl | rfl | rfl | rfl | rfl | rfl | rfl
  · exact hno _ _
  · exact hno _ _
  · exact hno _ _
  · exact hno _ _
  · exact hno _ _
  · exact hno _ _
  · exact hno _ _
  · exact htimer
  · exact hno _ _

end Sys2Proof.Proofs
end

section
/-! PROOFS. O59: flits and packets as bytes, the ways of packets, what leaves on a link, remaps, routing banks and failed devices. -/

namespace Sys2Proof.Proofs
open Machine

/-! ### Flits (R358) -/

theorem makeFlit_high (low : BitVec 32) (payload : List Byte) (tag : BitVec 64) :
    (makeFlit low payload tag).header.extractLsb' 32 32 = flitCrc low payload tag := by
  have h := flitCrcOk_make low payload tag
  rw [flitCrcOk, flitBits_make, beq_iff_eq] at h
  exact h

/-- The bits of a flit's header below its CRC. -/
theorem makeFlit_bit (low : BitVec 32) (payload : List Byte) (tag : BitVec 64) {i : Nat} (h : i < 32) :
    (makeFlit low payload tag).header.getLsbD i = low.getLsbD i := by
  have hb := congrArg (fun b : BitVec 32 => b.getLsbD i) (flitBits_make low payload tag)
  simpa [flitBits, h] using hb

theorem append_low {n m i : Nat} (x : BitVec n) (y : BitVec m) (h : i < m) : (x ++ y).getLsbD i = y.getLsbD i := by
  simp [BitVec.getLsbD_append, h]
theorem append_high {n m : Nat} (x : BitVec n) (y : BitVec m) (i : Nat) : (x ++ y).getLsbD (m + i) = x.getLsbD i := by
  simp [BitVec.getLsbD_append]

section
variable (ch : Nat) (first last integ : Bool) (credits seq : BitVec 8)

/-- The fields of a flit's header above its credits: channel, first, last, integrity, reserved bits. -/
def flitHead : BitVec 16 := BitVec.ofNat 3 ch ++ (if first then 1#1 else 0#1) ++ (if last then 1#1 else 0#1) ++ (if integ then 1#1 else 0#1) ++ 0#10

theorem flitLow_seq {i : Nat} (h : i < 8) : (flitLow ch first last integ credits seq).getLsbD i = seq.getLsbD i :=
  append_low (flitHead ch first last integ ++ credits) seq h

theorem flitLow_credits {i : Nat} (h : i < 8) : (flitLow ch first last integ credits seq).getLsbD (8 + i) = credits.getLsbD i :=
  (append_high (flitHead ch first last integ ++ credits) seq i).trans (append_low (flitHead ch first last integ) credits h)

theorem flitLow_head (i : Nat) : (flitLow ch first last integ credits seq).getLsbD (8 + (8 + i)) = (flitHead ch first last integ).getLsbD i :=
  (append_high (flitHead ch first last integ ++ credits) seq (8 + i)).trans (append_high (flitHead ch first last integ) credits i)

theorem flitHead_reserved {i : Nat} (h : i < 10) : (flitHead ch first last integ).getLsbD i = false :=
  (append_low _ 0#10 h).trans (by simp)

theorem flitHead_integ : (flitHead ch first last integ).getLsbD (10 + 0) = integ :=
  (append_high _ 0#10 0).trans ((append_low _ (if integ then 1#1 else 0#1) (by decide)).trans (by cases integ <;> rfl))

theorem flitHead_last : (flitHead ch first last integ).getLsbD (10 + (1 + 0)) = last :=
  (append_high _ 0#10 (1 + 0)).trans ((append_high _ (if integ then 1#1 else 0#1) 0).trans
    ((append_low _ (if last then 1#1 else 0#1) (by decide)).trans (by cases last <;> rfl)))

theorem flitHead_first : (flitHead ch first last integ).getLsbD (10 + (1 + (1 + 0))) = first :=
  (append_high _ 0#10 (1 + (1 + 0))).trans ((append_high _ (if integ then 1#1 else 0#1) (1 + 0)).trans
    ((append_high _ (if last then 1#1 else 0#1) 0).trans ((append_low (BitVec.ofNat 3 ch) (if first then 1#1 else 0#1) (by decide)).trans (by cases first <;> rfl))))

theorem flitHead_channel (i : Nat) : (flitHead ch first last integ).getLsbD (10 + (1 + (1 + (1 + i)))) = (BitVec.ofNat 3 ch).getLsbD i :=
  (append_high _ 0#10 (1 + (1 + (1 + i)))).trans ((append_high _ (if integ then 1#1 else 0#1) (1 + (1 + i))).trans
    ((append_high _ (if last then 1#1 else 0#1) (1 + i)).trans (append_high (BitVec.ofNat 3 ch) (if first then 1#1 else 0#1) i)))

end

/-- R358: a flit is laid out as it says, and passes its checks. -/
theorem flitsMade (low : BitVec 32) (payload : List Byte) (tag : BitVec 64) : let f := makeFlit low payload tag
    flitCrcOk f = true ∧ flitGood f = true ∧ flitBits f = low ∧
    f.header.extractLsb' 32 32 = BitVec.ofNat 32 (crc32c (toLE 4 low.toNat ++ payload ++ toLE 8 tag.toNat)) ∧
    (∀ ch first last integ credits seq, ch < 8 → low = flitLow ch first last integ credits seq →
      flitChannel f = ch ∧ flitFirst f = first ∧ flitLast f = last ∧ flitInteg f = integ ∧ flitCredits f = credits.toNat ∧ flitSeq f = seq ∧ low.extractLsb' 16 10 = 0) := by
  intro f
  refine ⟨flitCrcOk_make _ _ _, ?_, flitBits_make _ _ _, makeFlit_high _ _ _, fun ch first last integ credits seq hch hlow => ?_⟩
  · rw [flitGood, flitCrcOk_make]
    rfl
  · subst hlow
    have hbit {i : Nat} (h : i < 32) : f.header.getLsbD i = (flitLow ch first last integ credits seq).getLsbD i := makeFlit_bit _ _ _ h
    have hhead (i : Nat) : (flitLow ch first last integ credits seq).getLsbD (16 + i) = (flitHead ch first last integ).getLsbD i := by
      rw [show 16 + i = 8 + (8 + i) by omega, flitLow_head]
    refine ⟨?_, ?_, ?_, ?_, ?_, ?_, ?_⟩
    · have hx : f.header.extractLsb' 29 3 = BitVec.ofNat 3 ch := by
        refine BitVec.eq_of_getLsbD_eq fun i hi => ?_
        rw [BitVec.getLsbD_extractLsb', hbit (by omega), show 29 + i = 16 + (10 + (1 + (1 + (1 + i)))) by omega, hhead, flitHead_channel]
        simp [hi]
      rw [flitChannel, hx, BitVec.toNat_ofNat, Nat.mod_eq_of_lt hch]
    · rw [flitFirst, hbit (by decide), show 28 = 16 + (10 + (1 + (1 + 0))) from rfl, hhead, flitHead_first]
    · rw [flitLast, hbit (by decide), show 27 = 16 + (10 + (1 + 0)) from rfl, hhead, flitHead_last]
    · rw [flitInteg, hbit (by decide), show 26 = 16 + (10 + 0) from rfl, hhead, flitHead_integ]
    · have hx : f.header.extractLsb' 8 8 = credits := by
        refine BitVec.eq_of_getLsbD_eq fun i hi => ?_
        rw [BitVec.getLsbD_extractLsb', hbit (by omega), flitLow_credits ch first last integ credits seq hi]
        simp [hi]
      rw [flitCredits, hx]
    · refine BitVec.eq_of_getLsbD_eq fun i hi => ?_
      rw [flitSeq, BitVec.getLsbD_setWidth, hbit (by omega), flitLow_seq ch first last integ credits seq hi]
      simp [hi]
    · refine BitVec.eq_of_getLsbD_eq fun i hi => ?_
      rw [BitVec.getLsbD_extractLsb', hhead, flitHead_reserved ch first last integ hi]
      simp

/-! ### Packets (R359) -/

/-- The header of a packet is 32 bytes before its data. -/
theorem packetBytes_header (p : Packet) : ∃ h : List Byte, packetBytes p = h ++ p.data ∧ h.length = 32 := ⟨_, rfl, by simp [zeros]⟩

/-- R359: a packet's bytes hold it. -/
theorem packetsParsed (p : Packet) (hk : p.kind < 256) (hf : p.flags.toNat < 8) (hd : p.dst < 512) (hs : p.src < 512) (hc : p.ctx < 65536)
    (ho : p.off < 2 ^ 40) (hobj : p.obj < 2 ^ 24) (hl : p.length < 65536) (hg : p.group < 4096) (ht : p.tagOk = true)
    (hdata : p.data.length = (if p.kind = 1 then 0 else p.length)) :
    (packetBytes p).length = 32 + p.data.length ∧ ∀ rest, parsePacket p.plane true (packetBytes p ++ rest) = p := by
  obtain ⟨h, hh, hlen⟩ := packetBytes_header p
  refine ⟨by rw [hh, List.length_append, hlen], fun rest => ?_⟩
  have hbody : ((packetBytes p ++ rest).drop 32).take p.length = p.data ++ rest.take (p.length - p.data.length) := by
    rw [hh, List.append_assoc, ← hlen, List.drop_left, List.take_append]
    rw [List.take_of_length_le (by split at hdata <;> omega)]
  have hform := p.form.isLt
  obtain ⟨kind, flags, dst, src, ctx, obj, off, tag, op, group, plane, length, data, form, tagOk⟩ := p
  simp only at hk hf hd hs hc ho hobj hl hg ht hdata hbody hform
  have hzero : ([0] : List Byte) = toLE 1 0 := rfl
  have hcalc : packetBytes ⟨kind, flags, dst, src, ctx, obj, off, tag, op, group, plane, length, data, form, tagOk⟩ ++ rest =
      toLE 1 kind ++ (toLE 1 (flags.toNat % 8) ++ (toLE 2 (dst % 512) ++ (toLE 2 (src % 512) ++ (toLE 2 ctx ++ (toLE 8 (off % 2 ^ 40 + obj % 2 ^ 24 * 2 ^ 40) ++
        (toLE 4 tag.toNat ++ (toLE 2 length ++ (toLE 1 op.toNat ++ (toLE 1 0 ++ (toLE 2 (form.toNat * 4096 + group % 4096) ++ (zeros 6 ++ (data ++ rest)))))))))))) := by
    unfold packetBytes
    rw [hzero]
    simp only [List.append_assoc]
  have hop := op.isLt
  have htag := tag.isLt
  unfold parsePacket
  simp only [Packet.mk.injEq]
  rw [hcalc] at hbody ⊢
  generalize hb : zeros 6 ++ (data ++ rest) = tail at hbody ⊢
  simp (disch := decide) only [field_skip, field_toLE_append, Nat.reduceSub, Nat.sub_self] at hbody ⊢
  have hkind : kind % 256 ^ 1 = kind := by omega
  have hlength : length % 256 ^ 2 = length := by omega
  rw [hkind, hlength, hbody]
  refine ⟨rfl, ?_, by omega, by omega, by omega, by omega, by omega, ?_, ?_, by omega, trivial, rfl, ?_, ?_, by simp [ht]⟩
  · apply BitVec.eq_of_toNat_eq
    rw [BitVec.toNat_ofNat]
    omega
  · apply BitVec.eq_of_toNat_eq
    rw [BitVec.toNat_ofNat]
    omega
  · apply BitVec.eq_of_toNat_eq
    rw [BitVec.toNat_ofNat]
    omega
  · split at hdata
    · next h1 => rw [if_pos h1, List.length_eq_zero_iff.1 hdata]
    · next h1 => rw [if_neg h1, hdata, Nat.sub_self, List.take_zero, List.append_nil]
  · apply BitVec.eq_of_toNat_eq
    rw [BitVec.toNat_ofNat]
    omega

/-! ### The ways of packets (R357) -/

/-- The way on one ring. -/
theorem ringWay_spec {n a g i : Nat} (h : ringWay n a g = some i) : i < 2 ∧ 0 < (g + n - a) % n ∧ (i = 0 ↔ 2 * ((g + n - a) % n) ≤ n) := by
  unfold ringWay at h
  dsimp only at h
  split at h
  · exact absurd h (by simp)
  · next hd =>
    split at h
    · next h2 =>
      rw [← Option.some.inj h]
      exact ⟨by decide, by omega, by simp [h2]⟩
    · next h2 =>
      rw [← Option.some.inj h]
      exact ⟨by decide, by omega, by simp [h2]⟩

theorem ringWay_none {n a g : Nat} (h : ringWay n a g = none) : (g + n - a) % n = 0 := by
  unfold ringWay at h
  dsimp only at h
  split at h
  · next hd => exact hd
  · split at h <;> exact absurd h (by simp)

/-- R357: x first, then y, then z, the shorter way. -/
theorem wayFound (b : Bank) (here there dir : Nat) (h : b.way here there = some dir) :
    let apart : Nat → Nat := fun k => (coordinate there k + b.ring k - coordinate here k) % b.ring k
    dir < 6 ∧ (∀ k < dir / 2, apart k = 0) ∧ 0 < apart (dir / 2) ∧ (dir % 2 = 0 ↔ 2 * apart (dir / 2) ≤ b.ring (dir / 2)) := by
  intro apart
  obtain ⟨before, dim, after, hdims, hfound, hbefore⟩ := List.findSome?_eq_some_iff.1 h
  obtain ⟨i, hi, rfl⟩ := Option.map_eq_some_iff.1 hfound
  obtain ⟨hi2, hpos, hway⟩ := ringWay_spec hi
  have hzero (k : Nat) (hk : k ∈ before) : apart k = 0 := ringWay_none (by simpa using hbefore k hk)
  have hdiv : (2 * dim + i) / 2 = dim := by omega
  have hmod : (2 * dim + i) % 2 = i := by omega
  rw [hdiv, hmod]
  have hdim : dim < 3 ∧ ∀ k < dim, k ∈ before := by
    rcases before with _ | ⟨b0, _ | ⟨b1, _ | ⟨b2, before⟩⟩⟩
    · simp only [List.nil_append, List.cons.injEq] at hdims
      obtain ⟨rfl, -⟩ := hdims
      exact ⟨by decide, fun k hk => absurd hk (Nat.not_lt_zero k)⟩
    · simp only [List.cons_append, List.nil_append, List.cons.injEq] at hdims
      obtain ⟨rfl, rfl, -⟩ := hdims
      exact ⟨by decide, fun k hk => by simp; omega⟩
    · simp only [List.cons_append, List.nil_append, List.cons.injEq] at hdims
      obtain ⟨rfl, rfl, rfl, -⟩ := hdims
      exact ⟨by decide, fun k hk => by simp; omega⟩
    · have hlen := congrArg List.length hdims
      simp at hlen
  exact ⟨by omega, fun k hk => hzero k (hdim.2 k hk), hpos, hway⟩

/-- R357: the channel of a hop is 1 from the wrap link of its ring on. -/
theorem channelOfHop (b : Bank) (from_ here dir : Nat) :
    let n := b.ring (dir / 2)
    let a := coordinate from_ (dir / 2)
    let h := coordinate here (dir / 2)
    a < n → h < n → (dir % 2 = 0 → b.channel from_ here dir = if h + 1 = n ∨ h < a then 1 else 0) ∧ (dir % 2 = 1 → b.channel from_ here dir = if h = 0 ∨ a < h then 1 else 0) := by
  intro n a h ha hh
  have hchannel : b.channel from_ here dir = if dir % 2 = 0 then (if n ≤ a + (h + n - a) % n + 1 then 1 else 0) else (if a < (a + n - h) % n + 1 then 1 else 0) := rfl
  have hmod {x y : Nat} (hx : x < n) (hy : y < n) : (x + n - y) % n = if y ≤ x then x - y else x + n - y := by
    split
    · rw [show x + n - y = x - y + n by omega, Nat.add_mod_right, Nat.mod_eq_of_lt (by omega)]
    · exact Nat.mod_eq_of_lt (by omega)
  rw [hchannel, hmod hh ha, hmod ha hh]
  constructor
  · intro hd
    rw [if_pos hd]
    refine if_congr ?_ rfl rfl
    split <;> omega
  · intro hd
    rw [if_neg (by omega)]
    refine if_congr ?_ rfl rfl
    split <;> omega

/-! ### Remaps (R355) -/

theorem octal_succ (a : Nat → Nat) (n : Nat) :
    ((List.range (n + 1)).map fun k => a k * 8 ^ k).sum = a 0 + 8 * ((List.range n).map fun k => a (k + 1) * 8 ^ k).sum := by
  rw [List.range_succ_eq_map, List.map_cons, List.sum_cons, List.map_map, ← List.sum_map_mul_left]
  have hstep : ((fun k => a k * 8 ^ k) ∘ Nat.succ) = fun k => 8 * (a (k + 1) * 8 ^ k) := by
    funext k
    rw [Function.comp_apply, Nat.succ_eq_add_one, Nat.pow_succ]
    ring
  rw [hstep, Nat.pow_zero, Nat.mul_one]

theorem octal_lt {a : Nat → Nat} (ha : ∀ k, a k < 8) (n : Nat) : ((List.range n).map fun k => a k * 8 ^ k).sum < 8 ^ n := by
  induction n generalizing a with
  | zero => simp
  | succ n ih =>
    have h0 := ha 0
    have hn := ih fun k => ha (k + 1)
    rw [octal_succ, Nat.pow_succ]
    omega

/-- The digits of a sum of octal digits. -/
theorem octal_entry {a : Nat → Nat} (ha : ∀ k, a k < 8) {i n : Nat} (hi : i < n) : ((List.range n).map fun k => a k * 8 ^ k).sum / 8 ^ i % 8 = a i := by
  induction n generalizing a i with
  | zero => omega
  | succ n ih =>
    have h0 := ha 0
    rw [octal_succ]
    cases i with
    | zero =>
      rw [Nat.pow_zero, Nat.div_one]
      omega
    | succ i =>
      have hdiv : (a 0 + 8 * ((List.range n).map fun k => a (k + 1) * 8 ^ k).sum) / 8 = ((List.range n).map fun k => a (k + 1) * 8 ^ k).sum := by omega
      rw [Nat.pow_succ', ← Nat.div_div_eq_div_mul, hdiv]
      exact ih (fun k => ha (k + 1)) (by omega)

/-- PLANEMAP's entries after a remap. -/
theorem remapEntries_entry (m p q : Nat) (hq : q < 8) {i : Nat} (hi : i < 8) :
    (BitVec.ofNat 32 (remapEntries m p q)).toNat / 8 ^ i % 8 = if m / 8 ^ i % 8 = p then q else m / 8 ^ i % 8 := by
  have he (k : Nat) : (if m / 8 ^ k % 8 = p then q else m / 8 ^ k % 8) < 8 := by
    split
    · exact hq
    · exact Nat.mod_lt _ (by decide)
  rw [BitVec.toNat_ofNat, remapEntries, Nat.mod_eq_of_lt (lt_trans (octal_lt he 8) (by decide)), octal_entry he hi]

/-- What a change of PLANEMAP alone leaves. -/
theorem of_unrouted_mapped {s t : State} {m : BitVec 32} (h : t.unrouted = s.unrouted.mapped m) :
    t.planemap = m ∧ Rule.sameMemory s t ∧ t.broken = s.broken := by
  have hmap := congrArg State.planemap h
  have hvault := congrArg State.vault h
  have hpool := congrArg State.pool h
  have hlocals := congrArg State.locals h
  have hbroken := congrArg State.broken h
  exact ⟨hmap, ⟨hvault, hpool, hlocals⟩, hbroken⟩

/-- R355: a remap moves the entries of a plane to the next plane without a failed link. -/
theorem planeRemapped (s : State) (plane : Nat) (failed : BitVec 8) (hb : s.broken = none) (hp : plane < 8) :
    let bad : Nat → Bool := fun q => failed.getLsbD q || s.lostPlanes.getLsbD q || (List.range 6).any fun d => (s.link (6 * q + d)).state == .failed
    (∀ q, q < 8 → bad q = true → q = plane) → ∃ t, exec (.remap plane failed) s = .next t ∧ Rule.sameMemory s t ∧
      ∀ i, i < 8 → t.planemap.toNat / 8 ^ i % 8 = if s.planemap.toNat / 8 ^ i % 8 = plane then (plane + 1) % 8 else s.planemap.toNat / 8 ^ i % 8 := by
  intro bad hbad
  have hnext : nextPlane (s.planeLost failed) plane = (plane + 1) % 8 := by
    have hgood : s.planeLost failed ((plane + 1 + 0) % 8) = false := by
      by_contra hne
      have hplane := hbad ((plane + 1 + 0) % 8) (by omega) (by rw [Bool.not_eq_false] at hne; exact hne)
      omega
    rw [nextPlane, show List.range 7 = 0 :: List.range' 1 6 from rfl, List.map_cons, List.find?_cons_of_pos (by simp [hgood])]
    rfl
  have hun := s.remapPlane_unrouted plane failed
  rw [State.newMap, hnext] at hun
  obtain ⟨hmap, hmem, hbroken⟩ := of_unrouted_mapped hun
  have hexec : exec (.remap plane failed) s = if 7 < plane then conclude s else conclude (s.remapPlane plane failed) := rfl
  refine ⟨s.remapPlane plane failed, ?_, hmem, fun i hi => ?_⟩
  · rw [hexec, if_neg (by omega)]
    exact conclude_next (hbroken.trans hb)
  · rw [hmap]
    exact remapEntries_entry _ _ _ (by omega) hi

/-! ### What leaves on a link (R357, R358, R363) -/

/-- One element of a list, with its place, under a map. -/
theorem getD_zip_range {α : Type} (f : Nat × α → α) {xs : List α} {i : Nat} (d : α) (h : i < xs.length) :
    (((List.range xs.length).zip xs).map f).getD i d = f (i, xs.getD i d) := by
  simp [List.getD_eq_getElem?_getD, h]

section
variable {s : State} {p : Packet}

/-- What the routers make of a single packet that does not come back. -/
theorem forward_one {r : Routed} (hp : s.powered = true) (ho : s.outbox = [p]) (hr : s.routeOne { links := s.links } p = r) (hb : r.back = []) :
    s.forward = r.lost.foldl State.refuseAbsent { s with
      links := ((List.range r.links.length).zip r.links).map fun e => s.countStalls e.1 r e.2, outbox := r.kept, wire := s.wire ++ r.wire, linkClock := s.now } := by
  unfold State.forward
  rw [if_neg (by simp [hp, ho]), ho, List.foldl_cons, List.foldl_nil, hr]
  dsimp only
  rw [hb, List.isEmpty_nil, if_pos rfl]

/-- A link as a single packet that does not come back leaves it. -/
theorem forward_one_link {r : Routed} {l : Nat} (hp : s.powered = true) (ho : s.outbox = [p]) (hr : s.routeOne { links := s.links } p = r) (hb : r.back = [])
    (hlost : r.lost = []) (hl : l < r.links.length) : s.forward.link l = s.countStalls l r (r.links.getD l {}) := by
  rw [forward_one hp ho hr hb, hlost, State.link]
  exact getD_zip_range (fun e => s.countStalls e.1 r e.2) {} hl

section
variable {l ch : Nat} (hw : s.wayOut p = some (l, ch)) (hup : (s.link l).state = .up ∨ (s.link l).state = .degraded) (hoff : s.linkOff l = false)
  (hplane : p.plane = l / 6)
include hw hup

theorem up_not_failed : ¬(s.links.getD l {}).state = .failed := by
  have hup' : (s.links.getD l {}).state = .up ∨ (s.links.getD l {}).state = .degraded := hup
  rcases hup' with h | h <;> rw [h] <;> decide

include hoff hplane in
theorem routeOne_sends (hc : packetFlits p ≤ (s.link l).credits.getD ch 0) (hroom : (s.link l).window.length + packetFlits p ≤ 256) :
    s.routeOne { links := s.links } p =
      { links := s.links.set l ((s.link l).sendOn ch p (s.linkFree l (s.link l))), moved := [(l, ch)]
        wire := ((s.link l).flitsOf ch p (s.linkFree l (s.link l))).map fun f => (l, .flit f) } := by
  have hq : s.onPlane p (l / 6) = p := if_pos hplane.symm
  unfold State.routeOne
  rw [hw]
  dsimp only
  rw [if_neg (up_not_failed hw hup), if_pos ⟨hup, hoff, rfl, hc, hroom, rfl⟩, hq, List.nil_append]
  rfl

theorem routeOne_waits (hc : (s.link l).credits.getD ch 0 < packetFlits p) :
    s.routeOne { links := s.links } p = { links := s.links, kept := [p], busy := [(l, ch)] } := by
  unfold State.routeOne
  rw [hw]
  dsimp only
  rw [if_neg (up_not_failed hw hup), if_neg]
  · rfl
  · rintro ⟨-, -, -, h, -, -⟩
    exact absurd hc (Nat.not_lt.2 h)

end

end

theorem getD_range_map (f : Nat → Nat) {i n : Nat} (h : i < n) : ((List.range n).map f).getD i 0 = f i := by
  simp [List.getD_eq_getElem?_getD, h]

/-- The count of a channel: it goes on while the channel holds a packet that does not leave (R363). -/
theorem countStalls_getD (s : State) (l : Nat) (r : Routed) (x : Link) {ch : Nat} (h : ch < 8) : (s.countStalls l r x).stalled.getD ch 0 =
    if r.busy.contains (l, ch) = false ∨ r.moved.contains (l, ch) = true then 0 else x.stalled.getD ch 0 + if s.timersStand = true then 0 else s.now - s.linkClock :=
  getD_range_map _ h

/-- R357, R358: a packet leaves on its link when its channel has credits for all its flits, and else waits and is counted. -/
theorem packetLeaves (s : State) (p : Packet) (l ch : Nat) (hpow : s.powered = true) (hlen : s.links.length = 48) (hout : s.outbox = [p])
    (hw : s.wayOut p = some (l, ch)) (hl : l < 48) (hch : ch < 8) (hplane : p.plane = l / 6) :
    let x := s.link l
    let fs := x.flitsOf ch p (s.linkFree l x)
    x.state = .up ∨ x.state = .degraded → s.linkOff l = false →
    (packetFlits p ≤ x.credits.getD ch 0 → x.window.length + packetFlits p ≤ 256 → s.forward.outbox = [] ∧ s.forward.wire = s.wire ++ fs.map (fun f => (l, .flit f)) ∧
      (s.forward.link l).window.map (·.1) = x.window.map (·.1) ++ fs ∧ (s.forward.link l).credits = x.credits.modify ch (· - fs.length) ∧ (s.forward.link l).sent = x.sent + fs.length ∧
      (s.forward.link l).stalled.getD ch 0 = 0) ∧
    (x.credits.getD ch 0 < packetFlits p → s.forward.outbox = [p] ∧ s.forward.wire = s.wire ∧ (s.forward.link l).window = x.window ∧ (s.forward.link l).credits = x.credits ∧
      (s.forward.link l).stalled.getD ch 0 = x.stalled.getD ch 0 + if s.dbghold = 0 ∧ s.deepHalt = false then s.now - s.linkClock else 0) := by
  intro x fs hup hoff
  constructor
  · intro hc hroom
    have hr := routeOne_sends hw hup hoff hplane hc hroom
    have hf := forward_one hpow hout hr rfl
    have hlink : s.forward.link l = s.countStalls l _ (x.sendOn ch p (s.linkFree l x)) :=
      (forward_one_link hpow hout hr rfl rfl (by simpa [hlen] using hl)).trans (congrArg _ (by simp [List.getD_eq_getElem?_getD, hlen, hl, x]))
    rw [hlink, hf]
    refine ⟨rfl, rfl, ?_, rfl, rfl, ?_⟩
    · show (x.window ++ fs.map fun f => (f, if flitLast f then some p else none)).map (·.1) = _
      rw [List.map_append, List.map_map]
      exact congrArg (_ ++ ·) (List.map_id' fs)
    · rw [countStalls_getD _ _ _ _ hch]
      exact if_pos (.inl rfl)
  · intro hc
    have hr := routeOne_waits hw hup hc
    have hf := forward_one hpow hout hr rfl
    have hlink : s.forward.link l = s.countStalls l { links := s.links, kept := [p], busy := [(l, ch)] } x :=
      forward_one_link hpow hout hr rfl rfl (by simpa [hlen] using hl)
    rw [hlink, hf]
    refine ⟨rfl, List.append_nil _, rfl, rfl, ?_⟩
    rw [countStalls_getD _ _ _ _ hch, if_neg (by simp)]
    refine congrArg _ ?_
    unfold State.timersStand
    by_cases hd : s.dbghold = 0 <;> cases hh : s.deepHalt <;> simp [hd]

/-- R362: a request that names no device is answered with REFUSED. -/
theorem absentRefused (s : State) (p : Packet) (hpow : s.powered = true) (hout : s.outbox = [p]) (hd : p.dst ≠ s.device) (hs : p.src = s.device)
    (hpos : (s.bankOf p).position p.dst = none) (hclass : packetClass p = 0) :
    s.forward.outbox = [] ∧ s.forward.inbox = s.inbox ++ [{ s.answer p 9 0 [] with src := p.dst }] := by
  have hw : s.wayOut p = none := by
    unfold State.wayOut
    dsimp only
    rw [if_neg hd, hpos]
    rfl
  have hhere : s.isHere p = false := by simp [State.isHere, hd, hpos]
  have hr : s.routeOne { links := s.links } p = { links := s.links, lost := [p] } := by
    unfold State.routeOne
    rw [hw]
    dsimp only
    rw [if_pos ⟨hhere, by rw [hpos]; rfl⟩]
    rfl
  have hf := forward_one hpow hout hr rfl
  dsimp only [List.foldl_cons, List.foldl_nil] at hf
  have hrefuse (t : State) (hdev : t.device = s.device) : t.refuseAbsent p = { t with inbox := t.inbox ++ [{ t.answer p 9 0 [] with src := p.dst }] } := by
    unfold State.refuseAbsent
    dsimp only
    rw [if_neg (by simp [hclass]), if_pos (by rw [hs, hdev])]
  rw [hrefuse _ (by exact rfl)] at hf
  rw [hf]
  exact ⟨rfl, rfl⟩

/-! ### Routing banks (R362) -/

theorem getD_set_same {α : Type} {xs : List α} {i : Nat} (v d : α) (h : i < xs.length) : (xs.set i v).getD i d = v := by
  simp [List.getD_eq_getElem?_getD, h]
theorem getD_set_other {α : Type} {xs : List α} {i j : Nat} (v d : α) (h : j ≠ i) : (xs.set i v).getD j d = xs.getD j d := by
  simp [List.getD_eq_getElem?_getD, List.getElem?_set_ne (Ne.symm h)]

/-- A packet of the bank that injection uses is none of the old one. -/
theorem not_oldBank {q : Packet} {plane : Nat} {c : Bool} (h : q.plane = plane → q.flags.getLsbD 1 = c) :
    ¬(q.plane == plane && q.flags.getLsbD 1 != c) = true := by
  rw [Bool.and_eq_true, beq_iff_eq, bne_iff_ne]
  exact fun ⟨hp, hc⟩ => hc (h hp)

/-- R362: the idle bank is written and injection flips to it; the old one retires later. -/
theorem bankUpdated (s : State) (plane : Nat) (rings : Nat × Nat × Nat) (places : List (Nat × Nat)) (hb : s.broken = none) (ho : s.linksOff = false)
    (hp : plane < 8) (hlen : s.routes.length = 8) :
    let r := s.routes.getD plane {}
    (r.retiring = false → ∃ t, exec (.routingBankUpdate plane rings places) s = .next t ∧ t.bank plane = { rings, places } ∧
      t.device = ((places.find? fun x => x.2 == s.position).map (·.1)).getD s.device ∧
      (t.routes.getD plane {}).retiring = true ∧ (t.routes.getD plane {}).current = !r.current ∧ ∀ q, q ≠ plane → t.bank q = s.bank q) ∧
    (r.retiring = true → exec (.routingBankUpdate plane rings places) s = .next s ∧
      ((∀ q ∈ s.outbox, q.plane = plane → q.flags.getLsbD 1 = r.current) → (∀ q ∈ s.requests, q.packet.plane = plane → q.packet.flags.getLsbD 1 = r.current) → ∃ t, exec (.bankRetire plane) s = .next t ∧
        t.bank plane = s.bank plane ∧ (r.drained = none → (t.routes.getD plane {}).retiring = true ∧ (t.routes.getD plane {}).drained = some s.now) ∧
        ∀ k, r.drained = some k → (s.now < k + 2 ^ 16 → t = s) ∧ (k + 2 ^ 16 ≤ s.now → (t.routes.getD plane {}).retiring = false))) := by
  intro r
  have hset (v : Routes) : (s.routes.set plane v).getD plane {} = v := getD_set_same v {} (by omega)
  have hupdate : exec (.routingBankUpdate plane rings places) s = execRoutingBankUpdate plane rings places s := rfl
  constructor
  · intro hr
    let v : Routes := if r.current then { r with bank0 := { rings, places } } else { r with bank1 := { rings, places } }
    let t : State := { s with
      routes := s.routes.set plane { v with current := !v.current, retiring := true, drained := none }
      device := ((places.find? fun x => x.2 == s.position).map (·.1)).getD s.device }
    have hv : v.current = r.current := by
      unfold v
      cases r.current <;> rfl
    refine ⟨t, ?_, ?_, rfl, ?_, ?_, fun q hq => ?_⟩
    · rw [hupdate, execRoutingBankUpdate]
      dsimp only
      rw [if_neg (by simp [r] at hr; simp [hr, ho]; omega)]
      exact conclude_next hb
    · show ((s.routes.set plane _).getD plane {}).bank = _
      rw [hset, Routes.bank]
      dsimp only
      rw [hv]
      unfold v
      cases r.current <;> rfl
    · show ((s.routes.set plane _).getD plane {}).retiring = _
      rw [hset]
    · show ((s.routes.set plane _).getD plane {}).current = _
      rw [hset, hv]
    · show ((s.routes.set plane _).getD q {}).bank = _
      rw [getD_set_other _ _ hq]
      rfl
  · intro hr
    refine ⟨?_, fun hout hreq => ?_⟩
    · rw [hupdate, execRoutingBankUpdate]
      dsimp only
      rw [if_pos (.inr (.inl hr))]
      exact conclude_next hb
    · have hleft : (s.outbox.any (fun p => p.plane == plane && p.flags.getLsbD 1 != r.current) ||
          s.requests.any fun q => q.packet.plane == plane && q.packet.flags.getLsbD 1 != r.current) = false := by
        rw [Bool.or_eq_false_iff, List.any_eq_false, List.any_eq_false]
        exact ⟨fun q hq => not_oldBank (hout q hq), fun q hq => not_oldBank (hreq q hq)⟩
      have hretire : exec (.bankRetire plane) s = match r.drained with
          | none => conclude { s with routes := s.routes.set plane { r with drained := some s.now } }
          | some t => if s.now < t + 2 ^ 16 then conclude s else conclude { s with routes := s.routes.set plane { r with retiring := false, drained := none } } := by
        rw [show exec (.bankRetire plane) s = execBankRetire plane s from rfl, execBankRetire]
        dsimp only
        rw [if_neg (by rintro (h | h | h)
                       · omega
                       · exact Bool.false_ne_true (h.symm.trans hr)
                       · exact Bool.false_ne_true (hleft.symm.trans h))] <;> rfl
      have hbank (v : Routes) (hv : v.bank = r.bank) : ({ s with routes := s.routes.set plane v } : State).bank plane = s.bank plane := by
        show ((s.routes.set plane v).getD plane {}).bank = _
        rw [hset, hv]
        rfl
      rw [hretire]
      cases hdr : r.drained with
      | none =>
        refine ⟨{ s with routes := s.routes.set plane { r with drained := some s.now } }, conclude_next hb, hbank _ rfl, fun _ => ?_, fun k hk => absurd hk (by simp)⟩
        show ((s.routes.set plane _).getD plane {}).retiring = true ∧ ((s.routes.set plane _).getD plane {}).drained = _
        rw [hset]
        exact ⟨hr, rfl⟩
      | some t =>
        by_cases ht : s.now < t + 2 ^ 16
        · refine ⟨s, ?_, rfl, fun h => absurd h (by simp), fun k hk => ⟨fun _ => rfl, fun hk2 => ?_⟩⟩
          · dsimp only
            rw [if_pos ht]
            exact conclude_next hb
          · rw [← Option.some.inj hk] at hk2
            omega
        · refine ⟨{ s with routes := s.routes.set plane { r with retiring := false, drained := none } }, ?_, hbank _ rfl, fun h => absurd h (by simp),
            fun k hk => ⟨fun hk2 => ?_, fun _ => ?_⟩⟩
          · dsimp only
            rw [if_neg ht]
            exact conclude_next hb
          · rw [← Option.some.inj hk] at hk2
            exact absurd hk2 ht
          · show ((s.routes.set plane _).getD plane {}).retiring = false
            rw [hset]

/-- R251: a failed device faults the contexts that name it. -/
theorem deviceFailed (s : State) (dev : Nat) (ho : s.linksOff = false) :
    let names : Ctx → Bool := fun c => (List.range c.objEntries).any fun i => match s.object? c i with
      | some o => o.home == 2 && o.peer == dev
      | none => false
    let v := ({ s with failedDevices := dev :: s.failedDevices.filter (· != dev) } : State).answerFor dev
    let t := (s.ctxs.filter fun c => c.state != .destroyed && names c).foldl (fun (t : State) c => t.faultCtxBare c.num reasonPeerLost) v
    t.broken = none → exec (.deviceFailureDetected dev) s = .next t := by
  intro names v t ht
  have hexec : exec (.deviceFailureDetected dev) s = if s.linksOff = true then conclude s else conclude t := rfl
  rw [hexec, if_neg (by simp [ho])]
  exact conclude_next ht

/-- Settles O59: the rows of R353 link by link, then flits, packets, ways, remaps, banks and failed devices. -/
theorem linkSteps : Obligations.LinkSteps := by
  refine ⟨fun s l hb hh hlen => ?_, linkStands, flitsMade, packetsParsed, wayFound, channelOfHop, packetLeaves, absentRefused, planeRemapped, bankUpdated,
    fun s dev _ ho => deviceFailed s dev ho⟩
  intro x ho hd
  obtain ⟨train1, train2⟩ := linkTrain_rows hb hh hlen ho hd
  obtain ⟨timeout1, timeout2⟩ := linkTrainingTimeout_rows hb hh hlen ho hd
  obtain ⟨keyed1, keyed2⟩ := linkKeyed_rows hb hh hlen ho hd
  obtain ⟨lost1, lost2⟩ := laneLost_rows hb hh hlen ho hd
  obtain ⟨crc1, crc2⟩ := crcErrorThreshold_rows hb hh hlen ho hd
  obtain ⟨retrain1, retrain2⟩ := linkRetrain_rows hb hh hlen ho hd
  obtain ⟨repair1, repair2⟩ := linkRepair_rows hb hh hlen ho hd
  refine ⟨train1, train2, linkTrained_rows hb hh hlen ho hd, timeout1, timeout2, keyed1, keyed2, lost1, lost2, crc1, crc2, retrain1, retrain2,
    retrainingDone_rows hb hh hlen ho hd, repair1, repair2, link_idle hb, fun hup => ?_⟩
  obtain ⟨rekey1, rekey2⟩ := rekey_rows hb hh hlen ho hd hup
  exact ⟨rekey1, rekey2, noProgress_early hb hh ho hd hup, noProgress_due hb hh hlen ho hd hup, fun vc moving h => noProgress_suspended hb h vc moving,
    flit_rows hb hh hlen ho hd hup, ack_rows hb hh hlen ho hd hup⟩

end Sys2Proof.Proofs
end

section
/-! PROOFS. O60: packets served at their home, answers taken at their source, packets passed on, and multicast trees. -/

namespace Sys2Proof.Machine

/-! ### Packets that arrive -/

theorem Rule.arrived_broken {s : State} {p : Packet} (h : Rule.atPort s p) : (Rule.arrived s p).broken = none := h.1

theorem State.send_broken {s : State} (h : s.broken = none) (p : Packet) : (s.send p).broken = none := h

/-- A packet at the device it is for is served at once. -/
theorem State.arrive_atPort {s : State} {p : Packet} (h : Rule.atPort s p) (f : State → State) : s.arrive p f = conclude (f (Rule.arrived s p)) := by
  obtain ⟨-, hports, hhere, hwait⟩ := h
  rw [State.arrive, hhere, hports, hwait, if_neg (by decide), if_neg (by decide), Rule.arrived]

theorem State.arrive_next {s t : State} {p : Packet} {f : State → State} (h : Rule.atPort s p) (hf : f (Rule.arrived s p) = t) (hb : t.broken = none) :
    s.arrive p f = .next t := by
  rw [State.arrive_atPort h, hf, conclude_next hb]

/-- A packet for another device goes into the outbox again. -/
theorem State.arrive_elsewhere {s : State} {p : Packet} (hb : s.broken = none) (hpow : s.powered = true) (hhere : s.isHere p = false)
    (hpos : ((s.bankOf p).position p.dst).isSome = true) (f : State → State) :
    s.arrive p f = .next { s with inbox := s.inbox.erase p, outbox := s.outbox ++ [p] } := by
  have hpos' : ((({ s with inbox := s.inbox.erase p } : State).bankOf p).position p.dst).isSome = true := hpos
  rw [State.arrive, hhere, if_pos rfl, State.passOn, if_neg (by simp [hpow])]
  dsimp only
  rw [if_pos hpos', conclude_next (by exact hb)]

/-! ### What each packet does once it has arrived -/

theorem exec_read (p : Packet) (s : State) : exec (.read p) s = s.arrive p (·.serveRead p) := rfl

theorem exec_write (p : Packet) (s : State) : exec (.write p) s = s.arrive p (fun u => u.serveRetry p (·.serveWrite p)) := rfl

theorem exec_atomic (p : Packet) (s : State) : exec (.atomic p) s = s.arrive p (fun u => u.serveRetry p (·.serveAtomic p true)) := rfl

theorem exec_redPacket (p : Packet) (s : State) : exec (.redPacket p) s = s.arrive p (fun u => u.serveRetry p (·.serveAtomic p false)) := rfl

theorem exec_data (p : Packet) (s : State) : exec (.data p) s = execData p s := rfl

theorem exec_ack (p : Packet) (s : State) : exec (.ack p) s = execAck p s := rfl

theorem exec_refused (p : Packet) (s : State) : exec (.refused p) s = execRefused p s := rfl

theorem exec_linknack (p : Packet) (s : State) : exec (.linknack p) s = execLinknack p s := rfl

theorem exec_mack (p : Packet) (s : State) : exec (.mack p) s = execMack p s := rfl

theorem exec_mgt (p : Packet) (s : State) : exec (.mgt p) s = execMgt p s := rfl

theorem exec_retriedRequest (kind : Nat) (p : Packet) (s : State) : exec (.retriedRequest kind p) s = execRetriedRequest kind p s := rfl

/-- Where a packet is for another device, what it would do here plays no part. -/
theorem exec_arrives (p : Packet) (s : State) :
    ∀ i ∈ [Instr.read p, .write p, .atomic p, .redPacket p, .data p, .ack p, .refused p, .linknack p, .mack p, .mgt p], ∃ f, exec i s = s.arrive p f := by
  intro i hi
  simp only [List.mem_cons, List.not_mem_nil, or_false] at hi
  obtain rfl | rfl | rfl | rfl | rfl | rfl | rfl | rfl | rfl | rfl := hi
  · exact ⟨_, exec_read p s⟩
  · exact ⟨_, exec_write p s⟩
  · exact ⟨_, exec_atomic p s⟩
  · exact ⟨_, exec_redPacket p s⟩
  · exact ⟨_, (exec_data p s).trans (by rw [execData])⟩
  · exact ⟨_, (exec_ack p s).trans (by rw [execAck])⟩
  · exact ⟨_, (exec_refused p s).trans (by rw [execRefused])⟩
  · exact ⟨_, (exec_linknack p s).trans (by rw [execLinknack])⟩
  · exact ⟨_, (exec_mack p s).trans (by rw [execMack])⟩
  · exact ⟨_, (exec_mgt p s).trans (by rw [execMgt])⟩

/-! ### Requests served at their home -/

theorem State.serveRetry_fresh {s : State} {p : Packet} (h : p.flags.getLsbD 2 = false ∨ s.heldAnswer p = none) (f : State → State) : s.serveRetry p f = f s := by
  rw [State.serveRetry]
  split
  next hretry =>
    obtain hflag | hheld := h
    · rw [hflag] at hretry
      cases hretry
    · rw [hheld]
  next => rfl

theorem State.serveRetry_held {s : State} {p r : Packet} (hflag : p.flags.getLsbD 2 = true) (h : s.heldAnswer p = some r) (f : State → State) :
    s.serveRetry p f = s.send { r with plane := p.plane, flags := s.packetFlags r p.plane } := by
  rw [State.serveRetry, if_pos hflag, h]

theorem State.opened_badTag {s : State} {p : Packet} (h : p.tagOk = false) (f : State → Ctx → State) : s.opened p f = s.send (s.answer p 8 0 []) := by
  rw [State.opened, if_pos h]

theorem State.opened_noCtx {s : State} {p : Packet} (htag : p.tagOk = true) (h : s.ctx? p.ctx = none) (f : State → Ctx → State) :
    s.opened p f = s.send (s.answer p 9 0 []) := by
  rw [State.opened, if_neg (by simp [htag]), h]

theorem State.opened_ctx {s : State} {p : Packet} {c : Ctx} (htag : p.tagOk = true) (h : s.ctx? p.ctx = some c) (hc : c.state ≠ .destroyed) (f : State → Ctx → State) :
    s.opened p f = f s c := by
  rw [State.opened, if_neg (by simp [htag]), h]
  dsimp only
  rw [if_neg hc]

theorem State.homeWrite_new {s s1 s2 : State} {c : Ctx} {obj off n : Nat} {old new : List Byte} {ue : Bool} {a : PAddr} {g : List Byte → Option (List Byte)}
    (hr : s.homeRead c obj off n = .ok s1 old ue) (hg : g old = some new) (hb : s1.beforeWrite c obj off n = some (s2, a)) :
    s.homeWrite c obj off n g = .ok (s2.write a new) old ue := by
  rw [State.homeWrite, hr]
  dsimp only
  rw [hg]
  dsimp only
  rw [hb]

theorem State.homeWrite_absent {s : State} {c : Ctx} {obj off n : Nat} {token : Bool} {why base : Nat} (h : s.homeRead c obj off n = .absent token why base)
    (g : List Byte → Option (List Byte)) : s.homeWrite c obj off n g = .absent token why base := by
  rw [State.homeWrite, h]

theorem State.unserved_absent (s : State) (p : Packet) (token : Bool) (why base : Nat) : s.unserved p (.absent token why base) = s.send (s.answer p 9 0 []) := rfl

theorem State.homeRead_at {s : State} {c : Ctx} {obj off n : Nat} {a : PAddr} {rest : Leaf} (h : s.translate c obj off n = .at_ a rest) :
    s.homeRead c obj off n = .ok (s.touch a n) (s.bytes a n) (s.poisoned a n) := by
  rw [State.homeRead, h]

section Served
variable {u : State} {p : Packet} {c : Ctx}

theorem State.serveRead_at {a : PAddr} {rest : Leaf} (htag : p.tagOk = true) (hctx : u.ctx? p.ctx = some c) (hc : c.state ≠ .destroyed)
    (h : u.translate c p.obj p.off p.length = .at_ a rest) :
    u.serveRead p = (u.touch a p.length).send (u.answer p 6 (if u.poisoned a p.length then 1 else 0)
      (if u.memberReads c then u.bytes a p.length else u.maskMoved 0 c.num false p.obj p.off (u.bytes a p.length))) := by
  rw [State.serveRead, State.opened_ctx htag hctx hc, State.homeRead_at h]

theorem State.serveRead_absent {token : Bool} {why base : Nat} (htag : p.tagOk = true) (hctx : u.ctx? p.ctx = some c) (hc : c.state ≠ .destroyed)
    (h : u.homeRead c p.obj p.off p.length = .absent token why base) : u.serveRead p = u.send (u.answer p 9 0 []) := by
  rw [State.serveRead, State.opened_ctx htag hctx hc, h]
  exact State.unserved_absent u p token why base

theorem State.serveWrite_ok {s1 s2 : State} {old : List Byte} {ue : Bool} {a : PAddr} (htag : p.tagOk = true) (hctx : u.ctx? p.ctx = some c) (hc : c.state ≠ .destroyed)
    (hr : u.homeRead c p.obj p.off p.data.length = .ok s1 old ue) (hb : s1.beforeWrite c p.obj p.off p.data.length = some (s2, a)) :
    u.serveWrite p = ((s2.write a p.data).arrived p).sendHeld p (u.answer p 7 0 []) := by
  rw [State.serveWrite, State.opened_ctx htag hctx hc, State.homeWrite_new (g := fun _ => some p.data) hr rfl hb]

theorem State.serveWrite_absent {token : Bool} {why base : Nat} (htag : p.tagOk = true) (hctx : u.ctx? p.ctx = some c) (hc : c.state ≠ .destroyed)
    (h : u.homeRead c p.obj p.off p.data.length = .absent token why base) : u.serveWrite p = u.send (u.answer p 9 0 []) := by
  rw [State.serveWrite, State.opened_ctx htag hctx hc, State.homeWrite_absent h]
  exact State.unserved_absent u p token why base

theorem State.serveAtomic_ok {s1 s2 : State} {old new : List Byte} {a : PAddr} (htag : p.tagOk = true) (hctx : u.ctx? p.ctx = some c) (hc : c.state ≠ .destroyed)
    (hr : u.homeRead c p.obj p.off (packetOperands p).1 = .ok s1 old false) (hg : packetApply p old = some new)
    (hb : s1.beforeWrite c p.obj p.off (packetOperands p).1 = some (s2, a)) (result : Bool) :
    u.serveAtomic p result = ((s2.write a new).rawWrite 0 c.num false p.obj p.off (packetOperands p).1).sendHeld p
      (if result then u.answer p 6 0 (u.maskMoved 0 c.num false p.obj p.off old) else u.answer p 7 0 []) := by
  rw [State.serveAtomic]
  dsimp only
  rw [State.opened_ctx htag hctx hc, hr]
  dsimp only
  rw [State.homeWrite_new hr hg hb]

end Served

theorem State.sendHeld_broken {s : State} (h : s.broken = none) (p r : Packet) : (s.sendHeld p r).broken = none := h

/-- The WRITE, ATOMIC and RED of a packet are served alike where it carries no RETRY that a held answer meets. -/
theorem exec_retryable {s t : State} {p : Packet} (h : Rule.atPort s p) (hfresh : p.flags.getLsbD 2 = false ∨ (Rule.arrived s p).heldAnswer p = none) (hb : t.broken = none) :
    ((Rule.arrived s p).serveWrite p = t → exec (.write p) s = .next t) ∧ ((Rule.arrived s p).serveAtomic p true = t → exec (.atomic p) s = .next t) ∧
      ((Rule.arrived s p).serveAtomic p false = t → exec (.redPacket p) s = .next t) := by
  refine ⟨fun ht => ?_, fun ht => ?_, fun ht => ?_⟩
  · exact (exec_write p s).trans (State.arrive_next h ((State.serveRetry_fresh hfresh _).trans ht) hb)
  · exact (exec_atomic p s).trans (State.arrive_next h ((State.serveRetry_fresh hfresh _).trans ht) hb)
  · exact (exec_redPacket p s).trans (State.arrive_next h ((State.serveRetry_fresh hfresh _).trans ht) hb)

/-- A request that its home does not open has the same answer whatever its kind. -/
theorem exec_unopened {s t : State} {p : Packet} (h : Rule.atPort s p) (ht : ∀ f, (Rule.arrived s p).opened p f = t) (hb : t.broken = none) :
    exec (.read p) s = .next t ∧ (p.flags.getLsbD 2 = false ∨ (Rule.arrived s p).heldAnswer p = none → ∀ i ∈ [Instr.write p, .atomic p, .redPacket p], exec i s = .next t) := by
  refine ⟨(exec_read p s).trans (State.arrive_next h (ht _) hb), fun hfresh i hi => ?_⟩
  obtain ⟨hw, ha, hr⟩ := exec_retryable h hfresh hb
  simp only [List.mem_cons, List.not_mem_nil, or_false] at hi
  obtain rfl | rfl | rfl := hi
  · exact hw (ht _)
  · exact ha ((State.serveAtomic.eq_1 _ p true).trans (ht _))
  · exact hr ((State.serveAtomic.eq_1 _ p false).trans (ht _))

end Sys2Proof.Machine

namespace Sys2Proof.Proofs
open Machine

theorem packets_served {s : State} {p : Packet} (c : Ctx) (h : Rule.atPort s p) :
    let u := Rule.arrived s p
    let fresh := p.flags.getLsbD 2 = false ∨ u.heldAnswer p = none
    let refusal := u.send (u.answer p 9 0 [])
    let n := (packetOperands p).1
    (p.tagOk = false → exec (.read p) s = .next (u.send (u.answer p 8 0 [])) ∧
      (fresh → ∀ i ∈ [Instr.write p, .atomic p, .redPacket p], exec i s = .next (u.send (u.answer p 8 0 [])))) ∧
    (p.tagOk = true → u.ctx? p.ctx = none → exec (.read p) s = .next refusal ∧ (fresh → ∀ i ∈ [Instr.write p, .atomic p, .redPacket p], exec i s = .next refusal)) ∧
    (p.tagOk = true → u.ctx? p.ctx = some c → c.state ≠ .destroyed →
      (∀ a rest, u.translate c p.obj p.off p.length = .at_ a rest → (u.touch a p.length).broken = none →
        exec (.read p) s = .next ((u.touch a p.length).send (u.answer p 6 (if u.poisoned a p.length then 1 else 0)
          (if u.memberReads c then u.bytes a p.length else u.maskMoved 0 c.num false p.obj p.off (u.bytes a p.length))))) ∧
      (∀ token why base, u.homeRead c p.obj p.off p.length = .absent token why base → exec (.read p) s = .next refusal) ∧
      (fresh → ∀ s1 old ue s2 a, u.homeRead c p.obj p.off p.data.length = .ok s1 old ue → s1.beforeWrite c p.obj p.off p.data.length = some (s2, a) →
        ((s2.write a p.data).arrived p).broken = none →
        exec (.write p) s = .next (((s2.write a p.data).arrived p).sendHeld p (u.answer p 7 0 []))) ∧
      (fresh → ∀ token why base, u.homeRead c p.obj p.off p.data.length = .absent token why base → exec (.write p) s = .next refusal) ∧
      (fresh → ∀ s1 old new s2 a, u.homeRead c p.obj p.off n = .ok s1 old false → packetApply p old = some new → s1.beforeWrite c p.obj p.off n = some (s2, a) →
        let w := (s2.write a new).rawWrite 0 c.num false p.obj p.off n
        w.broken = none →
        exec (.atomic p) s = .next (w.sendHeld p (u.answer p 6 0 (u.maskMoved 0 c.num false p.obj p.off old))) ∧
        exec (.redPacket p) s = .next (w.sendHeld p (u.answer p 7 0 [])))) := by
  intro u fresh refusal n
  have hu : u.broken = none := Rule.arrived_broken h
  refine ⟨fun htag => exec_unopened h (State.opened_badTag htag) (State.send_broken hu _),
    fun htag hctx => exec_unopened h (State.opened_noCtx htag hctx) (State.send_broken hu _), fun htag hctx hc => ⟨?_, ?_, ?_, ?_, ?_⟩⟩
  · intro a rest ha hb
    exact (exec_read p s).trans (State.arrive_next h (State.serveRead_at htag hctx hc ha) (State.send_broken hb _))
  · intro token why base ha
    exact (exec_read p s).trans (State.arrive_next h (State.serveRead_absent htag hctx hc ha) (State.send_broken hu _))
  · intro hfresh s1 old ue s2 a hr hw hb
    exact (exec_retryable h hfresh (State.sendHeld_broken hb _ _)).1 (State.serveWrite_ok htag hctx hc hr hw)
  · intro hfresh token why base ha
    exact (exec_retryable h hfresh (State.send_broken hu _)).1 (State.serveWrite_absent htag hctx hc ha)
  · intro hfresh s1 old new s2 a hr hg hw w hb
    exact ⟨(exec_retryable h hfresh (State.sendHeld_broken hb _ _)).2.1 (State.serveAtomic_ok htag hctx hc hr hg hw true),
      (exec_retryable h hfresh (State.sendHeld_broken hb _ _)).2.2 (State.serveAtomic_ok htag hctx hc hr hg hw false)⟩

/-! ### Packets for another device, and retried requests -/

theorem packet_passedOn {s : State} {p : Packet} (hb : s.broken = none) (hpow : s.powered = true) (hhere : s.isHere p = false)
    (hpos : ((s.bankOf p).position p.dst).isSome = true) :
    ∀ i ∈ [Instr.read p, .write p, .atomic p, .redPacket p, .data p, .ack p, .refused p, .linknack p, .mack p, .mgt p],
      exec i s = .next { s with inbox := s.inbox.erase p, outbox := s.outbox ++ [p] } := by
  intro i hi
  obtain ⟨f, hf⟩ := exec_arrives p s i hi
  rw [hf, State.arrive_elsewhere hb hpow hhere hpos]

theorem retry_flag (flags : BitVec 8) : (flags ||| 4#8).getLsbD 2 = true := by simp

theorem request_retried {s : State} {p : Packet} (h : Rule.atPort s p) :
    let u := Rule.arrived s p
    let q : Nat → Packet := fun kind => { p with kind, flags := p.flags ||| 4#8 }
    ((u.serveRead (q 1)).broken = none → exec (.retriedRequest 1 p) s = .next (u.serveRead (q 1))) ∧
    (∀ kind r, 2 ≤ kind → kind ≤ 4 → u.heldAnswer (q kind) = some r →
      exec (.retriedRequest kind p) s = .next (u.send { r with plane := p.plane, flags := u.packetFlags r p.plane })) ∧
    (u.heldAnswer (q 2) = none → (u.serveWrite (q 2)).broken = none → exec (.retriedRequest 2 p) s = .next (u.serveWrite (q 2))) := by
  intro u q
  have hu : u.broken = none := Rule.arrived_broken h
  refine ⟨fun hb => ?_, fun kind r hlo hhi hheld => ?_, fun hheld hb => ?_⟩
  · rw [exec_retriedRequest, execRetriedRequest]
    exact State.arrive_next h rfl hb
  · have hans : ∀ f, u.serveRetry (q kind) f = u.send { r with plane := p.plane, flags := u.packetFlags r p.plane } :=
      State.serveRetry_held (retry_flag p.flags) hheld
    rw [exec_retriedRequest, execRetriedRequest]
    obtain rfl | rfl | rfl : kind = 2 ∨ kind = 3 ∨ kind = 4 := by omega
    · exact State.arrive_next h (hans _) hu
    · exact State.arrive_next h (hans _) hu
    · exact State.arrive_next h (hans _) hu
  · rw [exec_retriedRequest, execRetriedRequest]
    exact State.arrive_next h (State.serveRetry_fresh (.inr hheld) _) hb

/-! ### Answers at their source -/

theorem gcmFailed_reissues {u : State} {r : Request} (hr : r ∈ u.requests) (hf : r.failures < 2) (hb : u.broken = none) :
    Rule.reissued u (u.gcmFailed r) r ∧ (u.gcmFailed r).broken = none := by
  rw [State.gcmFailed, if_neg (by omega)]
  exact ⟨⟨_, List.mem_map.2 ⟨r, hr, if_pos rfl⟩, rfl, rfl, rfl⟩, hb⟩

theorem gcmFailed_third {u : State} {r : Request} (hf : r.failures = 2) (hk : r.packet.kind ≠ 5) : u.gcmFailed r = u.takeAnswer r [] true := by
  rw [State.gcmFailed, if_pos (by omega), if_neg hk]

section Answers
variable {s : State} {p : Packet} (h : Rule.atPort s p)
include h

/-- An answer to no request changes nothing but that it is taken. -/
theorem exec_answer_unasked (hreq : (Rule.arrived s p).requestOf p = none) :
    exec (.data p) s = .next (Rule.arrived s p) ∧ exec (.ack p) s = .next (Rule.arrived s p) ∧ exec (.refused p) s = .next (Rule.arrived s p) := by
  refine ⟨?_, ?_, ?_⟩
  · rw [exec_data, execData]
    exact State.arrive_next h (by rw [hreq]) (Rule.arrived_broken h)
  · rw [exec_ack, execAck]
    exact State.arrive_next h (by rw [hreq]) (Rule.arrived_broken h)
  · rw [exec_refused, execRefused]
    exact State.arrive_next h (by rw [hreq]) (Rule.arrived_broken h)

theorem exec_data_asked {r : Request} (hreq : (Rule.arrived s p).requestOf p = some r) :
    exec (.data p) s = conclude (if p.tagOk then (Rule.arrived s p).takeAnswer r p.data (p.op == 1) else (Rule.arrived s p).gcmFailed r) := by
  rw [exec_data, execData, State.arrive_atPort h, hreq]

theorem exec_ack_asked {r : Request} (hreq : (Rule.arrived s p).requestOf p = some r) :
    exec (.ack p) s = conclude (if p.tagOk then (Rule.arrived s p).takeAnswer r [] false else (Rule.arrived s p).gcmFailed r) := by
  rw [exec_ack, execAck, State.arrive_atPort h, hreq]

theorem exec_refused_line {r : Request} (hreq : (Rule.arrived s p).requestOf p = some r) (hk : r.packet.kind = 5) :
    exec (.refused p) s = conclude (((Rule.arrived s p).lineRefused p r.packet.dst 10).lineAnswered p 0 1) := by
  rw [exec_refused, execRefused, State.arrive_atPort h, hreq]
  dsimp only
  rw [if_pos hk]

theorem exec_refused_access {r : Request} {a : Access} {c : Ctx} (hreq : (Rule.arrived s p).requestOf p = some r) (hk : r.packet.kind ≠ 5)
    (ha : (Rule.arrived s p).requestAccess r = some a) (hctx : (Rule.arrived s p).ctx? r.packet.ctx = some c) :
    exec (.refused p) s = conclude (let u := { Rule.arrived s p with requests := (Rule.arrived s p).requests.erase r }
      if a.is [0xAA] then (u.dropAccess r.core a.id).releaseHeld
      else ((u.refuseAccess r.core c { a with tag := none } true 8 a.off).settleDrains r.core).releaseHeld) := by
  rw [exec_refused, execRefused, State.arrive_atPort h, hreq]
  dsimp only
  rw [if_neg hk, ha, hctx]

theorem exec_linknack_asked {r : Request} (hreq : (Rule.arrived s p).nackedRequest p = some r) :
    exec (.linknack p) s = conclude (if (p.src = r.packet.dst ∨ r.packet.kind = 5) ∧ r.packet.flags.getLsbD 0 ∧ p.op = 0 then (Rule.arrived s p).gcmFailed r
      else { Rule.arrived s p with
        requests := (Rule.arrived s p).requests.map fun x => if x = r then { r with nacked := true, returned := true } else x }.releaseHeld) := by
  rw [exec_linknack, execLinknack, State.arrive_atPort h, hreq]

end Answers

theorem answers_taken {s : State} {p : Packet} (r : Request) (h : Rule.atPort s p) :
    let u := Rule.arrived s p
    (u.requestOf p = none → exec (.data p) s = .next u ∧ exec (.ack p) s = .next u ∧ exec (.refused p) s = .next u) ∧
    (u.requestOf p = some r →
      (p.tagOk = true → (u.takeAnswer r p.data (p.op == 1)).broken = none → exec (.data p) s = .next (u.takeAnswer r p.data (p.op == 1))) ∧
      (p.tagOk = false → r.failures < 2 → ∃ t, exec (.data p) s = .next t ∧ exec (.ack p) s = .next t ∧ Rule.reissued u t r) ∧
      (p.tagOk = false → r.failures = 2 → r.packet.kind ≠ 5 → (u.takeAnswer r [] true).broken = none →
        exec (.data p) s = .next (u.takeAnswer r [] true) ∧ exec (.ack p) s = .next (u.takeAnswer r [] true)) ∧
      (p.tagOk = true → (u.takeAnswer r [] false).broken = none → exec (.ack p) s = .next (u.takeAnswer r [] false)) ∧
      (r.packet.kind = 5 → let v := (u.lineRefused p r.packet.dst 10).lineAnswered p 0 1
        v.broken = none → exec (.refused p) s = .next v) ∧
      (∀ a c, r.packet.kind ≠ 5 → u.requestAccess r = some a → u.ctx? r.packet.ctx = some c →
        (a.opc ≠ 0xAA → let v := (({ u with requests := u.requests.erase r }.refuseAccess r.core c { a with tag := none } true 8 a.off).settleDrains r.core).releaseHeld
          v.broken = none → exec (.refused p) s = .next v) ∧
        (a.opc = 0xAA → let v := ({ u with requests := u.requests.erase r }.dropAccess r.core a.id).releaseHeld
          v.broken = none → exec (.refused p) s = .next v))) := by
  intro u
  have hu : u.broken = none := Rule.arrived_broken h
  refine ⟨exec_answer_unasked h, fun hreq => ⟨?_, ?_, ?_, ?_, ?_, ?_⟩⟩
  · intro htag hb
    rw [exec_data_asked h hreq, if_pos htag, conclude_next hb]
  · intro htag hf
    obtain ⟨hre, hb⟩ := gcmFailed_reissues (List.mem_of_find?_eq_some hreq) hf hu
    have hno : ¬p.tagOk = true := by simp [htag]
    refine ⟨u.gcmFailed r, ?_, ?_, hre⟩
    · rw [exec_data_asked h hreq, if_neg hno, conclude_next hb]
    · rw [exec_ack_asked h hreq, if_neg hno, conclude_next hb]
  · intro htag hf hk hb
    have hno : ¬p.tagOk = true := by simp [htag]
    constructor
    · rw [exec_data_asked h hreq, if_neg hno, gcmFailed_third hf hk, conclude_next hb]
    · rw [exec_ack_asked h hreq, if_neg hno, gcmFailed_third hf hk, conclude_next hb]
  · intro htag hb
    rw [exec_ack_asked h hreq, if_pos htag, conclude_next hb]
  · intro hk v hb
    rw [exec_refused_line h hreq hk, conclude_next hb]
  · intro a c hk ha hctx
    refine ⟨?_, ?_⟩
    · intro hop v hb
      have hno : ¬a.is [0xAA] = true := fun hx => hop ((Access.is_single (by decide)).1 hx)
      rw [exec_refused_access h hreq hk ha hctx]
      dsimp only
      rw [if_neg hno, conclude_next hb]
    · intro hop v hb
      rw [exec_refused_access h hreq hk ha hctx]
      dsimp only
      rw [if_pos ((Access.is_single (by decide)).2 hop), conclude_next hb]

theorem nack_taken {s : State} {p : Packet} (r : Request) (h : Rule.atPort s p) :
    let u := Rule.arrived s p
    u.nackedRequest p = some r →
      let failed := (p.src = r.packet.dst ∨ r.packet.kind = 5) ∧ r.packet.flags.getLsbD 0 = true ∧ p.op = 0
      (failed → r.failures < 2 → ∃ t, exec (.linknack p) s = .next t ∧ Rule.reissued u t r) ∧
      (¬failed → let v := { u with requests := u.requests.map fun x => if x = r then { r with nacked := true, returned := true } else x }.releaseHeld
        v.broken = none → exec (.linknack p) s = .next v) := by
  intro u hreq failed
  refine ⟨?_, ?_⟩
  · intro hfail hf
    obtain ⟨hre, hb⟩ := gcmFailed_reissues (List.mem_of_find?_eq_some hreq) hf (Rule.arrived_broken h)
    exact ⟨u.gcmFailed r, by rw [exec_linknack_asked h hreq, if_pos hfail, conclude_next hb], hre⟩
  · intro hfail v hb
    rw [exec_linknack_asked h hreq, if_neg hfail, conclude_next hb]

/-! ### Lines at a node of their tree -/

theorem exec_mcast (p : Packet) (s : State) : exec (.mcast p) s = execMcast p s := rfl

theorem heldFirst_other {s : State} {p : Packet} (h : ∀ x ∈ s.memberLines, x.packet ≠ p) (k : ParkKey) :
    ((s.heldFirst p.ctx).any fun x => x.packet == p && x.key == k) = false := by
  cases hx : s.heldFirst p.ctx with
  | none => rfl
  | some x =>
    have hne : x.packet ≠ p := h x (List.mem_of_find?_eq_some hx)
    simp [hne]

/-- A line that this member does not hold is taken where it has arrived. -/
theorem exec_mcast_arrived {s : State} {p : Packet} (h : Rule.atPort s p) (hnew : ∀ x ∈ s.memberLines, x.packet ≠ p) :
    exec (.mcast p) s = conclude (if p.tagOk then (Rule.arrived s p).nodeTake p else (Rule.arrived s p).send ((Rule.arrived s p).answer p 8 0 [])) := by
  rw [exec_mcast, execMcast, heldFirst_other hnew, if_neg (by decide), State.arrive_atPort h]

theorem nodeTake_new {u : State} {p : Packet} (hflag : p.flags.getLsbD 2 = false) (hnew : ∀ y ∈ u.combines, sameTransaction y.packet p = false) :
    u.nodeTake p =
      let here := (u.treeNode p.group p.plane).testBit 6 && (u.treeNode p.group p.plane).testBit 7
      let gone := u.goneMembers p
      let x : Combine :=
        { packet := p, waiting := u.treeKids p ++ (if here then [u.device] else []), refusals := gone.length, refusers := (sortBy (fun d : Nat => d) gone).take 4 }
      let v := gone.foldl (fun (t : State) d => t.tellRefused p d 10)
        { u with combines := u.combines ++ [x], outbox := u.outbox ++ (u.treeKids p).map fun d => { p with dst := d } }
      if here then v.memberOnce p else v.combineDone x := by
  have hany : ¬(u.combines.any fun x => sameTransaction x.packet p) = true := by
    rw [List.any_eq_true]
    rintro ⟨y, hy, hsame⟩
    rw [hnew y hy] at hsame
    cases hsame
  have hretry : ¬p.flags.getLsbD 2 = true := by
    rw [hflag]
    decide
  rw [State.nodeTake]
  dsimp only
  rw [if_neg hretry, if_neg hany]

theorem memberOnce_new {v : State} {p : Packet} (hflag : p.flags.getLsbD 2 = false) : v.memberOnce p = v.memberWrite p := by
  rw [State.memberOnce, if_pos hflag]

section Member
variable {v : State} {p : Packet} {c : Ctx} (hctx : v.ctx? p.ctx = some c) (hc : c.state ≠ .destroyed)
include hctx hc

theorem memberWrite_noObject (ho : v.object? c p.obj = none) : v.memberWrite p = v.memberRefuse p 10 := by
  rw [State.memberWrite, hctx, Option.bind_some, if_neg hc, ho]

theorem memberWrite_wrongObject {o : ObjEntry} (ho : v.object? c p.obj = some o) (hw : o.mcast = false ∨ o.group ≠ p.group ∨ o.home = 2) :
    v.memberWrite p = v.memberRefuse p 11 := by
  rw [State.memberWrite, hctx, Option.bind_some, if_neg hc, ho]
  exact if_pos hw

theorem memberWrite_object {o : ObjEntry} (ho : v.object? c p.obj = some o) (hm : o.mcast = true) (hg : o.group = p.group) (hh : o.home ≠ 2) :
    v.memberWrite p = match v.heldFirst p.ctx with
      | some x => v.keepLine p x.key
      | none => v.memberGo p := by
  rw [State.memberWrite, hctx, Option.bind_some, if_neg hc, ho]
  exact if_neg (by simp [hm, hg, hh])

/-- A line whose page is resident is written in one step. -/
theorem memberGo_ok {s1 s2 : State} {old : List Byte} {ue : Bool} {line : PAddr} (hr : v.homeRead c p.obj p.off 256 = .ok s1 old ue)
    (hb : v.beforeWrite c p.obj p.off 256 = some (s2, line)) :
    v.memberGo p = ((lineElements p).foldl (fun (t : State) e => t.putElement p line e) s2).memberAnswer p 1 0 := by
  rw [State.memberGo, hctx]
  dsimp only
  rw [if_neg hc, State.memberTry, hr]
  dsimp only
  rw [hb]

end Member

theorem line_taken {s : State} {p : Packet} (h : Rule.atPort s p) (hflag : p.flags.getLsbD 2 = false) (hheld : ∀ x ∈ s.memberLines, x.packet ≠ p) :
    let u := Rule.arrived s p
    let here := (u.treeNode p.group p.plane).testBit 6 && (u.treeNode p.group p.plane).testBit 7
    let gone := u.goneMembers p
    let x : Combine :=
      { packet := p, waiting := u.treeKids p ++ (if here then [u.device] else []), refusals := gone.length, refusers := (sortBy (fun d : Nat => d) gone).take 4 }
    let v := gone.foldl (fun (t : State) d => t.tellRefused p d 10)
      { u with combines := u.combines ++ [x], outbox := u.outbox ++ (u.treeKids p).map fun d => { p with dst := d } }
    (p.tagOk = false → exec (.mcast p) s = .next (u.send (u.answer p 8 0 []))) ∧
    (p.tagOk = true → (∀ y ∈ u.combines, sameTransaction y.packet p = false) →
      (here = false → (v.combineDone x).broken = none → exec (.mcast p) s = .next (v.combineDone x)) ∧
      (here = true → ∀ c, v.ctx? p.ctx = some c → c.state ≠ .destroyed →
        (v.object? c p.obj = none → (v.memberRefuse p 10).broken = none → exec (.mcast p) s = .next (v.memberRefuse p 10)) ∧
        (∀ o, v.object? c p.obj = some o → o.mcast = false ∨ o.group ≠ p.group ∨ o.home = 2 → (v.memberRefuse p 11).broken = none →
          exec (.mcast p) s = .next (v.memberRefuse p 11)) ∧
        (∀ o x, v.object? c p.obj = some o → o.mcast = true → o.group = p.group → o.home ≠ 2 → v.heldFirst p.ctx = some x → (v.keepLine p x.key).broken = none →
          exec (.mcast p) s = .next (v.keepLine p x.key)) ∧
        ∀ o s1 old ue s2 line, v.object? c p.obj = some o → o.mcast = true → o.group = p.group → o.home ≠ 2 → v.heldFirst p.ctx = none → v.homeRead c p.obj p.off 256 = .ok s1 old ue →
          v.beforeWrite c p.obj p.off 256 = some (s2, line) →
          let z := ((lineElements p).foldl (fun (t : State) e => t.putElement p line e) s2).memberAnswer p 1 0
          z.broken = none → exec (.mcast p) s = .next z)) := by
  intro u here gone x v
  have hexec := exec_mcast_arrived h hheld
  refine ⟨fun htag => ?_, fun htag hnew => ?_⟩
  · rw [hexec, if_neg (by simp [htag])]
    exact conclude_next (State.send_broken (Rule.arrived_broken h) _)
  have htake : exec (.mcast p) s = conclude (if here then v.memberOnce p else v.combineDone x) := by
    rw [hexec, if_pos htag, nodeTake_new hflag hnew]
  refine ⟨fun hhere hb => ?_, fun hhere c hctx hc => ?_⟩
  · rw [htake, if_neg (by simp [hhere]), conclude_next hb]
  have hmember : exec (.mcast p) s = conclude (v.memberWrite p) := by
    rw [htake, if_pos hhere, memberOnce_new hflag]
  refine ⟨fun ho hb => ?_, fun o ho hw hb => ?_, fun o y ho hm hg hh hy hb => ?_, ?_⟩
  · rw [hmember, memberWrite_noObject hctx hc ho, conclude_next hb]
  · rw [hmember, memberWrite_wrongObject hctx hc ho hw, conclude_next hb]
  · rw [hmember, memberWrite_object hctx hc ho hm hg hh, hy]
    exact conclude_next hb
  · intro o s1 old ue s2 line ho hm hg hh hy hr hw z hb
    rw [hmember, memberWrite_object hctx hc ho hm hg hh, hy]
    dsimp only
    rw [memberGo_ok hctx hc hr hw, conclude_next hb]

/-! ### Answers of a tree, and messages between Bursars -/

theorem refuserEntries_length (l : List Nat) : (refuserEntries l).length = 8 := by
  have hle : ((sortBy (fun d : Nat => d) l).take 4).length ≤ 4 := List.length_take_le _ _
  have hflat : ∀ l : List Nat, (l.flatMap fun d => toLE 2 (0x8000 + d)).length = 2 * l.length := by
    intro l
    simp [List.length_flatMap, Nat.mul_comm]
  rw [refuserEntries, List.length_append, hflat, zeros, List.length_replicate]
  omega

theorem mackData_counts (suc ref dev : Nat) (l : List Nat) :
    (mackData suc ref l dev).length = 16 ∧ field (mackData suc ref l dev) 0 4 = suc % 1024 + 1024 * (ref % 1024) := by
  refine ⟨by simp [mackData, refuserEntries_length, zeros], ?_⟩
  have hs : suc % 1024 < 1024 := Nat.mod_lt _ (by decide)
  have hr : ref % 1024 < 1024 := Nat.mod_lt _ (by decide)
  rw [mackData, List.append_assoc, List.append_assoc, field_toLE_append, Nat.mod_eq_of_lt (by omega)]
  omega

theorem mack_taken {s : State} {p : Packet} (h : Rule.atPort s p) :
    let u := Rule.arrived s p
    let w := field p.data 0 4
    (∀ x, u.combines.find? (fun x => mackOf x.packet p) = some x →
      let v := u.combineAdd x.packet p.src (w % 1024) (w / 1024 % 1024) (mackRefusers p.data)
      v.broken = none → exec (.mack p) s = .next v) ∧
    (u.combines.find? (fun x => mackOf x.packet p) = none →
      (p.src = u.groupRoot p.group → (u.lineAnswered p (w % 1024) (w / 1024 % 1024)).broken = none →
        exec (.mack p) s = .next (u.lineAnswered p (w % 1024) (w / 1024 % 1024))) ∧
      (p.src ≠ u.groupRoot p.group → exec (.mack p) s = .next u)) := by
  intro u w
  have hmack : exec (.mack p) s = conclude (match u.combines.find? fun x => mackOf x.packet p with
      | some x => u.combineAdd x.packet p.src (w % 1024) (w / 1024 % 1024) (mackRefusers p.data)
      | none => if p.src = u.groupRoot p.group then u.lineAnswered p (w % 1024) (w / 1024 % 1024) else u) := by
    rw [exec_mack, execMack, State.arrive_atPort h] <;> rfl
  refine ⟨?_, fun hnone => ⟨fun hroot hb => ?_, fun hroot => ?_⟩⟩
  · intro x hx v hb
    rw [hmack, hx]
    exact conclude_next hb
  · rw [hmack, hnone]
    dsimp only
    rw [if_pos hroot, conclude_next hb]
  · rw [hmack, hnone]
    dsimp only
    rw [if_neg hroot, conclude_next (Rule.arrived_broken h)]

theorem exec_mgt_arrived {s : State} {p : Packet} (h : Rule.atPort s p) :
    exec (.mgt p) s = conclude (let u := Rule.arrived s p
      if p.op = 0xDA then { u with planNotes := u.planNotes ++ [{
        dev := p.src, ctx := p.ctx, tensor := field p.data 4 8, crc := field p.data 0 4, obj := field p.data 12 4, off := field p.data 16 8
        kind := field p.data 24 1, turn := field p.data 25 4 }] }
      else if p.op = 0xDC then u.lineRefused p (field p.data 0 2) (field p.data 2 1)
      else if p.op = 1 then u.hold p.src
      else if p.op = 2 then u.unhold p.src
      else if p.op = 3 then { u with lostPlanes := u.lostPlanes ||| BitVec.ofNat 8 (2 ^ (field p.data 0 1 % 8)) }.remapPlane (field p.data 0 1 % 8) 0
      else u) := by
  rw [exec_mgt, execMgt, State.arrive_atPort h]

theorem message_taken {s : State} {p : Packet} (h : Rule.atPort s p) :
    let u := Rule.arrived s p
    (p.op = 0xDA → ∃ note : PlanNote, exec (.mgt p) s = .next { u with planNotes := u.planNotes ++ [note] } ∧
      note.dev = p.src ∧ note.ctx = p.ctx ∧ note.crc = field p.data 0 4 ∧ note.tensor = field p.data 4 8 ∧
      note.obj = field p.data 12 4 ∧ note.off = field p.data 16 8 ∧ note.kind = field p.data 24 1 ∧ note.turn = field p.data 25 4) ∧
    (p.op = 0xDC → (u.lineRefused p (field p.data 0 2) (field p.data 2 1)).broken = none →
      exec (.mgt p) s = .next (u.lineRefused p (field p.data 0 2) (field p.data 2 1))) ∧
    (p.op = 1 → p.src ≠ s.device → exec (.mgt p) s = .next { u with dbghold := u.dbghold + 1 }) ∧ (p.op = 2 → p.src ≠ s.device → exec (.mgt p) s = .next { u with dbghold := u.dbghold - 1 }) ∧
    (p.op = 3 → let k := field p.data 0 1 % 8
      let v := { u with lostPlanes := u.lostPlanes ||| BitVec.ofNat 8 (2 ^ k) }.remapPlane k 0
      v.broken = none → exec (.mgt p) s = .next v) ∧
    (p.op ∉ [(0xDA : BitVec 8), 0xDC, 1, 2, 3] → exec (.mgt p) s = .next u) := by
  intro u
  have hu : u.broken = none := Rule.arrived_broken h
  have hmgt := exec_mgt_arrived h
  dsimp only at hmgt
  refine ⟨fun hop => ?_, fun hop hb => ?_, fun hop hsrc => ?_, fun hop hsrc => ?_, ?_, fun hop => ?_⟩
  · rw [if_pos hop] at hmgt
    exact ⟨_, hmgt.trans (conclude_next hu), rfl, rfl, rfl, rfl, rfl, rfl, rfl, rfl⟩
  · rw [hmgt, hop, if_neg (by decide), if_pos rfl]
    exact conclude_next hb
  · rw [hmgt, hop, if_neg (by decide), if_neg (by decide), if_pos rfl, State.hold, if_neg (by exact hsrc)]
    exact conclude_next hu
  · rw [hmgt, hop, if_neg (by decide), if_neg (by decide), if_neg (by decide), if_pos rfl, State.unhold, if_neg (by exact hsrc)]
    exact conclude_next hu
  · intro hop k v hb
    rw [hmgt, hop, if_neg (by decide), if_neg (by decide), if_neg (by decide), if_neg (by decide), if_pos rfl]
    exact conclude_next hb
  · simp only [List.mem_cons, List.not_mem_nil, or_false, not_or] at hop
    obtain ⟨hda, hdc, h1, h2, h3⟩ := hop
    rw [hmgt, if_neg hda, if_neg hdc, if_neg h1, if_neg h2, if_neg h3]
    exact conclude_next hu

/-- Settles O60, by what each packet does once it has arrived where it is for. -/
theorem packetSteps : Obligations.PacketSteps := by
  unfold Obligations.PacketSteps
  refine ⟨fun s p c h => packets_served c h, fun s p hb hpow hhere hpos => packet_passedOn hb hpow hhere hpos, fun s p h => request_retried h, ?_,
    fun s p h hflag hheld => line_taken h hflag hheld, mackData_counts, ?_⟩
  · intro s p r h
    obtain ⟨hunasked, hasked⟩ := answers_taken r h
    exact ⟨hunasked, hasked, nack_taken r h⟩
  · intro s p h
    obtain ⟨hnode, hroot⟩ := mack_taken h
    exact ⟨hnode, hroot, message_taken h⟩

end Sys2Proof.Proofs
end


section
/-! PROOFS. O21: instructions across lanes. -/

namespace Sys2Proof.Proofs
open Machine

/-- Settles O21: each move between lanes reads all lanes before it writes any, and LRED's seven steps combine the lanes in their order. -/
theorem laneResults : Obligations.LaneResults := ⟨laneMoves, reductionScans⟩

end Sys2Proof.Proofs
end


section
/-! PROOFS. O30 comes down to one free choice of the model. A destination of an indexed operand is resolved lane by lane, in the state that the lanes
before have left; a write of theirs that lands before another one in flight moves the writes behind it one place on, and `Config.earlyRead` is asked by
that place. The obligation holds exactly where its answer does not depend on the place. -/

namespace Sys2Proof.Machine

/-! ### Writes in flight -/

theorem addLanding_split (l : Landing) (v : Word) (ls : List Landing) :
    addLanding l v ls = ls ++ [l] ∨
      ∃ as m bs, ls = as ++ m :: bs ∧ m.place = l.place ∧ addLanding l v ls = as ++ { l with old := m.old } :: { m with old := v } :: bs := by
  induction ls with
  | nil => exact .inl rfl
  | cons m ms ih =>
    by_cases hm : m.place = l.place ∧ l.due < m.due
    · exact .inr ⟨[], m, ms, rfl, hm.1, by rw [addLanding, if_pos hm, List.nil_append]⟩
    · rw [addLanding, if_neg hm]
      obtain h | ⟨as, k, bs, rfl, hk, h⟩ := ih
      · exact .inl (by rw [h, List.cons_append])
      · exact .inr ⟨m :: as, k, bs, rfl, hk, by rw [h, List.cons_append]⟩

/-- A write of one place leaves those of the others that land later. -/
theorem landsLater_addLanding {q : RegPlace} (due : Nat) {l : Landing} (v : Word) (ls : List Landing) (h : l.place ≠ q) :
    landsLater q due (addLanding l v ls) = landsLater q due ls := by
  obtain h' | ⟨as, m, bs, rfl, hm, h'⟩ := addLanding_split l v ls
  · simp [landsLater, h', h]
  · simp [landsLater, h', h, hm]

theorem earlyValue_append (tick now : Nat) {p : RegPlace} (k : Nat) (v : Word) (n : Nat) (as bs : List Landing) (h : ∀ l ∈ as, l.place ≠ p) :
    earlyValue tick now p k v n (as ++ bs) = earlyValue tick now p k v (n + as.length) bs := by
  induction as generalizing n with
  | nil => rfl
  | cons l as ih =>
    rw [List.cons_append, earlyValue, if_neg fun hl => h l List.mem_cons_self hl.1, ih (n + 1) fun x hx => h x (List.mem_cons_of_mem _ hx), List.length_cons,
      Nat.add_right_comm, Nat.add_assoc]

/-- Does what an early read finds not depend on how many writes stand before the one it asks about, once any does? -/
def placeFree (tick k : Nat) : Prop := ∀ n, Config.earlyRead tick k (n + 2) = Config.earlyRead tick k (n + 1)

theorem earlyValue_shift {tick k : Nat} (hfree : placeFree tick k) (now : Nat) (p : RegPlace) (v : Word) (n : Nat) (ls : List Landing) :
    earlyValue tick now p k v (n + 2) ls = earlyValue tick now p k v (n + 1) ls := by
  induction ls generalizing n with
  | nil => rfl
  | cons l ls ih => rw [earlyValue, earlyValue, hfree n, ih (n + 1)]

/-- One more write of another place. -/
theorem earlyValue_addLanding {tick k : Nat} (hfree : placeFree tick k) (now : Nat) {p : RegPlace} (v : Word) (n : Nat) {l : Landing} (w : Word) (ls : List Landing)
    (h : l.place ≠ p) : earlyValue tick now p k v n (addLanding l w ls) = earlyValue tick now p k v n ls := by
  induction ls generalizing n with
  | nil => simp [addLanding, earlyValue, h]
  | cons m ms ih =>
    by_cases hm : m.place = l.place ∧ l.due < m.due
    · have hmp : m.place ≠ p := hm.1 ▸ h
      rw [addLanding, if_pos hm, earlyValue, if_neg fun hl => h hl.1, earlyValue, if_neg fun hl => hmp hl.1, earlyValue, if_neg fun hl => hmp hl.1,
        earlyValue_shift hfree]
    · rw [addLanding, if_neg hm, earlyValue, earlyValue, ih]

/-! ### One write at a fixed latency -/

theorem landsLast_iff {s : State} {x : Exec} {lat : Nat} {p : RegPlace} :
    Rule.landsLast s x lat p ↔ landsLater p (x.due lat) (s.core x.ig.core).landings = false := by
  simp only [Rule.landsLast, landsLater, List.any_eq_false, Bool.and_eq_true, decide_eq_true_eq, not_and, Nat.not_lt]

section Write
variable (s : State) (c : Nat) (t : Tid) (p : RegPlace) (v : Word) (due : Nat)

/-- The register files and threads are those with the cell written. -/
theorem writeFixed_files : (s.writeFixed c t p v due).vregs = (s.setCell p (s.lastValue c p v due)).vregs ∧
    (s.writeFixed c t p v due).uregs = (s.setCell p (s.lastValue c p v due)).uregs ∧
    (s.writeFixed c t p v due).threads = (s.setCell p (s.lastValue c p v due)).threads := by
  cases p <;> simp [State.writeFixed, State.setCell, State.modCore, State.modThread]

theorem cell_of_files {s t : State} (hv : t.vregs = s.vregs) (hu : t.uregs = s.uregs) (ht : t.threads = s.threads) (q : RegPlace) : t.cell q = s.cell q := by
  cases q <;> simp [State.cell, State.thread?, hv, hu, ht]

theorem writeFixed_cell (q : RegPlace) : (s.writeFixed c t p v due).cell q = (s.setCell p (s.lastValue c p v due)).cell q := by
  obtain ⟨hv, hu, ht⟩ := writeFixed_files s c t p v due
  exact cell_of_files hv hu ht q

theorem writeFixed_tick : (s.writeFixed c t p v due).tick = s.tick := by
  cases p <;> simp [State.writeFixed, State.setCell, State.modCore, State.modThread]

theorem core_modCore (u : State) (f : Core → Core) (k : Nat) : (u.modCore c f).core k = if k = c ∧ c < u.cores.length then f (u.core k) else u.core k := by
  simp only [State.core, State.modCore, List.getD_eq_getElem?_getD, List.getElem?_modify]
  by_cases hk : k = c
  · subst hk
    by_cases hl : k < u.cores.length
    · simp [hl]
    · simp [hl]
  · simp [hk, Ne.symm hk]

theorem setCell_core (k : Nat) : (s.setCell p v).core k = s.core k := by cases p <;> rfl

theorem setCell_cores : (s.setCell p v).cores = s.cores := by cases p <;> rfl

theorem noteEarly_cores_length : (s.noteEarly c p).cores.length = s.cores.length := by
  unfold State.noteEarly
  split
  · simp [State.modCore]
  · rfl

theorem raceOps_cores_length : (s.raceOps c p).cores.length = s.cores.length := by
  unfold State.raceOps
  split
  · simp [State.modCore]
  · rfl

/-- The write is among those in flight on its core. -/
theorem writeFixed_landings (k : Nat) : ((s.writeFixed c t p v due).core k).landings =
    if k = c ∧ c < s.cores.length then addLanding ⟨due, p, s.cell p, t, none, 0⟩ v (s.core k).landings else (s.core k).landings := by
  simp only [State.writeFixed, core_modCore, setCell_core, setCell_cores, raceOps_cores_length, State.noteRaw_cores, noteEarly_cores_length, State.fullAt_cores]
  split <;> simp

theorem writeFixed_clock (k : Nat) : ((s.writeFixed c t p v due).core k).clock = (s.core k).clock := by
  simp only [State.writeFixed, core_modCore, setCell_core]
  split <;> simp

theorem writeFixed_landsLater {q : RegPlace} (h : p ≠ q) (k d : Nat) :
    landsLater q d ((s.writeFixed c t p v due).core k).landings = landsLater q d (s.core k).landings := by
  rw [writeFixed_landings]
  split
  · exact landsLater_addLanding d v _ h
  · rfl

/-- An index register is owed nothing and lies in no tensor's span: what a read of it finds depends on the writes in flight alone. -/
theorem readCell_xreg (j lane : Nat) : s.readCell c (.xreg t j) lane =
    earlyValue s.tick (s.core c).clock (.xreg t j) (readKey (.xreg t j) lane) (s.cell (.xreg t j)) 0 (s.core c).landings := by
  have hp : s.placeHolds (.xreg t j) = false := by simp [State.placeHolds, State.movesReg]
  have ho : s.owesResult c (.xreg t j) = false := by simp [State.owesResult, State.accessOwes]
  rw [State.readCell, hp, ho, Bool.false_and, Bool.or_self, if_neg (by decide)]

end Write

/-! ### Vector registers -/

theorem vkey_eq_iff {h r l h' r' l' : Nat} (hr : r < 256) (hl : l < 128) (hr' : r' < 256) (hl' : l' < 128) :
    vkey h r l = vkey h' r' l' ↔ h = h' ∧ r = r' ∧ l = l' := by
  unfold vkey
  omega

theorem writeVec_cell_same (s : State) (c : Nat) (t : Tid) (h r l : Nat) (v : Word) (due : Nat) :
    (s.writeFixed c t (.vec h r l) v due).cell (.vec h r l) =
      if landsLater (.vec h r l) due (s.core c).landings then s.cell (.vec h r l) else v := by
  rw [writeFixed_cell]
  exact sget_sput_same _ _ _

theorem writeVec_cell_other (s : State) (c : Nat) (t : Tid) {h r l h' r' l' : Nat} (v : Word) (due : Nat) (hk : vkey h' r' l' ≠ vkey h r l) :
    (s.writeFixed c t (.vec h r l) v due).cell (.vec h' r' l') = s.cell (.vec h' r' l') := by
  rw [writeFixed_cell]
  exact sget_sput_other _ _ hk

/-- The write of one lane's result to the registers from `r` on. -/
def State.putVec (s : State) (x : Exec) (th : Thread) (r regs v lat : Nat) : State :=
  let s := s.writeFixed x.ig.core th.tid (.vec th.home r th.tid.lane) (BitVec.ofNat 32 v) (x.due lat)
  if regs = 2 then s.writeFixed x.ig.core th.tid (.vec th.home (r + 1) th.tid.lane) (BitVec.ofNat 32 (v / 2 ^ 32)) (x.due lat) else s

/-- An operand that names a vector register of each lane. -/
def vectorOperand (o : Operand) : Prop := (∃ r e m, o = .vec r e m) ∨ ∃ off j inc e m, o = .idx off j inc e m

theorem putDst_vector {o : Operand} (ho : vectorOperand o) (s : State) (x : Exec) (th : Thread) (regs v lat : Nat) :
    s.putDst x th o regs v lat = s.putVec x th (s.regNo th o) regs v lat := by
  rcases ho with ⟨r, e, m, rfl⟩ | ⟨off, j, inc, e, m, rfl⟩ <;> rfl

/-- Does a place lie in the run of registers that a lane writes? -/
def inRun (th : Thread) (r regs : Nat) (q : Nat × Nat × Nat) : Prop := q.1 = th.home ∧ q.2.2 = th.tid.lane ∧ r ≤ q.2.1 ∧ q.2.1 < r + regs

section Put
variable (s : State) (x : Exec) (th : Thread) (r regs v lat : Nat)

theorem putVec_frame : (s.putVec x th r regs v lat).threads = s.threads ∧ (s.putVec x th r regs v lat).uregs = s.uregs ∧
    (s.putVec x th r regs v lat).tick = s.tick ∧ ∀ k, ((s.putVec x th r regs v lat).core k).clock = (s.core k).clock := by
  have hw : ∀ (s : State) (q : Nat) (w : Word), (s.writeFixed x.ig.core th.tid (.vec th.home q th.tid.lane) w (x.due lat)).threads = s.threads ∧
      (s.writeFixed x.ig.core th.tid (.vec th.home q th.tid.lane) w (x.due lat)).uregs = s.uregs := fun s q w =>
    ⟨(writeFixed_files ..).2.2, (writeFixed_files ..).2.1⟩
  unfold State.putVec
  dsimp only
  split
  · exact ⟨by rw [(hw _ _ _).1, (hw _ _ _).1], by rw [(hw _ _ _).2, (hw _ _ _).2], by rw [writeFixed_tick, writeFixed_tick],
      fun k => by rw [writeFixed_clock, writeFixed_clock]⟩
  · exact ⟨(hw _ _ _).1, (hw _ _ _).2, writeFixed_tick .., fun k => writeFixed_clock ..⟩

/-- The registers of other runs keep what they hold, and the writes of them in flight. -/
theorem putVec_other (hregs : regs = 1 ∨ regs = 2) (hr : r + regs ≤ 256) (hl : th.tid.lane < 128) {h' r' l' : Nat} (hr' : r' < 256) (hl' : l' < 128)
    (hout : ¬inRun th r regs (h', r', l')) : (s.putVec x th r regs v lat).cell (.vec h' r' l') = s.cell (.vec h' r' l') ∧
      ∀ k d, landsLater (.vec h' r' l') d ((s.putVec x th r regs v lat).core k).landings = landsLater (.vec h' r' l') d (s.core k).landings := by
  have hne : ∀ q, r ≤ q → q < r + regs → ¬(h' = th.home ∧ r' = q ∧ l' = th.tid.lane) := by
    rintro q hq hq' ⟨rfl, rfl, rfl⟩
    exact hout ⟨rfl, rfl, hq, hq'⟩
  have hw : ∀ (s : State) (q : Nat) (w : Word), r ≤ q → q < r + regs →
      (s.writeFixed x.ig.core th.tid (.vec th.home q th.tid.lane) w (x.due lat)).cell (.vec h' r' l') = s.cell (.vec h' r' l') ∧
      ∀ k d, landsLater (.vec h' r' l') d ((s.writeFixed x.ig.core th.tid (.vec th.home q th.tid.lane) w (x.due lat)).core k).landings =
        landsLater (.vec h' r' l') d (s.core k).landings := by
    intro s q w hq hq'
    refine ⟨writeVec_cell_other s _ _ w _ fun hk => hne q hq hq' ((vkey_eq_iff hr' hl' (by omega) hl).1 hk), writeFixed_landsLater s _ _ _ w _ ?_⟩
    intro heq
    injection heq with hh hrr hll
    exact hne q hq hq' ⟨hh.symm, hrr.symm, hll.symm⟩
  unfold State.putVec
  dsimp only
  split
  · next h2 =>
    obtain ⟨hc1, hl1⟩ := hw s r (BitVec.ofNat 32 v) le_rfl (by omega)
    obtain ⟨hc2, hl2⟩ := hw (s.writeFixed x.ig.core th.tid (.vec th.home r th.tid.lane) (BitVec.ofNat 32 v) (x.due lat)) (r + 1) (BitVec.ofNat 32 (v / 2 ^ 32))
      (by omega) (by omega)
    exact ⟨hc2.trans hc1, fun k d => (hl2 k d).trans (hl1 k d)⟩
  · exact hw s r (BitVec.ofNat 32 v) le_rfl (by omega)

/-- The registers of the run: the value, unless a write in flight lands later. -/
theorem putVec_run (hregs : regs = 1 ∨ regs = 2) (hr : r + regs ≤ 256) (hl : th.tid.lane < 128) {j : Nat} (hj : j < regs) :
    (s.putVec x th r regs v lat).cell (.vec th.home (r + j) th.tid.lane) =
      if landsLater (.vec th.home (r + j) th.tid.lane) (x.due lat) (s.core x.ig.core).landings then s.cell (.vec th.home (r + j) th.tid.lane)
      else BitVec.ofNat 32 (v / 2 ^ (32 * j)) := by
  have hkey : ∀ i i', r + i < 256 → r + i' < 256 → i ≠ i' → vkey th.home (r + i) th.tid.lane ≠ vkey th.home (r + i') th.tid.lane := by
    intro i i' hi hi' hne hk
    exact hne (by have := ((vkey_eq_iff hi hl hi' hl).1 hk).2.1; omega)
  unfold State.putVec
  dsimp only
  split
  · next h2 =>
    obtain rfl | rfl : j = 0 ∨ j = 1 := by omega
    · rw [writeVec_cell_other _ _ _ _ _ (hkey 0 1 (by omega) (by omega) (by decide)), Nat.add_zero, writeVec_cell_same, Nat.mul_zero, Nat.pow_zero, Nat.div_one]
    · rw [writeVec_cell_same, writeFixed_landsLater _ _ _ _ _ _ (by simp), writeVec_cell_other (r := r) _ _ _ _ _ (hkey 1 0 (by omega) (by omega) (by decide)), Nat.mul_one]
  · obtain rfl : j = 0 := by omega
    rw [Nat.add_zero, writeVec_cell_same, Nat.mul_zero, Nat.pow_zero, Nat.div_one]

end Put

/-! ### The lanes one after the other -/

/-- The lanes' results, each to the registers from the one that `R` gives its lane on. -/
def State.putVecs (s : State) (x : Exec) (R : Thread → Nat) (regs lat : Nat) (vals : List (Thread × Nat)) : State :=
  vals.foldl (fun s p => s.putVec x p.1 (R p.1) regs p.2 lat) s

section Lanes
variable {x : Exec} {R : Thread → Nat} {regs lat : Nat} (hregs : regs = 1 ∨ regs = 2)
include hregs

theorem putVecs_other (vals : List (Thread × Nat)) (s : State) (hvals : ∀ p ∈ vals, p.1.tid.lane < 128 ∧ R p.1 + regs ≤ 256) {h r l : Nat} (hr : r < 256)
    (hl : l < 128) (hout : ∀ p ∈ vals, ¬inRun p.1 (R p.1) regs (h, r, l)) : (s.putVecs x R regs lat vals).cell (.vec h r l) = s.cell (.vec h r l) := by
  induction vals generalizing s with
  | nil => rfl
  | cons p ps ih =>
    obtain ⟨hlane, hrun⟩ := hvals p List.mem_cons_self
    have hp := (putVec_other s x p.1 (R p.1) regs p.2 lat hregs hrun hlane hr hl (hout p List.mem_cons_self)).1
    exact (ih (s.putVec x p.1 (R p.1) regs p.2 lat) (fun q hq => hvals q (List.mem_cons_of_mem _ hq)) fun q hq => hout q (List.mem_cons_of_mem _ hq)).trans hp

theorem putVecs_run (vals : List (Thread × Nat)) (s : State) (hvals : ∀ p ∈ vals, p.1.tid.lane < 128 ∧ R p.1 + regs ≤ 256)
    (hnodup : (vals.map fun p => (p.1.home, p.1.tid.lane)).Nodup) {p : Thread × Nat} (hp : p ∈ vals) {j : Nat} (hj : j < regs) :
    (s.putVecs x R regs lat vals).cell (.vec p.1.home (R p.1 + j) p.1.tid.lane) =
      if landsLater (.vec p.1.home (R p.1 + j) p.1.tid.lane) (x.due lat) (s.core x.ig.core).landings then s.cell (.vec p.1.home (R p.1 + j) p.1.tid.lane)
      else BitVec.ofNat 32 (p.2 / 2 ^ (32 * j)) := by
  obtain ⟨hlane, hrun⟩ := hvals p hp
  induction vals generalizing s with
  | nil => cases hp
  | cons q qs ih =>
    have htail : ∀ y ∈ qs, y.1.tid.lane < 128 ∧ R y.1 + regs ≤ 256 := fun y hy => hvals y (List.mem_cons_of_mem _ hy)
    rw [List.map_cons, List.nodup_cons] at hnodup
    obtain ⟨hhead, hrest⟩ := hnodup
    have hstep : s.putVecs x R regs lat (q :: qs) = (s.putVec x q.1 (R q.1) regs q.2 lat).putVecs x R regs lat qs := rfl
    rw [hstep]
    obtain rfl | hmem := List.mem_cons.1 hp
    · rw [putVecs_other hregs qs _ htail (by omega) hlane]
      · exact putVec_run s x p.1 (R p.1) regs p.2 lat hregs hrun hlane hj
      · rintro y hy ⟨hh, hll, -⟩
        exact hhead (List.mem_map.2 ⟨y, hy, Prod.ext hh.symm hll.symm⟩)
    · have hout : ¬inRun q.1 (R q.1) regs (p.1.home, R p.1 + j, p.1.tid.lane) := by
        rintro ⟨hh, hll, -⟩
        exact hhead (List.mem_map.2 ⟨p, hmem, Prod.ext hh hll⟩)
      obtain ⟨hql, hqr⟩ := hvals q List.mem_cons_self
      obtain ⟨hc, hlater⟩ := putVec_other s x q.1 (R q.1) regs q.2 lat hregs hqr hql (r' := R p.1 + j) (by omega) hlane hout
      rw [ih _ htail hrest hmem, hc, hlater]

end Lanes

/-! ### Which registers the lanes name -/

/-- No early read of an index register by its lane asks by the place of the write in flight. -/
def placesFree : Prop := ∀ (tick : Nat) (t : Tid) (j : BitVec 2), t.lane < 128 → placeFree tick (readKey (.xreg t j.toNat) t.lane)

theorem writeVec_earlyValue {tick k : Nat} (hfree : placeFree tick k) (s : State) (c : Nat) (t : Tid) (h r l : Nat) (v : Word) (due : Nat) (core now : Nat) (u : Tid)
    (j : Nat) (w : Word) : earlyValue tick now (.xreg u j) k w 0 ((s.writeFixed c t (.vec h r l) v due).core core).landings =
      earlyValue tick now (.xreg u j) k w 0 (s.core core).landings := by
  rw [writeFixed_landings]
  split
  · exact earlyValue_addLanding hfree _ _ _ _ _ (by simp)
  · rfl

theorem putVec_xreg (hfree : placesFree) (s : State) (x : Exec) (th : Thread) (r regs v lat : Nat) (a : Thread) (ha : a.tid.lane < 128) (j : BitVec 2) :
    (s.putVec x th r regs v lat).xreg a j.toNat = s.xreg a j.toNat := by
  obtain ⟨hthreads, hunis, htick, hclock⟩ := putVec_frame s x th r regs v lat
  have hcell : (s.putVec x th r regs v lat).cell (.xreg a.tid j.toNat) = s.cell (.xreg a.tid j.toNat) := by simp only [State.cell, State.thread?, hthreads]
  have hk := hfree s.tick a.tid j ha
  rw [State.xreg, State.xreg, readCell_xreg, readCell_xreg, hcell, htick, hclock]
  unfold State.putVec
  dsimp only
  split
  · rw [writeVec_earlyValue hk, writeVec_earlyValue hk]
  · rw [writeVec_earlyValue hk]

theorem putVec_regNo {o : Operand} (ho : (∃ r e m, o = .vec r e m) ∨ placesFree ∧ ∃ off j inc e m, o = .idx off j inc e m) (s : State) (x : Exec) (th : Thread)
    (r regs v lat : Nat) (a : Thread) (ha : a.tid.lane < 128) : (s.putVec x th r regs v lat).regNo a o = s.regNo a o := by
  rcases ho with ⟨r', e, m, rfl⟩ | ⟨hfree, off, j, inc, e, m, rfl⟩
  · rfl
  · rw [State.regNo, State.regNo, putVec_xreg hfree s x th r regs v lat a ha]

/-- Every lane's result goes to the registers that its operand names before any is written. -/
theorem foldl_putDst {o : Operand} (ho : (∃ r e m, o = .vec r e m) ∨ placesFree ∧ ∃ off j inc e m, o = .idx off j inc e m) {s : State} (x : Exec) (regs lat : Nat)
    (vals : List (Thread × Nat)) (hvals : ∀ p ∈ vals, p.1.tid.lane < 128) (u : State) (hu : ∀ a : Thread, a.tid.lane < 128 → u.regNo a o = s.regNo a o) :
    vals.foldl (fun s p => s.putDst x p.1 o regs p.2 lat) u = u.putVecs x (fun a => s.regNo a o) regs lat vals := by
  have hv : vectorOperand o := ho.imp_right And.right
  induction vals generalizing u with
  | nil => rfl
  | cons p ps ih =>
    have hp : u.putDst x p.1 o regs p.2 lat = u.putVec x p.1 (s.regNo p.1 o) regs p.2 lat := by
      rw [putDst_vector hv, hu p.1 (hvals p List.mem_cons_self)]
    rw [List.foldl_cons, hp]
    exact ih (fun q hq => hvals q (List.mem_cons_of_mem _ hq)) _ fun a ha => (putVec_regNo ho u x p.1 _ regs p.2 lat a ha).trans (hu a ha)

theorem putAll_vector {x : Exec} (ho : vectorOperand x.f.opd) (s : State) (regs lat : Nat) (vals : List (Thread × Nat)) :
    s.putAll x regs lat vals = vals.foldl (fun s p => s.putDst x p.1 x.f.opd regs p.2 lat) s := by
  rcases ho with ⟨r, e, m, ho⟩ | ⟨off, j, inc, e, m, ho⟩
  · rw [State.putAll, ho]
  · rw [State.putAll, ho]

theorem putVecs_frame (s : State) (x : Exec) (R : Thread → Nat) (regs lat : Nat) (vals : List (Thread × Nat)) :
    (s.putVecs x R regs lat vals).threads = s.threads ∧ (s.putVecs x R regs lat vals).uregs = s.uregs := by
  induction vals generalizing s with
  | nil => exact ⟨rfl, rfl⟩
  | cons p ps ih =>
    obtain ⟨hthreads, hunis, -, -⟩ := putVec_frame s x p.1 (R p.1) regs p.2 lat
    obtain ⟨ht, hu⟩ := ih (s.putVec x p.1 (R p.1) regs p.2 lat)
    exact ⟨ht.trans hthreads, hu.trans hunis⟩

/-- A vector destination, of either kind, once no early read asks by the place of a write. -/
theorem vectorDestinations_of_placesFree (hfree : placesFree) : Rule.VectorDestinations := by
  intro s x regs lat vals ho hregs hvals hnodup t
  have ho' : (∃ r e m, x.f.opd = .vec r e m) ∨ placesFree ∧ ∃ off j inc e m, x.f.opd = .idx off j inc e m := ho.imp_right fun h => ⟨hfree, h⟩
  have ht : t = s.putVecs x (fun a => s.regNo a x.f.opd) regs lat vals :=
    (putAll_vector ho s regs lat vals).trans (foldl_putDst ho' x regs lat vals (fun p hp => (hvals p hp).1) s fun _ _ => rfl)
  obtain ⟨hthreads, hunis⟩ := putVecs_frame s x (fun a => s.regNo a x.f.opd) regs lat vals
  refine ⟨fun p hp j hj => ?_, fun h r l hr hl hout => ?_, by rw [ht, hunis], State.putAll_tiles .., State.putAll_regions .., by rw [ht, hthreads],
    State.putAll_vault .., State.putAll_pool .., State.putAll_locals ..⟩
  · have hrun := putVecs_run (x := x) (R := fun a => s.regNo a x.f.opd) (lat := lat) hregs vals s hvals hnodup hp hj
    intro place
    rw [ht, landsLast_iff]
    refine ⟨fun hlast => hrun.trans (if_neg (by simp only [place] at hlast; simp [hlast])), fun hlater => hrun.trans (if_pos (by simpa [place] using hlater))⟩
  · rw [ht]
    refine putVecs_other hregs vals s hvals hr hl ?_
    rintro p hp ⟨hh, hll, hlo, hhi⟩
    have := hout p hp hh hll
    dsimp only at hlo hhi
    omega

/-! ### Uniform registers, predicates and index registers -/

theorem ukey_eq_iff {h n h' n' : Nat} (hn : n < 32) (hn' : n' < 32) : ukey h n = ukey h' n' ↔ h = h' ∧ n = n' := by
  unfold ukey
  omega

theorem writeUni_cell_same (s : State) (c : Nat) (t : Tid) (h n : Nat) (v : Word) (due : Nat) :
    (s.writeFixed c t (.uni h n) v due).cell (.uni h n) = if landsLater (.uni h n) due (s.core c).landings then s.cell (.uni h n) else v := by
  rw [writeFixed_cell]
  exact sget_sput_same _ _ _

theorem writeUni_cell_other (s : State) (c : Nat) (t : Tid) {h n h' n' : Nat} (v : Word) (due : Nat) (hk : ukey h' n' ≠ ukey h n) :
    (s.writeFixed c t (.uni h n) v due).cell (.uni h' n') = s.cell (.uni h' n') := by
  rw [writeFixed_cell]
  exact sget_sput_other _ _ hk

section Uniform
variable (s : State) (x : Exec) (th : Thread) (r regs v lat : Nat)

theorem putUni_run (hr : r + regs ≤ 32) (hregs : regs = 1 ∨ regs = 2) {j : Nat} (hj : j < regs) (hlast : Rule.landsLast s x lat (.uni th.home (r + j))) :
    (s.putUni x th r regs v lat).cell (.uni th.home (r + j)) = BitVec.ofNat 32 (v / 2 ^ (32 * j)) := by
  have hlater := landsLast_iff.1 hlast
  have hkey : ukey th.home r ≠ ukey th.home (r + 1) := by
    unfold ukey
    omega
  unfold State.putUni
  dsimp only
  split
  · obtain rfl | rfl : j = 0 ∨ j = 1 := by omega
    · simp only [Nat.add_zero] at hlater ⊢
      rw [writeUni_cell_other _ _ _ _ _ hkey, writeUni_cell_same, hlater, Nat.mul_zero, Nat.pow_zero, Nat.div_one]
      rfl
    · rw [writeUni_cell_same, writeFixed_landsLater _ _ _ _ _ _ (by simp), hlater, Nat.mul_one]
      rfl
  · obtain rfl : j = 0 := by omega
    simp only [Nat.add_zero] at hlater ⊢
    rw [writeUni_cell_same, hlater, Nat.mul_zero, Nat.pow_zero, Nat.div_one]
    rfl

theorem putUni_other (hr : r + regs ≤ 32) (hregs : regs = 1 ∨ regs = 2) {h n : Nat} (hn : n < 32) (hout : ¬(h = th.home ∧ r ≤ n ∧ n < r + regs)) :
    (s.putUni x th r regs v lat).cell (.uni h n) = s.cell (.uni h n) := by
  have hkey : ∀ q, r ≤ q → q < r + regs → ukey h n ≠ ukey th.home q := by
    intro q hq hq' hk
    obtain ⟨rfl, rfl⟩ := (ukey_eq_iff hn (by omega)).1 hk
    exact hout ⟨rfl, hq, hq'⟩
  unfold State.putUni
  dsimp only
  split
  · rw [writeUni_cell_other _ _ _ _ _ (hkey (r + 1) (by omega) (by omega)), writeUni_cell_other _ _ _ _ _ (hkey r (by omega) (by omega))]
  · exact writeUni_cell_other _ _ _ _ _ (hkey r (by omega) (by omega))

theorem putUni_frame : (s.putUni x th r regs v lat).vregs = s.vregs ∧ (s.putUni x th r regs v lat).threads = s.threads := by
  have hw : ∀ (s : State) (q : Nat) (w : Word), (s.writeFixed x.ig.core th.tid (.uni th.home q) w (x.due lat)).vregs = s.vregs ∧
      (s.writeFixed x.ig.core th.tid (.uni th.home q) w (x.due lat)).threads = s.threads := fun s q w =>
    ⟨(writeFixed_files ..).1, (writeFixed_files ..).2.2⟩
  unfold State.putUni
  dsimp only
  split
  · exact ⟨by rw [(hw _ _ _).1, (hw _ _ _).1], by rw [(hw _ _ _).2, (hw _ _ _).2]⟩
  · exact hw _ _ _

end Uniform

theorem uniformDestination {s : State} {x : Exec} (lat v : Nat) (th : Thread) {regs : Nat} {r : BitVec 5} {m : BitVec 2} (rest : List (Thread × Nat))
    (ho : x.f.opd = .uni r m) (hregs : regs = 1 ∨ (regs = 2 ∧ r.toNat < 31)) :
    let t := s.putAll x regs lat ((th, v) :: rest)
    (∀ j < regs, Rule.landsLast s x lat (.uni th.home (r.toNat + j)) → t.cell (.uni th.home (r.toNat + j)) = BitVec.ofNat 32 (v / 2 ^ (32 * j))) ∧
    (∀ h n, n < 32 → ¬(h = th.home ∧ r.toNat ≤ n ∧ n < r.toNat + regs) → t.cell (.uni h n) = s.cell (.uni h n)) ∧
    t.vregs = s.vregs ∧ t.threads = s.threads ∧ Rule.sameMemory s t := by
  intro t
  have ht : t = s.putUni x th r.toNat regs v lat := by
    simp only [t]
    rw [State.putAll, ho]
  have hr : r.toNat < 32 := r.isLt
  have hregs' : regs = 1 ∨ regs = 2 := hregs.imp_right And.left
  obtain ⟨hv, hthreads⟩ := putUni_frame s x th r.toNat regs v lat
  refine ⟨fun j hj hlast => ?_, fun h n hn hout => ?_, by rw [ht, hv], by rw [ht, hthreads], State.putAll_vault .., State.putAll_pool .., State.putAll_locals ..⟩
  · rw [ht]
    exact putUni_run s x th r.toNat regs v lat (by omega) hregs' hj hlast
  · rw [ht]
    exact putUni_other s x th r.toNat regs v lat (by omega) hregs' hn hout

/-! A place of a thread is written to that thread alone. -/

theorem thread?_modThread (s : State) (t : Tid) {f : Thread → Thread} (hf : ∀ a, (f a).tid = a.tid) (u : Tid) :
    (s.modThread t f).thread? u = (s.thread? u).map fun a => if u = t then f a else a := by
  rw [State.thread?, State.modThread, State.thread?]
  induction s.threads with
  | nil => rfl
  | cons a as ih =>
    have htid : (if a.tid = t then f a else a).tid = a.tid := by
      split
      · exact hf a
      · rfl
    rw [List.map_cons, List.find?_cons, List.find?_cons, htid]
    by_cases ha : a.tid = u
    · simp [ha]
    · simpa [ha] using ih

theorem setPred_bit (p : BitVec 7) {n : Nat} (hn : n < 7) (b : Bool) (k : Nat) : (setPred p n b).getLsbD k = if k = n then b else p.getLsbD k := by
  unfold setPred
  by_cases hk : k < 7
  · cases b <;> by_cases hkn : k = n <;> simp [hk, hkn, hn, BitVec.getLsbD_or, BitVec.getLsbD_and, BitVec.getLsbD_not, BitVec.getLsbD_shiftLeft] <;> grind
  · have hkn : k ≠ n := by omega
    rw [if_neg hkn, BitVec.getLsbD_of_ge _ _ (by omega), BitVec.getLsbD_of_ge _ _ (by omega)]

/-- The fields of a state that a write of a predicate or an index register leaves. -/
theorem writeOwn_registers (s : State) (c : Nat) (u t : Tid) (j : Nat) (v : Word) (due : Nat) :
    Rule.sameRegisters s (s.writeFixed c u (.pred t j) v due) ∧ Rule.sameRegisters s (s.writeFixed c u (.xreg t j) v due) := by
  refine ⟨⟨?_, ?_, ?_, State.writeFixed_tiles .., State.writeFixed_regions ..⟩, ?_, ?_, ?_, State.writeFixed_tiles .., State.writeFixed_regions ..⟩ <;>
    simp [State.writeFixed, State.setCell, State.modCore, State.modThread, State.fullAt]

theorem lastValue_last {s : State} {x : Exec} {lat : Nat} {p : RegPlace} (hp : ∀ t, p ≠ .fpflags t) (h : Rule.landsLast s x lat p) (v : Word) :
    s.lastValue x.ig.core p v (x.due lat) = v := by
  have hlater := landsLast_iff.1 h
  cases p with
  | fpflags t => exact absurd rfl (hp t)
  | _ => rw [State.lastValue, if_neg (by simp [hlater])] <;> simp

theorem predicateDestination {s : State} {x : Exec} (lat v : Nat) {th th0 : Thread} (hth : s.thread? th.tid = some th0) {n : BitVec 3} {neg : Bool}
    (ho : x.f.opd = .pred n neg) :
    let t := s.putAll x 1 lat [(th, v)]
    (n = 7 → t = s) ∧ (n ≠ 7 → Rule.landsLast s x lat (.pred th.tid n.toNat) → ∃ th1, t.thread? th.tid = some th1 ∧ th1.preds.getLsbD n.toNat = decide (v ≠ 0) ∧
      (∀ k, k ≠ n.toNat → th1.preds.getLsbD k = th0.preds.getLsbD k) ∧ th1.xs = th0.xs ∧ th1.fpflags = th0.fpflags ∧ th1.pc = th0.pc) ∧
    (∀ tid, tid ≠ th.tid → t.thread? tid = s.thread? tid) ∧ Rule.sameRegisters s t ∧ Rule.sameMemory s t := by
  intro t
  have ht : t = if n = 7 then s else s.writeFixed x.ig.core th.tid (.pred th.tid n.toNat) (if v = 0 then 0 else 1) (x.due lat) := by
    simp only [t]
    rw [State.putAll, ho]
    rfl
  have hmem : Rule.sameMemory s t := ⟨State.putAll_vault .., State.putAll_pool .., State.putAll_locals ..⟩
  by_cases hn : n = 7
  · rw [if_pos hn] at ht
    exact ⟨fun _ => ht, fun h => absurd hn h, fun tid _ => by rw [ht], by rw [ht]; exact ⟨rfl, rfl, rfl, rfl, rfl⟩, hmem⟩
  · rw [if_neg hn] at ht
    have hlt : n.toNat < 7 := by
      have h8 := n.isLt
      have h7 : n.toNat ≠ 7 := fun h => hn (BitVec.eq_of_toNat_eq h)
      omega
    have hthreads : ∀ u, t.thread? u = (s.thread? u).map fun a =>
        if u = th.tid then { a with preds := setPred a.preds n.toNat (s.lastValue x.ig.core (.pred th.tid n.toNat) (if v = 0 then 0 else 1) (x.due lat) != 0) } else a := by
      intro u
      rw [ht, State.thread?, (writeFixed_files ..).2.2]
      exact thread?_modThread s th.tid
        (f := fun a => { a with preds := setPred a.preds n.toNat (s.lastValue x.ig.core (.pred th.tid n.toNat) (if v = 0 then 0 else 1) (x.due lat) != 0) })
        (fun _ => rfl) u
    refine ⟨fun h => absurd h hn, fun _ hlast => ?_, fun tid htid => ?_, ht ▸ (writeOwn_registers s x.ig.core th.tid th.tid n.toNat _ (x.due lat)).1, hmem⟩
    · rw [hthreads, hth, Option.map_some, if_pos rfl, lastValue_last (by simp) hlast]
      refine ⟨_, rfl, ?_, fun k hk => ?_, rfl, rfl, rfl⟩
      · rw [setPred_bit _ hlt, if_pos rfl]
        by_cases hv : v = 0 <;> simp [hv]
      · rw [setPred_bit _ hlt, if_neg hk]
    · rw [hthreads]
      simp [htid]

theorem indexDestination {s : State} {x : Exec} (lat v : Nat) {th th0 : Thread} (hth : s.thread? th.tid = some th0) {j m : BitVec 2}
    (ho : x.f.opd = .xreg j m) (hxs : th0.xs.length = 4) (hlast : Rule.landsLast s x lat (.xreg th.tid j.toNat)) :
    let t := s.putAll x 1 lat [(th, v)]
    (∃ th1, t.thread? th.tid = some th1 ∧ th1.xs.getD j.toNat 0 = BitVec.ofNat 32 v &&& 0x3FFFFFFF ∧
      (∀ k, k ≠ j.toNat → th1.xs.getD k 0 = th0.xs.getD k 0) ∧ th1.preds = th0.preds ∧ th1.fpflags = th0.fpflags ∧ th1.pc = th0.pc) ∧
    (∀ tid, tid ≠ th.tid → t.thread? tid = s.thread? tid) ∧ Rule.sameRegisters s t ∧ Rule.sameMemory s t := by
  intro t
  have ht : t = s.writeFixed x.ig.core th.tid (.xreg th.tid j.toNat) (BitVec.ofNat 32 v) (x.due lat) := by
    simp only [t]
    rw [State.putAll, ho]
    rfl
  have hthreads : ∀ u, t.thread? u = (s.thread? u).map fun a => if u = th.tid then { a with xs := a.xs.set j.toNat (BitVec.ofNat 32 v &&& 0x3FFFFFFF) } else a := by
    intro u
    rw [ht, State.thread?, (writeFixed_files ..).2.2, lastValue_last (by simp) hlast]
    exact thread?_modThread s th.tid (f := fun a => { a with xs := a.xs.set j.toNat (BitVec.ofNat 32 v &&& 0x3FFFFFFF) }) (fun _ => rfl) u
  have hj : j.toNat < th0.xs.length := by
    have := j.isLt
    omega
  refine ⟨?_, fun tid htid => ?_, ht ▸ (writeOwn_registers s x.ig.core th.tid th.tid j.toNat _ (x.due lat)).2, State.putAll_vault .., State.putAll_pool ..,
    State.putAll_locals ..⟩
  · rw [hthreads, hth, Option.map_some, if_pos rfl]
    refine ⟨_, rfl, ?_, fun k hk => ?_, rfl, rfl, rfl⟩
    · simp [List.getD_eq_getElem?_getD, hj]
    · simp [List.getD_eq_getElem?_getD, List.getElem?_set_ne (Ne.symm hk)]
  · rw [hthreads]
    simp [htid]

theorem otherDestinations : Rule.OtherDestinations := by
  intro s x lat v th th0 hth
  exact ⟨fun regs r m rest ho hregs => uniformDestination lat v th rest ho hregs, fun n neg ho => predicateDestination lat v hth ho,
    fun j m ho hxs hlast => indexDestination lat v hth ho hxs hlast⟩

/-! ### A state in which the place of a write in flight matters -/

/-- The lane beside another one, which writes first. -/
def laneBeside (t : Tid) : Tid := { t with lane := if t.lane = 0 then 1 else 0 }

/-- In flight on core 0: a write of the first lane's register 0, then `n` completions, then a write of an index register of the other lane, which names
register 1 before it and register 0 after it. -/
def lateWrites (t : Tid) (j : BitVec 2) (n : Nat) : List Landing :=
  ⟨10, .vec 0 0 (laneBeside t).lane, 0, t, none, 0⟩ :: (List.replicate n ⟨0, .nowhere, 0, t, none, 0⟩ ++ [⟨10, .xreg t j.toNat, 0xFF01, t, none, 0⟩])

/-- The machine with these writes in flight, and no thread, so that every index register's cell reads 0. -/
def lateState (tick : Nat) (t : Tid) (j : BitVec 2) (n : Nat) : State :=
  { State.reset with tick := tick, threads := [], vregs := [], cores := [{ landings := lateWrites t j n }] }

/-- An instruction that writes the register that index register `j` names. -/
def lateExec (j : BitVec 2) : Exec :=
  { ig := { core := 0, sched := 0, launch := 0, pc := 0, members := [] }, mem := [], act := []
    f := { mod := 0, guard := 7, opd := .idx 0 j false false 0, opa := .none, opb := .none, dist := 0, wait := 0, setf := 15, yld := false }
    now := 0, extra := 0, busy := 1, steps := [], inst := 0, flag := none }

/-- The two lanes, in two home groups of core 0. -/
def firstLane (t : Tid) : Thread := { tid := laneBeside t, home := 0, pc := 0 }
def secondLane (t : Tid) : Thread := { tid := t, home := 1, pc := 0 }

/-- The register that a lane names by its index register's value. -/
def lateReg (early : Bool) : Nat := if early = false then 1 else 0

theorem lateReg_le : ∀ b, lateReg b ≤ 1 := by decide

theorem lateReg_inj : ∀ b b', lateReg b = lateReg b' → b = b' := by decide

section Late
variable (tick : Nat) (t : Tid) (j : BitVec 2) (n : Nat)

theorem laneBeside_lane : (laneBeside t).lane ≠ t.lane ∧ (laneBeside t).lane < 128 := by
  unfold laneBeside
  dsimp only
  split <;> omega

theorem laneBeside_ne : laneBeside t ≠ t := fun h => (laneBeside_lane t).1 (by rw [h])

theorem firstLane_core : (firstLane t).core = 0 := by simp [firstLane, Thread.core, coreOf]

theorem secondLane_core : (secondLane t).core = 0 := by simp [secondLane, Thread.core, coreOf]

theorem lateState_core : (lateState tick t j n).core 0 = { landings := lateWrites t j n } := rfl

theorem lateState_xcell (u : Tid) (i : Nat) : (lateState tick t j n).cell (.xreg u i) = 0 := rfl

/-- The first lane names register 0. -/
theorem regNo_firstLane : (lateState tick t j n).regNo (firstLane t) (.idx 0 j false false 0) = 0 := by
  have hskip : ∀ l ∈ lateWrites t j n, l.place ≠ .xreg (laneBeside t) j.toNat := by
    intro l hl
    simp only [lateWrites, List.mem_cons, List.mem_append, List.mem_replicate, List.not_mem_nil, or_false] at hl
    obtain rfl | ⟨-, rfl⟩ | rfl := hl
    · simp
    · simp
    · simp [(laneBeside_ne t).symm]
  have hread : (lateState tick t j n).xreg (firstLane t) j.toNat = 0 := by
    have h := earlyValue_append tick 0 (readKey (.xreg (laneBeside t) j.toNat) (laneBeside t).lane) 0 0 (lateWrites t j n) [] hskip
    rw [List.append_nil] at h
    rw [State.xreg, readCell_xreg, firstLane_core]
    exact h.trans (by rw [earlyValue])
  rw [State.regNo, hread]
  decide

/-- What the second lane names where `m` writes stand before that of its index register. -/
theorem lateReg_eq {u : State} {as : List Landing} (htick : u.tick = tick) (hclock : (u.core 0).clock = 0) (hcell : u.cell (.xreg t j.toNat) = 0)
    (has : ∀ l ∈ as, l.place ≠ .xreg t j.toNat) (hl : (u.core 0).landings = as ++ [⟨10, .xreg t j.toNat, 0xFF01, t, none, 0⟩]) :
    u.regNo (secondLane t) (.idx 0 j false false 0) = lateReg (Config.earlyRead tick (readKey (.xreg t j.toNat) t.lane) as.length) := by
  have hread : u.xreg (secondLane t) j.toNat = if Config.earlyRead tick (readKey (.xreg t j.toNat) t.lane) as.length = false then 0xFF01 else 0 := by
    rw [State.xreg, readCell_xreg, secondLane_core, htick, hclock, show (secondLane t).tid = t from rfl, hcell, hl, earlyValue_append _ _ _ _ _ _ _ has,
      Nat.zero_add, earlyValue]
    simp [earlyValue]
  rw [State.regNo, hread, lateReg]
  split <;> decide

theorem regNo_secondLane : (lateState tick t j n).regNo (secondLane t) (.idx 0 j false false 0) =
    lateReg (Config.earlyRead tick (readKey (.xreg t j.toNat) t.lane) (n + 1)) := by
  have h := lateReg_eq tick t j (u := lateState tick t j n)
    (as := ⟨10, .vec 0 0 (laneBeside t).lane, 0, t, none, 0⟩ :: List.replicate n ⟨0, .nowhere, 0, t, none, 0⟩) rfl rfl rfl
    (by
      intro l hl
      simp only [List.mem_cons, List.mem_replicate] at hl
      obtain rfl | ⟨-, rfl⟩ := hl <;> simp) rfl
  rw [h, List.length_cons, List.length_replicate]

/-- The state once the first lane has written. -/
def lateNext : State := (lateState tick t j n).putVec (lateExec j) (firstLane t) 0 1 1 0

theorem lateNext_eq : lateNext tick t j n =
    (lateState tick t j n).writeFixed 0 (laneBeside t) (.vec 0 0 (laneBeside t).lane) (BitVec.ofNat 32 1) 0 := by
  rw [lateNext, State.putVec]
  exact if_neg (by decide)

/-- The first lane's write lands before the one in flight: the write of the second lane's index register is one place on. -/
theorem regNo_lateNext : (lateNext tick t j n).regNo (secondLane t) (.idx 0 j false false 0) =
    lateReg (Config.earlyRead tick (readKey (.xreg t j.toNat) t.lane) (n + 2)) := by
  obtain ⟨hthreads, -, htick, hclock⟩ := putVec_frame (lateState tick t j n) (lateExec j) (firstLane t) 0 1 1 0
  have hl : ((lateNext tick t j n).core 0).landings = (⟨0, .vec 0 0 (laneBeside t).lane, 0, laneBeside t, none, 0⟩ ::
      ⟨10, .vec 0 0 (laneBeside t).lane, 1, t, none, 0⟩ :: List.replicate n ⟨0, .nowhere, 0, t, none, 0⟩) ++
        [⟨10, .xreg t j.toNat, 0xFF01, t, none, 0⟩] := by
    rw [lateNext_eq, writeFixed_landings, if_pos ⟨rfl, Nat.zero_lt_one⟩, lateState_core, lateWrites, addLanding, if_pos ⟨rfl, Nat.zero_lt_succ 9⟩]
    rfl
  have h := lateReg_eq tick t j (u := lateNext tick t j n) htick (hclock 0) (by simp only [State.cell, State.thread?]; rw [lateNext, hthreads]; rfl)
    (by
      intro l hl
      simp only [List.mem_cons, List.mem_replicate] at hl
      obtain rfl | rfl | ⟨-, rfl⟩ := hl <;> simp) hl
  rw [h, List.length_cons, List.length_cons, List.length_replicate]

end Late

section Late
variable (tick : Nat) (t : Tid) (j : BitVec 2) (n : Nat)

/-- No write in flight is of a register of the second lane. -/
theorem lateState_landsLast (r : Nat) : Rule.landsLast (lateState tick t j n) (lateExec j) 0 (.vec (secondLane t).home r (secondLane t).tid.lane) := by
  intro d hd hplace
  have hd' : d ∈ lateWrites t j n := hd
  simp only [lateWrites, List.mem_cons, List.mem_append, List.mem_replicate, List.not_mem_nil, or_false] at hd'
  obtain rfl | ⟨-, rfl⟩ | rfl := hd'
  · simp [secondLane] at hplace
  · cases hplace
  · cases hplace

theorem lateState_putAll : (lateState tick t j n).putAll (lateExec j) 1 0 [(firstLane t, 1), (secondLane t, 5)] =
    (lateNext tick t j n).writeFixed 0 t (.vec 1 (lateReg (Config.earlyRead tick (readKey (.xreg t j.toNat) t.lane) (n + 2))) t.lane) (BitVec.ofNat 32 5) 0 := by
  have hv : vectorOperand (.idx 0 j false false 0) := .inr ⟨0, j, false, false, 0, rfl⟩
  have hf : (lateExec j).f.opd = .idx 0 j false false 0 := rfl
  rw [putAll_vector (hf ▸ hv), hf, List.foldl_cons, List.foldl_cons, List.foldl_nil, putDst_vector hv, putDst_vector hv, regNo_firstLane, ← lateNext, regNo_lateNext,
    State.putVec]
  exact if_neg (by decide)

/-- The register of the second lane that its result does not go to keeps its 0. -/
theorem lateNext_other (ht : t.lane < 128) {b b' : Bool} (h : lateReg b ≠ lateReg b') :
    ((lateNext tick t j n).writeFixed 0 t (.vec 1 (lateReg b') t.lane) (BitVec.ofNat 32 5) 0).cell (.vec 1 (lateReg b) t.lane) = 0 := by
  have hb := lateReg_le b
  have hb' := lateReg_le b'
  obtain ⟨-, hl⟩ := laneBeside_lane t
  have hkey : vkey 1 (lateReg b) t.lane ≠ vkey 1 (lateReg b') t.lane := fun hk => h ((vkey_eq_iff (by omega) ht (by omega) ht).1 hk).2.1
  have hfirst : vkey 1 (lateReg b) t.lane ≠ vkey 0 0 (laneBeside t).lane := fun hk => by
    have := ((vkey_eq_iff (by omega) ht (by omega) hl).1 hk).1
    omega
  rw [writeVec_cell_other _ _ _ _ _ hkey, lateNext_eq, writeVec_cell_other _ _ _ _ _ hfirst]
  rfl

end Late

/-- The second lane's result goes to the register it names once the first has written, and the obligation has it in the one it named before. -/
theorem placeFree_of_vectorDestinations (h : Rule.VectorDestinations) : placesFree := by
  intro tick t j hlane n
  obtain ⟨hbeside, hbesideLane⟩ := laneBeside_lane t
  obtain ⟨hrun, -⟩ := h (lateState tick t j n) (lateExec j) 1 0 [(firstLane t, 1), (secondLane t, 5)] (.inr ⟨0, j, false, false, 0, rfl⟩) (.inl rfl)
    (by
      intro p hp
      simp only [List.mem_cons, List.not_mem_nil, or_false] at hp
      obtain rfl | rfl := hp
      · exact ⟨hbesideLane, by rw [show (lateExec j).f.opd = .idx 0 j false false 0 from rfl, regNo_firstLane]; decide⟩
      · refine ⟨hlane, ?_⟩
        rw [show (lateExec j).f.opd = .idx 0 j false false 0 from rfl, regNo_secondLane]
        have := lateReg_le (Config.earlyRead tick (readKey (.xreg t j.toNat) t.lane) (n + 1))
        omega)
    (by simp [firstLane, secondLane])
  have hcell := (hrun (secondLane t, 5) (by simp) 0 (by decide)).1 (lateState_landsLast tick t j n _)
  rw [show (lateExec j).f.opd = .idx 0 j false false 0 from rfl, regNo_secondLane, lateState_putAll] at hcell
  by_contra hne
  have hother : lateReg (Config.earlyRead tick (readKey (.xreg t j.toNat) t.lane) (n + 1)) ≠ lateReg (Config.earlyRead tick (readKey (.xreg t j.toNat) t.lane) (n + 2)) :=
    fun h => hne (lateReg_inj _ _ h).symm
  have hfive := hcell.symm.trans (lateNext_other tick t j n hlane hother)
  simp at hfive

/-- The obligation holds exactly where the free choice of early reads does not ask how many writes in flight stand before the one it decides on. The spec
leaves that choice open and `Config.earlyRead` has no body, so neither the obligation nor its negation follows. -/
theorem destinations_iff_placesFree : Obligations.Destinations ↔ placesFree :=
  ⟨fun h => placeFree_of_vectorDestinations h.1, fun h => ⟨vectorDestinations_of_placesFree h, otherDestinations⟩⟩

end Sys2Proof.Machine
end
